-- ==== Sys2Proof/Word.lean ====
section
/-!
DEFINITION. The word types of the HY-16 and their plainest arithmetic (R2: bit 0 is the least
significant bit, values are little-endian).
-/
namespace Sys2Proof

/-- One byte of memory. -/
abbrev Byte := BitVec 8
/-- A 32-bit register lane (R113). -/
abbrev Word := BitVec 32
/-- A 64-bit uniform register, address or program counter (R113). -/
abbrev DWord := BitVec 64
/-- A set of lanes: bit l is lane l. -/
abbrev Mask := BitVec 64

/-- Lane `l` belongs to the mask. -/
def Mask.has (m : Mask) (l : Nat) : Bool := m.getLsbD l

/-- The mask of the one lane `l`. -/
def Mask.one (l : Nat) : Mask := BitVec.ofNat 64 (2 ^ l)

/-- The 64 architectural lanes in ascending order (R5). -/
def laneNumbers : List Nat := List.range 64

/-- The lanes of a mask in ascending order. -/
def Mask.lanes (m : Mask) : List Nat := laneNumbers.filter m.has

/-- The number of lanes of a mask. -/
def Mask.count (m : Mask) : Nat := m.lanes.length

/-- The lowest lane of a mask (0 for the empty mask). -/
def Mask.lowest (m : Mask) : Nat := m.lanes.headD 0

/-- The mask of the lanes that satisfy a test. -/
def Mask.ofTest (t : Nat → Bool) : Mask :=
  BitVec.ofNat 64 (laneNumbers.foldl (fun a l => if t l then a + 2 ^ l else a) 0)

/-- Bits `[hi:lo]` of a natural number (R2). -/
def bitsOf (n hi lo : Nat) : Nat := (n >>> lo) % 2 ^ (hi + 1 - lo)

/-- Two 32-bit halves as one 64-bit value, the low half first (R198). -/
def joinWords (lo hi : Word) : DWord := hi ++ lo

/-- Bits [31:0] of a 64-bit value. -/
def loWord (x : DWord) : Word := x.setWidth 32
/-- Bits [63:32] of a 64-bit value. -/
def hiWord (x : DWord) : Word := (x >>> 32).setWidth 32

end Sys2Proof
end

