-- ==== Sys2Proof/Syntax.lean ====
section
/-!
DEFINITION. The syntax of the HY-16's steps: the operand forms of the nine instruction formats
(R32 to R43), and Instr, with one constructor for each row of the opcode table: 172 encoded
instructions and 114 steps of the device's other agents (95_what_each_step_holds.md). Fields stay
the bit fields the formats give them; their meaning is read by the machine, their legality by
Sys2Proof/WellFormed.lean.
-/
namespace Sys2Proof

/-- The length codes of R28. -/
inductive Len where
  | l64 | l96 | l128
  deriving DecidableEq, Repr

/-- Bytes of an instruction of this length (R28). -/
def Len.bytes : Len → Nat
  | .l64 => 8
  | .l96 => 12
  | .l128 => 16

/-- The common head (R32), less the length and the opcode. -/
structure Head where
  e : Bool
  gn : Bool
  g : BitVec 4
  deriving DecidableEq, Repr

/-- NOP: only its length (R58). -/
structure NopForm where
  len : Len
  deriving DecidableEq, Repr

/-- Formats V, W and P (R35, R37, R39); the fields a length does not have are zero. -/
structure RForm where
  len : Len
  d : BitVec 11
  a : BitVec 11
  b : BitVec 11
  c : BitVec 11
  sub : BitVec 7
  la : Bool
  lb : Bool
  lc : Bool
  mod : BitVec 6
  pa : BitVec 9
  pb : BitVec 9
  pc : BitVec 9
  deriving DecidableEq, Repr

/-- Formats VI and WI (R36, R38); `imm` is IMM20 sign-extended or IMM32. -/
structure IForm where
  len : Len
  d : BitVec 11
  a : BitVec 11
  la : Bool
  sub : BitVec 7
  mod : BitVec 6
  imm : BitVec 32
  deriving DecidableEq, Repr

/-- Format C (R41). -/
structure CForm where
  off : BitVec 26
  ka : BitVec 6
  cp : BitVec 3
  cn : Bool
  sub : BitVec 4
  imm : BitVec 8
  deriving DecidableEq, Repr

/-- Format K at 64 bits (R40). -/
structure KForm where
  kd : BitVec 6
  ka : BitVec 6
  kb : BitVec 6
  sub : BitVec 6
  imm : BitVec 24
  deriving DecidableEq, Repr

/-- KLDI at 128 bits (R40, R165). -/
structure LForm where
  kd : BitVec 6
  imm : BitVec 64
  deriving DecidableEq, Repr

/-- Format M (R42). -/
structure MForm where
  d : BitVec 11
  a : BitVec 11
  kb : BitVec 6
  sub : BitVec 7
  ord : BitVec 3
  def_ : Bool
  la : Bool
  ch : BitVec 2
  off : BitVec 32
  deriving DecidableEq, Repr

/-- Format X (R43). The format has no last-read bit, so ACCWR marks none (R342 allows LA; entry 8). -/
structure XForm where
  d : BitVec 11
  a : BitVec 11
  ka : BitVec 6
  kb : BitVec 6
  kc : BitVec 6
  sub : BitVec 7
  imm : BitVec 32
  immB : BitVec 32
  deriving DecidableEq, Repr

/-- The engines that acknowledge a pre-emption (R188). -/
inductive Engine where
  | thread | stream | copy | matrix
  deriving DecidableEq, Repr

/-- Where an uncorrectable error is found (R393, R400). -/
inductive ErrorSite where
  | memory (sector : Nat)
  | coreSram (core slot : Nat)
  deriving DecidableEq, Repr

/-- A translation as the host's ATS answer gives it (R242, R243, R412). -/
structure AtsAnswer where
  part : Nat
  pasid : Nat
  va : Nat
  size : Nat
  pa : Nat
  host : Bool
  writable : Bool
  deriving DecidableEq, Repr

/-- One constructor for each row of spec/opcode_table.json, in the table's order. -/
inductive Instr where
  /-- NOP (R58). -/
  | nop (h : Head) (f : NopForm)
  /-- BRA (R140). -/
  | bra (h : Head) (f : CForm)
  /-- BRU (R140). -/
  | bru (h : Head) (f : CForm)
  /-- BRX (R141). -/
  | brx (h : Head) (f : RForm)
  /-- CALL (R142). -/
  | call (h : Head) (f : CForm)
  /-- CALLX (R142). -/
  | callx (h : Head) (f : RForm)
  /-- RET (R142). -/
  | ret (h : Head) (f : CForm)
  /-- EXIT (R143). -/
  | exit (h : Head) (f : CForm)
  /-- DEPART (R144). -/
  | depart (h : Head) (f : CForm)
  /-- SLEEP (R145). -/
  | sleep (h : Head) (f : CForm)
  /-- TRAP (R146). -/
  | trap (h : Head) (f : CForm)
  /-- BKPT (R146). -/
  | bkpt (h : Head) (f : CForm)
  /-- STEP (R147). -/
  | step (h : Head) (f : CForm)
  /-- LOOP (R140). -/
  | loop (h : Head) (f : CForm)
  /-- IADD (R149). -/
  | iadd (h : Head) (f : RForm)
  /-- ISUB (R149). -/
  | isub (h : Head) (f : RForm)
  /-- IMUL (R149). -/
  | imul (h : Head) (f : RForm)
  /-- IMULH (R150). -/
  | imulh (h : Head) (f : RForm)
  /-- IMAD (R149). -/
  | imad (h : Head) (f : RForm)
  /-- IMIN (R149). -/
  | imin (h : Head) (f : RForm)
  /-- IMAX (R149). -/
  | imax (h : Head) (f : RForm)
  /-- IABS (R149). -/
  | iabs (h : Head) (f : RForm)
  /-- AND (R151). -/
  | and (h : Head) (f : RForm)
  /-- OR (R151). -/
  | or (h : Head) (f : RForm)
  /-- XOR (R151). -/
  | xor (h : Head) (f : RForm)
  /-- ANDN (R151). -/
  | andn (h : Head) (f : RForm)
  /-- SHL (R152). -/
  | shl (h : Head) (f : RForm)
  /-- SHR (R152). -/
  | shr (h : Head) (f : RForm)
  /-- SAR (R152). -/
  | sar (h : Head) (f : RForm)
  /-- ROT (R152). -/
  | rot (h : Head) (f : RForm)
  /-- POPC (R153). -/
  | popc (h : Head) (f : RForm)
  /-- CLZ (R153). -/
  | clz (h : Head) (f : RForm)
  /-- BREV (R153). -/
  | brev (h : Head) (f : RForm)
  /-- BFX (R153). -/
  | bfx (h : Head) (f : RForm)
  /-- BFI (R153). -/
  | bfi (h : Head) (f : RForm)
  /-- SEL (R154). -/
  | sel (h : Head) (f : RForm)
  /-- ICMP (R155). -/
  | icmp (h : Head) (f : RForm)
  /-- IADD64 (R156). -/
  | iadd64 (h : Head) (f : RForm)
  /-- ISUB64 (R156). -/
  | isub64 (h : Head) (f : RForm)
  /-- IMULW (R156). -/
  | imulw (h : Head) (f : RForm)
  /-- IDIV (R150). -/
  | idiv (h : Head) (f : RForm)
  /-- IREM (R150). -/
  | irem (h : Head) (f : RForm)
  /-- LEA (R156). -/
  | lea (h : Head) (f : RForm)
  /-- SHFL (R157). -/
  | shfl (h : Head) (f : RForm)
  /-- MOV (R158). -/
  | mov (h : Head) (f : RForm)
  /-- MOVK (R159). -/
  | movk (h : Head) (f : RForm)
  /-- IADDI (R161). -/
  | iaddi (h : Head) (f : IForm)
  /-- IMULI (R161). -/
  | imuli (h : Head) (f : IForm)
  /-- ANDI (R161). -/
  | andi (h : Head) (f : IForm)
  /-- ORI (R161). -/
  | ori (h : Head) (f : IForm)
  /-- XORI (R161). -/
  | xori (h : Head) (f : IForm)
  /-- SHLI (R161). -/
  | shli (h : Head) (f : IForm)
  /-- SHRI (R161). -/
  | shri (h : Head) (f : IForm)
  /-- SARI (R161). -/
  | sari (h : Head) (f : IForm)
  /-- ICMPI (R161). -/
  | icmpi (h : Head) (f : IForm)
  /-- MOVI (R162). -/
  | movi (h : Head) (f : IForm)
  /-- KMOV (R164). -/
  | kmov (h : Head) (f : KForm)
  /-- KADD (R164). -/
  | kadd (h : Head) (f : KForm)
  /-- KSUB (R164). -/
  | ksub (h : Head) (f : KForm)
  /-- KMUL (R164). -/
  | kmul (h : Head) (f : KForm)
  /-- KAND (R164). -/
  | kand (h : Head) (f : KForm)
  /-- KOR (R164). -/
  | kor (h : Head) (f : KForm)
  /-- KXOR (R164). -/
  | kxor (h : Head) (f : KForm)
  /-- KSHL (R164). -/
  | kshl (h : Head) (f : KForm)
  /-- KSHR (R164). -/
  | kshr (h : Head) (f : KForm)
  /-- KSAR (R164). -/
  | ksar (h : Head) (f : KForm)
  /-- KCMP (R164). -/
  | kcmp (h : Head) (f : KForm)
  /-- KSEL (R164). -/
  | ksel (h : Head) (f : KForm)
  /-- KLDI (R165). -/
  | kldi (h : Head) (f : KForm)
  /-- KLDI_128 (R165). -/
  | kldi128 (h : Head) (f : LForm)
  /-- KMIN (R164). -/
  | kmin (h : Head) (f : KForm)
  /-- KMAX (R164). -/
  | kmax (h : Head) (f : KForm)
  /-- KRED (R166). -/
  | kred (h : Head) (f : KForm)
  /-- PAND (R167). -/
  | pand (h : Head) (f : RForm)
  /-- POR (R167). -/
  | por (h : Head) (f : RForm)
  /-- PXOR (R167). -/
  | pxor (h : Head) (f : RForm)
  /-- PNOT (R167). -/
  | pnot (h : Head) (f : RForm)
  /-- PSET (R167). -/
  | pset (h : Head) (f : RForm)
  /-- PBAL (R168). -/
  | pbal (h : Head) (f : RForm)
  /-- PANY (R168). -/
  | pany (h : Head) (f : RForm)
  /-- PALL (R168). -/
  | pall (h : Head) (f : RForm)
  /-- PELECT (R168). -/
  | pelect (h : Head) (f : RForm)
  /-- PMOV (R169). -/
  | pmov (h : Head) (f : RForm)
  /-- MOVX (R171). -/
  | movx (h : Head) (f : IForm)
  /-- MOVC (R172). -/
  | movc (h : Head) (f : KForm)
  /-- IDXSET (R173). -/
  | idxset (h : Head) (f : IForm)
  /-- IDXADD (R174). -/
  | idxadd (h : Head) (f : IForm)
  /-- REINT (R175). -/
  | reint (h : Head) (f : RForm)
  /-- FADD (R219). -/
  | fadd (h : Head) (f : RForm)
  /-- FSUB (R219). -/
  | fsub (h : Head) (f : RForm)
  /-- FMUL (R219). -/
  | fmul (h : Head) (f : RForm)
  /-- FFMA (R219). -/
  | ffma (h : Head) (f : RForm)
  /-- FMIN (R221). -/
  | fmin (h : Head) (f : RForm)
  /-- FMAX (R221). -/
  | fmax (h : Head) (f : RForm)
  /-- FCMP (R223). -/
  | fcmp (h : Head) (f : RForm)
  /-- FCLASS (R224). -/
  | fclass (h : Head) (f : RForm)
  /-- FRCP (R227). -/
  | frcp (h : Head) (f : RForm)
  /-- FSQRT (R227). -/
  | fsqrt (h : Head) (f : RForm)
  /-- FRSQ (R227). -/
  | frsq (h : Head) (f : RForm)
  /-- FEXP2 (R227). -/
  | fexp2 (h : Head) (f : RForm)
  /-- FLOG2 (R227). -/
  | flog2 (h : Head) (f : RForm)
  /-- FSINP (R227). -/
  | fsinp (h : Head) (f : RForm)
  /-- FCOSP (R227). -/
  | fcosp (h : Head) (f : RForm)
  /-- FTANH (R227). -/
  | ftanh (h : Head) (f : RForm)
  /-- FDIV (R227). -/
  | fdiv (h : Head) (f : RForm)
  /-- FRND (R225). -/
  | frnd (h : Head) (f : RForm)
  /-- FSCALE (R226). -/
  | fscale (h : Head) (f : RForm)
  /-- FCPYS (R222). -/
  | fcpys (h : Head) (f : RForm)
  /-- DWADD (R229). -/
  | dwadd (h : Head) (f : RForm)
  /-- DWADDS (R229). -/
  | dwadds (h : Head) (f : RForm)
  /-- DWMUL (R229). -/
  | dwmul (h : Head) (f : RForm)
  /-- DWMULS (R229). -/
  | dwmuls (h : Head) (f : RForm)
  /-- DWNORM (R229). -/
  | dwnorm (h : Head) (f : RForm)
  /-- VRSUM (R231). -/
  | vrsum (h : Head) (f : RForm)
  /-- VRSUMC (R231). -/
  | vrsumc (h : Head) (f : RForm)
  /-- VRMAX (R231). -/
  | vrmax (h : Head) (f : RForm)
  /-- VRMIN (R231). -/
  | vrmin (h : Head) (f : RForm)
  /-- VRDOTC (R231). -/
  | vrdotc (h : Head) (f : RForm)
  /-- CVT (R233). -/
  | cvt (h : Head) (f : RForm)
  /-- CVTBX (R236). -/
  | cvtbx (h : Head) (f : RForm)
  /-- CVTXB (R237). -/
  | cvtxb (h : Head) (f : RForm)
  /-- PACK2 (R235). -/
  | pack2 (h : Head) (f : RForm)
  /-- UNPK2 (R235). -/
  | unpk2 (h : Head) (f : RForm)
  /-- CVTI (R234). -/
  | cvti (h : Head) (f : RForm)
  /-- LD (R250). -/
  | ld (h : Head) (f : MForm)
  /-- ST (R250). -/
  | st (h : Head) (f : MForm)
  /-- LDL (R250). -/
  | ldl (h : Head) (f : MForm)
  /-- STL (R250). -/
  | stl (h : Head) (f : MForm)
  /-- LDK (R252). -/
  | ldk (h : Head) (f : MForm)
  /-- ATOM (R254). -/
  | atom (h : Head) (f : MForm)
  /-- RED (R255). -/
  | red (h : Head) (f : MForm)
  /-- ATOML (R257). -/
  | atoml (h : Head) (f : MForm)
  /-- PREF (R258). -/
  | pref (h : Head) (f : MForm)
  /-- FENCE (R259). -/
  | fence (h : Head) (f : MForm)
  /-- CCLEAN (R260). -/
  | cclean (h : Head) (f : MForm)
  /-- SCFG (R273). -/
  | scfg (h : Head) (f : XForm)
  /-- SDRAIN (R274). -/
  | sdrain (h : Head) (f : RForm)
  /-- SCLOSE (R275). -/
  | sclose (h : Head) (f : RForm)
  /-- SPOS (R276). -/
  | spos (h : Head) (f : RForm)
  /-- SEOS (R276). -/
  | seos (h : Head) (f : RForm)
  /-- SSEEK (R277). -/
  | sseek (h : Head) (f : XForm)
  /-- BINIT (R311). -/
  | binit (h : Head) (f : XForm)
  /-- EXPECT (R312). -/
  | expect (h : Head) (f : XForm)
  /-- ARRIVE (R312). -/
  | arrive (h : Head) (f : XForm)
  /-- AWAIT (R313). -/
  | await (h : Head) (f : XForm)
  /-- RINIT (R314). -/
  | rinit (h : Head) (f : XForm)
  /-- AWAITF (R315). -/
  | awaitf (h : Head) (f : XForm)
  /-- RELSLOT (R315). -/
  | relslot (h : Head) (f : XForm)
  /-- CSTEP (R316). -/
  | cstep (h : Head) (f : XForm)
  /-- CSCHED (R317). -/
  | csched (h : Head) (f : XForm)
  /-- RCFENCE (R318). -/
  | rcfence (h : Head) (f : XForm)
  /-- RCFENCE_ALL (R318). -/
  | rcfenceAll (h : Head) (f : XForm)
  /-- CSTAT (R320). -/
  | cstat (h : Head) (f : XForm)
  /-- RCSEAL (R319). -/
  | rcseal (h : Head) (f : XForm)
  /-- MMA (R330). -/
  | mma (h : Head) (f : XForm)
  /-- MMAS (R330). -/
  | mmas (h : Head) (f : XForm)
  /-- MZERO (R331). -/
  | mzero (h : Head) (f : XForm)
  /-- ACCLD (R332). -/
  | accld (h : Head) (f : XForm)
  /-- ACCST (R332). -/
  | accst (h : Head) (f : XForm)
  /-- ACCRD (R333). -/
  | accrd (h : Head) (f : XForm)
  /-- ACCWR (R333). -/
  | accwr (h : Head) (f : XForm)
  /-- MLIVE (R337). -/
  | mlive (h : Head) (f : XForm)
  /-- MPERT (R339). -/
  | mpert (h : Head) (f : XForm)
  /-- MSTAT (R340). -/
  | mstat (h : Head) (f : XForm)
  /-- FETCHW (R373). -/
  | fetchw (h : Head) (f : XForm)
  /-- SPAWN (R374). -/
  | spawn (h : Head) (f : XForm)
  /-- ENQ (R375). -/
  | enq (h : Head) (f : KForm)
  /-- JOBST_QUERY (R376). -/
  | jobstQuery (h : Head) (f : KForm)
  /-- JOBST_CANCEL (R376). -/
  | jobstCancel (h : Head) (f : KForm)
  /-- SIGCHK (R407). -/
  | sigchk (h : Head) (f : RForm)
  /-- MODE_QUERY (R408). -/
  | modeQuery (h : Head) (f : KForm)
  /-- MODE_REQ (R408). -/
  | modeReq (h : Head) (f : KForm)
  /-- LOAD_DATA_RETURN (R120). -/
  | loadDataReturn (core rid : Nat)
  /-- TLB_FILL_COMPLETE (R243). -/
  | tlbFillComplete (core : Nat) (va : DWord) (evict : Nat)
  /-- WAKE_TIME (R145). -/
  | wakeTime (core rid : Nat)
  /-- STREAM_FETCH_COMPLETE (R264). -/
  | streamFetchComplete (core ctx lane : Nat)
  /-- READ_BACK (R125, R126): `good` unless an error on the way has changed what is read (entry 47). -/
  | readBack (core : Nat) (good : Bool)
  /-- RELAUNCH (R127). -/
  | relaunch (core : Nat)
  /-- PUSH_TRANSLATION_RESTORED (R269). -/
  | pushTranslationRestored (core ctx lane : Nat) (ok : Bool)
  /-- FAULT_RECORD_CONSUMED (R181). -/
  | faultRecordConsumed (n : Nat)
  /-- FAULT_ANSWER_RESUME (R184). -/
  | faultAnswerResume (seq : Nat)
  /-- FAULT_ANSWER_SKIP (R184). -/
  | faultAnswerSkip (seq : Nat)
  /-- FAULT_ANSWER_SAVE (R186). -/
  | faultAnswerSave (seq : Nat)
  /-- FAULT_ANSWER_KILL (R184). -/
  | faultAnswerKill (seq : Nat)
  /-- FAULT_ANSWER_STEPBACK (R194). -/
  | faultAnswerStepback (seq n : Nat)
  /-- BLOCK_DONE (R302). -/
  | blockDone (core slot : Nat)
  /-- PREEMPT_REQUEST (R187). -/
  | preemptRequest (cores : List Nat)
  /-- PREEMPT_ACK (R188). -/
  | preemptAck (core : Nat) (engine : Engine)
  /-- PREMAX_EXPIRY (R188). -/
  | premaxExpiry (core slot : Nat)
  /-- SAVE_ROOM_AVAILABLE (R190). -/
  | saveRoomAvailable (core : Nat)
  /-- CONTEXT_RESTORE (R191). -/
  | contextRestore (core : Nat)
  /-- SCRIPT_READ_COMPLETE (R434). -/
  | scriptReadComplete (core slot : Nat)
  /-- COPY_START (R285). -/
  | copyStart (core slot : Nat)
  /-- RECORD_OBTAINED (R290). -/
  | recordObtained (core copy : Nat)
  /-- COPY_COMPLETE (R293). -/
  | copyComplete (core copy : Nat)
  /-- MATRIX_START (R335). -/
  | matrixStart (pair : Nat)
  /-- MATRIX_LAST_READ (R334). -/
  | matrixLastRead (pair : Nat)
  /-- MATRIX_RETIRE (R336). -/
  | matrixRetire (pair : Nat)
  /-- DMWR_SUBMIT (R352). -/
  | dmwrSubmit (vf queue off : Nat) (data : List Byte)
  /-- WINDOW_POSTED_WRITE (R352). -/
  | windowPostedWrite (vf queue : Nat)
  /-- QUEUE_HEAD_PASS (R353). -/
  | queueHeadPass (queue : Nat)
  /-- CANCEL_REGISTER_WRITE (R354). -/
  | cancelRegisterWrite (vf : Nat) (value : Word)
  /-- CANCEL (R367). -/
  | cancel
  /-- BIND (R361). -/
  | bind (queue : Nat) (rec : BitVec 128)
  /-- DRAIN (R365). -/
  | drain (queue : Nat) (rec : BitVec 128) (addr : DWord)
  /-- REPRIORITISE (R362). -/
  | reprioritise (queue : Nat) (rec : BitVec 128)
  /-- CORE_ROW_BIND (R362). -/
  | coreRowBind (core slot : Nat) (rec : BitVec 128)
  /-- DRAIN_POSITION_WRITE (R365). -/
  | drainPositionWrite (launch : Nat)
  /-- CONSISTENT_CUT (R366). -/
  | consistentCut (launch : Nat)
  /-- CUT_COMPLETE (R366). -/
  | cutComplete (launch : Nat) (addr : DWord)
  /-- WORK_REQUEST (R364). -/
  | workRequest (core : Nat)
  /-- BLOCK_PLACE (R108). -/
  | blockPlace (core : Nat)
  /-- FETCHW_SERVICE (R373). -/
  | fetchwService (core rid : Nat)
  /-- FINAL_UPDATE (R359). -/
  | finalUpdate (launch : Nat)
  /-- SECOND_UPDATE (R359). -/
  | secondUpdate (launch : Nat)
  /-- WATCHDOG (R371). -/
  | watchdog (core slot troupe : Nat)
  /-- QUENCH_ROTATE (R368). -/
  | quenchRotate
  /-- ROTGAP_EXPIRY (R368). -/
  | rotgapExpiry
  /-- QUENCH_DRAIN_DONE (R368). -/
  | quenchDrainDone (core : Nat)
  /-- QUENCH_DRAIN_TIMEOUT (R368). -/
  | quenchDrainTimeout (core : Nat)
  /-- SCAN_PASS (R368). -/
  | scanPass (core : Nat)
  /-- SCAN_FAIL (R397). -/
  | scanFail (core : Nat) (laneFaults : List Nat) (laneOnly secondPass : Bool)
  /-- RESTORE_COMPLETE (R368). -/
  | restoreComplete (core : Nat)
  /-- SIRIPQ_WRITE (R388). -/
  | siripqWrite (value : DWord)
  /-- SIRIP_REQUEST (R388). -/
  | siripRequest
  /-- PAIR_DRAIN_DONE (R389). -/
  | pairDrainDone (pair : Nat)
  /-- MATCH_WINDOW_EXPIRY (R385). -/
  | matchWindowExpiry (core slot troupe : Nat)
  /-- BLOCK_RETRY_PLACE (R392). -/
  | blockRetryPlace (core : Nat)
  /-- LASTING_SCAN_COMPLETE (R394). -/
  | lastingScanComplete (pair : Nat) (leaderFails understudyFails : Bool)
  /-- CORRECTED_ERROR (R393). -/
  | correctedError (core row : Nat)
  /-- UNCORRECTABLE_ERROR (R400). -/
  | uncorrectableError (site : ErrorSite)
  /-- CHANNEL_FAILING (R398). -/
  | channelFailing (channel : Nat)
  /-- CHANNEL_FREE_ACK (R398). -/
  | channelFreeAck
  /-- CHANNEL_MIGRATION_DONE (R398). -/
  | channelMigrationDone
  /-- AGEMON_SAMPLE (R399). -/
  | agemonSample (cluster monitor : Nat) (value : Word)
  /-- CINJ_WRITE (R401). -/
  | cinjWrite (value : DWord)
  /-- INJECT_ARM (R401). -/
  | injectArm (core : Nat)
  /-- SIRIPACK_WRITE (R402). -/
  | siripackWrite (value : Word)
  /-- SIRIP_LOCKSTEP_ERROR (R402). -/
  | siripLockstepError
  /-- TIME_SLOT_WRITE (R22). -/
  | timeSlotWrite (slot : Nat) (value : Byte)
  /-- FRAME_BOUNDARY (R22). -/
  | frameBoundary
  /-- PARTITION_REG_WRITE (R419). -/
  | partitionRegWrite (part off : Nat) (value : DWord)
  /-- MERGE (R421). -/
  | merge (a b : Nat)
  /-- SPLIT (R421). -/
  | split (a b firstCluster : Nat) (colour : DWord) (slots : DWord)
  /-- KEYSET (R426). -/
  | keyset (vf core slot : Nat) (pasid : BitVec 20) (key : BitVec 256) (salt : Word) (ctr : DWord)
  /-- ATS_INVALIDATION (R418). -/
  | atsInvalidation (vf pasid : Nat) (va size : Nat)
  /-- PRG_RESPONSE_SUCCESS (R417). -/
  | prgResponseSuccess (index : Nat) (answer : AtsAnswer)
  /-- PRG_RESPONSE_INVALID (R417). -/
  | prgResponseInvalid (index : Nat)
  /-- PRG_RESPONSE_FAILURE (R417). -/
  | prgResponseFailure
  /-- PRI_REENABLE (R417). -/
  | priReenable
  /-- ATOMICOP_COMPLETION (R256). -/
  | atomicopCompletion (core rid : Nat) (ok : Bool)
  /-- RECEIVED_ATOMICOP (R412). -/
  | receivedAtomicop (vf : Nat)
  /-- HOST_MEMORY_REQUEST (R433). -/
  | hostMemoryRequest (vf : Nat) (addr : DWord) (write : Bool) (data : List Byte)
  /-- UNSTREAMED_REQUEST (R422). -/
  | unstreamedRequest (vf : Nat)
  /-- IDE_INTEGRITY_FAILURE (R422). -/
  | ideIntegrityFailure (vf : Nat)
  /-- K_SET_GO (R422). -/
  | kSetGo (vf : Nat)
  /-- TDI_LOCK (R425). -/
  | tdiLock (vf : Nat)
  /-- TDI_START (R425). -/
  | tdiStart (vf : Nat)
  /-- STOP_INTERFACE (R425). -/
  | stopInterface (vf : Nat)
  /-- SPDM_CERT (R423). -/
  | spdmCert
  /-- SPDM_CHAL (R423). -/
  | spdmChal
  /-- SPDM_MEAS (R424). -/
  | spdmMeas (index : Nat)
  /-- SPDM_KEY_EX (R423). -/
  | spdmKeyEx
  /-- FIRMWARE_IMAGE_WRITE (R430). -/
  | firmwareImageWrite (verifies : Bool)
  /-- PENDING_WRITE (R428). -/
  | pendingWrite (value : BitVec 2)
  /-- ROLLBACK_CLEAR (R428). -/
  | rollbackClear
  /-- MGMT_CORE_RESTART (R427). -/
  | mgmtCoreRestart
  /-- HEARTBEAT (R430). -/
  | heartbeat
  /-- HEARTBEAT_TIMEOUT (R430). -/
  | heartbeatTimeout
  /-- LINK_ENABLE (R431). -/
  | linkEnable
  /-- LINK_DISABLE (R431). -/
  | linkDisable
  /-- LINK_UP (R431). -/
  | linkUp (width : Nat)
  /-- LINK_TRAINING_TIMEOUT (R431). -/
  | linkTrainingTimeout
  /-- LINK_RECOVERY (R431). -/
  | linkRecovery (flits : Nat)
  /-- LINK_RECOVERY_TIMEOUT (R431). -/
  | linkRecoveryTimeout
  /-- PEER_REQUEST (R431). -/
  | peerRequest (addr : DWord) (write : Bool) (data : List Byte)
  /-- PERST (R432). -/
  | perst
  /-- POWER_LOSS (R432). -/
  | powerLoss
  /-- DRAM_CLEAR_COMPLETE (R433). -/
  | dramClearComplete
  /-- THERMAL_STEP_DOWN (R432). -/
  | thermalStepDown
  /-- THERMAL_TRIP (R432). -/
  | thermalTrip
  /-- REGISTER_WRITE (R3). -/
  | registerWrite (function offset : Nat) (value : DWord)
  /-- REGISTER_IMAGE (R381). -/
  | registerImage (addr size : DWord)
  /-- IDE_KM_KEY_PROG (R422). -/
  | ideKmKeyProg (vf : Nat) (keys : BitVec 256)
  /-- LINK_RECOVERY_COMPLETE (R431). -/
  | linkRecoveryComplete
  /-- PROMPTER_KILL (R188). -/
  | prompterKill (core slot : Nat)
  deriving DecidableEq, Repr

/-- The operand form of an encoded instruction. -/
inductive Form where
  | n (f : NopForm)
  | r (f : RForm)
  | i (f : IForm)
  | c (f : CForm)
  | k (f : KForm)
  | l (f : LForm)
  | m (f : MForm)
  | x (f : XForm)
  deriving DecidableEq, Repr

/-- Bytes of an instruction with this operand form (R28, R57). -/
def Form.bytes : Form → Nat
  | .n f => f.len.bytes
  | .r f => f.len.bytes
  | .i f => f.len.bytes
  | .c _ => 8
  | .k _ => 8
  | .l _ => 16
  | .m _ => 12
  | .x _ => 16

/-- Major opcode, head and operand form of an encoded instruction (R56); none for a step of
another agent. -/
def Instr.parts : Instr → Option (Nat × Head × Form)
  | .nop h f => some (0x00, h, .n f)
  | .bra h f => some (0x01, h, .c f)
  | .bru h f => some (0x02, h, .c f)
  | .brx h f => some (0x03, h, .r f)
  | .call h f => some (0x04, h, .c f)
  | .callx h f => some (0x05, h, .r f)
  | .ret h f => some (0x06, h, .c f)
  | .exit h f => some (0x07, h, .c f)
  | .depart h f => some (0x08, h, .c f)
  | .sleep h f => some (0x09, h, .c f)
  | .trap h f => some (0x0A, h, .c f)
  | .bkpt h f => some (0x0B, h, .c f)
  | .step h f => some (0x0C, h, .c f)
  | .loop h f => some (0x0D, h, .c f)
  | .iadd h f => some (0x10, h, .r f)
  | .isub h f => some (0x11, h, .r f)
  | .imul h f => some (0x12, h, .r f)
  | .imulh h f => some (0x13, h, .r f)
  | .imad h f => some (0x14, h, .r f)
  | .imin h f => some (0x15, h, .r f)
  | .imax h f => some (0x16, h, .r f)
  | .iabs h f => some (0x17, h, .r f)
  | .and h f => some (0x18, h, .r f)
  | .or h f => some (0x19, h, .r f)
  | .xor h f => some (0x1A, h, .r f)
  | .andn h f => some (0x1B, h, .r f)
  | .shl h f => some (0x1C, h, .r f)
  | .shr h f => some (0x1D, h, .r f)
  | .sar h f => some (0x1E, h, .r f)
  | .rot h f => some (0x1F, h, .r f)
  | .popc h f => some (0x20, h, .r f)
  | .clz h f => some (0x21, h, .r f)
  | .brev h f => some (0x22, h, .r f)
  | .bfx h f => some (0x23, h, .r f)
  | .bfi h f => some (0x24, h, .r f)
  | .sel h f => some (0x25, h, .r f)
  | .icmp h f => some (0x26, h, .r f)
  | .iadd64 h f => some (0x27, h, .r f)
  | .isub64 h f => some (0x28, h, .r f)
  | .imulw h f => some (0x29, h, .r f)
  | .idiv h f => some (0x2A, h, .r f)
  | .irem h f => some (0x2B, h, .r f)
  | .lea h f => some (0x2C, h, .r f)
  | .shfl h f => some (0x2D, h, .r f)
  | .mov h f => some (0x2E, h, .r f)
  | .movk h f => some (0x2F, h, .r f)
  | .iaddi h f => some (0x30, h, .i f)
  | .imuli h f => some (0x31, h, .i f)
  | .andi h f => some (0x32, h, .i f)
  | .ori h f => some (0x33, h, .i f)
  | .xori h f => some (0x34, h, .i f)
  | .shli h f => some (0x35, h, .i f)
  | .shri h f => some (0x36, h, .i f)
  | .sari h f => some (0x37, h, .i f)
  | .icmpi h f => some (0x38, h, .i f)
  | .movi h f => some (0x39, h, .i f)
  | .kmov h f => some (0x40, h, .k f)
  | .kadd h f => some (0x41, h, .k f)
  | .ksub h f => some (0x42, h, .k f)
  | .kmul h f => some (0x43, h, .k f)
  | .kand h f => some (0x44, h, .k f)
  | .kor h f => some (0x45, h, .k f)
  | .kxor h f => some (0x46, h, .k f)
  | .kshl h f => some (0x47, h, .k f)
  | .kshr h f => some (0x48, h, .k f)
  | .ksar h f => some (0x49, h, .k f)
  | .kcmp h f => some (0x4A, h, .k f)
  | .ksel h f => some (0x4B, h, .k f)
  | .kldi h f => some (0x4C, h, .k f)
  | .kldi128 h f => some (0x4C, h, .l f)
  | .kmin h f => some (0x4D, h, .k f)
  | .kmax h f => some (0x4E, h, .k f)
  | .kred h f => some (0x4F, h, .k f)
  | .pand h f => some (0x50, h, .r f)
  | .por h f => some (0x51, h, .r f)
  | .pxor h f => some (0x52, h, .r f)
  | .pnot h f => some (0x53, h, .r f)
  | .pset h f => some (0x54, h, .r f)
  | .pbal h f => some (0x55, h, .r f)
  | .pany h f => some (0x56, h, .r f)
  | .pall h f => some (0x57, h, .r f)
  | .pelect h f => some (0x58, h, .r f)
  | .pmov h f => some (0x59, h, .r f)
  | .movx h f => some (0x5A, h, .i f)
  | .movc h f => some (0x5B, h, .k f)
  | .idxset h f => some (0x5C, h, .i f)
  | .idxadd h f => some (0x5D, h, .i f)
  | .reint h f => some (0x5E, h, .r f)
  | .fadd h f => some (0x60, h, .r f)
  | .fsub h f => some (0x61, h, .r f)
  | .fmul h f => some (0x62, h, .r f)
  | .ffma h f => some (0x63, h, .r f)
  | .fmin h f => some (0x64, h, .r f)
  | .fmax h f => some (0x65, h, .r f)
  | .fcmp h f => some (0x66, h, .r f)
  | .fclass h f => some (0x67, h, .r f)
  | .frcp h f => some (0x68, h, .r f)
  | .fsqrt h f => some (0x69, h, .r f)
  | .frsq h f => some (0x6A, h, .r f)
  | .fexp2 h f => some (0x6B, h, .r f)
  | .flog2 h f => some (0x6C, h, .r f)
  | .fsinp h f => some (0x6D, h, .r f)
  | .fcosp h f => some (0x6E, h, .r f)
  | .ftanh h f => some (0x6F, h, .r f)
  | .fdiv h f => some (0x70, h, .r f)
  | .frnd h f => some (0x71, h, .r f)
  | .fscale h f => some (0x72, h, .r f)
  | .fcpys h f => some (0x73, h, .r f)
  | .dwadd h f => some (0x74, h, .r f)
  | .dwadds h f => some (0x75, h, .r f)
  | .dwmul h f => some (0x76, h, .r f)
  | .dwmuls h f => some (0x77, h, .r f)
  | .dwnorm h f => some (0x78, h, .r f)
  | .vrsum h f => some (0x79, h, .r f)
  | .vrsumc h f => some (0x7A, h, .r f)
  | .vrmax h f => some (0x7B, h, .r f)
  | .vrmin h f => some (0x7C, h, .r f)
  | .vrdotc h f => some (0x7D, h, .r f)
  | .cvt h f => some (0x80, h, .r f)
  | .cvtbx h f => some (0x81, h, .r f)
  | .cvtxb h f => some (0x82, h, .r f)
  | .pack2 h f => some (0x83, h, .r f)
  | .unpk2 h f => some (0x84, h, .r f)
  | .cvti h f => some (0x85, h, .r f)
  | .ld h f => some (0x90, h, .m f)
  | .st h f => some (0x91, h, .m f)
  | .ldl h f => some (0x92, h, .m f)
  | .stl h f => some (0x93, h, .m f)
  | .ldk h f => some (0x94, h, .m f)
  | .atom h f => some (0x95, h, .m f)
  | .red h f => some (0x96, h, .m f)
  | .atoml h f => some (0x97, h, .m f)
  | .pref h f => some (0x98, h, .m f)
  | .fence h f => some (0x99, h, .m f)
  | .cclean h f => some (0x9A, h, .m f)
  | .scfg h f => some (0xA0, h, .x f)
  | .sdrain h f => some (0xA1, h, .r f)
  | .sclose h f => some (0xA2, h, .r f)
  | .spos h f => some (0xA3, h, .r f)
  | .seos h f => some (0xA4, h, .r f)
  | .sseek h f => some (0xA5, h, .x f)
  | .binit h f => some (0xB0, h, .x f)
  | .expect h f => some (0xB1, h, .x f)
  | .arrive h f => some (0xB2, h, .x f)
  | .await h f => some (0xB3, h, .x f)
  | .rinit h f => some (0xB4, h, .x f)
  | .awaitf h f => some (0xB5, h, .x f)
  | .relslot h f => some (0xB6, h, .x f)
  | .cstep h f => some (0xB7, h, .x f)
  | .csched h f => some (0xB8, h, .x f)
  | .rcfence h f => some (0xB9, h, .x f)
  | .rcfenceAll h f => some (0xB9, h, .x f)
  | .cstat h f => some (0xBA, h, .x f)
  | .rcseal h f => some (0xBB, h, .x f)
  | .mma h f => some (0xC0, h, .x f)
  | .mmas h f => some (0xC1, h, .x f)
  | .mzero h f => some (0xC2, h, .x f)
  | .accld h f => some (0xC3, h, .x f)
  | .accst h f => some (0xC4, h, .x f)
  | .accrd h f => some (0xC5, h, .x f)
  | .accwr h f => some (0xC6, h, .x f)
  | .mlive h f => some (0xC7, h, .x f)
  | .mpert h f => some (0xC8, h, .x f)
  | .mstat h f => some (0xC9, h, .x f)
  | .fetchw h f => some (0xD0, h, .x f)
  | .spawn h f => some (0xD1, h, .x f)
  | .enq h f => some (0xD2, h, .k f)
  | .jobstQuery h f => some (0xD3, h, .k f)
  | .jobstCancel h f => some (0xD3, h, .k f)
  | .sigchk h f => some (0xD8, h, .r f)
  | .modeQuery h f => some (0xD9, h, .k f)
  | .modeReq h f => some (0xD9, h, .k f)
  | .loadDataReturn _ _ => none
  | .tlbFillComplete _ _ _ => none
  | .wakeTime _ _ => none
  | .streamFetchComplete _ _ _ => none
  | .readBack _ _ => none
  | .relaunch _ => none
  | .pushTranslationRestored _ _ _ _ => none
  | .faultRecordConsumed _ => none
  | .faultAnswerResume _ => none
  | .faultAnswerSkip _ => none
  | .faultAnswerSave _ => none
  | .faultAnswerKill _ => none
  | .faultAnswerStepback _ _ => none
  | .blockDone _ _ => none
  | .preemptRequest _ => none
  | .preemptAck _ _ => none
  | .premaxExpiry _ _ => none
  | .saveRoomAvailable _ => none
  | .contextRestore _ => none
  | .scriptReadComplete _ _ => none
  | .copyStart _ _ => none
  | .recordObtained _ _ => none
  | .copyComplete _ _ => none
  | .matrixStart _ => none
  | .matrixLastRead _ => none
  | .matrixRetire _ => none
  | .dmwrSubmit _ _ _ _ => none
  | .windowPostedWrite _ _ => none
  | .queueHeadPass _ => none
  | .cancelRegisterWrite _ _ => none
  | .cancel => none
  | .bind _ _ => none
  | .drain _ _ _ => none
  | .reprioritise _ _ => none
  | .coreRowBind _ _ _ => none
  | .drainPositionWrite _ => none
  | .consistentCut _ => none
  | .cutComplete _ _ => none
  | .workRequest _ => none
  | .blockPlace _ => none
  | .fetchwService _ _ => none
  | .finalUpdate _ => none
  | .secondUpdate _ => none
  | .watchdog _ _ _ => none
  | .quenchRotate => none
  | .rotgapExpiry => none
  | .quenchDrainDone _ => none
  | .quenchDrainTimeout _ => none
  | .scanPass _ => none
  | .scanFail _ _ _ _ => none
  | .restoreComplete _ => none
  | .siripqWrite _ => none
  | .siripRequest => none
  | .pairDrainDone _ => none
  | .matchWindowExpiry _ _ _ => none
  | .blockRetryPlace _ => none
  | .lastingScanComplete _ _ _ => none
  | .correctedError _ _ => none
  | .uncorrectableError _ => none
  | .channelFailing _ => none
  | .channelFreeAck => none
  | .channelMigrationDone => none
  | .agemonSample _ _ _ => none
  | .cinjWrite _ => none
  | .injectArm _ => none
  | .siripackWrite _ => none
  | .siripLockstepError => none
  | .timeSlotWrite _ _ => none
  | .frameBoundary => none
  | .partitionRegWrite _ _ _ => none
  | .merge _ _ => none
  | .split _ _ _ _ _ => none
  | .keyset _ _ _ _ _ _ _ => none
  | .atsInvalidation _ _ _ _ => none
  | .prgResponseSuccess _ _ => none
  | .prgResponseInvalid _ => none
  | .prgResponseFailure => none
  | .priReenable => none
  | .atomicopCompletion _ _ _ => none
  | .receivedAtomicop _ => none
  | .hostMemoryRequest _ _ _ _ => none
  | .unstreamedRequest _ => none
  | .ideIntegrityFailure _ => none
  | .kSetGo _ => none
  | .tdiLock _ => none
  | .tdiStart _ => none
  | .stopInterface _ => none
  | .spdmCert => none
  | .spdmChal => none
  | .spdmMeas _ => none
  | .spdmKeyEx => none
  | .firmwareImageWrite _ => none
  | .pendingWrite _ => none
  | .rollbackClear => none
  | .mgmtCoreRestart => none
  | .heartbeat => none
  | .heartbeatTimeout => none
  | .linkEnable => none
  | .linkDisable => none
  | .linkUp _ => none
  | .linkTrainingTimeout => none
  | .linkRecovery _ => none
  | .linkRecoveryTimeout => none
  | .peerRequest _ _ _ => none
  | .perst => none
  | .powerLoss => none
  | .dramClearComplete => none
  | .thermalStepDown => none
  | .thermalTrip => none
  | .registerWrite _ _ _ => none
  | .registerImage _ _ => none
  | .ideKmKeyProg _ _ => none
  | .linkRecoveryComplete => none
  | .prompterKill _ _ => none

end Sys2Proof
end

