-- ==== Sys2Proof/WellFormed.lean ====
section
/-!
DEFINITION. Which instructions are well formed: the decode checks of R59 that do not depend on the
troupe's allocation, in R59's order. A form's register fields are described by what they name
(R44 to R48), and the rest of a form by one test.
-/
namespace Sys2Proof

/-- What a register field of an instruction names (R44, R45, R46, R134). -/
inductive Use where
  /-- Nothing: the field is zero (R47). -/
  | unused
  /-- A source: a vector register or a read port. -/
  | src
  /-- A source that must be a vector register. -/
  | srcReg
  /-- An aligned group of `n` source registers (R46, R236). -/
  | srcGroup (n : Nat)
  /-- A destination: a vector register or a write port. -/
  | dst
  /-- A destination (or store data) that must be a vector register. -/
  | dstReg
  /-- An aligned group of `n` destination registers. -/
  | dstGroup (n : Nat)
  /-- A name in the low `n` values only: predicates 16, uniform registers 64, index registers and
  uniform predicates 8. -/
  | low (n : Nat)
  /-- An indexed operand (R45). -/
  | indexed
  /-- A stream port, named without popping or pushing (R272). -/
  | port
  deriving DecidableEq, Repr

/-- One register field as decoded: its value, what it names, its last-read bit and permutation. -/
structure Fld where
  v : Nat
  use : Use
  lr : Bool := false
  perm : Nat := 0
  deriving DecidableEq, Repr

/-- The fields D, A, B, C of an instruction in R59's order, and whether its other fields are legal. -/
structure Shape where
  ok : Bool
  flds : List Fld
  deriving DecidableEq, Repr

/-- The field names a stream port q0 to q7 (R44). -/
def isPort (v : Nat) : Bool := 2040 ≤ v

/-- A permutation field within the limits of R53. -/
def permOk (p : Nat) : Bool :=
  match p % 8 with
  | 0 => p / 8 == 0
  | 4 => p / 8 ≤ 6
  | 1 | 2 | 3 | 5 => true
  | _ => false

/-- Last-read bits and permutations stand only on fields that name vector registers (R48, R55). -/
def Fld.plain (f : Fld) : Bool := !f.lr && f.perm == 0

/-- The field raises no ILLEGAL (R44, R46, R47, R48, R53, R55). -/
def Fld.legal (f : Fld) : Bool :=
  permOk f.perm &&
  match f.use with
  | .unused => f.v == 0 && f.plain
  | .src => !isPort f.v || f.plain
  | .srcReg => !isPort f.v
  | .srcGroup n => f.v + n ≤ 2040
  | .dst => f.plain
  | .dstReg => !isPort f.v && f.plain
  | .dstGroup n => f.v + n ≤ 2040 && f.plain
  | .low n => f.v < n && f.plain
  | .indexed => f.plain
  | .port => isPort f.v && f.plain

/-- The first register of a group, when the field breaks the group's alignment (R46, R254). -/
def Fld.misaligned (f : Fld) : Option Nat :=
  match f.use with
  | .srcGroup n => if f.v % n == 0 then none else some f.v
  | .dstGroup n => if f.v % n == 0 then none else some f.v
  | _ => none

/-- Number of vector registers the field names, for REGBOUND (R59). -/
def Fld.regs (f : Fld) : Nat :=
  match f.use with
  | .src => if isPort f.v then 0 else 1
  | .srcReg => 1
  | .srcGroup n => n
  | .dst => if isPort f.v then 0 else 1
  | .dstReg => 1
  | .dstGroup n => n
  | _ => 0

/-- The decode faults of R59, less REGBOUND, which depends on the troupe's allocation. -/
inductive DecodeFault where
  | illegal
  | boundary
  | pairAlign (reg : Nat)
  deriving DecidableEq, Repr

/-- R59's checks on the fields: every ILLEGAL before PAIRALIGN, fields in the order D, A, B, C. -/
def Shape.check (s : Shape) : Option DecodeFault :=
  if !s.ok || !(s.flds.all Fld.legal) then some .illegal
  else (s.flds.findSome? Fld.misaligned).map .pairAlign

/-- Lengths at which a major has a format of the V, W, P family (R57). -/
def lenAllowed (op : Nat) (l : Len) : Bool :=
  if op == 0x14 || op == 0x24 || op == 0x63 then l != .l64
  else if op == 0x03 || op == 0x05 || (0x50 ≤ op && op ≤ 0x5E) || (0xA1 ≤ op && op ≤ 0xA4) || op == 0xD8
  then l == .l64
  else true

/-- The fields a length lacks are zero (R35, R37, R39). -/
def RForm.fits (f : RForm) : Bool :=
  match f.len with
  | .l64 => f.c == 0 && !f.lc && f.pa == 0 && f.pb == 0 && f.pc == 0
  | .l96 => f.pa == 0 && f.pb == 0 && f.pc == 0
  | .l128 => true

/-- MOD holds only what the major defines: X, SAT, RND (R49, R50). -/
def modOk (m : BitVec 6) (x sat rnd : Bool) : Bool :=
  let v := m.toNat
  v < 32 && (x || v / 16 == 0) && (sat || v / 8 % 2 == 0) && (if rnd then v % 8 < 6 else v % 8 == 0)

/-- MOD.X is set (R49). -/
def modX (m : BitVec 6) : Bool := m.getLsbD 4
/-- MOD.SAT is set (R49). -/
def modSat (m : BitVec 6) : Bool := m.getLsbD 3
/-- The rounding code of MOD (R50). -/
def modRnd (m : BitVec 6) : Nat := m.toNat % 8

/-- A system register of R106 or R170: exists, and may be written as far as decode is concerned
(R172: %dbg and %inject raise ACCESS at execution). -/
def sysKnown (n : Nat) : Bool :=
  n ≤ 0x010 || n == 0x020 || n == 0x021 || n == 0x022 || n == 0x030 || n == 0x031 ||
    (0x100 ≤ n && n ≤ 0x17F)

/-- MOVC's decode check 1 of R172 passes. -/
def sysWritable (n : Nat) : Bool := 0x020 ≤ n && sysKnown n

/-- CVT's assigned SUB values (R233). -/
def cvtSubOk (sub : Nat) : Bool :=
  let s := sub % 8
  let d := sub / 8 % 4
  let h := sub / 32
  match d with
  | 0 => match s with
    | 0 => false
    | 1 | 2 | 5 => h ≤ 1
    | 3 | 4 => h == 0
    | _ => true
  | 3 => false
  | _ =>
    if s == 0 || s == 3 || s == 4 || s == 6 || s == 7 then h ≤ 1
    else s != d && h == 0

/-- CVTI's assigned SUB values (R234). -/
def cvtiSubOk (sub : Nat) : Bool :=
  let f := sub % 4
  let t := sub / 4 % 8
  let h := sub / 32
  f != 3 && t ≤ 4 &&
    (if f == 0 then
      match t with
      | 0 | 1 => h == 0
      | 2 => h ≤ 1
      | _ => true
    else
      match t with
      | 2 => h == 0
      | _ => h ≤ 1)

/-- A tag code that MOVK's 32-bit forms and MOVI accept (R159, R162). -/
def moveTagOk (t : Nat) : Bool := (1 ≤ t && t ≤ 8) || t == 15

/-- Signed element types of R136 (I32, I16x2, I8x4). -/
def signedType (t : Nat) : Bool := t == 0 || t == 2 || t == 3

/-- What the register fields of the V, W, P majors name, and their SUB and MOD tests
(R138, R148, R167, R175, R214, R215, R272, R406). -/
def RForm.shape (op : Nat) (f : RForm) : Shape :=
  let sub := f.sub.toNat
  let mk (d a b c : Use) (ok x sat rnd : Bool) : Shape :=
    { ok := ok && lenAllowed op f.len && f.fits && modOk f.mod x sat rnd
      flds := [⟨f.d.toNat, d, false, 0⟩, ⟨f.a.toNat, a, f.la, f.pa.toNat⟩,
        ⟨f.b.toNat, b, f.lb, f.pb.toNat⟩, ⟨f.c.toNat, c, f.lc, f.pc.toNat⟩] }
  let un (ok sat rnd : Bool) : Shape := mk .dst .src .unused .unused ok false sat rnd
  let bi (ok sat rnd : Bool) : Shape := mk .dst .src .src .unused ok false sat rnd
  let tri (ok sat rnd : Bool) : Shape := mk .dst .src .src .src ok false sat rnd
  let fmt := sub % 4
  let fl := fmt != 3 && sub / 4 == 0
  if op == 0x03 || op == 0x05 then mk .unused (.srcGroup 2) .unused .unused (sub == 0) false false false
  else if op == 0x10 || op == 0x11 || op == 0x12 then bi (sub ≤ 4) true false
  else if op == 0x13 || op == 0x2A || op == 0x2B then bi (sub ≤ 1) false false
  else if op == 0x14 then tri (sub ≤ 4) true false
  else if op == 0x15 || op == 0x16 || op == 0x1C || op == 0x1D || op == 0x1F then bi (sub ≤ 4) false false
  else if op == 0x17 then un (signedType sub) true false
  else if 0x18 ≤ op && op ≤ 0x1B then bi (sub == 0) false false
  else if op == 0x1E then bi (signedType sub) false false
  else if 0x20 ≤ op && op ≤ 0x22 then un (sub ≤ 1) false false
  else if op == 0x23 then bi (sub ≤ 1) false false
  else if op == 0x24 then tri (sub ≤ 1) false false
  else if op == 0x25 then bi (sub % 8 == 0) false false
  else if op == 0x26 then
    mk (.low 16) .src .src .unused (sub % 8 ≤ 1 && sub / 8 % 8 ≤ 5 && sub < 64) false false false
  else if op == 0x27 || op == 0x28 then
    mk (.dstGroup 2) (.srcGroup 2) (.srcGroup 2) .unused (sub ≤ 1) false true false
  else if op == 0x29 then mk (.dstGroup 2) .src .src .unused (sub ≤ 1) false false false
  else if op == 0x2C then
    mk (.dstGroup 2) (.srcGroup 2) .src .unused (sub % 8 ≤ 1 && sub < 64) false false false
  else if op == 0x2D then bi (sub == 0) false false
  else if op == 0x2E then
    mk (if sub / 8 % 2 == 1 then .indexed else .dst) (if sub / 16 % 2 == 1 then .indexed else .src)
      .unused .unused (sub % 8 == 0 && sub < 32) false false false
  else if op == 0x2F then
    mk (if sub % 16 == 0xB then .dstGroup 2 else .dst) (.low 64) .unused .unused
      (sub < 32 && (moveTagOk (sub % 16) || sub == 0xB)) false false false
  else if 0x50 ≤ op && op ≤ 0x52 then
    mk (.low 16) (.low 16) (.low 16) .unused (sub ≤ 3) false false false
  else if op == 0x53 then mk (.low 16) (.low 16) .unused .unused (sub == 0) false false false
  else if op == 0x54 then
    mk (.low 16) (if sub == 2 then .low 64 else if sub == 3 then .low 8 else .unused) .unused .unused
      (sub ≤ 3) false false false
  else if op == 0x55 then mk (.low 64) (.low 16) .unused .unused (sub ≤ 1) false false false
  else if op == 0x56 || op == 0x57 then mk (.low 8) (.low 16) .unused .unused (sub == 0) false false false
  else if op == 0x58 then mk (.low 16) (.low 16) .unused .unused (sub ≤ 1) false false false
  else if op == 0x59 then
    mk (if sub == 2 then .dst else .low 16) (if sub == 1 then .src else .low 16) .unused .unused
      (sub ≤ 2) false false false
  else if op == 0x5E then
    if sub == 0xB || sub == 0xD then
      mk (.dstGroup 2) (.srcGroup 2) .unused .unused true false false false
    else un ((1 ≤ sub && sub ≤ 10) || sub == 15) false false
  else if 0x60 ≤ op && op ≤ 0x62 then
    if modX f.mod then
      mk (.dstGroup 2) .src .src .unused (fl && fmt != 2 && !modSat f.mod) true true true
    else bi fl true true
  else if op == 0x63 then tri fl true true
  else if op == 0x64 || op == 0x65 || op == 0x73 then bi fl false false
  else if op == 0x66 then
    mk (.low 16) .src .src .unused (fmt != 3 && sub < 64 && (fmt != 0 || sub < 32)) false false false
  else if op == 0x67 then un fl false false
  else if op == 0x68 || op == 0x6B then un fl true true
  else if 0x69 ≤ op && op ≤ 0x6F then un fl false true
  else if op == 0x70 || op == 0x72 then bi fl true true
  else if op == 0x71 then un fl false true
  else if op == 0x74 || op == 0x76 then
    mk (.dstGroup 2) (.srcGroup 2) (.srcGroup 2) .unused (sub == 0) false false false
  else if op == 0x75 || op == 0x77 then
    mk (.dstGroup 2) (.srcGroup 2) .src .unused (sub == 0) false false false
  else if op == 0x78 then mk (.dstGroup 2) (.srcGroup 2) .unused .unused (sub == 0) false false false
  else if op == 0x79 then un (sub == 0) true true
  else if op == 0x7A then
    mk (.dstGroup 2) (if sub == 1 then .srcGroup 2 else .src) .unused .unused (sub ≤ 1) false false false
  else if op == 0x7B || op == 0x7C then un (sub == 0) false false
  else if op == 0x7D then mk (.dstGroup 2) .src .src .unused (sub == 0) false false false
  else if op == 0x80 then un (cvtSubOk sub) false true
  else if op == 0x81 then
    mk (.dstGroup 2) (.srcGroup (if sub % 2 == 1 then 8 else 4)) .unused .unused
      (sub < 8 && f.pa == 0) false false false
  else if op == 0x82 then
    mk (.dstGroup (if sub % 2 == 1 then 8 else 4)) (.srcGroup 2) .unused .unused (sub ≤ 1) false false false
  else if op == 0x83 then bi (sub == 1 || sub == 2 || sub == 6) false true
  else if op == 0x84 then
    mk (.dstGroup 2) .src .unused .unused (1 ≤ sub && sub ≤ 3) false false false
  else if op == 0x85 then un (cvtiSubOk sub) false true
  else if op == 0xA1 || op == 0xA2 then mk .unused .port .unused .unused (sub == 0) false false false
  else if op == 0xA3 then mk .dst .port .unused .unused (sub ≤ 1) false false false
  else if op == 0xA4 then mk (.low 16) .port .unused .unused (sub == 0) false false false
  else if op == 0xD8 then
    mk .unused (if sub == 1 then .srcGroup 2 else .src) .unused .unused (sub ≤ 1) false false false
  else mk .unused .unused .unused .unused false false false false

/-- The immediate majors, MOVX, IDXSET and IDXADD (R160 to R162, R171, R173, R174). -/
def IForm.shape (op : Nat) (f : IForm) : Shape :=
  let sub := f.sub.toNat
  let imm := f.imm.toNat
  let lenOk :=
    match f.len with
    | .l64 => sub < 16 && f.mod == 0 && op != 0x5C && f.imm == (f.imm.setWidth 20).signExtend 32
    | .l96 => op != 0x5A && op != 0x5D
    | .l128 => false
  let mk (d a : Use) (ok sat : Bool) : Shape :=
    { ok := ok && lenOk && modOk f.mod false sat false
      flds := [⟨f.d.toNat, d, false, 0⟩, ⟨f.a.toNat, a, f.la, 0⟩] }
  if op == 0x30 || op == 0x31 then mk .dst .src (sub ≤ 1) true
  else if 0x32 ≤ op && op ≤ 0x34 then mk .dst .src (sub == 0) false
  else if op == 0x35 || op == 0x36 then mk .dst .src (sub ≤ 1) false
  else if op == 0x37 then mk .dst .src (sub == 0) false
  else if op == 0x38 then mk (.low 16) .src (sub < 12) false
  else if op == 0x39 then mk .dst .unused (moveTagOk sub) false
  else if op == 0x5A then
    mk (if sub == 0 then .low 64 else if sub == 1 then .dst else .dstGroup 2) .unused
      (sub ≤ 2 && imm < 4096 && sysKnown imm && !(sub == 0 && imm == 0x010)) false
  else if op == 0x5C then
    mk (.low 8) (if sub == 0 then .src else .unused)
      (sub ≤ 1 && bitsOf imm 15 11 == 0 && bitsOf imm 31 27 == 0) false
  else if op == 0x5D then mk (.low 8) (.low 8) (sub == 0) false
  else mk .unused .unused false false

/-- The control majors in format C (R138, R139). -/
def CForm.shape (op : Nat) (f : CForm) : Shape :=
  let uc := f.sub.getLsbD 0
  let ks := f.sub.getLsbD 1
  let hasUc := op == 0x01 || op == 0x02 || op == 0x04 || op == 0x06 || op == 0x07
  let hasOff := op == 0x01 || op == 0x02 || op == 0x04 || op == 0x0D
  let hasKa := op == 0x0D || (op == 0x09 && ks)
  let hasImm := op == 0x0A || op == 0x0B || (op == 0x09 && !ks)
  { ok := f.sub.toNat < 4 && (!uc || hasUc) && (!ks || op == 0x09) &&
      (uc || (f.cp == 0 && !f.cn)) && (hasOff || f.off == 0) && (hasKa || f.ka == 0) &&
      (hasImm || f.imm == 0) &&
      (op == 0x01 || op == 0x02 || op == 0x04 || (0x06 ≤ op && op ≤ 0x0D))
    flds := [] }

/-- The K-format majors (R163 to R166, R172, R372, R406). -/
def KForm.shape (op : Nat) (f : KForm) : Shape :=
  let sub := f.sub.toNat
  let second := if sub % 2 == 1 then f.kb == 0 else f.imm == 0
  let ok :=
    if op == 0x40 then sub == 0 && f.kb == 0 && f.imm == 0
    else if 0x41 ≤ op && op ≤ 0x49 then sub ≤ 1 && second
    else if op == 0x4A then sub / 4 ≤ 5 && second && f.kd.toNat < 8
    else if op == 0x4B then sub < 32 && second
    else if op == 0x4C then sub ≤ 1 && f.ka == 0 && f.kb == 0
    else if op == 0x4D || op == 0x4E then sub ≤ 3 && second
    else if op == 0x4F then sub ≤ 7 && f.imm == 0 && f.ka.toNat ≤ f.kb.toNat
    else if op == 0x5B then
      sub ≤ 2 && f.kd == 0 && f.kb == 0 && f.imm.toNat < 4096 && sysWritable f.imm.toNat
    else if op == 0xD2 then
      sub ≤ 1 && f.kb == 0 && (if sub == 0 then f.ka == 0 && f.imm.toNat < 8 else f.imm == 0)
    else if op == 0xD3 then sub ≤ 1 && f.kb == 0 && f.imm == 0
    else if op == 0xD9 then sub ≤ 1 && f.kb == 0 && f.imm == 0 && (sub == 1 || f.ka == 0)
    else false
  { ok := ok, flds := [] }

/-- ORD codes a memory major accepts (R248). -/
def ordOk (op ord : Nat) (ret : Bool) (def_ : Bool) : Bool :=
  (!def_ || (ord == 0 && (op == 0x90 || (op == 0x95 && ret)))) &&
  (if op == 0x90 then ord == 0 || ord == 1 || ord == 4
   else if op == 0x91 then ord == 0 || ord == 2 || ord == 4
   else if op == 0x92 || op == 0x94 then ord ≤ 1
   else if op == 0x93 || op == 0x96 then ord == 0 || ord == 2
   else if op == 0x95 || op == 0x99 then ord ≤ 4
   else if op == 0x97 then ord ≤ 3
   else ord == 0)

/-- Fields that the address mode leaves unused are zero (R239). -/
def amOk (am : Nat) (f : MForm) : Bool :=
  (f.kb == 0 || am ≤ 2)

/-- The address register is used in this mode (R239). -/
def amIndexed (am : Nat) : Bool := am != 2 && am != 6

/-- The memory majors (R239, R241, R248 to R260). -/
def MForm.shape (op : Nat) (f : MForm) : Shape :=
  let sub := f.sub.toNat
  let am := sub / 16
  let kind := sub % 16
  let ret := f.sub.getLsbD 5
  let w64 := f.sub.getLsbD 4
  let chAny := op == 0x90 || op == 0x91 || op == 0x94 || op == 0x98
  let mk (d a : Use) (ok : Bool) : Shape :=
    { ok := ok && ordOk op f.ord.toNat ret f.def_ && f.ch != 3 && (chAny || f.ch == 0)
      flds := [⟨f.d.toNat, d, false, 0⟩, ⟨f.a.toNat, a, f.la, 0⟩] }
  let idx : Use := if amIndexed am then .src else .unused
  let data : Use := if kind == 0xD || kind == 0xE then .dstGroup 2 else .dstReg
  let atomD : Use :=
    if kind == 9 then .dstGroup (if w64 then 4 else 2) else if w64 then .dstGroup 2 else .dstReg
  let atomOk := sub < 64 && kind ≤ 11 && !(w64 && (kind == 10 || kind == 11))
  if op == 0x90 || op == 0x91 then mk data idx (kind != 15 && amOk am f)
  else if op == 0x92 || op == 0x93 then
    mk data idx (kind != 15 && amOk am f && !(4 ≤ am && am ≤ 6))
  else if op == 0x94 then mk (.low 64) .unused (sub ≤ 2)
  else if op == 0x95 then mk atomD .srcReg atomOk
  else if op == 0x96 then mk atomD .srcReg (atomOk && !ret && kind != 8 && kind != 9)
  else if op == 0x97 then mk atomD .srcReg (atomOk && !w64)
  else if op == 0x98 then mk .unused idx (kind ≤ 2 && amOk am f)
  else if op == 0x99 then mk .unused .unused (sub == 0 && f.kb == 0 && f.off == 0)
  else if op == 0x9A then mk .unused idx (kind ≤ 1 && amOk am f)
  else mk .unused .unused false

/-- The X-format majors (R272, R309, R342, R372). -/
def XForm.shape (op : Nat) (f : XForm) : Shape :=
  let sub := f.sub.toNat
  let i := f.imm.toNat
  let j := f.immB.toNat
  let ks := sub == 1
  let mk (d a : Use) (ka kb kc ok : Bool) : Shape :=
    { ok := ok && (ka || f.ka == 0) && (kb || f.kb == 0) && (kc || f.kc == 0)
      flds := [⟨f.d.toNat, d, false, 0⟩, ⟨f.a.toNat, a, false, 0⟩] }
  let none' (ka kb ok : Bool) : Shape := mk .unused .unused ka kb false ok
  if op == 0xA0 then mk .port .unused true true false (sub ≤ 1)
  else if op == 0xA5 then
    mk .port (if sub % 2 == 0 then .src else .unused) false false false
      (sub ≤ 3 && j == 0 && (sub % 2 == 1 || i == 0))
  else if op == 0xB0 then none' false false (sub == 0 && bitsOf i 15 6 == 0)
  else if op == 0xB1 then none' ks false (sub ≤ 1 && i < 64 && (!ks || j == 0))
  else if op == 0xB2 then none' false false (sub == 0 && i < 64 && j < 65536)
  else if op == 0xB3 then none' ks false (sub ≤ 1 && i < 64 && (if ks then j == 0 else j ≤ 1))
  else if op == 0xB4 then none' false false (sub == 0 && bitsOf i 15 3 == 0)
  else if op == 0xB5 || op == 0xB6 then
    none' false false (sub == 0 && bitsOf i 7 3 == 0 && i < 4096 && j == 0)
  else if op == 0xB7 then none' ks false (sub ≤ 1 && j == 0 && (!ks || i == 0))
  else if op == 0xB8 then none' true ks (sub ≤ 1 && j == 0 && (!ks || i == 0))
  else if op == 0xB9 then none' (!ks) false (sub ≤ 1 && j == 0 && (!ks || i == 0))
  else if op == 0xBA then
    mk .dstReg .unused false false false
      (sub ≤ 5 && j == 0 && (if sub ≤ 2 then i == 0 else if sub == 3 then i < 64 else i < 8))
  else if op == 0xBB then none' true false (sub == 0 && j == 0)
  else if op == 0xC0 || op == 0xC1 then
    let rel := sub / 2 % 2 == 1
    let arr := sub / 4 == 1
    none' false false
      (sub ≤ 7 && bitsOf i 11 11 == 0 && i < 0x8000 &&
        (arr || bitsOf j 5 0 == 0) && bitsOf j 7 6 == 0 && j < 65536 && bitsOf j 11 11 == 0 &&
        (rel || (bitsOf j 10 8 == 0 && bitsOf j 15 12 == 0)))
  else if op == 0xC2 then none' false false (sub == 0 && bitsOf i 23 23 == 0 && i < 2 ^ 31 && j == 0)
  else if op == 0xC3 then
    none' false false ((sub == 0 || sub == 32) && bitsOf i 7 4 == 0 && i < 2 ^ 23 &&
      (if sub == 32 then j < 64 else j == 0))
  else if op == 0xC4 then
    none' false false (sub < 64 && sub % 8 < 6 && bitsOf i 7 4 == 0 && i < 2 ^ 23 &&
      (if sub / 32 == 1 then j < 64 else j == 0))
  else if op == 0xC5 then mk .dstReg .unused false false false (sub == 0 && i < 512 && j == 0)
  else if op == 0xC6 then mk .unused .srcReg false false false (sub == 0 && i < 512 && j == 0)
  else if op == 0xC7 then none' false false (sub == 0 && i < 65536 && j == 0)
  else if op == 0xC8 then none' false false (sub == 0 && j < 4096 && bitsOf j 7 5 == 0)
  else if op == 0xC9 then mk .dstReg .unused false false false (sub ≤ 1 && i == 0 && j == 0)
  else if op == 0xD0 then none' true false (sub == 0 && j == 0)
  else if op == 0xD1 then mk (.low 64) .unused true true true (sub == 0 && i == 0 && j == 0)
  else mk .unused .unused false false false false

/-- What R59 checks of any encoded instruction. -/
def Form.shape (op : Nat) : Form → Shape
  | .n _ => { ok := op == 0, flds := [] }
  | .r f => f.shape op
  | .i f => f.shape op
  | .c f => f.shape op
  | .k f => f.shape op
  | .l _ => { ok := op == 0x4C, flds := [] }
  | .m f => f.shape op
  | .x f => f.shape op

/-- Rows that share a major are told apart by SUB (R309, R372, R406). -/
def Instr.subMatches : Instr → Bool
  | .rcfence _ f => f.sub == 0
  | .rcfenceAll _ f => f.sub == 1
  | .jobstQuery _ f => f.sub == 0
  | .jobstCancel _ f => f.sub == 1
  | .modeQuery _ f => f.sub == 0
  | .modeReq _ f => f.sub == 1
  | _ => true

/-- The decode fault of R59 that an encoded instruction raises; none for a well-formed one and for
a step of another agent. -/
def Instr.decodeFault (i : Instr) : Option DecodeFault :=
  match i.parts with
  | none => none
  | some (op, _, f) => if i.subMatches then (f.shape op).check else some .illegal

/-- A well-formed encoded instruction: the words of R28 to R59 can hold it and decode to it. -/
def Instr.WellFormed (i : Instr) : Prop := i.parts.isSome = true ∧ i.decodeFault = none

/-- The vector registers the instruction's fields name, as (first register, count), in the order
D, A, B, C, for the REGBOUND check of R59. -/
def Instr.regFields (i : Instr) : List (Nat × Nat) :=
  match i.parts with
  | none => []
  | some (op, _, f) =>
    ((f.shape op).flds.map fun x => (x.v, x.regs)).filter fun p => p.2 != 0

end Sys2Proof
end

