-- ==== Sys2Proof/Decode.lean ====
section
/-!
DEFINITION. The decoder of R28 to R59, total on any bytes and rejecting by the fault R59 names,
and the encoder written from the same format tables (R32 to R43).
-/
namespace Sys2Proof

/-- The `k` bits of an instruction from bit `lo` upward (R28). -/
def fieldAt (w lo k : Nat) : BitVec k := BitVec.ofNat k (w >>> lo)

/-- One bit of an instruction. -/
def bitAt (w n : Nat) : Bool := w.testBit n

/-- The length code of R28. -/
def lenOfCode (c : Nat) : Option Len :=
  match c with
  | 1 => some .l64
  | 2 => some .l96
  | 3 => some .l128
  | _ => none

/-- The code of a length (R28). -/
def Len.code : Len → Nat
  | .l64 => 1
  | .l96 => 2
  | .l128 => 3

/-- The common head (R32). -/
def headAt (w : Nat) : Head := { e := bitAt w 15, gn := bitAt w 14, g := fieldAt w 10 4 }

/-- Formats V, W and P (R35, R37, R39); none when a reserved field is nonzero. -/
def rFormAt (l : Len) (w : Nat) : Option RForm :=
  let f : RForm :=
    { len := l, d := fieldAt w 16 11, a := fieldAt w 27 11, b := fieldAt w 38 11
      c := fieldAt w 64 11, sub := fieldAt w 49 7, la := bitAt w 56, lb := bitAt w 57
      lc := bitAt w 75, mod := fieldAt w 58 6, pa := fieldAt w 96 9, pb := fieldAt w 105 9
      pc := fieldAt w 114 9 }
  if bitsOf w 95 76 == 0 && bitsOf w 127 123 == 0 then some f else none

/-- Formats VI and WI (R36, R38); none when a reserved or unused field is nonzero. -/
def iFormAt (l : Len) (w : Nat) : Option IForm :=
  match l with
  | .l64 =>
    if bitAt w 63 then none
    else some
      { len := l, d := fieldAt w 16 11, a := fieldAt w 27 11, la := bitAt w 62
        sub := (fieldAt w 58 4).setWidth 7, mod := 0, imm := (fieldAt w 38 20).signExtend 32 }
  | .l96 =>
    if bitsOf w 48 38 != 0 || bitAt w 57 then none
    else some
      { len := l, d := fieldAt w 16 11, a := fieldAt w 27 11, la := bitAt w 56
        sub := fieldAt w 49 7, mod := fieldAt w 58 6, imm := fieldAt w 64 32 }
  | .l128 => none

/-- Format C (R41). -/
def cFormAt (w : Nat) : CForm :=
  { off := fieldAt w 16 26, ka := fieldAt w 42 6, cp := fieldAt w 48 3, cn := bitAt w 51
    sub := fieldAt w 52 4, imm := fieldAt w 56 8 }

/-- Format K at 64 bits (R40). -/
def kFormAt (w : Nat) : KForm :=
  { kd := fieldAt w 16 6, ka := fieldAt w 22 6, kb := fieldAt w 28 6, sub := fieldAt w 34 6
    imm := fieldAt w 40 24 }

/-- KLDI at 128 bits; none unless bits [63:22] are zero (R40, R165). -/
def lFormAt (w : Nat) : Option LForm :=
  if bitsOf w 63 22 == 0 then some { kd := fieldAt w 16 6, imm := fieldAt w 64 64 } else none

/-- Format M (R42); none when its reserved field is nonzero. -/
def mFormAt (w : Nat) : Option MForm :=
  if bitsOf w 63 58 == 0 then
    some
      { d := fieldAt w 16 11, a := fieldAt w 27 11, kb := fieldAt w 38 6, sub := fieldAt w 44 7
        ord := fieldAt w 51 3, def_ := bitAt w 54, la := bitAt w 55, ch := fieldAt w 56 2
        off := fieldAt w 64 32 }
  else none

/-- Format X (R43); none when its reserved bit is set. -/
def xFormAt (w : Nat) : Option XForm :=
  if bitAt w 63 then none
  else some
    { d := fieldAt w 16 11, a := fieldAt w 27 11, ka := fieldAt w 38 6, kb := fieldAt w 44 6
      kc := fieldAt w 50 6, sub := fieldAt w 56 7, imm := fieldAt w 64 32, immB := fieldAt w 96 32 }

/-- The instruction an opcode and a length select, before the checks of its fields (R56, R57);
none where R57 has no format at that length or a reserved field of the format is nonzero. -/
def rawDecode (op : Nat) (l : Len) (w : Nat) : Option Instr :=
  let h := headAt w
  let c (k : Head → CForm → Instr) : Option Instr :=
    match l with
    | .l64 => some (k h (cFormAt w))
    | _ => none
  let r (k : Head → RForm → Instr) : Option Instr := (rFormAt l w).map (k h)
  let i (k : Head → IForm → Instr) : Option Instr := (iFormAt l w).map (k h)
  let u (k : Head → KForm → Instr) : Option Instr :=
    match l with
    | .l64 => some (k h (kFormAt w))
    | _ => none
  let m (k : Head → MForm → Instr) : Option Instr :=
    match l with
    | .l96 => (mFormAt w).map (k h)
    | _ => none
  let x (k : Head → XForm → Instr) : Option Instr :=
    match l with
    | .l128 => (xFormAt w).map (k h)
    | _ => none
  match op with
  | 0x00 => if w >>> 16 == 0 then some (.nop h { len := l }) else none
  | 0x01 => c .bra
  | 0x02 => c .bru
  | 0x03 => r .brx
  | 0x04 => c .call
  | 0x05 => r .callx
  | 0x06 => c .ret
  | 0x07 => c .exit
  | 0x08 => c .depart
  | 0x09 => c .sleep
  | 0x0A => c .trap
  | 0x0B => c .bkpt
  | 0x0C => c .step
  | 0x0D => c .loop
  | 0x10 => r .iadd
  | 0x11 => r .isub
  | 0x12 => r .imul
  | 0x13 => r .imulh
  | 0x14 => r .imad
  | 0x15 => r .imin
  | 0x16 => r .imax
  | 0x17 => r .iabs
  | 0x18 => r .and
  | 0x19 => r .or
  | 0x1A => r .xor
  | 0x1B => r .andn
  | 0x1C => r .shl
  | 0x1D => r .shr
  | 0x1E => r .sar
  | 0x1F => r .rot
  | 0x20 => r .popc
  | 0x21 => r .clz
  | 0x22 => r .brev
  | 0x23 => r .bfx
  | 0x24 => r .bfi
  | 0x25 => r .sel
  | 0x26 => r .icmp
  | 0x27 => r .iadd64
  | 0x28 => r .isub64
  | 0x29 => r .imulw
  | 0x2A => r .idiv
  | 0x2B => r .irem
  | 0x2C => r .lea
  | 0x2D => r .shfl
  | 0x2E => r .mov
  | 0x2F => r .movk
  | 0x30 => i .iaddi
  | 0x31 => i .imuli
  | 0x32 => i .andi
  | 0x33 => i .ori
  | 0x34 => i .xori
  | 0x35 => i .shli
  | 0x36 => i .shri
  | 0x37 => i .sari
  | 0x38 => i .icmpi
  | 0x39 => i .movi
  | 0x40 => u .kmov
  | 0x41 => u .kadd
  | 0x42 => u .ksub
  | 0x43 => u .kmul
  | 0x44 => u .kand
  | 0x45 => u .kor
  | 0x46 => u .kxor
  | 0x47 => u .kshl
  | 0x48 => u .kshr
  | 0x49 => u .ksar
  | 0x4A => u .kcmp
  | 0x4B => u .ksel
  | 0x4C =>
    match l with
    | .l64 => some (.kldi h (kFormAt w))
    | .l96 => none
    | .l128 => (lFormAt w).map (.kldi128 h)
  | 0x4D => u .kmin
  | 0x4E => u .kmax
  | 0x4F => u .kred
  | 0x50 => r .pand
  | 0x51 => r .por
  | 0x52 => r .pxor
  | 0x53 => r .pnot
  | 0x54 => r .pset
  | 0x55 => r .pbal
  | 0x56 => r .pany
  | 0x57 => r .pall
  | 0x58 => r .pelect
  | 0x59 => r .pmov
  | 0x5A => i .movx
  | 0x5B => u .movc
  | 0x5C => i .idxset
  | 0x5D => i .idxadd
  | 0x5E => r .reint
  | 0x60 => r .fadd
  | 0x61 => r .fsub
  | 0x62 => r .fmul
  | 0x63 => r .ffma
  | 0x64 => r .fmin
  | 0x65 => r .fmax
  | 0x66 => r .fcmp
  | 0x67 => r .fclass
  | 0x68 => r .frcp
  | 0x69 => r .fsqrt
  | 0x6A => r .frsq
  | 0x6B => r .fexp2
  | 0x6C => r .flog2
  | 0x6D => r .fsinp
  | 0x6E => r .fcosp
  | 0x6F => r .ftanh
  | 0x70 => r .fdiv
  | 0x71 => r .frnd
  | 0x72 => r .fscale
  | 0x73 => r .fcpys
  | 0x74 => r .dwadd
  | 0x75 => r .dwadds
  | 0x76 => r .dwmul
  | 0x77 => r .dwmuls
  | 0x78 => r .dwnorm
  | 0x79 => r .vrsum
  | 0x7A => r .vrsumc
  | 0x7B => r .vrmax
  | 0x7C => r .vrmin
  | 0x7D => r .vrdotc
  | 0x80 => r .cvt
  | 0x81 => r .cvtbx
  | 0x82 => r .cvtxb
  | 0x83 => r .pack2
  | 0x84 => r .unpk2
  | 0x85 => r .cvti
  | 0x90 => m .ld
  | 0x91 => m .st
  | 0x92 => m .ldl
  | 0x93 => m .stl
  | 0x94 => m .ldk
  | 0x95 => m .atom
  | 0x96 => m .red
  | 0x97 => m .atoml
  | 0x98 => m .pref
  | 0x99 => m .fence
  | 0x9A => m .cclean
  | 0xA0 => x .scfg
  | 0xA1 => r .sdrain
  | 0xA2 => r .sclose
  | 0xA3 => r .spos
  | 0xA4 => r .seos
  | 0xA5 => x .sseek
  | 0xB0 => x .binit
  | 0xB1 => x .expect
  | 0xB2 => x .arrive
  | 0xB3 => x .await
  | 0xB4 => x .rinit
  | 0xB5 => x .awaitf
  | 0xB6 => x .relslot
  | 0xB7 => x .cstep
  | 0xB8 => x .csched
  | 0xB9 => if bitsOf w 62 56 == 0 then x .rcfence else x .rcfenceAll
  | 0xBA => x .cstat
  | 0xBB => x .rcseal
  | 0xC0 => x .mma
  | 0xC1 => x .mmas
  | 0xC2 => x .mzero
  | 0xC3 => x .accld
  | 0xC4 => x .accst
  | 0xC5 => x .accrd
  | 0xC6 => x .accwr
  | 0xC7 => x .mlive
  | 0xC8 => x .mpert
  | 0xC9 => x .mstat
  | 0xD0 => x .fetchw
  | 0xD1 => x .spawn
  | 0xD2 => u .enq
  | 0xD3 => if bitsOf w 39 34 == 0 then u .jobstQuery else u .jobstCancel
  | 0xD8 => r .sigchk
  | 0xD9 => if bitsOf w 39 34 == 0 then u .modeQuery else u .modeReq
  | _ => none

/-- R59 for an instruction whose `l`-long word is `w`, less the length and boundary checks. -/
def decodeWord (l : Len) (w : Nat) : Except DecodeFault Instr :=
  match rawDecode (bitsOf w 9 2) l w with
  | none => .error .illegal
  | some i =>
    match i.decodeFault with
    | some f => .error f
    | none => .ok i

/-- Little-endian value of a list of bytes (R2, R28). -/
def bytesToNat (bs : List Byte) : Nat := bs.foldr (fun b n => b.toNat + 256 * n) 0

/-- The `n` bytes of a value, little-endian (R2). -/
def natToBytes (n v : Nat) : List Byte := (List.range n).map fun k => BitVec.ofNat 8 (v >>> (8 * k))

/-- `decode(a)` of R59 on the bytes found at address `a` (bytes past the list are zero). -/
def decode (a : Nat) (bytes : List Byte) : Except DecodeFault Instr :=
  match lenOfCode ((bytes.headD 0).toNat % 4) with
  | none => .error .illegal
  | some l =>
    if 32 < a % 32 + l.bytes then .error .boundary
    else decodeWord l (bytesToNat (bytes.take l.bytes))

/-- The head's bits (R32). -/
def Head.bits (h : Head) (op : Nat) (l : Len) : Nat :=
  l.code + op <<< 2 + h.g.toNat <<< 10 + h.gn.toNat <<< 14 + h.e.toNat <<< 15

/-- The bits above the head (R35 to R43). -/
def Form.bits : Form → Nat
  | .n _ => 0
  | .r f =>
    f.d.toNat <<< 16 + f.a.toNat <<< 27 + f.b.toNat <<< 38 + f.sub.toNat <<< 49 +
      f.la.toNat <<< 56 + f.lb.toNat <<< 57 + f.mod.toNat <<< 58 + f.c.toNat <<< 64 +
      f.lc.toNat <<< 75 + f.pa.toNat <<< 96 + f.pb.toNat <<< 105 + f.pc.toNat <<< 114
  | .i f =>
    match f.len with
    | .l64 =>
      f.d.toNat <<< 16 + f.a.toNat <<< 27 + (f.imm.setWidth 20).toNat <<< 38 +
        f.sub.toNat <<< 58 + f.la.toNat <<< 62
    | _ =>
      f.d.toNat <<< 16 + f.a.toNat <<< 27 + f.sub.toNat <<< 49 + f.la.toNat <<< 56 +
        f.mod.toNat <<< 58 + f.imm.toNat <<< 64
  | .c f =>
    f.off.toNat <<< 16 + f.ka.toNat <<< 42 + f.cp.toNat <<< 48 + f.cn.toNat <<< 51 +
      f.sub.toNat <<< 52 + f.imm.toNat <<< 56
  | .k f =>
    f.kd.toNat <<< 16 + f.ka.toNat <<< 22 + f.kb.toNat <<< 28 + f.sub.toNat <<< 34 +
      f.imm.toNat <<< 40
  | .l f => f.kd.toNat <<< 16 + f.imm.toNat <<< 64
  | .m f =>
    f.d.toNat <<< 16 + f.a.toNat <<< 27 + f.kb.toNat <<< 38 + f.sub.toNat <<< 44 +
      f.ord.toNat <<< 51 + f.def_.toNat <<< 54 + f.la.toNat <<< 55 + f.ch.toNat <<< 56 +
      f.off.toNat <<< 64
  | .x f =>
    f.d.toNat <<< 16 + f.a.toNat <<< 27 + f.ka.toNat <<< 38 + f.kb.toNat <<< 44 +
      f.kc.toNat <<< 50 + f.sub.toNat <<< 56 + f.imm.toNat <<< 64 + f.immB.toNat <<< 96

/-- The length of a form. -/
def Form.len : Form → Len
  | .n f => f.len
  | .r f => f.len
  | .i f => f.len
  | .c _ => .l64
  | .k _ => .l64
  | .l _ => .l128
  | .m _ => .l96
  | .x _ => .l128

/-- The word of an encoded instruction as one number, bit n of the instruction being bit n. -/
def encodeWord (i : Instr) : Option Nat :=
  i.parts.map fun p => p.2.1.bits p.1 p.2.2.len + p.2.2.bits

/-- The bytes of an encoded instruction in memory order; none for a step of another agent, which
has no words. -/
def encode (i : Instr) : Option (List Byte) :=
  i.parts.map fun p => natToBytes p.2.2.bytes (p.2.1.bits p.1 p.2.2.len + p.2.2.bits)

/-- The instruction the decoder reads from a word whose bits, numbered as R2 and R28 number them,
are `w`. -/
def decodeTableWord (nbits w : Nat) : Option Instr :=
  match decode 0 (natToBytes 16 (w % 2 ^ nbits)) with
  | .ok i => some i
  | .error _ => none

end Sys2Proof
end

