-- ==== Sys2Proof/Config.lean ====
section
/-!
DEFINITION. The constants of the machine (R1, R107, R181, R192) and the free values: opaque
constants with no body, where the spec states an effect but not the value.
-/
namespace Sys2Proof.Config

/-- Cores of the device (R4). -/
def numCores : Nat := 128
/-- Troupe slots of a core (R107). -/
def troupeSlots : Nat := 16
/-- Blocks of a core (R107). -/
def blockSlots : Nat := 8
/-- Local-memory bytes of a core (R10). -/
def localBytes : Nat := 524288
/-- TLB entries of a core (R242). -/
def tlbEntries : Nat := 128
/-- Barrier watch entries of a core (R107). -/
def watchEntries : Nat := 256
/-- Register granules of a core, of 8 registers each (R107). -/
def granules : Nat := 256
/-- Copies in flight of a core (R12). -/
def copyEntries : Nat := 128
/-- Cue-store granules of 64 bytes of a core (R125). -/
def cueGranules : Nat := 3072
/-- Entries of the fault queue (R181). -/
def faultEntries : Nat := 1024
/-- Entries of a troupe's undo log and of its journal (R193, R197). -/
def undoEntries : Nat := 4096
/-- L2 banks of the device (R1). -/
def banks : Nat := 64
/-- Installed DRAM in bytes that a thread can address, 128 GiB less the ECC carve-out (R11). -/
def dramBytes : Nat := 120 * 2 ^ 30

/-- A value that the spec leaves open: where a race of R17 or R333 decides an element, or where a
hidden value such as a fetch past the installed memory would be seen (entry 6). -/
opaque freeValue : Nat → BitVec 64

/-- The set of the device translation cache that serves a page of an owner; the spec gives the 16 ways and not the
choice of set (R242, entry 12). -/
opaque translationSet : Nat → Nat → Nat → Nat

/-- The L2 bank that serves a 64-byte sector of device DRAM; the spec gives the 64 banks and not the hash (R1, R420,
entry 76). -/
opaque bankOf : Nat → Nat

/-- The 8-byte identifier of the event that a cue record awaits, by the record's number; the spec does not say how an
event is identified (R122, entry 81). -/
opaque keyIdent : Nat → BitVec 64

/-- Whether a fetch of a block that the instruction cache holds in an older version sees the newer one (R60, entry 75). -/
opaque fetchesNewer : Nat → Bool

/-- Whether a return-stack refill misses L1, whose contents the spec does not fix (R142, entry 6). -/
opaque refillMisses : Nat → Bool

/-- The result of a transcendental function that the interval refinement does not separate from a
rounding boundary (entry 9): never a value the model picks. -/
opaque freeRounding : Nat → Nat → Nat

/-- Byte of IDENT at an offset, with the retired cores, lanes (core and number) and channels that it names; the spec says
what IDENT holds and not how (R413, entry 6). -/
opaque identByte : Nat → List Nat → List (Nat × Nat) → List Nat → BitVec 8

/-- The LMS public keys that are installed with Sirip's firmware (R381, entry 6). -/
opaque siripKey : Nat → List (BitVec 8)

/-- The SRAM bank that a row number names; the spec does not number rows (R393, entry 6). -/
opaque rowBank : Nat → Nat

/-- The lane whose vector register file holds a row, if one does (R393, entry 6). -/
opaque rowLane : Nat → Option Nat

/-- The boot ROM, the firmware slots and Sirip's firmware as bytes, by measurement index (R424, entry 6). -/
opaque imageBytes : Nat → List (BitVec 8)

end Sys2Proof.Config
end

