-- ==== Sys2Proof/Machine/State.lean ====
section
/-!
DEFINITION. The state of the HY-16 as plain data, its reset value, and the reasons a step can stop.
Each field's docstring names the rule that gives it.
-/
namespace Sys2Proof.Machine

/-- Why a step stops with a fault. -/
inductive Fault where
  /-- Raised by the meaning of a thread instruction when no path is selected (State.cur is none), so
  there is no thread to run it: safe. -/
  | noPath
  deriving DecidableEq, Repr

/-- Why a step is refused. -/
inductive Refusal where
  /-- Raised by an arm of exec whose instruction has no meaning yet: safe. -/
  | notModelled (mnemonic : String)
  deriving DecidableEq, Repr

/-- Bytes by address, strictly rising, listing no zero byte (R433; Memory.wf in Ops.lean). -/
abbrev Memory := List Host.Cell

/-- Words by key, strictly rising, listing no zero word: accumulator cells (R323). -/
abbrev CellStore := List (Nat × Word)

/-- Format tags (R115). -/
inductive Tag where
  | undef | i32 | n32 | f32 | f16x2 | bf16x2 | i16x2 | i8x4 | n8x4 | bx8x4 | bx4x8
  | i64l | i64h | dfh | dfl | raw
  deriving DecidableEq, Repr

/-- A vector register: one tag for all lanes, 64 lanes, and whether it is dead (R113, R115, R118). -/
structure VReg where
  tag : Tag
  dead : Bool
  lanes : List Word
  deriving DecidableEq, Repr

/-- Where a lane is: in its troupe's slot, in a cue record, or ended (R120, R143). -/
inductive Place where
  | resident | departed | ended
  deriving DecidableEq, Repr

/-- The per-lane state (R113, R123, R133, R176). `ret` holds the hardware return-stack entries,
newest first; `stopped` marks a resident lane that a halt, a pre-emption or a cancel holds at its
region entry (R184, R188). -/
structure Lane where
  place : Place
  stopped : Bool
  pc : DWord
  rea : DWord
  preds : BitVec 16
  idx : List (BitVec 11)
  ret : List DWord
  depth : Nat
  scope : BitVec 2
  deriving DecidableEq, Repr

/-- A last-read mark: the register and the lanes that still hold it (R118). -/
structure Mark where
  reg : Nat
  hold : Mask
  deriving DecidableEq, Repr

/-- One register's worth of data for some lanes, as a record or a deferred access carries it. -/
structure RegData where
  reg : Nat
  tag : Tag
  lanes : List Word
  deriving DecidableEq, Repr

/-- A translation with its scope leaf (R242, R245). -/
structure Xlate where
  va : Nat
  size : Nat
  pa : Nat
  host : Bool
  peer : Bool
  writable : Bool
  scope : BitVec 2
  conf : Bool
  repl : Bool
  deriving DecidableEq, Repr

/-- A piece of an access that is contiguous in memory: a virtual address with its translation, or an
address of the core's local memory. -/
structure Hit where
  lane : Nat
  va : Nat
  size : Nat
  x : Option Xlate
  deriving DecidableEq, Repr

/-- A deferred access not yet brought by DEPART (R119, R144, R179, R251). `fresh` are the lanes
that have passed no region entry since it issued; `pieces` and `kind` let the memory pipeline replay
an access whose sector was poisoned, and `kept` the bytes of such a sector as they stood before the
thread's own later writes (R89). -/
structure Deferred where
  rid : Nat
  lanes : Mask
  fresh : Mask
  data : List RegData
  pieces : List Hit
  kind : Nat
  returned : Bool
  poison : Option (Nat × DWord)
  kept : List (Nat × Host.Cell)
  /-- Carried over the Berzin link (R371, R431). -/
  peer : Bool
  deriving DecidableEq, Repr

/-- A region retry of a path: its region entry, its lanes, and whether the re-executed entry has been
passed (R392). A troupe holds one for each path that has been retried. -/
structure Retry where
  rea : DWord
  lanes : Mask
  entered : Bool
  deriving DecidableEq, Repr

/-- A troupe: its uniform state, registers and lanes (R113). `slot` is none while every lane is in a
cue record and the troupe frame is in the cue store (R124); `frameSpilled` says whether that frame
is in the wings area. -/
structure Troupe where
  blk : Nat
  idx : Nat
  slot : Option Nat
  frameSpilled : Bool
  /-- Of a spilled frame: its offset in the wings area, and whether its bytes stand there. -/
  frameAt : Nat
  frameWritten : Bool
  regs : List VReg
  lanes : List Lane
  k : List DWord
  c : BitVec 8
  bounds : List (BitVec 11 × BitVec 11)
  tiles : List (List Word)
  fmode : BitVec 3
  fstat : BitVec 7
  satt : Bool
  step : Word
  recCount : Word
  live : BitVec 16
  liveSet : Bool
  prio : Nat
  sib : BitVec 16
  marks : List Mark
  deferred : List Deferred
  skip : Nat
  /-- %clock at its block's placement, and the cycles since then that its age leaves out (R371). -/
  placedAt : Nat
  away : Nat
  /-- WATCHDOG has been raised for its age (R371). -/
  watched : Bool
  role : BitVec 2
  retry : List Retry
  deriving DecidableEq, Repr

/-- The event a cue record awaits (R120). -/
inductive Key where
  /-- The record's own data return, or a host AtomicOp (LD, ATOM, LDK, a return-stack refill). -/
  | data
  /-- The deferred accesses of its lanes (DEPART). -/
  | deferred
  /-- The phase of the barrier object at a window offset of the block. -/
  | barrier (off : Nat)
  /-- Slot `s` of ring `j` becoming full. -/
  | ring (j s : Nat)
  /-- The mailbox flag of a FETCHW at a window offset. -/
  | mailbox (off : Nat)
  /-- %clock reaching a wake time. -/
  | time (t : Nat)
  /-- So many elements of each given context, for the given active lanes. -/
  | ports (waits : List (Nat × Nat)) (active : Mask)
  /-- Translation fills of the given addresses. -/
  | fills (vas : List Nat)
  /-- The answer to the page requests of the given addresses. -/
  | pages (vas : List Nat)
  /-- Removal of every range lock over a local or global sector. -/
  | unlock (isLocal : Bool) (sector : Nat)
  /-- A rewrite of a poisoned sector. -/
  | sector (sector : Nat)
  /-- Nothing: ready as soon as written (a saved path, a due SLEEP). -/
  | none
  deriving DecidableEq, Repr

/-- One AtomicOp sent over the host link and not yet completed (R256): the access it belongs to, its
lane, its address in host memory, its operation at its width, and its operands. -/
structure HostOp where
  core : Nat
  blk : Nat
  troupe : Nat
  rid : Nat
  lane : Nat
  addr : Nat
  va : Nat
  op : Nat
  w64 : Bool
  value : Nat
  compare : Nat
  deriving DecidableEq, Repr

/-- A global or private write of bytes of one 64-byte sector, with the ORD it carries; `send` is an AtomicOp that
the host's completer performs in its place (R256, R385, R387). -/
structure GWrite where
  x : Xlate
  va : Nat
  bytes : List Byte
  send : Option HostOp := none
  ord : Nat := 0
  deriving DecidableEq, Repr

/-- A compared event of a leader core (R385): the writes of one 64-byte sector, by address, bytes and ORD; a
SIGCHK, by lane mask, tag and values; a request (ENQ, SPAWN, MODE), by its bytes or operands; or a taken transfer, by
its targets and their lanes. -/
inductive CmpEvent where
  | write (parts : List (Nat × List Byte × Nat))
  | sigchk (mask : Mask) (tags : List Tag) (values : List (List Word))
  | request (major : Nat) (operands : List Nat)
  | transfer (targets : List (Nat × Mask))
  deriving DecidableEq, Repr

/-- The latest write of some bytes of device DRAM was a release by a thread of a troupe in debug mode
(R95, R195); `logged` once the pair it heads has been logged. -/
structure ReleaseMark where
  addr : Nat
  size : Nat
  core : Nat
  blk : Nat
  troupe : Nat
  slot : Nat
  lane : Nat
  logged : Bool
  deriving DecidableEq, Repr

/-- An entry of the replay log of R195 (R196): the sector, the issuing core, slot and lane, and KIND
(0 atomic, 1 release, 2 acquire that read a release), with the L2 bank that logged it and the bank's sequence number. -/
structure ReplayEntry where
  bank : Nat
  seq : Nat
  sector : Nat
  core : Nat
  slot : Nat
  lane : Nat
  kind : Nat
  deriving DecidableEq, Repr

/-- A cue record (R122, R123). `lanes` holds the per-lane sections (64 entries, those of `mask`
meaningful); `readySeq` is the cue arbiter's order; `held` marks a record of a saved block, out of
the queue (R187); `halted` a record of a delivered fault (R190); `sat` the SAT taken under R295;
`clear` the deferred accesses that its relaunch brings. -/
structure CueRec where
  rid : Nat
  blk : Nat
  troupe : Nat
  key : Key
  resume : DWord
  mask : Mask
  prio : Nat
  kind : Nat
  cancel : Bool
  ready : Bool
  spilled : Bool
  sibseq : BitVec 16
  recCount : Word
  fault : Nat
  regs : List RegData
  lanes : List Lane
  uresult : Option (Nat × DWord)
  data : List RegData
  /-- %clock at departure, from which CUETIME is counted (R122). -/
  since : Nat
  halted : Option Nat
  held : Bool
  sat : Bool
  readySeq : Nat
  rewind : Bool
  /-- Keyed on an access carried over the Berzin link (R371, R431). -/
  peer : Bool
  /-- Of a spilled record: its offset in the wings area, and whether its bytes stand there as they are now (R125). -/
  wingsAt : Nat
  written : Bool
  /-- Where the fault of a record under resume was found: lanes and address, for its second record (R185). -/
  faultMask : Mask
  faultAddr : DWord
  /-- The port and the positions of the element that faulted, for that record (R181). -/
  faultPort : Option Nat
  faultExt : List Word
  deriving DecidableEq, Repr

/-- What a fill completes with: a translation, or the outcome that the re-executed access raises (R242, R243). -/
inductive Fill where
  | ok (x : Xlate)
  | pageFault (va : Nat)
  | access (va : Nat)
  deriving DecidableEq, Repr

/-- One entry of the core TLB, of the PASID and partition it serves (R242). -/
structure TlbEntry where
  part : Nat
  pasid : Nat
  x : Xlate
  deriving DecidableEq, Repr

/-- The outcome of a fill other than a translation, for the lanes whose record awaited it, until their
re-executed access raises it (R243). `entered` once the lanes have passed the region entry at which they
re-execute; past another one nothing of it is left. -/
structure FillOutcome where
  blk : Nat
  troupe : Nat
  lanes : Mask
  fill : Fill
  entered : Bool
  deriving DecidableEq, Repr

/-- A 32-byte fetch block of the instruction cache, by its number (R60). -/
structure CodeBlock where
  number : Nat
  bytes : List Byte
  deriving DecidableEq, Repr

/-- A pattern descriptor as SCFG copies it (R262). -/
structure Pattern where
  base : DWord
  lstride : Word
  fmt : Nat
  priv : Bool
  isLocal : Bool
  ndim : Nat
  ext : List Word
  str : List Word
  length : Word
  deriving DecidableEq, Repr

/-- An element fetched ahead with its page's scope, or the fault recorded in its place, with the
poisoned sector where that is the fault (R264). -/
inductive Fetched where
  | value (w : Word) (scope : BitVec 2)
  | fault (code : Nat) (addr : DWord) (sector : Nat)
  deriving DecidableEq, Repr

/-- A held push: its address and data, and its place in the push order of the core (R267, R269, R192). -/
structure Push where
  addr : DWord
  data : Word
  seq : Nat
  /-- Its region entry has passed and it has not been performed: its page lost its translation (R269), or an
  older command holds its local sector (R13). -/
  waiting : Bool
  deriving DecidableEq, Repr

/-- One lane of a stream context (R261). -/
structure CtxLane where
  pos : Word
  ckpt : Word
  eos : Bool
  ahead : List Fetched
  held : List Push
  /-- Held pushes made since the lane's region entry (R179). -/
  freshPushes : Nat
  /-- A pending SCLOSE, and whether it was made since the region entry (R275). -/
  close : Bool
  deriving DecidableEq, Repr

/-- A stream context (R261): bound to a port of a troupe of a block, or free. -/
structure Ctx where
  /-- Block slot that owns the context, and its number within the block. -/
  owner : Option (Nat × Nat)
  bound : Bool
  write : Bool
  port : Nat
  troupe : Nat
  kbase : DWord
  pat : Pattern
  lanes : List CtxLane
  /-- Closed at a region entry, and freed once its waiting pushes have been performed (R275). -/
  closing : Bool
  deriving DecidableEq, Repr

/-- A half-open range of byte addresses. -/
structure Span where
  lo : Nat
  hi : Nat
  deriving DecidableEq, Repr

/-- Who holds a scoreboard entry (R12). -/
inductive SbOwner where
  | copy (n : Nat)
  | matrix (id : Nat)
  | stream (ctx : Nat)
  deriving DecidableEq, Repr

/-- A scoreboard entry: its owner, the troupe slot that issued it (none for a copy), and the local
sectors it reads and writes (R12, R13). Entries stand in admission order. -/
structure SbEntry where
  owner : SbOwner
  slot : Option Nat
  reads : List Span
  writes : List Span
  deriving DecidableEq, Repr

/-- What the engine's read of a script entry found: its 32 bytes, or why it could not be read (R284,
R434). -/
inductive EntryRead where
  | bytes (bs : List Byte)
  | fault (code : Nat)
  deriving DecidableEq, Repr

/-- A script entry as the engine has read it (R283). -/
structure ScriptEntry where
  recAddr : DWord
  stage : Word
  localOff : Word
  kind : Byte
  cvt : Byte
  key : Byte
  sync : Byte
  rsv : Bool
  deriving DecidableEq, Repr

/-- A released entry waiting in a block's release queue (R284, R285). `failed` holds the queue behind an
entry that did not pass its checks; `time` is when it was released (R15). -/
structure Released where
  pos : Nat
  addr : DWord
  fmode : BitVec 3
  /-- Address of the CSTEP or CSCHED that released it, 0 at placement or restore (R435). -/
  pc : DWord
  /-- The entry once read and checked (R434). -/
  entry : Option ScriptEntry
  failed : Bool
  time : Nat
  /-- The troupe whose CSCHED released it, and the lanes of it that have passed no region entry since (R392). -/
  troupe : Nat
  fresh : Mask
  deriving DecidableEq, Repr

/-- A copy in flight (R285, R434). -/
structure Copy where
  blk : Nat
  entry : ScriptEntry
  fmode : BitVec 3
  /-- The shape record's 64 bytes once obtained and checked (R290, R291), and those found in the cache at the start of
  a copy that waits for its counter (R301, R434). -/
  record : Option (List Byte)
  known : Option (List Byte)
  /-- Pages for which it waits on a page request (R292). -/
  waits : List Nat
  /-- Locked local and global ranges (R16). -/
  locks : List Span
  globals : List Span
  /-- The invocation counter and salt a G2L.DEC took at its start (R301). -/
  iv : Option (Word × DWord × BitVec 256)
  /-- The flag it ends with (bit number of R294's ERR field), when it ends early. -/
  flag : Option Nat
  /-- Order of start on the core (R285). -/
  order : Nat
  /-- Its block has ended or been killed: local writes and barrier updates are discarded (R302). -/
  orphan : Bool
  /-- As in its released entry. -/
  troupe : Nat
  fresh : Mask
  deriving DecidableEq, Repr

/-- A key slot (R300). -/
structure KeySlot where
  v : Bool
  part : BitVec 3
  pasid : BitVec 20
  key : BitVec 256
  salt : Word
  ctr : DWord
  deriving DecidableEq, Repr

/-- A placed block (R107, R284, R302, R392, R408). -/
structure Block where
  launch : Nat
  index : Nat
  base : Nat
  size : Nat
  barriers : Nat
  rings : Nat
  streams : Nat
  troupes : Nat
  regs : Nat
  priv : Nat
  privBase : Nat
  stage : Nat
  script : DWord
  /-- It has a script (R284). -/
  scripted : Bool
  pos : Nat
  relq : List Released
  /-- Entries of the script that the engine has read, by position (R434). -/
  ahead : List (Nat × EntryRead)
  keptFmode : Option (BitVec 3)
  /-- Halted under deliver (R184). -/
  halted : Bool
  /-- Being cancelled: paths stop at their region entries, then the block is killed (R367). -/
  cancelling : Bool
  /-- Its last troupe has ended, or it was killed; it waits for its copies and commands (R302). -/
  ending : Bool
  killed : Bool
  /-- Saved by a pre-emption (R187, R190), and %clock at its save (R371). -/
  saved : Bool
  savedAt : Nat
  withdrawn : Nat
  retries : Nat
  blockRetry : Bool
  /-- Killed for block retry: its index is placed again and does not count as ended (R392). -/
  retrying : Bool
  /-- An atomic, release, ENQ or SPAWN has matched since placement (R392). -/
  matchedSync : Bool
  deriving DecidableEq, Repr

/-- The rotation states of a core (R368). -/
inductive Service where
  | inService | drain | stop | scan | restore
  deriving DecidableEq, Repr

/-- A pre-emption on a core: the cores of its request, which engines have acknowledged (R188), and whether
its save waits for room (R190). -/
structure Preempt where
  cores : List Nat
  thread : Bool
  stream : Bool
  copy : Bool
  matrix : Bool
  waitingRoom : Bool
  /-- Groups whose command was held when it was to be issued, by block slot, troupe and address: it is not issued, and
  its path counts as stopped (R188, R348). -/
  held : List (Nat × Nat × DWord)
  deriving DecidableEq, Repr

/-- One undo entry (R193, R196): the writes of one instruction, or a boundary. `old` is the troupe before and after
them, `oldLocal` the old bytes of its local stores, `oldPos` the port positions; a boundary has none. `weight` counts
the 288-byte entries of R196 that it takes, and `more` says that it holds what the relaunch of the departed
instruction logged before it has written. -/
structure Undo where
  pc : DWord
  recCount : Word
  boundary : Bool
  weight : Nat
  skew : Bool
  more : Bool
  lanes : Mask
  old : Option (Troupe × Troupe)
  oldLocal : List Host.Cell
  oldPos : List (Nat × List CtxLane)
  deriving DecidableEq, Repr

/-- The undo log of a troupe, newest first, with the flags of R196, and the number of 288-byte entries ever written,
which gives HEAD. `lost` are the lanes whose journal does not reach back to their region entry (R197), `sealed` those
that have performed, since that entry, an operation which performs once (R100). `stored` and `wrote` are what the
instruction under way has stored to local memory, and whether its troupe has written global memory unlogged. -/
structure UndoLog where
  blk : Nat
  troupe : Nat
  entries : List Undo
  globalSkew : Bool
  wrapped : Bool
  written : Nat
  lost : Mask
  sealed : Mask
  stored : List Host.Cell
  wrote : Bool
  deriving DecidableEq, Repr

/-- One core. -/
structure Core where
  retired : Bool
  service : Service
  laneMap : List Nat
  /-- Two lanes have been retired on the core (R5, R397). -/
  lanesRetired : Nat
  mem : Memory
  owners : List (Option (Nat × Nat))
  blocks : List (Option Block)
  troupes : List Troupe
  cue : List CueRec
  readySeq : Nat
  wingsBase : Nat
  wingsSize : Nat
  privAreas : List (Nat × Nat)
  saveArea : Nat
  debugArea : Nat
  tlb : List TlbEntry
  outcomes : List FillOutcome
  icache : List CodeBlock
  ctxs : List Ctx
  pushSeq : Nat
  board : List SbEntry
  copies : List (Option Copy)
  copyOrder : Nat
  keys : List KeySlot
  lastChosen : List Nat
  preempt : Option Preempt
  /-- Launches that had no block on the core when its SCAN began (R370). -/
  scanFor : List Nat
  inject : Bool
  undo : List UndoLog
  /-- Blocks to be placed again by block retry (R392): launch, index. -/
  retryPlace : List (Nat × Nat)
  deriving DecidableEq, Repr

/-- A tile descriptor's fields as a command reads them (R325). -/
structure Tile where
  base : Nat
  rows : Nat
  rowbytes : Nat
  stride : Nat
  fmt : Nat
  swz : Bool
  scale : Nat
  meta_ : Nat
  nkeep : Nat
  deriving DecidableEq, Repr

/-- The commands of the matrix array that take a scoreboard entry (R335). -/
inductive MatOp where
  | mma (sparse acc : Bool) (a b : Tile) (rb cb : Nat)
  | zero (row0 rows col0 cols : Nat)
  | load (t : Tile) (row0 col0 : Nat)
  | store (t : Tile) (row0 col0 : Nat) (rnd k : Nat)
  deriving DecidableEq, Repr

/-- An admitted matrix command (R334, R335): where it came from, its arrivals, and what it has
computed when it has started. -/
structure MatCmd where
  id : Nat
  core : Nat
  blk : Nat
  troupe : Nat
  /-- The issuing lanes that have passed no region entry since (R392). -/
  fresh : Mask
  op : MatOp
  /-- The block's window base at admission. -/
  window : Nat
  arr : Option Nat
  rel : Option (Nat × Nat)
  pert : Option (Nat × Nat × Word)
  started : Bool
  lastRead : Bool
  cells : List (Nat × Word)
  bytes : List Host.Cell
  status : BitVec 4
  orphan : Bool
  /-- The owner of its launch, and whether the cells are scrubbed as it starts (R323). -/
  own : Nat × Nat
  scrub : Bool
  /-- Its cell writes are lost to a scrub that came before they were made. -/
  muted : Bool
  /-- What thread stores have overwritten in its regions since its admission, oldest store first (R17). -/
  raced : List (List Host.Cell)
  /-- Cells in which an ACCWR lands after its write (R333). -/
  dropped : List Nat
  deriving DecidableEq, Repr

/-- The matrix state of a core pair (R323, R339, R341). -/
structure Pair where
  cells : CellStore
  owner : Option (Nat × Nat)
  queue : List MatCmd
  pert : Option (Nat × Nat × Word)
  status : BitVec 4
  nextId : Nat
  deriving DecidableEq, Repr

/-- A cached shape record of a cluster, most recently used first (R291). -/
structure CachedRec where
  addr : Nat
  part : Nat
  bytes : List Byte
  deriving DecidableEq, Repr

/-- A cluster (R291, R394, R399, R432). -/
structure Cluster where
  retired : Bool
  records : List CachedRec
  agemon : List Word
  supply : Nat
  /-- Cores that fail their next scan, by local index (R399). -/
  failing : BitVec 8
  deriving DecidableEq, Repr

/-- A kernel descriptor as the front end reads it (R81). -/
structure Desc where
  entry : DWord
  widths : List Nat
  regs : Nat
  troupes : Nat
  il : Nat
  localBytes : Nat
  priv : Nat
  barriers : Nat
  rings : Nat
  streams : Nat
  prio : Nat
  liveTiles : BitVec 16
  signed : Bool
  faultDisp : DWord
  sched : DWord
  /-- A reserved field or bit is nonzero. -/
  reserved : Bool
  deriving DecidableEq, Repr

/-- A launch record accepted by a queue (R352, R355, R356). -/
structure QRec where
  bytes : List Byte
  seq : Nat
  qcfg : DWord
  desc : Option Desc
  args : List DWord
  passed : Bool
  deriving DecidableEq, Repr

/-- A hardware queue (R352, R415). -/
structure Queue where
  recs : List QRec
  seq : Nat
  qcfg : DWord
  deriving DecidableEq, Repr

/-- A range of unplaced block indices and the core that owns it (R363). -/
structure BlockRange where
  lo : Nat
  hi : Nat
  owner : Option Nat
  deriving DecidableEq, Repr

/-- A bound launch or a child task (R359, R363, R374). -/
structure Launch where
  id : Nat
  parent : Option Nat
  queue : Nat
  seq : Nat
  part : Nat
  pasid : Nat
  pasidEn : Bool
  job : Nat
  cgroup : Nat
  il : Nat
  /-- Disposition of each fault code (R356): 0 deliver, 1 resume, 2 kill. -/
  disp : List Nat
  desc : Desc
  kdesc : DWord
  args : List DWord
  blocks : Nat
  sched : DWord
  compl : DWord
  irq : Bool
  debug : Bool
  cutAllowed : Bool
  deadline : Nat
  prio : Nat
  clmask : BitVec 16
  coremask : BitVec 8
  ranges : List BlockRange
  ended : Nat
  done : Nat
  faults : Nat
  /-- A bind record is in force (R361); a child task is bound with its parent (R374). -/
  bound : Bool
  /-- A cancel has acted on it, and has removed blocks or tasks of it (R367). -/
  cancelled : Bool
  removed : Bool
  failed : Bool
  draining : Option DWord
  cut : Option Nat
  /-- Cores that have placed its blocks and have not passed a quench slot since (R370). -/
  unscanned : List Nat
  /-- The final update is written; a provisional launch then waits for its second (R359). -/
  final : Bool
  /-- A scan has failed on a core that ran it (R397). -/
  scanFail : Bool
  deriving DecidableEq, Repr

/-- An entry of a partition's job table (R360). -/
structure JobEntry where
  part : Nat
  job : Nat
  cgroup : Nat
  launch : Nat
  deriving DecidableEq, Repr

/-- A fault record (R181). -/
structure FaultRec where
  code : Nat
  ext : Bool
  multi : Bool
  checked : Bool
  resfail : Bool
  disp : Nat
  core : Nat
  troupe : Nat
  slot : Nat
  recCount : Word
  entry : DWord
  pc : DWord
  mask : Mask
  addr : DWord
  block : Nat
  job : Nat
  lane : Nat
  port : Option Nat
  arg : Nat
  seq : Nat
  check : Nat
  extWords : List Word
  deriving DecidableEq, Repr

/-- A fault whose record waits for a free entry of the fault queue (R185): the record, the block and
lanes it concerns, where a SKIP continues and what a resume awaits. -/
structure FaultWait where
  record : FaultRec
  blk : Nat
  lanes : Mask
  next : DWord
  key : Key
  engine : Bool
  /-- Names the wait in records that hold its lanes (R185). -/
  wid : Nat
  /-- Its resolution fails at once: no replica of the poisoned sector exists (R185, R247). -/
  final : Bool
  deriving DecidableEq, Repr

/-- A delivered fault that waits for the prompter's answer (R184, R186). -/
structure Halt where
  seq : Nat
  core : Nat
  blk : Nat
  troupe : Nat
  mask : Mask
  code : Nat
  next : DWord
  /-- The path has no lanes to resume: a fault of the block or of an engine. -/
  engine : Bool
  deriving DecidableEq, Repr

/-- The scheduler (R352 to R371). -/
structure Sched where
  queues : List Queue
  jobs : List JobEntry
  queueRows : List (BitVec 128)
  /-- Core rows in force: (core, slot, row). -/
  coreRows : List (Nat × Nat × BitVec 128)
  launches : List Launch
  nextLaunch : Nat
  lastServed : Nat
  /-- Cancels that the distributor arbiter has not taken: partition, group (R354). -/
  presented : List (Nat × Nat)
  rotation : Option Nat
  rotgap : Nat
  premax : Nat
  deriving DecidableEq, Repr

/-- Who asked for a change of mode: a thread, which gets no report, the host by the number of its request, or the
management core (R388, R389). -/
inductive Asker where
  | thread
  | host (n : Nat)
  | mgmt
  deriving DecidableEq, Repr

/-- A checked pair (R362 pair row, R382, R388, R393). -/
structure CheckedPair where
  checked : Bool
  /-- A mode change in progress and its direction, with the launch it names (R389). -/
  changing : Option Bool
  named : Option (Nat × Nat)
  asker : Asker
  verified : Option (Nat × Nat)
  mismatches : List Nat
  lasting : Bool
  /-- The understudy's cores and core pairs while the pair is checked, which hold what the leader's hold (R383). -/
  twin : List Core
  twinPairs : List Pair
  deriving DecidableEq, Repr

/-- An entry of Sirip's event log (R395). -/
structure LogEntry where
  seq : Nat
  kind : Nat
  tier : Nat
  core : Nat
  unit : Nat
  time : DWord
  addr : DWord
  job : Nat
  deriving DecidableEq, Repr

/-- A signed-kernel table entry: descriptor address, the digests of .code and .kdesc, and where the
sections are loaded (R381). -/
structure SignedKernel where
  kdesc : Nat
  codeAddr : Nat
  codeSize : Nat
  codeHash : BitVec 256
  descAddr : Nat
  descSize : Nat
  descHash : BitVec 256
  deriving DecidableEq, Repr

/-- Sirip (chapter 18). -/
structure Sirip where
  pairs : List CheckedPair
  /-- Queued requests (R388). -/
  requests : List (DWord × Asker)
  /-- Changes that the management core asked for and that have been reported to it as complete (R389). -/
  mgmtComplete : Nat
  hostOutcome : BitVec 2
  hostCount : BitVec 24
  log : List LogEntry
  eventSeq : Nat
  wincfg : Word
  /-- Corrected errors in their window: core, row, time (R393). -/
  corrected : List (Nat × Nat × Nat)
  /-- Lasting rows that wait for their core's next SCAN, and rows mapped to a spare (R393). -/
  lastingRows : List (Nat × Nat)
  spareRows : List (Nat × Nat)
  keyTable : List (List Byte)
  signed : List SignedKernel
  cinj : DWord
  /-- FAULT_N is driven low, and the log sequence that requires it (R402). -/
  faultN : Bool
  faultSeq : Nat
  acked : Nat
  lockstepLost : Bool
  failingChannel : Option Nat
  retiredChannels : List Nat
  migration : Option Nat
  deriving DecidableEq, Repr

/-- TDISP states (R425). -/
inductive Tdi where
  | unlocked | locked | run | error
  deriving DecidableEq, Repr

/-- A partition's registers (R419) and its confidential stream (R422). -/
structure Partition where
  en : Bool
  quiesced : Bool
  tdi : Tdi
  clbase : BitVec 4
  cllimit : BitVec 4
  colour : DWord
  fbnd : BitVec 16
  proot : DWord
  /-- Selective IDE stream: the active and the standby key set (R422). -/
  ideActive : Option (BitVec 256)
  ideNext : Option (BitVec 256)
  deriving DecidableEq, Repr

/-- Outstanding page request: its group index, partition, PASID and page (R416, R417). -/
structure PageRequest where
  index : Nat
  part : Nat
  pasid : Nat
  va : Nat
  /-- False while it waits for a free entry of the page-request queue. -/
  sent : Bool
  deriving DecidableEq, Repr

/-- Firmware slots and FWCTL (R427, R428, R430). `okA` and `okB` say whether the image in the slot
verifies. -/
structure Firmware where
  active : BitVec 2
  try_ : BitVec 2
  okA : Bool
  okB : Bool
  boots : BitVec 16
  rollback : Bool
  running : BitVec 2
  hb : Bool
  /-- Address of the handover structure, and whether the running image has written it for the next one, which has not
  sent its first heartbeat (R429, R430). -/
  handover : Nat
  handed : Bool
  deriving DecidableEq, Repr

/-- How the latest command of MGMTBOX ended (R413, R421, R426, R430). -/
inductive MgmtStatus where
  | none | done | refused | error
  deriving DecidableEq, Repr

/-- What the SPDM responder answered last (R423, R424); a signature names the leaf that made it. -/
inductive SpdmReply where
  | none
  | certificates
  | signature (leaf : Nat)
  | measurement (digest : List Byte)
  | keyExchange (leaf : Nat)
  | error
  deriving DecidableEq, Repr

/-- Berzin link (R431). -/
structure Link where
  en : Bool
  state : Nat
  width : Nat
  replays : Nat
  /-- %clock when the link last entered recovery (R371). -/
  since : Nat
  deriving DecidableEq, Repr

/-- What completed the latest request of the host, or a read of the peer (R352, R412, R422, R431). -/
inductive Reply where
  | none
  | success (data : List Byte)
  | unsupported
  | retry
  deriving DecidableEq, Repr

/-- An ATS invalidation whose completion has not been sent (R246, R418): its function and range. -/
structure Inval where
  vf : Nat
  pasid : Nat
  va : Nat
  size : Nat
  deriving DecidableEq, Repr

/-- The path selected for issue: core, block slot, troupe index, lanes and address (R111). -/
structure Issue where
  core : Nat
  blk : Nat
  troupe : Nat
  lanes : Mask
  pc : DWord
  deriving DecidableEq, Repr

/-- A step that an agent is to take: the thread engine of a core issues, it issues the second group of the
same cycle (R111), or another agent takes its step (entry 1). -/
inductive Act where
  | issue (core : Nat)
  | second (q : Issue)
  | event (i : Instr)
  deriving DecidableEq, Repr

/-- A mismatch that the comparator has found: the core and block it is charged to, the path, and the address (R391). -/
structure Struck where
  core : Nat
  blk : Nat
  path : Option Issue
  addr : DWord
  deriving DecidableEq, Repr

/-- The state of the device. -/
structure State where
  clock : DWord
  dram : Memory
  dramReady : Bool
  hostMem : Memory
  peerMem : Memory
  poison : List Nat
  iommu : List AtsAnswer
  dtc : List TlbEntry
  /-- Invalidations not yet completed, and the functions for which one has been, in order (R246, R418). -/
  invals : List Inval
  invalAcks : List Nat
  /-- AtomicOps on their way to the host's completer, oldest first. -/
  hostOps : List HostOp
  releases : List ReleaseMark
  replay : List ReplayEntry
  pri : List PageRequest
  nextPri : Nat
  priStopped : Bool
  cores : List Core
  pairs : List Pair
  clusters : List Cluster
  sched : Sched
  faultQ : List FaultRec
  faultWait : List FaultWait
  faultSeq : Nat
  halts : List Halt
  sirip : Sirip
  parts : List Partition
  slotTab : List Byte
  slotPending : List (Nat × Byte)
  fw : Firmware
  link : Link
  /-- The leaf index in the board flash, and the leaf that the next signature uses (R423). -/
  spdmStored : Nat
  spdmLeaf : Nat
  spdmSession : Bool
  spdmReply : SpdmReply
  /-- The IDE stream of PF0: the active and the standby key set (R422). -/
  pfIdeActive : Option (BitVec 256)
  pfIdeNext : Option (BitVec 256)
  mgmt : MgmtStatus
  /-- Partitions whose front ends a merge or split reopens at the frame boundary (R421). -/
  reopening : List Nat
  msix : List (Nat × Nat)
  /-- Vectors that are masked and have an event to signal (R413, R414). -/
  pend : List (Nat × Nat)
  aer : Nat
  reply : Reply
  mgmtReports : Nat
  /-- Paths that PREMAX has reported to the prompter, with their blocks (R188, R366). -/
  late : List Issue
  clockMhz : Nat
  tripped : Bool
  /-- Bytes of the plain registers of each function's BAR0 (MGMTBOX, MSI-X tables), 1 MiB a function. -/
  bar : Memory
  /-- The MODEL's own: the order in which agents act (entry 1). -/
  agenda : List Act
  /-- The MODEL's own: the path whose instruction is being executed (entry 2). -/
  cur : Option Issue
  /-- The MODEL's own: identifies records and accesses (entry 2). -/
  nextId : Nat
  /-- The MODEL's own: numbers the instruction fetches (entry 75). -/
  fetchSeq : Nat
  /-- The MODEL's own: the compared events of the step being taken by leader core, oldest first, those that the
  understudy has sent in it and that have no counterpart yet, and the mismatch found in it (R385, R391, entry 74). -/
  events : List (Nat × CmpEvent)
  expected : Option (List (Nat × CmpEvent))
  struck : Option Struck
  deriving DecidableEq, Repr

/-! ### Reset values -/

/-- A lane that does not exist yet. -/
def Lane.reset : Lane :=
  { place := .ended, stopped := false, pc := 0, rea := 0, preds := 1, idx := List.replicate 8 0
    ret := [], depth := 0, scope := 0 }

/-- A pattern descriptor of zeros. -/
def Pattern.reset : Pattern :=
  { base := 0, lstride := 0, fmt := 0, priv := false, isLocal := false, ndim := 0
    ext := List.replicate 4 0, str := List.replicate 4 0, length := 0 }

/-- One lane of a free stream context. -/
def CtxLane.reset : CtxLane :=
  { pos := 0, ckpt := 0, eos := false, ahead := [], held := [], freshPushes := 0, close := false }

/-- A free stream context. -/
def Ctx.reset : Ctx :=
  { owner := none, bound := false, write := false, port := 0, troupe := 0, kbase := 0
    pat := Pattern.reset, lanes := List.replicate 64 CtxLane.reset, closing := false }

/-- An empty key slot (R300). -/
def KeySlot.reset : KeySlot := { v := false, part := 0, pasid := 0, key := 0, salt := 0, ctr := 0 }

/-- The private area of block slot `s` of core `c` after reset (R132, entry 4). -/
def privArea (c s : Nat) : Nat × Nat := (2 ^ 44 + (8 * c + s) * 2 ^ 31, 2 ^ 31)

/-- A core after reset (R5, R109, R242, R300; entries 3 and 4), with no private areas yet. -/
def Core.reset : Core :=
  { retired := false, service := .inService, laneMap := List.range 64, lanesRetired := 0
    mem := [], owners := List.replicate 128 none, blocks := List.replicate 8 none
    troupes := [], cue := [], readySeq := 0, wingsBase := 0, wingsSize := 16777216
    privAreas := List.replicate 8 (0, 0), saveArea := 0, debugArea := 0, tlb := []
    outcomes := [], icache := [], ctxs := List.replicate 32 Ctx.reset, pushSeq := 0, board := [], copies := List.replicate 128 none
    copyOrder := 0, keys := List.replicate 64 KeySlot.reset, lastChosen := List.replicate 24 15
    preempt := none, scanFor := [], inject := false
    undo := [], retryPlace := [] }

/-- Core `c` after reset, with the areas that the prompter would give it (R126, R132, R190, R193, entry 4). -/
def Core.resetAt (c : Nat) : Core :=
  { Core.reset with
    privAreas := (List.range 8).map (privArea c), wingsBase := 60 * 2 ^ 30 + c * 2 ^ 28
    saveArea := 112 * 2 ^ 30 + c * 2 ^ 21, debugArea := 92 * 2 ^ 30 + c * 160 * 2 ^ 20 }

/-- A core pair after reset: every cell +0, no owner (R323). -/
def Pair.reset : Pair :=
  { cells := [], owner := none, queue := [], pert := none, status := 0, nextId := 0 }

/-- A cluster after reset (R1 for the supply; entry 4). -/
def Cluster.reset : Cluster :=
  { retired := false, records := [], agemon := List.replicate 8 0, supply := 450, failing := 0 }

/-- An empty queue (R352). -/
def Queue.reset : Queue := { recs := [], seq := 0, qcfg := 0 }

/-- The scheduler after reset. -/
def Sched.reset : Sched :=
  { queues := List.replicate 64 Queue.reset, jobs := [], queueRows := List.replicate 64 0
    coreRows := [], launches := [], nextLaunch := 0, lastServed := 127, presented := []
    rotation := none, rotgap := 0, premax := 1000 }

/-- An independent pair of clusters. -/
def CheckedPair.reset : CheckedPair :=
  { checked := false, changing := none, named := none, asker := .thread, verified := none, mismatches := []
    lasting := false, twin := [], twinPairs := [] }

/-- Sirip after reset (R393, R401, R402). -/
def Sirip.reset : Sirip :=
  { pairs := List.replicate 8 CheckedPair.reset, requests := [], mgmtComplete := 0, hostOutcome := 0, hostCount := 0
    log := [], eventSeq := 0, wincfg := 0x0A2303E8, corrected := [], lastingRows := [], spareRows := []
    keyTable := (List.range 8).map Config.siripKey, signed := [], cinj := 0, faultN := false, faultSeq := 0, acked := 0
    lockstepLost := false, failingChannel := none, retiredChannels := [], migration := none }

/-- Partition `p` after reset (R419). -/
def Partition.reset (p : Nat) : Partition :=
  if p = 0 then
    { en := true, quiesced := false, tdi := .unlocked, clbase := 0, cllimit := 15
      colour := BitVec.allOnes 64, fbnd := 0xFFFF, proot := 0, ideActive := none, ideNext := none }
  else
    { en := false, quiesced := false, tdi := .unlocked, clbase := 0, cllimit := 0
      colour := 0, fbnd := 0, proot := 0, ideActive := none, ideNext := none }

/-- Firmware after the first start from a boot record that names slot A (entry 4; R427, R428). -/
def Firmware.reset : Firmware :=
  { active := 1, try_ := 0, okA := true, okB := false, boots := 1, rollback := false, running := 1
    hb := false, handover := 113 * 2 ^ 30, handed := false }

/-- The device right after reset: DRAM not yet zeroed for access, nothing placed, every register at
the value its rule gives (R433, R419, R21, R393) or that an entry of the log names. -/
def State.reset : State :=
  { clock := 0, dram := [], dramReady := false, hostMem := [], peerMem := [], poison := []
    iommu := [], dtc := [], invals := [], invalAcks := [], hostOps := [], releases := [], replay := [], pri := [], nextPri := 0, priStopped := false
    cores := (List.range 128).map Core.resetAt, pairs := List.replicate 64 Pair.reset
    clusters := List.replicate 16 Cluster.reset, sched := Sched.reset, faultQ := []
    faultWait := [], faultSeq := 0, halts := [], sirip := Sirip.reset
    parts := (List.range 8).map Partition.reset, slotTab := List.replicate 64 0
    slotPending := [], fw := Firmware.reset
    link := { en := false, state := 0, width := 0, replays := 0, since := 0 }, spdmStored := 0, spdmLeaf := 1024
    spdmSession := false, spdmReply := .none, pfIdeActive := none, pfIdeNext := none, mgmt := .none, reopening := [], msix := [], pend := [], aer := 0, reply := .none, mgmtReports := 0, late := [], clockMhz := 3200
    tripped := false, bar := [], agenda := [], cur := none, nextId := 0, fetchSeq := 0, events := [], expected := none, struck := none }

end Sys2Proof.Machine
end

