-- ==== Sys2Proof/Machine/Mem.lean ====
section
/-!
DEFINITION. Operations on memories and cell stores in their canonical form, and the accessors of
the state's parts: every read and write of a register, a lane, a troupe, a block or a core goes
through these.
-/
namespace Sys2Proof.Machine

/-! ### Memories -/

/-- The byte at an address; an unlisted address reads as zero (R433; entry 3 for the others). -/
def Memory.read : Memory → Nat → Byte
  | [], _ => 0
  | (k, b) :: t, a => if k = a then b else Memory.read t a

/-- Write one byte, keeping addresses rising and listing no zero byte. -/
def Memory.write : Memory → Nat → Byte → Memory
  | [], a, b => if b = 0 then [] else [(a, b)]
  | (k, x) :: t, a, b =>
    if a < k then (if b = 0 then (k, x) :: t else (a, b) :: (k, x) :: t)
    else if a = k then (if b = 0 then t else (a, b) :: t)
    else (k, x) :: Memory.write t a b

/-- Every listed address is at least `lo`, addresses rise strictly, and no listed byte is zero. -/
def Memory.wfFrom : Nat → Memory → Bool
  | _, [] => true
  | lo, (k, b) :: t => decide (lo ≤ k) && decide (b ≠ 0) && Memory.wfFrom (k + 1) t

/-- The canonical form of a memory. -/
def Memory.wf (m : Memory) : Bool := Memory.wfFrom 0 m

/-- `n` bytes from an address. -/
def Memory.readBytes (m : Memory) (a n : Nat) : List Byte :=
  (List.range n).map fun i => m.read (a + i)

/-- Write consecutive bytes. -/
def Memory.writeBytes : Memory → Nat → List Byte → Memory
  | m, _, [] => m
  | m, a, b :: t => Memory.writeBytes (m.write a b) (a + 1) t

/-- A little-endian value of `n` bytes (R2). -/
def Memory.readNat (m : Memory) (a n : Nat) : Nat := bytesToNat (m.readBytes a n)

/-- Write a little-endian value of `n` bytes (R2). -/
def Memory.writeNat (m : Memory) (a n v : Nat) : Memory := m.writeBytes a (natToBytes n v)

/-- Remove every byte of a span: they read as zero. -/
def Memory.clear (m : Memory) (lo hi : Nat) : Memory := m.filter fun c => c.1 < lo || hi ≤ c.1

/-- Only the bytes of a span. -/
def Memory.within (m : Memory) (lo hi : Nat) : Memory := m.filter fun c => lo ≤ c.1 && c.1 < hi

/-- Write a list of single bytes in order. -/
def Memory.writeCells (m : Memory) (cs : List Host.Cell) : Memory :=
  cs.foldl (fun m c => m.write c.1 c.2) m

/-- An accumulator cell; an unlisted cell is +0 (R323). -/
def CellStore.read : CellStore → Nat → Word
  | [], _ => 0
  | (k, w) :: t, a => if k = a then w else CellStore.read t a

/-- Write one cell, keeping the canonical form. -/
def CellStore.write : CellStore → Nat → Word → CellStore
  | [], a, w => if w = 0 then [] else [(a, w)]
  | (k, x) :: t, a, w =>
    if a < k then (if w = 0 then (k, x) :: t else (a, w) :: (k, x) :: t)
    else if a = k then (if w = 0 then t else (a, w) :: t)
    else (k, x) :: CellStore.write t a w

/-- The key of `acc(row, col)` (R323). -/
def cellKey (row col : Nat) : Nat := row * 128 + col

/-- Bytes of a 64-byte sector's address (R13). -/
def sectorOf (a : Nat) : Nat := a / 64

/-- Bitwise NOT of the 32-bit wrap-around sum of little-endian words (R76, R122, R181, R286). -/
def checkWord (ws : List Nat) : Nat := (2 ^ 32 - 1) - (ws.foldl (· + ·) 0) % 2 ^ 32

/-- The 32-bit words of a list of bytes. -/
def wordsOf (bs : List Byte) : List Nat :=
  (List.range (bs.length / 4)).map fun i => bytesToNat ((bs.drop (4 * i)).take 4)

/-! ### Cores, blocks, troupes, launches -/

/-- A core by number (R4). -/
def State.core (s : State) (c : Nat) : Core := s.cores.getD c Core.reset

/-- Replace a core. -/
def State.setCore (s : State) (c : Nat) (k : Core) : State := { s with cores := s.cores.set c k }

/-- Change a core. -/
def State.modCore (s : State) (c : Nat) (f : Core → Core) : State := s.setCore c (f (s.core c))

/-- A core pair by number (R4). -/
def State.pair (s : State) (n : Nat) : Pair := s.pairs.getD n Pair.reset

/-- Change a core pair. -/
def State.modPair (s : State) (n : Nat) (f : Pair → Pair) : State :=
  { s with pairs := s.pairs.set n (f (s.pair n)) }

/-- A cluster by number (R4). -/
def State.cluster (s : State) (n : Nat) : Cluster := s.clusters.getD n Cluster.reset

/-- Change a cluster. -/
def State.modCluster (s : State) (n : Nat) (f : Cluster → Cluster) : State :=
  { s with clusters := s.clusters.set n (f (s.cluster n)) }

/-- A partition by number (R419). -/
def State.part (s : State) (p : Nat) : Partition := s.parts.getD p (Partition.reset 1)

/-- Change a partition. -/
def State.modPart (s : State) (p : Nat) (f : Partition → Partition) : State :=
  { s with parts := s.parts.set p (f (s.part p)) }

/-- The partition of a cluster, when an enabled one holds it (R419). -/
def State.partOf (s : State) (cluster : Nat) : Option Nat :=
  (List.range 8).find? fun p =>
    (s.part p).en && decide ((s.part p).clbase.toNat ≤ cluster) && decide (cluster ≤ (s.part p).cllimit.toNat)

/-- Change the scheduler. -/
def State.modSched (s : State) (f : Sched → Sched) : State := { s with sched := f s.sched }

/-- Change Sirip. -/
def State.modSirip (s : State) (f : Sirip → Sirip) : State := { s with sirip := f s.sirip }

/-- A checked pair by number (R382). -/
def State.checkedPair (s : State) (k : Nat) : CheckedPair :=
  s.sirip.pairs.getD k CheckedPair.reset

/-- Change a checked pair. -/
def State.modChecked (s : State) (k : Nat) (f : CheckedPair → CheckedPair) : State :=
  s.modSirip fun r => { r with pairs := r.pairs.set k (f (r.pairs.getD k CheckedPair.reset)) }

/-- The block of a slot (R107). -/
def Core.block (k : Core) (s : Nat) : Option Block := (k.blocks.getD s none)

/-- Change the block of a slot. -/
def Core.modBlock (k : Core) (s : Nat) (f : Block → Block) : Core :=
  { k with blocks := k.blocks.set s ((k.block s).map f) }

/-- A troupe of a core by block slot and troupe index. -/
def Core.troupe (k : Core) (blk idx : Nat) : Option Troupe :=
  k.troupes.find? fun t => t.blk == blk && t.idx == idx

/-- Change a troupe. -/
def Core.modTroupe (k : Core) (blk idx : Nat) (f : Troupe → Troupe) : Core :=
  { k with troupes := k.troupes.map fun t => if t.blk == blk && t.idx == idx then f t else t }

/-- Change the block of a slot of a core. -/
def State.modBlock (s : State) (c b : Nat) (f : Block → Block) : State :=
  s.modCore c fun k => k.modBlock b f

/-- Change a troupe of a core. -/
def State.modTroupe (s : State) (c b i : Nat) (f : Troupe → Troupe) : State :=
  s.modCore c fun k => k.modTroupe b i f

/-- A bound launch or child task by identifier. -/
def State.launch (s : State) (id : Nat) : Option Launch :=
  s.sched.launches.find? fun l => l.id == id

/-- Change a launch. -/
def State.modLaunch (s : State) (id : Nat) (f : Launch → Launch) : State :=
  s.modSched fun q =>
    { q with launches := q.launches.map fun l => if l.id == id then f l else l }

/-- The launch that reports for `id`: its parent when it is a child task (R374). -/
def State.topLaunch (s : State) (id : Nat) : Nat :=
  match s.launch id with
  | some l => l.parent.getD id
  | none => id

/-- The launch of a placed block. -/
def State.launchOf (s : State) (c b : Nat) : Option Launch :=
  ((s.core c).block b).bind fun k => s.launch k.launch

/-- Partition and PASID of a placed block, for translation and ownership (R109, R244, R415). -/
def State.ownerOf (s : State) (c b : Nat) : Nat × Nat :=
  match s.launchOf c b with
  | some l => (l.part, if l.pasidEn then l.pasid else 0)
  | none => (0, 0)

/-! ### Lanes and registers of a troupe -/

/-- A lane of a troupe. -/
def Troupe.lane (t : Troupe) (l : Nat) : Lane := t.lanes.getD l Lane.reset

/-- Change the lanes of a mask. -/
def Troupe.modLanes (t : Troupe) (m : Mask) (f : Nat → Lane → Lane) : Troupe :=
  { t with lanes := t.lanes.mapIdx fun l x => if m.has l then f l x else x }

/-- Lanes present in the troupe's slot (R54). -/
def Troupe.present (t : Troupe) (l : Nat) : Bool := (t.lane l).place == .resident

/-- The mask of resident lanes. -/
def Troupe.residents (t : Troupe) : Mask := Mask.ofTest t.present

/-- A predicate register in a lane; p0 reads as true (R114). -/
def Lane.pred (l : Lane) (n : Nat) : Bool := n == 0 || l.preds.getLsbD n

/-- Write a predicate; writing p0 has no effect (R114). -/
def Lane.setPred (l : Lane) (n : Nat) (v : Bool) : Lane :=
  if n == 0 then l
  else
    let bit := BitVec.ofNat 16 (2 ^ n)
    { l with preds := if v then l.preds ||| bit else l.preds &&& ~~~bit }

/-- A register of a troupe; one past the allocation is dead. -/
def Troupe.reg (t : Troupe) (r : Nat) : VReg :=
  t.regs.getD r { tag := .undef, dead := true, lanes := [] }

/-- A register's value in a lane. -/
def VReg.at (r : VReg) (l : Nat) : Word := r.lanes.getD l 0

/-- Write some lanes of a register: the tag is set for the whole register, and a dead register is
revived with zero in the other lanes (R115, R118). -/
def VReg.writeLanes (r : VReg) (m : Mask) (tag : Tag) (v : Nat → Word) : VReg :=
  { tag := tag, dead := false
    lanes := laneNumbers.map fun l => if m.has l then v l else if r.dead then 0 else r.at l }

/-- Write some lanes of a register of a troupe. -/
def Troupe.writeReg (t : Troupe) (r : Nat) (m : Mask) (tag : Tag) (v : Nat → Word) : Troupe :=
  { t with regs := t.regs.set r ((t.reg r).writeLanes m tag v) }

/-- A uniform register (R113). -/
def Troupe.kreg (t : Troupe) (n : Nat) : DWord := t.k.getD n 0

/-- Write a uniform register. -/
def Troupe.setK (t : Troupe) (n : Nat) (v : DWord) : Troupe := { t with k := t.k.set n v }

/-- A uniform predicate (R113). -/
def Troupe.cpred (t : Troupe) (n : Nat) : Bool := t.c.getLsbD n

/-- Write a uniform predicate. -/
def Troupe.setC (t : Troupe) (n : Nat) (v : Bool) : Troupe :=
  let bit := BitVec.ofNat 8 (2 ^ n)
  { t with c := if v then t.c ||| bit else t.c &&& ~~~bit }

/-- A register is pending while a deferred access to it is outstanding (R119). -/
def Troupe.pending (t : Troupe) (r : Nat) : Bool :=
  t.deferred.any fun d => d.data.any fun x => x.reg == r

/-- Field `f` of tile descriptor `n` (R325). -/
def Troupe.tileField (t : Troupe) (n f : Nat) : Word := (t.tiles.getD n []).getD f 0

/-- The mask of live tiles in force (R337). -/
def Troupe.liveTiles (t : Troupe) (dflt : BitVec 16) : BitVec 16 :=
  if t.liveSet then t.live else dflt

/-- A kernel descriptor of zeros, for a path whose launch is gone. -/
def Desc.none : Desc :=
  { entry := 0, widths := [], regs := 0, troupes := 0, il := 0, localBytes := 0, priv := 0, barriers := 0
    rings := 0, streams := 0, prio := 0, liveTiles := 0, signed := false, faultDisp := 0, sched := 0
    reserved := false }

/-! ### Stream contexts -/

/-- The context bound to port `q` of a troupe (R261). -/
def Core.ctxOf (k : Core) (blk troupe q : Nat) : Option Nat :=
  k.ctxs.findIdx? fun x =>
    x.bound && !x.closing && x.port == q && x.troupe == troupe &&
      match x.owner with
      | some o => o.1 == blk
      | none => false

/-- A stream context by number. -/
def Core.ctx (k : Core) (n : Nat) : Ctx := k.ctxs.getD n Ctx.reset

/-- Change a stream context. -/
def Core.modCtx (k : Core) (n : Nat) (f : Ctx → Ctx) : Core :=
  { k with ctxs := k.ctxs.set n (f (k.ctx n)) }

/-- One lane of a context. -/
def Ctx.lane (x : Ctx) (l : Nat) : CtxLane := x.lanes.getD l CtxLane.reset

/-- Give free contexts to block slot `b` as its contexts 0 to `n` − 1 (R107, R261). -/
def Core.giveCtxs (k : Core) (b n : Nat) : Core :=
  let free := (List.range 32).filter fun i => (k.ctx i).owner.isNone
  ((free.take n).zip (List.range n)).foldl
    (fun k x => k.modCtx x.1 fun c => { c with owner := some (b, x.2) }) k

/-- The core's context that is number `n` of block slot `b`. -/
def Core.ownedCtx (k : Core) (b n : Nat) : Option Nat := k.ctxs.findIdx? fun x => x.owner == some (b, n)

/-- Change the lanes of a mask. -/
def Ctx.modLanes (x : Ctx) (m : Mask) (f : Nat → CtxLane → CtxLane) : Ctx :=
  { x with lanes := x.lanes.mapIdx fun l y => if m.has l then f l y else y }

/-- The numbers of the contexts bound to a troupe. -/
def Core.ctxsOf (k : Core) (blk troupe : Nat) : List Nat :=
  (List.range 32).filter fun n =>
    let x := k.ctx n
    x.bound && x.troupe == troupe &&
      match x.owner with
      | some o => o.1 == blk
      | none => false

/-! ### Physical memory -/

/-- Where a translation leads (R86, R245, R431). -/
def Xlate.addr (x : Xlate) (va : Nat) : Nat := x.pa + (va - x.va)

/-- The memory a translation leads to. -/
def State.space (s : State) (x : Xlate) : Memory :=
  if x.host then s.hostMem else if x.peer then s.peerMem else s.dram

/-- Replace the memory a translation leads to. -/
def State.setSpace (s : State) (x : Xlate) (m : Memory) : State :=
  if x.host then { s with hostMem := m }
  else if x.peer then { s with peerMem := m }
  else { s with dram := m }

/-- Bytes of device DRAM, as the device's own units read them (R244, R356, R434). -/
def State.dramNat (s : State) (a n : Nat) : Nat := s.dram.readNat a n

/-- The channels that have not been powered down (R398). -/
def Sirip.survivors (r : Sirip) : List Nat := (List.range 32).filter fun c => !r.retiredChannels.contains c

/-- Bytes of device DRAM that can be addressed: of the 32 channels' share, what the surviving ones hold (R11, R398). -/
def State.capacity (s : State) : Nat := Config.dramBytes / 32 * s.sirip.survivors.length

/-- Report something to the management core (R22, R126, R188, R361, R419). -/
def State.report (s : State) : State := { s with mgmtReports := s.mgmtReports + 1 }

/-- Where BAR0 of a function lies among the plain registers, and its MSI-X table in it (R413). -/
def barBase (function : Nat) : Nat := 2 ^ 20 * function
def msixTable (function : Nat) : Nat := if function = 0 then 0xA0000 else 0x9000

/-- The mask bit of a vector, in the last word of its table entry (R414, the rules of MSI-X). -/
def State.vectorMasked (s : State) (function vector : Nat) : Bool :=
  (s.bar.read (barBase function + msixTable function + 16 * vector + 12)).getLsbD 0

/-- Signal an MSI-X vector of a function (0 for PF0); a masked one is pending (R413, R414). -/
def State.signal (s : State) (function vector : Nat) : State :=
  if s.vectorMasked function vector then
    if s.pend.contains (function, vector) then s else { s with pend := s.pend ++ [(function, vector)] }
  else { s with msix := s.msix ++ [(function, vector)] }

/-- The last `n` entries of a log. -/
def newest {α : Type} (n : Nat) (l : List α) : List α := (l.reverse.take n).reverse

/-- Append an entry to Sirip's event log, a ring of 256, and signal PF0 vector 1 (R395, R414). -/
def State.logEvent (s : State) (kind tier core unit : Nat) (addr : DWord) (job : Nat) : State :=
  let r := s.sirip
  let e : LogEntry :=
    { seq := r.eventSeq, kind := kind, tier := tier, core := core, unit := unit, time := s.clock
      addr := addr, job := job }
  let r' := { r with log := newest 256 (r.log ++ [e]), eventSeq := r.eventSeq + 1 }
  { s with sirip := r' }.signal 0 1

/-- Drive FAULT_N for log entry `seq` (R402, R414). -/
def State.assertFaultN (s : State) (seq : Nat) : State :=
  { s with sirip := { s.sirip with faultN := true, faultSeq := seq } }.signal 0 2

end Sys2Proof.Machine
end

