-- ==== Sys2Proof/Machine/Access.lean ====
section
/-!
DEFINITION. How addresses reach memory: cue-record wake-ups, the core TLB, the device translation
cache and the scope table (R242 to R247), the kinds of memory accesses (R241), private placement
(R132), the comparator's view of global writes (R385, R386, R401), and poisoned sectors (R400).
-/
namespace Sys2Proof.Machine

/-! ### Ready records (R121, R128) -/

/-- Mark a record ready in the cue arbiter's order. -/
def Core.markReady (k : Core) (rid : Nat) : Core :=
  if k.cue.any fun r => r.rid == rid && !r.ready then
    { k with
      cue := k.cue.map fun r =>
        if r.rid == rid then { r with ready := true, readySeq := k.readySeq, written := false } else r
      readySeq := k.readySeq + 1 }
  else k

/-- Mark ready every record that satisfies a test, in their order in the store. -/
def Core.markReadyWhere (k : Core) (test : CueRec → Bool) : Core :=
  ((k.cue.filter fun r => !r.ready && r.halted.isNone && test r).map (·.rid)).foldl Core.markReady k

/-- Records whose event has already happened become ready as soon as they are written (R121). -/
def State.readyNow (s : State) (c : Nat) (test : CueRec → Bool) : State :=
  s.modCore c fun k => k.markReadyWhere test

/-- Two byte ranges share a 64-byte sector. -/
def sharesSector (a b : Span) : Bool :=
  a.lo < a.hi && b.lo < b.hi && sectorOf a.lo ≤ sectorOf (b.hi - 1) && sectorOf b.lo ≤ sectorOf (a.hi - 1)

/-! ### Kinds (R241) -/

/-- Access size of a KIND. -/
def kindSize (k : Nat) : Nat := if k ≤ 1 then 1 else if k ≤ 3 then 2 else if k ≤ 12 then 4 else 8

/-- The tag a load of a KIND writes; the low register's tag for the pair kinds. -/
def kindTag (k : Nat) : Tag :=
  match k with
  | 0 | 2 | 4 => .i32
  | 1 | 3 | 5 => .n32
  | 6 => .f32
  | 7 => .f16x2
  | 8 => .bf16x2
  | 9 => .i16x2
  | 10 => .i8x4
  | 11 => .n8x4
  | 12 => .raw
  | 13 => .i64l
  | _ => .dfh

/-- The tags of the two registers of a pair KIND. -/
def kindPair (k : Nat) : Tag × Tag := if k = 13 then (.i64l, .i64h) else (.dfh, .dfl)

/-- A store of a KIND accepts this data tag (R241, R267). -/
def kindAccepts (k : Nat) (t : Tag) : Bool := if k = 12 then t != .undef else t == kindTag k

/-- Bytes of a KIND widened to a register (R241). -/
def kindWiden (k n : Nat) : Word :=
  match k with
  | 0 => (BitVec.ofNat 8 n).signExtend 32
  | 2 => (BitVec.ofNat 16 n).signExtend 32
  | _ => BitVec.ofNat 32 n

/-- The registers of a KIND from `d` on, with their tags (R46, R241). -/
def kindRegs (k d : Nat) : List (Nat × Tag) :=
  if k = 13 || k = 14 then [(d, (kindPair k).1), (d + 1, (kindPair k).2)] else [(d, kindTag k)]

/-- The word that register `j` of a KIND takes of a loaded value (R241). -/
def kindWord (k j n : Nat) : Word :=
  if k = 13 || k = 14 then BitVec.ofNat 32 (n / 2 ^ (32 * j)) else kindWiden k n

/-! ### Private memory (R132) -/

/-- Address of private byte offset `o` of lane `l` in a region that begins at `base`. -/
def privateAddr (base l o : Nat) : Nat := base + o / 4 * 256 + l * 4 + o % 4

/-- Where the private region of a troupe of a block begins. -/
def Block.privOf (b : Block) (troupe : Nat) : Nat := b.privBase + troupe * (b.priv + 2048) * 64

/-! ### Translation (R242 to R247) -/

/-- An entry of the owner that covers an address. -/
def TlbEntry.covers (e : TlbEntry) (own : Nat × Nat) (va : Nat) : Bool :=
  e.part == own.1 && e.pasid == own.2 && decide (e.x.va ≤ va) && decide (va < e.x.va + e.x.size)

/-- The translation a list of entries holds for an address of an owner. -/
def covering (es : List TlbEntry) (own : Nat × Nat) (va : Nat) : Option Xlate :=
  (es.find? fun e => e.covers own va).map (·.x)

/-- The translation a core's TLB holds for an address (R242). -/
def Core.lookup (k : Core) (own : Nat × Nat) (va : Nat) : Option Xlate := covering k.tlb own va

/-- What the scope table says of a page (R245). -/
structure ScopeLeaf where
  size : Nat
  scope : BitVec 2
  conf : Bool
  repl : Bool
  peer : Bool
  next : Nat
  deriving DecidableEq, Repr

/-- Page size of a SIZE code (R245). -/
def leafSize (n : Nat) : Nat :=
  match n with
  | 0 => 4096
  | 1 => 16384
  | 2 => 65536
  | 3 => 2097152
  | 4 => 33554432
  | _ => 1073741824

/-- Walk the scope table from a table of the given level; none is an invalid entry (R245). -/
def walkScope (dram : Memory) : Nat → Nat → Nat → Option ScopeLeaf
  | 0, _, _ => none
  | level + 1, table, va =>
    let e := dram.readNat (table + 8 * bitsOf va (20 + 9 * level) (12 + 9 * level)) 8
    let next := bitsOf e 56 12 * 4096
    let size := bitsOf e 8 6
    let leaf := bitsOf e 1 1 == 1
    let peer := bitsOf e 9 9 == 1
    let scope := bitsOf e 3 2
    if bitsOf e 0 0 == 0 || bitsOf e 63 57 != 0 || bitsOf e 11 10 != 0 then none
    else if leaf then
      let fits := (level = 0 && size ≤ 2) || (level = 1 && (size == 3 || size == 4)) || (level = 2 && size == 5)
      let target := if peer then scope == 3 && next % leafSize size == 0 else next == 0
      if fits && target then
        some { size := leafSize size, scope := BitVec.ofNat 2 scope, conf := bitsOf e 4 4 == 1
               repl := bitsOf e 5 5 == 1, peer := peer, next := next }
      else none
    else if peer then none
    else walkScope dram level next va

/-- The scope leaf of an address of a PASID (R244). -/
def State.scopeLeaf (s : State) (own : Nat × Nat) (va : Nat) : Option ScopeLeaf :=
  let root := s.dram.readNat ((s.part own.1).proot.toNat + 8 * own.2) 8
  if bitsOf root 0 0 == 0 then none else walkScope s.dram 5 (bitsOf root 56 12 * 4096) va

/-- The outcome of a fill that misses the device translation cache (R243, R245, R431): the ATS
answer and the scope leaf together, of the smaller page size. -/
def State.translate (s : State) (own : Nat × Nat) (va : Nat) : Fill :=
  let ats := s.iommu.find? fun a =>
    a.part == own.1 && a.pasid == own.2 && a.va ≤ va && va < a.va + a.size
  match s.scopeLeaf own va, ats with
  | some l, ats =>
    if l.peer then
      .ok { va := va / l.size * l.size, size := l.size, pa := l.next, host := false, peer := true
            writable := true, scope := l.scope, conf := l.conf, repl := l.repl }
    else
      match ats with
      | some a =>
        let size := min a.size l.size
        let base := va / size * size
        .ok { va := base, size := size, pa := a.pa + (base - a.va), host := a.host, peer := false
              writable := a.writable, scope := l.scope, conf := l.conf, repl := l.repl }
      | none => .pageFault va
  | none, some _ => .access va
  | none, none => .pageFault va

/-- The set of the device translation cache that an entry takes: 16,384 entries in 16 ways make 1024 sets, and
the spec does not say which set serves a page (R242, entry 12). -/
def TlbEntry.set (e : TlbEntry) : Nat := Config.translationSet e.part e.pasid e.x.va % 1024

/-- A new entry displaces the oldest of the 16 ways of its set (R242, entry 12). -/
def cacheTranslation (es : List TlbEntry) (e : TlbEntry) : List TlbEntry :=
  e :: (if (es.filter fun x => x.set == e.set).length < 16 then es
    else (es.reverse.eraseP fun x => x.set == e.set).reverse)

/-- A fill: the device translation cache, then ATS with the scope walk, whose translation the cache
then keeps (R242, R243). -/
def State.fillOutcome (s : State) (own : Nat × Nat) (va : Nat) : Fill × State :=
  match covering s.dtc own va with
  | some x => (.ok x, s)
  | none =>
    match s.translate own va with
    | .ok x =>
      (.ok x, { s with dtc := cacheTranslation s.dtc { part := own.1, pasid := own.2, x := x } })
    | f => (f, s)

/-- Put a translation into the core TLB, displacing entry `evict` when it is full (R242). -/
def Core.install (k : Core) (own : Nat × Nat) (x : Xlate) (evict : Nat) : Core :=
  let tlb := if k.tlb.length < Config.tlbEntries then k.tlb else k.tlb.eraseIdx (evict % Config.tlbEntries)
  { k with tlb := { part := own.1, pasid := own.2, x := x } :: tlb }

/-- A fill of one address for an owner on a core: its outcome, and the state it leaves. Only a translation takes an
entry (R242, R243). -/
def State.fill (s : State) (c : Nat) (own : Nat × Nat) (va evict : Nat) : Fill × State :=
  match (s.core c).lookup own va with
  | some x => (.ok x, s)
  | none =>
    match s.fillOutcome own va with
    | (.ok x, s') => (.ok x, s'.modCore c fun k => k.install own x evict)
    | r => r

/-- The entry that a fill of the stream or copy engine displaces: the oldest (entry 12). -/
def oldestEntry : Nat := Config.tlbEntries - 1

/-- Entries of 16 bytes that the ring of an L2 bank's replay log holds after its header; the prompter assigns the
rings, and the model gives each the first MiB of a 2 MiB area (R196, entry 76). -/
def ringEntries : Nat := 65532

/-! ### Reading pieces -/

/-- Bytes read through a translation. -/
def State.readThrough (s : State) (x : Xlate) (va n : Nat) : List Byte := (s.space x).readBytes (x.addr va) n

/-- The bytes of one piece. -/
def State.hitBytes (s : State) (c : Nat) (h : Hit) : List Byte :=
  match h.x with
  | some x => s.readThrough x h.va h.size
  | none => (s.core c).mem.readBytes h.va h.size

/-- The little-endian value that a lane's pieces hold. -/
def State.laneValue (s : State) (c : Nat) (hs : List Hit) (l : Nat) : Nat :=
  bytesToNat ((hs.filter fun h => h.lane == l).flatMap (s.hitBytes c))

/-! ### Races with the matrix array (R17) -/

/-- Draw `i` of kind `k` of the free values that belong to a number of the model's own (entry 6). -/
def freeDraw (k n i : Nat) : Nat := (Config.freeValue (16 * (2 ^ 32 * n + i) + k)).toNat

/-- The bytes that commands of a core have computed and not yet written to its local memory. -/
def State.storing (s : State) (c : Nat) : List Host.Cell :=
  ((s.pair (c / 2)).queue.filter fun x => x.core == c && !x.orphan).flatMap (·.bytes)

/-- The local memory of a core as a load of lane `l` sees it: each 4-byte word that a command writes is old or new
(R17). -/
def State.loadView (s : State) (c l : Nat) : State :=
  match s.storing c with
  | [] => s
  | cs => s.modCore c fun k => { k with
      mem := k.mem.writeCells (cs.filter fun x => freeDraw 1 (64 * s.nextId + l) (x.1 / 4) % 2 == 1) }

/-- A load that such a race may have decided has used its draws. -/
def State.drawn (s : State) (c : Nat) : State := if (s.storing c).isEmpty then s else { s with nextId := s.nextId + 1 }

/-- A thread stores to `n` bytes of local memory: the commands that read one of their sectors may see the old bytes
(R17). -/
def State.noteRace (s : State) (c a n : Nat) : State :=
  let ids := ((s.core c).board.filter fun e => e.reads.any fun r => sharesSector r { lo := a, hi := a + n }).filterMap
    fun e => match e.owner with
      | .matrix id => some id
      | _ => none
  if ids.isEmpty then s
  else
    let old := (List.range n).map fun i => (a + i, (s.core c).mem.read (a + i))
    s.modPair (c / 2) fun q => { q with
      queue := q.queue.map fun (x : MatCmd) => if ids.contains x.id then { x with raced := x.raced ++ [old] } else x }

/-! ### Poison (R400) -/

/-- Sectors from this number on stand for data that no repair restores: data of the peer device that failed on the
link (R431), and poisoned data of a page without a repair copy (R247). -/
def peerSector : Nat := 2 ^ 58

/-- A poisoned sector as the access through a translation awaits its repair: a page with REPL 0 has none (R247). -/
def Xlate.repairOf (x : Xlate) (sec : Nat) : Nat := if x.repl then sec else peerSector + sec

/-- The poisoned sector that a read of `n` bytes through a translation meets. -/
def State.poisonAt (s : State) (x : Xlate) (va n : Nat) : Option Nat :=
  if x.host || x.peer then none
  else
    s.poison.find? fun sec => sectorOf (x.addr va) ≤ sec && sec ≤ sectorOf (x.addr va + n - 1)

/-- The first poisoned sector that some pieces meet, with the piece's address. -/
def State.piecesPoison (s : State) (hs : List Hit) : Option (Nat × DWord) :=
  hs.findSome? fun h => h.x.bind fun x => (s.poisonAt x h.va h.size).map fun sec => (sec, BitVec.ofNat 64 h.va)

/-- The bytes of one piece as a deferred access reads them: a byte that its thread has written since is taken as it
stood before (R89). -/
def State.keptBytes (s : State) (c : Nat) (d : Deferred) (h : Hit) : List Byte :=
  (s.hitBytes c h).mapIdx fun i b =>
    match d.kept.find? fun k => k.1 == h.lane && k.2.1 == h.va + i with
    | some k => k.2.2
    | none => b

/-- The value that a lane's pieces give a deferred access. -/
def State.keptValue (s : State) (c : Nat) (d : Deferred) (l : Nat) : Nat :=
  bytesToNat ((d.pieces.filter fun h => h.lane == l).flatMap (s.keptBytes c d))

/-- Lanes of a deferred access whose pieces lie in a sector. -/
def Deferred.lanesIn (d : Deferred) (sec : Nat) : Mask :=
  Mask.ofTest fun l => d.pieces.any fun h => h.lane == l && match h.x with
    | some x => !x.host && !x.peer && sectorOf (x.addr h.va) ≤ sec && sec ≤ sectorOf (x.addr h.va + h.size - 1)
    | none => false

/-- The memory pipeline replays the accesses of a deferred load whose poisoned sector has been rewritten; the data of
its other lanes stays as it was placed (R89, R251). -/
def State.replayDeferred (s : State) (c sec : Nat) (d : Deferred) : Deferred :=
  let hit := d.lanesIn sec
  if d.poison.isSome && hit != 0 then
    let bad := s.piecesPoison d.pieces
    { d with
      poison := bad, returned := bad.isNone
      data := d.data.mapIdx fun j x => { x with
        lanes := x.lanes.mapIdx fun l w =>
          if d.lanes.has l && hit.has l then kindWord d.kind j (s.keptValue c d l) else w } }
  else d

/-- Every deferred access of some lanes has returned (R144). -/
def Troupe.allReturned (t : Troupe) (m : Mask) : Bool :=
  t.deferred.all fun d => d.lanes &&& m == 0 || d.returned

/-- The value that a record holds for a lane of a register. -/
def CueRec.valueOf (r : CueRec) (reg l : Nat) : Word :=
  match (r.data.reverse ++ r.regs).find? fun x => x.reg == reg with
  | some x => x.lanes.getD l 0
  | none => 0

/-- A returned deferred access is written into a record that awaits it, for its lanes (R144). -/
def CueRec.take (r : CueRec) (d : Deferred) : CueRec :=
  if d.lanes &&& r.mask = 0 then r
  else
    { r with
      written := false
      data := r.data ++ d.data.map fun (x : RegData) =>
        { x with lanes := laneNumbers.map fun l => if d.lanes.has l then x.lanes.getD l 0 else r.valueOf x.reg l } }

/-- The deferred accesses of a troupe that have returned are written into its records that await them, and no longer
hold a register pending for their lanes (R119, R144). -/
def Core.deliverDeferred (k : Core) (b i : Nat) : Core :=
  match k.troupe b i with
  | none => k
  | some t =>
    let back := t.deferred.filter (·.returned)
    let awaits (r : CueRec) : Bool := r.blk == b && r.troupe == i && r.key == .deferred
    let mask := (k.cue.filter awaits).foldl (fun (m : Mask) r => m ||| r.mask) 0
    { (k.modTroupe b i fun t => { t with
        deferred := (t.deferred.map fun (d : Deferred) =>
          if d.returned then { d with lanes := d.lanes &&& ~~~mask } else d).filter fun d => d.lanes != 0 }) with
      cue := k.cue.map fun r => if awaits r then back.foldl CueRec.take r else r }

/-- Records that await their lanes' deferred accesses take what has returned, and become ready with the last of it
(R144). -/
def Core.wakeDeferred (k : Core) : Core :=
  (k.troupes.foldl (fun k t => k.deliverDeferred t.blk t.idx) k).markReadyWhere fun r =>
    r.key == .deferred && match k.troupe r.blk r.troupe with
      | some t => t.allReturned r.mask
      | none => false

/-- The deferred accesses of a core's troupes. -/
def State.replayCore (s : State) (c sec : Nat) (k : Core) : Core :=
  { k with
    troupes := k.troupes.map fun (t : Troupe) =>
      { t with deferred := t.deferred.map (s.replayDeferred c sec) } }

/-- Wake a core's records keyed on a sector. -/
def Core.wakeFor (k : Core) (sec : Nat) : Core :=
  if k.cue.isEmpty then k else (k.markReadyWhere fun r => r.key == .sector sec).wakeDeferred

/-- Wake the records keyed on a rewritten poisoned sector, and replay the deferred accesses. -/
def State.wakeSector (s : State) (sec : Nat) : State :=
  let s := { s with poison := s.poison.filter fun x => x != sec }
  { s with cores := s.cores.mapIdx fun c k => (s.replayCore c sec k).wakeFor sec }

/-- A write of whole 64-byte sectors of device DRAM clears their poison. -/
def State.clearPoison (s : State) (addrs : List Nat) : State :=
  if s.poison.isEmpty then s
  else
    ((addrs.map sectorOf).eraseDups.filter fun sec =>
        s.poison.contains sec && (List.range 64).all fun i => addrs.contains (64 * sec + i)).foldl
      State.wakeSector s

/-! ### Global writes and the comparator (R385, R386, R401) -/

/-- Perform a write, or send its AtomicOp. -/
def State.putWrite (s : State) (w : GWrite) : State :=
  match w.send with
  | some op => { s with hostOps := s.hostOps ++ [op] }
  | none => s.setSpace w.x ((s.space w.x).writeBytes (w.x.addr w.va) w.bytes)

/-- The core is a leader core of a checked pair (R382). -/
def State.checkedCore (s : State) (c : Nat) : Bool := c / 8 % 2 == 0 && (s.checkedPair (c / 16)).checked

/-- Writes grouped by the sector of their address, in order of first appearance (R385). -/
def bySector (ws : List GWrite) : List (List GWrite) :=
  ((ws.map fun w => w.va / 64).eraseDups).map fun k => ws.filter fun w => w.va / 64 == k

/-- The perturbation of CINJ changes a byte that the event writes (R401). -/
def perturbs (mask : Nat) (ev : List GWrite) : Bool :=
  let covered := ev.flatMap fun w => List.range' w.va w.bytes.length
  let low := covered.foldl min (covered.headD 0)
  (List.range 4).any fun i => bitsOf mask (8 * i + 7) (8 * i) != 0 && covered.contains (low / 4 * 4 + i)

/-- Compare one event of a leader core: CINJ counts it, or perturbs it and is disarmed (R401). -/
def State.compareOne (s : State) (c : Nat) (ev : List GWrite) : State × Bool :=
  let r := s.sirip.cinj.toNat
  if bitsOf r 0 0 == 1 && bitsOf r 3 1 == c / 16 && bitsOf r 10 8 == c % 8 && s.checkedCore c then
    if bitsOf r 31 16 == 0 then
      (s.modSirip fun q => { q with cinj := BitVec.ofNat 64 (r - 1) }, perturbs (bitsOf r 63 32) ev)
    else (s.modSirip fun q => { q with cinj := BitVec.ofNat 64 (r - 65536) }, false)
  else (s, false)

/-- A compared event, as the comparator sees it (R385). -/
def writeEvent (ev : List GWrite) : CmpEvent := .write (ev.map fun w => (w.va, w.bytes, w.ord))

/-- The comparator takes an event of a checked core, and matches it against the next one that the understudy has sent:
whether they are equal (R385). -/
def State.noteEvent (s : State) (c : Nat) (e : CmpEvent) : State × Bool :=
  if s.checkedCore c then
    let s := { s with events := s.events ++ [(c, e)] }
    match s.expected with
    | none => (s, true)
    | some (x :: t) => ({ s with expected := some t }, x == (c, e))
    | some [] => (s, false)
  else (s, true)

/-- Compare events in order: how many match before the first that does not, and its address (R386, R391). -/
def State.matchEvents : State → Nat → List (List GWrite) → State × Option (Nat × Nat)
  | s, _, [] => (s, none)
  | s, c, ev :: rest =>
    let x := s.noteEvent c (writeEvent ev)
    let y := x.1.compareOne c ev
    if !x.2 || y.2 then (y.1, some (0, (ev.map (·.va)).headD 0))
    else
      match State.matchEvents y.1 c rest with
      | (t, none) => (t, none)
      | (t, some (n, va)) => (t, some (n + 1, va))

/-- Physical bytes of device DRAM that writes cover. -/
def dramAddrs (ws : List GWrite) : List Nat :=
  ws.flatMap fun w =>
    if w.x.host || w.x.peer then [] else List.range' (w.x.addr w.va) w.bytes.length

/-- Written bytes are no longer a release that an acquire could read (R95). -/
def State.dropReleases (s : State) (addrs : List Nat) : State :=
  if s.releases.isEmpty then s
  else { s with releases := s.releases.filter fun r => addrs.all fun a => a < r.addr || r.addr + r.size ≤ a }

/-- Perform matched writes in their order, which is ascending lane order (R90); whole sectors lose their poison
(R400). -/
def State.performWrites (s : State) (ws : List GWrite) : State :=
  ((ws.foldl State.putWrite s).clearPoison (dramAddrs ws)).dropReleases (dramAddrs ws)

/-- The writes of one instruction or engine on a core: the comparator matches them sector by sector, and those of the
sectors that match before the first mismatch perform (R90, R385, R386). -/
def State.writeAll (s : State) (c : Nat) (ws : List GWrite) : State × Option Nat :=
  let evs := bySector ws
  match s.matchEvents c evs with
  | (s', none) => (s'.performWrites ws, none)
  | (s', some (n, va)) =>
    let done := ((evs.take n).flatMap id).map fun w => w.va / 64
    (s'.performWrites (ws.filter fun w => done.contains (w.va / 64)), some va)

/-- The updates of one instruction: each performs once, and none of them unless every one has matched (R387, R404). -/
def State.updateAll (s : State) (c : Nat) (ws : List GWrite) : State × Option Nat :=
  match s.matchEvents c (bySector ws) with
  | (s', none) => (s'.performWrites ws, none)
  | (s', some (_, va)) => (s', some va)

end Sys2Proof.Machine
end

