-- ==== Sys2Proof/Machine/Ops.lean ====
section
/-!
DEFINITION. The operations every engine shares: departures into cue records and their relaunch
(R120 to R131), taking a fault and its dispositions (R181 to R185) with the return from it (R184,
R189), region entries (R176), rewinding (R179), the end of lanes, troupes and blocks (R143, R302,
R303), and the frame in which every thread instruction executes (R33, R59, R134).
-/
namespace Sys2Proof.Machine

/-! ### Fault codes (R182) -/

def codeIllegal : Nat := 0x01
def codeBoundary : Nat := 0x02
def codeRegBound : Nat := 0x03
def codeIdxFault : Nat := 0x04
def codeTagFault : Nat := 0x05
def codeDeadRead : Nat := 0x06
def codePairAlign : Nat := 0x07
def codePageFault : Nat := 0x08
def codeAccess : Nat := 0x09
def codeAlign : Nat := 0x0A
def codeRlock : Nat := 0x0B
def codePoison : Nat := 0x0C
def codeStream : Nat := 0x0D
def codeElect : Nat := 0x0E
def codeCqovf : Nat := 0x0F
def codeSatTrap : Nat := 0x10
def codeTrapInsn : Nat := 0x11
def codeBkpt : Nat := 0x12
def codeWatchdog : Nat := 0x13
def codeMismatch : Nat := 0x14
def codeCancelled : Nat := 0x15
def codeLocalRange : Nat := 0x16
def codeStackOvf : Nat := 0x17
def codePendRead : Nat := 0x18
def codePairRole : Nat := 0x19

/-- Why an instruction does not complete: a fault (R182, R183), the departure of a read of an empty
port (R266), the departure for translation fills (R243), or a mismatch found by the comparator after
`performed` (R391). `key` is what a resume awaits. -/
inductive Stop where
  | fault (code : Nat) (mask : Mask) (addr : DWord) (arg : Nat) (port : Option Nat) (key : Key)
  | emptyPort (waits : List (Nat × Nat)) (active : Mask)
  | fills (vas : List Nat)
  | mismatch (addr : DWord) (performed : State)
  deriving DecidableEq, Repr

/-- What an instruction's body answers. -/
abbrev Exe := Except Stop

/-- A fault that no address and no detail describes. -/
def Stop.plain (code : Nat) (mask : Mask) : Stop := .fault code mask 0 0 none .none

/-- The path an instruction executes for: where it is, and its active lanes (R33). -/
structure Path where
  at_ : Issue
  active : Mask
  len : Nat
  deriving DecidableEq, Repr

/-- The core that issues. -/
def Path.core (p : Path) : Nat := p.at_.core
/-- The block slot of the path. -/
def Path.blk (p : Path) : Nat := p.at_.blk
/-- The address of the next instruction in sequence (R29). -/
def Path.next (p : Path) : DWord := p.at_.pc + BitVec.ofNat 64 p.len

/-- The path's troupe. -/
def State.troupe (s : State) (p : Path) : Troupe :=
  ((s.core p.core).troupe p.blk p.at_.troupe).getD
    { blk := 0, idx := 0, slot := none, frameSpilled := false, frameAt := 0, frameWritten := false, regs := [], lanes := [], k := [], c := 0
      bounds := [], tiles := [], fmode := 1, fstat := 0, satt := false, step := 0, recCount := 0
      live := 0, liveSet := false, prio := 0, sib := 0, marks := [], deferred := [], skip := 0
      placedAt := 0, away := 0, watched := false, role := 0, retry := [] }

/-- Change the path's troupe. -/
def State.mod (s : State) (p : Path) (f : Troupe → Troupe) : State :=
  s.modTroupe p.core p.blk p.at_.troupe f

/-- The path's block. -/
def State.block (s : State) (p : Path) : Block :=
  ((s.core p.core).block p.blk).getD
    { launch := 0, index := 0, base := 0, size := 0, barriers := 0, rings := 0, streams := 0
      troupes := 0, regs := 0, priv := 0, privBase := 0, stage := 0, script := 0, scripted := false, pos := 0, relq := []
      ahead := [], keptFmode := none, halted := false, cancelling := false
      ending := false, killed := false, saved := false, savedAt := 0, withdrawn := 0, retries := 0
      blockRetry := false, retrying := false, matchedSync := false }

/-- Change the path's block. -/
def State.modPathBlock (s : State) (p : Path) (f : Block → Block) : State :=
  s.modBlock p.core p.blk f

/-! ### The cue store (R122 to R131) -/

/-- Pad to a multiple. -/
def roundUp (n k : Nat) : Nat := (n + k - 1) / k * k

/-- Size of a cue record in bytes (R122, R123). -/
def recordSize (regs live lanes : Nat) (uniform : Bool) : Nat :=
  roundUp (64 + roundUp (regs / 8) 8 + roundUp ((live + 1) / 2) 8 + 88 * lanes + 4 * live * lanes +
    (if uniform then 16 else 0)) 64

/-- Bytes of a troupe frame record (R124). -/
def frameSize : Nat := 1152

/-- Give some lanes of a register the values of `d`, in a list of register data; a register that is not there
holds zero elsewhere. -/
def putRegs (rs : List RegData) (m : Mask) (d : RegData) : List RegData :=
  match rs.find? fun x => x.reg == d.reg with
  | some _ =>
    rs.map fun (x : RegData) =>
      if x.reg == d.reg then
        { x with tag := d.tag, lanes := laneNumbers.map fun l => if m.has l then d.lanes.getD l 0 else x.lanes.getD l 0 }
      else x
  | none => rs ++ [{ d with lanes := laneNumbers.map fun l => if m.has l then d.lanes.getD l 0 else 0 }]

/-- A record with its returned data among its registers (R120). -/
def CueRec.absorb (r : CueRec) : CueRec :=
  { r with regs := r.data.foldl (fun rs d => putRegs rs r.mask d) r.regs, data := [] }

/-- Size of a record of this core. -/
def Core.sizeOf (k : Core) (r : CueRec) : Nat :=
  recordSize (((k.block r.blk).map (·.regs)).getD 0) r.absorb.regs.length r.mask.count r.uresult.isSome

/-- The troupe's frame is held in the cue store or the wings area (R124). -/
def Troupe.framed (t : Troupe) : Bool :=
  t.slot.isNone && t.lanes.any fun l => l.place == .departed

/-- Granules of the cue store in use (R125). -/
def Core.cueUsed (k : Core) : Nat :=
  ((k.cue.filter fun r => !r.spilled).map fun r => k.sizeOf r / 64).foldl (· + ·) 0 +
    (k.troupes.filter fun t => t.framed && !t.frameSpilled).length * (frameSize / 64)

/-- What the wings area holds: the offset and size of each spilled record and frame (R126). -/
def Core.wingsSpans (k : Core) : List Span :=
  ((k.cue.filter fun r => r.spilled).map fun r => { lo := r.wingsAt, hi := r.wingsAt + k.sizeOf r }) ++
    (k.troupes.filter fun t => t.framed && t.frameSpilled).map fun t => { lo := t.frameAt, hi := t.frameAt + frameSize }

/-- The lowest offset at which `n` bytes fit the wings area; the spec does not place what is spilled there (R126,
entry 81). -/
def Core.wingsGap (k : Core) (n : Nat) : Option Nat :=
  let spans := k.wingsSpans
  ((0 :: spans.map (·.hi)).filter fun a =>
      a + n ≤ k.wingsSize && spans.all fun x => x.hi ≤ a || a + n ≤ x.lo).foldl
    (fun best a => match best with
      | none => some a
      | some b => some (min a b)) none

/-- `a` is spilled before `b`: less urgent first, then newer first (R125). -/
def spillBefore (a b : CueRec) : Bool := b.prio < a.prio || (a.prio == b.prio && b.rid < a.rid)

/-- The record to spill next among those allowed (R125). -/
def Core.spillCandidate (k : Core) (allowed : CueRec → Bool) : Option CueRec :=
  (k.cue.filter fun r => !r.spilled && allowed r).foldl
    (fun best r => match best with
      | none => some r
      | some b => if spillBefore r b then some r else some b) none

/-- A record goes to an offset of the wings area. -/
def Core.spillAt (k : Core) (r : CueRec) (a : Nat) : Core :=
  { k with
    cue := k.cue.map fun (x : CueRec) =>
      if x.rid == r.rid then { x with spilled := true, wingsAt := a, written := false } else x }

/-- A troupe frame goes to an offset of the wings area. -/
def Core.spillFrameAt (k : Core) (t : Troupe) (a : Nat) : Core :=
  k.modTroupe t.blk t.idx fun x => { x with frameSpilled := true, frameAt := a, frameWritten := false }

/-- Spill until `need` granules fit; none when the wings area has no room (R125, R126). -/
def Core.makeRoom : Nat → Core → (CueRec → Bool) → Nat → Option Core
  | 0, k, _, need => if k.cueUsed + need ≤ Config.cueGranules then some k else none
  | n + 1, k, allowed, need =>
    if k.cueUsed + need ≤ Config.cueGranules then some k
    else
      match k.spillCandidate allowed with
      | some r =>
        match k.wingsGap (k.sizeOf r) with
        | some a => Core.makeRoom n (k.spillAt r a) allowed need
        | none => none
      | none =>
        match k.troupes.find? fun t => t.framed && !t.frameSpilled with
        | some t =>
          match k.wingsGap frameSize with
          | some a => Core.makeRoom n (k.spillFrameAt t a) allowed need
          | none => none
        | none => none

/-- Fit what the cue store now holds, spilling any record (R125). -/
def Core.fitCue (k : Core) : Option Core :=
  k.makeRoom (k.cue.length + k.troupes.length) (fun _ => true) 0

/-- Live registers of a troupe with their data for the lanes of a mask (R123): allocated and not dead. -/
def Troupe.liveData (t : Troupe) (m : Mask) : List RegData :=
  (t.regs.mapIdx fun n r => (n, r)).filterMap fun x =>
    if x.2.dead then none
    else some { reg := x.1, tag := x.2.tag, lanes := laneNumbers.map fun l => if m.has l then x.2.at l else 0 }

/-- The record of some lanes of a troupe. -/
def Troupe.toRecord (t : Troupe) (rid : Nat) (m : Mask) (key : Key) (resume : DWord) (kind fault : Nat) :
    CueRec :=
  { rid := rid, blk := t.blk, troupe := t.idx, key := key, resume := resume, mask := m, prio := t.prio
    kind := kind, cancel := false, ready := false, spilled := false, sibseq := t.sib
    recCount := t.recCount, fault := fault, regs := t.liveData m, lanes := t.lanes, uresult := none
    data := [], since := 0, halted := none, held := false, sat := false, readySeq := 0
    rewind := kind == 2, peer := false, wingsAt := 0, written := false, faultMask := 0, faultAddr := 0
    faultPort := none, faultExt := [] }

/-- Lanes leave residency; the slot is freed with the last of them (R120, R124). -/
def Troupe.leave (t : Troupe) (m : Mask) : Troupe :=
  let t' := t.modLanes m fun _ l => { l with place := .departed, stopped := false }
  { t' with sib := t.sib + 1, slot := if t'.lanes.any (fun l => l.place == .resident) then t.slot else none }

/-- Write one record for lanes of a troupe and take them out of residency, without the room check. -/
def State.writeRecord (s : State) (c b i : Nat) (m : Mask) (mk : Troupe → Nat → CueRec) : State :=
  match (s.core c).troupe b i with
  | none => s
  | some t =>
    let r := { mk t s.nextId with since := s.clock.toNat }
    { (s.modCore c fun k => { (k.modTroupe b i fun t => t.leave m) with cue := k.cue ++ [r] }) with
      nextId := s.nextId + 1 }

/-- The distinct region entries of some lanes, ascending (R180). -/
def Troupe.entries (t : Troupe) (m : Mask) : List Nat :=
  ((m.lanes.map fun l => (t.lane l).rea.toNat).mergeSort (fun a b => decide (a ≤ b))).eraseDups

/-- Lanes of a mask with a given region entry. -/
def Troupe.lanesAt (t : Troupe) (m : Mask) (rea : Nat) : Mask :=
  Mask.ofTest fun l => m.has l && (t.lane l).rea.toNat == rea

/-- Write KIND 2 records for lanes of a troupe, one for each distinct region entry (R180). -/
def State.recordsToEntry (s : State) (c b i : Nat) (m : Mask) (key : Key) (fault : Nat) : State :=
  match (s.core c).troupe b i with
  | none => s
  | some t =>
    (t.entries m).foldl
      (fun s rea =>
        let sub := t.lanesAt m rea
        s.writeRecord c b i sub fun t rid =>
          t.toRecord rid sub key (BitVec.ofNat 64 rea) 2 fault) s

/-- Apply the room check of R126 to a core after records were written: none is CQOVF. -/
def State.settleCue (s : State) (c : Nat) : Option State :=
  (s.core c).fitCue.map (s.setCore c)

/-- Depart some lanes of a path in one record for each distinct resume address, ascending. -/
def State.departEach (s : State) (p : Path) (key : Key) (kind : Nat) (resume : Nat → DWord)
    (fill : CueRec → CueRec) : Exe State :=
  let targets := ((p.at_.lanes.lanes.map fun l => (resume l).toNat).mergeSort (fun a b => decide (a ≤ b))).eraseDups
  let s' := targets.foldl
    (fun s a =>
      let m := Mask.ofTest fun l => p.at_.lanes.has l && (resume l).toNat == a
      s.writeRecord p.core p.blk p.at_.troupe m fun t rid =>
        fill (t.toRecord rid m key (BitVec.ofNat 64 a) kind 0)) s
  match s'.settleCue p.core with
  | some r => .ok r
  | none => .error (.plain codeCqovf p.at_.lanes)

/-- Depart the whole path (R120) with one record resuming at `resume`; CQOVF when it does not fit. -/
def State.depart (s : State) (p : Path) (key : Key) (resume : DWord) (kind : Nat)
    (fill : CueRec → CueRec) : Exe State :=
  let s' := s.writeRecord p.core p.blk p.at_.troupe p.at_.lanes fun t rid =>
    fill (t.toRecord rid p.at_.lanes key resume kind 0)
  match s'.settleCue p.core with
  | some r => .ok r
  | none => .error (.plain codeCqovf p.at_.lanes)

/-! ### Last-read marks, rewinding (R118, R179) -/

/-- Make a register dead: zero, UNDEF (R118). -/
def VReg.kill (_r : VReg) : VReg := { tag := .undef, dead := true, lanes := List.replicate 64 0 }

/-- Some lanes give up their hold on every mark; marks no lane holds take effect (R118). -/
def Troupe.releaseMarks (t : Troupe) (m : Mask) : Troupe :=
  let marks := t.marks.map fun x => { x with hold := x.hold &&& ~~~m }
  let freed := (marks.filter fun x => x.hold == 0).map (·.reg)
  { t with
    marks := marks.filter fun x => x.hold != 0
    regs := t.regs.mapIdx fun n r => if freed.contains n then r.kill else r }

/-- Rewind lanes to their region entries: marks held by them are cancelled, and deferred accesses
issued since the entry are cancelled (R118, R179). -/
def Troupe.rewind (t : Troupe) (m : Mask) : Troupe :=
  { t with
    marks := t.marks.filter fun x => x.hold &&& m == 0
    deferred := (t.deferred.map fun d => { d with lanes := d.lanes &&& ~~~(d.fresh &&& m) }).filter
      fun d => d.lanes != 0 }

/-- Rewind the ports of a troupe for some lanes: positions to checkpoints, fetched elements and
pushes since the entry dropped, a mark of SCLOSE since the entry dropped (R179, R268, R275). -/
def Core.rewindPorts (k : Core) (b i : Nat) (m : Mask) : Core :=
  (k.ctxsOf b i).foldl
    (fun k n => k.modCtx n fun x => x.modLanes m fun _ y =>
      { y with
        pos := y.ckpt, ahead := [], close := false, freshPushes := 0
        held := y.held.take (y.held.length - y.freshPushes) }) k

/-- R179 for lanes of a troupe. -/
def State.rewindLanes (s : State) (c b i : Nat) (m : Mask) : State :=
  s.modCore c fun k => (k.modTroupe b i fun t => t.rewind m).rewindPorts b i m

/-! ### The end of lanes, troupes and blocks (R143, R302, R303, R349) -/

/-- A block's contexts are free (R271). -/
def Core.freeCtxs (k : Core) (b : Nat) : Core :=
  { k with
    ctxs := k.ctxs.map fun x =>
      match x.owner with
      | some o => if o.1 == b then Ctx.reset else x
      | none => x }

/-- A lane's pushes that have passed their region entry and wait to be performed (R13, R269). -/
def CtxLane.due (y : CtxLane) : List Push := y.held.filter (·.waiting)

/-- A context has a push that waits. -/
def Ctx.owes (x : Ctx) : Bool := x.lanes.any fun y => y.held.any (·.waiting)

/-- A block's contexts of a kill: what no region entry has performed is discarded (R303), and what waits is still
performed. -/
def Core.dropPushes (k : Core) (b : Nat) : Core :=
  { k with
    ctxs := k.ctxs.map fun (x : Ctx) =>
      match x.owner with
      | some o =>
        if o.1 == b then { x with lanes := x.lanes.map fun (y : CtxLane) => { y with held := y.due, freshPushes := 0, ahead := [] } }
        else x
      | none => x }

/-- Scoreboard entries of stream contexts that are no longer bound are freed (R270). -/
def Core.sweepStreams (k : Core) : Core :=
  { k with
    board := k.board.filter fun e =>
      match e.owner with
      | .stream n => (k.ctx n).bound
      | _ => true }

/-- The block's last troupe has ended: its copies in flight become orphans, and its window, contexts and scoreboard
entries are released only with it (R107, R302). -/
def Core.endBlock (k : Core) (b : Nat) : Core :=
  let k := k.modBlock b fun x => { x with ending := true, halted := false, cancelling := false }
  let k := { k with
    copies := k.copies.map fun (o : Option Copy) => o.map fun (x : Copy) => if x.blk == b then { x with orphan := true } else x
    cue := k.cue.filter fun r => r.blk != b
    outcomes := k.outcomes.filter fun o => o.blk != b }
  k

/-- The matrix commands of a block whose last troupe has ended lose their local writes and arrivals; when the block is
killed, those not started are dropped, and the started ones retire as usual (R303, R349). -/
def Pair.endBlock (q : Pair) (c b : Nat) (kill : Bool) : Pair :=
  { q with
    queue := (q.queue.filter fun x => !(kill && x.core == c && x.blk == b && !x.started)).map fun x =>
      if x.core == c && x.blk == b && !kill then { x with orphan := true } else x }

/-- Some lanes end: their state is discarded, their deferred accesses no longer hold registers, and
their holds on marks are given up (R118, R143). -/
def Troupe.endLanes (t : Troupe) (m : Mask) : Troupe :=
  let t := t.releaseMarks m
  let t := t.modLanes m fun _ _ => Lane.reset
  { t with
    deferred := (t.deferred.map fun d => { d with lanes := d.lanes &&& ~~~m }).filter fun d => d.lanes != 0
    slot := if t.lanes.any fun l => l.place == .resident then t.slot else none }

/-- Remove a finished troupe, and end its block with the last one (R143). -/
def State.sweepTroupe (s : State) (c b i : Nat) : State :=
  match (s.core c).troupe b i with
  | none => s
  | some t =>
    if t.lanes.all fun l => l.place == .ended then
      let s := s.modCore c fun k =>
        { k with
          troupes := k.troupes.filter fun x => !(x.blk == b && x.idx == i)
          undo := k.undo.filter fun u => !(u.blk == b && u.troupe == i) }
      if (s.core c).troupes.any fun x => x.blk == b then s
      else (s.modCore c fun k => k.endBlock b).modPair (c / 2) fun q => q.endBlock c b false
    else s

/-- Kill a block (R303, R349): its troupes, records and waiting entries go at once, its copies and
started commands run on; it counts as ended when BLOCK_DONE finds them finished. -/
def State.killBlock (s : State) (c b : Nat) : State :=
  match (s.core c).block b with
  | none => s
  | some _ =>
    let s := s.modCore c fun k =>
      let k := { k with
        troupes := k.troupes.filter fun x => x.blk != b
        undo := k.undo.filter fun u => u.blk != b }
      ((k.endBlock b).dropPushes b).modBlock b fun x => { x with killed := true, relq := [], saved := false }
    let s := s.modPair (c / 2) fun q => q.endBlock c b true
    let ids := ((s.pair (c / 2)).queue).map (·.id)
    let s := s.modCore c fun k => { k with
      board := k.board.filter fun e =>
        match e.owner with
        | .matrix n => ids.contains n
        | _ => true }
    { s with
      halts := s.halts.filter fun h => !(h.core == c && h.blk == b)
      faultWait := s.faultWait.filter fun w => !(w.record.core == c && w.blk == b) }

/-- A cancel removes a block, or lanes of it (R367). -/
def State.noteRemoved (s : State) (c b : Nat) : State :=
  match (s.core c).block b with
  | some x => s.modLaunch x.launch fun l => { l with removed := true }
  | none => s

/-- The completion object's fault count rises by one (R184), saturating (R358). -/
def State.countFault (s : State) (c b : Nat) : State :=
  match s.launchOf c b with
  | none => s
  | some l => s.modLaunch (s.topLaunch l.id) fun x => { x with faults := min (x.faults + 1) 0xFFFFFFFF }

/-! ### Page requests (R416) -/

/-- A request of the partition may take an entry: 16 reserved each and 384 shared (R416). -/
def State.priRoom (s : State) (part : Nat) : Bool :=
  let sent := s.pri.filter (·.sent)
  let mine (p : Nat) : Nat := (sent.filter fun r => r.part == p).length
  let shared := ((List.range 8).map fun p => mine p - 16).foldl (· + ·) 0
  !s.priStopped && (mine part < 16 || shared < 384)

/-- Send a page request for a page, or join the one outstanding (R416). -/
def State.requestPage (s : State) (part pasid va : Nat) : State :=
  let page := va / 4096 * 4096
  if s.pri.any fun r => r.part == part && r.pasid == pasid && r.va == page then s
  else
    { s with
      pri := s.pri ++ [{ index := s.nextPri, part := part, pasid := pasid, va := page
                         sent := s.priRoom part }]
      nextPri := s.nextPri + 1 }

/-! ### Taking a fault (R181 to R185) -/

/-- Path lanes stay where they are, halted (R184, R185). -/
def State.haltLanes (s : State) (c b i : Nat) (m : Mask) : State :=
  s.modTroupe c b i fun t => t.modLanes m fun _ l => { l with stopped := true }

/-- The fault queue has room for a record (R181): one entry, or five with its extension. -/
def State.faultRoom (s : State) (ext : Bool) : Bool :=
  let used := (s.faultQ.map fun r => if r.ext then 5 else 1).foldl (· + ·) 0
  used + (if ext then 5 else 1) ≤ Config.faultEntries

/-- A byte of flags, bit 0 first. -/
def flagByte (bs : List Bool) : Byte := BitVec.ofNat 8 (bs.foldr (fun b n => 2 * n + b.toNat) 0)

/-- The bytes of a fault record before CHECK (R181). -/
def FaultRec.body (r : FaultRec) : List Byte :=
  [BitVec.ofNat 8 r.code,
    flagByte [false, false, r.disp % 2 == 1, r.disp / 2 % 2 == 1, r.resfail, r.checked, r.multi, r.ext],
    BitVec.ofNat 8 r.core, BitVec.ofNat 8 (16 * r.troupe + r.slot)] ++
  natToBytes 4 r.recCount.toNat ++ natToBytes 8 r.entry.toNat ++ natToBytes 8 r.pc.toNat ++ natToBytes 8 r.mask.toNat ++
    natToBytes 8 r.addr.toNat ++ natToBytes 8 r.block ++ natToBytes 4 r.job ++
    [BitVec.ofNat 8 r.lane, match r.port with
      | some q => BitVec.ofNat 8 (128 + q)
      | none => 0] ++
    natToBytes 2 r.arg ++ natToBytes 4 r.seq

/-- The fault record as it stands in the queue: 64 bytes, and 256 more with its extension (R181). -/
def FaultRec.bytes (r : FaultRec) : List Byte :=
  r.body ++ natToBytes 4 r.check ++ if r.ext then r.extWords.flatMap fun w => natToBytes 4 w.toNat else []

/-- A record with the arbiter's number, of 32 bits, and its check word (R181). -/
def FaultRec.numbered (r : FaultRec) (n : Nat) : FaultRec :=
  { r with seq := n, check := checkWord (wordsOf { r with seq := n }.body) }

/-- Write a fault record into the queue with the arbiter's number, and signal the partition's
vector 8 (R181, R413). -/
def State.postRecord (s : State) (r : FaultRec) (part : Nat) : State :=
  { s with faultQ := s.faultQ ++ [r.numbered s.faultSeq], faultSeq := (s.faultSeq + 1) % 2 ^ 32 }.signal
    (part + 1) 8

/-- What marks the records of a path that waits halted for the fault queue (R185). -/
def haltMark (wid : Nat) : Nat := 2 ^ 40 + wid

/-- The fault record with RESFAIL of a record whose resolution has failed (R185). -/
def State.resfailRecord (s : State) (c : Nat) (r : CueRec) (k : Block) (l : Launch) : FaultRec :=
  let m := if r.mask &&& r.faultMask = 0 then r.mask else r.mask &&& r.faultMask
  { code := r.fault, ext := !r.faultExt.isEmpty, multi := false, checked := s.checkedCore c, resfail := true, disp := 0, core := c
    troupe := r.troupe, slot := 0, recCount := r.recCount, entry := r.resume
    pc := (r.lanes.getD m.lowest Lane.reset).pc, mask := m, addr := r.faultAddr, block := k.index, job := l.job
    lane := m.lowest, port := r.faultPort, arg := 0, seq := 0, check := 0, extWords := r.faultExt }

/-- A record whose resolution has failed is handled as under deliver, with a second fault record (R185). -/
def State.failRecord (s : State) (c : Nat) (r : CueRec) : State :=
  match (s.core c).block r.blk, s.launchOf c r.blk with
  | some k, some l =>
    let f := s.resfailRecord c r k l
    let put (s : State) (mark : Nat) : State := s.modCore c fun k => { k with
      cue := k.cue.map fun (x : CueRec) => if x.rid == r.rid then { x with halted := some mark, key := .none } else x }
    if s.faultRoom f.ext then
      let s' := ((put s s.faultSeq).postRecord f l.part).modBlock c r.blk fun x => { x with halted := true }
      { s' with
        halts := s'.halts ++ [{ seq := s.faultSeq, core := c, blk := r.blk, troupe := r.troupe, mask := r.mask
                                code := r.fault, next := 0, engine := false }] }
    else
      { (put s (haltMark s.nextId)) with
        nextId := s.nextId + 1
        faultWait := s.faultWait ++ [{ record := f, blk := r.blk, lanes := r.mask, next := 0, key := .none
                                       engine := false, wid := s.nextId, final := false }] }
  | _, _ => s

/-- The records of a core that satisfy a test fail. -/
def State.failRecords (s : State) (c : Nat) (test : CueRec → Bool) : State :=
  ((s.core c).cue.filter test).foldl (fun s r => s.failRecord c r) s

/-- A POISON that no repair can resolve: the page has no replica, or the data failed on the link (R247, R431). -/
def Key.unrepaired : Key → Bool
  | .sector sec => decide (peerSector ≤ sec)
  | _ => false

/-- The block of a fault is halted until the prompter answers (R184). -/
def State.deliver (s : State) (w : FaultWait) (seq : Nat) : State :=
  let c := w.record.core
  let s := (s.haltLanes c w.blk w.record.troupe w.lanes).modBlock c w.blk fun x => { x with halted := true }
  { s with
    halts := s.halts ++ [{ seq := seq, core := c, blk := w.blk, troupe := w.record.troupe, mask := w.lanes
                           code := w.record.code, next := w.next, engine := w.engine }] }

/-- The departure of a path whose fault is taken under resume: its KIND 2 records, when they fit the cue store and
the wings area (R126, R180, R184). -/
def State.departFault (s : State) (w : FaultWait) : Option State :=
  let c := w.record.core
  let n := s.nextId
  ((s.recordsToEntry c w.blk w.record.troupe w.lanes w.key w.record.code).modCore c fun k => { k with
    cue := k.cue.map fun (r : CueRec) =>
      if n ≤ r.rid then { r with
        faultMask := w.record.mask, faultAddr := w.record.addr, faultPort := w.record.port, faultExt := w.record.extWords }
      else r }).settleCue c

/-- What a disposition does once the record is written (R184): 0 deliver, 1 resume, 2 kill. The kill of a
cancelled block does not count as a fault, and counts as removed (R367). -/
def State.applyDisposition (s : State) (w : FaultWait) (seq : Nat) : State :=
  let c := w.record.core
  let b := w.blk
  match w.record.disp with
  | 2 => (if w.record.code == codeCancelled then s.noteRemoved c b else s.countFault c b).killBlock c b
  | 1 =>
    let own := s.ownerOf c b
    let s := match w.key with
      | .pages vas => vas.foldl (fun (s : State) va => s.requestPage own.1 own.2 va) s
      | _ => s
    match s.departFault w with
    | some r => if w.final then r.failRecords c fun x => s.nextId ≤ x.rid else r
    | none => s.deliver w seq
  | _ => s.deliver w seq

/-- Faults that decode raises never depart and never resume (R59). -/
def isDecodeCode (code : Nat) : Bool := code ≤ 3 || code == codePairAlign

/-- Classes that may take the resume disposition (R72, R182). -/
def isResumable (code : Nat) : Bool := code == codePageFault || code == codeRlock || code == codePoison

/-- The disposition that applies to a code in a launch (R184, R356, R59). -/
def dispositionOf (l : Launch) (code : Nat) : Nat :=
  match l.disp.getD code 0 with
  | 2 => 2
  | 1 => if isResumable code then 1 else if isDecodeCode code then 2 else 0
  | _ => 0

/-- A departure under resume that does not fit raises CQOVF in place of its fault, for the lanes of the path and
under the launch's disposition for CQOVF (R126, R182, R183). -/
def State.fitted (s : State) (w : FaultWait) : FaultWait :=
  if w.record.disp = 1 && (s.departFault w).isNone then
    let disp := match s.launchOf w.record.core w.blk with
      | some l => dispositionOf l codeCqovf
      | none => 0
    { w with
      record := { w.record with
        code := codeCqovf, ext := false, multi := false, disp := disp, mask := w.lanes, addr := 0, arg := 0
        lane := w.lanes.lowest, port := none, extWords := [] }
      key := .none, final := false }
  else w

/-- Write the record and act on the disposition, or wait halted for a free entry (R185). DESIGN CHOICE (entry 78): the
spec does not order a record that waits against a later one, so a later record of one entry is written while an
earlier one of five still waits for room. -/
def State.raiseFault (s : State) (w : FaultWait) : State :=
  let w := s.fitted w
  if s.faultRoom w.record.ext then
    (s.postRecord w.record (s.ownerOf w.record.core w.blk).1).applyDisposition w s.faultSeq
  else
    { (s.haltLanes w.record.core w.blk w.record.troupe w.lanes) with
      faultWait := s.faultWait ++ [{ w with wid := s.nextId }], nextId := s.nextId + 1 }

/-- Outcomes of fills other than a translation are used up by the fault they raise (R243). -/
def Core.useOutcome (k : Core) (p : Issue) (code : Nat) : Core :=
  if code == codePageFault || code == codeAccess then
    { k with
      outcomes := (k.outcomes.map fun (o : FillOutcome) =>
        if o.blk == p.blk && o.troupe == p.troupe then { o with lanes := o.lanes &&& ~~~p.lanes } else o).filter
          fun o => o.lanes != 0 }
  else k

/-- TAKING A FAULT: the one operation by which an instruction of a path faults (R134, R181 to R185).
The record names the lowest lane of the mask; the disposition of the launch then acts. -/
def State.takeFault (s : State) (p : Issue) (len : Nat) (code : Nat) (mask : Mask) (addr : DWord)
    (arg : Nat) (port : Option Nat) (key : Key) : State :=
  let k := s.core p.core
  match k.troupe p.blk p.troupe, s.launchOf p.core p.blk with
  | some t, some l =>
    let disp := dispositionOf l code
    let ext : List Word :=
      match (if code = codeStream then none else port).bind (k.ctxOf p.blk p.troupe) with
      | some n => laneNumbers.map fun x => if mask.has x then ((k.ctx n).lane x).pos else 0
      | none => []
    let r : FaultRec :=
      { code := code, ext := !ext.isEmpty, multi := disp == 1 && 1 < (t.entries p.lanes).length
        checked := t.role != 0, resfail := false, disp := disp, core := p.core, troupe := p.troupe
        slot := t.slot.getD 0, recCount := t.recCount, entry := (t.lane mask.lowest).rea, pc := p.pc
        mask := mask, addr := addr, block := ((k.block p.blk).map (·.index)).getD 0, job := l.job
        lane := mask.lowest, port := port, arg := arg, seq := 0, check := 0, extWords := ext }
    (s.modCore p.core fun k => k.useOutcome p code).raiseFault
      { record := r, blk := p.blk, lanes := p.lanes, next := p.pc + BitVec.ofNat 64 len, key := key
        engine := false, wid := 0, final := key.unrepaired }
  | _, _ => s

/-- A fault of a block or one of its engines, whatever path runs (R185, R284, R371, R435): delivered
or killed as `disp` says, with RESFAIL where its rule sets it; `edit` adds to the record what concerns an element. -/
def State.blockFaultOf (edit : FaultRec → FaultRec) (s : State) (c b code disp : Nat) (resfail : Bool) (pc addr : DWord)
    (arg : Nat) : State :=
  match (s.core c).block b, s.launchOf c b with
  | some k, some l =>
    let r : FaultRec :=
      { code := code, ext := false, multi := false, checked := s.checkedCore c, resfail := resfail, disp := disp
        core := c, troupe := 0, slot := 0, recCount := 0, entry := 0, pc := pc, mask := 0, addr := addr
        block := k.index, job := l.job, lane := 0, port := none, arg := arg, seq := 0, check := 0, extWords := [] }
    s.raiseFault { record := edit r, blk := b, lanes := 0, next := 0, key := .none, engine := true
                   wid := 0, final := false }
  | _, _ => s

/-- A fault of a block or one of its engines that concerns no stream element. -/
def State.blockFault (s : State) (c b code disp : Nat) (resfail : Bool) (pc addr : DWord) (arg : Nat) : State :=
  s.blockFaultOf id c b code disp resfail pc addr arg

/-- A resident lane that runs: not held at its region entry or by a fault. -/
def Lane.running (l : Lane) : Bool := l.place == .resident && !l.stopped

/-- The group of a troupe at an address holds a command that a pre-emption keeps from being issued (R188). -/
def Core.heldAcross (k : Core) (t : Troupe) (pc : DWord) : Bool :=
  match k.preempt with
  | some p => p.held.contains (t.blk, t.idx, pc)
  | none => false

/-- Every path of a block is stopped, departed or halted, or its command is held (R188, R367). -/
def Core.pathsStopped (k : Core) (b : Nat) : Bool :=
  k.troupes.all fun t => t.blk != b || t.lanes.all fun l => !l.running || k.heldAcross t l.pc

/-- A block being cancelled is killed once every path of it is stopped, with a record CANCELLED (R367). -/
def State.killCancelled (s : State) (c b : Nat) : State :=
  match (s.core c).block b with
  | some x =>
    if x.cancelling && !x.killed && (s.core c).pathsStopped b then s.blockFault c b codeCancelled 2 false 0 0 0
    else s
  | none => s

/-! ### Returning from a fault (R184, R186, R189) -/

/-- A halted block goes on when no halt is left in it: stopped lanes other than halted ones run
again from where they stopped (R184, R189). -/
def State.unhaltBlock (s : State) (c b : Nat) : State :=
  if s.halts.any fun h => h.core == c && h.blk == b then s
  else
    let s := s.modBlock c b fun x => { x with halted := false }
    let waiting := s.faultWait.filter fun w => w.record.core == c && w.blk == b
    s.modCore c fun k => { k with
      troupes := k.troupes.map fun t =>
        if t.blk == b then
          { t with lanes := t.lanes.mapIdx fun l x =>
              if waiting.any fun w => w.record.troupe == t.idx && w.lanes.has l then x
              else { x with stopped := false } }
        else t }

/-- RETURNING FROM A FAULT: the halted lanes run again, at their region entries after R179's
rewinding, or with `skip` at the next instruction without it (R184). Lanes of a fault that are in
the cue store (saved or spilled) become ready instead (R190). -/
def State.returnFromFault (s : State) (h : Halt) (skip : Bool) : State :=
  let s := { s with halts := s.halts.filter fun x => x.seq != h.seq }
  let s := s.modCore h.core fun k => { k with
    cue := k.cue.map fun r =>
      if r.halted == some h.seq then
        { r with halted := none, rewind := !skip, resume := if skip then h.next else r.resume }
      else r }
  let s := s.readyNow h.core fun r => r.fault == h.code && r.kind == 2 && r.key == .none
  let s := if skip then s else s.rewindLanes h.core h.blk h.troupe h.mask
  let s := s.modTroupe h.core h.blk h.troupe fun t => t.modLanes h.mask fun _ l =>
    if l.place == .resident then
      { l with stopped := false, pc := if skip then h.next else l.rea }
    else l
  s.unhaltBlock h.core h.blk

/-! ### Relaunch (R127, R130) -/

/-- A free troupe slot and granules for `regs` registers (R107). -/
def Core.freeSlot (k : Core) (regs : Nat) : Option Nat :=
  let taken := k.troupes.filterMap (·.slot)
  let used := ((k.troupes.filter fun t => t.slot.isSome).map fun t => t.regs.length / 8).foldl (· + ·) 0
  if used + regs / 8 ≤ Config.granules then (List.range Config.troupeSlots).find? fun n => !taken.contains n
  else none

/-- Registers of a relaunching record are written into its lanes as if by one instruction (R127). -/
def Troupe.restoreRegs (t : Troupe) (m : Mask) (ds : List RegData) : Troupe :=
  ds.foldl (fun t d => t.writeReg d.reg m d.tag fun l => d.lanes.getD l 0) t

/-- The record's lanes rejoin the troupe: registers, per-lane state, uniform result and the SAT of
R295 (R120, R123, R127). What a lane's waiting push has touched meanwhile stays touched (R98). -/
def Troupe.rejoin (t : Troupe) (r : CueRec) (slot : Nat) : Troupe :=
  let t := if t.slot.isNone then { t with regs := t.regs.map VReg.kill } else t
  let t := (t.restoreRegs r.mask r.regs)
  let t := t.modLanes r.mask fun l x =>
    let saved := r.lanes.getD l x
    { saved with
      place := .resident, stopped := false, pc := r.resume, rea := x.rea
      scope := if saved.scope.toNat < x.scope.toNat then x.scope else saved.scope }
  let t := match r.uresult with
    | some u => t.setK u.1 u.2
    | none => t
  { t with
    slot := some slot, frameSpilled := false
    fstat := if r.sat then t.fstat ||| 0x20 else t.fstat }

/-! ### Region entries (R176) -/

/-- Widen the touched scope of a lane (R98). -/
def State.touch (s : State) (c b i : Nat) (m : Mask) (scope : BitVec 2) : State :=
  if scope = 0 then s
  else s.modTroupe c b i fun t => t.modLanes m fun _ l =>
    { l with scope := if l.scope.toNat < scope.toNat then scope else l.scope }

/-- What the instruction under way has written of its troupe's: old bytes of a local store, or global memory (R193,
R194). -/
def Core.noteWrites (k : Core) (b i : Nat) (cells : List Host.Cell) (global : Bool) : Core :=
  { k with
    undo := k.undo.map fun (u : UndoLog) =>
      if u.blk == b && u.troupe == i then { u with stored := u.stored ++ cells, wrote := u.wrote || global } else u }

/-- A scoreboard entry older than context `n`'s holds a sector that a push of it would write (R13). -/
def Core.pushWaits (k : Core) (n a size : Nat) : Bool :=
  let older := k.board.takeWhile fun e => e.owner != .stream n
  (k.board.any fun e => e.owner == .stream n) &&
    older.any fun e => (e.reads ++ e.writes).any fun w => sharesSector w { lo := a, hi := a + size }

/-- AtomicOps of some lanes of a troupe are on their way to the host (R256). -/
def State.opsOut (s : State) (c b i : Nat) (m : Mask) : Bool :=
  s.hostOps.any fun o => o.core == c && o.blk == b && o.troupe == i && m.has o.lane

/-- Perform one held push of context `n` (R269): the state, whether it still waits for a translation, for an older
command (R13) or for the lane's AtomicOps to the host (R91), and the address of a mismatch. DESIGN CHOICE (entry 79): a push is a plain write that makes no lock
check; R240 and R263 check an element's address when it is pushed, and R268 does not list RLOCK. -/
def State.performPush (s : State) (c b i l n : Nat) (q : Push) : State × Bool × Option Nat :=
  let x := (s.core c).ctx n
  let bytes := natToBytes (kindSize x.pat.fmt) q.data.toNat
  if x.pat.isLocal then
    if (s.core c).pushWaits n q.addr.toNat bytes.length then (s, true, none)
    else (s.modCore c fun k => { k with mem := k.mem.writeBytes q.addr.toNat bytes }, false, none)
  else
    match (s.core c).lookup (s.ownerOf c b) q.addr.toNat with
    | some t =>
      if !t.writable || (t.host && s.opsOut c b i (Mask.one l)) then (s, true, none) else
      let s := (s.touch c b i (Mask.one l) t.scope).modCore c fun k => k.noteWrites b i [] true
      let r := s.writeAll c [{ x := t, va := q.addr.toNat, bytes := bytes }]
      (r.1, false, r.2)
    | none => (s, true, none)

/-- The held pushes of a lane on the write ports of its troupe, with their contexts, in push order (R269). -/
def Core.heldOf (k : Core) (b i l : Nat) : List (Nat × Push) :=
  (((k.ctxsOf b i).filter fun n => (k.ctx n).write).flatMap fun n =>
    ((k.ctx n).lane l).held.map fun q => (n, q)).mergeSort fun x y => decide (x.2.seq ≤ y.2.seq)

/-- A push has been performed, or waits. -/
def Core.settlePush (k : Core) (n l : Nat) (q : Push) (waits : Bool) : Core :=
  k.modCtx n fun x => x.modLanes (Mask.one l) fun _ y =>
    { y with held := if waits then y.held.map fun h => if h == q then { h with waiting := true } else h else y.held.erase q }

/-- Perform held pushes of a lane in push order; one that waits, for a translation or an older command, waits without
the thread (R13, R269), and those after it wait behind it (R90). -/
def State.performHeld (s : State) (c b i l : Nat) : List (Nat × Push) → Bool → Exe State
  | [], _ => .ok s
  | (n, q) :: t, behind =>
    match if behind then (s, true, none) else s.performPush c b i l n q with
    | (s', _, some va) => .error (.mismatch (BitVec.ofNat 64 va) s')
    | (s', waits, none) => State.performHeld (s'.modCore c fun k => k.settlePush n l q waits) c b i l t waits

/-- A context whose waiting pushes have all been performed closes if it is to (R275). -/
def Core.finishClose (k : Core) (n : Nat) : Core :=
  let x := k.ctx n
  if x.closing && !x.owes then (k.modCtx n fun x => { Ctx.reset with owner := x.owner }).sweepStreams else k

/-- The lanes of a path have passed their region entry on one context: their pushes are fresh no more, and a pending
SCLOSE takes effect, once nothing waits (R269, R275). -/
def Core.passCtx (k : Core) (m : Mask) (n : Nat) : Core :=
  let closes := m.lanes.any fun l => ((k.ctx n).lane l).close
  (k.modCtx n fun x =>
    { (x.modLanes m fun _ y => { y with freshPushes := 0 }) with closing := x.closing || closes }).finishClose n

/-- Step 1 of R176. -/
def State.performPushes (s : State) (c b i : Nat) (m : Mask) : Exe State := do
  let s ← m.lanes.foldlM (fun s l => s.performHeld c b i l ((s.core c).heldOf b i l) false) s
  .ok (s.modCore c fun k => (k.ctxsOf b i).foldl (fun k n => k.passCtx m n) k)

/-- A region entry passed by some lanes of a troupe in checked mode (R392). -/
def Retry.pass (r : Retry) (m : Mask) (pc : DWord) : Option Retry :=
  if r.lanes &&& m = 0 then some r
  else if !r.entered && pc = r.rea then some { r with entered := true }
  else none

/-- 288-byte entries that some log entries take (R196). -/
def weightOf (es : List Undo) : Nat := (es.map (·.weight)).foldl (· + ·) 0

/-- The newest entries that `room` 288-byte entries hold. -/
def fitting (room : Nat) : List Undo → List Undo
  | [] => []
  | e :: t => if e.weight ≤ room then e :: fitting (room - e.weight) t else []

/-- Lanes whose region entry lies before the newest `kept` entries of a log. -/
def lostLanes : List Undo → Nat → Mask → Mask
  | [], _, _ => 0
  | e :: t, kept, m =>
    if e.boundary then lostLanes t (kept - 1) (m &&& ~~~e.lanes)
    else (if kept = 0 then e.lanes &&& m else 0) ||| lostLanes t (kept - 1) m

/-- Add an entry. In debug mode the log holds 4096 entries of 288 bytes and a new one overwrites the oldest (R193);
the journal holds what its paths wrote since their region entries, up to 4096 entries of one region (R197). -/
def UndoLog.push (u : UndoLog) (debug : Bool) (e : Undo) : UndoLog :=
  let all := e :: u.entries
  let es := if debug then fitting Config.undoEntries all else all
  let region := weightOf (all.filter fun x => !x.boundary && x.lanes &&& e.lanes != 0)
  let past := if !debug && Config.undoEntries < region then e.lanes else 0
  { u with
    entries := es, wrapped := u.wrapped || es.length < all.length, written := u.written + e.weight
    lost := u.lost ||| lostLanes all es.length (BitVec.allOnes 64) ||| past }

/-- Step 6 of R176: the journal of the path is cleared, and in debug mode a boundary entry is written. -/
def UndoLog.enter (u : UndoLog) (debug : Bool) (p : Issue) (recCount : Word) : UndoLog :=
  let u := { u with lost := u.lost &&& ~~~p.lanes, sealed := u.sealed &&& ~~~p.lanes }
  if debug then
    u.push true
      { pc := p.pc, recCount := recCount, boundary := true, weight := 1, skew := false, more := false
        lanes := p.lanes, old := none, oldLocal := [], oldPos := [] }
  else
    { u with
      entries := (u.entries.map fun (e : Undo) => { e with lanes := e.lanes &&& ~~~p.lanes }).filter fun e =>
        e.lanes != 0 }

/-- Outcomes of fills at a region entry: the first one passed is the one at which the lanes re-execute (R243). -/
def FillOutcome.enter (o : FillOutcome) (p : Issue) (again : Mask) : Option FillOutcome :=
  if o.blk == p.blk && o.troupe == p.troupe && o.lanes &&& p.lanes != 0 then
    if !o.entered && o.lanes &&& p.lanes &&& ~~~again = 0 then some { o with entered := true }
    else if o.lanes &&& ~~~p.lanes = 0 then none
    else some { o with lanes := o.lanes &&& ~~~p.lanes }
  else some o

/-- What a path's CSCHED has released since its region entry is no longer recent (R392). -/
def Core.passIssued (k : Core) (p : Issue) : Core :=
  if k.copies.all (·.isNone) && k.blocks.all fun o => match o with
    | some x => x.relq.isEmpty
    | none => true then k
  else
    { k with
      blocks := k.blocks.mapIdx fun b o => o.map fun (x : Block) =>
        if b = p.blk then
          { x with relq := x.relq.map fun (r : Released) =>
              if r.troupe == p.troupe then { r with fresh := r.fresh &&& ~~~p.lanes } else r }
        else x
      copies := k.copies.map fun o => o.map fun (x : Copy) =>
        if x.blk == p.blk && x.troupe == p.troupe then { x with fresh := x.fresh &&& ~~~p.lanes } else x }

/-- Steps 2 to 6 of R176 for the lanes of a path. -/
def State.enterRegion (s : State) (p : Issue) : State :=
  let debug := match s.launchOf p.core p.blk with
    | some l => l.debug
    | none => false
  let s := s.modPair (p.core / 2) fun q => { q with
    queue := q.queue.map fun x =>
      if x.core == p.core && x.blk == p.blk && x.troupe == p.troupe then
        { x with fresh := x.fresh &&& ~~~p.lanes }
      else x }
  s.modCore p.core fun (k : Core) =>
    let k : Core := k.passIssued p
    let k := (k.ctxsOf p.blk p.troupe).foldl
      (fun k n => k.modCtx n fun x => x.modLanes p.lanes fun _ y =>
        { y with ckpt := y.pos, freshPushes := 0 }) k
    let again := ((k.troupe p.blk p.troupe).map fun t => t.lanesAt p.lanes p.pc.toNat).getD 0
    let k := { k with outcomes := k.outcomes.filterMap fun (o : FillOutcome) => o.enter p again }
    let k := k.modTroupe p.blk p.troupe fun (t : Troupe) =>
      let t := t.releaseMarks p.lanes
      let t := t.modLanes p.lanes fun _ l => { l with rea := p.pc }
      { t with
        recCount := t.recCount + 1
        retry := t.retry.filterMap fun (r : Retry) => r.pass p.lanes p.pc
        deferred := t.deferred.map fun d => { d with fresh := d.fresh &&& ~~~p.lanes } }
    let rc := ((k.troupe p.blk p.troupe).map (·.recCount)).getD 0
    { k with
      undo := k.undo.map fun (u : UndoLog) =>
        if u.blk == p.blk && u.troupe == p.troupe then u.enter debug p rc else u }

/-- The region-entry actions of R176 for the lanes of a path that issues an instruction with E set,
before the instruction itself executes. -/
def State.regionEntry (s : State) (p : Issue) : Exe State := do
  let s ← s.performPushes p.core p.blk p.troupe p.lanes
  .ok (s.enterRegion p)

/-- A path stops at its region entry: its block is halted or being cancelled, its core is being
pre-empted, or its launch's cut has reached the troupe (R184, R188, R366, R367). -/
def State.mustStop (s : State) (p : Issue) : Bool :=
  let k := s.core p.core
  match k.block p.blk, k.troupe p.blk p.troupe with
  | some b, some t =>
    b.halted || b.cancelling || k.preempt.isSome ||
      match s.launch b.launch with
      | some l => match l.cut with
        | some target => target ≤ t.step.toNat
        | none => false
      | none => false
  | _, _ => false

/-! ### The undo log and the journal (R193, R194, R197) -/

/-- Consecutive bytes of a list of cells, in runs of at most 256: what one entry of KIND 5 holds (R196). -/
def cellRuns : List Host.Cell → List (Nat × List Byte)
  | [] => []
  | (a, b) :: t =>
    match cellRuns t with
    | (x, bs) :: rest => if x = a + 1 && bs.length < 256 then (a, b :: bs) :: rest else (a, [b]) :: (x, bs) :: rest
    | [] => [(a, [b])]

/-- The old bytes of an instruction's local stores, rising by address: what each held before the first of them. -/
def oldestCells (cs : List Host.Cell) : List Host.Cell :=
  (((cs.map (·.1)).eraseDups).map fun a => (a, ((cs.find? fun c => c.1 == a).map (·.2)).getD 0)).mergeSort
    fun x y => decide (x.1 ≤ y.1)

/-- How many of two lists' entries differ. -/
def changes {α : Type} [BEq α] (old new : List α) : Nat := ((old.zip new).filter fun x => x.1 != x.2).length

/-- The index registers, by number, whose value differs in some lane. -/
def changedIdx (old new : Troupe) : List Nat :=
  (List.range 8).filter fun n => laneNumbers.any fun l => (old.lane l).idx.getD n 0 != (new.lane l).idx.getD n 0

/-- The 288-byte entries that one instruction's writes take (R196). -/
def undoWeight (old new : Troupe) (cells : List Host.Cell) (ports : Nat) : Nat :=
  changes old.regs new.regs + (if old.lanes.map (·.preds) != new.lanes.map (·.preds) then 1 else 0) +
    (changedIdx old new).length + changes old.k new.k + changes old.tiles new.tiles +
    (if old.c != new.c then 1 else 0) + changes old.bounds new.bounds +
    (if old.fmode != new.fmode then 1 else 0) + (if old.fstat != new.fstat then 1 else 0) +
    (if old.satt != new.satt then 1 else 0) + (cellRuns cells).length + ports

/-- The log of a troupe, if it keeps one: in debug mode, or as a checked pair's journal (R193, R197). -/
def Core.logOf (k : Core) (b i : Nat) : Option UndoLog := k.undo.find? fun u => u.blk == b && u.troupe == i

/-- Change the log of a troupe. -/
def Core.modLog (k : Core) (b i : Nat) (f : UndoLog → UndoLog) : Core :=
  { k with undo := k.undo.map fun (u : UndoLog) => if u.blk == b && u.troupe == i then f u else u }

/-- The launch of a block runs in debug mode (R193). -/
def State.debugs (s : State) (c b : Nat) : Bool :=
  match s.launchOf c b with
  | some l => l.debug
  | none => false

/-- Add to a log the entry of one instruction: `skew` where a global write of its troupe went unlogged before it or in
it (R194). -/
def UndoLog.note (u : UndoLog) (debug : Bool) (e : Undo) : UndoLog :=
  { (u.push debug { e with skew := u.wrote }) with stored := [], wrote := u.wrote && e.weight == 0 }

/-- Log an executed instruction for a troupe that keeps a log or a journal. -/
def State.logUndo (s : State) (p : Issue) (before : State) : State :=
  let k0 := before.core p.core
  let k1 := s.core p.core
  match k1.logOf p.blk p.troupe, k0.troupe p.blk p.troupe, k1.troupe p.blk p.troupe with
  | some u, some a, some z =>
    let cells := oldestCells u.stored
    let ports := (k0.ctxsOf p.blk p.troupe).filter fun n => (k0.ctx n).lanes != (k1.ctx n).lanes
    let e : Undo :=
      { pc := p.pc, recCount := z.recCount, boundary := false, weight := undoWeight a z cells ports.length
        skew := false, more := false, lanes := p.lanes, old := some (a, z), oldLocal := cells
        oldPos := ports.map fun n => (n, (k0.ctx n).lanes) }
    s.setCore p.core (k1.modLog p.blk p.troupe fun u => u.note (s.debugs p.core p.blk) e)
  | _, _, _ => s

/-- Log what a relaunch has written for the lanes of a record, as more of the entry of the instruction that departed
(R193, R194). -/
def UndoLog.relaunch (u : UndoLog) (debug : Bool) (m : Mask) (old new : Troupe) : UndoLog :=
  let weight := undoWeight old new [] 0
  match u.entries.find? fun e => !e.boundary && e.lanes &&& m != 0 with
  | some e =>
    if weight = 0 then u
    else u.push debug { e with weight := weight, skew := false, more := true, lanes := m, old := some (old, new), oldLocal := [], oldPos := [] }
  | none => u

/-! ### Unwinding and mismatches (R194, R391, R392) -/

/-- Undo the writes of one logged instruction for some lanes: what it changed goes back. A region retry leaves the
bits of %fstat (R203). -/
def Troupe.undoWrites (t old new : Troupe) (m : Mask) (retry : Bool) : Troupe :=
  let back {α : Type} [BEq α] (cur o n : List α) : List α :=
    cur.mapIdx fun i x =>
      match o[i]?, n[i]? with
      | some a, some b => if a == b then x else a
      | _, _ => x
  let t := t.modLanes m fun l x =>
    let a := old.lane l
    { x with preds := a.preds, idx := a.idx, ret := a.ret, depth := a.depth, pc := a.pc }
  { t with
    regs := t.regs.mapIdx fun r x =>
      let a := old.reg r
      let b := new.reg r
      if a == b then x
      else { tag := a.tag, dead := a.dead
             lanes := laneNumbers.map fun l => if m.has l && a.at l != b.at l then a.at l else x.at l }
    k := back t.k old.k new.k
    tiles := back t.tiles old.tiles new.tiles
    bounds := back t.bounds old.bounds new.bounds
    c := if old.c == new.c then t.c else old.c
    fmode := if old.fmode == new.fmode then t.fmode else old.fmode
    fstat := if retry || old.fstat == new.fstat then t.fstat else old.fstat
    satt := if old.satt == new.satt then t.satt else old.satt
    live := if old.live == new.live then t.live else old.live
    liveSet := if old.liveSet == new.liveSet then t.liveSet else old.liveSet
    step := if old.step == new.step then t.step else old.step }

/-- A register that one logged instruction changed, as a record holds it for some lanes once that is undone: none where it
was dead. -/
def undoRegister (old new : Troupe) (m : Mask) (n : Nat) (cur : Option RegData) : Option RegData :=
  let a := old.reg n
  let b := new.reg n
  if a == b then cur
  else if a.dead then none
  else
    some { reg := n, tag := a.tag
           lanes := laneNumbers.map fun l =>
             let now := (cur.map fun d => d.lanes.getD l 0).getD 0
             if m.has l && (b.dead || a.at l != b.at l) then a.at l else now }

/-- Undo the writes of one logged instruction in a record that holds some of its lanes (R186, R190, R194). -/
def CueRec.undoWrites (r : CueRec) (old new : Troupe) (m : Mask) : CueRec :=
  let m := m &&& r.mask
  if m = 0 then r
  else
    { r with
      written := false
      regs := (List.range old.regs.length).filterMap fun n => undoRegister old new m n (r.regs.find? fun d => d.reg == n)
      lanes := r.lanes.mapIdx fun l x =>
        if m.has l then
          let a := old.lane l
          { x with preds := a.preds, idx := a.idx, ret := a.ret, depth := a.depth, pc := a.pc }
        else x }

/-- Apply one undo entry on a core for the lanes it still concerns (R194): in the troupe, and in the records that hold
lanes of it. -/
def Core.undoEntry (k : Core) (b i : Nat) (retry : Bool) (e : Undo) : Core :=
  match e.old with
  | none => k
  | some (old, new) =>
    let k := k.modTroupe b i fun t => t.undoWrites old new e.lanes retry
    let k := { k with
      mem := k.mem.writeCells e.oldLocal
      cue := k.cue.map fun r => if r.blk == b && r.troupe == i then r.undoWrites old new e.lanes else r }
    e.oldPos.foldl (fun k x => k.modCtx x.1 fun c => c.modLanes e.lanes fun l _ => x.2.getD l CtxLane.reset) k

/-- The entries of a log that a region retry undoes for some lanes, newest first: those after the lanes' last
boundary (R176, R392). -/
def sinceEntry : List Undo → Mask → List Undo
  | [], _ => []
  | e :: t, m =>
    if e.boundary then sinceEntry t (m &&& ~~~e.lanes)
    else if e.lanes &&& m = 0 then sinceEntry t m
    else { e with lanes := e.lanes &&& m } :: sinceEntry t m

/-- The journal no longer reaches back to the region entry of some of these lanes (R197). -/
def UndoLog.overflowed (u : UndoLog) (m : Mask) : Bool := u.lost &&& m != 0

/-- Lanes of a troupe that a region retry unwinds: those that are resident and have performed, since their region
entry, none of the operations that end a region and perform once (R68, R100, R404). -/
def Core.unwinds (k : Core) (t : Troupe) : Mask :=
  t.residents &&& ~~~((k.logOf t.blk t.idx).map (·.sealed)).getD 0

/-- A command that has not finished starts again from its descriptor values (R392). -/
def MatCmd.restart (x : MatCmd) : MatCmd :=
  { x with started := false, lastRead := false, cells := [], bytes := [], status := 0, scrub := x.scrub && !x.started
           rel := if x.lastRead then none else x.rel }

/-- Undo the journal of one troupe back to its lanes' region entries (R392). -/
def Core.undoJournal (k : Core) (t : Troupe) : Core :=
  match k.logOf t.blk t.idx with
  | none => k
  | some u =>
    let m := k.unwinds t
    let k := (sinceEntry u.entries m).foldl (fun k e => k.undoEntry t.blk t.idx true e) k
    k.modLog t.blk t.idx fun u => { u with
      entries := (u.entries.map fun (e : Undo) => if e.boundary then e else { e with lanes := e.lanes &&& ~~~m }).filter
        fun e => e.lanes != 0
      lost := u.lost &&& ~~~m, stored := [], wrote := false }

/-- The lanes of a troupe that are unwound return to their region entries (R179). -/
def Core.rewindTroupe (k : Core) (t : Troupe) : Core :=
  let m := k.unwinds t
  (k.modTroupe t.blk t.idx fun x => (x.rewind m).modLanes m fun _ l => { l with pc := l.rea }).rewindPorts
    t.blk t.idx m

/-- Engine commands of a core that its unwound paths issued since their region entries: matrix commands, and entries
that a CSCHED released (R392). -/
def Core.issuedSince (k : Core) (b i : Nat) (fresh : Mask) : Bool :=
  k.troupes.any fun t => t.blk == b && t.idx == i && fresh &&& k.unwinds t != 0

/-- The releases and copies of a block that such paths have started are dropped, because re-execution starts them
again (R392). -/
def Core.dropReleases (k : Core) : Core :=
  { k with
    blocks := k.blocks.mapIdx fun b o => o.map fun (x : Block) =>
      { x with relq := x.relq.filter fun r => !k.issuedSince b r.troupe r.fresh }
    copies := k.copies.map fun o => match o with
      | some (x : Copy) => if k.issuedSince x.blk x.troupe x.fresh then none else o
      | none => none }

/-- Unwind every path of a core to its region entry (R392). -/
def State.unwindCore (s : State) (c : Nat) : State :=
  let k := s.core c
  let dropped := ((s.pair (c / 2)).queue.filter fun x => x.core == c && k.issuedSince x.blk x.troupe x.fresh).map (·.id)
  let s := s.modCore c fun k =>
    let k := k.dropReleases
    let k := k.troupes.foldl Core.undoJournal k
    k.troupes.foldl Core.rewindTroupe k
  let s := s.modPair (c / 2) fun q => { q with
    queue := (q.queue.filter fun x => !dropped.contains x.id).map fun (x : MatCmd) =>
      if x.core == c then x.restart else x }
  s.modCore c fun k => { k with
    board := k.board.filter fun e => match e.owner with
      | .matrix n => !dropped.contains n
      | .copy n => (k.copies.getD n none).isSome
      | .stream _ => true }

/-- Region retry of every path of checked pair `k` (R392). -/
def State.regionRetry (s : State) (k : Nat) : State :=
  (List.range 8).foldl (fun s i => s.unwindCore (16 * k + i)) s

/-- The launches that report with a launch: itself and the child tasks of one parent (R374). -/
def State.family (s : State) (id : Nat) : List Nat :=
  (s.sched.launches.filter fun l => l.id == s.topLaunch id || l.parent == some (s.topLaunch id)).map (·.id)

/-- Every block of a launch has ended. -/
def Launch.allEnded (l : Launch) : Bool := l.ranges.isEmpty && decide (l.blocks ≤ l.ended)

/-- Child tasks that have ended free their entries of the job table (R360). -/
def State.freeChildren (s : State) (ids : List Nat) : State :=
  s.modSched fun q =>
    let gone := (q.launches.filter fun l => ids.contains l.id && l.parent.isSome && l.allEnded).map (·.id)
    { q with jobs := q.jobs.filter fun j => !gone.contains j.launch }

/-- Discard the unplaced ranges of some launches: their indices end (R360, R367, R392). -/
def State.discardRanges (s : State) (ids : List Nat) : State :=
  (s.modSched fun q => { q with
    launches := q.launches.map fun l =>
      if ids.contains l.id then
        { l with ranges := [], ended := l.ended + (l.ranges.map fun r => r.hi - r.lo).foldl (· + ·) 0 }
      else l }).freeChildren ids

/-- The placed blocks of some launches, as core and slot. -/
def State.blocksOf (s : State) (ids : List Nat) : List (Nat × Nat) :=
  (List.range Config.numCores).flatMap fun c =>
    (List.range Config.blockSlots).filterMap fun b =>
      match (s.core c).block b with
      | some x => if ids.contains x.launch then some (c, b) else none
      | none => none

/-- Kernel failure (R392): FAULT_N for log entry `seq` (R402), a MISMATCH record for the block, and the end of its
launch. -/
def State.kernelFailure (s : State) (c b : Nat) (path : Option Issue) (addr : DWord) (seq : Nat) : State :=
  match s.launchOf c b with
  | none => s
  | some l =>
    let ids := s.family l.id
    let s := s.assertFaultN seq
    let s := s.discardRanges ids
    let s := s.modLaunch (s.topLaunch l.id) fun x => { x with failed := true }
    let s := ((s.blocksOf ids).filter fun x => x != (c, b)).foldl (fun s x => s.killBlock x.1 x.2) s
    match path with
    | some q => s.takeFault q 8 codeMismatch q.lanes addr 0 none .none
    | none => s.blockFault c b codeMismatch (dispositionOf l codeMismatch) false 0 addr 0

/-- Count a mismatch of a pair in its window (R393). -/
def State.countMismatch (s : State) (k : Nat) : State :=
  let w := s.sirip.wincfg.toNat
  let now := s.clock.toNat
  let recent := ((s.checkedPair k).mismatches.filter fun t => now - t ≤ bitsOf w 31 24 * 3200000000) ++ [now]
  let last := bitsOf w 23 20 ≤ recent.length
  let s := s.modChecked k fun p => { p with mismatches := recent, lasting := p.lasting || last }
  if last then s.logEvent 4 0 (16 * k) (2 * k) 0 0 else s

/-- The path has been retried in this region: it has passed no region entry since but the re-executed one (R392). -/
def Troupe.retried (t : Troupe) (m : Mask) : Bool :=
  t.retry.any fun r => r.lanes &&& m != 0 && (t.lane m.lowest).rea == r.rea

/-- A MISMATCH of the comparator (R391, R392): logged, and the tier of recovery chosen. The other
paths of the pair get region retry in every tier. -/
def State.mismatch (s : State) (c b : Nat) (path : Option Issue) (addr : DWord) : State :=
  let k := c / 16
  let job := match s.launchOf c b with
    | some l => l.job
    | none => 0
  let again := match path with
    | some q => (((s.core c).troupe b q.troupe).map fun t => t.retried q.lanes).getD false
    | none => false
  let ovf := match path with
    | some q => (((s.core c).logOf b q.troupe).map fun u => u.overflowed q.lanes).getD false
    | none => false
  let blk := (s.core c).block b
  let retried := match blk with
    | some x => x.blockRetry
    | none => true
  let synced := match blk with
    | some x => x.matchedSync
    | none => true
  let seq := s.sirip.eventSeq
  let s := { s with struck := some { core := c, blk := b, path := path, addr := addr } }
  if !again && !ovf then
    let s := (s.logEvent 1 1 c (c / 8) addr job).countMismatch k
    let s := s.regionRetry k
    let s := s.modBlock c b fun x => { x with retries := min (x.retries + 1) 255 }
    match path with
    | some q => s.modTroupe c b q.troupe fun t =>
        { t with retry := t.retry ++ [{ rea := (t.lane q.lanes.lowest).rea, lanes := q.lanes, entered := false }] }
    | none => s
  else if !retried && !synced then
    let s := (s.logEvent 1 2 c (c / 8) addr job).countMismatch k
    let index := (blk.map (·.index)).getD 0
    let launch := (blk.map (·.launch)).getD 0
    let s := (s.killBlock c b).modBlock c b fun x => { x with retrying := true }
    let s := s.modCore c fun k => { k with retryPlace := k.retryPlace ++ [(launch, index)] }
    s.regionRetry k
  else
    let s := (s.logEvent 1 3 c (c / 8) addr job).countMismatch k
    (s.regionRetry k).kernelFailure c b path addr seq

/-- Pushes of a lane that wait are performed, in push order, as far as they can be (R13, R269); contexts that only
waited for them close (R275). -/
def State.retryHeld (s : State) (c b i l : Nat) : State :=
  let qs := ((s.core c).heldOf b i l).filter fun x => x.2.waiting
  match s.performHeld c b i l qs false with
  | .ok s' => s'.modCore c fun k => (qs.map (·.1)).foldl Core.finishClose k
  | .error (.mismatch addr s') => s'.mismatch c b none addr
  | .error _ => s

/-! ### The frame of every thread instruction -/

/-- The first register field past the allocation (R59, R114). -/
def regBoundFault (fields : List (Nat × Nat)) (regs : Nat) : Option Nat :=
  (fields.find? fun f => regs < f.1 + f.2).map (·.1)

/-- The upper bound of an IDXSET that reaches past the allocation (R173). -/
def idxsetBound (i : Instr) (regs : Nat) : Option Nat :=
  match i with
  | .idxset _ f =>
    let lo := bitsOf f.imm.toNat 10 0
    let hi := bitsOf f.imm.toNat 26 16
    if lo ≤ hi && regs ≤ hi then some hi else none
  | _ => none

/-- What REGBOUND reports of an instruction, if it raises it (R59, R173). -/
def regBoundOf (i : Instr) (regs : Nat) : Option Nat := regBoundFault i.regFields regs <|> idxsetBound i regs

/-- Active lanes of a path (R33). -/
def activeLanes (t : Troupe) (h : Head) (lanes : Mask) : Mask :=
  Mask.ofTest fun l => lanes.has l && ((t.lane l).pred h.g.toNat != h.gn)

/-- The path goes on at the next instruction (R29). -/
def State.advance (s : State) (p : Path) : State :=
  s.mod p fun t => t.modLanes p.at_.lanes fun _ l => { l with pc := p.next }

/-- The register that an indexed field names in a lane, and whether it lies in the bounds. -/
def Troupe.indexed (t : Troupe) (v l : Nat) : Nat × Bool :=
  let i := v % 8
  let r := ((t.lane l).idx.getD i 0).toNat + v / 8
  let b := t.bounds.getD i (1, 0)
  (r, b.1.toNat ≤ r && r ≤ b.2.toNat)

/-- Registers that a destination field names: an indexed one names a register for each active lane (R45, R48). -/
def fieldNames (d : Fld) (t : Troupe) (active : Mask) : List Nat :=
  match d.use with
  | .indexed => active.lanes.map fun l => (t.indexed d.v l).1
  | _ => List.range' d.v d.regs

/-- Registers that the instruction's last-read bits mark and its destination does not name (R48). -/
def lastReads (i : Instr) (t : Troupe) (active : Mask) : List Nat :=
  match i.parts with
  | none => []
  | some (op, _, f) =>
    let fs := (f.shape op).flds
    let dst := match fs with
      | d :: _ => fieldNames d t active
      | [] => []
    ((fs.filter (·.lr)).flatMap fun x => List.range' x.v x.regs).filter fun r => !dst.contains r

/-- Record last-read marks for the lanes of the path (R48, R118). -/
def State.markReads (s : State) (p : Path) (rs : List Nat) : State :=
  if rs.isEmpty then s
  else s.mod p fun t => { t with marks := t.marks ++ rs.map fun r => { reg := r, hold := p.at_.lanes } }

/-- What becomes of a path whose instruction did not complete. -/
def State.stopPath (s : State) (p : Path) : Stop → State
  | .fault code mask addr arg port key => s.takeFault p.at_ p.len code mask addr arg port key
  | .mismatch addr s' => s'.mismatch p.core p.blk (some p.at_) addr
  | .emptyPort waits active =>
    match s.depart p (.ports waits active) p.at_.pc 1 id with
    | .ok r => r
    | .error _ => s.takeFault p.at_ p.len codeCqovf p.at_.lanes 0 0 none .none
  | .fills vas =>
    let s' := s.recordsToEntry p.core p.blk p.at_.troupe p.at_.lanes (.fills vas) 0
    match s'.settleCue p.core with
    | some r => r
    | none => s.takeFault p.at_ p.len codeCqovf p.at_.lanes 0 0 none .none

/-- A pending register that the instruction's first field names: PENDREAD precedes what the ports do (R117, R134). -/
def Troupe.pendingFirst (t : Troupe) (i : Instr) : Option Nat :=
  match i.parts with
  | some (op, _, f) => match (f.shape op).flds with
    | d :: _ => (List.range' d.v d.regs).find? t.pending
    | [] => none
  | none => none

/-- The stop that an instruction's checks decide when its body stops at `e`: PENDREAD of a destination comes before
the effects of its ports (R117, R134). -/
def Stop.decided (e : Stop) (t : Troupe) (i : Instr) (active : Mask) : Stop :=
  let first := match t.pendingFirst i with
    | some r => Stop.fault codePendRead active 0 r none .none
    | none => e
  match e with
  | .emptyPort _ _ => first
  | .fault _ _ _ _ (some _) _ => first
  | _ => e

/-- The comparator takes an event of a path: a mismatch stops the instruction (R385, R391). -/
def State.passEvent (s : State) (p : Path) (e : CmpEvent) : Exe State :=
  let r := s.noteEvent p.core e
  if r.2 then .ok r.1 else .error (.mismatch 0 r.1)

/-- The selected path is taken up (entry 2). -/
def State.unselect (s : State) : State := { s with cur := none }

/-- THE FRAME: REGBOUND (R59), region entry (R176) and stopping there, guard (R33), the
instruction's own body on a state in which the path has moved to the next instruction, and what
becomes of a body that stops (R134). -/
def runThread (i : Instr) (h : Head) (len : Nat) (body : Path → State → Exe State) (s : State) :
    Host.Outcome State Fault Refusal :=
  match s.cur with
  | none => .fault .noPath
  | some q =>
    let s0 := s.unselect
    match (s0.core q.core).troupe q.blk q.troupe with
    | none => .fault .noPath
    | some t0 =>
      match regBoundOf i t0.regs.length with
      | some r => .next (s0.takeFault q len codeRegBound q.lanes 0 r none .none)
      | none =>
        let p0 : Path := { at_ := q, active := 0, len := len }
        match if h.e then s0.regionEntry q else .ok s0 with
        | .error e => .next (s0.stopPath p0 e)
        | .ok s1 =>
          if h.e && s1.mustStop q then .next ((s1.haltLanes q.core q.blk q.troupe q.lanes).killCancelled q.core q.blk)
          else
            let p := { p0 with active := activeLanes (s1.troupe p0) h q.lanes }
            let s2 := (s1.advance p).markReads p (lastReads i (s1.troupe p) p.active)
            if p.active = 0 then .next s2
            else
              match body p s2 with
              | .ok s3 => .next (s3.logUndo q s1)
              | .error e => .next (s1.stopPath p (e.decided (s1.troupe p) i p.active))

/-- A decode fault of R59 found at the path's address, before any instruction is known. -/
def State.decodeStop (s : State) (q : Issue) (f : DecodeFault) : State :=
  let s := s.unselect
  match f with
  | .illegal => s.takeFault q 8 codeIllegal q.lanes 0 0 none .none
  | .boundary => s.takeFault q 8 codeBoundary q.lanes 0 0 none .none
  | .pairAlign r => s.takeFault q 8 codePairAlign q.lanes 0 r none .none

end Sys2Proof.Machine
end

