-- ==== Sys2Proof/Machine/Checks.lean ====
section
/-!
DEFINITION. The checks that R240 makes of every memory access, in its order of steps, and the
accesses themselves once they have passed (R16, R90, R98, R238, R250, R251).
-/
namespace Sys2Proof.Machine

/-- The address spaces of R238. -/
inductive Space where
  | global | priv | loc
  deriving DecidableEq, Repr

/-- One lane's access: its address or offset as its form gives it. -/
structure Want where
  lane : Nat
  addr : DWord
  deriving DecidableEq, Repr

/-- Why one lane fails a step. -/
structure Fail where
  code : Nat
  addr : DWord
  arg : Nat
  pages : List Nat
  key : Key
  deriving DecidableEq, Repr

/-- A failure with no detail. -/
def Fail.plain (code : Nat) (addr : DWord) : Fail := { code := code, addr := addr, arg := 0, pages := [], key := .none }

/-- Raise the code of the lowest failing lane, for the lanes that have that code (R183). The page
requests of all those lanes are awaited. -/
def raiseFirst (port : Option Nat) (fs : List (Nat × Option Fail)) : Exe Unit :=
  match fs.filterMap fun x => x.2.map fun f => (x.1, f) with
  | [] => .ok ()
  | (l, f) :: t =>
    let same := ((l, f) :: t).filter fun x => x.2.code == f.code
    let pages := same.flatMap fun x => x.2.pages
    .error (.fault f.code (Mask.ofTest fun n => same.any fun x => x.1 == n) f.addr f.arg port
      (if pages.isEmpty then f.key else .pages pages))

/-- Bits [63:57] equal bit 56 (R238). -/
def canonical (a : DWord) : Bool := bitsOf a.toNat 63 57 == (if a.getLsbD 56 then 127 else 0)

/-- Step 1 of R240: alignment, then the bounds of the space. -/
def boundsFail (space : Space) (size priv localSize : Nat) (a : DWord) : Option Fail :=
  if a.toNat % size ≠ 0 then some (.plain codeAlign a)
  else
    match space with
    | .global => if canonical a then none else some (.plain codeAccess a)
    | .priv => if a.toNat + size ≤ priv then none else some (.plain codeAccess a)
    | .loc => if a.toNat + size ≤ localSize then none else some (.plain codeLocalRange a)

/-- The pieces of one lane's access (R132, R238). -/
def pieces (space : Space) (size base privBase : Nat) (w : Want) : List Hit :=
  let o := w.addr.toNat
  match space with
  | .global => [{ lane := w.lane, va := o, size := size, x := none }]
  | .loc => [{ lane := w.lane, va := base + o, size := size, x := none }]
  | .priv =>
    if size = 8 then
      [{ lane := w.lane, va := privateAddr privBase w.lane o, size := 4, x := none },
       { lane := w.lane, va := privateAddr privBase w.lane (o + 4), size := 4, x := none }]
    else [{ lane := w.lane, va := privateAddr privBase w.lane o, size := size, x := none }]

/-- Step 3 of R240 for one piece: PAGEFAULT. -/
def pageFail (write : Bool) (h : Hit) (f : Option Fill) : Option Fail :=
  let bad : Fail :=
    { code := codePageFault, addr := BitVec.ofNat 64 h.va, arg := 0, pages := [h.va / 4096 * 4096], key := .none }
  match f with
  | some (.pageFault _) => some bad
  | some (.ok x) => if write && !x.writable then some bad else none
  | _ => none

/-- Step 3 of R240 for one piece: the ACCESS that the translation gives (R87, R126, R247, R431), and last
the ACCESS of an operation that R256 refuses on host memory. -/
def accessFail (run linkUp hostRefused barred : Bool) (h : Hit) (f : Option Fill) : Option Fail :=
  let bad := Fail.plain codeAccess (BitVec.ofNat 64 h.va)
  match f with
  | some (.access _) => some bad
  | some (.ok x) =>
    if (x.host && x.scope != 3) || (x.conf && !run) || (x.peer && !linkUp) || barred || (x.host && hostRefused) then some bad
    else none
  | _ => none

/-- A piece lies in the wings area of some core: no thread can address it through any translation (R126, R182). -/
def State.inWings (s : State) (h : Hit) (f : Option Fill) : Bool :=
  match f with
  | some (.ok x) =>
    !x.host && !x.peer && s.cores.any fun k =>
      decide (x.addr h.va < k.wingsBase + k.wingsSize) && decide (k.wingsBase < x.addr h.va + h.size)
  | _ => false

/-- The copy entries, lowest first, that register a sector of a range (R16): local, or global in the
address space of the owner. -/
def State.lockers (s : State) (c : Nat) (isLocal : Bool) (own : Nat × Nat) (r : Span) : List Nat :=
  (List.range Config.copyEntries).filter fun n =>
    match (s.core c).copies.getD n none with
    | some x =>
      if isLocal then x.locks.any fun y => sharesSector y r
      else s.ownerOf c x.blk == own && x.globals.any fun y => sharesSector y r
    | none => false

/-- Step 4 of R240 for one piece, with the copy entry that the record names. -/
def State.lockFail (s : State) (c : Nat) (isLocal : Bool) (own : Nat × Nat) (base entry : Nat) (h : Hit) : Option Fail :=
  match s.lockers c isLocal own { lo := h.va, hi := h.va + h.size } with
  | [] => none
  | _ :: _ =>
    some { code := codeRlock, addr := BitVec.ofNat 64 (if isLocal then h.va - base else h.va), arg := entry, pages := []
           key := .unlock isLocal (sectorOf h.va) }

/-- The lowest copy entry that registers a sector of some pieces (R16). -/
def State.lowestLocker (s : State) (c : Nat) (isLocal : Bool) (own : Nat × Nat) (hs : List Hit) : Nat :=
  let ns := hs.flatMap fun h => s.lockers c isLocal own { lo := h.va, hi := h.va + h.size }
  ns.foldl min (ns.headD 0)

/-- Step 5 of R240 for one piece. -/
def State.poisonFail (s : State) (h : Hit) : Option Fail :=
  match h.x with
  | some x => (s.poisonAt x h.va h.size).map fun sec =>
      { code := codePoison, addr := BitVec.ofNat 64 h.va, arg := 0, pages := [], key := .sector (x.repairOf sec) }
  | none => none

/-- The first failure of a lane's pieces. -/
def laneFail (hs : List Hit) (test : Hit → Option Fail) : Option Fail := hs.findSome? test

/-- The outcome that a completed fill of a page left for a lane that re-executes (R243). -/
def Core.outcomeFor (k : Core) (blk troupe lane va : Nat) : Option Fill :=
  (k.outcomes.find? fun o => o.blk == blk && o.troupe == troupe && o.lanes.has lane && match o.fill with
    | .pageFault a => a / 4096 == va / 4096
    | .access a => a / 4096 == va / 4096
    | .ok _ => false).map (·.fill)

/-- What a lane of a path has for an address: the core TLB's translation, or the outcome of the fill that it departed
for (R243). -/
def State.lookFor (s : State) (p : Path) (h : Hit) : Option Fill :=
  let k := s.core p.core
  match k.lookup (s.ownerOf p.core p.blk) h.va with
  | some x => some (.ok x)
  | none => k.outcomeFor p.blk p.at_.troupe h.lane h.va

/-- Translation of pieces (R240 steps 2 and 3, R243): a miss in any lane departs for every fill. -/
def State.translateHits (s : State) (p : Path) (port : Option Nat) (write hostRefused : Bool)
    (per : List (Nat × List Hit)) : Exe (List (Nat × List Hit)) := do
  let own := s.ownerOf p.core p.blk
  let look (h : Hit) : Option Fill := s.lookFor p h
  let missing := (per.flatMap (·.2)).filter fun h => (look h).isNone
  if !missing.isEmpty then .error (.fills ((missing.map fun h => h.va / 4096 * 4096).eraseDups))
  else
    let run := (s.part own.1).tdi == .run
    let up := s.link.state == 2 || s.link.state == 3
    raiseFirst port (per.map fun x => (x.1,
      (laneFail x.2 fun h => pageFail write h (look h)) <|>
      (laneFail x.2 fun h => accessFail run up hostRefused (s.inWings h (look h)) h (look h))))
    .ok (per.map fun x => (x.1, x.2.map fun h =>
      match look h with
      | some (.ok t) => { h with x := some t }
      | _ => h))

/-- The checks of R240, steps 1 to 4, for the accesses of an instruction, with the bound that private
offsets have; the pieces that pass. -/
def State.accessIn (s : State) (p : Path) (space : Space) (size : Nat) (write hostRefused : Bool)
    (privBound : Nat) (ws : List Want) : Exe (List Hit) := do
  let b := s.block p
  let own := s.ownerOf p.core p.blk
  raiseFirst none (ws.map fun w => (w.lane, boundsFail space size privBound b.size w.addr))
  let per := ws.map fun w => (w.lane, pieces space size b.base (b.privOf p.at_.troupe) w)
  let per ← if space = .loc then .ok per else s.translateHits p none write hostRefused per
  raiseFirst none (per.map fun x => (x.1,
    laneFail x.2 (s.lockFail p.core (space == .loc) own b.base (s.lowestLocker p.core (space == .loc) own x.2))))
  .ok (per.flatMap (·.2))

/-- The checks for a program's own accesses: private offsets stay below PRIVATE (R238). -/
def State.access (s : State) (p : Path) (space : Space) (size : Nat) (write hostRefused : Bool)
    (ws : List Want) : Exe (List Hit) := s.accessIn p space size write hostRefused (s.block p).priv ws

/-- Step 5 of R240, made when the data is read (R251). -/
def State.checkPoison (s : State) (hs : List Hit) : Exe Unit :=
  raiseFirst none (hs.map fun h => (h.lane, s.poisonFail h))

/-- The touched scope of each lane widens to its pages (R98). -/
def State.touchHits (s : State) (p : Path) (hs : List Hit) : State :=
  hs.foldl (fun s h =>
    match h.x with
    | some x => s.touch p.core p.blk p.at_.troupe (Mask.one h.lane) x.scope
    | none => s) s

/-- The bytes that each piece of a lane takes from the lane's value, low bytes first. -/
def pieceBytes (hs : List Hit) (v : Nat → Nat) : List (Hit × List Byte) :=
  hs.map fun h =>
    let before := ((hs.filter fun g => g.lane == h.lane).takeWhile fun g => g != h).map (·.size)
    (h, natToBytes h.size (v h.lane / 2 ^ (8 * before.foldl (· + ·) 0)))

/-- Bytes that a lane is about to write, in a deferred access of its own that awaits the rewrite of a poisoned sector:
they are kept as they stand (R89). -/
def State.keepFor (s : State) (c : Nat) (d : Deferred) (ws : List Hit) : Deferred :=
  if d.poison.isNone then d
  else
    { d with
      kept := ws.foldl (fun ks h =>
        match h.x with
        | some x =>
          (d.pieces.filter fun g => g.lane == h.lane && d.lanes.has g.lane).foldl (fun ks g =>
            match g.x with
            | some y =>
              let hit (i : Nat) : Bool :=
                x.host == y.host && x.peer == y.peer && decide (x.addr h.va ≤ y.addr (g.va + i)) &&
                  decide (y.addr (g.va + i) < x.addr h.va + h.size) && !ks.any fun k => k.1 == g.lane && k.2.1 == g.va + i
              ks ++ ((List.range g.size).filter hit).map fun i =>
                (g.lane, g.va + i, (s.keptBytes c d g).getD i 0)
            | none => ks) ks
        | none => ks) d.kept }

/-- The path's deferred accesses that await a rewrite keep the bytes that its writes change (R89). -/
def State.keepDeferred (s : State) (p : Path) (ws : List Hit) : State :=
  if (s.troupe p).deferred.any fun d => d.poison.isSome then
    s.mod p fun t => { t with deferred := t.deferred.map fun d => s.keepFor p.core d ws }
  else s

/-- The log of the path's troupe notes the old bytes of local stores, and that global memory is written (R193, R194). -/
def State.noteStores (s : State) (p : Path) (hs : List Hit) : State :=
  s.modCore p.core fun k =>
    k.noteWrites p.blk p.at_.troupe
      ((hs.filter (·.x.isNone)).flatMap fun h => (List.range h.size).map fun i => (h.va + i, k.mem.read (h.va + i)))
      (hs.any (·.x.isSome))

/-- Store a value for each lane at its pieces, in ascending lane order (R90): local bytes, or global
writes through the comparator. -/
def State.storeHits (s : State) (p : Path) (hs : List Hit) (v : Nat → Nat) (ord : Nat := 0) : Exe State :=
  let s := (s.keepDeferred p hs).noteStores p hs
  let bs := pieceBytes hs v
  let s := bs.foldl (fun s x =>
    match x.1.x with
    | some _ => s
    | none => (s.noteRace p.core x.1.va x.2.length).modCore p.core fun k => { k with mem := k.mem.writeBytes x.1.va x.2 }) s
  let ws := bs.filterMap fun x => x.1.x.map fun t => ({ x := t, va := x.1.va, bytes := x.2, ord := ord } : GWrite)
  match s.writeAll p.core ws with
  | (s', none) => .ok s'
  | (s', some va) => .error (.mismatch (BitVec.ofNat 64 va) s')

end Sys2Proof.Machine
end

