-- ==== Sys2Proof/Machine/Flags.lean ====
section
/-!
DEFINITION. The exception bits of %fstat (R170, R203), how an instruction accumulates them, and the
conditions of the compares (R155).
-/
namespace Sys2Proof.Machine

/-- The bits of %fstat (R170). -/
abbrev Flags := BitVec 7

/-- Invalid operation. -/
def flagIE : Flags := 0x01
/-- Overflow. -/
def flagOE : Flags := 0x02
/-- Underflow. -/
def flagUE : Flags := 0x04
/-- Inexact. -/
def flagXE : Flags := 0x08
/-- Division by zero. -/
def flagDZ : Flags := 0x10
/-- A value saturated. -/
def flagSAT : Flags := 0x20
/-- An exact-pair residual was rounded. -/
def flagXINEX : Flags := 0x40

/-- A flag when a condition holds. -/
def flagIf (c : Bool) (f : Flags) : Flags := if c then f else 0

/-- The OR of the flags of several lanes or elements (R203). -/
def orFlags (fs : List Flags) : Flags := fs.foldl (· ||| ·) 0

/-- The bits are sticky (R170, R203): an instruction only sets them. -/
def Troupe.orFstat (t : Troupe) (f : Flags) : Troupe := { t with fstat := t.fstat ||| f }

/-- The conditions of ICMP, ICMPI and KCMP on exact integers (R155). -/
def holds (cond : Nat) (x y : Int) : Bool :=
  match cond with
  | 0 => x == y
  | 1 => x != y
  | 2 => x < y
  | 3 => x ≤ y
  | 4 => x > y
  | _ => x ≥ y

end Sys2Proof.Machine
end

