-- ==== Sys2Proof/Machine/Operands.lean ====
section
/-!
DEFINITION. How operands are read and results delivered: permutations (R53, R54), the source checks
(R117), stream pops and pushes (R265 to R268), last reads are in the frame (Ops.lean), pairs and
groups (R46), indexed names (R45), and destinations (R115, R119).
-/
namespace Sys2Proof.Machine

/-- The tag codes of R115. -/
def Tag.code : Tag → Nat
  | .undef => 0 | .i32 => 1 | .n32 => 2 | .f32 => 3 | .f16x2 => 4 | .bf16x2 => 5 | .i16x2 => 6
  | .i8x4 => 7 | .n8x4 => 8 | .bx8x4 => 9 | .bx4x8 => 10 | .i64l => 11 | .i64h => 12 | .dfh => 13
  | .dfl => 14 | .raw => 15

/-- The tag of a code (R115). -/
def tagOf (n : Nat) : Tag :=
  match n with
  | 1 => .i32 | 2 => .n32 | 3 => .f32 | 4 => .f16x2 | 5 => .bf16x2 | 6 => .i16x2 | 7 => .i8x4
  | 8 => .n8x4 | 9 => .bx8x4 | 10 => .bx4x8 | 11 => .i64l | 12 => .i64h | 13 => .dfh | 14 => .dfl
  | 15 => .raw | _ => .undef

/-- A source as read: its tag and its value in each lane. -/
structure Operand where
  tag : Tag
  lanes : List Word
  deriving DecidableEq, Repr

/-- The operand's value in a lane. -/
def Operand.at (o : Operand) (l : Nat) : Word := o.lanes.getD l 0

/-! ### Permutations (R53, R54) -/

/-- The source lane of lane `l`, or none. -/
def permSource (perm l : Nat) : Option Nat :=
  let n := perm / 8
  match perm % 8 with
  | 1 => some ((l + n) % 64)
  | 2 => some n
  | 3 => some (l ^^^ n)
  | 4 => some (l ^^^ (2 ^ n - 1))
  | 5 => if n ≤ l then some (l - n) else none
  | _ => some l

/-- A register's value in each lane under a permutation; lanes not present give zero. -/
def Troupe.permuted (t : Troupe) (r perm : Nat) : List Word :=
  laneNumbers.map fun l =>
    match permSource perm l with
    | some s => if t.present s then (t.reg r).at s else 0
    | none => 0

/-! ### The checks of R117 -/

/-- A fault of a register operand, in every active lane. -/
def regFault (p : Path) (code arg : Nat) : Exe Unit := .error (.fault code p.active 0 arg none .none)

/-- DEADREAD, PENDREAD, then TAGFAULT, over the registers of one source. `tags` gives for each
register the tags accepted; `k` is the operand's place A, B or C. -/
def Troupe.checkSource (t : Troupe) (p : Path) (k : Nat) (rs : List (Nat × (Tag → Bool))) : Exe Unit :=
  match rs.find? fun r => (t.reg r.1).dead with
  | some r => regFault p codeDeadRead r.1
  | none =>
    match rs.find? fun r => t.pending r.1 with
    | some r => regFault p codePendRead r.1
    | none =>
      match rs.find? fun r => !r.2 (t.reg r.1).tag with
      | some r => regFault p codeTagFault ((t.reg r.1).tag.code + 16 * k)
      | none => .ok ()

/-- PENDREAD over the registers that an instruction writes. -/
def Troupe.checkDest (t : Troupe) (p : Path) (rs : List Nat) : Exe Unit :=
  match rs.find? fun r => t.pending r with
  | some r => regFault p codePendRead r
  | none => .ok ()

/-! ### Read ports (R265, R266, R268) -/

/-- The port that a field names. -/
def portOf (v : Nat) : Option Nat := if isPort v then some (v - 2040) else none

/-- STREAM for a port of a path. -/
def streamFault (p : Path) (q : Nat) : Exe Nat := .error (.fault codeStream p.active 0 0 (some q) .none)

/-- The context bound to a port for the given direction (R267). -/
def State.boundCtx (s : State) (p : Path) (q : Nat) (write : Bool) : Exe Nat :=
  match (s.core p.core).ctxOf p.blk p.at_.troupe q with
  | some n => if ((s.core p.core).ctx n).write == write then .ok n else streamFault p q
  | none => streamFault p q

/-- What the `j`-th pop of an instruction finds in a lane. -/
inductive Pop where
  | value (w : Word) (scope : BitVec 2)
  | ended
  | fault (code : Nat) (addr : DWord) (sector : Nat)
  | empty
  deriving DecidableEq, Repr

/-- The `j`-th element from a lane's position (R265). A fault recorded before it hides it. -/
def Ctx.popAt (x : Ctx) (l j : Nat) : Pop :=
  let y := x.lane l
  let earlier := (y.ahead.take j).findSome? fun f => match f with
    | .fault c a s => some (Pop.fault c a s)
    | _ => none
  match earlier with
  | some f => f
  | none =>
    if x.pat.length.toNat ≤ y.pos.toNat + j then .ended
    else
      match y.ahead[j]? with
      | some (.value w sc) => .value w sc
      | some (.fault c a s) => .fault c a s
      | none => .empty

/-- The ports among the source fields, in operand order, each with the number of pops before it. -/
def portReads : List Nat → List (Nat × Nat)
  | fields =>
    (List.range fields.length).filterMap fun i =>
      (portOf (fields.getD i 0)).map fun q => (q, ((fields.take i).filter fun v => v == q + 2040).length)

/-- The ports of the sources are bound for reading, hold what is popped, and meet no recorded fault:
else STREAM, a departure (R266), or the element's fault (R268). -/
def State.portsReady (s : State) (p : Path) (fields : List Nat) : Exe Unit := do
  let reads ← (portReads fields).mapM fun r => do
    let n ← s.boundCtx p r.1 false
    pure (r.1, n, r.2)
  let k := s.core p.core
  let empty := reads.filter fun r => p.active.lanes.any fun l => (k.ctx r.2.1).popAt l r.2.2 == .empty
  if !empty.isEmpty then
    .error (.emptyPort (reads.map fun r => (r.2.1, r.2.2 + 1)) p.active)
  else
    reads.forM fun r =>
      raiseFirst (some r.1) (p.active.lanes.map fun l => (l,
        match (k.ctx r.2.1).popAt l r.2.2 with
        | .fault c a sec => some
            { code := c, addr := a, arg := 0
              pages := if c = codePageFault then [a.toNat / 4096 * 4096] else []
              key := if c = codePoison then .sector sec else .none }
        | _ => none))

/-- Advance a lane past `n` pops (R265). -/
def CtxLane.popN (y : CtxLane) (len n : Nat) : CtxLane :=
  let took := min n (len - y.pos.toNat)
  { y with
    pos := y.pos + BitVec.ofNat 32 took, ahead := y.ahead.drop took
    eos := y.eos || took < n }

/-- The widest scope of the elements that a lane pops (R98). -/
def popScope (x : Ctx) (l n : Nat) : BitVec 2 :=
  ((x.lane l).ahead.take n).foldl (fun a f => match f with
    | .value _ sc => if a.toNat < sc.toNat then sc else a
    | _ => a) 0

/-- Commit the pops of an instruction for its active lanes. -/
def State.popPorts (s : State) (p : Path) (fields : List Nat) : State :=
  let ports := ((portReads fields).map (·.1)).eraseDups
  ports.foldl
    (fun s q =>
      match (s.core p.core).ctxOf p.blk p.at_.troupe q with
      | none => s
      | some n =>
        let x := (s.core p.core).ctx n
        let count := ((portReads fields).filter fun r => r.1 == q).length
        let s := p.active.lanes.foldl
          (fun s l => s.touch p.core p.blk p.at_.troupe (Mask.one l) (popScope x l count)) s
        s.modCore p.core fun k => k.modCtx n fun x => x.modLanes p.active fun _ y =>
          y.popN x.pat.length.toNat count) s

/-! ### Sources -/

/-- Read source `i` of the fields of an instruction: a port's elements or a permuted register. -/
def State.operand (s : State) (p : Path) (fields : List Nat) (i perm : Nat) (accept : Tag → Bool) :
    Exe Operand := do
  let v := fields.getD i 0
  match portOf v with
  | some q =>
    let n ← s.boundCtx p q false
    let x := (s.core p.core).ctx n
    let j := ((fields.take i).filter fun w => w == v).length
    let tag := kindTag x.pat.fmt
    if accept tag then
      pure { tag := tag
             lanes := laneNumbers.map fun l => match x.popAt l j with
               | .value w _ => w
               | _ => 0 }
    else .error (.fault codeTagFault p.active 0 (tag.code + 16 * i) none .none)
  | none =>
    let t := s.troupe p
    t.checkSource p i [(v, accept)]
    pure { tag := (t.reg v).tag, lanes := t.permuted v perm }

/-- Read a register group whose tags must be as given (R46, R116). -/
def State.operandGroup (s : State) (p : Path) (i v perm : Nat) (tags : List Tag) : Exe (List Operand) := do
  let t := s.troupe p
  t.checkSource p i ((List.range tags.length).map fun n => (v + n, fun g => g == tags.getD n .undef))
  pure ((List.range tags.length).map fun n => { tag := tags.getD n .undef, lanes := t.permuted (v + n) perm })

/-- The register checks of one source, or the tag check of its port (R116, R117). -/
def State.checkOperand (s : State) (p : Path) (i v : Nat) (accept : Tag → Bool) : Exe Unit :=
  match portOf v with
  | some q =>
    match (s.core p.core).ctxOf p.blk p.at_.troupe q with
    | some n =>
      let x := (s.core p.core).ctx n
      let tag := kindTag x.pat.fmt
      if x.write || accept tag then .ok () else .error (.fault codeTagFault p.active 0 (tag.code + 16 * i) none .none)
    | none => .ok ()
  | none => (s.troupe p).checkSource p i [(v, accept)]

/-- The checks of sources in operand order, from place `i` on. -/
def State.checkOperands (s : State) (p : Path) : Nat → List (Nat × (Tag → Bool)) → Exe Unit
  | _, [] => .ok ()
  | i, f :: t => do
    s.checkOperand p i f.1 f.2
    State.checkOperands s p (i + 1) t

/-- The checks of every source come before what any port does (R117, R134). -/
def State.sources (s : State) (p : Path) (fs : List (Nat × (Tag → Bool))) : Exe Unit := do
  s.checkOperands p 0 fs
  s.portsReady p (fs.map (·.1))

/-- One source. -/
def State.read1 (s : State) (p : Path) (a pa : Nat) (acc : Tag → Bool) : Exe Operand := do
  s.sources p [(a, acc)]
  s.operand p [a] 0 pa acc

/-- Two sources. -/
def State.read2 (s : State) (p : Path) (a pa : Nat) (accA : Tag → Bool) (b pb : Nat) (accB : Tag → Bool) :
    Exe (Operand × Operand) := do
  s.sources p [(a, accA), (b, accB)]
  let x ← s.operand p [a, b] 0 pa accA
  let y ← s.operand p [a, b] 1 pb accB
  pure (x, y)

/-- Three sources, the first and last under one test. -/
def State.read3 (s : State) (p : Path) (a pa : Nat) (b pb : Nat) (c pc : Nat) (acc accB : Tag → Bool) :
    Exe (Operand × Operand × Operand) := do
  s.sources p [(a, acc), (b, accB), (c, acc)]
  let x ← s.operand p [a, b, c] 0 pa acc
  let y ← s.operand p [a, b, c] 1 pb accB
  let z ← s.operand p [a, b, c] 2 pc acc
  pure (x, y, z)

/-- A pair source, low register first. -/
def State.readPair (s : State) (p : Path) (i v perm : Nat) (lo hi : Tag) : Exe (Operand × Operand) := do
  let t := s.troupe p
  t.checkSource p i [(v, fun g => g == lo), (v + 1, fun g => g == hi)]
  pure ({ tag := lo, lanes := t.permuted v perm }, { tag := hi, lanes := t.permuted (v + 1) perm })

/-- A 64-bit value of a pair in a lane. -/
def pairAt (x : Operand × Operand) (l : Nat) : DWord := joinWords (x.1.at l) (x.2.at l)

/-! ### Write ports (R263, R267) -/

/-- Address of the element at position `n` of lane `l` (R263). -/
def Pattern.offset (p : Pattern) (kbase : DWord) (l n : Nat) : DWord :=
  let rec dims : Nat → List Word → List Word → Nat → DWord
    | 0, _, _, _ => 0
    | d + 1, e, st, r =>
      let ex := (e.headD 0).toNat
      BitVec.ofNat 64 (r % ex) * (st.headD 0).signExtend 64 + dims d e.tail st.tail (r / ex)
  p.base + kbase + BitVec.ofNat 64 l * p.lstride.signExtend 64 + dims p.ndim p.ext p.str n

/-- The address at which an element of a context is accessed, checked and translated (R240, R263,
R268): its pieces with their translations. -/
def State.elementHits (s : State) (p : Path) (q n : Nat) (write : Bool) (ls : List Nat) : Exe (List Hit) := do
  let x := (s.core p.core).ctx n
  let b := s.block p
  let space : Space := if x.pat.isLocal then .loc else if x.pat.priv then .priv else .global
  let size := kindSize x.pat.fmt
  let ws : List Want := ls.map fun l => { lane := l, addr := x.pat.offset x.kbase l (x.lane l).pos.toNat }
  raiseFirst (some q) (ws.map fun w => (w.lane, boundsFail space size b.priv b.size w.addr))
  let per := ws.map fun w => (w.lane, pieces space size b.base (b.privOf p.at_.troupe) w)
  let per ← if space = .loc then .ok per else s.translateHits p (some q) write false per
  .ok (per.flatMap (·.2))

/-- Push a result for each active lane (R267): the direction, the tag, the room of 16 held pushes,
then the address; a lane past LENGTH discards its element and sets EOS. -/
def State.push (s : State) (p : Path) (q : Nat) (tag : Tag) (v : Nat → Word) : Exe State := do
  let n ← s.boundCtx p q true
  let x := (s.core p.core).ctx n
  let inside := p.active.lanes.filter fun l => (x.lane l).pos.toNat < x.pat.length.toNat
  if !kindAccepts x.pat.fmt tag then
    let _ ← streamFault p q
    .ok s
  else
    let full := inside.filter fun l => 16 ≤ (x.lane l).held.length
    if !full.isEmpty then
      .error (.fault codeStream (Mask.ofTest fun l => full.contains l) 0 0 (some q) .none)
    else
      let hs ← s.elementHits p q n true inside
      .ok (s.modCore p.core fun k => { (k.modCtx n fun x => x.modLanes p.active fun l y =>
        match hs.find? fun h => h.lane == l with
        | some h =>
          { y with
            pos := y.pos + 1, freshPushes := y.freshPushes + 1
            held := y.held ++ [{ addr := BitVec.ofNat 64 h.va, data := v l, seq := k.pushSeq, waiting := false }] }
        | none => { y with eos := true }) with pushSeq := k.pushSeq + 1 })

/-! ### Destinations -/

/-- The destination check of R117 for a register or port field. -/
def State.checkDst (s : State) (p : Path) (d : Nat) : Exe Unit :=
  match portOf d with
  | some q => (s.boundCtx p q true).map fun _ => ()
  | none => (s.troupe p).checkDest p [d]

/-- Deliver a result: into the active lanes of a register, or as pushes. -/
def State.put (s : State) (p : Path) (d : Nat) (tag : Tag) (v : Nat → Word) : Exe State :=
  match portOf d with
  | some q => s.push p q tag v
  | none => .ok (s.mod p fun t => t.writeReg d p.active tag v)

/-- Write a register group with one tag each. -/
def State.putGroup (s : State) (p : Path) (d : Nat) (vs : List (Tag × (Nat → Word))) : State :=
  s.mod p fun t => (vs.mapIdx fun n v => (n, v)).foldl (fun t x => t.writeReg (d + x.1) p.active x.2.1 x.2.2) t

/-- OR exceptions into %fstat (R203). -/
def State.orFstat (s : State) (p : Path) (f : Flags) : State := s.mod p fun t => t.orFstat f

/-- The end of an instruction with one result: the destination check, the pops, the result, and the
exceptions of its active lanes. -/
def State.finish (s : State) (p : Path) (fields : List Nat) (d : Nat) (tag : Tag) (v : Nat → Word)
    (fl : Nat → Flags) : Exe State := do
  s.checkDst p d
  let s' ← (s.popPorts p fields).put p d tag v
  .ok (s'.orFstat p (orFlags (p.active.lanes.map fl)))

/-- The end of an instruction whose result is a register group. -/
def State.finishGroup (s : State) (p : Path) (fields : List Nat) (d : Nat) (vs : List (Tag × (Nat → Word)))
    (fl : Nat → Flags) : Exe State := do
  (s.troupe p).checkDest p (List.range' d vs.length)
  .ok (((s.popPorts p fields).putGroup p d vs).orFstat p (orFlags (p.active.lanes.map fl)))

/-- No exception. -/
def noFlags (_ : Nat) : Flags := 0

/-- A 64-bit result as the two registers of a pair. -/
def asPair (lo hi : Tag) (v : Nat → DWord) : List (Tag × (Nat → Word)) :=
  [(lo, fun l => loWord (v l)), (hi, fun l => hiWord (v l))]

/-- Write a 64-bit value as a pair, low half first. -/
def State.putPair (s : State) (p : Path) (d : Nat) (lo hi : Tag) (v : Nat → DWord) : State :=
  s.putGroup p d [(lo, fun l => loWord (v l)), (hi, fun l => hiWord (v l))]

/-- Write a predicate in the active lanes (R114). -/
def State.putPred (s : State) (p : Path) (d : Nat) (v : Nat → Bool) : State :=
  s.mod p fun t => t.modLanes p.active fun l x => x.setPred d (v l)

/-- A predicate in a lane of the path's troupe. -/
def State.predAt (s : State) (p : Path) (n l : Nat) : Bool := ((s.troupe p).lane l).pred n

/-- A uniform register of the path's troupe. -/
def State.kAt (s : State) (p : Path) (n : Nat) : DWord := (s.troupe p).kreg n

/-- The path's rounding code: the static one, or %fmode at issue (R50, R217). -/
def State.rounding (s : State) (p : Path) (m : BitVec 6) : Nat :=
  if modRnd m = 0 then (s.troupe p).fmode.toNat else modRnd m

/-- A fault of the active lanes with a detail. -/
def activeFault (p : Path) (code arg : Nat) : Exe State := .error (.fault code p.active 0 arg none .none)

/-- The troupe runs in debug mode: %dbg.DEBUG (R170). -/
def State.debugOf (s : State) (p : Path) : Bool :=
  match s.launchOf p.core p.blk with
  | some l => l.debug
  | none => false

/-- A matched atomic or release keeps its block from block retry (R392). -/
def State.noteSync (s : State) (p : Path) (yes : Bool) : State :=
  if yes && s.checkedCore p.core then s.modPathBlock p fun b => { b with matchedSync := true } else s

/-- An operation that ends its region and performs once (R68, R100): no retry unwinds its lanes past it (R404). -/
def State.sealRegion (s : State) (p : Path) (yes : Bool) : State :=
  if yes then s.modCore p.core fun k => k.modLog p.blk p.at_.troupe fun u => { u with sealed := u.sealed ||| p.at_.lanes }
  else s

/-! ### Indexed names (R45, R158) -/

/-- IDXFAULT for the lowest lane whose name is out of bounds. -/
def Troupe.checkIndexed (t : Troupe) (p : Path) (v : Nat) : Exe Unit :=
  raiseFirst none (p.active.lanes.map fun l =>
    let n := t.indexed v l
    (l, if n.2 then none
        else some { code := codeIdxFault, addr := 0, arg := n.1, pages := [], key := .none }))

end Sys2Proof.Machine
end

