-- ==== Sys2Proof/Machine/Barrier.lean ====
section
/-!
DEFINITION. Barrier objects and rings: the barrier unit (R294 to R298) and the instructions that
reach it (R309 to R315).
-/
namespace Sys2Proof.Machine

/-! ### Barrier objects (R294, R295) -/

/-- Word `n` of the object at a local address. -/
def Memory.barWord (m : Memory) (a n : Nat) : Nat := m.readNat (a + 4 * n) 4

/-- A barrier object's fields. -/
structure BarObj where
  bytes : Nat
  arrived : Nat
  atarget : Nat
  /-- Word +8: ERR, SAT, ARMED and PHASE. -/
  flags : Nat
  reload : Nat
  deriving DecidableEq, Repr

/-- The object at a local address. -/
def BarObj.read (m : Memory) (a : Nat) : BarObj :=
  { bytes := m.barWord a 0, arrived := m.barWord a 1 / 65536, atarget := m.barWord a 1 % 65536
    flags := m.barWord a 2, reload := m.barWord a 3 }

/-- Write the object at a local address. -/
def BarObj.write (o : BarObj) (m : Memory) (a : Nat) : Memory :=
  (((m.writeNat a 4 o.bytes).writeNat (a + 4) 4 (o.atarget + 65536 * o.arrived)).writeNat (a + 8) 4
    o.flags).writeNat (a + 12) 4 o.reload

/-- A bit of word +8 is set. -/
def BarObj.bit (o : BarObj) (n : Nat) : Bool := bitsOf o.flags n n == 1
/-- Set a bit of word +8. -/
def BarObj.set (o : BarObj) (n : Nat) : BarObj := { o with flags := o.flags ||| 2 ^ n }

def bitPhase : Nat := 0
def bitArmed : Nat := 1
def bitSat : Nat := 2
/-- The flags of ERR, as bit numbers of word +8. -/
def flagSeal : Nat := 8
def flagXlate : Nat := 9
def flagPoison : Nat := 10
def flagGcmTag : Nat := 11
def flagOwner : Nat := 12
def flagCancel : Nat := 13
def flagRange : Nat := 14

/-- The updates of R295. -/
inductive BarUpdate where
  | copyBytes (n : Nat) (sat : Bool)
  | copyFlag (bit : Nat)
  | expect (n : Nat)
  | arrive (n : Nat)
  deriving DecidableEq, Repr

/-- The effect of an update on an armed object, before the flip test. -/
def BarObj.effect (o : BarObj) : BarUpdate → BarObj
  | .copyBytes n sat =>
    let o := if sat then o.set bitSat else o
    if o.bytes < n then { (o.set flagRange) with bytes := 0 } else { o with bytes := o.bytes - n }
  | .copyFlag b => { (o.set b) with bytes := 0 }
  | .expect n => { o with bytes := (o.bytes + n) % 2 ^ 32 }
  | .arrive n => { o with arrived := min (o.arrived + n) 65535 }

/-- The flip test: the object, and whether it flipped. -/
def BarObj.flip (o : BarObj) : BarObj × Bool :=
  if o.bytes = 0 && o.atarget ≤ o.arrived then
    ({ o with flags := o.flags ^^^ 1, bytes := o.reload, arrived := 0 }, true)
  else (o, false)

/-- One update by the barrier unit (R295): the object, and whether it flipped. -/
def BarObj.update (o : BarObj) (u : BarUpdate) : BarObj × Bool :=
  if o.bit bitArmed then (o.effect u).flip else (o.set flagRange, false)

/-! ### Rings (R297, R298) -/

/-- A ring header: where it is, and its fields. -/
structure Ring where
  addr : Nat
  nslotByte : Nat
  slotSize : Nat
  slotOff : Nat
  barOff : Nat
  deriving DecidableEq, Repr

/-- The header of ring `j` of a block. -/
def Block.ring (b : Block) (m : Memory) (j : Nat) : Ring :=
  let a := b.base + 16 * b.barriers + 32 * j
  { addr := a, nslotByte := m.readNat a 1, slotSize := m.readNat (a + 4) 4, slotOff := m.readNat (a + 8) 4
    barOff := m.readNat (a + 12) 4 }

/-- Slots of a ring. -/
def Ring.nslot (r : Ring) : Nat := r.nslotByte % 32
/-- Window offset of the full barrier of a slot. -/
def Ring.fullOff (r : Ring) (s : Nat) : Nat := r.barOff + 32 * s
/-- Window offset of the empty barrier of a slot. -/
def Ring.emptyOff (r : Ring) (s : Nat) : Nat := r.barOff + 32 * s + 16

/-- Slot `s` of ring `j` is full (R298). -/
def Block.slotFull (b : Block) (m : Memory) (j s : Nat) : Bool :=
  let r := b.ring m j
  (BarObj.read m (b.base + r.fullOff s)).bit bitPhase != (BarObj.read m (b.base + r.emptyOff s)).bit bitPhase

/-! ### Flips (R295) -/

/-- A record waits on the object at window offset `off`: an AWAIT's object, or the full barrier of an
AWAITF's slot, once the slot is full. -/
def Block.wokenBy (b : Block) (m : Memory) (off : Nat) : Key → Bool
  | .barrier o => o == off
  | .ring j s => (b.ring m j).fullOff s == off && b.slotFull m j s
  | _ => false

/-- A flip wakes the block's records that wait on the object; each takes SAT as it becomes ready. -/
def Core.wakeFlip (k : Core) (blk : Nat) (b : Block) (off : Nat) : Core :=
  let sat := (BarObj.read k.mem (b.base + off)).bit bitSat
  let hit (r : CueRec) : Bool := r.blk == blk && b.wokenBy k.mem off r.key
  let k := { k with cue := k.cue.map fun r => if hit r && !r.ready then { r with sat := sat } else r }
  k.markReadyWhere hit

/-- A flip of the full or the empty barrier of a ring slot raises WIDX or RIDX of its ring (R298). -/
def Core.countFlip (k : Core) (b : Block) (off : Nat) : Core :=
  (List.range b.rings).foldl
    (fun (k : Core) j =>
      let r := b.ring k.mem j
      let o := off - r.barOff
      if r.barOff ≤ off && o < 32 * r.nslot && r.nslot ≤ 16 && o % 16 == 0 then
        let x := r.addr + (if o % 32 = 0 then 16 else 20)
        { k with mem := k.mem.writeNat x 4 (k.mem.readNat x 4 + 1) }
      else k) k

/-- What a flip of the object at window offset `off` does. -/
def Core.flipped (k : Core) (blk : Nat) (b : Block) (off : Nat) : Core := (k.countFlip b off).wakeFlip blk b off

/-- The object at window offset `off` replaced, with what follows a flip; an object that does not lie in
the block's window does not exist, and an update of it is discarded (entry 13). -/
def State.putBarrier (s : State) (c blk off : Nat) (f : BarObj → BarObj × Bool) : State :=
  match (s.core c).block blk with
  | none => s
  | some b =>
    if b.size < off + 16 then s
    else
      let r := f (BarObj.read (s.core c).mem (b.base + off))
      s.modCore c fun k =>
        let k := { k with mem := r.1.write k.mem (b.base + off) }
        if r.2 then k.flipped blk b off else k

/-- An update of the object at window offset `off` of a block (R295). -/
def State.barrierUpdate (s : State) (c blk off : Nat) (u : BarUpdate) : State := s.putBarrier c blk off fun o => o.update u

/-- Set the object at window offset `off` (R311, R314), with the flip test where BINIT makes it. -/
def State.barrierInit (s : State) (c blk off bytes atarget : Nat) (test : Bool) : State :=
  s.putBarrier c blk off fun _ =>
    let o : BarObj := { bytes := bytes, arrived := 0, atarget := atarget, flags := 2, reload := bytes }
    if test then o.flip else (o, false)

/-- An arrival on the empty barrier of a ring slot (R299, R315): on a slot that is not full it sets
RANGE and nothing else. -/
def State.releaseSlot (s : State) (c blk j slot : Nat) : State :=
  match (s.core c).block blk with
  | none => s
  | some b =>
    let m := (s.core c).mem
    let off := (b.ring m j).emptyOff slot
    if b.slotFull m j slot then s.barrierUpdate c blk off (.arrive 1)
    else s.putBarrier c blk off fun o => (o.set flagRange, false)

/-- A copy's completion signals its barrier object or the full barrier of its ring slot (R293). -/
def State.signalCopy (s : State) (c blk : Nat) (sync : Byte) (u : BarUpdate) : State :=
  match (s.core c).block blk with
  | none => s
  | some b =>
    let off :=
      if sync.getLsbD 7 then (b.ring (s.core c).mem (sync.toNat / 16 % 8)).fullOff (sync.toNat % 16)
      else 16 * (sync.toNat % 64)
    s.barrierUpdate c blk off u

/-! ### Checks (R296, R310) -/

/-- A fault of the path with an address. -/
def pathFault (p : Path) (code : Nat) (addr : DWord) : Exe Unit := .error (.fault code p.active addr 0 none .none)

/-- The window offset of barrier object `n` (R71), or ILLEGAL. -/
def State.barrierOff (s : State) (p : Path) (n : Nat) : Exe Nat := do
  if (s.block p).barriers ≤ n then pathFault p codeIllegal 0
  .ok (16 * n)

/-- The ring of a slot, checked in the order of R310. -/
def State.ringSlot (s : State) (p : Path) (j slot : Nat) : Exe Ring := do
  let b := s.block p
  let r := b.ring (s.core p.core).mem j
  if b.rings ≤ j || r.nslot ≤ slot then pathFault p codeIllegal 0
  if b.size < r.slotOff + r.nslot * r.slotSize || b.size < r.barOff + 32 * r.nslot then pathFault p codeLocalRange 0
  .ok r

/-- SATTRAP (R296). -/
def State.satTrap (s : State) (p : Path) (off : Nat) : Exe Unit :=
  let t := s.troupe p
  if t.satt && (t.fstat.getLsbD 5 || (BarObj.read (s.core p.core).mem ((s.block p).base + off)).bit bitSat) then
    pathFault p codeSatTrap 0
  else .ok ()

/-- Object number of a barrier instruction. -/
def XForm.bar (f : XForm) : Nat := f.imm.toNat % 64
/-- Ring number of a ring instruction. -/
def XForm.ringNo (f : XForm) : Nat := f.imm.toNat % 8
/-- Slot number of a ring instruction. -/
def XForm.slotNo (f : XForm) : Nat := f.imm.toNat / 256 % 16
/-- The k-register form. -/
def XForm.ks (f : XForm) : Bool := f.sub.getLsbD 0

/-! ### Instructions (R311 to R315) -/

/-- BINIT (R311). -/
def execBinit (h : Head) (f : XForm) (s : State) : Host.Outcome State Fault Refusal :=
  runThread (.binit h f) h 16 (fun p s => do
    let off ← s.barrierOff p (XForm.bar f)
    .ok (s.barrierInit p.core p.blk off f.immB.toNat (f.imm.toNat / 65536) true)) s

/-- EXPECT (R312). -/
def execExpect (h : Head) (f : XForm) (s : State) : Host.Outcome State Fault Refusal :=
  runThread (.expect h f) h 16 (fun p s => do
    let off ← s.barrierOff p (XForm.bar f)
    let n := if XForm.ks f then (s.kAt p f.ka.toNat).toNat else f.immB.toNat
    .ok (s.barrierUpdate p.core p.blk off (.expect n))) s

/-- ARRIVE (R296, R312). -/
def execArrive (h : Head) (f : XForm) (s : State) : Host.Outcome State Fault Refusal :=
  runThread (.arrive h f) h 16 (fun p s => do
    let off ← s.barrierOff p (XForm.bar f)
    let n := f.immB.toNat % 65536
    if n = 0 then pathFault p codeIllegal 0
    s.satTrap p off
    .ok (s.barrierUpdate p.core p.blk off (.arrive n))) s

/-- Depart on an object, ready at once when it already holds what the record awaits, and then with
SAT taken at issue (R295, R313, R315). -/
def State.departOn (s : State) (p : Path) (key : Key) (off : Nat) (now : Bool) : Exe State := do
  let rid := s.nextId
  let sat := now && (BarObj.read (s.core p.core).mem ((s.block p).base + off)).bit bitSat
  let s ← s.depart p key p.next 0 fun r => { r with sat := sat }
  .ok (if now then s.readyNow p.core fun r => r.rid == rid else s)

/-- AWAIT (R296, R313). -/
def execAwait (h : Head) (f : XForm) (s : State) : Host.Outcome State Fault Refusal :=
  runThread (.await h f) h 16 (fun p s => do
    let off ← s.barrierOff p (XForm.bar f)
    s.satTrap p off
    let ph := if XForm.ks f then (s.kAt p f.ka.toNat).getLsbD 0 else f.immB.getLsbD 0
    let o := BarObj.read (s.core p.core).mem ((s.block p).base + off)
    s.departOn p (.barrier off) off (o.bit bitPhase != ph)) s

/-- RINIT (R314). -/
def execRinit (h : Head) (f : XForm) (s : State) : Host.Outcome State Fault Refusal :=
  runThread (.rinit h f) h 16 (fun p s => do
    let j := XForm.ringNo f
    let b := s.block p
    let r := b.ring (s.core p.core).mem j
    let consumers := f.imm.toNat / 65536
    let n := r.nslotByte
    if b.rings ≤ j || consumers = 0 || f.immB = 0 || n = 0 || 16 < n || r.slotSize = 0 then pathFault p codeIllegal 0
    if b.size < r.slotOff + n * r.slotSize || b.size < r.barOff + 32 * n then pathFault p codeLocalRange 0
    if r.slotSize % 64 ≠ 0 || r.slotOff % 64 ≠ 0 || r.barOff % 16 ≠ 0 then pathFault p codeAlign 0
    let s := s.modCore p.core fun k => { k with mem := (k.mem.writeNat (r.addr + 16) 4 0).writeNat (r.addr + 20) 4 0 }
    .ok ((List.range n).foldl (fun s i =>
      (s.barrierInit p.core p.blk (r.fullOff i) f.immB.toNat 0 false).barrierInit p.core p.blk (r.emptyOff i) 0
        consumers false) s)) s

/-- AWAITF (R315). -/
def execAwaitf (h : Head) (f : XForm) (s : State) : Host.Outcome State Fault Refusal :=
  runThread (.awaitf h f) h 16 (fun p s => do
    let j := XForm.ringNo f
    let i := XForm.slotNo f
    let r ← s.ringSlot p j i
    s.departOn p (.ring j i) (r.fullOff i) ((s.block p).slotFull (s.core p.core).mem j i)) s

/-- RELSLOT (R315). -/
def execRelslot (h : Head) (f : XForm) (s : State) : Host.Outcome State Fault Refusal :=
  runThread (.relslot h f) h 16 (fun p s => do
    let _ ← s.ringSlot p (XForm.ringNo f) (XForm.slotNo f)
    .ok (s.releaseSlot p.core p.blk (XForm.ringNo f) (XForm.slotNo f))) s

end Sys2Proof.Machine
end

