-- ==== Sys2Proof/Machine/Crypto.lean ====
section
/-!
DEFINITION. The cryptographic functions that the spec names: AES-256-GCM decryption (R301), SHA-256
and the verification of an LMS signature with LMS_SHA256_M32_H20 and LMOTS_SHA256_N32_W8 (R83, R381).
-/
namespace Sys2Proof.Machine

/-! ### AES-256 -/

/-- Multiplication by x in the field of AES. -/
def gfDouble (a : Byte) : Byte := if a.getLsbD 7 then (a <<< 1) ^^^ 0x1B else a <<< 1

/-- Multiplication in the field of AES. -/
def gfMul (a b : Byte) : Byte :=
  ((List.range 8).foldl (fun (x : Byte × Byte) i => (if b.getLsbD i then x.1 ^^^ x.2 else x.1, gfDouble x.2)) (0, a)).1

/-- The inverse in the field of AES, as the power 254; 0 for 0. -/
def gfInv (a : Byte) : Byte :=
  let a2 := gfMul a a
  let a4 := gfMul a2 a2
  let a8 := gfMul a4 a4
  let a16 := gfMul a8 a8
  let a32 := gfMul a16 a16
  let a64 := gfMul a32 a32
  let a128 := gfMul a64 a64
  gfMul a128 (gfMul a64 (gfMul a32 (gfMul a16 (gfMul a8 (gfMul a4 a2)))))

/-- The S-box. -/
def sbox (a : Byte) : Byte :=
  let b := gfInv a
  b ^^^ b.rotateLeft 1 ^^^ b.rotateLeft 2 ^^^ b.rotateLeft 3 ^^^ b.rotateLeft 4 ^^^ 0x63

/-- Byte-wise exclusive or. -/
def xorBytes (a b : List Byte) : List Byte := a.zipWith (· ^^^ ·) b

/-- The words of the key schedule after the first eight, newest first. -/
def expandKey : Nat → List (List Byte) → Byte → List (List Byte)
  | 0, ws, _ => ws
  | n + 1, ws, rcon =>
    let i := ws.length
    let prev := ws.headD []
    let old := ws.getD 7 []
    let t :=
      if i % 8 = 0 then
        match (prev.drop 1 ++ prev.take 1).map sbox with
        | x :: r => (x ^^^ rcon) :: r
        | [] => []
      else if i % 8 = 4 then prev.map sbox
      else prev
    expandKey n (xorBytes old t :: ws) (if i % 8 = 0 then gfDouble rcon else rcon)

/-- Sublists of `n` elements. -/
def chunks {α : Type} (n : Nat) (xs : List α) : List (List α) :=
  (List.range ((xs.length + n - 1) / n)).map fun i => (xs.drop (n * i)).take n

/-- The fifteen round keys of a 32-byte key. -/
def roundKeys (key : List Byte) : List (List Byte) :=
  (chunks 4 ((expandKey 52 (chunks 4 key).reverse 1).reverse)).map List.flatten

/-- ShiftRows on a state in column order. -/
def shiftRows (s : List Byte) : List Byte := (List.range 16).map fun i => s.getD ((i + 4 * (i % 4)) % 16) 0

/-- MixColumns. -/
def mixColumns (s : List Byte) : List Byte :=
  (List.range 16).map fun i =>
    let c := i / 4 * 4
    let x (j : Nat) : Byte := s.getD (c + (i + j) % 4) 0
    gfDouble (x 0) ^^^ (gfDouble (x 1) ^^^ x 1) ^^^ x 2 ^^^ x 3

/-- Encrypt one block of 16 bytes. -/
def aesBlock (ks : List (List Byte)) (b : List Byte) : List Byte :=
  let s := xorBytes b (ks.headD [])
  let s := ((ks.drop 1).take 13).foldl (fun s k => xorBytes (mixColumns (shiftRows (s.map sbox))) k) s
  xorBytes (shiftRows (s.map sbox)) (ks.getD 14 [])

/-! ### GCM -/

/-- Big-endian value of bytes. -/
def bigNat (bs : List Byte) : Nat := bs.foldl (fun a b => a * 256 + b.toNat) 0
/-- `n` bytes of a value, most significant first. -/
def bigBytes (n v : Nat) : List Byte := (natToBytes n v).reverse

/-- Multiplication of GHASH; the leftmost bit is bit 127. -/
def ghashMul (x y : BitVec 128) : BitVec 128 :=
  ((List.range 128).foldl
    (fun (a : BitVec 128 × BitVec 128) i =>
      (if x.getLsbD (127 - i) then a.1 ^^^ a.2 else a.1,
        if a.2.getLsbD 0 then (a.2 >>> 1) ^^^ (0xE1 : BitVec 128) <<< 120 else a.2 >>> 1)) (0, y)).1

/-- A block padded with zeros on the right, as a field element. -/
def ghashBlock (b : List Byte) : BitVec 128 := BitVec.ofNat 128 (bigNat (b ++ List.replicate (16 - b.length) 0))

/-- GHASH of a ciphertext with empty additional data. -/
def ghash (h : BitVec 128) (ct : List Byte) : BitVec 128 :=
  let y := (chunks 16 ct).foldl (fun y b => ghashMul (y ^^^ ghashBlock b) h) 0
  ghashMul (y ^^^ BitVec.ofNat 128 (8 * ct.length)) h

/-- AES-GCM-256 with a 96-bit IV and empty additional data (R301): the plaintext, and whether the tag
verifies. -/
def gcmDecrypt (key : BitVec 256) (iv : List Byte) (ct tag : List Byte) : List Byte × Bool :=
  let ks := roundKeys (bigBytes 32 key.toNat)
  let h := BitVec.ofNat 128 (bigNat (aesBlock ks (List.replicate 16 0)))
  let pt := ((chunks 16 ct).mapIdx fun i b => xorBytes b (aesBlock ks (iv ++ bigBytes 4 (i + 2)))).flatten
  let s := bigBytes 16 (ghash h ct).toNat
  (pt, xorBytes s (aesBlock ks (iv ++ bigBytes 4 1)) == tag)

/-! ### SHA-256 -/

/-- The first `n` primes from a candidate on. -/
def primesFrom : Nat → Nat → Nat → List Nat
  | 0, _, _ => []
  | fuel + 1, c, n =>
    if n = 0 then []
    else if (List.range' 2 (c - 2)).all fun d => c % d != 0 then c :: primesFrom fuel (c + 1) (n - 1)
    else primesFrom fuel (c + 1) n

/-- The greatest number below `2 ^ bits` whose power `k` is at most `n`. -/
def rootBits (k n : Nat) : Nat → Nat → Nat
  | 0, r => r
  | b + 1, r => if (r + 2 ^ b) ^ k ≤ n then rootBits k n b (r + 2 ^ b) else rootBits k n b r

/-- The first 32 bits of the fractional part of the `k`-th root of `p`. -/
def rootFraction (k p : Nat) : Word := BitVec.ofNat 32 (rootBits k (p * 2 ^ (32 * k)) 37 0)

/-- The round constants. -/
def shaK : List Word := (primesFrom 320 2 64).map (rootFraction 3)
/-- The initial hash value. -/
def shaInit : List Word := (primesFrom 30 2 8).map (rootFraction 2)

/-- The message schedule, newest first. -/
def shaSchedule : Nat → List Word → List Word
  | 0, ws => ws
  | n + 1, ws =>
    let w (i : Nat) : Word := ws.getD (i - 1) 0
    let s0 := (w 15).rotateRight 7 ^^^ (w 15).rotateRight 18 ^^^ (w 15 >>> 3)
    let s1 := (w 2).rotateRight 17 ^^^ (w 2).rotateRight 19 ^^^ (w 2 >>> 10)
    shaSchedule n ((w 16 + s0 + w 7 + s1) :: ws)

/-- One round. -/
def shaRound (st : List Word) (kw : Word × Word) : List Word :=
  let v (i : Nat) : Word := st.getD i 0
  let s1 := (v 4).rotateRight 6 ^^^ (v 4).rotateRight 11 ^^^ (v 4).rotateRight 25
  let ch := (v 4 &&& v 5) ^^^ (~~~(v 4) &&& v 6)
  let t1 := v 7 + s1 + ch + kw.1 + kw.2
  let s0 := (v 0).rotateRight 2 ^^^ (v 0).rotateRight 13 ^^^ (v 0).rotateRight 22
  let maj := (v 0 &&& v 1) ^^^ (v 0 &&& v 2) ^^^ (v 1 &&& v 2)
  [t1 + s0 + maj, v 0, v 1, v 2, v 3 + t1, v 4, v 5, v 6]

/-- One block of 64 bytes. -/
def shaBlock (h : List Word) (b : List Byte) : List Word :=
  let ws := (chunks 4 b).map fun x => BitVec.ofNat 32 (bigNat x)
  let sched := (shaSchedule 48 ws.reverse).reverse
  h.zipWith (· + ·) ((shaK.zip sched).foldl shaRound h)

/-- SHA-256 of a message, 32 bytes. -/
def sha256 (msg : List Byte) : List Byte :=
  let n := msg.length
  let pad := (119 - n % 64) % 64
  let m := msg ++ [0x80] ++ List.replicate pad 0 ++ bigBytes 8 (8 * n)
  (((chunks 64 m).foldl shaBlock shaInit).map fun w => bigBytes 4 w.toNat).flatten

/-! ### LMS (RFC 8554) -/

/-- Apply the chain of an LM-OTS element from step `i` for `n` steps. -/
def otsChain (ident : List Byte) (q k : Nat) : Nat → Nat → List Byte → List Byte
  | 0, _, x => x
  | n + 1, i, x =>
    otsChain ident q k n (i + 1) (sha256 (ident ++ bigBytes 4 q ++ bigBytes 2 k ++ bigBytes 1 i ++ x))

/-- The coefficients of a message hash with its checksum, for w = 8. -/
def otsCoefs (q : List Byte) : List Nat :=
  let c := (q.map fun b => 255 - b.toNat).foldl (· + ·) 0
  q.map (·.toNat) ++ [c / 256 % 256, c % 256]

/-- The candidate LM-OTS public key of a signature (4-byte type, C, 34 elements). -/
def otsCandidate (ident : List Byte) (q : Nat) (msg sig : List Byte) : List Byte :=
  let c := (sig.drop 4).take 32
  let h := sha256 (ident ++ bigBytes 4 q ++ bigBytes 2 0x8181 ++ c ++ msg)
  let z := (otsCoefs h).mapIdx fun i a => otsChain ident q i (255 - a) a (((sig.drop (36 + 32 * i))).take 32)
  sha256 (ident ++ bigBytes 4 q ++ bigBytes 2 0x8080 ++ z.flatten)

/-- Climb the authentication path from a node. -/
def lmsClimb (ident : List Byte) : Nat → List (List Byte) → List Byte → List Byte
  | _, [], t => t
  | node, p :: rest, t =>
    let pre := ident ++ bigBytes 4 (node / 2) ++ bigBytes 2 0x8383
    lmsClimb ident (node / 2) rest (sha256 (if node % 2 = 1 then pre ++ p ++ t else pre ++ t ++ p))

/-- An LMS signature of a message verifies under a public key (types, I, T), both in the layout of
R83. -/
def lmsVerify (pk sig msg : List Byte) : Bool :=
  let ident := (pk.drop 8).take 16
  let root := (pk.drop 24).take 32
  let q := bigNat (sig.take 4)
  let ots := (sig.drop 4).take 1124
  let types := pk.take 4 == bigBytes 4 8 && (pk.drop 4).take 4 == bigBytes 4 4 && ots.take 4 == bigBytes 4 4 &&
    (sig.drop 1128).take 4 == bigBytes 4 8
  let leaf := 2 ^ 20 + q
  let k := otsCandidate ident q msg ots
  let t := sha256 (ident ++ bigBytes 4 leaf ++ bigBytes 2 0x8282 ++ k)
  types && pk.length == 56 && sig.length == 1772 && decide (q < 2 ^ 20) &&
    lmsClimb ident leaf ((List.range 20).map fun i => (sig.drop (1132 + 32 * i)).take 32) t == root

end Sys2Proof.Machine
end

