-- ==== Sys2Proof/Machine/Control.lean ====
section
/-!
DEFINITION. NOP and the control majors (R58, R138 to R147).
-/
namespace Sys2Proof.Machine

/-- Transfers are taken by 4-byte units of OFF26 (R41, R139). -/
def CForm.target (f : CForm) (pc : DWord) : DWord := pc + f.off.signExtend 64 * 4

/-- The uniform condition of R138. -/
def CForm.cond (f : CForm) (t : Troupe) : Bool := !f.sub.getLsbD 0 || t.cpred f.cp.toNat != f.cn

/-- A taken transfer of a checked troupe is compared: the target of each group of lanes (R385). -/
def State.passTransfer (s : State) (p : Path) (m : Mask) (target : Nat → DWord) : Exe State :=
  s.passEvent p (.transfer (((m.lanes.map fun l => (target l).toNat).eraseDups).map fun a =>
    (a, Mask.ofTest fun l => m.has l && (target l).toNat == a)))

/-- Lanes go on at the given addresses. -/
def State.jump (s : State) (p : Path) (m : Mask) (target : Nat → DWord) : State :=
  s.mod p fun t => t.modLanes m fun l x => { x with pc := target l }

/-- A transfer is taken by some lanes of a path. -/
def State.takeTransfer (s : State) (p : Path) (m : Mask) (target : Nat → DWord) : Exe State := do
  let s ← s.passTransfer p m target
  .ok (s.jump p m target)

/-- NOP does nothing but evaluate its guard (R58). -/
def execNop (h : Head) (f : NopForm) (s : State) : Host.Outcome State Fault Refusal :=
  runThread (.nop h f) h f.len.bytes (fun _ s => .ok s) s

/-- BRA (R140). -/
def execBra (h : Head) (f : CForm) (s : State) : Host.Outcome State Fault Refusal :=
  runThread (.bra h f) h 8 (fun p s =>
    if CForm.cond f (s.troupe p) then s.takeTransfer p p.active fun _ => CForm.target f p.at_.pc else .ok s) s

/-- BRU (R140): every lane of the path, active or not. -/
def execBru (h : Head) (f : CForm) (s : State) : Host.Outcome State Fault Refusal :=
  runThread (.bru h f) h 8 (fun p s =>
    if CForm.cond f (s.troupe p) then s.takeTransfer p p.at_.lanes fun _ => CForm.target f p.at_.pc else .ok s) s

/-- LOOP (R140). -/
def execLoop (h : Head) (f : CForm) (s : State) : Host.Outcome State Fault Refusal :=
  runThread (.loop h f) h 8 (fun p s =>
    let n := s.kAt p f.ka.toNat - 1
    let count (s : State) : State := s.mod p fun t => t.setK f.ka.toNat n
    if n = 0 then .ok (count s)
    else (s.takeTransfer p p.active fun _ => CForm.target f p.at_.pc).map count) s

/-! ### Indirect transfers and the return stack (R133, R141, R142) -/

/-- ALIGN of an indirect target (R141). -/
def targetFail (a : DWord) : Option Fail := if bitsOf a.toNat 1 0 = 0 then none else some (.plain codeAlign a)

/-- BRX (R141). -/
def execBrx (h : Head) (f : RForm) (s : State) : Host.Outcome State Fault Refusal :=
  runThread (.brx h f) h 8 (fun p s => do
    let a ← s.readPair p 0 f.a.toNat 0 .i64l .i64h
    raiseFirst none (p.active.lanes.map fun l => (l, targetFail (pairAt a l)))
    s.takeTransfer p p.active (pairAt a)) s

/-- Entries beyond which a push spills (R133). -/
def hardEntries : Nat := 8
/-- The deepest return stack (R133). -/
def maxDepth : Nat := 264

/-- STACKOVF of a lane, with its depth (R142, R182). -/
def depthFail (bad : Nat → Bool) (x : Lane) : Option Fail :=
  if bad x.depth then some { code := codeStackOvf, addr := 0, arg := x.depth, pages := [], key := .none } else none

/-- The two words of a lane's spill entry `n` (R132, R133). -/
def spillWants (priv : Nat) (l n : Nat) : List Want :=
  [{ lane := l, addr := BitVec.ofNat 64 (priv + 8 * n) }, { lane := l, addr := BitVec.ofNat 64 (priv + 8 * n + 4) }]

/-- Push the return address in the active lanes, and transfer (R142). -/
def State.callTo (s : State) (p : Path) (target : Nat → DWord) : Exe State := do
  let t := s.troupe p
  let b := s.block p
  let deep := p.active.lanes.filter fun l => hardEntries ≤ (t.lane l).depth
  let hs ← s.accessIn p .priv 4 true false (b.priv + 2048)
    (deep.flatMap fun l => spillWants b.priv l ((t.lane l).depth - hardEntries))
  let s := s.touchHits p hs
  let s ← s.passTransfer p p.active target
  let s ← s.storeHits p hs fun l => ((t.lane l).ret.getD 7 0).toNat
  let s := s.mod p fun t => t.modLanes p.active fun l x =>
    { x with ret := (p.next :: x.ret).take hardEntries, depth := x.depth + 1, pc := target l }
  .ok s

/-- CALL (R142). -/
def execCall (h : Head) (f : CForm) (s : State) : Host.Outcome State Fault Refusal :=
  runThread (.call h f) h 8 (fun p s =>
    let t := s.troupe p
    if CForm.cond f t then do
      raiseFirst none (p.active.lanes.map fun l => (l, depthFail (fun d => d == maxDepth) (t.lane l)))
      s.callTo p fun _ => CForm.target f p.at_.pc
    else .ok s) s

/-- CALLX (R141, R142): ALIGN before STACKOVF in each lane. -/
def execCallx (h : Head) (f : RForm) (s : State) : Host.Outcome State Fault Refusal :=
  runThread (.callx h f) h 8 (fun p s => do
    let a ← s.readPair p 0 f.a.toNat 0 .i64l .i64h
    let t := s.troupe p
    raiseFirst none (p.active.lanes.map fun l =>
      (l, targetFail (pairAt a l) <|> depthFail (fun d => d == maxDepth) (t.lane l)))
    s.callTo p (pairAt a)) s

/-- A lane after a pop that refills one entry when any is spilled (R133). -/
def Lane.popRet (x : Lane) (refill : DWord) : Lane :=
  { x with
    ret := if x.depth ≤ hardEntries then x.ret.tail else x.ret.tail ++ [refill]
    depth := x.depth - 1, pc := x.ret.headD 0 }

/-- RET (R142): a refill that misses L1 departs as a private load, to the popped address. -/
def execRet (h : Head) (f : CForm) (s : State) : Host.Outcome State Fault Refusal :=
  runThread (.ret h f) h 8 (fun p s =>
    let t := s.troupe p
    if CForm.cond f t then do
      raiseFirst none (p.active.lanes.map fun l => (l, depthFail (fun d => d == 0) (t.lane l)))
      let b := s.block p
      let deep := p.active.lanes.filter fun l => hardEntries < (t.lane l).depth
      let hs ← s.accessIn p .priv 4 false false (b.priv + 2048)
        (deep.flatMap fun l => spillWants b.priv l ((t.lane l).depth - hardEntries - 1))
      s.checkPoison hs
      let s := s.touchHits p hs
      let s ← s.passTransfer p p.active fun l => (t.lane l).ret.headD 0
      let v (l : Nat) : DWord := BitVec.ofNat 64 (s.laneValue p.core hs l)
      let s := s.mod p fun t => t.modLanes p.active fun l x => x.popRet (v l)
      if !hs.isEmpty && Config.refillMisses s.nextId then
        s.departEach p .data 0 (fun l => ((s.troupe p).lane l).pc) id
      else .ok s
    else .ok s) s

/-! ### Ends, departures and traps (R143 to R147) -/

/-- EXIT (R143). DESIGN CHOICE (entry 82): where the troupe frame that it leaves fits neither the cue store nor the
wings area, EXIT completes all the same and the store holds it over its room. -/
def execExit (h : Head) (f : CForm) (s : State) : Host.Outcome State Fault Refusal :=
  runThread (.exit h f) h 8 (fun p s =>
    if CForm.cond f (s.troupe p) then do
      let s ← s.performPushes p.core p.blk p.at_.troupe p.active
      let s := (s.mod p fun t => t.endLanes p.active).sweepTroupe p.core p.blk p.at_.troupe
      .ok ((s.settleCue p.core).getD s)
    else .ok s) s

/-- POISON of a deferred access of one lane, when its own bytes meet a poisoned sector or were lost on the link (R251,
R431). -/
def State.deferredFail (s : State) (t : Troupe) (l : Nat) : Option Fail :=
  t.deferred.findSome? fun d =>
    if d.lanes.has l then
      match d.poison with
      | some (sec, addr) =>
        if peerSector ≤ sec then
          some { code := codePoison, addr := addr, arg := 0, pages := [], key := .sector sec }
        else (d.pieces.filter fun h => h.lane == l).findSome? s.poisonFail
      | none => none
    else none

/-- DEPART (R144, R251). -/
def execDepart (h : Head) (f : CForm) (s : State) : Host.Outcome State Fault Refusal :=
  runThread (.depart h f) h 8 (fun p s => do
    let t := s.troupe p
    raiseFirst none (p.at_.lanes.lanes.map fun l => (l, s.deferredFail t l))
    let ready := t.allReturned p.at_.lanes
    let rid := s.nextId
    let far := t.deferred.any fun d => d.lanes &&& p.at_.lanes != 0 && d.peer && !d.returned
    let s ← s.depart p .deferred p.next 0 fun r => { r with peer := far }
    let s := s.modCore p.core fun k => k.deliverDeferred p.blk p.at_.troupe
    .ok (if ready then s.readyNow p.core fun r => r.rid == rid else s)) s

/-- SLEEP (R145). -/
def execSleep (h : Head) (f : CForm) (s : State) : Host.Outcome State Fault Refusal :=
  runThread (.sleep h f) h 8 (fun p s => do
    let d := if f.sub.getLsbD 1 then (s.kAt p f.ka.toNat).toNat else 64 * f.imm.toNat
    let rid := s.nextId
    let s ← s.depart p (.time (s.clock.toNat + d)) p.next 0 id
    .ok (if d = 0 then s.readyNow p.core fun r => r.rid == rid else s)) s

/-- TRAP (R146). -/
def execTrap (h : Head) (f : CForm) (s : State) : Host.Outcome State Fault Refusal :=
  runThread (.trap h f) h 8 (fun p _ => activeFault p codeTrapInsn f.imm.toNat) s

/-- BKPT (R146). -/
def execBkpt (h : Head) (f : CForm) (s : State) : Host.Outcome State Fault Refusal :=
  runThread (.bkpt h f) h 8 (fun p s =>
    if s.debugOf p then activeFault p codeBkpt f.imm.toNat else .ok s) s

/-- STEP (R147). -/
def execStep (h : Head) (f : CForm) (s : State) : Host.Outcome State Fault Refusal :=
  runThread (.step h f) h 8 (fun p s => .ok (s.mod p fun t => { t with step := t.step + 1 })) s

end Sys2Proof.Machine
end

