-- ==== Sys2Proof/Machine/Integer.lean ====
section
/-!
DEFINITION. Integer operations on vector registers and their immediate forms (R136, R137, R148 to
R162).
-/
namespace Sys2Proof.Machine

/-! ### Element types (R136, R137) -/

/-- An element type: its tag, its width and whether it is signed. -/
structure ElemType where
  tag : Tag
  width : Nat
  signed : Bool
  deriving DecidableEq, Repr

/-- The type of a SUB [2:0] code. -/
def elemType (n : Nat) : ElemType :=
  match n with
  | 0 => { tag := .i32, width := 32, signed := true }
  | 1 => { tag := .n32, width := 32, signed := false }
  | 2 => { tag := .i16x2, width := 16, signed := true }
  | 3 => { tag := .i8x4, width := 8, signed := true }
  | _ => { tag := .n8x4, width := 8, signed := false }

/-- An integer of `w` bits as its type reads it. -/
def ofBits (signed : Bool) (w n : Nat) : Int := if signed && 2 ^ (w - 1) ≤ n then (n : Int) - 2 ^ w else n

/-- The low `w` bits of an integer. -/
def toBits (w : Nat) (r : Int) : Nat := (r % 2 ^ w).toNat

/-- Element `i` of a lane. -/
def ElemType.elem (t : ElemType) (x : Word) (i : Nat) : Int :=
  ofBits t.signed t.width (x.toNat / 2 ^ (t.width * i) % 2 ^ t.width)

/-- The range of a type. -/
def intRange (signed : Bool) (w : Nat) : Int × Int :=
  if signed then (-(2 ^ (w - 1)), 2 ^ (w - 1) - 1) else (0, 2 ^ w - 1)

/-- Wrap or clamp an exact result (R137): the bits, and whether it was clamped. -/
def narrow (signed sat : Bool) (w : Nat) (r : Int) : Nat × Bool :=
  let b := intRange signed w
  if sat && r < b.1 then (toBits w b.1, true)
  else if sat && b.2 < r then (toBits w b.2, true)
  else (toBits w r, false)

/-- An element-wise operation of one lane: the bits, and whether any element was clamped. -/
def ElemType.lane (t : ElemType) (sat : Bool) (f : Nat → Int) : Word × Bool :=
  let rs := (List.range (32 / t.width)).map fun i => (i, narrow t.signed sat t.width (f i))
  (BitVec.ofNat 32 ((rs.map fun x => x.2.1 * 2 ^ (t.width * x.1)).foldl (· + ·) 0), rs.any fun x => x.2.2)

/-- The tag test of a type. -/
def isTag (t g : Tag) : Bool := g == t
/-- I32 or N32. -/
def isInt32 (g : Tag) : Bool := g == .i32 || g == .n32
/-- Any tag except UNDEF. -/
def isDefined (g : Tag) : Bool := g != .undef
/-- The common tag of two sources, or RAW (R116). -/
def commonTag (a b : Tag) : Tag := if a == b then a else .raw

/-! ### Shapes of instructions -/

/-- An instruction of one source and one result: `go` gives each lane's bits and exceptions. -/
def unary (i : Instr) (h : Head) (f : RForm) (acc : Tag → Bool) (tag : Tag → Tag)
    (go : State → Path → Word → Word × Flags) (s : State) : Host.Outcome State Fault Refusal :=
  runThread i h f.len.bytes (fun p s => do
    let a ← s.read1 p f.a.toNat f.pa.toNat acc
    s.finish p [f.a.toNat] f.d.toNat (tag a.tag) (fun l => (go s p (a.at l)).1) fun l => (go s p (a.at l)).2) s

/-- An instruction of two sources and one result. -/
def binary (i : Instr) (h : Head) (f : RForm) (accA accB : Tag → Bool) (tag : Tag → Tag → Tag)
    (go : State → Path → Word → Word → Word × Flags) (s : State) : Host.Outcome State Fault Refusal :=
  runThread i h f.len.bytes (fun p s => do
    let (a, b) ← s.read2 p f.a.toNat f.pa.toNat accA f.b.toNat f.pb.toNat accB
    s.finish p [f.a.toNat, f.b.toNat] f.d.toNat (tag a.tag b.tag)
      (fun l => (go s p (a.at l) (b.at l)).1) fun l => (go s p (a.at l) (b.at l)).2) s

/-- An instruction of three sources and one result. -/
def ternary (i : Instr) (h : Head) (f : RForm) (acc accB : Tag → Bool) (tag : Tag)
    (go : State → Path → Word → Word → Word → Word × Flags) (s : State) : Host.Outcome State Fault Refusal :=
  runThread i h f.len.bytes (fun p s => do
    let (a, b, c) ← s.read3 p f.a.toNat f.pa.toNat f.b.toNat f.pb.toNat f.c.toNat f.pc.toNat acc accB
    s.finish p [f.a.toNat, f.b.toNat, f.c.toNat] f.d.toNat tag
      (fun l => (go s p (a.at l) (b.at l) (c.at l)).1) fun l => (go s p (a.at l) (b.at l) (c.at l)).2) s

/-- An immediate form: one source, and the immediate as the second operand (R160). -/
def immediate (i : Instr) (h : Head) (f : IForm) (acc : Tag → Bool) (tag : Tag → Tag)
    (go : Word → Word → Word × Flags) (s : State) : Host.Outcome State Fault Refusal :=
  runThread i h f.len.bytes (fun p s => do
    let a ← s.read1 p f.a.toNat 0 acc
    s.finish p [f.a.toNat] f.d.toNat (tag a.tag) (fun l => (go (a.at l) f.imm).1) fun l => (go (a.at l) f.imm).2) s

/-- A result without exceptions. -/
def plainly (w : Word) : Word × Flags := (w, 0)
/-- A result with the SAT bit of R137. -/
def clamped (r : Word × Bool) : Word × Flags := (r.1, flagIf r.2 flagSAT)

/-! ### Arithmetic (R149) -/

/-- The element-wise operation of two operands. -/
def arith2 (ty : ElemType) (sat : Bool) (op : Int → Int → Int) (x y : Word) : Word × Flags :=
  clamped (ty.lane sat fun i => op (ty.elem x i) (ty.elem y i))

/-- A two-operand element-wise major. -/
def intBinary (i : Instr) (h : Head) (f : RForm) (op : Int → Int → Int) (s : State) :
    Host.Outcome State Fault Refusal :=
  let ty := elemType (f.sub.toNat % 8)
  binary i h f (isTag ty.tag) (isTag ty.tag) (fun _ _ => ty.tag) (fun _ _ => arith2 ty (modSat f.mod) op) s

/-- IADD (R149). -/
def execIadd (h : Head) (f : RForm) (s : State) : Host.Outcome State Fault Refusal :=
  intBinary (.iadd h f) h f (· + ·) s
/-- ISUB (R149). -/
def execIsub (h : Head) (f : RForm) (s : State) : Host.Outcome State Fault Refusal :=
  intBinary (.isub h f) h f (· - ·) s
/-- IMUL (R149). -/
def execImul (h : Head) (f : RForm) (s : State) : Host.Outcome State Fault Refusal :=
  intBinary (.imul h f) h f (· * ·) s
/-- IMIN (R149). -/
def execImin (h : Head) (f : RForm) (s : State) : Host.Outcome State Fault Refusal :=
  intBinary (.imin h f) h f min s
/-- IMAX (R149). -/
def execImax (h : Head) (f : RForm) (s : State) : Host.Outcome State Fault Refusal :=
  intBinary (.imax h f) h f max s
/-- IMULH (R150): bits [63:32] of the exact product. -/
def execImulh (h : Head) (f : RForm) (s : State) : Host.Outcome State Fault Refusal :=
  intBinary (.imulh h f) h f (fun x y => x * y / 2 ^ 32) s

/-- IDIV's quotient (R150). -/
def quotInt (x y : Int) : Int := if y = 0 then 0xFFFFFFFF else x.tdiv y
/-- IREM's remainder (R150). -/
def remInt (x y : Int) : Int := if y = 0 then x else x.tmod y

/-- IDIV (R150). -/
def execIdiv (h : Head) (f : RForm) (s : State) : Host.Outcome State Fault Refusal :=
  intBinary (.idiv h f) h f quotInt s
/-- IREM (R150). -/
def execIrem (h : Head) (f : RForm) (s : State) : Host.Outcome State Fault Refusal :=
  intBinary (.irem h f) h f remInt s

/-- IMAD (R149). -/
def execImad (h : Head) (f : RForm) (s : State) : Host.Outcome State Fault Refusal :=
  let ty := elemType (f.sub.toNat % 8)
  ternary (.imad h f) h f (isTag ty.tag) (isTag ty.tag) ty.tag
    (fun _ _ x y z => clamped (ty.lane (modSat f.mod) fun i => ty.elem x i * ty.elem y i + ty.elem z i)) s

/-- IABS (R149). -/
def execIabs (h : Head) (f : RForm) (s : State) : Host.Outcome State Fault Refusal :=
  let ty := elemType (f.sub.toNat % 8)
  unary (.iabs h f) h f (isTag ty.tag) (fun _ => ty.tag)
    (fun _ _ x => clamped (ty.lane (modSat f.mod) fun i => (ty.elem x i).natAbs)) s

/-! ### Bitwise operations, shifts and bit fields (R151 to R154) -/

/-- A bitwise major (R151). -/
def bitwise (i : Instr) (h : Head) (f : RForm) (op : Word → Word → Word) (s : State) :
    Host.Outcome State Fault Refusal :=
  binary i h f isDefined isDefined commonTag (fun _ _ x y => plainly (op x y)) s

/-- AND (R151). -/
def execAnd (h : Head) (f : RForm) (s : State) : Host.Outcome State Fault Refusal :=
  bitwise (.and h f) h f (fun x y => x &&& y) s
/-- OR (R151). -/
def execOr (h : Head) (f : RForm) (s : State) : Host.Outcome State Fault Refusal :=
  bitwise (.or h f) h f (fun x y => x ||| y) s
/-- XOR (R151). -/
def execXor (h : Head) (f : RForm) (s : State) : Host.Outcome State Fault Refusal :=
  bitwise (.xor h f) h f (fun x y => x ^^^ y) s
/-- ANDN (R151). -/
def execAndn (h : Head) (f : RForm) (s : State) : Host.Outcome State Fault Refusal :=
  bitwise (.andn h f) h f (fun x y => x &&& ~~~y) s

/-- Shift every element of a lane left by a count. -/
def shlElem (w : Nat) (x : Int) (c : Nat) : Int := (toBits w x <<< c : Nat)
/-- Shift right with zeros. -/
def shrElem (w : Nat) (x : Int) (c : Nat) : Int := (toBits w x >>> c : Nat)
/-- Shift right with the sign. -/
def sarElem (_w : Nat) (x : Int) (c : Nat) : Int := x / 2 ^ c
/-- Rotate left. -/
def rotElem (w : Nat) (x : Int) (c : Nat) : Int := (toBits w x <<< c ||| toBits w x >>> (w - c) : Nat)

/-- A lane shifted element by element, the count taken modulo the width (R152). -/
def shiftLane (ty : ElemType) (op : Nat → Int → Nat → Int) (x : Word) (count : Nat) : Word :=
  (ty.lane false fun i => op ty.width (ty.elem x i) (count % ty.width)).1

/-- A shift major (R152). -/
def shift (i : Instr) (h : Head) (f : RForm) (op : Nat → Int → Nat → Int) (s : State) :
    Host.Outcome State Fault Refusal :=
  let ty := elemType (f.sub.toNat % 8)
  binary i h f (isTag ty.tag) isInt32 (fun _ _ => ty.tag) (fun _ _ x y => plainly (shiftLane ty op x y.toNat)) s

/-- SHL (R152). -/
def execShl (h : Head) (f : RForm) (s : State) : Host.Outcome State Fault Refusal :=
  shift (.shl h f) h f shlElem s
/-- SHR (R152). -/
def execShr (h : Head) (f : RForm) (s : State) : Host.Outcome State Fault Refusal :=
  shift (.shr h f) h f shrElem s
/-- SAR (R152). -/
def execSar (h : Head) (f : RForm) (s : State) : Host.Outcome State Fault Refusal :=
  shift (.sar h f) h f sarElem s
/-- ROT (R152). -/
def execRot (h : Head) (f : RForm) (s : State) : Host.Outcome State Fault Refusal :=
  shift (.rot h f) h f rotElem s

/-- The number of one bits (R153). -/
def popCount (x : Word) : Nat := ((List.range 32).filter x.getLsbD).length
/-- The number of leading zero bits (R153). -/
def leadingZeros (x : Word) : Nat := if x = 0 then 32 else 31 - x.toNat.log2
/-- The bits in reverse order (R153). -/
def reverseBits (x : Word) : Word :=
  BitVec.ofNat 32 (((List.range 32).filter fun i => x.getLsbD i).foldl (fun a i => a + 2 ^ (31 - i)) 0)

/-- POPC (R153). -/
def execPopc (h : Head) (f : RForm) (s : State) : Host.Outcome State Fault Refusal :=
  unary (.popc h f) h f (isTag (elemType (f.sub.toNat % 8)).tag) (fun _ => .n32)
    (fun _ _ x => plainly (BitVec.ofNat 32 (popCount x))) s
/-- CLZ (R153). -/
def execClz (h : Head) (f : RForm) (s : State) : Host.Outcome State Fault Refusal :=
  unary (.clz h f) h f (isTag (elemType (f.sub.toNat % 8)).tag) (fun _ => .n32)
    (fun _ _ x => plainly (BitVec.ofNat 32 (leadingZeros x))) s
/-- BREV (R153). -/
def execBrev (h : Head) (f : RForm) (s : State) : Host.Outcome State Fault Refusal :=
  unary (.brev h f) h f (isTag (elemType (f.sub.toNat % 8)).tag) id (fun _ _ x => plainly (reverseBits x)) s

/-- Position and width of a field specification (R153). -/
def fieldSpec (b : Word) : Nat × Nat :=
  let pos := bitsOf b.toNat 4 0
  (pos, min (bitsOf b.toNat 13 8) (32 - pos))

/-- BFX's field (R153). -/
def extractField (signed : Bool) (x b : Word) : Word :=
  let (pos, w) := fieldSpec b
  if w = 0 then 0 else BitVec.ofInt 32 (ofBits signed w (x.toNat / 2 ^ pos % 2 ^ w))

/-- BFI's result (R153). -/
def insertField (x b z : Word) : Word :=
  let (pos, w) := fieldSpec b
  let m : Word := BitVec.ofNat 32 ((2 ^ w - 1) * 2 ^ pos)
  (x &&& ~~~m) ||| (BitVec.ofNat 32 (z.toNat * 2 ^ pos) &&& m)

/-- BFX (R153). -/
def execBfx (h : Head) (f : RForm) (s : State) : Host.Outcome State Fault Refusal :=
  let ty := elemType (f.sub.toNat % 8)
  binary (.bfx h f) h f (isTag ty.tag) isInt32 (fun _ _ => ty.tag)
    (fun _ _ x y => plainly (extractField ty.signed x y)) s
/-- BFI (R153). -/
def execBfi (h : Head) (f : RForm) (s : State) : Host.Outcome State Fault Refusal :=
  let ty := elemType (f.sub.toNat % 8)
  ternary (.bfi h f) h f (isTag ty.tag) isInt32 ty.tag (fun _ _ x y z => plainly (insertField x y z)) s

/-- SEL (R154). -/
def execSel (h : Head) (f : RForm) (s : State) : Host.Outcome State Fault Refusal :=
  runThread (.sel h f) h f.len.bytes (fun p s => do
    let (a, b) ← s.read2 p f.a.toNat f.pa.toNat isDefined f.b.toNat f.pb.toNat isDefined
    s.finish p [f.a.toNat, f.b.toNat] f.d.toNat (commonTag a.tag b.tag)
      (fun l => if s.predAt p (f.sub.toNat / 8 % 16) l then a.at l else b.at l) noFlags) s

/-- ICMP (R155). -/
def execIcmp (h : Head) (f : RForm) (s : State) : Host.Outcome State Fault Refusal :=
  runThread (.icmp h f) h f.len.bytes (fun p s => do
    let ty := elemType (f.sub.toNat % 8)
    let (a, b) ← s.read2 p f.a.toNat f.pa.toNat (isTag ty.tag) f.b.toNat f.pb.toNat (isTag ty.tag)
    .ok ((s.popPorts p [f.a.toNat, f.b.toNat]).putPred p f.d.toNat fun l =>
      holds (f.sub.toNat / 8 % 8) (ty.elem (a.at l) 0) (ty.elem (b.at l) 0))) s

/-! ### 64-bit majors (R156) -/

/-- IADD64 and ISUB64 (R156). -/
def pairArith (i : Instr) (h : Head) (f : RForm) (op : Int → Int → Int) (s : State) :
    Host.Outcome State Fault Refusal :=
  runThread i h f.len.bytes (fun p s => do
    let a ← s.readPair p 0 f.a.toNat f.pa.toNat .i64l .i64h
    let b ← s.readPair p 1 f.b.toNat f.pb.toNat .i64l .i64h
    let sg := f.sub.toNat % 8 == 0
    let r (l : Nat) : Nat × Bool := narrow sg (modSat f.mod) 64
      (op (ofBits sg 64 (pairAt a l).toNat) (ofBits sg 64 (pairAt b l).toNat))
    s.finishGroup p [] f.d.toNat (asPair .i64l .i64h fun l => BitVec.ofNat 64 (r l).1) fun l =>
      flagIf (r l).2 flagSAT) s

/-- IADD64 (R156). -/
def execIadd64 (h : Head) (f : RForm) (s : State) : Host.Outcome State Fault Refusal :=
  pairArith (.iadd64 h f) h f (· + ·) s
/-- ISUB64 (R156). -/
def execIsub64 (h : Head) (f : RForm) (s : State) : Host.Outcome State Fault Refusal :=
  pairArith (.isub64 h f) h f (· - ·) s

/-- IMULW (R156). -/
def execImulw (h : Head) (f : RForm) (s : State) : Host.Outcome State Fault Refusal :=
  runThread (.imulw h f) h f.len.bytes (fun p s => do
    let ty := elemType (f.sub.toNat % 8)
    let (a, b) ← s.read2 p f.a.toNat f.pa.toNat (isTag ty.tag) f.b.toNat f.pb.toNat (isTag ty.tag)
    s.finishGroup p [f.a.toNat, f.b.toNat] f.d.toNat
      (asPair .i64l .i64h fun l => BitVec.ofInt 64 (ty.elem (a.at l) 0 * ty.elem (b.at l) 0)) noFlags) s

/-- LEA (R156). -/
def execLea (h : Head) (f : RForm) (s : State) : Host.Outcome State Fault Refusal :=
  runThread (.lea h f) h f.len.bytes (fun p s => do
    let ty := elemType (f.sub.toNat % 8)
    let a ← s.readPair p 0 f.a.toNat f.pa.toNat .i64l .i64h
    s.checkOperand p 1 f.b.toNat (isTag ty.tag)
    s.portsReady p [f.a.toNat, f.b.toNat]
    let b ← s.operand p [f.a.toNat, f.b.toNat] 1 f.pb.toNat (isTag ty.tag)
    s.finishGroup p [f.a.toNat, f.b.toNat] f.d.toNat
      (asPair .i64l .i64h fun l =>
        pairAt a l + BitVec.ofInt 64 (ty.elem (b.at l) 0 * 2 ^ (f.sub.toNat / 8 % 8))) noFlags) s

/-! ### Moves (R157 to R159) -/

/-- SHFL (R157). A lane of a port that popped nothing has no value (entry 6). -/
def execShfl (h : Head) (f : RForm) (s : State) : Host.Outcome State Fault Refusal :=
  runThread (.shfl h f) h f.len.bytes (fun p s => do
    let (a, b) ← s.read2 p f.a.toNat f.pa.toNat isDefined f.b.toNat f.pb.toNat isInt32
    let t := s.troupe p
    let v (l : Nat) : Word :=
      let n := (b.at l).toNat % 64
      if !t.present n then 0
      else if isPort f.a.toNat && !p.active.has n then (Config.freeValue (64 * s.nextId + n)).setWidth 32
      else a.at n
    let s' ← s.finish p [f.a.toNat, f.b.toNat] f.d.toNat a.tag v noFlags
    .ok { s' with nextId := s'.nextId + 1 }) s

/-- The checks of the source of a MOV (R117, R158). DESIGN CHOICE (entry 80): where lanes of an indexed source fail with
different codes, R117's order of the checks decides first and R183's lowest lane within a check. -/
def State.checkMovSource (s : State) (p : Path) (f : RForm) : Exe Unit := do
  if f.sub.getLsbD 4 then
    let t := s.troupe p
    let v := f.a.toNat
    t.checkIndexed p v
    let each (bad : Nat → Bool) (code : Nat) (arg : Nat → Nat) : Exe Unit :=
      raiseFirst none (p.active.lanes.map fun l =>
        let r := (t.indexed v l).1
        (l, if bad r then some { code := code, addr := 0, arg := arg r, pages := [], key := .none } else none))
    each (fun r => (t.reg r).dead) codeDeadRead id
    each t.pending codePendRead id
    each (fun r => (t.reg r).tag == .undef) codeTagFault fun _ => 0
  else s.checkOperand p 0 f.a.toNat isDefined

/-- The source of a MOV: its tag and each lane's value (R158). -/
def State.movSource (s : State) (p : Path) (f : RForm) : Exe Operand :=
  if f.sub.getLsbD 4 then
    let t := s.troupe p
    let v := f.a.toNat
    let tags := p.active.lanes.map fun l => (t.reg (t.indexed v l).1).tag
    let first := tags.headD .raw
    pure { tag := if tags.all fun g => g == first then first else .raw
           lanes := laneNumbers.map fun l => (t.reg (t.indexed v l).1).at l }
  else s.read1 p f.a.toNat f.pa.toNat isDefined

/-- Write an indexed destination: each register named takes the tag (R158). -/
def State.putIndexed (s : State) (p : Path) (v : Nat) (tag : Tag) (x : Nat → Word) : State :=
  s.mod p fun t =>
    let names := (p.active.lanes.map fun l => (t.indexed v l).1).eraseDups
    names.foldl (fun t' r => t'.writeReg r
      (Mask.ofTest fun l => p.active.has l && (t.indexed v l).1 == r) tag x) t

/-- The checks of an indexed destination: IDXFAULT, then PENDREAD of each register named (R117, R119). -/
def State.checkIndexedDst (s : State) (p : Path) (v : Nat) : Exe Unit := do
  let t := s.troupe p
  t.checkIndexed p v
  raiseFirst none (p.active.lanes.map fun l =>
    let r := (t.indexed v l).1
    (l, if t.pending r then some { code := codePendRead, addr := 0, arg := r, pages := [], key := .none } else none))

/-- MOV (R158). -/
def execMov (h : Head) (f : RForm) (s : State) : Host.Outcome State Fault Refusal :=
  runThread (.mov h f) h f.len.bytes (fun p s => do
    s.checkMovSource p f
    if f.sub.getLsbD 3 then s.checkIndexedDst p f.d.toNat
    let a ← s.movSource p f
    let fields := if f.sub.getLsbD 4 then [] else [f.a.toNat]
    if f.sub.getLsbD 3 then .ok ((s.popPorts p fields).putIndexed p f.d.toNat a.tag a.at)
    else s.finish p fields f.d.toNat a.tag a.at noFlags) s

/-- MOVK (R159). -/
def execMovk (h : Head) (f : RForm) (s : State) : Host.Outcome State Fault Refusal :=
  runThread (.movk h f) h f.len.bytes (fun p s =>
    let x := s.kAt p (f.a.toNat % 64)
    let code := f.sub.toNat % 16
    if code = 0xB then s.finishGroup p [] f.d.toNat (asPair .i64l .i64h fun _ => x) noFlags
    else
      s.finish p [] f.d.toNat (tagOf code) (fun _ => if f.sub.getLsbD 4 then hiWord x else loWord x) noFlags) s

/-! ### Immediate operations (R160 to R162) -/

/-- The type of an immediate major: I32 or N32. -/
def IForm.type (f : IForm) : ElemType := elemType (f.sub.toNat % 2)

/-- An arithmetic immediate major (R161). -/
def immArith (i : Instr) (h : Head) (f : IForm) (op : Int → Int → Int) (s : State) :
    Host.Outcome State Fault Refusal :=
  immediate i h f (isTag (IForm.type f).tag) (fun _ => (IForm.type f).tag) (arith2 (IForm.type f) (modSat f.mod) op) s

/-- IADDI (R161). -/
def execIaddi (h : Head) (f : IForm) (s : State) : Host.Outcome State Fault Refusal :=
  immArith (.iaddi h f) h f (· + ·) s
/-- IMULI (R161). -/
def execImuli (h : Head) (f : IForm) (s : State) : Host.Outcome State Fault Refusal :=
  immArith (.imuli h f) h f (· * ·) s
/-- ANDI (R161). -/
def execAndi (h : Head) (f : IForm) (s : State) : Host.Outcome State Fault Refusal :=
  immediate (.andi h f) h f isDefined id (fun x y => plainly (x &&& y)) s
/-- ORI (R161). -/
def execOri (h : Head) (f : IForm) (s : State) : Host.Outcome State Fault Refusal :=
  immediate (.ori h f) h f isDefined id (fun x y => plainly (x ||| y)) s
/-- XORI (R161). -/
def execXori (h : Head) (f : IForm) (s : State) : Host.Outcome State Fault Refusal :=
  immediate (.xori h f) h f isDefined id (fun x y => plainly (x ^^^ y)) s

/-- A shift by an immediate (R161). -/
def immShift (i : Instr) (h : Head) (f : IForm) (op : Nat → Int → Nat → Int) (s : State) :
    Host.Outcome State Fault Refusal :=
  immediate i h f (isTag (IForm.type f).tag) (fun _ => (IForm.type f).tag)
    (fun x y => plainly (shiftLane (IForm.type f) op x y.toNat)) s

/-- SHLI (R161). -/
def execShli (h : Head) (f : IForm) (s : State) : Host.Outcome State Fault Refusal :=
  immShift (.shli h f) h f shlElem s
/-- SHRI (R161). -/
def execShri (h : Head) (f : IForm) (s : State) : Host.Outcome State Fault Refusal :=
  immShift (.shri h f) h f shrElem s
/-- SARI (R161). -/
def execSari (h : Head) (f : IForm) (s : State) : Host.Outcome State Fault Refusal :=
  immShift (.sari h f) h f sarElem s

/-- ICMPI (R161). -/
def execIcmpi (h : Head) (f : IForm) (s : State) : Host.Outcome State Fault Refusal :=
  runThread (.icmpi h f) h f.len.bytes (fun p s => do
    let ty := IForm.type f
    let a ← s.read1 p f.a.toNat 0 (isTag ty.tag)
    .ok ((s.popPorts p [f.a.toNat]).putPred p f.d.toNat fun l =>
      holds (f.sub.toNat / 2 % 8) (ty.elem (a.at l) 0) (ty.elem f.imm 0))) s

/-- MOVI (R161, R162). -/
def execMovi (h : Head) (f : IForm) (s : State) : Host.Outcome State Fault Refusal :=
  runThread (.movi h f) h f.len.bytes (fun p s =>
    s.finish p [] f.d.toNat (tagOf f.sub.toNat) (fun _ => f.imm) noFlags) s

end Sys2Proof.Machine
end

