-- ==== Sys2Proof/Machine/Numbers.lean ====
section
/-!
DEFINITION. The floating formats, their rounding and the functions of the vector and matrix engines
on single elements (R199 to R212, R219 to R237): every result is computed from the exact value and
rounded once.
-/
namespace Sys2Proof.Machine

/-! ### Formats and values (R199, R201) -/

/-- A floating format: precision, exponent bits and emin. -/
structure FloatFmt where
  p : Nat
  ebits : Nat
  emin : Int
  deriving DecidableEq, Repr

/-- F32. -/
def f32 : FloatFmt := { p := 24, ebits := 8, emin := -126 }
/-- F16. -/
def f16 : FloatFmt := { p := 11, ebits := 5, emin := -14 }
/-- BF16. -/
def bf16 : FloatFmt := { p := 8, ebits := 8, emin := -126 }

/-- The bits of +∞: exponent all ones. -/
def FloatFmt.infBits (f : FloatFmt) : Nat := (2 ^ f.ebits - 1) * 2 ^ (f.p - 1)
/-- The sign bit. -/
def FloatFmt.signBit (f : FloatFmt) : Nat := 2 ^ (f.p - 1 + f.ebits)
/-- The canonical quiet NaN (R201). -/
def FloatFmt.nan (f : FloatFmt) : Nat := f.infBits + 2 ^ (f.p - 2)
/-- The exponent of the smallest subnormal. -/
def FloatFmt.low (f : FloatFmt) : Int := f.emin - f.p + 1
/-- The bits of a magnitude with a sign. -/
def FloatFmt.signed (f : FloatFmt) (neg : Bool) (mag : Nat) : Nat := if neg then f.signBit + mag else mag

/-- The value of an operand: NaN, an infinity, or the exact real ± m × 2^e. -/
inductive Num where
  | nan (signalling : Bool)
  | inf (neg : Bool)
  | fin (neg : Bool) (m : Nat) (e : Int)
  deriving DecidableEq, Repr

/-- The value that an encoding holds (R199). -/
def FloatFmt.value (f : FloatFmt) (x : Nat) : Num :=
  let neg := x / f.signBit % 2 == 1
  let mag := x % f.signBit
  let frac := mag % 2 ^ (f.p - 1)
  let ex := mag / 2 ^ (f.p - 1)
  if mag > f.infBits then .nan (frac < 2 ^ (f.p - 2))
  else if mag = f.infBits then .inf neg
  else if ex = 0 then .fin neg frac f.low
  else .fin neg (frac + 2 ^ (f.p - 1)) (f.low + (ex - 1))

/-- The operand is a NaN. -/
def Num.isNan : Num → Bool
  | .nan _ => true
  | _ => false
/-- The operand is a signalling NaN (R201). -/
def Num.isSnan : Num → Bool
  | .nan s => s
  | _ => false
/-- The operand is a NaN or an infinity. -/
def Num.special : Num → Bool
  | .fin _ _ _ => false
  | _ => true
/-- The operand is an infinity. -/
def Num.isInf : Num → Bool
  | .inf _ => true
  | _ => false
/-- The operand is a zero. -/
def Num.isZero : Num → Bool
  | .fin _ m _ => m == 0
  | _ => false
/-- The sign of an operand. -/
def Num.sign : Num → Bool
  | .nan _ => false
  | .inf n => n
  | .fin n _ _ => n
/-- The operand with its sign changed. -/
def Num.negate : Num → Num
  | .nan s => .nan s
  | .inf n => .inf (!n)
  | .fin n m e => .fin (!n) m e

/-- An exact dyadic number m × 2^e. -/
structure Dyad where
  m : Int
  e : Int
  deriving DecidableEq, Repr

/-- Zero. -/
def Dyad.zero : Dyad := { m := 0, e := 0 }

/-- The exact value of a finite operand; zero for the others. -/
def Num.dyad : Num → Dyad
  | .fin n m e => { m := if n then -(m : Int) else m, e := e }
  | _ => Dyad.zero

/-- The exact sum. -/
def Dyad.add (a b : Dyad) : Dyad :=
  let e := min a.e b.e
  { m := a.m * 2 ^ (a.e - e).toNat + b.m * 2 ^ (b.e - e).toNat, e := e }
/-- The exact product. -/
def Dyad.mul (a b : Dyad) : Dyad := { m := a.m * b.m, e := a.e + b.e }
/-- The exact negation. -/
def Dyad.neg (a : Dyad) : Dyad := { a with m := -a.m }
/-- The exact difference. -/
def Dyad.sub (a b : Dyad) : Dyad := a.add b.neg
/-- The number as an operand; `neg0` is the sign of a zero. -/
def Dyad.num (a : Dyad) (neg0 : Bool) : Num :=
  if a.m = 0 then .fin neg0 0 0 else .fin (a.m < 0) a.m.natAbs a.e
/-- The sum of a list. -/
def Dyad.sum (ds : List Dyad) : Dyad := ds.foldl Dyad.add Dyad.zero

/-! ### Rounding (R202, R203) -/

/-- A positive magnitude: n × 2^e exactly, or strictly between that and (n + 1) × 2^e when
`sticky`. -/
structure Approx where
  n : Nat
  e : Int
  sticky : Bool
  deriving DecidableEq, Repr

/-- An encoded result with the exceptions it raises. -/
structure Rounded where
  bits : Nat
  flags : Flags
  deriving DecidableEq, Repr

/-- floor(log2) of a magnitude. -/
def Approx.log (a : Approx) : Int := a.n.log2 + a.e

/-- A magnitude as a multiple of 2^k under a rounding code (R50), and whether that is inexact. -/
def Approx.toMultiple (a : Approx) (mode : Nat) (neg : Bool) (k : Int) : Nat × Bool :=
  let sh := k - a.e
  if sh ≤ 0 then (a.n <<< (-sh).toNat, a.sticky)
  else
    let s := sh.toNat
    let q := a.n >>> s
    let r := a.n % 2 ^ s
    let half := 2 ^ (s - 1)
    let exact := r == 0 && !a.sticky
    let above := r > half || (r == half && a.sticky)
    let tie := r == half && !a.sticky
    let up :=
      match mode with
      | 1 => above || (tie && q % 2 == 1)
      | 2 => false
      | 3 => !exact && !neg
      | 4 => !exact && neg
      | _ => above || tie
    (if up then q + 1 else q, !exact)

/-- What overflow delivers (R203): ∞ or the largest finite magnitude. -/
def FloatFmt.overflow (f : FloatFmt) (mode : Nat) (neg sat : Bool) : Rounded :=
  let toInf :=
    match mode with
    | 1 => true
    | 2 => false
    | 3 => !neg
    | 4 => neg
    | _ => true
  if sat then { bits := f.signed neg (f.infBits - 1), flags := flagSAT ||| flagXE }
  else { bits := f.signed neg (if toInf then f.infBits else f.infBits - 1), flags := flagOE ||| flagXE }

/-- round(v, fmt, mode) of R202 for a nonzero magnitude with a sign, with the flags of R203. -/
def FloatFmt.round (f : FloatFmt) (mode : Nat) (sat neg : Bool) (a : Approx) : Rounded :=
  if a.n = 0 && !a.sticky then { bits := f.signed neg 0, flags := 0 }
  else
    let lg := a.log
    let k := max lg f.emin - f.p + 1
    let (m, inexact) := a.toMultiple mode neg k
    let mag := (k - f.low).toNat * 2 ^ (f.p - 1) + m
    if mag ≥ f.infBits then f.overflow mode neg sat
    else
      let tiny := lg < f.emin &&
        let k' := lg - f.p + 1
        ((a.toMultiple mode neg k').1 < 2 ^ (f.emin - k').toNat)
      { bits := f.signed neg mag
        flags := flagIf inexact flagXE ||| flagIf (inexact && tiny) flagUE }

/-- Deliver an exact value: the canonical NaN, an infinity even with SAT, a zero with its sign, or
one rounding (R201, R203, R219). -/
def FloatFmt.deliver (f : FloatFmt) (mode : Nat) (sat : Bool) : Num → Rounded
  | .nan s => { bits := f.nan, flags := flagIf s flagIE }
  | .inf n => { bits := f.signed n f.infBits, flags := 0 }
  | .fin n m e => f.round mode sat n { n := m, e := e, sticky := false }

/-- The canonical NaN of an invalid operation. -/
def FloatFmt.invalid (f : FloatFmt) : Rounded := { bits := f.nan, flags := flagIE }

/-- IE for each signalling NaN among the operands, and the canonical NaN. -/
def FloatFmt.nanOf (f : FloatFmt) (xs : List Num) : Rounded :=
  { bits := f.nan, flags := flagIf (xs.any Num.isSnan) flagIE }

/-! ### Sums and products (R202, R219) -/

/-- The exact sum of two operands that are no NaN; none for ∞ − ∞. -/
def Num.plus (mode : Nat) (x y : Num) : Option Num :=
  match x, y with
  | .inf a, .inf b => if a == b then some (.inf a) else none
  | .inf a, _ => some (.inf a)
  | _, .inf b => some (.inf b)
  | x, y =>
    let s := x.dyad.add y.dyad
    let neg0 := if x.isZero && y.isZero && x.sign == y.sign then x.sign else mode == 4
    some (s.num neg0)

/-- The exact product of two operands that are no NaN; none for 0 × ∞. -/
def Num.times (x y : Num) : Option Num :=
  let neg := x.sign != y.sign
  match x, y with
  | .fin _ m e, .fin _ n d => some (.fin neg (m * n) (e + d))
  | x, y => if x.isZero || y.isZero then none else some (.inf neg)

/-- FADD on values. -/
def FloatFmt.addNum (f : FloatFmt) (mode : Nat) (sat : Bool) (x y : Num) : Rounded :=
  if x.isNan || y.isNan then f.nanOf [x, y]
  else
    match x.plus mode y with
    | none => f.invalid
    | some s => f.deliver mode sat s

/-- FMUL on values. -/
def FloatFmt.mulNum (f : FloatFmt) (mode : Nat) (sat : Bool) (x y : Num) : Rounded :=
  if x.isNan || y.isNan then f.nanOf [x, y]
  else
    match x.times y with
    | none => f.invalid
    | some s => f.deliver mode sat s

/-- FFMA on values (R219): IE for 0 × ∞ even when the addend is a quiet NaN. -/
def FloatFmt.fmaNum (f : FloatFmt) (mode : Nat) (sat : Bool) (x y z : Num) : Rounded :=
  let bad := !x.isNan && !y.isNan && x.times y == none
  if bad then f.invalid
  else if x.isNan || y.isNan || z.isNan then f.nanOf [x, y, z]
  else
    match x.times y with
    | none => f.invalid
    | some q =>
      match q.plus mode z with
      | none => f.invalid
      | some s => f.deliver mode sat s

/-- FADD, FSUB, FMUL and FFMA on encodings. -/
def FloatFmt.add (f : FloatFmt) (mode : Nat) (sat : Bool) (x y : Nat) : Rounded :=
  f.addNum mode sat (f.value x) (f.value y)
/-- FSUB. -/
def FloatFmt.sub (f : FloatFmt) (mode : Nat) (sat : Bool) (x y : Nat) : Rounded :=
  f.addNum mode sat (f.value x) (f.value y).negate
/-- FMUL. -/
def FloatFmt.mul (f : FloatFmt) (mode : Nat) (sat : Bool) (x y : Nat) : Rounded :=
  f.mulNum mode sat (f.value x) (f.value y)
/-- FFMA. -/
def FloatFmt.fma (f : FloatFmt) (mode : Nat) (sat : Bool) (x y z : Nat) : Rounded :=
  f.fmaNum mode sat (f.value x) (f.value y) (f.value z)

/-! ### Exact pairs (R205) -/

/-- An encoded pair with the exceptions it raises. -/
structure PairResult where
  hi : Nat
  lo : Nat
  flags : Flags
  deriving DecidableEq, Repr

/-- The residual of a rounded sum or product: exact, or rounded to nearest even with XINEX. -/
def FloatFmt.residual (f : FloatFmt) (s : Dyad) (r : Rounded) : PairResult :=
  let lo := f.deliver 1 false ((s.sub (f.value r.bits).dyad).num false)
  { hi := r.bits, lo := if lo.bits % f.signBit == 0 then 0 else lo.bits
    flags := r.flags ||| flagIf (lo.flags &&& flagXE != 0) flagXINEX }

/-- hi and lo of an operation whose rounded result is `r` and exact value `s`. -/
def FloatFmt.pairOf (f : FloatFmt) (x y : Num) (s : Dyad) (r : Rounded) : PairResult :=
  if x.special || y.special || (f.value r.bits).special || r.flags &&& flagOE != 0 then
    { hi := r.bits, lo := f.nan, flags := r.flags }
  else f.residual s r

/-- FADD.X. -/
def FloatFmt.addX (f : FloatFmt) (mode : Nat) (x y : Nat) : PairResult :=
  f.pairOf (f.value x) (f.value y) ((f.value x).dyad.add (f.value y).dyad) (f.add mode false x y)
/-- FSUB.X. -/
def FloatFmt.subX (f : FloatFmt) (mode : Nat) (x y : Nat) : PairResult :=
  f.pairOf (f.value x) (f.value y) ((f.value x).dyad.sub (f.value y).dyad) (f.sub mode false x y)
/-- FMUL.X. -/
def FloatFmt.mulX (f : FloatFmt) (mode : Nat) (x y : Nat) : PairResult :=
  f.pairOf (f.value x) (f.value y) ((f.value x).dyad.mul (f.value y).dyad) (f.mul mode false x y)

/-! ### Minimum, maximum, copy-sign, compare, class (R221 to R224) -/

/-- x orders below y, with −0 below +0, for operands that are no NaN. -/
def Num.below (x y : Num) : Bool :=
  match x, y with
  | .inf a, .inf b => a && !b
  | .inf a, _ => a
  | _, .inf b => !b
  | x, y =>
    let d := x.dyad.sub y.dyad
    if x.isZero && y.isZero then x.sign && !y.sign else d.m < 0

/-- FMIN and FMAX (R221). -/
def FloatFmt.minMax (f : FloatFmt) (max : Bool) (x y : Nat) : Rounded :=
  let a := f.value x
  let b := f.value y
  let fl := flagIf (a.isSnan || b.isSnan) flagIE
  if a.isNan && b.isNan then { bits := f.nan, flags := fl }
  else if a.isNan then { bits := y, flags := fl }
  else if b.isNan then { bits := x, flags := fl }
  else { bits := if a.below b != max then x else y, flags := fl }

/-- FCPYS (R222). -/
def FloatFmt.copySign (f : FloatFmt) (x y : Nat) : Rounded :=
  let a := f.value x
  if a.isNan then f.nanOf [a]
  else { bits := x % f.signBit + y / f.signBit % 2 * f.signBit, flags := 0 }

/-- FCMP (R223): the condition and its flags. -/
def FloatFmt.compare (f : FloatFmt) (cond x y : Nat) : Bool × Flags :=
  let a := f.value x
  let b := f.value y
  let un := a.isNan || b.isNan
  let lt := !un && a.below b && !(a.isZero && b.isZero)
  let gt := !un && b.below a && !(a.isZero && b.isZero)
  let r :=
    match cond with
    | 0 => !un && !lt && !gt
    | 1 => un || lt || gt
    | 2 => lt
    | 3 => !un && !gt
    | 4 => gt
    | 5 => !un && !lt
    | 6 => un
    | _ => !un
  (r, flagIf (a.isSnan || b.isSnan || (un && 2 ≤ cond && cond ≤ 5)) flagIE)

/-- FCLASS (R224). -/
def FloatFmt.classOf (f : FloatFmt) (x : Nat) : Nat :=
  let normal := 2 ^ (f.p - 1) ≤ x % f.signBit
  match f.value x with
  | .nan s => if s then 0x100 else 0x200
  | .inf n => if n then 0x001 else 0x080
  | .fin n m _ =>
    if m = 0 then (if n then 0x008 else 0x010)
    else if normal then (if n then 0x002 else 0x040)
    else (if n then 0x004 else 0x020)

/-! ### Integral rounding and scaling (R225, R226) -/

/-- FRND (R225). -/
def FloatFmt.integral (f : FloatFmt) (mode : Nat) (x : Nat) : Rounded :=
  match f.value x with
  | .nan s => f.nanOf [.nan s]
  | .inf _ => { bits := x, flags := 0 }
  | .fin n m e =>
    if m = 0 then { bits := x, flags := 0 }
    else
      let (q, inexact) := Approx.toMultiple { n := m, e := e, sticky := false } mode n 0
      { (f.deliver 1 false (.fin n q 0)) with flags := flagIf inexact flagXE }

/-- FSCALE (R226). Past ±1000 the scale changes no result and no flag. -/
def FloatFmt.scale (f : FloatFmt) (mode : Nat) (sat : Bool) (x : Nat) (n : Int) : Rounded :=
  let n := max (-1000) (min 1000 n)
  match f.value x with
  | .nan s => f.nanOf [.nan s]
  | .inf _ => { bits := x, flags := 0 }
  | .fin s m e => if m = 0 then { bits := x, flags := 0 } else f.deliver mode sat (.fin s m (e + n))

/-! ### Division and roots (R227) -/

/-- The integer square root by bits, from bit `b` down. -/
def isqrtFrom : Nat → Nat → Nat → Nat
  | 0, n, r => if (r + 1) * (r + 1) ≤ n then r + 1 else r
  | b + 1, n, r =>
    let t := r + 2 ^ (b + 1)
    isqrtFrom b n (if t * t ≤ n then t else r)

/-- The integer square root. -/
def isqrt (n : Nat) : Nat := isqrtFrom (n.log2 / 2 + 1) n 0

/-- m/n × 2^e with at least 64 significant bits. -/
def quotient (m n : Nat) (e : Int) : Approx :=
  let k := 80 + n.log2
  let a := m <<< k
  { n := a / n, e := e - k, sticky := a % n != 0 }

/-- √(m × 2^e) with at least 64 significant bits. -/
def rootOf (m : Nat) (e : Int) : Approx :=
  let odd := e % 2 != 0
  let a := (if odd then 2 * m else m) <<< 160
  let e' := (if odd then e - 1 else e) - 160
  let r := isqrt a
  { n := r, e := e' / 2, sticky := r * r != a }

/-- 1/√(m × 2^e) with at least 64 significant bits. -/
def recipRoot (m : Nat) (e : Int) : Approx :=
  let odd := e % 2 != 0
  let mm := if odd then 2 * m else m
  let ee := if odd then e - 1 else e
  let k := 2 * (90 + mm.log2)
  let r := isqrt (2 ^ k / mm)
  { n := r, e := -(ee / 2) - k / 2, sticky := r * r * mm != 2 ^ k }

/-- FDIV (R227). -/
def FloatFmt.div (f : FloatFmt) (mode : Nat) (sat : Bool) (x y : Nat) : Rounded :=
  let a := f.value x
  let b := f.value y
  let neg := a.sign != b.sign
  if a.isNan || b.isNan then f.nanOf [a, b]
  else
    match a, b with
    | .inf _, .inf _ => f.invalid
    | .inf _, _ => { bits := f.signed neg f.infBits, flags := 0 }
    | _, .inf _ => { bits := f.signed neg 0, flags := 0 }
    | .fin _ m e, .fin _ n d =>
      if n = 0 then
        if m = 0 then f.invalid else { bits := f.signed neg f.infBits, flags := flagDZ }
      else if m = 0 then { bits := f.signed neg 0, flags := 0 }
      else f.round mode sat neg (quotient m n (e - d))
    | _, _ => f.invalid

/-- FRCP (R227). -/
def FloatFmt.recip (f : FloatFmt) (mode : Nat) (sat : Bool) (x : Nat) : Rounded :=
  match f.value x with
  | .nan s => f.nanOf [.nan s]
  | .inf n => { bits := f.signed n 0, flags := 0 }
  | .fin n m e =>
    if m = 0 then { bits := f.signed n f.infBits, flags := flagDZ }
    else f.round mode sat n (quotient 1 m (-e))

/-- FSQRT (R227). -/
def FloatFmt.sqrt (f : FloatFmt) (mode : Nat) (x : Nat) : Rounded :=
  match f.value x with
  | .nan s => f.nanOf [.nan s]
  | .inf n => if n then f.invalid else { bits := x, flags := 0 }
  | .fin n m e =>
    if m = 0 then { bits := x, flags := 0 }
    else if n then f.invalid
    else f.round mode false false (rootOf m e)

/-- FRSQ (R227). -/
def FloatFmt.rsqrt (f : FloatFmt) (mode : Nat) (x : Nat) : Rounded :=
  match f.value x with
  | .nan s => f.nanOf [.nan s]
  | .inf n => if n then f.invalid else { bits := 0, flags := 0 }
  | .fin n m e =>
    if m = 0 then { bits := f.signed n f.infBits, flags := flagDZ }
    else if n then f.invalid
    else f.round mode false false (recipRoot m e)

/-! ### Transcendental functions by interval refinement (R227)

Fixed point with `w` fraction bits; every function below is within 2^40 units of its exact value. -/

/-- Sum of t^k / k! from the term `term` of index `k`, all terms positive. -/
def expSeries : Nat → Nat → Nat → Nat → Nat → Nat
  | 0, _, _, _, _ => 0
  | fuel + 1, w, t, k, term =>
    if term = 0 then 0 else term + expSeries fuel w t (k + 1) (((term * t) >>> w) / (k + 1))

/-- Sum of z^(2k+1) / (2k+1). -/
def atanhSeries : Nat → Nat → Nat → Nat → Nat → Nat
  | 0, _, _, _, _ => 0
  | fuel + 1, w, z2, k, pow =>
    if pow = 0 then 0 else pow / (2 * k + 1) + atanhSeries fuel w z2 (k + 1) ((pow * z2) >>> w)

/-- ln(num/den) for a ratio of 1 to 2. -/
def lnRatio (w num den : Nat) : Nat :=
  let z := ((num - den) <<< w) / (num + den)
  2 * atanhSeries w w ((z * z) >>> w) 0 z

/-- ln 2. -/
def ln2 (w : Nat) : Nat := lnRatio w 2 1

/-- arctan(1/n), the even terms less the odd ones. -/
def atanInv (w n : Nat) : Nat :=
  let rec go : Nat → Nat → Nat → Nat × Nat
    | 0, _, _ => (0, 0)
    | fuel + 1, k, pow =>
      if pow = 0 then (0, 0)
      else
        let r := go fuel (k + 1) (pow / (n * n))
        if k % 2 = 0 then (r.1 + pow / (2 * k + 1), r.2) else (r.1, r.2 + pow / (2 * k + 1))
  let r := go w 0 (2 ^ w / n)
  r.1 - r.2

/-- π by Machin's formula. -/
def piFixed (w : Nat) : Nat := 16 * atanInv w 5 - 4 * atanInv w 239

/-- The alternating sums of t^k / k! by steps of two from index `k`: sine from 1, cosine from 0. -/
def trigSeries : Nat → Nat → Nat → Nat → Nat → Bool → Nat × Nat
  | 0, _, _, _, _, _ => (0, 0)
  | fuel + 1, w, t2, k, term, pos =>
    if term = 0 then (0, 0)
    else
      let r := trigSeries fuel w t2 (k + 2) (((term * t2) >>> w) / ((k + 1) * (k + 2))) (!pos)
      if pos then (r.1 + term, r.2) else (r.1, r.2 + term)

/-- A magnitude known within 2^40 units of 2^(e), rounded when the interval decides it. -/
def FloatFmt.roundNear (f : FloatFmt) (mode : Nat) (sat neg : Bool) (v : Nat) (e : Int) : Option Rounded :=
  let slack := 2 ^ 40
  if v < 2 ^ 90 then none
  else
    let lo := f.round mode sat neg { n := v - slack, e := e, sticky := true }
    let hi := f.round mode sat neg { n := v + slack - 1, e := e, sticky := true }
    if lo = hi then some lo else none

/-- The first precision that decides, from `w` bits on, each twice the one before, at most `n` of them. -/
def refine (go : Nat → Option Rounded) : Nat → Nat → Option Rounded
  | 0, _ => none
  | n + 1, w =>
    match go w with
    | some r => some r
    | none => refine go n (2 * w)

/-- The result once a precision of 2^8 to 2^27 bits decides it. The exact value is then strictly between two numbers
that round alike, so the result is the correctly rounded one (R202). Past them a value that nothing constrains
(entry 9): a value that is not exactly representable lies farther from every boundary than that. -/
def firstDecided (op x : Nat) (go : Nat → Option Rounded) : Rounded :=
  match refine go 20 256 with
  | some r => r
  | none => { bits := Config.freeRounding op x, flags := flagXE }

/-- A finite magnitude as fixed point; exact when w covers its fraction. -/
def toFixed (w m : Nat) (e : Int) : Nat :=
  let s := e + w
  if s ≥ 0 then m <<< s.toNat else m >>> (-s).toNat

/-- FEXP2 (R227). -/
def FloatFmt.exp2 (f : FloatFmt) (mode : Nat) (sat : Bool) (x : Nat) : Rounded :=
  match f.value x with
  | .nan s => f.nanOf [.nan s]
  | .inf n => { bits := if n then 0 else f.infBits, flags := 0 }
  | .fin n m e =>
    if m = 0 then f.deliver mode sat (.fin false 1 0)
    else if (m.log2 : Int) + e ≥ 15 then
      f.round mode sat false { n := 2 ^ 80, e := if n then -5000 else 5000, sticky := true }
    else
      let w0 := 256
      let fx := toFixed w0 m e
      let whole : Int := if n then -((fx : Int) / 2 ^ w0) else (fx : Int) / 2 ^ w0
      let part := fx % 2 ^ w0
      if part = 0 then f.deliver mode sat (.fin false 1 whole)
      else
        let i : Int := if n then whole - 1 else whole
        let fr := if n then 2 ^ w0 - part else part
        firstDecided 0x6B x fun w =>
          let t := ((fr <<< (w - w0)) * ln2 w) >>> w
          f.roundNear mode sat false (expSeries w w t 0 (2 ^ w)) (i - w)

/-- FLOG2 (R227). -/
def FloatFmt.log2 (f : FloatFmt) (mode : Nat) (x : Nat) : Rounded :=
  match f.value x with
  | .nan s => f.nanOf [.nan s]
  | .inf n => if n then f.invalid else { bits := f.infBits, flags := 0 }
  | .fin n m e =>
    if m = 0 then { bits := f.signed true f.infBits, flags := flagDZ }
    else if n then f.invalid
    else
      let lg := m.log2
      let k : Int := lg + e
      if m = 2 ^ lg then f.deliver mode false (.fin (k < 0) k.natAbs 0)
      else
        firstDecided 0x6C x fun w =>
          let v : Int := k * 2 ^ w + ((lnRatio w m (2 ^ lg)) <<< w) / ln2 w
          f.roundNear mode false (v < 0) v.natAbs (-w)

/-- The magnitude of sin(πr) or cos(πr) for r of 0 to 1/2 in fixed point. -/
def trigFixed (w r : Nat) (cosine : Bool) : Nat :=
  let t := (r * piFixed w) >>> w
  let s := if cosine then trigSeries w w ((t * t) >>> w) 0 (2 ^ w) true
    else trigSeries w w ((t * t) >>> w) 1 t true
  s.1 - s.2

/-- FSINP and FCOSP (R227). -/
def FloatFmt.trig (f : FloatFmt) (mode : Nat) (cosine : Bool) (x : Nat) : Rounded :=
  match f.value x with
  | .nan s => f.nanOf [.nan s]
  | .inf _ => f.invalid
  | .fin n m e =>
    let w0 := 256
    let one := 2 ^ w0
    let r := toFixed w0 m e % (2 * one)
    if m = 0 then
      if cosine then f.deliver mode false (.fin false 1 0) else { bits := x, flags := 0 }
    else if cosine then
      let r := if r > one then 2 * one - r else r
      if 2 * r = one then { bits := 0, flags := 0 }
      else if r = 0 then f.deliver mode false (.fin false 1 0)
      else if r = one then f.deliver mode false (.fin true 1 0)
      else
        let neg := 2 * r > one
        let q := if neg then one - r else r
        firstDecided 0x6E x fun w => f.roundNear mode false neg (trigFixed w (q <<< (w - w0)) true) (-w)
    else
      let flip := r ≥ one
      let r := if flip then r - one else r
      let neg := n != flip
      if r = 0 then { bits := f.signed n 0, flags := 0 }
      else if 2 * r = one then f.deliver mode false (.fin neg 1 0)
      else
        let q := if 2 * r > one then one - r else r
        firstDecided 0x6D x fun w => f.roundNear mode false neg (trigFixed w (q <<< (w - w0)) false) (-w)

/-- FTANH (R227). -/
def FloatFmt.tanh (f : FloatFmt) (mode : Nat) (x : Nat) : Rounded :=
  match f.value x with
  | .nan s => f.nanOf [.nan s]
  | .inf n => f.deliver mode false (.fin n 1 0)
  | .fin n m e =>
    if m = 0 then { bits := x, flags := 0 }
    else if (m.log2 : Int) + e ≥ 7 then f.round mode false n { n := 2 ^ 80 - 1, e := -80, sticky := true }
    else
      firstDecided 0x6F x fun w =>
        let y := 2 * toFixed w m e
        let u := (y <<< w) / ln2 w
        let t := ((u % 2 ^ w) * ln2 w) >>> w
        let ex := expSeries w w t 0 (2 ^ w) <<< (u >>> w)
        f.roundNear mode false n (((ex - 2 ^ w) <<< w) / (ex + 2 ^ w)) (-w)

/-! ### Conversions (R204, R232 to R235) -/

/-- A floating value as an integer in a range (R204). -/
def toInteger (mode : Nat) (lo hi : Int) : Num → Int × Flags
  | .nan _ => (0, flagIE)
  | .inf n => (if n then lo else hi, flagSAT ||| flagXE)
  | .fin n m e =>
    let (q, inexact) := Approx.toMultiple { n := m, e := e, sticky := false } mode n 0
    let v : Int := if n then -(q : Int) else q
    if v < lo then (lo, flagSAT ||| flagXE)
    else if v > hi then (hi, flagSAT ||| flagXE)
    else (v, flagIf inexact flagXE)

/-- A value narrowed, widened or converted to a floating format, saturating (R204). -/
def FloatFmt.convert (f : FloatFmt) (mode : Nat) (x : Num) : Rounded := f.deliver mode true x

/-- An integer as an operand. -/
def intNum (v : Int) : Num := .fin (v < 0) v.natAbs 0

/-! ### Double-word values (R206, R228 to R230) -/

/-- A step of R229: the value, its flags of interest, and the sign of an overflow. -/
structure DwStep where
  flags : Flags
  ovf : Option Bool
  deriving DecidableEq, Repr

/-- Nothing has happened yet. -/
def DwStep.start : DwStep := { flags := 0, ovf := none }

/-- The smallest normal magnitude of F32. -/
def f32Small (x : Nat) : Bool := x % f32.signBit < 2 ^ 23

/-- Take the flags of one RN, up to the first step that overflows (R230). -/
def DwStep.note (d : DwStep) (r : Rounded) : DwStep :=
  if d.ovf.isSome then d
  else
  { flags := d.flags ||| (r.flags &&& flagIE) ||| flagIf (r.flags &&& flagXE != 0 && f32Small r.bits) flagUE
    ovf := if r.flags &&& flagOE != 0 then some (f32.signBit ≤ r.bits) else none }

/-- RN(a + b). -/
def dwAdd (d : DwStep) (a b : Nat) : Nat × DwStep :=
  let r := f32.add 1 false a b
  (r.bits, d.note r)
/-- RN(a × b). -/
def dwMul (d : DwStep) (a b : Nat) : Nat × DwStep :=
  let r := f32.mul 1 false a b
  (r.bits, d.note r)
/-- RN(a × b + c). -/
def dwFma (d : DwStep) (a b c : Nat) : Nat × DwStep :=
  let r := f32.fma 1 false a b c
  (r.bits, d.note r)
/-- two_sum (R229). -/
def dwTwoSum (d : DwStep) (a b : Nat) : Nat × Nat × DwStep :=
  let r := f32.addX 1 a b
  (r.hi, r.lo, d.note { bits := r.hi, flags := r.flags })
/-- two_prod (R229). -/
def dwTwoProd (d : DwStep) (a b : Nat) : Nat × Nat × DwStep :=
  let r := f32.mul 1 false a b
  let d := d.note r
  let e := f32.fma 1 false a b ((r.bits + f32.signBit) % 2 ^ 32)
  let d := d.note e
  (r.bits, e.bits, { d with flags := d.flags ||| flagIf (e.flags &&& flagXE != 0) flagXINEX })

/-- The exact value of a pair (R206). -/
def pairValue (h l : Nat) : Dyad := (f32.value h).dyad.add (f32.value l).dyad

/-- The result of R229 with the overflow and the XE of R230. -/
def DwStep.finish (d : DwStep) (zh zl : Nat) (ins : List Nat) (exact : Dyad) : PairResult :=
  match d.ovf with
  | some neg => { hi := f32.signed neg f32.infBits, lo := f32.nan, flags := (d.flags &&& flagIE) ||| flagOE ||| flagXE }
  | none =>
    let fin := (zh :: zl :: ins).all fun x => !(f32.value x).special
    { hi := zh, lo := zl
      flags := d.flags ||| flagIf (fin && (exact.sub (pairValue zh zl)).m != 0) flagXE }

/-- NaN or infinite input (R230). -/
def dwSpecial (r : Rounded) : PairResult :=
  { hi := r.bits, lo := f32.nan, flags := r.flags &&& (flagIE ||| flagOE ||| flagXE) }

/-- DWADD. -/
def dwadd (xh xl yh yl : Nat) : PairResult :=
  if (f32.value xh).special || (f32.value yh).special then dwSpecial (f32.add 1 false xh yh)
  else
    let (sh, sl, d) := dwTwoSum DwStep.start xh yh
    let (th, tl, d) := dwTwoSum d xl yl
    let (c, d) := dwAdd d sl th
    let (vh, vl, d) := dwTwoSum d sh c
    let (w, d) := dwAdd d tl vl
    let (zh, zl, d) := dwTwoSum d vh w
    d.finish zh zl [xh, xl, yh, yl] ((pairValue xh xl).add (pairValue yh yl))

/-- DWADDS. -/
def dwadds (xh xl y : Nat) : PairResult :=
  if (f32.value xh).special || (f32.value y).special then dwSpecial (f32.add 1 false xh y)
  else
    let (sh, sl, d) := dwTwoSum DwStep.start xh y
    let (v, d) := dwAdd d xl sl
    let (zh, zl, d) := dwTwoSum d sh v
    d.finish zh zl [xh, xl, y] ((pairValue xh xl).add (f32.value y).dyad)

/-- DWMUL. -/
def dwmul (xh xl yh yl : Nat) : PairResult :=
  if (f32.value xh).special || (f32.value yh).special then dwSpecial (f32.mul 1 false xh yh)
  else
    let (ch, ca, d) := dwTwoProd DwStep.start xh yh
    let (m0, d) := dwMul d xl yl
    let (m1, d) := dwFma d xh yl m0
    let (cb, d) := dwFma d xl yh m1
    let (cc, d) := dwAdd d ca cb
    let (zh, zl, d) := dwTwoSum d ch cc
    d.finish zh zl [xh, xl, yh, yl] ((pairValue xh xl).mul (pairValue yh yl))

/-- DWMULS. -/
def dwmuls (xh xl y : Nat) : PairResult :=
  if (f32.value xh).special || (f32.value y).special then dwSpecial (f32.mul 1 false xh y)
  else
    let (ch, ca, d) := dwTwoProd DwStep.start xh y
    let (cb, d) := dwMul d xl y
    let (th, tl, d) := dwTwoSum d ch cb
    let (w, d) := dwAdd d tl ca
    let (zh, zl, d) := dwTwoSum d th w
    d.finish zh zl [xh, xl, y] ((pairValue xh xl).mul (f32.value y).dyad)

/-- DWNORM. -/
def dwnorm (xh xl : Nat) : PairResult :=
  match f32.value xh with
  | .nan s => { hi := f32.nan, lo := f32.nan, flags := flagIf s flagIE }
  | .inf _ => { hi := xh, lo := f32.nan, flags := 0 }
  | .fin _ _ _ =>
    let (zh, zl, d) := dwTwoSum DwStep.start xh xl
    d.finish zh zl [xh, xl] (pairValue xh xl)

/-! ### Lane reductions (R211, R212, R231) -/

/-- One level of the tree ovf the nodes present. -/
def treeLevel {α : Type} (combine : α → α → α) : List (Option α) → List (Option α)
  | a :: b :: t =>
    (match a, b with
      | some x, some y => some (combine x y)
      | some x, none => some x
      | none, y => y) :: treeLevel combine t
  | l => l

/-- The tree of R211 ovf 64 lanes. -/
def treeFold {α : Type} (combine : α → α → α) (leaves : List (Option α)) : Option α :=
  ((List.range 6).foldl (fun l _ => treeLevel combine l) leaves).headD none

/-- A lane's operand as a leaf: no payload and no sign of a NaN is carried on, and a signalling one sets IE, also
where it is the only leaf (R201, R211). -/
def leafOf (x : Nat) : Rounded :=
  if (f32.value x).isNan then { bits := f32.nan, flags := flagIf (f32.value x).isSnan flagIE }
  else { bits := x, flags := 0 }

/-- VRSUM (R231). -/
def vrsum (mode : Nat) (sat : Bool) (leaves : List (Option Nat)) : Rounded :=
  let comb (a b : Rounded) : Rounded :=
    let r := f32.add mode sat a.bits b.bits
    { r with flags := r.flags ||| a.flags ||| b.flags }
  (treeFold comb (leaves.map fun o => o.map leafOf)).getD { bits := 0, flags := 0 }

/-- VRMAX and VRMIN (R231). -/
def vrmm (max : Bool) (leaves : List (Option Nat)) : Rounded :=
  let comb (a b : Rounded) : Rounded :=
    let r := f32.minMax max a.bits b.bits
    { r with flags := r.flags ||| a.flags ||| b.flags }
  (treeFold comb (leaves.map fun o => o.map leafOf)).getD
    { bits := f32.nan, flags := 0 }

/-- A node of R212: the pair, and whether a sum below it overflowed. -/
structure PairNode where
  h : Nat
  e : Nat
  ovf : Bool
  deriving DecidableEq, Repr

/-- combine of R212. -/
def combinePair (a b : PairNode) : PairNode :=
  let s := f32.addX 1 a.h b.h
  let e1 := f32.add 1 false a.e b.e
  let e2 := f32.add 1 false e1.bits s.lo
  { h := s.hi, e := e2.bits
    ovf := a.ovf || b.ovf || (s.flags ||| e1.flags ||| e2.flags) &&& flagOE != 0 }

/-- The pair reduction of VRSUMC and VRDOTC (R212, R231): `exact` are the exact leaf values, `infinite` says that one
of them is infinite, and `extra` are the flags that the leaves bring. Where the sum is infinite or overflows, XE says
that a number was delivered that is not the exact sum; a canonical NaN sets none (R203). -/
def pairTree (leaves : List (Option (Nat × Nat))) (exact : List Dyad) (infinite : Bool) (extra : Flags) : PairResult :=
  let nodes := leaves.map fun o => o.map fun x => ({ h := x.1, e := x.2, ovf := false } : PairNode)
  let special := leaves.any fun o => match o with
    | some x => (f32.value x.1).special
    | none => false
  let top := (treeFold combinePair nodes).getD { h := 0, e := 0, ovf := false }
  let last := f32.addX 1 top.h top.e
  let ovf := top.ovf || last.flags &&& flagOE != 0
  if special || ovf then
    let s := vrsum 1 false (leaves.map fun o => o.map (·.1))
    { hi := s.bits, lo := f32.nan
      flags := extra ||| (s.flags &&& (flagIE ||| flagOE)) ||| flagIf ovf flagOE |||
        flagIf (!infinite && !(f32.value s.bits).isNan) flagXE }
  else
    let bad := leaves.any fun o => match o with
      | some x => (f32.value x.2).special
      | none => false
    let xe := !bad && ((Dyad.sum exact).sub (pairValue last.hi last.lo)).m != 0
    { hi := last.hi, lo := last.lo
      flags := extra ||| flagIf xe flagXE ||| flagIf (xe && f32Small last.hi) flagUE |||
        ((vrsum 1 false (leaves.map fun o => o.map (·.2))).flags &&& flagIf bad flagIE) }

/-- VRSUMC (R231) over single operands or pairs. -/
def vrsumc (leaves : List (Option (Nat × Nat))) : PairResult :=
  let present := leaves.filterMap id
  let snan := present.any fun x => (f32.value x.1).isSnan || (f32.value x.2).isSnan
  pairTree leaves (present.map fun x => pairValue x.1 x.2) (present.any fun x => (f32.value x.1).isInf)
    (flagIf snan flagIE)

/-- VRDOTC (R231) over operand pairs. -/
def vrdotc (leaves : List (Option (Nat × Nat))) : PairResult :=
  let prods := leaves.map fun o => o.map fun x => f32.mulX 1 x.1 x.2
  let present := leaves.filterMap id
  let extra := orFlags (prods.map fun o => match o with
    | some r => r.flags &&& (flagIE ||| flagOE ||| flagXINEX)
    | none => 0)
  pairTree (prods.map fun o => o.map fun r => (r.hi, r.lo))
    (present.map fun x => (f32.value x.1).dyad.mul (f32.value x.2).dyad)
    (present.any fun x => (f32.value x.1).isInf || (f32.value x.2).isInf) extra

/-! ### Block formats (R207, R208) -/

/-- T and mmax of BX8 (false) and BX4 (true). -/
def bxT (four : Bool) : Int := if four then 128 else 132
/-- The largest element magnitude. -/
def bxMax (four : Bool) : Nat := if four then 3 else 63

/-- A converted block: exponents, elements and flags. -/
structure BxBlock where
  e0 : Nat
  e1 : Nat
  elems : List Nat
  flags : Flags
  deriving DecidableEq, Repr

/-- The larger of two finite magnitudes. -/
def dyadMax (a b : Dyad) : Dyad := if (a.sub b).m < 0 then b else a

/-- One element of R208. -/
def bxElem (four : Bool) (e0 e1 : Nat) (x : Num) : Nat × Flags :=
  let mmax := bxMax four
  let enc (s neg : Bool) (m : Nat) : Nat :=
    if m = 0 then 0
    else (if s then 2 * (mmax + 1) else 0) + (if neg then mmax + 1 else 0) + m
  match x with
  | .nan _ => (0, 0)
  | .inf n => (enc true n mmax, flagSAT ||| flagXE)
  | .fin n m e =>
    let at_ (ex : Nat) : Nat × Bool :=
      Approx.toMultiple { n := m, e := e, sticky := false } 1 n ((ex : Int) - bxT four)
    let q := at_ e0
    if q.1 ≤ mmax then (enc false n q.1, flagIf q.2 flagXE)
    else
      let q' := at_ e1
      if q'.1 > mmax then (enc true n mmax, flagSAT ||| flagXE)
      else (enc true n q'.1, flagIf q'.2 flagXE)

/-- Conversion of values into one block (R208); an absent value takes part in nothing. -/
def bxConvert (four : Bool) (k : Nat) (xs : List (Option Num)) : BxBlock :=
  let present := xs.filterMap id
  if present.any Num.isNan then { e0 := 0xFF, e1 := 0xFF, elems := xs.map fun _ => 0, flags := 0 }
  else
    let top := (present.map fun x => { x.dyad with m := x.dyad.m.natAbs }).foldl dyadMax Dyad.zero
    let e1 : Int :=
      if present.any Num.isInf then 254
      else if top.m = 0 then 1
      else max 1 (min 254 ((top.m.natAbs.log2 : Int) + top.e + 127))
    let e0 := (max (e1 - k) 0).toNat
    let es := xs.map fun o => match o with
      | some x => bxElem four e0 e1.toNat x
      | none => (0, 0)
    { e0 := e0, e1 := e1.toNat, elems := es.map (·.1), flags := orFlags (es.map (·.2)) }

/-- The value of an element (R207). -/
def bxValue (four : Bool) (e0 e1 x : Nat) : Num :=
  let one := bxMax four + 1
  let m := x % one
  let neg := x / one % 2 == 1
  if e0 = 0xFF || e1 = 0xFF then .nan false
  else if m = 0 then .fin false 0 0
  else .fin neg m (((if x / (2 * one) % 2 == 1 then e1 else e0) : Int) - bxT four)

end Sys2Proof.Machine
end

