-- ==== Sys2Proof/Machine/Memory.lean ====
section
/-!
DEFINITION. The memory majors (R239, R248 to R260).
-/
namespace Sys2Proof.Machine

/-! ### Addresses (R239) -/

/-- AM of a memory instruction. -/
def MForm.mode (f : MForm) : Nat := f.sub.toNat / 16
/-- KIND of a memory instruction (R241). -/
def MForm.kind (f : MForm) : Nat := f.sub.toNat % 16

/-- The space of an address mode. -/
def modeSpace (am : Nat) : Space := if 4 ≤ am && am ≤ 6 then .priv else .global

/-- The index of a lane, extended by its tag. -/
def indexAt (o : Operand) (l : Nat) : DWord :=
  if o.tag == .i32 then (o.at l).signExtend 64 else (o.at l).setWidth 64

/-- The index operand; none names zero. -/
def State.memIndex (s : State) (p : Path) (f : MForm) (am : Nat) : Exe Operand :=
  if amIndexed am then s.read1 p f.a.toNat 0 isInt32 else .ok { tag := .n32, lanes := [] }

/-- The index's register checks, which come before those of store data (R117). -/
def State.memChecks (s : State) (p : Path) (f : MForm) (am : Nat) : Exe Unit :=
  if amIndexed am then s.checkOperand p 0 f.a.toNat isInt32 else .ok ()

/-- The source fields that pop (R85). -/
def MForm.fields (f : MForm) (am : Nat) : List Nat := if amIndexed am then [f.a.toNat] else []

/-- Address or offset of a lane (R239). -/
def State.laneAddr (s : State) (p : Path) (f : MForm) (am size : Nat) (o : Operand) (l : Nat) : DWord :=
  (if am ≤ 2 then s.kAt p f.kb.toNat else 0) +
    (if am = 0 || am = 3 || am = 4 then indexAt o l * BitVec.ofNat 64 size else indexAt o l) +
    f.off.signExtend 64

/-- The accesses of the active lanes (R239). -/
def State.wants (s : State) (p : Path) (f : MForm) (am size : Nat) (o : Operand) : List Want :=
  p.active.lanes.map fun l => { lane := l, addr := s.laneAddr p f am size o l }

/-! ### Ordering modifiers (R94, R195, R392) -/

/-- ORD makes the access an acquire. -/
def isAcq (ord : BitVec 3) : Bool := ord == 1 || ord == 3 || ord == 4
/-- ORD makes the access a release. -/
def isRel (ord : BitVec 3) : Bool := ord == 2 || ord == 3 || ord == 4

/-- Where a piece lies in device DRAM, if it does. -/
def Hit.dramAddr (h : Hit) : Option Nat :=
  h.x.bind fun x => if x.host || x.peer then none else some (x.addr h.va)

/-- An entry of its bank's replay log, with the bank's sequence number; a full ring stops logging (R195, R196). -/
def State.addReplay (s : State) (sector core slot lane kind : Nat) : State :=
  let bank := Config.bankOf sector % Config.banks
  let n := (s.replay.filter fun e => e.bank == bank).length
  if n < ringEntries then
    { s with replay := s.replay ++ [{ bank := bank, seq := n, sector := sector, core := core, slot := slot, lane := lane, kind := kind }] }
  else s

/-- An entry of the replay log for each piece in device DRAM, while DEBUG is 1 (R195). -/
def State.logOps (s : State) (p : Path) (kind : Nat) (hs : List Hit) : State :=
  if s.debugOf p then
    hs.foldl (fun s h => match h.dramAddr with
      | some a => s.addReplay (sectorOf a) p.core ((s.troupe p).slot.getD 0) h.lane kind
      | none => s) s
  else s

/-- Releases leave a mark that later acquires find (R95, R195). -/
def State.markReleases (s : State) (p : Path) (rel : Bool) (hs : List Hit) : State :=
  if rel && s.debugOf p then
    { s with
      releases := s.releases ++ hs.filterMap fun h => h.dramAddr.map fun a =>
        { addr := a, size := h.size, core := p.core, blk := p.blk, troupe := p.at_.troupe
          slot := (s.troupe p).slot.getD 0, lane := h.lane, logged := false } }
  else s

/-- One acquire's pair, when it reads a release of another troupe (R195). -/
def State.logPair (s : State) (p : Path) (h : Hit) : State :=
  match h.dramAddr with
  | none => s
  | some a =>
    match s.releases.find? fun r => r.addr < a + h.size && a < r.addr + r.size &&
        (r.core, r.blk, r.troupe) != (p.core, p.blk, p.at_.troupe) with
    | none => s
    | some r =>
      let s := if r.logged then s else
        { s.addReplay (sectorOf r.addr) r.core r.slot r.lane 1 with
          releases := s.releases.map fun x => if x == r then { x with logged := true } else x }
      s.logOps p 2 [h]

/-- The pairs of an acquire (R195). -/
def State.logAcquires (s : State) (p : Path) (acq : Bool) (hs : List Hit) : State :=
  if acq && s.debugOf p then hs.foldl (fun s h => s.logPair p h) s else s

/-! ### Loads (R250, R251) -/

/-- The registers that a load gives: the loaded value in the active lanes, the old value elsewhere. -/
def State.loadData (s : State) (p : Path) (regs : List (Nat × Tag)) (v : Nat → Nat → Word) : List RegData :=
  let t := s.troupe p
  regs.mapIdx fun j r =>
    { reg := r.1, tag := r.2
      lanes := laneNumbers.map fun l => if p.active.has l then v j l else (t.reg r.1).at l }

/-- A deferred access of the active lanes (R119). -/
def State.defer (s : State) (p : Path) (d : List RegData) (hs : List Hit) (kind : Nat)
    (poison : Option (Nat × DWord)) : State :=
  let x : Deferred :=
    { rid := s.nextId, lanes := p.active, fresh := p.active, data := d, pieces := hs, kind := kind
      returned := false, poison := poison, kept := [], peer := hs.any fun h => match h.x with
        | some x => x.peer
        | none => false }
  { (s.mod p fun t => { t with deferred := t.deferred ++ [x] }) with nextId := s.nextId + 1 }

/-- An access is carried over the Berzin link (R431). -/
def anyPeer (hs : List Hit) : Bool := hs.any fun h => match h.x with
  | some x => x.peer
  | none => false

/-- LD (R250): it departs with its data, or with DEF leaves it for DEPART. -/
def execLd (h : Head) (f : MForm) (s : State) : Host.Outcome State Fault Refusal :=
  runThread (.ld h f) h 12 (fun p s => do
    let am := MForm.mode f
    let kind := MForm.kind f
    let regs := kindRegs kind f.d.toNat
    let o ← s.memIndex p f am
    (s.troupe p).checkDest p (regs.map (·.1))
    let hs ← s.access p (modeSpace am) (kindSize kind) false false (s.wants p f am (kindSize kind) o)
    if !f.def_ then s.checkPoison hs
    let data := s.loadData p regs fun j l => kindWord kind j (s.laneValue p.core hs l)
    let s := (((s.popPorts p (MForm.fields f am)).touchHits p hs).logAcquires p (isAcq f.ord) hs).sealRegion p (isRel f.ord)
    if f.def_ then .ok (s.defer p data hs kind (s.piecesPoison hs))
    else s.depart p .data p.next 0 fun r => { r with data := data, peer := anyPeer hs }) s

/-- LDL (R250); where a matrix command is writing what it reads, each word is old or new (R17). -/
def execLdl (h : Head) (f : MForm) (s : State) : Host.Outcome State Fault Refusal :=
  runThread (.ldl h f) h 12 (fun p s => do
    let am := MForm.mode f
    let kind := MForm.kind f
    let regs := kindRegs kind f.d.toNat
    let o ← s.memIndex p f am
    (s.troupe p).checkDest p (regs.map (·.1))
    let hs ← s.access p .loc (kindSize kind) false false (s.wants p f am (kindSize kind) o)
    .ok (((s.popPorts p (MForm.fields f am)).drawn p.core).putGroup p f.d.toNat
      (regs.mapIdx fun j r => (r.2, fun l => kindWord kind j ((s.loadView p.core l).laneValue p.core hs l))))) s

/-- LDK (R252): one access for the path, on behalf of its lowest active lane. -/
def execLdk (h : Head) (f : MForm) (s : State) : Host.Outcome State Fault Refusal :=
  runThread (.ldk h f) h 12 (fun p s => do
    let size := if f.sub = 0 then 8 else 4
    let l := p.active.lowest
    let hs ← s.access p .global size false false [{ lane := l, addr := s.laneAddr p f 2 size { tag := .n32, lanes := [] } l }]
    s.checkPoison hs
    let v := s.laneValue p.core hs l
    let x : DWord := if f.sub = 2 then (BitVec.ofNat 32 v).signExtend 64 else BitVec.ofNat 64 v
    let s := ((s.touchHits p hs).logAcquires p (isAcq f.ord) hs).sealRegion p (isRel f.ord)
    s.depart p .data p.next 0 fun r => { r with uresult := some (f.d.toNat % 64, x), peer := anyPeer hs }) s

/-! ### Stores (R250) -/

/-- The value that a lane's data registers hold, low register first. -/
def Troupe.storeValue (t : Troupe) (regs : List (Nat × Tag)) (l : Nat) : Nat :=
  (regs.mapIdx fun j r => ((t.reg r.1).at l).toNat * 2 ^ (32 * j)).foldl (· + ·) 0

/-- The checks of R117 on store data, named as operand A (R250). -/
def Troupe.checkData (t : Troupe) (p : Path) (kind d : Nat) : Exe Unit :=
  t.checkSource p 0 ((kindRegs kind d).map fun r =>
    (r.1, fun g => if kind = 13 || kind = 14 then g == r.2 else kindAccepts kind g))

/-- ST and STL: the checks of every lane, then the stores (R100). -/
def storeTo (i : Instr) (h : Head) (f : MForm) (space : Nat → Space) (s : State) :
    Host.Outcome State Fault Refusal :=
  runThread i h 12 (fun p s => do
    let am := MForm.mode f
    let kind := MForm.kind f
    s.memChecks p f am
    let t := s.troupe p
    t.checkData p kind f.d.toNat
    let o ← s.memIndex p f am
    let hs ← s.access p (space am) (kindSize kind) true false (s.wants p f am (kindSize kind) o)
    let s := (s.popPorts p (MForm.fields f am)).touchHits p hs
    let s ← s.storeHits p hs (fun l => t.storeValue (kindRegs kind f.d.toNat) l) f.ord.toNat
    .ok (((s.markReleases p (isRel f.ord) hs).noteSync p (isRel f.ord)).sealRegion p (isRel f.ord))) s

/-- ST (R250). -/
def execSt (h : Head) (f : MForm) (s : State) : Host.Outcome State Fault Refusal := storeTo (.st h f) h f modeSpace s
/-- STL (R250). -/
def execStl (h : Head) (f : MForm) (s : State) : Host.Outcome State Fault Refusal :=
  storeTo (.stl h f) h f (fun _ => .loc) s

/-! ### Atomics and reductions (R253 to R257) -/

/-- OP of an atomic. -/
def MForm.op (f : MForm) : Nat := f.sub.toNat % 16
/-- RET of an atomic. -/
def MForm.ret (f : MForm) : Bool := f.sub.getLsbD 5
/-- W64 of an atomic. -/
def MForm.w64 (f : MForm) : Bool := f.sub.getLsbD 4
/-- Width of an atomic in bits. -/
def MForm.width (f : MForm) : Nat := if MForm.w64 f then 64 else 32

/-- The new value of a location (R254). -/
def atomNew (op width old v cmp : Nat) : Nat :=
  let m := 2 ^ width
  let sg (x : Nat) : Int := ofBits true width x
  match op with
  | 0 => (old + v) % m
  | 1 => if sg old ≤ sg v then old else v
  | 2 => if sg old ≥ sg v then old else v
  | 3 => min old v
  | 4 => max old v
  | 5 => old &&& v
  | 6 => old ||| v
  | 7 => old ^^^ v
  | 8 => v
  | 9 => if old = cmp then v else old
  | 10 => (f32.add 1 false old v).bits
  | _ => if old ≥ v then 0 else (old + 1) % m

/-- The data registers of an atomic (R254): how many, and what each accepts. -/
def MForm.dataRegs (f : MForm) : List (Nat × (Tag → Bool)) :=
  let d := f.d.toNat
  let pair (n : Nat) : List (Nat × (Tag → Bool)) := [(d + n, fun g => g == .i64l), (d + n + 1, fun g => g == .i64h)]
  let one : Tag → Bool := if MForm.op f = 10 then isTag .f32 else if MForm.op f = 8 then isDefined else isInt32
  if MForm.w64 f then (if MForm.op f = 9 then pair 0 ++ pair 2 else pair 0)
  else if MForm.op f = 9 then [(d, isInt32), (d + 1, isInt32)]
  else [(d, one)]

/-- Value and compare value of a lane (R254). -/
def Troupe.atomData (t : Troupe) (f : MForm) (l : Nat) : Nat × Nat :=
  let at_ (n : Nat) : Nat :=
    if MForm.w64 f then ((t.reg (f.d.toNat + 2 * n)).at l).toNat + ((t.reg (f.d.toNat + 2 * n + 1)).at l).toNat * 2 ^ 32
    else ((t.reg (f.d.toNat + n)).at l).toNat
  if MForm.op f = 9 then (at_ 1, at_ 0) else (at_ 0, 0)

/-- The address of each active lane (R253). -/
def State.atomWants (s : State) (p : Path) (f : MForm) (o : Operand) : List Want := s.wants p f 1 0 o

/-- One update: the piece, the value and the compare value. -/
structure Update where
  hit : Hit
  value : Nat
  compare : Nat
  deriving DecidableEq, Repr

/-- What updates have done so far: the memory they leave, the writes to compare and perform, and the
old value that each lane found. -/
structure Updated where
  work : State
  writes : List GWrite
  olds : List (Nat × Nat)
  deriving DecidableEq, Repr

/-- One update of a location: sent to the host's completer on a host page, else performed at the bank
(R91, R254, R256). -/
def Updated.apply (p : Path) (f : MForm) (rid : Nat) (u : Updated) (x : Update) : Updated :=
  let op := MForm.op f
  let size := MForm.width f / 8
  match x.hit.x with
  | some t =>
    if t.host then
      let send : HostOp :=
        { core := p.core, blk := p.blk, troupe := p.at_.troupe, rid := rid, lane := x.hit.lane, addr := t.addr x.hit.va
          va := x.hit.va, op := op, w64 := MForm.w64 f, value := x.value, compare := x.compare }
      { u with writes := u.writes ++ [{ x := t, va := x.hit.va, bytes := natToBytes size x.value, send := some send, ord := f.ord.toNat }] }
    else
      let old := u.work.laneValue p.core [x.hit] x.hit.lane
      let w : GWrite := { x := t, va := x.hit.va, bytes := natToBytes size (atomNew op (MForm.width f) old x.value x.compare), ord := f.ord.toNat }
      { work := u.work.putWrite w, writes := u.writes ++ [w], olds := u.olds ++ [(x.hit.lane, old)] }
  | none =>
    let old := u.work.laneValue p.core [x.hit] x.hit.lane
    let new := atomNew op (MForm.width f) old x.value x.compare
    { u with
      work := (u.work.noteRace p.core x.hit.va size).modCore p.core fun k => { k with mem := k.mem.writeNat x.hit.va size new }
      olds := u.olds ++ [(x.hit.lane, old)] }

/-- The path's troupe writes global memory (R194). -/
def State.noteGlobal (s : State) (p : Path) : State := s.modCore p.core fun k => k.noteWrites p.blk p.at_.troupe [] true

/-- Perform updates in order: the state, and the old values. Global writes pass the comparator. -/
def State.update (s : State) (p : Path) (f : MForm) (rid : Nat) (xs : List Update) : Exe (State × List (Nat × Nat)) :=
  let u := xs.foldl (Updated.apply p f rid) { work := s, writes := [], olds := [] }
  if u.writes.isEmpty then .ok (u.work, u.olds)
  else
    match (s.noteGlobal p).updateAll p.core u.writes with
    | (s', none) => .ok ({ s' with releases := s.releases }, u.olds)
    | (s', some va) => .error (.mismatch (BitVec.ofNat 64 va) s')

/-- Some pieces lie in host memory. -/
def anyHost (hs : List Hit) : Bool := hs.any fun h => match h.x with
  | some x => x.host
  | none => false

/-- The destination of a returning atomic: its registers with the tags of the data (R254). -/
def Troupe.atomDest (t : Troupe) (f : MForm) : List (Nat × Tag) :=
  (List.range (MForm.width f / 32)).map fun j => (f.d.toNat + j, (t.reg (f.d.toNat + j)).tag)

/-- The old value of a lane. -/
def oldOf (olds : List (Nat × Nat)) (l : Nat) : Nat :=
  match olds.find? fun x => x.1 == l with
  | some x => x.2
  | none => 0

/-- The checked accesses of an atomic: its pieces, and the updates of its lanes. -/
def State.atomAccess (s : State) (p : Path) (f : MForm) (space : Space) : Exe (List Hit × List Update) := do
  s.checkOperand p 0 f.a.toNat isInt32
  let t := s.troupe p
  t.checkSource p 0 (MForm.dataRegs f)
  let o ← s.read1 p f.a.toNat 0 isInt32
  let op := MForm.op f
  let hs ← s.access p space (MForm.width f / 8) true (!(op = 0 || op = 8 || op = 9)) (s.atomWants p f o)
  s.checkPoison hs
  .ok (hs, hs.map fun h => { hit := h, value := (t.atomData f h.lane).1, compare := (t.atomData f h.lane).2 })

/-- ATOM (R254, R256). -/
def execAtom (h : Head) (f : MForm) (s : State) : Host.Outcome State Fault Refusal :=
  runThread (.atom h f) h 12 (fun p s => do
    let (hs, xs) ← s.atomAccess p f .global
    let rid := s.nextId
    let (s, olds) ← s.update p f rid xs
    let s := (((s.touchHits p hs).logOps p 0 hs).noteSync p true).sealRegion p true
    let data := s.loadData p ((s.troupe p).atomDest f) fun j l => BitVec.ofNat 32 (oldOf olds l / 2 ^ (32 * j))
    if !MForm.ret f then .ok { s with nextId := rid + 1 }
    else if f.def_ then .ok (s.defer p data hs 4 none)
    else s.depart p .data p.next 0 fun r => { r with data := data, peer := anyPeer hs }) s

/-- The values that name one address, folded in ascending lane order (R255). -/
def foldRed (op width : Nat) : List Nat → Nat
  | [] => 0
  | v :: t => t.foldl (fun a b => atomNew op width a b 0) v

/-- The updates of a RED (R255): one for each address, in ascending order of lowest lanes; INCW is not
folded. -/
def combineRed (op width : Nat) (xs : List Update) : List Update :=
  let addrs := (xs.map fun x => x.hit.va).eraseDups
  addrs.flatMap fun a =>
    let mine := xs.filter fun x => x.hit.va == a
    if op = 11 then mine
    else mine.head?.toList.map fun x => { x with value := foldRed op width (mine.map (·.value)) }

/-- RED (R255, R256). -/
def execRed (h : Head) (f : MForm) (s : State) : Host.Outcome State Fault Refusal :=
  runThread (.red h f) h 12 (fun p s => do
    let (hs, xs) ← s.atomAccess p f .global
    let rid := s.nextId
    let (s, _) ← s.update p f rid (combineRed (MForm.op f) (MForm.width f) xs)
    .ok { ((((s.touchHits p hs).logOps p 0 hs).noteSync p true).sealRegion p (isRel f.ord)) with nextId := rid + 1 }) s

/-- ATOML (R257). -/
def execAtoml (h : Head) (f : MForm) (s : State) : Host.Outcome State Fault Refusal :=
  runThread (.atoml h f) h 12 (fun p s => do
    let (_, xs) ← s.atomAccess p f .loc
    let dest := (s.troupe p).atomDest f
    let (s, olds) ← s.update p f s.nextId xs
    let s := (s.noteSync p true).sealRegion p (isRel f.ord)
    .ok (if MForm.ret f then
      s.putGroup p f.d.toNat (dest.mapIdx fun j r => (r.2, fun l => BitVec.ofNat 32 (oldOf olds l / 2 ^ (32 * j))))
    else s)) s

/-! ### PREF, FENCE, CCLEAN (R258 to R260) -/

/-- PREF (R258) moves lines between levels that the model does not keep: only the port of its index acts, and no
register faults. -/
def execPref (h : Head) (f : MForm) (s : State) : Host.Outcome State Fault Refusal :=
  runThread (.pref h f) h 12 (fun p s => do
    s.portsReady p (MForm.fields f (MForm.mode f))
    .ok (s.popPorts p (MForm.fields f (MForm.mode f)))) s

/-- FENCE (R98, R259): the touched scope of the active lanes returns to block. -/
def execFence (h : Head) (f : MForm) (s : State) : Host.Outcome State Fault Refusal :=
  runThread (.fence h f) h 12 (fun p s =>
    .ok ((s.mod p fun t => t.modLanes p.active fun _ x => { x with scope := 0 }).sealRegion p (isRel f.ord))) s

/-- CCLEAN (R260): the checks of R240 and R243; in one order of accesses every write has already
reached memory, so the write-back changes no byte; a checked troupe's write-back is compared (R385). -/
def execCclean (h : Head) (f : MForm) (s : State) : Host.Outcome State Fault Refusal :=
  runThread (.cclean h f) h 12 (fun p s => do
    let am := MForm.mode f
    let o ← s.memIndex p f am
    let hs ← s.access p (modeSpace am) 1 false false (s.wants p f am 1 o)
    let s := (s.popPorts p (MForm.fields f am)).touchHits p hs
    if s.checkedCore p.core then
      s.passEvent p (.write (((hs.map fun h => h.va / 64).eraseDups).map fun n => (64 * n, [], f.ord.toNat)))
    else .ok s) s

end Sys2Proof.Machine
end

