-- ==== Sys2Proof/Machine/Records.lean ====
section
/-!
DEFINITION. Script entries (R283, R435), shape records (R286, R287), their checks (R290), the regions of
a copy (R287, R434) and the data it moves (R288, R289, R301).
-/
namespace Sys2Proof.Machine

/-! ### Script entries (R283) -/

/-- Bytes `[o, o + n)` of a list as a little-endian value. -/
def fieldOf (bs : List Byte) (o n : Nat) : Nat := bytesToNat ((bs.drop o).take n)

/-- The fields of 32 bytes; `rsv` for a reserved bit or byte that is nonzero. -/
def ScriptEntry.read (bs : List Byte) : ScriptEntry :=
  let b (o : Nat) : Byte := bs.getD o 0
  { recAddr := BitVec.ofNat 64 (fieldOf bs 0 8), stage := BitVec.ofNat 32 (fieldOf bs 8 4)
    localOff := BitVec.ofNat 32 (fieldOf bs 12 4), kind := b 16, cvt := b 17, key := b 18, sync := b 19
    rsv := b 16 >>> 3 != 0 || b 18 >>> 6 != 0 || (!(b 19).getLsbD 7 && (b 19).getLsbD 6) || fieldOf bs 20 12 != 0 }

/-- KIND [2:0]. -/
def ScriptEntry.op (e : ScriptEntry) : Nat := e.kind.toNat % 8
/-- The END entry. -/
def ScriptEntry.isEnd (e : ScriptEntry) : Bool := e.op == 7
/-- SYNC names a ring slot. -/
def ScriptEntry.isRing (e : ScriptEntry) : Bool := e.sync.getLsbD 7
/-- Ring of a ring-slot entry. -/
def ScriptEntry.ring (e : ScriptEntry) : Nat := e.sync.toNat / 16 % 8
/-- Slot of a ring-slot entry. -/
def ScriptEntry.slot (e : ScriptEntry) : Nat := e.sync.toNat % 16

/-- The first check of R435 that an entry fails. An END entry is checked only for its KIND. -/
def ScriptEntry.check (e : ScriptEntry) (b : Block) (m : Memory) : Option Nat :=
  if e.isEnd then (if e.kind >>> 3 != 0 then some codeIllegal else none)
  else if e.op = 5 || e.op = 6 || e.rsv then some codeIllegal
  else if e.localOff.toNat % 64 ≠ 0 || e.recAddr.toNat % 64 ≠ 0 then some codeAlign
  else
    let bad :=
      if e.isRing then b.rings ≤ e.ring || (b.ring m e.ring).nslot ≤ e.slot else b.barriers ≤ e.sync.toNat % 64
    if bad then some codeLocalRange else none

/-! ### Shape records (R286, R287) -/

/-- A shape record's fields. -/
structure Shape where
  rank : Nat
  fmt : Nat
  localSrc : Bool
  base : Nat
  /-- EXT0 to EXT4. -/
  ext : List Nat
  /-- STR1 to STR4. -/
  str : List Int
  scale : Nat
  elem : Nat
  swz : Bool
  rsv : Bool
  deriving DecidableEq, Repr

/-- The fields of 64 bytes. -/
def Shape.read (bs : List Byte) : Shape :=
  let b (o : Nat) : Byte := bs.getD o 0
  { rank := (b 2).toNat % 8, fmt := (b 3).toNat % 16, localSrc := (b 3).getLsbD 4, base := fieldOf bs 8 8
    ext := (List.range 5).map fun i => fieldOf bs (16 + 4 * i) 4
    str := (List.range 4).map fun i => (BitVec.ofNat 32 (fieldOf bs (36 + 4 * i) 4)).toInt
    scale := fieldOf bs 52 4, elem := (b 56).toNat % 16, swz := (b 57).getLsbD 0
    rsv := b 2 >>> 3 != 0 || b 3 >>> 5 != 0 || b 56 >>> 4 != 0 || b 57 >>> 1 != 0 || fieldOf bs 58 6 != 0 }

/-- CHECK as the other words give it (R286). -/
def recordCheck (bs : List Byte) : Nat := checkWord (wordsOf (bs.take 4 ++ bs.drop 8))

/-- CHECK matches. -/
def sealed (bs : List Byte) : Bool := recordCheck bs == fieldOf bs 4 4

/-- Block formats: BX8 or BX4. -/
def isBx (fmt : Nat) : Bool := fmt == 4 || fmt == 5

/-- log2 of a format's width in bits, none for RAW. -/
def fmtElem (fmt : Nat) : Option Nat :=
  match fmt with
  | 1 => some 5
  | 2 | 3 => some 4
  | 4 => some 3
  | 5 => some 2
  | _ => none

/-- The local format of a conversion code (R289). -/
def cvtFmt (code : Nat) : Nat :=
  match code with
  | 1 => 2
  | 2 => 3
  | 3 => 4
  | 4 => 5
  | _ => 1

/-- A conversion code with its operation, k and a record format that it takes (R289). -/
def cvtValid (cvt fmt : Nat) : Bool :=
  let code := cvt % 16
  let k := cvt / 16 % 4
  cvt < 64 && 1 ≤ code && code ≤ 5 && (k == 0 || code == 3 || code == 4) &&
    (if code = 5 then fmt == 2 || fmt == 3 else fmt == 1)

/-- The format of the local side. -/
def ScriptEntry.localFmt (e : ScriptEntry) (sh : Shape) : Nat := if e.op = 3 then cvtFmt (e.cvt.toNat % 16) else sh.fmt

/-- Bits of a local element. -/
def ScriptEntry.localBits (e : ScriptEntry) (sh : Shape) : Nat :=
  2 ^ ((fmtElem (e.localFmt sh)).getD sh.elem)

/-- N (R287). -/
def Shape.count (sh : Shape) : Nat := (sh.ext.take sh.rank).foldl (· * ·) 1

/-- The record's fields contradict each other or the entry (R290, step 2). -/
def ScriptEntry.shapeBad (e : ScriptEntry) (sh : Shape) : Bool :=
  let elemBad := match fmtElem sh.fmt with
    | some n => sh.elem != n
    | none => sh.fmt != 0 || sh.elem < 3 || 6 < sh.elem
  let ext0 := sh.ext.headD 0
  let bx := isBx sh.fmt
  sh.rsv || sh.rank = 0 || 5 < sh.rank || (sh.ext.drop sh.rank).any (· != 0) || (sh.str.drop (sh.rank - 1)).any (· != 0) ||
    elemBad || sh.localSrc != (e.op == 2) || (e.op != 4 && e.key != 0) ||
    (if e.op = 3 then !cvtValid e.cvt.toNat sh.fmt else e.cvt != 0) || (!bx && sh.scale != 0) ||
    ((bx || isBx (e.localFmt sh)) && ext0 % 32 != 0) ||
    (bx && sh.str.any fun x => x % (if sh.fmt = 4 then 16 else 8) != 0) ||
    (sh.swz && ext0 * e.localBits sh % 1024 != 0) ||
    (e.op = 4 && (sh.fmt != 0 || sh.rank != 1 || sh.elem != 3))

/-- Bytes of the local element plane. -/
def ScriptEntry.planeBytes (e : ScriptEntry) (sh : Shape) : Nat := sh.count * e.localBits sh / 8

/-- P: the plane rounded up to whole sectors (R287). -/
def ScriptEntry.planeSize (e : ScriptEntry) (sh : Shape) : Nat := roundUp (e.planeBytes sh) 64

/-- Bytes of the local scale plane. -/
def ScriptEntry.scaleBytes (e : ScriptEntry) (sh : Shape) : Nat :=
  if isBx (e.localFmt sh) then 2 * (sh.count / 32) else 0

/-- Size of the local region: LOCAL up to LOCAL + P, and the scale plane if there is one (R287). -/
def ScriptEntry.localSize (e : ScriptEntry) (sh : Shape) : Nat :=
  e.planeSize sh + e.scaleBytes sh

/-- Window offset at which the local side begins (R283, R298). -/
def ScriptEntry.start (e : ScriptEntry) (b : Block) (m : Memory) : Nat :=
  if e.isRing then (b.ring m e.ring).slotOff + e.slot * (b.ring m e.ring).slotSize + e.localOff.toNat
  else e.localOff.toNat

/-- End of the object area of a window (R71). -/
def Block.objects (b : Block) : Nat := 16 * b.barriers + 32 * b.rings

/-! ### Memory side (R287) -/

/-- Offset from BASE of a unit of `size` bytes, of which a row of dimension 0 has `row`; strides are
divided by `div`, for the scale plane. -/
def Shape.offset (sh : Shape) (row size : Nat) (div : Int) (i : Nat) : Int :=
  let rec dims : List Nat → List Int → Nat → Int
    | e :: es, st :: ss, r => ((r % e : Nat) : Int) * (st / div) + dims es ss (r / e)
    | _, _, _ => 0
  ((i % row * size : Nat) : Int) + dims ((sh.ext.take sh.rank).drop 1) sh.str (i / row)

/-- Bytes of a unit of the element plane: an element, or two BX4 elements. -/
def Shape.unit (sh : Shape) : Nat := if sh.elem < 3 then 1 else 2 ^ (sh.elem - 3)

/-- Units of a row. -/
def Shape.row (sh : Shape) : Nat := if sh.elem < 3 then sh.ext.headD 0 / 2 else sh.ext.headD 0

/-- Offsets from BASE of the units of the element plane, in order. -/
def Shape.units (sh : Shape) : List Int :=
  (List.range (if sh.elem < 3 then sh.count / 2 else sh.count)).map (sh.offset sh.row sh.unit 1)

/-- Offsets from BASE of the exponent pairs, in order. -/
def Shape.pairs (sh : Shape) : List Int :=
  if isBx sh.fmt then
    (List.range (sh.count / 32)).map fun g =>
      sh.scale + sh.offset (sh.ext.headD 0 / 32) 2 (if sh.fmt = 4 then 16 else 8) g
  else []

/-- Offsets from BASE of every byte of the memory side, plane then scale plane. A G2L.DEC buffer ends
with its 16-byte tag (R301). -/
def ScriptEntry.memOffsets (e : ScriptEntry) (sh : Shape) : List Int :=
  let spread (n : Nat) (os : List Int) : List Int := os.flatMap fun o => (List.range n).map fun (j : Nat) => o + (j : Int)
  spread sh.unit sh.units ++ spread 2 sh.pairs ++
    (if e.op = 4 && sh.count ≠ 0 then (List.range 16).map fun (j : Nat) => ((sh.count + j : Nat) : Int) else [])

/-- A byte address of the memory side, modulo 2^64. -/
def Shape.at_ (sh : Shape) (o : Int) : Nat := ((sh.base + o) % 2 ^ 64).toNat

/-- The range of addresses that covers every byte of the memory side, in order: two ranges where it
passes address 0. -/
def ScriptEntry.memRange (e : ScriptEntry) (sh : Shape) : List Span :=
  match e.memOffsets sh with
  | [] => []
  | o :: os =>
    let lo := sh.base + os.foldl min o
    let hi := sh.base + os.foldl max o + 1
    if lo < 0 then [{ lo := (lo + 2 ^ 64).toNat, hi := 2 ^ 64 }, { lo := 0, hi := hi.toNat }]
    else [{ lo := lo.toNat, hi := hi.toNat }]

/-! ### The checks of R290 -/

/-- The flag of the first check that a record fails, before the owner check. -/
def ScriptEntry.recordFlag (e : ScriptEntry) (b : Block) (m : Memory) (bs : List Byte) : Option Nat :=
  let sh := Shape.read bs
  if !sealed bs then some flagSeal
  else if e.shapeBad sh then some flagRange
  else
    let lo := e.start b m
    let size := e.localSize sh
    let inside (l h : Int) : Bool := (b.objects : Int) ≤ l && h ≤ b.size
    let src := match e.memOffsets sh with
      | [] => true
      | o :: os => inside (sh.base + os.foldl min o) (sh.base + os.foldl max o + 1)
    if !inside lo (lo + size) || (e.isRing && (b.ring m e.ring).slotSize < e.localOff.toNat + size) ||
        (e.op = 2 && !src) then some flagRange
    else none

/-! ### Regions (R16, R434) -/

/-- Local and global ranges of a copy, by side. -/
structure Regions where
  reads : List Span
  writes : List Span
  globals : List Span
  deriving DecidableEq, Repr

/-- The local ranges that are locked: source and destination (R16). -/
def Regions.locks (r : Regions) : List Span := r.reads ++ r.writes

/-- A span of window offsets as core-local addresses. -/
def Block.span (b : Block) (lo hi : Nat) : List Span := if lo < hi then [{ lo := b.base + lo, hi := b.base + hi }] else []

/-- The local side read by L2G and written by every other kind. -/
def ScriptEntry.sides (e : ScriptEntry) (dst src globals : List Span) : Regions :=
  if e.op = 1 then { reads := dst, writes := [], globals := globals } else { reads := src, writes := dst, globals := [] }

/-- The provisional regions (R434). -/
def ScriptEntry.provisional (e : ScriptEntry) (b : Block) (m : Memory) : Regions :=
  let hi := if e.isRing then (b.ring m e.ring).slotOff + (e.slot + 1) * (b.ring m e.ring).slotSize else b.size
  e.sides (b.span (e.start b m) hi) (if e.op = 2 then b.span b.objects b.size else []) []

/-- The copy's own regions (R287, R290). -/
def ScriptEntry.regions (e : ScriptEntry) (b : Block) (m : Memory) (sh : Shape) : Regions :=
  let lo := e.start b m
  let src := (e.memRange sh).map fun r => { lo := b.base + r.lo, hi := b.base + r.hi }
  e.sides (b.span lo (lo + e.localSize sh)) (if e.op = 2 then src else []) (e.memRange sh)

/-! ### Data (R287 to R289, R301) -/

/-- Window offset of byte `o` of the local element plane (R287). -/
def ScriptEntry.planeAt (e : ScriptEntry) (sh : Shape) (lo o : Nat) : Nat :=
  let row := sh.ext.headD 0 * e.localBits sh / 8
  lo + (if sh.swz then o ^^^ (o / row % 8 * 16) else o)

/-- Window offsets of the bytes of the local side, plane then scale plane. -/
def ScriptEntry.localOffsets (e : ScriptEntry) (sh : Shape) (lo : Nat) : List Nat :=
  ((List.range (e.planeBytes sh)).map (e.planeAt sh lo)) ++
    (List.range (e.scaleBytes sh)).map fun o => lo + e.planeSize sh + o

/-- What a conversion gives: the bytes of the local side, absent where a byte they come from could not
be read, and whether an element saturated. -/
structure Converted where
  bytes : List (Option Byte)
  sat : Bool
  deriving DecidableEq, Repr

/-- A little-endian element, absent where one of its bytes is. -/
def elementOf (bs : List (Option Byte)) : Option Nat :=
  if bs.all Option.isSome then some (bytesToNat (bs.filterMap id)) else none

/-- Conversion of a whole element (R289). -/
def cvtElement (code fmt mode : Nat) (x : Nat) : Rounded :=
  match code with
  | 1 => f16.convert mode (f32.value x)
  | 2 => bf16.convert mode (f32.value x)
  | _ => f32.convert mode ((if fmt = 2 then f16 else bf16).value x)

/-- Two nibbles of BX4 elements for each byte (R207). -/
def packNibbles : List Nat → List Byte
  | a :: b :: t => BitVec.ofNat 8 (a % 16 + 16 * (b % 16)) :: packNibbles t
  | [a] => [BitVec.ofNat 8 (a % 16)]
  | [] => []

/-- Conversion of one group of 32 elements (R208): its element bytes and its exponent pair. -/
def cvtGroup (four : Bool) (k : Nat) (xs : List (Option Nat)) : List (Option Byte) × List (Option Byte) × Bool :=
  if xs.all Option.isSome then
    let r := bxConvert four k (xs.map fun o => o.map f32.value)
    let es := if four then packNibbles r.elems else r.elems.map fun x => BitVec.ofNat 8 x
    (es.map some, [some (BitVec.ofNat 8 r.e0), some (BitVec.ofNat 8 r.e1)], r.flags &&& flagSAT != 0)
  else (List.replicate (if four then 16 else 32) none, [none, none], false)

/-- G2L.CVT: the local bytes for the source bytes. -/
def ScriptEntry.convert (e : ScriptEntry) (sh : Shape) (mode : Nat) (src : List (Option Byte)) : Converted :=
  let code := e.cvt.toNat % 16
  let xs := (chunks sh.unit src).map elementOf
  if code = 3 || code = 4 then
    let gs := (chunks 32 xs).map (cvtGroup (code == 4) (2 * (e.cvt.toNat / 16 % 4) + 2))
    { bytes := gs.flatMap (·.1) ++ gs.flatMap (·.2.1), sat := gs.any (·.2.2) }
  else
    let n := e.localBits sh / 8
    let rs := xs.map fun o => o.map (cvtElement code sh.fmt mode)
    { bytes := rs.flatMap fun o => match o with
        | some r => (natToBytes n r.bits).map some
        | none => List.replicate n none
      sat := rs.any fun o => match o with
        | some r => r.flags &&& flagSAT != 0
        | none => false }

end Sys2Proof.Machine
end

