-- ==== Sys2Proof/Machine/Copy.lean ====
section
/-!
DEFINITION. The copy engine: its translations (R292), scripts (R284, R434, R435), starting a copy (R285,
R15), its record (R290, R291), its data and its completion (R288 to R293, R301 to R303), and the copy
majors (R316 to R320).
-/
namespace Sys2Proof.Machine

/-! ### Translations of an engine (R242, R292) -/

/-- A fill made by an engine of a core, which keeps translations only. -/
def State.engineFill (s : State) (c : Nat) (own : Nat × Nat) (va : Nat) : Fill × State := s.fill c own va oldestEntry

/-- What an engine can do with a page: access it, wait for a page request, or nothing. -/
inductive View where
  | ok (x : Xlate)
  | wait
  | refused
  deriving DecidableEq, Repr

/-- The Berzin link carries requests (R431). -/
def State.linkUp (s : State) : Bool := s.link.state == 2 || s.link.state == 3

/-- How an engine sees an address after its fill (R87, R247, R431). -/
def State.viewOf (s : State) (own : Nat × Nat) (write : Bool) (va : Nat) (f : Fill) : View :=
  if !canonical (BitVec.ofNat 64 va) then .refused
  else
    match f with
    | .pageFault _ => .wait
    | .access _ => .refused
    | .ok x =>
      if (x.host && x.scope != 3) || (x.conf && (s.part own.1).tdi != .run) || (x.peer && !s.linkUp) then .refused
      else if write && !x.writable then .wait
      else .ok x

/-- The pages of some addresses. -/
def pagesOf (vas : List Nat) : List Nat := (vas.map fun a => a / 4096 * 4096).eraseDups

/-- An engine looks up some pages in order. -/
def State.engineViews (s : State) (c : Nat) (own : Nat × Nat) (write : Bool) (pages : List Nat) :
    List (Nat × View) × State :=
  pages.foldl
    (fun a va =>
      let r := a.2.engineFill c own va
      (a.1 ++ [(va, r.2.viewOf own write va r.1)], r.2)) ([], s)

/-- The translation of an address among the views of its pages. -/
def viewAt (vs : List (Nat × View)) (a : Nat) : Option Xlate :=
  match vs.lookup (a / 4096 * 4096) with
  | some (.ok x) => some x
  | _ => none

/-! ### Scripts (R284, R434, R435) -/

/-- Address of the entry at a script position. -/
def Block.entryAddr (b : Block) (pos : Nat) : DWord := b.script + BitVec.ofNat 64 (32 * pos)

/-- The engine reads the 32 bytes of an entry. -/
def State.readEntry (s : State) (c blk : Nat) (a : DWord) : EntryRead × State :=
  let own := s.ownerOf c blk
  let r := s.engineFill c own a.toNat
  match r.2.viewOf own false a.toNat r.1 with
  | .ok x =>
    (if (r.2.poisonAt x a.toNat 32).isSome then .fault codePoison else .bytes (r.2.readThrough x a.toNat 32), r.2)
  | _ => (.fault codePageFault, r.2)

/-- The entry at the script position: as read ahead, or as it is now. -/
def State.dueEntry (s : State) (c blk : Nat) (b : Block) : EntryRead × State :=
  match b.ahead.lookup b.pos with
  | some r => (r, s)
  | none => s.readEntry c blk (b.entryAddr b.pos)

/-- The fault record of a script entry (R284, R435); the block halts as under deliver. -/
def State.scriptFault (s : State) (c blk code : Nat) (pc addr : DWord) (pos : Nat) : State :=
  s.blockFault c blk code 0 true pc addr (pos % 65536)

/-- Forget what was read of the entries before a position, and of that position with `too`. -/
def Block.trim (b : Block) (too : Bool) : Block :=
  { b with ahead := b.ahead.filter fun x => b.pos < x.1 || (x.1 == b.pos && !too) }

/-- What releases entries: the %fmode captured, the instruction's address, and the lanes that may issue it again
(R284, R392). -/
structure Releaser where
  fmode : BitVec 3
  pc : DWord
  troupe : Nat
  fresh : Mask
  deriving DecidableEq, Repr

/-- The release at placement and at a restore (R284, R191). -/
def Releaser.engine (fmode : BitVec 3) : Releaser := { fmode := fmode, pc := 0, troupe := 0, fresh := 0 }

/-- An entry joins the release queue. -/
def Block.release (b : Block) (w : Releaser) (entry : Option ScriptEntry) (failed : Bool) (time : Nat) : Block :=
  let r : Released :=
    { pos := b.pos, addr := b.entryAddr b.pos, fmode := w.fmode, pc := w.pc, entry := entry, failed := failed, time := time
      troupe := w.troupe, fresh := w.fresh }
  { b with relq := b.relq ++ [r], pos := b.pos + 1 }.trim false

/-- An entry at which a release stops: the fault's code, the entry's address and its position (R284, R435). -/
structure ScriptStop where
  code : Nat
  addr : DWord
  pos : Nat
  deriving DecidableEq, Repr

/-- The release loop of R284, with the entry that stops it. An entry that has not been read ahead is taken as it
stands and waits for its own read (R317). -/
def State.releaseLoop : Nat → State → Nat → Nat → Releaser → State × Option ScriptStop
  | 0, s, _, _, _ => (s, none)
  | n + 1, s, c, blk, w =>
    match (s.core c).block blk with
    | none => (s, none)
    | some b =>
      if !b.scripted then (s, none)
      else
        let known := (b.ahead.lookup b.pos).isSome
        let stop (code : Nat) : Option ScriptStop := some { code := code, addr := b.entryAddr b.pos, pos := b.pos }
        match s.dueEntry c blk b with
        | (.fault code, s) => (s.modBlock c blk fun x => x.trim true, stop code)
        | (.bytes bs, s) =>
          let e := ScriptEntry.read bs
          let bad := e.check b (s.core c).mem
          if e.isEnd then (s, bad.bind stop)
          else if b.stage < e.stage.toNat then (s, none)
          else if !known then
            State.releaseLoop n (s.modBlock c blk fun x => x.release w none false s.clock.toNat) c blk w
          else
            let s' := s.modBlock c blk fun x => x.release w (some e) bad.isSome s.clock.toNat
            match bad with
            | some code => (s', stop code)
            | none => State.releaseLoop n s' c blk w

/-- The fault of a release that stopped. -/
def State.stopScript (s : State) (c blk : Nat) (pc : DWord) : Option ScriptStop → State
  | none => s
  | some x => s.scriptFault c blk x.code pc x.addr x.pos

/-- The release of R284 that the engine runs for itself. -/
def State.releaseDue (s : State) (c blk : Nat) (fmode : BitVec 3) : State :=
  let r := State.releaseLoop (2 ^ 32) s c blk (Releaser.engine fmode)
  r.1.stopScript c blk 0 r.2

/-! ### The record cache (R291, R318) -/

/-- A record in the cache of a core's cluster, for a partition. -/
def State.cachedRecord (s : State) (c part addr : Nat) : Option (List Byte) :=
  ((s.cluster (c / 8)).records.find? fun r => r.addr == addr && r.part == part).map (·.bytes)

/-- Put a record first among the 64 that its cluster keeps. -/
def State.cacheRecord (s : State) (c part addr : Nat) (bs : List Byte) : State :=
  s.modCluster (c / 8) fun q =>
    let r : CachedRec := { addr := addr, part := part, bytes := bs }
    { q with records := (r :: q.records.filter fun r => r.addr != addr).take 64 }

/-- Remove a record, or every record, from a cluster's cache. -/
def State.fenceRecords (s : State) (c : Nat) (addr : Option Nat) : State :=
  s.modCluster (c / 8) fun q =>
    match addr with
    | some a => { q with records := q.records.filter fun r => r.addr != a }
    | none => { q with records := [] }

/-- What a copy's attempt to obtain its record finds. -/
inductive RecordRead where
  | bytes (bs : List Byte)
  | wait
  | flag (f : Nat)
  deriving DecidableEq, Repr

/-- The record at an address: from the cache, else from memory, storing it if it passes CHECK. -/
def State.readRecord (s : State) (c : Nat) (own : Nat × Nat) (a : Nat) : RecordRead × State :=
  match s.cachedRecord c own.1 a with
  | some bs => (.bytes bs, s.cacheRecord c own.1 a bs)
  | none =>
    let r := s.engineFill c own a
    match r.2.viewOf own false a r.1 with
    | .ok x =>
      if (r.2.poisonAt x a 64).isSome then (.flag flagPoison, r.2)
      else
        let bs := r.2.readThrough x a 64
        (.bytes bs, if sealed bs then r.2.cacheRecord c own.1 a bs else r.2)
    | .wait => (.wait, r.2)
    | .refused => (.flag flagXlate, r.2)

/-- The read-ahead of R434: up to 8 entries from the script position, or up to END, and the record that
each names. -/
def State.readAheadLoop : Nat → State → Nat → Nat → Nat → State
  | 0, s, _, _, _ => s
  | n + 1, s, c, blk, pos =>
    match (s.core c).block blk with
    | none => s
    | some b =>
      let r := match b.ahead.lookup pos with
        | some r => (r, s)
        | none => s.readEntry c blk (b.entryAddr pos)
      let s := r.2.modBlock c blk fun x => { x with ahead := (x.ahead.filter fun y => y.1 != pos) ++ [(pos, r.1)] }
      match r.1 with
      | .fault _ => State.readAheadLoop n s c blk (pos + 1)
      | .bytes bs =>
        let e := ScriptEntry.read bs
        if e.isEnd then s
        else
          let s := if e.recAddr.toNat % 64 = 0 then (s.readRecord c (s.ownerOf c blk) e.recAddr.toNat).2 else s
          State.readAheadLoop n s c blk (pos + 1)

/-- Read ahead from the script position of a block that has a script. -/
def State.readAhead (s : State) (c blk : Nat) : State :=
  match (s.core c).block blk with
  | some b => if b.scripted then State.readAheadLoop 8 s c blk b.pos else s
  | none => s

/-- The placement's read-ahead and release (R284, R434), with the capture 0b001. -/
def State.placeScript (s : State) (c blk : Nat) : State := (s.readAhead c blk).releaseDue c blk 1

/-! ### Range locks and the scoreboard (R12, R13, R16) -/

/-- Records that await the removal of locks and find none left become ready. -/
def State.wakeUnlocked (s : State) (c : Nat) : State :=
  s.modCore c fun k => k.markReadyWhere fun r => match r.key with
    | .unlock isLocal sec =>
      (s.lockers c isLocal (s.ownerOf c r.blk) { lo := 64 * sec, hi := 64 * sec + 64 }).isEmpty
    | _ => false

/-- A copy in flight. -/
def Core.copy (k : Core) (n : Nat) : Option Copy := k.copies.getD n none

/-- Change a copy. -/
def Core.modCopy (k : Core) (n : Nat) (f : Copy → Copy) : Core :=
  { k with copies := k.copies.set n ((k.copy n).map f) }

/-- A copy's registered regions, in the board and the lock table. -/
def Core.register (k : Core) (n : Nat) (r : Regions) : Core :=
  { (k.modCopy n fun (x : Copy) => { x with locks := r.locks, globals := r.globals }) with
    board := k.board.map fun e =>
      if e.owner == .copy n then { e with reads := r.reads, writes := r.writes } else e }

/-- An older entry of the scoreboard holds a sector against this one (R13). -/
def Core.boardHeld (k : Core) (owner : SbOwner) : Bool :=
  let older := k.board.takeWhile fun e => e.owner != owner
  k.board.any fun e => e.owner == owner &&
    older.any fun o =>
      (o.writes.any fun a => (e.reads ++ e.writes).any (sharesSector a)) ||
        o.reads.any fun a => e.writes.any (sharesSector a)

/-! ### Obtaining the record (R290, R301, R434) -/

/-- A copy ends at its checks: its whole registration is removed, and it completes with a flag. -/
def State.flagCopy (s : State) (c n f : Nat) : State :=
  (s.modCore c fun k =>
    (k.register n { reads := [], writes := [], globals := [] }).modCopy n fun (x : Copy) => { x with flag := some f }).wakeUnlocked c

/-- An earlier-started G2L.DEC of the same key slot has not obtained its record: counters are taken in
start order (R301). -/
def Core.decHeld (k : Core) (x : Copy) : Bool :=
  x.entry.op == 4 && k.copies.any fun o => match o with
    | some y => y.entry.op == 4 && y.entry.key == x.entry.key && y.order < x.order && y.record.isNone && y.flag.isNone
    | none => false

/-- A copy that waits for its counter has its record, and its regions are exact from its start (R301, R434). -/
def State.narrow (s : State) (c n : Nat) (bs : List Byte) : State :=
  let k := s.core c
  match k.copy n with
  | none => s
  | some x =>
    match k.block x.blk with
    | none => s
    | some b =>
      match x.entry.recordFlag b k.mem bs with
      | some f => s.flagCopy c n f
      | none =>
        s.modCore c fun k => (k.modCopy n fun (y : Copy) => { y with known := some bs }).register n
          (x.entry.regions b k.mem (Shape.read bs))

/-- The owner check of R301. -/
def KeySlot.refuses (q : KeySlot) (own : Nat × Nat) : Bool :=
  !q.v || q.part.toNat != own.1 || q.pasid.toNat != own.2 || q.ctr == BitVec.allOnes 64

/-- The key slot that an entry names. -/
def Core.keyOf (k : Core) (e : ScriptEntry) : KeySlot := k.keys.getD (e.key.toNat % 64) KeySlot.reset

/-- A G2L.DEC takes its invocation counter (R301). -/
def Core.takeCounter (k : Core) (n : Nat) (e : ScriptEntry) : Core :=
  let q := k.keyOf e
  { (k.modCopy n fun (x : Copy) => { x with iv := some (q.salt, q.ctr, q.key) }) with
    keys := k.keys.set (e.key.toNat % 64) { q with ctr := q.ctr + 1 } }

/-- The record is checked, and the registration narrows to the copy's own regions. -/
def State.giveRecord (s : State) (c n : Nat) (bs : List Byte) : State :=
  let k := s.core c
  match k.copy n with
  | none => s
  | some x =>
    match k.block x.blk with
    | none => s
    | some b =>
      match x.entry.recordFlag b k.mem bs with
      | some f => s.flagCopy c n f
      | none =>
        if x.entry.op = 4 && (k.keyOf x.entry).refuses (s.ownerOf c x.blk) then s.flagCopy c n flagOwner
        else
          (s.modCore c fun k =>
            let k := (k.modCopy n fun (y : Copy) => { y with record := some bs }).register n
              (x.entry.regions b k.mem (Shape.read bs))
            if x.entry.op = 4 then k.takeCounter n x.entry else k).wakeUnlocked c

/-! ### Starting (R15, R285, R321) -/

/-- The head of a block's queue can start. -/
def State.startable (s : State) (c blk : Nat) : Option Released :=
  let k := s.core c
  match k.block blk with
  | none => none
  | some b =>
    match b.relq with
    | [] => none
    | r :: _ =>
      match r.entry with
      | none => none
      | some e =>
        if r.failed || b.halted || b.saved || k.preempt.isSome || (e.isRing && b.slotFull k.mem e.ring e.slot) ||
            k.copies.all Option.isSome then none
        else some r

/-- The block whose head starts next: in release order, then by slot (R15). -/
def State.nextStart (s : State) (c : Nat) : Option Nat :=
  (((List.range Config.blockSlots).filterMap fun b => (s.startable c b).map fun r => (b, r.time)).foldl
    (fun best x => match best with
      | none => some x
      | some y => if x.2 < y.2 then some x else some y) none).map (·.1)

/-- The head of a block's queue becomes a copy in flight, in the lowest free copy entry. -/
def State.startCopy (s : State) (c blk : Nat) : State :=
  let k := s.core c
  match s.startable c blk, k.block blk, k.copies.findIdx? (·.isNone) with
  | some r, some b, some n =>
    match r.entry with
    | none => s
    | some e =>
      let reg := e.provisional b k.mem
      let x : Copy :=
        { blk := blk, entry := e, fmode := r.fmode, record := none, known := none, waits := [], locks := reg.locks
          globals := reg.globals, iv := none, flag := none, order := k.copyOrder, orphan := b.ending
          troupe := r.troupe, fresh := r.fresh }
      let s := s.setCore c
        { (k.modBlock blk fun b => { b with relq := b.relq.tail }) with
          copies := k.copies.set n (some x), copyOrder := k.copyOrder + 1
          board := k.board ++ [{ owner := .copy n, slot := none, reads := reg.reads, writes := reg.writes }] }
      match s.cachedRecord c (s.ownerOf c blk).1 e.recAddr.toNat with
      | some bs =>
        let s := s.cacheRecord c (s.ownerOf c blk).1 e.recAddr.toNat bs
        if (s.core c).decHeld x then s.narrow c n bs else s.giveRecord c n bs
      | none => s
  | _, _, _ => s

/-- Every entry that nothing holds back starts (R321). -/
def State.startAll : Nat → State → Nat → State
  | 0, s, _ => s
  | n + 1, s, c =>
    match s.nextStart c with
    | some b => State.startAll n (s.startCopy c b) c
    | none => s

/-! ### The engine's own steps -/

/-- Entries that were released before their own read are read and checked, and their records fetched (R434, R435). -/
def State.readReleased (s : State) (c blk : Nat) : State :=
  match (s.core c).block blk with
  | none => s
  | some b =>
    (b.relq.takeWhile fun r => !r.failed).foldl
      (fun s r =>
        if r.entry.isSome then s
        else
          let put (s : State) (e : Option ScriptEntry) (failed : Bool) : State :=
            s.modBlock c blk fun x => { x with
              relq := x.relq.map fun q => if q == r then { q with entry := e, failed := failed } else q }
          match s.readEntry c blk r.addr with
          | (.fault code, s) => (put s none true).scriptFault c blk code r.pc r.addr r.pos
          | (.bytes bs, s) =>
            let e := ScriptEntry.read bs
            match e.check b (s.core c).mem with
            | some code => (put s (some e) true).scriptFault c blk code r.pc r.addr r.pos
            | none => put (s.readRecord c (s.ownerOf c blk) e.recAddr.toNat).2 (some e) false) s

/-- SCRIPT_READ_COMPLETE (R434, R435). -/
def execScriptReadComplete (core slot : Nat) (s : State) : Host.Outcome State Fault Refusal :=
  .next ((s.readReleased core slot).readAhead core slot)

/-- COPY_START (R285): the head of a block's queue starts, when it is the next to start. -/
def execCopyStart (core slot : Nat) (s : State) : Host.Outcome State Fault Refusal :=
  .next (if s.nextStart core = some slot then s.startCopy core slot else s)

/-- A copy waits for the translations of some pages, for which it sends page requests (R292). -/
def State.copyWaits (s : State) (c n : Nat) (own : Nat × Nat) (vas : List Nat) : State :=
  (vas.foldl (fun (s : State) va => s.requestPage own.1 own.2 va) s).modCore c fun k =>
    k.modCopy n fun (x : Copy) => { x with waits := vas.map fun a => a / 4096 * 4096 }

/-- RECORD_OBTAINED (R290, R291, R292). -/
def execRecordObtained (core copy : Nat) (s : State) : Host.Outcome State Fault Refusal :=
  match (s.core core).copy copy with
  | none => .next s
  | some x =>
    if x.record.isSome || x.flag.isSome || (s.core core).decHeld x then .next s
    else
      let own := s.ownerOf core x.blk
      match x.known with
      | some bs => .next (s.giveRecord core copy bs)
      | none =>
        match s.readRecord core own x.entry.recAddr.toNat with
        | (.bytes bs, s) => .next (s.giveRecord core copy bs)
        | (.wait, s) => .next (s.copyWaits core copy own [x.entry.recAddr.toNat])
        | (.flag f, s) => .next (s.flagCopy core copy f)

/-! ### Moving the data (R288, R289, R301) -/

/-- Where a copy stands: its shape, its block, the local window offset of its local side. -/
structure Move where
  core : Nat
  x : Copy
  sh : Shape
  b : Block
  lo : Nat
  deriving DecidableEq, Repr

/-- Core-local addresses of the bytes of the local side. -/
def Move.locals (m : Move) : List Nat := (m.x.entry.localOffsets m.sh m.lo).map fun o => m.b.base + o

/-- Addresses of the bytes of the memory side. -/
def Move.remotes (m : Move) : List Nat := (m.x.entry.memOffsets m.sh).map m.sh.at_

/-- A byte of global memory, absent where it is poisoned or has no translation. -/
def State.remoteByte (s : State) (vs : List (Nat × View)) (a : Nat) : Option Byte :=
  match viewAt vs a with
  | some x => if (s.poisonAt x a 1).isSome then none else some ((s.space x).read (x.addr a))
  | none => none

/-- The plaintext of a G2L.DEC and whether its tag verifies; absent bytes stay absent. -/
def Copy.decrypt (x : Copy) (n : Nat) (src : List (Option Byte)) : List (Option Byte) × Bool :=
  match x.iv with
  | none => (src.take n, false)
  | some (salt, ctr, key) =>
    let bs := src.map fun o => o.getD 0
    let r := gcmDecrypt key (bigBytes 4 salt.toNat ++ bigBytes 8 ctr.toNat) (bs.take n) (bs.drop n)
    ((r.1.zip src).map fun y => if y.2.isSome then some y.1 else none, r.2)

/-- What a copy delivers: for each byte, where it goes and its value if it could be read; whether an
element saturated; and whether a tag failed. -/
structure Delivery where
  bytes : List (Nat × Option Byte)
  sat : Bool
  tagFails : Bool
  deriving DecidableEq, Repr

/-- The delivery of a copy whose source is `src`. -/
def Move.deliver (m : Move) (src : List (Option Byte)) : Delivery :=
  match m.x.entry.op with
  | 1 => { bytes := m.remotes.zip src, sat := false, tagFails := false }
  | 3 =>
    let r := m.x.entry.convert m.sh m.x.fmode.toNat src
    { bytes := m.locals.zip r.bytes, sat := r.sat, tagFails := false }
  | 4 =>
    let r := m.x.decrypt m.sh.count src
    { bytes := m.locals.zip r.1, sat := false, tagFails := !r.2 }
  | _ => { bytes := m.locals.zip src, sat := false, tagFails := false }

/-- The destination sectors that a copy ending with XLATE or POISON leaves with their new bytes: free,
among those whose every byte could be read and whose page can be written (R292, entry 6). -/
def State.freeSectors (s : State) (d : Delivery) (writable : Nat → Bool) : List (Nat × Byte) :=
  let sectors := (d.bytes.map fun x => x.1 / 64).eraseDups
  let chosen := (sectors.mapIdx fun i k => (i, k)).filter fun x =>
    (Config.freeValue (1024 * s.nextId + x.1)).getLsbD 0 &&
      d.bytes.all fun y => y.1 / 64 != x.2 || (y.2.isSome && writable y.1)
  d.bytes.filterMap fun y => if chosen.any fun x => x.2 == y.1 / 64 then y.2.map fun v => (y.1, v) else none

/-- The logs of a block note that a copy of it writes global memory (R194). -/
def Core.noteCopy (k : Core) (b : Nat) : Core :=
  { k with undo := k.undo.map fun (u : UndoLog) => if u.blk == b then { u with wrote := true } else u }

/-- Write bytes of a copy's destination: local, unless its block has ended (R302), or global. -/
def State.putCopy (s : State) (m : Move) (vs : List (Nat × View)) (bytes : List (Nat × Byte)) : State × Option Nat :=
  if m.x.entry.op = 1 then
    (s.modCore m.core fun k => k.noteCopy m.x.blk).writeAll m.core (bytes.filterMap fun y => (viewAt vs y.1).map fun t => ({ x := t, va := y.1, bytes := [y.2] } : GWrite))
  else if m.x.orphan then (s, none)
  else (s.modCore m.core fun k => { k with mem := k.mem.writeCells bytes }, none)

/-- The end of a copy (R293): locks removed, entry and scoreboard entry freed, then the barrier object
signalled. -/
def State.finishCopy (s : State) (c n : Nat) (x : Copy) (u : BarUpdate) : State :=
  let s := (s.modCore c fun k =>
    { k with copies := k.copies.set n none, board := k.board.filter fun e => e.owner != .copy n }).wakeUnlocked c
  if x.orphan then s else s.signalCopy c x.blk x.entry.sync u

/-- An earlier-started L2G of the core overlaps this one's destination, or may (R285). -/
def Core.globalHeld (k : Core) (x : Copy) : Bool :=
  x.entry.op == 1 && k.copies.any fun o => match o with
    | some y =>
      y.entry.op == 1 && y.order < x.order &&
        (if y.record.isNone then y.flag.isNone else x.globals.any fun a => y.globals.any (sharesSector a))
    | none => false

/-- A copy that ends with a flag after its data was begun. -/
def State.endPartly (s : State) (m : Move) (n f : Nat) (vs : List (Nat × View)) (d : Delivery) : State :=
  let bytes := s.freeSectors d fun a => m.x.entry.op != 1 || (viewAt vs a).isSome
  let r := { s with nextId := s.nextId + 1 }.putCopy m vs bytes
  match r.2 with
  | none => r.1.finishCopy m.core n m.x (.copyFlag f)
  | some va => r.1.mismatch m.core m.x.blk none (BitVec.ofNat 64 va)

/-- The data of a copy moves, and it ends. -/
def State.performCopy (s : State) (m : Move) (n : Nat) : State :=
  let op := m.x.entry.op
  let own := s.ownerOf m.core m.x.blk
  let pages := if op = 2 then [] else pagesOf m.remotes
  let r := s.engineViews m.core own (op == 1) pages
  let vs := r.1
  let s := r.2
  let src : List (Option Byte) :=
    if op = 1 then m.locals.map fun a => some ((s.core m.core).mem.read a)
    else if op = 2 then m.remotes.map fun a => some ((s.core m.core).mem.read (m.b.base + a))
    else m.remotes.map (s.remoteByte vs)
  let d := m.deliver src
  if m.x.flag.isSome || vs.any fun v => v.2 == .refused then s.endPartly m n flagXlate vs d
  else if vs.any fun v => v.2 == .wait then
    s.copyWaits m.core n own ((vs.filter fun v => v.2 == .wait).map (·.1))
  else if src.any Option.isNone then s.endPartly m n flagPoison vs d
  else
    let bytes := d.bytes.filterMap fun y => y.2.map fun v => (y.1, if d.tagFails then 0 else v)
    match s.putCopy m vs bytes with
    | (s, some va) => s.mismatch m.core m.x.blk none (BitVec.ofNat 64 va)
    | (s, none) =>
      s.finishCopy m.core n m.x (if d.tagFails then .copyFlag flagGcmTag else .copyBytes d.bytes.length d.sat)

/-- COPY_COMPLETE (R293). A copy waits for older commands on its sectors (R13) and for an earlier copy to
the same global sectors (R285); it moves its data and signals in one step (entry 14). -/
def execCopyComplete (core copy : Nat) (s : State) : Host.Outcome State Fault Refusal :=
  let k := s.core core
  match k.copy copy with
  | none => .next s
  | some x =>
    match x.record, x.flag, k.block x.blk with
    | none, some f, _ => .next (s.finishCopy core copy x (.copyFlag f))
    | some bs, _, some b =>
      let sh := Shape.read bs
      if sh.count = 0 then .next (s.finishCopy core copy x (.copyBytes 0 false))
      else if k.boardHeld (.copy copy) || k.globalHeld x then .next s
      else .next (s.performCopy { core := core, x := x, sh := sh, b := b, lo := x.entry.start b k.mem } copy)
    | _, _, _ => .next s

/-! ### The copy majors (R316 to R320) -/

/-- The release that CSTEP and CSCHED run for their path, and the starts that follow it (R284, R316,
R321); `fresh` are the lanes that may issue it again (R392). While a pre-emption is pending, or a fault of the block
is delivered, only the counter has moved (R184, R188). -/
def State.runRelease (s : State) (p : Path) (fresh : Mask) : State :=
  let fmode := (s.troupe p).fmode
  if (s.core p.core).preempt.isSome || (s.block p).halted then s.modPathBlock p fun b => { b with keptFmode := some fmode }
  else
    let r := State.releaseLoop (2 ^ 32) s p.core p.blk
      { fmode := fmode, pc := p.at_.pc, troupe := p.at_.troupe, fresh := fresh }
    (State.startAll Config.copyEntries r.1 p.core).stopScript p.core p.blk p.at_.pc r.2

/-- The stage counter's greatest value. -/
def stageMax : Nat := 0xFFFFFFFF

/-- CSTEP (R316). -/
def execCstep (h : Head) (f : XForm) (s : State) : Host.Outcome State Fault Refusal :=
  runThread (.cstep h f) h 16 (fun p s => do
    let n := if XForm.ks f then (s.kAt p f.ka.toNat).toNat else f.imm.toNat
    .ok (((s.modPathBlock p fun b => { b with stage := min (b.stage + n) stageMax }).runRelease p 0).sealRegion p true)) s

/-- CSCHED (R317); in a block that has no script it only moves the counter (R284). -/
def execCsched (h : Head) (f : XForm) (s : State) : Host.Outcome State Fault Refusal :=
  runThread (.csched h f) h 16 (fun p s => do
    let a := s.kAt p f.ka.toNat
    let n := if XForm.ks f then (s.kAt p f.kb.toNat).toNat else f.imm.toNat
    if a.toNat % 32 ≠ 0 then pathFault p codeAlign a
    .ok ((s.modPathBlock p fun b =>
      if b.scripted then { b with script := a, pos := 0, stage := min n stageMax, ahead := [] }
      else { b with stage := min n stageMax }).runRelease p p.at_.lanes)) s

/-- The record address of RCFENCE and RCSEAL (R309, R310). -/
def State.recordAddr (s : State) (p : Path) (f : XForm) : Exe DWord := do
  let a := s.kAt p f.ka.toNat + f.imm.signExtend 64
  if a.toNat % 64 ≠ 0 then pathFault p codeAlign a
  .ok a

/-- RCFENCE of one record (R318). -/
def execRcfence (h : Head) (f : XForm) (s : State) : Host.Outcome State Fault Refusal :=
  runThread (.rcfence h f) h 16 (fun p s => do
    let a ← s.recordAddr p f
    .ok (s.fenceRecords p.core (some a.toNat))) s

/-- RCFENCE.ALL (R318). -/
def execRcfenceAll (h : Head) (f : XForm) (s : State) : Host.Outcome State Fault Refusal :=
  runThread (.rcfenceAll h f) h 16 (fun p s => .ok (s.fenceRecords p.core none)) s

/-- Released entries of a block that have not completed (R320). -/
def Core.busyCopies (k : Core) (blk : Nat) : Nat :=
  ((k.block blk).map fun b => b.relq.length).getD 0 +
    (k.copies.filter fun o => match o with
      | some x => x.blk == blk
      | none => false).length

/-- CSTAT (R320). -/
def execCstat (h : Head) (f : XForm) (s : State) : Host.Outcome State Fault Refusal :=
  runThread (.cstat h f) h 16 (fun p s => do
    let b := s.block p
    let m := (s.core p.core).mem
    let ring (o : Nat) : Exe Nat := do
      let r := b.ring m (XForm.ringNo f)
      if b.rings ≤ XForm.ringNo f then pathFault p codeIllegal 0
      if b.size < r.slotOff + r.nslot * r.slotSize || b.size < r.barOff + 32 * r.nslot then pathFault p codeLocalRange 0
      .ok (m.readNat (r.addr + o) 4)
    let v ← match f.sub.toNat % 8 with
      | 0 => .ok b.stage
      | 1 => .ok b.pos
      | 2 => .ok ((s.core p.core).busyCopies p.blk)
      | 3 => do
        let off ← s.barrierOff p (XForm.bar f)
        .ok (m.readNat (b.base + off + 8) 4)
      | 4 => ring 16
      | _ => ring 20
    s.finish p [] f.d.toNat .n32 (fun _ => BitVec.ofNat 32 v) noFlags) s

/-- A record with VERSION raised and CHECK written for the new contents (R319). -/
def resealed (bs : List Byte) : List Byte :=
  let bs' := natToBytes 2 (fieldOf bs 0 2 + 1) ++ bs.drop 2
  bs'.take 4 ++ natToBytes 4 (recordCheck bs') ++ bs'.drop 8

/-- RCSEAL (R319): checked as an atomic on 64 bytes, a page below device scope raises ACCESS. -/
def execRcseal (h : Head) (f : XForm) (s : State) : Host.Outcome State Fault Refusal :=
  runThread (.rcseal h f) h 16 (fun p s => do
    let a ← s.recordAddr p f
    let own := s.ownerOf p.core p.blk
    let l := p.active.lowest
    let all (fail : Option Fail) : Exe Unit :=
      raiseFirst none (p.active.lanes.map fun l => (l, fail))
    all (boundsFail .global 64 0 0 a)
    let per ← s.translateHits p none true false
      (p.active.lanes.map fun l => (l, [{ lane := l, va := a.toNat, size := 64, x := none }]))
    let hs := (per.flatMap (·.2)).filter fun x => x.lane == l
    match hs.head?.bind (·.x) with
    | none => .ok s
    | some x =>
      if x.scope.toNat < 2 then all (some (.plain codeAccess a))
      all ((hs.head?.bind fun y => s.lockFail p.core false own 0 (s.lowestLocker p.core false own hs) y))
      all ((hs.head?.bind fun y => s.poisonFail y))
      let s := ((s.touch p.core p.blk p.at_.troupe (Mask.one l) x.scope).logOps p 0 hs).noteSync p true
      let bs := resealed (s.readThrough x a.toNat 64)
      match (s.noteGlobal p).updateAll p.core [{ x := x, va := a.toNat, bytes := bs, ord := 2 }] with
      | (s', some va) => .error (.mismatch (BitVec.ofNat 64 va) s')
      | (s', none) => .ok s') s

end Sys2Proof.Machine
end

