-- ==== Sys2Proof/Machine/Launch.lean ====
section
/-!
DEFINITION. Launches on their way in and out: the queues (R352, R353), launch records and kernel
descriptors (R81, R355, R356), refusals (R357), completion objects (R358, R359), job tables (R360) and
cancels (R354, R367).
-/
namespace Sys2Proof.Machine

/-! ### Device DRAM as the device's own units use it (R356, R365, entry 10) -/

/-- A unit of the device writes bytes of device DRAM. -/
def State.devWrite (s : State) (a : Nat) (bs : List Byte) : State :=
  let addrs := List.range' a bs.length
  ({ s with dram := s.dram.writeBytes a bs }.clearPoison addrs).dropReleases addrs

/-- Bytes that a unit of the device can read: installed, admitted (R433) and not poisoned. -/
def State.devReadable (s : State) (a n : Nat) : Bool :=
  s.dramReady && decide (a + n ≤ s.capacity) && s.poison.all fun sec => sec < sectorOf a || sectorOf (a + n - 1) < sec

/-! ### Kernel descriptors (R70, R72, R81) -/

/-- The descriptor that 64 bytes hold. -/
def Desc.read (bs : List Byte) : Desc :=
  let w := fieldOf bs 8 4
  { entry := BitVec.ofNat 64 (fieldOf bs 0 8), widths := (List.range 5).map fun i => bitsOf w (6 * i + 5) (6 * i)
    regs := fieldOf bs 12 2, troupes := fieldOf bs 14 1, il := fieldOf bs 15 1 % 4, localBytes := fieldOf bs 16 4
    priv := fieldOf bs 20 4, barriers := fieldOf bs 24 1, rings := fieldOf bs 25 1, streams := fieldOf bs 26 1
    prio := fieldOf bs 27 1, liveTiles := BitVec.ofNat 16 (fieldOf bs 28 2), signed := fieldOf bs 30 2 % 2 == 1
    faultDisp := BitVec.ofNat 64 (fieldOf bs 32 8), sched := BitVec.ofNat 64 (fieldOf bs 40 8)
    reserved := bitsOf w 31 30 != 0 || fieldOf bs 15 1 / 4 != 0 || fieldOf bs 30 2 / 2 != 0 || fieldOf bs 52 12 != 0 }

/-- FAULTDISP of a code. -/
def Desc.dispOf (d : Desc) (code : Nat) : Nat := bitsOf d.faultDisp.toNat (2 * code + 1) (2 * code)

/-- FAULTDISP holds a reserved bit or value, or resume for a code that may not resume (R72, R357). -/
def Desc.badDisp (d : Desc) : Bool :=
  bitsOf d.faultDisp.toNat 1 0 != 0 || bitsOf d.faultDisp.toNat 63 52 != 0 ||
    (List.range' 1 25).any fun n => d.dispOf n == 3 || (d.dispOf n == 1 && !isResumable n)

/-- Total width of the block coordinates f2 to f5 (R105). -/
def Desc.blockBits (d : Desc) : Nat := (d.widths.drop 1).foldl (· + ·) 0

/-- Barrier watch entries that a block needs (R107). -/
def Desc.watch (d : Desc) : Nat := d.barriers + 32 * d.rings

/-- Reason 2 of R357, for a descriptor that can be read. -/
def Desc.bad (d : Desc) : Bool :=
  d.reserved || d.badDisp || (d.widths.any fun w => 58 < w) || 64 < 6 + d.widths.foldl (· + ·) 0 ||
    d.regs < 8 || 2040 < d.regs || d.regs % 8 != 0 || d.troupes = 0 || 16 < d.troupes || 524288 < d.localBytes ||
    d.localBytes % 64 != 0 || 64 < d.barriers || 8 < d.rings || 32 < d.streams || 23 < d.prio || 1048576 < d.priv ||
    d.priv % 4 != 0 || 2 ^ d.widths.getD 0 0 < d.troupes || d.localBytes < 16 * d.barriers + 32 * d.rings

/-- Bytes of private memory that a block needs (R107, R132). -/
def Desc.privBytes (d : Desc) : Nat := d.troupes * (d.priv + 2048) * 64

/-- Cores of a partition (R419). -/
def State.coresOf (s : State) (part : Nat) : List Nat :=
  let q := s.part part
  if q.en then (List.range Config.numCores).filter fun c => q.clbase.toNat ≤ c / 8 && c / 8 ≤ q.cllimit.toNat else []

/-- Reason 4 of R357: no core of the partition could hold one block when empty (R107). -/
def State.fitsNowhere (s : State) (part : Nat) (d : Desc) : Bool :=
  Config.granules < d.troupes * d.regs / 8 || Config.watchEntries < d.watch ||
    (s.coresOf part).all fun c => (s.core c).privAreas.all fun a => a.2 < d.privBytes

/-! ### Launch records (R355) -/

/-- The check byte of a launch record. -/
def launchCheck (bs : List Byte) : Nat := 255 - ((bs.mapIdx fun i b => if i = 60 then 0 else b.toNat).foldl (· + ·) 0) % 256

/-- CHECK of the record is valid. -/
def QRec.checked (r : QRec) : Bool := fieldOf r.bytes 60 1 == launchCheck r.bytes
/-- KDESC. -/
def QRec.kdesc (r : QRec) : Nat := fieldOf r.bytes 0 8
/-- BLOCKS. -/
def QRec.blocks (r : QRec) : Nat := fieldOf r.bytes 8 4
/-- ARGPTR. -/
def QRec.argptr (r : QRec) : Nat := fieldOf r.bytes 16 8
/-- SCHED. -/
def QRec.sched (r : QRec) : Nat := fieldOf r.bytes 24 8
/-- COMPL. -/
def QRec.compl (r : QRec) : Nat := fieldOf r.bytes 32 8
/-- JOB. -/
def QRec.job (r : QRec) : Nat := fieldOf r.bytes 40 4
/-- DEP. -/
def QRec.dep (r : QRec) : Nat := fieldOf r.bytes 44 4
/-- CGROUP. -/
def QRec.cgroup (r : QRec) : Nat := fieldOf r.bytes 48 2
/-- FLAGS.IRQ. -/
def QRec.irq (r : QRec) : Bool := fieldOf r.bytes 14 2 / 2 % 2 == 1

/-- Reason 7 of R357. -/
def QRec.reservedBad (r : QRec) : Bool :=
  let prio := fieldOf r.bytes 12 1
  32 ≤ prio || (24 ≤ prio && prio ≤ 30) || 4 ≤ fieldOf r.bytes 13 1 || 4 ≤ fieldOf r.bytes 14 2 ||
    2 ≤ fieldOf r.bytes 50 1 || fieldOf r.bytes 51 1 != 0 || fieldOf r.bytes 52 4 % 2 != 0 ||
    2 ^ 26 ≤ fieldOf r.bytes 52 4 || fieldOf r.bytes 61 3 != 0

/-- The effective integrity level (R356). -/
def QRec.level (r : QRec) (d : Desc) : Nat := max (fieldOf r.bytes 13 1 % 4) d.il

/-- The effective dispositions (R356). -/
def QRec.disps (r : QRec) (d : Desc) : List Nat :=
  (List.range 26).map fun n => if bitsOf (fieldOf r.bytes 52 4) n n == 1 then 2 else d.dispOf n

/-- The signed-kernel table holds a descriptor (R381). -/
def State.kernelSigned (s : State) (kdesc : Nat) : Bool := s.sirip.signed.any fun k => k.kdesc == kdesc

/-- Reasons 2 to 4 of R357, of a descriptor that may be unreadable. -/
def State.refuseDesc (s : State) (part blocks : Nat) : Option Desc → Option Nat
  | none => some 2
  | some d =>
    if d.bad then some 2
    else if blocks = 0 || 2 ^ d.blockBits < blocks then some 3
    else if s.fitsNowhere part d then some 4
    else none

/-- The reason for which a record is refused, if any (R357). -/
def State.refuse (s : State) (q : Nat) (r : QRec) : Option Nat :=
  match s.refuseDesc (q / 8) r.blocks r.desc, r.desc with
  | some n, _ => some n
  | none, none => some 2
  | none, some d =>
    if 2 ≤ r.level d && !s.kernelSigned r.kdesc then some 5
    else if r.kdesc % 64 != 0 || r.argptr % 8 != 0 || r.sched % 32 != 0 || (r.sched = 0 && d.sched.toNat % 32 != 0) ||
        r.compl % 16 != 0 || r.job = 0 then some 6
    else if r.reservedBad then some 7
    else none

/-! ### Completion objects (R358, R359) -/

/-- The 16 bytes of a completion object. -/
def completion (status : Nat) (scanFail prov : Bool) (done faults reason : Nat) : List Byte :=
  [BitVec.ofNat 8 status, BitVec.ofNat 8 ((if prov then 1 else 0) + if scanFail then 2 else 0), 0, 0] ++
    natToBytes 4 done ++ natToBytes 4 faults ++ [BitVec.ofNat 8 reason, 0, 0, 0]

/-- Write a completion object, where there is one. -/
def State.complete (s : State) (addr : Nat) (bs : List Byte) : State := if addr = 0 then s else s.devWrite addr bs

/-- A launch that never ran completes. -/
def State.completeUnrun (s : State) (r : QRec) (status reason : Nat) : State :=
  s.complete r.compl (completion status false false 0 0 reason)

/-! ### Queues (R352, R353, R415) -/

/-- A hardware queue by number. -/
def Sched.queue (q : Sched) (n : Nat) : Queue := q.queues.getD n Queue.reset

/-- Change a queue. -/
def State.modQueue (s : State) (n : Nat) (f : Queue → Queue) : State :=
  s.modSched fun q => { q with queues := q.queues.set n (f (q.queue n)) }

/-- The argument block: eight quads, zero without one (R356). -/
def State.readArgs (s : State) (argptr : Nat) : List DWord :=
  (List.range 8).map fun i => if argptr = 0 then 0 else BitVec.ofNat 64 (s.dramNat (argptr + 8 * i) 8)

/-- The descriptor at an address, if it can be read. -/
def State.readDesc (s : State) (a : Nat) : Option Desc :=
  if s.devReadable a 64 then some (Desc.read (s.dram.readBytes a 64)) else none

/-- A queue accepts a record: its number, its queue's QCFG, and its descriptor and arguments as they stand. -/
def State.accept (s : State) (n : Nat) (bs : List Byte) : State :=
  let q := s.sched.queue n
  let r : QRec :=
    { bytes := bs, seq := q.seq, qcfg := q.qcfg, desc := s.readDesc (fieldOf bs 0 8)
      args := s.readArgs (fieldOf bs 16 8), passed := false }
  s.modQueue n fun q => { q with recs := q.recs ++ [r], seq := (q.seq + 1) % 2 ^ 32 }

/-- Records that a queue holds (R352). -/
def queueEntries : Nat := 64

/-- A queue takes a record: its partition's front end is open and it is not full (R352, R421). -/
def State.queueOpen (s : State) (n : Nat) : Bool :=
  (s.part (n / 8)).en && !(s.part (n / 8)).quiesced && decide ((s.sched.queue n).recs.length < queueEntries)

/-- The queue of a function's submission window (R412, R413). -/
def queueOf (vf q : Nat) : Nat := (vf - 1) * 8 + q % 8

/-- How a DMWr to a submission window completes (R352, R421): other than as 64 aligned bytes, or to a window whose
partition is not enabled, with Unsupported Request; at a full or closed queue with Memory Request Retry Status. -/
def State.submitReply (s : State) (vf n off : Nat) (data : List Byte) : Reply :=
  if !(1 ≤ vf && vf ≤ 8 && data.length = 64 && off % 64 = 0 && (s.part (n / 8)).en) then .unsupported
  else if s.queueOpen n then .success []
  else .retry

/-- DMWR_SUBMIT (R352): a record that completes with success is accepted. -/
def execDmwrSubmit (vf queue off : Nat) (data : List Byte) (s : State) : Host.Outcome State Fault Refusal :=
  let n := queueOf vf queue
  let reply := s.submitReply vf n off data
  .next { (if reply = .success [] then s.accept n data else s) with reply := reply }

/-- WINDOW_POSTED_WRITE (R352): discarded and reported through AER. -/
def execWindowPostedWrite (_vf _queue : Nat) (s : State) : Host.Outcome State Fault Refusal :=
  .next { s with aer := s.aer + 1 }

/-- Entries of a partition's job table (R360). -/
def jobEntries : Nat := 2048

/-- Entries of a partition in the job table. -/
def State.jobsOf (s : State) (part : Nat) : List JobEntry := s.sched.jobs.filter fun j => j.part == part

/-- The launch that a record describes, not yet bound (R356). -/
def QRec.toLaunch (r : QRec) (d : Desc) (id q : Nat) : Launch :=
  let prio := fieldOf r.bytes 12 1
  { id := id, parent := none, queue := q, seq := r.seq, part := q / 8, pasid := bitsOf r.qcfg.toNat 19 0
    pasidEn := r.qcfg.getLsbD 31, job := r.job, cgroup := r.cgroup, il := r.level d, disp := r.disps d, desc := d
    kdesc := BitVec.ofNat 64 r.kdesc, args := r.args, blocks := r.blocks
    sched := if r.sched = 0 then d.sched else BitVec.ofNat 64 r.sched, compl := BitVec.ofNat 64 r.compl, irq := r.irq
    debug := fieldOf r.bytes 14 2 % 2 == 1, cutAllowed := fieldOf r.bytes 50 1 % 2 == 1, deadline := fieldOf r.bytes 56 4
    prio := if prio = 31 then d.prio else prio, clmask := 0, coremask := 0, ranges := [], ended := 0, done := 0, faults := 0
    bound := false, cancelled := false, removed := false, failed := false, draining := none, cut := none, unscanned := []
    final := false, scanFail := false }

/-- A launch takes its entry of the job table and a number of the model's own. -/
def State.addLaunch (s : State) (l : Launch) : State :=
  s.modSched fun q =>
    { q with
      launches := q.launches ++ [l], nextLaunch := q.nextLaunch + 1
      jobs := q.jobs ++ [{ part := l.part, job := l.job, cgroup := l.cgroup, launch := l.id }] }

/-- Drop a queue's head. -/
def State.popQueue (s : State) (n : Nat) : State := s.modQueue n fun q => { q with recs := q.recs.tail }

/-- QUEUE_HEAD_PASS (R353, R355, R357, R360). -/
def execQueueHeadPass (queue : Nat) (s : State) : Host.Outcome State Fault Refusal :=
  match (s.sched.queue queue).recs with
  | [] => .next s
  | r :: rest =>
    let part := queue / 8
    if r.passed then .next s
    else if !r.checked then .next { (s.popQueue queue) with aer := s.aer + 1 }
    else if (r.dep ≠ 0 && (s.jobsOf part).any fun j => j.job == r.dep) || jobEntries ≤ (s.jobsOf part).length then .next s
    else
      match s.refuse queue r, r.desc with
      | none, some d =>
        .next ((s.modQueue queue fun q => { q with recs := { r with passed := true } :: rest }).addLaunch
          (r.toLaunch d s.sched.nextLaunch queue))
      | some n, _ => .next (((s.popQueue queue).completeUnrun r 3 n).signal (part + 1) 9)
      | none, none => .next s

/-! ### Cancels (R354, R367) -/

/-- CANCEL_REGISTER_WRITE (R354). -/
def execCancelRegisterWrite (vf : Nat) (value : Word) (s : State) : Host.Outcome State Fault Refusal :=
  .next (if 1 ≤ vf && vf ≤ 8 && value.getLsbD 16 then
    s.modSched fun q => { q with presented := q.presented ++ [(vf - 1, value.toNat % 65536)] }
  else s)

/-- Remove a launch and its entry of the job table. -/
def State.dropLaunch (s : State) (id : Nat) : State :=
  s.modSched fun q =>
    { q with launches := q.launches.filter fun l => l.id != id, jobs := q.jobs.filter fun j => j.launch != id }

/-- The unbound launch of a passed record. -/
def State.waitingLaunch (s : State) (queue seq : Nat) : Option Launch :=
  s.sched.launches.find? fun l => l.queue == queue && l.seq == seq && l.parent.isNone && !l.bound

/-- A launch still in a queue completes with STATUS 2, and signals as its record asks. -/
def State.cancelQueued (s : State) (n : Nat) (r : QRec) : State :=
  let s := match s.waitingLaunch n r.seq with
    | some l => if r.passed then s.dropLaunch l.id else s
    | none => s
  let s := s.completeUnrun r 2 0
  if r.irq then s.signal (n / 8 + 1) (n % 8) else s

/-- Step 1 of R367 for the queues of a partition. -/
def State.cancelQueues (s : State) (part group : Nat) : State :=
  (List.range 8).foldl
    (fun s i =>
      let n := 8 * part + i
      let hit (r : QRec) : Bool := r.checked && r.cgroup == group
      let gone := (s.sched.queue n).recs.filter hit
      (gone.foldl (fun s r => s.cancelQueued n r) s).modQueue n fun q =>
        { q with recs := q.recs.filter fun r => !hit r }) s

/-- A released entry that has not started is dropped, and sends CANCEL to its barrier object (R304); one that has not
been read is read and checked for it, and signals nothing where it fails (R435). -/
def State.dropReleased (s : State) (c b : Nat) (x : Block) (r : Released) : State :=
  if r.failed then s
  else
    match r.entry with
    | some e => s.signalCopy c b e.sync (.copyFlag flagCancel)
    | none =>
      match s.readEntry c b r.addr with
      | (.bytes bs, s) =>
        let e := ScriptEntry.read bs
        if (e.check x (s.core c).mem).isSome then s else s.signalCopy c b e.sync (.copyFlag flagCancel)
      | (.fault _, s) => s

/-- Steps 2 and 3 of R367 for one placed block: its records are marked, its waiting entries dropped, and its
paths stop at their region entries. -/
def State.cancelBlock (s : State) (c b : Nat) : State :=
  match (s.core c).block b with
  | none => s
  | some x =>
    let s := s.modCore c fun k => { k with cue := k.cue.map fun r => if r.blk == b then { r with cancel := true } else r }
    let s := x.relq.foldl (fun s r => s.dropReleased c b x r) s
    let s := s.modBlock c b fun y => { y with relq := [], cancelling := !y.ending }
    s.killCancelled c b

/-- A block that waits on a core to be placed again is not placed after a cancel: its index ends, at once or with the
killed block that still holds its slot (R367, R392). -/
def State.dropRetry (s : State) (c : Nat) (x : Nat × Nat) : State :=
  let s := (s.modCore c fun k => { k with retryPlace := k.retryPlace.erase x }).modLaunch x.1 fun l => { l with removed := true }
  match (List.range Config.blockSlots).find? fun b => match (s.core c).block b with
    | some y => y.retrying && y.launch == x.1 && y.index == x.2
    | none => false with
  | some b => s.modBlock c b fun y => { y with retrying := false }
  | none => (s.modLaunch x.1 fun l => { l with ended := l.ended + 1 }).freeChildren [x.1]

/-- The blocks of some launches that wait to be placed again end (R367). -/
def State.dropRetries (s : State) (ids : List Nat) : State :=
  (List.range Config.numCores).foldl
    (fun s c => ((s.core c).retryPlace.filter fun x => ids.contains x.1).foldl (fun s x => s.dropRetry c x) s) s

/-- A cancel acts on the bound launches and child tasks of some identifiers. What it removes is their unplaced blocks
now, and the blocks that it kills later (R367). -/
def State.cancelLaunches (s : State) (ids : List Nat) : State :=
  let blocks := s.blocksOf ids
  let s := s.modSched fun q =>
    { q with
      launches := q.launches.map fun l =>
        if ids.contains l.id then { l with cancelled := true, removed := l.removed || !l.ranges.isEmpty } else l }
  blocks.foldl (fun s x => s.cancelBlock x.1 x.2) ((s.discardRanges ids).dropRetries ids)

/-- CANCEL (R367): the distributor arbiter takes the cancel presented first (R24). -/
def execCancel (s : State) : Host.Outcome State Fault Refusal :=
  match s.sched.presented with
  | [] => .next s
  | (part, group) :: rest =>
    let s := s.modSched fun q => { q with presented := rest }
    let s := s.cancelQueues part group
    let ids := (s.sched.launches.filter fun l => l.part == part && l.cgroup == group && l.bound && !l.final).map (·.id)
    .next (s.cancelLaunches ids)

/-! ### Final updates (R359, R374) -/

/-- The launches of a family. -/
def State.kin (s : State) (id : Nat) : List Launch :=
  s.sched.launches.filter fun l => (s.family id).contains l.id

/-- The level makes the launch provisional (R359, R380). -/
def Launch.provisional (l : Launch) : Bool := l.il == 1 || l.il == 3

/-- A launch's completion object as it now stands. -/
def State.completionOf (s : State) (l : Launch) (scanFail prov : Bool) : List Byte :=
  let ks := s.kin l.id
  completion (if l.failed then 4 else if ks.any (·.removed) then 2 else 1) scanFail prov
    ((ks.map (·.done)).foldl (· + ·) 0) l.faults 0

/-- The rows of a launch leave the slot table (R362). -/
def State.clearRows (s : State) (l : Launch) : State :=
  s.modSched fun q =>
    { q with
      queueRows := if bitsOf (q.queueRows.getD l.queue 0).toNat 63 32 = l.seq then q.queueRows.set l.queue 0 else q.queueRows
      coreRows := q.coreRows.filter fun r =>
        !(bitsOf r.2.2.toNat 5 0 == l.queue && bitsOf r.2.2.toNat 63 32 == l.seq) }

/-- The launch has been reported for good: it and its children leave the model's list. -/
def State.forget (s : State) (id : Nat) : State :=
  let ids := s.family id
  s.modSched fun q => { q with launches := q.launches.filter fun l => !ids.contains l.id }

/-- FINAL_UPDATE (R102, R359, R360, R362). -/
def execFinalUpdate (launch : Nat) (s : State) : Host.Outcome State Fault Refusal :=
  match s.launch launch with
  | none => .next s
  | some l =>
    if l.parent.isSome || !l.bound || l.final || !(s.kin launch).all Launch.allEnded then .next s
    else
      let s := s.complete l.compl.toNat (s.completionOf l false l.provisional)
      let s := if l.irq then s.signal (l.part + 1) (l.queue % 8) else s
      let s := (s.modLaunch launch fun l => { l with final := true }).clearRows l
      let s := s.modSched fun q => { q with jobs := q.jobs.filter fun j => j.launch != launch }
      .next (if l.provisional then s else s.forget launch)

/-- SECOND_UPDATE (R359, R370, R397). -/
def execSecondUpdate (launch : Nat) (s : State) : Host.Outcome State Fault Refusal :=
  match s.launch launch with
  | none => .next s
  | some l =>
    if l.final && l.provisional && (l.unscanned.isEmpty || l.scanFail) then
      .next ((s.complete l.compl.toNat (s.completionOf l l.scanFail false)).forget launch)
    else .next s

end Sys2Proof.Machine
end

