-- ==== Sys2Proof/Machine/Place.lean ====
section
/-!
DEFINITION. From bind records to placed blocks: the slot table (R361, R362), range tasks and the
distributor (R363, R364), drains and cuts (R365, R366), and the placement of a block (R107 to R109, R113).
-/
namespace Sys2Proof.Machine

/-! ### Bind records (R361, R362, R380) -/

/-- The fields of a bind record. -/
structure BindRec where
  op : Nat
  queue : Nat
  prio : Nat
  part : Nat
  seq : Nat
  clmask : BitVec 16
  coremask : BitVec 8
  /-- A reserved bit is set. -/
  rsv : Bool
  deriving DecidableEq, Repr

/-- The record that 16 bytes hold. -/
def BindRec.read (r : BitVec 128) : BindRec :=
  let n := r.toNat
  { op := bitsOf n 7 6, queue := bitsOf n 5 0, prio := bitsOf n 12 8, part := bitsOf n 18 16, seq := bitsOf n 63 32
    clmask := BitVec.ofNat 16 (bitsOf n 79 64), coremask := BitVec.ofNat 8 (bitsOf n 87 80)
    rsv := bitsOf n 15 13 != 0 || bitsOf n 23 19 != 0 || bitsOf n 31 24 != 0 || bitsOf n 127 88 != 0 }

/-- A selected cluster lies outside the partition. -/
def State.outside (s : State) (part : Nat) (clmask : BitVec 16) : Bool :=
  (List.range 16).any fun c => clmask.getLsbD c && s.partOf c != some part

/-- The core set holds a core of an understudy cluster (R362). -/
def State.namesUnderstudy (s : State) (clmask : BitVec 16) (coremask : BitVec 8) : Bool :=
  coremask != 0 && (List.range 8).any fun k => (s.checkedPair k).checked && clmask.getLsbD (2 * k + 1)

/-- Only leader clusters of checked pairs that have verified the launch are selected (R380, R389). -/
def State.verifiedFor (s : State) (l : Launch) (clmask : BitVec 16) : Bool :=
  (List.range 16).all fun c => !clmask.getLsbD c ||
    (c % 2 == 0 && (s.checkedPair (c / 2)).checked && (s.checkedPair (c / 2)).verified == some (l.queue, l.seq))

/-- The checks that every bind record must pass, for its launch (R361). -/
def State.bindOk (s : State) (r : BindRec) (op queue : Nat) (l : Launch) : Bool :=
  r.op == op && r.queue == queue && !r.rsv && r.prio ≤ 23 && r.part == l.part && !s.outside l.part r.clmask

/-- The bound launch of a queue with an acceptance number. -/
def State.boundLaunch (s : State) (queue seq : Nat) : Option Launch :=
  s.sched.launches.find? fun l => l.queue == queue && l.seq == seq && l.parent.isNone && l.bound && !l.final

/-- The queue's head is this passed record. -/
def State.isHead (s : State) (queue seq : Nat) : Bool :=
  match (s.sched.queue queue).recs with
  | r :: _ => r.passed && r.seq == seq
  | [] => false

/-- Unowned ranges: what the launch still has, or all its blocks when it is bound first (R363, R365). -/
def Launch.freshRanges (l : Launch) : List BlockRange :=
  if l.bound then l.ranges.map fun (r : BlockRange) => { r with owner := none }
  else [{ lo := 0, hi := l.blocks, owner := none }]

/-- A launch is bound to a core set at a priority. -/
def Launch.bindTo (l : Launch) (r : BindRec) : Launch :=
  { l with
    ranges := l.freshRanges, bound := true, draining := none, prio := r.prio, clmask := r.clmask, coremask := r.coremask }

/-- Write a queue row of the slot table (R362). -/
def State.setRow (s : State) (queue : Nat) (r : BitVec 128) : State :=
  s.modSched fun q => { q with queueRows := q.queueRows.set queue r }

/-- Give the priority of a launch and its children to their troupes (R110, R362). -/
def State.setPrio (s : State) (ids : List Nat) (prio : Nat) : State :=
  let s := s.modSched fun q => { q with launches := q.launches.map fun l => if ids.contains l.id then { l with prio := prio } else l }
  (s.blocksOf ids).foldl
    (fun s x => s.modCore x.1 fun k =>
      { k with troupes := k.troupes.map fun (t : Troupe) => if t.blk == x.2 then { t with prio := prio } else t }) s

/-- The instruction caches of the cores of a set are invalidated when a range task is bound to it (R60). -/
def State.clearCode (s : State) (clmask : BitVec 16) (coremask : BitVec 8) : State :=
  { s with
    cores := s.cores.mapIdx fun c (k : Core) =>
      if clmask.getLsbD (c / 8) && coremask.getLsbD (c % 8) then { k with icache := [] } else k }

/-- Bind a launch and its children, and write the row; troupes that a rebound launch still has placed take its
priority (R110). -/
def State.bindFamily (s : State) (l : Launch) (b : BindRec) (queue : Nat) (rec : BitVec 128) : State :=
  let ids := s.family l.id
  let s := s.modSched fun q =>
    { q with launches := q.launches.map fun x => if ids.contains x.id then x.bindTo b else x }
  ((s.setPrio ids b.prio).setRow queue rec).clearCode b.clmask b.coremask

/-- The checks of a bind record that names a core set (R361, R362, R380, R384). -/
def State.setOk (s : State) (r : BindRec) (queue : Nat) (l : Launch) : Bool :=
  s.bindOk r 0 queue l && !s.namesUnderstudy r.clmask r.coremask && (l.il < 2 || s.verifiedFor l r.clmask)

/-- BIND (R361, R362): the queue's head launch, or a drained launch that is bound again (R365). Other records
are discarded and reported. -/
def execBind (queue : Nat) (rec : BitVec 128) (s : State) : Host.Outcome State Fault Refusal :=
  let r := BindRec.read rec
  match s.waitingLaunch queue r.seq, s.boundLaunch queue r.seq with
  | some l, _ =>
    .next (if s.setOk r queue l && s.isHead queue r.seq then (s.popQueue queue).bindFamily l r queue rec else s.report)
  | none, some l =>
    .next (if s.setOk r queue l && l.draining.isSome && !l.cancelled then s.bindFamily l r queue rec else s.report)
  | none, none => .next s.report

/-- DRAIN (R365): the launch's placement stops, and `addr` is where its position goes. -/
def execDrain (queue : Nat) (rec : BitVec 128) (addr : DWord) (s : State) : Host.Outcome State Fault Refusal :=
  let r := BindRec.read rec
  match s.boundLaunch queue r.seq with
  | some l =>
    .next (if s.bindOk r 1 queue l then
      (s.modLaunch l.id fun l => { l with draining := some addr }).setRow queue rec
    else s.report)
  | none => .next s.report

/-- REPRIORITISE (R110, R362). -/
def execReprioritise (queue : Nat) (rec : BitVec 128) (s : State) : Host.Outcome State Fault Refusal :=
  let r := BindRec.read rec
  match s.boundLaunch queue r.seq with
  | some l => .next (if s.bindOk r 2 queue l then (s.setPrio (s.family l.id) r.prio).setRow queue rec else s.report)
  | none => .next s.report

/-- The core of a core row may run the launch: it is in the launch's partition, no understudy core, and for IL2 and
IL3 a leader core of a pair that has verified the launch (R362, R380, R384). -/
def State.rowCore (s : State) (core : Nat) (l : Launch) : Bool :=
  let set := BitVec.ofNat 16 (2 ^ (core / 8))
  s.partOf (core / 8) == some l.part && !s.namesUnderstudy set 1 && (l.il < 2 || s.verifiedFor l set)

/-- CORE_ROW_BIND (R362): block slot `slot` of a core holds only blocks of the launch from now on. DESIGN CHOICE
(entry 86): the spec does not say what a row does that is written while a block of another launch occupies the slot;
it comes into force when that block is gone. -/
def execCoreRowBind (core slot : Nat) (rec : BitVec 128) (s : State) : Host.Outcome State Fault Refusal :=
  let r := BindRec.read rec
  match s.boundLaunch r.queue r.seq with
  | some l =>
    .next (if s.setOk r r.queue l && core < Config.numCores && slot < Config.blockSlots && s.rowCore core l then
      s.modSched fun q =>
        { q with coreRows := (q.coreRows.filter fun x => !(x.1 == core && x.2.1 == slot)) ++ [(core, slot, rec)] }
    else s.report)
  | none => .next s.report

/-! ### Core sets and slots (R361, R362, R368, R380, R389) -/

/-- A core is used: not retired, and in a checked pair a leader core whose partner is not retired (R382). -/
def State.usable (s : State) (c : Nat) : Bool :=
  !(s.core c).retired && (!(s.checkedPair (c / 16)).checked || (c / 8 % 2 == 0 && !(s.core (c + 8)).retired))

/-- A core is open to blocks: used, in service with its partner in a checked pair, not being pre-empted, and its pair
not changing mode. -/
def State.coreOpen (s : State) (c : Nat) : Bool :=
  let k := s.core c
  let p := s.checkedPair (c / 16)
  s.usable c && !(s.cluster (c / 8)).retired && k.service == .inService && k.preempt.isNone && p.changing.isNone &&
    !p.lasting && (!p.checked || (s.core (c + 8)).service == .inService)

/-- The launch is bound to a set that contains the core (R361, R380). -/
def State.inSet (s : State) (l : Launch) (c : Nat) : Bool :=
  l.bound && !l.final && l.clmask.getLsbD (c / 8) && l.coremask.getLsbD (c % 8) && s.coreOpen c &&
    (l.il < 2 || (s.checkedPair (c / 16)).checked)

/-- The launch whose row names a block slot (R362). -/
def State.rowLaunch (s : State) (c slot : Nat) : Option Nat :=
  (s.sched.coreRows.find? fun r => r.1 == c && r.2.1 == slot).bind fun r =>
    (s.boundLaunch (bitsOf r.2.2.toNat 5 0) (bitsOf r.2.2.toNat 63 32)).map (·.id)

/-- The launch that a row in force reserves a slot for: no block of another launch occupies it (R362, entry 86). -/
def State.reservedFor (s : State) (c slot : Nat) : Option Nat :=
  match s.rowLaunch c slot, (s.core c).block slot with
  | some id, some b => if s.topLaunch b.launch = id then some id else none
  | o, _ => o

/-- The slot that a block of a launch takes: a free one reserved for it, else a free one that no row reserves
for another launch, whose private area holds `priv` bytes (R107, R362). -/
def State.slotFor (s : State) (c top priv : Nat) : Option Nat :=
  let free := (List.range Config.blockSlots).filter fun b =>
    ((s.core c).block b).isNone && priv ≤ ((s.core c).privAreas.getD b (0, 0)).2
  (free.find? fun b => s.reservedFor c b == some top) <|> free.find? fun b => (s.reservedFor c b).isNone

/-! ### Whether a block fits (R107, R109, R363) -/

/-- The next multiple of 4 KiB. -/
def ceilRegion (a : Nat) : Nat := (a + 4095) / 4096 * 4096

/-- The bytes of local memory that a placed block keeps from a new one: its window, or every 4 KiB region
that it touches when the owners differ (R109). -/
def Block.keeps (b : Block) (same : Bool) : Span :=
  if b.size = 0 then { lo := 0, hi := 0 }
  else if same then { lo := b.base, hi := b.base + b.size }
  else { lo := b.base / 4096 * 4096, hi := ceilRegion (b.base + b.size) }

/-- What the placed blocks of a core keep from an owner. -/
def State.keptFrom (s : State) (c : Nat) (own : Nat × Nat) : List Span :=
  (List.range Config.blockSlots).filterMap fun b =>
    ((s.core c).block b).map fun x => x.keeps (s.ownerOf c b == own)

/-- The lowest free 64-byte-aligned offset for a window (R363). -/
def State.windowAt (s : State) (c : Nat) (own : Nat × Nat) (size : Nat) : Option Nat :=
  let kept := s.keptFrom c own
  let free (a : Nat) : Bool :=
    a + size ≤ Config.localBytes && kept.all fun k => k.hi ≤ a || a + size ≤ k.lo || k.hi ≤ k.lo
  let ends := (0 :: kept.map fun k => roundUp k.hi 64).filter free
  if size = 0 then some 0
  else
    match ends with
    | [] => none
    | a :: t => some (t.foldl min a)

/-- Barrier watch entries in use (R107). -/
def Core.watchUsed (k : Core) : Nat :=
  ((List.range Config.blockSlots).map fun b => match k.block b with
    | some x => x.barriers + 32 * x.rings
    | none => 0).foldl (· + ·) 0

/-- Free troupe slots, lowest first. -/
def Core.freeSlots (k : Core) : List Nat :=
  (List.range Config.troupeSlots).filter fun n => !(k.troupes.any fun t => t.slot == some n)

/-- Register granules in use (R107). -/
def Core.granulesUsed (k : Core) : Nat :=
  ((k.troupes.filter fun t => t.slot.isSome).map fun t => t.regs.length / 8).foldl (· + ·) 0

/-- The slot and window offset of a new block of a launch, when every resource of R107 fits. -/
def State.fits (s : State) (c : Nat) (l : Launch) : Option (Nat × Nat) :=
  let k := s.core c
  let d := l.desc
  let own := (l.part, if l.pasidEn then l.pasid else 0)
  match s.slotFor c (l.parent.getD l.id) d.privBytes, s.windowAt c own d.localBytes with
  | some b, some base =>
    if k.watchUsed + d.watch ≤ Config.watchEntries &&
        d.streams ≤ ((List.range 32).filter fun n => (k.ctx n).owner.isNone).length &&
        d.troupes ≤ k.freeSlots.length && k.granulesUsed + d.troupes * (d.regs / 8) ≤ Config.granules then some (b, base)
    else none
  | _, _ => none

/-! ### The distributor (R363, R364) -/

/-- The launch gives out no block: it, or its parent, is draining or being cut (R365, R366). -/
def State.stopped (s : State) (l : Launch) : Bool :=
  match s.launch (l.parent.getD l.id) with
  | some t => t.draining.isSome || t.cut.isSome
  | none => true

/-- The launches bound to sets that contain a core. -/
def State.candidatesFor (s : State) (c : Nat) : List Launch := s.sched.launches.filter fun l => s.inSet l c

/-- The range of a launch that a core owns. -/
def Launch.owned (l : Launch) (c : Nat) : Option BlockRange := l.ranges.find? fun r => r.owner == some c

/-- A core asks for work (R363). -/
def State.asks (s : State) (c : Nat) : Bool :=
  let ls := s.candidatesFor c
  let best := (ls.map (·.prio)).foldl min 24
  !(ls.any fun l => (l.owned c).isSome && l.prio ≤ best) && ls.any fun l => (s.fits c l).isSome

/-- A range that the distributor may give to core `c` (R364). -/
def BlockRange.offered (r : BlockRange) (c : Nat) : Bool :=
  match r.owner with
  | none => r.lo < r.hi
  | some o => o != c && r.lo + 2 ≤ r.hi

/-- The first of two offers: more urgent, then more blocks, then the lower launch sequence, then the lower
start (R364). -/
def offerBefore (a b : Launch × BlockRange) : Bool :=
  let n (x : Launch × BlockRange) : Nat := x.2.hi - x.2.lo
  a.1.prio < b.1.prio || (a.1.prio == b.1.prio && (n b < n a || (n a == n b &&
    (a.1.seq < b.1.seq || (a.1.seq == b.1.seq && (a.2.lo < b.2.lo || (a.2.lo == b.2.lo && a.1.id < b.1.id)))))))

/-- The best offer of some launches to a core. -/
def bestOffer (ls : List Launch) (c : Nat) : Option (Launch × BlockRange) :=
  (ls.flatMap fun l => (l.ranges.filter fun r => r.offered c).map fun r => (l, r)).foldl
    (fun best x => match best with
      | none => some x
      | some y => if offerBefore x y then some x else some y) none

/-- A range passes whole to the asker, or is split (R364). -/
def splitRange (rs : List BlockRange) (r : BlockRange) (c : Nat) : List BlockRange :=
  match r.owner with
  | none => rs.map fun (x : BlockRange) => if x == r then { x with owner := some c } else x
  | some _ =>
    let m := r.lo + (r.hi - r.lo + 1) / 2
    (rs.map fun (x : BlockRange) => if x == r then { x with hi := m } else x) ++ [{ lo := m, hi := r.hi, owner := some c }]

/-- The distributor gives a range of some launches to a core. -/
def State.grant (s : State) (ls : List Launch) (c : Nat) : State :=
  match bestOffer ls c with
  | some (l, r) => s.modLaunch l.id fun x => { x with ranges := splitRange x.ranges r c }
  | none => s

/-- A FETCHW of a launch makes a request of the distributor: the launch gives out blocks, its core owns no range of it,
and another range can be given (R364, R373). -/
def State.wantsRange (s : State) (c : Nat) (l : Launch) : Bool :=
  !l.cancelled && !s.stopped l && (l.owned c).isNone && (bestOffer [l] c).isSome

/-- A core has a request of FETCHW (R373). -/
def State.fetchAsks (s : State) (c : Nat) : Bool :=
  (s.core c).cue.any fun r => !r.ready && match r.key, s.launchOf c r.blk with
    | .mailbox _, some l => s.wantsRange c l
    | _, _ => false

/-- The core whose request is served next: in round-robin order, starting after the core served last (R364). -/
def State.nextAsker (s : State) : Option Nat :=
  ((List.range Config.numCores).map fun i => (s.sched.lastServed + 1 + i) % Config.numCores).find? fun c =>
    s.asks c || s.fetchAsks c

/-- WORK_REQUEST (R363, R364): the distributor serves a core that asks. -/
def execWorkRequest (core : Nat) (s : State) : Host.Outcome State Fault Refusal :=
  if s.nextAsker = some core && s.asks core then
    let ls := (s.candidatesFor core).filter fun l =>
      (l.owned core).isNone && (s.fits core l).isSome && !s.stopped l
    .next ((s.grant ls core).modSched fun q => { q with lastServed := core })
  else .next s

/-! ### Placing a block (R107 to R109, R113, R132, R392) -/

/-- Regions of a window that another owner, or none, used last are zeroed and take the new owner; with `all`
every region of the window (R109, R392). -/
def Core.claimRegions (k : Core) (base size : Nat) (own : Nat × Nat) (all : Bool) : Core :=
  if size = 0 then k
  else
    (List.range' (base / 4096) ((base + size - 1) / 4096 + 1 - base / 4096)).foldl
      (fun (k : Core) r =>
        let k := if k.owners.getD r none == some own then k
          else { k with mem := k.mem.clear (4096 * r) (4096 * r + 4096) }
        { k with owners := k.owners.set r (some own) })
      (if all then { k with mem := k.mem.clear base (base + size) } else k)

/-- A troupe at its start (R113). -/
def Troupe.start (l : Launch) (b idx slot : Nat) (role : BitVec 2) (clock : Nat) : Troupe :=
  { blk := b, idx := idx, slot := some slot, frameSpilled := false, frameAt := 0, frameWritten := false
    regs := List.replicate l.desc.regs { tag := .undef, dead := false, lanes := List.replicate 64 0 }
    lanes := List.replicate 64 { Lane.reset with place := .resident, pc := l.desc.entry, rea := l.desc.entry }
    k := l.args ++ List.replicate 56 0, c := 0, bounds := List.replicate 8 (1, 0)
    tiles := List.replicate 16 (List.replicate 8 0), fmode := 1, fstat := 0, satt := false, step := 0
    recCount := 0, live := 0, liveSet := false, prio := l.prio, sib := 0, marks := [], deferred := [], skip := 0
    placedAt := clock, away := 0, watched := false, role := role, retry := [] }

/-- The block that a launch's index becomes in a slot. -/
def Block.start (l : Launch) (index base privBase : Nat) (again : Bool) : Block :=
  let d := l.desc
  { launch := l.id, index := index, base := base, size := d.localBytes, barriers := d.barriers, rings := d.rings
    streams := d.streams, troupes := d.troupes, regs := d.regs, priv := d.priv, privBase := privBase, stage := 0
    script := l.sched, scripted := l.sched != 0, pos := 0, relq := [], ahead := [], keptFmode := none, halted := false, cancelling := false
    ending := false, killed := false, saved := false, savedAt := 0, withdrawn := 0, retries := 0, blockRetry := again
    retrying := false, matchedSync := false }

/-- An undo log or journal that holds nothing (R193, R197). -/
def UndoLog.start (b idx : Nat) : UndoLog :=
  { blk := b, troupe := idx, entries := [], globalSkew := false, wrapped := false, written := 0, lost := 0, sealed := 0
    stored := [], wrote := false }

/-- A core counts among those that must pass a quench slot, its partner with it (R370, R384). -/
def State.countCore (s : State) (id c : Nat) : State :=
  let cs := if (s.checkedPair (c / 16)).checked then [c, c + 8] else [c]
  s.modLaunch (s.topLaunch id) fun l => { l with unscanned := l.unscanned ++ cs.filter fun x => !l.unscanned.contains x }

/-- A block of a launch is placed: window, owner records, contexts, troupes with their arguments, journals,
and the script's first release (R109, R113, R284). -/
def State.place (s : State) (c : Nat) (l : Launch) (index b base : Nat) (again : Bool) : State :=
  let own := (l.part, if l.pasidEn then l.pasid else 0)
  let checked := s.checkedCore c
  let now := s.clock.toNat
  let s := s.modCore c fun k =>
    let k := k.claimRegions base l.desc.localBytes own again
    let slots := k.freeSlots.take l.desc.troupes
    let k := { k with
      blocks := k.blocks.set b (some (Block.start l index base (k.privAreas.getD b (0, 0)).1 again))
      troupes := k.troupes ++ slots.mapIdx fun i n => Troupe.start l b i n (if checked then 1 else 0) now
      undo := k.undo ++ if checked || l.debug then (List.range l.desc.troupes).map (UndoLog.start b) else [] }
    k.giveCtxs b l.desc.streams
  (s.countCore l.id c).placeScript c b

/-- The launch from whose own range a core places next: the most urgent, then the lowest sequence (R363). -/
def State.placing (s : State) (c : Nat) : Option (Launch × BlockRange × Nat × Nat) :=
  ((s.candidatesFor c).filterMap fun l =>
    if s.stopped l then none
    else match l.owned c, s.fits c l with
      | some r, some x => some (l, r, x)
      | _, _ => none).foldl
    (fun best x => match best with
      | none => some x
      | some y =>
        if x.1.prio < y.1.prio || (x.1.prio == y.1.prio && (x.1.seq < y.1.seq || (x.1.seq == y.1.seq && x.1.id < y.1.id)))
        then some x else some y) none

/-- The lowest index leaves a range. -/
def takeLow (rs : List BlockRange) (r : BlockRange) : List BlockRange :=
  (rs.map fun (x : BlockRange) => if x == r then { x with lo := x.lo + 1 } else x).filter fun x => x.lo < x.hi

/-- A ready record waits in the cue queue (R108, R187). -/
def Core.hasReady (k : Core) : Bool := k.cue.any fun r => r.ready && !r.held

/-- The block that waits first to be placed again on a core, of a launch whose placement is not stopped (R365, R392). -/
def State.nextRetry (s : State) (c : Nat) : Option (Nat × Nat) :=
  (s.core c).retryPlace.find? fun x => match s.launch x.1 with
    | some l => !s.stopped l
    | none => true

/-- Where the block that waits first goes, once it fits. -/
def State.retryFits (s : State) (c : Nat) : Option (Launch × Nat × Nat × Nat) :=
  (s.nextRetry c).bind fun x => (s.launch x.1).bind fun l =>
    if s.inSet l c then (s.fits c l).map fun y => (l, x.2, y) else none

/-- BLOCK_PLACE (R108, R363): no ready record and no block retry waits, and every resource fits. -/
def execBlockPlace (core : Nat) (s : State) : Host.Outcome State Fault Refusal :=
  let k := s.core core
  if k.hasReady || (s.nextRetry core).isSome then .next s
  else
    match s.placing core with
    | some (l, r, b, base) =>
      .next ((s.modLaunch l.id fun x => { x with ranges := takeLow x.ranges r }).place core l r.lo b base false)
    | none => .next s

/-- BLOCK_RETRY_PLACE (R392): the block that waits first is placed again at its index, in a zeroed window. -/
def execBlockRetryPlace (core : Nat) (s : State) : Host.Outcome State Fault Refusal :=
  match s.retryFits core with
  | some (l, index, b, base) =>
    .next ((s.modCore core fun k => { k with retryPlace := k.retryPlace.erase (l.id, index) }).place core l index b base true)
  | none => .next s

/-! ### Drains and cuts (R365, R366) -/

/-- Some block of a family is placed. -/
def State.anyPlaced (s : State) (id : Nat) : Bool := !(s.blocksOf (s.family id)).isEmpty

/-- Blocks of some launches that wait on a core to be placed again, each as a range (R392). -/
def State.retryRanges (s : State) (ids : List Nat) : List BlockRange :=
  s.cores.flatMap fun k => (k.retryPlace.filter fun x => ids.contains x.1).map fun x => { lo := x.2, hi := x.2 + 1, owner := none }

/-- The position of a launch: a count, then its unplaced ranges and its children's in ascending order (R365). DESIGN
CHOICE (entry 87): a block that waits for its retry placement stands there as a range, and is placed again on its core
after a later bind. -/
def State.positionBytes (s : State) (id : Nat) : List Byte :=
  let rs := ((s.kin id).flatMap (·.ranges) ++ s.retryRanges (s.family id)).mergeSort fun a b => decide (a.lo ≤ b.lo)
  natToBytes 8 rs.length ++ rs.flatMap fun r => natToBytes 8 r.lo ++ natToBytes 8 r.hi

/-- DRAIN_POSITION_WRITE (R365). -/
def execDrainPositionWrite (launch : Nat) (s : State) : Host.Outcome State Fault Refusal :=
  match s.launch launch with
  | some l =>
    match l.draining with
    | some a => .next (if s.anyPlaced launch || l.cut.isSome then s else s.devWrite a.toNat (s.positionBytes launch))
    | none => .next s
  | none => .next s

/-- The troupes of a family's placed blocks. -/
def State.troupesOf (s : State) (id : Nat) : List Troupe :=
  (s.blocksOf (s.family id)).flatMap fun x => (s.core x.1).troupes.filter fun t => t.blk == x.2

/-- CONSISTENT_CUT (R366): the target is one more than the largest %step. -/
def execConsistentCut (launch : Nat) (s : State) : Host.Outcome State Fault Refusal :=
  match s.launch launch with
  | some l =>
    if l.cutAllowed && l.bound && !l.final && l.parent.isNone && l.cut.isNone then
      let target := ((s.troupesOf launch).map fun t => t.step.toNat).foldl max 0 + 1
      let ids := s.family launch
      .next (s.modSched fun q =>
        { q with launches := q.launches.map fun x => if ids.contains x.id then { x with cut := some target } else x })
    else .next s
  | none => .next s

end Sys2Proof.Machine
end

