-- ==== Sys2Proof/Machine/Vector.lean ====
section
/-!
DEFINITION. The vector engine's instructions (R214 to R237) over the arithmetic of Numbers.lean.
-/
namespace Sys2Proof.Machine

/-! ### Element formats (R52, R218) -/

/-- A floating element format: its tag, its encoding and the width of an element. -/
structure VFmt where
  tag : Tag
  fmt : FloatFmt
  width : Nat
  deriving DecidableEq, Repr

/-- The format of a SUB [1:0] code. -/
def vfmt (n : Nat) : VFmt :=
  match n with
  | 0 => { tag := .f32, fmt := f32, width := 32 }
  | 1 => { tag := .f16x2, fmt := f16, width := 16 }
  | _ => { tag := .bf16x2, fmt := bf16, width := 16 }

/-- The format of an instruction of majors 0x60 to 0x73. -/
def RForm.vf (f : RForm) : VFmt := vfmt (f.sub.toNat % 4)

/-- Element `i` of a lane, of `w` bits. -/
def elemAt (w : Nat) (x : Word) (i : Nat) : Nat := x.toNat / 2 ^ (w * i) % 2 ^ w

/-- Elements of `w` bits as a lane. -/
def joinElems (w : Nat) (xs : List Nat) : Word :=
  BitVec.ofNat 32 ((xs.mapIdx fun i x => x % 2 ^ w * 2 ^ (w * i)).foldl (· + ·) 0)

/-- Delivered elements of `w` bits as a lane, with their exceptions. -/
def joinRounded (w : Nat) (rs : List Rounded) : Word × Flags :=
  (joinElems w (rs.map (·.bits)), orFlags (rs.map (·.flags)))

/-- An operation on every element of a lane. -/
def VFmt.each (v : VFmt) (op : Nat → Rounded) : Word × Flags :=
  joinRounded v.width ((List.range (32 / v.width)).map op)

/-! ### Shapes -/

/-- A vector instruction of one source (R217). -/
def vunary (i : Instr) (h : Head) (f : RForm) (op : FloatFmt → Nat → Bool → Nat → Rounded) (s : State) :
    Host.Outcome State Fault Refusal :=
  let v := RForm.vf f
  unary i h f (isTag v.tag) (fun _ => v.tag)
    (fun s p x => v.each fun n => op v.fmt (s.rounding p f.mod) (modSat f.mod) (elemAt v.width x n)) s

/-- A vector instruction of two sources of its format (R217). -/
def vbinary (i : Instr) (h : Head) (f : RForm) (op : FloatFmt → Nat → Bool → Nat → Nat → Rounded) (s : State) :
    Host.Outcome State Fault Refusal :=
  let v := RForm.vf f
  binary i h f (isTag v.tag) (isTag v.tag) (fun _ _ => v.tag)
    (fun s p x y => v.each fun n =>
      op v.fmt (s.rounding p f.mod) (modSat f.mod) (elemAt v.width x n) (elemAt v.width y n)) s

/-- The pairs that an exact-pair operation gives for the elements of a lane. -/
def VFmt.eachPair (v : VFmt) (op : Nat → PairResult) : Word × Word × Flags :=
  let rs := (List.range (32 / v.width)).map op
  (joinElems v.width (rs.map (·.hi)), joinElems v.width (rs.map (·.lo)), orFlags (rs.map (·.flags)))

/-- FADD, FSUB and FMUL: the rounded result, or with X the exact pair (R219, R220). -/
def farith (i : Instr) (h : Head) (f : RForm) (op : FloatFmt → Nat → Bool → Nat → Nat → Rounded)
    (opX : FloatFmt → Nat → Nat → Nat → PairResult) (s : State) : Host.Outcome State Fault Refusal :=
  if modX f.mod then
    runThread i h f.len.bytes (fun p s => do
      let v := RForm.vf f
      let (a, b) ← s.read2 p f.a.toNat f.pa.toNat (isTag v.tag) f.b.toNat f.pb.toNat (isTag v.tag)
      let r (l : Nat) : Word × Word × Flags := v.eachPair fun n =>
        opX v.fmt (s.rounding p f.mod) (elemAt v.width (a.at l) n) (elemAt v.width (b.at l) n)
      s.finishGroup p [f.a.toNat, f.b.toNat] f.d.toNat
        [(v.tag, fun l => (r l).1), (v.tag, fun l => (r l).2.1)] fun l => (r l).2.2) s
  else vbinary i h f op s

/-- FADD (R219, R220). -/
def execFadd (h : Head) (f : RForm) (s : State) : Host.Outcome State Fault Refusal :=
  farith (.fadd h f) h f FloatFmt.add FloatFmt.addX s
/-- FSUB (R219, R220). -/
def execFsub (h : Head) (f : RForm) (s : State) : Host.Outcome State Fault Refusal :=
  farith (.fsub h f) h f FloatFmt.sub FloatFmt.subX s
/-- FMUL (R219, R220). -/
def execFmul (h : Head) (f : RForm) (s : State) : Host.Outcome State Fault Refusal :=
  farith (.fmul h f) h f FloatFmt.mul FloatFmt.mulX s

/-- FFMA (R219). -/
def execFfma (h : Head) (f : RForm) (s : State) : Host.Outcome State Fault Refusal :=
  let v := RForm.vf f
  ternary (.ffma h f) h f (isTag v.tag) (isTag v.tag) v.tag
    (fun s p x y z => v.each fun n => v.fmt.fma (s.rounding p f.mod) (modSat f.mod)
      (elemAt v.width x n) (elemAt v.width y n) (elemAt v.width z n)) s

/-! ### Minimum, maximum, copy-sign, compare, class (R221 to R224) -/

/-- FMIN (R221). -/
def execFmin (h : Head) (f : RForm) (s : State) : Host.Outcome State Fault Refusal :=
  vbinary (.fmin h f) h f (fun t _ _ x y => t.minMax false x y) s
/-- FMAX (R221). -/
def execFmax (h : Head) (f : RForm) (s : State) : Host.Outcome State Fault Refusal :=
  vbinary (.fmax h f) h f (fun t _ _ x y => t.minMax true x y) s
/-- FCPYS (R222). -/
def execFcpys (h : Head) (f : RForm) (s : State) : Host.Outcome State Fault Refusal :=
  vbinary (.fcpys h f) h f (fun t _ _ x y => t.copySign x y) s

/-- FCMP (R223). -/
def execFcmp (h : Head) (f : RForm) (s : State) : Host.Outcome State Fault Refusal :=
  runThread (.fcmp h f) h f.len.bytes (fun p s => do
    let v := RForm.vf f
    let (a, b) ← s.read2 p f.a.toNat f.pa.toNat (isTag v.tag) f.b.toNat f.pb.toNat (isTag v.tag)
    let e := if f.sub.getLsbD 5 then 1 else 0
    let r (l : Nat) : Bool × Flags :=
      v.fmt.compare (f.sub.toNat / 4 % 8) (elemAt v.width (a.at l) e) (elemAt v.width (b.at l) e)
    .ok (((s.popPorts p [f.a.toNat, f.b.toNat]).putPred p f.d.toNat fun l => (r l).1).orFstat p
      (orFlags (p.active.lanes.map fun l => (r l).2)))) s

/-- FCLASS (R224). -/
def execFclass (h : Head) (f : RForm) (s : State) : Host.Outcome State Fault Refusal :=
  let v := RForm.vf f
  unary (.fclass h f) h f (isTag v.tag) (fun _ => .n32)
    (fun _ _ x => plainly (joinElems 16
      ((List.range (32 / v.width)).map fun n => v.fmt.classOf (elemAt v.width x n)))) s

/-! ### Integral rounding, scaling, division, roots, transcendental functions (R225 to R227) -/

/-- FRND (R225). -/
def execFrnd (h : Head) (f : RForm) (s : State) : Host.Outcome State Fault Refusal :=
  vunary (.frnd h f) h f (fun t m _ x => t.integral m x) s

/-- FSCALE (R226). -/
def execFscale (h : Head) (f : RForm) (s : State) : Host.Outcome State Fault Refusal :=
  let v := RForm.vf f
  binary (.fscale h f) h f (isTag v.tag) (isTag .i32) (fun _ _ => v.tag)
    (fun s p x y => v.each fun n =>
      v.fmt.scale (s.rounding p f.mod) (modSat f.mod) (elemAt v.width x n) y.toInt) s

/-- FRCP (R227). -/
def execFrcp (h : Head) (f : RForm) (s : State) : Host.Outcome State Fault Refusal :=
  vunary (.frcp h f) h f FloatFmt.recip s
/-- FSQRT (R227). -/
def execFsqrt (h : Head) (f : RForm) (s : State) : Host.Outcome State Fault Refusal :=
  vunary (.fsqrt h f) h f (fun t m _ x => t.sqrt m x) s
/-- FRSQ (R227). -/
def execFrsq (h : Head) (f : RForm) (s : State) : Host.Outcome State Fault Refusal :=
  vunary (.frsq h f) h f (fun t m _ x => t.rsqrt m x) s
/-- FEXP2 (R227). -/
def execFexp2 (h : Head) (f : RForm) (s : State) : Host.Outcome State Fault Refusal :=
  vunary (.fexp2 h f) h f FloatFmt.exp2 s
/-- FLOG2 (R227). -/
def execFlog2 (h : Head) (f : RForm) (s : State) : Host.Outcome State Fault Refusal :=
  vunary (.flog2 h f) h f (fun t m _ x => t.log2 m x) s
/-- FSINP (R227). -/
def execFsinp (h : Head) (f : RForm) (s : State) : Host.Outcome State Fault Refusal :=
  vunary (.fsinp h f) h f (fun t m _ x => t.trig m false x) s
/-- FCOSP (R227). -/
def execFcosp (h : Head) (f : RForm) (s : State) : Host.Outcome State Fault Refusal :=
  vunary (.fcosp h f) h f (fun t m _ x => t.trig m true x) s
/-- FTANH (R227). -/
def execFtanh (h : Head) (f : RForm) (s : State) : Host.Outcome State Fault Refusal :=
  vunary (.ftanh h f) h f (fun t m _ x => t.tanh m x) s
/-- FDIV (R227). -/
def execFdiv (h : Head) (f : RForm) (s : State) : Host.Outcome State Fault Refusal :=
  vbinary (.fdiv h f) h f FloatFmt.div s

/-! ### Double-word arithmetic (R228 to R230) -/

/-- Deliver a DF32 pair. -/
def State.finishDw (s : State) (p : Path) (fields : List Nat) (d : Nat) (r : Nat → PairResult) : Exe State :=
  s.finishGroup p fields d
    [(.dfh, fun l => BitVec.ofNat 32 (r l).hi), (.dfl, fun l => BitVec.ofNat 32 (r l).lo)] fun l => (r l).flags

/-- DWADD and DWMUL. -/
def dwPairs (i : Instr) (h : Head) (f : RForm) (op : Nat → Nat → Nat → Nat → PairResult) (s : State) :
    Host.Outcome State Fault Refusal :=
  runThread i h f.len.bytes (fun p s => do
    let x ← s.readPair p 0 f.a.toNat f.pa.toNat .dfh .dfl
    let y ← s.readPair p 1 f.b.toNat f.pb.toNat .dfh .dfl
    s.finishDw p [] f.d.toNat fun l =>
      op (x.1.at l).toNat (x.2.at l).toNat (y.1.at l).toNat (y.2.at l).toNat) s

/-- DWADDS and DWMULS. -/
def dwSingle (i : Instr) (h : Head) (f : RForm) (op : Nat → Nat → Nat → PairResult) (s : State) :
    Host.Outcome State Fault Refusal :=
  runThread i h f.len.bytes (fun p s => do
    let x ← s.readPair p 0 f.a.toNat f.pa.toNat .dfh .dfl
    s.checkOperand p 1 f.b.toNat (isTag .f32)
    s.portsReady p [f.a.toNat, f.b.toNat]
    let y ← s.operand p [f.a.toNat, f.b.toNat] 1 f.pb.toNat (isTag .f32)
    s.finishDw p [f.a.toNat, f.b.toNat] f.d.toNat fun l =>
      op (x.1.at l).toNat (x.2.at l).toNat (y.at l).toNat) s

/-- DWADD (R229). -/
def execDwadd (h : Head) (f : RForm) (s : State) : Host.Outcome State Fault Refusal :=
  dwPairs (.dwadd h f) h f dwadd s
/-- DWADDS (R229). -/
def execDwadds (h : Head) (f : RForm) (s : State) : Host.Outcome State Fault Refusal :=
  dwSingle (.dwadds h f) h f dwadds s
/-- DWMUL (R229). -/
def execDwmul (h : Head) (f : RForm) (s : State) : Host.Outcome State Fault Refusal :=
  dwPairs (.dwmul h f) h f dwmul s
/-- DWMULS (R229). -/
def execDwmuls (h : Head) (f : RForm) (s : State) : Host.Outcome State Fault Refusal :=
  dwSingle (.dwmuls h f) h f dwmuls s

/-- DWNORM (R229). -/
def execDwnorm (h : Head) (f : RForm) (s : State) : Host.Outcome State Fault Refusal :=
  runThread (.dwnorm h f) h f.len.bytes (fun p s => do
    let x ← s.readPair p 0 f.a.toNat f.pa.toNat .dfh .dfl
    s.finishDw p [] f.d.toNat fun l => dwnorm (x.1.at l).toNat (x.2.at l).toNat) s

/-! ### Lane reductions (R231) -/

/-- The values of the active lanes, one place for each lane. -/
def Path.leaves {α : Type} (p : Path) (v : Nat → α) : List (Option α) :=
  laneNumbers.map fun l => if p.active.has l then some (v l) else none

/-- VRSUM, VRMAX and VRMIN. -/
def reduceOne (i : Instr) (h : Head) (f : RForm) (op : Nat → Bool → List (Option Nat) → Rounded) (s : State) :
    Host.Outcome State Fault Refusal :=
  runThread i h f.len.bytes (fun p s => do
    let a ← s.read1 p f.a.toNat f.pa.toNat (isTag .f32)
    let r := op (s.rounding p f.mod) (modSat f.mod) (p.leaves fun l => (a.at l).toNat)
    s.finish p [f.a.toNat] f.d.toNat .f32 (fun _ => BitVec.ofNat 32 r.bits) fun _ => r.flags) s

/-- VRSUM (R231). -/
def execVrsum (h : Head) (f : RForm) (s : State) : Host.Outcome State Fault Refusal :=
  reduceOne (.vrsum h f) h f vrsum s
/-- VRMAX (R231). -/
def execVrmax (h : Head) (f : RForm) (s : State) : Host.Outcome State Fault Refusal :=
  reduceOne (.vrmax h f) h f (fun _ _ => vrmm true) s
/-- VRMIN (R231). -/
def execVrmin (h : Head) (f : RForm) (s : State) : Host.Outcome State Fault Refusal :=
  reduceOne (.vrmin h f) h f (fun _ _ => vrmm false) s

/-- VRSUMC (R231). -/
def execVrsumc (h : Head) (f : RForm) (s : State) : Host.Outcome State Fault Refusal :=
  runThread (.vrsumc h f) h f.len.bytes (fun p s =>
    if f.sub.getLsbD 0 then do
      let x ← s.readPair p 0 f.a.toNat f.pa.toNat .dfh .dfl
      let r := vrsumc (p.leaves fun l => ((x.1.at l).toNat, (x.2.at l).toNat))
      s.finishDw p [] f.d.toNat fun _ => r
    else do
      let a ← s.read1 p f.a.toNat f.pa.toNat (isTag .f32)
      let r := vrsumc (p.leaves fun l => ((a.at l).toNat, 0))
      s.finishDw p [f.a.toNat] f.d.toNat fun _ => r) s

/-- VRDOTC (R231). -/
def execVrdotc (h : Head) (f : RForm) (s : State) : Host.Outcome State Fault Refusal :=
  runThread (.vrdotc h f) h f.len.bytes (fun p s => do
    let (a, b) ← s.read2 p f.a.toNat f.pa.toNat (isTag .f32) f.b.toNat f.pb.toNat (isTag .f32)
    let r := vrdotc (p.leaves fun l => ((a.at l).toNat, (b.at l).toNat))
    s.finishDw p [f.a.toNat, f.b.toNat] f.d.toNat fun _ => r) s

/-! ### Conversions (R232 to R237) -/

/-- The value of element `i` of a source of a given tag (R232). -/
def sourceNum (t : Tag) (x : Word) (i : Nat) : Num :=
  match t with
  | .f32 => f32.value (elemAt 32 x i)
  | .f16x2 => f16.value (elemAt 16 x i)
  | .bf16x2 => bf16.value (elemAt 16 x i)
  | .i32 => intNum (ofBits true 32 x.toNat)
  | .n32 => intNum x.toNat
  | .i16x2 => intNum (ofBits true 16 (elemAt 16 x i))
  | .i8x4 => intNum (ofBits true 8 (elemAt 8 x i))
  | _ => intNum (elemAt 8 x i)

/-- Elements per lane of a tag (R232). -/
def perLane (t : Tag) : Nat :=
  match t with
  | .f32 | .i32 | .n32 => 1
  | .i8x4 | .n8x4 => 4
  | _ => 2

/-- The tag of CVT's source codes (R233). -/
def cvtSource (n : Nat) : Tag :=
  match n with
  | 0 => .f32 | 1 => .f16x2 | 2 => .bf16x2 | 3 => .i32 | 4 => .n32 | 5 => .i16x2 | 6 => .i8x4
  | _ => .n8x4

/-- Where element `i` of a destination of `m` elements comes from in a source of `n`, with the element
field `h` (R232): none where the element is zero. -/
def sourceElem (n m h i : Nat) : Option Nat :=
  if n = m then some i
  else if n < m then (if n * h ≤ i && i < n * h + n then some (i - n * h) else none)
  else some (m * h + i)

/-- CVT (R233). -/
def execCvt (h : Head) (f : RForm) (s : State) : Host.Outcome State Fault Refusal :=
  let src := cvtSource (f.sub.toNat % 8)
  let v := vfmt (f.sub.toNat / 8 % 4)
  let m := 32 / v.width
  unary (.cvt h f) h f (isTag src) (fun _ => v.tag)
    (fun s p x => joinRounded v.width ((List.range m).map fun i =>
      match sourceElem (perLane src) m (f.sub.toNat / 32) i with
      | some e => v.fmt.convert (s.rounding p f.mod) (sourceNum src x e)
      | none => { bits := 0, flags := 0 })) s

/-- CVTI (R234). -/
def execCvti (h : Head) (f : RForm) (s : State) : Host.Outcome State Fault Refusal :=
  let v := vfmt (f.sub.toNat % 4)
  let ty := elemType (f.sub.toNat / 4 % 8)
  let m := 32 / ty.width
  let b := intRange ty.signed ty.width
  unary (.cvti h f) h f (isTag v.tag) (fun _ => ty.tag)
    (fun s p x => joinRounded ty.width ((List.range m).map fun i =>
      match sourceElem (perLane v.tag) m (f.sub.toNat / 32) i with
      | some e =>
        let r := toInteger (s.rounding p f.mod) b.1 b.2 (sourceNum v.tag x e)
        { bits := toBits ty.width r.1, flags := r.2 }
      | none => { bits := 0, flags := 0 })) s

/-- PACK2 (R235). -/
def execPack2 (h : Head) (f : RForm) (s : State) : Host.Outcome State Fault Refusal :=
  if f.sub.toNat = 6 then
    binary (.pack2 h f) h f (isTag .i32) (isTag .i32) (fun _ _ => .i16x2)
      (fun _ _ x y => joinRounded 16 ([x, y].map fun w =>
        let r := narrow true true 16 w.toInt
        { bits := r.1, flags := flagIf r.2 flagSAT })) s
  else
    let v := vfmt f.sub.toNat
    binary (.pack2 h f) h f (isTag .f32) (isTag .f32) (fun _ _ => v.tag)
      (fun s p x y => joinRounded 16 ([x, y].map fun w =>
        v.fmt.convert (s.rounding p f.mod) (f32.value w.toNat))) s

/-- One element widened to a register (R235). -/
def unpackElem (sub : Nat) (x : Word) (i : Nat) : Rounded :=
  if sub = 3 then { bits := toBits 32 (ofBits true 16 (elemAt 16 x i)), flags := 0 }
  else f32.convert 1 (sourceNum (vfmt sub).tag x i)

/-- UNPK2 (R235). -/
def execUnpk2 (h : Head) (f : RForm) (s : State) : Host.Outcome State Fault Refusal :=
  runThread (.unpk2 h f) h f.len.bytes (fun p s => do
    let sub := f.sub.toNat
    let tag := if sub = 3 then Tag.i32 else Tag.f32
    let a ← s.read1 p f.a.toNat f.pa.toNat (isTag (if sub = 3 then .i16x2 else (vfmt sub).tag))
    s.finishGroup p [f.a.toNat] f.d.toNat
      ([0, 1].map fun n => (tag, fun l => BitVec.ofNat 32 (unpackElem sub (a.at l) n).bits))
      fun l => orFlags ([0, 1].map fun n => (unpackElem sub (a.at l) n).flags)) s

/-- The block that lane `l` takes part in converts with `n` registers in each lane (R236): its
conversion, over the elements of its active lanes. -/
def blockOf (four : Bool) (k : Nat) (p : Path) (os : List Operand) (l : Nat) : BxBlock :=
  let n := os.length
  let w := 32 / n
  let first := l / w * w
  bxConvert four k ((List.range w).flatMap fun j => os.map fun o =>
    if p.active.has (first + j) then some (f32.value (o.at (first + j)).toNat) else none)

/-- Lane `l`'s elements of its block as a register (R236). -/
def blockWord (four : Bool) (n l : Nat) (b : BxBlock) : Word :=
  joinElems (if four then 4 else 8) ((b.elems.drop (n * (l % (32 / n)))).take n)

/-- CVTBX (R236). -/
def execCvtbx (h : Head) (f : RForm) (s : State) : Host.Outcome State Fault Refusal :=
  runThread (.cvtbx h f) h f.len.bytes (fun p s => do
    let four := f.sub.getLsbD 0
    let n := if four then 8 else 4
    let k := 2 * (f.sub.toNat / 2 % 4) + 2
    let os ← s.operandGroup p 0 f.a.toNat 0 (List.replicate n .f32)
    let blk (l : Nat) : BxBlock := blockOf four k p os l
    s.finishGroup p [] f.d.toNat
      [(if four then .bx4x8 else .bx8x4, fun l => blockWord four n l (blk l)),
       (.n32, fun l => BitVec.ofNat 32 ((blk l).e0 + 256 * (blk l).e1))]
      fun l => (blk l).flags) s

/-- CVTXB (R237). -/
def execCvtxb (h : Head) (f : RForm) (s : State) : Host.Outcome State Fault Refusal :=
  runThread (.cvtxb h f) h f.len.bytes (fun p s => do
    let four := f.sub.getLsbD 0
    let n := if four then 8 else 4
    let x ← s.readPair p 0 f.a.toNat f.pa.toNat (if four then .bx4x8 else .bx8x4) .n32
    let w := 32 / n
    s.finishGroup p [] f.d.toNat
      ((List.range n).map fun i => (.f32, fun l =>
        BitVec.ofNat 32 (f32.convert 1 (bxValue four (elemAt 8 (x.2.at l) 0) (elemAt 8 (x.2.at l) 1)
          (elemAt w (x.1.at l) i))).bits)) noFlags) s

end Sys2Proof.Machine
end

