-- ==== Sys2Proof/Machine/Task.lean ====
section
/-!
DEFINITION. The task majors FETCHW, SPAWN, ENQ and JOBST (R372 to R376) and the distributor's service of
FETCHW (R373).
-/
namespace Sys2Proof.Machine

/-! ### FETCHW (R373) -/

/-- FETCHW: word +8 of the mailbox is cleared, and the path departs on its flag. -/
def execFetchw (h : Head) (f : XForm) (s : State) : Host.Outcome State Fault Refusal :=
  runThread (.fetchw h f) h 16 (fun p s => do
    let off := s.kAt p f.ka.toNat + f.imm.signExtend 64
    let b := s.block p
    if off.toNat % 16 ≠ 0 then pathFault p codeAlign off
    if b.size < off.toNat + 16 then pathFault p codeLocalRange off
    let s := s.modCore p.core fun k => { k with mem := k.mem.writeNat (b.base + off.toNat + 8) 8 0 }
    s.depart p (.mailbox off.toNat) p.next 0 id) s

/-- The block of a range that its core owns is withdrawn (R373). -/
def State.withdraw (s : State) (c : Nat) (l : Launch) : Option ((Nat ⊕ Nat) × State) :=
  ((s.launch l.id).bind fun x => x.owned c).map fun r =>
    (.inl r.lo, s.modLaunch l.id fun x => { x with ranges := takeLow x.ranges r })

/-- What the distributor answers to a FETCHW of launch `l` from a core: the block it withdraws, or the flag bits of
word +8, with the state that its service leaves; none while its request is not served, in its turn, or while no range
can be given to it (R364, R373). -/
def State.fetchAnswer (s : State) (c : Nat) (l : Launch) : Option ((Nat ⊕ Nat) × State) :=
  if l.cancelled then some (.inr 4, s)
  else if s.stopped l || l.ranges.isEmpty then some (.inr 2, s)
  else if (l.owned c).isSome then s.withdraw c l
  else if s.wantsRange c l && s.nextAsker == some c then
    ((s.grant [l] c).modSched fun q => { q with lastServed := c }).withdraw c l
  else none

/-- The mailbox is written, READY last, and the record becomes ready. -/
def State.writeMailbox (s : State) (c blk rid off : Nat) (b : Block) (answer : Nat ⊕ Nat) : State :=
  let a := b.base + off
  let s := s.modCore c fun k => { k with mem := match answer with
    | .inl n => (k.mem.writeNat a 8 n).writeNat (a + 8) 8 1
    | .inr flags => k.mem.writeNat (a + 8) 8 (1 + flags) }
  let s := match answer with
    | .inl _ => s.modBlock c blk fun x => { x with withdrawn := x.withdrawn + 1 }
    | .inr _ => s
  s.modCore c fun k => k.markReady rid

/-- FETCHW_SERVICE (R373). -/
def execFetchwService (core rid : Nat) (s : State) : Host.Outcome State Fault Refusal :=
  match (s.core core).cue.find? fun r => r.rid == rid && !r.ready with
  | none => .next s
  | some r =>
    match r.key, (s.core core).block r.blk, s.launchOf core r.blk with
    | .mailbox off, some b, some l =>
      match s.fetchAnswer core l with
      | some x => .next (x.2.writeMailbox core r.blk rid off b x.1)
      | none => .next s
    | _, _, _ => .next s

/-! ### SPAWN, ENQ, JOBST (R374 to R376) -/

/-- The child task of a launch (R374). -/
def Launch.child (l : Launch) (id top : Nat) (kdesc : DWord) (d : Desc) (args : List DWord) (n : Nat) : Launch :=
  { l with
    id := id, parent := some top, desc := d, kdesc := kdesc, args := args, blocks := n, sched := d.sched, compl := 0
    irq := false, ranges := [{ lo := 0, hi := n, owner := none }], ended := 0, done := 0, faults := 0, bound := true
    cancelled := false, removed := false, failed := false, draining := none, cut := none, unscanned := [], final := false
    scanFail := false }

/-- The checks of R357 that a spawn makes: reasons 2 to 4 and 6. -/
def State.spawnRefused (s : State) (l : Launch) (kdesc : DWord) (n : Nat) (argptr : DWord) : Bool :=
  (s.refuseDesc l.part n (s.readDesc kdesc.toNat)).isSome || kdesc.toNat % 64 != 0 || argptr.toNat % 8 != 0 ||
    match s.readDesc kdesc.toNat with
    | some d => d.sched.toNat % 32 != 0
    | none => true

/-- The job table has a free entry, and the partition's front end and the launch are open to a spawn. -/
def State.spawnRoom (s : State) (l : Launch) : Bool :=
  decide ((s.jobsOf l.part).length < jobEntries) && !(s.part l.part).quiesced && !s.stopped l

/-- A spawn taken by the distributor arbiter: its status, and the state with the child it creates. -/
def State.spawn (s : State) (l : Launch) (kdesc : DWord) (n : Nat) (argptr : DWord) : Nat × State :=
  if l.cancelled then (1, s)
  else if !s.spawnRoom l then (2, s)
  else if s.spawnRefused l kdesc n argptr then (3, s)
  else
    match s.readDesc kdesc.toNat with
    | none => (3, s)
    | some d =>
      (0, (s.addLaunch (l.child s.sched.nextLaunch (s.topLaunch l.id) kdesc d (s.readArgs argptr.toNat) n)).clearCode
        l.clmask l.coremask)

/-- Majors of SPAWN and ENQ, by which the comparator knows their requests (R385). -/
def majorSpawn : Nat := 0xD1
def majorEnq : Nat := 0xD2

/-- SPAWN (R374). In checked mode its request performs once matched (R385, R387). -/
def execSpawn (h : Head) (f : XForm) (s : State) : Host.Outcome State Fault Refusal :=
  runThread (.spawn h f) h 16 (fun p s =>
    match s.launchOf p.core p.blk with
    | none => .ok s
    | some l =>
      let ks := [f.ka, f.kb, f.kc].map fun x => s.kAt p x.toNat
      let pass := s.passEvent p (.request majorSpawn (ks.map (·.toNat)))
      pass.map fun s =>
        let r := s.spawn l (ks.getD 0 0) (ks.getD 1 0).toNat (ks.getD 2 0)
        (r.2.noteSync p true).mod p fun t => t.setK (f.d.toNat % 64) (BitVec.ofNat 64 r.1)) s

/-- The launch record in k8 to k15 (R375). -/
def Troupe.enqBytes (t : Troupe) : List Byte := (List.range' 8 8).flatMap fun n => natToBytes 8 (t.kreg n).toNat

/-- ENQ (R375); in checked mode it performs once matched (R385, R387). -/
def execEnq (h : Head) (f : KForm) (s : State) : Host.Outcome State Fault Refusal :=
  runThread (.enq h f) h 8 (fun p s =>
    match s.launchOf p.core p.blk with
    | none => .ok s
    | some l =>
      let q := if f.sub.getLsbD 0 then (s.kAt p f.ka.toNat).toNat % 8 else f.imm.toNat % 8
      let n := 8 * l.part + q
      let bytes := (s.troupe p).enqBytes
      (s.passEvent p (.request majorEnq (q :: bytes.map (·.toNat)))).map fun s =>
        let r : Nat × State :=
          if l.cancelled then (2, s)
          else if !s.queueOpen n then (1, s)
          else (0, s.accept n bytes)
        (r.2.noteSync p true).mod p fun t => t.setK f.kd.toNat (BitVec.ofNat 64 r.1)) s

/-- The state of a job in a partition (R376). -/
def State.jobState (s : State) (part job : Nat) : DWord :=
  let es := (s.jobsOf part).filter fun j => j.job == job
  let acting := es.any fun j => match s.launch j.launch with
    | some l => l.cancelled
    | none => false
  BitVec.ofNat 64 (min es.length 0xFFFF + if acting then 0x10000 else 0)

/-- JOBST.query (R376). -/
def execJobstQuery (h : Head) (f : KForm) (s : State) : Host.Outcome State Fault Refusal :=
  runThread (.jobstQuery h f) h 8 (fun p s =>
    let v := s.jobState (s.ownerOf p.core p.blk).1 ((s.kAt p f.ka.toNat).toNat % 2 ^ 32)
    .ok (s.mod p fun t => t.setK f.kd.toNat v)) s

/-- JOBST.cancel (R376). -/
def execJobstCancel (h : Head) (f : KForm) (s : State) : Host.Outcome State Fault Refusal :=
  runThread (.jobstCancel h f) h 8 (fun p s =>
    let g := (s.kAt p f.ka.toNat).toNat
    if 2 ^ 16 ≤ g then activeFault p codeIllegal 0
    else
      .ok ((s.modSched fun q => { q with presented := q.presented ++ [((s.ownerOf p.core p.blk).1, g)] }).mod p fun t =>
        t.setK f.kd.toNat 0)) s

end Sys2Proof.Machine
end

