-- ==== Sys2Proof/Machine/Cue.lean ====
section
/-!
DEFINITION. The steps of the cue store: data, fills and wake times that make records ready (R120, R121,
R145, R243), the read-back of spilled records (R125, R126), and relaunch with the merge of siblings (R127
to R131).
-/
namespace Sys2Proof.Machine

/-! ### What makes records ready -/

/-- An AtomicOp of an access is still on its way to the host (R256). -/
def State.opsPending (s : State) (c rid : Nat) : Bool := s.hostOps.any fun o => o.core == c && o.rid == rid

/-- A deferred access returns, unless its sector is poisoned (R251). -/
def Core.returnDeferred (k : Core) (rid : Nat) : Core :=
  { k with
    troupes := k.troupes.map fun (t : Troupe) => { t with
      deferred := t.deferred.map fun (d : Deferred) =>
        if d.rid == rid && d.poison.isNone then { d with returned := true } else d } }.wakeDeferred

/-- The access is carried over the Berzin link (R431). -/
def Core.overLink (k : Core) (rid : Nat) : Bool :=
  (k.cue.any fun r => r.rid == rid && r.peer) || k.troupes.any fun t => t.deferred.any fun d => d.rid == rid && d.peer

/-- LOAD_DATA_RETURN (R120, R121, R144): the data of access `rid` returns. Data carried over the Berzin link
returns only while the link is up (R431), and an AtomicOp's only when the host has completed it (R256). -/
def execLoadDataReturn (core rid : Nat) (s : State) : Host.Outcome State Fault Refusal :=
  let k := s.core core
  if s.opsPending core rid || (k.overLink rid && s.link.state != 2) then .next s
  else if k.cue.any fun r => r.rid == rid && r.key == .data then .next (s.modCore core fun k => k.markReady rid)
  else .next (s.modCore core fun k => k.returnDeferred rid)

/-- A key with one of its awaited pages done: the key that remains, if the page was awaited. -/
def Key.without (page : Nat) : Key → Option Key
  | .fills vas => if vas.contains page then some (.fills (vas.filter fun a => a != page)) else none
  | .pages vas => if vas.contains page then some (.pages (vas.filter fun a => a != page)) else none
  | _ => none

/-- Nothing is awaited any more. -/
def Key.done : Key → Bool
  | .fills vas => vas.isEmpty
  | .pages vas => vas.isEmpty
  | _ => false

/-- An awaited page of some records is done: those that await nothing else become ready. -/
def Core.pageDone (k : Core) (page : Nat) (test : CueRec → Bool) : Core :=
  let hit (r : CueRec) : Bool := !r.ready && r.halted.isNone && test r && (r.key.without page).isSome
  let ids := (k.cue.filter hit).map (·.rid)
  let k := { k with cue := k.cue.map fun (r : CueRec) => if hit r then { r with key := (r.key.without page).getD r.key } else r }
  k.markReadyWhere fun r => ids.contains r.rid && r.key.done

/-- A record awaits the fill of a page. -/
def CueRec.awaitsFill (r : CueRec) (page : Nat) : Bool :=
  match r.key with
  | .fills vas => !r.ready && vas.contains page
  | _ => false

/-- An outcome other than a translation is kept for the lanes of the records that awaited it (R243). -/
def Core.keepOutcome (k : Core) (f : Fill) (mine : CueRec → Bool) : Core :=
  match f with
  | .ok _ => k
  | _ =>
    { k with
      outcomes := k.outcomes ++ (k.cue.filter mine).map fun r =>
        { blk := r.blk, troupe := r.troupe, lanes := r.mask, fill := f, entered := false } }

/-- TLB_FILL_COMPLETE (R242, R243): the fills of one page complete for every owner whose records await it. -/
def execTlbFillComplete (core : Nat) (va : DWord) (evict : Nat) (s : State) : Host.Outcome State Fault Refusal :=
  let page := va.toNat / 4096 * 4096
  let owners := (((s.core core).cue.filter fun r => r.awaitsFill page).map fun r => s.ownerOf core r.blk).eraseDups
  .next (owners.foldl
    (fun s own =>
      let mine (r : CueRec) : Bool := r.awaitsFill page && s.ownerOf core r.blk == own
      let f := s.fill core own page evict
      f.2.modCore core fun k => (k.keepOutcome f.1 mine).pageDone page mine) s)

/-- WAKE_TIME (R145): %clock has reached the record's wake time. DESIGN CHOICE (entry 83): a wake time past
2^64 − 1 is kept as a natural number, and on waking %clock takes it modulo 2^64. -/
def execWakeTime (core rid : Nat) (s : State) : Host.Outcome State Fault Refusal :=
  match (s.core core).cue.find? fun r => r.rid == rid && !r.ready with
  | some r =>
    match r.key with
    | .time t =>
      .next ({ s with clock := BitVec.ofNat 64 (max s.clock.toNat t) }.modCore core fun k => k.markReady rid)
    | _ => .next s
  | none => .next s

/-! ### The cue queue (R125, R126, R128) -/

/-- `a` stands before `b` in the cue queue (R128). -/
def queuedBefore (a b : CueRec) : Bool := a.prio < b.prio || (a.prio == b.prio && a.readySeq < b.readySeq)

/-- A record is in the cue queue. -/
def CueRec.queued (r : CueRec) : Bool := r.ready && !r.held

/-- The first of the queued records that satisfy a test. -/
def Core.firstQueued (k : Core) (test : CueRec → Bool) : Option CueRec :=
  (k.cue.filter fun r => r.queued && test r).foldl
    (fun best r => match best with
      | none => some r
      | some b => if queuedBefore r b then some r else some b) none

/-- The head of the cue queue. -/
def Core.queueHead (k : Core) : Option CueRec := k.firstQueued fun _ => true

/-- A spilled record is back in the cue store. -/
def Core.unspill (k : Core) (rid : Nat) : Core :=
  { k with cue := k.cue.map fun (x : CueRec) => if x.rid == rid then { x with spilled := false, written := false } else x }

/-- Room for a spilled record: as the store stands, or for the queue's head by spilling what stands behind it
or is not ready (R125). -/
def Core.readBackRoom (k : Core) (r : CueRec) : Option Core :=
  let need := k.sizeOf r / 64
  if k.cueUsed + need ≤ Config.cueGranules then some k
  else
    match k.queueHead with
    | some h => if h.rid == r.rid then k.makeRoom (k.cue.length + k.troupes.length) (fun x => x.rid != r.rid) need else none
    | none => none

/-- The header that 64 bytes of device DRAM hold has its CHECK (R122). -/
def State.headerHolds (s : State) (a : Nat) : Bool := checkWord (wordsOf (s.dram.readBytes a 60)) == s.dramNat (a + 60) 4

/-- A record or frame of `n` bytes at an offset of a core's wings area can be read back: its CHECK holds, and no sector
of it is poisoned (R126). What has just been spilled stands there with the end of the step. -/
def State.wingsHold (s : State) (c at_ n : Nat) (written : Bool) : Bool :=
  let a := (s.core c).wingsBase + at_
  !written || (s.headerHolds a && s.poison.all fun sec => sec < sectorOf a || sectorOf (a + n - 1) < sec)

/-- What a core reads back fails: its block is killed, whatever the disposition, and reported (R126). -/
def State.wingsFail (s : State) (c b : Nat) : State := s.report.blockFault c b codePoison 2 false 0 0 0

/-- READ_BACK (R125, R126): the first ready spilled record is read back once it has room. Where an error on the way has
changed its bytes, its CHECK fails as well. -/
def execReadBack (core : Nat) (good : Bool) (s : State) : Host.Outcome State Fault Refusal :=
  let k := s.core core
  match k.firstQueued fun r => r.spilled with
  | none => .next s
  | some r =>
    match k.readBackRoom r with
    | none => .next s
    | some k' =>
      if good && s.wingsHold core r.wingsAt (k.sizeOf r) r.written then .next (s.setCore core (k'.unspill r.rid))
      else .next (s.wingsFail core r.blk)

/-! ### Relaunch (R127 to R131) -/

/-- A record without what its event brought: the state its lanes had when they left. -/
def CueRec.bare (r : CueRec) : CueRec := { r with data := [], uresult := none }

/-- Two ready siblings as one record (R130): `a` was seen ready first. -/
def CueRec.merge (a b : CueRec) : CueRec :=
  let newer := if a.sibseq.toNat < b.sibseq.toNat then b else a
  let regs := b.regs.foldl
    (fun rs d =>
      let tag := if (newer.regs.any fun x => x.reg == d.reg) then
          ((newer.regs.find? fun x => x.reg == d.reg).map (·.tag)).getD d.tag
        else ((rs.find? fun x => x.reg == d.reg).map (·.tag)).getD d.tag
      putRegs rs b.mask { d with tag := tag }) a.regs
  { a with
    mask := a.mask ||| b.mask, regs := regs.mergeSort fun x y => decide (x.reg ≤ y.reg)
    lanes := laneNumbers.map fun l => if b.mask.has l then b.lanes.getD l Lane.reset else a.lanes.getD l Lane.reset
    sibseq := if a.sibseq.toNat < b.sibseq.toNat then a.sibseq else b.sibseq
    cancel := a.cancel || b.cancel, sat := a.sat || b.sat }

/-- A sibling that merges with a record (R130). -/
def CueRec.mergesWith (a b : CueRec) : Bool :=
  a.rid != b.rid && a.blk == b.blk && a.troupe == b.troupe && a.resume == b.resume && b.queued && !b.spilled &&
    a.uresult.isNone && b.uresult.isNone

/-- A cancelled record is discarded in place of its relaunch (R131). -/
def State.discardRecord (s : State) (c : Nat) (r : CueRec) : State :=
  ((s.noteRemoved c r.blk).modTroupe c r.blk r.troupe fun t => t.endLanes r.mask).sweepTroupe c r.blk r.troupe

/-- The records `r` and its siblings relaunch as one in a slot. DESIGN CHOICE (entry 84): all ready siblings with equal
RESUME in the store merge when the first of them relaunches, in the order in which they were written. -/
def State.relaunchAll (s : State) (c slot : Nat) (t : Troupe) (r : CueRec) (sibs : List CueRec) : State :=
  let all := r :: sibs
  let ids := all.map (·.rid)
  let one := (sibs.map CueRec.absorb).foldl CueRec.merge r.absorb
  let bare := (sibs.map CueRec.bare).foldl CueRec.merge r.bare
  let s := s.modCore c fun k => { k with cue := k.cue.filter fun x => !ids.contains x.rid }
  if one.cancel then s.discardRecord c one
  else
    let s := all.foldl (fun s x => if x.rewind then s.rewindLanes c x.blk x.troupe x.mask else s) s
    s.modCore c fun k => (k.modTroupe r.blk r.troupe fun t => t.rejoin one slot).modLog r.blk r.troupe fun u =>
      u.relaunch (s.debugs c r.blk) one.mask (t.rejoin bare slot) (t.rejoin one slot)

/-- The core relaunches records: it is in service or draining, and no block that comes first can be placed again there
(R187, R368, R382, R392). -/
def State.relaunches (s : State) (c : Nat) : Bool :=
  let k := s.core c
  s.usable c && k.preempt.isNone && (k.service == .inService || k.service == .drain) && (s.retryFits c).isNone

/-- RELAUNCH (R127, R128): the head of the cue queue, when it is in the cue store and its troupe holds or can
take a slot. A troupe frame is read back from the wings area with it (R124, R126). -/
def execRelaunch (core : Nat) (s : State) : Host.Outcome State Fault Refusal :=
  let k := s.core core
  match k.queueHead with
  | none => .next s
  | some r =>
    match k.troupe r.blk r.troupe with
    | none => .next s
    | some t =>
      if r.spilled || !s.relaunches core then .next s
      else
        match t.slot <|> k.freeSlot t.regs.length with
        | some slot =>
          .next (if t.framed && t.frameSpilled && !s.wingsHold core t.frameAt frameSize t.frameWritten then s.wingsFail core r.blk
          else s.relaunchAll core slot t r (k.cue.filter fun x => r.mergesWith x))
        | none => .next s

end Sys2Proof.Machine
end

