-- ==== Sys2Proof/Machine/Matrix.lean ====
section
/-!
DEFINITION. The matrix array: accumulator cells and their owner (R323), tiles (R325 to R327), the
commands and their arithmetic (R209, R210, R328 to R332), the array's own steps (R334 to R336), and the
ten majors (R330 to R343).
-/
namespace Sys2Proof.Machine

/-! ### Tiles (R325 to R327) -/

/-- Field `f` of descriptor `n` as a number. -/
def Troupe.tileNat (t : Troupe) (n f : Nat) : Nat := (t.tileField n f).toNat

/-- A descriptor's fields. -/
def Troupe.tile (t : Troupe) (n : Nat) : Tile :=
  { base := t.tileNat n 0, rows := t.tileNat n 1, rowbytes := t.tileNat n 2, stride := t.tileNat n 3
    fmt := t.tileNat n 4 % 16, swz := (t.tileField n 4).getLsbD 4, scale := t.tileNat n 5
    meta_ := t.tileNat n 6, nkeep := t.tileNat n 7 }

/-- Reserved bits of field fmt are set. -/
def Troupe.tileReserved (t : Troupe) (n : Nat) : Bool := t.tileNat n 4 / 32 != 0

/-- log2 of the element width in bits. -/
def Tile.elem (t : Tile) : Nat := (fmtElem t.fmt).getD 3

/-- K: elements of a row, the kept ones of a sparse A. -/
def Tile.k (t : Tile) : Nat := t.rowbytes * 8 / 2 ^ t.elem

/-- The role in which an instruction takes a tile. -/
inductive TileRole where
  | a | b | sparse | cells
  deriving DecidableEq, Repr

/-- Row bytes of the B operand that goes with a sparse A (R329). -/
def Tile.bRow (t : Tile) : Nat := t.rowbytes * 128 / t.nkeep

/-- A sparse A's own limits (R329). -/
def Tile.sparseBad (t : Tile) : Bool :=
  (t.nkeep != 32 && t.nkeep != 64) || t.rowbytes % (if t.fmt = 5 then 16 else 32) != 0 ||
    t.rowbytes * 128 % t.nkeep != 0 || t.bRow < 64 || 512 < t.bRow || t.bRow % 64 != 0 || t.k % t.nkeep != 0

/-- Step 2 of R327 for one tile. -/
def Tile.bad (t : Tile) (r : TileRole) : Bool :=
  t.fmt = 0 || 5 < t.fmt || t.rows = 0 || (if r = .b then 16 else 32) < t.rows || (1 < t.rows && t.stride < t.rowbytes) ||
    (!isBx t.fmt && t.scale != 0) || (t.swz && t.rowbytes % 128 != 0) || (r != .cells && t.fmt = 1) ||
    (if r = .sparse then t.sparseBad
     else t.meta_ != 0 || t.nkeep != 0 || t.rowbytes < 64 || 512 < t.rowbytes || t.rowbytes % 64 != 0)

/-- The region set of a tile in window offsets (R326). -/
def Tile.spans (t : Tile) (sparse : Bool) : List Span :=
  (List.range t.rows).map (fun r => { lo := t.base + r * t.stride, hi := t.base + r * t.stride + t.rowbytes }) ++
    (if isBx t.fmt then [{ lo := t.scale, hi := t.scale + 2 * t.rows * (t.k / 32) }] else []) ++
    (if sparse then [{ lo := t.meta_, hi := t.meta_ + t.rows * t.k }] else [])

/-- The first check of R327 that a tile fails; `shape` for a failure of the instruction's own rule. -/
def Tile.fails (t : Tile) (r : TileRole) (reserved shape : Bool) (window : Nat) : Option Nat :=
  if t.base % 64 != 0 || t.stride % 64 != 0 || t.scale % 64 != 0 || t.meta_ % 64 != 0 then some codeAlign
  else if reserved || t.bad r || shape then some codeIllegal
  else if (t.spans (r == .sparse)).any fun x => window < x.hi then some codeLocalRange
  else none

/-- The region set that a descriptor covers for the context save (R338). -/
def Troupe.savedSpans (t : Troupe) (window n : Nat) : List Span :=
  let x := t.tile n
  let sparse := x.nkeep == 32 || x.nkeep == 64
  match x.fails (if sparse then .sparse else .cells) (t.tileReserved n) false window with
  | some _ => []
  | none => x.spans sparse

/-- Offset of byte `o` of row `r` in the window (R326). -/
def Tile.byteAt (t : Tile) (r o : Nat) : Nat := t.base + r * t.stride + (if t.swz then o ^^^ (r % 8 * 16) else o)

/-- Window offset of the exponent pair of block `c` of row `r`. -/
def Tile.pairAt (t : Tile) (r c : Nat) : Nat := t.scale + 2 * (r * (t.k / 32) + c)

/-- The raw elements of a row. -/
def Tile.rawRow (t : Tile) (m : Memory) (w r : Nat) : List Nat :=
  let bs := (List.range t.rowbytes).map fun o => m.read (w + t.byteAt r o)
  if t.elem < 3 then bs.flatMap fun b => [b.toNat % 16, b.toNat / 16]
  else (chunks (2 ^ (t.elem - 3)) bs).map bytesToNat

/-- The values of a row (R207). -/
def Tile.row (t : Tile) (m : Memory) (w r : Nat) : List Num :=
  (t.rawRow m w r).mapIdx fun i x =>
    match t.fmt with
    | 1 => f32.value x
    | 2 => f16.value x
    | 3 => bf16.value x
    | _ =>
      let a := w + t.pairAt r (i / 32)
      bxValue (t.fmt == 5) (m.read a).toNat (m.read (a + 1)).toNat x

/-! ### Arithmetic (R209, R210, R330) -/

/-- The exact total of a unit. -/
def unitTotal (ps : List (Num × Num)) : Num :=
  let qs := ps.map fun x => if x.1.isNan || x.2.isNan then Num.nan false else (x.1.times x.2).getD (Num.nan false)
  if qs.any Num.isNan then Num.nan false
  else
    let infs := qs.filter Num.isInf
    if infs.any Num.sign && infs.any fun x => !x.sign then Num.nan false
    else
      match infs with
      | x :: _ => x
      | [] => (Dyad.sum (qs.map Num.dyad)).num false

/-- Units added to a cell, each with one RNE rounding that saturates; the flags that they raise. -/
def addUnits (v : Nat) (us : List Num) : Nat × Flags :=
  us.foldl (fun a u =>
    let r := f32.addNum 1 true (f32.value a.1) u
    (r.bits, a.2 ||| r.flags)) (v, 0)

/-- The pairs of a dense unit that begins at element `e`. -/
def denseUnit (a b : List Num) (n e : Nat) : List (Num × Num) := ((a.drop e).take n).zip ((b.drop e).take n)

/-- Bits of the status word (R341). -/
def statSat : BitVec 4 := 1
def statNan : BitVec 4 := 2
def statMeta : BitVec 4 := 4
def statPert : BitVec 4 := 8

/-- A status bit when a condition holds. -/
def statIf (c : Bool) (b : BitVec 4) : BitVec 4 := if c then b else 0

/-- The metadata bytes of the `n` kept elements of a row from element `e` on (R329). -/
def Tile.metas (t : Tile) (m : Memory) (w r e n : Nat) : List Byte :=
  (List.range n).map fun j => m.read (w + t.meta_ + r * t.k + e + j)

/-- The pairs of a sparse unit (R330): kept elements with the B elements that their metadata name. -/
def Tile.sparseUnit (t : Tile) (m : Memory) (w r : Nat) (a b : List Num) (n e : Nat) : List (Num × Num) :=
  let nan := isBx t.fmt && (a.getD e (Num.fin false 0 0)).isNan
  (if nan then [(Num.nan false, Num.fin false 0 0)] else []) ++
    ((t.metas m w r e n).mapIdx fun j x => (j, x)).filterMap fun y =>
      if y.2.getLsbD 7 then none
      else some (a.getD (e + y.1) (Num.fin false 0 0),
        b.getD (128 * ((e + y.1) / t.nkeep) + y.2.toNat) (Num.fin false 0 0))

/-- Row of the pair view that output row `i` of an MMA goes to (R328). -/
def mmaRow (rb i : Nat) : Nat := if i < 16 then 16 * rb + i else 128 + 16 * rb + (i - 16)

/-- Results of a command: cells, local bytes (core-local addresses), status, and whether it saturated. -/
structure MatResult where
  cells : List (Nat × Word)
  bytes : List Host.Cell
  status : BitVec 4
  deriving DecidableEq, Repr

/-- One output element of MMA or MMAS: the perturbation of R339 applied where it names it. -/
def mmaElement (v : Nat) (us : List Num) (pert : Option Word) : Nat × BitVec 4 :=
  let r := addUnits v us
  let z := match pert with
    | some q =>
      let x := f32.addNum 1 true (f32.value r.1) (f32.value q.toNat)
      (x.bits, r.2 ||| x.flags, statPert)
    | none => (r.1, r.2, 0)
  (z.1, statIf (z.2.1 &&& flagSAT != 0) statSat ||| statIf (f32.value z.1).isNan statNan ||| z.2.2)

/-- MMA and MMAS (R330). -/
def mmaResult (m : Memory) (w : Nat) (cell : Nat → Word) (sparse acc : Bool) (a b : Tile) (rb cb : Nat)
    (pert : Option (Nat × Nat × Word)) : MatResult :=
  let unit := if isBx a.fmt then 32 else 16
  let starts := (List.range (a.k / unit)).map fun u => u * unit
  let bs := (List.range b.rows).map fun j => b.row m w j
  let outs := (List.range a.rows).flatMap fun i =>
    let ar := a.row m w i
    bs.mapIdx fun j br =>
      let key := cellKey (mmaRow rb i) (16 * cb + j)
      let us := starts.map fun e =>
        unitTotal (if sparse then a.sparseUnit m w i ar br unit e else denseUnit ar br unit e)
      let q := match pert with
        | some (pm, pn, x) => if pm = i && pn = j then some x else none
        | none => none
      (key, mmaElement (if acc then (cell key).toNat else 0) us q)
  let metaErr := sparse && (List.range a.rows).any fun i => (a.metas m w i 0 a.k).any fun x => x.getLsbD 7
  { cells := outs.map fun o => (o.1, BitVec.ofNat 32 o.2.1), bytes := []
    status := outs.foldl (fun s o => s ||| o.2.2) (statIf metaErr statMeta) }

/-- ACCLD (R332): exact conversion of each element. -/
def loadResult (m : Memory) (w : Nat) (t : Tile) (row0 col0 : Nat) : MatResult :=
  let cells := (List.range t.rows).flatMap fun r =>
    let raw := t.rawRow m w r
    (t.row m w r).mapIdx fun i x =>
      (cellKey (row0 + r) (col0 + i),
        BitVec.ofNat 32 (if t.fmt = 1 then raw.getD i 0 else (f32.convert 1 x).bits))
  { cells := cells, bytes := [], status := statIf (cells.any fun c => (f32.value c.2.toNat).isNan) statNan }

/-- A row of cells as the bytes of a tile row, its exponent pairs, and the flags raised (R204, R208). -/
def storeRow (t : Tile) (rnd k : Nat) (xs : List Nat) : List Byte × List Byte × Flags :=
  match t.fmt with
  | 1 => (xs.flatMap (natToBytes 4), [], 0)
  | 2 | 3 =>
    let rs := xs.map fun x => (if t.fmt = 2 then f16 else bf16).convert rnd (f32.value x)
    (rs.flatMap fun r => natToBytes 2 r.bits, [], orFlags (rs.map (·.flags)))
  | _ =>
    let gs := (chunks 32 xs).map fun g => bxConvert (t.fmt == 5) k (g.map fun x => some (f32.value x))
    (gs.flatMap fun g => if t.fmt = 5 then packNibbles g.elems else g.elems.map fun x => BitVec.ofNat 8 x,
      gs.flatMap fun g => [BitVec.ofNat 8 g.e0, BitVec.ofNat 8 g.e1], orFlags (gs.map (·.flags)))

/-- ACCST (R332). -/
def storeResult (w : Nat) (cell : Nat → Word) (t : Tile) (row0 col0 rnd k : Nat) : MatResult :=
  let rows := (List.range t.rows).map fun r =>
    (r, storeRow t rnd k ((List.range t.k).map fun i => (cell (cellKey (row0 + r) (col0 + i))).toNat))
  { cells := []
    bytes := rows.flatMap fun x =>
      (x.2.1.mapIdx fun o v => (w + t.byteAt x.1 o, v)) ++ x.2.2.1.mapIdx fun o v => (w + t.pairAt x.1 0 + o, v)
    status := statIf (rows.any fun x => x.2.2.2 &&& flagSAT != 0) statSat }

/-- MZERO (R331). -/
def zeroResult (row0 rows col0 cols : Nat) : MatResult :=
  { cells := (List.range rows).flatMap fun r => (List.range cols).map fun c => (cellKey (row0 + r) (col0 + c), 0)
    bytes := [], status := 0 }

/-- What a command computes. -/
def MatCmd.result (x : MatCmd) (m : Memory) (cell : Nat → Word) : MatResult :=
  match x.op with
  | .mma sparse acc a b rb cb => mmaResult m x.window cell sparse acc a b rb cb x.pert
  | .zero row0 rows col0 cols => zeroResult row0 rows col0 cols
  | .load t row0 col0 => loadResult m x.window t row0 col0
  | .store t row0 col0 rnd k => storeResult x.window cell t row0 col0 rnd k

/-- A command that engages the follower (R335). -/
def MatOp.follower : MatOp → Bool
  | .mma _ _ a _ _ _ => 16 < a.rows
  | .zero row0 rows _ _ => 128 < row0 + rows
  | .load t row0 _ => 128 < row0 + t.rows
  | .store t row0 _ _ _ => 128 < row0 + t.rows

/-- ACCST. -/
def MatOp.isStore : MatOp → Bool
  | .store _ _ _ _ _ => true
  | _ => false

/-- The entry of a command frees at its last read, rather than at its retirement (R335). -/
def MatOp.freesAtRead : MatOp → Bool
  | .mma _ _ _ _ _ _ => true
  | .load _ _ _ => true
  | _ => false

/-! ### The array's own steps -/

/-- A cell as the next command finds it: forwarded from the newest command that has computed it, else the stored cell
(R335). -/
def Pair.forward (q : Pair) (key : Nat) : Word :=
  match ((q.queue.filter (·.started)).reverse.findSome? fun x => x.cells.lookup key) with
  | some v => v
  | none => q.cells.read key

/-- Change the queued commands that satisfy a test. -/
def Pair.modCmd (q : Pair) (id : Nat) (f : MatCmd → MatCmd) : Pair :=
  { q with queue := q.queue.map fun x => if x.id == id then f x else x }

/-- The scoreboard entry of a command is freed. -/
def Core.freeMatrix (k : Core) (id : Nat) : Core := { k with board := k.board.filter fun e => e.owner != .matrix id }

/-- The first command that has not started may start (R335). -/
def State.matrixReady (s : State) (n : Nat) (x : MatCmd) : Bool :=
  let q := s.pair n
  let before := q.queue.takeWhile fun y => y.id != x.id
  before.all (·.lastRead) && !(s.core x.core).boardHeld (.matrix x.id) && (!x.op.isStore || before.isEmpty) &&
    (!x.op.follower || (s.core (2 * n + 1)).service == .inService)

/-- The first command of another owner scrubs the cells as it starts: what earlier commands have yet to write goes with
them (R323). -/
def Pair.scrubFor (q : Pair) (x : MatCmd) : Pair :=
  if x.scrub then
    { q with cells := [], queue := q.queue.map fun (y : MatCmd) => if y.id == x.id then y else { y with cells := [] } }
  else q

/-- MATRIX_START (R323, R335). -/
def execMatrixStart (pair : Nat) (s : State) : Host.Outcome State Fault Refusal :=
  match (s.pair pair).queue.find? fun x => !x.started with
  | none => .next s
  | some x =>
    .next (if s.matrixReady pair x then
      s.modPair pair fun q => (q.scrubFor x).modCmd x.id fun x => { x with started := true }
    else s)

/-- Bytes of an element of a format; two elements of BX4 share one. -/
def elementBytes (fmt : Nat) : Nat := if fmt = 1 then 4 else if fmt = 2 || fmt = 3 then 2 else 1

/-- The format in which a command reads its tiles. -/
def MatOp.readFmt : MatOp → Nat
  | .mma _ _ a _ _ _ => a.fmt
  | .load t _ _ => t.fmt
  | .zero _ _ _ _ => 1
  | .store _ _ _ _ _ => 1

/-- The byte at an address before the stores of a list, oldest first. -/
def unstored (stores : List (List Host.Cell)) (now : Byte) (a : Nat) : Byte :=
  match stores.flatten.find? fun c => c.1 == a with
  | some c => c.2
  | none => now

/-- The byte at an address after so many of the stores that overwrote its element, as draw `i` decides (R17). -/
def MatCmd.racedByte (x : MatCmd) (m : Memory) (n i a : Nat) : Byte :=
  let size := elementBytes x.op.readFmt
  let mine := x.raced.filter fun cs => cs.any fun c => c.1 / size == a / size
  unstored (mine.drop (freeDraw 2 n i % (mine.length + 1))) (m.read a) a

/-- Local memory as a command reads it: each element that a thread has stored to since the command was admitted is
seen before or after the store (R17); the two elements in a byte of BX4 are each seen so. -/
def MatCmd.view (x : MatCmd) (m : Memory) (n : Nat) : Memory :=
  let addrs := ((x.raced.flatten).map (·.1)).eraseDups
  m.writeCells (addrs.map fun a =>
    if x.op.readFmt = 5 then
      (a, BitVec.ofNat 8 ((x.racedByte m n (2 * a) a).toNat % 16 + (x.racedByte m n (2 * a + 1) a).toNat / 16 * 16))
    else (a, x.racedByte m n (a / elementBytes x.op.readFmt) a))

/-- What a command leaves once it has read all its operands (R17, R323, R333). -/
def MatCmd.compute (x : MatCmd) (r : MatResult) : MatCmd :=
  { x with
    lastRead := true, bytes := r.bytes, status := r.status
    cells := if x.muted then [] else r.cells.filter fun c => !x.dropped.contains c.1 }

/-- MATRIX_LAST_READ (R334, R335): the command has computed with the bytes and cells that it found (entry 14); status
bits, the REL arrival, and the entry of a command that only reads local memory. -/
def execMatrixLastRead (pair : Nat) (s : State) : Host.Outcome State Fault Refusal :=
  match (s.pair pair).queue.find? fun x => x.started && !x.lastRead with
  | none => .next s
  | some x =>
    let r := x.result (x.view (s.core x.core).mem s.nextId) (s.pair pair).forward
    let s := { s with nextId := s.nextId + 1 }.modPair pair fun q =>
      { (q.modCmd x.id fun x => x.compute r) with status := q.status ||| r.status }
    let s := match x.rel with
      | some (j, i) => if x.orphan then s else s.releaseSlot x.core x.blk j i
      | none => s
    .next (if x.op.freesAtRead then s.modCore x.core fun k => k.freeMatrix x.id else s)

/-- The arrival of a retiring command on its barrier object, with SAT of an ACCST that saturated (R332,
R334). -/
def State.matrixArrive (s : State) (x : MatCmd) (b : Nat) : State :=
  s.putBarrier x.core x.blk (16 * b) fun o =>
    (if x.op.isStore && x.status &&& statSat != 0 && o.bit bitArmed then o.set bitSat else o).update (.arrive 1)

/-- MATRIX_RETIRE (R334, R336, R349): cells and local bytes are written, then the arrival is made. -/
def execMatrixRetire (pair : Nat) (s : State) : Host.Outcome State Fault Refusal :=
  match (s.pair pair).queue with
  | [] => .next s
  | x :: rest =>
    if !x.lastRead then .next s
    else
      let s := s.modPair pair fun q =>
        { q with queue := rest, cells := x.cells.foldl (fun m c => m.write c.1 c.2) q.cells }
      let s := s.modCore x.core fun k =>
        { k with mem := if x.orphan then k.mem else k.mem.writeCells x.bytes }
      let s := match x.arr with
        | some b => if x.orphan then s else s.matrixArrive x b
        | none => s
      .next (s.modCore x.core fun k => k.freeMatrix x.id)

/-! ### Issue (R323, R324, R343) -/

/-- PAIRROLE (R324): a follower core, or a leader whose follower is retired. -/
def State.checkRole (s : State) (p : Path) : Exe Unit :=
  if p.core % 2 = 1 || (s.core (p.core + 1)).retired then pathFault p codePairRole 0 else .ok ()

/-- The pair's cells are those of an owner, and no command still has to scrub them. -/
def Pair.owned (q : Pair) (own : Nat × Nat) : Bool := q.owner == some own && q.queue.all fun x => !x.scrub

/-- ACCRD or ACCWR claims the cells of a pair for an owner: another owner's are scrubbed first, at once. DESIGN CHOICE
(entry 14): what admitted commands of other owners have yet to write is lost to that scrub, so that no owner sees
another's cells. -/
def Pair.claim (q : Pair) (own : Nat × Nat) : Pair :=
  if q.owned own then q
  else
    { q with
      cells := [], owner := some own
      queue := q.queue.map fun (x : MatCmd) =>
        if x.own == own then { x with scrub := false } else { x with scrub := false, muted := true, cells := [] } }

/-- The owner of a path's launch claims the pair's cells (R323). -/
def State.claimCells (s : State) (p : Path) : State := s.modPair (p.core / 2) fun q => q.claim (s.ownerOf p.core p.blk)

/-- A tile that an instruction names, checked in a role. -/
def State.takeTile (s : State) (p : Path) (n : Nat) (r : TileRole) (shape : Tile → Bool) : Exe Tile := do
  let t := s.troupe p
  let x := t.tile n
  match x.fails r (t.tileReserved n) (shape x) (s.block p).size with
  | some code => pathFault p code 0
  | none => .ok ()
  .ok x

/-- The barrier of ARR (R343, step 5). -/
def State.takeArr (s : State) (p : Path) (f : XForm) (on : Bool) : Exe (Option Nat) := do
  if on then
    let _ ← s.barrierOff p (f.immB.toNat % 64)
    .ok (some (f.immB.toNat % 64))
  else .ok none

/-- The ring slot of REL (R343, step 5). -/
def State.takeRel (s : State) (p : Path) (f : XForm) (on : Bool) : Exe (Option (Nat × Nat)) := do
  if on then
    let b := s.block p
    let j := f.immB.toNat / 256 % 8
    let i := f.immB.toNat / 4096 % 16
    if b.rings ≤ j || (b.ring (s.core p.core).mem j).nslot ≤ i then pathFault p codeIllegal 0
    .ok (some (j, i))
  else .ok none

/-- A command is admitted (R12, R335); the first of another owner is to scrub the pair's cells, whose owner it is from
now on (R323). -/
def State.enterBoard (s : State) (p : Path) (op : MatOp) (arr : Option Nat) (rel : Option (Nat × Nat))
    (reads writes : List Span) : State :=
  let own := s.ownerOf p.core p.blk
  let w := (s.block p).base
  let q := s.pair (p.core / 2)
  let takes := match op with
    | .mma _ _ _ _ _ _ => true
    | _ => false
  let x : MatCmd :=
    { id := q.nextId, core := p.core, blk := p.blk, troupe := p.at_.troupe, fresh := p.at_.lanes, op := op, window := w
      arr := arr, rel := rel, pert := if takes then q.pert else none, started := false, lastRead := false
      cells := [], bytes := [], status := 0, orphan := false, own := own, scrub := q.owner != some own, muted := false
      raced := [], dropped := [] }
  let shift (r : Span) : Span := { lo := w + r.lo, hi := w + r.hi }
  let e : SbEntry :=
    { owner := .matrix q.nextId, slot := (s.troupe p).slot, reads := reads.map shift, writes := writes.map shift }
  (s.modPair (p.core / 2) fun q =>
    { q with queue := q.queue ++ [x], nextId := q.nextId + 1, pert := if takes then none else q.pert, owner := some own }).modCore p.core
    fun k => { k with board := k.board ++ [e] }

/-- MMA and MMAS (R328 to R330, R343). -/
def mmaIssue (i : Instr) (h : Head) (f : XForm) (sparse : Bool) (s : State) : Host.Outcome State Fault Refusal :=
  runThread i h 16 (fun p s => do
    s.checkRole p
    if 1 < p.active.count then
      let _ ← activeFault p codeElect p.active.count
    let a ← s.takeTile p (f.imm.toNat % 16) (if sparse then .sparse else .a) fun _ => false
    let b ← s.takeTile p (f.imm.toNat / 16 % 16) .b fun b =>
      b.fmt != a.fmt || (if sparse then b.rowbytes != a.bRow || b.k % 128 != 0 else b.rowbytes != a.rowbytes)
    let arr ← s.takeArr p f (f.sub.getLsbD 2)
    let rel ← s.takeRel p f (f.sub.getLsbD 1)
    .ok (s.enterBoard p (.mma sparse (f.sub.getLsbD 0) a b (f.imm.toNat / 256 % 8) (f.imm.toNat / 4096 % 8)) arr rel
      (a.spans sparse ++ b.spans false) [])) s

/-- MMA (R330). -/
def execMma (h : Head) (f : XForm) (s : State) : Host.Outcome State Fault Refusal := mmaIssue (.mma h f) h f false s
/-- MMAS (R330). -/
def execMmas (h : Head) (f : XForm) (s : State) : Host.Outcome State Fault Refusal := mmaIssue (.mmas h f) h f true s

/-- MZERO (R331). -/
def execMzero (h : Head) (f : XForm) (s : State) : Host.Outcome State Fault Refusal :=
  runThread (.mzero h f) h 16 (fun p s => do
    s.checkRole p
    let n := f.imm.toNat
    let row0 := bitsOf n 7 0
    let rows := bitsOf n 15 8 + 1
    let col0 := bitsOf n 22 16
    let cols := bitsOf n 30 24 + 1
    if 256 < row0 + rows || 128 < col0 + cols then pathFault p codeIllegal 0
    .ok (s.enterBoard p (.zero row0 rows col0 cols) none none [] [])) s

/-- The range check of ACCLD and ACCST (R332). -/
def cellsRange (p : Path) (t : Tile) (row0 col0 : Nat) : Exe Unit :=
  if 256 < row0 + t.rows || 128 < col0 + t.k then pathFault p codeIllegal 0 else .ok ()

/-- ACCLD (R332). -/
def execAccld (h : Head) (f : XForm) (s : State) : Host.Outcome State Fault Refusal :=
  runThread (.accld h f) h 16 (fun p s => do
    s.checkRole p
    let t ← s.takeTile p (f.imm.toNat % 16) .cells fun _ => false
    let arr ← s.takeArr p f (f.sub.getLsbD 5)
    let row0 := bitsOf f.imm.toNat 15 8
    let col0 := bitsOf f.imm.toNat 22 16
    cellsRange p t row0 col0
    .ok (s.enterBoard p (.load t row0 col0) arr none (t.spans false) [])) s

/-- ACCST (R332): RND 0 takes the troupe's %fmode at issue. -/
def execAccst (h : Head) (f : XForm) (s : State) : Host.Outcome State Fault Refusal :=
  runThread (.accst h f) h 16 (fun p s => do
    s.checkRole p
    let t ← s.takeTile p (f.imm.toNat % 16) .cells fun _ => false
    let arr ← s.takeArr p f (f.sub.getLsbD 5)
    let row0 := bitsOf f.imm.toNat 15 8
    let col0 := bitsOf f.imm.toNat 22 16
    cellsRange p t row0 col0
    let rnd := if f.sub.toNat % 8 = 0 then (s.troupe p).fmode.toNat else f.sub.toNat % 8
    .ok (s.enterBoard p (.store t row0 col0 rnd (2 * (f.sub.toNat / 8 % 4) + 2)) arr none [] (t.spans false))) s

/-- The cell that lane `l` of ACCRD and ACCWR names (R333). -/
def XForm.cellOf (f : XForm) (l : Nat) : Nat := cellKey (f.imm.toNat % 256) (64 * (f.imm.toNat / 256 % 2) + l)

/-- Whether a lane of ACCRD or ACCWR meets a command's write after it: free (R333, entry 6). -/
def State.cellRace (s : State) (l : Nat) : Bool := (Config.freeValue (64 * s.nextId + l)).getLsbD 0

/-- ACCRD (R333): a cell that a command has computed and not yet written reads as old or new. -/
def execAccrd (h : Head) (f : XForm) (s : State) : Host.Outcome State Fault Refusal :=
  runThread (.accrd h f) h 16 (fun p s => do
    s.checkDst p f.d.toNat
    s.checkRole p
    let s := s.claimCells p
    let q := s.pair (p.core / 2)
    let v (l : Nat) : Word := if s.cellRace l then q.forward (XForm.cellOf f l) else q.cells.read (XForm.cellOf f l)
    { s with nextId := s.nextId + 1 }.finish p [] f.d.toNat .f32 v noFlags) s

/-- A lane of ACCWR: its cell is written, and where it lands after the write of an admitted command, that command
no longer writes it. -/
def Pair.writeCell (q : Pair) (key : Nat) (after : Bool) (v : Word) : Pair :=
  { q with
    cells := q.cells.write key v
    queue := if after then
        q.queue.map fun (x : MatCmd) => { x with cells := x.cells.filter fun c => c.1 != key, dropped := key :: x.dropped }
      else q.queue }

/-- ACCWR (R333; entry 8 for LA). -/
def execAccwr (h : Head) (f : XForm) (s : State) : Host.Outcome State Fault Refusal :=
  runThread (.accwr h f) h 16 (fun p s => do
    let t := s.troupe p
    t.checkSource p 0 [(f.a.toNat, fun g => g == .f32)]
    s.checkRole p
    let s := s.claimCells p
    .ok ({ s with nextId := s.nextId + 1 }.modPair (p.core / 2) fun q => p.active.lanes.foldl
      (fun q l => q.writeCell (XForm.cellOf f l) (s.cellRace l) ((t.reg f.a.toNat).at l)) q)) s

/-- MLIVE (R337). -/
def execMlive (h : Head) (f : XForm) (s : State) : Host.Outcome State Fault Refusal :=
  runThread (.mlive h f) h 16 (fun p s => .ok (s.mod p fun t =>
    { t with live := f.imm.setWidth 16, liveSet := true })) s

/-- MPERT (R339). -/
def execMpert (h : Head) (f : XForm) (s : State) : Host.Outcome State Fault Refusal :=
  runThread (.mpert h f) h 16 (fun p s => do
    s.checkRole p
    if !(s.core p.core).inject then pathFault p codeIllegal 0
    .ok (s.modPair (p.core / 2) fun q =>
      { q with pert := some (bitsOf f.immB.toNat 4 0, bitsOf f.immB.toNat 11 8, f.imm) })) s

/-- The matrix status word (R341). -/
def Pair.statusWord (q : Pair) : Word := BitVec.ofNat 32 (2 ^ 24 * min q.queue.length 255 + q.status.toNat)

/-- MSTAT (R340). -/
def execMstat (h : Head) (f : XForm) (s : State) : Host.Outcome State Fault Refusal :=
  runThread (.mstat h f) h 16 (fun p s => do
    let w := (s.pair (p.core / 2)).statusWord
    let s ← s.finish p [] f.d.toNat .n32 (fun _ => w) noFlags
    .ok (if f.sub.getLsbD 0 then s.modPair (p.core / 2) fun q => { q with status := 0 } else s)) s

end Sys2Proof.Machine
end

