-- ==== Sys2Proof/Machine/Stream.lean ====
section
/-!
DEFINITION. The stream majors (R261 to R277), the completion of element fetches (R263, R264) and
held pushes that waited for a translation (R269).
-/
namespace Sys2Proof.Machine

/-! ### Waiting records (R266) -/

/-- Every port that a record names holds an element, a recorded fault or the end of its stream for
every active lane; a port that is no longer bound is met by the instruction itself. -/
def Core.portsFilled (k : Core) (waits : List (Nat × Nat)) (active : Mask) : Bool :=
  waits.all fun w => !(k.ctx w.1).bound || active.lanes.all fun l => (k.ctx w.1).popAt l (w.2 - 1) != .empty

/-- Records whose ports are filled become ready. -/
def Core.wakePorts (k : Core) : Core :=
  k.markReadyWhere fun r => match r.key with
    | .ports ws m => k.portsFilled ws m
    | _ => false

/-! ### Pattern descriptors (R262, R263) -/

/-- The pattern that 64 bytes of local memory describe. -/
def Pattern.read (m : Memory) (a : Nat) : Pattern :=
  let w (o : Nat) : Word := BitVec.ofNat 32 (m.readNat (a + o) 4)
  let flags := m.readNat (a + 13) 1
  { base := BitVec.ofNat 64 (m.readNat a 8), lstride := w 8, fmt := m.readNat (a + 12) 1
    priv := bitsOf flags 2 2 == 1, isLocal := bitsOf flags 1 1 == 1, ndim := m.readNat (a + 14) 1
    ext := (List.range 4).map fun i => w (16 + 4 * i), str := (List.range 4).map fun i => w (32 + 4 * i)
    length := w 48 }

/-- A reserved field of the 64 bytes is nonzero (R262). -/
def patternReserved (m : Memory) (a : Nat) : Bool :=
  let flags := m.readNat (a + 13) 1
  bitsOf flags 7 3 != 0 || bitsOf flags 0 0 != 0 || m.readNat (a + 15) 1 != 0 || m.readNat (a + 52) 12 != 0

/-- The pattern fails step 2 of R273. -/
def Pattern.bad (p : Pattern) (kbase : DWord) : Bool :=
  let size := kindSize p.fmt
  p.ndim = 0 || 4 < p.ndim || 12 < p.fmt || (p.priv && p.isLocal) ||
    ((p.ext.take p.ndim).map (·.toNat)).foldl (· * ·) 1 < p.length.toNat ||
    (p.base + kbase).toNat % size != 0 || p.lstride.toNat % size != 0 ||
    ((p.str.take p.ndim).any fun x => x.toNat % size != 0)

/-- The least and greatest sum of strides over positions 0 to `n` − 1, dimensions outermost first. -/
def strideBounds : List (Nat × Int) → Nat → Int × Int
  | [], _ => (0, 0)
  | (_, st) :: inner, n =>
    let below := (inner.map (·.1)).foldl (· * ·) 1
    let last := (n - 1) / below
    let full := strideBounds inner below
    let part := strideBounds inner (n - last * below)
    let edge (i : Nat) (b : Int × Int) : Int × Int := (b.1 + i * st, b.2 + i * st)
    let ends := if last = 0 then [edge 0 part] else [edge 0 full, edge (last - 1) full, edge last part]
    (ends.foldl (fun a b => min a b.1) (edge last part).1, ends.foldl (fun a b => max a b.2) (edge last part).2)

/-- The local bytes that cover every element of every lane of a local stream (R270), as an address
range of the core's local memory. -/
def Pattern.region (p : Pattern) (kbase : DWord) (window size : Nat) : List Span :=
  if p.length = 0 then []
  else
    let dims := (((p.ext.zip p.str).take p.ndim).map fun x => (x.1.toNat, x.2.toInt)).reverse
    let b := strideBounds dims p.length.toNat
    let lanes := p.lstride.toInt * 63
    let at_ : Int := (p.base + kbase).toNat
    let lo := max 0 (at_ + b.1 + min 0 lanes)
    let hi := min (size : Int) (at_ + b.2 + max 0 lanes + kindSize p.fmt)
    if lo < hi then [{ lo := window + lo.toNat, hi := window + hi.toNat }] else []

/-! ### SCFG (R270, R273) -/

/-- A context freed for its block (R273, R275). -/
def Core.unbind (k : Core) (n : Nat) : Core :=
  (k.modCtx n fun x => { Ctx.reset with owner := x.owner }).sweepStreams

/-- A context bound to a port with every lane at position 0 (R273), and the entry that a local stream
admits (R270). -/
def Core.bindCtx (k : Core) (n blk troupe port : Nat) (slot : Option Nat) (write : Bool) (kbase : DWord)
    (pat : Pattern) (region : List Span) : Core :=
  let x : Ctx :=
    { owner := (k.ctx n).owner, bound := true, write := write, port := port, troupe := troupe, kbase := kbase
      pat := pat, lanes := List.replicate 64 CtxLane.reset, closing := false }
  let k := { k with ctxs := k.ctxs.set n x }
  if pat.isLocal && blk < Config.blockSlots then
    { k with
      board := k.board ++ [{ owner := .stream n, slot := slot, reads := if write then [] else region
                             writes := if write then region else [] }] }
  else k

/-- The port that an instruction of this family names. -/
def portNumber (v : BitVec 11) : Nat := v.toNat - 2040

/-- SCFG (R273), once for the path. -/
def execScfg (h : Head) (f : XForm) (s : State) : Host.Outcome State Fault Refusal :=
  runThread (.scfg h f) h 16 (fun p s => do
    let b := s.block p
    let k := s.core p.core
    let q := portNumber f.d
    let off := s.kAt p f.ka.toNat + f.imm.signExtend 64
    let stop (code : Nat) : Exe Unit := .error (.fault code p.active off 0 none .none)
    if off.toNat % 64 ≠ 0 then stop codeAlign
    if b.size < off.toNat + 64 then stop codeLocalRange
    let a := b.base + off.toNat
    let pat := Pattern.read k.mem a
    let kbase := s.kAt p f.kb.toNat
    let n := f.immB.toNat
    let mine := k.ctxOf p.blk p.at_.troupe q
    match k.ownedCtx p.blk n with
    | none => .error (.fault codeStream p.active 0 0 (some q) .none)
    | some c =>
      if b.streams ≤ n || ((k.ctx c).bound && mine != some c) || patternReserved k.mem a || pat.bad kbase then
        .error (.fault codeStream p.active 0 0 (some q) .none)
      else
        .ok (s.modCore p.core fun k =>
          let k := match mine with
            | some old => k.unbind old
            | none => k
          (k.bindCtx c p.blk p.at_.troupe q (s.troupe p).slot (f.sub.getLsbD 0) kbase pat
            (pat.region kbase b.base b.size)).wakePorts)) s

/-! ### SDRAIN, SCLOSE, SPOS, SEOS, SSEEK (R274 to R277) -/

/-- The context of a port that an instruction names without popping or pushing. -/
def State.named (s : State) (p : Path) (q : Nat) : Exe Nat :=
  match (s.core p.core).ctxOf p.blk p.at_.troupe q with
  | some n => .ok n
  | none => streamFault p q

/-- SDRAIN (R274): a push that still waits keeps the lane's later releases waiting (entry 77), so the release holds
nothing back itself. -/
def execSdrain (h : Head) (f : RForm) (s : State) : Host.Outcome State Fault Refusal :=
  runThread (.sdrain h f) h 8 (fun p s => do
    let _ ← s.boundCtx p (portNumber f.a) true
    .ok s) s

/-- SCLOSE (R275). -/
def execSclose (h : Head) (f : RForm) (s : State) : Host.Outcome State Fault Refusal :=
  runThread (.sclose h f) h 8 (fun p s => do
    let n ← s.named p (portNumber f.a)
    .ok (s.modCore p.core fun k => k.modCtx n fun x => x.modLanes p.active fun _ y => { y with close := true })) s

/-- SPOS (R276). -/
def execSpos (h : Head) (f : RForm) (s : State) : Host.Outcome State Fault Refusal :=
  runThread (.spos h f) h 8 (fun p s => do
    let n ← s.named p (portNumber f.a)
    let x := (s.core p.core).ctx n
    s.finish p [] f.d.toNat .n32 (fun l => if f.sub.getLsbD 0 then (x.lane l).ckpt else (x.lane l).pos) noFlags) s

/-- SEOS (R276). -/
def execSeos (h : Head) (f : RForm) (s : State) : Host.Outcome State Fault Refusal :=
  runThread (.seos h f) h 8 (fun p s => do
    let n ← s.named p (portNumber f.a)
    let x := (s.core p.core).ctx n
    .ok (s.putPred p f.d.toNat fun l => (x.lane l).eos)) s

/-- SSEEK (R277). -/
def execSseek (h : Head) (f : XForm) (s : State) : Host.Outcome State Fault Refusal :=
  runThread (.sseek h f) h 16 (fun p s => do
    let imm := f.sub.getLsbD 0
    let fields := if imm then [] else [f.a.toNat]
    let o ← if imm then .ok { tag := Tag.n32, lanes := laneNumbers.map fun _ => f.imm } else s.read1 p f.a.toNat 0 isInt32
    let n ← s.named p (portNumber f.d)
    .ok ((s.popPorts p fields).modCore p.core fun k =>
      (k.modCtx n fun x => x.modLanes p.active fun l y =>
        { y with
          pos := if f.sub.getLsbD 1 then y.pos + o.at l else o.at l
          eos := false, ahead := [] }).wakePorts)) s

/-! ### The stream engine's own steps -/

/-- Stream `n`'s scoreboard entry must wait for an older entry on a sector (R13). -/
def Core.streamWaits (k : Core) (n : Nat) (hs : List Hit) : Bool :=
  let older := k.board.takeWhile fun e => e.owner != .stream n
  (k.board.any fun e => e.owner == .stream n) &&
    hs.any fun h => older.any fun e => e.writes.any fun w => sharesSector w { lo := h.va, hi := h.va + h.size }

/-- The pieces of an element, or the fault of its address (R263, R264). -/
def State.elementPieces (s : State) (c b n l : Nat) (a : DWord) : Except Fail (List Hit) :=
  let x := (s.core c).ctx n
  match (s.core c).block b with
  | none => .ok []
  | some blk =>
    let space : Space := if x.pat.isLocal then .loc else if x.pat.priv then .priv else .global
    let size := kindSize x.pat.fmt
    match boundsFail space size blk.priv blk.size a with
    | some e => .error e
    | none => .ok (pieces space size blk.base (blk.privOf x.troupe) { lane := l, addr := a })

/-- The pages of an element are looked up, filling the core TLB: the outcome of each fill (R243, R264). -/
def State.fillElement (s : State) (c b n : Nat) (hs : List Hit) : List (Nat × Fill) × State :=
  if ((s.core c).ctx n).pat.isLocal then ([], s)
  else
    hs.foldl (fun r h =>
      let f := r.2.fill c (s.ownerOf c b) h.va oldestEntry
      (r.1 ++ [(h.va, f.1)], f.2)) ([], s)

/-- What a fetch of one element finds, given the outcomes of its fills: nothing while a lock or an
older command holds its sector (R13, R264). -/
def State.fetchElement (s : State) (c b n l : Nat) (fills : List (Nat × Fill)) (hs : List Hit) : Option Fetched :=
  let k := s.core c
  let x := k.ctx n
  let own := s.ownerOf c b
  let look (h : Hit) : Option Fill := fills.lookup h.va
  let hs := hs.map fun h => match look h with
    | some (.ok t) => { h with x := some t }
    | _ => h
  let bad := if x.pat.isLocal then none else
    (laneFail hs fun h => pageFail false h (look h)) <|>
    (laneFail hs fun h => accessFail ((s.part own.1).tdi == .run) (s.link.state == 2 || s.link.state == 3) false
      (s.inWings h (look h)) h (look h))
  match bad with
  | some e => some (.fault e.code e.addr 0)
  | none =>
    if k.streamWaits n hs || hs.any fun h =>
        !(s.lockers c x.pat.isLocal own { lo := h.va, hi := h.va + h.size }).isEmpty then none
    else
      match laneFail hs s.poisonFail with
      | some e => some (.fault codePoison e.addr (match e.key with
        | .sector sec => sec
        | _ => 0))
      | none =>
        let scope := match hs.head?.bind (·.x) with
          | some t => t.scope
          | none => 0
        some (.value (kindWiden x.pat.fmt (s.laneValue c hs l)) scope)

/-- Fetches of a block stop at the element boundary while it is saved or halted by a delivered fault, or while its core
is pre-empted (R184, R188). -/
def Core.fetchesStop (k : Core) (b : Nat) : Bool :=
  k.preempt.isSome || match k.block b with
    | some x => x.saved || x.halted
    | none => true

/-- STREAM_FETCH_COMPLETE (R264): the next element of a lane of a read port arrives. -/
def execStreamFetchComplete (core ctx lane : Nat) (s : State) : Host.Outcome State Fault Refusal :=
  let x := (s.core core).ctx ctx
  let y := x.lane lane
  let n := y.pos.toNat + y.ahead.length
  let stopped := match y.ahead.getLast? with
    | some (.fault _ _ _) => true
    | _ => false
  let put (s : State) (e : Fetched) : State := s.modCore core fun k => (k.modCtx ctx fun x =>
    x.modLanes (Mask.one lane) fun _ y => { y with ahead := y.ahead ++ [e] }).wakePorts
  match x.owner with
  | some (b, _) =>
    if (s.core core).fetchesStop b || !x.bound || x.write || 64 ≤ lane || 8 ≤ y.ahead.length ||
        x.pat.length.toNat ≤ n || stopped then .next s
    else
      match s.elementPieces core b ctx lane (x.pat.offset x.kbase lane n) with
      | .error e => .next (put s (.fault e.code e.addr 0))
      | .ok hs =>
        let r := s.fillElement core b ctx hs
        match r.2.fetchElement core b ctx lane r.1 hs with
        | some e => .next (put r.2 e)
        | none => .next r.2
  | none => .next s

/-- The first push of a lane that waits for its translation. -/
def CtxLane.waitingPush (y : CtxLane) : Option Push := y.held.find? (·.waiting)

/-- What a fault record says of an element of a lane of a context: its troupe, lane, port and position (R181). -/
def State.elementRecord (s : State) (c b ctx lane : Nat) (r : FaultRec) : FaultRec :=
  let x := (s.core c).ctx ctx
  match (s.core c).troupe b x.troupe with
  | some t =>
    { r with
      troupe := t.idx, slot := t.slot.getD 0, recCount := t.recCount, entry := (t.lane lane).rea, mask := Mask.one lane
      lane := lane, port := some x.port, ext := true
      extWords := laneNumbers.map fun l => if l = lane then (x.lane l).pos else 0 }
  | none => r

/-- PUSH_TRANSLATION_RESTORED (R269): the write performs, with those that wait behind it, or with no translation the
element is dropped and its block halts with RESFAIL. -/
def execPushTranslationRestored (core ctx lane : Nat) (ok : Bool) (s : State) : Host.Outcome State Fault Refusal :=
  let x := (s.core core).ctx ctx
  match x.owner, (x.lane lane).waitingPush with
  | some (b, _), some q =>
    if ok then
      .next ((s.fill core (s.ownerOf core b) q.addr.toNat oldestEntry).2.retryHeld core b x.troupe lane)
    else
      .next ((s.modCore core fun k => (k.settlePush ctx lane q false).finishClose ctx).blockFaultOf
        (s.elementRecord core b ctx lane) core b codePageFault 0 true 0 q.addr 0)
  | _, _ => .next s

end Sys2Proof.Machine
end

