-- ==== Sys2Proof/Machine/Issue.lean ====
section
/-!
DEFINITION. The bytes of an instruction as a core fetches them (R28 to R31, R60), what holds a group back (R14, R20, R94,
R188, R256), and which path of a core issues next (R110, R111).
-/
namespace Sys2Proof.Machine

/-- The longest instruction in bytes (R28). -/
def longest : Nat := 16

/-! ### Fetching (R28 to R31, R60) -/

/-- Bytes of a fetch block (R29, R60). -/
def fetchBlock : Nat := 32

/-- A fetch block as a core sees it now: as memory holds it, or, where the instruction cache has an older version,
wholly as that or wholly as the newer (R60, entry 75). -/
def State.codeBlock (s : State) (c n : Nat) : List Byte :=
  let now := s.dram.readBytes (fetchBlock * n) fetchBlock
  match (s.core c).icache.find? fun b => b.number == n with
  | some b => if Config.fetchesNewer s.fetchSeq then now else b.bytes
  | none => now

/-- The bytes that a core fetches at an address of device DRAM (R28, R31; entry 10). -/
def State.fetch (s : State) (c : Nat) (pc : DWord) : List Byte :=
  let n := pc.toNat / fetchBlock
  ((s.codeBlock c n).drop (pc.toNat % fetchBlock) ++ s.dram.readBytes (fetchBlock * (n + 1)) longest).take longest

/-- The instruction that the decoder finds at an address. -/
def State.fetched (s : State) (c : Nat) (pc : DWord) : Except DecodeFault Instr := decode pc.toNat (s.fetch c pc)

/-- A fetched block stands in the instruction cache as it was seen (R60). -/
def State.cacheCode (s : State) (c : Nat) (pc : DWord) : State :=
  let n := pc.toNat / fetchBlock
  let b : CodeBlock := { number := n, bytes := s.codeBlock c n }
  { s with fetchSeq := s.fetchSeq + 1 }.modCore c fun k => { k with icache := b :: k.icache.filter fun x => x.number != n }

/-! ### Slots of the fabric (R20, R21) -/

/-- The partition that owns a slot, unless it is idle (R21). -/
def slotOwner (b : Byte) : Option Nat := if b.getLsbD 3 then none else some (bitsOf b.toNat 2 0)

/-- A partition owns a slot in which the fabric, the L2 banks and the memory controllers admit its requests (R20). -/
def State.served (s : State) (part : Nat) : Bool := s.slotTab.any fun b => slotOwner b == some part

/-- Requests of a core are admitted in some slot: those of its partition. -/
def State.coreServed (s : State) (c : Nat) : Bool :=
  match s.partOf (c / 8) with
  | some p => s.served p
  | none => true

/-! ### What holds a group back (R14, R20, R94, R188, R256) -/

/-- The running lanes of a troupe at an address (R111). -/
def Troupe.group (t : Troupe) (pc : DWord) : Mask := Mask.ofTest fun l => (t.lane l).running && (t.lane l).pc == pc

/-- The addresses at which a troupe has running lanes. -/
def Troupe.pcs (t : Troupe) : List DWord :=
  ((laneNumbers.filter fun l => (t.lane l).running).map fun l => (t.lane l).pc).eraseDups

/-- Scoreboard entries that a slot's troupe holds (R12). -/
def Core.slotEntries (k : Core) (slot : Nat) : Nat := (k.board.filter fun e => e.slot == some slot).length

/-- The instruction is a command that takes one of its slot's scoreboard entries (R12, R270, R334). -/
def takesEntry : Instr → Bool
  | .scfg _ _ => true
  | .mma _ _ => true
  | .mmas _ _ => true
  | .mzero _ _ => true
  | .accld _ _ => true
  | .accst _ _ => true
  | _ => false

/-- A command of the matrix array that takes an entry. -/
def isMatrix : Instr → Bool
  | .scfg _ _ => false
  | i => takesEntry i

/-- What an instruction that takes an entry does when it issues for a path. -/
def issueCommand (i : Instr) (s : State) : Host.Outcome State Fault Refusal :=
  match i with
  | .scfg h f => execScfg h f s
  | .mma h f => execMma h f s
  | .mmas h f => execMmas h f s
  | .mzero h f => execMzero h f s
  | .accld h f => execAccld h f s
  | .accst h f => execAccst h f s
  | _ => .next s

/-- The command passes its checks (R343): it raises no fault, and its path goes on. -/
def State.passes (s : State) (q : Issue) (i : Instr) : Bool :=
  match issueCommand i { s with cur := some q } with
  | .next t =>
    t.faultSeq == s.faultSeq && t.faultWait.length == s.faultWait.length &&
      match (t.core q.core).troupe q.blk q.troupe with
      | some x => (x.lane q.lanes.lowest).pc != q.pc
      | none => false
  | _ => false

/-- The instruction has an active lane in a path. -/
def actsIn (i : Instr) (t : Troupe) (lanes : Mask) : Bool :=
  match i.parts with
  | some (_, h, _) => activeLanes t h lanes != 0
  | none => false

/-- The hold of R14: every entry of the slot is taken, and the command would be admitted. Once a pre-emption is
accepted, no new matrix command issues (R348). -/
def State.slotHeld (s : State) (q : Issue) (t : Troupe) (i : Instr) : Bool :=
  let k := s.core q.core
  takesEntry i && (8 ≤ k.slotEntries (t.slot.getD 0) || (k.preempt.isSome && isMatrix i)) && actsIn i t q.lanes && s.passes q i

/-- The instruction accesses global or private memory for its thread, or orders such accesses. -/
def usesMemory : Instr → Bool
  | .ld _ _ | .st _ _ | .ldk _ _ | .atom _ _ | .red _ _ | .cclean _ _ => true
  | _ => false

/-- The instruction is a release of the thread's earlier accesses (R94, R98, R101, R312, R319). -/
def isRelease : Instr → Bool
  | .ld _ f | .st _ f | .ldk _ f | .atom _ f | .red _ f | .atoml _ f => isRel f.ord
  | .fence _ _ | .arrive _ _ | .relslot _ _ | .cstep _ _ | .csched _ _ | .rcseal _ _ | .spawn _ _ | .enq _ _ => true
  | _ => false

/-- A lane of a path has a push that waits to be performed. -/
def Core.owesFor (k : Core) (q : Issue) : Bool :=
  (k.ctxsOf q.blk q.troupe).any fun n => q.lanes.lanes.any fun l => ((k.ctx n).lane l).held.any (·.waiting)

/-- Earlier accesses of the path have not performed that this instruction comes after: AtomicOps on their way to the
host, for any access (R89, R91), and waiting pushes, for a release (R94, R101). The pipeline holds the access; the
model holds its path (entry 77). -/
def State.orderHeld (s : State) (q : Issue) (i : Instr) : Bool :=
  ((usesMemory i || isRelease i) && s.opsOut q.core q.blk q.troupe q.lanes) || (isRelease i && (s.core q.core).owesFor q)

/-- SCFG comes after the pushes that contexts of its block still owe (R273, R275), and reads its descriptor after an
older command's writes to it (R13, R270). -/
def State.configHeld (s : State) (q : Issue) (t : Troupe) (i : Instr) : Bool :=
  match i with
  | .scfg _ f =>
    let k := s.core q.core
    let base := ((k.block q.blk).map (·.base)).getD 0
    let a := base + (t.kreg f.ka.toNat + f.imm.signExtend 64).toNat
    (k.ctxs.any fun x => (x.owner.map (·.1)) == some q.blk && x.owes) ||
      k.board.any fun e => e.writes.any fun w => sharesSector w { lo := a, hi := a + 64 }
  | _ => false

/-- No slot admits the core's requests, and the instruction needs one: for its bytes or for its access (R20). -/
def State.starved (s : State) (q : Issue) (i : Instr) : Bool :=
  !s.coreServed q.core && (usesMemory i ||
    !(s.core q.core).icache.any fun b => b.number == q.pc.toNat / fetchBlock)

/-- Something on a core may hold a group back at all. -/
def State.mayHold (s : State) (c : Nat) : Bool :=
  let k := s.core c
  k.preempt.isSome || !k.board.isEmpty || k.pushSeq != 0 || !s.hostOps.isEmpty || !s.coreServed c

/-- A group of a troupe is not issued now. -/
def State.heldAt (s : State) (c : Nat) (t : Troupe) (pc : DWord) : Bool :=
  t.slot.isNone || (s.mayHold c && ((s.core c).heldAcross t pc ||
    match s.fetched c pc with
    | .ok i =>
      let q : Issue := { core := c, blk := t.blk, troupe := t.idx, lanes := t.group pc, pc := pc }
      s.starved q i || s.slotHeld q t i || (actsIn i t q.lanes && (s.orderHeld q i || s.configHeld q t i))
    | .error _ => false))

/-- While a pre-emption is pending, a group whose command is held is not issued any more (R188). -/
def State.noteHeld (s : State) : State :=
  if s.cores.all fun k => k.preempt.isNone then s
  else
    { s with cores := s.cores.mapIdx fun c (k : Core) => match k.preempt with
      | none => k
      | some p =>
        let groups := k.troupes.flatMap fun t => (t.pcs.filter fun pc =>
          match s.fetched c pc with
          | .ok i => s.slotHeld { core := c, blk := t.blk, troupe := t.idx, lanes := t.group pc, pc := pc } t i
          | .error _ => false).map fun pc => (t.blk, t.idx, pc)
        { k with preempt := some { p with held := p.held ++ groups.filter fun g => !p.held.contains g } } }

/-! ### The path that issues (R110, R111) -/

/-- The better group of R111: more lanes, then the lower address. -/
def betterGroup (t : Troupe) (a b : DWord) : DWord :=
  let ca := (t.group a).count
  let cb := (t.group b).count
  if cb > ca || (cb == ca && b.toNat < a.toNat) then b else a

/-- The group of a troupe that issues first, if any is ready (R111). -/
def State.firstGroup (s : State) (c : Nat) (t : Troupe) : Option DWord :=
  match t.pcs.filter fun pc => !s.heldAt c t pc with
  | [] => none
  | a :: rest => some (rest.foldl (betterGroup t) a)

/-- The troupes that are eligible (R110), with the group each would issue. -/
def State.eligible (s : State) (c : Nat) : List (Troupe × DWord) :=
  let k := s.core c
  if s.tripped || k.retired then []
  else k.troupes.filterMap fun t =>
    match t.slot with
    | some _ => (s.firstGroup c t).map fun pc => (t, pc)
    | none => none

/-- Distance in round-robin order of slots, starting after the slot chosen last (R110). -/
def slotDistance (last slot : Nat) : Nat := (slot + 31 - last) % 16

/-- `a` is chosen before `b` (R110). -/
def chosenBefore (k : Core) (a b : Troupe) : Bool :=
  let sa := a.slot.getD 0
  let sb := b.slot.getD 0
  let oa := 256 ≤ a.skip
  let ob := 256 ≤ b.skip
  if oa || ob then oa && (!ob || sa < sb)
  else if a.prio ≠ b.prio then a.prio < b.prio
  else
    let last := k.lastChosen.getD a.prio 15
    slotDistance last sa < slotDistance last sb

/-- The path that a core issues next (R110, R111). -/
def State.pick (s : State) (c : Nat) : Option Issue :=
  match s.eligible c with
  | [] => none
  | a :: rest =>
    let best := rest.foldl (fun x y => if chosenBefore (s.core c) y.1 x.1 then y else x) a
    some { core := c, blk := best.1.blk, troupe := best.1.idx, lanes := best.1.group best.2, pc := best.2 }

/-- The issue pipes (R111). -/
inductive Pipe where
  | x
  | s
  | y
  deriving DecidableEq, Repr

/-- The pipe of a major opcode (R111). -/
def pipeOf (major : Nat) : Pipe :=
  if (0x60 ≤ major && major ≤ 0x67) || (0x71 ≤ major && major ≤ 0x7D) || (0x80 ≤ major && major ≤ 0x85) then .x
  else if 0x68 ≤ major && major ≤ 0x70 then .s
  else .y

/-- The pipe of the instruction at an address, by its major opcode (R32, R111). -/
def State.pipeAt (s : State) (c : Nat) (pc : DWord) : Pipe := pipeOf (bitsOf (bytesToNat (s.fetch c pc)) 9 2)

/-- The second group of the cycle in which `q` issues first, if there is one on another pipe (R111). -/
def State.second (s : State) (q : Issue) : Option Issue :=
  match (s.core q.core).troupe q.blk q.troupe with
  | none => none
  | some t =>
    match t.pcs.filter fun pc => pc != q.pc && !s.heldAt q.core t pc with
    | [] => none
    | a :: rest =>
      let b := rest.foldl (betterGroup t) a
      if s.pipeAt q.core b = s.pipeAt q.core q.pc then none else some { q with lanes := t.group b, pc := b }

/-- What is left of a second group after the first group's instruction: its lanes that still run at its
address (R112). -/
def State.remaining (s : State) (q : Issue) : Option Issue :=
  if s.tripped || (s.core q.core).retired then none
  else
    match (s.core q.core).troupe q.blk q.troupe with
    | none => none
    | some t =>
      if t.slot.isNone || q.lanes &&& t.group q.pc = 0 then none else some { q with lanes := q.lanes &&& t.group q.pc }

/-- Skip counts and round-robin places after a choice (R110). -/
def State.noteChoice (s : State) (q : Issue) : State :=
  let el := (s.eligible q.core).map fun x => (x.1.blk, x.1.idx)
  s.modCore q.core fun k =>
    let prio := ((k.troupe q.blk q.troupe).map (·.prio)).getD 0
    let slot := ((k.troupe q.blk q.troupe).bind (·.slot)).getD 0
    { k with
      lastChosen := k.lastChosen.set prio slot
      troupes := k.troupes.map fun t =>
        if t.blk == q.blk && t.idx == q.troupe then { t with skip := 0 }
        else if el.contains (t.blk, t.idx) then { t with skip := t.skip + 1 } else t }

/-- The first core, in ascending order, that has a path to issue. -/
def State.issuing (s : State) : Option Issue := (List.range Config.numCores).findSome? s.pick

/-- The events of a core that cross the fabric, which wait while no slot admits its requests (R20). -/
def fabricCore : Instr → Option Nat
  | .loadDataReturn c _ | .tlbFillComplete c _ _ | .streamFetchComplete c _ _ | .readBack c _
  | .pushTranslationRestored c _ _ _ | .contextRestore c | .scriptReadComplete c _ | .recordObtained c _ | .copyComplete c _
  | .atomicopCompletion c _ _ => some c
  | _ => none

/-- Events that carry memory traffic, which stops after a thermal trip (R432). -/
def isTraffic : Instr → Bool
  | .loadDataReturn _ _ | .tlbFillComplete _ _ _ | .streamFetchComplete _ _ _ | .readBack _ _ | .relaunch _
  | .pushTranslationRestored _ _ _ _ | .contextRestore _ | .scriptReadComplete _ _ | .copyStart _ _ | .recordObtained _ _
  | .copyComplete _ _ | .matrixStart _ | .matrixLastRead _ | .matrixRetire _ | .fetchwService _ _ | .blockPlace _
  | .blockRetryPlace _ | .atomicopCompletion _ _ _ | .hostMemoryRequest _ _ _ _ | .peerRequest _ _ _ => true
  | _ => false

/-! ### A program placed for one instruction (entry 11) -/

/-- The kernel descriptor of the placed block: one troupe of 64 registers. -/
def Desc.seed : Desc :=
  { entry := 0, widths := [0, 0, 0, 0, 0], regs := 64, troupes := 1, il := 0, localBytes := 65536
    priv := 4096, barriers := 64, rings := 6, streams := 8, prio := 0, liveTiles := 0, signed := false
    faultDisp := 0, sched := 0, reserved := false }

/-- The launch of the placed block. -/
def Launch.seed : Launch :=
  { id := 0, parent := none, queue := 0, seq := 0, part := 0, pasid := 0, pasidEn := false, job := 1
    cgroup := 0, il := 0, disp := [], desc := Desc.seed, kdesc := 0, args := List.replicate 8 0
    blocks := 1, sched := 0, compl := 0, irq := false, debug := false, cutAllowed := false, deadline := 0
    prio := 0, clmask := 1, coremask := 1, ranges := [], ended := 0, done := 0, faults := 0
    bound := true, cancelled := false, removed := false, failed := false, draining := none, cut := none, unscanned := [0], final := false
    scanFail := false }

/-- The placed block. -/
def Block.seed : Block :=
  { launch := 0, index := 0, base := 0, size := 65536, barriers := 64, rings := 6, streams := 8
    troupes := 1, regs := 64, priv := 4096, privBase := (privArea 0 0).1, stage := 0, script := 0, scripted := false, pos := 0, relq := []
    ahead := [], keptFmode := none, halted := false, cancelling := false, ending := false
    killed := false, saved := false, savedAt := 0, withdrawn := 0, retries := 0, blockRetry := false
    retrying := false, matchedSync := false }

/-- The address of the placed instruction. -/
def seedPc : DWord := 0

/-- The troupe of the placed block, with every lane about to issue at `seedPc` (R113). -/
def Troupe.seed : Troupe :=
  { blk := 0, idx := 0, slot := some 0, frameSpilled := false, frameAt := 0, frameWritten := false
    regs := List.replicate 64 { tag := .undef, dead := false, lanes := List.replicate 64 0 }
    lanes := List.replicate 64 { Lane.reset with place := .resident, pc := seedPc, rea := seedPc }
    k := List.replicate 64 0, c := 0, bounds := List.replicate 8 (1, 0)
    tiles := List.replicate 16 (List.replicate 8 0), fmode := 1, fstat := 0, satt := false, step := 0
    recCount := 0, live := 0, liveSet := false, prio := 0, sib := 0, marks := [], deferred := [], skip := 0
    placedAt := 0, away := 0, watched := false, role := 0, retry := [] }

/-- Core 0 with only the placed block on it. -/
def Core.seed (k : Core) : Core :=
  { k with
    retired := false, service := .inService, preempt := none, cue := [], board := [], undo := [], outcomes := []
    icache := [], pushSeq := 0
    blocks := (List.replicate 8 none).set 0 (some Block.seed), troupes := [Troupe.seed]
    owners := (List.range 128).map fun n => if n < 16 then some (0, 0) else none
    ctxs := (List.range 32).map fun n => if n < 8 then { Ctx.reset with owner := some (0, n) } else Ctx.reset
    copies := List.replicate 128 none }

/-- A state in which one launch has been placed, with the given instruction bytes where its one
troupe fetches. -/
def State.seeded (s : State) (bytes : List Byte) : State :=
  let s := s.modCore 0 Core.seed
  { s with
    dramReady := true, tripped := false, agenda := [], cur := none, hostOps := [], slotTab := List.replicate 64 0
    slotPending := [], parts := (List.range 8).map Partition.reset
    sirip := { s.sirip with pairs := List.replicate 8 CheckedPair.reset }
    dram := s.dram.writeBytes seedPc.toNat bytes
    sched := { s.sched with
      launches := [Launch.seed], nextLaunch := 1, jobs := [{ part := 0, job := 1, cgroup := 0, launch := 0 }] } }

end Sys2Proof.Machine
end

