-- ==== Sys2Proof/Machine/Save.lean ====
section
/-!
DEFINITION. Saving a core's context into its save area and restoring it from there (R186, R190 to R192,
R271, R338).
-/
namespace Sys2Proof.Machine

/-! ### The save area (R192) -/

/-- A unit of the device replaces a whole span of device DRAM: the bytes of `cells`, zero elsewhere. -/
def State.devReplace (s : State) (lo hi : Nat) (cells : List Host.Cell) : State :=
  let s := { s with
    dram := (s.dram.clear lo hi).writeCells cells
    releases := s.releases.filter fun r => r.addr + r.size ≤ lo || hi ≤ r.addr }
  (s.poison.filter fun sec => lo ≤ 64 * sec && 64 * sec + 64 ≤ hi).foldl State.wakeSector s

/-- Several writes by a unit of the device, at offsets from an address. -/
def State.devWrites (s : State) (a : Nat) (ws : List (Nat × List Byte)) : State :=
  ws.foldl (fun s w => s.devWrite (a + w.1) w.2) s

/-- Offset of the accumulator store in the save area. -/
def saveCellsOff : Nat := 0x1000
/-- Offset of the local-memory image. -/
def saveLocalOff : Nat := 0x11000
/-- Offset of the stream contexts, and the size of one. -/
def saveCtxOff : Nat := 0x91000
def saveCtxSize : Nat := 0x4300
/-- Offset of the script states. -/
def saveScriptOff : Nat := 0x117000
/-- Offset of SECTORS in the save header. -/
def saveSectorsOff : Nat := 0x400

/-- First row of the pair view that belongs to a core's own store (R323). -/
def firstRow (c : Nat) : Nat := 128 * (c % 2)

/-- A cell belongs to a core's own store. -/
def ownCell (c key : Nat) : Bool := firstRow c ≤ key / 128 && key / 128 < firstRow c + 128

/-- Step 1 of R190: the accumulator store of a core. -/
def State.saveAccumulators (s : State) (c : Nat) : State :=
  let a := (s.core c).saveArea + saveCellsOff
  let cells := ((s.pair (c / 2)).cells.filter fun x => ownCell c x.1).flatMap fun x =>
    (natToBytes 4 x.2.toNat).mapIdx fun i b => (a + 4 * (x.1 - 128 * firstRow c) + i, b)
  s.devReplace a (a + 65536) cells

/-- The tile regions of a block's troupes in window offsets: those that live masks name, or all (R190, R338). -/
def Core.tileSpans (k : Core) (slot size : Nat) (dflt : BitVec 16) (named : Bool) : List Span :=
  (k.troupes.filter fun t => t.blk == slot).flatMap fun t =>
    ((List.range 16).filter fun n => !named || (t.liveTiles dflt).getLsbD n).flatMap fun n => t.savedSpans size n

/-- An offset lies in a span. -/
def Span.holds (r : Span) (o : Nat) : Bool := r.lo ≤ o && o < r.hi

/-- The save writes byte `o` of a block's window: as part of a named tile region, or as part of no tile region
(R190, R338). -/
def savesByte (named every : List Span) (o : Nat) : Bool := (named.any fun r => r.holds o) || !(every.any fun r => r.holds o)

/-- The live-tile mask that stands for a block's troupes before their first MLIVE (R74). -/
def State.tilesDefault (s : State) (c b : Nat) : BitVec 16 :=
  match s.launchOf c b with
  | some l => l.desc.liveTiles
  | none => 0

/-- One byte of SECTORS with the bits of a window's sectors replaced. -/
def sectorsByte (old : Byte) (lo hi : Nat) (written : Nat → Bool) (j : Nat) : Byte :=
  BitVec.ofNat 8 (((List.range 8).map fun i =>
    let n := 8 * j + i
    let bit := if lo ≤ n && n < hi then written n else old.getLsbD i
    if bit then 2 ^ i else 0).foldl (· + ·) 0)

/-- The window of a block goes into the local image, and its sectors into SECTORS. -/
def State.saveWindow (s : State) (c slot : Nat) : State :=
  match (s.core c).block slot with
  | none => s
  | some b =>
    let k := s.core c
    let named := k.tileSpans slot b.size (s.tilesDefault c slot) true
    let every := k.tileSpans slot b.size (s.tilesDefault c slot) false
    let a := k.saveArea + saveLocalOff
    let cells := (((k.mem.within b.base (b.base + b.size)).filter fun x => savesByte named every (x.1 - b.base)).map
      fun x => (a + x.1, x.2))
    let written (n : Nat) : Bool := (List.range 64).any fun i => savesByte named every (64 * n + i - b.base)
    let lo := b.base / 64
    let hi := (b.base + b.size) / 64
    let bytes := (List.range (hi / 8 + 1 - lo / 8)).map fun i =>
      let j := lo / 8 + i
      (j, sectorsByte (s.dram.read (k.saveArea + saveSectorsOff + j)) lo hi written j)
    let s := s.devReplace (a + b.base) (a + b.base + b.size) cells
    bytes.foldl (fun s x => s.devWrite (k.saveArea + saveSectorsOff + x.1) [x.2]) s

/-- The 64 bytes of a pattern descriptor (R262). -/
def Pattern.bytes (p : Pattern) : List Byte :=
  natToBytes 8 p.base.toNat ++ natToBytes 4 p.lstride.toNat ++
    [BitVec.ofNat 8 p.fmt, BitVec.ofNat 8 ((if p.priv then 4 else 0) + if p.isLocal then 2 else 0),
      BitVec.ofNat 8 p.ndim, 0] ++
    p.ext.flatMap (fun w => natToBytes 4 w.toNat) ++ p.str.flatMap (fun w => natToBytes 4 w.toNat) ++
    natToBytes 4 p.length.toNat ++ natToBytes 12 0

/-- Lanes of a context that satisfy a test, as 8 bytes. -/
def Ctx.laneBits (x : Ctx) (test : CtxLane → Bool) : List Byte := natToBytes 8 (Mask.ofTest fun l => test (x.lane l)).toNat

/-- What the save area holds of a stream context. -/
def Ctx.saved (x : Ctx) : List (Nat × List Byte) :=
  let owner := (x.owner.map (·.1)).getD 0
  let binding := (if x.bound then 1 else 0) + (if x.write then 2 else 0) + 4 * x.port + 2 ^ 16 * owner + 2 ^ 24 * x.troupe
  [(0, x.pat.bytes), (64, natToBytes 8 binding), (72, x.laneBits (·.eos)), (80, x.laneBits (·.close)),
    (128, laneNumbers.map fun l => BitVec.ofNat 8 (x.lane l).held.length),
    (256, laneNumbers.flatMap fun l => natToBytes 4 (x.lane l).pos.toNat),
    (512, laneNumbers.flatMap fun l => natToBytes 4 (x.lane l).ckpt.toNat)] ++
  laneNumbers.flatMap fun l => (x.lane l).held.mapIdx fun e q =>
    (768 + 256 * l + 16 * e, natToBytes 8 q.addr.toNat ++ natToBytes 8 q.data.toNat)

/-- The stream contexts that a block slot owns. -/
def Core.ctxsOfBlock (k : Core) (slot : Nat) : List Nat :=
  (List.range 32).filter fun n => ((k.ctx n).owner.map (·.1)) == some slot

/-- A block's stream contexts go into the save area. -/
def State.saveCtxs (s : State) (c slot : Nat) : State :=
  ((s.core c).ctxsOfBlock slot).foldl
    (fun s n =>
      let a := (s.core c).saveArea + saveCtxOff + saveCtxSize * n
      (s.devReplace a (a + saveCtxSize) []).devWrites a ((s.core c).ctx n).saved) s

/-- The script state of a block (R192). -/
def Block.scriptState (b : Block) : List Byte :=
  let start := match b.relq with
    | r :: _ => r.pos
    | [] => b.pos
  let kept := match b.keptFmode with
    | some f => 128 + f.toNat
    | none => 0
  natToBytes 8 b.script.toNat ++ natToBytes 4 b.pos ++ natToBytes 4 start ++ natToBytes 4 b.stage ++
    [BitVec.ofNat 8 kept] ++ natToBytes 43 0

/-- A block's script state goes into the save area. -/
def State.saveScript (s : State) (c slot : Nat) : State :=
  match (s.core c).block slot with
  | some b => s.devWrite ((s.core c).saveArea + saveScriptOff + 64 * slot) b.scriptState
  | none => s

/-- The 32 bytes of a block in the save header. -/
def State.blockHeader (s : State) (c slot : Nat) : List Byte :=
  match (s.core c).block slot, s.launchOf c slot with
  | some b, some l =>
    natToBytes 8 b.index ++ natToBytes 4 l.job ++ natToBytes 4 b.base ++ natToBytes 4 b.size ++
      natToBytes 4 (((s.core c).ctxsOfBlock slot).map fun n => 2 ^ n).sum ++ natToBytes 8 0
  | _, _ => natToBytes 32 0

/-- Bytes of the save header (R192). -/
def saveHeaderSize : Nat := 0x1000

/-- The owner that the header names: the pair's where it is one of the saved blocks', and otherwise that of the first of
them (R192, R323). -/
def State.saveOwner (s : State) (c : Nat) (slots : List Nat) : Nat × Nat :=
  let owners := slots.map fun b => s.ownerOf c b
  match (s.pair (c / 2)).owner with
  | some own => if owners.contains own then own else owners.headD own
  | none => owners.headD (0, 0)

/-- SECTORS as it stands, for the sectors that lie in the windows of some slots, and 0 for the others. -/
def State.sectorsOf (s : State) (c : Nat) (slots : List Nat) : List Byte :=
  let a := (s.core c).saveArea + saveSectorsOff
  let saved (n : Nat) : Bool := slots.any fun b => match (s.core c).block b with
    | some x => x.base / 64 ≤ n && n < (x.base + x.size) / 64
    | none => false
  (List.range 1024).map fun j => s.dram.read (a + j) &&& flagByte ((List.range 8).map fun i => saved (8 * j + i))

/-- The save header, whole: its blocks are those of `slots`, and what R192 leaves reserved is zero. -/
def State.saveHeader (s : State) (c : Nat) (slots : List Nat) : State :=
  let a := (s.core c).saveArea
  let own := s.saveOwner c slots
  let head := natToBytes 4 1 ++ [BitVec.ofNat 8 c, 3, BitVec.ofNat 8 (slots.map fun b => 2 ^ b).sum, 0] ++
    natToBytes 4 (own.1 + 2 ^ 8 * own.2) ++ natToBytes 4 0 ++
    (List.range Config.blockSlots).flatMap fun b => if slots.contains b then s.blockHeader c b else natToBytes 32 0
  let cells (off : Nat) (bs : List Byte) : List Host.Cell := (bs.mapIdx fun i b => (a + off + i, b)).filter fun x => x.2 != 0
  s.devReplace a (a + saveHeaderSize) (cells 0 head ++ cells saveSectorsOff (s.sectorsOf c slots))

/-- The parts of R190 that belong to one block. -/
def State.saveParts (s : State) (c slot : Nat) : State := ((s.saveWindow c slot).saveCtxs c slot).saveScript c slot

/-! ### Saving a core (R190) -/

/-- Halted lanes of a troupe leave as KIND 2 records that stay halted. -/
def State.recordHalted (s : State) (c b i : Nat) (m : Mask) (code mark : Nat) : State :=
  match (s.core c).troupe b i with
  | none => s
  | some t =>
    let n := s.nextId
    (s.recordsToEntry c b i (m &&& t.residents) .none code).modCore c fun k => { k with
      cue := k.cue.map fun (r : CueRec) => if n ≤ r.rid then { r with halted := some mark } else r }

/-- Every resident path of a block leaves as KIND 2 records (R190, step 2). -/
def State.recordBlock (s : State) (c b : Nat) : State :=
  let s := (s.halts.filter fun h => h.core == c && h.blk == b).foldl
    (fun s h => s.recordHalted c b h.troupe h.mask h.code h.seq) s
  let s := (s.faultWait.filter fun w => w.record.core == c && w.blk == b).foldl
    (fun s w => s.recordHalted c b w.record.troupe w.lanes w.record.code (haltMark w.wid)) s
  ((s.core c).troupes.filter fun t => t.blk == b).foldl
    (fun s t => s.recordsToEntry c b t.idx t.residents .none 0) s

/-- A block whose paths have left is saved: its records are held, and its contexts keep no element fetched
ahead (R187, R271). -/
def State.holdBlock (s : State) (c b : Nat) : State :=
  let now := s.clock.toNat
  s.modCore c fun k =>
    let k := (k.ctxsOfBlock b).foldl
      (fun (k : Core) n => k.modCtx n fun x => x.modLanes (BitVec.allOnes 64) fun _ y => { y with ahead := [] }) k
    { (k.modBlock b fun x => { x with saved := true, savedAt := now }) with
      cue := k.cue.map fun (r : CueRec) => if r.blk == b then { r with held := true } else r }

/-- The blocks of a core that a save takes. -/
def Core.toSave (k : Core) : List Nat :=
  (List.range Config.blockSlots).filter fun b => match k.block b with
    | some x => !x.ending && !x.saved
    | none => false

/-- The saved blocks of a core. -/
def Core.savedSlots (k : Core) : List Nat :=
  (List.range Config.blockSlots).filter fun b => match k.block b with
    | some x => x.saved
    | none => false

/-- Save some blocks of a core (R190): none while there is no room for a record or frame. -/
def State.saveBlocks (s : State) (c : Nat) (slots : List Nat) : Option State :=
  let s := s.saveAccumulators c
  let s := slots.foldl (fun s b => s.saveParts c b) s
  (slots.foldl (fun s b => s.recordBlock c b) s).settleCue c |>.map fun s =>
    let s := slots.foldl (fun s b => s.holdBlock c b) s
    s.saveHeader c (s.core c).savedSlots

/-! ### Restoring (R191) -/

/-- The accumulator store that the save area holds comes back, with the owner of the saved blocks (R323). -/
def State.restoreCells (s : State) (c : Nat) : State :=
  let a := (s.core c).saveArea
  let own := (bitsOf (s.dramNat (a + 8) 4) 2 0, bitsOf (s.dramNat (a + 8) 4) 27 8)
  let lo := a + saveCellsOff
  let keys := ((s.dram.within lo (lo + 65536)).map fun x => (x.1 - lo) / 4).eraseDups
  let words := keys.map fun n => (n, BitVec.ofNat 32 (s.dramNat (lo + 4 * n) 4))
  s.modPair (c / 2) fun q =>
    let kept : CellStore := if q.owner == some own then q.cells.filter fun x => !ownCell c x.1 else []
    { q with
      owner := some own
      cells := words.foldl (fun (m : CellStore) w => m.write (128 * firstRow c + w.1) w.2) kept }

/-- A block's window comes back; sectors that the save left unwritten are zero. -/
def State.restoreWindow (s : State) (c slot : Nat) : State :=
  match (s.core c).block slot with
  | none => s
  | some b =>
    let a := (s.core c).saveArea
    let lo := a + saveLocalOff
    let written (n : Nat) : Bool := (s.dram.read (a + saveSectorsOff + n / 8)).getLsbD (n % 8)
    let cells := ((s.dram.within (lo + b.base) (lo + b.base + b.size)).filter fun x => written ((x.1 - lo) / 64)).map
      fun x => (x.1 - lo, x.2)
    s.modCore c fun k => { k with mem := (k.mem.clear b.base (b.base + b.size)).writeCells cells }

/-- One lane of a stream context as the save area at `a` holds it; the place of its held pushes in the core's push order
is not there, and stays. -/
def CtxLane.restore (y : CtxLane) (m : Memory) (a l : Nat) : CtxLane :=
  let bit (off : Nat) : Bool := (m.read (a + off + l / 8)).getLsbD (l % 8)
  let old (e : Nat) : Push := y.held.getD e { addr := 0, data := 0, seq := 0, waiting := false }
  { y with
    pos := BitVec.ofNat 32 (m.readNat (a + 256 + 4 * l) 4), ckpt := BitVec.ofNat 32 (m.readNat (a + 512 + 4 * l) 4)
    eos := bit 72, close := bit 80, ahead := [], freshPushes := 0
    held := (List.range (m.readNat (a + 128 + l) 1)).map fun e =>
      let b := a + 768 + 256 * l + 16 * e
      { old e with addr := BitVec.ofNat 64 (m.readNat b 8), data := BitVec.ofNat 32 (m.readNat (b + 8) 4) } }

/-- A stream context as the save area at `a` holds it (R192). -/
def Ctx.restore (x : Ctx) (m : Memory) (a : Nat) : Ctx :=
  let w := m.readNat (a + 64) 8
  { x with
    pat := Pattern.read m a, bound := bitsOf w 0 0 == 1, write := bitsOf w 1 1 == 1, port := bitsOf w 4 2
    troupe := bitsOf w 27 24, lanes := x.lanes.mapIdx fun l y => y.restore m a l }

/-- A block's stream contexts come back (R191, R271). -/
def State.restoreCtxs (s : State) (c slot : Nat) : State :=
  ((s.core c).ctxsOfBlock slot).foldl
    (fun s n => s.modCore c fun k => k.modCtx n fun x => x.restore s.dram (k.saveArea + saveCtxOff + saveCtxSize * n)) s

/-- The release queue from the saved start position: the entries that the core keeps, where they are these. -/
def Block.requeue (b : Block) (start time : Nat) : List Released :=
  if ((b.relq.head?.map (·.pos)).getD b.pos) = start then b.relq
  else (List.range' start (b.pos - start)).map fun p =>
    { pos := p, addr := b.entryAddr p, fmode := b.keptFmode.getD 1, pc := 0, entry := none, failed := false, time := time
      troupe := 0, fresh := 0 }

/-- A block's script state comes back; what was read ahead is read again (R191, R434). -/
def State.restoreScript (s : State) (c slot : Nat) : State :=
  let a := (s.core c).saveArea + saveScriptOff + 64 * slot
  let kept := s.dramNat (a + 20) 1
  s.modBlock c slot fun b =>
    let b := { b with
      script := BitVec.ofNat 64 (s.dramNat a 8), pos := s.dramNat (a + 8) 4, stage := s.dramNat (a + 16) 4, ahead := []
      keptFmode := if bitsOf kept 7 7 == 1 then some (BitVec.ofNat 3 kept) else none }
    { b with relq := b.requeue (s.dramNat (a + 12) 4) s.clock.toNat }

/-- The records of restored blocks return to the cue queue: those that became ready meanwhile, in that order,
then the saved paths in the order they were written (R187, R191). DESIGN CHOICE (entry 85): the spec orders each of the
two groups and not the one against the other. -/
def Core.releaseHeld (k : Core) (slots : List Nat) : Core :=
  let mine (r : CueRec) : Bool := r.held && slots.contains r.blk
  let first := ((k.cue.filter fun r => mine r && r.ready).mergeSort fun a b => decide (a.readySeq ≤ b.readySeq)).map (·.rid)
  let second := (k.cue.filter fun r => mine r && !r.ready && r.kind == 2 && r.key == .none && r.halted.isNone).map (·.rid)
  let k := { k with
    cue := k.cue.map fun (r : CueRec) => if mine r then { r with held := false, ready := false } else r }
  (first ++ second).foldl Core.markReady k

/-- A restored block goes on: its time away does not count, and its troupes take the mode that the core now has
(R371, R390). -/
def State.resumeBlock (s : State) (c slot : Nat) : State :=
  match (s.core c).block slot with
  | none => s
  | some b =>
    let away := s.clock.toNat - b.savedAt
    let checked := s.checkedCore c
    let debug := match s.launchOf c slot with
      | some l => l.debug
      | none => false
    s.modCore c fun k =>
      let k := { k with
        troupes := k.troupes.map fun (t : Troupe) =>
          if t.blk == slot then { t with away := t.away + away, role := if checked then 1 else 0 } else t }
      let logs := if checked || debug then
          ((k.troupes.filter fun t => t.blk == slot).filter fun t =>
            !(k.undo.any fun u => u.blk == slot && u.troupe == t.idx)).map fun t => UndoLog.start slot t.idx
        else []
      { (k.modBlock slot fun x => { x with saved := false }) with
        undo := (k.undo.filter fun u => u.blk != slot || checked || debug) ++ logs }

/-- The script of a restored block: the engine reads ahead, and the release of R284 runs once with the %fmode
that was kept (R191, R316, R434). -/
def State.resumeScript (s : State) (c slot : Nat) : State :=
  match (s.core c).block slot with
  | none => s
  | some b =>
    ((s.readAhead c slot).releaseDue c slot (b.keptFmode.getD 1)).modBlock c slot fun x => { x with keptFmode := none }

/-- Restore every saved block of a core (R191). -/
def State.restoreCore (s : State) (c : Nat) : State :=
  let slots := (s.core c).savedSlots
  if slots.isEmpty then s
  else
    let s := slots.foldl (fun s b => s.restoreWindow c b) s
    let s := s.restoreCells c
    let s := slots.foldl (fun s b => (s.restoreCtxs c b).restoreScript c b) s
    let s := slots.foldl (fun s b => s.resumeBlock c b) s
    let s := slots.foldl (fun s b => s.resumeScript c b) s
    s.modCore c fun k => k.releaseHeld slots

/-- The core takes a restore: it is used and not being pre-empted (R382, R390, R396). -/
def State.canRestore (s : State) (c : Nat) : Bool := s.usable c && (s.core c).preempt.isNone

/-- CONTEXT_RESTORE (R191). -/
def execContextRestore (core : Nat) (s : State) : Host.Outcome State Fault Refusal :=
  .next (if s.canRestore core && ((s.core core).service == .inService || (s.core core).service == .restore) then
    s.restoreCore core
  else s)

end Sys2Proof.Machine
end

