-- ==== Sys2Proof/Machine/Preempt.lean ====
section
/-!
DEFINITION. The prompter's part in faults and pre-emptions: fault records and answers (R181, R184 to R186,
R194), the end of blocks (R302, R349), pre-emption (R187 to R190), and the cut that saves a launch (R366).
-/
namespace Sys2Proof.Machine

/-! ### The fault queue (R181, R185) -/

/-- Records that hold a waiting fault's lanes. -/
def FaultWait.holds (w : FaultWait) (r : CueRec) : Bool := r.halted == some (haltMark w.wid)

/-- The disposition of a waiting fault whose path was saved meanwhile acts on its records (R185, R190). -/
def State.disposeSaved (s : State) (w : FaultWait) (seq : Nat) : State :=
  let c := w.record.core
  let own := s.ownerOf c w.blk
  let put (f : CueRec → CueRec) (s : State) : State := s.modCore c fun k =>
    { k with cue := k.cue.map fun (r : CueRec) => if w.holds r then f r else r }
  match w.record.disp with
  | 2 => s.applyDisposition w seq
  | 1 =>
    let s := match w.key with
      | .pages vas => vas.foldl (fun (s : State) va => s.requestPage own.1 own.2 va) s
      | _ => s
    let ids := ((s.core c).cue.filter w.holds).map (·.rid)
    let s := put (fun r => { r with
      halted := none, key := w.key, faultMask := w.record.mask, faultAddr := w.record.addr, faultPort := w.record.port
      faultExt := w.record.extWords }) s
    if w.final then s.failRecords c fun r => ids.contains r.rid else s
  | _ =>
    let s := put (fun r => { r with halted := some seq }) s
    { (s.modBlock c w.blk fun x => { x with halted := true }) with
      halts := s.halts ++ [{ seq := seq, core := c, blk := w.blk, troupe := w.record.troupe, mask := w.lanes
                             code := w.record.code, next := w.next, engine := w.engine }] }

/-- A waiting fault writes its record, and its disposition acts; the lanes of one whose path was saved meanwhile are in
their records already. -/
def State.writeWaiting (s : State) (w : FaultWait) : State :=
  let seq := s.faultSeq
  let s := { s with faultWait := s.faultWait.erase w }
  if (s.core w.record.core).cue.any w.holds then
    (s.postRecord w.record (s.ownerOf w.record.core w.blk).1).disposeSaved w seq
  else
    let w := s.fitted w
    (s.postRecord w.record (s.ownerOf w.record.core w.blk).1).applyDisposition w seq

/-- Waiting faults write their records in order while there is room. -/
def State.drainWaiting : Nat → State → State
  | 0, s => s
  | n + 1, s =>
    match s.faultWait with
    | w :: _ => if s.faultRoom w.record.ext then State.drainWaiting n (s.writeWaiting w) else s
    | [] => s

/-- FAULT_RECORD_CONSUMED (R181, R185): the prompter consumes the `n` oldest records. -/
def execFaultRecordConsumed (n : Nat) (s : State) : Host.Outcome State Fault Refusal :=
  let s := { s with faultQ := s.faultQ.drop n }
  .next (s.drainWaiting s.faultWait.length)

/-! ### Fault answers (R184, R186, R194) -/

/-- The delivered fault that an answer names. -/
def State.haltOf (s : State) (seq : Nat) : Option Halt := s.halts.find? fun h => h.seq == seq

/-- A fault that accepts only SAVE and KILL (R184). -/
def Halt.onlyKill (h : Halt) : Bool := isDecodeCode h.code || h.code == codeMismatch

/-- KILL: the fault counts, and the block goes (R184). -/
def State.answerKill (s : State) (h : Halt) : State := (s.countFault h.core h.blk).killBlock h.core h.blk

/-- A block that goes on runs the release that its halt has held back, with the %fmode that was kept (R184, R188,
R316). -/
def State.releaseKept (s : State) (c b : Nat) : State :=
  match (s.core c).block b with
  | some x =>
    match x.keptFmode with
    | some f =>
      if x.halted || x.saved || (s.core c).preempt.isSome then s
      else (s.releaseDue c b f).modBlock c b fun x => { x with keptFmode := none }
    | none => s
  | none => s

/-- A RESUME or SKIP returns from its fault. -/
def State.answerReturn (s : State) (h : Halt) (skip : Bool) : State := (s.returnFromFault h skip).releaseKept h.core h.blk

/-- FAULT_ANSWER_RESUME (R184, R186). -/
def execFaultAnswerResume (seq : Nat) (s : State) : Host.Outcome State Fault Refusal :=
  match s.haltOf seq with
  | none => .next s
  | some h => .next (if h.onlyKill then s.answerKill h else s.answerReturn h false)

/-- FAULT_ANSWER_SKIP (R184, R186): for TRAPINSN and BKPT only. -/
def execFaultAnswerSkip (seq : Nat) (s : State) : Host.Outcome State Fault Refusal :=
  match s.haltOf seq with
  | none => .next s
  | some h => .next (if h.code == codeTrapInsn || h.code == codeBkpt then s.answerReturn h true else s.answerKill h)

/-- Spill one record, when the wings area has room (R125). -/
def Core.spillRecord (k : Core) (rid : Nat) : Core :=
  match k.cue.find? fun r => r.rid == rid && !r.spilled with
  | some r =>
    match k.wingsGap (k.sizeOf r) with
    | some a => k.spillAt r a
    | none => k
  | none => k

/-- Spill the frame of one troupe, when the wings area has room (R125). -/
def Core.spillFrame (k : Core) (b i : Nat) : Core :=
  match k.troupe b i with
  | some t =>
    if t.framed && !t.frameSpilled then
      match k.wingsGap frameSize with
      | some a => k.spillFrameAt t a
      | none => k
    else k
  | none => k

/-- Every record and troupe frame of some blocks stands in the wings area. -/
def Core.spilledAll (k : Core) (test : Nat → Bool) : Bool :=
  (k.cue.all fun r => !test r.blk || r.spilled) && k.troupes.all fun t => !test t.blk || !t.framed || t.frameSpilled

/-- Spill every record and troupe frame of some blocks (R186, R389). -/
def Core.spillBlocks (k : Core) (test : Nat → Bool) : Core :=
  let k := ((k.cue.filter fun r => test r.blk).map (·.rid)).foldl Core.spillRecord k
  ((k.troupes.filter fun t => test t.blk).map fun t => (t.blk, t.idx)).foldl (fun k x => k.spillFrame x.1 x.2) k

/-- FAULT_ANSWER_SAVE (R186): the block's parts go to the save area and every record and frame of it to the wings area;
it stays halted. DESIGN CHOICE (entry 88): R186 does not say what happens where the wings area has no room for them; as
R190 has it, the core then reports the condition, and the save is made once the area has been enlarged and SAVE is
answered again. -/
def execFaultAnswerSave (seq : Nat) (s : State) : Host.Outcome State Fault Refusal :=
  match s.haltOf seq with
  | none => .next s
  | some h =>
    let k := (s.core h.core).spillBlocks fun b => b == h.blk
    if !(k.spilledAll fun b => b == h.blk) then .next s.report
    else if ((s.core h.core).block h.blk).any (·.saved) then .next (s.setCore h.core k)
    else
      let slots := ((s.core h.core).savedSlots.filter fun b => b != h.blk) ++ [h.blk]
      .next ((((s.setCore h.core k).saveAccumulators h.core).saveParts h.core h.blk).saveHeader h.core slots)

/-- FAULT_ANSWER_KILL (R184). -/
def execFaultAnswerKill (seq : Nat) (s : State) : Host.Outcome State Fault Refusal :=
  match s.haltOf seq with
  | none => .next s
  | some h => .next (s.answerKill h)

/-- The entries that a step back by `n` instructions undoes, and those that stay (R194): what a relaunch has logged goes
back with the instruction that departed. -/
def stepEntries : Nat → List Undo → List Undo × List Undo
  | _, [] => ([], [])
  | 0, es => ([], es)
  | n + 1, e :: t =>
    let r := stepEntries (if e.boundary || e.more then n + 1 else n) t
    (e :: r.1, r.2)

/-- Old bytes of local stores of a saved block go back where its window stands: in the save area (R192). -/
def State.undoSaved (s : State) (c : Nat) (cells : List Host.Cell) : State :=
  cells.foldl (fun s x => s.devWrite ((s.core c).saveArea + saveLocalOff + x.1) [x.2]) s

/-- Step a troupe back (R193, R194). The window and the contexts of a saved block stand in the save area. -/
def State.stepBack (s : State) (c b i n : Nat) : State :=
  match (s.core c).logOf b i with
  | none => s
  | some u =>
    let r := stepEntries n u.entries
    let s := s.modCore c fun k =>
      (r.1.foldl (fun (k : Core) e => k.undoEntry b i false e) k).modLog b i fun x =>
        { x with entries := r.2, written := x.written - weightOf r.1, globalSkew := x.globalSkew || r.1.any (·.skew) }
    if ((s.core c).block b).any (·.saved) then
      (r.1.foldl (fun s e => s.undoSaved c e.oldLocal) s).saveCtxs c b
    else s

/-- FAULT_ANSWER_STEPBACK (R186, R194): the block stays halted. -/
def execFaultAnswerStepback (seq n : Nat) (s : State) : Host.Outcome State Fault Refusal :=
  match s.haltOf seq with
  | none => .next s
  | some h =>
    .next (if h.onlyKill then s.answerKill h
      else if s.debugs h.core h.blk && !h.engine then s.stepBack h.core h.blk h.troupe n
      else s)

/-! ### The end of a block (R359, R373, R392) -/

/-- A context of a block has a push that waits to be performed. -/
def Core.owesOf (k : Core) (b : Nat) : Bool := k.ctxs.any fun x => (x.owner.map (·.1)) == some b && x.owes

/-- The copies, matrix commands, waiting pushes and AtomicOps of an ending block are finished (R102, R143, R302). -/
def State.blockIdle (s : State) (c b : Nat) : Bool :=
  let k := s.core c
  !k.owesOf b && (s.hostOps.all fun o => !(o.core == c && o.blk == b)) &&
  let waits := match k.block b with
    | some x => x.relq.takeWhile fun (r : Released) => !r.failed
    | none => []
  waits.isEmpty && (k.copies.all fun o => match o with
    | some x => x.blk != b
    | none => true) && (s.pair (c / 2)).queue.all fun x => !(x.core == c && x.blk == b)

/-- A block counts as done: its resources are free, and it counts for its launch. A halt of one of its engines ends
with it. -/
def State.releaseBlock (s : State) (c b : Nat) (x : Block) : State :=
  let s := s.modCore c fun k => { (k.freeCtxs b).sweepStreams with blocks := k.blocks.set b none }
  let s := { s with
    halts := s.halts.filter fun h => !(h.core == c && h.blk == b)
    faultWait := s.faultWait.filter fun w => !(w.record.core == c && w.blk == b) }
  let n := x.withdrawn + if x.retrying then 0 else 1
  (s.modLaunch x.launch fun l =>
    { l with ended := l.ended + n, done := l.done + if x.killed then 0 else n }).freeChildren [x.launch]

/-! ### Pre-emption (R187, R188, R190, R348, R378) -/

/-- The cores that are used, retired and rotated with core `c`: itself, or both of a checked pair, the leader's
first (R382, R384). -/
def State.together (s : State) (c : Nat) : List Nat :=
  if (s.checkedPair (c / 16)).checked then [c / 16 * 16 + c % 8, c / 16 * 16 + 8 + c % 8] else [c]

/-- Some cores begin SCAN: the launches with no block on them will have passed the slot (R368, R370). -/
def State.enterScan (s : State) (c : Nat) : State :=
  let cs := s.together c
  let none_ (l : Launch) : Bool := !((s.blocksOf (s.family l.id)).any fun x => cs.contains x.1)
  let ids := (s.sched.launches.filter fun l => l.parent.isNone && none_ l).map (·.id)
  cs.foldl (fun s c => s.modCore c fun k => { k with service := .scan, scanFor := ids }) s

/-- PREEMPT_REQUEST (R187). -/
def execPreemptRequest (cores : List Nat) (s : State) : Host.Outcome State Fault Refusal :=
  let p : Preempt :=
    { cores := cores, thread := false, stream := false, copy := false, matrix := false, waitingRoom := false, held := [] }
  .next { s with cores := s.cores.mapIdx fun c (k : Core) =>
    if cores.contains c && k.preempt.isNone && !k.retired then { k with preempt := some p } else k }

/-- An engine of a core is at its stop unit (R188, R348, R378). -/
def State.engineQuiet (s : State) (c : Nat) : Engine → Bool
  | .thread =>
    let k := s.core c
    ((List.range Config.blockSlots).all fun b => k.pathsStopped b) && k.cue.all fun r => match r.key with
      | .mailbox _ => r.ready
      | _ => true
  | .stream => true
  | .copy => (s.core c).copies.all Option.isNone
  | .matrix =>
    if c % 2 = 0 then (s.pair (c / 2)).queue.isEmpty
    else (s.pair (c / 2)).queue.all fun x => !(x.started && x.op.follower)

/-- Every engine of a core has acknowledged, and none has been set going again since. -/
def State.coreStopped (s : State) (c : Nat) : Bool :=
  match (s.core c).preempt with
  | some p =>
    p.thread && p.stream && p.copy && p.matrix && s.engineQuiet c .thread && s.engineQuiet c .copy && s.engineQuiet c .matrix
  | none => true

/-- A stopped core saves its context, or waits for room (R190). A core in STOP then goes to SCAN (R368). -/
def State.savePreempted (s : State) (c : Nat) : State :=
  match (s.core c).preempt with
  | none => s
  | some p =>
    match s.saveBlocks c (s.core c).toSave with
    | some s =>
      let s := s.modCore c fun k => { k with preempt := none }
      if (s.core c).service == .stop then s.enterScan c else s
    | none =>
      if p.waitingRoom then s
      else (s.modCore c fun k => { k with preempt := some { p with waitingRoom := true } }).report

/-- The collector declares the pre-emption complete when it holds every acknowledgement (R188). -/
def State.collect (s : State) (c : Nat) : State :=
  match (s.core c).preempt with
  | none => s
  | some p => if p.cores.all s.coreStopped then p.cores.foldl State.savePreempted s else s

/-- An acknowledgement. -/
def Preempt.ack (p : Preempt) : Engine → Preempt
  | .thread => { p with thread := true }
  | .stream => { p with stream := true }
  | .copy => { p with copy := true }
  | .matrix => { p with matrix := true }

/-- PREEMPT_ACK (R188). -/
def execPreemptAck (core : Nat) (engine : Engine) (s : State) : Host.Outcome State Fault Refusal :=
  if s.engineQuiet core engine then
    .next ((s.modCore core fun k => { k with preempt := k.preempt.map fun p => p.ack engine }).collect core)
  else .next s

/-- A save that waits for room is tried again (R190). -/
def State.retrySave (s : State) (c : Nat) : State :=
  match (s.core c).preempt with
  | some p => if p.waitingRoom then s.savePreempted c else s.collect c
  | none => s

/-- BLOCK_DONE (R88, R302, R349). A block being cancelled is first killed, once its paths are stopped (R367); a
save that waited for room goes on without a killed block (R190). -/
def execBlockDone (core slot : Nat) (s : State) : Host.Outcome State Fault Refusal :=
  let s := s.killCancelled core slot
  match (s.core core).block slot with
  | some x =>
    .next (if x.ending then (if s.blockIdle core slot then s.releaseBlock core slot x else s).retrySave core else s)
  | none => .next s

/-- Every running lane of a block stops where it stands (R367). -/
def Core.stopBlock (k : Core) (b : Nat) : Core :=
  { k with
    troupes := k.troupes.map fun (t : Troupe) =>
      if t.blk == b then { t with lanes := t.lanes.map fun (l : Lane) => if l.running then { l with stopped := true } else l }
      else t }

/-- The block's launch is being cut (R366). -/
def State.cutting (s : State) (c b : Nat) : Bool :=
  match s.launchOf c b with
  | some l => l.cut.isSome
  | none => false

/-- The paths of a block that still run (R188). -/
def Core.runningPaths (k : Core) (c b : Nat) : List Issue :=
  (k.troupes.filter fun t => t.blk == b).flatMap fun t =>
    (t.pcs.filter fun pc => !k.heldAcross t pc).map fun pc =>
      { core := c, blk := b, troupe := t.idx, lanes := t.group pc, pc := pc }

/-- The departed paths of a block whose troupes are short of the target of their launch's cut (R366). -/
def State.shortPaths (s : State) (c b : Nat) : List Issue :=
  match (s.launchOf c b).bind (·.cut) with
  | some target =>
    ((s.core c).cue.filter fun r => r.blk == b && match (s.core c).troupe b r.troupe with
      | some t => t.step.toNat < target
      | none => false).map fun r => { core := c, blk := b, troupe := r.troupe, lanes := r.mask, pc := r.resume }
  | none => []

/-- Paths that PREMAX finds short of where they should stop are reported to the prompter, with their block (R188,
R366). -/
def State.reportPaths (s : State) (paths : List Issue) : State :=
  if paths.isEmpty then s else { s.report with late := s.late ++ paths }

/-- PREMAX_EXPIRY (R188, R366, R367): the paths that have not reached a region entry are reported, and under a cut the
departed ones whose troupes are short of its target; a block being cancelled is stopped where it stands, and killed. -/
def execPremaxExpiry (core slot : Nat) (s : State) : Host.Outcome State Fault Refusal :=
  match (s.core core).block slot with
  | none => .next s
  | some x =>
    let late := (s.core core).runningPaths core slot
    if x.cancelling then
      .next (if (s.core core).pathsStopped slot then s else (s.modCore core fun k => k.stopBlock slot).killCancelled core slot)
    else if s.cutting core slot then .next (s.reportPaths (late ++ s.shortPaths core slot))
    else if (s.core core).preempt.isSome then .next (s.reportPaths late)
    else .next s

/-- The default size of a wings area, by which the prompter enlarges it, and the room that the model's layout leaves to
each (R126, entry 4). -/
def wingsStep : Nat := 16777216
def wingsRoom : Nat := 2 ^ 28

/-- SAVE_ROOM_AVAILABLE (R126, R190): the prompter has enlarged the wings area, and a save that waits for room is tried
again. -/
def execSaveRoomAvailable (core : Nat) (s : State) : Host.Outcome State Fault Refusal :=
  .next ((s.modCore core fun k => { k with wingsSize := min (k.wingsSize + wingsStep) wingsRoom }).retrySave core)

/-- PROMPTER_KILL (R188, R190): a block that has not stopped, or whose save waits for room, is killed. -/
def execPrompterKill (core slot : Nat) (s : State) : Host.Outcome State Fault Refusal :=
  match (s.core core).preempt, (s.core core).block slot with
  | some p, some x =>
    .next (if !x.ending && !x.saved && (p.waitingRoom || !(s.core core).pathsStopped slot) then
      (s.killBlock core slot).retrySave core
    else s)
  | _, _ => .next s

/-! ### The end of a cut (R366) -/

/-- Every troupe of a cut launch's placed blocks has stopped with %step at the target. -/
def State.cutReached (s : State) (id target : Nat) : Bool :=
  (s.blocksOf (s.family id)).all fun x =>
    (s.core x.1).pathsStopped x.2 && s.blockIdle x.1 x.2 &&
      (s.core x.1).troupes.all fun t => t.blk != x.2 || target ≤ t.step.toNat

/-- Save the blocks of some launches, core by core. -/
def State.saveFamily (s : State) (id : Nat) : Option State :=
  let blocks := s.blocksOf (s.family id)
  let cores := (blocks.map (·.1)).eraseDups
  cores.foldl
    (fun (o : Option State) c => o.bind fun s =>
      s.saveBlocks c ((blocks.filter fun x => x.1 == c).map (·.2) |>.filter fun b => (s.core c).toSave.contains b))
    (some s)

/-- CUT_COMPLETE (R366): the cores save, and the position is written as under drain. -/
def execCutComplete (launch : Nat) (addr : DWord) (s : State) : Host.Outcome State Fault Refusal :=
  match (s.launch launch).bind fun l => l.cut with
  | none => .next s
  | some target =>
    if s.cutReached launch target then
      match s.saveFamily launch with
      | some s =>
        let ids := s.family launch
        .next ((s.modSched fun q => { q with
          launches := q.launches.map fun l =>
            if ids.contains l.id then { l with cut := none, draining := if l.id == launch then some addr else l.draining }
            else l }).devWrite addr.toNat (s.positionBytes launch))
      | none => .next s.report
    else .next s

end Sys2Proof.Machine
end

