-- ==== Sys2Proof/Machine/HostSide.lean ====
section
/-!
DEFINITION. The time-slot table (R20 to R22), partitions with merge and split (R419 to R421), key slots (R426),
page requests and shoot-down (R416 to R418), and the requests that cross the host link (R256, R412, R433).
-/
namespace Sys2Proof.Machine

/-! ### The time-slot table (R21, R22) -/

/-- A partition's front end is closed, or it has none (R22, R419). -/
def State.quiet (s : State) (p : Nat) : Bool := !(s.part p).en || (s.part p).quiesced

/-- Entry `i` as the accepted writes will leave it. -/
def State.slotNext (s : State) (i : Nat) : Byte :=
  (s.slotPending.foldl (fun b x => if x.1 == i then x.2 else b) (s.slotTab.getD i 0))

/-- TIME_SLOT_WRITE (R22): accepted while every partition whose slots change is quiesced. DESIGN CHOICE: a slot that is
and stays IDLE serves no partition, and a change of its OWNER changes no partition's slots for this check; R421 gives
such a slot away by its OWNER field (State.slotsOf). The spec says neither. -/
def execTimeSlotWrite (slot : Nat) (value : Byte) (s : State) : Host.Outcome State Fault Refusal :=
  let new := value &&& 0x0F
  let old := s.slotNext slot
  let changed := if slotOwner old = slotOwner new then [] else (slotOwner old).toList ++ (slotOwner new).toList
  .next (if slot < 64 && changed.all s.quiet then { s with slotPending := s.slotPending ++ [(slot, new)] } else s.report)

/-- Accepted writes take effect. -/
def State.applySlots (s : State) : State :=
  { s with slotTab := s.slotPending.foldl (fun t x => t.set x.1 x.2) s.slotTab, slotPending := [] }

/-- A command of MGMTBOX completes (R413, R414). -/
def State.mgmtDone (s : State) (v : MgmtStatus) : State := { s with mgmt := v }.signal 0 0

/-- FRAME_BOUNDARY (R22, and step 7 of R421). -/
def execFrameBoundary (s : State) : Host.Outcome State Fault Refusal :=
  let s := s.applySlots
  .next (if s.reopening.isEmpty then s
  else
    { (s.reopening.foldl (fun (s : State) p => s.modPart p fun q => { q with quiesced := false }) s) with reopening := [] }.mgmtDone .done)

/-! ### Partition registers (R419) -/

/-- Clusters of a range, as a mask. -/
def rangeMask (lo hi : Nat) : BitVec 16 := BitVec.ofNat 16 (((List.range 16).filter fun c => lo ≤ c && c ≤ hi).map fun c => 2 ^ c).sum

/-- Set bits of a colour mask. -/
def colourCount (c : DWord) : Nat := ((List.range 64).filter fun b => c.getLsbD b).length

/-- A number of banks that a partition may own (R419). -/
def bankCount (n : Nat) : Bool := [1, 2, 4, 8, 16, 32, 64].contains n

/-- An enabled partition's registers meet R419 by themselves. -/
def Partition.sound (p : Partition) : Bool :=
  !p.en || (bankCount (colourCount p.colour) && p.fbnd == rangeMask p.clbase.toNat p.cllimit.toNat && p.clbase.toNat ≤ p.cllimit.toNat)

/-- Two enabled partitions share no cluster and no bank (R419). -/
def Partition.apart (p q : Partition) : Bool :=
  !p.en || !q.en || ((p.cllimit.toNat < q.clbase.toNat || q.cllimit.toNat < p.clbase.toNat) && p.colour &&& q.colour == 0)

/-- The registers of all partitions meet the conditions of R419. -/
def partsSound (ps : List Partition) : Bool := ps.all Partition.sound && decide (ps.Pairwise fun p q => p.apart q = true)

/-- A partition with the register at an offset written, where there is one that can be written (R419). -/
def Partition.write (p : Partition) (off : Nat) (v : DWord) : Option Partition :=
  let n := v.toNat
  match off with
  | 0 => some { p with en := v.getLsbD 0 }
  | 4 => some { p with cllimit := BitVec.ofNat 4 (bitsOf n 11 8), clbase := BitVec.ofNat 4 (bitsOf n 3 0) }
  | 8 => some { p with colour := v }
  | 16 => some { p with fbnd := BitVec.ofNat 16 n }
  | 24 => some { p with proot := v }
  | _ => none

/-- The TDI freezes the partition's registers (R425). -/
def Partition.frozen (p : Partition) : Bool := p.tdi == .locked || p.tdi == .run

/-- PARTITION_REG_WRITE (R419, R425). -/
def execPartitionRegWrite (part off : Nat) (value : DWord) (s : State) : Host.Outcome State Fault Refusal :=
  let p := s.part part
  match p.write off value with
  | none => .next s
  | some q =>
    .next (if part < 8 && !(p.en && !p.quiesced) && !p.frozen && partsSound (s.parts.set part q) then s.modPart part fun _ => q
    else s.report)

/-- BUSY (R419). -/
def State.busy (s : State) (p : Nat) : Bool :=
  ((List.range 8).any fun i => !(s.sched.queue (8 * p + i)).recs.isEmpty) || !(s.jobsOf p).isEmpty ||
    (s.pri.any fun r => r.part == p) ||
    !(s.blocksOf ((s.sched.launches.filter fun l => l.part == p).map (·.id))).isEmpty

/-! ### Owners (R109, R323) -/

/-- The owner records of some cores, and of their pairs' cells, are set to none (R109, R323). -/
def State.disown (s : State) (cs : List Nat) : State :=
  cs.foldl
    (fun s c => (s.modCore c fun k => { k with owners := k.owners.map fun _ => none }).modPair (c / 2) fun q => { q with owner := none }) s

/-! ### Merge and split (R421) -/

/-- Step 4: translations of some partitions leave the device translation cache and every core TLB. -/
def State.shootPartitions (s : State) (ps : List Nat) : State :=
  let keep (e : TlbEntry) : Bool := !ps.contains e.part
  { s with
    dtc := s.dtc.filter keep
    cores := s.cores.map fun (k : Core) => { k with tlb := k.tlb.filter keep } }

/-- Step 2: a partition may be merged or split. -/
def State.mergeable (s : State) (p : Nat) : Bool := (s.part p).en && !s.busy p && (s.part p).tdi == .unlocked

/-- The key slots of a partition lose V (R421, R425). -/
def State.dropKeys (s : State) (p : Nat) : State :=
  { s with
    cores := s.cores.map fun (k : Core) =>
      { k with keys := k.keys.map fun (x : KeySlot) => if x.part.toNat == p then { x with v := false } else x } }

/-- The key slots of a partition are cleared. -/
def State.clearKeys (s : State) (p : Nat) : State :=
  { s with
    cores := s.cores.map fun (k : Core) =>
      { k with keys := k.keys.map fun (x : KeySlot) => if x.v && x.part.toNat == p then KeySlot.reset else x } }

/-- Step 6: a partition's key slots, QCFG registers and job table are cleared, and with a merge or a split that clears a
partition its queues' acceptance numbers start at zero again (R352). -/
def State.clearPartition (s : State) (p : Nat) : State :=
  let s := (List.range 8).foldl (fun s i => s.modQueue (8 * p + i) fun q => { q with qcfg := 0, seq := 0 }) (s.clearKeys p)
  s.modSched fun q => { q with jobs := q.jobs.filter fun j => j.part != p }

/-- Slots of the time-slot table that a partition owns, as accepted writes leave it. -/
def State.slotsOf (s : State) (p : Nat) : List Nat := (List.range 64).filter fun i => bitsOf (s.slotNext i).toNat 2 0 == p

/-- Give some slots to a partition at the next frame boundary; IDLE stays. -/
def State.giveSlots (s : State) (is : List Nat) (p : Nat) : State :=
  { s with slotPending := s.slotPending ++ is.map fun i => (i, (s.slotNext i &&& 0x08) ||| BitVec.ofNat 8 p) }

/-- Step 5: partition `a` takes the clusters and banks of `b`. -/
def Partition.join (a b : Partition) : Partition :=
  { a with
    cllimit := b.cllimit, colour := a.colour ||| b.colour, fbnd := rangeMask a.clbase.toNat b.cllimit.toNat, quiesced := true }

/-- What is left of a partition that was merged into another: EN 0, every other field 0, QUIESCED 1. -/
def Partition.merged (p : Partition) : Partition :=
  { Partition.reset 1 with quiesced := true, ideActive := p.ideActive, ideNext := p.ideNext }

/-- MERGE (R421); step 7 waits for the frame boundary. -/
def execMerge (a b : Nat) (s : State) : Host.Outcome State Fault Refusal :=
  let p := s.part a
  let q := s.part b
  let j := p.join q
  if a < b && b < 8 && s.mergeable a && s.mergeable b && p.cllimit.toNat + 1 == q.clbase.toNat && bankCount (colourCount j.colour) then
    let s := s.disown (s.coresOf a ++ s.coresOf b)
    let s := s.giveSlots (s.slotsOf b) a
    let s := (s.shootPartitions [a, b]).clearPartition b
    .next { ((s.modPart a fun _ => j).modPart b fun q => q.merged) with reopening := s.reopening ++ [a] }
  else .next (s.mgmtDone .refused)

/-- The half of a partition that keeps its number. -/
def Partition.lower (p : Partition) (first : Nat) (colour : DWord) : Partition :=
  { p with
    cllimit := BitVec.ofNat 4 (first - 1), colour := p.colour &&& ~~~colour, fbnd := rangeMask p.clbase.toNat (first - 1), quiesced := true }

/-- The half that becomes partition `b`. -/
def Partition.upper (b p : Partition) (first : Nat) (colour : DWord) : Partition :=
  { b with
    en := true, quiesced := true, tdi := .unlocked, clbase := BitVec.ofNat 4 first, cllimit := p.cllimit, colour := colour
    fbnd := rangeMask first p.cllimit.toNat, proot := 0 }

/-- SPLIT (R421): steps 1 to 4 on partition `a`, which is then divided: partition `b` takes the clusters from
`first` on, the banks of `colour` and the slots whose bits are set in `slots`. -/
def execSplit (a b first : Nat) (colour slots : DWord) (s : State) : Host.Outcome State Fault Refusal :=
  let p := s.part a
  let lower := p.lower first colour
  let upper := (s.part b).upper p first colour
  let given := (List.range 64).filter fun i => slots.getLsbD i
  if a < 8 && b < 8 && a != b && s.mergeable a && !(s.part b).en && p.clbase.toNat < first && first ≤ p.cllimit.toNat &&
      colour &&& ~~~p.colour == 0 && bankCount (colourCount colour) && bankCount (colourCount lower.colour) &&
      given.all fun i => (s.slotsOf a).contains i then
    let s := (s.disown (s.coresOf a)).giveSlots given b
    let s := (s.shootPartitions [a]).clearPartition b
    .next { ((s.modPart a fun _ => lower).modPart b fun _ => upper) with reopening := s.reopening ++ [a, b] }
  else .next (s.mgmtDone .refused)

/-! ### Key slots (R300, R426) -/

/-- A valid slot of some core holds this key and salt. -/
def State.keyInUse (s : State) (key : BitVec 256) (salt : Word) : Bool :=
  s.cores.any fun k => k.keys.any fun x => x.v && x.key == key && x.salt == salt

/-- KEYSET (R426). -/
def execKeyset (vf core slot : Nat) (pasid : BitVec 20) (key : BitVec 256) (salt : Word) (ctr : DWord) (s : State) :
    Host.Outcome State Fault Refusal :=
  let p := vf - 1
  if 1 ≤ vf && vf ≤ 8 && s.spdmSession && (s.part p).tdi == .run && (s.coresOf p).contains core && slot < 64 &&
      !s.keyInUse key salt then
    .next ((s.modCore core fun k => { k with
      keys := k.keys.set slot { v := true, part := BitVec.ofNat 3 p, pasid := pasid, key := key, salt := salt, ctr := ctr } }).mgmtDone
        .done)
  else .next (s.mgmtDone .error)

/-! ### Shoot-down (R246, R418) -/

/-- A translation lies in a range of an owner. -/
def TlbEntry.touches (e : TlbEntry) (part pasid va size : Nat) : Bool :=
  e.part == part && e.pasid == pasid && e.x.va < va + size && va < e.x.va + e.x.size

/-- A virtual function of the endpoint (R412). -/
def isVf (vf : Nat) : Bool := decide (1 ≤ vf) && decide (vf ≤ 8)

/-- Invalidations that may be outstanding (R412). -/
def invalEntries : Nat := 32

/-- ATS_INVALIDATION (R246, R418): the translations of the range leave the device translation cache and every core TLB,
and the host gives them no more; the completion waits for the accesses that had translated. DESIGN CHOICE (entry 92): an
invalidation beyond the 32 that R412 supports, or at PF0, is not performed and is reported through AER. -/
def execAtsInvalidation (vf pasid va size : Nat) (s : State) : Host.Outcome State Fault Refusal :=
  let p := vf - 1
  let keep (e : TlbEntry) : Bool := !e.touches p pasid va size
  .next (if !isVf vf || invalEntries ≤ s.invals.length then { s with aer := s.aer + 1 }
  else
    { s with
      dtc := s.dtc.filter keep
      cores := s.cores.map fun (k : Core) => { k with tlb := k.tlb.filter keep }
      iommu := s.iommu.filter fun a => !(a.part == p && a.pasid == pasid && a.va < va + size && va < a.va + a.size)
      invals := s.invals ++ [{ vf := vf, pasid := pasid, va := va, size := size }] })

/-- A deferred access that has not performed translated through a range: it waits for a poisoned sector (R251). -/
def Deferred.through (d : Deferred) (va size : Nat) : Bool :=
  !d.returned && d.pieces.any fun h => match h.x with
    | some x => x.va < va + size && va < x.va + x.size
    | none => false

/-- Accesses that had translated through the range of an invalidation have not performed yet (R246): AtomicOps on their way
to the host, and deferred loads that wait for a repair. A held push and a copy translate again (R418). -/
def State.invalWaits (s : State) (v : Inval) : Bool :=
  let own : Nat × Nat := (v.vf - 1, v.pasid)
  (s.hostOps.any fun o => s.ownerOf o.core o.blk == own && v.va ≤ o.va && o.va < v.va + v.size) ||
    (List.range Config.numCores).any fun c => (s.core c).troupes.any fun t =>
      s.ownerOf c t.blk == own && t.deferred.any fun d => d.through v.va v.size

/-- The invalidations that can complete, and those that cannot: two of one function complete in order (R418). -/
def State.invalSplit (s : State) : List Inval → List Nat → List Nat × List Inval
  | [], _ => ([], [])
  | v :: t, behind =>
    if behind.contains v.vf || s.invalWaits v then
      let r := s.invalSplit t (v.vf :: behind)
      (r.1, v :: r.2)
    else
      let r := s.invalSplit t behind
      (v.vf :: r.1, r.2)

/-- Invalidation Completions are sent for what has performed (R246, R418). -/
def State.completeInvals (s : State) : State :=
  if s.invals.isEmpty then s
  else
    let r := s.invalSplit s.invals []
    { s with invals := r.2, invalAcks := s.invalAcks ++ r.1 }

/-! ### Page requests (R416, R417) -/

/-- Requests that wait take the entries that have become free, in order (R416). -/
def State.sendWaiting (s : State) : State :=
  (s.pri.map (·.index)).foldl
    (fun s i => match s.pri.find? fun r => r.index == i with
      | some r =>
        if !r.sent && s.priRoom r.part then
          { s with pri := s.pri.map fun (x : PageRequest) => if x.index == i then { x with sent := true } else x }
        else s
      | none => s) s

/-- The outstanding request with a group index. -/
def State.requestOf (s : State) (index : Nat) : Option PageRequest := s.pri.find? fun r => r.index == index && r.sent

/-- A request has been answered. -/
def State.dropRequest (s : State) (index : Nat) : State :=
  { s with pri := s.pri.filter fun r => r.index != index }.sendWaiting

/-- What was known of a page is forgotten: it is translated again (R417). -/
def State.forgetPage (s : State) (r : PageRequest) : State :=
  let keep (e : TlbEntry) : Bool := !e.touches r.part r.pasid r.va 4096
  { s with
    dtc := s.dtc.filter keep
    cores := s.cores.map fun (k : Core) => { k with tlb := k.tlb.filter keep } }

/-- A record waits for the answer about a page. -/
def State.awaitsPage (s : State) (c : Nat) (q : PageRequest) (r : CueRec) : Bool :=
  !r.ready && (s.ownerOf c r.blk) == (q.part, q.pasid) && match r.key with
    | .pages vas => vas.contains q.va
    | _ => false

/-- The copies of a core that wait for a page wait no more (R292). -/
def Core.copiesGo (k : Core) (va : Nat) (mine : Copy → Bool) : Core :=
  if k.copies.all Option.isNone then k
  else
    { k with copies := k.copies.map fun (o : Option Copy) => o.map fun (x : Copy) =>
        if mine x then { x with waits := x.waits.filter fun a => a != va } else x }

/-- PRG_RESPONSE_SUCCESS (R417): the host's new translation of the page; an index that matches no entry is
discarded. -/
def execPrgResponseSuccess (index : Nat) (answer : AtsAnswer) (s : State) : Host.Outcome State Fault Refusal :=
  match s.requestOf index with
  | none => .next s
  | some q =>
    let s := (s.dropRequest index).forgetPage q
    let s := { s with iommu := { answer with part := q.part, pasid := q.pasid } :: s.iommu }
    .next ((List.range Config.numCores).foldl
      (fun s c =>
        let s := s.modCore c fun k => k.copiesGo q.va fun x => s.ownerOf c x.blk == (q.part, q.pasid)
        if (s.core c).cue.isEmpty then s else s.modCore c fun k => k.pageDone q.va (s.awaitsPage c q)) s)

/-- A copy waits for the answer about a page (R292). -/
def State.copyAwaits (s : State) (c : Nat) (q : PageRequest) (x : Copy) : Bool :=
  x.flag.isNone && s.ownerOf c x.blk == (q.part, q.pasid) && x.waits.contains q.va

/-- The fault of a page is final (R417): RESFAIL for the records that wait for it, XLATE for the copies. -/
def State.pageFinal (s : State) (q : PageRequest) : State :=
  (List.range Config.numCores).foldl
    (fun s c =>
      let s := if (s.core c).cue.isEmpty then s else s.failRecords c (s.awaitsPage c q)
      let hit (o : Option Copy) : Option Copy := o.map fun (x : Copy) => if s.copyAwaits c q x then { x with flag := some flagXlate } else x
      if (s.core c).copies.all Option.isNone then s else s.modCore c fun k => { k with copies := k.copies.map hit }) s

/-- PRG_RESPONSE_INVALID (R417). -/
def execPrgResponseInvalid (index : Nat) (s : State) : Host.Outcome State Fault Refusal :=
  match s.requestOf index with
  | none => .next s
  | some q => .next ((s.dropRequest index).pageFinal q)

/-- PRG_RESPONSE_FAILURE (R417): every outstanding entry fails, and PRI stops. -/
def execPrgResponseFailure (s : State) : Host.Outcome State Fault Refusal :=
  let out := s.pri.filter (·.sent)
  let s := { s with pri := s.pri.filter fun r => !r.sent, priStopped := true }
  .next ((out.foldl State.pageFinal s).signal 0 5)

/-- PRI_REENABLE (R417). -/
def execPriReenable (s : State) : Host.Outcome State Fault Refusal := .next { s with priStopped := false }.sendWaiting

/-! ### AtomicOps and memory requests (R256, R412, R433) -/

/-- Put the old value of a lane into the data of an access. -/
def putOld (d : List RegData) (lane old : Nat) : List RegData :=
  d.mapIdx fun j x => { x with lanes := x.lanes.set lane (BitVec.ofNat 32 (old / 2 ^ (32 * j))) }

/-- The old value of a lane reaches the record or the deferred access that waits for it. -/
def Core.giveOld (k : Core) (rid lane old : Nat) : Core :=
  { k with
    cue := k.cue.map fun (r : CueRec) => if r.rid == rid then { r with data := putOld r.data lane old } else r
    troupes := k.troupes.map fun (t : Troupe) => { t with
      deferred := t.deferred.map fun (d : Deferred) => if d.rid == rid then { d with data := putOld d.data lane old } else d } }

/-- The host's completer performs an AtomicOp (R256). -/
def State.performOp (s : State) (o : HostOp) : State :=
  let size := if o.w64 then 8 else 4
  let old := s.hostMem.readNat o.addr size
  { s with hostMem := s.hostMem.writeNat o.addr size (atomNew o.op (8 * size) old o.value o.compare) }.modCore o.core fun k =>
    k.giveOld o.rid o.lane old

/-- A record of an access becomes KIND 2 records at its lanes' region entries, of a failed access. -/
def CueRec.toEntries (r : CueRec) (n code : Nat) (mask : Mask) (addr pc : DWord) : List CueRec :=
  let rea (l : Nat) : Nat := (r.lanes.getD l Lane.reset).rea.toNat
  let reas := ((r.mask.lanes.map rea).mergeSort (fun a b => decide (a ≤ b))).eraseDups
  reas.mapIdx fun i a =>
    { r with
      rid := n + i, mask := Mask.ofTest fun l => r.mask.has l && rea l == a, resume := BitVec.ofNat 64 a, kind := 2, rewind := true
      fault := code, faultMask := mask, faultAddr := addr, data := [], uresult := none, key := .none, peer := false
      lanes := r.lanes.map fun (x : Lane) => { x with pc := pc } }

/-- Bytes of the M format, in which every access that departs with data is encoded (R28). -/
def accessBytes : Nat := 12

/-- The access of a record has failed for good: RESFAIL, and its path waits at its region entries (R185). -/
def State.failAccess (s : State) (c : Nat) (r : CueRec) (code : Nat) (mask : Mask) (addr : DWord) : State :=
  let n := s.nextId
  let new := r.toEntries n code mask addr (r.resume - BitVec.ofNat 64 accessBytes)
  let s := { (s.modCore c fun k => { k with cue := (k.cue.filter fun x => x.rid != r.rid) ++ new }) with nextId := n + new.length }
  let s := (s.settleCue c).getD s
  s.failRecords c fun x => n ≤ x.rid && x.rid < n + new.length

/-- An AtomicOp completes with Unsupported Request or Completer Abort: ACCESS with RESFAIL, and the block halts.
The access sends no more (R256). -/
def State.failOp (s : State) (o : HostOp) : State :=
  let s := { s with hostOps := s.hostOps.filter fun x => !(x.core == o.core && x.rid == o.rid) }
  match (s.core o.core).cue.find? fun r => r.rid == o.rid with
  | some r => s.failAccess o.core r codeAccess (Mask.one o.lane) (BitVec.ofNat 64 o.va)
  | none => s.blockFault o.core o.blk codeAccess 0 true 0 (BitVec.ofNat 64 o.va) 0

/-- ATOMICOP_COMPLETION (R256): the first AtomicOp of an access completes. -/
def execAtomicopCompletion (core rid : Nat) (ok : Bool) (s : State) : Host.Outcome State Fault Refusal :=
  match s.hostOps.find? fun o => o.core == core && o.rid == rid with
  | none => .next s
  | some o => .next (if ok then { s with hostOps := s.hostOps.erase o }.performOp o else s.failOp o)

/-- RECEIVED_ATOMICOP (R412): it completes with Unsupported Request, and performs nothing. -/
def execReceivedAtomicop (_vf : Nat) (s : State) : Host.Outcome State Fault Refusal := .next { s with reply := .unsupported }

/-- Memory requests are admitted (R432, R433). -/
def State.admits (s : State) (a n : Nat) : Bool := s.dramReady && !s.tripped && decide (a + n ≤ s.capacity)

/-- HOST_MEMORY_REQUEST (R412, R433): a write performs, and a read completes with the bytes it asks for, as many as `data`
holds; neither completes before the reset zero fill. DESIGN CHOICE (entry 92): one beyond the memory that can be addressed
performs nothing, and a read completes with Unsupported Request. -/
def execHostMemoryRequest (_vf : Nat) (addr : DWord) (write : Bool) (data : List Byte) (s : State) :
    Host.Outcome State Fault Refusal :=
  .next (if !s.dramReady then s
  else if write then if s.admits addr.toNat data.length then s.devWrite addr.toNat data else s
  else
    { s with
      reply := if s.admits addr.toNat data.length then .success (s.dram.readBytes addr.toNat data.length) else .unsupported })

end Sys2Proof.Machine
end

