-- ==== Sys2Proof/Machine/Quench.lean ====
section
/-!
DEFINITION. The watchdog (R371), the quench slots (R368, R370, R384) and the retirement of lanes and cores that
they lead to (R393, R396, R397).
-/
namespace Sys2Proof.Machine

/-! ### The watchdog (R371) -/

/-- Every lane of a troupe that has not ended is in a record that an access over the link keys. -/
def Core.farOnly (k : Core) (t : Troupe) : Bool :=
  let mine (r : CueRec) : Bool := r.blk == t.blk && r.troupe == t.idx
  t.residents == 0 && k.cue.any mine && k.cue.all fun r => !mine r || r.peer

/-- The age of a troupe stands still: its block is saved, or the link is in recovery and all its time is time of records
that an access over the link keys. -/
def State.ageStands (s : State) (c : Nat) (x : Block) (t : Troupe) : Bool :=
  x.saved || (s.link.state == 3 && (s.core c).farOnly t)

/-- What a step that has taken the clock from `s` to `t` does not add to the ages of the troupes whose age stood while
the link was in recovery (R371). -/
def State.creditLink (t s : State) : State :=
  if s.link.state != 3 then t
  else
    let passed := t.clock.toNat - max s.clock.toNat s.link.since
    { t with
      cores := t.cores.mapIdx fun c (k : Core) => { k with
        troupes := k.troupes.map fun (x : Troupe) =>
          match (s.core c).troupe x.blk x.idx with
          | some y => if (s.core c).farOnly y then { x with away := x.away + passed } else x
          | none => x } }

/-- %clock at which a troupe's age first exceeds a deadline of so many microseconds, of 3200 cycles each (R6). -/
def Troupe.expires (t : Troupe) (deadline : Nat) : Nat := t.placedAt + t.away + 3200 * deadline + 1

/-- WATCHDOG (R371): time reaches the troupe's deadline, and the fault is raised once for its block under the
effective disposition. -/
def execWatchdog (core slot troupe : Nat) (s : State) : Host.Outcome State Fault Refusal :=
  match (s.core core).block slot, (s.core core).troupe slot troupe, s.launchOf core slot with
  | some x, some t, some l =>
    if l.deadline = 0 || x.ending || t.watched || s.ageStands core x t then .next s
    else
      let s := { s with clock := BitVec.ofNat 64 (max s.clock.toNat (t.expires l.deadline)) }
      .next ((s.modTroupe core slot troupe fun t => { t with watched := true }).blockFault core slot codeWatchdog
        (dispositionOf l codeWatchdog) false 0 0 0)
  | _, _, _ => .next s

/-! ### Retirement (R393, R396, R397) -/

/-- A core is retired: every block that holds state on it is killed with a fault record, DISP kill, and it leaves
every core set (R396). A block that waits there for its retry placement can be placed nowhere and has ended. -/
def State.retireCore (s : State) (c code : Nat) : State :=
  let live := (List.range Config.blockSlots).filter fun b => match (s.core c).block b with
    | some x => !x.ending
    | none => false
  let s := live.foldl (fun s b => s.blockFault c b code 2 false 0 0 0) s
  let s := (s.core c).retryPlace.foldl
    (fun s x => (s.modLaunch x.1 fun l => { l with ended := l.ended + 1 }).freeChildren [x.1]) s
  s.modCore c fun k => { k with retired := true, service := .inService, preempt := none, scanFor := [], retryPlace := [] }

/-- Retire a core with the core that goes with it, and log each retirement with KIND 5 (R382, R397). -/
def State.retireTogether (s : State) (c : Nat) : State :=
  let code := if (s.checkedPair (c / 16)).checked then codeMismatch else codePoison
  (s.together c).foldl (fun s c => (s.retireCore c code).logEvent 5 0 c (c / 8) 0 0) s

/-- Failing lanes of a core point at its spares (R5, R396). -/
def Core.remap (k : Core) (lanes : List Nat) : Core :=
  lanes.foldl
    (fun (k : Core) l => { k with laneMap := k.laneMap.set l (64 + k.lanesRetired), lanesRetired := k.lanesRetired + 1 }) k

/-- Lanes that a core may retire: its two spares (R5). -/
def spareLanes : Nat := 2
/-- Spare rows of an SRAM bank (R393). -/
def spareRowsPerBank : Nat := 4

/-- A lasting row at its core's SCAN: a spare row of its bank, or the retirement of its lane or of its core
(R393, R402). -/
def State.settleRow (s : State) (c row : Nat) : State :=
  let used := (s.sirip.spareRows.filter fun x => x.1 == c && Config.rowBank x.2 == Config.rowBank row).length
  if used < spareRowsPerBank then s.modSirip fun q => { q with spareRows := q.spareRows ++ [(c, row)] }
  else if s.sirip.lockstepLost then s
  else
    match Config.rowLane row with
    | some l =>
      if (s.core c).lanesRetired < spareLanes then (s.modCore c fun k => k.remap [l]).logEvent 5 0 c l (BitVec.ofNat 64 row) 0
      else s.retireTogether c
    | none => s.retireTogether c

/-- The lasting rows of some cores are settled at their SCAN. -/
def State.settleRows (s : State) (cs : List Nat) : State :=
  let rows := s.sirip.lastingRows.filter fun x => cs.contains x.1
  let s := s.modSirip fun q => { q with lastingRows := q.lastingRows.filter fun x => !cs.contains x.1 }
  rows.foldl (fun s x => s.settleRow x.1 x.2) s

/-! ### Quench slots (R368, R384) -/

/-- Change the rotation state of some cores. -/
def State.setService (s : State) (cs : List Nat) (v : Service) : State :=
  cs.foldl (fun s c => s.modCore c fun k => { k with service := v }) s

/-- The core that the rotation reaches next: in ascending order, skipping retired cores, and in checked pairs the
understudy cores and what either cluster lacks (R368, R382, R384). -/
def State.nextQuench (s : State) : Option Nat :=
  let from_ := match s.sched.rotation with
    | some c => c + 1
    | none => 0
  (List.range Config.numCores).find? fun c =>
    from_ ≤ c && s.usable c

/-- Every core is in service or retired: no quench slot is under way. -/
def State.noQuench (s : State) : Bool := s.cores.all fun k => k.service == .inService

/-- QUENCH_ROTATE (R368, R384). -/
def execQuenchRotate (s : State) : Host.Outcome State Fault Refusal :=
  match s.nextQuench with
  | some c =>
    .next (if s.noQuench then
      (s.setService (s.together c) .drain).modSched fun q => { q with rotation := some c }
    else s)
  | none => .next s

/-- ROTGAP_EXPIRY (R368): the rotation has passed the last core, and starts again at core 0. -/
def execRotgapExpiry (s : State) : Host.Outcome State Fault Refusal :=
  .next (if s.noQuench && s.nextQuench.isNone then s.modSched fun q => { q with rotation := none } else s)

/-- No block is placed on a core: what its slots still hold is saved elsewhere. -/
def Core.unplaced (k : Core) : Bool :=
  (List.range Config.blockSlots).all fun b => match k.block b with
    | some x => x.saved
    | none => true

/-- The cores of a quench slot are all in a state. -/
def State.inState (s : State) (cs : List Nat) (v : Service) : Bool := cs.all fun c => (s.core c).service == v

/-- QUENCH_DRAIN_DONE (R368): no block is placed, and the matrix array is idle. -/
def execQuenchDrainDone (core : Nat) (s : State) : Host.Outcome State Fault Refusal :=
  let cs := s.together core
  .next (if s.inState cs .drain && cs.all fun c => (s.core c).unplaced && s.engineQuiet c .matrix then s.enterScan core
  else s)

/-- QUENCH_DRAIN_TIMEOUT (R368): the cores enter STOP, and their blocks are pre-empted. -/
def execQuenchDrainTimeout (core : Nat) (s : State) : Host.Outcome State Fault Refusal :=
  let cs := s.together core
  let p : Preempt :=
    { cores := [cs.headD core], thread := false, stream := false, copy := false, matrix := false, waitingRoom := false
      held := [] }
  .next (if s.inState cs .drain then
    (s.setService cs .stop).modCore (cs.headD core) fun k => { k with preempt := k.preempt <|> some p }
  else s)

/-- The cores have passed: they leave SCAN, and launches that had no block on them need them no more (R370). -/
def State.passScan (s : State) (cs : List Nat) : State :=
  let s := cs.foldl
    (fun s c =>
      let ids := (s.core c).scanFor
      (s.modSched fun q => { q with
        launches := q.launches.map fun l =>
          if ids.contains l.id then { l with unscanned := l.unscanned.filter fun x => x != c } else l }).modCore c
        fun k => { k with scanFor := [] }) s
  s.setService (cs.filter fun c => !(s.core c).retired) .restore

/-- The ageing alarm at the highest supply makes the core's next scan fail (R399). -/
def State.mustFail (s : State) (c : Nat) : Bool := (s.cluster (c / 8)).failing.getLsbD (c % 8)

/-- SCAN_PASS (R368, R370). -/
def execScanPass (core : Nat) (s : State) : Host.Outcome State Fault Refusal :=
  let cs := s.together core
  .next (if s.inState cs .scan && !(cs.any s.mustFail) then (s.settleRows cs).passScan cs else s)

/-- Provisional launches that ran on failing cores since their last pass get SCANFAIL (R397). -/
def State.markScanFail (s : State) (cs : List Nat) : State :=
  s.modSched fun q => { q with
    launches := q.launches.map fun l => if cs.any l.unscanned.contains then { l with scanFail := true } else l }

/-- The scan of a core has failed: its forced failure is used up. -/
def State.useFailing (s : State) (cs : List Nat) : State :=
  cs.foldl (fun s c => s.modCluster (c / 8) fun x => { x with failing := x.failing &&& ~~~(1#8 <<< (c % 8)) }) s

/-- SCAN_FAIL (R397): lanes are remapped and the patterns run once more, or the core is retired. Sirip retires
nothing once its own cores disagree (R402). -/
def execScanFail (core : Nat) (laneFaults : List Nat) (laneOnly secondPass : Bool) (s : State) :
    Host.Outcome State Fault Refusal :=
  let cs := s.together core
  let lanes := (laneFaults.filter fun l => l < 64).eraseDups
  if !s.inState cs .scan || s.sirip.lockstepLost then .next s
  else
    let s := (s.useFailing cs).markScanFail cs
    if laneOnly && (s.core core).lanesRetired + lanes.length ≤ spareLanes && secondPass then
      .next (((s.modCore core fun k => k.remap lanes).settleRows cs).passScan cs)
    else .next (s.retireTogether core)

/-- RESTORE_COMPLETE (R368, R191). -/
def execRestoreComplete (core : Nat) (s : State) : Host.Outcome State Fault Refusal :=
  let cs := s.together core
  .next (if s.inState cs .restore then
    (cs.foldl (fun s c => if s.canRestore c then s.restoreCore c else s) s).setService cs .inService
  else s)

end Sys2Proof.Machine
end

