-- ==== Sys2Proof/Machine/Safe.lean ====
section
/-!
DEFINITION. SIGCHK and MODE (R406 to R408), and the requests that reach Sirip (R388).
-/
namespace Sys2Proof.Machine

/-- Tags that form a pair (R407). -/
def isPairTags (lo hi : Tag) : Bool := (lo == .i64l && hi == .i64h) || (lo == .dfh && hi == .dfl)

/-- The event that SIGCHK sends: its lanes, with the tag and the values of each register that it reads (R385, R407). -/
def sigEvent (p : Path) (xs : List (Tag × (Nat → Word))) : CmpEvent :=
  .sigchk p.active (xs.map (·.1)) (xs.map fun x => p.active.lanes.map x.2)

/-- SIGCHK (R407): the checks of its operand, and in checked mode the event that the comparator matches (R385). -/
def execSigchk (h : Head) (f : RForm) (s : State) : Host.Outcome State Fault Refusal :=
  runThread (.sigchk h f) h 8 (fun p s => do
    let t := s.troupe p
    let a := f.a.toNat
    if f.sub.getLsbD 0 then
      t.checkSource p 0
        [(a, fun g => isPairTags g (t.reg (a + 1)).tag), (a + 1, fun g => isPairTags (t.reg a).tag g)]
      s.passEvent p (sigEvent p [((t.reg a).tag, (t.reg a).at), ((t.reg (a + 1)).tag, (t.reg (a + 1)).at)])
    else
      let o ← s.read1 p a 0 isDefined
      (s.popPorts p [a]).passEvent p (sigEvent p [(o.tag, o.at)])) s

/-- MODE.query's word for a block on a core (R408). -/
def State.modeWord (s : State) (p : Path) : DWord :=
  let b := s.block p
  let k := p.core / 16
  BitVec.ofNat 64 (k % 8 + (if (s.checkedPair k).checked then 8 else 0) + 256 * min b.retries 255 +
    if b.blockRetry then 0x10000 else 0)

/-- MODE.query (R408). -/
def execModeQuery (h : Head) (f : KForm) (s : State) : Host.Outcome State Fault Refusal :=
  runThread (.modeQuery h f) h 8 (fun p s => .ok (s.mod p fun t => t.setK f.kd.toNat (s.modeWord p))) s

/-- Reserved bits of a request word are nonzero (R408). -/
def requestReserved (w : DWord) : Bool :=
  let n := w.toNat
  bitsOf n 7 3 != 0 || bitsOf n 15 10 != 0 || bitsOf n 31 22 != 0 ||
    ((!w.getLsbD 9 || !w.getLsbD 8) && (bitsOf n 21 16 != 0 || bitsOf n 63 32 != 0))

/-- Both clusters of checked pair `k` lie in a partition. -/
def State.pairIn (s : State) (k part : Nat) : Bool := s.partOf (2 * k) == some part && s.partOf (2 * k + 1) == some part

/-- Entries of Sirip's request queue (R388). -/
def requestEntries : Nat := 16

/-- Major of MODE, by which the comparator knows its request (R385). -/
def majorMode : Nat := 0xD9

/-- MODE.req (R408): 1 refused at once, 2 the queue is full, 0 queued. In checked mode it is compared (R385). -/
def execModeReq (h : Head) (f : KForm) (s : State) : Host.Outcome State Fault Refusal :=
  runThread (.modeReq h f) h 8 (fun p s =>
    let w := s.kAt p f.ka.toNat
    (s.passEvent p (.request majorMode [w.toNat])).map fun s =>
      let r : Nat × State :=
        if requestReserved w || !s.pairIn (w.toNat % 8) (s.ownerOf p.core p.blk).1 || s.checkedCore p.core then (1, s)
        else if requestEntries ≤ s.sirip.requests.length then (2, s)
        else (0, s.modSirip fun q => { q with requests := q.requests ++ [(w, .thread)] })
      r.2.mod p fun t => t.setK f.kd.toNat (BitVec.ofNat 64 r.1)) s

end Sys2Proof.Machine
end

