-- ==== Sys2Proof/Machine/Sirip.lean ====
section
/-!
DEFINITION. Sirip: signed images (R79 to R83, R381), requests and mode changes (R388 to R390), the comparator's
late events (R385), error counts and lasting faults (R393, R394, R400), memory channels (R398), ageing (R399),
injection (R401) and FAULT_N (R402).
-/
namespace Sys2Proof.Machine

/-! ### Signed images (R79 to R83, R381) -/

/-- A section-table entry of a JOF file (R80). -/
structure Section where
  type : Nat
  offset : Nat
  size : Nat
  addr : Nat
  deriving DecidableEq, Repr

/-- A little-endian field of a file in device DRAM. -/
def State.fileNat (s : State) (file off n : Nat) : Nat := s.dramNat (file + off) n

/-- The section table of a JOF file (R79, R80). -/
def State.sections (s : State) (file : Nat) : List Section :=
  (List.range (s.fileNat file 8 2)).map fun i =>
    let e := s.fileNat file 12 4 + 32 * i
    { type := s.fileNat file e 2, offset := s.fileNat file (e + 8) 8, size := s.fileNat file (e + 16) 8
      addr := s.fileNat file (e + 24) 8 }

/-- SHA-256 of bytes of device DRAM. -/
def State.digest (s : State) (a n : Nat) : List Byte := sha256 (s.dram.readBytes a n)

/-- The 50-byte record of a section in the signed message (R83). -/
def State.sectionRecord (s : State) (file : Nat) (x : Section) : List Byte :=
  natToBytes 2 x.type ++ natToBytes 8 x.addr ++ natToBytes 8 x.size ++ s.digest (file + x.offset) x.size

/-- A section by its type. DESIGN CHOICE: of two entries of one type, which R80 does not foresee, the first counts. -/
def sectionOf (xs : List Section) (type : Nat) : Option Section := xs.find? fun x => x.type == type

/-- The file is a linked JOF image, and its sections lie within it (R79, R80). DESIGN CHOICE: R381 says nothing of a file
that is none (a wrong MAGIC or VERSION, LINKED clear, a section outside the given size), and it is not accepted; header
bits that R79 reserves and the number of sections are not looked at. -/
def State.linkedImage (s : State) (file size : Nat) : Bool :=
  s.devReadable file size && 64 ≤ size && s.fileNat file 0 4 == 0x01464F4A && s.fileNat file 4 2 == 1 &&
    bitsOf (s.fileNat file 6 2) 0 0 == 1 && s.fileNat file 12 4 + 32 * s.fileNat file 8 2 ≤ size &&
    (s.sections file).all fun x => x.offset + x.size ≤ size

/-- The signature of R83 in the `.sign` section verifies under a key of Sirip's table. DESIGN CHOICE: R381 does not test
the section's VERSION and SIGLEN fields, and neither does the model. -/
def State.signatureOk (s : State) (file : Nat) (xs : List Section) (g : Section) : Bool :=
  let a := file + g.offset
  let pk := s.dram.readBytes (a + 8) 56
  let msg := (xs.filter fun x => x.type != 10).flatMap (s.sectionRecord file)
  g.size == 1836 && bitsOf (s.dramNat (a + 2) 2) 0 0 == 1 && s.sirip.keyTable.contains pk &&
    lmsVerify pk (s.dram.readBytes (a + 64) 1772) msg

/-- The loaded contents of a section have the digest of the file's (R381). -/
def State.loadedSame (s : State) (file base : Nat) (x : Section) : Bool :=
  s.devReadable (base + x.addr) x.size && s.digest (base + x.addr) x.size == s.digest (file + x.offset) x.size

/-- A digest as a number. -/
def digestBits (bs : List Byte) : BitVec 256 := BitVec.ofNat 256 (bigNat bs)

/-- Entries of the signed-kernel table (R381). -/
def signedEntries : Nat := 64

/-- The entries that an accepted image adds: one for each kernel descriptor (R381). -/
def State.imageEntries (s : State) (file : Nat) (code desc : Section) : List SignedKernel :=
  let base := s.fileNat file 16 8
  (List.range (s.fileNat file 24 4)).map fun i =>
    { kdesc := base + desc.addr + 64 * i
      codeAddr := base + code.addr, codeSize := code.size, codeHash := digestBits (s.digest (file + code.offset) code.size)
      descAddr := base + desc.addr, descSize := desc.size, descHash := digestBits (s.digest (file + desc.offset) desc.size) }

/-- REGISTER_IMAGE (R381): an image that fails a check, or finds the table full, enters nothing. -/
def execRegisterImage (addr size : DWord) (s : State) : Host.Outcome State Fault Refusal :=
  let file := addr.toNat
  let xs := s.sections file
  if !s.linkedImage file size.toNat || bitsOf (s.fileNat file 6 2) 1 1 == 0 then .next s
  else
    match sectionOf xs 1, sectionOf xs 4, sectionOf xs 10 with
    | some code, some desc, some sign =>
      let base := s.fileNat file 16 8
      let new := s.imageEntries file code desc
      .next (if s.signatureOk file xs sign && s.loadedSame file base code && s.loadedSame file base desc &&
          decide (s.sirip.signed.length + new.length ≤ signedEntries) then
        s.modSirip fun q => { q with signed := q.signed ++ new }
      else s)
    | _, _, _ => .next s

/-- A signed kernel's loaded sections still have their digests (R381). -/
def State.digestsHold (s : State) (k : SignedKernel) : Bool :=
  digestBits (s.digest k.codeAddr k.codeSize) == k.codeHash && digestBits (s.digest k.descAddr k.descSize) == k.descHash

/-! ### Requests (R388) -/

/-- Bits of a request word (R408). -/
def requestPair (w : DWord) : Nat := bitsOf w.toNat 2 0
/-- TOCHK. -/
def requestToChk (w : DWord) : Bool := w.getLsbD 8
/-- The named launch, with LV = 1: queue and acceptance sequence number. -/
def requestLaunch (w : DWord) : Option (Nat × Nat) :=
  if w.getLsbD 9 && w.getLsbD 8 then some (bitsOf w.toNat 21 16, bitsOf w.toNat 63 32) else none

/-- SIRIPQ_WRITE (R388): the write counts; one that finds the queue full is not queued and is not logged. -/
def execSiripqWrite (value : DWord) (s : State) : Host.Outcome State Fault Refusal :=
  let r := s.sirip
  let n := r.hostCount + 1
  .next (if requestEntries ≤ r.requests.length then s.modSirip fun q => { q with hostCount := n, hostOutcome := 2 }
  else s.modSirip fun q => { q with hostCount := n, hostOutcome := 0, requests := q.requests ++ [(value, .host n.toNat)] })

/-- The outcome of a request reaches who made it (R388, R389): the host in SIRIPQ when it is the latest that the host
wrote, and the management core as a report of its completion. -/
def State.requestOutcome (s : State) (asker : Asker) (v : BitVec 2) : State :=
  match asker with
  | .thread => s
  | .host n => s.modSirip fun q => { q with hostOutcome := if n == q.hostCount.toNat then v else q.hostOutcome }
  | .mgmt => if v = 3 then s.modSirip fun q => { q with mgmtComplete := q.mgmtComplete + 1 } else s

/-- The launch that a request names: the head of its queue. -/
def State.namedHead (s : State) (x : Nat × Nat) : Option QRec :=
  match (s.sched.queue x.1).recs with
  | r :: _ => if r.passed && r.seq == x.2 then some r else none
  | [] => none

/-- The signed-kernel table holds the kernel with digests that still hold. -/
def State.kernelHolds (s : State) (kdesc : Nat) : Bool :=
  s.sirip.signed.any fun k => k.kdesc == kdesc && s.digestsHold k

/-- A request is refused for the pair that it names, or for its form (R388). -/
def State.pairRefuses (s : State) (w : DWord) : Bool :=
  let k := requestPair w
  requestReserved w || (s.partOf (2 * k)).isNone || s.partOf (2 * k) != s.partOf (2 * k + 1) ||
    (s.cluster (2 * k)).retired || (s.cluster (2 * k + 1)).retired || (s.checkedPair k).checked == requestToChk w

/-- The named launch stands in the way of a request: it is not its queue's head, or its kernel fails R381. -/
def State.namedFails (s : State) (w : DWord) : Bool :=
  match requestLaunch w with
  | none => false
  | some x => match s.namedHead x with
    | none => true
    | some r => !s.kernelHolds r.kdesc

/-- A request that Sirip refuses (R388). -/
def State.refusesRequest (s : State) (w : DWord) : Bool := s.pairRefuses w || s.namedFails w

/-- A launch whose kernel was signed and whose digests have changed is refused with reason 5 (R381, R357): Sirip hashes
its sections before it binds the launch to the pair, so only where nothing else stands in the request's way (R388). -/
def State.refuseChanged (s : State) (w : DWord) : State :=
  match (requestLaunch w).bind fun x => (s.namedHead x).map fun r => (x, r) with
  | some ((queue, seq), r) =>
    match s.waitingLaunch queue seq with
    | some l =>
      if !s.pairRefuses w && 2 ≤ l.il && !s.kernelHolds r.kdesc then
        ((((s.popQueue queue).dropLaunch l.id).completeUnrun r 3 5).signal (queue / 8 + 1) 9)
      else s
    | none => s
  | none => s

/-- Sirip is free to take a request: no mode change is in progress, the pair is not being scanned, and its own
cores agree (R388, R394, R402). -/
def State.siripFree (s : State) (w : DWord) : Bool :=
  !s.sirip.lockstepLost && (s.sirip.pairs.all fun p => p.changing.isNone) && !(s.checkedPair (requestPair w)).lasting

/-- SIRIP_REQUEST (R388, R389): the request at the head of the queue is refused, or its change begins. -/
def execSiripRequest (s : State) : Host.Outcome State Fault Refusal :=
  match s.sirip.requests with
  | [] => .next s
  | (w, asker) :: rest =>
    if !s.siripFree w then .next s
    else
      let s := s.modSirip fun q => { q with requests := rest }
      if s.refusesRequest w then
        .next (((s.refuseChanged w).requestOutcome asker 1).logEvent 7 0 0xFF (2 * requestPair w) 0 0)
      else
        .next (s.modChecked (requestPair w) fun p =>
          { p with changing := some (requestToChk w), named := requestLaunch w, asker := asker })

/-! ### Mode changes (R389, R390) -/

/-- The cores of checked pair `k`. -/
def pairCores (k : Nat) : List Nat := List.range' (16 * k) 16

/-- Step 2 of R389 is done: no block is placed on either cluster. -/
def State.pairDrained (s : State) (k : Nat) : Bool := (pairCores k).all fun c => (s.core c).unplaced

/-- Step 4 for one core: records and frames are spilled, and vector registers, local memory and the cue store are
cleared. -/
def Core.pairClear (k : Core) : Core := { (k.spillBlocks fun _ => true) with mem := [] }

/-- No record or frame is left in a core's cue store. -/
def Core.allSpilled (k : Core) : Bool := k.cueUsed == 0

/-- An understudy core's lane-independent state equals its leader's (R389): its translations, its fetch blocks and its
arbiters' places. DESIGN CHOICE (entry 74): its key slots stay its own, since R426 lets no two valid slots hold one key. -/
def Core.follow (k l : Core) : Core :=
  { k with tlb := l.tlb, icache := l.icache, outcomes := [], lastChosen := l.lastChosen, readySeq := l.readySeq
           pushSeq := l.pushSeq, copyOrder := l.copyOrder }

/-- Steps 3 and 4 of R389. -/
def State.pairClear (s : State) (k : Nat) : State :=
  let s := (pairCores k).foldl (fun s c => s.modCore c Core.pairClear) s
  let s := (List.range' (16 * k) 8).foldl (fun s c => s.modCore (c + 8) fun x => x.follow (s.core c)) s
  (List.range' (8 * k) 8).foldl (fun s n => s.modPair n fun q => { q with cells := [] }) s

/-- The role of a core's troupes (R383). -/
def Core.inRole (k : Core) (r : BitVec 2) : Core := { k with troupes := k.troupes.map fun (t : Troupe) => { t with role := r } }

/-- What the understudy of checked pair `k` holds when it starts: what the leader holds, in its own role (R383). -/
def State.understudy (s : State) (k : Nat) : List Core × List Pair :=
  ((List.range' (16 * k) 8).map fun c => (s.core c).inRole 2, (List.range' (8 * k) 4).map s.pair)

/-- Steps 5 to 7 of R389, or the change back. -/
def CheckedPair.change (p : CheckedPair) (toChk : Bool) (under : List Core × List Pair) : CheckedPair :=
  { p with
    checked := toChk, changing := none, named := none, asker := .thread, verified := if toChk then p.named else none
    mismatches := [], twin := if toChk then under.1 else [], twinPairs := if toChk then under.2 else [] }

/-- PAIR_DRAIN_DONE (R389): steps 3 to 7 once no block is placed on the pair. They wait while a wings area has no
room for a record to be spilled. -/
def execPairDrainDone (pair : Nat) (s : State) : Host.Outcome State Fault Refusal :=
  let p := s.checkedPair pair
  match p.changing with
  | none => .next s
  | some toChk =>
    if !s.pairDrained pair || s.sirip.lockstepLost then .next s
    else
      let s' := s.pairClear pair
      if (pairCores pair).all fun c => (s'.core c).allSpilled then
        .next ((s'.modChecked pair fun p => p.change toChk (s'.understudy pair)).requestOutcome p.asker 3)
      else .next s.report

/-! ### The comparator's late events (R385, R391) -/

/-- MATCH_WINDOW_EXPIRY (R385): an event of the path that its troupe would issue next has no counterpart. -/
def execMatchWindowExpiry (core slot troupe : Nat) (s : State) : Host.Outcome State Fault Refusal :=
  match (s.core core).troupe slot troupe with
  | none => .next s
  | some t =>
    if s.checkedCore core then
      let path := (s.firstGroup core t).map fun pc =>
        { core := core, blk := slot, troupe := troupe, lanes := t.group pc, pc := pc }
      .next (s.mismatch core slot path 0)
    else .next s

/-- A cluster of a pair is retired with all its cores (R394, R396), and the entry is logged. -/
def State.retireCluster (s : State) (c : Nat) : State :=
  let s := (List.range' (8 * c) 8).foldl (fun s i => s.retireCore i codeMismatch) s
  (s.modCluster c fun x => { x with retired := true }).logEvent 5 0 0xFF c 0 0

/-- LASTING_SCAN_COMPLETE (R394, R402). -/
def execLastingScanComplete (pair : Nat) (leaderFails understudyFails : Bool) (s : State) :
    Host.Outcome State Fault Refusal :=
  let p := s.checkedPair pair
  if !p.lasting || !s.pairDrained pair || s.sirip.lockstepLost then .next s
  else
    let s := if leaderFails then s.retireCluster (2 * pair) else s
    let s := if understudyFails then s.retireCluster (2 * pair + 1) else s
    let failed := leaderFails || understudyFails
    let s := if failed then s.assertFaultN (s.sirip.eventSeq - 1) else s.logEvent 4 0 0xFF (2 * pair) 0 0
    .next (s.modChecked pair fun p =>
      { p with
        lasting := false, mismatches := [], checked := p.checked && !failed
        verified := if failed then none else p.verified, twin := if failed then [] else p.twin
        twinPairs := if failed then [] else p.twinPairs })

/-! ### Memory errors (R393, R400) -/

/-- Cycles of a millisecond (R6). -/
def cyclesPerMs : Nat := 3200000

/-- CORRECTED_ERROR (R393): the error counts in its row's window, and may make the row lasting. -/
def execCorrectedError (core row : Nat) (s : State) : Host.Outcome State Fault Refusal :=
  let w := s.sirip.wincfg.toNat
  let now := s.clock.toNat
  let a := BitVec.ofNat 64 row
  let s := s.logEvent 2 0 core (core / 8) a 0
  let kept := (s.sirip.corrected.filter fun x => now - x.2.2 ≤ bitsOf w 15 0 * cyclesPerMs) ++ [(core, row, now)]
  let s := s.modSirip fun q => { q with corrected := kept }
  let count := (kept.filter fun x => x.1 == core && x.2.1 == row).length
  if bitsOf w 19 16 ≤ count && !s.sirip.lastingRows.contains (core, row) && !s.sirip.spareRows.contains (core, row) then
    .next ((s.modSirip fun q => { q with lastingRows := q.lastingRows ++ [(core, row)] }).logEvent 4 0 core (core / 8) a 0)
  else .next s

/-- The channel that holds an address (R398): a 256-byte unit lies on one of the channels by its number, counted over
those that have not been powered down; below the migration pointer, over those that survive the failing one. -/
def Sirip.channelAt (r : Sirip) (a : Nat) : Nat :=
  let stay := match r.failingChannel, r.migration with
    | some ch, some p => if a < p then r.survivors.filter fun x => x != ch else r.survivors
    | _, _ => r.survivors
  stay.getD (a / 256 % stay.length) 0

/-- UNCORRECTABLE_ERROR (R393, R400): a sector of memory is poisoned; an error in a core's SRAM is a mismatch in
checked mode, and otherwise kills the block with POISON. -/
def execUncorrectableError (site : ErrorSite) (s : State) : Host.Outcome State Fault Refusal :=
  match site with
  | .memory sector =>
    let s := s.logEvent 3 0 0xFF (s.sirip.channelAt (64 * sector)) (BitVec.ofNat 64 (64 * sector)) 0
    .next (if s.poison.contains sector then s else { s with poison := s.poison ++ [sector] })
  | .coreSram core slot =>
    let s := s.logEvent 3 0 core (core / 8) 0 0
    let leader := (s.together core).headD core
    .next (if s.checkedCore leader then s.mismatch leader slot none 0 else s.blockFault core slot codePoison 2 false 0 0 0)

/-! ### The event log (R395) -/

/-- The bytes of an event-log entry before CHECK (R395). -/
def LogEntry.body (e : LogEntry) : List Byte :=
  natToBytes 4 e.seq ++ [BitVec.ofNat 8 e.kind, BitVec.ofNat 8 e.tier, BitVec.ofNat 8 e.core, BitVec.ofNat 8 e.unit] ++
    natToBytes 8 e.time.toNat ++ natToBytes 8 e.addr.toNat ++ natToBytes 4 e.job

/-- The 32 bytes of an event-log entry (R395). -/
def LogEntry.bytes (e : LogEntry) : List Byte := e.body ++ natToBytes 4 (checkWord (wordsOf e.body))

/-! ### Memory channels (R398) -/

/-- CHANNEL_FAILING (R398, step 1). -/
def execChannelFailing (channel : Nat) (s : State) : Host.Outcome State Fault Refusal :=
  let r := s.sirip
  .next (if channel < 32 && r.failingChannel.isNone && !r.retiredChannels.contains channel && !r.lockstepLost then
    ((s.modSirip fun q => { q with failingChannel := some channel }).logEvent 4 0 0xFF channel 0 0).report
  else s)

/-- CHANNEL_FREE_ACK (R398, step 2): the migration may begin at the lowest address. -/
def execChannelFreeAck (s : State) : Host.Outcome State Fault Refusal :=
  .next (if s.sirip.failingChannel.isSome && s.sirip.migration.isNone then
    s.modSirip fun q => { q with migration := some 0 }
  else s)

/-- A slot of the time-slot table is marked IDLE (R21). -/
def State.idleSlot (s : State) : Bool := s.slotTab.any fun b => b.getLsbD 3

/-- Bytes of a unit that moves from channel to channel (R398). -/
def migrationUnit : Nat := 256

/-- The migration pointer moves on in ascending address while a slot is IDLE (R398). DESIGN CHOICE (entry 89): by one unit
a step; the spec gives a rate, and time is not modelled. -/
def State.migrate (s : State) : State :=
  match s.sirip.failingChannel, s.sirip.migration with
  | some _, some p =>
    if s.idleSlot && !s.sirip.lockstepLost && decide (p + migrationUnit ≤ s.capacity) then
      s.modSirip fun q => { q with migration := some (p + migrationUnit) }
    else s
  | _, _ => s

/-- CHANNEL_MIGRATION_DONE (R398, steps 3 and 4): migration moves data only in IDLE slots. -/
def execChannelMigrationDone (s : State) : Host.Outcome State Fault Refusal :=
  match s.sirip.failingChannel, s.sirip.migration with
  | some ch, some _ =>
    .next (if s.idleSlot && !s.sirip.lockstepLost then
      (s.modSirip fun q =>
        { q with failingChannel := none, migration := none, retiredChannels := q.retiredChannels ++ [ch] }).logEvent 5 0 0xFF ch 0 0
    else s)
  | _, _ => .next s

/-! ### Ageing (R399) -/

/-- The highest compute supply in millivolts (R399). -/
def supplyMax : Nat := 550

/-- A supply after an alarm: raised, by a step that the spec leaves open, within the range (R399). -/
def raisedSupply (n supply : Nat) : Nat := min supplyMax (supply + 1 + (Config.freeValue n).toNat)

/-- An alarm raises the supply; at the highest supply, the cluster's cores fail their next scan (R399). -/
def Cluster.alarm (x : Cluster) (n : Nat) : Cluster :=
  if supplyMax ≤ x.supply then { x with failing := BitVec.allOnes 8 } else { x with supply := raisedSupply n x.supply }

/-- AGEMON_SAMPLE (R399); reserved bits of the register read zero. -/
def execAgemonSample (cluster monitor : Nat) (value : Word) (s : State) : Host.Outcome State Fault Refusal :=
  let v := value &&& 0xFFFFFF01
  let s := s.modCluster cluster fun x => { x with agemon := x.agemon.set monitor v }
  .next (if v.getLsbD 0 then
    { (s.modCluster cluster fun x => x.alarm s.nextId) with nextId := s.nextId + 1 }.logEvent 6 0 0xFF cluster 0 0
  else s)

/-! ### Injection and FAULT_N (R401, R402) -/

/-- CINJ_WRITE (R401); reserved bits read zero. -/
def execCinjWrite (value : DWord) (s : State) : Host.Outcome State Fault Refusal :=
  .next (s.modSirip fun q => { q with cinj := value &&& 0xFFFFFFFFFFFF070F })

/-- INJECT_ARM (R401). -/
def execInjectArm (core : Nat) (s : State) : Host.Outcome State Fault Refusal :=
  .next (s.modCore core fun k => { k with inject := true })

/-- SIRIPACK_WRITE (R402): FAULT_N is released when no later entry requires it. -/
def execSiripackWrite (value : Word) (s : State) : Host.Outcome State Fault Refusal :=
  .next (s.modSirip fun q =>
    { q with acked := value.toNat, faultN := q.faultN && (q.lockstepLost || decide (value.toNat < q.faultSeq)) })

/-- SIRIP_LOCKSTEP_ERROR (R402). -/
def execSiripLockstepError (s : State) : Host.Outcome State Fault Refusal :=
  .next ((s.modSirip fun q => { q with lockstepLost := true, faultN := true }).signal 0 2)

end Sys2Proof.Machine
end

