-- ==== Sys2Proof/Machine/Board.lean ====
section
/-!
DEFINITION. Confidential interfaces and attestation (R422 to R425), firmware slots (R427 to R430), the Berzin
link (R371, R431), reset, power and clocks (R432, R433), writes to plain registers, and what a read of a register
returns (R3, R9, R413).
-/
namespace Sys2Proof.Machine

/-! ### TDISP states (R422, R425) -/

/-- The live blocks of a partition, as core and slot. -/
def State.blocksIn (s : State) (p : Nat) : List (Nat × Nat) :=
  (s.blocksOf ((s.sched.launches.filter fun l => l.part == p).map (·.id))).filter fun x => match (s.core x.1).block x.2 with
    | some b => !b.ending
    | none => false

/-- A TDI enters ERROR (R425, R109). -/
def State.tdiError (s : State) (p : Nat) : State :=
  let s := (s.blocksIn p).foldl (fun s x => s.blockFault x.1 x.2 codeAccess 2 false 0 0 0) s
  ((s.dropKeys p).disown (s.coresOf p)).modPart p fun q => { q with tdi := .error }

/-- UNSTREAMED_REQUEST (R422): it completes with Unsupported Request. -/
def execUnstreamedRequest (vf : Nat) (s : State) : Host.Outcome State Fault Refusal :=
  .next (if isVf vf && (s.part (vf - 1)).frozen then { s.tdiError (vf - 1) with reply := .unsupported } else s)

/-- IDE_INTEGRITY_FAILURE (R422): PF0 has a stream and no TDI. -/
def execIdeIntegrityFailure (vf : Nat) (s : State) : Host.Outcome State Fault Refusal :=
  let s := { s with aer := s.aer + 1 }
  .next (if isVf vf then s.tdiError (vf - 1) else s)

/-- IDE_KM_KEY_PROG (R422): a key set is programmed inside an SPDM secured session. -/
def execIdeKmKeyProg (vf : Nat) (keys : BitVec 256) (s : State) : Host.Outcome State Fault Refusal :=
  .next (if !s.spdmSession then s
  else if vf = 0 then { s with pfIdeNext := some keys }
  else if isVf vf then s.modPart (vf - 1) fun p => { p with ideNext := some keys }
  else s)

/-- K_SET_GO (R422): the programmed key set becomes the active one. -/
def execKSetGo (vf : Nat) (s : State) : Host.Outcome State Fault Refusal :=
  .next (if vf = 0 then
    if s.pfIdeNext.isSome then { s with pfIdeActive := s.pfIdeNext, pfIdeNext := none } else s
  else if isVf vf && (s.part (vf - 1)).ideNext.isSome then
    s.modPart (vf - 1) fun p => { p with ideActive := p.ideNext, ideNext := none }
  else s)

/-- TDI_LOCK (R425). -/
def execTdiLock (vf : Nat) (s : State) : Host.Outcome State Fault Refusal :=
  .next (if isVf vf && (s.part (vf - 1)).tdi == .unlocked then s.modPart (vf - 1) fun p => { p with tdi := .locked } else s)

/-- TDI_START (R425). -/
def execTdiStart (vf : Nat) (s : State) : Host.Outcome State Fault Refusal :=
  .next (if isVf vf && (s.part (vf - 1)).tdi == .locked then s.modPart (vf - 1) fun p => { p with tdi := .run } else s)

/-- STOP_INTERFACE (R425, R109). -/
def execStopInterface (vf : Nat) (s : State) : Host.Outcome State Fault Refusal :=
  .next (if isVf vf then (s.disown (s.coresOf (vf - 1))).modPart (vf - 1) fun p => { p with tdi := .unlocked } else s)

/-! ### SPDM (R423, R424) -/

/-- Signatures that the device identity key can make (R423). -/
def leafCount : Nat := 2 ^ 20

/-- The leaf index in the flash moves past the leaf that a signature is about to use (R423). -/
def State.nextLeaf (s : State) (reply : Nat → SpdmReply) : State :=
  if leafCount ≤ s.spdmLeaf then { s with spdmReply := .error }
  else { s with spdmStored := s.spdmLeaf + 1, spdmLeaf := s.spdmLeaf + 1, spdmReply := reply s.spdmLeaf }

/-- SPDM_CERT (R423). -/
def execSpdmCert (s : State) : Host.Outcome State Fault Refusal := .next { s with spdmReply := .certificates }

/-- SPDM_CHAL (R423). -/
def execSpdmChal (s : State) : Host.Outcome State Fault Refusal := .next (s.nextLeaf .signature)

/-- SPDM_KEY_EX (R423): the response is signed, and opens a secured session. -/
def execSpdmKeyEx (s : State) : Host.Outcome State Fault Refusal :=
  let t := s.nextLeaf .keyExchange
  .next (if leafCount ≤ s.spdmLeaf then t else { t with spdmSession := true })

/-- Code of a TDISP state (R419). -/
def Tdi.code : Tdi → Nat
  | .unlocked => 0
  | .locked => 1
  | .run => 2
  | .error => 3

/-- The 64 bytes of a partition's registers (R419). -/
def State.partBytes (s : State) (p : Nat) : List Byte :=
  let q := s.part p
  natToBytes 4 (16 * q.tdi.code + (if s.busy p then 4 else 0) + (if q.quiesced then 2 else 0) + if q.en then 1 else 0) ++
    natToBytes 4 (256 * q.cllimit.toNat + q.clbase.toNat) ++ natToBytes 8 q.colour.toNat ++ natToBytes 8 q.fbnd.toNat ++
    natToBytes 8 q.proot.toNat ++ natToBytes 32 0

/-- What a measurement index measures (R424); images are not in the state, so their bytes are free. -/
def State.measured (s : State) (index : Nat) : Option (List Byte) :=
  match index with
  | 5 => some [BitVec.ofNat 8 s.fw.active.toNat]
  | 6 => some ((List.range 8).flatMap s.partBytes ++ s.slotTab)
  | n => if 1 ≤ n && n ≤ 4 then some (Config.imageBytes n) else none

/-- SPDM_MEAS (R424): the digest is taken when the response is built; another index is answered with an error. -/
def execSpdmMeas (index : Nat) (s : State) : Host.Outcome State Fault Refusal :=
  .next { s with spdmReply := match s.measured index with
    | some bs => .measurement (sha256 bs)
    | none => .error }

/-! ### Firmware (R427 to R430) -/

/-- The other slot. -/
def otherSlot (n : BitVec 2) : BitVec 2 := if n = 1 then 2 else 1

/-- The image in a slot verifies. -/
def Firmware.verifies (f : Firmware) (slot : BitVec 2) : Bool := if slot = 1 then f.okA else f.okB

/-- The boot ROM starts a slot (R427): the one that TRY names, once, else the one that ACTIVE names; the other when
it does not verify, with ROLLBACK. -/
def Firmware.start (f : Firmware) : Firmware :=
  let named := if f.try_ = 1 || f.try_ = 2 then f.try_ else f.active
  let good := f.verifies named
  { f with
    try_ := 0, running := if good then named else otherSlot named, rollback := f.rollback || !good, boots := f.boots + 1
    hb := false }

/-- A start of the management core; a rollback signals vector 3 (R414). -/
def State.startFirmware (s : State) (rollback : Bool) : State :=
  let f := s.fw.start
  let s' := { s with fw := { f with rollback := f.rollback || rollback } }
  if rollback || !s.fw.verifies (if s.fw.try_ = 1 || s.fw.try_ = 2 then s.fw.try_ else s.fw.active) then s'.signal 0 3 else s'

/-- FIRMWARE_IMAGE_WRITE (R430): the new image goes into the slot that is not active, and is verified. -/
def execFirmwareImageWrite (verifies : Bool) (s : State) : Host.Outcome State Fault Refusal :=
  let f := s.fw
  let f := if f.active = 1 then { f with okB := verifies } else { f with okA := verifies }
  .next ({ s with fw := f }.mgmtDone (if verifies then .done else .refused))

/-- A write of FWCTL.PENDING (R428); 0b11 names no slot and changes nothing. -/
def Firmware.setPending (f : Firmware) (v : BitVec 2) : Firmware := if v = 3 then f else { f with try_ := v }

/-! ### The handover structure (R429, R430) -/

/-- Where the tables of the handover structure lie, after its 52 bytes: the wings areas, the save areas and the prompter's
policy state. DESIGN CHOICE (entry 90): the running image chooses, and the model's policy state is empty. -/
def handoverWings : Nat := 64
def handoverSave : Nat := handoverWings + 16 * Config.numCores
def handoverPolicy : Nat := handoverSave + 8 * Config.numCores

/-- The bytes of the handover structure before CHECK (R429). -/
def State.handoverBody (s : State) : List Byte :=
  let a := s.fw.handover
  natToBytes 4 1 ++ natToBytes 4 52 ++ natToBytes 8 (a + handoverWings) ++ natToBytes 8 (a + handoverSave) ++
    natToBytes 8 (a + handoverPolicy) ++ natToBytes 8 0 ++ natToBytes 4 s.sched.rotgap ++ natToBytes 4 s.sched.premax

/-- The handover structure and its tables, by offset (R429). -/
def State.handoverBytes (s : State) : List (Nat × List Byte) :=
  [(0, s.handoverBody ++ natToBytes 4 (checkWord (wordsOf s.handoverBody))),
    (handoverWings, s.cores.flatMap fun k => natToBytes 8 k.wingsBase ++ natToBytes 8 k.wingsSize),
    (handoverSave, s.cores.flatMap fun k => natToBytes 8 k.saveArea)]

/-- The running image writes the handover structure, and stops writing bind records (R430, step 3). -/
def State.handOver (s : State) : State :=
  { (s.devWrites s.fw.handover s.handoverBytes) with fw := { s.fw with handed := true } }

/-- The new image takes the handover structure: VERSION is known and CHECK holds (R430, step 5). -/
def State.handoverHolds (s : State) : Bool :=
  let a := s.fw.handover
  s.dramNat a 4 == 1 && checkWord (wordsOf (s.dram.readBytes a 48)) == s.dramNat (a + 48) 4

/-- What the new image reads in the handover structure: the areas of every core, and its timers (R429). -/
def State.takeOver (s : State) : State :=
  let a := s.fw.handover
  let wings := s.dramNat (a + 8) 8
  let save := s.dramNat (a + 16) 8
  { (s.modSched fun q => { q with rotgap := s.dramNat (a + 40) 4, premax := s.dramNat (a + 44) 4 }) with
    cores := s.cores.mapIdx fun c (k : Core) => { k with
      wingsBase := s.dramNat (wings + 16 * c) 8, wingsSize := s.dramNat (wings + 16 * c + 8) 8
      saveArea := s.dramNat (save + 8 * c) 8 }
    fw := { s.fw with handed := false } }

/-- PENDING_WRITE (R428, R430): TRY of the boot record; naming a slot is followed by the handover structure. DESIGN CHOICE
(entry 90): at once, and only when memory admits its bytes; the spec puts no step between the two. -/
def execPendingWrite (value : BitVec 2) (s : State) : Host.Outcome State Fault Refusal :=
  let s := { s with fw := s.fw.setPending value }
  .next (if value = 0 then { s with fw := { s.fw with handed := false } }
  else if value ≠ 3 && s.dramReady then s.handOver
  else s)

/-- ROLLBACK_CLEAR (R428). -/
def execRollbackClear (s : State) : Host.Outcome State Fault Refusal := .next { s with fw := { s.fw with rollback := false } }

/-- MGMT_CORE_RESTART (R427). -/
def execMgmtCoreRestart (s : State) : Host.Outcome State Fault Refusal := .next (s.startFirmware false)

/-- HEARTBEAT (R430): the first sets HB, and makes the running slot ACTIVE. An image that is handed a structure whose
VERSION or CHECK it refuses sends none. -/
def execHeartbeat (s : State) : Host.Outcome State Fault Refusal :=
  .next (if s.fw.hb || (s.fw.handed && !s.handoverHolds) then s
  else
    let s := if s.fw.handed then s.takeOver else s
    { s with fw := { s.fw with hb := true, active := s.fw.running } }.signal 0 3)

/-- HEARTBEAT_TIMEOUT (R430): the management core is restarted, with ROLLBACK. -/
def execHeartbeatTimeout (s : State) : Host.Outcome State Fault Refusal := .next (if s.fw.hb then s else s.startFirmware true)

/-! ### The Berzin link (R431) -/

/-- LINKCTL.STATE changes, which vector 4 signals (R414). -/
def State.setLink (s : State) (f : Link → Link) : State := { s with link := f s.link }.signal 0 4

/-- LINK_ENABLE (R431): setting EN starts training. -/
def execLinkEnable (s : State) : Host.Outcome State Fault Refusal :=
  .next (if s.link.en then s else s.setLink fun l => { l with en := true, state := 1 })

/-- LINK_DISABLE (R431): clearing EN returns the link to DOWN from any state. -/
def execLinkDisable (s : State) : Host.Outcome State Fault Refusal :=
  .next (if !s.link.en then s
  else
    s.setLink fun l => { l with en := false, state := 0, width := 0 })

/-- LINK_UP (R431): training succeeds on 4, 2 or 1 lanes. -/
def execLinkUp (width : Nat) (s : State) : Host.Outcome State Fault Refusal :=
  .next (if s.link.state = 1 && s.link.en && [1, 2, 4].contains width then s.setLink fun l => { l with state := 2, width := width } else s)

/-- LINK_TRAINING_TIMEOUT (R431). -/
def execLinkTrainingTimeout (s : State) : Host.Outcome State Fault Refusal :=
  .next (if s.link.state = 1 then s.setLink fun l => { l with state := 4 } else s)

/-- LINK_RECOVERY (R431): flits are replayed, and counted up to 0xFFFF. -/
def execLinkRecovery (flits : Nat) (s : State) : Host.Outcome State Fault Refusal :=
  .next (if s.link.state = 2 then
    s.setLink fun l => { l with state := 3, replays := min (l.replays + flits) 0xFFFF, since := s.clock.toNat }
  else s)

/-- LINK_RECOVERY_COMPLETE (R371, R431). -/
def execLinkRecoveryComplete (s : State) : Host.Outcome State Fault Refusal :=
  .next (if s.link.state = 3 then s.setLink fun l => { l with state := 2 } else s)

/-- A deferred access of a core that the link carries and that has not returned: its data is poison (R431). -/
def Core.failFar (k : Core) : Core :=
  { k with
    troupes := k.troupes.map fun (t : Troupe) => { t with
      deferred := t.deferred.map fun (d : Deferred) =>
        if d.peer && !d.returned then
          { d with poison := some (peerSector, BitVec.ofNat 64 ((d.pieces.head?.map (·.va)).getD 0)) }
        else d } }

/-- The outstanding reads of a core over the link fail as POISON without a replica (R431). -/
def State.failReads (s : State) (c : Nat) : State :=
  let s := s.modCore c Core.failFar
  ((s.core c).cue.filter fun r => r.peer && !r.ready && r.halted.isNone).foldl
    (fun s r => s.failAccess c r codePoison r.mask 0) s

/-- LINK_RECOVERY_TIMEOUT (R431): writes perform when they issue, so none is outstanding (entry 7). -/
def execLinkRecoveryTimeout (s : State) : Host.Outcome State Fault Refusal :=
  .next (if s.link.state = 3 then
    (List.range Config.numCores).foldl
      (fun s c => if (s.core c).cue.isEmpty && (s.core c).troupes.isEmpty then s else s.failReads c)
      (s.setLink fun l => { l with state := 4, width := 0 })
  else s)

/-- PEER_REQUEST (R431): the peer's write performs at the owning L2 bank, and its read returns the bytes there, as many
as `data` holds. -/
def execPeerRequest (addr : DWord) (write : Bool) (data : List Byte) (s : State) : Host.Outcome State Fault Refusal :=
  .next (if s.link.state = 2 && s.admits addr.toNat data.length then
    if write then s.devWrite addr.toNat data else { s with reply := .success (s.dram.readBytes addr.toNat data.length) }
  else s)

/-! ### Reset, power and clocks (R432, R433) -/

/-- Leaves that the responder skips at a reset (R423). -/
def leafGap : Nat := 1024

/-- The device after a reset: every register at its reset value, and the board flash as it was (R423, R427, R432).
Memory of the host and of the peer device is not the device's. -/
def State.afterReset (s : State) : State :=
  let fw := { Firmware.reset with
    active := s.fw.active, try_ := s.fw.try_, okA := s.fw.okA, okB := s.fw.okB, boots := 0, rollback := false }
  { State.reset with
    hostMem := s.hostMem, peerMem := s.peerMem, iommu := s.iommu, fw := fw.start, spdmStored := s.spdmStored
    spdmLeaf := s.spdmStored + leafGap, agenda := s.agenda, nextId := s.nextId }

/-- PERST (R432). -/
def execPerst (s : State) : Host.Outcome State Fault Refusal := .next s.afterReset

/-- POWER_LOSS (R432): everything the device holds is lost; it starts again from reset when power returns. -/
def execPowerLoss (s : State) : Host.Outcome State Fault Refusal := .next s.afterReset

/-- DRAM_CLEAR_COMPLETE (R433). -/
def execDramClearComplete (s : State) : Host.Outcome State Fault Refusal :=
  .next (if s.dramReady then s else { s with dram := [], poison := [], dramReady := true })

/-- Step of the arithmetic clock in MHz (R432). -/
def clockStep : Nat := 200

/-- THERMAL_STEP_DOWN (R432). -/
def execThermalStepDown (s : State) : Host.Outcome State Fault Refusal := .next { s with clockMhz := s.clockMhz - clockStep }

/-- THERMAL_TRIP (R432): FAULT_N, and issue and memory traffic stop until PERST#. -/
def execThermalTrip (s : State) : Host.Outcome State Fault Refusal := .next { s.assertFaultN (s.sirip.eventSeq - 1) with tripped := true }

/-! ### Writes to plain registers (R3, R9, R413 to R415) -/

/-- Vectors that are no longer masked signal what they held pending (R414). -/
def State.sendPending (s : State) : State :=
  { s with
    msix := s.msix ++ s.pend.filter fun x => !s.vectorMasked x.1 x.2
    pend := s.pend.filter fun x => s.vectorMasked x.1 x.2 }

/-- Store a plain register of a function: a quad at an offset that is a multiple of 8, and otherwise a word. -/
def State.setBar (s : State) (f off : Nat) (v : DWord) : State :=
  { s with bar := s.bar.writeNat (barBase f + off) (if off % 8 = 0 then 8 else 4) v.toNat }.sendPending

/-- An offset lies in a region. -/
def inRegion (off base size : Nat) : Bool := decide (base ≤ off) && decide (off < base + size)

/-- Bytes of the MSI-X table of a function: 256 vectors at PF0 and 224 at a virtual function (R412, R413). -/
def msixBytes (function : Nat) : Nat := if function = 0 then 4096 else 3584

/-- An offset lies in the MSI-X table of a function. -/
def inMsix (function off : Nat) : Bool := inRegion off (msixTable function) (msixBytes function)

/-- A write to what Sirip owns is ignored and logged with KIND 8 (R9, R395). -/
def State.siripRefuses (s : State) (off : Nat) : State := s.logEvent 8 0 0xFF 0xFF (BitVec.ofNat 64 off) 0

/-- A host write to BAR0 of PF0 (R413). -/
def State.writePf (s : State) (off : Nat) (v : DWord) : State :=
  if inRegion off 0x8000 4096 || inMsix 0 off then s.setBar 0 off v
  else if off < 64 || inRegion off 0x4000 8192 || inRegion off 0x6000 512 then s.siripRefuses off
  else s

/-- A host write to BAR0 of a virtual function (R413, R415): QCFG keeps its reserved bits zero, and is read only
while the TDI is locked or running. -/
def State.writeVf (s : State) (vf off : Nat) (v : DWord) : State :=
  if inRegion off 0x8100 64 then
    if off % 8 = 0 && !(s.part (vf - 1)).frozen then
      s.modQueue (queueOf vf ((off - 0x8100) / 8)) fun q => { q with qcfg := v &&& 0x800FFFFF }
    else s
  else if inMsix vf off then s.setBar vf off v
  else s

/-- Bytes of BAR0 of PF0 (R413). -/
def barSize : Nat := 2 ^ 20

/-- A write by the management core: a request of Sirip's (R388), a write to what Sirip alone sets, which is refused (R9),
or one to PF0's registers. DESIGN CHOICE (entry 91): offsets past BAR0 stand for Sirip's registers that the spec gives no
address (%inject, CINJ, WINCFG); a request that finds the queue full is not queued. -/
def State.writeMgmt (s : State) (off : Nat) (v : DWord) : State :=
  if off = 0x3000 then
    if requestEntries ≤ s.sirip.requests.length then s else s.modSirip fun q => { q with requests := q.requests ++ [(v, .mgmt)] }
  else if barSize ≤ off then s.siripRefuses off
  else s.writePf off v

/-- The number by which REGISTER_WRITE names the management core (entry 91). -/
def mgmtCore : Nat := 9

/-- REGISTER_WRITE (R3, R9, R413): registers that have a row of their own, read-only ones and reserved offsets keep
their values. -/
def execRegisterWrite (function offset : Nat) (value : DWord) (s : State) : Host.Outcome State Fault Refusal :=
  .next (if function = 0 then s.writePf offset value
  else if function = mgmtCore then s.writeMgmt offset value
  else if isVf function then s.writeVf function offset value
  else s)

/-! ### What a read of a register returns (R3, R413) -/

/-- The retired cores, lanes and channels that IDENT names. -/
def State.identByte (s : State) (i : Nat) : Byte :=
  let cores := (List.range Config.numCores).filter fun c => (s.core c).retired
  let lanes := (List.range Config.numCores).flatMap fun c =>
    (laneNumbers.filter fun l => 64 ≤ (s.core c).laneMap.getD l l).map fun l => (c, l)
  Config.identByte i cores lanes s.sirip.retiredChannels

/-- SIRIPQ as the host reads it (R388). -/
def Sirip.queueWord (r : Sirip) : Nat := r.hostOutcome.toNat + 256 * r.hostCount.toNat

/-- The 32 bytes of place `i` of the event ring (R395): zero until an entry stands there. -/
def Sirip.logBytes (r : Sirip) (i : Nat) : List Byte :=
  match r.log.find? fun e => e.seq % 256 == i with
  | some e => e.bytes
  | none => natToBytes 32 0

/-- FWCTL (R428). -/
def Firmware.word (f : Firmware) : Nat :=
  f.active.toNat + 4 * f.try_.toNat + (if f.hb then 16 else 0) + 32 * f.running.toNat + (if f.rollback then 256 else 0) +
    65536 * f.boots.toNat

/-- LINKCTL (R431). -/
def Link.word (l : Link) : Nat := (if l.en then 1 else 0) + 16 * l.width + 256 * l.state + 65536 * l.replays

/-- The pending bits of a function's vectors (R413, R414). -/
def State.pendingWord (s : State) (f : Nat) : Nat := ((s.pend.filter fun x => x.1 == f).map fun x => 2 ^ x.2).sum

/-- A byte of BAR0 of PF0 as the host reads it (R413): write-only registers, reserved fields and reserved offsets read as
zero (R3). -/
def State.readPf (s : State) (off : Nat) : Byte :=
  let at_ (base : Nat) (bs : List Byte) : Byte := bs.getD (off - base) 0
  if off < 64 then s.identByte off
  else if inRegion off 0x1000 64 then at_ 0x1000 s.slotTab
  else if inRegion off 0x2000 512 then at_ 0x2000 ((List.range 8).flatMap s.partBytes)
  else if inRegion off 0x3000 8 then at_ 0x3000 (natToBytes 8 s.sirip.queueWord)
  else if inRegion off 0x4000 8192 then (s.sirip.logBytes ((off - 0x4000) / 32)).getD (off % 32) 0
  else if inRegion off 0x6000 512 then
    (natToBytes 4 (((s.cluster ((off - 0x6000) / 32)).agemon.getD ((off - 0x6000) / 4 % 8) 0).toNat)).getD (off % 4) 0
  else if inRegion off 0x9000 4 then at_ 0x9000 (natToBytes 4 s.fw.word)
  else if inRegion off 0x9100 8 then at_ 0x9100 (natToBytes 8 s.link.word)
  else if inRegion off 0xA1000 32 then at_ 0xA1000 (natToBytes 32 (s.pendingWord 0))
  else if inRegion off 0x8000 4096 || inMsix 0 off then s.bar.read (barBase 0 + off)
  else 0

/-- A byte of BAR0 of a virtual function as the host reads it (R413, R415). -/
def State.readVf (s : State) (vf off : Nat) : Byte :=
  if inRegion off 0x8100 64 then
    (natToBytes 8 ((s.sched.queue (queueOf vf ((off - 0x8100) / 8))).qcfg).toNat).getD (off % 8) 0
  else if inMsix vf off then s.bar.read (barBase vf + off)
  else if inRegion off 0xA000 28 then (natToBytes 28 (s.pendingWord vf)).getD (off - 0xA000) 0
  else 0

/-- What a host read of `n` bytes of BAR0 of a function returns (R3, R413). A read changes nothing, and no row of the
opcode table stands for it. -/
def State.readRegister (s : State) (function off n : Nat) : List Byte :=
  (List.range n).map fun i => if function = 0 then s.readPf (off + i) else if isVf function then s.readVf function (off + i) else 0

end Sys2Proof.Machine
end

