-- ==== Sys2Proof/Machine/System.lean ====
section
/-!
DEFINITION. Uniform operations, predicates, system registers, index registers and REINT (R163 to
R175).
-/
namespace Sys2Proof.Machine

/-! ### Uniform operations (R163 to R166) -/

/-- The second operand of a uniform major (R163). -/
def KForm.second (f : KForm) (t : Troupe) : DWord :=
  if f.sub.getLsbD 0 then f.imm.signExtend 64 else t.kreg f.kb.toNat

/-- A uniform major that writes KD from KA and the second operand. -/
def uniform (i : Instr) (h : Head) (f : KForm) (op : DWord → DWord → DWord) (s : State) :
    Host.Outcome State Fault Refusal :=
  runThread i h 8 (fun p s => .ok (s.mod p fun t =>
    t.setK f.kd.toNat (op (t.kreg f.ka.toNat) (KForm.second f t)))) s

/-- KMOV (R164). -/
def execKmov (h : Head) (f : KForm) (s : State) : Host.Outcome State Fault Refusal :=
  uniform (.kmov h f) h f (fun x _ => x) s
/-- KADD (R164). -/
def execKadd (h : Head) (f : KForm) (s : State) : Host.Outcome State Fault Refusal :=
  uniform (.kadd h f) h f (· + ·) s
/-- KSUB (R164). -/
def execKsub (h : Head) (f : KForm) (s : State) : Host.Outcome State Fault Refusal :=
  uniform (.ksub h f) h f (· - ·) s
/-- KMUL (R164). -/
def execKmul (h : Head) (f : KForm) (s : State) : Host.Outcome State Fault Refusal :=
  uniform (.kmul h f) h f (· * ·) s
/-- KAND (R164). -/
def execKand (h : Head) (f : KForm) (s : State) : Host.Outcome State Fault Refusal :=
  uniform (.kand h f) h f (fun x y => x &&& y) s
/-- KOR (R164). -/
def execKor (h : Head) (f : KForm) (s : State) : Host.Outcome State Fault Refusal :=
  uniform (.kor h f) h f (fun x y => x ||| y) s
/-- KXOR (R164). -/
def execKxor (h : Head) (f : KForm) (s : State) : Host.Outcome State Fault Refusal :=
  uniform (.kxor h f) h f (fun x y => x ^^^ y) s
/-- KSHL (R164). -/
def execKshl (h : Head) (f : KForm) (s : State) : Host.Outcome State Fault Refusal :=
  uniform (.kshl h f) h f (fun x y => x <<< (y.toNat % 64)) s
/-- KSHR (R164). -/
def execKshr (h : Head) (f : KForm) (s : State) : Host.Outcome State Fault Refusal :=
  uniform (.kshr h f) h f (fun x y => x >>> (y.toNat % 64)) s
/-- KSAR (R164). -/
def execKsar (h : Head) (f : KForm) (s : State) : Host.Outcome State Fault Refusal :=
  uniform (.ksar h f) h f (fun x y => x.sshiftRight (y.toNat % 64)) s

/-- A 64-bit value as a compare reads it. -/
def asInt (unsigned : Bool) (x : DWord) : Int := if unsigned then x.toNat else x.toInt

/-- The smaller or larger of two uniform values (R164). -/
def pickInt (unsigned max : Bool) (x y : DWord) : DWord :=
  if (asInt unsigned x ≤ asInt unsigned y) != max then x else y

/-- KMIN (R164). -/
def execKmin (h : Head) (f : KForm) (s : State) : Host.Outcome State Fault Refusal :=
  uniform (.kmin h f) h f (pickInt (f.sub.getLsbD 1) false) s
/-- KMAX (R164). -/
def execKmax (h : Head) (f : KForm) (s : State) : Host.Outcome State Fault Refusal :=
  uniform (.kmax h f) h f (pickInt (f.sub.getLsbD 1) true) s

/-- KCMP (R164). -/
def execKcmp (h : Head) (f : KForm) (s : State) : Host.Outcome State Fault Refusal :=
  runThread (.kcmp h f) h 8 (fun p s => .ok (s.mod p fun t =>
    let u := f.sub.getLsbD 1
    t.setC (f.kd.toNat % 8)
      (holds (f.sub.toNat / 4 % 8) (asInt u (t.kreg f.ka.toNat)) (asInt u (KForm.second f t))))) s

/-- KSEL (R164). -/
def execKsel (h : Head) (f : KForm) (s : State) : Host.Outcome State Fault Refusal :=
  runThread (.ksel h f) h 8 (fun p s => .ok (s.mod p fun t =>
    t.setK f.kd.toNat
      (if t.cpred (f.sub.toNat / 2 % 8) != f.sub.getLsbD 4 then t.kreg f.ka.toNat else KForm.second f t))) s

/-- KLDI at 64 bits (R165). -/
def execKldi (h : Head) (f : KForm) (s : State) : Host.Outcome State Fault Refusal :=
  runThread (.kldi h f) h 8 (fun p s => .ok (s.mod p fun t =>
    t.setK f.kd.toNat (if f.sub = 0 then f.imm.signExtend 64 else f.imm.setWidth 64))) s

/-- KLDI at 128 bits (R165). -/
def execKldi128 (h : Head) (f : LForm) (s : State) : Host.Outcome State Fault Refusal :=
  runThread (.kldi128 h f) h 16 (fun p s => .ok (s.mod p fun t => t.setK f.kd.toNat f.imm)) s

/-- One step of KRED (R166). -/
def redOp (op : Nat) (x y : DWord) : DWord :=
  match op with
  | 0 => x + y
  | 1 => pickInt false false x y
  | 2 => pickInt false true x y
  | 3 => pickInt true false x y
  | 4 => pickInt true true x y
  | 5 => x &&& y
  | 6 => x ||| y
  | _ => x ^^^ y

/-- KRED (R166). -/
def execKred (h : Head) (f : KForm) (s : State) : Host.Outcome State Fault Refusal :=
  runThread (.kred h f) h 8 (fun p s => .ok (s.mod p fun t =>
    let first := f.ka.toNat
    t.setK f.kd.toNat ((List.range' (first + 1) (f.kb.toNat - first)).foldl
      (fun r n => redOp (f.sub.toNat % 8) r (t.kreg n)) (t.kreg first)))) s

/-! ### Predicates (R167 to R169) -/

/-- PAND, POR and PXOR. -/
def predBinary (i : Instr) (h : Head) (f : RForm) (op : Bool → Bool → Bool) (s : State) :
    Host.Outcome State Fault Refusal :=
  runThread i h 8 (fun p s => .ok (s.putPred p f.d.toNat fun l =>
    op (s.predAt p f.a.toNat l != f.sub.getLsbD 0) (s.predAt p f.b.toNat l != f.sub.getLsbD 1))) s

/-- PAND (R167). -/
def execPand (h : Head) (f : RForm) (s : State) : Host.Outcome State Fault Refusal :=
  predBinary (.pand h f) h f (fun x y => x && y) s
/-- POR (R167). -/
def execPor (h : Head) (f : RForm) (s : State) : Host.Outcome State Fault Refusal :=
  predBinary (.por h f) h f (fun x y => x || y) s
/-- PXOR (R167). -/
def execPxor (h : Head) (f : RForm) (s : State) : Host.Outcome State Fault Refusal :=
  predBinary (.pxor h f) h f (fun x y => x != y) s
/-- PNOT (R167). -/
def execPnot (h : Head) (f : RForm) (s : State) : Host.Outcome State Fault Refusal :=
  runThread (.pnot h f) h 8 (fun p s => .ok (s.putPred p f.d.toNat fun l => !s.predAt p f.a.toNat l)) s

/-- PSET (R167). -/
def execPset (h : Head) (f : RForm) (s : State) : Host.Outcome State Fault Refusal :=
  runThread (.pset h f) h 8 (fun p s => .ok (s.putPred p f.d.toNat fun l =>
    match f.sub.toNat with
    | 0 => false
    | 1 => true
    | 2 => (s.kAt p f.a.toNat).getLsbD l
    | _ => (s.troupe p).cpred f.a.toNat)) s

/-- The active lanes in which a predicate is true (R168). -/
def State.ballot (s : State) (p : Path) (n : Nat) : Mask := Mask.ofTest fun l => p.active.has l && s.predAt p n l

/-- PBAL (R168). -/
def execPbal (h : Head) (f : RForm) (s : State) : Host.Outcome State Fault Refusal :=
  runThread (.pbal h f) h 8 (fun p s =>
    let m := s.ballot p f.a.toNat
    .ok (s.mod p fun t => t.setK f.d.toNat (if f.sub.getLsbD 0 then BitVec.ofNat 64 m.count else m))) s

/-- PANY (R168). -/
def execPany (h : Head) (f : RForm) (s : State) : Host.Outcome State Fault Refusal :=
  runThread (.pany h f) h 8 (fun p s =>
    .ok (s.mod p fun t => t.setC f.d.toNat (s.ballot p f.a.toNat != 0))) s

/-- PALL (R168). -/
def execPall (h : Head) (f : RForm) (s : State) : Host.Outcome State Fault Refusal :=
  runThread (.pall h f) h 8 (fun p s =>
    .ok (s.mod p fun t => t.setC f.d.toNat (s.ballot p f.a.toNat == p.active))) s

/-- PELECT (R168). -/
def execPelect (h : Head) (f : RForm) (s : State) : Host.Outcome State Fault Refusal :=
  runThread (.pelect h f) h 8 (fun p s =>
    let ls := (s.ballot p f.a.toNat).lanes
    let chosen := if f.sub.getLsbD 0 then ls.getLast? else ls.head?
    .ok (s.putPred p f.d.toNat fun l => chosen == some l)) s

/-- PMOV (R169). -/
def execPmov (h : Head) (f : RForm) (s : State) : Host.Outcome State Fault Refusal :=
  runThread (.pmov h f) h 8 (fun p s =>
    match f.sub.toNat with
    | 0 => .ok (s.putPred p f.d.toNat fun l => s.predAt p f.a.toNat l)
    | 1 => do
      let a ← s.read1 p f.a.toNat 0 isDefined
      .ok ((s.popPorts p [f.a.toNat]).putPred p f.d.toNat fun l => a.at l != 0)
    | _ => s.finish p [] f.d.toNat .n32 (fun l => if s.predAt p f.a.toNat l then 1 else 0) noFlags) s

/-! ### System registers (R106, R170 to R172) -/

/-- The kernel descriptor of the path's launch. -/
def State.descOf (s : State) (p : Path) : Desc :=
  match s.launchOf p.core p.blk with
  | some l => l.desc
  | none => Desc.none

/-- A field of the work identifier (R104, R105): f1 is the troupe, f2 to f5 cut the block index. -/
def widField (d : Desc) (troupe block n : Nat) : Nat :=
  let w := d.widths.getD (n - 1) 0
  if n = 1 then troupe % 2 ^ w
  else block / 2 ^ (((d.widths.drop 1).take (n - 2)).foldl (· + ·) 0) % 2 ^ w

/-- %wid less its lane field (R104). -/
def widBase (d : Desc) (troupe block : Nat) : Nat := troupe * 64 + block * 2 ^ (6 + d.widths.getD 0 0)

/-- The bits of a field of a tile descriptor that are not reserved: fmt has five (R3, R325). -/
def tileBits (f : Nat) : Word := if f = 4 then 0x1F else BitVec.allOnes 32

/-- A system register's value for a lane; a uniform read uses lane 0 (R106, R170, R171). Reserved bits read as zero
(R3), though a matrix instruction that finds one set in its tile is ILLEGAL (R327). -/
def State.sysReg (s : State) (p : Path) (n l : Nat) : DWord :=
  let t := s.troupe p
  let b := s.block p
  let d := s.descOf p
  let nat (x : Nat) : DWord := BitVec.ofNat 64 x
  match n with
  | 0x000 => nat (widBase d t.idx b.index + l)
  | 0x001 | 0x002 | 0x003 | 0x004 | 0x005 => nat (widField d t.idx b.index n)
  | 0x006 => nat t.idx
  | 0x007 => nat b.index
  | 0x008 => nat p.core
  | 0x009 => nat (p.core / 8)
  | 0x00A => nat (p.core % 2)
  | 0x00B => nat ((s.launchOf p.core p.blk).map (·.il) |>.getD 0)
  | 0x00C => t.role.setWidth 64
  | 0x00D => t.step.setWidth 64
  | 0x00E => t.recCount.setWidth 64
  | 0x00F => s.clock
  | 0x010 => nat l
  | 0x020 => t.fmode.setWidth 64
  | 0x021 => t.fstat.setWidth 64
  | 0x022 => if t.satt then 0x20 else 0
  | 0x030 => if s.debugOf p then 1 else 0
  | 0x031 => if (s.core p.core).inject then 1 else 0
  | _ => (t.tileField ((n - 0x100) / 8) ((n - 0x100) % 8) &&& tileBits ((n - 0x100) % 8)).setWidth 64

/-- MOVX (R171). -/
def execMovx (h : Head) (f : IForm) (s : State) : Host.Outcome State Fault Refusal :=
  runThread (.movx h f) h f.len.bytes (fun p s =>
    let n := f.imm.toNat
    match f.sub.toNat with
    | 0 => .ok (s.mod p fun t => t.setK (f.d.toNat % 64) (s.sysReg p n 0))
    | 1 => s.finish p [] f.d.toNat .n32 (fun l => loWord (s.sysReg p n l)) noFlags
    | _ => s.finishGroup p [] f.d.toNat (asPair .i64l .i64h (s.sysReg p n)) noFlags) s

/-- Write a system register of a troupe (R170). -/
def Troupe.setSys (t : Troupe) (n : Nat) (v : DWord) : Troupe :=
  match n with
  | 0x020 => { t with fmode := v.setWidth 3 }
  | 0x021 => { t with fstat := v.setWidth 7 }
  | 0x022 => { t with satt := v.getLsbD 5 }
  | _ =>
    let i := (n - 0x100) / 8
    { t with tiles := t.tiles.set i ((t.tiles.getD i []).set ((n - 0x100) % 8) (loWord v)) }

/-- MOVC (R172). -/
def execMovc (h : Head) (f : KForm) (s : State) : Host.Outcome State Fault Refusal :=
  runThread (.movc h f) h 8 (fun p s =>
    let n := f.imm.toNat
    let old := s.sysReg p n 0
    let x := s.kAt p f.ka.toNat
    let v := match f.sub.toNat with
      | 0 => x
      | 1 => old ||| x
      | _ => old &&& ~~~x
    if n = 0x030 || n = 0x031 then activeFault p codeAccess 0
    else if n = 0x020 && (v.toNat % 8 = 0 || 5 < v.toNat % 8) then activeFault p codeIllegal 0
    else .ok (s.mod p fun t => t.setSys n v)) s

/-! ### Index registers and REINT (R173 to R175) -/

/-- IDXSET (R173). -/
def execIdxset (h : Head) (f : IForm) (s : State) : Host.Outcome State Fault Refusal :=
  runThread (.idxset h f) h f.len.bytes (fun p s => do
    let i := f.d.toNat % 8
    let lo : BitVec 11 := BitVec.ofNat 11 (bitsOf f.imm.toNat 10 0)
    let hi : BitVec 11 := BitVec.ofNat 11 (bitsOf f.imm.toNat 26 16)
    let set (s : State) (v : Nat → BitVec 11) : State := s.mod p fun t =>
      { (t.modLanes p.active fun l x => { x with idx := x.idx.set i (v l) }) with
        bounds := t.bounds.set i (lo, hi) }
    if f.sub = 0 then do
      let a ← s.read1 p f.a.toNat 0 isInt32
      .ok (set (s.popPorts p [f.a.toNat]) fun l => (a.at l).setWidth 11)
    else .ok (set s fun _ => lo)) s

/-- IDXADD (R174). -/
def execIdxadd (h : Head) (f : IForm) (s : State) : Host.Outcome State Fault Refusal :=
  runThread (.idxadd h f) h f.len.bytes (fun p s =>
    .ok (s.mod p fun t => t.modLanes p.active fun _ x =>
      { x with idx := x.idx.set (f.d.toNat % 8) (x.idx.getD (f.a.toNat % 8) 0 + f.imm.setWidth 11) })) s

/-- REINT (R175). -/
def execReint (h : Head) (f : RForm) (s : State) : Host.Outcome State Fault Refusal :=
  runThread (.reint h f) h f.len.bytes (fun p s =>
    let code := f.sub.toNat
    if code = 0xB || code = 0xD then do
      let t := s.troupe p
      t.checkSource p 0 [(f.a.toNat, isDefined), (f.a.toNat + 1, isDefined)]
      let lo := (t.permuted f.a.toNat f.pa.toNat)
      let hi := (t.permuted (f.a.toNat + 1) f.pa.toNat)
      let tags := if code = 0xB then (Tag.i64l, Tag.i64h) else (Tag.dfh, Tag.dfl)
      s.finishGroup p [] f.d.toNat [(tags.1, fun l => lo.getD l 0), (tags.2, fun l => hi.getD l 0)] noFlags
    else do
      let a ← s.read1 p f.a.toNat f.pa.toNat isDefined
      s.finish p [f.a.toNat] f.d.toNat (tagOf code) a.at noFlags) s

end Sys2Proof.Machine
end

