-- ==== Sys2Proof/Machine/Dispatch.lean ====
section
/-!
DEFINITION. One arm for each instruction, in the order of the opcode table: a direct call of its meaning.
-/
namespace Sys2Proof.Machine

def exec (i : Instr) (s : State) : Host.Outcome State Fault Refusal :=
  match i with
  | .nop h f => Sys2Proof.Machine.execNop h f s
  | .bra h f => Sys2Proof.Machine.execBra h f s
  | .bru h f => Sys2Proof.Machine.execBru h f s
  | .brx h f => Sys2Proof.Machine.execBrx h f s
  | .call h f => Sys2Proof.Machine.execCall h f s
  | .callx h f => Sys2Proof.Machine.execCallx h f s
  | .ret h f => Sys2Proof.Machine.execRet h f s
  | .exit h f => Sys2Proof.Machine.execExit h f s
  | .depart h f => Sys2Proof.Machine.execDepart h f s
  | .sleep h f => Sys2Proof.Machine.execSleep h f s
  | .trap h f => Sys2Proof.Machine.execTrap h f s
  | .bkpt h f => Sys2Proof.Machine.execBkpt h f s
  | .step h f => Sys2Proof.Machine.execStep h f s
  | .loop h f => Sys2Proof.Machine.execLoop h f s
  | .iadd h f => Sys2Proof.Machine.execIadd h f s
  | .isub h f => Sys2Proof.Machine.execIsub h f s
  | .imul h f => Sys2Proof.Machine.execImul h f s
  | .imulh h f => Sys2Proof.Machine.execImulh h f s
  | .imad h f => Sys2Proof.Machine.execImad h f s
  | .imin h f => Sys2Proof.Machine.execImin h f s
  | .imax h f => Sys2Proof.Machine.execImax h f s
  | .iabs h f => Sys2Proof.Machine.execIabs h f s
  | .and h f => Sys2Proof.Machine.execAnd h f s
  | .or h f => Sys2Proof.Machine.execOr h f s
  | .xor h f => Sys2Proof.Machine.execXor h f s
  | .andn h f => Sys2Proof.Machine.execAndn h f s
  | .shl h f => Sys2Proof.Machine.execShl h f s
  | .shr h f => Sys2Proof.Machine.execShr h f s
  | .sar h f => Sys2Proof.Machine.execSar h f s
  | .rot h f => Sys2Proof.Machine.execRot h f s
  | .popc h f => Sys2Proof.Machine.execPopc h f s
  | .clz h f => Sys2Proof.Machine.execClz h f s
  | .brev h f => Sys2Proof.Machine.execBrev h f s
  | .bfx h f => Sys2Proof.Machine.execBfx h f s
  | .bfi h f => Sys2Proof.Machine.execBfi h f s
  | .sel h f => Sys2Proof.Machine.execSel h f s
  | .icmp h f => Sys2Proof.Machine.execIcmp h f s
  | .iadd64 h f => Sys2Proof.Machine.execIadd64 h f s
  | .isub64 h f => Sys2Proof.Machine.execIsub64 h f s
  | .imulw h f => Sys2Proof.Machine.execImulw h f s
  | .idiv h f => Sys2Proof.Machine.execIdiv h f s
  | .irem h f => Sys2Proof.Machine.execIrem h f s
  | .lea h f => Sys2Proof.Machine.execLea h f s
  | .shfl h f => Sys2Proof.Machine.execShfl h f s
  | .mov h f => Sys2Proof.Machine.execMov h f s
  | .movk h f => Sys2Proof.Machine.execMovk h f s
  | .iaddi h f => Sys2Proof.Machine.execIaddi h f s
  | .imuli h f => Sys2Proof.Machine.execImuli h f s
  | .andi h f => Sys2Proof.Machine.execAndi h f s
  | .ori h f => Sys2Proof.Machine.execOri h f s
  | .xori h f => Sys2Proof.Machine.execXori h f s
  | .shli h f => Sys2Proof.Machine.execShli h f s
  | .shri h f => Sys2Proof.Machine.execShri h f s
  | .sari h f => Sys2Proof.Machine.execSari h f s
  | .icmpi h f => Sys2Proof.Machine.execIcmpi h f s
  | .movi h f => Sys2Proof.Machine.execMovi h f s
  | .kmov h f => Sys2Proof.Machine.execKmov h f s
  | .kadd h f => Sys2Proof.Machine.execKadd h f s
  | .ksub h f => Sys2Proof.Machine.execKsub h f s
  | .kmul h f => Sys2Proof.Machine.execKmul h f s
  | .kand h f => Sys2Proof.Machine.execKand h f s
  | .kor h f => Sys2Proof.Machine.execKor h f s
  | .kxor h f => Sys2Proof.Machine.execKxor h f s
  | .kshl h f => Sys2Proof.Machine.execKshl h f s
  | .kshr h f => Sys2Proof.Machine.execKshr h f s
  | .ksar h f => Sys2Proof.Machine.execKsar h f s
  | .kcmp h f => Sys2Proof.Machine.execKcmp h f s
  | .ksel h f => Sys2Proof.Machine.execKsel h f s
  | .kldi h f => Sys2Proof.Machine.execKldi h f s
  | .kldi128 h f => Sys2Proof.Machine.execKldi128 h f s
  | .kmin h f => Sys2Proof.Machine.execKmin h f s
  | .kmax h f => Sys2Proof.Machine.execKmax h f s
  | .kred h f => Sys2Proof.Machine.execKred h f s
  | .pand h f => Sys2Proof.Machine.execPand h f s
  | .por h f => Sys2Proof.Machine.execPor h f s
  | .pxor h f => Sys2Proof.Machine.execPxor h f s
  | .pnot h f => Sys2Proof.Machine.execPnot h f s
  | .pset h f => Sys2Proof.Machine.execPset h f s
  | .pbal h f => Sys2Proof.Machine.execPbal h f s
  | .pany h f => Sys2Proof.Machine.execPany h f s
  | .pall h f => Sys2Proof.Machine.execPall h f s
  | .pelect h f => Sys2Proof.Machine.execPelect h f s
  | .pmov h f => Sys2Proof.Machine.execPmov h f s
  | .movx h f => Sys2Proof.Machine.execMovx h f s
  | .movc h f => Sys2Proof.Machine.execMovc h f s
  | .idxset h f => Sys2Proof.Machine.execIdxset h f s
  | .idxadd h f => Sys2Proof.Machine.execIdxadd h f s
  | .reint h f => Sys2Proof.Machine.execReint h f s
  | .fadd h f => Sys2Proof.Machine.execFadd h f s
  | .fsub h f => Sys2Proof.Machine.execFsub h f s
  | .fmul h f => Sys2Proof.Machine.execFmul h f s
  | .ffma h f => Sys2Proof.Machine.execFfma h f s
  | .fmin h f => Sys2Proof.Machine.execFmin h f s
  | .fmax h f => Sys2Proof.Machine.execFmax h f s
  | .fcmp h f => Sys2Proof.Machine.execFcmp h f s
  | .fclass h f => Sys2Proof.Machine.execFclass h f s
  | .frcp h f => Sys2Proof.Machine.execFrcp h f s
  | .fsqrt h f => Sys2Proof.Machine.execFsqrt h f s
  | .frsq h f => Sys2Proof.Machine.execFrsq h f s
  | .fexp2 h f => Sys2Proof.Machine.execFexp2 h f s
  | .flog2 h f => Sys2Proof.Machine.execFlog2 h f s
  | .fsinp h f => Sys2Proof.Machine.execFsinp h f s
  | .fcosp h f => Sys2Proof.Machine.execFcosp h f s
  | .ftanh h f => Sys2Proof.Machine.execFtanh h f s
  | .fdiv h f => Sys2Proof.Machine.execFdiv h f s
  | .frnd h f => Sys2Proof.Machine.execFrnd h f s
  | .fscale h f => Sys2Proof.Machine.execFscale h f s
  | .fcpys h f => Sys2Proof.Machine.execFcpys h f s
  | .dwadd h f => Sys2Proof.Machine.execDwadd h f s
  | .dwadds h f => Sys2Proof.Machine.execDwadds h f s
  | .dwmul h f => Sys2Proof.Machine.execDwmul h f s
  | .dwmuls h f => Sys2Proof.Machine.execDwmuls h f s
  | .dwnorm h f => Sys2Proof.Machine.execDwnorm h f s
  | .vrsum h f => Sys2Proof.Machine.execVrsum h f s
  | .vrsumc h f => Sys2Proof.Machine.execVrsumc h f s
  | .vrmax h f => Sys2Proof.Machine.execVrmax h f s
  | .vrmin h f => Sys2Proof.Machine.execVrmin h f s
  | .vrdotc h f => Sys2Proof.Machine.execVrdotc h f s
  | .cvt h f => Sys2Proof.Machine.execCvt h f s
  | .cvtbx h f => Sys2Proof.Machine.execCvtbx h f s
  | .cvtxb h f => Sys2Proof.Machine.execCvtxb h f s
  | .pack2 h f => Sys2Proof.Machine.execPack2 h f s
  | .unpk2 h f => Sys2Proof.Machine.execUnpk2 h f s
  | .cvti h f => Sys2Proof.Machine.execCvti h f s
  | .ld h f => Sys2Proof.Machine.execLd h f s
  | .st h f => Sys2Proof.Machine.execSt h f s
  | .ldl h f => Sys2Proof.Machine.execLdl h f s
  | .stl h f => Sys2Proof.Machine.execStl h f s
  | .ldk h f => Sys2Proof.Machine.execLdk h f s
  | .atom h f => Sys2Proof.Machine.execAtom h f s
  | .red h f => Sys2Proof.Machine.execRed h f s
  | .atoml h f => Sys2Proof.Machine.execAtoml h f s
  | .pref h f => Sys2Proof.Machine.execPref h f s
  | .fence h f => Sys2Proof.Machine.execFence h f s
  | .cclean h f => Sys2Proof.Machine.execCclean h f s
  | .scfg h f => Sys2Proof.Machine.execScfg h f s
  | .sdrain h f => Sys2Proof.Machine.execSdrain h f s
  | .sclose h f => Sys2Proof.Machine.execSclose h f s
  | .spos h f => Sys2Proof.Machine.execSpos h f s
  | .seos h f => Sys2Proof.Machine.execSeos h f s
  | .sseek h f => Sys2Proof.Machine.execSseek h f s
  | .binit h f => Sys2Proof.Machine.execBinit h f s
  | .expect h f => Sys2Proof.Machine.execExpect h f s
  | .arrive h f => Sys2Proof.Machine.execArrive h f s
  | .await h f => Sys2Proof.Machine.execAwait h f s
  | .rinit h f => Sys2Proof.Machine.execRinit h f s
  | .awaitf h f => Sys2Proof.Machine.execAwaitf h f s
  | .relslot h f => Sys2Proof.Machine.execRelslot h f s
  | .cstep h f => Sys2Proof.Machine.execCstep h f s
  | .csched h f => Sys2Proof.Machine.execCsched h f s
  | .rcfence h f => Sys2Proof.Machine.execRcfence h f s
  | .rcfenceAll h f => Sys2Proof.Machine.execRcfenceAll h f s
  | .cstat h f => Sys2Proof.Machine.execCstat h f s
  | .rcseal h f => Sys2Proof.Machine.execRcseal h f s
  | .mma h f => Sys2Proof.Machine.execMma h f s
  | .mmas h f => Sys2Proof.Machine.execMmas h f s
  | .mzero h f => Sys2Proof.Machine.execMzero h f s
  | .accld h f => Sys2Proof.Machine.execAccld h f s
  | .accst h f => Sys2Proof.Machine.execAccst h f s
  | .accrd h f => Sys2Proof.Machine.execAccrd h f s
  | .accwr h f => Sys2Proof.Machine.execAccwr h f s
  | .mlive h f => Sys2Proof.Machine.execMlive h f s
  | .mpert h f => Sys2Proof.Machine.execMpert h f s
  | .mstat h f => Sys2Proof.Machine.execMstat h f s
  | .fetchw h f => Sys2Proof.Machine.execFetchw h f s
  | .spawn h f => Sys2Proof.Machine.execSpawn h f s
  | .enq h f => Sys2Proof.Machine.execEnq h f s
  | .jobstQuery h f => Sys2Proof.Machine.execJobstQuery h f s
  | .jobstCancel h f => Sys2Proof.Machine.execJobstCancel h f s
  | .sigchk h f => Sys2Proof.Machine.execSigchk h f s
  | .modeQuery h f => Sys2Proof.Machine.execModeQuery h f s
  | .modeReq h f => Sys2Proof.Machine.execModeReq h f s
  | .loadDataReturn core rid => Sys2Proof.Machine.execLoadDataReturn core rid s
  | .tlbFillComplete core va evict => Sys2Proof.Machine.execTlbFillComplete core va evict s
  | .wakeTime core rid => Sys2Proof.Machine.execWakeTime core rid s
  | .streamFetchComplete core ctx lane => Sys2Proof.Machine.execStreamFetchComplete core ctx lane s
  | .readBack core good => Sys2Proof.Machine.execReadBack core good s
  | .relaunch core => Sys2Proof.Machine.execRelaunch core s
  | .pushTranslationRestored core ctx lane ok => Sys2Proof.Machine.execPushTranslationRestored core ctx lane ok s
  | .faultRecordConsumed n => Sys2Proof.Machine.execFaultRecordConsumed n s
  | .faultAnswerResume seq => Sys2Proof.Machine.execFaultAnswerResume seq s
  | .faultAnswerSkip seq => Sys2Proof.Machine.execFaultAnswerSkip seq s
  | .faultAnswerSave seq => Sys2Proof.Machine.execFaultAnswerSave seq s
  | .faultAnswerKill seq => Sys2Proof.Machine.execFaultAnswerKill seq s
  | .faultAnswerStepback seq n => Sys2Proof.Machine.execFaultAnswerStepback seq n s
  | .blockDone core slot => Sys2Proof.Machine.execBlockDone core slot s
  | .preemptRequest cores => Sys2Proof.Machine.execPreemptRequest cores s
  | .preemptAck core engine => Sys2Proof.Machine.execPreemptAck core engine s
  | .premaxExpiry core slot => Sys2Proof.Machine.execPremaxExpiry core slot s
  | .saveRoomAvailable core => Sys2Proof.Machine.execSaveRoomAvailable core s
  | .contextRestore core => Sys2Proof.Machine.execContextRestore core s
  | .scriptReadComplete core slot => Sys2Proof.Machine.execScriptReadComplete core slot s
  | .copyStart core slot => Sys2Proof.Machine.execCopyStart core slot s
  | .recordObtained core copy => Sys2Proof.Machine.execRecordObtained core copy s
  | .copyComplete core copy => Sys2Proof.Machine.execCopyComplete core copy s
  | .matrixStart pair => Sys2Proof.Machine.execMatrixStart pair s
  | .matrixLastRead pair => Sys2Proof.Machine.execMatrixLastRead pair s
  | .matrixRetire pair => Sys2Proof.Machine.execMatrixRetire pair s
  | .dmwrSubmit vf queue off data => Sys2Proof.Machine.execDmwrSubmit vf queue off data s
  | .windowPostedWrite vf queue => Sys2Proof.Machine.execWindowPostedWrite vf queue s
  | .queueHeadPass queue => Sys2Proof.Machine.execQueueHeadPass queue s
  | .cancelRegisterWrite vf value => Sys2Proof.Machine.execCancelRegisterWrite vf value s
  | .cancel => Sys2Proof.Machine.execCancel s
  | .bind queue rec => Sys2Proof.Machine.execBind queue rec s
  | .drain queue rec addr => Sys2Proof.Machine.execDrain queue rec addr s
  | .reprioritise queue rec => Sys2Proof.Machine.execReprioritise queue rec s
  | .coreRowBind core slot rec => Sys2Proof.Machine.execCoreRowBind core slot rec s
  | .drainPositionWrite launch => Sys2Proof.Machine.execDrainPositionWrite launch s
  | .consistentCut launch => Sys2Proof.Machine.execConsistentCut launch s
  | .cutComplete launch addr => Sys2Proof.Machine.execCutComplete launch addr s
  | .workRequest core => Sys2Proof.Machine.execWorkRequest core s
  | .blockPlace core => Sys2Proof.Machine.execBlockPlace core s
  | .fetchwService core rid => Sys2Proof.Machine.execFetchwService core rid s
  | .finalUpdate launch => Sys2Proof.Machine.execFinalUpdate launch s
  | .secondUpdate launch => Sys2Proof.Machine.execSecondUpdate launch s
  | .watchdog core slot troupe => Sys2Proof.Machine.execWatchdog core slot troupe s
  | .quenchRotate => Sys2Proof.Machine.execQuenchRotate s
  | .rotgapExpiry => Sys2Proof.Machine.execRotgapExpiry s
  | .quenchDrainDone core => Sys2Proof.Machine.execQuenchDrainDone core s
  | .quenchDrainTimeout core => Sys2Proof.Machine.execQuenchDrainTimeout core s
  | .scanPass core => Sys2Proof.Machine.execScanPass core s
  | .scanFail core laneFaults laneOnly secondPass => Sys2Proof.Machine.execScanFail core laneFaults laneOnly secondPass s
  | .restoreComplete core => Sys2Proof.Machine.execRestoreComplete core s
  | .siripqWrite value => Sys2Proof.Machine.execSiripqWrite value s
  | .siripRequest => Sys2Proof.Machine.execSiripRequest s
  | .pairDrainDone pair => Sys2Proof.Machine.execPairDrainDone pair s
  | .matchWindowExpiry core slot troupe => Sys2Proof.Machine.execMatchWindowExpiry core slot troupe s
  | .blockRetryPlace core => Sys2Proof.Machine.execBlockRetryPlace core s
  | .lastingScanComplete pair leaderFails understudyFails => Sys2Proof.Machine.execLastingScanComplete pair leaderFails understudyFails s
  | .correctedError core row => Sys2Proof.Machine.execCorrectedError core row s
  | .uncorrectableError site => Sys2Proof.Machine.execUncorrectableError site s
  | .channelFailing channel => Sys2Proof.Machine.execChannelFailing channel s
  | .channelFreeAck => Sys2Proof.Machine.execChannelFreeAck s
  | .channelMigrationDone => Sys2Proof.Machine.execChannelMigrationDone s
  | .agemonSample cluster monitor value => Sys2Proof.Machine.execAgemonSample cluster monitor value s
  | .cinjWrite value => Sys2Proof.Machine.execCinjWrite value s
  | .injectArm core => Sys2Proof.Machine.execInjectArm core s
  | .siripackWrite value => Sys2Proof.Machine.execSiripackWrite value s
  | .siripLockstepError => Sys2Proof.Machine.execSiripLockstepError s
  | .timeSlotWrite slot value => Sys2Proof.Machine.execTimeSlotWrite slot value s
  | .frameBoundary => Sys2Proof.Machine.execFrameBoundary s
  | .partitionRegWrite part off value => Sys2Proof.Machine.execPartitionRegWrite part off value s
  | .merge a b => Sys2Proof.Machine.execMerge a b s
  | .split a b firstCluster colour slots => Sys2Proof.Machine.execSplit a b firstCluster colour slots s
  | .keyset vf core slot pasid key salt ctr => Sys2Proof.Machine.execKeyset vf core slot pasid key salt ctr s
  | .atsInvalidation vf pasid va size => Sys2Proof.Machine.execAtsInvalidation vf pasid va size s
  | .prgResponseSuccess index answer => Sys2Proof.Machine.execPrgResponseSuccess index answer s
  | .prgResponseInvalid index => Sys2Proof.Machine.execPrgResponseInvalid index s
  | .prgResponseFailure => Sys2Proof.Machine.execPrgResponseFailure s
  | .priReenable => Sys2Proof.Machine.execPriReenable s
  | .atomicopCompletion core rid ok => Sys2Proof.Machine.execAtomicopCompletion core rid ok s
  | .receivedAtomicop vf => Sys2Proof.Machine.execReceivedAtomicop vf s
  | .hostMemoryRequest vf addr write data => Sys2Proof.Machine.execHostMemoryRequest vf addr write data s
  | .unstreamedRequest vf => Sys2Proof.Machine.execUnstreamedRequest vf s
  | .ideIntegrityFailure vf => Sys2Proof.Machine.execIdeIntegrityFailure vf s
  | .kSetGo vf => Sys2Proof.Machine.execKSetGo vf s
  | .tdiLock vf => Sys2Proof.Machine.execTdiLock vf s
  | .tdiStart vf => Sys2Proof.Machine.execTdiStart vf s
  | .stopInterface vf => Sys2Proof.Machine.execStopInterface vf s
  | .spdmCert => Sys2Proof.Machine.execSpdmCert s
  | .spdmChal => Sys2Proof.Machine.execSpdmChal s
  | .spdmMeas index => Sys2Proof.Machine.execSpdmMeas index s
  | .spdmKeyEx => Sys2Proof.Machine.execSpdmKeyEx s
  | .firmwareImageWrite verifies => Sys2Proof.Machine.execFirmwareImageWrite verifies s
  | .pendingWrite value => Sys2Proof.Machine.execPendingWrite value s
  | .rollbackClear => Sys2Proof.Machine.execRollbackClear s
  | .mgmtCoreRestart => Sys2Proof.Machine.execMgmtCoreRestart s
  | .heartbeat => Sys2Proof.Machine.execHeartbeat s
  | .heartbeatTimeout => Sys2Proof.Machine.execHeartbeatTimeout s
  | .linkEnable => Sys2Proof.Machine.execLinkEnable s
  | .linkDisable => Sys2Proof.Machine.execLinkDisable s
  | .linkUp width => Sys2Proof.Machine.execLinkUp width s
  | .linkTrainingTimeout => Sys2Proof.Machine.execLinkTrainingTimeout s
  | .linkRecovery flits => Sys2Proof.Machine.execLinkRecovery flits s
  | .linkRecoveryTimeout => Sys2Proof.Machine.execLinkRecoveryTimeout s
  | .peerRequest addr write data => Sys2Proof.Machine.execPeerRequest addr write data s
  | .perst => Sys2Proof.Machine.execPerst s
  | .powerLoss => Sys2Proof.Machine.execPowerLoss s
  | .dramClearComplete => Sys2Proof.Machine.execDramClearComplete s
  | .thermalStepDown => Sys2Proof.Machine.execThermalStepDown s
  | .thermalTrip => Sys2Proof.Machine.execThermalTrip s
  | .registerWrite function offset value => Sys2Proof.Machine.execRegisterWrite function offset value s
  | .registerImage addr size => Sys2Proof.Machine.execRegisterImage addr size s
  | .ideKmKeyProg vf keys => Sys2Proof.Machine.execIdeKmKeyProg vf keys s
  | .linkRecoveryComplete => Sys2Proof.Machine.execLinkRecoveryComplete s
  | .prompterKill core slot => Sys2Proof.Machine.execPrompterKill core slot s

end Sys2Proof.Machine
end

