-- ==== Sys2Proof/Machine/Layout.lean ====
section
/-!
DEFINITION. The bytes that the device itself lays out in device DRAM for the prompter and a debugger: spilled cue
records and troupe frames in the wings areas (R122 to R126), the undo logs of the debug areas and the replay rings of
the L2 banks (R193, R195, R196).
-/
namespace Sys2Proof.Machine

/-- Zero bytes up to a multiple of `n`. -/
def padTo (n : Nat) (bs : List Byte) : List Byte := bs ++ List.replicate (roundUp bs.length n - bs.length) 0

/-! ### Cue records (R122, R123) -/

/-- What a record's header says beside its offsets. -/
structure CueHead where
  key : Nat
  resume : DWord
  mask : Mask
  block : Nat
  troupe : Nat
  prio : Nat
  kind : Nat
  flags : Byte
  sibseq : BitVec 16
  live : Nat
  recCount : Word
  fault : Nat
  laneOff : Nat
  dataOff : Nat
  size : Nat
  micros : Nat
  deriving DecidableEq, Repr

/-- The header before CHECK. -/
def CueHead.body (h : CueHead) : List Byte :=
  natToBytes 8 h.key ++ natToBytes 8 h.resume.toNat ++ natToBytes 8 h.mask.toNat ++ natToBytes 8 h.block ++
    [BitVec.ofNat 8 h.troupe, BitVec.ofNat 8 h.prio, BitVec.ofNat 8 h.kind, h.flags] ++
    natToBytes 2 h.sibseq.toNat ++ natToBytes 2 h.live ++ natToBytes 4 h.recCount.toNat ++ natToBytes 4 h.fault ++
    natToBytes 2 h.laneOff ++ natToBytes 2 h.dataOff ++ natToBytes 4 h.size ++ natToBytes 4 h.micros

/-- The 64 bytes of a header (R122). -/
def CueHead.bytes (h : CueHead) : List Byte := h.body ++ natToBytes 4 (checkWord (wordsOf h.body))

/-- A record's live registers as they stand, in ascending order: what has not returned is not there yet (R120). -/
def CueRec.regsNow (r : CueRec) : List RegData :=
  let all := r.absorb.regs.mergeSort fun x y => decide (x.reg ≤ y.reg)
  if r.ready then all
  else
    all.map fun x => match r.regs.find? fun y => y.reg == x.reg with
      | some y => y
      | none => { x with lanes := [] }

/-- The live map (R123). -/
def liveMap (regs : Nat) (ds : List RegData) : List Byte :=
  padTo 8 (natToBytes (regs / 8) ((ds.map fun d => 2 ^ d.reg).foldl (· + ·) 0))

/-- The tags of the live registers, low nibble first (R123). -/
def tagNibbles : List RegData → List Byte
  | a :: b :: t => BitVec.ofNat 8 (a.tag.code + 16 * b.tag.code) :: tagNibbles t
  | [a] => [BitVec.ofNat 8 a.tag.code]
  | [] => []

/-- One lane's 88 bytes (R123). DESIGN CHOICE (entry 81): entry 0 of the hardware return stack is the newest; the spec
does not number them. -/
def Lane.bytes (x : Lane) : List Byte :=
  natToBytes 2 (x.preds.toNat / 2 * 2) ++ natToBytes 2 x.depth ++ (x.idx.flatMap fun i => natToBytes 2 i.toNat) ++
    (((x.ret ++ List.replicate 8 (0 : DWord)).take 8).flatMap fun a => natToBytes 8 a.toNat) ++ natToBytes 4 x.scope.toNat

/-- The lanes of a mask of some register data, in ascending order. -/
def RegData.bytes (d : RegData) (m : Mask) : List Byte := m.lanes.flatMap fun l => natToBytes 4 (d.lanes.getD l 0).toNat

/-- The uniform result of an LDK (R123). -/
def uniformBytes (u : Nat × DWord) (ready : Bool) : List Byte :=
  natToBytes 8 (if ready then u.2.toNat else 0) ++ natToBytes 8 u.1

/-- The bytes of a spilled cue record (R122, R123): header, live map, tags, per-lane section, register data, uniform
result. -/
def State.recordBytes (s : State) (c : Nat) (r : CueRec) : List Byte :=
  let k := s.core c
  let regs := ((k.block r.blk).map (·.regs)).getD 0
  let ds := r.regsNow
  let map := liveMap regs ds
  let tags := padTo 8 (tagNibbles ds)
  let lanes := r.mask.lanes.flatMap fun l => (r.lanes.getD l Lane.reset).bytes
  let data := ds.flatMap fun d => d.bytes r.mask
  let laneOff := 64 + map.length + tags.length
  let framed := ((k.troupe r.blk r.troupe).map Troupe.framed).getD false
  let h : CueHead :=
    { key := (Config.keyIdent r.rid).toNat, resume := r.resume, mask := r.mask
      block := ((k.block r.blk).map (·.index)).getD 0, troupe := r.troupe, prio := r.prio, kind := r.kind
      flags := flagByte [framed, r.spilled, r.ready, r.cancel], sibseq := r.sibseq, live := ds.length
      recCount := r.recCount, fault := if r.kind = 2 then r.fault else 0, laneOff := laneOff
      dataOff := laneOff + lanes.length, size := k.sizeOf r, micros := (s.clock.toNat - r.since) / 3200 }
  padTo 64 (h.bytes ++ map ++ tags ++ lanes ++ data ++ match r.uresult with
    | some u => uniformBytes u r.ready
    | none => [])

/-! ### Troupe frames (R124) -/

/-- The body of a troupe frame (R124). -/
def Troupe.frameBody (t : Troupe) : List Byte :=
  (t.k.flatMap fun x => natToBytes 8 x.toNat) ++ natToBytes 8 t.c.toNat ++
    (t.bounds.flatMap fun b => natToBytes 4 (b.1.toNat + 2 ^ 16 * b.2.toNat)) ++
    (t.tiles.flatMap fun d => d.flatMap fun w => natToBytes 4 w.toNat) ++
    natToBytes 8 (t.fmode.toNat + 2 ^ 8 * t.fstat.toNat + (if t.satt then 2 ^ 21 else 0)) ++
    natToBytes 4 (t.live.toNat + if t.liveSet then 2 ^ 16 else 0) ++ natToBytes 4 t.step.toNat ++ natToBytes 8 0

/-- The bytes of a spilled troupe frame (R124). -/
def State.frameBytes (s : State) (c : Nat) (t : Troupe) : List Byte :=
  let h : CueHead :=
    { key := 0, resume := 0, mask := 0, block := (((s.core c).block t.blk).map (·.index)).getD 0, troupe := t.idx
      prio := t.prio, kind := 3, flags := flagByte [true, t.frameSpilled], sibseq := t.sib, live := 0
      recCount := t.recCount, fault := 0, laneOff := 0, dataOff := 0, size := frameSize, micros := 0 }
  h.bytes ++ t.frameBody

/-! ### The wings areas (R125, R126) -/

/-- A record is to be written into the wings area, for the first time or as it has become (R125). -/
def CueRec.unwritten (r : CueRec) : Bool := r.spilled && !r.written

/-- A frame is to be written into the wings area. -/
def Troupe.unwritten (t : Troupe) : Bool := t.framed && t.frameSpilled && !t.frameWritten

/-- Every spilled record and frame of a core stands in its wings area. -/
def Core.written (k : Core) : Core :=
  { k with
    cue := k.cue.map fun (r : CueRec) => if r.unwritten then { r with written := true } else r
    troupes := k.troupes.map fun (t : Troupe) => if t.unwritten then { t with frameWritten := true } else t }

/-- What a core has spilled goes into its wings area. -/
def State.writeWings (s : State) (c : Nat) : State :=
  let k := s.core c
  let rs := (k.cue.filter CueRec.unwritten).map fun r => (r.wingsAt, s.recordBytes c r)
  let ts := (k.troupes.filter Troupe.unwritten).map fun t => (t.frameAt, s.frameBytes c t)
  (s.devWrites k.wingsBase (rs ++ ts)).modCore c Core.written

/-- A core has spilled something that does not stand in its wings area. -/
def Core.owesWings (k : Core) : Bool := k.cue.any CueRec.unwritten || k.troupes.any Troupe.unwritten

/-- What has been spilled goes into the wings areas. -/
def State.writeSpilled (s : State) : State :=
  ((List.range Config.numCores).filter fun c => (s.core c).owesWings).foldl State.writeWings s

/-! ### Undo logs (R193, R196) -/

/-- One 288-byte entry of an undo log but for its PC, %rec and MORE (R196). -/
structure UndoPart where
  kind : Nat
  tag : Nat
  number : Nat
  offset : Nat
  old : List Byte
  deriving DecidableEq, Repr

/-- A word of each lane, lane `l` at byte 4`l`. -/
def laneWords (f : Nat → Nat) : List Byte := laneNumbers.flatMap fun l => natToBytes 4 (f l)

/-- The entries of an undone instruction's writes, by KIND (R196). DESIGN CHOICE (entry 76): their order within one
instruction, and the numbers of the uniform predicates (0x040) and of the index bounds (0x041 on), which the spec
does not give. -/
def undoParts (old new : Troupe) (cells : List Host.Cell) (base : Nat) (ports : List (Nat × List CtxLane)) : List UndoPart :=
  let plain (kind number : Nat) (bs : List Byte) : UndoPart := { kind := kind, tag := 0, number := number, offset := 0, old := bs }
  let differ {α : Type} [BEq α] (a b : List α) : List (Nat × α) :=
    (((a.zip b).mapIdx fun n x => (n, x)).filter fun x => x.2.1 != x.2.2).map fun x => (x.1, x.2.1)
  let one (b : Bool) (p : UndoPart) : List UndoPart := if b then [p] else []
  ((differ old.regs new.regs).map fun x =>
    { kind := 1, tag := x.2.tag.code, number := x.1, offset := 0, old := laneWords fun l => (x.2.at l).toNat }) ++
  one (old.lanes.map (·.preds) != new.lanes.map (·.preds)) (plain 2 0 (laneWords fun l => (old.lane l).preds.toNat)) ++
  (changedIdx old new).map (fun n => plain 3 n (laneWords fun l => ((old.lane l).idx.getD n 0).toNat)) ++
  (differ old.k new.k).map (fun x => plain 4 x.1 (natToBytes 8 x.2.toNat)) ++
  (differ old.tiles new.tiles).map (fun x =>
    let f := ((differ x.2 (new.tiles.getD x.1 [])).map (·.1)).headD 0
    plain 4 (0x100 + 8 * x.1 + f) (natToBytes 8 (x.2.getD f 0).toNat)) ++
  one (old.c != new.c) (plain 4 0x040 (natToBytes 8 old.c.toNat)) ++
  (differ old.bounds new.bounds).map (fun x => plain 4 (0x041 + x.1) (natToBytes 8 (x.2.1.toNat + 2 ^ 16 * x.2.2.toNat))) ++
  one (old.fmode != new.fmode) (plain 4 0x020 (natToBytes 8 old.fmode.toNat)) ++
  one (old.fstat != new.fstat) (plain 4 0x021 (natToBytes 8 old.fstat.toNat)) ++
  one (old.satt != new.satt) (plain 4 0x022 (natToBytes 8 (if old.satt then 0x20 else 0))) ++
  (cellRuns cells).map (fun x => { kind := 5, tag := 0, number := x.2.length, offset := x.1 - base, old := x.2 }) ++
  ports.map fun x => plain 6 x.1 (laneWords fun l => ((x.2.getD l CtxLane.reset).pos).toNat)

/-- The parts of a log entry: one of KIND 0 for a boundary. -/
def Core.partsOf (k : Core) (b : Nat) (e : Undo) : List UndoPart :=
  match e.old with
  | none => [{ kind := 0, tag := 0, number := 0, offset := 0, old := [] }]
  | some (old, new) =>
    undoParts old new e.oldLocal (((k.block b).map (·.base)).getD 0) (e.oldPos.map fun x => ((k.ctx x.1).port, x.2))

/-- The 288 bytes of a part (R196). -/
def UndoPart.bytes (p : UndoPart) (e : Undo) (more : Bool) : List Byte :=
  natToBytes 8 e.pc.toNat ++ natToBytes 4 e.recCount.toNat ++
    [BitVec.ofNat 8 p.kind, BitVec.ofNat 8 (16 * p.tag + if more then 1 else 0)] ++ natToBytes 2 p.number ++
    natToBytes 8 e.lanes.toNat ++ natToBytes 8 p.offset ++ (p.old ++ List.replicate 256 0).take 256

/-- The 288-byte entries of a log entry: all but the last have MORE (R196). -/
def Core.undoBytes (k : Core) (b : Nat) (e : Undo) : List (List Byte) :=
  let ps := k.partsOf b e
  ps.mapIdx fun i p => p.bytes e (i + 1 < ps.length)

/-- The header of a log (R196). -/
def UndoLog.header (u : UndoLog) : List Byte :=
  natToBytes 4 (u.written % Config.undoEntries) ++ natToBytes 4 (min (weightOf u.entries) Config.undoEntries) ++
    natToBytes 4 ((if u.globalSkew then 1 else 0) + if u.wrapped then 2 else 0) ++ natToBytes 52 0

/-- Where the log of a block slot and troupe index lies in a debug area (R196). -/
def undoLogAt (slot troupe : Nat) : Nat := 1179712 * (16 * slot + troupe)

/-- What a log holds that it did not hold when `had` 288-byte entries had been written: by place, oldest first. -/
def Core.newUndo (k : Core) (u : UndoLog) (had : Nat) : List (Nat × List Byte) :=
  let new := (fitting (u.written - had) u.entries).reverse.flatMap (k.undoBytes u.blk)
  (new.mapIdx fun i bs => (64 + 288 * ((u.written - new.length + i) % Config.undoEntries), bs))

/-- A log that has changed in a step goes into its core's debug area. -/
def State.writeLog (s before : State) (c : Nat) (u : UndoLog) : State :=
  let k := s.core c
  let old := (before.core c).logOf u.blk u.troupe
  if !s.debugs c u.blk || old == some u then s
  else
    s.devWrites (k.debugArea + undoLogAt u.blk u.troupe) ((0, u.header) :: k.newUndo u ((old.map (·.written)).getD 0))

/-- The undo logs that a step has changed go into the debug areas. -/
def State.writeLogs (s before : State) : State :=
  ((List.range Config.numCores).filter fun c => !(s.core c).undo.isEmpty).foldl
    (fun s c => ((s.core c).undo).foldl (fun s u => s.writeLog before c u) s) s

/-! ### Replay rings (R195, R196) -/

/-- The ring of a bank (entry 76). -/
def replayRing (bank : Nat) : Nat := 112 * 2 ^ 30 + 2 ^ 29 + bank * 2 ^ 21

/-- The 16 bytes of an entry (R196). -/
def ReplayEntry.bytes (e : ReplayEntry) : List Byte :=
  natToBytes 8 (64 * e.sector) ++
    [BitVec.ofNat 8 e.core, BitVec.ofNat 8 e.slot, BitVec.ofNat 8 e.lane, BitVec.ofNat 8 e.kind] ++ natToBytes 4 e.seq

/-- An entry goes into its bank's ring, whose header says when it is full. -/
def State.writeReplay (s : State) (e : ReplayEntry) : State :=
  s.devWrites (replayRing e.bank)
    ((64 + 16 * e.seq, e.bytes) :: if e.seq + 1 = ringEntries then [(0, natToBytes 64 1)] else [])

/-- What the banks have logged in a step goes into their rings. -/
def State.writeReplays (s before : State) : State := (s.replay.drop before.replay.length).foldl State.writeReplay s

end Sys2Proof.Machine
end

