-- ==== Sys2Proof/Machine/Turn.lean ====
section
/-!
DEFINITION. One turn of the device: which agent acts, what keeps an event from happening now, what follows an
instruction within the same step, and the understudy's turn beside the leader's (R383 to R391).
-/
namespace Sys2Proof.Machine

/-! ### Events that cannot happen now -/

/-- The prompter writes the slot table (R361, R362). -/
def writesSlotTable : Instr → Bool
  | .bind _ _ | .drain _ _ _ | .reprioritise _ _ | .coreRowBind _ _ _ => true
  | _ => false

/-- The prompter or the runtime serves a fault or a page request (R186, R417). -/
def servesFault : Instr → Bool
  | .faultRecordConsumed _ | .faultAnswerResume _ | .faultAnswerSkip _ | .faultAnswerSave _ | .faultAnswerKill _
  | .faultAnswerStepback _ _ | .prgResponseSuccess _ _ | .prgResponseInvalid _ | .prgResponseFailure => true
  | _ => false

/-- No slot of the time-slot table admits the event's requests (R20). -/
def State.unadmitted (s : State) (i : Instr) : Bool :=
  (match fabricCore i with
    | some c => !s.coreServed c
    | none => false) ||
  match i with
  | .hostMemoryRequest vf _ _ _ => isVf vf && (s.part (vf - 1)).en && !s.served (vf - 1)
  | _ => false

/-- An event does not happen now: memory traffic after a thermal trip (R432), what no slot admits (R20), bind records
once the running image has written the handover structure, and the service of faults until the next image's first
heartbeat (R430). -/
def State.barred (s : State) (i : Instr) : Bool :=
  (s.tripped && isTraffic i) || s.unadmitted i || (s.fw.handed && (writesSlotTable i || (!s.fw.hb && servesFault i)))

/-! ### What the agent does (R110, R111) -/

/-- A group issues: its instruction is fetched, decoded and executed (R28, R60, R111). -/
def runPath (q : Issue) (s : State) : Host.Outcome State Fault Refusal :=
  let s' := s.cacheCode q.core q.pc
  match s.fetched q.core q.pc with
  | .ok i => exec i { s' with cur := some q }
  | .error f => .next (s'.decodeStop q f)

/-- The first group of a cycle issues; a second group then issues next (R111, R112). -/
def issueStep (q : Issue) (s : State) : Host.Outcome State Fault Refusal :=
  runPath q { (s.noteChoice q) with agenda := (s.second q).toList.map Act.second ++ s.agenda }

/-- An event happens, unless something keeps it from happening now. -/
def eventStep (i : Instr) (s : State) : Host.Outcome State Fault Refusal :=
  match i.parts with
  | some _ => .next s
  | none => if s.barred i then .next s else exec i { s with cur := none }

/-- The agent that acts next takes its step (entry 1). -/
def act (s : State) : Host.Outcome State Fault Refusal :=
  match s.agenda with
  | .event i :: rest => eventStep i { s with agenda := rest }
  | .issue c :: rest =>
    match s.pick c with
    | some q => issueStep q { s with agenda := rest }
    | none => .next { s with agenda := rest }
  | .second q :: rest =>
    match s.remaining q with
    | some r => runPath r { s with agenda := rest }
    | none => .next { s with agenda := rest }
  | [] =>
    match s.issuing with
    | some q => issueStep q s
    | none => .next s

/-- The path whose instruction the next step runs. -/
def State.acting (s : State) : Option Issue :=
  match s.agenda with
  | .event _ :: _ => none
  | .issue c :: _ => s.pick c
  | .second q :: _ => s.remaining q
  | [] => s.issuing

/-! ### What follows within the step -/

/-- The lanes that have pushes waiting, with block slot and troupe index. -/
def Core.owingLanes (k : Core) : List (Nat × Nat × Nat) :=
  (k.ctxs.flatMap fun x => match x.owner with
    | some o => (laneNumbers.filter fun l => !((x.lane l).due).isEmpty).map fun l => (o.1, x.troupe, l)
    | none => []).eraseDups

/-- Pushes that waited are performed as soon as they can be (R13, R91, R269). -/
def State.retryPushes (s : State) : State :=
  ((List.range Config.numCores).filter fun c => (s.core c).pushSeq != 0).foldl
    (fun s c => ((s.core c).owingLanes).foldl (fun s x => s.retryHeld c x.1 x.2.1 x.2.2) s) s

/-- What a step that began in state `s` brings after its agent has acted: waiting pushes, the bytes that the device lays
out, completions of invalidations, and the migration of a channel. -/
def State.settled (t s : State) : State :=
  (((t.retryPushes.writeSpilled).writeLogs s).writeReplays s).completeInvals.migrate

/-- The clock advances with every completed step (R106; entry 1), but not for ages that stand (R371). -/
def State.ticked (t s : State) : State := { t with clock := t.clock + 1 }.creditLink s

/-- One turn: what a pre-emption holds back is noted (R188), the agent acts, and what follows is settled. -/
def turn (s : State) : Host.Outcome State Fault Refusal :=
  match act s.noteHeld with
  | .next t => .next ((t.settled s).ticked s)
  | .fault f => .fault f
  | .refused r => .refused r

/-! ### The understudy (R383 to R391, entry 74) -/

/-- The checked pairs. -/
def State.checkedPairs (s : State) : List Nat := (List.range 8).filter fun k => (s.checkedPair k).checked

/-- The device with the understudies' cores in the places of their leaders', and no injection. -/
def State.mirrored (s : State) : State :=
  let t := s.checkedPairs.foldl
    (fun t k =>
      let p := s.checkedPair k
      let t := (p.twin.mapIdx fun i x => (i, x)).foldl (fun t x => t.setCore (16 * k + x.1) x.2) t
      (p.twinPairs.mapIdx fun i x => (i, x)).foldl (fun t x => t.modPair (8 * k + x.1) fun _ => x.2) t) s
  { t with sirip := { t.sirip with cinj := t.sirip.cinj &&& ~~~1 }, events := [], expected := none, struck := none }

/-- The understudies of the pairs that stay checked hold what their turn `m` has left (R383). -/
def State.adopt (t m s : State) : State :=
  s.checkedPairs.foldl
    (fun t k =>
      if (t.checkedPair k).checked then
        t.modChecked k fun p => { p with twin := (m.understudy k).1, twinPairs := (m.understudy k).2 }
      else t)
    { t with events := [], expected := none, struck := none }

/-- A mismatch on one cluster of a pair. -/
def State.strike (s : State) (x : Struck) : State := s.mismatch x.core x.blk x.path x.addr

/-- The understudy meets the leader's mismatch: at the same event, or, where it has sent no such event, after its turn. -/
def State.strikeToo (s m t : State) (x : Struck) : State :=
  if m.struck.isSome then m
  else
    match turn { s.mirrored with expected := some (m.events.take (t.events.length - 1)) } with
    | .next m' => if m'.struck.isSome then m' else m.strike x
    | _ => m.strike x

/-- Whom an event of a core without a counterpart is charged to: the path that acted, or the core's first block. -/
def State.charged (s : State) (c : Nat) : Struck :=
  let path := s.acting.filter fun q => q.core == c
  let blk := match path with
    | some q => q.blk
    | none => ((List.range Config.blockSlots).find? fun b => ((s.core c).block b).isSome).getD 0
  { core := c, blk := blk, path := path, addr := 0 }

/-- Blocks of a core whose windows hold a byte that differs between two states of it. -/
def Core.blocksChanged (k k' : Core) : List Nat :=
  let differ := ((k.mem ++ k'.mem).map (·.1)).filter fun a => k.mem.read a != k'.mem.read a
  (List.range Config.blockSlots).filter fun b => match k.block b with
    | some x => differ.any fun a => x.base ≤ a && a < x.base + x.size
    | none => false

/-- Whom a difference between a leader core's local-memory writes and its understudy's is charged to: every block of the
core that has written local memory in the step (R385, R391). -/
def State.hashStruck (s m t : State) (c : Nat) : List Struck :=
  if (t.core c).mem = (m.core c).mem then []
  else
    (((s.core c).blocksChanged (t.core c) ++ (s.mirrored.core c).blocksChanged (m.core c)).eraseDups).map fun b =>
      { core := c, blk := b, path := s.acting.filter fun q => q.core == c && q.blk == b, addr := 0 }

/-- The leader cores of the checked pairs. -/
def State.leaders (s : State) : List Nat := s.checkedPairs.flatMap fun k => List.range' (16 * k) 8

/-- The comparator's verdict on a step from `s` that the understudies took to `m` and the leaders to `t` (R385, R391). -/
def State.judged (s m t : State) : State :=
  match t.struck, m.struck, t.expected with
  | some x, _, _ => t.adopt (s.strikeToo m t x) s
  | none, some x, _ => (t.strike x).adopt m s
  | none, none, some (e :: _) => (t.strike (s.charged e.1)).adopt (m.strike (s.charged e.1)) s
  | none, none, _ =>
    let xs := s.leaders.flatMap (s.hashStruck m t)
    (xs.foldl State.strike t).adopt (xs.foldl State.strike m) s

/-- A step with checked pairs: the understudies take their turn, and the leaders theirs, which the comparator matches event
by event. DESIGN CHOICE (entry 74): both in one step; the lag of 16 cycles is timing. -/
def compared (s : State) : Host.Outcome State Fault Refusal :=
  match turn s.mirrored with
  | .next m =>
    match turn { s with events := [], expected := some m.events, struck := none } with
    | .next t => .next (s.judged m t)
    | .fault f => .fault f
    | .refused r => .refused r
  | .fault f => .fault f
  | .refused r => .refused r

/-- A step of the device. -/
def advance (s : State) : Host.Outcome State Fault Refusal := if s.checkedPairs.isEmpty then turn s else compared s

end Sys2Proof.Machine
end

