-- ==== Sys2Proof/Machine/Step.lean ====
section
/-!
DEFINITION. One step of the device, and the placing of one instruction where the next step fetches.
-/
namespace Sys2Proof.Machine

/-- One step: the agent that acts next takes its turn, on both clusters of the checked pairs (Turn.lean). -/
def step (s : State) : Host.Outcome State Fault Refusal := advance s

/-- A state whose next step fetches and runs the instruction whose bits are `w` (entry 11). -/
def State.withFetchWord (s : State) (nbits w : Nat) : State := s.seeded (natToBytes longest (w % 2 ^ nbits))

end Sys2Proof.Machine
end

