-- ==== Sys2Proof/Machine/Rounding.lean ====
section
/-!
DEFINITION. What a correctly rounded result is, said of real numbers (R199, R201 to R203). The machine does
not use it: laws and claims hold the arithmetic of Numbers.lean against it.
-/
namespace Sys2Proof.Machine

/-- The kinds of an encoding (R199, R201). -/
def FloatFmt.NaN (f : FloatFmt) (x : Nat) : Prop := f.infBits < x % f.signBit
def FloatFmt.Signalling (f : FloatFmt) (x : Nat) : Prop := f.NaN x ∧ x % 2 ^ (f.p - 1) < 2 ^ (f.p - 2)
def FloatFmt.Infinite (f : FloatFmt) (x : Nat) : Prop := x % f.signBit = f.infBits
def FloatFmt.Finite (f : FloatFmt) (x : Nat) : Prop := x % f.signBit < f.infBits
def FloatFmt.Zero (f : FloatFmt) (x : Nat) : Prop := x % f.signBit = 0
/-- The sign of an encoding. -/
def FloatFmt.neg (f : FloatFmt) (x : Nat) : Bool := x / f.signBit % 2 == 1

/-- The magnitude that finite bits without a sign encode (R199). -/
def FloatFmt.magnitude (f : FloatFmt) (x : Nat) : Rat :=
  let ex := x / 2 ^ (f.p - 1)
  let frac := x % 2 ^ (f.p - 1)
  if ex = 0 then frac * 2 ^ f.low else (2 ^ (f.p - 1) + frac : Nat) * 2 ^ (f.low + ex - 1)

/-- The value of a finite encoding (R199). -/
def FloatFmt.rat (f : FloatFmt) (x : Nat) : Rat :=
  if f.neg x then -f.magnitude (x % f.signBit) else f.magnitude (x % f.signBit)

/-- The largest finite value. -/
def FloatFmt.largest (f : FloatFmt) : Rat := f.magnitude (f.infBits - 1)

/-- The multiple `r` of `q` that a rounding code chooses for `v` (R50, R202). -/
def chosen (mode : Nat) (q v r : Real) : Prop :=
  let n := ⌊v / q⌋
  let lo := q * n
  let hi := lo + q
  (v = lo → r = v) ∧
  (v ≠ lo →
    match mode with
    | 1 => (v - lo < hi - v → r = lo) ∧ (hi - v < v - lo → r = hi) ∧ (v - lo = hi - v → r = if n % 2 = 0 then lo else hi)
    | 2 => (v < 0 → r = hi) ∧ (0 < v → r = lo)
    | 3 => r = hi
    | 4 => r = lo
    | _ => (v - lo < hi - v → r = lo) ∧ (hi - v < v - lo → r = hi) ∧
        (v - lo = hi - v → (v < 0 → r = lo) ∧ (0 < v → r = hi)))

/-- The value is tiny: rounded with the exponent range unbounded it lies below 2^emin (R203). -/
def FloatFmt.Tiny (f : FloatFmt) (mode : Nat) (v : Real) : Prop :=
  ∃ y, chosen mode (2 ^ (Int.log 2 |v| - f.p + 1)) v y ∧ |y| < 2 ^ f.emin

/-- What overflow delivers (R203). -/
def FloatFmt.Overflows (f : FloatFmt) (mode : Nat) (sat neg : Bool) (r : Rounded) : Prop :=
  let infinite := mode ≠ 2 ∧ (mode = 3 → neg = false) ∧ (mode = 4 → neg = true)
  (sat = true → r.bits = f.signed neg (f.infBits - 1) ∧ r.flags = flagSAT ||| flagXE) ∧
  (sat = false → r.flags = flagOE ||| flagXE ∧ (infinite → r.bits = f.signed neg f.infBits) ∧
    (¬infinite → r.bits = f.signed neg (f.infBits - 1)))

/-- A result is the nonzero exact value `v`, rounded once (R202), with the exceptions of R203. -/
def FloatFmt.RoundsTo (f : FloatFmt) (mode : Nat) (sat : Bool) (v : Real) (r : Rounded) : Prop :=
  ∃ z, chosen mode (2 ^ (max (Int.log 2 |v|) f.emin - f.p + 1)) v z ∧
    (|z| ≤ f.largest → f.Finite r.bits ∧ (f.rat r.bits : Real) = z ∧ (f.neg r.bits = true ↔ v < 0) ∧ (z = v → r.flags = 0) ∧
      (z ≠ v → (f.Tiny mode v → r.flags = flagXE ||| flagUE) ∧ (¬f.Tiny mode v → r.flags = flagXE))) ∧
    (f.largest < |z| → f.Overflows mode sat (decide (v < 0)) r)

/-! ### Operands and exact results (R199, R201, R202, R219) -/

/-- What an operand or an exact result is: a NaN, an infinity, or a real number; a zero has the sign `neg`. -/
inductive Quantity where
  | nan (signalling : Bool)
  | infinite (neg : Bool)
  | exact (neg : Bool) (v : Rat)

/-- What an encoding holds (R199). -/
def FloatFmt.quantity (f : FloatFmt) (x : Nat) : Quantity :=
  if x % f.signBit < f.infBits then .exact (f.neg x) (f.rat x)
  else if x % f.signBit = f.infBits then .infinite (f.neg x)
  else .nan (x % 2 ^ (f.p - 1) < 2 ^ (f.p - 2))

/-- The same with the other sign. -/
def Quantity.opposite : Quantity → Quantity
  | .nan s => .nan s
  | .infinite n => .infinite (!n)
  | .exact n v => .exact (!n) (-v)

/-- The exact sum; ∞ − ∞ is invalid, as if an operand were signalling (R203, R219), and a zero has the sign that R202
gives it. -/
def Quantity.sum (mode : Nat) : Quantity → Quantity → Quantity
  | .nan s, .nan t => .nan (s || t)
  | .nan s, _ => .nan s
  | _, .nan t => .nan t
  | .infinite a, .infinite b => if a = b then .infinite a else .nan true
  | .infinite a, _ => .infinite a
  | _, .infinite b => .infinite b
  | .exact n v, .exact m w => .exact (if v = 0 ∧ w = 0 ∧ n = m then n else mode == 4) (v + w)

/-- The exact product; 0 × ∞ is invalid. -/
def Quantity.product : Quantity → Quantity → Quantity
  | .nan s, .nan t => .nan (s || t)
  | .nan s, _ => .nan s
  | _, .nan t => .nan t
  | .infinite a, .infinite b => .infinite (a != b)
  | .infinite a, .exact n v => if v = 0 then .nan true else .infinite (a != n)
  | .exact n v, .infinite a => if v = 0 then .nan true else .infinite (n != a)
  | .exact n v, .exact m w => .exact (n != m) (v * w)

/-- The quotient; 0/0 and ∞/∞ are invalid (R227). None for a finite number over zero. -/
def Quantity.quotient : Quantity → Quantity → Option Quantity
  | .nan s, .nan t => some (.nan (s || t))
  | .nan s, _ => some (.nan s)
  | _, .nan t => some (.nan t)
  | .infinite _, .infinite _ => some (.nan true)
  | .infinite a, .exact n _ => some (.infinite (a != n))
  | .exact n _, .infinite a => some (.exact (n != a) 0)
  | .exact n v, .exact m w =>
    if w = 0 then (if v = 0 then some (.nan true) else none) else some (.exact (n != m) (v / w))

/-- A result delivers a quantity: the canonical NaN, an infinity, a zero with its sign, or one rounding. -/
def FloatFmt.Delivers (f : FloatFmt) (mode : Nat) (sat : Bool) (q : Quantity) (r : Rounded) : Prop :=
  match q with
  | .nan s => r.bits = f.nan ∧ r.flags = flagIf s flagIE
  | .infinite n => r.bits = f.signed n f.infBits ∧ r.flags = 0
  | .exact n v => (v = 0 → r.bits = f.signed n 0 ∧ r.flags = 0) ∧ (v ≠ 0 → f.RoundsTo mode sat v r)

/-- The exact pair of R205: `hi` delivers the sum or the product `q`, and `lo` is what `hi` leaves of it. -/
def FloatFmt.DeliversPair (f : FloatFmt) (mode : Nat) (finite : Prop) (q : Quantity) (r : PairResult) : Prop :=
  ∃ hi, f.Delivers mode false q hi ∧ r.hi = hi.bits ∧
    match q with
    | .exact _ v =>
      (finite ∧ f.Finite hi.bits ∧ hi.flags &&& flagOE = 0 →
        ∃ lo : Rounded, (v - f.rat hi.bits = 0 → lo.bits = 0 ∧ lo.flags = 0) ∧
          (v - f.rat hi.bits ≠ 0 → f.RoundsTo 1 false ((v - f.rat hi.bits : Rat) : Real) lo) ∧
          r.lo = (if lo.bits % f.signBit = 0 then 0 else lo.bits) ∧
          r.flags = hi.flags ||| flagIf (lo.flags &&& flagXE != 0) flagXINEX) ∧
      (¬(finite ∧ f.Finite hi.bits ∧ hi.flags &&& flagOE = 0) → r.lo = f.nan ∧ r.flags = hi.flags)
    | _ => r.lo = f.nan ∧ r.flags = hi.flags

/-- The order of two encodings that are no NaN, with −0 below +0 (R221). -/
def FloatFmt.order (f : FloatFmt) (x : Nat) : Int :=
  if f.neg x then -((x % f.signBit : Nat) : Int) - 1 else (x % f.signBit : Nat)

end Sys2Proof.Machine
end

