-- ==== Sys2Proof/Safety.lean ====
section
/-!
DEFINITION. What a sound state is: every memory and cell store in its canonical form. A safe run is
one whose states are sound and which never stops. Then the terms of claims about one instruction: when it
begins, when it completes, and what it delivers.
-/
namespace Sys2Proof.Machine

/-- Every listed key is at least `lo`, keys rise strictly, and no listed word is zero. -/
def CellStore.wfFrom : Nat → CellStore → Bool
  | _, [] => true
  | lo, (k, w) :: t => decide (lo ≤ k) && decide (w ≠ 0) && CellStore.wfFrom (k + 1) t

/-- The canonical form of a cell store. -/
def CellStore.wf (m : CellStore) : Bool := CellStore.wfFrom 0 m

/-- The memory of a core is in canonical form. -/
def Core.wf (k : Core) : Bool := k.mem.wf

/-- The device's memories are in canonical form. -/
def State.memoriesWf (s : State) : Bool := s.dram.wf && s.hostMem.wf && s.peerMem.wf

/-- The cores' local memories are in canonical form. -/
def State.localsWf (s : State) : Bool := s.cores.all Core.wf

/-- The accumulator stores are in canonical form. -/
def State.cellsWf (s : State) : Bool := s.pairs.all fun q => q.cells.wf

/-- A sound state. -/
def State.sound (s : State) : Bool := s.memoriesWf && s.localsWf && s.cellsWf

/-- A run of `n` steps from a state that never stops and passes only sound states. -/
def safeRun : Nat → State → Prop
  | 0, s => s.sound = true
  | n + 1, s => s.sound = true ∧ ∃ t, step s = .next t ∧ safeRun n t

/-! ### One instruction of a path (R33, R59, R176) -/

/-- The path `p` of state `s` begins instruction `i`: it is the path chosen to issue, its registers lie in
the allocation (R59), its region-entry actions, if E is set, have been taken and it does not stop there
(R176, R184, R188), which leaves `s1`; its active lanes are those whose guard holds (R33), and there is one;
and every lane of it goes on behind the instruction, whose last reads are marked (R29, R118), which leaves
`s2`. -/
structure Begins (i : Instr) (h : Head) (len : Nat) (s : State) (p : Path) (s1 s2 : State) : Prop where
  chosen : s.cur = some p.at_
  placed : ∃ t, (s.core p.core).troupe p.blk p.at_.troupe = some t ∧ regBoundOf i t.regs.length = none
  entry : if h.e then s.unselect.regionEntry p.at_ = .ok s1 ∧ s1.mustStop p.at_ = false else s1 = s.unselect
  length : p.len = len
  guard : ∀ l, l < 64 →
    (p.active.has l = true ↔ p.at_.lanes.has l = true ∧ ((s1.troupe p).lane l).pred h.g.toNat ≠ h.gn)
  active : p.active ≠ 0
  moved : s2 = (s1.advance p).markReads p (lastReads i (s1.troupe p) p.active)

/-- Instruction `i` completes for the path `p` with state `t`, but for the undo log and the journal, which
record what it changed (R193, R197). -/
def Completes (i : Instr) (s : State) (p : Path) (s1 t : State) : Prop := exec i s = .next (t.logUndo p.at_ s1)

/-- A troupe after a result in register `d`: its tag for the whole register, its value in the lanes of `m`, and
in the other lanes the old value, or zero in a register that was dead (R115, R118). -/
def Troupe.takes (t : Troupe) (m : Mask) (d : Nat) (g : Tag) (v : Nat → Word) : Troupe :=
  { t with
    regs := t.regs.set d
      { tag := g, dead := false
        lanes := (List.range 64).map fun l => if m.has l then v l else if (t.reg d).dead then 0 else (t.reg d).at l } }

/-- A troupe after results in the registers from `d` on, one tag and value each (R46). -/
def Troupe.takesGroup (t : Troupe) (m : Mask) (d : Nat) : List (Tag × (Nat → Word)) → Troupe
  | [] => t
  | (g, v) :: rest => (t.takes m d g v).takesGroup m (d + 1) rest

/-- The state after a result in a register, with its exceptions in %fstat (R203). Nothing else changes. -/
def regWritten (s : State) (p : Path) (d : Nat) (g : Tag) (v : Nat → Word) (fl : Flags) : State :=
  s.mod p fun t => { (t.takes p.active d g v) with fstat := t.fstat ||| fl }

/-- A result reaches destination field `d` (R44, R115, R267): its register, or the port's held pushes. -/
def Delivered (s : State) (p : Path) (d : Nat) (g : Tag) (v : Nat → Word) (fl : Flags) (t : State) : Prop :=
  match portOf d with
  | none => t = regWritten s p d g v fl
  | some q => ∃ t', s.push p q g v = .ok t' ∧ t = t'.mod p fun x => { x with fstat := x.fstat ||| fl }

/-- A port takes a push of every active lane (R267): it is bound for writing, its format takes the tag, every
lane inside the pattern has room, and every element address passes the checks of R240. -/
def PortTakes (s : State) (p : Path) (q : Nat) (g : Tag) : Prop :=
  ∃ n hs, s.boundCtx p q true = .ok n ∧ kindAccepts ((s.core p.core).ctx n).pat.fmt g = true ∧
    (∀ l ∈ p.active.lanes, (((s.core p.core).ctx n).lane l).held.length < 16) ∧
    s.elementHits p q n true (p.active.lanes.filter fun l =>
      (((s.core p.core).ctx n).lane l).pos.toNat < ((s.core p.core).ctx n).pat.length.toNat) = .ok hs

/-- A result with tag `g` can be delivered to field `d` (R117, R267), `s'` being `s` after the pops. -/
def Deliverable (s s' : State) (p : Path) (d : Nat) (g : Tag) : Prop :=
  s.checkDst p d = .ok () ∧ ∀ q, portOf d = some q → PortTakes s' p q g

/-- The state after results in a register group, with their exceptions in %fstat. Nothing else changes. -/
def groupWritten (s : State) (p : Path) (d : Nat) (vs : List (Tag × (Nat → Word))) (fl : Flags) : State :=
  s.mod p fun t => { (t.takesGroup p.active d vs) with fstat := t.fstat ||| fl }

/-- The predicate `d` of the active lanes takes a value; p0 takes none (R114). -/
def predWritten (s : State) (p : Path) (d : Nat) (v : Nat → Bool) : State :=
  s.mod p fun t => t.modLanes p.active fun l x =>
    if d = 0 then x else { x with preds := if v l then x.preds ||| BitVec.ofNat 16 (2 ^ d) else x.preds &&& ~~~BitVec.ofNat 16 (2 ^ d) }

end Sys2Proof.Machine
end

