-- ==== Sys2Proof/Certificates/Slice0/Obligations.lean ====
section
/-!
DEFINITION. The statements for the provers. Claims holds the vocabulary they share; each obligation is a
proposition named for what it states, and its docstring names the rules it rests on.
-/
namespace Sys2Proof.Claims
open Sys2Proof.Machine

/-! ### Results of one instruction -/

/-- An instruction of one source completes with a result that `R` gives for every active lane, and with nothing
else changed. -/
def OneSource (mk : Head → RForm → Instr) (acc : RForm → Tag → Bool) (tag : RForm → Tag → Tag)
    (R : RForm → Word → Word → Flags → Prop) : Prop :=
  ∀ (h : Head) (f : RForm) (s : State) (p : Path) (s1 s2 : State) (x : Operand),
    Begins (mk h f) h f.len.bytes s p s1 s2 →
    s2.read1 p f.a.toNat f.pa.toNat (acc f) = .ok x →
    Deliverable s2 (s2.popPorts p [f.a.toNat]) p f.d.toNat (tag f x.tag) →
    ∃ v fl t, exec (mk h f) s = .next (t.logUndo p.at_ s1) ∧
      Delivered (s2.popPorts p [f.a.toNat]) p f.d.toNat (tag f x.tag) v (orFlags (p.active.lanes.map fl)) t ∧
      ∀ l, p.active.has l = true → R f (x.at l) (v l) (fl l)

/-- The same of an instruction of two sources. -/
def TwoSources (mk : Head → RForm → Instr) (accA accB : RForm → Tag → Bool) (tag : RForm → Tag → Tag → Tag)
    (R : RForm → Word → Word → Word → Flags → Prop) : Prop :=
  ∀ (h : Head) (f : RForm) (s : State) (p : Path) (s1 s2 : State) (x y : Operand),
    Begins (mk h f) h f.len.bytes s p s1 s2 →
    s2.read2 p f.a.toNat f.pa.toNat (accA f) f.b.toNat f.pb.toNat (accB f) = .ok (x, y) →
    Deliverable s2 (s2.popPorts p [f.a.toNat, f.b.toNat]) p f.d.toNat (tag f x.tag y.tag) →
    ∃ v fl t, exec (mk h f) s = .next (t.logUndo p.at_ s1) ∧
      Delivered (s2.popPorts p [f.a.toNat, f.b.toNat]) p f.d.toNat (tag f x.tag y.tag) v
        (orFlags (p.active.lanes.map fl)) t ∧
      ∀ l, p.active.has l = true → R f (x.at l) (y.at l) (v l) (fl l)

/-- The same of an instruction of three sources. -/
def ThreeSources (mk : Head → RForm → Instr) (acc accB : RForm → Tag → Bool) (tag : RForm → Tag)
    (R : RForm → Word → Word → Word → Word → Flags → Prop) : Prop :=
  ∀ (h : Head) (f : RForm) (s : State) (p : Path) (s1 s2 : State) (x y z : Operand),
    Begins (mk h f) h f.len.bytes s p s1 s2 →
    s2.read3 p f.a.toNat f.pa.toNat f.b.toNat f.pb.toNat f.c.toNat f.pc.toNat (acc f) (accB f) = .ok (x, y, z) →
    Deliverable s2 (s2.popPorts p [f.a.toNat, f.b.toNat, f.c.toNat]) p f.d.toNat (tag f) →
    ∃ v fl t, exec (mk h f) s = .next (t.logUndo p.at_ s1) ∧
      Delivered (s2.popPorts p [f.a.toNat, f.b.toNat, f.c.toNat]) p f.d.toNat (tag f) v
        (orFlags (p.active.lanes.map fl)) t ∧
      ∀ l, p.active.has l = true → R f (x.at l) (y.at l) (z.at l) (v l) (fl l)

/-- The same of an instruction of one source and an immediate. -/
def WithImmediate (mk : Head → IForm → Instr) (acc : IForm → Tag → Bool) (tag : IForm → Tag → Tag)
    (R : IForm → Word → Word → Flags → Prop) : Prop :=
  ∀ (h : Head) (f : IForm) (s : State) (p : Path) (s1 s2 : State) (x : Operand),
    Begins (mk h f) h f.len.bytes s p s1 s2 →
    s2.read1 p f.a.toNat 0 (acc f) = .ok x →
    Deliverable s2 (s2.popPorts p [f.a.toNat]) p f.d.toNat (tag f x.tag) →
    ∃ v fl t, exec (mk h f) s = .next (t.logUndo p.at_ s1) ∧
      Delivered (s2.popPorts p [f.a.toNat]) p f.d.toNat (tag f x.tag) v (orFlags (p.active.lanes.map fl)) t ∧
      ∀ l, p.active.has l = true → R f (x.at l) (v l) (fl l)

/-! ### Integers -/

/-- The element type that SUB [2:0] names (R136). -/
def typeOf (f : RForm) : ElemType := elemType (f.sub.toNat % 8)

/-- The element type of an immediate major, I32 or N32 (R161). -/
def immType (f : IForm) : ElemType := elemType (f.sub.toNat % 2)

/-- The least and the greatest value of an element type (R136). -/
def least (ty : ElemType) : Int := if ty.signed then -(2 ^ (ty.width - 1)) else 0
def greatest (ty : ElemType) : Int := if ty.signed then 2 ^ (ty.width - 1) - 1 else 2 ^ ty.width - 1

/-- A lane holds, element by element, the exact results `r`: each wraps to the width, or with SAT takes the nearer
bound of the range; and SAT of %fstat is raised when an element was clamped (R137). -/
def Elements (ty : ElemType) (sat : Bool) (r : Nat → Int) (w : Word) (fl : Flags) : Prop :=
  (∀ e, e < 32 / ty.width →
    if sat = true ∧ r e < least ty then ty.elem w e = least ty
    else if sat = true ∧ greatest ty < r e then ty.elem w e = greatest ty
    else (2 ^ ty.width : Int) ∣ ty.elem w e - r e) ∧
  ((∃ e, e < 32 / ty.width ∧ sat = true ∧ (r e < least ty ∨ greatest ty < r e)) → fl = flagSAT) ∧
  ((∀ e, e < 32 / ty.width → ¬(sat = true ∧ (r e < least ty ∨ greatest ty < r e))) → fl = 0)

/-- A source that carries the type's tag. -/
def typed (f : RForm) (g : Tag) : Bool := g == (typeOf f).tag
/-- Any tag except UNDEF. -/
def anyTag (_ : RForm) (g : Tag) : Bool := g != .undef
/-- I32 or N32. -/
def word32 (_ : RForm) (g : Tag) : Bool := g == .i32 || g == .n32
/-- The tag of two sources that carry the same tag, and RAW otherwise (R116). -/
def sameOrRaw (a b : Tag) : Tag := if a = b then a else .raw

/-- A two-source element-wise major. -/
def Binary (mk : Head → RForm → Instr) (sat : RForm → Bool) (op : Int → Int → Int) : Prop :=
  TwoSources mk typed typed (fun f _ _ => (typeOf f).tag) fun f x y w fl =>
    Elements (typeOf f) (sat f) (fun e => op ((typeOf f).elem x e) ((typeOf f).elem y e)) w fl

/-- MOD.SAT (R49). -/
def satOf (f : RForm) : Bool := modSat f.mod

/-- The quotient that rounds towards zero, and 0xFFFF_FFFF for a zero divisor (R150). -/
def wholeQuotient (x y : Int) : Int := if y = 0 then 0xFFFFFFFF else x.tdiv y

/-- Each element of a lane goes to `op` of its bits and the count modulo the width (R152). -/
def Shifted (ty : ElemType) (op : (w : Nat) → BitVec w → Nat → BitVec w) (x w : Word) (count : Nat) : Prop :=
  ∀ e, e < 32 / ty.width → w.extractLsb' (ty.width * e) ty.width = op ty.width (x.extractLsb' (ty.width * e) ty.width) (count % ty.width)

def shl (w : Nat) (x : BitVec w) (n : Nat) : BitVec w := x <<< n
def shr (w : Nat) (x : BitVec w) (n : Nat) : BitVec w := x >>> n
def sar (w : Nat) (x : BitVec w) (n : Nat) : BitVec w := x.sshiftRight n
def rot (w : Nat) (x : BitVec w) (n : Nat) : BitVec w := x.rotateLeft n

/-- An instruction of no source operand delivers a result. -/
def NoSource {F : Type} (mk : Head → F → Instr) (len : F → Nat) (d : F → Nat) (ok : F → Prop) (tag : F → Tag)
    (R : F → State → Path → Nat → Word → Prop) : Prop :=
  ∀ (h : Head) (f : F) (s : State) (p : Path) (s1 s2 : State),
    Begins (mk h f) h (len f) s p s1 s2 → ok f → Deliverable s2 s2 p (d f) (tag f) →
    ∃ v t, exec (mk h f) s = .next (t.logUndo p.at_ s1) ∧ Delivered s2 p (d f) (tag f) v 0 t ∧
      ∀ l, p.active.has l = true → R f s2 p l (v l)

/-- An instruction that changes only its path's troupe, to what `g` gives. -/
def TroupeOnly {F : Type} (mk : Head → F → Instr) (len : F → Nat) (ok : F → State → Path → Prop)
    (g : F → State → Path → Troupe → Troupe) : Prop :=
  ∀ (h : Head) (f : F) (s : State) (p : Path) (s1 s2 : State),
    Begins (mk h f) h (len f) s p s1 s2 → ok f s2 p →
    exec (mk h f) s = .next ((s2.mod p (g f s2 p)).logUndo p.at_ s1)

/-- Always. -/
def always {F : Type} (_ : F) (_ : State) (_ : Path) : Prop := True

/-- The pair results of a 64-bit value (R156): tag I64L in the even register, I64H in the odd one. -/
def pairOf (v : Nat → DWord) : List (Tag × (Nat → Word)) :=
  [(.i64l, fun l => (v l).extractLsb' 0 32), (.i64h, fun l => (v l).extractLsb' 32 32)]

/-- A 64-bit pair as read in a lane: the even register is the low half. -/
def pairValue (x : Operand × Operand) (l : Nat) : DWord := x.2.at l ++ x.1.at l

/-- An instruction of two pair sources and a pair result. -/
def PairArithmetic (mk : Head → RForm → Instr) (op : Int → Int → Int) : Prop :=
  ∀ (h : Head) (f : RForm) (s : State) (p : Path) (s1 s2 : State) (x y : Operand × Operand),
    Begins (mk h f) h f.len.bytes s p s1 s2 →
    s2.readPair p 0 f.a.toNat f.pa.toNat .i64l .i64h = .ok x →
    s2.readPair p 1 f.b.toNat f.pb.toNat .i64l .i64h = .ok y →
    (s2.troupe p).checkDest p [f.d.toNat, f.d.toNat + 1] = .ok () →
    ∃ v fl, exec (mk h f) s =
        .next ((groupWritten s2 p f.d.toNat (pairOf v) (orFlags (p.active.lanes.map fl))).logUndo p.at_ s1) ∧
      ∀ l, p.active.has l = true →
        let unsigned := f.sub.toNat % 8 ≠ 0
        let num (z : DWord) : Int := if unsigned then z.toNat else z.toInt
        let lo : Int := if unsigned then 0 else -(2 ^ 63)
        let hi : Int := if unsigned then 2 ^ 64 - 1 else 2 ^ 63 - 1
        let r := op (num (pairValue x l)) (num (pairValue y l))
        if modSat f.mod = true ∧ r < lo then v l = BitVec.ofInt 64 lo ∧ fl l = flagSAT
        else if modSat f.mod = true ∧ hi < r then v l = BitVec.ofInt 64 hi ∧ fl l = flagSAT
        else v l = BitVec.ofInt 64 r ∧ fl l = 0

/-- The conditions of ICMP, ICMPI and KCMP (R155). -/
def condition (code : Nat) (x y : Int) : Prop :=
  (code = 0 ∧ x = y) ∨ (code = 1 ∧ x ≠ y) ∨ (code = 2 ∧ x < y) ∨ (code = 3 ∧ x ≤ y) ∨ (code = 4 ∧ x > y) ∨ (code = 5 ∧ x ≥ y)

/-- An uniform register of the path's troupe takes a value and nothing else changes. -/
def Uniform (mk : Head → KForm → Instr) (v : KForm → Troupe → DWord → DWord → DWord) : Prop :=
  TroupeOnly mk (fun _ => 8) always fun f _ _ t =>
    let y := if f.sub.getLsbD 0 then f.imm.signExtend 64 else t.kreg f.kb.toNat
    t.setK f.kd.toNat (v f t (t.kreg f.ka.toNat) y)

/-- A 64-bit value as a signed or an unsigned integer. -/
def asNumber (unsigned : Bool) (x : DWord) : Int := if unsigned then x.toNat else x.toInt

/-- The smaller and the larger of two uniform values. -/
def smaller (unsigned : Bool) (x y : DWord) : DWord := if asNumber unsigned x ≤ asNumber unsigned y then x else y
def larger (unsigned : Bool) (x y : DWord) : DWord := if asNumber unsigned x ≤ asNumber unsigned y then y else x

/-- The operations of KRED (R166). -/
def fold (op : Nat) : DWord → DWord → DWord :=
  match op with
  | 0 => fun x y => x + y
  | 1 => smaller false
  | 2 => larger false
  | 3 => smaller true
  | 4 => larger true
  | 5 => fun x y => x &&& y
  | 6 => fun x y => x ||| y
  | _ => fun x y => x ^^^ y

/-- A predicate of the path's troupe in a lane; p0 is true (R114). -/
def predicate (s : State) (p : Path) (n l : Nat) : Bool := n == 0 || ((s.troupe p).lane l).preds.getLsbD n

/-- An instruction that writes predicate D in the active lanes and nothing else. -/
def Predicate (mk : Head → RForm → Instr) (ok : RForm → Prop) (R : RForm → State → Path → Nat → Bool → Prop) : Prop :=
  ∀ (h : Head) (f : RForm) (s : State) (p : Path) (s1 s2 : State),
    Begins (mk h f) h 8 s p s1 s2 → ok f →
    ∃ v, exec (mk h f) s = .next ((predWritten s2 p f.d.toNat v).logUndo p.at_ s1) ∧
      ∀ l, p.active.has l = true → R f s2 p l (v l)

/-! ### System registers and control -/

/-- No second run of a checked pair is being compared, so that every event passes (entry 74). -/
def Unjudged (s : State) : Prop := s.expected = none

/-- The comparator has taken an event, if the core leads a checked pair (R385). -/
def passed (s : State) (p : Path) (e : CmpEvent) : State :=
  if s.checkedCore p.core then { s with events := s.events ++ [(p.core, e)] } else s

/-- The path's lanes are past an operation that performs once, so that no retry of a region unwinds them (R68, R100). -/
def ended (s : State) (p : Path) (yes : Bool) : State :=
  if yes then s.modCore p.core fun k => { k with undo := k.undo.map fun (u : UndoLog) =>
    if u.blk = p.blk ∧ u.troupe = p.at_.troupe then { u with sealed := u.sealed ||| p.at_.lanes } else u }
  else s

/-- The event of a taken transfer: every target, with the lanes that go there (R385). -/
def transferred (m : Mask) (target : Nat → DWord) : CmpEvent :=
  .transfer (((m.lanes.map fun l => (target l).toNat).eraseDups).map fun a =>
    (a, Mask.ofTest fun l => m.has l && (target l).toNat == a))

/-- The value of a system register for a lane (R104, R105, R106, R170). -/
def SystemValue (s : State) (p : Path) (n l : Nat) (v : DWord) : Prop :=
  let t := s.troupe p
  let b := s.block p
  (∀ g, s.launchOf p.core p.blk = some g →
    (n = 0x000 → v = BitVec.ofNat 64 (t.idx * 64 + b.index * 2 ^ (6 + g.desc.widths.getD 0 0) + l)) ∧
    (∀ w1 w2 w3 w4 w5, g.desc.widths = [w1, w2, w3, w4, w5] →
      (n = 0x001 → v = BitVec.ofNat 64 (t.idx % 2 ^ w1)) ∧
      (n = 0x002 → v = BitVec.ofNat 64 (b.index % 2 ^ w2)) ∧
      (n = 0x003 → v = BitVec.ofNat 64 (b.index / 2 ^ w2 % 2 ^ w3)) ∧
      (n = 0x004 → v = BitVec.ofNat 64 (b.index / 2 ^ (w2 + w3) % 2 ^ w4)) ∧
      (n = 0x005 → v = BitVec.ofNat 64 (b.index / 2 ^ (w2 + w3 + w4) % 2 ^ w5))) ∧
    (n = 0x00B → v = BitVec.ofNat 64 g.il) ∧ (n = 0x030 → v = if g.debug then 1 else 0)) ∧
  (n = 0x006 → v = BitVec.ofNat 64 t.idx) ∧ (n = 0x007 → v = BitVec.ofNat 64 b.index) ∧
  (n = 0x008 → v = BitVec.ofNat 64 p.core) ∧ (n = 0x009 → v = BitVec.ofNat 64 (p.core / 8)) ∧
  (n = 0x00A → v = BitVec.ofNat 64 (p.core % 2)) ∧ (n = 0x00C → v = t.role.setWidth 64) ∧
  (n = 0x00D → v = t.step.setWidth 64) ∧ (n = 0x00E → v = t.recCount.setWidth 64) ∧ (n = 0x00F → v = s.clock) ∧
  (n = 0x010 → v = BitVec.ofNat 64 l) ∧ (n = 0x020 → v = t.fmode.setWidth 64) ∧ (n = 0x021 → v = t.fstat.setWidth 64) ∧
  (n = 0x022 → v = if t.satt then 0x20 else 0) ∧ (n = 0x031 → v = if (s.core p.core).inject then 1 else 0) ∧
  (0x100 ≤ n → n < 0x180 → v = (t.tileField ((n - 0x100) / 8) ((n - 0x100) % 8)).setWidth 64 &&&
    if (n - 0x100) % 8 = 4 then 0x1F else 0xFFFFFFFF)

/-- A troupe after a system register has taken a value (R170): reserved bits are ignored. -/
def systemWritten (n : Nat) (v : DWord) (t : Troupe) : Troupe :=
  if n = 0x020 then { t with fmode := v.setWidth 3 }
  else if n = 0x021 then { t with fstat := v.setWidth 7 }
  else if n = 0x022 then { t with satt := v.getLsbD 5 }
  else
    let i := (n - 0x100) / 8
    { t with tiles := t.tiles.set i ((t.tiles.getD i []).set (n % 8) (v.setWidth 32)) }

/-- The instruction faults for the given lanes: it takes the fault in the state after its region entry, so that
nothing else of it has happened (R117, R134). -/
def Faults (i : Instr) (s : State) (p : Path) (s1 : State) (code : Nat) (mask : Mask) (addr : DWord) (arg : Nat) : Prop :=
  exec i s = .next (s1.takeFault p.at_ p.len code mask addr arg none .none)

/-- Lanes of the path go on at their targets, as the comparator sees, and nothing else changes. -/
def taken (s : State) (p : Path) (m : Mask) (target : Nat → DWord) : State :=
  (passed s p (transferred m target)).mod p fun t => t.modLanes m fun l x => { x with pc := target l }

/-- The target of format C (R41, R139) and its uniform condition (R138). -/
def targetOf (f : CForm) (p : Path) : DWord := p.at_.pc + 4 * f.off.signExtend 64
def condOf (f : CForm) (s : State) (p : Path) : Prop :=
  f.sub.getLsbD 0 = false ∨ ((s.troupe p).c.getLsbD f.cp.toNat ^^ f.cn) = true

/-- The lanes of a path that a call pushes beyond the eight hardware entries, and the two words of each one's oldest
entry in the spill area (R132, R133). -/
def spills (s : State) (p : Path) : List Want :=
  (p.active.lanes.filter fun l => 8 ≤ ((s.troupe p).lane l).depth).flatMap fun l =>
    let o := (s.block p).priv + 8 * (((s.troupe p).lane l).depth - 8)
    [{ lane := l, addr := BitVec.ofNat 64 o }, { lane := l, addr := BitVec.ofNat 64 (o + 4) }]

/-- Those that a return refills, and the words of the entry refilled. -/
def refills (s : State) (p : Path) : List Want :=
  (p.active.lanes.filter fun l => 8 < ((s.troupe p).lane l).depth).flatMap fun l =>
    let o := (s.block p).priv + 8 * (((s.troupe p).lane l).depth - 9)
    [{ lane := l, addr := BitVec.ofNat 64 o }, { lane := l, addr := BitVec.ofNat 64 (o + 4) }]

/-- The return address is pushed in the active lanes, which go on at their targets (R133, R142). -/
def called (s : State) (p : Path) (target : Nat → DWord) : State :=
  s.mod p fun t => t.modLanes p.active fun l x =>
    { x with ret := ((p.at_.pc + 8) :: x.ret).take 8, depth := x.depth + 1, pc := target l }

/-- A call completes: its spills pass their checks and are stored, and the active lanes push and transfer. A call in
which no active lane spills needs no access. -/
def Calls (i : Instr) (s : State) (p : Path) (s1 s2 : State) (target : Nat → DWord) : Prop :=
  (∀ hs s3, s2.accessIn p .priv 4 true false ((s2.block p).priv + 2048) (spills s2 p) = .ok hs →
    (passed (s2.touchHits p hs) p (transferred p.active target)).storeHits p hs
      (fun l => (((s2.troupe p).lane l).ret.getD 7 0).toNat) = .ok s3 →
    exec i s = .next ((called s3 p target).logUndo p.at_ s1)) ∧
  ((∀ l, p.active.has l = true → ((s2.troupe p).lane l).depth < 8) →
    exec i s = .next ((called (passed s2 p (transferred p.active target)) p target).logUndo p.at_ s1))

/-! ### Memory -/

/-- The address or offset of a lane (R239): x is the index operand, which modes 2 and 6 do not use. -/
def addressOf (f : MForm) (size : Nat) (k : DWord) (x : Operand) (l : Nat) : DWord :=
  let am := f.sub.toNat / 16
  let idx : DWord := if am = 2 ∨ am = 6 then 0 else if x.tag = .i32 then (x.at l).signExtend 64 else (x.at l).setWidth 64
  (if am = 0 ∨ am = 1 ∨ am = 2 then k else 0) +
    (if am = 0 ∨ am = 3 ∨ am = 4 then idx * BitVec.ofNat 64 size else idx) + f.off.signExtend 64

/-- The size, the space and the index fields of a load or store. -/
def accessSize (f : MForm) : Nat := kindSize (f.sub.toNat % 16)
def spaceOf (f : MForm) : Space := if 4 ≤ f.sub.toNat / 16 ∧ f.sub.toNat / 16 ≤ 6 then .priv else .global
def indexFields (f : MForm) : List Nat := MForm.fields f (f.sub.toNat / 16)

/-- The word that register `j` of a KIND takes of a loaded value (R241): the pair kinds take a half each, and the
8-bit and 16-bit signed kinds extend their sign. -/
def loadedWord (kind j n : Nat) : Word :=
  if kind = 13 ∨ kind = 14 then BitVec.ofNat 32 (n / 2 ^ (32 * j))
  else if kind = 0 then (BitVec.ofNat 8 n).signExtend 32
  else if kind = 2 then (BitVec.ofNat 16 n).signExtend 32
  else BitVec.ofNat 32 n

/-- The registers that a load gives: the loaded words in the active lanes, the old ones elsewhere. -/
def gathered (s : State) (p : Path) (regs : List (Nat × Tag)) (v : Nat → Nat → Word) : List RegData :=
  regs.mapIdx fun j r =>
    { reg := r.1, tag := r.2
      lanes := (List.range 64).map fun l => if p.active.has l then v j l else ((s.troupe p).reg r.1).at l }

/-- The value of a lane's data registers, low register first. -/
def storedValue (s : State) (p : Path) (f : MForm) (l : Nat) : Nat :=
  let kind := f.sub.toNat % 16
  (((s.troupe p).reg f.d.toNat).at l).toNat +
    if kind = 13 ∨ kind = 14 then (((s.troupe p).reg (f.d.toNat + 1)).at l).toNat * 2 ^ 32 else 0

/-- The index of a load or store has been read, and its address or offset fits: aligned, inside the block's window, and
in no sector that a copy holds (R16, R238, R240). -/
def LocalFits (s : State) (p : Path) (f : MForm) (x : Operand) : Prop :=
  s.memIndex p f (f.sub.toNat / 16) = .ok x ∧ ∀ l, p.active.has l = true →
    let o := (addressOf f (accessSize f) (s.kAt p f.kb.toNat) x l).toNat
    o % accessSize f = 0 ∧ o + accessSize f ≤ (s.block p).size ∧
    s.lockers p.core true (s.ownerOf p.core p.blk)
      { lo := (s.block p).base + o, hi := (s.block p).base + o + accessSize f } = []

/-- Where a lane's local access begins. -/
def localAt (s : State) (p : Path) (f : MForm) (x : Operand) (l : Nat) : Nat :=
  (s.block p).base + (addressOf f (accessSize f) (s.kAt p f.kb.toNat) x l).toNat

/-- Two translations lead to the same memory. -/
def sameSpace (x y : Xlate) : Prop := x.host = y.host ∧ (x.host = true ∨ x.peer = y.peer)

/-- Two pieces have no byte in common. -/
def apart (g h : Hit) : Prop :=
  match g.x, h.x with
  | none, none => g.va + g.size ≤ h.va ∨ h.va + h.size ≤ g.va
  | some x, some y => sameSpace x y → x.addr g.va + g.size ≤ y.addr h.va ∨ y.addr h.va + h.size ≤ x.addr g.va
  | _, _ => True

/-- The path's troupe keeps its registers, and everything else but the touched scopes of its lanes (R98). -/
def Untouched (s t : State) (p : Path) : Prop :=
  ∀ u, (s.core p.core).troupe p.blk p.at_.troupe = some u →
    ∃ v, (t.core p.core).troupe p.blk p.at_.troupe = some v ∧ v.regs = u.regs ∧ v.k = u.k ∧ v.c = u.c ∧
      v.tiles = u.tiles ∧ v.bounds = u.bounds ∧ v.fmode = u.fmode ∧ v.fstat = u.fstat ∧ v.satt = u.satt ∧
      v.step = u.step ∧ v.recCount = u.recCount ∧ ∀ l, v.lane l = { u.lane l with scope := (v.lane l).scope }

/-- The memories are in canonical form, and no comparison can fail: CINJ is not armed (R401), and no second run is being
compared. -/
def Quiet (s : State) : Prop :=
  s.memoriesWf = true ∧ s.localsWf = true ∧ s.sirip.cinj.getLsbD 0 = false ∧ Unjudged s

/-- The value that a piece holds. -/
def held (s : State) (c : Nat) (g : Hit) : Nat := bytesToNat (s.hitBytes c g)

/-- Updates perform one after another (R91, R254): each finds the value that its place holds by then, leaves there what
its operation makes of it, and changes no other byte of any memory. -/
def Performs (f : MForm) (c : Nat) : State → List Update → List (Nat × Nat) → State → Prop
  | s, [], olds, t => olds = [] ∧ ∀ g, t.hitBytes c g = s.hitBytes c g
  | s, x :: xs, olds, t => ∃ u rest, olds = (x.hit.lane, held s c x.hit) :: rest ∧
      held u c x.hit = atomNew (f.sub.toNat % 16) (MForm.width f) (held s c x.hit) x.value x.compare ∧
      (∀ g, apart g x.hit → u.hitBytes c g = s.hitBytes c g) ∧ Performs f c u xs rest t

/-- The update goes to host memory. -/
def toHost (x : Update) : Bool := x.hit.x.elim false (·.host)

/-- The AtomicOp that an update of host memory sends (R256). -/
def sent (s : State) (p : Path) (f : MForm) (x : Update) : HostOp :=
  { core := p.core, blk := p.blk, troupe := p.at_.troupe, rid := s.nextId, lane := x.hit.lane
    addr := x.hit.x.elim 0 fun y => y.addr x.hit.va, va := x.hit.va, op := f.sub.toNat % 16, w64 := f.sub.getLsbD 4
    value := x.value, compare := x.compare }

/-- What the updates of an atomic do, in ascending lane order: those of device memory and of the window perform, those
of host memory go out, and nothing else changes in any memory. -/
def Updates (f : MForm) (s : State) (p : Path) (xs : List Update) (t : State) (olds : List (Nat × Nat)) : Prop :=
  Performs f p.core s (xs.filter fun x => !toHost x) olds t ∧ t.hostOps = s.hostOps ++ (xs.filter toHost).map (sent s p f)

/-- The updates of the lanes of an atomic. -/
def updatesOf (s : State) (p : Path) (f : MForm) (hs : List Hit) : List Update :=
  hs.map fun h =>
    { hit := h, value := ((s.troupe p).atomData f h.lane).1, compare := ((s.troupe p).atomData f h.lane).2 }

/-- The old values as the data of the destination registers, which keep the tags of the data (R254). -/
def oldData (s : State) (p : Path) (f : MForm) (olds : List (Nat × Nat)) : List RegData :=
  gathered s p ((List.range (MForm.width f / 32)).map fun j => (f.d.toNat + j, ((s.troupe p).reg (f.d.toNat + j)).tag))
    fun j l => BitVec.ofNat 32 (oldOf olds l / 2 ^ (32 * j))

/-- The checks of an atomic pass (R240, R253, R254, R256). -/
def AtomicReady (s : State) (p : Path) (f : MForm) (space : Space) (hs : List Hit) : Prop :=
  let op := f.sub.toNat % 16
  ∃ x, s.read1 p f.a.toNat 0 (fun g => g == .i32 || g == .n32) = .ok x ∧
    (s.troupe p).checkSource p 0 (MForm.dataRegs f) = .ok () ∧
    s.access p space (MForm.width f / 8) true (op ≠ 0 && op ≠ 8 && op ≠ 9) (s.wants p f 1 0 x) = .ok hs ∧
    s.checkPoison hs = .ok () ∧ Quiet s

/-! ### Streams, barriers and rings -/

/-- The port that a stream major names. -/
def portNo (v : BitVec 11) : Nat := v.toNat - 2040

/-- The context bound to a port of the path's troupe. -/
def Bound (s : State) (p : Path) (q n : Nat) : Prop := (s.core p.core).ctxOf p.blk p.at_.troupe q = some n

/-- A context's lanes that belong to the path change, and nothing else of the core. -/
def ctxLanes (s : State) (p : Path) (n : Nat) (g : Nat → CtxLane → CtxLane) : State :=
  s.modCore p.core fun k => k.modCtx n fun x => x.modLanes p.active g

/-- A pattern that SCFG binds (step 2 of R273). -/
def GoodPattern (q : Pattern) (kbase : DWord) : Prop :=
  let size := kindSize q.fmt
  1 ≤ q.ndim ∧ q.ndim ≤ 4 ∧ q.fmt ≤ 12 ∧ ¬(q.priv = true ∧ q.isLocal = true) ∧
  q.length.toNat ≤ ((q.ext.take q.ndim).map (·.toNat)).foldl (· * ·) 1 ∧
  (q.base + kbase).toNat % size = 0 ∧ q.lstride.toNat % size = 0 ∧ ∀ x ∈ q.str.take q.ndim, x.toNat % size = 0

/-- The flip test (R295) of an object whose BYTES and ARRIVED have become the given values. -/
def flips (o : BarObj) (bytes arrived : Nat) : Bool := bytes = 0 && o.atarget ≤ arrived
def tested (o : BarObj) (bytes arrived : Nat) : BarObj :=
  if flips o bytes arrived then { o with flags := o.flags ^^^ 1, bytes := o.reload, arrived := 0 }
  else { o with bytes := bytes, arrived := arrived }

/-- ARMED, PHASE and SAT of an object, and the object with RANGE set (R294). -/
def armed (o : BarObj) : Bool := o.flags.testBit 1
def phase (o : BarObj) : Bool := o.flags.testBit 0
def sat (o : BarObj) : Bool := o.flags.testBit 2
def ranged (o : BarObj) : BarObj := { o with flags := o.flags ||| 2 ^ 14 }

/-- The object at a window offset of the path's block. -/
def objectAt (s : State) (p : Path) (off : Nat) : BarObj := BarObj.read (s.core p.core).mem ((s.block p).base + off)

/-- WIDX and RIDX of the block's rings (R297). -/
def Counter (s : State) (p : Path) (x : Nat) : Prop :=
  ∃ j, j < (s.block p).rings ∧
    (s.block p).base + 16 * (s.block p).barriers + 32 * j + 16 ≤ x ∧ x < (s.block p).base + 16 * (s.block p).barriers + 32 * j + 24

/-- An object of the window: it lies inside, and it is none of the ring counters. -/
def Object (s : State) (p : Path) (off : Nat) : Prop :=
  (∃ b, (s.core p.core).block p.blk = some b) ∧ p.core < s.cores.length ∧ (s.core p.core).mem.wf = true ∧
  off + 16 ≤ (s.block p).size ∧ ∀ x, Counter s p x → x < (s.block p).base + off ∨ (s.block p).base + off + 16 ≤ x

/-- The instruction replaces one object, and where that flips it, every record of the block that waits on the object
becomes ready and takes its SAT (R295). No register changes, and no byte of local memory but the object's and the ring
counters' does. -/
def Replaces (i : Instr) (s : State) (p : Path) (s1 s2 : State) (off : Nat) (new : BarObj) (flip : Bool) : Prop :=
  ∃ t, exec i s = .next (t.logUndo p.at_ s1) ∧ Untouched s2 t p ∧ objectAt t p off = new ∧
    (∀ x, x < (s2.block p).base + off ∨ (s2.block p).base + off + 16 ≤ x → ¬Counter s2 p x →
      (t.core p.core).mem.read x = (s2.core p.core).mem.read x) ∧
    (flip = false → ∃ m, t = s2.modCore p.core fun k => { k with mem := m }) ∧
    (flip = true → ∀ r ∈ (s2.core p.core).cue, r.blk = p.blk → r.key = .barrier off → r.halted = none → r.ready = false →
      ∃ r' ∈ (t.core p.core).cue, r'.rid = r.rid ∧ r'.ready = true ∧ r'.sat = sat new)

/-- SATTRAP's condition (R296). -/
def trapsSat (s : State) (p : Path) (off : Nat) : Prop :=
  (s.troupe p).satt = true ∧ ((s.troupe p).fstat.getLsbD 5 = true ∨ sat (objectAt s p off) = true)

/-- The path departs on a key, and at once ready with the SAT it takes, if what it awaits holds already (R121, R295). -/
def DepartsOn (i : Instr) (s : State) (p : Path) (s1 s2 : State) (key : Key) (off : Nat) (now : Bool) : Prop :=
  ∀ t, s2.depart p key (p.at_.pc + 16) 0 (fun r => { r with sat := now && sat (objectAt s2 p off) }) = .ok t →
    (now = true → exec i s = .next ((t.readyNow p.core fun r => r.rid == s2.nextId).logUndo p.at_ s1)) ∧
    (now = false → exec i s = .next (t.logUndo p.at_ s1))

/-- A ring of the path's block, and a slot of it that passes the checks of R310. -/
def ringOf (s : State) (p : Path) (j : Nat) : Ring := (s.block p).ring (s.core p.core).mem j
def RingSlot (s : State) (p : Path) (j n : Nat) : Prop :=
  let r := ringOf s p j
  j < (s.block p).rings ∧ n < r.nslot ∧ r.slotOff + r.nslot * r.slotSize ≤ (s.block p).size ∧
  r.barOff + 32 * r.nslot ≤ (s.block p).size

/-- Slot `n` is full (R298). -/
def full (s : State) (p : Path) (r : Ring) (n : Nat) : Bool :=
  phase (objectAt s p (r.barOff + 32 * n)) != phase (objectAt s p (r.barOff + 32 * n + 16))

/-! ### Copies, the matrix array and tasks -/

/-- The script state of the path's block changes, and the release of R284 follows with the troupe's %fmode; while a
pre-emption is pending, or a fault of the block is delivered, that %fmode is kept instead (R316, R184). Every entry starts
that nothing holds back (R321), and an entry that fails its checks faults after that. `fresh` are the lanes that may come
again (R392). -/
def released (s : State) (p : Path) (fresh : Mask) (change : Block → Block) : State :=
  let s := s.modPathBlock p change
  let mode := (s.troupe p).fmode
  if (s.core p.core).preempt.isSome = true ∨ (s.block p).halted = true then
    s.modPathBlock p fun b => { b with keptFmode := some mode }
  else
    let r := State.releaseLoop (2 ^ 32) s p.core p.blk
      { fmode := mode, pc := p.at_.pc, troupe := p.at_.troupe, fresh := fresh }
    (State.startAll 128 r.1 p.core).stopScript p.core p.blk p.at_.pc r.2

/-- The little-endian word at byte `i`. -/
def wordIn (bs : List Byte) (i : Nat) : Nat := bytesToNat ((bs.drop i).take 4)

/-- RCSEAL's change of a shape record (R319): VERSION goes up by one modulo 2^16, CHECK becomes the bitwise NOT of the
sum of the words at +0 and from +8 on (R286), and every other byte stays. -/
def Resealed (old new : List Byte) : Prop :=
  new.length = 64 ∧ bytesToNat (new.take 2) = (bytesToNat (old.take 2) + 1) % 2 ^ 16 ∧
  (∀ i, (2 ≤ i ∧ i < 4) ∨ (8 ≤ i ∧ i < 64) → new.getD i 0 = old.getD i 0) ∧
  2 ^ 32 ∣ wordIn new 4 + 1 + (wordIn new 0 + ((List.range' 2 14).map fun i => wordIn new (4 * i)).sum)

/-- The pair of the path's core, and the owner of its launch. -/
def pairHere (s : State) (p : Path) : Pair := s.pair (p.core / 2)
def mine (s : State) (p : Path) : Nat × Nat := s.ownerOf p.core p.blk

/-- The path issues on the leader of a pair that is complete (R324). -/
def Leads (s : State) (p : Path) : Prop := p.core % 2 = 0 ∧ (s.core (p.core + 1)).retired = false

/-- The path's core and its pair exist. -/
def Sited (s : State) (p : Path) : Prop := p.core < s.cores.length ∧ p.core / 2 < s.pairs.length

/-- The pair's cells are those of an owner: no command of the queue has still to scrub them (R323). -/
def holding (q : Pair) (own : Nat × Nat) : Bool := q.owner == some own && q.queue.all fun x => !x.scrub

/-- The pair's cells are the path's owner's: another owner's have been scrubbed to zero (R323). -/
def Claimed (s : State) (p : Path) (q : Pair) : Prop :=
  holding q (mine s p) = true ∧ q.cells = if holding (pairHere s p) (mine s p) then (pairHere s p).cells else []

/-- A span of window offsets as core-local addresses. -/
def inWindow (s : State) (p : Path) (r : Span) : Span := { lo := (s.block p).base + r.lo, hi := (s.block p).base + r.hi }

/-- A matrix command is admitted (R12, R335): it stands last in the pair's queue, its regions stand last in the core's
scoreboard, and neither a register, a cell nor a byte of memory has changed. The first command of another owner is to
scrub the cells as it starts (R323). A perturbation that was armed goes with an MMA or MMAS (R339). -/
def Admits (i : Instr) (s : State) (p : Path) (s1 s2 : State) (op : MatOp) (takes : Bool) (arr : Option Nat)
    (rel : Option (Nat × Nat)) (reads writes : List Span) : Prop :=
  ∃ t x, exec i s = .next (t.logUndo p.at_ s1) ∧ (pairHere t p).owner = some (mine s2 p) ∧ (pairHere t p).cells = (pairHere s2 p).cells ∧
    x.own = mine s2 p ∧ (x.scrub = true ↔ (pairHere s2 p).owner ≠ some (mine s2 p)) ∧ x.muted = false ∧ x.raced = [] ∧ x.dropped = [] ∧
    (pairHere t p).queue = (pairHere s2 p).queue ++ [x] ∧ x.op = op ∧ x.core = p.core ∧ x.blk = p.blk ∧ x.arr = arr ∧ x.rel = rel ∧
    x.window = (s2.block p).base ∧ x.started = false ∧ x.lastRead = false ∧
    x.pert = (if takes then (pairHere s2 p).pert else none) ∧ (pairHere t p).pert = (if takes then none else (pairHere s2 p).pert) ∧
    (t.core p.core).board = (s2.core p.core).board ++ [{ owner := .matrix x.id, slot := (s2.troupe p).slot
                                                         reads := reads.map (inWindow s2 p), writes := writes.map (inWindow s2 p) }] ∧
    (t.core p.core).mem = (s2.core p.core).mem ∧ (t.core p.core).troupes = (s2.core p.core).troupes

/-- The tile that descriptor `n` gives passes the checks of R327 in a role. -/
def TileOk (s : State) (p : Path) (n : Nat) (role : TileRole) (t : Tile) : Prop :=
  t = (s.troupe p).tile n ∧ t.fails role ((s.troupe p).tileReserved n) false (s.block p).size = none

/-- ARR names a barrier object of the block, and REL a slot of a ring of the block, where they are set (R343). -/
def ArrOk (s : State) (p : Path) (f : XForm) (on : Bool) (arr : Option Nat) : Prop :=
  (on = true → f.immB.toNat % 64 < (s.block p).barriers) ∧ arr = if on then some (f.immB.toNat % 64) else none
def RelOk (s : State) (p : Path) (f : XForm) (on : Bool) (rel : Option (Nat × Nat)) : Prop :=
  let j := f.immB.toNat / 256 % 8
  let i := f.immB.toNat / 4096 % 16
  (on = true → j < (s.block p).rings ∧ i < (ringOf s p j).nslot) ∧ rel = if on then some (j, i) else none

/-- A started command of the pair writes a cell (R333, R335). -/
def beingWritten (q : Pair) (key : Nat) : Prop := ∃ x ∈ q.queue, x.started = true ∧ ∃ v, x.cells.lookup key = some v

/-- A field of an X-form immediate: bits hi to lo. -/
def part (n : Word) (hi lo : Nat) : Nat := n.toNat / 2 ^ lo % 2 ^ (hi + 1 - lo)

/-- A uniform register takes a value. -/
def kWritten (s : State) (p : Path) (n : Nat) (v : DWord) : State := s.mod p fun t => t.setK n v

/-- The job table entries of a job in the path's partition (R376). -/
def entriesOf (s : State) (p : Path) (job : Nat) : List JobEntry := (s.jobsOf (mine s p).1).filter fun j => j.job = job

/-! ### Floating results -/

/-- An element-wise instruction of one floating source completes; `R` relates rounding code, operand and result. -/
def OneFloat (mk : Head → RForm → Instr) (acc : RForm → Tag → Bool) (tag : RForm → Tag)
    (R : RForm → Nat → Word → Word → Flags → Prop) : Prop :=
  ∀ (h : Head) (f : RForm) (s : State) (p : Path) (s1 s2 : State) (x : Operand),
    Begins (mk h f) h f.len.bytes s p s1 s2 →
    s2.read1 p f.a.toNat f.pa.toNat (acc f) = .ok x →
    Deliverable s2 (s2.popPorts p [f.a.toNat]) p f.d.toNat (tag f) →
    ∃ v fl t, exec (mk h f) s = .next (t.logUndo p.at_ s1) ∧
      Delivered (s2.popPorts p [f.a.toNat]) p f.d.toNat (tag f) v (orFlags (p.active.lanes.map fl)) t ∧
      ∀ l, p.active.has l = true → R f (s2.rounding p f.mod) (x.at l) (v l) (fl l)

/-- The same of two sources. -/
def TwoFloats (mk : Head → RForm → Instr) (ok : RForm → Prop) (accA accB : RForm → Tag → Bool) (tag : RForm → Tag)
    (R : RForm → Nat → Word → Word → Word → Flags → Prop) : Prop :=
  ∀ (h : Head) (f : RForm) (s : State) (p : Path) (s1 s2 : State) (x y : Operand),
    Begins (mk h f) h f.len.bytes s p s1 s2 → ok f →
    s2.read2 p f.a.toNat f.pa.toNat (accA f) f.b.toNat f.pb.toNat (accB f) = .ok (x, y) →
    Deliverable s2 (s2.popPorts p [f.a.toNat, f.b.toNat]) p f.d.toNat (tag f) →
    ∃ v fl t, exec (mk h f) s = .next (t.logUndo p.at_ s1) ∧
      Delivered (s2.popPorts p [f.a.toNat, f.b.toNat]) p f.d.toNat (tag f) v (orFlags (p.active.lanes.map fl)) t ∧
      ∀ l, p.active.has l = true → R f (s2.rounding p f.mod) (x.at l) (y.at l) (v l) (fl l)

/-- The same of three sources. -/
def ThreeFloats (mk : Head → RForm → Instr) (acc : RForm → Tag → Bool) (tag : RForm → Tag)
    (R : RForm → Nat → Word → Word → Word → Word → Flags → Prop) : Prop :=
  ∀ (h : Head) (f : RForm) (s : State) (p : Path) (s1 s2 : State) (x y z : Operand),
    Begins (mk h f) h f.len.bytes s p s1 s2 →
    s2.read3 p f.a.toNat f.pa.toNat f.b.toNat f.pb.toNat f.c.toNat f.pc.toNat (acc f) (acc f) = .ok (x, y, z) →
    Deliverable s2 (s2.popPorts p [f.a.toNat, f.b.toNat, f.c.toNat]) p f.d.toNat (tag f) →
    ∃ v fl t, exec (mk h f) s = .next (t.logUndo p.at_ s1) ∧
      Delivered (s2.popPorts p [f.a.toNat, f.b.toNat, f.c.toNat]) p f.d.toNat (tag f) v (orFlags (p.active.lanes.map fl)) t ∧
      ∀ l, p.active.has l = true → R f (s2.rounding p f.mod) (x.at l) (y.at l) (z.at l) (v l) (fl l)

/-- A lane holds, element by element, results that `R` relates to the element's number, and raises their
exceptions (R199, R203). -/
def FloatElements (width : Nat) (R : Nat → Rounded → Prop) (w : Word) (fl : Flags) : Prop :=
  ∃ r : Nat → Rounded, (∀ e, e < 32 / width → R e (r e) ∧ elemAt width w e = (r e).bits % 2 ^ width) ∧
    fl = orFlags ((List.range (32 / width)).map fun e => (r e).flags)

/-- The format that SUB names (R218), its encoding, and a source that carries its tag. -/
def formatOf (f : RForm) : VFmt := RForm.vf f
def encodingOf (f : RForm) : FloatFmt := (formatOf f).fmt
def carries (f : RForm) (g : Tag) : Bool := g == (formatOf f).tag
def formatTag (f : RForm) : Tag := (formatOf f).tag

/-- What element `e` of a lane holds. -/
def element (f : RForm) (x : Word) (e : Nat) : Quantity := (encodingOf f).quantity (elemAt (formatOf f).width x e)

/-- Each element delivers the quantity that `op` forms of the operands. -/
def Forms (f : RForm) (mode : Nat) (sat : Bool) (op : Nat → Quantity) (w : Word) (fl : Flags) : Prop :=
  FloatElements (formatOf f).width (fun e r => (encodingOf f).Delivers mode sat (op e) r) w fl

/-- An exact-pair form: hi and lo of every element, in D and D + 1 (R205, R220). -/
def ExactPair (mk : Head → RForm → Instr) (op : Nat → Quantity → Quantity → Quantity) : Prop :=
  ∀ (h : Head) (f : RForm) (s : State) (p : Path) (s1 s2 : State) (x y : Operand),
    Begins (mk h f) h f.len.bytes s p s1 s2 → modX f.mod = true →
    s2.read2 p f.a.toNat f.pa.toNat (carries f) f.b.toNat f.pb.toNat (carries f) = .ok (x, y) →
    (s2.troupe p).checkDest p [f.d.toNat, f.d.toNat + 1] = .ok () →
    ∃ hi lo fl, exec (mk h f) s =
        .next ((groupWritten (s2.popPorts p [f.a.toNat, f.b.toNat]) p f.d.toNat [(formatTag f, hi), (formatTag f, lo)]
          (orFlags (p.active.lanes.map fl))).logUndo p.at_ s1) ∧
      ∀ l, p.active.has l = true → ∃ r : Nat → PairResult,
        (∀ e, e < 32 / (formatOf f).width →
          let a := elemAt (formatOf f).width (x.at l) e
          let b := elemAt (formatOf f).width (y.at l) e
          let mode := s2.rounding p f.mod
          (encodingOf f).DeliversPair mode ((encodingOf f).Finite a ∧ (encodingOf f).Finite b)
            (op mode ((encodingOf f).quantity a) ((encodingOf f).quantity b)) (r e) ∧
          elemAt (formatOf f).width (hi l) e = (r e).hi % 2 ^ (formatOf f).width ∧
          elemAt (formatOf f).width (lo l) e = (r e).lo % 2 ^ (formatOf f).width) ∧
        fl l = orFlags ((List.range (32 / (formatOf f).width)).map fun e => (r e).flags)

/-- The smaller or the larger of two encodings (R221). -/
def Selects (f : FloatFmt) (larger : Bool) (x y : Nat) (r : Rounded) : Prop :=
  (f.NaN x → f.NaN y → r.bits = f.nan) ∧ (f.NaN x → ¬f.NaN y → r.bits = y) ∧ (¬f.NaN x → f.NaN y → r.bits = x) ∧
  (¬f.NaN x → ¬f.NaN y → (r.bits = x ∨ r.bits = y) ∧
    f.order r.bits = if larger then max (f.order x) (f.order y) else min (f.order x) (f.order y)) ∧
  (f.Signalling x ∨ f.Signalling y → r.flags = flagIE) ∧ (¬(f.Signalling x ∨ f.Signalling y) → r.flags = 0)

/-- The class of an encoding (R224), as the number of its bit. -/
def classBit (f : FloatFmt) (x : Nat) : Nat :=
  let n := f.neg x
  if f.infBits < x % f.signBit then (if x % 2 ^ (f.p - 1) < 2 ^ (f.p - 2) then 8 else 9)
  else if x % f.signBit = f.infBits then (if n then 0 else 7)
  else if x % f.signBit = 0 then (if n then 3 else 4)
  else if x % f.signBit < 2 ^ (f.p - 1) then (if n then 2 else 5)
  else if n then 1 else 6

/-- The conditions of FCMP (R223), with +0 = −0. -/
def floatCondition (f : FloatFmt) (code x y : Nat) : Prop :=
  let un := f.NaN x ∨ f.NaN y
  let eq := ¬un ∧ (f.order x = f.order y ∨ f.Zero x ∧ f.Zero y)
  let lt := ¬un ∧ f.order x < f.order y ∧ ¬(f.Zero x ∧ f.Zero y)
  (code = 0 ∧ eq) ∨ (code = 1 ∧ ¬eq) ∨ (code = 2 ∧ lt) ∨ (code = 3 ∧ (lt ∨ eq)) ∨
  (code = 4 ∧ ¬un ∧ ¬lt ∧ ¬eq) ∨ (code = 5 ∧ ¬un ∧ ¬lt) ∨ (code = 6 ∧ un) ∨ (code = 7 ∧ ¬un)

/-- The integral value of an encoding under a rounding code (R225). -/
def Integral (f : FloatFmt) (mode x : Nat) (r : Rounded) : Prop :=
  (f.NaN x → r.bits = f.nan ∧ (f.Signalling x → r.flags = flagIE) ∧ (¬f.Signalling x → r.flags = 0)) ∧
  (f.Infinite x ∨ f.Zero x → r.bits = x ∧ r.flags = 0) ∧
  (f.Finite x → ¬f.Zero x → f.Finite r.bits ∧ f.neg r.bits = f.neg x ∧
    chosen mode 1 (f.rat x) (f.rat r.bits) ∧ r.flags = flagIf (decide (f.rat r.bits ≠ f.rat x)) flagXE)

/-- A quantity times a power of two (R226). -/
def scaled (n : Int) : Quantity → Quantity
  | .exact s v => .exact s (v * 2 ^ n)
  | q => q

/-- A quotient delivers, or a finite number over zero gives an infinity and DZ (R227). -/
def DeliversQuotient (f : FloatFmt) (mode : Nat) (sat : Bool) (neg : Bool) (q : Option Quantity) (r : Rounded) : Prop :=
  match q with
  | some q => f.Delivers mode sat q r
  | none => r.bits = f.signed neg f.infBits ∧ r.flags = flagDZ

/-- A NaN gives the canonical NaN, and IE when it is signalling (R201). -/
def Propagates (f : FloatFmt) (x : Nat) (r : Rounded) : Prop :=
  f.NaN x → r.bits = f.nan ∧ (f.Signalling x → r.flags = flagIE) ∧ (¬f.Signalling x → r.flags = 0)

/-- The square root, or its reciprocal, of an encoding (R227). -/
def Root (f : FloatFmt) (inverse : Bool) (mode x : Nat) (r : Rounded) : Prop :=
  Propagates f x r ∧
  (f.Zero x → if inverse then r.bits = f.signed (f.neg x) f.infBits ∧ r.flags = flagDZ else r.bits = x ∧ r.flags = 0) ∧
  (f.Infinite x → f.neg x = false → r.bits = (if inverse then 0 else x) ∧ r.flags = 0) ∧
  (¬f.NaN x → ¬f.Zero x → f.neg x = true → r.bits = f.nan ∧ r.flags = flagIE) ∧
  (f.Finite x → ¬f.Zero x → f.neg x = false →
    f.RoundsTo mode false (if inverse then 1 / Real.sqrt (f.rat x) else Real.sqrt (f.rat x)) r)

/-- An exact special value: a zero with its sign, or the number rounded once. -/
def Gives (f : FloatFmt) (mode : Nat) (sat neg : Bool) (v : Rat) (r : Rounded) : Prop := f.Delivers mode sat (.exact neg v) r

/-! ### Double words and lane reductions -/

/-- RN of a sum, a product, and a product plus an addend (R228). -/
def nearestSum (a b : Nat) (r : Rounded) : Prop := f32.Delivers 1 false ((f32.quantity a).sum 1 (f32.quantity b)) r
def nearestProduct (a b : Nat) (r : Rounded) : Prop := f32.Delivers 1 false ((f32.quantity a).product (f32.quantity b)) r
def nearestFused (a b c : Nat) (r : Rounded) : Prop :=
  f32.Delivers 1 false (((f32.quantity a).product (f32.quantity b)).sum 1 (f32.quantity c)) r

/-- two_sum (R229): the rounded sum and what it leaves. -/
def twoSum (a b : Nat) (s : Rounded) (e : Nat) : Prop :=
  nearestSum a b s ∧ ∃ fl, f32.DeliversPair 1 (f32.Finite a ∧ f32.Finite b) ((f32.quantity a).sum 1 (f32.quantity b))
    { hi := s.bits, lo := e, flags := fl }

/-- two_prod (R229): the rounded product and RN of what it leaves. -/
def twoProd (a b : Nat) (s e : Rounded) : Prop := nearestProduct a b s ∧ nearestFused a b (if f32.neg s.bits then s.bits - 2 ^ 31 else s.bits + 2 ^ 31) e

/-- The value of a finite pair (R206). -/
def pairRat (h l : Nat) : Rat := f32.rat h + f32.rat l

/-- The end of a double-word operation on finite operands (R230): `steps` are its roundings in order, `prod` the
residual of a two_prod, `exact` the exact value. -/
def DwEnds (steps : List Rounded) (prod : Option Rounded) (zh : Rounded) (zl : Nat) (exact : Rat) (r : PairResult) : Prop :=
  match steps.find? (fun s => s.flags &&& flagOE != 0) with
  | some s => r.hi = f32.signed (f32.neg s.bits) f32.infBits ∧ r.lo = f32.nan ∧ r.flags &&& (flagOE ||| flagXE) = flagOE ||| flagXE
  | none => r.hi = zh.bits ∧ r.lo = zl ∧
      r.flags = flagIf (decide (pairRat zh.bits zl ≠ exact)) flagXE |||
        flagIf (steps.any fun s => s.flags &&& flagXE != 0 && decide (s.bits % 2 ^ 31 < 2 ^ 23)) flagUE |||
        flagIf (prod.any fun e => e.flags &&& flagXE != 0) flagXINEX

/-- A double-word operation with a NaN or an infinity in its high halves (R230). -/
def DwSpecial (q : Quantity) (r : PairResult) : Prop :=
  r.lo = f32.nan ∧ ∃ z, f32.Delivers 1 false q z ∧ r.hi = z.bits ∧ r.flags = z.flags

/-- DWADD on two pairs. -/
def DwSum (xh xl yh yl : Nat) (r : PairResult) : Prop :=
  (f32.Finite xh ∧ f32.Finite xl ∧ f32.Finite yh ∧ f32.Finite yl → ∃ sh sl th tl c vh vl w zh zl,
    twoSum xh yh sh sl ∧ twoSum xl yl th tl ∧ nearestSum sl th.bits c ∧ twoSum sh.bits c.bits vh vl ∧
    nearestSum tl vl w ∧ twoSum vh.bits w.bits zh zl ∧
    DwEnds [sh, th, c, vh, w, zh] none zh zl (pairRat xh xl + pairRat yh yl) r) ∧
  (¬(f32.Finite xh ∧ f32.Finite yh) → DwSpecial ((f32.quantity xh).sum 1 (f32.quantity yh)) r)

/-- DWADDS on a pair and a number. -/
def DwSumSingle (xh xl y : Nat) (r : PairResult) : Prop :=
  (f32.Finite xh ∧ f32.Finite xl ∧ f32.Finite y → ∃ sh sl v zh zl,
    twoSum xh y sh sl ∧ nearestSum xl sl v ∧ twoSum sh.bits v.bits zh zl ∧
    DwEnds [sh, v, zh] none zh zl (pairRat xh xl + f32.rat y) r) ∧
  (¬(f32.Finite xh ∧ f32.Finite y) → DwSpecial ((f32.quantity xh).sum 1 (f32.quantity y)) r)

/-- DWMUL on two pairs. -/
def DwProduct (xh xl yh yl : Nat) (r : PairResult) : Prop :=
  (f32.Finite xh ∧ f32.Finite xl ∧ f32.Finite yh ∧ f32.Finite yl → ∃ ch ca m0 m1 cb cc zh zl,
    twoProd xh yh ch ca ∧ nearestProduct xl yl m0 ∧ nearestFused xh yl m0.bits m1 ∧ nearestFused xl yh m1.bits cb ∧
    nearestSum ca.bits cb.bits cc ∧ twoSum ch.bits cc.bits zh zl ∧
    DwEnds [ch, ca, m0, m1, cb, cc, zh] (some ca) zh zl (pairRat xh xl * pairRat yh yl) r) ∧
  (¬(f32.Finite xh ∧ f32.Finite yh) → DwSpecial ((f32.quantity xh).product (f32.quantity yh)) r)

/-- DWMULS on a pair and a number. -/
def DwProductSingle (xh xl y : Nat) (r : PairResult) : Prop :=
  (f32.Finite xh ∧ f32.Finite xl ∧ f32.Finite y → ∃ ch ca cb th tl w zh zl,
    twoProd xh y ch ca ∧ nearestProduct xl y cb ∧ twoSum ch.bits cb.bits th tl ∧ nearestSum tl ca.bits w ∧
    twoSum th.bits w.bits zh zl ∧
    DwEnds [ch, ca, cb, th, w, zh] (some ca) zh zl (pairRat xh xl * f32.rat y) r) ∧
  (¬(f32.Finite xh ∧ f32.Finite y) → DwSpecial ((f32.quantity xh).product (f32.quantity y)) r)

/-- DWNORM. -/
def DwNormal (xh xl : Nat) (r : PairResult) : Prop :=
  (f32.Finite xh ∧ f32.Finite xl → ∃ zh zl, twoSum xh xl zh zl ∧ DwEnds [zh] none zh zl (pairRat xh xl) r) ∧
  (f32.NaN xh → r.hi = f32.nan ∧ r.lo = f32.nan ∧ r.flags = flagIf (decide (xh % 2 ^ 23 < 2 ^ 22)) flagIE) ∧
  (f32.Infinite xh → r.hi = xh ∧ r.lo = f32.nan ∧ r.flags = 0)

/-- A double-word result in D and D + 1, with tags DFH and DFL. -/
def dwPair (r : Nat → PairResult) : List (Tag × (Nat → Word)) :=
  [(.dfh, fun l => BitVec.ofNat 32 (r l).hi), (.dfl, fun l => BitVec.ofNat 32 (r l).lo)]

/-- An instruction of two DF32 pairs. -/
def DwPairs (mk : Head → RForm → Instr) (R : Nat → Nat → Nat → Nat → PairResult → Prop) : Prop :=
  ∀ (h : Head) (f : RForm) (s : State) (p : Path) (s1 s2 : State) (x y : Operand × Operand),
    Begins (mk h f) h f.len.bytes s p s1 s2 →
    s2.readPair p 0 f.a.toNat f.pa.toNat .dfh .dfl = .ok x → s2.readPair p 1 f.b.toNat f.pb.toNat .dfh .dfl = .ok y →
    (s2.troupe p).checkDest p [f.d.toNat, f.d.toNat + 1] = .ok () →
    ∃ r, exec (mk h f) s = .next
        ((groupWritten s2 p f.d.toNat (dwPair r) (orFlags (p.active.lanes.map fun l => (r l).flags))).logUndo p.at_ s1) ∧
      ∀ l, p.active.has l = true → R (x.1.at l).toNat (x.2.at l).toNat (y.1.at l).toNat (y.2.at l).toNat (r l)

/-- An instruction of a DF32 pair and an F32. -/
def DwSingles (mk : Head → RForm → Instr) (R : Nat → Nat → Nat → PairResult → Prop) : Prop :=
  ∀ (h : Head) (f : RForm) (s : State) (p : Path) (s1 s2 : State) (x : Operand × Operand) (y : Operand),
    Begins (mk h f) h f.len.bytes s p s1 s2 → s2.portsReady p [f.a.toNat, f.b.toNat] = .ok () →
    s2.readPair p 0 f.a.toNat f.pa.toNat .dfh .dfl = .ok x →
    s2.operand p [f.a.toNat, f.b.toNat] 1 f.pb.toNat (fun g => g == .f32) = .ok y →
    (s2.troupe p).checkDest p [f.d.toNat, f.d.toNat + 1] = .ok () →
    ∃ r, exec (mk h f) s = .next
        ((groupWritten (s2.popPorts p [f.a.toNat, f.b.toNat]) p f.d.toNat (dwPair r)
          (orFlags (p.active.lanes.map fun l => (r l).flags))).logUndo p.at_ s1) ∧
      ∀ l, p.active.has l = true → R (x.1.at l).toNat (x.2.at l).toNat (y.at l).toNat (r l)

/-- The tree of R211: `o` is the node over the 2^k lanes from 2^k × i on. -/
def Reduces {α : Type} (node : α → α → α → Prop) (leaf : Nat → Option α) : Nat → Nat → Option α → Prop
  | 0, i, o => o = leaf i
  | k + 1, i, o => ∃ a b, Reduces node leaf k (2 * i) a ∧ Reduces node leaf k (2 * i + 1) b ∧
      match a, b with
      | some x, some y => ∃ z, node x y z ∧ o = some z
      | some x, none => o = some x
      | none, b => o = b

/-- A node of VRSUM, VRMAX or VRMIN: the combined value, with the exceptions of the nodes below (R231). -/
def oneNode (R : Nat → Nat → Rounded → Prop) (a b z : Rounded) : Prop :=
  ∃ r, R a.bits b.bits r ∧ z.bits = r.bits ∧ z.flags = r.flags ||| a.flags ||| b.flags

/-- An operand as a leaf: a NaN goes on as the canonical one, and a signalling NaN raises IE (R201). -/
def asLeaf (x : Nat) : Rounded :=
  { bits := if (f32.value x).isNan then f32.nan else x, flags := flagIf (f32.value x).isSnan flagIE }

/-- The operand of an active lane as a leaf. -/
def oneLeaf (p : Path) (x : Operand) (l : Nat) : Option Rounded := if p.active.has l then some (asLeaf (x.at l).toNat) else none

/-- A reduction into one register (R231). -/
def ReducesOne (mk : Head → RForm → Instr) (R : Nat → Bool → Nat → Nat → Rounded → Prop) : Prop :=
  ∀ (h : Head) (f : RForm) (s : State) (p : Path) (s1 s2 : State) (x : Operand),
    Begins (mk h f) h f.len.bytes s p s1 s2 →
    s2.read1 p f.a.toNat f.pa.toNat (fun g => g == .f32) = .ok x →
    Deliverable s2 (s2.popPorts p [f.a.toNat]) p f.d.toNat .f32 →
    ∃ r t, exec (mk h f) s = .next (t.logUndo p.at_ s1) ∧
      Reduces (oneNode (R (s2.rounding p f.mod) (modSat f.mod))) (oneLeaf p x) 6 0 (some r) ∧
      Delivered (s2.popPorts p [f.a.toNat]) p f.d.toNat .f32 (fun _ => BitVec.ofNat 32 r.bits) r.flags t

/-- A node of the pair tree (R212): the pair, and whether a sum below it overflowed. -/
def pairNode (a b z : PairNode) : Prop :=
  ∃ h d e1 e, twoSum a.h b.h h d ∧ nearestSum a.e b.e e1 ∧ nearestSum e1.bits d e ∧
    z.h = h.bits ∧ z.e = e.bits ∧
    z.ovf = (a.ovf || b.ovf || h.flags &&& flagOE != 0 || e1.flags &&& flagOE != 0 || e.flags &&& flagOE != 0)

/-- The pair reduction of R212 and R231 over the leaves of the active lanes: `exact` is the exact sum of the leaf
values, `infinite` says that one of them is infinite, and `extra` are the exceptions of the leaves. Where the result is the
sum of the high halves, XE says that it is a number other than the exact sum (R203). -/
def ReducesPairs (leaf : Nat → Option (Nat × Nat)) (exact : Rat) (infinite : Bool) (extra : Flags) (r : PairResult) : Prop :=
  let special := ∃ l x, leaf l = some x ∧ ¬f32.Finite x.1
  let summed (z : Rounded) : Prop :=
    Reduces (oneNode nearestSum) (fun l => (leaf l).map fun x => asLeaf x.1) 6 0 (some z) ∧ r.hi = z.bits ∧ r.lo = f32.nan ∧
      r.flags &&& flagXE = (extra &&& flagXE) ||| flagIf (!infinite && !(f32.value z.bits).isNan) flagXE ∧
      r.flags &&& flagIE = (extra ||| z.flags) &&& flagIE
  (¬special → (∀ l x, leaf l = some x → f32.Finite x.2) →
    ∃ top s t, Reduces pairNode (fun l => (leaf l).map fun x => { h := x.1, e := x.2, ovf := false }) 6 0 (some top) ∧
      twoSum top.h top.e s t ∧
      (top.ovf = false → s.flags &&& flagOE = 0 → r.hi = s.bits ∧ r.lo = t ∧
        r.flags = extra ||| flagIf (decide (pairRat s.bits t ≠ exact)) flagXE |||
          flagIf (decide (pairRat s.bits t ≠ exact) && decide (s.bits % 2 ^ 31 < 2 ^ 23)) flagUE) ∧
      (top.ovf = true ∨ s.flags &&& flagOE ≠ 0 → r.flags &&& flagOE = flagOE ∧ ∃ z, summed z)) ∧
  (special → ∃ z, summed z ∧ ((extra ||| z.flags) &&& flagOE ≠ 0 → r.flags &&& flagOE = flagOE))

/-- A value of every active lane, as leaves. -/
def leaves {α : Type} (p : Path) (v : Nat → α) (l : Nat) : Option α := if p.active.has l then some (v l) else none

/-- The sum over the active lanes. -/
def laneSum (p : Path) (v : Nat → Rat) : Rat := (p.active.lanes.map v).sum

/-! ### Conversions -/

/-- An integer as a quantity. -/
def integer (v : Int) : Quantity := .exact (decide (v < 0)) v

/-- What element `i` of a source of a tag holds (R232). -/
def sourceQuantity (t : Tag) (x : Word) (i : Nat) : Quantity :=
  match t with
  | .f32 => f32.quantity x.toNat
  | .f16x2 => f16.quantity (elemAt 16 x i)
  | .bf16x2 => bf16.quantity (elemAt 16 x i)
  | .i32 => integer x.toInt
  | .n32 => integer x.toNat
  | .i16x2 => integer (x.extractLsb' (16 * i) 16).toInt
  | .i8x4 => integer (x.extractLsb' (8 * i) 8).toInt
  | _ => integer (x.extractLsb' (8 * i) 8).toNat

/-- Elements per lane (R232). -/
def elementsOf (t : Tag) : Nat :=
  match t with
  | .f32 | .i32 | .n32 => 1
  | .i8x4 | .n8x4 => 4
  | _ => 2

/-- The source element of destination element `i`, for `n` source and `m` destination elements and the element
field `h` (R232 to R234): none where the destination holds zero. -/
def comesFrom (n m h i : Nat) : Option Nat :=
  if n = m then some i else if m < n then some (m * h + i)
  else if n * h ≤ i ∧ i < n * h + n then some (i - n * h) else none

/-- CVT's source and destination (R233). -/
def cvtFrom (f : RForm) : Tag := [Tag.f32, .f16x2, .bf16x2, .i32, .n32, .i16x2, .i8x4, .n8x4].getD (f.sub.toNat % 8) .f32
def cvtTo (f : RForm) : VFmt := vfmt (f.sub.toNat / 8 % 4)

/-- A value as an integer of a range (R204): rounded to an integral value, then clamped. -/
def ToInteger (mode : Nat) (lo hi : Int) (q : Quantity) (v : Int) (fl : Flags) : Prop :=
  match q with
  | .nan _ => v = 0 ∧ fl = flagIE
  | .infinite n => v = (if n then lo else hi) ∧ fl = flagSAT ||| flagXE
  | .exact _ x => ∃ z : Int, chosen mode 1 x z ∧
      if z < lo then v = lo ∧ fl = flagSAT ||| flagXE
      else if hi < z then v = hi ∧ fl = flagSAT ||| flagXE
      else v = z ∧ fl = flagIf (decide ((z : Rat) ≠ x)) flagXE

/-- Two registers of one tag from the two elements of a lane (R235). -/
def Unpacks (f : RForm) (from_ into : Tag) (R : Word → Nat → Word → Flags → Prop) : Prop :=
  ∀ (h : Head) (s : State) (p : Path) (s1 s2 : State) (x : Operand),
    Begins (.unpk2 h f) h f.len.bytes s p s1 s2 →
    s2.read1 p f.a.toNat f.pa.toNat (fun g => g == from_) = .ok x →
    (s2.troupe p).checkDest p [f.d.toNat, f.d.toNat + 1] = .ok () →
    ∃ (v : Nat → Nat → Word) (fl : Nat → Nat → Flags), exec (.unpk2 h f) s = .next ((groupWritten (s2.popPorts p [f.a.toNat]) p f.d.toNat
        [(into, v 0), (into, v 1)] (orFlags (p.active.lanes.map fun l => fl 0 l ||| fl 1 l))).logUndo p.at_ s1) ∧
      ∀ l e, p.active.has l = true → e < 2 → R (x.at l) e (v e l) (fl e l)

/-! ### Block formats (R207, R208) -/

/-- T, and the largest element magnitude, of BX8 (false) and BX4 (true). -/
def blockT (four : Bool) : Int := if four then 128 else 132
def blockMax (four : Bool) : Nat := if four then 3 else 63

/-- An element's bits: its selector, its sign and its magnitude; a zero is all zeros. -/
def blockBits (four s neg : Bool) (m : Nat) : Nat :=
  if m = 0 then 0 else (if s then 2 * (blockMax four + 1) else 0) + (if neg then blockMax four + 1 else 0) + m

/-- A number in units of 2^(E − T), rounded to nearest even. -/
def inUnits (four : Bool) (e : Nat) (x : Rat) (q : Nat) : Prop := chosen 1 1 ((|x| : Rat) / 2 ^ ((e : Int) - blockT four)) q

/-- One element of a block with exponents `e0` and `e1`. -/
def BlockElement (four : Bool) (e0 e1 : Nat) (x : Quantity) (b : Nat) (fl : Flags) : Prop :=
  match x with
  | .nan _ => False
  | .infinite n => b = blockBits four true n (blockMax four) ∧ fl = flagSAT ||| flagXE
  | .exact n v => ∃ q, inUnits four e0 v q ∧
      (q ≤ blockMax four → b = blockBits four false n q ∧
        fl = flagIf (decide ((q : Rat) * 2 ^ ((e0 : Int) - blockT four) ≠ |v|)) flagXE) ∧
      (blockMax four < q → ∃ q', inUnits four e1 v q' ∧
        (q' ≤ blockMax four → b = blockBits four true n q' ∧
          fl = flagIf (decide ((q' : Rat) * 2 ^ ((e1 : Int) - blockT four) ≠ |v|)) flagXE) ∧
        (blockMax four < q' → b = blockBits four true n (blockMax four) ∧ fl = flagSAT ||| flagXE))

/-- The magnitude of a quantity; an infinity has none. -/
def absolute : Quantity → Option Rat
  | .exact _ v => some |v|
  | _ => none

/-- A block of elements converts (R208): `x j` is none where no value takes part. -/
def BlockConverts (four : Bool) (k : Nat) (x : Nat → Option Quantity) (e0 e1 : Nat) (b : Nat → Nat) (fl : Flags) : Prop :=
  ((∃ j s, j < 32 ∧ x j = some (.nan s)) → e0 = 0xFF ∧ e1 = 0xFF ∧ (∀ j, j < 32 → b j = 0) ∧ fl = 0) ∧
  ((¬∃ j s, j < 32 ∧ x j = some (.nan s)) →
    ((∃ j n, j < 32 ∧ x j = some (.infinite n)) → e1 = 254) ∧
    ((¬∃ j n, j < 32 ∧ x j = some (.infinite n)) → (∀ j v n, j < 32 → x j = some (.exact n v) → v = 0) → e1 = 1) ∧
    (∀ j n v, (¬∃ i n, i < 32 ∧ x i = some (.infinite n)) → j < 32 → x j = some (.exact n v) → v ≠ 0 →
      (∀ i m w, i < 32 → x i = some (.exact m w) → |w| ≤ |v|) → (e1 : Int) = max 1 (min 254 (Int.log 2 |v| + 127))) ∧
    e0 = e1 - k ∧
    ∃ fs : Nat → Flags, (∀ j q, j < 32 → x j = some q → BlockElement four e0 e1 q (b j) (fs j)) ∧
      (∀ j, j < 32 → x j = none → fs j = 0) ∧ fl = orFlags ((List.range 32).map fs))

/-! ### Steps of the other agents -/

/-- The core exists. -/
def Has (s : State) (c : Nat) : Prop := c < s.cores.length

/-- A core whose record `rid` has become ready, the last of its queue (R120, R128). -/
def withReady (k : Core) (rid : Nat) : Core :=
  { k with
    cue := k.cue.map fun r => if r.rid = rid then { r with ready := true, readySeq := k.readySeq, written := false } else r
    readySeq := k.readySeq + 1 }

/-- A core without record `rid`. -/
def withoutRecord (k : Core) (rid : Nat) : Core := { k with cue := k.cue.filter fun r => r.rid != rid }

/-- A core whose record `rid` is back in the store. -/
def withUnspilled (k : Core) (rid : Nat) : Core :=
  { k with cue := k.cue.map fun r => if r.rid = rid then { r with spilled := false, written := false } else r }

/-- The record awaits the fill of a page. -/
def awaitsPage (r : CueRec) (page : Nat) : Prop := ∃ vas, r.key = .fills vas ∧ page ∈ vas

/-- The queue of a command's pair with one command changed. -/
def withCmd (q : Pair) (id : Nat) (f : MatCmd → MatCmd) : Pair :=
  { q with queue := q.queue.map fun x => if x.id = id then f x else x }

/-- A pair as command `x` finds it when it starts: the first of another owner scrubs every cell, and what earlier commands
have yet to write goes with them (R323). -/
def scrubbed (q : Pair) (x : MatCmd) : Pair :=
  if x.scrub = true then
    { q with cells := [], queue := q.queue.map fun y => if y.id = x.id then y else { y with cells := [] } }
  else q

/-- A command has made its last read: what it computed is in the queue, and its status bits are in the pair's status
(R323, R334, R335). -/
def readDone (s : State) (n : Nat) (x : MatCmd) (r : MatResult) : State :=
  let q := withCmd (s.pair n) x.id fun y => { y with
    lastRead := true, bytes := r.bytes, status := r.status
    cells := if y.muted then [] else r.cells.filter fun c => !y.dropped.contains c.1 }
  { s with pairs := s.pairs.set n { q with status := (s.pair n).status ||| r.status }, nextId := s.nextId + 1 }

/-- The core's TLB holds a translation of an address that an engine of the owner may use (R242, R247, R292). -/
def Mapped (s : State) (c : Nat) (own : Nat × Nat) (a : Nat) (x : Xlate) : Prop :=
  (s.core c).lookup own a = some x ∧ s.viewOf own false a (.ok x) = .ok x

/-- A block's barrier object lies in its window, below the ring headers (R71). -/
def HasObject (s : State) (c blk n : Nat) (k : Block) : Prop :=
  Has s c ∧ (s.core c).block blk = some k ∧ (s.core c).mem.wf = true ∧ n < k.barriers ∧ 16 * k.barriers ≤ k.size

/-- An object after the completion of a copy of `n` bytes, and after that of a copy that ends with a flag: an object that
is not armed takes RANGE and nothing else, and so does a COUNT below `n` (R295). -/
def afterCopy (o : BarObj) (n : Nat) : BarObj :=
  if armed o = false then ranged o else if o.bytes < n then tested (ranged o) 0 o.arrived else tested o (o.bytes - n) o.arrived
def afterFlag (o : BarObj) (f : Nat) : BarObj :=
  if armed o = false then ranged o else tested { o with flags := o.flags ||| 2 ^ f } 0 o.arrived

/-- An object after the arrival of a retiring command, with SAT of a saturated ACCST (R295, R332). -/
def afterRetire (o : BarObj) (saturated : Bool) : BarObj :=
  if armed o = false then ranged o
  else tested (if saturated then { o with flags := o.flags ||| 4 } else o) o.bytes (min (o.arrived + 1) 65535)

/-- A copy has ended: its entries of the core and the scoreboard are free, its block's object has taken the completion, and
only that object and the ring counters of local memory differ from `m` (R293, R295). -/
def CopyEnded (s t : State) (c n : Nat) (x : Copy) (k : Block) (m : Memory) (f : BarObj → BarObj) : Prop :=
  let a := k.base + 16 * (x.entry.sync.toNat % 64)
  t.dram = s.dram ∧ (t.core c).copy n = none ∧ (∀ i, i ≠ n → (t.core c).copy i = (s.core c).copy i) ∧
  (t.core c).board = (s.core c).board.filter (fun e => e.owner != .copy n) ∧
  BarObj.read (t.core c).mem a = f (BarObj.read m a) ∧
  ∀ z, z < a ∨ a + 16 ≤ z → (∀ j, j < k.rings → z < k.base + 16 * k.barriers + 32 * j + 16 ∨
    k.base + 16 * k.barriers + 32 * j + 24 ≤ z) → (t.core c).mem.read z = m.read z

/-- A field of a launch record of 64 bytes (R352, R355). -/
def recField (r : QRec) (off n : Nat) : Nat := fieldOf r.bytes off n

/-- A completion object (R358): status, final flags, counts and reason. -/
def complBytes (status flags done faults reason : Nat) : List Byte :=
  [BitVec.ofNat 8 status, BitVec.ofNat 8 flags, 0, 0] ++ natToBytes 4 done ++ natToBytes 4 faults ++ [BitVec.ofNat 8 reason, 0, 0, 0]

/-- The device writes a completion object unless its address is zero (R358). -/
def completed (s : State) (a : Nat) (bs : List Byte) : State := if a = 0 then s else s.devWrite a bs

/-- A bind record's row takes effect in the slot table (R362). -/
def withRow (s : State) (n : Nat) (r : BitVec 128) : State :=
  { s with sched := { s.sched with queueRows := s.sched.queueRows.set n r } }

/-- The ranges of a launch without owners: what it still has, or all its blocks when it is bound first (R363, R365). -/
def unowned (l : Launch) : List BlockRange :=
  if l.bound = true then l.ranges.map fun (g : BlockRange) => { g with owner := none } else [{ lo := 0, hi := l.blocks, owner := none }]

/-- The instruction caches of the cores of a set hold nothing (R60). -/
def uncached (clmask : BitVec 16) (coremask : BitVec 8) (s : State) : State :=
  { s with cores := s.cores.mapIdx fun c k =>
      if clmask.getLsbD (c / 8) = true ∧ coremask.getLsbD (c % 8) = true then { k with icache := [] } else k }

/-- A launch with one field changed. -/
def withLaunch (s : State) (id : Nat) (f : Launch → Launch) : State :=
  { s with sched := { s.sched with launches := s.sched.launches.map fun l => if l.id = id then f l else l } }

/-- A launch and its family with one field changed. -/
def withFamily (s : State) (id : Nat) (f : Launch → Launch) : State :=
  { s with sched := { s.sched with
    launches := s.sched.launches.map (fun (l : Launch) => if l.id ∈ s.family id then f l else l) } }

/-- Sirip's state changes and nothing else. -/
def withSirip (s : State) (f : Sirip → Sirip) : State := { s with sirip := f s.sirip }

/-- A checked pair changes and nothing else. -/
def withPair (s : State) (k : Nat) (f : CheckedPair → CheckedPair) : State :=
  withSirip s fun q => { q with pairs := q.pairs.set k (f (s.checkedPair k)) }

/-- One partition changes and nothing else. -/
def withPart (s : State) (p : Nat) (f : Partition → Partition) : State := { s with parts := s.parts.set p (f (s.part p)) }

/-- One core changes and nothing else. -/
def withCore (s : State) (c : Nat) (f : Core → Core) : State := { s with cores := s.cores.set c (f (s.core c)) }

/-- The device's answer to a command of MGMTBOX, and nothing else (R414). -/
def answered (s : State) (v : MgmtStatus) : State := { s with mgmt := v }.signal 0 0

/-- The firmware registers change and nothing else. -/
def withFw (s : State) (f : Firmware → Firmware) : State := { s with fw := f s.fw }

/-- LINKCTL changes, which PF0 vector 4 signals (R414, R431). -/
def withLink (s : State) (f : Link → Link) : State := { s with link := f s.link }.signal 0 4

/-- Slots of the time-slot table that change owner belong to quiesced partitions (R22). -/
def ownersQuiet (s : State) (i : Nat) (v : Byte) : Prop :=
  slotOwner (s.slotNext i) = slotOwner (v &&& 0x0F) ∨
    ∀ p, (slotOwner (s.slotNext i) = some p ∨ slotOwner (v &&& 0x0F) = some p) → s.quiet p = true

/-- A partition is enabled and not busy, and its TDI is CONFIG_UNLOCKED (R421). -/
def ready (s : State) (p : Nat) : Prop := (s.part p).en = true ∧ s.busy p = false ∧ (s.part p).tdi = .unlocked

/-- A translation of a partition's address space covers a byte of a range (R246). -/
def covers (e : TlbEntry) (p pasid va size : Nat) : Bool := e.touches p pasid va size

/-- The device keeps no translation of the range in a cache (R246). -/
def shotDown (s : State) (p pasid va size : Nat) : Prop :=
  (∀ e ∈ s.dtc, covers e p pasid va size = false) ∧ ∀ k ∈ s.cores, ∀ e ∈ k.tlb, covers e p pasid va size = false

/-- The SPDM responder answers with the digest of some bytes, and nothing else (R424). -/
def measures (s : State) (bs : List Byte) : State := { s with spdmReply := .measurement (sha256 bs) }

/-- One queue changes and nothing else. -/
def withQueue (s : State) (n : Nat) (f : Queue → Queue) : State :=
  { s with sched := { s.sched with queues := s.sched.queues.set n (f (s.sched.queue n)) } }

/-! ### The machine as a whole -/

/-- The instruction found in a word of `n` bytes. -/
def decoded (n w : Nat) : Except DecodeFault Instr := decode 0 (natToBytes n w)

/-- A head that guards nothing. -/
def noGuard : Head := { e := false, gn := false, g := 0 }

/-- What a step makes of what its agent has done: what follows in the step, and the clock (entry 1). -/
def closed (s : State) : Host.Outcome State Fault Refusal → Host.Outcome State Fault Refusal
  | .next t => .next ((t.settled s).ticked s)
  | .fault f => .fault f
  | .refused r => .refused r

/-- The code and the argument of the first check of R117 that a source register fails: `place` is 0, 1 or 2 for A, B
or C. -/
def sourceFault (t : Troupe) (place v : Nat) (acc : Tag → Bool) : Option (Nat × Nat) :=
  if (t.reg v).dead then some (codeDeadRead, v)
  else if t.pending v then some (codePendRead, v)
  else if acc (t.reg v).tag then none
  else some (codeTagFault, (t.reg v).tag.code + 16 * place)

/-- The lane that a permutation of kind `kind` and parameter `n` takes for lane `l` (R54). -/
def takenFrom (kind n l : Nat) : Option Nat :=
  if kind = 1 then some ((l + n) % 64) else if kind = 2 then some n else if kind = 3 then some (l ^^^ n)
  else if kind = 4 then some (l ^^^ (2 ^ n - 1)) else if kind = 5 then (if n ≤ l then some (l - n) else none) else some l

/-- What a permuted register gives a lane (R54): zero where the lane taken from is not present. -/
def permutedTo (t : Troupe) (v perm l : Nat) : Word :=
  match takenFrom (perm % 8) (perm / 8) l with
  | some n => if (t.lane n).place = .resident then (t.reg v).at n else 0
  | none => 0

/-- The path of an issue before its guard is known. -/
def pathOf (q : Issue) (len : Nat) (active : Mask) : Path := { at_ := q, active := active, len := len }

/-! ### Parts of obligations -/

/-- IADD, ISUB, IMUL, IMAD, IMIN, IMAX and IABS compute exactly in the element type and wrap, or clamp with SAT; the
result takes the type's tag (R149). -/
def IntegerSums : Prop :=
  Binary .iadd satOf (fun x y => x + y) ∧ Binary .isub satOf (fun x y => x - y) ∧ Binary .imul satOf (fun x y => x * y) ∧
  Binary .imin satOf min ∧ Binary .imax satOf max ∧
  ThreeSources .imad typed typed (fun f => (typeOf f).tag) (fun f x y z w fl =>
    let ty := typeOf f
    Elements ty (satOf f) (fun e => ty.elem x e * ty.elem y e + ty.elem z e) w fl) ∧
  OneSource .iabs typed (fun f _ => (typeOf f).tag) fun f x w fl =>
    let ty := typeOf f
    Elements ty (satOf f) (fun e => if ty.elem x e < 0 then -ty.elem x e else ty.elem x e) w fl

/-- IMULH, IDIV and IREM (R150): the high half of the exact product, the quotient towards zero and the remainder,
with the values that R150 gives for a zero divisor; none of these traps. Where the result lies outside the range (the
quotient of the least I32 by -1), it wraps. -/
def HighProductAndDivision : Prop :=
  Binary .imulh satOf (fun x y => x * y / 2 ^ 32) ∧ Binary .idiv satOf wholeQuotient ∧
  Binary .irem satOf (fun x y => x - y * wholeQuotient x y)

/-- AND, OR, XOR and ANDN act on all 32 bits, accept every tag except UNDEF, and write the common tag of the sources,
or RAW (R151). -/
def BitwiseOperations : Prop :=
  let bitwise (mk : Head → RForm → Instr) (op : Word → Word → Word) :=
    TwoSources mk anyTag anyTag (fun _ => sameOrRaw) fun _ x y w fl => w = op x y ∧ fl = 0
  bitwise .and (fun x y => x &&& y) ∧ bitwise .or (fun x y => x ||| y) ∧ bitwise .xor (fun x y => x ^^^ y) ∧
  bitwise .andn (fun x y => x &&& ~~~y)

/-- SHL, SHR, SAR and ROT shift each element by the count in B modulo the width: SHL and SHR fill with zeros, SAR
with the sign, ROT rotates left (R152). -/
def Shifts : Prop :=
  let shift (mk : Head → RForm → Instr) (op : (w : Nat) → BitVec w → Nat → BitVec w) :=
    TwoSources mk typed word32 (fun f _ _ => (typeOf f).tag) fun f x y w fl =>
      Shifted (typeOf f) op x w y.toNat ∧ fl = 0
  shift .shl shl ∧ shift .shr shr ∧ shift .rot rot ∧
  TwoSources .sar typed word32 (fun f _ _ => (typeOf f).tag) fun f x y w fl =>
    (typeOf f).signed = true → Shifted (typeOf f) sar x w y.toNat ∧ fl = 0

/-- PAND, POR, PXOR, PNOT, PSET and PMOV write predicate D in the active lanes (R167, R169), or with SUB 2 PMOV writes
1 or 0 to a register; nothing else changes, and p0 takes no write. -/
def PredicateOperations : Prop :=
  let two (mk : Head → RForm → Instr) (op : Bool → Bool → Bool) := Predicate mk (fun _ => True) fun f s p l b =>
    b = op (predicate s p f.a.toNat l ^^ f.sub.getLsbD 0) (predicate s p f.b.toNat l ^^ f.sub.getLsbD 1)
  two .pand and ∧ two .por or ∧ two .pxor xor ∧
  Predicate .pnot (fun _ => True) (fun f s p l b => b = !predicate s p f.a.toNat l) ∧
  Predicate .pset (fun _ => True) (fun f s p l b =>
    (f.sub.toNat = 0 → b = false) ∧ (f.sub.toNat = 1 → b = true) ∧
    (f.sub.toNat = 2 → b = ((s.troupe p).kreg f.a.toNat).getLsbD l) ∧
    (f.sub.toNat = 3 → b = (s.troupe p).c.getLsbD f.a.toNat)) ∧
  Predicate .pmov (fun f => f.sub = 0) (fun f s p l b => b = predicate s p f.a.toNat l) ∧
  (∀ (h : Head) (f : RForm) (s : State) (p : Path) (s1 s2 : State) (x : Operand),
    Begins (.pmov h f) h 8 s p s1 s2 → f.sub = 1 → s2.read1 p f.a.toNat 0 (anyTag f) = .ok x →
    ∃ v, exec (.pmov h f) s = .next ((predWritten (s2.popPorts p [f.a.toNat]) p f.d.toNat v).logUndo p.at_ s1) ∧
      ∀ l, p.active.has l = true → (v l = true ↔ x.at l ≠ 0)) ∧
  NoSource .pmov (fun _ => 8) (fun f => f.d.toNat) (fun f => f.sub = 2) (fun _ => .n32)
    fun f s p l w => w = if predicate s p f.a.toNat l then 1 else 0

/-- PBAL, PANY, PALL and PELECT reduce or select across the active lanes of the issued path and no other lane (R168). -/
def PredicateReductions : Prop :=
  let vote (s : State) (p : Path) (n l : Nat) : Prop := p.active.has l = true ∧ predicate s p n l = true
  (∀ (h : Head) (f : RForm) (s : State) (p : Path) (s1 s2 : State), Begins (.pbal h f) h 8 s p s1 s2 →
    ∃ m : Mask, (∀ l, m.has l = true ↔ vote s2 p f.a.toNat l) ∧
      exec (.pbal h f) s = .next ((s2.mod p fun t => t.setK f.d.toNat
        (if f.sub.getLsbD 0 then BitVec.ofNat 64 ((List.range 64).countP m.has) else m)).logUndo p.at_ s1)) ∧
  (∀ (h : Head) (f : RForm) (s : State) (p : Path) (s1 s2 : State), Begins (.pany h f) h 8 s p s1 s2 →
    ∃ b : Bool, (b = true ↔ ∃ l, vote s2 p f.a.toNat l) ∧
      exec (.pany h f) s = .next ((s2.mod p fun t => t.setC f.d.toNat b).logUndo p.at_ s1)) ∧
  (∀ (h : Head) (f : RForm) (s : State) (p : Path) (s1 s2 : State), Begins (.pall h f) h 8 s p s1 s2 →
    ∃ b : Bool, (b = true ↔ ∀ l, p.active.has l = true → predicate s2 p f.a.toNat l = true) ∧
      exec (.pall h f) s = .next ((s2.mod p fun t => t.setC f.d.toNat b).logUndo p.at_ s1)) ∧
  Predicate .pelect (fun _ => True) fun f s p l b =>
    (b = true ↔ vote s p f.a.toNat l ∧
      ∀ n, vote s p f.a.toNat n → if f.sub.getLsbD 0 then n ≤ l else l ≤ n)

/-- IDXSET sets the bounds of an index register for the troupe and its value in the active lanes, from A modulo 2048 or
the lower bound (R173). -/
def IndexBounds : Prop :=
  let lower (f : IForm) : BitVec 11 := f.imm.extractLsb' 0 11
  let upper (f : IForm) : BitVec 11 := f.imm.extractLsb' 16 11
  let set (f : IForm) (p : Path) (v : Nat → BitVec 11) (t : Troupe) : Troupe :=
    { (t.modLanes p.active fun l x => { x with idx := x.idx.set (f.d.toNat % 8) (v l) }) with
      bounds := t.bounds.set (f.d.toNat % 8) (lower f, upper f) }
  (∀ (h : Head) (f : IForm) (s : State) (p : Path) (s1 s2 : State) (x : Operand),
    Begins (.idxset h f) h f.len.bytes s p s1 s2 → f.sub = 0 →
    s2.read1 p f.a.toNat 0 (fun g => g == .i32 || g == .n32) = .ok x →
    exec (.idxset h f) s = .next
      (((s2.popPorts p [f.a.toNat]).mod p (set f p fun l => (x.at l).setWidth 11)).logUndo p.at_ s1)) ∧
  TroupeOnly .idxset (fun f => f.len.bytes) (fun f _ _ => f.sub ≠ 0) (fun f _ p => set f p fun _ => lower f)

/-- IDXADD adds IMM20 to i[A] and writes i[D], modulo 2048, in each active lane, and changes nothing else. Values out of
bounds are not faulted: it completes for every value (R174). -/
def IndexAddition : Prop :=
  TroupeOnly .idxadd (fun f => f.len.bytes) always fun f _ p t =>
    t.modLanes p.active fun _ x =>
      { x with idx := x.idx.set (f.d.toNat % 8) (x.idx.getD (f.a.toNat % 8) 0 + f.imm.setWidth 11) }

/-- MOVX writes a system register's value to a uniform register, to the active lanes of a register with tag N32, or to
a pair with tags I64L and I64H (R106, R170, R171). -/
def ReadSystemRegister : Prop :=
  (∀ (h : Head) (f : IForm) (s : State) (p : Path) (s1 s2 : State), Begins (.movx h f) h f.len.bytes s p s1 s2 →
    f.sub = 0 → ∃ v, SystemValue s2 p f.imm.toNat 0 v ∧
      exec (.movx h f) s = .next ((s2.mod p fun t => t.setK (f.d.toNat % 64) v).logUndo p.at_ s1)) ∧
  NoSource .movx (fun f => f.len.bytes) (fun f => f.d.toNat) (fun f => f.sub = 1) (fun _ => .n32)
    (fun f s p l w => ∃ v, SystemValue s p f.imm.toNat l v ∧ w = v.extractLsb' 0 32) ∧
  ∀ (h : Head) (f : IForm) (s : State) (p : Path) (s1 s2 : State), Begins (.movx h f) h f.len.bytes s p s1 s2 →
    f.sub = 2 → (s2.troupe p).checkDest p [f.d.toNat, f.d.toNat + 1] = .ok () →
    ∃ v, (∀ l, SystemValue s2 p f.imm.toNat l (v l)) ∧
      exec (.movx h f) s = .next ((groupWritten s2 p f.d.toNat (pairOf v) 0).logUndo p.at_ s1)

/-- MOVC writes a system register, ORs into it or clears bits of it, and ignores reserved bits; a write of %dbg or
%inject raises ACCESS, and a rounding code outside 1 to 5 raises ILLEGAL, with nothing changed (R51, R170, R172). -/
def WriteSystemRegister : Prop :=
  ∀ (h : Head) (f : KForm) (s : State) (p : Path) (s1 s2 : State) (old : DWord), Begins (.movc h f) h 8 s p s1 s2 →
    SystemValue s2 p f.imm.toNat 0 old → f.sub.toNat < 3 →
    let n := f.imm.toNat
    let k := (s2.troupe p).kreg f.ka.toNat
    let v := if f.sub = 0 then k else if f.sub = 1 then old ||| k else old &&& ~~~k
    (n = 0x020 → 1 ≤ v.toNat % 8 ∧ v.toNat % 8 ≤ 5 →
      exec (.movc h f) s = .next ((s2.mod p (systemWritten n v)).logUndo p.at_ s1)) ∧
    (n = 0x021 ∨ n = 0x022 ∨ (0x100 ≤ n ∧ n < 0x180) →
      exec (.movc h f) s = .next ((s2.mod p (systemWritten n v)).logUndo p.at_ s1)) ∧
    (n = 0x030 ∨ n = 0x031 → Faults (.movc h f) s p s1 codeAccess p.active 0 0) ∧
    (n = 0x020 → v.toNat % 8 = 0 ∨ 5 < v.toNat % 8 → Faults (.movc h f) s p s1 codeIllegal p.active 0 0)

/-- CALL and CALLX push the return address and transfer, and spill the oldest of more than eight entries; at depth 264
they raise STACKOVF, and no lane transfers (R133, R142). -/
def CallsPush : Prop :=
  (∀ (h : Head) (f : CForm) (s : State) (p : Path) (s1 s2 : State), Begins (.call h f) h 8 s p s1 s2 →
    (condOf f s2 p → Unjudged s2 → (∀ l, p.active.has l = true → ((s2.troupe p).lane l).depth ≠ 264) →
      Calls (.call h f) s p s1 s2 fun _ => targetOf f p) ∧
    (¬condOf f s2 p → exec (.call h f) s = .next (s2.logUndo p.at_ s1)) ∧
    (condOf f s2 p → ∀ m : Mask, (∀ l, m.has l = true ↔ p.active.has l = true ∧ ((s2.troupe p).lane l).depth = 264) →
      m ≠ 0 → Faults (.call h f) s p s1 codeStackOvf m 0 264)) ∧
  ∀ (h : Head) (f : RForm) (s : State) (p : Path) (s1 s2 : State) (x : Operand × Operand),
    Begins (.callx h f) h 8 s p s1 s2 → Unjudged s2 → s2.readPair p 0 f.a.toNat 0 .i64l .i64h = .ok x →
    (∀ l, p.active.has l = true → (pairValue x l).toNat % 4 = 0 ∧ ((s2.troupe p).lane l).depth ≠ 264) →
    Calls (.callx h f) s p s1 s2 (pairValue x)

/-- RET pops the newest entry of each active lane, goes on at it, and refills the hardware entries from the spill area
if it holds any; at depth 0 it raises STACKOVF (R133, R142). A refill that misses L1 departs to the popped addresses. -/
def ReturnsPop : Prop :=
  ∀ (h : Head) (f : CForm) (s : State) (p : Path) (s1 s2 : State), Begins (.ret h f) h 8 s p s1 s2 →
    let newest (l : Nat) : DWord := ((s2.troupe p).lane l).ret.headD 0
    let popped (s : State) (refill : Nat → DWord) : State := s.mod p fun t => t.modLanes p.active fun l x =>
      { x with ret := if x.depth ≤ 8 then x.ret.tail else x.ret.tail ++ [refill l], depth := x.depth - 1, pc := x.ret.headD 0 }
    (¬condOf f s2 p → exec (.ret h f) s = .next (s2.logUndo p.at_ s1)) ∧
    (condOf f s2 p → ∀ m : Mask, (∀ l, m.has l = true ↔ p.active.has l = true ∧ ((s2.troupe p).lane l).depth = 0) →
      m ≠ 0 → Faults (.ret h f) s p s1 codeStackOvf m 0 0) ∧
    (condOf f s2 p → Unjudged s2 → (∀ l, p.active.has l = true → ((s2.troupe p).lane l).depth ≠ 0) →
      ((∀ l, p.active.has l = true → ((s2.troupe p).lane l).depth ≤ 8) →
        ∃ v, exec (.ret h f) s = .next ((popped (passed s2 p (transferred p.active newest)) v).logUndo p.at_ s1)) ∧
      ∀ hs, s2.accessIn p .priv 4 false false ((s2.block p).priv + 2048) (refills s2 p) = .ok hs →
        s2.checkPoison hs = .ok () →
        let s3 := passed (s2.touchHits p hs) p (transferred p.active newest)
        let s4 := popped s3 fun l => BitVec.ofNat 64 (s3.laneValue p.core hs l)
        (hs = [] ∨ Config.refillMisses s4.nextId = false → exec (.ret h f) s = .next (s4.logUndo p.at_ s1)) ∧
        (hs ≠ [] → Config.refillMisses s4.nextId = true →
          ∀ s5, s4.departEach p .data 0 (fun l => ((s4.troupe p).lane l).pc) id = .ok s5 →
            exec (.ret h f) s = .next (s5.logUndo p.at_ s1)))

/-- The prompter and faults: FAULT_RECORD_CONSUMED frees entries of the queue (R181); an answer RESUME or SKIP returns
from a delivered fault, SAVE writes the block's context and keeps it halted, KILL ends the block and counts the fault,
STEPBACK undoes instructions of a block in debug mode (R184, R186, R194). -/
def FaultAnswers : Prop :=
  (∀ (s : State) (n : Nat), s.faultWait = [] → exec (.faultRecordConsumed n) s = .next { s with faultQ := s.faultQ.drop n }) ∧
  ∀ (s : State) (seq : Nat) (h : Halt), s.haltOf seq = some h →
    (isDecodeCode h.code = false → h.code ≠ codeMismatch →
      exec (.faultAnswerResume seq) s = .next ((s.returnFromFault h false).releaseKept h.core h.blk)) ∧
    (isDecodeCode h.code = true ∨ h.code = codeMismatch →
      exec (.faultAnswerResume seq) s = .next ((s.countFault h.core h.blk).killBlock h.core h.blk)) ∧
    (h.code = codeTrapInsn ∨ h.code = codeBkpt → exec (.faultAnswerSkip seq) s =
      .next ((s.returnFromFault h true).releaseKept h.core h.blk)) ∧
    (h.code ≠ codeTrapInsn → h.code ≠ codeBkpt →
      exec (.faultAnswerSkip seq) s = .next ((s.countFault h.core h.blk).killBlock h.core h.blk)) ∧
    exec (.faultAnswerKill seq) s = .next ((s.countFault h.core h.blk).killBlock h.core h.blk) ∧
    (let room := ((s.core h.core).spillBlocks (fun b => b == h.blk)).spilledAll (fun b => b == h.blk);
      (room = false → exec (.faultAnswerSave seq) s = .next s.report) ∧
      (room = true → s.poison = [] → ∃ t, exec (.faultAnswerSave seq) s = .next t ∧ t.halts = s.halts ∧
        ∀ r ∈ (t.core h.core).cue, (r.blk = h.blk → r.spilled = true) ∧
          ∃ x ∈ (s.core h.core).cue, r = x ∨ ∃ a, r = { x with spilled := true, wingsAt := a, written := false })) ∧
    ∀ (n : Nat) (l : Launch), s.launchOf h.core h.blk = some l → l.debug = true → h.engine = false →
      isDecodeCode h.code = false → h.code ≠ codeMismatch →
      exec (.faultAnswerStepback seq n) s = .next (s.stepBack h.core h.blk h.troupe n)

/-- Pre-emption and the end of blocks: PREEMPT_REQUEST marks the cores it names, PREEMPT_ACK and
SAVE_ROOM_AVAILABLE lead to the save once every engine has acknowledged and there is room (R187, R188, R190), PREMAX_EXPIRY
reports, PROMPTER_KILL and BLOCK_DONE free a block and count it (R302, R359), CONTEXT_RESTORE brings a core's saved
blocks back (R191), CUT_COMPLETE saves a cut launch and writes its position (R366). -/
def PreemptionSteps : Prop :=
  (∀ (s : State) (cs : List Nat), ∃ t, exec (.preemptRequest cs) s = .next t ∧
    t = { s with cores := t.cores } ∧ ∀ c, Has s c →
      t.core c = if c ∈ cs ∧ (s.core c).preempt = none ∧ (s.core c).retired = false then
        { s.core c with preempt := some { cores := cs, thread := false, stream := false, copy := false, matrix := false
                                          waitingRoom := false, held := [] } }
      else s.core c) ∧
  (∀ (s : State) (c : Nat) (e : Engine), s.engineQuiet c e = true → exec (.preemptAck c e) s =
    .next ((s.setCore c { s.core c with preempt := (s.core c).preempt.map fun p => p.ack e }).collect c)) ∧
  (∀ (s : State) (c : Nat) (e : Engine), s.engineQuiet c e = false → exec (.preemptAck c e) s = .next s) ∧
  (∀ (s : State) (c b : Nat) (x : Block), (s.core c).block b = some x →
    x.cancelling = false → ((s.core c).preempt.isSome = true ∨ s.cutting c b = true) →
    let late := (s.core c).runningPaths c b ++ if s.cutting c b then s.shortPaths c b else []
    exec (.premaxExpiry c b) s = .next (if late = [] then s else { s.report with late := s.late ++ late })) ∧
  (∀ (s : State) (c : Nat), exec (.saveRoomAvailable c) s =
    .next ((s.setCore c { s.core c with wingsSize := min ((s.core c).wingsSize + 16777216) (2 ^ 28) }).retrySave c)) ∧
  (∀ (s : State) (c b : Nat) (p : Preempt) (x : Block), (s.core c).preempt = some p → (s.core c).block b = some x →
    x.ending = false → x.saved = false → (p.waitingRoom = true ∨ (s.core c).pathsStopped b = false) →
    exec (.prompterKill c b) s = .next ((s.killBlock c b).retrySave c)) ∧
  (∀ (s : State) (c b : Nat) (x : Block), Has s c → (s.core c).block b = some x → x.ending = true → x.cancelling = false →
    s.blockIdle c b = true → (s.core c).preempt = none → ∃ t, exec (.blockDone c b) s = .next t ∧
      (t.core c).block b = none ∧
      t.sched.launches = (s.sched.launches.map fun l =>
        if l.id = x.launch then
          { l with ended := l.ended + (x.withdrawn + if x.retrying then 0 else 1)
                   done := l.done + if x.killed then 0 else x.withdrawn + if x.retrying then 0 else 1 }
        else l)) ∧
  (∀ (s : State) (c : Nat), s.canRestore c = true → ((s.core c).service = .inService ∨ (s.core c).service = .restore) →
    (s.core c).savedSlots ≠ [] → exec (.contextRestore c) s = .next (s.restoreCore c)) ∧
  ∀ (s s' : State) (id n : Nat) (l : Launch) (addr : DWord), s.launch id = some l → l.cut = some n →
    s.cutReached id n = true → s.saveFamily id = some s' → ∃ t, exec (.cutComplete id addr) s = .next t ∧
      (∀ x ∈ t.sched.launches, x.id = id → x.cut = none ∧ x.draining = some addr) ∧
      t.dram = s'.dram.writeBytes addr.toNat (s'.positionBytes id)

end Sys2Proof.Claims

open Sys2Proof Sys2Proof.Machine Sys2Proof.Claims

/-- The integer majors 0x10 to 0x17, 0x2A and 0x2B: sums, products, minima, maxima, absolute values (R149), the high half of a
product, quotients and remainders (R150). -/
def Obligations.IntegerOperations : Prop := Claims.IntegerSums ∧ Claims.HighProductAndDivision

/-- AND, OR, XOR and ANDN (R151), and SHL, SHR, SAR and ROT (R152). -/
def Obligations.BitwiseAndShifts : Prop := Claims.BitwiseOperations ∧ Claims.Shifts

/-- POPC counts one bits, CLZ leading zero bits (32 for zero), both with tag N32; BREV reverses the bits; BFX extracts
and BFI inserts the field that B specifies, cut to the register (R153). -/
def Obligations.BitFields : Prop :=
  let pos (b : Word) : Nat := b.toNat % 32
  let width (b : Word) : Nat := min (b.toNat / 256 % 64) (32 - pos b)
  OneSource .popc typed (fun _ _ => .n32) (fun _ x w fl => w.toNat = (List.range 32).countP x.getLsbD ∧ fl = 0) ∧
  OneSource .clz typed (fun _ _ => .n32) (fun _ x w fl =>
    w.toNat ≤ 32 ∧ (∀ i, i < 32 → 32 - w.toNat ≤ i → x.getLsbD i = false) ∧
    (w.toNat < 32 → x.getLsbD (31 - w.toNat) = true) ∧ fl = 0) ∧
  OneSource .brev typed (fun _ g => g) (fun _ x w fl => (∀ i, i < 32 → w.getLsbD i = x.getLsbD (31 - i)) ∧ fl = 0) ∧
  TwoSources .bfx typed word32 (fun f _ _ => (typeOf f).tag) (fun f x y w fl =>
    (∀ i, i < 32 → w.getLsbD i = if i < width y then x.getLsbD (pos y + i)
      else (typeOf f).signed && decide (0 < width y) && x.getLsbD (pos y + width y - 1)) ∧ fl = 0) ∧
  ThreeSources .bfi typed word32 (fun f => (typeOf f).tag) fun _ x y z w fl =>
    (∀ i, i < 32 → w.getLsbD i = if pos y ≤ i ∧ i < pos y + width y then z.getLsbD (i - pos y) else x.getLsbD i) ∧ fl = 0

/-- SEL chooses A in the lanes where its predicate is true and B in the others; its sources carry any tag except
UNDEF, and the result takes their common tag or RAW (R154). -/
def Obligations.SelectsByPredicate : Prop :=
  ∀ (h : Head) (f : RForm) (s : State) (p : Path) (s1 s2 : State) (x y : Operand),
    Begins (.sel h f) h f.len.bytes s p s1 s2 →
    s2.read2 p f.a.toNat f.pa.toNat (anyTag f) f.b.toNat f.pb.toNat (anyTag f) = .ok (x, y) →
    Deliverable s2 (s2.popPorts p [f.a.toNat, f.b.toNat]) p f.d.toNat (sameOrRaw x.tag y.tag) →
    ∃ v t, exec (.sel h f) s = .next (t.logUndo p.at_ s1) ∧
      Delivered (s2.popPorts p [f.a.toNat, f.b.toNat]) p f.d.toNat (sameOrRaw x.tag y.tag) v 0 t ∧
      ∀ l, p.active.has l = true → v l = if predicate s2 p (f.sub.toNat / 8 % 16) l then x.at l else y.at l

/-- ICMP and ICMPI write predicate D in the active lanes with the comparison of their sources as I32 or N32, and
change nothing else; p0 takes no write (R155, R161). -/
def Obligations.IntegerCompares : Prop :=
  (∀ (h : Head) (f : RForm) (s : State) (p : Path) (s1 s2 : State) (x y : Operand),
    Begins (.icmp h f) h f.len.bytes s p s1 s2 → f.sub.toNat / 8 % 8 < 6 →
    s2.read2 p f.a.toNat f.pa.toNat (typed f) f.b.toNat f.pb.toNat (typed f) = .ok (x, y) →
    ∃ v, exec (.icmp h f) s =
        .next ((predWritten (s2.popPorts p [f.a.toNat, f.b.toNat]) p f.d.toNat v).logUndo p.at_ s1) ∧
      ∀ l, p.active.has l = true →
        (v l = true ↔ condition (f.sub.toNat / 8 % 8) ((typeOf f).elem (x.at l) 0) ((typeOf f).elem (y.at l) 0))) ∧
  ∀ (h : Head) (f : IForm) (s : State) (p : Path) (s1 s2 : State) (x : Operand),
    Begins (.icmpi h f) h f.len.bytes s p s1 s2 → f.sub.toNat / 2 % 8 < 6 →
    s2.read1 p f.a.toNat 0 (fun g => g == (immType f).tag) = .ok x →
    ∃ v, exec (.icmpi h f) s = .next ((predWritten (s2.popPorts p [f.a.toNat]) p f.d.toNat v).logUndo p.at_ s1) ∧
      ∀ l, p.active.has l = true →
        (v l = true ↔ condition (f.sub.toNat / 2 % 8) ((immType f).elem (x.at l) 0) ((immType f).elem f.imm 0))

/-- IADD64, ISUB64, IMULW and LEA write a pair with tags I64L and I64H: the sum and the difference, wrapped or clamped
with SAT; the exact product of two 32-bit sources; and A plus the extended and shifted B, modulo 2^64 (R156). -/
def Obligations.PairResults : Prop :=
  PairArithmetic .iadd64 (fun x y => x + y) ∧ PairArithmetic .isub64 (fun x y => x - y) ∧
  (∀ (h : Head) (f : RForm) (s : State) (p : Path) (s1 s2 : State) (x y : Operand),
    Begins (.imulw h f) h f.len.bytes s p s1 s2 →
    s2.read2 p f.a.toNat f.pa.toNat (typed f) f.b.toNat f.pb.toNat (typed f) = .ok (x, y) →
    (s2.troupe p).checkDest p [f.d.toNat, f.d.toNat + 1] = .ok () →
    ∃ v, exec (.imulw h f) s =
        .next ((groupWritten (s2.popPorts p [f.a.toNat, f.b.toNat]) p f.d.toNat (pairOf v) 0).logUndo p.at_ s1) ∧
      ∀ l, p.active.has l = true →
        v l = BitVec.ofInt 64 ((typeOf f).elem (x.at l) 0 * (typeOf f).elem (y.at l) 0)) ∧
  ∀ (h : Head) (f : RForm) (s : State) (p : Path) (s1 s2 : State) (x : Operand × Operand) (y : Operand),
    Begins (.lea h f) h f.len.bytes s p s1 s2 → f.sub.toNat % 8 < 2 →
    s2.portsReady p [f.a.toNat, f.b.toNat] = .ok () →
    s2.readPair p 0 f.a.toNat f.pa.toNat .i64l .i64h = .ok x →
    s2.operand p [f.a.toNat, f.b.toNat] 1 f.pb.toNat (typed f) = .ok y →
    (s2.troupe p).checkDest p [f.d.toNat, f.d.toNat + 1] = .ok () →
    ∃ v, exec (.lea h f) s =
        .next ((groupWritten (s2.popPorts p [f.a.toNat, f.b.toNat]) p f.d.toNat (pairOf v) 0).logUndo p.at_ s1) ∧
      ∀ l, p.active.has l = true →
        v l = pairValue x l + (if (typeOf f).signed then (y.at l).signExtend 64 else (y.at l).setWidth 64) <<< (f.sub.toNat / 8 % 8)

/-- The immediate majors (R161, R162): IADDI and IMULI as IADD and IMUL, ANDI, ORI and XORI keep the tag of A, SHLI,
SHRI and SARI shift by imm modulo 32, and MOVI writes imm with the tag of its code. -/
def Obligations.ImmediateOperations : Prop :=
  let ofType (f : IForm) (g : Tag) : Bool := g == (immType f).tag
  let arith (mk : Head → IForm → Instr) (op : Int → Int → Int) :=
    WithImmediate mk ofType (fun f _ => (immType f).tag) fun f x w fl =>
      Elements (immType f) (modSat f.mod) (fun e => op ((immType f).elem x e) ((immType f).elem f.imm e)) w fl
  let bits (mk : Head → IForm → Instr) (op : Word → Word → Word) :=
    WithImmediate mk (fun _ g => g != .undef) (fun _ g => g) fun f x w fl => w = op x f.imm ∧ fl = 0
  let shift (mk : Head → IForm → Instr) (op : Word → Nat → Word) :=
    WithImmediate mk ofType (fun f _ => (immType f).tag) fun f x w fl => w = op x (f.imm.toNat % 32) ∧ fl = 0
  arith .iaddi (fun x y => x + y) ∧ arith .imuli (fun x y => x * y) ∧
  bits .andi (fun x y => x &&& y) ∧ bits .ori (fun x y => x ||| y) ∧ bits .xori (fun x y => x ^^^ y) ∧
  shift .shli (fun x n => x <<< n) ∧ shift .shri (fun x n => x >>> n) ∧
  WithImmediate .sari ofType (fun f _ => (immType f).tag) (fun f x w fl =>
    (immType f).signed = true → w = x.sshiftRight (f.imm.toNat % 32) ∧ fl = 0) ∧
  NoSource .movi (fun f => f.len.bytes) (fun f => f.d.toNat) (fun _ => True) (fun f => tagOf f.sub.toNat)
    fun f _ _ _ w => w = f.imm

/-- SHFL gives an active lane the value that A has in the lane B names, or 0 where that lane is not present, with the
tag of A (R157). For a port A, a lane that pops nothing has no value, and the result there is free (entry 6). -/
def Obligations.LaneShuffle : Prop :=
  ∀ (h : Head) (f : RForm) (s : State) (p : Path) (s1 s2 : State) (x y : Operand),
    Begins (.shfl h f) h f.len.bytes s p s1 s2 →
    s2.read2 p f.a.toNat f.pa.toNat (anyTag f) f.b.toNat f.pb.toNat (word32 f) = .ok (x, y) →
    Deliverable s2 (s2.popPorts p [f.a.toNat, f.b.toNat]) p f.d.toNat x.tag →
    ∃ v t, exec (.shfl h f) s = .next ({ t with nextId := t.nextId + 1 }.logUndo p.at_ s1) ∧
      Delivered (s2.popPorts p [f.a.toNat, f.b.toNat]) p f.d.toNat x.tag v 0 t ∧
      ∀ l, p.active.has l = true →
        let n := (y.at l).toNat % 64
        if ((s2.troupe p).lane n).place ≠ .resident then v l = 0
        else isPort f.a.toNat = false ∨ p.active.has n = true → v l = x.at n

/-- MOV without indexed fields copies A, of any tag except UNDEF, with its tag (R158); MOVK broadcasts a half of a
uniform register with the tag of its code, or all of it to a pair (R159); REINT changes the tag, or the tags of a pair,
and no bit (R175). -/
def Obligations.MovesAndTags : Prop :=
  (∀ (h : Head) (f : RForm) (s : State) (p : Path) (s1 s2 : State) (x : Operand),
    Begins (.mov h f) h f.len.bytes s p s1 s2 → f.sub = 0 →
    s2.read1 p f.a.toNat f.pa.toNat (anyTag f) = .ok x →
    Deliverable s2 (s2.popPorts p [f.a.toNat]) p f.d.toNat x.tag →
    ∃ t, exec (.mov h f) s = .next (t.logUndo p.at_ s1) ∧
      Delivered (s2.popPorts p [f.a.toNat]) p f.d.toNat x.tag (fun l => x.at l) 0 t) ∧
  NoSource .movk (fun f => f.len.bytes) (fun f => f.d.toNat) (fun f => f.sub.toNat % 16 ≠ 0xB)
    (fun f => tagOf (f.sub.toNat % 16)) (fun f s p _ w =>
      let k := (s.troupe p).kreg (f.a.toNat % 64)
      w = if f.sub.getLsbD 4 then k.extractLsb' 32 32 else k.extractLsb' 0 32) ∧
  (∀ (h : Head) (f : RForm) (s : State) (p : Path) (s1 s2 : State),
    Begins (.movk h f) h f.len.bytes s p s1 s2 → f.sub.toNat % 16 = 0xB →
    (s2.troupe p).checkDest p [f.d.toNat, f.d.toNat + 1] = .ok () →
    exec (.movk h f) s = .next
      ((groupWritten s2 p f.d.toNat (pairOf fun _ => (s2.troupe p).kreg (f.a.toNat % 64)) 0).logUndo p.at_ s1)) ∧
  (∀ (h : Head) (f : RForm) (s : State) (p : Path) (s1 s2 : State) (x : Operand),
    Begins (.reint h f) h f.len.bytes s p s1 s2 → f.sub.toNat ≠ 0xB → f.sub.toNat ≠ 0xD →
    s2.read1 p f.a.toNat f.pa.toNat (anyTag f) = .ok x →
    Deliverable s2 (s2.popPorts p [f.a.toNat]) p f.d.toNat (tagOf f.sub.toNat) →
    ∃ t, exec (.reint h f) s = .next (t.logUndo p.at_ s1) ∧
      Delivered (s2.popPorts p [f.a.toNat]) p f.d.toNat (tagOf f.sub.toNat) (fun l => x.at l) 0 t) ∧
  ∀ (h : Head) (f : RForm) (s : State) (p : Path) (s1 s2 : State),
    Begins (.reint h f) h f.len.bytes s p s1 s2 → f.sub.toNat = 0xB ∨ f.sub.toNat = 0xD →
    (s2.troupe p).checkSource p 0 [(f.a.toNat, anyTag f), (f.a.toNat + 1, anyTag f)] = .ok () →
    (s2.troupe p).checkDest p [f.d.toNat, f.d.toNat + 1] = .ok () →
    exec (.reint h f) s = .next ((groupWritten s2 p f.d.toNat
      [(if f.sub.toNat = 0xB then .i64l else .dfh, fun l => ((s2.troupe p).permuted f.a.toNat f.pa.toNat).getD l 0),
       (if f.sub.toNat = 0xB then .i64h else .dfl, fun l => ((s2.troupe p).permuted (f.a.toNat + 1) f.pa.toNat).getD l 0)]
      0).logUndo p.at_ s1)

/-- MOV with an indexed source or destination (R45, R158). Every active lane names a register within the bounds of its
index register. An indexed source takes each lane's own register, with the common tag or RAW; an indexed destination
writes each lane's own register: every register named takes the tag, its other lanes keep their bits, or hold zero if
it was dead, and no register that no active lane names changes. -/
def Obligations.IndexedMoves : Prop :=
  let name (t : Troupe) (v l : Nat) : Nat := ((t.lane l).idx.getD (v % 8) 0).toNat + v / 8
  let bounded (t : Troupe) (p : Path) (v : Nat) : Prop := ∀ l, p.active.has l = true →
    (t.bounds.getD (v % 8) (1, 0)).1.toNat ≤ name t v l ∧ name t v l ≤ (t.bounds.getD (v % 8) (1, 0)).2.toNat
  (∀ (h : Head) (f : RForm) (s : State) (p : Path) (s1 s2 : State) (g : Tag),
    Begins (.mov h f) h f.len.bytes s p s1 s2 → f.sub.toNat = 16 →
    let t := s2.troupe p
    let r (l : Nat) : Nat := name t f.a.toNat l
    bounded t p f.a.toNat →
    (∀ l, p.active.has l = true →
      (t.reg (r l)).dead = false ∧ t.pending (r l) = false ∧ (t.reg (r l)).tag ≠ .undef) →
    ((∀ l, p.active.has l = true → (t.reg (r l)).tag = g) ∨
      ((∃ l l', p.active.has l = true ∧ p.active.has l' = true ∧ (t.reg (r l)).tag ≠ (t.reg (r l')).tag) ∧ g = .raw)) →
    Deliverable s2 s2 p f.d.toNat g →
    ∃ v u, exec (.mov h f) s = .next (u.logUndo p.at_ s1) ∧ Delivered s2 p f.d.toNat g v 0 u ∧
      ∀ l, p.active.has l = true → v l = (t.reg (r l)).at l) ∧
  ∀ (h : Head) (f : RForm) (s : State) (p : Path) (s1 s2 : State) (x : Operand),
    Begins (.mov h f) h f.len.bytes s p s1 s2 → f.sub.toNat = 8 →
    s2.read1 p f.a.toNat f.pa.toNat (anyTag f) = .ok x →
    bounded (s2.troupe p) p f.d.toNat →
    (∀ l, p.active.has l = true → (s2.troupe p).pending (name (s2.troupe p) f.d.toNat l) = false) →
    let named (t : Troupe) (n l : Nat) : Bool := p.active.has l && name t f.d.toNat l == n
    let after (t : Troupe) (n : Nat) : VReg :=
      if (List.range 64).any (named t n) then
        { tag := x.tag, dead := false
          lanes := (List.range 64).map fun l =>
            if named t n l then x.at l else if (t.reg n).dead then 0 else (t.reg n).at l }
      else t.reg n
    exec (.mov h f) s = .next (((s2.popPorts p [f.a.toNat]).mod p fun t =>
      { t with regs := (List.range t.regs.length).map (after t) }).logUndo p.at_ s1)

/-- The uniform majors write KD, or a uniform predicate, once for the path, from KA and the second operand, and change
nothing else (R163, R164, R165, R166): arithmetic wraps at 64 bits, shifts are by y modulo 64. -/
def Obligations.UniformOperations : Prop :=
  Uniform .kmov (fun _ _ x _ => x) ∧ Uniform .kadd (fun _ _ x y => x + y) ∧ Uniform .ksub (fun _ _ x y => x - y) ∧
  Uniform .kmul (fun _ _ x y => x * y) ∧ Uniform .kand (fun _ _ x y => x &&& y) ∧
  Uniform .kor (fun _ _ x y => x ||| y) ∧ Uniform .kxor (fun _ _ x y => x ^^^ y) ∧
  Uniform .kshl (fun _ _ x y => x <<< (y.toNat % 64)) ∧ Uniform .kshr (fun _ _ x y => x >>> (y.toNat % 64)) ∧
  Uniform .ksar (fun _ _ x y => x.sshiftRight (y.toNat % 64)) ∧
  Uniform .kmin (fun f _ x y => smaller (f.sub.getLsbD 1) x y) ∧
  Uniform .kmax (fun f _ x y => larger (f.sub.getLsbD 1) x y) ∧
  Uniform .ksel (fun f t x y => if t.c.getLsbD (f.sub.toNat / 2 % 8) ≠ f.sub.getLsbD 4 then x else y) ∧
  TroupeOnly .kldi (fun _ => 8) always (fun f _ _ t =>
    t.setK f.kd.toNat (if f.sub = 0 then f.imm.signExtend 64 else f.imm.setWidth 64)) ∧
  TroupeOnly .kldi128 (fun _ => 16) always (fun f _ _ t => t.setK f.kd.toNat f.imm) ∧
  TroupeOnly .kred (fun _ => 8) always (fun f _ _ t =>
    t.setK f.kd.toNat ((List.range' (f.ka.toNat + 1) (f.kb.toNat - f.ka.toNat)).foldl
      (fun r n => fold (f.sub.toNat % 8) r (t.kreg n)) (t.kreg f.ka.toNat))) ∧
  ∀ (h : Head) (f : KForm) (s : State) (p : Path) (s1 s2 : State),
    Begins (.kcmp h f) h 8 s p s1 s2 → f.sub.toNat / 4 % 8 < 6 →
    ∃ v : Troupe → Bool,
      exec (.kcmp h f) s = .next ((s2.mod p fun t => t.setC (f.kd.toNat % 8) (v t)).logUndo p.at_ s1) ∧
      ∀ t, (v t = true ↔ condition (f.sub.toNat / 4 % 8) (asNumber (f.sub.getLsbD 1) (t.kreg f.ka.toNat))
        (asNumber (f.sub.getLsbD 1) (if f.sub.getLsbD 0 then f.imm.signExtend 64 else t.kreg f.kb.toNat)))

/-- The predicate majors: operations (R167, R169) and reductions over the active lanes (R168). -/
def Obligations.Predicates : Prop := Claims.PredicateOperations ∧ Claims.PredicateReductions

/-- IDXSET (R173) and IDXADD (R174). -/
def Obligations.IndexRegisters : Prop := Claims.IndexBounds ∧ Claims.IndexAddition

/-- MOVX reads the system registers (R106, R170, R171) and MOVC writes them (R51, R170, R172). -/
def Obligations.SystemRegisters : Prop := Claims.ReadSystemRegister ∧ Claims.WriteSystemRegister

/-- BRA moves the active lanes to its target if its condition holds, BRU every lane of the path, and LOOP counts its
uniform register down, modulo 2^64, and moves the active lanes unless it has reached zero. They raise no fault (R140). A
core that leads a checked pair sends the comparator each transfer that is taken (R385). -/
def Obligations.Branches : Prop :=
  (∀ (h : Head) (f : CForm) (s : State) (p : Path) (s1 s2 : State), Begins (.bra h f) h 8 s p s1 s2 → Unjudged s2 →
    (condOf f s2 p → exec (.bra h f) s = .next ((taken s2 p p.active fun _ => targetOf f p).logUndo p.at_ s1)) ∧
    (¬condOf f s2 p → exec (.bra h f) s = .next (s2.logUndo p.at_ s1))) ∧
  (∀ (h : Head) (f : CForm) (s : State) (p : Path) (s1 s2 : State), Begins (.bru h f) h 8 s p s1 s2 → Unjudged s2 →
    (condOf f s2 p → exec (.bru h f) s = .next ((taken s2 p p.at_.lanes fun _ => targetOf f p).logUndo p.at_ s1)) ∧
    (¬condOf f s2 p → exec (.bru h f) s = .next (s2.logUndo p.at_ s1))) ∧
  ∀ (h : Head) (f : CForm) (s : State) (p : Path) (s1 s2 : State), Begins (.loop h f) h 8 s p s1 s2 → Unjudged s2 →
    let n := (s2.troupe p).kreg f.ka.toNat - 1
    exec (.loop h f) s =
      .next (((if n ≠ 0 then taken s2 p p.active fun _ => targetOf f p else s2).mod p fun t => t.setK f.ka.toNat n).logUndo p.at_ s1)

/-- NOP changes nothing but that the path goes on (R58). FENCE brings the active lanes' touched scope back to block; what it
waits for is over before it issues (R97, R98; entries 7 and 77, the model's choice). STEP
advances %step by one, modulo 2^32 (R147). -/
def Obligations.NopFenceStep : Prop :=
  (∀ (h : Head) (f : NopForm) (s : State) (p : Path) (s1 s2 : State), Begins (.nop h f) h f.len.bytes s p s1 s2 →
    exec (.nop h f) s = .next (s2.logUndo p.at_ s1)) ∧
  (∀ (h : Head) (f : MForm) (s : State) (p : Path) (s1 s2 : State), Begins (.fence h f) h 12 s p s1 s2 →
    exec (.fence h f) s = .next ((ended (s2.mod p fun t => t.modLanes p.active fun _ x => { x with scope := 0 }) p
      (2 ≤ f.ord.toNat && f.ord.toNat ≤ 4)).logUndo p.at_ s1)) ∧
  ∀ (h : Head) (f : CForm) (s : State) (p : Path) (s1 s2 : State), Begins (.step h f) h 8 s p s1 s2 →
    exec (.step h f) s = .next ((s2.mod p fun t => { t with step := t.step + 1 }).logUndo p.at_ s1)

/-- BRX sends each active lane to its own target, and a target that is not a multiple of 4 raises ALIGN for the lanes
that have one, with no transfer (R141). -/
def Obligations.IndirectBranch : Prop :=
  ∀ (h : Head) (f : RForm) (s : State) (p : Path) (s1 s2 : State) (x : Operand × Operand),
    Begins (.brx h f) h 8 s p s1 s2 → s2.readPair p 0 f.a.toNat 0 .i64l .i64h = .ok x →
    (Unjudged s2 → (∀ l, p.active.has l = true → (pairValue x l).toNat % 4 = 0) →
      exec (.brx h f) s = .next ((taken s2 p p.active (pairValue x)).logUndo p.at_ s1)) ∧
    ∀ m : Mask, (∀ l, m.has l = true ↔ p.active.has l = true ∧ (pairValue x l).toNat % 4 ≠ 0) → m ≠ 0 →
      Faults (.brx h f) s p s1 codeAlign m (pairValue x m.lowest) 0

/-- CALL, CALLX and RET on the return stack of each lane (R133, R142). -/
def Obligations.CallsAndReturns : Prop := Claims.CallsPush ∧ Claims.ReturnsPop

/-- DEPART departs every lane of the path for its deferred accesses, takes those that have returned into its record, and
is ready at once if all have (R144); SLEEP departs it until %clock has advanced by d, ready at once with d = 0 (R145).
What a departure does is stated by Obligations.DepartureRecord. -/
def Obligations.DepartAndSleep : Prop :=
  (∀ (h : Head) (f : CForm) (s : State) (p : Path) (s1 s2 t : State), Begins (.depart h f) h 8 s p s1 s2 →
    let mine (d : Deferred) : Bool := d.lanes &&& p.at_.lanes != 0
    (∀ d ∈ (s2.troupe p).deferred, mine d = true → d.poison = none) →
    s2.depart p .deferred (p.at_.pc + 8) 0 (fun r =>
      { r with peer := (s2.troupe p).deferred.any fun d => mine d && d.peer && !d.returned }) = .ok t →
    let back := t.modCore p.core fun k => k.deliverDeferred p.blk p.at_.troupe
    ((∀ d ∈ (s2.troupe p).deferred, mine d = true → d.returned = true) →
      exec (.depart h f) s = .next ((back.readyNow p.core fun r => r.rid == s2.nextId).logUndo p.at_ s1)) ∧
    ((∃ d ∈ (s2.troupe p).deferred, mine d = true ∧ d.returned = false) →
      exec (.depart h f) s = .next (back.logUndo p.at_ s1))) ∧
  ∀ (h : Head) (f : CForm) (s : State) (p : Path) (s1 s2 t : State), Begins (.sleep h f) h 8 s p s1 s2 →
    let d := if f.sub.getLsbD 1 then ((s2.troupe p).kreg f.ka.toNat).toNat else 64 * f.imm.toNat
    s2.depart p (.time (s2.clock.toNat + d)) (p.at_.pc + 8) 0 id = .ok t →
    (d = 0 → exec (.sleep h f) s = .next ((t.readyNow p.core fun r => r.rid == s2.nextId).logUndo p.at_ s1)) ∧
    (d ≠ 0 → exec (.sleep h f) s = .next (t.logUndo p.at_ s1))

/-- A departure (R120): the whole path leaves residency in one record that awaits the given key, resumes at the given
address and holds the live registers and the lanes' state; the slot is free once no lane of the troupe is resident. -/
def Obligations.DepartureRecord : Prop :=
  ∀ (s t : State) (p : Path) (key : Key) (resume : DWord) (kind : Nat) (u : Troupe),
    p.core < s.cores.length → (s.core p.core).troupe p.blk p.at_.troupe = some u →
    s.depart p key resume kind id = .ok t →
    (∃ r ∈ (t.core p.core).cue, r.rid = s.nextId ∧ r.blk = u.blk ∧ r.troupe = u.idx ∧ r.key = key ∧ r.resume = resume ∧
      r.mask = p.at_.lanes ∧ r.ready = false ∧ r.lanes = u.lanes ∧ r.regs = u.liveData p.at_.lanes ∧ r.recCount = u.recCount) ∧
    ∃ v, (t.core p.core).troupe p.blk p.at_.troupe = some v ∧ v.regs = u.regs ∧ v.k = u.k ∧
      (∀ l, l < u.lanes.length → v.lane l = if p.at_.lanes.has l then { u.lane l with place := .departed, stopped := false }
        else u.lane l) ∧
      ((∀ l, l < u.lanes.length → (u.lane l).place = .resident → p.at_.lanes.has l = true) → v.slot = none)

/-- TRAP takes the fault TRAPINSN with its code; BKPT takes BKPT in debug mode and does nothing otherwise (R146). -/
def Obligations.TrapsAndBreakpoints : Prop :=
  (∀ (h : Head) (f : CForm) (s : State) (p : Path) (s1 s2 : State), Begins (.trap h f) h 8 s p s1 s2 →
    Faults (.trap h f) s p s1 codeTrapInsn p.active 0 f.imm.toNat) ∧
  ∀ (h : Head) (f : CForm) (s : State) (p : Path) (s1 s2 : State), Begins (.bkpt h f) h 8 s p s1 s2 →
    ((∃ g, s2.launchOf p.core p.blk = some g ∧ g.debug = true) →
      Faults (.bkpt h f) s p s1 codeBkpt p.active 0 f.imm.toNat) ∧
    ((∀ g, s2.launchOf p.core p.blk = some g → g.debug = false) → exec (.bkpt h f) s = .next (s2.logUndo p.at_ s1))

/-- EXIT ends the active lanes, if its condition holds, after their held pushes are performed: their state is discarded
and no other lane's changes. A troupe whose lanes have all ended is gone, with its slot, and the block of the last
troupe is ending (R143). An EXIT whose frame fits nowhere is the model's choice (entry 82). -/
def Obligations.LanesExit : Prop :=
  ∀ (h : Head) (f : CForm) (s : State) (p : Path) (s1 s2 : State), Begins (.exit h f) h 8 s p s1 s2 →
    (¬condOf f s2 p → exec (.exit h f) s = .next (s2.logUndo p.at_ s1)) ∧
    (condOf f s2 p → ∀ s3 u, s2.performPushes p.core p.blk p.at_.troupe p.active = .ok s3 →
      p.core < s3.cores.length → (s3.core p.core).troupe p.blk p.at_.troupe = some u →
      ∃ t, exec (.exit h f) s = .next t ∧
        ((∃ l, l < u.lanes.length ∧ p.active.has l = false ∧ (u.lane l).place ≠ .ended) →
          ∃ v, (t.core p.core).troupe p.blk p.at_.troupe = some v ∧
            ∀ l, l < u.lanes.length → v.lane l = if p.active.has l then Lane.reset else u.lane l) ∧
        ((∀ l, l < u.lanes.length → p.active.has l = false → (u.lane l).place = .ended) →
          (t.core p.core).troupe p.blk p.at_.troupe = none ∧
          ((∀ x ∈ (s3.core p.core).troupes, x.blk = p.blk → x.idx = p.at_.troupe) →
            ∀ b, (s3.core p.core).block p.blk = some b → ∃ b', (t.core p.core).block p.blk = some b' ∧ b'.ending = true)))

/-- LDL loads from the block's window (R241, R250): each active lane's value is the little-endian value of the bytes at
its offset, with the tag of KIND; a word that a matrix command is writing is old or new in each lane (R17). STL stores
them: a byte of local memory takes the byte of the highest active lane whose access covers it (R90), every other byte is
unchanged, and so is everything else but what the logs, the deferred accesses of the troupe and queued matrix commands
keep of the old bytes. -/
def Obligations.LocalLoadsAndStores : Prop :=
  (∀ (h : Head) (f : MForm) (s : State) (p : Path) (s1 s2 : State) (x : Operand),
    Begins (.ldl h f) h 12 s p s1 s2 → LocalFits s2 p f x →
    let kind := f.sub.toNat % 16
    let regs := kindRegs kind f.d.toNat
    (s2.troupe p).checkDest p (regs.map (·.1)) = .ok () →
    let old := (s2.core p.core).mem
    let late := s2.storing p.core
    let s3 := s2.popPorts p (indexFields f)
    ∃ m : Nat → Memory, exec (.ldl h f) s = .next
        ((groupWritten (if late = [] then s3 else { s3 with nextId := s3.nextId + 1 }) p f.d.toNat (regs.mapIdx fun j (r : Nat × Tag) =>
          (r.2, fun l => loadedWord kind j ((m l).readNat (localAt s2 p f x l) (accessSize f)))) 0).logUndo p.at_ s1) ∧
      (late = [] → ∀ l, m l = old) ∧
      (old.wf = true → ∀ l w, (∀ i, i < 4 → (m l).read (4 * w + i) = old.read (4 * w + i)) ∨
        ∀ i, i < 4 → (m l).read (4 * w + i) = (old.writeCells late).read (4 * w + i))) ∧
  ∀ (h : Head) (f : MForm) (s : State) (p : Path) (s1 s2 : State) (x : Operand),
    Begins (.stl h f) h 12 s p s1 s2 → LocalFits s2 p f x →
    (s2.troupe p).checkData p (f.sub.toNat % 16) f.d.toNat = .ok () →
    let old := (s2.core p.core).mem
    ∃ (m : Memory) (us : List UndoLog) (ds : List Deferred → List Deferred) (rs : Nat → MatCmd → List (List Host.Cell)), exec (.stl h f) s = .next
        (((({ s2.popPorts p (indexFields f) with
              pairs := s2.pairs.mapIdx fun n (q : Pair) => { q with queue := q.queue.map fun (x : MatCmd) => { x with raced := rs n x } } }.mod p fun t =>
            { t with deferred := ds t.deferred }).noteSync p (isRel f.ord)).modCore p.core fun k => { k with mem := m, undo := us }).logUndo p.at_ s1) ∧
      (old.wf = true → m.wf = true ∧
        (∀ a, (∀ l, p.active.has l = true → a < localAt s2 p f x l ∨ localAt s2 p f x l + accessSize f ≤ a) → m.read a = old.read a) ∧
        ∀ l i, p.active.has l = true → i < accessSize f →
          (∀ n, p.active.has n = true → l < n →
            localAt s2 p f x l + i < localAt s2 p f x n ∨ localAt s2 p f x n + accessSize f ≤ localAt s2 p f x l + i) →
          m.read (localAt s2 p f x l + i) = BitVec.ofNat 8 (storedValue s2 p f l / 256 ^ i))

/-- LD (R241, R250): once its accesses have passed, it departs with its data for the next instruction, or with DEF
leaves a deferred access; a lane's value is the little-endian value at its translated address. LDK makes one access for
the path and departs with a uniform result (R252). PREF and CCLEAN move and write back lines, and change no byte
(R258, R260; entry 7); PREF reads no register, so that only its port can stop it (R258), and the write-back of a checked
pair is compared (R385). -/
def Obligations.GlobalLoads : Prop :=
  (∀ (h : Head) (f : MForm) (s : State) (p : Path) (s1 s2 : State) (x : Operand) (hs : List Hit),
    Begins (.ld h f) h 12 s p s1 s2 →
    let am := f.sub.toNat / 16
    let kind := f.sub.toNat % 16
    let regs := kindRegs kind f.d.toNat
    s2.memIndex p f am = .ok x →
    (s2.troupe p).checkDest p (regs.map (·.1)) = .ok () →
    s2.access p (spaceOf f) (accessSize f) false false (s2.wants p f am (accessSize f) x) = .ok hs →
    let data := gathered s2 p regs fun j l => loadedWord kind j (s2.laneValue p.core hs l)
    let s3 := ended (((s2.popPorts p (indexFields f)).touchHits p hs).logAcquires p (isAcq f.ord) hs) p (isRel f.ord)
    (spaceOf f = .global → ∀ l, p.active.has l = true →
      let a := (addressOf f (accessSize f) (s2.kAt p f.kb.toNat) x l).toNat
      ∃ y, (s2.core p.core).lookup (s2.ownerOf p.core p.blk) a = some y ∧
        s2.laneValue p.core hs l = (s2.space y).readNat (y.addr a) (accessSize f)) ∧
    (f.def_ = true → exec (.ld h f) s = .next ((s3.defer p data hs kind (s3.piecesPoison hs)).logUndo p.at_ s1)) ∧
    (f.def_ = false → s2.checkPoison hs = .ok () →
      ∀ t, s3.depart p .data (p.at_.pc + 12) 0 (fun r => { r with data := data, peer := anyPeer hs }) = .ok t →
        exec (.ld h f) s = .next (t.logUndo p.at_ s1))) ∧
  (∀ (h : Head) (f : MForm) (s : State) (p : Path) (s1 s2 : State) (hs : List Hit) (t : State),
    Begins (.ldk h f) h 12 s p s1 s2 →
    let size := if f.sub = 0 then 8 else 4
    let a := s2.kAt p f.kb.toNat + f.off.signExtend 64
    s2.access p .global size false false [{ lane := p.active.lowest, addr := a }] = .ok hs →
    s2.checkPoison hs = .ok () →
    ∃ y, (s2.core p.core).lookup (s2.ownerOf p.core p.blk) a.toNat = some y ∧
      let n := (s2.space y).readNat (y.addr a.toNat) size
      let v : DWord := if f.sub = 2 then (BitVec.ofNat 32 n).signExtend 64 else BitVec.ofNat 64 n
      ((ended ((s2.touchHits p hs).logAcquires p (isAcq f.ord) hs) p (isRel f.ord)).depart p .data (p.at_.pc + 12) 0 (fun r =>
          { r with uresult := some (f.d.toNat % 64, v), peer := anyPeer hs }) = .ok t →
        exec (.ldk h f) s = .next (t.logUndo p.at_ s1))) ∧
  (∀ (h : Head) (f : MForm) (s : State) (p : Path) (s1 s2 : State),
    Begins (.pref h f) h 12 s p s1 s2 → s2.portsReady p (indexFields f) = .ok () →
    exec (.pref h f) s = .next ((s2.popPorts p (indexFields f)).logUndo p.at_ s1)) ∧
  ∀ (h : Head) (f : MForm) (s : State) (p : Path) (s1 s2 : State) (x : Operand) (hs : List Hit),
    Begins (.cclean h f) h 12 s p s1 s2 → s2.memIndex p f (f.sub.toNat / 16) = .ok x →
    s2.access p (spaceOf f) 1 false false (s2.wants p f (f.sub.toNat / 16) 1 x) = .ok hs → Unjudged s2 →
    exec (.cclean h f) s = .next ((passed ((s2.popPorts p (indexFields f)).touchHits p hs) p
      (.write (((hs.map fun h => h.va / 64).eraseDups).map fun n => (64 * n, [], f.ord.toNat)))).logUndo p.at_ s1)

/-- ST (R250): once its accesses have passed, the bytes of each piece take the lane's value, every other byte of every
memory is unchanged, and so is every register. -/
def Obligations.GlobalStores : Prop :=
  ∀ (h : Head) (f : MForm) (s : State) (p : Path) (s1 s2 : State) (x : Operand) (hs : List Hit),
    Begins (.st h f) h 12 s p s1 s2 →
    let am := f.sub.toNat / 16
    s2.memIndex p f am = .ok x →
    (s2.troupe p).checkData p (f.sub.toNat % 16) f.d.toNat = .ok () →
    s2.access p (spaceOf f) (accessSize f) true false (s2.wants p f am (accessSize f) x) = .ok hs → Quiet s2 →
    ∃ t, exec (.st h f) s = .next (t.logUndo p.at_ s1) ∧ Untouched s2 t p ∧
      (∀ g, (∀ k ∈ hs, apart g k) → t.hitBytes p.core g = s2.hitBytes p.core g) ∧
      ∀ k bs, (k, bs) ∈ pieceBytes hs (storedValue s2 p f) → (∀ g ∈ hs, g = k ∨ apart k g) → t.hitBytes p.core k = bs

/-- ATOM, RED and ATOML (R91, R254, R255, R256, R257): the lanes update their places one after the other in ascending
order, each with the value of its data registers, and the updates of host memory go out as AtomicOps in that order; a
returning form gives each lane the value it found. It departs with it where the cue store has room for the record, and
with DEF leaves it for DEPART. RED folds the values of one address first, except for INCW. Every other byte and every other
register is unchanged. -/
def Obligations.AtomicUpdates : Prop :=
  (∀ (h : Head) (f : MForm) (s : State) (p : Path) (s1 s2 : State) (hs : List Hit),
    Begins (.atom h f) h 12 s p s1 s2 → AtomicReady s2 p f .global hs →
    ∃ t olds, Untouched s2 t p ∧ Updates f s2 p (updatesOf s2 p f hs) t olds ∧
      (MForm.ret f = false → exec (.atom h f) s = .next ({ t with nextId := s2.nextId + 1 }.logUndo p.at_ s1)) ∧
      (MForm.ret f = true → f.def_ = true →
        exec (.atom h f) s = .next ((t.defer p (oldData t p f olds) hs 4 none).logUndo p.at_ s1)) ∧
      (MForm.ret f = true → f.def_ = false →
        (∃ v, s2.depart p .data (p.at_.pc + 12) 0 (fun r => { r with data := oldData s2 p f [] }) = .ok v) →
        ∃ u, t.depart p .data (p.at_.pc + 12) 0 (fun r => { r with data := oldData t p f olds, peer := anyPeer hs }) = .ok u ∧
          exec (.atom h f) s = .next (u.logUndo p.at_ s1))) ∧
  (∀ (h : Head) (f : MForm) (s : State) (p : Path) (s1 s2 : State) (hs : List Hit),
    Begins (.red h f) h 12 s p s1 s2 → AtomicReady s2 p f .global hs →
    ∃ t olds, exec (.red h f) s = .next (t.logUndo p.at_ s1) ∧ Untouched s2 t p ∧
      Updates f s2 p (combineRed (f.sub.toNat % 16) (MForm.width f) (updatesOf s2 p f hs)) t olds) ∧
  ∀ (h : Head) (f : MForm) (s : State) (p : Path) (s1 s2 : State) (hs : List Hit),
    Begins (.atoml h f) h 12 s p s1 s2 → AtomicReady s2 p f .loc hs →
    ∃ t olds, Untouched s2 t p ∧ Updates f s2 p (updatesOf s2 p f hs) t olds ∧
      (MForm.ret f = false → exec (.atoml h f) s = .next (t.logUndo p.at_ s1)) ∧
      (MForm.ret f = true → exec (.atoml h f) s = .next ((groupWritten t p f.d.toNat
        ((List.range (MForm.width f / 32)).map fun j => (((s2.troupe p).reg (f.d.toNat + j)).tag,
          fun l => BitVec.ofNat 32 (oldOf olds l / 2 ^ (32 * j)))) 0).logUndo p.at_ s1))

/-- The first checks of a memory access (R238, R239, R240): a misaligned address raises ALIGN, and an aligned address
outside its space raises ACCESS, or LOCALRANGE in the window; the code of the lowest failing lane is raised, for the lanes
that fail with it, and nothing is loaded or stored. -/
def Obligations.MemoryBounds : Prop :=
  let fails (s : State) (p : Path) (space : Space) (size : Nat) (a : DWord) (code : Nat) : Prop :=
    if a.toNat % size ≠ 0 then code = codeAlign
    else match space with
      | .global => a.toNat / 2 ^ 57 ≠ (if a.getLsbD 56 then 127 else 0) ∧ code = codeAccess
      | .priv => (s.block p).priv < a.toNat + size ∧ code = codeAccess
      | .loc => (s.block p).size < a.toNat + size ∧ code = codeLocalRange
  let bounded (i : Instr) (h : Head) (f : MForm) (space : Space) (ready : State → Path → Prop) : Prop :=
    ∀ (s : State) (p : Path) (s1 s2 : State) (x : Operand) (m : Mask) (code : Nat),
      Begins i h 12 s p s1 s2 → s2.memIndex p f (f.sub.toNat / 16) = .ok x → ready s2 p →
      let a (l : Nat) : DWord := addressOf f (accessSize f) (s2.kAt p f.kb.toNat) x l
      m ≠ 0 → (∀ l, m.has l = true ↔ p.active.has l = true ∧ fails s2 p space (accessSize f) (a l) code) →
      (∀ l c, p.active.has l = true → l < m.lowest → ¬fails s2 p space (accessSize f) (a l) c) →
      Faults i s p s1 code m (a m.lowest) 0
  let into (f : MForm) (s : State) (p : Path) : Prop :=
    (s.troupe p).checkDest p ((kindRegs (f.sub.toNat % 16) f.d.toNat).map (·.1)) = .ok ()
  let from_ (f : MForm) (s : State) (p : Path) : Prop := (s.troupe p).checkData p (f.sub.toNat % 16) f.d.toNat = .ok ()
  ∀ (h : Head) (f : MForm), bounded (.ld h f) h f (spaceOf f) (into f) ∧ bounded (.ldl h f) h f .loc (into f) ∧
    bounded (.st h f) h f (spaceOf f) (from_ f) ∧ bounded (.stl h f) h f .loc (from_ f)

/-- SCFG binds a port to a context with the descriptor's pattern, every lane at position 0, releasing the port's old
context; a misaligned or foreign descriptor and a bad pattern fault, and then nothing is bound (R273). SDRAIN releases
performed pushes and changes nothing here (R274; entries 7 and 77). SCLOSE marks the active lanes' port for closing (R275). SPOS
and SEOS read positions and flags and pop nothing (R276); SSEEK sets positions, clears EOS and drops what was fetched
ahead (R277). -/
def Obligations.Streams : Prop :=
  (∀ (h : Head) (f : XForm) (s : State) (p : Path) (s1 s2 : State), Begins (.scfg h f) h 16 s p s1 s2 →
    let off := s2.kAt p f.ka.toNat + f.imm.signExtend 64
    let a := (s2.block p).base + off.toNat
    let k := s2.core p.core
    let kbase := s2.kAt p f.kb.toNat
    let pat := Pattern.read k.mem a
    let old := k.ctxOf p.blk p.at_.troupe (portNo f.d)
    let stream := exec (.scfg h f) s =
      .next (s1.takeFault p.at_ p.len codeStream p.active 0 0 (some (portNo f.d)) .none)
    (off.toNat % 64 ≠ 0 → Faults (.scfg h f) s p s1 codeAlign p.active off 0) ∧
    (off.toNat % 64 = 0 → (s2.block p).size < off.toNat + 64 → Faults (.scfg h f) s p s1 codeLocalRange p.active off 0) ∧
    (off.toNat % 64 = 0 → off.toNat + 64 ≤ (s2.block p).size →
      ((∀ c, k.ownedCtx p.blk f.immB.toNat ≠ some c) ∨ (s2.block p).streams ≤ f.immB.toNat ∨
        ¬GoodPattern pat kbase ∨ patternReserved k.mem a = true → stream) ∧
      ∀ c, k.ownedCtx p.blk f.immB.toNat = some c → f.immB.toNat < (s2.block p).streams →
        GoodPattern pat kbase → patternReserved k.mem a = false →
        ((k.ctx c).bound = true → old ≠ some c → stream) ∧
        ((k.ctx c).bound = false ∨ old = some c → ∃ g : Core → Core,
          exec (.scfg h f) s = .next ((s2.modCore p.core g).logUndo p.at_ s1) ∧
          (g k).troupes = k.troupes ∧ (g k).mem = k.mem ∧ (g k).blocks = k.blocks ∧
          (c < k.ctxs.length → (g k).ctx c =
            { owner := some (p.blk, f.immB.toNat), bound := true, write := f.sub.getLsbD 0, port := portNo f.d
              troupe := p.at_.troupe, kbase := kbase, pat := pat, lanes := List.replicate 64 CtxLane.reset, closing := false }) ∧
          (∀ n, n ≠ c → n < k.ctxs.length → (g k).ctx n =
            if old = some n then { Ctx.reset with owner := (k.ctx n).owner } else k.ctx n)))) ∧
  (∀ (h : Head) (f : RForm) (s : State) (p : Path) (s1 s2 : State) (n : Nat), Begins (.sdrain h f) h 8 s p s1 s2 →
    Bound s2 p (portNo f.a) n → ((s2.core p.core).ctx n).write = true →
    exec (.sdrain h f) s = .next (s2.logUndo p.at_ s1)) ∧
  (∀ (h : Head) (f : RForm) (s : State) (p : Path) (s1 s2 : State) (n : Nat), Begins (.sclose h f) h 8 s p s1 s2 →
    Bound s2 p (portNo f.a) n →
    exec (.sclose h f) s = .next ((ctxLanes s2 p n fun _ y => { y with close := true }).logUndo p.at_ s1)) ∧
  (∀ (h : Head) (f : RForm) (s : State) (p : Path) (s1 s2 : State) (n : Nat), Begins (.spos h f) h 8 s p s1 s2 →
    Bound s2 p (portNo f.a) n → Deliverable s2 s2 p f.d.toNat .n32 →
    ∃ t, exec (.spos h f) s = .next (t.logUndo p.at_ s1) ∧ Delivered s2 p f.d.toNat .n32 (fun l =>
      let y := ((s2.core p.core).ctx n).lane l
      if f.sub.getLsbD 0 then y.ckpt else y.pos) 0 t) ∧
  (∀ (h : Head) (f : RForm) (s : State) (p : Path) (s1 s2 : State) (n : Nat), Begins (.seos h f) h 8 s p s1 s2 →
    Bound s2 p (portNo f.a) n → exec (.seos h f) s =
      .next ((predWritten s2 p f.d.toNat fun l => (((s2.core p.core).ctx n).lane l).eos).logUndo p.at_ s1)) ∧
  let seek (h : Head) (f : XForm) (s : State) (p : Path) (s1 s2 : State) (n : Nat) (v : Nat → Word) : Prop :=
    exec (.sseek h f) s = .next (((ctxLanes s2 p n fun l y =>
      { y with pos := if f.sub.getLsbD 1 then y.pos + v l else v l, eos := false, ahead := [] }).modCore p.core
        Core.wakePorts).logUndo p.at_ s1)
  (∀ (h : Head) (f : XForm) (s : State) (p : Path) (s1 s2 : State) (n : Nat), Begins (.sseek h f) h 16 s p s1 s2 →
    Bound s2 p (portNo f.d) n → f.sub.getLsbD 0 = true →
    ∃ v, (∀ l, l < 64 → v l = f.imm) ∧ seek h f s p s1 s2 n v) ∧
  ∀ (h : Head) (f : XForm) (s : State) (p : Path) (s1 s2 : State) (n : Nat) (x : Operand),
    Begins (.sseek h f) h 16 s p s1 s2 → Bound s2 p (portNo f.d) n → f.sub.getLsbD 0 = false → isPort f.a.toNat = false →
    s2.read1 p f.a.toNat 0 (fun g => g == .i32 || g == .n32) = .ok x → seek h f s p s1 s2 n fun l => x.at l

/-- BINIT, EXPECT and ARRIVE make one update of a barrier object, with the flip test (R295, R311, R312): an object that is
not armed only takes RANGE. AWAIT departs until PHASE differs from ph, and is ready at once if it does (R313). With
SATT set, ARRIVE and AWAIT raise SATTRAP before any effect (R296); an object the block does not have raises ILLEGAL. -/
def Obligations.Barriers : Prop :=
  let off (f : XForm) : Nat := 16 * (f.imm.toNat % 64)
  let n (f : XForm) (s : State) (p : Path) : Nat :=
    if f.sub.getLsbD 0 then (s.kAt p f.ka.toNat).toNat else f.immB.toNat
  (∀ (h : Head) (f : XForm) (s : State) (p : Path) (s1 s2 : State), Begins (.binit h f) h 16 s p s1 s2 →
    let o : BarObj := { bytes := f.immB.toNat, arrived := 0, atarget := f.imm.toNat / 65536, flags := 2, reload := f.immB.toNat }
    (f.imm.toNat % 64 < (s2.block p).barriers → Object s2 p (off f) →
      Replaces (.binit h f) s p s1 s2 (off f) (tested o o.bytes 0) (flips o o.bytes 0)) ∧
    ((s2.block p).barriers ≤ f.imm.toNat % 64 → Faults (.binit h f) s p s1 codeIllegal p.active 0 0)) ∧
  (∀ (h : Head) (f : XForm) (s : State) (p : Path) (s1 s2 : State), Begins (.expect h f) h 16 s p s1 s2 →
    f.imm.toNat % 64 < (s2.block p).barriers → Object s2 p (off f) →
    let o := objectAt s2 p (off f)
    let bytes := (o.bytes + n f s2 p) % 2 ^ 32
    (armed o = true → Replaces (.expect h f) s p s1 s2 (off f) (tested o bytes o.arrived) (flips o bytes o.arrived)) ∧
    (armed o = false → Replaces (.expect h f) s p s1 s2 (off f) (ranged o) false)) ∧
  (∀ (h : Head) (f : XForm) (s : State) (p : Path) (s1 s2 : State), Begins (.arrive h f) h 16 s p s1 s2 →
    f.imm.toNat % 64 < (s2.block p).barriers → f.immB.toNat % 65536 ≠ 0 →
    let o := objectAt s2 p (off f)
    let arrived := min (o.arrived + f.immB.toNat % 65536) 65535
    (trapsSat s2 p (off f) → Faults (.arrive h f) s p s1 codeSatTrap p.active 0 0) ∧
    (¬trapsSat s2 p (off f) → Object s2 p (off f) →
      (armed o = true → Replaces (.arrive h f) s p s1 s2 (off f) (tested o o.bytes arrived) (flips o o.bytes arrived)) ∧
      (armed o = false → Replaces (.arrive h f) s p s1 s2 (off f) (ranged o) false))) ∧
  ∀ (h : Head) (f : XForm) (s : State) (p : Path) (s1 s2 : State), Begins (.await h f) h 16 s p s1 s2 →
    f.imm.toNat % 64 < (s2.block p).barriers →
    let ph := if f.sub.getLsbD 0 then (s2.kAt p f.ka.toNat).getLsbD 0 else f.immB.getLsbD 0
    (trapsSat s2 p (off f) → Faults (.await h f) s p s1 codeSatTrap p.active 0 0) ∧
    (¬trapsSat s2 p (off f) →
      DepartsOn (.await h f) s p s1 s2 (.barrier (off f)) (off f) (phase (objectAt s2 p (off f)) != ph))

/-- RINIT checks a ring's header and leaves every slot empty, with its barriers armed for the fill bytes and the
consumers (R310, R314); RELSLOT arrives on the empty barrier of a full slot, and on one that is not full only sets RANGE;
AWAITF departs until its slot is full (R298, R315). -/
def Obligations.Rings : Prop :=
  (∀ (h : Head) (f : XForm) (s : State) (p : Path) (s1 s2 : State), Begins (.rinit h f) h 16 s p s1 s2 →
    let r := ringOf s2 p (f.imm.toNat % 8)
    let consumers := f.imm.toNat / 65536
    let legal := f.imm.toNat % 8 < (s2.block p).rings ∧ consumers ≠ 0 ∧ f.immB ≠ 0 ∧ 1 ≤ r.nslotByte ∧ r.nslotByte ≤ 16 ∧
      r.slotSize ≠ 0
    let inside := r.slotOff + r.nslotByte * r.slotSize ≤ (s2.block p).size ∧ r.barOff + 32 * r.nslotByte ≤ (s2.block p).size
    let aligned := r.slotSize % 64 = 0 ∧ r.slotOff % 64 = 0 ∧ r.barOff % 16 = 0
    (¬legal → Faults (.rinit h f) s p s1 codeIllegal p.active 0 0) ∧
    (legal → ¬inside → Faults (.rinit h f) s p s1 codeLocalRange p.active 0 0) ∧
    (legal → inside → ¬aligned → Faults (.rinit h f) s p s1 codeAlign p.active 0 0) ∧
    (legal → inside → aligned → (∃ b, (s2.core p.core).block p.blk = some b) → p.core < s2.cores.length →
      (s2.core p.core).mem.wf = true → ∃ m, exec (.rinit h f) s =
          .next ((s2.modCore p.core fun k => { k with mem := m }).logUndo p.at_ s1) ∧
        (∀ i, i < r.nslotByte →
          BarObj.read m ((s2.block p).base + r.barOff + 32 * i) =
            { bytes := f.immB.toNat, arrived := 0, atarget := 0, flags := 2, reload := f.immB.toNat } ∧
          BarObj.read m ((s2.block p).base + r.barOff + 32 * i + 16) =
            { bytes := 0, arrived := 0, atarget := consumers, flags := 2, reload := 0 }) ∧
        ((r.addr + 24 ≤ (s2.block p).base + r.barOff ∨ (s2.block p).base + r.barOff + 32 * r.nslotByte ≤ r.addr + 16) →
          m.readNat (r.addr + 16) 4 = 0 ∧ m.readNat (r.addr + 20) 4 = 0) ∧
        ∀ x, (x < r.addr + 16 ∨ r.addr + 24 ≤ x) →
          (x < (s2.block p).base + r.barOff ∨ (s2.block p).base + r.barOff + 32 * r.nslotByte ≤ x) →
          m.read x = (s2.core p.core).mem.read x)) ∧
  (∀ (h : Head) (f : XForm) (s : State) (p : Path) (s1 s2 : State), Begins (.relslot h f) h 16 s p s1 s2 →
    let r := ringOf s2 p (f.imm.toNat % 8)
    let n := f.imm.toNat / 256 % 16
    let off := r.barOff + 32 * n + 16
    let o := objectAt s2 p off
    let arrived := min (o.arrived + 1) 65535
    RingSlot s2 p (f.imm.toNat % 8) n → Object s2 p off →
    (full s2 p r n = true → armed o = true →
      Replaces (.relslot h f) s p s1 s2 off (tested o o.bytes arrived) (flips o o.bytes arrived)) ∧
    (full s2 p r n = false ∨ armed o = false → Replaces (.relslot h f) s p s1 s2 off (ranged o) false)) ∧
  ∀ (h : Head) (f : XForm) (s : State) (p : Path) (s1 s2 : State), Begins (.awaitf h f) h 16 s p s1 s2 →
    let j := f.imm.toNat % 8
    let n := f.imm.toNat / 256 % 16
    RingSlot s2 p j n → DepartsOn (.awaitf h f) s p s1 s2 (.ring j n) ((ringOf s2 p j).barOff + 32 * n)
      (full s2 p (ringOf s2 p j) n)

/-- CSTEP adds to the stage counter, up to 2^32 − 1, and CSCHED replaces the script of a block that has one, or only
moves the counter (R284), each with the release and the starts that follow (R316, R317, R321). RCFENCE removes one record, or all, from the cluster's cache (R318). CSTAT delivers the
counters of R320. RCSEAL raises the record's VERSION and writes its CHECK, changes no other byte, and refuses a page below
device scope (R319). -/
def Obligations.CopyInstructions : Prop :=
  let address (f : XForm) (s : State) (p : Path) : DWord := s.kAt p f.ka.toNat + f.imm.signExtend 64
  (∀ (h : Head) (f : XForm) (s : State) (p : Path) (s1 s2 : State), Begins (.cstep h f) h 16 s p s1 s2 →
    let n := if f.sub.getLsbD 0 then (s2.kAt p f.ka.toNat).toNat else f.imm.toNat
    exec (.cstep h f) s =
      .next ((ended (released s2 p 0 fun b => { b with stage := min (b.stage + n) 0xFFFFFFFF }) p true).logUndo p.at_ s1)) ∧
  (∀ (h : Head) (f : XForm) (s : State) (p : Path) (s1 s2 : State), Begins (.csched h f) h 16 s p s1 s2 →
    let a := s2.kAt p f.ka.toNat
    let n := if f.sub.getLsbD 0 then (s2.kAt p f.kb.toNat).toNat else f.imm.toNat
    (a.toNat % 32 ≠ 0 → Faults (.csched h f) s p s1 codeAlign p.active a 0) ∧
    (a.toNat % 32 = 0 → exec (.csched h f) s = .next ((released s2 p p.at_.lanes fun b =>
      if b.scripted = true then { b with script := a, pos := 0, stage := min n 0xFFFFFFFF, ahead := [] }
      else { b with stage := min n 0xFFFFFFFF }).logUndo p.at_ s1))) ∧
  (∀ (h : Head) (f : XForm) (s : State) (p : Path) (s1 s2 : State), Begins (.rcfence h f) h 16 s p s1 s2 →
    let a := address f s2 p
    (a.toNat % 64 ≠ 0 → Faults (.rcfence h f) s p s1 codeAlign p.active a 0) ∧
    (a.toNat % 64 = 0 → exec (.rcfence h f) s = .next ((s2.modCluster (p.core / 8) fun q =>
      { q with records := q.records.filter fun r => r.addr ≠ a.toNat }).logUndo p.at_ s1))) ∧
  (∀ (h : Head) (f : XForm) (s : State) (p : Path) (s1 s2 : State), Begins (.rcfenceAll h f) h 16 s p s1 s2 →
    exec (.rcfenceAll h f) s = .next ((s2.modCluster (p.core / 8) fun q => { q with records := [] }).logUndo p.at_ s1)) ∧
  (∀ (h : Head) (f : XForm) (s : State) (p : Path) (s1 s2 : State), Begins (.cstat h f) h 16 s p s1 s2 →
    Deliverable s2 s2 p f.d.toNat .n32 →
    let item := f.sub.toNat % 8
    let j := f.imm.toNat % 8
    let r := ringOf s2 p j
    let inside := r.slotOff + r.nslot * r.slotSize ≤ (s2.block p).size ∧ r.barOff + 32 * r.nslot ≤ (s2.block p).size
    let gives (n : Nat) : Prop := ∃ t, exec (.cstat h f) s = .next (t.logUndo p.at_ s1) ∧
      Delivered s2 p f.d.toNat .n32 (fun _ => BitVec.ofNat 32 n) 0 t
    (item = 0 → gives (s2.block p).stage) ∧ (item = 1 → gives (s2.block p).pos) ∧
    (item = 2 → gives (((s2.core p.core).block p.blk).elim 0 (·.relq.length) +
      ((s2.core p.core).copies.filter fun o => o.elim false fun x => x.blk = p.blk).length)) ∧
    (item = 3 → f.imm.toNat % 64 < (s2.block p).barriers →
      gives ((s2.core p.core).mem.readNat ((s2.block p).base + 16 * (f.imm.toNat % 64) + 8) 4)) ∧
    (item = 4 → j < (s2.block p).rings → inside → gives ((s2.core p.core).mem.readNat ((ringOf s2 p j).addr + 16) 4)) ∧
    (item = 5 → j < (s2.block p).rings → inside → gives ((s2.core p.core).mem.readNat ((ringOf s2 p j).addr + 20) 4)) ∧
    (item = 4 ∨ item = 5 → j < (s2.block p).rings → ¬inside → Faults (.cstat h f) s p s1 codeLocalRange p.active 0 0) ∧
    (item = 3 → (s2.block p).barriers ≤ f.imm.toNat % 64 → Faults (.cstat h f) s p s1 codeIllegal p.active 0 0) ∧
    (item = 4 ∨ item = 5 → (s2.block p).rings ≤ j → Faults (.cstat h f) s p s1 codeIllegal p.active 0 0)) ∧
  ∀ (h : Head) (f : XForm) (s : State) (p : Path) (s1 s2 : State), Begins (.rcseal h f) h 16 s p s1 s2 →
    let a := address f s2 p
    (a.toNat % 64 ≠ 0 → Faults (.rcseal h f) s p s1 codeAlign p.active a 0) ∧
    ∀ hs x, a.toNat % 64 = 0 →
      s2.access p .global 64 true false (p.active.lanes.map fun l => { lane := l, addr := a }) = .ok hs →
      (s2.core p.core).lookup (mine s2 p) a.toNat = some x →
      (x.scope.toNat < 2 → Faults (.rcseal h f) s p s1 codeAccess p.active a 0) ∧
      (2 ≤ x.scope.toNat → s2.checkPoison hs = .ok () → Quiet s2 →
        let g : Hit := { lane := 0, va := a.toNat, size := 64, x := some x }
        ∃ t, exec (.rcseal h f) s = .next (t.logUndo p.at_ s1) ∧ Untouched s2 t p ∧
          Resealed (s2.hitBytes p.core g) (t.hitBytes p.core g) ∧
          ∀ k, apart k g → t.hitBytes p.core k = s2.hitBytes p.core k)

/-- The copy engine's release (R284): while the next entry is not END and its stage has been reached, it joins the
block's queue with the captured %fmode and the position goes on; release stops at END and at a later stage, and an entry
that fails its checks stops the release, which then faults. -/
def Obligations.ScriptRelease : Prop :=
  ∀ (n : Nat) (s : State) (c blk : Nat) (w : Releaser) (b : Block) (bs : List Byte),
    (s.core c).block blk = some b → b.scripted = true → b.ahead.lookup b.pos = some (.bytes bs) →
    let e := ScriptEntry.read bs
    let check := e.check b (s.core c).mem
    let addr := b.script + BitVec.ofNat 64 (32 * b.pos)
    let joined := s.modBlock c blk fun x =>
      { x with relq := x.relq ++ [{ pos := x.pos, addr := x.script + BitVec.ofNat 64 (32 * x.pos), fmode := w.fmode, pc := w.pc
                                    entry := some e, failed := check.isSome, time := s.clock.toNat, troupe := w.troupe, fresh := w.fresh }]
               pos := x.pos + 1, ahead := x.ahead.filter fun y => x.pos + 1 ≤ y.1 }
    let loop := State.releaseLoop (n + 1) s c blk w
    let last := (bs.getD 16 0).toNat % 8 = 7
    (last → check = none → loop = (s, none)) ∧ (¬last → b.stage < wordIn bs 8 → loop = (s, none)) ∧
    (¬last → wordIn bs 8 ≤ b.stage →
      (check = none → loop = State.releaseLoop n joined c blk w) ∧
      ∀ code, check = some code → loop = (joined, some { code := code, addr := addr, pos := b.pos }) ∧
        loop.1.stopScript c blk w.pc loop.2 = joined.blockFault c blk code 0 true w.pc addr (b.pos % 65536))

/-- The matrix majors (R323, R324, R327 to R333, R337 to R341): on a follower core, or with a retired follower, PAIRROLE;
otherwise MMA, MMAS, MZERO, ACCLD and ACCST are admitted with their tiles, ACCRD and ACCWR read and write the cells of the
active lanes, MLIVE sets the live tiles, MPERT arms a perturbation where injection is armed, and MSTAT delivers the
pair's status. What a scrub takes from admitted commands is the model's choice (entry 14). -/
def Obligations.MatrixInstructions : Prop :=
  let role (mk : Head → XForm → Instr) : Prop :=
    ∀ (h : Head) (f : XForm) (s : State) (p : Path) (s1 s2 : State), Begins (mk h f) h 16 s p s1 s2 →
      ¬Leads s2 p → Faults (mk h f) s p s1 codePairRole p.active 0 0
  let mma (mk : Head → XForm → Instr) (sparse : Bool) : Prop :=
    ∀ (h : Head) (f : XForm) (s : State) (p : Path) (s1 s2 : State), Begins (mk h f) h 16 s p s1 s2 → Leads s2 p →
      (1 < p.active.count → Faults (mk h f) s p s1 codeElect p.active 0 p.active.count) ∧
      ∀ a b arr rel, p.active.count = 1 → Sited s2 p → TileOk s2 p (part f.imm 3 0) (if sparse then .sparse else .a) a →
        TileOk s2 p (part f.imm 7 4) .b b → b.fmt = a.fmt →
        (if sparse then b.rowbytes = a.rowbytes * 128 / a.nkeep ∧ b.k % 128 = 0 else b.rowbytes = a.rowbytes) →
        ArrOk s2 p f (f.sub.getLsbD 2) arr → RelOk s2 p f (f.sub.getLsbD 1) rel →
        Admits (mk h f) s p s1 s2 (.mma sparse (f.sub.getLsbD 0) a b (part f.imm 10 8) (part f.imm 14 12)) true arr rel
          (a.spans sparse ++ b.spans false) []
  let moves (mk : Head → XForm → Instr) (op : XForm → State → Path → Tile → MatOp) (store : Bool) : Prop :=
    ∀ (h : Head) (f : XForm) (s : State) (p : Path) (s1 s2 : State), Begins (mk h f) h 16 s p s1 s2 → Leads s2 p →
      ∀ t arr, Sited s2 p → TileOk s2 p (part f.imm 3 0) .cells t → ArrOk s2 p f (f.sub.getLsbD 5) arr →
        part f.imm 15 8 + t.rows ≤ 256 → part f.imm 22 16 + t.k ≤ 128 →
        Admits (mk h f) s p s1 s2 (op f s2 p t) false arr none (if store then [] else t.spans false)
          (if store then t.spans false else [])
  let cell (f : XForm) (l : Nat) : Nat := 128 * (f.imm.toNat % 256) + 64 * (f.imm.toNat / 256 % 2) + l
  role .mma ∧ role .mmas ∧ role .mzero ∧ role .accld ∧ role .accst ∧ role .mpert ∧
  mma .mma false ∧ mma .mmas true ∧
  (∀ (h : Head) (f : XForm) (s : State) (p : Path) (s1 s2 : State), Begins (.mzero h f) h 16 s p s1 s2 → Leads s2 p →
    Sited s2 p →
    let row := part f.imm 7 0
    let rows := part f.imm 15 8 + 1
    let col := part f.imm 22 16
    let cols := part f.imm 30 24 + 1
    (row + rows ≤ 256 ∧ col + cols ≤ 128 → Admits (.mzero h f) s p s1 s2 (.zero row rows col cols) false none none [] []) ∧
    (256 < row + rows ∨ 128 < col + cols → Faults (.mzero h f) s p s1 codeIllegal p.active 0 0)) ∧
  moves .accld (fun f _ _ t => .load t (part f.imm 15 8) (part f.imm 22 16)) false ∧
  moves .accst (fun f s p t => .store t (part f.imm 15 8) (part f.imm 22 16)
    (if f.sub.toNat % 8 = 0 then (s.troupe p).fmode.toNat else f.sub.toNat % 8) (2 * (f.sub.toNat / 8 % 4) + 2)) true ∧
  (∀ (h : Head) (f : XForm) (s : State) (p : Path) (s1 s2 : State), Begins (.accrd h f) h 16 s p s1 s2 → Leads s2 p →
    Sited s2 p → portOf f.d.toNat = none → s2.checkDst p f.d.toNat = .ok () →
    ∃ v s3, exec (.accrd h f) s = .next ((regWritten s3 p f.d.toNat .f32 v 0).logUndo p.at_ s1) ∧ s3.cores = s2.cores ∧
      Claimed s2 p (pairHere s3 p) ∧ (pairHere s3 p).queue.map (·.id) = (pairHere s2 p).queue.map (·.id) ∧
      ∀ l, p.active.has l = true → ¬beingWritten (pairHere s2 p) (cell f l) → v l = (pairHere s3 p).cells.read (cell f l)) ∧
  (∀ (h : Head) (f : XForm) (s : State) (p : Path) (s1 s2 : State), Begins (.accwr h f) h 16 s p s1 s2 → Leads s2 p →
    Sited s2 p → (s2.troupe p).checkSource p 0 [(f.a.toNat, fun g => g == .f32)] = .ok () →
    ∃ t q, exec (.accwr h f) s = .next (t.logUndo p.at_ s1) ∧ t.cores = s2.cores ∧ Claimed s2 p q ∧
      (q.cells.wf = true → ∀ key, (pairHere t p).cells.read key =
        if 64 * (key / 64) = cell f 0 ∧ p.active.has (key % 64) = true then ((s2.troupe p).reg f.a.toNat).at (key % 64)
        else q.cells.read key)) ∧
  TroupeOnly .mlive (fun _ => 16) always (fun f _ _ t => { t with live := f.imm.setWidth 16, liveSet := true }) ∧
  (∀ (h : Head) (f : XForm) (s : State) (p : Path) (s1 s2 : State), Begins (.mpert h f) h 16 s p s1 s2 → Leads s2 p →
    ((s2.core p.core).inject = false → Faults (.mpert h f) s p s1 codeIllegal p.active 0 0) ∧
    ((s2.core p.core).inject = true → exec (.mpert h f) s = .next ((s2.modPair (p.core / 2) fun q =>
      { q with pert := some (part f.immB 4 0, part f.immB 11 8, f.imm) }).logUndo p.at_ s1))) ∧
  ∀ (h : Head) (f : XForm) (s : State) (p : Path) (s1 s2 : State), Begins (.mstat h f) h 16 s p s1 s2 →
    Deliverable s2 s2 p f.d.toNat .n32 →
    let w := BitVec.ofNat 32 (2 ^ 24 * min (pairHere s2 p).queue.length 255 + (pairHere s2 p).status.toNat)
    ∃ t, Delivered s2 p f.d.toNat .n32 (fun _ => w) 0 t ∧
      exec (.mstat h f) s = .next ((if f.sub.getLsbD 0 then t.modPair (p.core / 2) fun q => { q with status := 0 } else t).logUndo p.at_ s1)

/-- FETCHW clears the second half of its mailbox and departs on it, with ALIGN and LOCALRANGE for a mailbox that is not
aligned or not inside the window (R373). SPAWN, ENQ and JOBST write their status (R374 to R376). SIGCHK changes nothing but
the ports it pops (R407), and MODE reads its word or queues a request (R408). A core that leads a checked pair sends the
comparator what SIGCHK reads and what SPAWN, ENQ and MODE request (R385). -/
def Obligations.TaskMajors : Prop :=
  (∀ (h : Head) (f : XForm) (s : State) (p : Path) (s1 s2 : State), Begins (.fetchw h f) h 16 s p s1 s2 →
    let off := s2.kAt p f.ka.toNat + f.imm.signExtend 64
    let cleared := s2.modCore p.core fun k => { k with mem := k.mem.writeNat ((s2.block p).base + off.toNat + 8) 8 0 }
    (off.toNat % 16 ≠ 0 → Faults (.fetchw h f) s p s1 codeAlign p.active off 0) ∧
    (off.toNat % 16 = 0 → (s2.block p).size < off.toNat + 16 → Faults (.fetchw h f) s p s1 codeLocalRange p.active off 0) ∧
    (off.toNat % 16 = 0 → off.toNat + 16 ≤ (s2.block p).size →
      ∀ t, cleared.depart p (.mailbox off.toNat) (p.at_.pc + 16) 0 id = .ok t →
        exec (.fetchw h f) s = .next (t.logUndo p.at_ s1))) ∧
  (∀ (h : Head) (f : XForm) (s : State) (p : Path) (s1 s2 : State) (l : Launch), Begins (.spawn h f) h 16 s p s1 s2 → Unjudged s2 →
    s2.launchOf p.core p.blk = some l →
    let desc := s2.kAt p f.ka.toNat
    let n := (s2.kAt p f.kb.toNat).toNat
    let args := s2.kAt p f.kc.toNat
    let closed := 2048 ≤ (s2.jobsOf l.part).length ∨ (s2.part l.part).quiesced = true ∨ s2.stopped l = true
    let seen := passed s2 p (.request 0xD1 [desc.toNat, n, args.toNat])
    let status (v : DWord) : Prop := exec (.spawn h f) s = .next ((kWritten (seen.noteSync p true) p (f.d.toNat % 64) v).logUndo p.at_ s1)
    (l.cancelled = true → status 1) ∧
    (l.cancelled = false → closed → status 2) ∧
    (l.cancelled = false → ¬closed → desc.toNat % 64 ≠ 0 ∨ args.toNat % 8 ≠ 0 → status 3) ∧
    (l.cancelled = false → ¬closed → s2.spawnRefused l desc n args = false → ∃ child t,
      exec (.spawn h f) s = .next ((kWritten t p (f.d.toNat % 64) 0).logUndo p.at_ s1) ∧
      t = ((seen.addLaunch child).clearCode l.clmask l.coremask).noteSync p true ∧ child.job = l.job ∧ child.part = l.part ∧ child.pasid = l.pasid ∧ child.blocks = n ∧ child.kdesc = desc ∧
      child.parent = some (s2.topLaunch l.id) ∧ child.compl = 0)) ∧
  (∀ (h : Head) (f : KForm) (s : State) (p : Path) (s1 s2 : State) (l : Launch), Begins (.enq h f) h 8 s p s1 s2 → Unjudged s2 →
    s2.launchOf p.core p.blk = some l →
    let n := (if f.sub.getLsbD 0 then (s2.kAt p f.ka.toNat).toNat else f.imm.toNat) % 8
    let q := 8 * l.part + n
    let record := (List.range' 8 8).flatMap fun n => natToBytes 8 (s2.kAt p n).toNat
    let seen := passed s2 p (.request 0xD2 (n :: record.map (·.toNat)))
    (l.cancelled = true → exec (.enq h f) s = .next ((kWritten (seen.noteSync p true) p f.kd.toNat 2).logUndo p.at_ s1)) ∧
    (l.cancelled = false → s2.queueOpen q = false → exec (.enq h f) s = .next ((kWritten (seen.noteSync p true) p f.kd.toNat 1).logUndo p.at_ s1)) ∧
    (l.cancelled = false → s2.queueOpen q = true →
      exec (.enq h f) s = .next ((kWritten ((seen.accept q record).noteSync p true) p f.kd.toNat 0).logUndo p.at_ s1))) ∧
  (∀ (h : Head) (f : KForm) (s : State) (p : Path) (s1 s2 : State), Begins (.jobstQuery h f) h 8 s p s1 s2 →
    let es := entriesOf s2 p ((s2.kAt p f.ka.toNat).toNat % 2 ^ 32)
    let acting := es.any fun j => (s2.launch j.launch).elim false (·.cancelled)
    exec (.jobstQuery h f) s = .next ((kWritten s2 p f.kd.toNat
      (BitVec.ofNat 64 (min es.length 65535 + if acting then 65536 else 0))).logUndo p.at_ s1)) ∧
  (∀ (h : Head) (f : KForm) (s : State) (p : Path) (s1 s2 : State), Begins (.jobstCancel h f) h 8 s p s1 s2 →
    let g := (s2.kAt p f.ka.toNat).toNat
    (2 ^ 16 ≤ g → Faults (.jobstCancel h f) s p s1 codeIllegal p.active 0 0) ∧
    (g < 2 ^ 16 → exec (.jobstCancel h f) s = .next ((kWritten (s2.modSched fun q =>
      { q with presented := q.presented ++ [((mine s2 p).1, g)] }) p f.kd.toNat 0).logUndo p.at_ s1))) ∧
  (∀ (h : Head) (f : RForm) (s : State) (p : Path) (s1 s2 : State), Begins (.sigchk h f) h 8 s p s1 s2 → Unjudged s2 →
    let lo := ((s2.troupe p).reg f.a.toNat).tag
    let hi := ((s2.troupe p).reg (f.a.toNat + 1)).tag
    let inLanes (v : Nat → Word) : List Word := p.active.lanes.map v
    (f.sub.getLsbD 0 = false → ∀ x, s2.read1 p f.a.toNat 0 (fun g => g != .undef) = .ok x →
      exec (.sigchk h f) s = .next ((passed (s2.popPorts p [f.a.toNat]) p (.sigchk p.active [x.tag] [inLanes x.at])).logUndo p.at_ s1)) ∧
    (f.sub.getLsbD 0 = true → (lo = .i64l ∧ hi = .i64h) ∨ (lo = .dfh ∧ hi = .dfl) →
      (s2.troupe p).checkSource p 0 [(f.a.toNat, fun g => g == lo), (f.a.toNat + 1, fun g => g == hi)] = .ok () →
      exec (.sigchk h f) s = .next ((passed s2 p (.sigchk p.active [lo, hi]
        [inLanes ((s2.troupe p).reg f.a.toNat).at, inLanes ((s2.troupe p).reg (f.a.toNat + 1)).at])).logUndo p.at_ s1))) ∧
  (∀ (h : Head) (f : KForm) (s : State) (p : Path) (s1 s2 : State), Begins (.modeQuery h f) h 8 s p s1 s2 →
    let b := s2.block p
    exec (.modeQuery h f) s = .next ((kWritten s2 p f.kd.toNat (BitVec.ofNat 64 (p.core / 16 % 8 +
      (if (s2.checkedPair (p.core / 16)).checked then 8 else 0) + 256 * min b.retries 255 +
      if b.blockRetry then 65536 else 0))).logUndo p.at_ s1)) ∧
  ∀ (h : Head) (f : KForm) (s : State) (p : Path) (s1 s2 : State), Begins (.modeReq h f) h 8 s p s1 s2 → Unjudged s2 →
    let w := s2.kAt p f.ka.toNat
    let seen := passed s2 p (.request 0xD9 [w.toNat])
    let k := w.toNat % 8
    let refused := requestReserved w = true ∨ s2.partOf (2 * k) ≠ some (mine s2 p).1 ∨ s2.partOf (2 * k + 1) ≠ some (mine s2 p).1 ∨
      s2.checkedCore p.core = true
    (refused → exec (.modeReq h f) s = .next ((kWritten seen p f.kd.toNat 1).logUndo p.at_ s1)) ∧
    (¬refused → 16 ≤ s2.sirip.requests.length → exec (.modeReq h f) s = .next ((kWritten seen p f.kd.toNat 2).logUndo p.at_ s1)) ∧
    (¬refused → s2.sirip.requests.length < 16 → exec (.modeReq h f) s = .next ((kWritten (seen.modSirip fun q =>
      { q with requests := q.requests ++ [(w, .thread)] }) p f.kd.toNat 0).logUndo p.at_ s1))

/-- FADD, FSUB, FMUL and FFMA form the exact sum, difference, product, or product plus addend, of every element, and
round it once, with the NaNs, infinities and zero signs of R219 and the exceptions of R203; in FFMA the product is
never rounded. -/
def Obligations.FloatArithmetic : Prop :=
  let plain (f : RForm) : Prop := modX f.mod = false
  TwoFloats .fadd plain carries carries formatTag (fun f m x y w fl =>
    Forms f m (modSat f.mod) (fun e => (element f x e).sum m (element f y e)) w fl) ∧
  TwoFloats .fsub plain carries carries formatTag (fun f m x y w fl =>
    Forms f m (modSat f.mod) (fun e => (element f x e).sum m (element f y e).opposite) w fl) ∧
  TwoFloats .fmul plain carries carries formatTag (fun f m x y w fl =>
    Forms f m (modSat f.mod) (fun e => (element f x e).product (element f y e)) w fl) ∧
  ThreeFloats .ffma carries formatTag (fun f m x y z w fl =>
    Forms f m (modSat f.mod) (fun e => ((element f x e).product (element f y e)).sum m (element f z e)) w fl)

/-- FADD, FSUB and FMUL with X write the rounded result and what it leaves of the exact one, or the canonical NaN where
an operand is special or the result overflowed; a residual that had to be rounded raises XINEX (R205, R220). -/
def Obligations.ExactPairs : Prop :=
  ExactPair .fadd Quantity.sum ∧ ExactPair .fsub (fun m x y => x.sum m y.opposite) ∧
  ExactPair .fmul (fun _ x y => x.product y)

/-- FMIN and FMAX deliver an operand (R221), FCPYS takes a sign (R222), FCMP compares one element (R223), FCLASS names
the class (R224), FRND rounds to an integral value (R225) and FSCALE scales with one rounding (R226). -/
def Obligations.FloatSelection : Prop :=
  let all (_ : RForm) : Prop := True
  let each (f : RForm) (R : FloatFmt → Nat → Nat → Rounded → Prop) (x y w : Word) (fl : Flags) : Prop :=
    FloatElements (formatOf f).width (fun e r =>
      R (encodingOf f) (elemAt (formatOf f).width x e) (elemAt (formatOf f).width y e) r) w fl
  TwoFloats .fmin all carries carries formatTag (fun f _ x y w fl => each f (fun t => Selects t false) x y w fl) ∧
  TwoFloats .fmax all carries carries formatTag (fun f _ x y w fl => each f (fun t => Selects t true) x y w fl) ∧
  TwoFloats .fcpys all carries carries formatTag (fun f _ x y w fl => each f (fun t a b r =>
    Propagates t a r ∧ (¬t.NaN a → r.bits % t.signBit = a % t.signBit ∧ t.neg r.bits = t.neg b ∧ r.flags = 0)) x y w fl) ∧
  OneFloat .fclass carries (fun _ => .n32) (fun f _ x w fl =>
    w.toNat = (if (formatOf f).width = 32 then 2 ^ classBit (encodingOf f) x.toNat
      else 2 ^ classBit (encodingOf f) (elemAt 16 x 0) + 2 ^ 16 * 2 ^ classBit (encodingOf f) (elemAt 16 x 1)) ∧ fl = 0) ∧
  OneFloat .frnd carries formatTag (fun f m x w fl =>
    FloatElements (formatOf f).width (fun e r => Integral (encodingOf f) m (elemAt (formatOf f).width x e) r) w fl) ∧
  TwoFloats .fscale all carries (fun _ g => g == .i32) formatTag (fun f m x y w fl =>
    Forms f m (modSat f.mod) (fun e => scaled y.toInt (element f x e)) w fl) ∧
  ∀ (h : Head) (f : RForm) (s : State) (p : Path) (s1 s2 : State) (x y : Operand),
    Begins (.fcmp h f) h f.len.bytes s p s1 s2 →
    s2.read2 p f.a.toNat f.pa.toNat (carries f) f.b.toNat f.pb.toNat (carries f) = .ok (x, y) →
    ∃ v fl, exec (.fcmp h f) s = .next (((predWritten (s2.popPorts p [f.a.toNat, f.b.toNat]) p f.d.toNat v).orFstat p
        (orFlags (p.active.lanes.map fl))).logUndo p.at_ s1) ∧
      ∀ l, p.active.has l = true →
        let e := if f.sub.getLsbD 5 then 1 else 0
        let a := elemAt (formatOf f).width (x.at l) e
        let b := elemAt (formatOf f).width (y.at l) e
        let t := encodingOf f
        let code := f.sub.toNat / 4 % 8
        let invalid := t.Signalling a ∨ t.Signalling b ∨ (t.NaN a ∨ t.NaN b) ∧ 2 ≤ code ∧ code ≤ 5
        (v l = true ↔ floatCondition t code a b) ∧ (invalid → fl l = flagIE) ∧ (¬invalid → fl l = 0)

/-- FDIV, FRCP, FSQRT and FRSQ are correctly rounded with the special results of R227. FEXP2, FLOG2, FSINP, FCOSP and
FTANH complete on every operand, with the special results of R227 and with the exact value where it is a rational that
the argument shows: a power of two, its logarithm, and the sine or cosine of a multiple of a right angle. A result
that no enclosure decides is free (entry 9). -/
def Obligations.DivisionAndFunctions : Prop :=
  let all (_ : RForm) : Prop := True
  let each (f : RForm) (R : FloatFmt → Nat → Rounded → Prop) (x w : Word) (fl : Flags) : Prop :=
    FloatElements (formatOf f).width (fun e r => R (encodingOf f) (elemAt (formatOf f).width x e) r) w fl
  TwoFloats .fdiv all carries carries formatTag (fun f m x y w fl =>
    FloatElements (formatOf f).width (fun e r => DeliversQuotient (encodingOf f) m (modSat f.mod)
      ((encodingOf f).neg (elemAt (formatOf f).width x e) != (encodingOf f).neg (elemAt (formatOf f).width y e))
      ((element f x e).quotient (element f y e)) r) w fl) ∧
  OneFloat .frcp carries formatTag (fun f m x w fl => each f (fun t a r =>
    DeliversQuotient t m (modSat f.mod) (t.neg a) ((Quantity.exact false 1).quotient (t.quantity a)) r) x w fl) ∧
  OneFloat .fsqrt carries formatTag (fun f m x w fl => each f (fun t a r => Root t false m a r) x w fl) ∧
  OneFloat .frsq carries formatTag (fun f m x w fl => each f (fun t a r => Root t true m a r) x w fl) ∧
  OneFloat .fexp2 carries formatTag (fun f m x w fl => each f (fun t a r => Propagates t a r ∧
    (t.Infinite a → r.bits = (if t.neg a then 0 else t.infBits) ∧ r.flags = 0) ∧
    ∀ n : Int, t.Finite a → t.rat a = n → t.RoundsTo m (modSat f.mod) (2 ^ n) r) x w fl) ∧
  OneFloat .flog2 carries formatTag (fun f m x w fl => each f (fun t a r => Propagates t a r ∧
    (t.Zero a → r.bits = t.signed true t.infBits ∧ r.flags = flagDZ) ∧
    (¬t.NaN a → ¬t.Zero a → t.neg a = true → r.bits = t.nan ∧ r.flags = flagIE) ∧
    (t.Infinite a → t.neg a = false → r.bits = t.infBits ∧ r.flags = 0) ∧
    ∀ n : Int, t.Finite a → t.neg a = false → t.rat a = 2 ^ n → Gives t m false (decide (n < 0)) n r) x w fl) ∧
  OneFloat .fsinp carries formatTag (fun f m x w fl => each f (fun t a r => Propagates t a r ∧
    (t.Infinite a → r.bits = t.nan ∧ r.flags = flagIE) ∧ (t.Zero a → r.bits = a ∧ r.flags = 0) ∧
    (∀ n : Int, t.Finite a → ¬t.Zero a → t.rat a = n → r.bits = t.signed (t.neg a) 0 ∧ r.flags = 0) ∧
    ∀ n : Int, t.Finite a → t.rat a = n + 1 / 2 →
      Gives t m false (decide (n % 2 = 1)) (if n % 2 = 1 then -1 else 1) r) x w fl) ∧
  OneFloat .fcosp carries formatTag (fun f m x w fl => each f (fun t a r => Propagates t a r ∧
    (t.Infinite a → r.bits = t.nan ∧ r.flags = flagIE) ∧
    (∀ n : Int, t.Finite a → t.rat a = n + 1 / 2 → r.bits = 0 ∧ r.flags = 0) ∧
    ∀ n : Int, t.Finite a → t.rat a = n →
      Gives t m false (decide (n % 2 = 1)) (if n % 2 = 1 then -1 else 1) r) x w fl) ∧
  OneFloat .ftanh carries formatTag (fun f m x w fl => each f (fun t a r => Propagates t a r ∧
    (t.Zero a → r.bits = a ∧ r.flags = 0) ∧
    (t.Infinite a → Gives t m false (t.neg a) (if t.neg a then -1 else 1) r)) x w fl)

/-- DWADD, DWADDS, DWMUL, DWMULS and DWNORM compute DF32 pairs by the algorithms of R229, with the special results and
the exceptions of R230. -/
def Obligations.DoubleWords : Prop :=
  DwPairs .dwadd DwSum ∧ DwSingles .dwadds DwSumSingle ∧ DwPairs .dwmul DwProduct ∧ DwSingles .dwmuls DwProductSingle ∧
  ∀ (h : Head) (f : RForm) (s : State) (p : Path) (s1 s2 : State) (x : Operand × Operand),
    Begins (.dwnorm h f) h f.len.bytes s p s1 s2 → s2.readPair p 0 f.a.toNat f.pa.toNat .dfh .dfl = .ok x →
    (s2.troupe p).checkDest p [f.d.toNat, f.d.toNat + 1] = .ok () →
    ∃ r, exec (.dwnorm h f) s = .next
        ((groupWritten s2 p f.d.toNat (dwPair r) (orFlags (p.active.lanes.map fun l => (r l).flags))).logUndo p.at_ s1) ∧
      ∀ l, p.active.has l = true → DwNormal (x.1.at l).toNat (x.2.at l).toNat (r l)

/-- VRSUM, VRMAX and VRMIN reduce the active lanes by the tree of R211 into every active lane; VRSUMC and VRDOTC reduce
pairs by the tree of R212 (R231). A lane that is not active neither gives nor receives, and a NaN is canonical even where
it is the only leaf (R201). -/
def Obligations.LaneReductions : Prop :=
  ReducesOne .vrsum (fun m sat a b r => f32.Delivers m sat ((f32.quantity a).sum m (f32.quantity b)) r) ∧
  ReducesOne .vrmax (fun _ _ => Selects f32 true) ∧ ReducesOne .vrmin (fun _ _ => Selects f32 false) ∧
  (∀ (h : Head) (f : RForm) (s : State) (p : Path) (s1 s2 : State) (x : Operand),
    Begins (.vrsumc h f) h f.len.bytes s p s1 s2 → f.sub.getLsbD 0 = false →
    s2.read1 p f.a.toNat f.pa.toNat (fun g => g == .f32) = .ok x →
    (s2.troupe p).checkDest p [f.d.toNat, f.d.toNat + 1] = .ok () →
    ∃ r, exec (.vrsumc h f) s = .next
        ((groupWritten (s2.popPorts p [f.a.toNat]) p f.d.toNat (dwPair fun _ => r) r.flags).logUndo p.at_ s1) ∧
      ReducesPairs (leaves p fun l => ((x.at l).toNat, 0)) (laneSum p fun l => f32.rat (x.at l).toNat)
        (p.active.lanes.any fun l => (f32.value (x.at l).toNat).isInf)
        (flagIf (p.active.lanes.any fun l => (f32.value (x.at l).toNat).isSnan) flagIE) r) ∧
  (∀ (h : Head) (f : RForm) (s : State) (p : Path) (s1 s2 : State) (x : Operand × Operand),
    Begins (.vrsumc h f) h f.len.bytes s p s1 s2 → f.sub.getLsbD 0 = true →
    s2.readPair p 0 f.a.toNat f.pa.toNat .dfh .dfl = .ok x →
    (s2.troupe p).checkDest p [f.d.toNat, f.d.toNat + 1] = .ok () →
    ∃ r, exec (.vrsumc h f) s = .next ((groupWritten s2 p f.d.toNat (dwPair fun _ => r) r.flags).logUndo p.at_ s1) ∧
      ReducesPairs (leaves p fun l => ((x.1.at l).toNat, (x.2.at l).toNat))
        (laneSum p fun l => pairRat (x.1.at l).toNat (x.2.at l).toNat)
        (p.active.lanes.any fun l => (f32.value (x.1.at l).toNat).isInf)
        (flagIf (p.active.lanes.any fun l =>
          (f32.value (x.1.at l).toNat).isSnan || (f32.value (x.2.at l).toNat).isSnan) flagIE) r) ∧
  ∀ (h : Head) (f : RForm) (s : State) (p : Path) (s1 s2 : State) (x y : Operand),
    Begins (.vrdotc h f) h f.len.bytes s p s1 s2 →
    s2.read2 p f.a.toNat f.pa.toNat (fun g => g == .f32) f.b.toNat f.pb.toNat (fun g => g == .f32) = .ok (x, y) →
    (s2.troupe p).checkDest p [f.d.toNat, f.d.toNat + 1] = .ok () →
    ∃ r, exec (.vrdotc h f) s = .next
        ((groupWritten (s2.popPorts p [f.a.toNat, f.b.toNat]) p f.d.toNat (dwPair fun _ => r) r.flags).logUndo p.at_ s1) ∧
      ∃ q : Nat → PairResult,
        (∀ l, p.active.has l = true → f32.DeliversPair 1 (f32.Finite (x.at l).toNat ∧ f32.Finite (y.at l).toNat)
          ((f32.quantity (x.at l).toNat).product (f32.quantity (y.at l).toNat)) (q l)) ∧
        ReducesPairs (leaves p fun l => ((q l).hi, (q l).lo))
          (laneSum p fun l => f32.rat (x.at l).toNat * f32.rat (y.at l).toNat)
          (p.active.lanes.any fun l => (f32.value (x.at l).toNat).isInf || (f32.value (y.at l).toNat).isInf)
          (orFlags (p.active.lanes.map fun l => (q l).flags &&& (flagIE ||| flagOE ||| flagXINEX))) r

/-- CVT converts to a floating format and CVTI to integers, element by element as R232 to R234 place them, saturating
(R204); PACK2 packs two converted values, or two clamped integers, and UNPK2 unpacks two elements (R235). -/
def Obligations.Conversions : Prop :=
  OneFloat .cvt (fun f g => g == cvtFrom f) (fun f => (cvtTo f).tag) (fun f m x w fl =>
    FloatElements (cvtTo f).width (fun i r =>
      match comesFrom (elementsOf (cvtFrom f)) (32 / (cvtTo f).width) (f.sub.toNat / 32) i with
      | some e => (cvtTo f).fmt.Delivers m true (sourceQuantity (cvtFrom f) x e) r
      | none => r.bits = 0 ∧ r.flags = 0) w fl) ∧
  OneFloat .cvti carries (fun f => (elemType (f.sub.toNat / 4 % 8)).tag) (fun f m x w fl =>
    let ty := elemType (f.sub.toNat / 4 % 8)
    ∃ fs : Nat → Flags, fl = orFlags ((List.range (32 / ty.width)).map fs) ∧ ∀ i, i < 32 / ty.width →
      match comesFrom (elementsOf (formatTag f)) (32 / ty.width) (f.sub.toNat / 32) i with
      | some e => ToInteger m (least ty) (greatest ty) (sourceQuantity (formatTag f) x e) (ty.elem w i) (fs i)
      | none => ty.elem w i = 0 ∧ fs i = 0) ∧
  TwoFloats .pack2 (fun f => f.sub.toNat = 1 ∨ f.sub.toNat = 2) (fun _ g => g == .f32) (fun _ g => g == .f32)
    (fun f => (vfmt f.sub.toNat).tag) (fun f m x y w fl =>
      FloatElements 16 (fun e r => (vfmt f.sub.toNat).fmt.Delivers m true
        (f32.quantity (if e = 0 then x.toNat else y.toNat)) r) w fl) ∧
  TwoFloats .pack2 (fun f => f.sub.toNat = 6) (fun _ g => g == .i32) (fun _ g => g == .i32) (fun _ => .i16x2)
    (fun _ _ x y w fl =>
      let clamp (v : Int) : Int := max (-32768) (min 32767 v)
      (w.extractLsb' 0 16).toInt = clamp x.toInt ∧ (w.extractLsb' 16 16).toInt = clamp y.toInt ∧
      fl = flagIf (decide (clamp x.toInt ≠ x.toInt) || decide (clamp y.toInt ≠ y.toInt)) flagSAT) ∧
  ∀ f : RForm,
    (f.sub.toNat = 1 ∨ f.sub.toNat = 2 → Unpacks f (vfmt f.sub.toNat).tag .f32 fun x e w fl =>
      f32.Delivers 1 true ((vfmt f.sub.toNat).fmt.quantity (elemAt 16 x e)) { bits := w.toNat, flags := fl }) ∧
    (f.sub.toNat = 3 → Unpacks f .i16x2 .i32 fun x e w fl => w.toInt = (x.extractLsb' (16 * e) 16).toInt ∧ fl = 0)

/-- CVTBX converts the registers A, A + 1, … of the active lanes of each block into its elements and its two exponents
(R208, R236), and CVTXB decodes them exactly (R207, R237). -/
def Obligations.BlockConversions : Prop :=
  (∀ (h : Head) (f : RForm) (s : State) (p : Path) (s1 s2 : State) (xs : List Operand),
    Begins (.cvtbx h f) h f.len.bytes s p s1 s2 →
    let four := f.sub.getLsbD 0
    let n := if four then 8 else 4
    let lanes := 32 / n
    s2.operandGroup p 0 f.a.toNat 0 (List.replicate n .f32) = .ok xs →
    (s2.troupe p).checkDest p [f.d.toNat, f.d.toNat + 1] = .ok () →
    ∃ v e fl, exec (.cvtbx h f) s = .next ((groupWritten s2 p f.d.toNat
        [(if four then .bx4x8 else .bx8x4, v), (.n32, e)] (orFlags (p.active.lanes.map fl))).logUndo p.at_ s1) ∧
      ∀ l, p.active.has l = true → ∃ e0 e1 b,
        BlockConverts four (2 * (f.sub.toNat / 2 % 4) + 2) (fun j =>
          let lane := l / lanes * lanes + j / n
          if p.active.has lane then some (f32.quantity ((xs.getD (j % n) { tag := .f32, lanes := [] }).at lane).toNat) else none)
          e0 e1 b (fl l) ∧
        (e l).toNat = e0 + 256 * e1 ∧
        ∀ i, i < n → elemAt lanes (v l) i = b (n * (l % lanes) + i)) ∧
  ∀ (h : Head) (f : RForm) (s : State) (p : Path) (s1 s2 : State) (x : Operand × Operand),
    Begins (.cvtxb h f) h f.len.bytes s p s1 s2 →
    let four := f.sub.getLsbD 0
    let n := if four then 8 else 4
    s2.readPair p 0 f.a.toNat f.pa.toNat (if four then .bx4x8 else .bx8x4) .n32 = .ok x →
    (s2.troupe p).checkDest p ((List.range n).map fun i => f.d.toNat + i) = .ok () →
    ∃ v : Nat → Nat → Word, exec (.cvtxb h f) s =
        .next ((groupWritten s2 p f.d.toNat ((List.range n).map fun i => (.f32, v i)) 0).logUndo p.at_ s1) ∧
      ∀ l i, p.active.has l = true → i < n →
        let b := elemAt (32 / n) (x.1.at l) i
        let m := b % (blockMax four + 1)
        let neg := b / (blockMax four + 1) % 2 = 1
        let e0 := elemAt 8 (x.2.at l) 0
        let e1 := elemAt 8 (x.2.at l) 1
        let e := if b / (2 * (blockMax four + 1)) % 2 = 1 then e1 else e0
        let value : Rat := m * 2 ^ ((e : Int) - blockT four)
        if e0 = 0xFF ∨ e1 = 0xFF then (v i l).toNat = f32.nan
        else if m = 0 then v i l = 0
        else f32.Finite (v i l).toNat ∧ f32.rat (v i l).toNat = if neg then -value else value

/-- The steps that make records ready and bring them back: LOAD_DATA_RETURN (R120, R121, R144), WAKE_TIME (R145),
TLB_FILL_COMPLETE (R242, R243), READ_BACK (R125, R126), RELAUNCH (R127, R128, R131), STREAM_FETCH_COMPLETE (R264) and
PUSH_TRANSLATION_RESTORED (R269). Each changes only what is named. What a wake time past 2^64 − 1 does is the model's
choice (entry 83). -/
def Obligations.CueSteps : Prop :=
  (∀ (s : State) (c rid : Nat) (r : CueRec), Has s c → s.opsPending c rid = false →
    ((s.core c).overLink rid = true → s.link.state = 2) →
    ((r ∈ (s.core c).cue → r.rid = rid → r.key = .data → r.ready = false →
      exec (.loadDataReturn c rid) s = .next (s.setCore c (withReady (s.core c) rid))) ∧
    ((∀ r ∈ (s.core c).cue, (r.rid = rid → r.key ≠ .data) ∧ r.key ≠ .deferred) →
      ∃ k, exec (.loadDataReturn c rid) s = .next (s.setCore c k) ∧ k.cue = (s.core c).cue ∧
        k.troupes = (s.core c).troupes.map fun t => { t with
          deferred := (t.deferred.map fun d => if d.rid = rid ∧ d.poison = none then { d with returned := true } else d).filter
            fun d => decide (d.lanes ≠ 0) }))) ∧
  (∀ (s : State) (c rid : Nat),
    s.opsPending c rid = true ∨ (s.core c).overLink rid = true ∧ s.link.state ≠ 2 →
    exec (.loadDataReturn c rid) s = .next s) ∧
  (∀ (s : State) (c rid n : Nat) (r : CueRec), Has s c →
    (s.core c).cue.find? (fun r => r.rid == rid && !r.ready) = some r → r.key = .time n →
    exec (.wakeTime c rid) s =
      .next ({ s with clock := BitVec.ofNat 64 (max s.clock.toNat n) }.setCore c (withReady (s.core c) rid))) ∧
  (∀ (s : State) (c : Nat) (va : DWord) (evict : Nat), Has s c → ∃ t, exec (.tlbFillComplete c va evict) s = .next t ∧
    t.dram = s.dram ∧ ∀ r ∈ (t.core c).cue, r.ready = false → r.halted = none → ¬awaitsPage r (va.toNat / 4096 * 4096)) ∧
  (∀ (s : State) (c : Nat) (good : Bool) (r : CueRec),
    (s.core c).firstQueued (fun r => r.spilled) = some r →
    (s.core c).cueUsed + (s.core c).sizeOf r / 64 ≤ Config.cueGranules →
    exec (.readBack c good) s = .next (if good = true ∧ s.wingsHold c r.wingsAt ((s.core c).sizeOf r) r.written = true then
        s.setCore c (withUnspilled (s.core c) r.rid)
      else s.report.blockFault c r.blk codePoison 2 false 0 0 0)) ∧
  (∀ (s : State) (c n : Nat) (r : CueRec) (t : Troupe), Has s c → s.relaunches c = true →
    (s.core c).queueHead = some r → (s.core c).troupe r.blk r.troupe = some t → r.spilled = false →
    (t.slot <|> (s.core c).freeSlot t.regs.length) = some n → (∀ x ∈ (s.core c).cue, r.mergesWith x = false) →
    let held := t.framed = true → t.frameSpilled = true → s.wingsHold c t.frameAt 1152 t.frameWritten = true
    let gone := s.setCore c (withoutRecord (s.core c) r.rid)
    (held → r.cancel = false → r.rewind = false → exec (.relaunch c) s = .next (gone.modCore c fun k =>
      (k.modTroupe r.blk r.troupe fun u => u.rejoin r.absorb n).modLog r.blk r.troupe fun u =>
        u.relaunch (s.debugs c r.blk) r.mask (t.rejoin r.bare n) (t.rejoin r.absorb n))) ∧
    (held → r.cancel = true → exec (.relaunch c) s = .next (gone.discardRecord c r.absorb)) ∧
    (¬held → exec (.relaunch c) s = .next (s.report.blockFault c r.blk codePoison 2 false 0 0 0))) ∧
  (∀ (s : State) (c n lane b i : Nat),
    let x := (s.core c).ctx n
    let y := x.lane lane
    let a := x.pat.offset x.kbase lane (y.pos.toNat + y.ahead.length)
    let put (s : State) (e : Fetched) : State := s.modCore c fun k =>
      (k.modCtx n fun x => x.modLanes (Mask.one lane) fun _ y => { y with ahead := y.ahead ++ [e] }).wakePorts
    x.owner = some (b, i) → (s.core c).fetchesStop b = false → x.bound = true → x.write = false → lane < 64 →
    y.ahead.length < 8 → y.pos.toNat + y.ahead.length < x.pat.length.toNat →
    (∀ f, y.ahead.getLast? = some f → ∃ v scope, f = .value v scope) →
    (∀ e, s.elementPieces c b n lane a = .error e →
      exec (.streamFetchComplete c n lane) s = .next (put s (.fault e.code e.addr 0))) ∧
    ∀ hs, s.elementPieces c b n lane a = .ok hs →
      let r := s.fillElement c b n hs
      (∀ e, r.2.fetchElement c b n lane r.1 hs = some e → exec (.streamFetchComplete c n lane) s = .next (put r.2 e)) ∧
      (r.2.fetchElement c b n lane r.1 hs = none → exec (.streamFetchComplete c n lane) s = .next r.2)) ∧
  ∀ (s : State) (c n lane b i : Nat) (q : Push),
    let x := (s.core c).ctx n
    let filled := (s.fill c (s.ownerOf c b) q.addr.toNat oldestEntry).2
    x.owner = some (b, i) → (x.lane lane).waitingPush = some q →
    (∀ s', ((filled.core c).heldOf b x.troupe lane).filter (fun h => h.2.waiting) = [(n, q)] →
      filled.performPush c b x.troupe lane n q = (s', false, none) →
      exec (.pushTranslationRestored c n lane true) s =
        .next ((s'.modCore c fun k => k.settlePush n lane q false).modCore c fun k => k.finishClose n)) ∧
    exec (.pushTranslationRestored c n lane false) s =
      .next ((s.modCore c fun k => (k.settlePush n lane q false).finishClose n).blockFaultOf (s.elementRecord c b n lane)
        c b codePageFault 0 true 0 q.addr 0)

/-- The answers to delivered faults (R184, R186, R194), and pre-emption and the end of blocks (R187 to R191, R302, R359,
R366). What SAVE does with no room in the wings area, and by how much the prompter enlarges one, is the model's
choice (entries 46 and 88). -/
def Obligations.FaultAnswersAndPreemption : Prop := Claims.FaultAnswers ∧ Claims.PreemptionSteps

/-- SCRIPT_READ_COMPLETE reads the entry at the script position, and entries that were released unread (R434, R435). -/
def Claims.ScriptReads : Prop :=
  ∀ (s : State) (c b : Nat),
    (((s.core c).block b = none ∨ ∃ k, (s.core c).block b = some k ∧ k.scripted = false ∧ k.relq = []) →
      exec (.scriptReadComplete c b) s = .next s) ∧
    ∀ (k : Block) (x : Xlate), Has s c → (s.core c).block b = some k →
      (k.scripted = true → (∀ r ∈ k.relq, r.entry.isSome = true) → k.ahead.lookup k.pos = none →
        Mapped s c (s.ownerOf c b) (k.entryAddr k.pos).toNat x → s.poisonAt x (k.entryAddr k.pos).toNat 32 = none →
        ∃ t y, exec (.scriptReadComplete c b) s = .next t ∧ t.dram = s.dram ∧ (t.core c).mem = (s.core c).mem ∧
          (t.core c).block b = some y ∧ y.pos = k.pos ∧ y.relq = k.relq ∧
          y.ahead.lookup k.pos = some (.bytes (s.readThrough x (k.entryAddr k.pos).toNat 32))) ∧
      ∀ (r : Released) (rest : List Released), k.relq = r :: rest → r.entry = none → r.failed = false →
        (∀ q ∈ rest, q.entry.isSome = true) → k.scripted = false →
        Mapped s c (s.ownerOf c b) r.addr.toNat x → s.poisonAt x r.addr.toNat 32 = none →
        let e := ScriptEntry.read (s.readThrough x r.addr.toNat 32)
        e.check k (s.core c).mem = none →
        ∃ t y, exec (.scriptReadComplete c b) s = .next t ∧ t.dram = s.dram ∧ (t.core c).mem = (s.core c).mem ∧
          (t.core c).block b = some y ∧ y.relq = { r with entry := some e } :: rest

/-- COPY_START makes the entry that is next in turn a copy in flight, in the lowest free copy entry (R285, R15). -/
def Claims.CopyStarts : Prop :=
  (∀ (s : State) (c b : Nat), s.nextStart c ≠ some b → exec (.copyStart c b) s = .next s) ∧
  ∀ (s : State) (c b n : Nat) (k : Block) (r : Released) (e : ScriptEntry), Has s c → s.nextStart c = some b →
    (s.core c).block b = some k → k.relq.head? = some r → r.entry = some e →
    (s.core c).copies.findIdx? (fun o => o.isNone) = some n →
    ∃ t x, exec (.copyStart c b) s = .next t ∧ t.dram = s.dram ∧ (t.core c).mem = (s.core c).mem ∧
      (t.core c).block b = some { k with relq := k.relq.tail } ∧ (t.core c).copy n = some x ∧
      (∀ i, i ≠ n → (t.core c).copy i = (s.core c).copy i) ∧
      x.blk = b ∧ x.entry = e ∧ x.fmode = r.fmode ∧ x.order = (s.core c).copyOrder ∧
      (s.cachedRecord c (s.ownerOf c b).1 e.recAddr.toNat = none →
        x.record = none ∧ x.flag = none ∧ x.locks = (e.provisional k (s.core c).mem).locks)

/-- RECORD_OBTAINED checks the record that the cache or memory holds: the copy ends with the flag of the first check that
fails, or its regions become exact; and a G2L.DEC takes its counter (R290, R291, R301). -/
def Claims.RecordObtained : Prop :=
  ∀ (s : State) (c n : Nat) (x : Copy) (k : Block) (bs : List Byte), Has s c → (s.core c).copy n = some x →
    (s.core c).block x.blk = some k → x.record = none → x.flag = none → x.known = none → (s.core c).decHeld x = false →
    let own := s.ownerOf c x.blk
    let a := x.entry.recAddr.toNat
    (s.cachedRecord c own.1 a = some bs ∨ s.cachedRecord c own.1 a = none ∧
      ∃ y, Mapped s c own a y ∧ s.poisonAt y a 64 = none ∧ bs = s.readThrough y a 64) →
    let q := (s.core c).keyOf x.entry
    let g := x.entry.regions k (s.core c).mem (Shape.read bs)
    ∃ t y, exec (.recordObtained c n) s = .next t ∧ t.dram = s.dram ∧ (t.core c).mem = (s.core c).mem ∧
      (t.core c).copy n = some y ∧
      (∀ f, x.entry.recordFlag k (s.core c).mem bs = some f → y = { x with flag := some f, locks := [], globals := [] }) ∧
      (x.entry.recordFlag k (s.core c).mem bs = none →
        (x.entry.op ≠ 4 → y = { x with record := some bs, locks := g.locks, globals := g.globals }) ∧
        (x.entry.op = 4 → q.refuses own = true → y = { x with flag := some flagOwner, locks := [], globals := [] } ∧
          (t.core c).keys = (s.core c).keys) ∧
        (x.entry.op = 4 → q.refuses own = false →
          y = { x with record := some bs, locks := g.locks, globals := g.globals, iv := some (q.salt, q.ctr, q.key) } ∧
          (t.core c).keys = (s.core c).keys.set (x.entry.key.toNat % 64) { q with ctr := q.ctr + 1 }))

/-- COPY_COMPLETE: a copy that ended at its checks sends its flag and moves nothing; one whose record describes no element
sends 0 bytes; a plain copy from memory to the window whose pages are translated writes its bytes and sends their number
(R287, R290, R293, R295); it waits while an older command holds its sectors (R13, R285). -/
def Claims.CopyCompletes : Prop :=
  (∀ (s : State) (c n : Nat) (x : Copy) (f : Nat), (s.core c).copy n = some x → x.record = none → x.flag = some f →
    exec (.copyComplete c n) s = .next (s.finishCopy c n x (.copyFlag f))) ∧
  (∀ (s : State) (c n : Nat) (x : Copy) (b : Block) (bs : List Byte), (s.core c).copy n = some x → x.record = some bs →
    (s.core c).block x.blk = some b → (Shape.read bs).count ≠ 0 →
    ((s.core c).boardHeld (.copy n) = true ∨ (s.core c).globalHeld x = true → exec (.copyComplete c n) s = .next s) ∧
    ((s.core c).boardHeld (.copy n) = false → (s.core c).globalHeld x = false →
      exec (.copyComplete c n) s = .next (s.performCopy
        { core := c, x := x, sh := Shape.read bs, b := b, lo := x.entry.start b (s.core c).mem } n))) ∧
  (∀ (s : State) (c n : Nat) (x : Copy) (b : Block) (bs : List Byte), Has s c → x.entry.op ≠ 1 → x.entry.op ≠ 2 → x.entry.op ≠ 3 → x.entry.op ≠ 4 →
    x.flag = none → x.orphan = false →
    let m : Move := { core := c, x := x, sh := Shape.read bs, b := b, lo := x.entry.start b (s.core c).mem }
    let r := s.engineViews c (s.ownerOf c x.blk) false (pagesOf m.remotes)
    (∀ v ∈ r.1, v.2 ≠ .refused ∧ v.2 ≠ .wait) → (∀ a ∈ m.remotes, (r.2.remoteByte r.1 a).isSome = true) →
    ∃ bs : List Byte, m.remotes.map (r.2.remoteByte r.1) = bs.map some ∧ s.performCopy m n =
      (r.2.setCore c { r.2.core c with mem := (r.2.core c).mem.writeCells (m.locals.zip bs) }).finishCopy c n x
        (.copyBytes (m.locals.zip bs).length false)) ∧
  ∀ (s : State) (c n : Nat) (x : Copy) (k : Block), HasObject s c x.blk (x.entry.sync.toNat % 64) k →
    (s.core c).copy n = some x → x.orphan = false → x.entry.sync.getLsbD 7 = false →
    (∀ f, f < 32 → x.record = none → x.flag = some f →
      ∃ t, exec (.copyComplete c n) s = .next t ∧ CopyEnded s t c n x k (s.core c).mem fun o => afterFlag o f) ∧
    ∀ bs, x.record = some bs →
      let sh := Shape.read bs
      (sh.count = 0 → ∃ t, exec (.copyComplete c n) s = .next t ∧ CopyEnded s t c n x k (s.core c).mem fun o => afterCopy o 0) ∧
      (sh.count ≠ 0 → x.flag = none → x.entry.op = 0 → (s.core c).boardHeld (.copy n) = false →
        let m : Move := { core := c, x := x, sh := sh, b := k, lo := x.entry.start k (s.core c).mem }
        ∀ y : Nat → Xlate, (∀ a ∈ m.remotes, Mapped s c (s.ownerOf c x.blk) (a / 4096 * 4096) (y (a / 4096 * 4096)) ∧
          s.poisonAt (y (a / 4096 * 4096)) a 1 = none) →
        let cells := m.locals.zip (m.remotes.map fun a => (s.space (y (a / 4096 * 4096))).read ((y (a / 4096 * 4096)).addr a))
        ∃ t, exec (.copyComplete c n) s = .next t ∧
          CopyEnded s t c n x k ((s.core c).mem.writeCells cells) fun o => afterCopy o cells.length)

/-- The matrix array's steps: MATRIX_START starts the first command that waits, when it may start, and scrubs the cells for
another owner (R323, R335); MATRIX_LAST_READ computes with the bytes of local memory, of which those that a thread has
stored since may be seen old or new (R17, entry 14), and makes the REL arrival; MATRIX_RETIRE writes the cells and
bytes and makes the arrival (R332, R334, R336, R349). -/
def Claims.MatrixSteps : Prop :=
  (∀ (s : State) (n : Nat), ((s.pair n).queue.find? (fun x => !x.started) = none → exec (.matrixStart n) s = .next s) ∧
    ∀ x, (s.pair n).queue.find? (fun x => !x.started) = some x → exec (.matrixStart n) s = .next (
      if s.matrixReady n x = true then
        { s with pairs := s.pairs.set n (withCmd (scrubbed (s.pair n) x) x.id fun y => { y with started := true }) }
      else s)) ∧
  (∀ (s : State) (n : Nat) (x : MatCmd), (s.pair n).queue.find? (fun x => x.started && !x.lastRead) = some x →
    ∃ m : Memory, (x.raced = [] → m = (s.core x.core).mem) ∧
      ((s.core x.core).mem.wf = true → ∀ a, m.read a = (s.core x.core).mem.read a ∨
        ∃ c ∈ x.raced.flatten, c.1 = a ∧ (x.op.readFmt ≠ 5 → m.read a = c.2)) ∧
      let t := readDone s n x (x.result m (s.pair n).forward)
      let u := match x.rel with
        | some (j, i) => if x.orphan = true then t else t.releaseSlot x.core x.blk j i
        | none => t
      exec (.matrixLastRead n) s = .next (if x.op.freesAtRead = true then
        u.modCore x.core fun k => { k with board := k.board.filter fun e => e.owner != .matrix x.id } else u)) ∧
  ∀ (s : State) (n : Nat) (x : MatCmd) (rest : List MatCmd), n < s.pairs.length → Has s x.core →
    (s.pair n).queue = x :: rest →
    (x.lastRead = false → exec (.matrixRetire n) s = .next s) ∧
    (x.lastRead = true →
      let m := if x.orphan then (s.core x.core).mem else (s.core x.core).mem.writeCells x.bytes
      ∃ t, exec (.matrixRetire n) s = .next t ∧ t.pair n = { s.pair n with
          queue := rest, cells := x.cells.foldl (fun m c => m.write c.1 c.2) (s.pair n).cells } ∧
        t.dram = s.dram ∧ (t.core x.core).board = (s.core x.core).board.filter (fun e => e.owner != .matrix x.id) ∧
        (x.arr = none ∨ x.orphan = true → t.core x.core = { s.core x.core with
          mem := m, board := (s.core x.core).board.filter fun e => e.owner != .matrix x.id }) ∧
        ∀ b k, x.arr = some b → x.orphan = false → HasObject s x.core x.blk b k →
          BarObj.read (t.core x.core).mem (k.base + 16 * b) =
            afterRetire (BarObj.read m (k.base + 16 * b)) (x.op.isStore && x.status.getLsbD 0))

/-- The copy engine's and the matrix array's own steps: SCRIPT_READ_COMPLETE (R434), COPY_START (R285), RECORD_OBTAINED
(R290 to R292), COPY_COMPLETE (R293), MATRIX_START, MATRIX_LAST_READ and MATRIX_RETIRE (R334 to R336). Each completes on the
conditions on the state that its part names. That a copy moves its data in one step is the model's choice (entry 14). -/
def Obligations.EngineSteps : Prop :=
  Claims.ScriptReads ∧ Claims.CopyStarts ∧ Claims.RecordObtained ∧ Claims.CopyCompletes ∧ Claims.MatrixSteps

/-- The front end: DMWR_SUBMIT accepts a record or only completes as R352 says, WINDOW_POSTED_WRITE is reported (R352), QUEUE_HEAD_PASS
discards, refuses or passes the head of a queue (R353, R355, R357, R360), CANCEL_REGISTER_WRITE presents a cancel and
CANCEL takes the oldest (R354, R367), FINAL_UPDATE and SECOND_UPDATE write the completion object (R359, R362). -/
def Obligations.FrontEnd : Prop :=
  (∀ (s : State) (vf q off : Nat) (bs : List Byte),
    let n := (vf - 1) * 8 + q % 8
    let sound := 1 ≤ vf ∧ vf ≤ 8 ∧ bs.length = 64 ∧ off % 64 = 0 ∧ (s.part (n / 8)).en = true
    let takes := (s.part (n / 8)).quiesced = false ∧ (s.sched.queue n).recs.length < 64
    (sound → takes → exec (.dmwrSubmit vf q off bs) s = .next { s.accept n bs with reply := .success [] }) ∧
    (sound → ¬takes → exec (.dmwrSubmit vf q off bs) s = .next { s with reply := .retry }) ∧
    (¬sound → exec (.dmwrSubmit vf q off bs) s = .next { s with reply := .unsupported })) ∧
  (∀ (s : State) (vf q : Nat), exec (.windowPostedWrite vf q) s = .next { s with aer := s.aer + 1 }) ∧
  (∀ (s : State) (n : Nat) (r : QRec) (rest : List QRec), (s.sched.queue n).recs = r :: rest → r.passed = false →
    (recField r 60 1 ≠ launchCheck r.bytes →
      exec (.queueHeadPass n) s = .next { (s.modQueue n fun q => { q with recs := q.recs.tail }) with aer := s.aer + 1 }) ∧
    (recField r 60 1 = launchCheck r.bytes →
      (recField r 44 4 = 0 ∨ ∀ j ∈ s.jobsOf (n / 8), j.job ≠ recField r 44 4) → (s.jobsOf (n / 8)).length < 2048 →
      (∀ d, s.refuse n r = none → r.desc = some d → exec (.queueHeadPass n) s =
        .next ((s.modQueue n fun q => { q with recs := { r with passed := true } :: rest }).addLaunch
          (r.toLaunch d s.sched.nextLaunch n))) ∧
      ∀ k, s.refuse n r = some k → exec (.queueHeadPass n) s =
        .next ((completed (s.modQueue n fun q => { q with recs := q.recs.tail }) (recField r 32 8) (complBytes 3 0 0 0 k)).signal
          (n / 8 + 1) 9)) ∧
    (recField r 60 1 = launchCheck r.bytes →
      (recField r 44 4 ≠ 0 ∧ ∃ j ∈ s.jobsOf (n / 8), j.job = recField r 44 4) ∨ 2048 ≤ (s.jobsOf (n / 8)).length →
      exec (.queueHeadPass n) s = .next s)) ∧
  (∀ (s : State) (vf : Nat) (v : Word), 1 ≤ vf → vf ≤ 8 → v.getLsbD 16 = true → exec (.cancelRegisterWrite vf v) s =
    .next { s with sched := { s.sched with presented := s.sched.presented ++ [(vf - 1, v.toNat % 65536)] } }) ∧
  (∀ (s : State) (p g : Nat) (rest : List (Nat × Nat)), s.sched.presented = (p, g) :: rest →
    let u := { s with sched := { s.sched with presented := rest } }.cancelQueues p g
    exec .cancel s = .next (u.cancelLaunches ((u.sched.launches.filter fun l =>
      l.part == p && l.cgroup == g && l.bound && !l.final).map (·.id)))) ∧
  (∀ (s : State) (id : Nat) (l : Launch), s.launch id = some l → l.parent = none → l.bound = true → l.final = false →
    (∀ k ∈ s.kin id, k.ranges = [] ∧ k.blocks ≤ k.ended) → ∃ t, exec (.finalUpdate id) s = .next t ∧
      let provisional := l.il = 1 ∨ l.il = 3
      let done := ((s.kin id).map (·.done)).foldl (· + ·) 0
      let status := if l.failed then 4 else if (s.kin id).any (·.removed) then 2 else 1
      ∃ flag, (provisional → flag = 1) ∧ (¬provisional → flag = 0) ∧
        t.dram = (completed s l.compl.toNat (complBytes status flag done l.faults 0)).dram ∧
        t.sched.jobs = (s.sched.jobs.filter fun j => j.launch != id)) ∧
  ∀ (s : State) (id : Nat) (l : Launch), s.launch id = some l → l.final = true → (l.il = 1 ∨ l.il = 3) →
    (l.unscanned = [] ∨ l.scanFail = true) → ∃ t, exec (.secondUpdate id) s = .next t ∧
      t.dram = (completed s l.compl.toNat (complBytes (if l.failed then 4 else if (s.kin id).any (·.removed) then 2 else 1)
        (if l.scanFail then 2 else 0) (((s.kin id).map (·.done)).foldl (· + ·) 0) l.faults 0)).dram ∧
      t.sched.launches = s.sched.launches.filter fun x => !(s.family id).contains x.id

/-- From bind records to placed blocks: BIND, DRAIN, REPRIORITISE and CORE_ROW_BIND take a record that passes its checks,
and report any other (R361, R362, R365); DRAIN_POSITION_WRITE and CONSISTENT_CUT (R365, R366); WORK_REQUEST serves the
core that is next (R363, R364); BLOCK_PLACE and BLOCK_RETRY_PLACE place a block (R108, R392); FETCHW_SERVICE writes the
mailbox and makes the record ready (R373); WATCHDOG raises its fault once (R371). That a block waiting for its retry
placement stands in a drained position is the model's choice (entry 87). -/
def Obligations.PlacementSteps : Prop :=
  (∀ (s : State) (n : Nat) (rec : BitVec 128) (l : Launch),
    let r := BindRec.read rec
    s.waitingLaunch n r.seq = some l → s.bindOk r 0 n l = true → s.namesUnderstudy r.clmask r.coremask = false →
    (l.il < 2 ∨ s.verifiedFor l r.clmask = true) → s.isHead n r.seq = true → s.family l.id = [l.id] →
    s.blocksOf [l.id] = [] →
    exec (.bind n rec) s = .next (uncached r.clmask r.coremask
      (withRow (withLaunch (s.modQueue n fun q => { q with recs := q.recs.tail }) l.id fun x =>
        { x with ranges := unowned x, bound := true, draining := none, prio := r.prio, clmask := r.clmask, coremask := r.coremask }) n rec))) ∧
  (∀ (s : State) (n : Nat) (rec : BitVec 128), s.waitingLaunch n (BindRec.read rec).seq = none →
    s.boundLaunch n (BindRec.read rec).seq = none → exec (.bind n rec) s = .next s.report ∧
    exec (.reprioritise n rec) s = .next s.report ∧ ∀ a, exec (.drain n rec a) s = .next s.report) ∧
  (∀ (s : State) (n : Nat) (rec : BitVec 128) (addr : DWord) (l : Launch),
    s.boundLaunch n (BindRec.read rec).seq = some l →
    (s.bindOk (BindRec.read rec) 1 n l = true → exec (.drain n rec addr) s =
      .next (withRow (withLaunch s l.id fun x => { x with draining := some addr }) n rec)) ∧
    (s.bindOk (BindRec.read rec) 2 n l = true → exec (.reprioritise n rec) s =
      .next (withRow (s.setPrio (s.family l.id) (BindRec.read rec).prio) n rec))) ∧
  (∀ (s : State) (c b : Nat) (rec : BitVec 128) (l : Launch),
    let r := BindRec.read rec
    s.boundLaunch r.queue r.seq = some l →
    (s.setOk r r.queue l = true → c < 128 → b < 8 → s.rowCore c l = true →
      exec (.coreRowBind c b rec) s = .next { s with sched := { s.sched with
        coreRows := (s.sched.coreRows.filter fun x => !(x.1 == c && x.2.1 == b)) ++ [(c, b, rec)] } }) ∧
    (s.partOf (c / 8) ≠ some l.part ∨ c / 8 % 2 = 1 ∧ (s.checkedPair (c / 16)).checked = true ∨ 128 ≤ c ∨ 8 ≤ b ∨
      2 ≤ l.il ∧ (s.checkedPair (c / 16)).checked = false → exec (.coreRowBind c b rec) s = .next s.report)) ∧
  (∀ (s : State) (id : Nat) (l : Launch) (a : DWord), s.launch id = some l → l.draining = some a → s.anyPlaced id = false →
    l.cut = none → exec (.drainPositionWrite id) s = .next (s.devWrite a.toNat (s.positionBytes id))) ∧
  (∀ (s : State) (id : Nat) (l : Launch), s.launch id = some l → l.cutAllowed = true → l.bound = true → l.final = false →
    l.parent = none → l.cut = none → ∃ t n, exec (.consistentCut id) s = .next t ∧
      (∀ u ∈ s.troupesOf id, u.step.toNat < n) ∧
      t = withFamily s id fun x => { x with cut := some n }) ∧
  (∀ (s : State) (c : Nat), s.nextAsker = some c → s.asks c = true →
    ∃ t, exec (.workRequest c) s = .next t ∧ t.sched.lastServed = c ∧
    t.cores = s.cores ∧ t.dram = s.dram ∧
    ∀ l r, bestOffer ((s.candidatesFor c).filter fun l => (l.owned c).isNone && (s.fits c l).isSome && !s.stopped l) c =
        some (l, r) → t.sched.launches = s.sched.launches.map fun x =>
          if x.id = l.id then { x with ranges := splitRange x.ranges r c } else x) ∧
  (∀ (s : State) (c b base : Nat) (l : Launch) (r : BlockRange), (s.core c).hasReady = false → s.nextRetry c = none →
    s.placing c = some (l, r, b, base) → exec (.blockPlace c) s =
      .next ((withLaunch s l.id fun x => { x with ranges := takeLow x.ranges r }).place c l r.lo b base false)) ∧
  (∀ (s : State) (c id index b base : Nat) (rest : List (Nat × Nat)) (l : Launch),
    (s.core c).retryPlace = (id, index) :: rest → s.launch id = some l → s.stopped l = false → s.fits c l = some (b, base) →
    s.inSet l c = true →
    exec (.blockRetryPlace c) s =
      .next ((s.setCore c { s.core c with retryPlace := rest }).place c l index b base true)) ∧
  (∀ (s : State) (c rid off : Nat) (r : CueRec) (k : Block) (l : Launch),
    (s.core c).cue.find? (fun r => r.rid == rid && !r.ready) = some r → r.key = .mailbox off →
    (s.core c).block r.blk = some k → s.launchOf c r.blk = some l →
    let serves (t : State) (a : Nat ⊕ Nat) := exec (.fetchwService c rid) s = .next (t.writeMailbox c r.blk rid off k a)
    (l.cancelled = true → serves s (.inr 4)) ∧
    (l.cancelled = false → s.stopped l = true ∨ l.ranges = [] → serves s (.inr 2)) ∧
    (l.cancelled = false → s.stopped l = false → ∀ g, l.owned c = some g →
      serves (withLaunch s l.id fun x => { x with ranges := takeLow x.ranges g }) (.inl g.lo)) ∧
    (∀ a t, s.fetchAnswer c l = some (a, t) → serves t a) ∧
    (s.fetchAnswer c l = none → exec (.fetchwService c rid) s = .next s)) ∧
  ∀ (s : State) (c b i : Nat) (x : Block) (t : Troupe) (l : Launch), (s.core c).block b = some x →
    (s.core c).troupe b i = some t → s.launchOf c b = some l → l.deadline ≠ 0 → x.ending = false → t.watched = false →
    s.ageStands c x t = false → exec (.watchdog c b i) s =
      .next (({ s with clock := BitVec.ofNat 64 (max s.clock.toNat (t.placedAt + t.away + 3200 * l.deadline + 1)) }.modTroupe
        c b i fun t => { t with watched := true }).blockFault c b codeWatchdog (dispositionOf l codeWatchdog) false 0 0 0)

/-- Quench slots, scans and Sirip: rotation (R368, R384), SCAN_PASS, SCAN_FAIL and RESTORE_COMPLETE (R368, R370, R397),
requests and mode changes of checked pairs (R388, R389), mismatches (R385, R394), memory errors and channels (R393, R398,
R400), ageing (R399), injection (R401), FAULT_N and Sirip's own cores (R402), image registration (R381). What of the
two clusters one step compares, and the pace of a migration, are the model's choice (entries 74 and 89). -/
def Obligations.SiripSteps : Prop :=
  (∀ (s : State) (c : Nat), s.nextQuench = some c → s.noQuench = true → exec .quenchRotate s =
    .next { s.setService (s.together c) .drain with sched := { (s.setService (s.together c) .drain).sched with rotation := some c } }) ∧
  (∀ s : State, s.noQuench = true → s.nextQuench = none →
    exec .rotgapExpiry s = .next { s with sched := { s.sched with rotation := none } }) ∧
  (∀ (s : State) (c : Nat),
    (s.inState (s.together c) .drain = true →
      (∀ k ∈ s.together c, (s.core k).unplaced = true ∧ s.engineQuiet k .matrix = true) →
      exec (.quenchDrainDone c) s = .next (s.enterScan c)) ∧
    (s.inState (s.together c) .drain = true → (s.core ((s.together c).headD c)).preempt = none →
      exec (.quenchDrainTimeout c) s = .next ((s.setService (s.together c) .stop).modCore ((s.together c).headD c) fun k =>
        { k with preempt := k.preempt <|> some { cores := [(s.together c).headD c], thread := false, stream := false, copy := false, matrix := false, waitingRoom := false, held := [] } })) ∧
    (s.inState (s.together c) .scan = true → (∀ k ∈ s.together c, s.mustFail k = false) →
      exec (.scanPass c) s = .next ((s.settleRows (s.together c)).passScan (s.together c))) ∧
    (s.inState (s.together c) .scan = true → s.sirip.lockstepLost = false → ∀ (ls : List Nat) (laneOnly again : Bool),
      let u := (s.useFailing (s.together c)).markScanFail (s.together c)
      let lanes := (ls.filter fun l => l < 64).eraseDups
      (laneOnly = true → (u.core c).lanesRetired + lanes.length ≤ 2 → again = true → exec (.scanFail c ls laneOnly again) s =
        .next (((u.modCore c fun k => k.remap lanes).settleRows (s.together c)).passScan (s.together c))) ∧
      (laneOnly = false ∨ 2 < (u.core c).lanesRetired + lanes.length ∨ again = false →
        exec (.scanFail c ls laneOnly again) s = .next (u.retireTogether c))) ∧
    (s.inState (s.together c) .restore = true → exec (.restoreComplete c) s =
      .next (((s.together c).foldl (fun s c => if s.canRestore c then s.restoreCore c else s) s).setService (s.together c)
        .inService))) ∧
  (∀ (s : State) (v : DWord), exec (.siripqWrite v) s = .next (withSirip s fun q =>
    if 16 ≤ q.requests.length then { q with hostCount := q.hostCount + 1, hostOutcome := 2 }
    else { q with hostCount := q.hostCount + 1, hostOutcome := 0, requests := q.requests ++ [(v, .host (q.hostCount + 1).toNat)] })) ∧
  (∀ (s : State) (w : DWord) (asker : Asker) (rest : List (DWord × Asker)), s.sirip.requests = (w, asker) :: rest →
    s.siripFree w = true →
    let u := withSirip s fun q => { q with requests := rest }
    (u.refusesRequest w = false → exec .siripRequest s = .next (withPair u (requestPair w) fun p =>
      { p with changing := some (requestToChk w), named := requestLaunch w, asker := asker })) ∧
    (u.refusesRequest w = true → exec .siripRequest s =
      .next (((u.refuseChanged w).requestOutcome asker 1).logEvent 7 0 0xFF (2 * requestPair w) 0 0))) ∧
  (∀ (s : State) (k : Nat) (chk : Bool), (s.checkedPair k).changing = some chk → s.pairDrained k = true →
    s.sirip.lockstepLost = false → (∀ c ∈ pairCores k, ((s.pairClear k).core c).allSpilled = true) →
    ∃ t, exec (.pairDrainDone k) s = .next t ∧ t.cores = (s.pairClear k).cores ∧ t.pairs = (s.pairClear k).pairs ∧
      (k < s.sirip.pairs.length → (t.checkedPair k).checked = chk ∧ (t.checkedPair k).changing = none ∧
        (t.checkedPair k).verified = if chk then (s.checkedPair k).named else none)) ∧
  (∀ (s : State) (c b i : Nat) (t : Troupe), (s.core c).troupe b i = some t →
    (s.checkedCore c = false → exec (.matchWindowExpiry c b i) s = .next s) ∧
    (s.checkedCore c = true → exec (.matchWindowExpiry c b i) s = .next (s.mismatch c b
      ((s.firstGroup c t).map fun pc => { core := c, blk := b, troupe := i, lanes := t.group pc, pc := pc }) 0))) ∧
  (∀ (s : State) (k : Nat), k < s.sirip.pairs.length → (s.checkedPair k).lasting = true → s.pairDrained k = true →
    s.sirip.lockstepLost = false →
    (exec (.lastingScanComplete k false false) s = .next (withPair (s.logEvent 4 0 0xFF (2 * k) 0 0) k fun p =>
      { p with lasting := false, mismatches := [] })) ∧
    (∀ a b : Bool, a = true ∨ b = true → ∃ t, exec (.lastingScanComplete k a b) s = .next t ∧ t.sirip.faultN = true ∧
      (t.checkedPair k).checked = false ∧ (t.checkedPair k).lasting = false)) ∧
  (∀ (s : State) (c row : Nat), ∃ t, exec (.correctedError c row) s = .next t ∧
    t = { s with sirip := t.sirip, msix := t.msix, pend := t.pend } ∧
    (c, row, s.clock.toNat) ∈ t.sirip.corrected) ∧
  (∀ (s : State) (n c b : Nat),
    (∃ t, exec (.uncorrectableError (.memory n)) s = .next t ∧ n ∈ t.poison ∧ t.dram = s.dram ∧ t.cores = s.cores) ∧
    (s.checkedCore ((s.together c).headD c) = false → exec (.uncorrectableError (.coreSram c b)) s =
      .next ((s.logEvent 3 0 c (c / 8) 0 0).blockFault c b codePoison 2 false 0 0 0))) ∧
  (∀ (s : State) (n : Nat), n < 32 → s.sirip.failingChannel = none → n ∉ s.sirip.retiredChannels → s.sirip.lockstepLost = false →
    exec (.channelFailing n) s =
      .next ((withSirip s fun q => { q with failingChannel := some n }).logEvent 4 0 0xFF n 0 0).report) ∧
  (∀ (s : State) (n : Nat), s.sirip.failingChannel = some n → s.sirip.migration = none →
    exec .channelFreeAck s = .next (withSirip s fun q => { q with migration := some 0 })) ∧
  (∀ (s : State) (n a : Nat), s.sirip.failingChannel = some n → s.sirip.migration = some a → s.idleSlot = true →
    s.sirip.lockstepLost = false → exec .channelMigrationDone s = .next ((withSirip s fun q =>
      { q with failingChannel := none, migration := none, retiredChannels := q.retiredChannels ++ [n] }).logEvent 5 0 0xFF n 0 0)) ∧
  (∀ (s : State) (c m : Nat) (v : Word), v.getLsbD 0 = false → exec (.agemonSample c m v) s =
    .next (s.modCluster c fun x => { x with agemon := x.agemon.set m (v &&& 0xFFFFFF01) })) ∧
  (∀ (s : State) (c m : Nat) (v : Word), c < s.clusters.length → v.getLsbD 0 = true → ∃ t, exec (.agemonSample c m v) s = .next t ∧
    ((s.cluster c).supply < 550 → (s.cluster c).supply < (t.cluster c).supply ∧ (t.cluster c).supply ≤ 550) ∧
    (550 ≤ (s.cluster c).supply → (t.cluster c).failing = BitVec.allOnes 8)) ∧
  (∀ (s : State) (v : DWord), exec (.cinjWrite v) s = .next (withSirip s fun q => { q with cinj := v &&& 0xFFFFFFFFFFFF070F })) ∧
  (∀ (s : State) (c : Nat), exec (.injectArm c) s = .next (s.setCore c { s.core c with inject := true })) ∧
  (∀ (s : State) (v : Word), s.sirip.lockstepLost = false → ∃ t, exec (.siripackWrite v) s = .next t ∧
    t = withSirip s (fun _ => t.sirip) ∧ t.sirip.acked = v.toNat ∧
    (t.sirip.faultN = true ↔ s.sirip.faultN = true ∧ v.toNat < s.sirip.faultSeq)) ∧
  (∀ s : State, exec .siripLockstepError s =
    .next ((withSirip s fun q => { q with lockstepLost := true, faultN := true }).signal 0 2)) ∧
  ∀ (s : State) (a n : DWord) (code desc sign : Section),
    s.linkedImage a.toNat n.toNat = true → bitsOf (s.fileNat a.toNat 6 2) 1 1 = 1 →
    sectionOf (s.sections a.toNat) 1 = some code → sectionOf (s.sections a.toNat) 4 = some desc →
    sectionOf (s.sections a.toNat) 10 = some sign →
    let base := s.fileNat a.toNat 16 8
    let new := s.imageEntries a.toNat code desc
    (s.signatureOk a.toNat (s.sections a.toNat) sign = true → s.loadedSame a.toNat base code = true →
      s.loadedSame a.toNat base desc = true → s.sirip.signed.length + new.length ≤ 64 →
      exec (.registerImage a n) s = .next (withSirip s fun q => { q with signed := q.signed ++ new })) ∧
    (s.signatureOk a.toNat (s.sections a.toNat) sign = false ∨ 64 < s.sirip.signed.length + new.length →
      exec (.registerImage a n) s = .next s)

/-- The host's own steps: TIME_SLOT_WRITE and FRAME_BOUNDARY (R22), PARTITION_REG_WRITE (R419, R425), MERGE and SPLIT
(R421), KEYSET (R426), ATS_INVALIDATION (R246, R418), the answers to page requests (R416, R417), ATOMICOP_COMPLETION,
RECEIVED_ATOMICOP and HOST_MEMORY_REQUEST (R256, R412, R433), REGISTER_WRITE (R3, R413). Requests beyond what the
device supports, and the management core's writes, follow the model's choice (entries 91 and 92). -/
def Obligations.HostSteps : Prop :=
  (∀ (s : State) (i : Nat) (v : Byte), i < 64 →
    (ownersQuiet s i v → exec (.timeSlotWrite i v) s = .next { s with slotPending := s.slotPending ++ [(i, v &&& 0x0F)] }) ∧
    (¬ownersQuiet s i v → exec (.timeSlotWrite i v) s = .next s.report)) ∧
  (∀ s : State, s.reopening = [] → ∃ t, exec .frameBoundary s = .next t ∧ t = { s with slotPending := [], slotTab := t.slotTab } ∧
    (s.slotTab.length = 64 → ∀ i, i < 64 → t.slotTab.getD i 0 = s.slotNext i)) ∧
  (∀ (s : State) (a : Nat), s.reopening = [a] → a < s.parts.length → ∃ t, exec .frameBoundary s = .next t ∧ t.reopening = [] ∧
    t.mgmt = .done ∧ (t.part a).quiesced = false ∧ ∀ p, p ≠ a → t.part p = s.part p) ∧
  (∀ (s : State) (p off : Nat) (v : DWord) (q : Partition), (s.part p).write off v = some q →
    (p < 8 → (s.part p).en = false ∨ (s.part p).quiesced = true → (s.part p).tdi = .unlocked ∨ (s.part p).tdi = .error →
      partsSound (s.parts.set p q) = true → exec (.partitionRegWrite p off v) s = .next (withPart s p fun _ => q)) ∧
    ((s.part p).en = true ∧ (s.part p).quiesced = false ∨ (s.part p).tdi = .locked ∨ (s.part p).tdi = .run ∨
      partsSound (s.parts.set p q) = false → exec (.partitionRegWrite p off v) s = .next s.report)) ∧
  (∀ (s : State) (a b : Nat), a < b → b < 8 → s.parts.length = 8 → (s.part a).cllimit.toNat + 1 = (s.part b).clbase.toNat →
    bankCount (colourCount ((s.part a).colour ||| (s.part b).colour)) = true →
    (ready s a → ready s b → ∃ t, exec (.merge a b) s = .next t ∧ (t.part a).cllimit = (s.part b).cllimit ∧
      (t.part a).clbase = (s.part a).clbase ∧ (t.part a).colour = (s.part a).colour ||| (s.part b).colour ∧
      (t.part a).fbnd = rangeMask (s.part a).clbase.toNat (s.part b).cllimit.toNat ∧ (t.part a).quiesced = true ∧
      (t.part b).en = false ∧ (t.part b).clbase = 0 ∧ (t.part b).cllimit = 0 ∧ (t.part b).colour = 0 ∧ (t.part b).fbnd = 0 ∧
      (t.part b).proot = 0 ∧ (∀ p, p ≠ a → p ≠ b → t.part p = s.part p) ∧
      (∀ e ∈ t.dtc, e.part ≠ a ∧ e.part ≠ b) ∧ (∀ j ∈ t.sched.jobs, j.part ≠ b) ∧ t.dram = s.dram ∧ a ∈ t.reopening) ∧
    (¬(ready s a ∧ ready s b) → exec (.merge a b) s = .next (answered s .refused))) ∧
  (∀ (s : State) (a b first : Nat) (colour slots : DWord), a < 8 → b < 8 → a ≠ b → s.parts.length = 8 → first < 16 →
    (s.part a).clbase.toNat < first → first ≤ (s.part a).cllimit.toNat →
    colour &&& ~~~(s.part a).colour = 0 → bankCount (colourCount colour) = true →
    bankCount (colourCount ((s.part a).colour &&& ~~~colour)) = true →
    (∀ i, i < 64 → slots.getLsbD i = true → i ∈ s.slotsOf a) →
    (ready s a → (s.part b).en = false → ∃ t, exec (.split a b first colour slots) s = .next t ∧
      (t.part a).cllimit.toNat + 1 = first ∧ (t.part a).clbase = (s.part a).clbase ∧
      (t.part a).colour = (s.part a).colour &&& ~~~colour ∧
      (t.part b).en = true ∧ (t.part b).clbase.toNat = first ∧ (t.part b).cllimit = (s.part a).cllimit ∧ (t.part b).colour = colour ∧
      (∀ p, p ≠ a → p ≠ b → t.part p = s.part p) ∧ (∀ e ∈ t.dtc, e.part ≠ a) ∧ a ∈ t.reopening ∧ b ∈ t.reopening) ∧
    (¬ready s a → exec (.split a b first colour slots) s = .next (answered s .refused))) ∧
  (∀ (s : State) (vf c slot : Nat) (pasid : BitVec 20) (key : BitVec 256) (salt : Word) (ctr : DWord),
    (1 ≤ vf → vf ≤ 8 → slot < 64 → s.spdmSession = true → (s.part (vf - 1)).tdi = .run → c ∈ s.coresOf (vf - 1) →
      (∀ k ∈ s.cores, ∀ x ∈ k.keys, x.v = true → ¬(x.key = key ∧ x.salt = salt)) →
      exec (.keyset vf c slot pasid key salt ctr) s = .next
        (answered (withCore s c fun k =>
          { k with keys := k.keys.set slot ⟨true, BitVec.ofNat 3 (vf - 1), pasid, key, salt, ctr⟩ }) .done)) ∧
    ((s.part (vf - 1)).tdi ≠ .run ∨ c ∉ s.coresOf (vf - 1) ∨
      (∃ k ∈ s.cores, ∃ x ∈ k.keys, x.v = true ∧ x.key = key ∧ x.salt = salt) →
      exec (.keyset vf c slot pasid key salt ctr) s = .next (answered s .error))) ∧
  (∀ (s : State) (vf pasid va size : Nat), 1 ≤ vf → vf ≤ 8 → s.invals.length < 32 →
    ∃ t, exec (.atsInvalidation vf pasid va size) s = .next t ∧
    t.invals = s.invals ++ [{ vf := vf, pasid := pasid, va := va, size := size }] ∧
    shotDown t (vf - 1) pasid va size ∧ t.dram = s.dram ∧ t.sched = s.sched ∧ t.hostMem = s.hostMem ∧
    ∀ e ∈ s.dtc, covers e (vf - 1) pasid va size = false → e ∈ t.dtc) ∧
  (∀ (s : State) (i : Nat) (x : AtsAnswer), s.requestOf i = none →
    exec (.prgResponseSuccess i x) s = .next s ∧ exec (.prgResponseInvalid i) s = .next s) ∧
  (∀ (s : State) (i : Nat) (x : AtsAnswer) (q : PageRequest), s.requestOf i = some q → ∃ t, exec (.prgResponseSuccess i x) s = .next t ∧
    shotDown t q.part q.pasid q.va 4096 ∧ s.dram = t.dram ∧ s.sched = t.sched ∧ (∀ r ∈ t.pri, r.index ≠ i) ∧
    t.iommu = { x with part := q.part, pasid := q.pasid } :: s.iommu) ∧
  (∀ (s : State) (i : Nat) (q : PageRequest), s.requestOf i = some q → ∃ t, exec (.prgResponseInvalid i) s = .next t ∧
    t = (s.dropRequest i).pageFinal q) ∧
  (∀ s : State, ∃ t, exec .prgResponseFailure s = .next t ∧ t = (((s.pri.filter (·.sent)).foldl State.pageFinal
    { s with pri := s.pri.filter fun r => !r.sent, priStopped := true }).signal 0 5)) ∧
  (∀ s : State, ∃ t, exec .priReenable s = .next t ∧ t = { s with priStopped := false, pri := t.pri } ∧
    t.pri.map (·.index) = s.pri.map (·.index) ∧ ∀ r ∈ s.pri, r.sent = true → r ∈ t.pri) ∧
  (∀ (s : State) (c rid : Nat) (o : HostOp), s.hostOps.find? (fun o => o.core == c && o.rid == rid) = some o →
    let size := if o.w64 then 8 else 4
    let old := s.hostMem.readNat o.addr size
    let m := s.hostMem.writeNat o.addr size (atomNew o.op (8 * size) old o.value o.compare)
    exec (.atomicopCompletion c rid true) s = .next
      (withCore { s with hostOps := s.hostOps.erase o, hostMem := m } c fun k => k.giveOld rid o.lane old) ∧
    exec (.atomicopCompletion c rid false) s = .next (s.failOp o)) ∧
  (∀ (s : State) (vf : Nat), exec (.receivedAtomicop vf) s = .next { s with reply := .unsupported }) ∧
  (∀ (s : State) (vf : Nat) (a : DWord) (bs : List Byte),
    (∀ w, s.dramReady = false → exec (.hostMemoryRequest vf a w bs) s = .next s) ∧
    (s.dramReady = true → s.tripped = false → a.toNat + bs.length ≤ s.capacity →
      exec (.hostMemoryRequest vf a true bs) s = .next (s.devWrite a.toNat bs) ∧
      exec (.hostMemoryRequest vf a false bs) s =
        .next { s with reply := .success (s.dram.readBytes a.toNat bs.length) })) ∧
  ∀ (s : State) (f off : Nat) (v : DWord),
    (f = 0 → 0x8000 ≤ off → off < 0x9000 → exec (.registerWrite f off v) s = .next (s.setBar 0 off v)) ∧
    (f = 0 → off < 64 → exec (.registerWrite f off v) s = .next (s.logEvent 8 0 0xFF 0xFF (BitVec.ofNat 64 off) 0)) ∧
    (∀ q, 1 ≤ f → f ≤ 8 → q < 8 → off = 0x8100 + 8 * q → (s.part (f - 1)).tdi = .unlocked ∨ (s.part (f - 1)).tdi = .error →
      exec (.registerWrite f off v) s = .next (withQueue s (8 * (f - 1) + q) fun x => { x with qcfg := v &&& 0x800FFFFF })) ∧
    (∀ q, 1 ≤ f → f ≤ 8 → q < 8 → off = 0x8100 + 8 * q → (s.part (f - 1)).tdi = .locked ∨ (s.part (f - 1)).tdi = .run →
      exec (.registerWrite f off v) s = .next s) ∧
    (f = 9 → off = 0x3000 → s.sirip.requests.length < 16 →
      exec (.registerWrite f off v) s = .next (withSirip s fun q => { q with requests := q.requests ++ [(v, .mgmt)] })) ∧
    (f = 9 → 2 ^ 20 ≤ off → exec (.registerWrite f off v) s = .next (s.logEvent 8 0 0xFF 0xFF (BitVec.ofNat 64 off) 0))

/-- Confidential interfaces and attestation: UNSTREAMED_REQUEST, IDE_INTEGRITY_FAILURE, IDE_KM_KEY_PROG and K_SET_GO (R422),
TDI_LOCK, TDI_START and STOP_INTERFACE (R425), SPDM_CERT, SPDM_CHAL, SPDM_MEAS and SPDM_KEY_EX (R423, R424); and the
firmware slots: FIRMWARE_IMAGE_WRITE, PENDING_WRITE, ROLLBACK_CLEAR, MGMT_CORE_RESTART, HEARTBEAT and HEARTBEAT_TIMEOUT
(R427, R428, R430). When and where the handover structure is written is the model's choice (entry 90). -/
def Obligations.SecuritySteps : Prop :=
  (∀ (s : State) (vf : Nat), 1 ≤ vf → vf ≤ 8 →
    ((s.part (vf - 1)).tdi = .locked ∨ (s.part (vf - 1)).tdi = .run →
      exec (.unstreamedRequest vf) s = .next { s.tdiError (vf - 1) with reply := .unsupported }) ∧
    ((s.part (vf - 1)).tdi = .unlocked ∨ (s.part (vf - 1)).tdi = .error → exec (.unstreamedRequest vf) s = .next s) ∧
    exec (.ideIntegrityFailure vf) s = .next ({ s with aer := s.aer + 1 }.tdiError (vf - 1)) ∧
    ((s.part (vf - 1)).tdi = .unlocked → exec (.tdiLock vf) s = .next (withPart s (vf - 1) fun p => { p with tdi := .locked })) ∧
    ((s.part (vf - 1)).tdi ≠ .unlocked → exec (.tdiLock vf) s = .next s) ∧
    ((s.part (vf - 1)).tdi = .locked → exec (.tdiStart vf) s = .next (withPart s (vf - 1) fun p => { p with tdi := .run })) ∧
    ((s.part (vf - 1)).tdi ≠ .locked → exec (.tdiStart vf) s = .next s) ∧
    (∃ t, exec (.stopInterface vf) s = .next t ∧ t.parts = s.parts.set (vf - 1) { s.part (vf - 1) with tdi := .unlocked } ∧
      t.dram = s.dram ∧ t.sched = s.sched ∧ ∀ c ∈ s.coresOf (vf - 1), ∀ o ∈ (t.core c).owners, o = none) ∧
    (∀ keys : BitVec 256, (s.spdmSession = true → exec (.ideKmKeyProg vf keys) s =
        .next (withPart s (vf - 1) fun p => { p with ideNext := some keys })) ∧
      (s.spdmSession = false → exec (.ideKmKeyProg vf keys) s = .next s)) ∧
    (∀ k, (s.part (vf - 1)).ideNext = some k → exec (.kSetGo vf) s =
      .next (withPart s (vf - 1) fun p => { p with ideActive := some k, ideNext := none }))) ∧
  (∀ (s : State) (p : Nat), p < s.parts.length → ((s.tdiError p).part p).tdi = .error ∧
    ∀ k ∈ (s.tdiError p).cores, ∀ x ∈ k.keys, x.part.toNat = p → x.v = false) ∧
  (∀ (s : State) (n : Nat), s.spdmLeaf = n →
    exec .spdmCert s = .next { s with spdmReply := .certificates } ∧
    (n < 2 ^ 20 → exec .spdmChal s = .next { s with spdmStored := n + 1, spdmLeaf := n + 1, spdmReply := .signature n } ∧
      exec .spdmKeyEx s = .next { s with spdmStored := n + 1, spdmLeaf := n + 1, spdmReply := .keyExchange n, spdmSession := true }) ∧
    (2 ^ 20 ≤ n → exec .spdmChal s = .next { s with spdmReply := .error } ∧ exec .spdmKeyEx s = .next { s with spdmReply := .error })) ∧
  (∀ (s : State) (i : Nat),
    (i = 5 → exec (.spdmMeas i) s = .next (measures s [BitVec.ofNat 8 s.fw.active.toNat])) ∧
    (i = 6 → exec (.spdmMeas i) s = .next (measures s ((List.range 8).flatMap s.partBytes ++ s.slotTab))) ∧
    (1 ≤ i → i ≤ 4 → exec (.spdmMeas i) s = .next (measures s (Config.imageBytes i))) ∧
    (i = 0 ∨ 7 ≤ i → exec (.spdmMeas i) s = .next { s with spdmReply := .error })) ∧
  (∀ (s : State) (ok : Bool),
    (s.fw.active = 1 → exec (.firmwareImageWrite ok) s = .next (answered (withFw s fun f => { f with okB := ok }) (if ok then .done else .refused))) ∧
    (s.fw.active = 2 → exec (.firmwareImageWrite ok) s = .next (answered (withFw s fun f => { f with okA := ok }) (if ok then .done else .refused)))) ∧
  (∀ s : State,
    exec (.pendingWrite 0) s = .next (withFw s fun f => { f with try_ := 0, handed := false }) ∧
    exec (.pendingWrite 3) s = .next s ∧
    ∀ v : BitVec 2, v = 1 ∨ v = 2 →
      (s.dramReady = false → exec (.pendingWrite v) s = .next (withFw s fun f => { f with try_ := v })) ∧
      (s.dramReady = true → ∃ t, exec (.pendingWrite v) s = .next t ∧ t.fw = { s.fw with try_ := v, handed := true } ∧
        t.sched = s.sched ∧ (s.dram.wf = true → t.handoverHolds = true))) ∧
  (∀ s : State, exec .rollbackClear s = .next (withFw s fun f => { f with rollback := false })) ∧
  (∀ s : State,
    let named := if s.fw.try_ = 1 ∨ s.fw.try_ = 2 then s.fw.try_ else s.fw.active
    (s.fw.verifies named = true → exec .mgmtCoreRestart s = .next (withFw s fun f =>
      { f with try_ := 0, running := named, boots := f.boots + 1, hb := false })) ∧
    (s.fw.verifies named = false → exec .mgmtCoreRestart s = .next ((withFw s fun f =>
      { f with try_ := 0, running := otherSlot named, boots := f.boots + 1, hb := false, rollback := true }).signal 0 3)) ∧
    (s.fw.hb = false → s.fw.verifies named = true → exec .heartbeatTimeout s = .next ((withFw s fun f =>
      { f with try_ := 0, running := named, boots := f.boots + 1, hb := false, rollback := true }).signal 0 3))) ∧
  ∀ s : State, (s.fw.hb = false → s.fw.handed = false →
      exec .heartbeat s = .next ((withFw s fun f => { f with hb := true, active := f.running }).signal 0 3)) ∧
    (s.fw.hb = false → s.fw.handed = true →
      (s.handoverHolds = true → exec .heartbeat s =
        .next ((withFw s.takeOver fun f => { f with hb := true, active := f.running }).signal 0 3)) ∧
      (s.handoverHolds = false → exec .heartbeat s = .next s)) ∧
    (s.fw.hb = true → exec .heartbeat s = .next s ∧ exec .heartbeatTimeout s = .next s)

/-- The Berzin link: LINK_ENABLE, LINK_DISABLE, LINK_UP, LINK_TRAINING_TIMEOUT, LINK_RECOVERY, LINK_RECOVERY_TIMEOUT,
LINK_RECOVERY_COMPLETE and PEER_REQUEST (R371, R431); reset and power: PERST, POWER_LOSS, DRAM_CLEAR_COMPLETE,
THERMAL_STEP_DOWN and THERMAL_TRIP (R423, R427, R432, R433). -/
def Obligations.LinkAndReset : Prop :=
  (∀ s : State, s.link.en = false → exec .linkEnable s = .next (withLink s fun l => { l with en := true, state := 1 })) ∧
  (∀ s : State, s.link.en = true →
    exec .linkDisable s = .next (withLink s fun l => { l with en := false, state := 0, width := 0 })) ∧
  (∀ (s : State) (w : Nat), s.link.state = 1 → s.link.en = true → w = 1 ∨ w = 2 ∨ w = 4 →
    exec (.linkUp w) s = .next (withLink s fun l => { l with state := 2, width := w })) ∧
  (∀ s : State, s.link.state = 1 → exec .linkTrainingTimeout s = .next (withLink s fun l => { l with state := 4 })) ∧
  (∀ (s : State) (n : Nat), s.link.state = 2 → exec (.linkRecovery n) s =
    .next (withLink s fun l => { l with state := 3, replays := min (l.replays + n) 0xFFFF, since := s.clock.toNat })) ∧
  (∀ s : State, s.link.state = 3 →
    exec .linkRecoveryComplete s = .next (withLink s fun l => { l with state := 2 }) ∧
    ∃ t, exec .linkRecoveryTimeout s = .next t ∧ t.link.state = 4 ∧ t.link.width = 0 ∧ t.dram = s.dram) ∧
  (∀ (s : State) (a : DWord) (bs : List Byte),
    (∀ w, s.link.state ≠ 2 → exec (.peerRequest a w bs) s = .next s) ∧
    (s.link.state = 2 → s.dramReady = true → s.tripped = false → a.toNat + bs.length ≤ s.capacity →
      exec (.peerRequest a true bs) s = .next (s.devWrite a.toNat bs) ∧
      exec (.peerRequest a false bs) s = .next { s with reply := .success (s.dram.readBytes a.toNat bs.length) })) ∧
  (∀ s : State, exec .perst s = exec .powerLoss s ∧ ∃ t, exec .perst s = .next t ∧
    t.cores = State.reset.cores ∧ t.pairs = State.reset.pairs ∧ t.sched = State.reset.sched ∧ t.sirip = State.reset.sirip ∧
    t.parts = State.reset.parts ∧ t.dramReady = false ∧ t.clock = 0 ∧ t.tripped = false ∧ t.dtc = [] ∧ t.fw.active = s.fw.active ∧
    t.fw.try_ = 0 ∧ t.spdmStored = s.spdmStored ∧ t.spdmLeaf = s.spdmStored + 1024 ∧ t.hostMem = s.hostMem) ∧
  (∀ s : State, s.dramReady = false → ∃ t, exec .dramClearComplete s = .next t ∧ t = { s with dram := [], poison := [], dramReady := true } ∧
    ∀ a, t.dram.read a = 0) ∧
  (∀ s : State, exec .thermalStepDown s = .next { s with clockMhz := s.clockMhz - 200 }) ∧
  ∀ s : State, ∃ t, exec .thermalTrip s = .next t ∧ t.sirip.faultN = true ∧ t.tripped = true ∧ t.issuing = none ∧
    t.cores = s.cores ∧ t.dram = s.dram

/-- What reset leaves (R5, R22, R106, R323, R395, R419, R433, R434): every lane on the physical lane of its number, every
slot partition 0's, no block, no accumulator owner and every cell +0, the clock at zero, WINCFG at 0x0A23_03E8, partition
0 with every cluster and every colour, DRAM not yet open; and no memory lists a byte. -/
def Obligations.ResetValues : Prop :=
  let s := State.reset
  s.clock = 0 ∧ s.dramReady = false ∧ s.tripped = false ∧ s.issuing = none ∧ (∀ a, s.dram.read a = 0) ∧
  s.slotTab = List.replicate 64 0 ∧ s.sirip.wincfg = 0x0A2303E8 ∧
  (∀ c, c < 128 → (s.core c).laneMap = List.range 64 ∧ (s.core c).troupes = [] ∧ (s.core c).blocks = List.replicate 8 none ∧
    (s.core c).retired = false) ∧
  (∀ n, n < 64 → (s.pair n).owner = none ∧ ∀ k, (s.pair n).cells.read k = 0) ∧
  (s.part 0).en = true ∧ (s.part 0).clbase = 0 ∧ (s.part 0).cllimit = 15 ∧ (s.part 0).colour = BitVec.allOnes 64 ∧
  (∀ p, 1 ≤ p → p < 8 → (s.part p).en = false ∧ (s.part p).colour = 0) ∧ s.link.en = false ∧ s.link.state = 0 ∧
  s.sound = true

/-- A step runs the decoded instruction. With nothing on the agenda, the first core that can issue takes its path, a second
group of the cycle comes next, and the bytes at the path's address decide: the agent's turn is exec of the instruction
they decode to, or the fault of the decoder; a second group and a named core or event run in the same way, and an event
that something bars does nothing. What follows closes the step, and the clock advances by one (entry 1, the
model's choice). With checked pairs both clusters take their turn; where they agree, the leaders' turn stands (R385, entry
74). -/
def Obligations.StepRunsDecoded : Prop :=
  (∀ s : State, s.checkedPairs = [] →
    let w := s.noteHeld
    let runs (v : State) (q : Issue) : Prop :=
      (∀ i, v.fetched q.core q.pc = .ok i → step s = closed s (exec i { v.cacheCode q.core q.pc with cur := some q })) ∧
      (∀ f, v.fetched q.core q.pc = .error f → step s = closed s (.next ((v.cacheCode q.core q.pc).decodeStop q f)))
    let first (u : State) (q : Issue) : State :=
      { u.noteChoice q with agenda := (u.second q).toList.map Act.second ++ u.agenda }
    (∀ q, w.agenda = [] → w.issuing = some q → runs (first w q) q) ∧
    (∀ c rest q, w.agenda = .issue c :: rest → w.pick c = some q → runs (first { w with agenda := rest } q) q) ∧
    (∀ q r rest, w.agenda = .second q :: rest → w.remaining q = some r → runs { w with agenda := rest } r) ∧
    (∀ i rest, w.agenda = .event i :: rest → i.parts = none → let u : State := { w with agenda := rest }
      (u.barred i = false → step s = closed s (exec i { u with cur := none })) ∧
      (u.barred i = true → step s = closed s (.next u))) ∧
    (w.agenda = [] → w.issuing = none → step s = closed s (.next w)) ∧
    ((∀ k ∈ s.cores, k.preempt = none) → w = s)) ∧
  (∀ (s : State) (o : Host.Outcome State Fault Refusal) (t : State), closed s o = .next t ↔
    ∃ u, o = .next u ∧ t = (u.settled s).ticked s) ∧
  (∀ s u : State, ((u.settled s).ticked s).clock = (u.settled s).clock + 1) ∧
  (∀ s m t : State, s.checkedPairs ≠ [] → turn s.mirrored = .next m →
    turn { s with events := [], expected := some m.events, struck := none } = .next t →
    t.struck = none → m.struck = none → t.expected = some [] → s.leaders.flatMap (s.hashStruck m t) = [] →
    step s = .next (t.adopt m s)) ∧
  ∀ (s : State) (nbits w : Nat) (i : Instr), 0 < s.cores.length → s.dram.wf = true → decodeTableWord nbits w = some i →
    let u := s.withFetchWord nbits w
    ∃ q v, q.core = 0 ∧ q.lanes = BitVec.allOnes 64 ∧ v.cur = some q ∧ v.dram = u.dram ∧ step u = closed u (exec i v)

/-- Words written out from the encoding tables decode to the instruction they stand for, one or more of each format
(R28 to R43, R56 to R59). -/
def Obligations.DecodeWords : Prop :=
  decoded 8 0x00000000_00000001 = .ok (.nop noGuard { len := .l64 }) ∧
  decoded 8 0x04000180_28040181 = .ok (.fadd noGuard
    { len := .l64, d := 4, a := 5, b := 6, c := 0, sub := 0, la := false, lb := false, lc := false, mod := 1
      pa := 0, pb := 0, pc := 0 }) ∧
  decoded 8 0x03FFFF40_580A00C1 = .ok (.iaddi noGuard
    { len := .l64, d := 10, a := 11, la := false, sub := 0, mod := 0, imm := 0xFFFFFFFD }) ∧
  decoded 8 0x000023FF_FFF80035 = .ok (.loop noGuard
    { off := 0x3FFFFF8, ka := 8, cp := 0, cn := false, sub := 0, imm := 0 }) ∧
  decoded 12 0x00000010_00006080_08090242 = .ok (.ld noGuard
    { d := 9, a := 1, kb := 2, sub := 6, ord := 0, def_ := false, la := false, ch := 0, off := 16 }) ∧
  decoded 16 0x00000003_00000040_01000000_07F80283 = .ok (.scfg noGuard
    { d := 2040, a := 0, ka := 0, kb := 0, kc := 0, sub := 1, imm := 64, immB := 3 }) ∧
  decoded 8 0 = .error .illegal ∧ decode 28 (natToBytes 8 1) = .error .boundary

/-- Decode and encode agree: every well-formed instruction has words, and wherever they fit (R28, R31) they decode to it,
whatever follows them. -/
def Obligations.RoundTrip : Prop :=
  ∀ i : Instr, i.WellFormed → ∃ bs, encode i = some bs ∧
    ∀ (a : Nat) (rest : List Byte), a % 32 + bs.length ≤ 32 → decode a (bs ++ rest) = .ok i

/-- Every word has one meaning: what decodes is well formed, and its own words are the bytes it was decoded from (R30,
R59). -/
def Obligations.DecodedWords : Prop :=
  ∀ (a : Nat) (bytes : List Byte) (i : Instr), 16 ≤ bytes.length → decode a bytes = .ok i →
    i.WellFormed ∧ ∃ bs, encode i = some bs ∧ bytes.take bs.length = bs ∧ a % 32 + bs.length ≤ 32

/-- Every step keeps every memory and every accumulator store in its canonical form. -/
def Obligations.SoundKept : Prop :=
  ∀ s t : State, s.sound = true → step s = .next t → t.sound = true

/-- The frame of every thread instruction. A register outside the allocation raises REGBOUND before anything else of it
happens (R59). An instruction with E first takes the region-entry actions for every lane of the path: their last-read
marks are given up, %rec counts one, and REA takes the address (R176); a path that must stop there halts and the
instruction does not run (R184, R188). With no active lane it only goes on, marks its last reads and enters its
region (R33). FADD, LD, BRA, KADD and AWAIT stand for the formats. -/
def Obligations.InstructionFrame : Prop :=
  let framed (i : Instr) (h : Head) (len : Nat) : Prop :=
    ∀ (s : State) (q : Issue) (t : Troupe), s.cur = some q → (s.core q.core).troupe q.blk q.troupe = some t →
      (∀ r, regBoundOf i t.regs.length = some r →
        exec i s = .next (s.unselect.takeFault q len codeRegBound q.lanes 0 r none .none)) ∧
      ∀ s1 : State, regBoundOf i t.regs.length = none →
        (if h.e then s.unselect.regionEntry q = .ok s1 else s1 = s.unselect) →
        (h.e = true → s1.mustStop q = true →
          exec i s = .next ((s1.haltLanes q.core q.blk q.troupe q.lanes).killCancelled q.core q.blk)) ∧
        ((h.e = true → s1.mustStop q = false) →
          (∀ l, q.lanes.has l = true → ((s1.troupe (pathOf q len 0)).lane l).pred h.g.toNat = h.gn) →
          exec i s = .next ((s1.advance (pathOf q len 0)).markReads (pathOf q len 0) (lastReads i (s1.troupe (pathOf q len 0)) 0)))
  (∀ (h : Head) (f : RForm), framed (.fadd h f) h f.len.bytes) ∧ (∀ (h : Head) (f : MForm), framed (.ld h f) h 12) ∧
  (∀ (h : Head) (f : CForm), framed (.bra h f) h 8) ∧ (∀ (h : Head) (f : KForm), framed (.kadd h f) h 8) ∧
  (∀ (h : Head) (f : XForm), framed (.await h f) h 16) ∧
  ∀ (s s0 s1 : State) (q : Issue) (t : Troupe), s.performPushes q.core q.blk q.troupe q.lanes = .ok s0 →
    q.core < s0.cores.length → (s0.core q.core).troupe q.blk q.troupe = some t → s.regionEntry q = .ok s1 →
    ∃ u, (s1.core q.core).troupe q.blk q.troupe = some u ∧ u.recCount = t.recCount + 1 ∧
      (∀ l, l < t.lanes.length → u.lane l = if q.lanes.has l then { t.lane l with rea := q.pc } else t.lane l) ∧
      u.k = t.k ∧ u.c = t.c ∧ u.step = t.step ∧ u.fmode = t.fmode ∧ u.fstat = t.fstat ∧
      (t.marks = [] → u.regs = t.regs) ∧
      (∀ m ∈ t.marks, (∀ l, m.hold.has l = true → q.lanes.has l = true) → (u.reg m.reg).dead = true ∨ t.regs.length ≤ m.reg) ∧
      (∀ n ∈ (s0.core q.core).ctxsOf q.blk q.troupe, n < (s0.core q.core).ctxs.length → ∀ l, q.lanes.has l = true →
        l < ((s0.core q.core).ctx n).lanes.length →
        (((s1.core q.core).ctx n).lane l).ckpt = (((s0.core q.core).ctx n).lane l).pos ∧
        (((s1.core q.core).ctx n).lane l).pos = (((s0.core q.core).ctx n).lane l).pos) ∧
      (s1.core q.core).mem = (s0.core q.core).mem ∧ s1.dram = s0.dram

/-- The checks of R117, in its order, on the sources of a two-source instruction: DEADREAD, PENDREAD and TAGFAULT of A,
then of B, then PENDREAD of the destination (R116, R118, R119); the first failure is the fault, for all active lanes, and
nothing is written. When they pass, each lane has its operands through the permutations of R54. -/
def Obligations.OperandChecks : Prop :=
  ∀ (h : Head) (f : RForm) (s : State) (p : Path) (s1 s2 : State), Begins (.iadd h f) h f.len.bytes s p s1 s2 →
    isPort f.a.toNat = false → isPort f.b.toNat = false → isPort f.d.toNat = false →
    let t := s2.troupe p
    let fa := sourceFault t 0 f.a.toNat (typed f)
    let fb := sourceFault t 1 f.b.toNat (typed f)
    (∀ c n, fa = some (c, n) → Faults (.iadd h f) s p s1 c p.active 0 n) ∧
    (∀ c n, fa = none → fb = some (c, n) → Faults (.iadd h f) s p s1 c p.active 0 n) ∧
    (fa = none → fb = none → t.pending f.d.toNat = true → Faults (.iadd h f) s p s1 codePendRead p.active 0 f.d.toNat) ∧
    (fa = none → fb = none → ∃ x y, s2.read2 p f.a.toNat f.pa.toNat (typed f) f.b.toNat f.pb.toNat (typed f) = .ok (x, y) ∧
      x.tag = (t.reg f.a.toNat).tag ∧ y.tag = (t.reg f.b.toNat).tag ∧ ∀ l, l < 64 →
        x.at l = permutedTo t f.a.toNat f.pa.toNat l ∧ y.at l = permutedTo t f.b.toNat f.pb.toNat l)

/-- Taking a fault (R181, R182, R184): where the fault queue has room, one record is written with the fault's values, and
numbered by the arbiter. Under deliver the faulting lanes halt where they are, the block is halted until it is answered, and
no register changes; under kill the block's troupes and records are gone and the fault is counted. -/
def Obligations.FaultTaken : Prop :=
  ∀ (s : State) (q : Issue) (len code arg : Nat) (mask : Mask) (addr : DWord) (t : Troupe) (l : Launch) (k : Block),
    q.core < s.cores.length → (s.core q.core).troupe q.blk q.troupe = some t → s.launchOf q.core q.blk = some l →
    (s.core q.core).block q.blk = some k → s.faultRoom false = true → dispositionOf l code ≠ 1 →
    let u := s.takeFault q len code mask addr arg none .none
    (∃ r, u.faultQ = s.faultQ ++ [r] ∧ r.code = code ∧ r.ext = false ∧ r.multi = false ∧ r.checked = (t.role != 0) ∧
      r.resfail = false ∧ r.disp = dispositionOf l code ∧ r.core = q.core ∧ r.troupe = q.troupe ∧ r.recCount = t.recCount ∧
      r.entry = (t.lane mask.lowest).rea ∧ r.pc = q.pc ∧ r.mask = mask ∧ r.addr = addr ∧ r.block = k.index ∧ r.job = l.job ∧
      r.lane = mask.lowest ∧ r.port = none ∧ r.arg = arg ∧ r.seq = s.faultSeq ∧ r.check = checkWord (wordsOf r.body)) ∧
    u.faultSeq = (s.faultSeq + 1) % 2 ^ 32 ∧
    (dispositionOf l code = 0 →
      (∃ x, (u.core q.core).block q.blk = some x ∧ x.halted = true) ∧
      (∃ h ∈ u.halts, h.seq = s.faultSeq ∧ h.core = q.core ∧ h.blk = q.blk ∧ h.troupe = q.troupe ∧ h.mask = q.lanes ∧ h.code = code) ∧
      ∃ v, (u.core q.core).troupe q.blk q.troupe = some v ∧
        v = { t with lanes := v.lanes } ∧ ∀ n, n < t.lanes.length →
          v.lane n = if q.lanes.has n then { t.lane n with stopped := true } else t.lane n) ∧
    (dispositionOf l code = 2 →
      (∀ x ∈ (u.core q.core).troupes, x.blk ≠ q.blk) ∧ (∀ r ∈ (u.core q.core).cue, r.blk ≠ q.blk) ∧
      (∃ x, (u.core q.core).block q.blk = some x ∧ x.killed = true) ∧
      (code ≠ codeCancelled → ∀ g, s.launch (s.topLaunch l.id) = some g → ∃ g', u.launch (s.topLaunch l.id) = some g' ∧
        g'.faults = min (g.faults + 1) 0xFFFFFFFF))
end

