-- ==== Sys2Proof/Laws/State.lean ====
section
/-!
SUPPORT. What each basic update of the state leaves alone: one lemma for each field an update does not
touch, so that no proof unfolds a record update.
-/
namespace Sys2Proof.Machine

/-! ### Updates of the state -/


/-! ### `State.setCore` -/

@[simp] theorem State.setCore_clock (s : State) (c : Nat) (k : Core) : (s.setCore c k).clock = s.clock := rfl
@[simp] theorem State.setCore_dram (s : State) (c : Nat) (k : Core) : (s.setCore c k).dram = s.dram := rfl
@[simp] theorem State.setCore_dramReady (s : State) (c : Nat) (k : Core) : (s.setCore c k).dramReady = s.dramReady := rfl
@[simp] theorem State.setCore_hostMem (s : State) (c : Nat) (k : Core) : (s.setCore c k).hostMem = s.hostMem := rfl
@[simp] theorem State.setCore_peerMem (s : State) (c : Nat) (k : Core) : (s.setCore c k).peerMem = s.peerMem := rfl
@[simp] theorem State.setCore_poison (s : State) (c : Nat) (k : Core) : (s.setCore c k).poison = s.poison := rfl
@[simp] theorem State.setCore_iommu (s : State) (c : Nat) (k : Core) : (s.setCore c k).iommu = s.iommu := rfl
@[simp] theorem State.setCore_dtc (s : State) (c : Nat) (k : Core) : (s.setCore c k).dtc = s.dtc := rfl
@[simp] theorem State.setCore_invals (s : State) (c : Nat) (k : Core) : (s.setCore c k).invals = s.invals := rfl
@[simp] theorem State.setCore_invalAcks (s : State) (c : Nat) (k : Core) : (s.setCore c k).invalAcks = s.invalAcks := rfl
@[simp] theorem State.setCore_hostOps (s : State) (c : Nat) (k : Core) : (s.setCore c k).hostOps = s.hostOps := rfl
@[simp] theorem State.setCore_releases (s : State) (c : Nat) (k : Core) : (s.setCore c k).releases = s.releases := rfl
@[simp] theorem State.setCore_replay (s : State) (c : Nat) (k : Core) : (s.setCore c k).replay = s.replay := rfl
@[simp] theorem State.setCore_pri (s : State) (c : Nat) (k : Core) : (s.setCore c k).pri = s.pri := rfl
@[simp] theorem State.setCore_nextPri (s : State) (c : Nat) (k : Core) : (s.setCore c k).nextPri = s.nextPri := rfl
@[simp] theorem State.setCore_priStopped (s : State) (c : Nat) (k : Core) : (s.setCore c k).priStopped = s.priStopped := rfl
@[simp] theorem State.setCore_pairs (s : State) (c : Nat) (k : Core) : (s.setCore c k).pairs = s.pairs := rfl
@[simp] theorem State.setCore_clusters (s : State) (c : Nat) (k : Core) : (s.setCore c k).clusters = s.clusters := rfl
@[simp] theorem State.setCore_sched (s : State) (c : Nat) (k : Core) : (s.setCore c k).sched = s.sched := rfl
@[simp] theorem State.setCore_faultQ (s : State) (c : Nat) (k : Core) : (s.setCore c k).faultQ = s.faultQ := rfl
@[simp] theorem State.setCore_faultWait (s : State) (c : Nat) (k : Core) : (s.setCore c k).faultWait = s.faultWait := rfl
@[simp] theorem State.setCore_faultSeq (s : State) (c : Nat) (k : Core) : (s.setCore c k).faultSeq = s.faultSeq := rfl
@[simp] theorem State.setCore_halts (s : State) (c : Nat) (k : Core) : (s.setCore c k).halts = s.halts := rfl
@[simp] theorem State.setCore_sirip (s : State) (c : Nat) (k : Core) : (s.setCore c k).sirip = s.sirip := rfl
@[simp] theorem State.setCore_parts (s : State) (c : Nat) (k : Core) : (s.setCore c k).parts = s.parts := rfl
@[simp] theorem State.setCore_slotTab (s : State) (c : Nat) (k : Core) : (s.setCore c k).slotTab = s.slotTab := rfl
@[simp] theorem State.setCore_slotPending (s : State) (c : Nat) (k : Core) : (s.setCore c k).slotPending = s.slotPending := rfl
@[simp] theorem State.setCore_fw (s : State) (c : Nat) (k : Core) : (s.setCore c k).fw = s.fw := rfl
@[simp] theorem State.setCore_link (s : State) (c : Nat) (k : Core) : (s.setCore c k).link = s.link := rfl
@[simp] theorem State.setCore_spdmStored (s : State) (c : Nat) (k : Core) : (s.setCore c k).spdmStored = s.spdmStored := rfl
@[simp] theorem State.setCore_spdmLeaf (s : State) (c : Nat) (k : Core) : (s.setCore c k).spdmLeaf = s.spdmLeaf := rfl
@[simp] theorem State.setCore_spdmSession (s : State) (c : Nat) (k : Core) : (s.setCore c k).spdmSession = s.spdmSession := rfl
@[simp] theorem State.setCore_spdmReply (s : State) (c : Nat) (k : Core) : (s.setCore c k).spdmReply = s.spdmReply := rfl
@[simp] theorem State.setCore_pfIdeActive (s : State) (c : Nat) (k : Core) : (s.setCore c k).pfIdeActive = s.pfIdeActive := rfl
@[simp] theorem State.setCore_pfIdeNext (s : State) (c : Nat) (k : Core) : (s.setCore c k).pfIdeNext = s.pfIdeNext := rfl
@[simp] theorem State.setCore_mgmt (s : State) (c : Nat) (k : Core) : (s.setCore c k).mgmt = s.mgmt := rfl
@[simp] theorem State.setCore_reopening (s : State) (c : Nat) (k : Core) : (s.setCore c k).reopening = s.reopening := rfl
@[simp] theorem State.setCore_msix (s : State) (c : Nat) (k : Core) : (s.setCore c k).msix = s.msix := rfl
@[simp] theorem State.setCore_pend (s : State) (c : Nat) (k : Core) : (s.setCore c k).pend = s.pend := rfl
@[simp] theorem State.setCore_aer (s : State) (c : Nat) (k : Core) : (s.setCore c k).aer = s.aer := rfl
@[simp] theorem State.setCore_reply (s : State) (c : Nat) (k : Core) : (s.setCore c k).reply = s.reply := rfl
@[simp] theorem State.setCore_mgmtReports (s : State) (c : Nat) (k : Core) : (s.setCore c k).mgmtReports = s.mgmtReports := rfl
@[simp] theorem State.setCore_late (s : State) (c : Nat) (k : Core) : (s.setCore c k).late = s.late := rfl
@[simp] theorem State.setCore_clockMhz (s : State) (c : Nat) (k : Core) : (s.setCore c k).clockMhz = s.clockMhz := rfl
@[simp] theorem State.setCore_tripped (s : State) (c : Nat) (k : Core) : (s.setCore c k).tripped = s.tripped := rfl
@[simp] theorem State.setCore_bar (s : State) (c : Nat) (k : Core) : (s.setCore c k).bar = s.bar := rfl
@[simp] theorem State.setCore_agenda (s : State) (c : Nat) (k : Core) : (s.setCore c k).agenda = s.agenda := rfl
@[simp] theorem State.setCore_cur (s : State) (c : Nat) (k : Core) : (s.setCore c k).cur = s.cur := rfl
@[simp] theorem State.setCore_nextId (s : State) (c : Nat) (k : Core) : (s.setCore c k).nextId = s.nextId := rfl
@[simp] theorem State.setCore_fetchSeq (s : State) (c : Nat) (k : Core) : (s.setCore c k).fetchSeq = s.fetchSeq := rfl
@[simp] theorem State.setCore_events (s : State) (c : Nat) (k : Core) : (s.setCore c k).events = s.events := rfl
@[simp] theorem State.setCore_expected (s : State) (c : Nat) (k : Core) : (s.setCore c k).expected = s.expected := rfl
@[simp] theorem State.setCore_struck (s : State) (c : Nat) (k : Core) : (s.setCore c k).struck = s.struck := rfl

/-! ### `State.modCore` -/

@[simp] theorem State.modCore_clock (s : State) (c : Nat) (f : Core → Core) : (s.modCore c f).clock = s.clock := rfl
@[simp] theorem State.modCore_dram (s : State) (c : Nat) (f : Core → Core) : (s.modCore c f).dram = s.dram := rfl
@[simp] theorem State.modCore_dramReady (s : State) (c : Nat) (f : Core → Core) : (s.modCore c f).dramReady = s.dramReady := rfl
@[simp] theorem State.modCore_hostMem (s : State) (c : Nat) (f : Core → Core) : (s.modCore c f).hostMem = s.hostMem := rfl
@[simp] theorem State.modCore_peerMem (s : State) (c : Nat) (f : Core → Core) : (s.modCore c f).peerMem = s.peerMem := rfl
@[simp] theorem State.modCore_poison (s : State) (c : Nat) (f : Core → Core) : (s.modCore c f).poison = s.poison := rfl
@[simp] theorem State.modCore_iommu (s : State) (c : Nat) (f : Core → Core) : (s.modCore c f).iommu = s.iommu := rfl
@[simp] theorem State.modCore_dtc (s : State) (c : Nat) (f : Core → Core) : (s.modCore c f).dtc = s.dtc := rfl
@[simp] theorem State.modCore_invals (s : State) (c : Nat) (f : Core → Core) : (s.modCore c f).invals = s.invals := rfl
@[simp] theorem State.modCore_invalAcks (s : State) (c : Nat) (f : Core → Core) : (s.modCore c f).invalAcks = s.invalAcks := rfl
@[simp] theorem State.modCore_hostOps (s : State) (c : Nat) (f : Core → Core) : (s.modCore c f).hostOps = s.hostOps := rfl
@[simp] theorem State.modCore_releases (s : State) (c : Nat) (f : Core → Core) : (s.modCore c f).releases = s.releases := rfl
@[simp] theorem State.modCore_replay (s : State) (c : Nat) (f : Core → Core) : (s.modCore c f).replay = s.replay := rfl
@[simp] theorem State.modCore_pri (s : State) (c : Nat) (f : Core → Core) : (s.modCore c f).pri = s.pri := rfl
@[simp] theorem State.modCore_nextPri (s : State) (c : Nat) (f : Core → Core) : (s.modCore c f).nextPri = s.nextPri := rfl
@[simp] theorem State.modCore_priStopped (s : State) (c : Nat) (f : Core → Core) : (s.modCore c f).priStopped = s.priStopped := rfl
@[simp] theorem State.modCore_pairs (s : State) (c : Nat) (f : Core → Core) : (s.modCore c f).pairs = s.pairs := rfl
@[simp] theorem State.modCore_clusters (s : State) (c : Nat) (f : Core → Core) : (s.modCore c f).clusters = s.clusters := rfl
@[simp] theorem State.modCore_sched (s : State) (c : Nat) (f : Core → Core) : (s.modCore c f).sched = s.sched := rfl
@[simp] theorem State.modCore_faultQ (s : State) (c : Nat) (f : Core → Core) : (s.modCore c f).faultQ = s.faultQ := rfl
@[simp] theorem State.modCore_faultWait (s : State) (c : Nat) (f : Core → Core) : (s.modCore c f).faultWait = s.faultWait := rfl
@[simp] theorem State.modCore_faultSeq (s : State) (c : Nat) (f : Core → Core) : (s.modCore c f).faultSeq = s.faultSeq := rfl
@[simp] theorem State.modCore_halts (s : State) (c : Nat) (f : Core → Core) : (s.modCore c f).halts = s.halts := rfl
@[simp] theorem State.modCore_sirip (s : State) (c : Nat) (f : Core → Core) : (s.modCore c f).sirip = s.sirip := rfl
@[simp] theorem State.modCore_parts (s : State) (c : Nat) (f : Core → Core) : (s.modCore c f).parts = s.parts := rfl
@[simp] theorem State.modCore_slotTab (s : State) (c : Nat) (f : Core → Core) : (s.modCore c f).slotTab = s.slotTab := rfl
@[simp] theorem State.modCore_slotPending (s : State) (c : Nat) (f : Core → Core) : (s.modCore c f).slotPending = s.slotPending := rfl
@[simp] theorem State.modCore_fw (s : State) (c : Nat) (f : Core → Core) : (s.modCore c f).fw = s.fw := rfl
@[simp] theorem State.modCore_link (s : State) (c : Nat) (f : Core → Core) : (s.modCore c f).link = s.link := rfl
@[simp] theorem State.modCore_spdmStored (s : State) (c : Nat) (f : Core → Core) : (s.modCore c f).spdmStored = s.spdmStored := rfl
@[simp] theorem State.modCore_spdmLeaf (s : State) (c : Nat) (f : Core → Core) : (s.modCore c f).spdmLeaf = s.spdmLeaf := rfl
@[simp] theorem State.modCore_spdmSession (s : State) (c : Nat) (f : Core → Core) : (s.modCore c f).spdmSession = s.spdmSession := rfl
@[simp] theorem State.modCore_spdmReply (s : State) (c : Nat) (f : Core → Core) : (s.modCore c f).spdmReply = s.spdmReply := rfl
@[simp] theorem State.modCore_pfIdeActive (s : State) (c : Nat) (f : Core → Core) : (s.modCore c f).pfIdeActive = s.pfIdeActive := rfl
@[simp] theorem State.modCore_pfIdeNext (s : State) (c : Nat) (f : Core → Core) : (s.modCore c f).pfIdeNext = s.pfIdeNext := rfl
@[simp] theorem State.modCore_mgmt (s : State) (c : Nat) (f : Core → Core) : (s.modCore c f).mgmt = s.mgmt := rfl
@[simp] theorem State.modCore_reopening (s : State) (c : Nat) (f : Core → Core) : (s.modCore c f).reopening = s.reopening := rfl
@[simp] theorem State.modCore_msix (s : State) (c : Nat) (f : Core → Core) : (s.modCore c f).msix = s.msix := rfl
@[simp] theorem State.modCore_pend (s : State) (c : Nat) (f : Core → Core) : (s.modCore c f).pend = s.pend := rfl
@[simp] theorem State.modCore_aer (s : State) (c : Nat) (f : Core → Core) : (s.modCore c f).aer = s.aer := rfl
@[simp] theorem State.modCore_reply (s : State) (c : Nat) (f : Core → Core) : (s.modCore c f).reply = s.reply := rfl
@[simp] theorem State.modCore_mgmtReports (s : State) (c : Nat) (f : Core → Core) : (s.modCore c f).mgmtReports = s.mgmtReports := rfl
@[simp] theorem State.modCore_late (s : State) (c : Nat) (f : Core → Core) : (s.modCore c f).late = s.late := rfl
@[simp] theorem State.modCore_clockMhz (s : State) (c : Nat) (f : Core → Core) : (s.modCore c f).clockMhz = s.clockMhz := rfl
@[simp] theorem State.modCore_tripped (s : State) (c : Nat) (f : Core → Core) : (s.modCore c f).tripped = s.tripped := rfl
@[simp] theorem State.modCore_bar (s : State) (c : Nat) (f : Core → Core) : (s.modCore c f).bar = s.bar := rfl
@[simp] theorem State.modCore_agenda (s : State) (c : Nat) (f : Core → Core) : (s.modCore c f).agenda = s.agenda := rfl
@[simp] theorem State.modCore_cur (s : State) (c : Nat) (f : Core → Core) : (s.modCore c f).cur = s.cur := rfl
@[simp] theorem State.modCore_nextId (s : State) (c : Nat) (f : Core → Core) : (s.modCore c f).nextId = s.nextId := rfl
@[simp] theorem State.modCore_fetchSeq (s : State) (c : Nat) (f : Core → Core) : (s.modCore c f).fetchSeq = s.fetchSeq := rfl
@[simp] theorem State.modCore_events (s : State) (c : Nat) (f : Core → Core) : (s.modCore c f).events = s.events := rfl
@[simp] theorem State.modCore_expected (s : State) (c : Nat) (f : Core → Core) : (s.modCore c f).expected = s.expected := rfl
@[simp] theorem State.modCore_struck (s : State) (c : Nat) (f : Core → Core) : (s.modCore c f).struck = s.struck := rfl

/-! ### `State.modBlock` -/

@[simp] theorem State.modBlock_clock (s : State) (c b : Nat) (f : Block → Block) : (s.modBlock c b f).clock = s.clock := rfl
@[simp] theorem State.modBlock_dram (s : State) (c b : Nat) (f : Block → Block) : (s.modBlock c b f).dram = s.dram := rfl
@[simp] theorem State.modBlock_dramReady (s : State) (c b : Nat) (f : Block → Block) : (s.modBlock c b f).dramReady = s.dramReady := rfl
@[simp] theorem State.modBlock_hostMem (s : State) (c b : Nat) (f : Block → Block) : (s.modBlock c b f).hostMem = s.hostMem := rfl
@[simp] theorem State.modBlock_peerMem (s : State) (c b : Nat) (f : Block → Block) : (s.modBlock c b f).peerMem = s.peerMem := rfl
@[simp] theorem State.modBlock_poison (s : State) (c b : Nat) (f : Block → Block) : (s.modBlock c b f).poison = s.poison := rfl
@[simp] theorem State.modBlock_iommu (s : State) (c b : Nat) (f : Block → Block) : (s.modBlock c b f).iommu = s.iommu := rfl
@[simp] theorem State.modBlock_dtc (s : State) (c b : Nat) (f : Block → Block) : (s.modBlock c b f).dtc = s.dtc := rfl
@[simp] theorem State.modBlock_invals (s : State) (c b : Nat) (f : Block → Block) : (s.modBlock c b f).invals = s.invals := rfl
@[simp] theorem State.modBlock_invalAcks (s : State) (c b : Nat) (f : Block → Block) : (s.modBlock c b f).invalAcks = s.invalAcks := rfl
@[simp] theorem State.modBlock_hostOps (s : State) (c b : Nat) (f : Block → Block) : (s.modBlock c b f).hostOps = s.hostOps := rfl
@[simp] theorem State.modBlock_releases (s : State) (c b : Nat) (f : Block → Block) : (s.modBlock c b f).releases = s.releases := rfl
@[simp] theorem State.modBlock_replay (s : State) (c b : Nat) (f : Block → Block) : (s.modBlock c b f).replay = s.replay := rfl
@[simp] theorem State.modBlock_pri (s : State) (c b : Nat) (f : Block → Block) : (s.modBlock c b f).pri = s.pri := rfl
@[simp] theorem State.modBlock_nextPri (s : State) (c b : Nat) (f : Block → Block) : (s.modBlock c b f).nextPri = s.nextPri := rfl
@[simp] theorem State.modBlock_priStopped (s : State) (c b : Nat) (f : Block → Block) : (s.modBlock c b f).priStopped = s.priStopped := rfl
@[simp] theorem State.modBlock_pairs (s : State) (c b : Nat) (f : Block → Block) : (s.modBlock c b f).pairs = s.pairs := rfl
@[simp] theorem State.modBlock_clusters (s : State) (c b : Nat) (f : Block → Block) : (s.modBlock c b f).clusters = s.clusters := rfl
@[simp] theorem State.modBlock_sched (s : State) (c b : Nat) (f : Block → Block) : (s.modBlock c b f).sched = s.sched := rfl
@[simp] theorem State.modBlock_faultQ (s : State) (c b : Nat) (f : Block → Block) : (s.modBlock c b f).faultQ = s.faultQ := rfl
@[simp] theorem State.modBlock_faultWait (s : State) (c b : Nat) (f : Block → Block) : (s.modBlock c b f).faultWait = s.faultWait := rfl
@[simp] theorem State.modBlock_faultSeq (s : State) (c b : Nat) (f : Block → Block) : (s.modBlock c b f).faultSeq = s.faultSeq := rfl
@[simp] theorem State.modBlock_halts (s : State) (c b : Nat) (f : Block → Block) : (s.modBlock c b f).halts = s.halts := rfl
@[simp] theorem State.modBlock_sirip (s : State) (c b : Nat) (f : Block → Block) : (s.modBlock c b f).sirip = s.sirip := rfl
@[simp] theorem State.modBlock_parts (s : State) (c b : Nat) (f : Block → Block) : (s.modBlock c b f).parts = s.parts := rfl
@[simp] theorem State.modBlock_slotTab (s : State) (c b : Nat) (f : Block → Block) : (s.modBlock c b f).slotTab = s.slotTab := rfl
@[simp] theorem State.modBlock_slotPending (s : State) (c b : Nat) (f : Block → Block) : (s.modBlock c b f).slotPending = s.slotPending := rfl
@[simp] theorem State.modBlock_fw (s : State) (c b : Nat) (f : Block → Block) : (s.modBlock c b f).fw = s.fw := rfl
@[simp] theorem State.modBlock_link (s : State) (c b : Nat) (f : Block → Block) : (s.modBlock c b f).link = s.link := rfl
@[simp] theorem State.modBlock_spdmStored (s : State) (c b : Nat) (f : Block → Block) : (s.modBlock c b f).spdmStored = s.spdmStored := rfl
@[simp] theorem State.modBlock_spdmLeaf (s : State) (c b : Nat) (f : Block → Block) : (s.modBlock c b f).spdmLeaf = s.spdmLeaf := rfl
@[simp] theorem State.modBlock_spdmSession (s : State) (c b : Nat) (f : Block → Block) : (s.modBlock c b f).spdmSession = s.spdmSession := rfl
@[simp] theorem State.modBlock_spdmReply (s : State) (c b : Nat) (f : Block → Block) : (s.modBlock c b f).spdmReply = s.spdmReply := rfl
@[simp] theorem State.modBlock_pfIdeActive (s : State) (c b : Nat) (f : Block → Block) : (s.modBlock c b f).pfIdeActive = s.pfIdeActive := rfl
@[simp] theorem State.modBlock_pfIdeNext (s : State) (c b : Nat) (f : Block → Block) : (s.modBlock c b f).pfIdeNext = s.pfIdeNext := rfl
@[simp] theorem State.modBlock_mgmt (s : State) (c b : Nat) (f : Block → Block) : (s.modBlock c b f).mgmt = s.mgmt := rfl
@[simp] theorem State.modBlock_reopening (s : State) (c b : Nat) (f : Block → Block) : (s.modBlock c b f).reopening = s.reopening := rfl
@[simp] theorem State.modBlock_msix (s : State) (c b : Nat) (f : Block → Block) : (s.modBlock c b f).msix = s.msix := rfl
@[simp] theorem State.modBlock_pend (s : State) (c b : Nat) (f : Block → Block) : (s.modBlock c b f).pend = s.pend := rfl
@[simp] theorem State.modBlock_aer (s : State) (c b : Nat) (f : Block → Block) : (s.modBlock c b f).aer = s.aer := rfl
@[simp] theorem State.modBlock_reply (s : State) (c b : Nat) (f : Block → Block) : (s.modBlock c b f).reply = s.reply := rfl
@[simp] theorem State.modBlock_mgmtReports (s : State) (c b : Nat) (f : Block → Block) : (s.modBlock c b f).mgmtReports = s.mgmtReports := rfl
@[simp] theorem State.modBlock_late (s : State) (c b : Nat) (f : Block → Block) : (s.modBlock c b f).late = s.late := rfl
@[simp] theorem State.modBlock_clockMhz (s : State) (c b : Nat) (f : Block → Block) : (s.modBlock c b f).clockMhz = s.clockMhz := rfl
@[simp] theorem State.modBlock_tripped (s : State) (c b : Nat) (f : Block → Block) : (s.modBlock c b f).tripped = s.tripped := rfl
@[simp] theorem State.modBlock_bar (s : State) (c b : Nat) (f : Block → Block) : (s.modBlock c b f).bar = s.bar := rfl
@[simp] theorem State.modBlock_agenda (s : State) (c b : Nat) (f : Block → Block) : (s.modBlock c b f).agenda = s.agenda := rfl
@[simp] theorem State.modBlock_cur (s : State) (c b : Nat) (f : Block → Block) : (s.modBlock c b f).cur = s.cur := rfl
@[simp] theorem State.modBlock_nextId (s : State) (c b : Nat) (f : Block → Block) : (s.modBlock c b f).nextId = s.nextId := rfl
@[simp] theorem State.modBlock_fetchSeq (s : State) (c b : Nat) (f : Block → Block) : (s.modBlock c b f).fetchSeq = s.fetchSeq := rfl
@[simp] theorem State.modBlock_events (s : State) (c b : Nat) (f : Block → Block) : (s.modBlock c b f).events = s.events := rfl
@[simp] theorem State.modBlock_expected (s : State) (c b : Nat) (f : Block → Block) : (s.modBlock c b f).expected = s.expected := rfl
@[simp] theorem State.modBlock_struck (s : State) (c b : Nat) (f : Block → Block) : (s.modBlock c b f).struck = s.struck := rfl

/-! ### `State.modTroupe` -/

@[simp] theorem State.modTroupe_clock (s : State) (c b i : Nat) (f : Troupe → Troupe) : (s.modTroupe c b i f).clock = s.clock := rfl
@[simp] theorem State.modTroupe_dram (s : State) (c b i : Nat) (f : Troupe → Troupe) : (s.modTroupe c b i f).dram = s.dram := rfl
@[simp] theorem State.modTroupe_dramReady (s : State) (c b i : Nat) (f : Troupe → Troupe) : (s.modTroupe c b i f).dramReady = s.dramReady := rfl
@[simp] theorem State.modTroupe_hostMem (s : State) (c b i : Nat) (f : Troupe → Troupe) : (s.modTroupe c b i f).hostMem = s.hostMem := rfl
@[simp] theorem State.modTroupe_peerMem (s : State) (c b i : Nat) (f : Troupe → Troupe) : (s.modTroupe c b i f).peerMem = s.peerMem := rfl
@[simp] theorem State.modTroupe_poison (s : State) (c b i : Nat) (f : Troupe → Troupe) : (s.modTroupe c b i f).poison = s.poison := rfl
@[simp] theorem State.modTroupe_iommu (s : State) (c b i : Nat) (f : Troupe → Troupe) : (s.modTroupe c b i f).iommu = s.iommu := rfl
@[simp] theorem State.modTroupe_dtc (s : State) (c b i : Nat) (f : Troupe → Troupe) : (s.modTroupe c b i f).dtc = s.dtc := rfl
@[simp] theorem State.modTroupe_invals (s : State) (c b i : Nat) (f : Troupe → Troupe) : (s.modTroupe c b i f).invals = s.invals := rfl
@[simp] theorem State.modTroupe_invalAcks (s : State) (c b i : Nat) (f : Troupe → Troupe) : (s.modTroupe c b i f).invalAcks = s.invalAcks := rfl
@[simp] theorem State.modTroupe_hostOps (s : State) (c b i : Nat) (f : Troupe → Troupe) : (s.modTroupe c b i f).hostOps = s.hostOps := rfl
@[simp] theorem State.modTroupe_releases (s : State) (c b i : Nat) (f : Troupe → Troupe) : (s.modTroupe c b i f).releases = s.releases := rfl
@[simp] theorem State.modTroupe_replay (s : State) (c b i : Nat) (f : Troupe → Troupe) : (s.modTroupe c b i f).replay = s.replay := rfl
@[simp] theorem State.modTroupe_pri (s : State) (c b i : Nat) (f : Troupe → Troupe) : (s.modTroupe c b i f).pri = s.pri := rfl
@[simp] theorem State.modTroupe_nextPri (s : State) (c b i : Nat) (f : Troupe → Troupe) : (s.modTroupe c b i f).nextPri = s.nextPri := rfl
@[simp] theorem State.modTroupe_priStopped (s : State) (c b i : Nat) (f : Troupe → Troupe) : (s.modTroupe c b i f).priStopped = s.priStopped := rfl
@[simp] theorem State.modTroupe_pairs (s : State) (c b i : Nat) (f : Troupe → Troupe) : (s.modTroupe c b i f).pairs = s.pairs := rfl
@[simp] theorem State.modTroupe_clusters (s : State) (c b i : Nat) (f : Troupe → Troupe) : (s.modTroupe c b i f).clusters = s.clusters := rfl
@[simp] theorem State.modTroupe_sched (s : State) (c b i : Nat) (f : Troupe → Troupe) : (s.modTroupe c b i f).sched = s.sched := rfl
@[simp] theorem State.modTroupe_faultQ (s : State) (c b i : Nat) (f : Troupe → Troupe) : (s.modTroupe c b i f).faultQ = s.faultQ := rfl
@[simp] theorem State.modTroupe_faultWait (s : State) (c b i : Nat) (f : Troupe → Troupe) : (s.modTroupe c b i f).faultWait = s.faultWait := rfl
@[simp] theorem State.modTroupe_faultSeq (s : State) (c b i : Nat) (f : Troupe → Troupe) : (s.modTroupe c b i f).faultSeq = s.faultSeq := rfl
@[simp] theorem State.modTroupe_halts (s : State) (c b i : Nat) (f : Troupe → Troupe) : (s.modTroupe c b i f).halts = s.halts := rfl
@[simp] theorem State.modTroupe_sirip (s : State) (c b i : Nat) (f : Troupe → Troupe) : (s.modTroupe c b i f).sirip = s.sirip := rfl
@[simp] theorem State.modTroupe_parts (s : State) (c b i : Nat) (f : Troupe → Troupe) : (s.modTroupe c b i f).parts = s.parts := rfl
@[simp] theorem State.modTroupe_slotTab (s : State) (c b i : Nat) (f : Troupe → Troupe) : (s.modTroupe c b i f).slotTab = s.slotTab := rfl
@[simp] theorem State.modTroupe_slotPending (s : State) (c b i : Nat) (f : Troupe → Troupe) : (s.modTroupe c b i f).slotPending = s.slotPending := rfl
@[simp] theorem State.modTroupe_fw (s : State) (c b i : Nat) (f : Troupe → Troupe) : (s.modTroupe c b i f).fw = s.fw := rfl
@[simp] theorem State.modTroupe_link (s : State) (c b i : Nat) (f : Troupe → Troupe) : (s.modTroupe c b i f).link = s.link := rfl
@[simp] theorem State.modTroupe_spdmStored (s : State) (c b i : Nat) (f : Troupe → Troupe) : (s.modTroupe c b i f).spdmStored = s.spdmStored := rfl
@[simp] theorem State.modTroupe_spdmLeaf (s : State) (c b i : Nat) (f : Troupe → Troupe) : (s.modTroupe c b i f).spdmLeaf = s.spdmLeaf := rfl
@[simp] theorem State.modTroupe_spdmSession (s : State) (c b i : Nat) (f : Troupe → Troupe) : (s.modTroupe c b i f).spdmSession = s.spdmSession := rfl
@[simp] theorem State.modTroupe_spdmReply (s : State) (c b i : Nat) (f : Troupe → Troupe) : (s.modTroupe c b i f).spdmReply = s.spdmReply := rfl
@[simp] theorem State.modTroupe_pfIdeActive (s : State) (c b i : Nat) (f : Troupe → Troupe) : (s.modTroupe c b i f).pfIdeActive = s.pfIdeActive := rfl
@[simp] theorem State.modTroupe_pfIdeNext (s : State) (c b i : Nat) (f : Troupe → Troupe) : (s.modTroupe c b i f).pfIdeNext = s.pfIdeNext := rfl
@[simp] theorem State.modTroupe_mgmt (s : State) (c b i : Nat) (f : Troupe → Troupe) : (s.modTroupe c b i f).mgmt = s.mgmt := rfl
@[simp] theorem State.modTroupe_reopening (s : State) (c b i : Nat) (f : Troupe → Troupe) : (s.modTroupe c b i f).reopening = s.reopening := rfl
@[simp] theorem State.modTroupe_msix (s : State) (c b i : Nat) (f : Troupe → Troupe) : (s.modTroupe c b i f).msix = s.msix := rfl
@[simp] theorem State.modTroupe_pend (s : State) (c b i : Nat) (f : Troupe → Troupe) : (s.modTroupe c b i f).pend = s.pend := rfl
@[simp] theorem State.modTroupe_aer (s : State) (c b i : Nat) (f : Troupe → Troupe) : (s.modTroupe c b i f).aer = s.aer := rfl
@[simp] theorem State.modTroupe_reply (s : State) (c b i : Nat) (f : Troupe → Troupe) : (s.modTroupe c b i f).reply = s.reply := rfl
@[simp] theorem State.modTroupe_mgmtReports (s : State) (c b i : Nat) (f : Troupe → Troupe) : (s.modTroupe c b i f).mgmtReports = s.mgmtReports := rfl
@[simp] theorem State.modTroupe_late (s : State) (c b i : Nat) (f : Troupe → Troupe) : (s.modTroupe c b i f).late = s.late := rfl
@[simp] theorem State.modTroupe_clockMhz (s : State) (c b i : Nat) (f : Troupe → Troupe) : (s.modTroupe c b i f).clockMhz = s.clockMhz := rfl
@[simp] theorem State.modTroupe_tripped (s : State) (c b i : Nat) (f : Troupe → Troupe) : (s.modTroupe c b i f).tripped = s.tripped := rfl
@[simp] theorem State.modTroupe_bar (s : State) (c b i : Nat) (f : Troupe → Troupe) : (s.modTroupe c b i f).bar = s.bar := rfl
@[simp] theorem State.modTroupe_agenda (s : State) (c b i : Nat) (f : Troupe → Troupe) : (s.modTroupe c b i f).agenda = s.agenda := rfl
@[simp] theorem State.modTroupe_cur (s : State) (c b i : Nat) (f : Troupe → Troupe) : (s.modTroupe c b i f).cur = s.cur := rfl
@[simp] theorem State.modTroupe_nextId (s : State) (c b i : Nat) (f : Troupe → Troupe) : (s.modTroupe c b i f).nextId = s.nextId := rfl
@[simp] theorem State.modTroupe_fetchSeq (s : State) (c b i : Nat) (f : Troupe → Troupe) : (s.modTroupe c b i f).fetchSeq = s.fetchSeq := rfl
@[simp] theorem State.modTroupe_events (s : State) (c b i : Nat) (f : Troupe → Troupe) : (s.modTroupe c b i f).events = s.events := rfl
@[simp] theorem State.modTroupe_expected (s : State) (c b i : Nat) (f : Troupe → Troupe) : (s.modTroupe c b i f).expected = s.expected := rfl
@[simp] theorem State.modTroupe_struck (s : State) (c b i : Nat) (f : Troupe → Troupe) : (s.modTroupe c b i f).struck = s.struck := rfl

/-! ### `State.mod` -/

@[simp] theorem State.mod_clock (s : State) (p : Path) (f : Troupe → Troupe) : (s.mod p f).clock = s.clock := rfl
@[simp] theorem State.mod_dram (s : State) (p : Path) (f : Troupe → Troupe) : (s.mod p f).dram = s.dram := rfl
@[simp] theorem State.mod_dramReady (s : State) (p : Path) (f : Troupe → Troupe) : (s.mod p f).dramReady = s.dramReady := rfl
@[simp] theorem State.mod_hostMem (s : State) (p : Path) (f : Troupe → Troupe) : (s.mod p f).hostMem = s.hostMem := rfl
@[simp] theorem State.mod_peerMem (s : State) (p : Path) (f : Troupe → Troupe) : (s.mod p f).peerMem = s.peerMem := rfl
@[simp] theorem State.mod_poison (s : State) (p : Path) (f : Troupe → Troupe) : (s.mod p f).poison = s.poison := rfl
@[simp] theorem State.mod_iommu (s : State) (p : Path) (f : Troupe → Troupe) : (s.mod p f).iommu = s.iommu := rfl
@[simp] theorem State.mod_dtc (s : State) (p : Path) (f : Troupe → Troupe) : (s.mod p f).dtc = s.dtc := rfl
@[simp] theorem State.mod_invals (s : State) (p : Path) (f : Troupe → Troupe) : (s.mod p f).invals = s.invals := rfl
@[simp] theorem State.mod_invalAcks (s : State) (p : Path) (f : Troupe → Troupe) : (s.mod p f).invalAcks = s.invalAcks := rfl
@[simp] theorem State.mod_hostOps (s : State) (p : Path) (f : Troupe → Troupe) : (s.mod p f).hostOps = s.hostOps := rfl
@[simp] theorem State.mod_releases (s : State) (p : Path) (f : Troupe → Troupe) : (s.mod p f).releases = s.releases := rfl
@[simp] theorem State.mod_replay (s : State) (p : Path) (f : Troupe → Troupe) : (s.mod p f).replay = s.replay := rfl
@[simp] theorem State.mod_pri (s : State) (p : Path) (f : Troupe → Troupe) : (s.mod p f).pri = s.pri := rfl
@[simp] theorem State.mod_nextPri (s : State) (p : Path) (f : Troupe → Troupe) : (s.mod p f).nextPri = s.nextPri := rfl
@[simp] theorem State.mod_priStopped (s : State) (p : Path) (f : Troupe → Troupe) : (s.mod p f).priStopped = s.priStopped := rfl
@[simp] theorem State.mod_pairs (s : State) (p : Path) (f : Troupe → Troupe) : (s.mod p f).pairs = s.pairs := rfl
@[simp] theorem State.mod_clusters (s : State) (p : Path) (f : Troupe → Troupe) : (s.mod p f).clusters = s.clusters := rfl
@[simp] theorem State.mod_sched (s : State) (p : Path) (f : Troupe → Troupe) : (s.mod p f).sched = s.sched := rfl
@[simp] theorem State.mod_faultQ (s : State) (p : Path) (f : Troupe → Troupe) : (s.mod p f).faultQ = s.faultQ := rfl
@[simp] theorem State.mod_faultWait (s : State) (p : Path) (f : Troupe → Troupe) : (s.mod p f).faultWait = s.faultWait := rfl
@[simp] theorem State.mod_faultSeq (s : State) (p : Path) (f : Troupe → Troupe) : (s.mod p f).faultSeq = s.faultSeq := rfl
@[simp] theorem State.mod_halts (s : State) (p : Path) (f : Troupe → Troupe) : (s.mod p f).halts = s.halts := rfl
@[simp] theorem State.mod_sirip (s : State) (p : Path) (f : Troupe → Troupe) : (s.mod p f).sirip = s.sirip := rfl
@[simp] theorem State.mod_parts (s : State) (p : Path) (f : Troupe → Troupe) : (s.mod p f).parts = s.parts := rfl
@[simp] theorem State.mod_slotTab (s : State) (p : Path) (f : Troupe → Troupe) : (s.mod p f).slotTab = s.slotTab := rfl
@[simp] theorem State.mod_slotPending (s : State) (p : Path) (f : Troupe → Troupe) : (s.mod p f).slotPending = s.slotPending := rfl
@[simp] theorem State.mod_fw (s : State) (p : Path) (f : Troupe → Troupe) : (s.mod p f).fw = s.fw := rfl
@[simp] theorem State.mod_link (s : State) (p : Path) (f : Troupe → Troupe) : (s.mod p f).link = s.link := rfl
@[simp] theorem State.mod_spdmStored (s : State) (p : Path) (f : Troupe → Troupe) : (s.mod p f).spdmStored = s.spdmStored := rfl
@[simp] theorem State.mod_spdmLeaf (s : State) (p : Path) (f : Troupe → Troupe) : (s.mod p f).spdmLeaf = s.spdmLeaf := rfl
@[simp] theorem State.mod_spdmSession (s : State) (p : Path) (f : Troupe → Troupe) : (s.mod p f).spdmSession = s.spdmSession := rfl
@[simp] theorem State.mod_spdmReply (s : State) (p : Path) (f : Troupe → Troupe) : (s.mod p f).spdmReply = s.spdmReply := rfl
@[simp] theorem State.mod_pfIdeActive (s : State) (p : Path) (f : Troupe → Troupe) : (s.mod p f).pfIdeActive = s.pfIdeActive := rfl
@[simp] theorem State.mod_pfIdeNext (s : State) (p : Path) (f : Troupe → Troupe) : (s.mod p f).pfIdeNext = s.pfIdeNext := rfl
@[simp] theorem State.mod_mgmt (s : State) (p : Path) (f : Troupe → Troupe) : (s.mod p f).mgmt = s.mgmt := rfl
@[simp] theorem State.mod_reopening (s : State) (p : Path) (f : Troupe → Troupe) : (s.mod p f).reopening = s.reopening := rfl
@[simp] theorem State.mod_msix (s : State) (p : Path) (f : Troupe → Troupe) : (s.mod p f).msix = s.msix := rfl
@[simp] theorem State.mod_pend (s : State) (p : Path) (f : Troupe → Troupe) : (s.mod p f).pend = s.pend := rfl
@[simp] theorem State.mod_aer (s : State) (p : Path) (f : Troupe → Troupe) : (s.mod p f).aer = s.aer := rfl
@[simp] theorem State.mod_reply (s : State) (p : Path) (f : Troupe → Troupe) : (s.mod p f).reply = s.reply := rfl
@[simp] theorem State.mod_mgmtReports (s : State) (p : Path) (f : Troupe → Troupe) : (s.mod p f).mgmtReports = s.mgmtReports := rfl
@[simp] theorem State.mod_late (s : State) (p : Path) (f : Troupe → Troupe) : (s.mod p f).late = s.late := rfl
@[simp] theorem State.mod_clockMhz (s : State) (p : Path) (f : Troupe → Troupe) : (s.mod p f).clockMhz = s.clockMhz := rfl
@[simp] theorem State.mod_tripped (s : State) (p : Path) (f : Troupe → Troupe) : (s.mod p f).tripped = s.tripped := rfl
@[simp] theorem State.mod_bar (s : State) (p : Path) (f : Troupe → Troupe) : (s.mod p f).bar = s.bar := rfl
@[simp] theorem State.mod_agenda (s : State) (p : Path) (f : Troupe → Troupe) : (s.mod p f).agenda = s.agenda := rfl
@[simp] theorem State.mod_cur (s : State) (p : Path) (f : Troupe → Troupe) : (s.mod p f).cur = s.cur := rfl
@[simp] theorem State.mod_nextId (s : State) (p : Path) (f : Troupe → Troupe) : (s.mod p f).nextId = s.nextId := rfl
@[simp] theorem State.mod_fetchSeq (s : State) (p : Path) (f : Troupe → Troupe) : (s.mod p f).fetchSeq = s.fetchSeq := rfl
@[simp] theorem State.mod_events (s : State) (p : Path) (f : Troupe → Troupe) : (s.mod p f).events = s.events := rfl
@[simp] theorem State.mod_expected (s : State) (p : Path) (f : Troupe → Troupe) : (s.mod p f).expected = s.expected := rfl
@[simp] theorem State.mod_struck (s : State) (p : Path) (f : Troupe → Troupe) : (s.mod p f).struck = s.struck := rfl

/-! ### `State.modPathBlock` -/

@[simp] theorem State.modPathBlock_clock (s : State) (p : Path) (f : Block → Block) : (s.modPathBlock p f).clock = s.clock := rfl
@[simp] theorem State.modPathBlock_dram (s : State) (p : Path) (f : Block → Block) : (s.modPathBlock p f).dram = s.dram := rfl
@[simp] theorem State.modPathBlock_dramReady (s : State) (p : Path) (f : Block → Block) : (s.modPathBlock p f).dramReady = s.dramReady := rfl
@[simp] theorem State.modPathBlock_hostMem (s : State) (p : Path) (f : Block → Block) : (s.modPathBlock p f).hostMem = s.hostMem := rfl
@[simp] theorem State.modPathBlock_peerMem (s : State) (p : Path) (f : Block → Block) : (s.modPathBlock p f).peerMem = s.peerMem := rfl
@[simp] theorem State.modPathBlock_poison (s : State) (p : Path) (f : Block → Block) : (s.modPathBlock p f).poison = s.poison := rfl
@[simp] theorem State.modPathBlock_iommu (s : State) (p : Path) (f : Block → Block) : (s.modPathBlock p f).iommu = s.iommu := rfl
@[simp] theorem State.modPathBlock_dtc (s : State) (p : Path) (f : Block → Block) : (s.modPathBlock p f).dtc = s.dtc := rfl
@[simp] theorem State.modPathBlock_invals (s : State) (p : Path) (f : Block → Block) : (s.modPathBlock p f).invals = s.invals := rfl
@[simp] theorem State.modPathBlock_invalAcks (s : State) (p : Path) (f : Block → Block) : (s.modPathBlock p f).invalAcks = s.invalAcks := rfl
@[simp] theorem State.modPathBlock_hostOps (s : State) (p : Path) (f : Block → Block) : (s.modPathBlock p f).hostOps = s.hostOps := rfl
@[simp] theorem State.modPathBlock_releases (s : State) (p : Path) (f : Block → Block) : (s.modPathBlock p f).releases = s.releases := rfl
@[simp] theorem State.modPathBlock_replay (s : State) (p : Path) (f : Block → Block) : (s.modPathBlock p f).replay = s.replay := rfl
@[simp] theorem State.modPathBlock_pri (s : State) (p : Path) (f : Block → Block) : (s.modPathBlock p f).pri = s.pri := rfl
@[simp] theorem State.modPathBlock_nextPri (s : State) (p : Path) (f : Block → Block) : (s.modPathBlock p f).nextPri = s.nextPri := rfl
@[simp] theorem State.modPathBlock_priStopped (s : State) (p : Path) (f : Block → Block) : (s.modPathBlock p f).priStopped = s.priStopped := rfl
@[simp] theorem State.modPathBlock_pairs (s : State) (p : Path) (f : Block → Block) : (s.modPathBlock p f).pairs = s.pairs := rfl
@[simp] theorem State.modPathBlock_clusters (s : State) (p : Path) (f : Block → Block) : (s.modPathBlock p f).clusters = s.clusters := rfl
@[simp] theorem State.modPathBlock_sched (s : State) (p : Path) (f : Block → Block) : (s.modPathBlock p f).sched = s.sched := rfl
@[simp] theorem State.modPathBlock_faultQ (s : State) (p : Path) (f : Block → Block) : (s.modPathBlock p f).faultQ = s.faultQ := rfl
@[simp] theorem State.modPathBlock_faultWait (s : State) (p : Path) (f : Block → Block) : (s.modPathBlock p f).faultWait = s.faultWait := rfl
@[simp] theorem State.modPathBlock_faultSeq (s : State) (p : Path) (f : Block → Block) : (s.modPathBlock p f).faultSeq = s.faultSeq := rfl
@[simp] theorem State.modPathBlock_halts (s : State) (p : Path) (f : Block → Block) : (s.modPathBlock p f).halts = s.halts := rfl
@[simp] theorem State.modPathBlock_sirip (s : State) (p : Path) (f : Block → Block) : (s.modPathBlock p f).sirip = s.sirip := rfl
@[simp] theorem State.modPathBlock_parts (s : State) (p : Path) (f : Block → Block) : (s.modPathBlock p f).parts = s.parts := rfl
@[simp] theorem State.modPathBlock_slotTab (s : State) (p : Path) (f : Block → Block) : (s.modPathBlock p f).slotTab = s.slotTab := rfl
@[simp] theorem State.modPathBlock_slotPending (s : State) (p : Path) (f : Block → Block) : (s.modPathBlock p f).slotPending = s.slotPending := rfl
@[simp] theorem State.modPathBlock_fw (s : State) (p : Path) (f : Block → Block) : (s.modPathBlock p f).fw = s.fw := rfl
@[simp] theorem State.modPathBlock_link (s : State) (p : Path) (f : Block → Block) : (s.modPathBlock p f).link = s.link := rfl
@[simp] theorem State.modPathBlock_spdmStored (s : State) (p : Path) (f : Block → Block) : (s.modPathBlock p f).spdmStored = s.spdmStored := rfl
@[simp] theorem State.modPathBlock_spdmLeaf (s : State) (p : Path) (f : Block → Block) : (s.modPathBlock p f).spdmLeaf = s.spdmLeaf := rfl
@[simp] theorem State.modPathBlock_spdmSession (s : State) (p : Path) (f : Block → Block) : (s.modPathBlock p f).spdmSession = s.spdmSession := rfl
@[simp] theorem State.modPathBlock_spdmReply (s : State) (p : Path) (f : Block → Block) : (s.modPathBlock p f).spdmReply = s.spdmReply := rfl
@[simp] theorem State.modPathBlock_pfIdeActive (s : State) (p : Path) (f : Block → Block) : (s.modPathBlock p f).pfIdeActive = s.pfIdeActive := rfl
@[simp] theorem State.modPathBlock_pfIdeNext (s : State) (p : Path) (f : Block → Block) : (s.modPathBlock p f).pfIdeNext = s.pfIdeNext := rfl
@[simp] theorem State.modPathBlock_mgmt (s : State) (p : Path) (f : Block → Block) : (s.modPathBlock p f).mgmt = s.mgmt := rfl
@[simp] theorem State.modPathBlock_reopening (s : State) (p : Path) (f : Block → Block) : (s.modPathBlock p f).reopening = s.reopening := rfl
@[simp] theorem State.modPathBlock_msix (s : State) (p : Path) (f : Block → Block) : (s.modPathBlock p f).msix = s.msix := rfl
@[simp] theorem State.modPathBlock_pend (s : State) (p : Path) (f : Block → Block) : (s.modPathBlock p f).pend = s.pend := rfl
@[simp] theorem State.modPathBlock_aer (s : State) (p : Path) (f : Block → Block) : (s.modPathBlock p f).aer = s.aer := rfl
@[simp] theorem State.modPathBlock_reply (s : State) (p : Path) (f : Block → Block) : (s.modPathBlock p f).reply = s.reply := rfl
@[simp] theorem State.modPathBlock_mgmtReports (s : State) (p : Path) (f : Block → Block) : (s.modPathBlock p f).mgmtReports = s.mgmtReports := rfl
@[simp] theorem State.modPathBlock_late (s : State) (p : Path) (f : Block → Block) : (s.modPathBlock p f).late = s.late := rfl
@[simp] theorem State.modPathBlock_clockMhz (s : State) (p : Path) (f : Block → Block) : (s.modPathBlock p f).clockMhz = s.clockMhz := rfl
@[simp] theorem State.modPathBlock_tripped (s : State) (p : Path) (f : Block → Block) : (s.modPathBlock p f).tripped = s.tripped := rfl
@[simp] theorem State.modPathBlock_bar (s : State) (p : Path) (f : Block → Block) : (s.modPathBlock p f).bar = s.bar := rfl
@[simp] theorem State.modPathBlock_agenda (s : State) (p : Path) (f : Block → Block) : (s.modPathBlock p f).agenda = s.agenda := rfl
@[simp] theorem State.modPathBlock_cur (s : State) (p : Path) (f : Block → Block) : (s.modPathBlock p f).cur = s.cur := rfl
@[simp] theorem State.modPathBlock_nextId (s : State) (p : Path) (f : Block → Block) : (s.modPathBlock p f).nextId = s.nextId := rfl
@[simp] theorem State.modPathBlock_fetchSeq (s : State) (p : Path) (f : Block → Block) : (s.modPathBlock p f).fetchSeq = s.fetchSeq := rfl
@[simp] theorem State.modPathBlock_events (s : State) (p : Path) (f : Block → Block) : (s.modPathBlock p f).events = s.events := rfl
@[simp] theorem State.modPathBlock_expected (s : State) (p : Path) (f : Block → Block) : (s.modPathBlock p f).expected = s.expected := rfl
@[simp] theorem State.modPathBlock_struck (s : State) (p : Path) (f : Block → Block) : (s.modPathBlock p f).struck = s.struck := rfl

/-! ### `State.modPair` -/

@[simp] theorem State.modPair_clock (s : State) (n : Nat) (f : Pair → Pair) : (s.modPair n f).clock = s.clock := rfl
@[simp] theorem State.modPair_dram (s : State) (n : Nat) (f : Pair → Pair) : (s.modPair n f).dram = s.dram := rfl
@[simp] theorem State.modPair_dramReady (s : State) (n : Nat) (f : Pair → Pair) : (s.modPair n f).dramReady = s.dramReady := rfl
@[simp] theorem State.modPair_hostMem (s : State) (n : Nat) (f : Pair → Pair) : (s.modPair n f).hostMem = s.hostMem := rfl
@[simp] theorem State.modPair_peerMem (s : State) (n : Nat) (f : Pair → Pair) : (s.modPair n f).peerMem = s.peerMem := rfl
@[simp] theorem State.modPair_poison (s : State) (n : Nat) (f : Pair → Pair) : (s.modPair n f).poison = s.poison := rfl
@[simp] theorem State.modPair_iommu (s : State) (n : Nat) (f : Pair → Pair) : (s.modPair n f).iommu = s.iommu := rfl
@[simp] theorem State.modPair_dtc (s : State) (n : Nat) (f : Pair → Pair) : (s.modPair n f).dtc = s.dtc := rfl
@[simp] theorem State.modPair_invals (s : State) (n : Nat) (f : Pair → Pair) : (s.modPair n f).invals = s.invals := rfl
@[simp] theorem State.modPair_invalAcks (s : State) (n : Nat) (f : Pair → Pair) : (s.modPair n f).invalAcks = s.invalAcks := rfl
@[simp] theorem State.modPair_hostOps (s : State) (n : Nat) (f : Pair → Pair) : (s.modPair n f).hostOps = s.hostOps := rfl
@[simp] theorem State.modPair_releases (s : State) (n : Nat) (f : Pair → Pair) : (s.modPair n f).releases = s.releases := rfl
@[simp] theorem State.modPair_replay (s : State) (n : Nat) (f : Pair → Pair) : (s.modPair n f).replay = s.replay := rfl
@[simp] theorem State.modPair_pri (s : State) (n : Nat) (f : Pair → Pair) : (s.modPair n f).pri = s.pri := rfl
@[simp] theorem State.modPair_nextPri (s : State) (n : Nat) (f : Pair → Pair) : (s.modPair n f).nextPri = s.nextPri := rfl
@[simp] theorem State.modPair_priStopped (s : State) (n : Nat) (f : Pair → Pair) : (s.modPair n f).priStopped = s.priStopped := rfl
@[simp] theorem State.modPair_cores (s : State) (n : Nat) (f : Pair → Pair) : (s.modPair n f).cores = s.cores := rfl
@[simp] theorem State.modPair_clusters (s : State) (n : Nat) (f : Pair → Pair) : (s.modPair n f).clusters = s.clusters := rfl
@[simp] theorem State.modPair_sched (s : State) (n : Nat) (f : Pair → Pair) : (s.modPair n f).sched = s.sched := rfl
@[simp] theorem State.modPair_faultQ (s : State) (n : Nat) (f : Pair → Pair) : (s.modPair n f).faultQ = s.faultQ := rfl
@[simp] theorem State.modPair_faultWait (s : State) (n : Nat) (f : Pair → Pair) : (s.modPair n f).faultWait = s.faultWait := rfl
@[simp] theorem State.modPair_faultSeq (s : State) (n : Nat) (f : Pair → Pair) : (s.modPair n f).faultSeq = s.faultSeq := rfl
@[simp] theorem State.modPair_halts (s : State) (n : Nat) (f : Pair → Pair) : (s.modPair n f).halts = s.halts := rfl
@[simp] theorem State.modPair_sirip (s : State) (n : Nat) (f : Pair → Pair) : (s.modPair n f).sirip = s.sirip := rfl
@[simp] theorem State.modPair_parts (s : State) (n : Nat) (f : Pair → Pair) : (s.modPair n f).parts = s.parts := rfl
@[simp] theorem State.modPair_slotTab (s : State) (n : Nat) (f : Pair → Pair) : (s.modPair n f).slotTab = s.slotTab := rfl
@[simp] theorem State.modPair_slotPending (s : State) (n : Nat) (f : Pair → Pair) : (s.modPair n f).slotPending = s.slotPending := rfl
@[simp] theorem State.modPair_fw (s : State) (n : Nat) (f : Pair → Pair) : (s.modPair n f).fw = s.fw := rfl
@[simp] theorem State.modPair_link (s : State) (n : Nat) (f : Pair → Pair) : (s.modPair n f).link = s.link := rfl
@[simp] theorem State.modPair_spdmStored (s : State) (n : Nat) (f : Pair → Pair) : (s.modPair n f).spdmStored = s.spdmStored := rfl
@[simp] theorem State.modPair_spdmLeaf (s : State) (n : Nat) (f : Pair → Pair) : (s.modPair n f).spdmLeaf = s.spdmLeaf := rfl
@[simp] theorem State.modPair_spdmSession (s : State) (n : Nat) (f : Pair → Pair) : (s.modPair n f).spdmSession = s.spdmSession := rfl
@[simp] theorem State.modPair_spdmReply (s : State) (n : Nat) (f : Pair → Pair) : (s.modPair n f).spdmReply = s.spdmReply := rfl
@[simp] theorem State.modPair_pfIdeActive (s : State) (n : Nat) (f : Pair → Pair) : (s.modPair n f).pfIdeActive = s.pfIdeActive := rfl
@[simp] theorem State.modPair_pfIdeNext (s : State) (n : Nat) (f : Pair → Pair) : (s.modPair n f).pfIdeNext = s.pfIdeNext := rfl
@[simp] theorem State.modPair_mgmt (s : State) (n : Nat) (f : Pair → Pair) : (s.modPair n f).mgmt = s.mgmt := rfl
@[simp] theorem State.modPair_reopening (s : State) (n : Nat) (f : Pair → Pair) : (s.modPair n f).reopening = s.reopening := rfl
@[simp] theorem State.modPair_msix (s : State) (n : Nat) (f : Pair → Pair) : (s.modPair n f).msix = s.msix := rfl
@[simp] theorem State.modPair_pend (s : State) (n : Nat) (f : Pair → Pair) : (s.modPair n f).pend = s.pend := rfl
@[simp] theorem State.modPair_aer (s : State) (n : Nat) (f : Pair → Pair) : (s.modPair n f).aer = s.aer := rfl
@[simp] theorem State.modPair_reply (s : State) (n : Nat) (f : Pair → Pair) : (s.modPair n f).reply = s.reply := rfl
@[simp] theorem State.modPair_mgmtReports (s : State) (n : Nat) (f : Pair → Pair) : (s.modPair n f).mgmtReports = s.mgmtReports := rfl
@[simp] theorem State.modPair_late (s : State) (n : Nat) (f : Pair → Pair) : (s.modPair n f).late = s.late := rfl
@[simp] theorem State.modPair_clockMhz (s : State) (n : Nat) (f : Pair → Pair) : (s.modPair n f).clockMhz = s.clockMhz := rfl
@[simp] theorem State.modPair_tripped (s : State) (n : Nat) (f : Pair → Pair) : (s.modPair n f).tripped = s.tripped := rfl
@[simp] theorem State.modPair_bar (s : State) (n : Nat) (f : Pair → Pair) : (s.modPair n f).bar = s.bar := rfl
@[simp] theorem State.modPair_agenda (s : State) (n : Nat) (f : Pair → Pair) : (s.modPair n f).agenda = s.agenda := rfl
@[simp] theorem State.modPair_cur (s : State) (n : Nat) (f : Pair → Pair) : (s.modPair n f).cur = s.cur := rfl
@[simp] theorem State.modPair_nextId (s : State) (n : Nat) (f : Pair → Pair) : (s.modPair n f).nextId = s.nextId := rfl
@[simp] theorem State.modPair_fetchSeq (s : State) (n : Nat) (f : Pair → Pair) : (s.modPair n f).fetchSeq = s.fetchSeq := rfl
@[simp] theorem State.modPair_events (s : State) (n : Nat) (f : Pair → Pair) : (s.modPair n f).events = s.events := rfl
@[simp] theorem State.modPair_expected (s : State) (n : Nat) (f : Pair → Pair) : (s.modPair n f).expected = s.expected := rfl
@[simp] theorem State.modPair_struck (s : State) (n : Nat) (f : Pair → Pair) : (s.modPair n f).struck = s.struck := rfl

/-! ### `State.modCluster` -/

@[simp] theorem State.modCluster_clock (s : State) (n : Nat) (f : Cluster → Cluster) : (s.modCluster n f).clock = s.clock := rfl
@[simp] theorem State.modCluster_dram (s : State) (n : Nat) (f : Cluster → Cluster) : (s.modCluster n f).dram = s.dram := rfl
@[simp] theorem State.modCluster_dramReady (s : State) (n : Nat) (f : Cluster → Cluster) : (s.modCluster n f).dramReady = s.dramReady := rfl
@[simp] theorem State.modCluster_hostMem (s : State) (n : Nat) (f : Cluster → Cluster) : (s.modCluster n f).hostMem = s.hostMem := rfl
@[simp] theorem State.modCluster_peerMem (s : State) (n : Nat) (f : Cluster → Cluster) : (s.modCluster n f).peerMem = s.peerMem := rfl
@[simp] theorem State.modCluster_poison (s : State) (n : Nat) (f : Cluster → Cluster) : (s.modCluster n f).poison = s.poison := rfl
@[simp] theorem State.modCluster_iommu (s : State) (n : Nat) (f : Cluster → Cluster) : (s.modCluster n f).iommu = s.iommu := rfl
@[simp] theorem State.modCluster_dtc (s : State) (n : Nat) (f : Cluster → Cluster) : (s.modCluster n f).dtc = s.dtc := rfl
@[simp] theorem State.modCluster_invals (s : State) (n : Nat) (f : Cluster → Cluster) : (s.modCluster n f).invals = s.invals := rfl
@[simp] theorem State.modCluster_invalAcks (s : State) (n : Nat) (f : Cluster → Cluster) : (s.modCluster n f).invalAcks = s.invalAcks := rfl
@[simp] theorem State.modCluster_hostOps (s : State) (n : Nat) (f : Cluster → Cluster) : (s.modCluster n f).hostOps = s.hostOps := rfl
@[simp] theorem State.modCluster_releases (s : State) (n : Nat) (f : Cluster → Cluster) : (s.modCluster n f).releases = s.releases := rfl
@[simp] theorem State.modCluster_replay (s : State) (n : Nat) (f : Cluster → Cluster) : (s.modCluster n f).replay = s.replay := rfl
@[simp] theorem State.modCluster_pri (s : State) (n : Nat) (f : Cluster → Cluster) : (s.modCluster n f).pri = s.pri := rfl
@[simp] theorem State.modCluster_nextPri (s : State) (n : Nat) (f : Cluster → Cluster) : (s.modCluster n f).nextPri = s.nextPri := rfl
@[simp] theorem State.modCluster_priStopped (s : State) (n : Nat) (f : Cluster → Cluster) : (s.modCluster n f).priStopped = s.priStopped := rfl
@[simp] theorem State.modCluster_cores (s : State) (n : Nat) (f : Cluster → Cluster) : (s.modCluster n f).cores = s.cores := rfl
@[simp] theorem State.modCluster_pairs (s : State) (n : Nat) (f : Cluster → Cluster) : (s.modCluster n f).pairs = s.pairs := rfl
@[simp] theorem State.modCluster_sched (s : State) (n : Nat) (f : Cluster → Cluster) : (s.modCluster n f).sched = s.sched := rfl
@[simp] theorem State.modCluster_faultQ (s : State) (n : Nat) (f : Cluster → Cluster) : (s.modCluster n f).faultQ = s.faultQ := rfl
@[simp] theorem State.modCluster_faultWait (s : State) (n : Nat) (f : Cluster → Cluster) : (s.modCluster n f).faultWait = s.faultWait := rfl
@[simp] theorem State.modCluster_faultSeq (s : State) (n : Nat) (f : Cluster → Cluster) : (s.modCluster n f).faultSeq = s.faultSeq := rfl
@[simp] theorem State.modCluster_halts (s : State) (n : Nat) (f : Cluster → Cluster) : (s.modCluster n f).halts = s.halts := rfl
@[simp] theorem State.modCluster_sirip (s : State) (n : Nat) (f : Cluster → Cluster) : (s.modCluster n f).sirip = s.sirip := rfl
@[simp] theorem State.modCluster_parts (s : State) (n : Nat) (f : Cluster → Cluster) : (s.modCluster n f).parts = s.parts := rfl
@[simp] theorem State.modCluster_slotTab (s : State) (n : Nat) (f : Cluster → Cluster) : (s.modCluster n f).slotTab = s.slotTab := rfl
@[simp] theorem State.modCluster_slotPending (s : State) (n : Nat) (f : Cluster → Cluster) : (s.modCluster n f).slotPending = s.slotPending := rfl
@[simp] theorem State.modCluster_fw (s : State) (n : Nat) (f : Cluster → Cluster) : (s.modCluster n f).fw = s.fw := rfl
@[simp] theorem State.modCluster_link (s : State) (n : Nat) (f : Cluster → Cluster) : (s.modCluster n f).link = s.link := rfl
@[simp] theorem State.modCluster_spdmStored (s : State) (n : Nat) (f : Cluster → Cluster) : (s.modCluster n f).spdmStored = s.spdmStored := rfl
@[simp] theorem State.modCluster_spdmLeaf (s : State) (n : Nat) (f : Cluster → Cluster) : (s.modCluster n f).spdmLeaf = s.spdmLeaf := rfl
@[simp] theorem State.modCluster_spdmSession (s : State) (n : Nat) (f : Cluster → Cluster) : (s.modCluster n f).spdmSession = s.spdmSession := rfl
@[simp] theorem State.modCluster_spdmReply (s : State) (n : Nat) (f : Cluster → Cluster) : (s.modCluster n f).spdmReply = s.spdmReply := rfl
@[simp] theorem State.modCluster_pfIdeActive (s : State) (n : Nat) (f : Cluster → Cluster) : (s.modCluster n f).pfIdeActive = s.pfIdeActive := rfl
@[simp] theorem State.modCluster_pfIdeNext (s : State) (n : Nat) (f : Cluster → Cluster) : (s.modCluster n f).pfIdeNext = s.pfIdeNext := rfl
@[simp] theorem State.modCluster_mgmt (s : State) (n : Nat) (f : Cluster → Cluster) : (s.modCluster n f).mgmt = s.mgmt := rfl
@[simp] theorem State.modCluster_reopening (s : State) (n : Nat) (f : Cluster → Cluster) : (s.modCluster n f).reopening = s.reopening := rfl
@[simp] theorem State.modCluster_msix (s : State) (n : Nat) (f : Cluster → Cluster) : (s.modCluster n f).msix = s.msix := rfl
@[simp] theorem State.modCluster_pend (s : State) (n : Nat) (f : Cluster → Cluster) : (s.modCluster n f).pend = s.pend := rfl
@[simp] theorem State.modCluster_aer (s : State) (n : Nat) (f : Cluster → Cluster) : (s.modCluster n f).aer = s.aer := rfl
@[simp] theorem State.modCluster_reply (s : State) (n : Nat) (f : Cluster → Cluster) : (s.modCluster n f).reply = s.reply := rfl
@[simp] theorem State.modCluster_mgmtReports (s : State) (n : Nat) (f : Cluster → Cluster) : (s.modCluster n f).mgmtReports = s.mgmtReports := rfl
@[simp] theorem State.modCluster_late (s : State) (n : Nat) (f : Cluster → Cluster) : (s.modCluster n f).late = s.late := rfl
@[simp] theorem State.modCluster_clockMhz (s : State) (n : Nat) (f : Cluster → Cluster) : (s.modCluster n f).clockMhz = s.clockMhz := rfl
@[simp] theorem State.modCluster_tripped (s : State) (n : Nat) (f : Cluster → Cluster) : (s.modCluster n f).tripped = s.tripped := rfl
@[simp] theorem State.modCluster_bar (s : State) (n : Nat) (f : Cluster → Cluster) : (s.modCluster n f).bar = s.bar := rfl
@[simp] theorem State.modCluster_agenda (s : State) (n : Nat) (f : Cluster → Cluster) : (s.modCluster n f).agenda = s.agenda := rfl
@[simp] theorem State.modCluster_cur (s : State) (n : Nat) (f : Cluster → Cluster) : (s.modCluster n f).cur = s.cur := rfl
@[simp] theorem State.modCluster_nextId (s : State) (n : Nat) (f : Cluster → Cluster) : (s.modCluster n f).nextId = s.nextId := rfl
@[simp] theorem State.modCluster_fetchSeq (s : State) (n : Nat) (f : Cluster → Cluster) : (s.modCluster n f).fetchSeq = s.fetchSeq := rfl
@[simp] theorem State.modCluster_events (s : State) (n : Nat) (f : Cluster → Cluster) : (s.modCluster n f).events = s.events := rfl
@[simp] theorem State.modCluster_expected (s : State) (n : Nat) (f : Cluster → Cluster) : (s.modCluster n f).expected = s.expected := rfl
@[simp] theorem State.modCluster_struck (s : State) (n : Nat) (f : Cluster → Cluster) : (s.modCluster n f).struck = s.struck := rfl

/-! ### `State.modPart` -/

@[simp] theorem State.modPart_clock (s : State) (p : Nat) (f : Partition → Partition) : (s.modPart p f).clock = s.clock := rfl
@[simp] theorem State.modPart_dram (s : State) (p : Nat) (f : Partition → Partition) : (s.modPart p f).dram = s.dram := rfl
@[simp] theorem State.modPart_dramReady (s : State) (p : Nat) (f : Partition → Partition) : (s.modPart p f).dramReady = s.dramReady := rfl
@[simp] theorem State.modPart_hostMem (s : State) (p : Nat) (f : Partition → Partition) : (s.modPart p f).hostMem = s.hostMem := rfl
@[simp] theorem State.modPart_peerMem (s : State) (p : Nat) (f : Partition → Partition) : (s.modPart p f).peerMem = s.peerMem := rfl
@[simp] theorem State.modPart_poison (s : State) (p : Nat) (f : Partition → Partition) : (s.modPart p f).poison = s.poison := rfl
@[simp] theorem State.modPart_iommu (s : State) (p : Nat) (f : Partition → Partition) : (s.modPart p f).iommu = s.iommu := rfl
@[simp] theorem State.modPart_dtc (s : State) (p : Nat) (f : Partition → Partition) : (s.modPart p f).dtc = s.dtc := rfl
@[simp] theorem State.modPart_invals (s : State) (p : Nat) (f : Partition → Partition) : (s.modPart p f).invals = s.invals := rfl
@[simp] theorem State.modPart_invalAcks (s : State) (p : Nat) (f : Partition → Partition) : (s.modPart p f).invalAcks = s.invalAcks := rfl
@[simp] theorem State.modPart_hostOps (s : State) (p : Nat) (f : Partition → Partition) : (s.modPart p f).hostOps = s.hostOps := rfl
@[simp] theorem State.modPart_releases (s : State) (p : Nat) (f : Partition → Partition) : (s.modPart p f).releases = s.releases := rfl
@[simp] theorem State.modPart_replay (s : State) (p : Nat) (f : Partition → Partition) : (s.modPart p f).replay = s.replay := rfl
@[simp] theorem State.modPart_pri (s : State) (p : Nat) (f : Partition → Partition) : (s.modPart p f).pri = s.pri := rfl
@[simp] theorem State.modPart_nextPri (s : State) (p : Nat) (f : Partition → Partition) : (s.modPart p f).nextPri = s.nextPri := rfl
@[simp] theorem State.modPart_priStopped (s : State) (p : Nat) (f : Partition → Partition) : (s.modPart p f).priStopped = s.priStopped := rfl
@[simp] theorem State.modPart_cores (s : State) (p : Nat) (f : Partition → Partition) : (s.modPart p f).cores = s.cores := rfl
@[simp] theorem State.modPart_pairs (s : State) (p : Nat) (f : Partition → Partition) : (s.modPart p f).pairs = s.pairs := rfl
@[simp] theorem State.modPart_clusters (s : State) (p : Nat) (f : Partition → Partition) : (s.modPart p f).clusters = s.clusters := rfl
@[simp] theorem State.modPart_sched (s : State) (p : Nat) (f : Partition → Partition) : (s.modPart p f).sched = s.sched := rfl
@[simp] theorem State.modPart_faultQ (s : State) (p : Nat) (f : Partition → Partition) : (s.modPart p f).faultQ = s.faultQ := rfl
@[simp] theorem State.modPart_faultWait (s : State) (p : Nat) (f : Partition → Partition) : (s.modPart p f).faultWait = s.faultWait := rfl
@[simp] theorem State.modPart_faultSeq (s : State) (p : Nat) (f : Partition → Partition) : (s.modPart p f).faultSeq = s.faultSeq := rfl
@[simp] theorem State.modPart_halts (s : State) (p : Nat) (f : Partition → Partition) : (s.modPart p f).halts = s.halts := rfl
@[simp] theorem State.modPart_sirip (s : State) (p : Nat) (f : Partition → Partition) : (s.modPart p f).sirip = s.sirip := rfl
@[simp] theorem State.modPart_slotTab (s : State) (p : Nat) (f : Partition → Partition) : (s.modPart p f).slotTab = s.slotTab := rfl
@[simp] theorem State.modPart_slotPending (s : State) (p : Nat) (f : Partition → Partition) : (s.modPart p f).slotPending = s.slotPending := rfl
@[simp] theorem State.modPart_fw (s : State) (p : Nat) (f : Partition → Partition) : (s.modPart p f).fw = s.fw := rfl
@[simp] theorem State.modPart_link (s : State) (p : Nat) (f : Partition → Partition) : (s.modPart p f).link = s.link := rfl
@[simp] theorem State.modPart_spdmStored (s : State) (p : Nat) (f : Partition → Partition) : (s.modPart p f).spdmStored = s.spdmStored := rfl
@[simp] theorem State.modPart_spdmLeaf (s : State) (p : Nat) (f : Partition → Partition) : (s.modPart p f).spdmLeaf = s.spdmLeaf := rfl
@[simp] theorem State.modPart_spdmSession (s : State) (p : Nat) (f : Partition → Partition) : (s.modPart p f).spdmSession = s.spdmSession := rfl
@[simp] theorem State.modPart_spdmReply (s : State) (p : Nat) (f : Partition → Partition) : (s.modPart p f).spdmReply = s.spdmReply := rfl
@[simp] theorem State.modPart_pfIdeActive (s : State) (p : Nat) (f : Partition → Partition) : (s.modPart p f).pfIdeActive = s.pfIdeActive := rfl
@[simp] theorem State.modPart_pfIdeNext (s : State) (p : Nat) (f : Partition → Partition) : (s.modPart p f).pfIdeNext = s.pfIdeNext := rfl
@[simp] theorem State.modPart_mgmt (s : State) (p : Nat) (f : Partition → Partition) : (s.modPart p f).mgmt = s.mgmt := rfl
@[simp] theorem State.modPart_reopening (s : State) (p : Nat) (f : Partition → Partition) : (s.modPart p f).reopening = s.reopening := rfl
@[simp] theorem State.modPart_msix (s : State) (p : Nat) (f : Partition → Partition) : (s.modPart p f).msix = s.msix := rfl
@[simp] theorem State.modPart_pend (s : State) (p : Nat) (f : Partition → Partition) : (s.modPart p f).pend = s.pend := rfl
@[simp] theorem State.modPart_aer (s : State) (p : Nat) (f : Partition → Partition) : (s.modPart p f).aer = s.aer := rfl
@[simp] theorem State.modPart_reply (s : State) (p : Nat) (f : Partition → Partition) : (s.modPart p f).reply = s.reply := rfl
@[simp] theorem State.modPart_mgmtReports (s : State) (p : Nat) (f : Partition → Partition) : (s.modPart p f).mgmtReports = s.mgmtReports := rfl
@[simp] theorem State.modPart_late (s : State) (p : Nat) (f : Partition → Partition) : (s.modPart p f).late = s.late := rfl
@[simp] theorem State.modPart_clockMhz (s : State) (p : Nat) (f : Partition → Partition) : (s.modPart p f).clockMhz = s.clockMhz := rfl
@[simp] theorem State.modPart_tripped (s : State) (p : Nat) (f : Partition → Partition) : (s.modPart p f).tripped = s.tripped := rfl
@[simp] theorem State.modPart_bar (s : State) (p : Nat) (f : Partition → Partition) : (s.modPart p f).bar = s.bar := rfl
@[simp] theorem State.modPart_agenda (s : State) (p : Nat) (f : Partition → Partition) : (s.modPart p f).agenda = s.agenda := rfl
@[simp] theorem State.modPart_cur (s : State) (p : Nat) (f : Partition → Partition) : (s.modPart p f).cur = s.cur := rfl
@[simp] theorem State.modPart_nextId (s : State) (p : Nat) (f : Partition → Partition) : (s.modPart p f).nextId = s.nextId := rfl
@[simp] theorem State.modPart_fetchSeq (s : State) (p : Nat) (f : Partition → Partition) : (s.modPart p f).fetchSeq = s.fetchSeq := rfl
@[simp] theorem State.modPart_events (s : State) (p : Nat) (f : Partition → Partition) : (s.modPart p f).events = s.events := rfl
@[simp] theorem State.modPart_expected (s : State) (p : Nat) (f : Partition → Partition) : (s.modPart p f).expected = s.expected := rfl
@[simp] theorem State.modPart_struck (s : State) (p : Nat) (f : Partition → Partition) : (s.modPart p f).struck = s.struck := rfl

/-! ### `State.modSched` -/

@[simp] theorem State.modSched_clock (s : State) (f : Sched → Sched) : (s.modSched f).clock = s.clock := rfl
@[simp] theorem State.modSched_dram (s : State) (f : Sched → Sched) : (s.modSched f).dram = s.dram := rfl
@[simp] theorem State.modSched_dramReady (s : State) (f : Sched → Sched) : (s.modSched f).dramReady = s.dramReady := rfl
@[simp] theorem State.modSched_hostMem (s : State) (f : Sched → Sched) : (s.modSched f).hostMem = s.hostMem := rfl
@[simp] theorem State.modSched_peerMem (s : State) (f : Sched → Sched) : (s.modSched f).peerMem = s.peerMem := rfl
@[simp] theorem State.modSched_poison (s : State) (f : Sched → Sched) : (s.modSched f).poison = s.poison := rfl
@[simp] theorem State.modSched_iommu (s : State) (f : Sched → Sched) : (s.modSched f).iommu = s.iommu := rfl
@[simp] theorem State.modSched_dtc (s : State) (f : Sched → Sched) : (s.modSched f).dtc = s.dtc := rfl
@[simp] theorem State.modSched_invals (s : State) (f : Sched → Sched) : (s.modSched f).invals = s.invals := rfl
@[simp] theorem State.modSched_invalAcks (s : State) (f : Sched → Sched) : (s.modSched f).invalAcks = s.invalAcks := rfl
@[simp] theorem State.modSched_hostOps (s : State) (f : Sched → Sched) : (s.modSched f).hostOps = s.hostOps := rfl
@[simp] theorem State.modSched_releases (s : State) (f : Sched → Sched) : (s.modSched f).releases = s.releases := rfl
@[simp] theorem State.modSched_replay (s : State) (f : Sched → Sched) : (s.modSched f).replay = s.replay := rfl
@[simp] theorem State.modSched_pri (s : State) (f : Sched → Sched) : (s.modSched f).pri = s.pri := rfl
@[simp] theorem State.modSched_nextPri (s : State) (f : Sched → Sched) : (s.modSched f).nextPri = s.nextPri := rfl
@[simp] theorem State.modSched_priStopped (s : State) (f : Sched → Sched) : (s.modSched f).priStopped = s.priStopped := rfl
@[simp] theorem State.modSched_cores (s : State) (f : Sched → Sched) : (s.modSched f).cores = s.cores := rfl
@[simp] theorem State.modSched_pairs (s : State) (f : Sched → Sched) : (s.modSched f).pairs = s.pairs := rfl
@[simp] theorem State.modSched_clusters (s : State) (f : Sched → Sched) : (s.modSched f).clusters = s.clusters := rfl
@[simp] theorem State.modSched_faultQ (s : State) (f : Sched → Sched) : (s.modSched f).faultQ = s.faultQ := rfl
@[simp] theorem State.modSched_faultWait (s : State) (f : Sched → Sched) : (s.modSched f).faultWait = s.faultWait := rfl
@[simp] theorem State.modSched_faultSeq (s : State) (f : Sched → Sched) : (s.modSched f).faultSeq = s.faultSeq := rfl
@[simp] theorem State.modSched_halts (s : State) (f : Sched → Sched) : (s.modSched f).halts = s.halts := rfl
@[simp] theorem State.modSched_sirip (s : State) (f : Sched → Sched) : (s.modSched f).sirip = s.sirip := rfl
@[simp] theorem State.modSched_parts (s : State) (f : Sched → Sched) : (s.modSched f).parts = s.parts := rfl
@[simp] theorem State.modSched_slotTab (s : State) (f : Sched → Sched) : (s.modSched f).slotTab = s.slotTab := rfl
@[simp] theorem State.modSched_slotPending (s : State) (f : Sched → Sched) : (s.modSched f).slotPending = s.slotPending := rfl
@[simp] theorem State.modSched_fw (s : State) (f : Sched → Sched) : (s.modSched f).fw = s.fw := rfl
@[simp] theorem State.modSched_link (s : State) (f : Sched → Sched) : (s.modSched f).link = s.link := rfl
@[simp] theorem State.modSched_spdmStored (s : State) (f : Sched → Sched) : (s.modSched f).spdmStored = s.spdmStored := rfl
@[simp] theorem State.modSched_spdmLeaf (s : State) (f : Sched → Sched) : (s.modSched f).spdmLeaf = s.spdmLeaf := rfl
@[simp] theorem State.modSched_spdmSession (s : State) (f : Sched → Sched) : (s.modSched f).spdmSession = s.spdmSession := rfl
@[simp] theorem State.modSched_spdmReply (s : State) (f : Sched → Sched) : (s.modSched f).spdmReply = s.spdmReply := rfl
@[simp] theorem State.modSched_pfIdeActive (s : State) (f : Sched → Sched) : (s.modSched f).pfIdeActive = s.pfIdeActive := rfl
@[simp] theorem State.modSched_pfIdeNext (s : State) (f : Sched → Sched) : (s.modSched f).pfIdeNext = s.pfIdeNext := rfl
@[simp] theorem State.modSched_mgmt (s : State) (f : Sched → Sched) : (s.modSched f).mgmt = s.mgmt := rfl
@[simp] theorem State.modSched_reopening (s : State) (f : Sched → Sched) : (s.modSched f).reopening = s.reopening := rfl
@[simp] theorem State.modSched_msix (s : State) (f : Sched → Sched) : (s.modSched f).msix = s.msix := rfl
@[simp] theorem State.modSched_pend (s : State) (f : Sched → Sched) : (s.modSched f).pend = s.pend := rfl
@[simp] theorem State.modSched_aer (s : State) (f : Sched → Sched) : (s.modSched f).aer = s.aer := rfl
@[simp] theorem State.modSched_reply (s : State) (f : Sched → Sched) : (s.modSched f).reply = s.reply := rfl
@[simp] theorem State.modSched_mgmtReports (s : State) (f : Sched → Sched) : (s.modSched f).mgmtReports = s.mgmtReports := rfl
@[simp] theorem State.modSched_late (s : State) (f : Sched → Sched) : (s.modSched f).late = s.late := rfl
@[simp] theorem State.modSched_clockMhz (s : State) (f : Sched → Sched) : (s.modSched f).clockMhz = s.clockMhz := rfl
@[simp] theorem State.modSched_tripped (s : State) (f : Sched → Sched) : (s.modSched f).tripped = s.tripped := rfl
@[simp] theorem State.modSched_bar (s : State) (f : Sched → Sched) : (s.modSched f).bar = s.bar := rfl
@[simp] theorem State.modSched_agenda (s : State) (f : Sched → Sched) : (s.modSched f).agenda = s.agenda := rfl
@[simp] theorem State.modSched_cur (s : State) (f : Sched → Sched) : (s.modSched f).cur = s.cur := rfl
@[simp] theorem State.modSched_nextId (s : State) (f : Sched → Sched) : (s.modSched f).nextId = s.nextId := rfl
@[simp] theorem State.modSched_fetchSeq (s : State) (f : Sched → Sched) : (s.modSched f).fetchSeq = s.fetchSeq := rfl
@[simp] theorem State.modSched_events (s : State) (f : Sched → Sched) : (s.modSched f).events = s.events := rfl
@[simp] theorem State.modSched_expected (s : State) (f : Sched → Sched) : (s.modSched f).expected = s.expected := rfl
@[simp] theorem State.modSched_struck (s : State) (f : Sched → Sched) : (s.modSched f).struck = s.struck := rfl

/-! ### `State.modLaunch` -/

@[simp] theorem State.modLaunch_clock (s : State) (id : Nat) (f : Launch → Launch) : (s.modLaunch id f).clock = s.clock := rfl
@[simp] theorem State.modLaunch_dram (s : State) (id : Nat) (f : Launch → Launch) : (s.modLaunch id f).dram = s.dram := rfl
@[simp] theorem State.modLaunch_dramReady (s : State) (id : Nat) (f : Launch → Launch) : (s.modLaunch id f).dramReady = s.dramReady := rfl
@[simp] theorem State.modLaunch_hostMem (s : State) (id : Nat) (f : Launch → Launch) : (s.modLaunch id f).hostMem = s.hostMem := rfl
@[simp] theorem State.modLaunch_peerMem (s : State) (id : Nat) (f : Launch → Launch) : (s.modLaunch id f).peerMem = s.peerMem := rfl
@[simp] theorem State.modLaunch_poison (s : State) (id : Nat) (f : Launch → Launch) : (s.modLaunch id f).poison = s.poison := rfl
@[simp] theorem State.modLaunch_iommu (s : State) (id : Nat) (f : Launch → Launch) : (s.modLaunch id f).iommu = s.iommu := rfl
@[simp] theorem State.modLaunch_dtc (s : State) (id : Nat) (f : Launch → Launch) : (s.modLaunch id f).dtc = s.dtc := rfl
@[simp] theorem State.modLaunch_invals (s : State) (id : Nat) (f : Launch → Launch) : (s.modLaunch id f).invals = s.invals := rfl
@[simp] theorem State.modLaunch_invalAcks (s : State) (id : Nat) (f : Launch → Launch) : (s.modLaunch id f).invalAcks = s.invalAcks := rfl
@[simp] theorem State.modLaunch_hostOps (s : State) (id : Nat) (f : Launch → Launch) : (s.modLaunch id f).hostOps = s.hostOps := rfl
@[simp] theorem State.modLaunch_releases (s : State) (id : Nat) (f : Launch → Launch) : (s.modLaunch id f).releases = s.releases := rfl
@[simp] theorem State.modLaunch_replay (s : State) (id : Nat) (f : Launch → Launch) : (s.modLaunch id f).replay = s.replay := rfl
@[simp] theorem State.modLaunch_pri (s : State) (id : Nat) (f : Launch → Launch) : (s.modLaunch id f).pri = s.pri := rfl
@[simp] theorem State.modLaunch_nextPri (s : State) (id : Nat) (f : Launch → Launch) : (s.modLaunch id f).nextPri = s.nextPri := rfl
@[simp] theorem State.modLaunch_priStopped (s : State) (id : Nat) (f : Launch → Launch) : (s.modLaunch id f).priStopped = s.priStopped := rfl
@[simp] theorem State.modLaunch_cores (s : State) (id : Nat) (f : Launch → Launch) : (s.modLaunch id f).cores = s.cores := rfl
@[simp] theorem State.modLaunch_pairs (s : State) (id : Nat) (f : Launch → Launch) : (s.modLaunch id f).pairs = s.pairs := rfl
@[simp] theorem State.modLaunch_clusters (s : State) (id : Nat) (f : Launch → Launch) : (s.modLaunch id f).clusters = s.clusters := rfl
@[simp] theorem State.modLaunch_faultQ (s : State) (id : Nat) (f : Launch → Launch) : (s.modLaunch id f).faultQ = s.faultQ := rfl
@[simp] theorem State.modLaunch_faultWait (s : State) (id : Nat) (f : Launch → Launch) : (s.modLaunch id f).faultWait = s.faultWait := rfl
@[simp] theorem State.modLaunch_faultSeq (s : State) (id : Nat) (f : Launch → Launch) : (s.modLaunch id f).faultSeq = s.faultSeq := rfl
@[simp] theorem State.modLaunch_halts (s : State) (id : Nat) (f : Launch → Launch) : (s.modLaunch id f).halts = s.halts := rfl
@[simp] theorem State.modLaunch_sirip (s : State) (id : Nat) (f : Launch → Launch) : (s.modLaunch id f).sirip = s.sirip := rfl
@[simp] theorem State.modLaunch_parts (s : State) (id : Nat) (f : Launch → Launch) : (s.modLaunch id f).parts = s.parts := rfl
@[simp] theorem State.modLaunch_slotTab (s : State) (id : Nat) (f : Launch → Launch) : (s.modLaunch id f).slotTab = s.slotTab := rfl
@[simp] theorem State.modLaunch_slotPending (s : State) (id : Nat) (f : Launch → Launch) : (s.modLaunch id f).slotPending = s.slotPending := rfl
@[simp] theorem State.modLaunch_fw (s : State) (id : Nat) (f : Launch → Launch) : (s.modLaunch id f).fw = s.fw := rfl
@[simp] theorem State.modLaunch_link (s : State) (id : Nat) (f : Launch → Launch) : (s.modLaunch id f).link = s.link := rfl
@[simp] theorem State.modLaunch_spdmStored (s : State) (id : Nat) (f : Launch → Launch) : (s.modLaunch id f).spdmStored = s.spdmStored := rfl
@[simp] theorem State.modLaunch_spdmLeaf (s : State) (id : Nat) (f : Launch → Launch) : (s.modLaunch id f).spdmLeaf = s.spdmLeaf := rfl
@[simp] theorem State.modLaunch_spdmSession (s : State) (id : Nat) (f : Launch → Launch) : (s.modLaunch id f).spdmSession = s.spdmSession := rfl
@[simp] theorem State.modLaunch_spdmReply (s : State) (id : Nat) (f : Launch → Launch) : (s.modLaunch id f).spdmReply = s.spdmReply := rfl
@[simp] theorem State.modLaunch_pfIdeActive (s : State) (id : Nat) (f : Launch → Launch) : (s.modLaunch id f).pfIdeActive = s.pfIdeActive := rfl
@[simp] theorem State.modLaunch_pfIdeNext (s : State) (id : Nat) (f : Launch → Launch) : (s.modLaunch id f).pfIdeNext = s.pfIdeNext := rfl
@[simp] theorem State.modLaunch_mgmt (s : State) (id : Nat) (f : Launch → Launch) : (s.modLaunch id f).mgmt = s.mgmt := rfl
@[simp] theorem State.modLaunch_reopening (s : State) (id : Nat) (f : Launch → Launch) : (s.modLaunch id f).reopening = s.reopening := rfl
@[simp] theorem State.modLaunch_msix (s : State) (id : Nat) (f : Launch → Launch) : (s.modLaunch id f).msix = s.msix := rfl
@[simp] theorem State.modLaunch_pend (s : State) (id : Nat) (f : Launch → Launch) : (s.modLaunch id f).pend = s.pend := rfl
@[simp] theorem State.modLaunch_aer (s : State) (id : Nat) (f : Launch → Launch) : (s.modLaunch id f).aer = s.aer := rfl
@[simp] theorem State.modLaunch_reply (s : State) (id : Nat) (f : Launch → Launch) : (s.modLaunch id f).reply = s.reply := rfl
@[simp] theorem State.modLaunch_mgmtReports (s : State) (id : Nat) (f : Launch → Launch) : (s.modLaunch id f).mgmtReports = s.mgmtReports := rfl
@[simp] theorem State.modLaunch_late (s : State) (id : Nat) (f : Launch → Launch) : (s.modLaunch id f).late = s.late := rfl
@[simp] theorem State.modLaunch_clockMhz (s : State) (id : Nat) (f : Launch → Launch) : (s.modLaunch id f).clockMhz = s.clockMhz := rfl
@[simp] theorem State.modLaunch_tripped (s : State) (id : Nat) (f : Launch → Launch) : (s.modLaunch id f).tripped = s.tripped := rfl
@[simp] theorem State.modLaunch_bar (s : State) (id : Nat) (f : Launch → Launch) : (s.modLaunch id f).bar = s.bar := rfl
@[simp] theorem State.modLaunch_agenda (s : State) (id : Nat) (f : Launch → Launch) : (s.modLaunch id f).agenda = s.agenda := rfl
@[simp] theorem State.modLaunch_cur (s : State) (id : Nat) (f : Launch → Launch) : (s.modLaunch id f).cur = s.cur := rfl
@[simp] theorem State.modLaunch_nextId (s : State) (id : Nat) (f : Launch → Launch) : (s.modLaunch id f).nextId = s.nextId := rfl
@[simp] theorem State.modLaunch_fetchSeq (s : State) (id : Nat) (f : Launch → Launch) : (s.modLaunch id f).fetchSeq = s.fetchSeq := rfl
@[simp] theorem State.modLaunch_events (s : State) (id : Nat) (f : Launch → Launch) : (s.modLaunch id f).events = s.events := rfl
@[simp] theorem State.modLaunch_expected (s : State) (id : Nat) (f : Launch → Launch) : (s.modLaunch id f).expected = s.expected := rfl
@[simp] theorem State.modLaunch_struck (s : State) (id : Nat) (f : Launch → Launch) : (s.modLaunch id f).struck = s.struck := rfl

/-! ### `State.modSirip` -/

@[simp] theorem State.modSirip_clock (s : State) (f : Sirip → Sirip) : (s.modSirip f).clock = s.clock := rfl
@[simp] theorem State.modSirip_dram (s : State) (f : Sirip → Sirip) : (s.modSirip f).dram = s.dram := rfl
@[simp] theorem State.modSirip_dramReady (s : State) (f : Sirip → Sirip) : (s.modSirip f).dramReady = s.dramReady := rfl
@[simp] theorem State.modSirip_hostMem (s : State) (f : Sirip → Sirip) : (s.modSirip f).hostMem = s.hostMem := rfl
@[simp] theorem State.modSirip_peerMem (s : State) (f : Sirip → Sirip) : (s.modSirip f).peerMem = s.peerMem := rfl
@[simp] theorem State.modSirip_poison (s : State) (f : Sirip → Sirip) : (s.modSirip f).poison = s.poison := rfl
@[simp] theorem State.modSirip_iommu (s : State) (f : Sirip → Sirip) : (s.modSirip f).iommu = s.iommu := rfl
@[simp] theorem State.modSirip_dtc (s : State) (f : Sirip → Sirip) : (s.modSirip f).dtc = s.dtc := rfl
@[simp] theorem State.modSirip_invals (s : State) (f : Sirip → Sirip) : (s.modSirip f).invals = s.invals := rfl
@[simp] theorem State.modSirip_invalAcks (s : State) (f : Sirip → Sirip) : (s.modSirip f).invalAcks = s.invalAcks := rfl
@[simp] theorem State.modSirip_hostOps (s : State) (f : Sirip → Sirip) : (s.modSirip f).hostOps = s.hostOps := rfl
@[simp] theorem State.modSirip_releases (s : State) (f : Sirip → Sirip) : (s.modSirip f).releases = s.releases := rfl
@[simp] theorem State.modSirip_replay (s : State) (f : Sirip → Sirip) : (s.modSirip f).replay = s.replay := rfl
@[simp] theorem State.modSirip_pri (s : State) (f : Sirip → Sirip) : (s.modSirip f).pri = s.pri := rfl
@[simp] theorem State.modSirip_nextPri (s : State) (f : Sirip → Sirip) : (s.modSirip f).nextPri = s.nextPri := rfl
@[simp] theorem State.modSirip_priStopped (s : State) (f : Sirip → Sirip) : (s.modSirip f).priStopped = s.priStopped := rfl
@[simp] theorem State.modSirip_cores (s : State) (f : Sirip → Sirip) : (s.modSirip f).cores = s.cores := rfl
@[simp] theorem State.modSirip_pairs (s : State) (f : Sirip → Sirip) : (s.modSirip f).pairs = s.pairs := rfl
@[simp] theorem State.modSirip_clusters (s : State) (f : Sirip → Sirip) : (s.modSirip f).clusters = s.clusters := rfl
@[simp] theorem State.modSirip_sched (s : State) (f : Sirip → Sirip) : (s.modSirip f).sched = s.sched := rfl
@[simp] theorem State.modSirip_faultQ (s : State) (f : Sirip → Sirip) : (s.modSirip f).faultQ = s.faultQ := rfl
@[simp] theorem State.modSirip_faultWait (s : State) (f : Sirip → Sirip) : (s.modSirip f).faultWait = s.faultWait := rfl
@[simp] theorem State.modSirip_faultSeq (s : State) (f : Sirip → Sirip) : (s.modSirip f).faultSeq = s.faultSeq := rfl
@[simp] theorem State.modSirip_halts (s : State) (f : Sirip → Sirip) : (s.modSirip f).halts = s.halts := rfl
@[simp] theorem State.modSirip_parts (s : State) (f : Sirip → Sirip) : (s.modSirip f).parts = s.parts := rfl
@[simp] theorem State.modSirip_slotTab (s : State) (f : Sirip → Sirip) : (s.modSirip f).slotTab = s.slotTab := rfl
@[simp] theorem State.modSirip_slotPending (s : State) (f : Sirip → Sirip) : (s.modSirip f).slotPending = s.slotPending := rfl
@[simp] theorem State.modSirip_fw (s : State) (f : Sirip → Sirip) : (s.modSirip f).fw = s.fw := rfl
@[simp] theorem State.modSirip_link (s : State) (f : Sirip → Sirip) : (s.modSirip f).link = s.link := rfl
@[simp] theorem State.modSirip_spdmStored (s : State) (f : Sirip → Sirip) : (s.modSirip f).spdmStored = s.spdmStored := rfl
@[simp] theorem State.modSirip_spdmLeaf (s : State) (f : Sirip → Sirip) : (s.modSirip f).spdmLeaf = s.spdmLeaf := rfl
@[simp] theorem State.modSirip_spdmSession (s : State) (f : Sirip → Sirip) : (s.modSirip f).spdmSession = s.spdmSession := rfl
@[simp] theorem State.modSirip_spdmReply (s : State) (f : Sirip → Sirip) : (s.modSirip f).spdmReply = s.spdmReply := rfl
@[simp] theorem State.modSirip_pfIdeActive (s : State) (f : Sirip → Sirip) : (s.modSirip f).pfIdeActive = s.pfIdeActive := rfl
@[simp] theorem State.modSirip_pfIdeNext (s : State) (f : Sirip → Sirip) : (s.modSirip f).pfIdeNext = s.pfIdeNext := rfl
@[simp] theorem State.modSirip_mgmt (s : State) (f : Sirip → Sirip) : (s.modSirip f).mgmt = s.mgmt := rfl
@[simp] theorem State.modSirip_reopening (s : State) (f : Sirip → Sirip) : (s.modSirip f).reopening = s.reopening := rfl
@[simp] theorem State.modSirip_msix (s : State) (f : Sirip → Sirip) : (s.modSirip f).msix = s.msix := rfl
@[simp] theorem State.modSirip_pend (s : State) (f : Sirip → Sirip) : (s.modSirip f).pend = s.pend := rfl
@[simp] theorem State.modSirip_aer (s : State) (f : Sirip → Sirip) : (s.modSirip f).aer = s.aer := rfl
@[simp] theorem State.modSirip_reply (s : State) (f : Sirip → Sirip) : (s.modSirip f).reply = s.reply := rfl
@[simp] theorem State.modSirip_mgmtReports (s : State) (f : Sirip → Sirip) : (s.modSirip f).mgmtReports = s.mgmtReports := rfl
@[simp] theorem State.modSirip_late (s : State) (f : Sirip → Sirip) : (s.modSirip f).late = s.late := rfl
@[simp] theorem State.modSirip_clockMhz (s : State) (f : Sirip → Sirip) : (s.modSirip f).clockMhz = s.clockMhz := rfl
@[simp] theorem State.modSirip_tripped (s : State) (f : Sirip → Sirip) : (s.modSirip f).tripped = s.tripped := rfl
@[simp] theorem State.modSirip_bar (s : State) (f : Sirip → Sirip) : (s.modSirip f).bar = s.bar := rfl
@[simp] theorem State.modSirip_agenda (s : State) (f : Sirip → Sirip) : (s.modSirip f).agenda = s.agenda := rfl
@[simp] theorem State.modSirip_cur (s : State) (f : Sirip → Sirip) : (s.modSirip f).cur = s.cur := rfl
@[simp] theorem State.modSirip_nextId (s : State) (f : Sirip → Sirip) : (s.modSirip f).nextId = s.nextId := rfl
@[simp] theorem State.modSirip_fetchSeq (s : State) (f : Sirip → Sirip) : (s.modSirip f).fetchSeq = s.fetchSeq := rfl
@[simp] theorem State.modSirip_events (s : State) (f : Sirip → Sirip) : (s.modSirip f).events = s.events := rfl
@[simp] theorem State.modSirip_expected (s : State) (f : Sirip → Sirip) : (s.modSirip f).expected = s.expected := rfl
@[simp] theorem State.modSirip_struck (s : State) (f : Sirip → Sirip) : (s.modSirip f).struck = s.struck := rfl

/-! ### `State.modChecked` -/

@[simp] theorem State.modChecked_clock (s : State) (k : Nat) (f : CheckedPair → CheckedPair) : (s.modChecked k f).clock = s.clock := rfl
@[simp] theorem State.modChecked_dram (s : State) (k : Nat) (f : CheckedPair → CheckedPair) : (s.modChecked k f).dram = s.dram := rfl
@[simp] theorem State.modChecked_dramReady (s : State) (k : Nat) (f : CheckedPair → CheckedPair) : (s.modChecked k f).dramReady = s.dramReady := rfl
@[simp] theorem State.modChecked_hostMem (s : State) (k : Nat) (f : CheckedPair → CheckedPair) : (s.modChecked k f).hostMem = s.hostMem := rfl
@[simp] theorem State.modChecked_peerMem (s : State) (k : Nat) (f : CheckedPair → CheckedPair) : (s.modChecked k f).peerMem = s.peerMem := rfl
@[simp] theorem State.modChecked_poison (s : State) (k : Nat) (f : CheckedPair → CheckedPair) : (s.modChecked k f).poison = s.poison := rfl
@[simp] theorem State.modChecked_iommu (s : State) (k : Nat) (f : CheckedPair → CheckedPair) : (s.modChecked k f).iommu = s.iommu := rfl
@[simp] theorem State.modChecked_dtc (s : State) (k : Nat) (f : CheckedPair → CheckedPair) : (s.modChecked k f).dtc = s.dtc := rfl
@[simp] theorem State.modChecked_invals (s : State) (k : Nat) (f : CheckedPair → CheckedPair) : (s.modChecked k f).invals = s.invals := rfl
@[simp] theorem State.modChecked_invalAcks (s : State) (k : Nat) (f : CheckedPair → CheckedPair) : (s.modChecked k f).invalAcks = s.invalAcks := rfl
@[simp] theorem State.modChecked_hostOps (s : State) (k : Nat) (f : CheckedPair → CheckedPair) : (s.modChecked k f).hostOps = s.hostOps := rfl
@[simp] theorem State.modChecked_releases (s : State) (k : Nat) (f : CheckedPair → CheckedPair) : (s.modChecked k f).releases = s.releases := rfl
@[simp] theorem State.modChecked_replay (s : State) (k : Nat) (f : CheckedPair → CheckedPair) : (s.modChecked k f).replay = s.replay := rfl
@[simp] theorem State.modChecked_pri (s : State) (k : Nat) (f : CheckedPair → CheckedPair) : (s.modChecked k f).pri = s.pri := rfl
@[simp] theorem State.modChecked_nextPri (s : State) (k : Nat) (f : CheckedPair → CheckedPair) : (s.modChecked k f).nextPri = s.nextPri := rfl
@[simp] theorem State.modChecked_priStopped (s : State) (k : Nat) (f : CheckedPair → CheckedPair) : (s.modChecked k f).priStopped = s.priStopped := rfl
@[simp] theorem State.modChecked_cores (s : State) (k : Nat) (f : CheckedPair → CheckedPair) : (s.modChecked k f).cores = s.cores := rfl
@[simp] theorem State.modChecked_pairs (s : State) (k : Nat) (f : CheckedPair → CheckedPair) : (s.modChecked k f).pairs = s.pairs := rfl
@[simp] theorem State.modChecked_clusters (s : State) (k : Nat) (f : CheckedPair → CheckedPair) : (s.modChecked k f).clusters = s.clusters := rfl
@[simp] theorem State.modChecked_sched (s : State) (k : Nat) (f : CheckedPair → CheckedPair) : (s.modChecked k f).sched = s.sched := rfl
@[simp] theorem State.modChecked_faultQ (s : State) (k : Nat) (f : CheckedPair → CheckedPair) : (s.modChecked k f).faultQ = s.faultQ := rfl
@[simp] theorem State.modChecked_faultWait (s : State) (k : Nat) (f : CheckedPair → CheckedPair) : (s.modChecked k f).faultWait = s.faultWait := rfl
@[simp] theorem State.modChecked_faultSeq (s : State) (k : Nat) (f : CheckedPair → CheckedPair) : (s.modChecked k f).faultSeq = s.faultSeq := rfl
@[simp] theorem State.modChecked_halts (s : State) (k : Nat) (f : CheckedPair → CheckedPair) : (s.modChecked k f).halts = s.halts := rfl
@[simp] theorem State.modChecked_parts (s : State) (k : Nat) (f : CheckedPair → CheckedPair) : (s.modChecked k f).parts = s.parts := rfl
@[simp] theorem State.modChecked_slotTab (s : State) (k : Nat) (f : CheckedPair → CheckedPair) : (s.modChecked k f).slotTab = s.slotTab := rfl
@[simp] theorem State.modChecked_slotPending (s : State) (k : Nat) (f : CheckedPair → CheckedPair) : (s.modChecked k f).slotPending = s.slotPending := rfl
@[simp] theorem State.modChecked_fw (s : State) (k : Nat) (f : CheckedPair → CheckedPair) : (s.modChecked k f).fw = s.fw := rfl
@[simp] theorem State.modChecked_link (s : State) (k : Nat) (f : CheckedPair → CheckedPair) : (s.modChecked k f).link = s.link := rfl
@[simp] theorem State.modChecked_spdmStored (s : State) (k : Nat) (f : CheckedPair → CheckedPair) : (s.modChecked k f).spdmStored = s.spdmStored := rfl
@[simp] theorem State.modChecked_spdmLeaf (s : State) (k : Nat) (f : CheckedPair → CheckedPair) : (s.modChecked k f).spdmLeaf = s.spdmLeaf := rfl
@[simp] theorem State.modChecked_spdmSession (s : State) (k : Nat) (f : CheckedPair → CheckedPair) : (s.modChecked k f).spdmSession = s.spdmSession := rfl
@[simp] theorem State.modChecked_spdmReply (s : State) (k : Nat) (f : CheckedPair → CheckedPair) : (s.modChecked k f).spdmReply = s.spdmReply := rfl
@[simp] theorem State.modChecked_pfIdeActive (s : State) (k : Nat) (f : CheckedPair → CheckedPair) : (s.modChecked k f).pfIdeActive = s.pfIdeActive := rfl
@[simp] theorem State.modChecked_pfIdeNext (s : State) (k : Nat) (f : CheckedPair → CheckedPair) : (s.modChecked k f).pfIdeNext = s.pfIdeNext := rfl
@[simp] theorem State.modChecked_mgmt (s : State) (k : Nat) (f : CheckedPair → CheckedPair) : (s.modChecked k f).mgmt = s.mgmt := rfl
@[simp] theorem State.modChecked_reopening (s : State) (k : Nat) (f : CheckedPair → CheckedPair) : (s.modChecked k f).reopening = s.reopening := rfl
@[simp] theorem State.modChecked_msix (s : State) (k : Nat) (f : CheckedPair → CheckedPair) : (s.modChecked k f).msix = s.msix := rfl
@[simp] theorem State.modChecked_pend (s : State) (k : Nat) (f : CheckedPair → CheckedPair) : (s.modChecked k f).pend = s.pend := rfl
@[simp] theorem State.modChecked_aer (s : State) (k : Nat) (f : CheckedPair → CheckedPair) : (s.modChecked k f).aer = s.aer := rfl
@[simp] theorem State.modChecked_reply (s : State) (k : Nat) (f : CheckedPair → CheckedPair) : (s.modChecked k f).reply = s.reply := rfl
@[simp] theorem State.modChecked_mgmtReports (s : State) (k : Nat) (f : CheckedPair → CheckedPair) : (s.modChecked k f).mgmtReports = s.mgmtReports := rfl
@[simp] theorem State.modChecked_late (s : State) (k : Nat) (f : CheckedPair → CheckedPair) : (s.modChecked k f).late = s.late := rfl
@[simp] theorem State.modChecked_clockMhz (s : State) (k : Nat) (f : CheckedPair → CheckedPair) : (s.modChecked k f).clockMhz = s.clockMhz := rfl
@[simp] theorem State.modChecked_tripped (s : State) (k : Nat) (f : CheckedPair → CheckedPair) : (s.modChecked k f).tripped = s.tripped := rfl
@[simp] theorem State.modChecked_bar (s : State) (k : Nat) (f : CheckedPair → CheckedPair) : (s.modChecked k f).bar = s.bar := rfl
@[simp] theorem State.modChecked_agenda (s : State) (k : Nat) (f : CheckedPair → CheckedPair) : (s.modChecked k f).agenda = s.agenda := rfl
@[simp] theorem State.modChecked_cur (s : State) (k : Nat) (f : CheckedPair → CheckedPair) : (s.modChecked k f).cur = s.cur := rfl
@[simp] theorem State.modChecked_nextId (s : State) (k : Nat) (f : CheckedPair → CheckedPair) : (s.modChecked k f).nextId = s.nextId := rfl
@[simp] theorem State.modChecked_fetchSeq (s : State) (k : Nat) (f : CheckedPair → CheckedPair) : (s.modChecked k f).fetchSeq = s.fetchSeq := rfl
@[simp] theorem State.modChecked_events (s : State) (k : Nat) (f : CheckedPair → CheckedPair) : (s.modChecked k f).events = s.events := rfl
@[simp] theorem State.modChecked_expected (s : State) (k : Nat) (f : CheckedPair → CheckedPair) : (s.modChecked k f).expected = s.expected := rfl
@[simp] theorem State.modChecked_struck (s : State) (k : Nat) (f : CheckedPair → CheckedPair) : (s.modChecked k f).struck = s.struck := rfl

/-! ### `State.report` -/

@[simp] theorem State.report_clock (s : State) : (s.report).clock = s.clock := rfl
@[simp] theorem State.report_dram (s : State) : (s.report).dram = s.dram := rfl
@[simp] theorem State.report_dramReady (s : State) : (s.report).dramReady = s.dramReady := rfl
@[simp] theorem State.report_hostMem (s : State) : (s.report).hostMem = s.hostMem := rfl
@[simp] theorem State.report_peerMem (s : State) : (s.report).peerMem = s.peerMem := rfl
@[simp] theorem State.report_poison (s : State) : (s.report).poison = s.poison := rfl
@[simp] theorem State.report_iommu (s : State) : (s.report).iommu = s.iommu := rfl
@[simp] theorem State.report_dtc (s : State) : (s.report).dtc = s.dtc := rfl
@[simp] theorem State.report_invals (s : State) : (s.report).invals = s.invals := rfl
@[simp] theorem State.report_invalAcks (s : State) : (s.report).invalAcks = s.invalAcks := rfl
@[simp] theorem State.report_hostOps (s : State) : (s.report).hostOps = s.hostOps := rfl
@[simp] theorem State.report_releases (s : State) : (s.report).releases = s.releases := rfl
@[simp] theorem State.report_replay (s : State) : (s.report).replay = s.replay := rfl
@[simp] theorem State.report_pri (s : State) : (s.report).pri = s.pri := rfl
@[simp] theorem State.report_nextPri (s : State) : (s.report).nextPri = s.nextPri := rfl
@[simp] theorem State.report_priStopped (s : State) : (s.report).priStopped = s.priStopped := rfl
@[simp] theorem State.report_cores (s : State) : (s.report).cores = s.cores := rfl
@[simp] theorem State.report_pairs (s : State) : (s.report).pairs = s.pairs := rfl
@[simp] theorem State.report_clusters (s : State) : (s.report).clusters = s.clusters := rfl
@[simp] theorem State.report_sched (s : State) : (s.report).sched = s.sched := rfl
@[simp] theorem State.report_faultQ (s : State) : (s.report).faultQ = s.faultQ := rfl
@[simp] theorem State.report_faultWait (s : State) : (s.report).faultWait = s.faultWait := rfl
@[simp] theorem State.report_faultSeq (s : State) : (s.report).faultSeq = s.faultSeq := rfl
@[simp] theorem State.report_halts (s : State) : (s.report).halts = s.halts := rfl
@[simp] theorem State.report_sirip (s : State) : (s.report).sirip = s.sirip := rfl
@[simp] theorem State.report_parts (s : State) : (s.report).parts = s.parts := rfl
@[simp] theorem State.report_slotTab (s : State) : (s.report).slotTab = s.slotTab := rfl
@[simp] theorem State.report_slotPending (s : State) : (s.report).slotPending = s.slotPending := rfl
@[simp] theorem State.report_fw (s : State) : (s.report).fw = s.fw := rfl
@[simp] theorem State.report_link (s : State) : (s.report).link = s.link := rfl
@[simp] theorem State.report_spdmStored (s : State) : (s.report).spdmStored = s.spdmStored := rfl
@[simp] theorem State.report_spdmLeaf (s : State) : (s.report).spdmLeaf = s.spdmLeaf := rfl
@[simp] theorem State.report_spdmSession (s : State) : (s.report).spdmSession = s.spdmSession := rfl
@[simp] theorem State.report_spdmReply (s : State) : (s.report).spdmReply = s.spdmReply := rfl
@[simp] theorem State.report_pfIdeActive (s : State) : (s.report).pfIdeActive = s.pfIdeActive := rfl
@[simp] theorem State.report_pfIdeNext (s : State) : (s.report).pfIdeNext = s.pfIdeNext := rfl
@[simp] theorem State.report_mgmt (s : State) : (s.report).mgmt = s.mgmt := rfl
@[simp] theorem State.report_reopening (s : State) : (s.report).reopening = s.reopening := rfl
@[simp] theorem State.report_msix (s : State) : (s.report).msix = s.msix := rfl
@[simp] theorem State.report_pend (s : State) : (s.report).pend = s.pend := rfl
@[simp] theorem State.report_aer (s : State) : (s.report).aer = s.aer := rfl
@[simp] theorem State.report_reply (s : State) : (s.report).reply = s.reply := rfl
@[simp] theorem State.report_late (s : State) : (s.report).late = s.late := rfl
@[simp] theorem State.report_clockMhz (s : State) : (s.report).clockMhz = s.clockMhz := rfl
@[simp] theorem State.report_tripped (s : State) : (s.report).tripped = s.tripped := rfl
@[simp] theorem State.report_bar (s : State) : (s.report).bar = s.bar := rfl
@[simp] theorem State.report_agenda (s : State) : (s.report).agenda = s.agenda := rfl
@[simp] theorem State.report_cur (s : State) : (s.report).cur = s.cur := rfl
@[simp] theorem State.report_nextId (s : State) : (s.report).nextId = s.nextId := rfl
@[simp] theorem State.report_fetchSeq (s : State) : (s.report).fetchSeq = s.fetchSeq := rfl
@[simp] theorem State.report_events (s : State) : (s.report).events = s.events := rfl
@[simp] theorem State.report_expected (s : State) : (s.report).expected = s.expected := rfl
@[simp] theorem State.report_struck (s : State) : (s.report).struck = s.struck := rfl

/-! ### `State.signal` -/

@[simp] theorem State.signal_clock (s : State) (fn v : Nat) : (s.signal fn v).clock = s.clock := by unfold State.signal; split <;> (try split) <;> rfl
@[simp] theorem State.signal_dram (s : State) (fn v : Nat) : (s.signal fn v).dram = s.dram := by unfold State.signal; split <;> (try split) <;> rfl
@[simp] theorem State.signal_dramReady (s : State) (fn v : Nat) : (s.signal fn v).dramReady = s.dramReady := by unfold State.signal; split <;> (try split) <;> rfl
@[simp] theorem State.signal_hostMem (s : State) (fn v : Nat) : (s.signal fn v).hostMem = s.hostMem := by unfold State.signal; split <;> (try split) <;> rfl
@[simp] theorem State.signal_peerMem (s : State) (fn v : Nat) : (s.signal fn v).peerMem = s.peerMem := by unfold State.signal; split <;> (try split) <;> rfl
@[simp] theorem State.signal_poison (s : State) (fn v : Nat) : (s.signal fn v).poison = s.poison := by unfold State.signal; split <;> (try split) <;> rfl
@[simp] theorem State.signal_iommu (s : State) (fn v : Nat) : (s.signal fn v).iommu = s.iommu := by unfold State.signal; split <;> (try split) <;> rfl
@[simp] theorem State.signal_dtc (s : State) (fn v : Nat) : (s.signal fn v).dtc = s.dtc := by unfold State.signal; split <;> (try split) <;> rfl
@[simp] theorem State.signal_invals (s : State) (fn v : Nat) : (s.signal fn v).invals = s.invals := by unfold State.signal; split <;> (try split) <;> rfl
@[simp] theorem State.signal_invalAcks (s : State) (fn v : Nat) : (s.signal fn v).invalAcks = s.invalAcks := by unfold State.signal; split <;> (try split) <;> rfl
@[simp] theorem State.signal_hostOps (s : State) (fn v : Nat) : (s.signal fn v).hostOps = s.hostOps := by unfold State.signal; split <;> (try split) <;> rfl
@[simp] theorem State.signal_releases (s : State) (fn v : Nat) : (s.signal fn v).releases = s.releases := by unfold State.signal; split <;> (try split) <;> rfl
@[simp] theorem State.signal_replay (s : State) (fn v : Nat) : (s.signal fn v).replay = s.replay := by unfold State.signal; split <;> (try split) <;> rfl
@[simp] theorem State.signal_pri (s : State) (fn v : Nat) : (s.signal fn v).pri = s.pri := by unfold State.signal; split <;> (try split) <;> rfl
@[simp] theorem State.signal_nextPri (s : State) (fn v : Nat) : (s.signal fn v).nextPri = s.nextPri := by unfold State.signal; split <;> (try split) <;> rfl
@[simp] theorem State.signal_priStopped (s : State) (fn v : Nat) : (s.signal fn v).priStopped = s.priStopped := by unfold State.signal; split <;> (try split) <;> rfl
@[simp] theorem State.signal_cores (s : State) (fn v : Nat) : (s.signal fn v).cores = s.cores := by unfold State.signal; split <;> (try split) <;> rfl
@[simp] theorem State.signal_pairs (s : State) (fn v : Nat) : (s.signal fn v).pairs = s.pairs := by unfold State.signal; split <;> (try split) <;> rfl
@[simp] theorem State.signal_clusters (s : State) (fn v : Nat) : (s.signal fn v).clusters = s.clusters := by unfold State.signal; split <;> (try split) <;> rfl
@[simp] theorem State.signal_sched (s : State) (fn v : Nat) : (s.signal fn v).sched = s.sched := by unfold State.signal; split <;> (try split) <;> rfl
@[simp] theorem State.signal_faultQ (s : State) (fn v : Nat) : (s.signal fn v).faultQ = s.faultQ := by unfold State.signal; split <;> (try split) <;> rfl
@[simp] theorem State.signal_faultWait (s : State) (fn v : Nat) : (s.signal fn v).faultWait = s.faultWait := by unfold State.signal; split <;> (try split) <;> rfl
@[simp] theorem State.signal_faultSeq (s : State) (fn v : Nat) : (s.signal fn v).faultSeq = s.faultSeq := by unfold State.signal; split <;> (try split) <;> rfl
@[simp] theorem State.signal_halts (s : State) (fn v : Nat) : (s.signal fn v).halts = s.halts := by unfold State.signal; split <;> (try split) <;> rfl
@[simp] theorem State.signal_sirip (s : State) (fn v : Nat) : (s.signal fn v).sirip = s.sirip := by unfold State.signal; split <;> (try split) <;> rfl
@[simp] theorem State.signal_parts (s : State) (fn v : Nat) : (s.signal fn v).parts = s.parts := by unfold State.signal; split <;> (try split) <;> rfl
@[simp] theorem State.signal_slotTab (s : State) (fn v : Nat) : (s.signal fn v).slotTab = s.slotTab := by unfold State.signal; split <;> (try split) <;> rfl
@[simp] theorem State.signal_slotPending (s : State) (fn v : Nat) : (s.signal fn v).slotPending = s.slotPending := by unfold State.signal; split <;> (try split) <;> rfl
@[simp] theorem State.signal_fw (s : State) (fn v : Nat) : (s.signal fn v).fw = s.fw := by unfold State.signal; split <;> (try split) <;> rfl
@[simp] theorem State.signal_link (s : State) (fn v : Nat) : (s.signal fn v).link = s.link := by unfold State.signal; split <;> (try split) <;> rfl
@[simp] theorem State.signal_spdmStored (s : State) (fn v : Nat) : (s.signal fn v).spdmStored = s.spdmStored := by unfold State.signal; split <;> (try split) <;> rfl
@[simp] theorem State.signal_spdmLeaf (s : State) (fn v : Nat) : (s.signal fn v).spdmLeaf = s.spdmLeaf := by unfold State.signal; split <;> (try split) <;> rfl
@[simp] theorem State.signal_spdmSession (s : State) (fn v : Nat) : (s.signal fn v).spdmSession = s.spdmSession := by unfold State.signal; split <;> (try split) <;> rfl
@[simp] theorem State.signal_spdmReply (s : State) (fn v : Nat) : (s.signal fn v).spdmReply = s.spdmReply := by unfold State.signal; split <;> (try split) <;> rfl
@[simp] theorem State.signal_pfIdeActive (s : State) (fn v : Nat) : (s.signal fn v).pfIdeActive = s.pfIdeActive := by unfold State.signal; split <;> (try split) <;> rfl
@[simp] theorem State.signal_pfIdeNext (s : State) (fn v : Nat) : (s.signal fn v).pfIdeNext = s.pfIdeNext := by unfold State.signal; split <;> (try split) <;> rfl
@[simp] theorem State.signal_mgmt (s : State) (fn v : Nat) : (s.signal fn v).mgmt = s.mgmt := by unfold State.signal; split <;> (try split) <;> rfl
@[simp] theorem State.signal_reopening (s : State) (fn v : Nat) : (s.signal fn v).reopening = s.reopening := by unfold State.signal; split <;> (try split) <;> rfl
@[simp] theorem State.signal_aer (s : State) (fn v : Nat) : (s.signal fn v).aer = s.aer := by unfold State.signal; split <;> (try split) <;> rfl
@[simp] theorem State.signal_reply (s : State) (fn v : Nat) : (s.signal fn v).reply = s.reply := by unfold State.signal; split <;> (try split) <;> rfl
@[simp] theorem State.signal_mgmtReports (s : State) (fn v : Nat) : (s.signal fn v).mgmtReports = s.mgmtReports := by unfold State.signal; split <;> (try split) <;> rfl
@[simp] theorem State.signal_late (s : State) (fn v : Nat) : (s.signal fn v).late = s.late := by unfold State.signal; split <;> (try split) <;> rfl
@[simp] theorem State.signal_clockMhz (s : State) (fn v : Nat) : (s.signal fn v).clockMhz = s.clockMhz := by unfold State.signal; split <;> (try split) <;> rfl
@[simp] theorem State.signal_tripped (s : State) (fn v : Nat) : (s.signal fn v).tripped = s.tripped := by unfold State.signal; split <;> (try split) <;> rfl
@[simp] theorem State.signal_bar (s : State) (fn v : Nat) : (s.signal fn v).bar = s.bar := by unfold State.signal; split <;> (try split) <;> rfl
@[simp] theorem State.signal_agenda (s : State) (fn v : Nat) : (s.signal fn v).agenda = s.agenda := by unfold State.signal; split <;> (try split) <;> rfl
@[simp] theorem State.signal_cur (s : State) (fn v : Nat) : (s.signal fn v).cur = s.cur := by unfold State.signal; split <;> (try split) <;> rfl
@[simp] theorem State.signal_nextId (s : State) (fn v : Nat) : (s.signal fn v).nextId = s.nextId := by unfold State.signal; split <;> (try split) <;> rfl
@[simp] theorem State.signal_fetchSeq (s : State) (fn v : Nat) : (s.signal fn v).fetchSeq = s.fetchSeq := by unfold State.signal; split <;> (try split) <;> rfl
@[simp] theorem State.signal_events (s : State) (fn v : Nat) : (s.signal fn v).events = s.events := by unfold State.signal; split <;> (try split) <;> rfl
@[simp] theorem State.signal_expected (s : State) (fn v : Nat) : (s.signal fn v).expected = s.expected := by unfold State.signal; split <;> (try split) <;> rfl
@[simp] theorem State.signal_struck (s : State) (fn v : Nat) : (s.signal fn v).struck = s.struck := by unfold State.signal; split <;> (try split) <;> rfl

/-! ### `State.logEvent` -/

@[simp] theorem State.logEvent_clock (s : State) (kind tier core unit : Nat) (addr : DWord) (job : Nat) : (s.logEvent kind tier core unit addr job).clock = s.clock := by simp [State.logEvent]
@[simp] theorem State.logEvent_dram (s : State) (kind tier core unit : Nat) (addr : DWord) (job : Nat) : (s.logEvent kind tier core unit addr job).dram = s.dram := by simp [State.logEvent]
@[simp] theorem State.logEvent_dramReady (s : State) (kind tier core unit : Nat) (addr : DWord) (job : Nat) : (s.logEvent kind tier core unit addr job).dramReady = s.dramReady := by simp [State.logEvent]
@[simp] theorem State.logEvent_hostMem (s : State) (kind tier core unit : Nat) (addr : DWord) (job : Nat) : (s.logEvent kind tier core unit addr job).hostMem = s.hostMem := by simp [State.logEvent]
@[simp] theorem State.logEvent_peerMem (s : State) (kind tier core unit : Nat) (addr : DWord) (job : Nat) : (s.logEvent kind tier core unit addr job).peerMem = s.peerMem := by simp [State.logEvent]
@[simp] theorem State.logEvent_poison (s : State) (kind tier core unit : Nat) (addr : DWord) (job : Nat) : (s.logEvent kind tier core unit addr job).poison = s.poison := by simp [State.logEvent]
@[simp] theorem State.logEvent_iommu (s : State) (kind tier core unit : Nat) (addr : DWord) (job : Nat) : (s.logEvent kind tier core unit addr job).iommu = s.iommu := by simp [State.logEvent]
@[simp] theorem State.logEvent_dtc (s : State) (kind tier core unit : Nat) (addr : DWord) (job : Nat) : (s.logEvent kind tier core unit addr job).dtc = s.dtc := by simp [State.logEvent]
@[simp] theorem State.logEvent_invals (s : State) (kind tier core unit : Nat) (addr : DWord) (job : Nat) : (s.logEvent kind tier core unit addr job).invals = s.invals := by simp [State.logEvent]
@[simp] theorem State.logEvent_invalAcks (s : State) (kind tier core unit : Nat) (addr : DWord) (job : Nat) : (s.logEvent kind tier core unit addr job).invalAcks = s.invalAcks := by simp [State.logEvent]
@[simp] theorem State.logEvent_hostOps (s : State) (kind tier core unit : Nat) (addr : DWord) (job : Nat) : (s.logEvent kind tier core unit addr job).hostOps = s.hostOps := by simp [State.logEvent]
@[simp] theorem State.logEvent_releases (s : State) (kind tier core unit : Nat) (addr : DWord) (job : Nat) : (s.logEvent kind tier core unit addr job).releases = s.releases := by simp [State.logEvent]
@[simp] theorem State.logEvent_replay (s : State) (kind tier core unit : Nat) (addr : DWord) (job : Nat) : (s.logEvent kind tier core unit addr job).replay = s.replay := by simp [State.logEvent]
@[simp] theorem State.logEvent_pri (s : State) (kind tier core unit : Nat) (addr : DWord) (job : Nat) : (s.logEvent kind tier core unit addr job).pri = s.pri := by simp [State.logEvent]
@[simp] theorem State.logEvent_nextPri (s : State) (kind tier core unit : Nat) (addr : DWord) (job : Nat) : (s.logEvent kind tier core unit addr job).nextPri = s.nextPri := by simp [State.logEvent]
@[simp] theorem State.logEvent_priStopped (s : State) (kind tier core unit : Nat) (addr : DWord) (job : Nat) : (s.logEvent kind tier core unit addr job).priStopped = s.priStopped := by simp [State.logEvent]
@[simp] theorem State.logEvent_cores (s : State) (kind tier core unit : Nat) (addr : DWord) (job : Nat) : (s.logEvent kind tier core unit addr job).cores = s.cores := by simp [State.logEvent]
@[simp] theorem State.logEvent_pairs (s : State) (kind tier core unit : Nat) (addr : DWord) (job : Nat) : (s.logEvent kind tier core unit addr job).pairs = s.pairs := by simp [State.logEvent]
@[simp] theorem State.logEvent_clusters (s : State) (kind tier core unit : Nat) (addr : DWord) (job : Nat) : (s.logEvent kind tier core unit addr job).clusters = s.clusters := by simp [State.logEvent]
@[simp] theorem State.logEvent_sched (s : State) (kind tier core unit : Nat) (addr : DWord) (job : Nat) : (s.logEvent kind tier core unit addr job).sched = s.sched := by simp [State.logEvent]
@[simp] theorem State.logEvent_faultQ (s : State) (kind tier core unit : Nat) (addr : DWord) (job : Nat) : (s.logEvent kind tier core unit addr job).faultQ = s.faultQ := by simp [State.logEvent]
@[simp] theorem State.logEvent_faultWait (s : State) (kind tier core unit : Nat) (addr : DWord) (job : Nat) : (s.logEvent kind tier core unit addr job).faultWait = s.faultWait := by simp [State.logEvent]
@[simp] theorem State.logEvent_faultSeq (s : State) (kind tier core unit : Nat) (addr : DWord) (job : Nat) : (s.logEvent kind tier core unit addr job).faultSeq = s.faultSeq := by simp [State.logEvent]
@[simp] theorem State.logEvent_halts (s : State) (kind tier core unit : Nat) (addr : DWord) (job : Nat) : (s.logEvent kind tier core unit addr job).halts = s.halts := by simp [State.logEvent]
@[simp] theorem State.logEvent_parts (s : State) (kind tier core unit : Nat) (addr : DWord) (job : Nat) : (s.logEvent kind tier core unit addr job).parts = s.parts := by simp [State.logEvent]
@[simp] theorem State.logEvent_slotTab (s : State) (kind tier core unit : Nat) (addr : DWord) (job : Nat) : (s.logEvent kind tier core unit addr job).slotTab = s.slotTab := by simp [State.logEvent]
@[simp] theorem State.logEvent_slotPending (s : State) (kind tier core unit : Nat) (addr : DWord) (job : Nat) : (s.logEvent kind tier core unit addr job).slotPending = s.slotPending := by simp [State.logEvent]
@[simp] theorem State.logEvent_fw (s : State) (kind tier core unit : Nat) (addr : DWord) (job : Nat) : (s.logEvent kind tier core unit addr job).fw = s.fw := by simp [State.logEvent]
@[simp] theorem State.logEvent_link (s : State) (kind tier core unit : Nat) (addr : DWord) (job : Nat) : (s.logEvent kind tier core unit addr job).link = s.link := by simp [State.logEvent]
@[simp] theorem State.logEvent_spdmStored (s : State) (kind tier core unit : Nat) (addr : DWord) (job : Nat) : (s.logEvent kind tier core unit addr job).spdmStored = s.spdmStored := by simp [State.logEvent]
@[simp] theorem State.logEvent_spdmLeaf (s : State) (kind tier core unit : Nat) (addr : DWord) (job : Nat) : (s.logEvent kind tier core unit addr job).spdmLeaf = s.spdmLeaf := by simp [State.logEvent]
@[simp] theorem State.logEvent_spdmSession (s : State) (kind tier core unit : Nat) (addr : DWord) (job : Nat) : (s.logEvent kind tier core unit addr job).spdmSession = s.spdmSession := by simp [State.logEvent]
@[simp] theorem State.logEvent_spdmReply (s : State) (kind tier core unit : Nat) (addr : DWord) (job : Nat) : (s.logEvent kind tier core unit addr job).spdmReply = s.spdmReply := by simp [State.logEvent]
@[simp] theorem State.logEvent_pfIdeActive (s : State) (kind tier core unit : Nat) (addr : DWord) (job : Nat) : (s.logEvent kind tier core unit addr job).pfIdeActive = s.pfIdeActive := by simp [State.logEvent]
@[simp] theorem State.logEvent_pfIdeNext (s : State) (kind tier core unit : Nat) (addr : DWord) (job : Nat) : (s.logEvent kind tier core unit addr job).pfIdeNext = s.pfIdeNext := by simp [State.logEvent]
@[simp] theorem State.logEvent_mgmt (s : State) (kind tier core unit : Nat) (addr : DWord) (job : Nat) : (s.logEvent kind tier core unit addr job).mgmt = s.mgmt := by simp [State.logEvent]
@[simp] theorem State.logEvent_reopening (s : State) (kind tier core unit : Nat) (addr : DWord) (job : Nat) : (s.logEvent kind tier core unit addr job).reopening = s.reopening := by simp [State.logEvent]
@[simp] theorem State.logEvent_aer (s : State) (kind tier core unit : Nat) (addr : DWord) (job : Nat) : (s.logEvent kind tier core unit addr job).aer = s.aer := by simp [State.logEvent]
@[simp] theorem State.logEvent_reply (s : State) (kind tier core unit : Nat) (addr : DWord) (job : Nat) : (s.logEvent kind tier core unit addr job).reply = s.reply := by simp [State.logEvent]
@[simp] theorem State.logEvent_mgmtReports (s : State) (kind tier core unit : Nat) (addr : DWord) (job : Nat) : (s.logEvent kind tier core unit addr job).mgmtReports = s.mgmtReports := by simp [State.logEvent]
@[simp] theorem State.logEvent_late (s : State) (kind tier core unit : Nat) (addr : DWord) (job : Nat) : (s.logEvent kind tier core unit addr job).late = s.late := by simp [State.logEvent]
@[simp] theorem State.logEvent_clockMhz (s : State) (kind tier core unit : Nat) (addr : DWord) (job : Nat) : (s.logEvent kind tier core unit addr job).clockMhz = s.clockMhz := by simp [State.logEvent]
@[simp] theorem State.logEvent_tripped (s : State) (kind tier core unit : Nat) (addr : DWord) (job : Nat) : (s.logEvent kind tier core unit addr job).tripped = s.tripped := by simp [State.logEvent]
@[simp] theorem State.logEvent_bar (s : State) (kind tier core unit : Nat) (addr : DWord) (job : Nat) : (s.logEvent kind tier core unit addr job).bar = s.bar := by simp [State.logEvent]
@[simp] theorem State.logEvent_agenda (s : State) (kind tier core unit : Nat) (addr : DWord) (job : Nat) : (s.logEvent kind tier core unit addr job).agenda = s.agenda := by simp [State.logEvent]
@[simp] theorem State.logEvent_cur (s : State) (kind tier core unit : Nat) (addr : DWord) (job : Nat) : (s.logEvent kind tier core unit addr job).cur = s.cur := by simp [State.logEvent]
@[simp] theorem State.logEvent_nextId (s : State) (kind tier core unit : Nat) (addr : DWord) (job : Nat) : (s.logEvent kind tier core unit addr job).nextId = s.nextId := by simp [State.logEvent]
@[simp] theorem State.logEvent_fetchSeq (s : State) (kind tier core unit : Nat) (addr : DWord) (job : Nat) : (s.logEvent kind tier core unit addr job).fetchSeq = s.fetchSeq := by simp [State.logEvent]
@[simp] theorem State.logEvent_events (s : State) (kind tier core unit : Nat) (addr : DWord) (job : Nat) : (s.logEvent kind tier core unit addr job).events = s.events := by simp [State.logEvent]
@[simp] theorem State.logEvent_expected (s : State) (kind tier core unit : Nat) (addr : DWord) (job : Nat) : (s.logEvent kind tier core unit addr job).expected = s.expected := by simp [State.logEvent]
@[simp] theorem State.logEvent_struck (s : State) (kind tier core unit : Nat) (addr : DWord) (job : Nat) : (s.logEvent kind tier core unit addr job).struck = s.struck := by simp [State.logEvent]

/-! ### `State.assertFaultN` -/

@[simp] theorem State.assertFaultN_clock (s : State) (seq : Nat) : (s.assertFaultN seq).clock = s.clock := by simp [State.assertFaultN]
@[simp] theorem State.assertFaultN_dram (s : State) (seq : Nat) : (s.assertFaultN seq).dram = s.dram := by simp [State.assertFaultN]
@[simp] theorem State.assertFaultN_dramReady (s : State) (seq : Nat) : (s.assertFaultN seq).dramReady = s.dramReady := by simp [State.assertFaultN]
@[simp] theorem State.assertFaultN_hostMem (s : State) (seq : Nat) : (s.assertFaultN seq).hostMem = s.hostMem := by simp [State.assertFaultN]
@[simp] theorem State.assertFaultN_peerMem (s : State) (seq : Nat) : (s.assertFaultN seq).peerMem = s.peerMem := by simp [State.assertFaultN]
@[simp] theorem State.assertFaultN_poison (s : State) (seq : Nat) : (s.assertFaultN seq).poison = s.poison := by simp [State.assertFaultN]
@[simp] theorem State.assertFaultN_iommu (s : State) (seq : Nat) : (s.assertFaultN seq).iommu = s.iommu := by simp [State.assertFaultN]
@[simp] theorem State.assertFaultN_dtc (s : State) (seq : Nat) : (s.assertFaultN seq).dtc = s.dtc := by simp [State.assertFaultN]
@[simp] theorem State.assertFaultN_invals (s : State) (seq : Nat) : (s.assertFaultN seq).invals = s.invals := by simp [State.assertFaultN]
@[simp] theorem State.assertFaultN_invalAcks (s : State) (seq : Nat) : (s.assertFaultN seq).invalAcks = s.invalAcks := by simp [State.assertFaultN]
@[simp] theorem State.assertFaultN_hostOps (s : State) (seq : Nat) : (s.assertFaultN seq).hostOps = s.hostOps := by simp [State.assertFaultN]
@[simp] theorem State.assertFaultN_releases (s : State) (seq : Nat) : (s.assertFaultN seq).releases = s.releases := by simp [State.assertFaultN]
@[simp] theorem State.assertFaultN_replay (s : State) (seq : Nat) : (s.assertFaultN seq).replay = s.replay := by simp [State.assertFaultN]
@[simp] theorem State.assertFaultN_pri (s : State) (seq : Nat) : (s.assertFaultN seq).pri = s.pri := by simp [State.assertFaultN]
@[simp] theorem State.assertFaultN_nextPri (s : State) (seq : Nat) : (s.assertFaultN seq).nextPri = s.nextPri := by simp [State.assertFaultN]
@[simp] theorem State.assertFaultN_priStopped (s : State) (seq : Nat) : (s.assertFaultN seq).priStopped = s.priStopped := by simp [State.assertFaultN]
@[simp] theorem State.assertFaultN_cores (s : State) (seq : Nat) : (s.assertFaultN seq).cores = s.cores := by simp [State.assertFaultN]
@[simp] theorem State.assertFaultN_pairs (s : State) (seq : Nat) : (s.assertFaultN seq).pairs = s.pairs := by simp [State.assertFaultN]
@[simp] theorem State.assertFaultN_clusters (s : State) (seq : Nat) : (s.assertFaultN seq).clusters = s.clusters := by simp [State.assertFaultN]
@[simp] theorem State.assertFaultN_sched (s : State) (seq : Nat) : (s.assertFaultN seq).sched = s.sched := by simp [State.assertFaultN]
@[simp] theorem State.assertFaultN_faultQ (s : State) (seq : Nat) : (s.assertFaultN seq).faultQ = s.faultQ := by simp [State.assertFaultN]
@[simp] theorem State.assertFaultN_faultWait (s : State) (seq : Nat) : (s.assertFaultN seq).faultWait = s.faultWait := by simp [State.assertFaultN]
@[simp] theorem State.assertFaultN_faultSeq (s : State) (seq : Nat) : (s.assertFaultN seq).faultSeq = s.faultSeq := by simp [State.assertFaultN]
@[simp] theorem State.assertFaultN_halts (s : State) (seq : Nat) : (s.assertFaultN seq).halts = s.halts := by simp [State.assertFaultN]
@[simp] theorem State.assertFaultN_parts (s : State) (seq : Nat) : (s.assertFaultN seq).parts = s.parts := by simp [State.assertFaultN]
@[simp] theorem State.assertFaultN_slotTab (s : State) (seq : Nat) : (s.assertFaultN seq).slotTab = s.slotTab := by simp [State.assertFaultN]
@[simp] theorem State.assertFaultN_slotPending (s : State) (seq : Nat) : (s.assertFaultN seq).slotPending = s.slotPending := by simp [State.assertFaultN]
@[simp] theorem State.assertFaultN_fw (s : State) (seq : Nat) : (s.assertFaultN seq).fw = s.fw := by simp [State.assertFaultN]
@[simp] theorem State.assertFaultN_link (s : State) (seq : Nat) : (s.assertFaultN seq).link = s.link := by simp [State.assertFaultN]
@[simp] theorem State.assertFaultN_spdmStored (s : State) (seq : Nat) : (s.assertFaultN seq).spdmStored = s.spdmStored := by simp [State.assertFaultN]
@[simp] theorem State.assertFaultN_spdmLeaf (s : State) (seq : Nat) : (s.assertFaultN seq).spdmLeaf = s.spdmLeaf := by simp [State.assertFaultN]
@[simp] theorem State.assertFaultN_spdmSession (s : State) (seq : Nat) : (s.assertFaultN seq).spdmSession = s.spdmSession := by simp [State.assertFaultN]
@[simp] theorem State.assertFaultN_spdmReply (s : State) (seq : Nat) : (s.assertFaultN seq).spdmReply = s.spdmReply := by simp [State.assertFaultN]
@[simp] theorem State.assertFaultN_pfIdeActive (s : State) (seq : Nat) : (s.assertFaultN seq).pfIdeActive = s.pfIdeActive := by simp [State.assertFaultN]
@[simp] theorem State.assertFaultN_pfIdeNext (s : State) (seq : Nat) : (s.assertFaultN seq).pfIdeNext = s.pfIdeNext := by simp [State.assertFaultN]
@[simp] theorem State.assertFaultN_mgmt (s : State) (seq : Nat) : (s.assertFaultN seq).mgmt = s.mgmt := by simp [State.assertFaultN]
@[simp] theorem State.assertFaultN_reopening (s : State) (seq : Nat) : (s.assertFaultN seq).reopening = s.reopening := by simp [State.assertFaultN]
@[simp] theorem State.assertFaultN_aer (s : State) (seq : Nat) : (s.assertFaultN seq).aer = s.aer := by simp [State.assertFaultN]
@[simp] theorem State.assertFaultN_reply (s : State) (seq : Nat) : (s.assertFaultN seq).reply = s.reply := by simp [State.assertFaultN]
@[simp] theorem State.assertFaultN_mgmtReports (s : State) (seq : Nat) : (s.assertFaultN seq).mgmtReports = s.mgmtReports := by simp [State.assertFaultN]
@[simp] theorem State.assertFaultN_late (s : State) (seq : Nat) : (s.assertFaultN seq).late = s.late := by simp [State.assertFaultN]
@[simp] theorem State.assertFaultN_clockMhz (s : State) (seq : Nat) : (s.assertFaultN seq).clockMhz = s.clockMhz := by simp [State.assertFaultN]
@[simp] theorem State.assertFaultN_tripped (s : State) (seq : Nat) : (s.assertFaultN seq).tripped = s.tripped := by simp [State.assertFaultN]
@[simp] theorem State.assertFaultN_bar (s : State) (seq : Nat) : (s.assertFaultN seq).bar = s.bar := by simp [State.assertFaultN]
@[simp] theorem State.assertFaultN_agenda (s : State) (seq : Nat) : (s.assertFaultN seq).agenda = s.agenda := by simp [State.assertFaultN]
@[simp] theorem State.assertFaultN_cur (s : State) (seq : Nat) : (s.assertFaultN seq).cur = s.cur := by simp [State.assertFaultN]
@[simp] theorem State.assertFaultN_nextId (s : State) (seq : Nat) : (s.assertFaultN seq).nextId = s.nextId := by simp [State.assertFaultN]
@[simp] theorem State.assertFaultN_fetchSeq (s : State) (seq : Nat) : (s.assertFaultN seq).fetchSeq = s.fetchSeq := by simp [State.assertFaultN]
@[simp] theorem State.assertFaultN_events (s : State) (seq : Nat) : (s.assertFaultN seq).events = s.events := by simp [State.assertFaultN]
@[simp] theorem State.assertFaultN_expected (s : State) (seq : Nat) : (s.assertFaultN seq).expected = s.expected := by simp [State.assertFaultN]
@[simp] theorem State.assertFaultN_struck (s : State) (seq : Nat) : (s.assertFaultN seq).struck = s.struck := by simp [State.assertFaultN]

/-! ### `Core.modBlock` -/

@[simp] theorem Core.modBlock_retired (k : Core) (b : Nat) (f : Block → Block) : (k.modBlock b f).retired = k.retired := rfl
@[simp] theorem Core.modBlock_service (k : Core) (b : Nat) (f : Block → Block) : (k.modBlock b f).service = k.service := rfl
@[simp] theorem Core.modBlock_laneMap (k : Core) (b : Nat) (f : Block → Block) : (k.modBlock b f).laneMap = k.laneMap := rfl
@[simp] theorem Core.modBlock_lanesRetired (k : Core) (b : Nat) (f : Block → Block) : (k.modBlock b f).lanesRetired = k.lanesRetired := rfl
@[simp] theorem Core.modBlock_mem (k : Core) (b : Nat) (f : Block → Block) : (k.modBlock b f).mem = k.mem := rfl
@[simp] theorem Core.modBlock_owners (k : Core) (b : Nat) (f : Block → Block) : (k.modBlock b f).owners = k.owners := rfl
@[simp] theorem Core.modBlock_troupes (k : Core) (b : Nat) (f : Block → Block) : (k.modBlock b f).troupes = k.troupes := rfl
@[simp] theorem Core.modBlock_cue (k : Core) (b : Nat) (f : Block → Block) : (k.modBlock b f).cue = k.cue := rfl
@[simp] theorem Core.modBlock_readySeq (k : Core) (b : Nat) (f : Block → Block) : (k.modBlock b f).readySeq = k.readySeq := rfl
@[simp] theorem Core.modBlock_wingsBase (k : Core) (b : Nat) (f : Block → Block) : (k.modBlock b f).wingsBase = k.wingsBase := rfl
@[simp] theorem Core.modBlock_wingsSize (k : Core) (b : Nat) (f : Block → Block) : (k.modBlock b f).wingsSize = k.wingsSize := rfl
@[simp] theorem Core.modBlock_privAreas (k : Core) (b : Nat) (f : Block → Block) : (k.modBlock b f).privAreas = k.privAreas := rfl
@[simp] theorem Core.modBlock_saveArea (k : Core) (b : Nat) (f : Block → Block) : (k.modBlock b f).saveArea = k.saveArea := rfl
@[simp] theorem Core.modBlock_debugArea (k : Core) (b : Nat) (f : Block → Block) : (k.modBlock b f).debugArea = k.debugArea := rfl
@[simp] theorem Core.modBlock_tlb (k : Core) (b : Nat) (f : Block → Block) : (k.modBlock b f).tlb = k.tlb := rfl
@[simp] theorem Core.modBlock_outcomes (k : Core) (b : Nat) (f : Block → Block) : (k.modBlock b f).outcomes = k.outcomes := rfl
@[simp] theorem Core.modBlock_icache (k : Core) (b : Nat) (f : Block → Block) : (k.modBlock b f).icache = k.icache := rfl
@[simp] theorem Core.modBlock_ctxs (k : Core) (b : Nat) (f : Block → Block) : (k.modBlock b f).ctxs = k.ctxs := rfl
@[simp] theorem Core.modBlock_pushSeq (k : Core) (b : Nat) (f : Block → Block) : (k.modBlock b f).pushSeq = k.pushSeq := rfl
@[simp] theorem Core.modBlock_board (k : Core) (b : Nat) (f : Block → Block) : (k.modBlock b f).board = k.board := rfl
@[simp] theorem Core.modBlock_copies (k : Core) (b : Nat) (f : Block → Block) : (k.modBlock b f).copies = k.copies := rfl
@[simp] theorem Core.modBlock_copyOrder (k : Core) (b : Nat) (f : Block → Block) : (k.modBlock b f).copyOrder = k.copyOrder := rfl
@[simp] theorem Core.modBlock_keys (k : Core) (b : Nat) (f : Block → Block) : (k.modBlock b f).keys = k.keys := rfl
@[simp] theorem Core.modBlock_lastChosen (k : Core) (b : Nat) (f : Block → Block) : (k.modBlock b f).lastChosen = k.lastChosen := rfl
@[simp] theorem Core.modBlock_preempt (k : Core) (b : Nat) (f : Block → Block) : (k.modBlock b f).preempt = k.preempt := rfl
@[simp] theorem Core.modBlock_scanFor (k : Core) (b : Nat) (f : Block → Block) : (k.modBlock b f).scanFor = k.scanFor := rfl
@[simp] theorem Core.modBlock_inject (k : Core) (b : Nat) (f : Block → Block) : (k.modBlock b f).inject = k.inject := rfl
@[simp] theorem Core.modBlock_undo (k : Core) (b : Nat) (f : Block → Block) : (k.modBlock b f).undo = k.undo := rfl
@[simp] theorem Core.modBlock_retryPlace (k : Core) (b : Nat) (f : Block → Block) : (k.modBlock b f).retryPlace = k.retryPlace := rfl

/-! ### `Core.modTroupe` -/

@[simp] theorem Core.modTroupe_retired (k : Core) (b i : Nat) (f : Troupe → Troupe) : (k.modTroupe b i f).retired = k.retired := rfl
@[simp] theorem Core.modTroupe_service (k : Core) (b i : Nat) (f : Troupe → Troupe) : (k.modTroupe b i f).service = k.service := rfl
@[simp] theorem Core.modTroupe_laneMap (k : Core) (b i : Nat) (f : Troupe → Troupe) : (k.modTroupe b i f).laneMap = k.laneMap := rfl
@[simp] theorem Core.modTroupe_lanesRetired (k : Core) (b i : Nat) (f : Troupe → Troupe) : (k.modTroupe b i f).lanesRetired = k.lanesRetired := rfl
@[simp] theorem Core.modTroupe_mem (k : Core) (b i : Nat) (f : Troupe → Troupe) : (k.modTroupe b i f).mem = k.mem := rfl
@[simp] theorem Core.modTroupe_owners (k : Core) (b i : Nat) (f : Troupe → Troupe) : (k.modTroupe b i f).owners = k.owners := rfl
@[simp] theorem Core.modTroupe_blocks (k : Core) (b i : Nat) (f : Troupe → Troupe) : (k.modTroupe b i f).blocks = k.blocks := rfl
@[simp] theorem Core.modTroupe_cue (k : Core) (b i : Nat) (f : Troupe → Troupe) : (k.modTroupe b i f).cue = k.cue := rfl
@[simp] theorem Core.modTroupe_readySeq (k : Core) (b i : Nat) (f : Troupe → Troupe) : (k.modTroupe b i f).readySeq = k.readySeq := rfl
@[simp] theorem Core.modTroupe_wingsBase (k : Core) (b i : Nat) (f : Troupe → Troupe) : (k.modTroupe b i f).wingsBase = k.wingsBase := rfl
@[simp] theorem Core.modTroupe_wingsSize (k : Core) (b i : Nat) (f : Troupe → Troupe) : (k.modTroupe b i f).wingsSize = k.wingsSize := rfl
@[simp] theorem Core.modTroupe_privAreas (k : Core) (b i : Nat) (f : Troupe → Troupe) : (k.modTroupe b i f).privAreas = k.privAreas := rfl
@[simp] theorem Core.modTroupe_saveArea (k : Core) (b i : Nat) (f : Troupe → Troupe) : (k.modTroupe b i f).saveArea = k.saveArea := rfl
@[simp] theorem Core.modTroupe_debugArea (k : Core) (b i : Nat) (f : Troupe → Troupe) : (k.modTroupe b i f).debugArea = k.debugArea := rfl
@[simp] theorem Core.modTroupe_tlb (k : Core) (b i : Nat) (f : Troupe → Troupe) : (k.modTroupe b i f).tlb = k.tlb := rfl
@[simp] theorem Core.modTroupe_outcomes (k : Core) (b i : Nat) (f : Troupe → Troupe) : (k.modTroupe b i f).outcomes = k.outcomes := rfl
@[simp] theorem Core.modTroupe_icache (k : Core) (b i : Nat) (f : Troupe → Troupe) : (k.modTroupe b i f).icache = k.icache := rfl
@[simp] theorem Core.modTroupe_ctxs (k : Core) (b i : Nat) (f : Troupe → Troupe) : (k.modTroupe b i f).ctxs = k.ctxs := rfl
@[simp] theorem Core.modTroupe_pushSeq (k : Core) (b i : Nat) (f : Troupe → Troupe) : (k.modTroupe b i f).pushSeq = k.pushSeq := rfl
@[simp] theorem Core.modTroupe_board (k : Core) (b i : Nat) (f : Troupe → Troupe) : (k.modTroupe b i f).board = k.board := rfl
@[simp] theorem Core.modTroupe_copies (k : Core) (b i : Nat) (f : Troupe → Troupe) : (k.modTroupe b i f).copies = k.copies := rfl
@[simp] theorem Core.modTroupe_copyOrder (k : Core) (b i : Nat) (f : Troupe → Troupe) : (k.modTroupe b i f).copyOrder = k.copyOrder := rfl
@[simp] theorem Core.modTroupe_keys (k : Core) (b i : Nat) (f : Troupe → Troupe) : (k.modTroupe b i f).keys = k.keys := rfl
@[simp] theorem Core.modTroupe_lastChosen (k : Core) (b i : Nat) (f : Troupe → Troupe) : (k.modTroupe b i f).lastChosen = k.lastChosen := rfl
@[simp] theorem Core.modTroupe_preempt (k : Core) (b i : Nat) (f : Troupe → Troupe) : (k.modTroupe b i f).preempt = k.preempt := rfl
@[simp] theorem Core.modTroupe_scanFor (k : Core) (b i : Nat) (f : Troupe → Troupe) : (k.modTroupe b i f).scanFor = k.scanFor := rfl
@[simp] theorem Core.modTroupe_inject (k : Core) (b i : Nat) (f : Troupe → Troupe) : (k.modTroupe b i f).inject = k.inject := rfl
@[simp] theorem Core.modTroupe_undo (k : Core) (b i : Nat) (f : Troupe → Troupe) : (k.modTroupe b i f).undo = k.undo := rfl
@[simp] theorem Core.modTroupe_retryPlace (k : Core) (b i : Nat) (f : Troupe → Troupe) : (k.modTroupe b i f).retryPlace = k.retryPlace := rfl

/-! ### `Core.modCtx` -/

@[simp] theorem Core.modCtx_retired (k : Core) (n : Nat) (f : Ctx → Ctx) : (k.modCtx n f).retired = k.retired := rfl
@[simp] theorem Core.modCtx_service (k : Core) (n : Nat) (f : Ctx → Ctx) : (k.modCtx n f).service = k.service := rfl
@[simp] theorem Core.modCtx_laneMap (k : Core) (n : Nat) (f : Ctx → Ctx) : (k.modCtx n f).laneMap = k.laneMap := rfl
@[simp] theorem Core.modCtx_lanesRetired (k : Core) (n : Nat) (f : Ctx → Ctx) : (k.modCtx n f).lanesRetired = k.lanesRetired := rfl
@[simp] theorem Core.modCtx_mem (k : Core) (n : Nat) (f : Ctx → Ctx) : (k.modCtx n f).mem = k.mem := rfl
@[simp] theorem Core.modCtx_owners (k : Core) (n : Nat) (f : Ctx → Ctx) : (k.modCtx n f).owners = k.owners := rfl
@[simp] theorem Core.modCtx_blocks (k : Core) (n : Nat) (f : Ctx → Ctx) : (k.modCtx n f).blocks = k.blocks := rfl
@[simp] theorem Core.modCtx_troupes (k : Core) (n : Nat) (f : Ctx → Ctx) : (k.modCtx n f).troupes = k.troupes := rfl
@[simp] theorem Core.modCtx_cue (k : Core) (n : Nat) (f : Ctx → Ctx) : (k.modCtx n f).cue = k.cue := rfl
@[simp] theorem Core.modCtx_readySeq (k : Core) (n : Nat) (f : Ctx → Ctx) : (k.modCtx n f).readySeq = k.readySeq := rfl
@[simp] theorem Core.modCtx_wingsBase (k : Core) (n : Nat) (f : Ctx → Ctx) : (k.modCtx n f).wingsBase = k.wingsBase := rfl
@[simp] theorem Core.modCtx_wingsSize (k : Core) (n : Nat) (f : Ctx → Ctx) : (k.modCtx n f).wingsSize = k.wingsSize := rfl
@[simp] theorem Core.modCtx_privAreas (k : Core) (n : Nat) (f : Ctx → Ctx) : (k.modCtx n f).privAreas = k.privAreas := rfl
@[simp] theorem Core.modCtx_saveArea (k : Core) (n : Nat) (f : Ctx → Ctx) : (k.modCtx n f).saveArea = k.saveArea := rfl
@[simp] theorem Core.modCtx_debugArea (k : Core) (n : Nat) (f : Ctx → Ctx) : (k.modCtx n f).debugArea = k.debugArea := rfl
@[simp] theorem Core.modCtx_tlb (k : Core) (n : Nat) (f : Ctx → Ctx) : (k.modCtx n f).tlb = k.tlb := rfl
@[simp] theorem Core.modCtx_outcomes (k : Core) (n : Nat) (f : Ctx → Ctx) : (k.modCtx n f).outcomes = k.outcomes := rfl
@[simp] theorem Core.modCtx_icache (k : Core) (n : Nat) (f : Ctx → Ctx) : (k.modCtx n f).icache = k.icache := rfl
@[simp] theorem Core.modCtx_pushSeq (k : Core) (n : Nat) (f : Ctx → Ctx) : (k.modCtx n f).pushSeq = k.pushSeq := rfl
@[simp] theorem Core.modCtx_board (k : Core) (n : Nat) (f : Ctx → Ctx) : (k.modCtx n f).board = k.board := rfl
@[simp] theorem Core.modCtx_copies (k : Core) (n : Nat) (f : Ctx → Ctx) : (k.modCtx n f).copies = k.copies := rfl
@[simp] theorem Core.modCtx_copyOrder (k : Core) (n : Nat) (f : Ctx → Ctx) : (k.modCtx n f).copyOrder = k.copyOrder := rfl
@[simp] theorem Core.modCtx_keys (k : Core) (n : Nat) (f : Ctx → Ctx) : (k.modCtx n f).keys = k.keys := rfl
@[simp] theorem Core.modCtx_lastChosen (k : Core) (n : Nat) (f : Ctx → Ctx) : (k.modCtx n f).lastChosen = k.lastChosen := rfl
@[simp] theorem Core.modCtx_preempt (k : Core) (n : Nat) (f : Ctx → Ctx) : (k.modCtx n f).preempt = k.preempt := rfl
@[simp] theorem Core.modCtx_scanFor (k : Core) (n : Nat) (f : Ctx → Ctx) : (k.modCtx n f).scanFor = k.scanFor := rfl
@[simp] theorem Core.modCtx_inject (k : Core) (n : Nat) (f : Ctx → Ctx) : (k.modCtx n f).inject = k.inject := rfl
@[simp] theorem Core.modCtx_undo (k : Core) (n : Nat) (f : Ctx → Ctx) : (k.modCtx n f).undo = k.undo := rfl
@[simp] theorem Core.modCtx_retryPlace (k : Core) (n : Nat) (f : Ctx → Ctx) : (k.modCtx n f).retryPlace = k.retryPlace := rfl

/-! ### `Troupe.modLanes` -/

@[simp] theorem Troupe.modLanes_blk (t : Troupe) (m : Mask) (f : Nat → Lane → Lane) : (t.modLanes m f).blk = t.blk := rfl
@[simp] theorem Troupe.modLanes_idx (t : Troupe) (m : Mask) (f : Nat → Lane → Lane) : (t.modLanes m f).idx = t.idx := rfl
@[simp] theorem Troupe.modLanes_slot (t : Troupe) (m : Mask) (f : Nat → Lane → Lane) : (t.modLanes m f).slot = t.slot := rfl
@[simp] theorem Troupe.modLanes_frameSpilled (t : Troupe) (m : Mask) (f : Nat → Lane → Lane) : (t.modLanes m f).frameSpilled = t.frameSpilled := rfl
@[simp] theorem Troupe.modLanes_frameAt (t : Troupe) (m : Mask) (f : Nat → Lane → Lane) : (t.modLanes m f).frameAt = t.frameAt := rfl
@[simp] theorem Troupe.modLanes_frameWritten (t : Troupe) (m : Mask) (f : Nat → Lane → Lane) : (t.modLanes m f).frameWritten = t.frameWritten := rfl
@[simp] theorem Troupe.modLanes_regs (t : Troupe) (m : Mask) (f : Nat → Lane → Lane) : (t.modLanes m f).regs = t.regs := rfl
@[simp] theorem Troupe.modLanes_k (t : Troupe) (m : Mask) (f : Nat → Lane → Lane) : (t.modLanes m f).k = t.k := rfl
@[simp] theorem Troupe.modLanes_c (t : Troupe) (m : Mask) (f : Nat → Lane → Lane) : (t.modLanes m f).c = t.c := rfl
@[simp] theorem Troupe.modLanes_bounds (t : Troupe) (m : Mask) (f : Nat → Lane → Lane) : (t.modLanes m f).bounds = t.bounds := rfl
@[simp] theorem Troupe.modLanes_tiles (t : Troupe) (m : Mask) (f : Nat → Lane → Lane) : (t.modLanes m f).tiles = t.tiles := rfl
@[simp] theorem Troupe.modLanes_fmode (t : Troupe) (m : Mask) (f : Nat → Lane → Lane) : (t.modLanes m f).fmode = t.fmode := rfl
@[simp] theorem Troupe.modLanes_fstat (t : Troupe) (m : Mask) (f : Nat → Lane → Lane) : (t.modLanes m f).fstat = t.fstat := rfl
@[simp] theorem Troupe.modLanes_satt (t : Troupe) (m : Mask) (f : Nat → Lane → Lane) : (t.modLanes m f).satt = t.satt := rfl
@[simp] theorem Troupe.modLanes_step (t : Troupe) (m : Mask) (f : Nat → Lane → Lane) : (t.modLanes m f).step = t.step := rfl
@[simp] theorem Troupe.modLanes_recCount (t : Troupe) (m : Mask) (f : Nat → Lane → Lane) : (t.modLanes m f).recCount = t.recCount := rfl
@[simp] theorem Troupe.modLanes_live (t : Troupe) (m : Mask) (f : Nat → Lane → Lane) : (t.modLanes m f).live = t.live := rfl
@[simp] theorem Troupe.modLanes_liveSet (t : Troupe) (m : Mask) (f : Nat → Lane → Lane) : (t.modLanes m f).liveSet = t.liveSet := rfl
@[simp] theorem Troupe.modLanes_prio (t : Troupe) (m : Mask) (f : Nat → Lane → Lane) : (t.modLanes m f).prio = t.prio := rfl
@[simp] theorem Troupe.modLanes_sib (t : Troupe) (m : Mask) (f : Nat → Lane → Lane) : (t.modLanes m f).sib = t.sib := rfl
@[simp] theorem Troupe.modLanes_marks (t : Troupe) (m : Mask) (f : Nat → Lane → Lane) : (t.modLanes m f).marks = t.marks := rfl
@[simp] theorem Troupe.modLanes_deferred (t : Troupe) (m : Mask) (f : Nat → Lane → Lane) : (t.modLanes m f).deferred = t.deferred := rfl
@[simp] theorem Troupe.modLanes_skip (t : Troupe) (m : Mask) (f : Nat → Lane → Lane) : (t.modLanes m f).skip = t.skip := rfl
@[simp] theorem Troupe.modLanes_placedAt (t : Troupe) (m : Mask) (f : Nat → Lane → Lane) : (t.modLanes m f).placedAt = t.placedAt := rfl
@[simp] theorem Troupe.modLanes_away (t : Troupe) (m : Mask) (f : Nat → Lane → Lane) : (t.modLanes m f).away = t.away := rfl
@[simp] theorem Troupe.modLanes_watched (t : Troupe) (m : Mask) (f : Nat → Lane → Lane) : (t.modLanes m f).watched = t.watched := rfl
@[simp] theorem Troupe.modLanes_role (t : Troupe) (m : Mask) (f : Nat → Lane → Lane) : (t.modLanes m f).role = t.role := rfl
@[simp] theorem Troupe.modLanes_retry (t : Troupe) (m : Mask) (f : Nat → Lane → Lane) : (t.modLanes m f).retry = t.retry := rfl

/-! ### `Troupe.writeReg` -/

@[simp] theorem Troupe.writeReg_blk (t : Troupe) (r : Nat) (m : Mask) (g : Tag) (v : Nat → Word) : (t.writeReg r m g v).blk = t.blk := rfl
@[simp] theorem Troupe.writeReg_idx (t : Troupe) (r : Nat) (m : Mask) (g : Tag) (v : Nat → Word) : (t.writeReg r m g v).idx = t.idx := rfl
@[simp] theorem Troupe.writeReg_slot (t : Troupe) (r : Nat) (m : Mask) (g : Tag) (v : Nat → Word) : (t.writeReg r m g v).slot = t.slot := rfl
@[simp] theorem Troupe.writeReg_frameSpilled (t : Troupe) (r : Nat) (m : Mask) (g : Tag) (v : Nat → Word) : (t.writeReg r m g v).frameSpilled = t.frameSpilled := rfl
@[simp] theorem Troupe.writeReg_frameAt (t : Troupe) (r : Nat) (m : Mask) (g : Tag) (v : Nat → Word) : (t.writeReg r m g v).frameAt = t.frameAt := rfl
@[simp] theorem Troupe.writeReg_frameWritten (t : Troupe) (r : Nat) (m : Mask) (g : Tag) (v : Nat → Word) : (t.writeReg r m g v).frameWritten = t.frameWritten := rfl
@[simp] theorem Troupe.writeReg_lanes (t : Troupe) (r : Nat) (m : Mask) (g : Tag) (v : Nat → Word) : (t.writeReg r m g v).lanes = t.lanes := rfl
@[simp] theorem Troupe.writeReg_k (t : Troupe) (r : Nat) (m : Mask) (g : Tag) (v : Nat → Word) : (t.writeReg r m g v).k = t.k := rfl
@[simp] theorem Troupe.writeReg_c (t : Troupe) (r : Nat) (m : Mask) (g : Tag) (v : Nat → Word) : (t.writeReg r m g v).c = t.c := rfl
@[simp] theorem Troupe.writeReg_bounds (t : Troupe) (r : Nat) (m : Mask) (g : Tag) (v : Nat → Word) : (t.writeReg r m g v).bounds = t.bounds := rfl
@[simp] theorem Troupe.writeReg_tiles (t : Troupe) (r : Nat) (m : Mask) (g : Tag) (v : Nat → Word) : (t.writeReg r m g v).tiles = t.tiles := rfl
@[simp] theorem Troupe.writeReg_fmode (t : Troupe) (r : Nat) (m : Mask) (g : Tag) (v : Nat → Word) : (t.writeReg r m g v).fmode = t.fmode := rfl
@[simp] theorem Troupe.writeReg_fstat (t : Troupe) (r : Nat) (m : Mask) (g : Tag) (v : Nat → Word) : (t.writeReg r m g v).fstat = t.fstat := rfl
@[simp] theorem Troupe.writeReg_satt (t : Troupe) (r : Nat) (m : Mask) (g : Tag) (v : Nat → Word) : (t.writeReg r m g v).satt = t.satt := rfl
@[simp] theorem Troupe.writeReg_step (t : Troupe) (r : Nat) (m : Mask) (g : Tag) (v : Nat → Word) : (t.writeReg r m g v).step = t.step := rfl
@[simp] theorem Troupe.writeReg_recCount (t : Troupe) (r : Nat) (m : Mask) (g : Tag) (v : Nat → Word) : (t.writeReg r m g v).recCount = t.recCount := rfl
@[simp] theorem Troupe.writeReg_live (t : Troupe) (r : Nat) (m : Mask) (g : Tag) (v : Nat → Word) : (t.writeReg r m g v).live = t.live := rfl
@[simp] theorem Troupe.writeReg_liveSet (t : Troupe) (r : Nat) (m : Mask) (g : Tag) (v : Nat → Word) : (t.writeReg r m g v).liveSet = t.liveSet := rfl
@[simp] theorem Troupe.writeReg_prio (t : Troupe) (r : Nat) (m : Mask) (g : Tag) (v : Nat → Word) : (t.writeReg r m g v).prio = t.prio := rfl
@[simp] theorem Troupe.writeReg_sib (t : Troupe) (r : Nat) (m : Mask) (g : Tag) (v : Nat → Word) : (t.writeReg r m g v).sib = t.sib := rfl
@[simp] theorem Troupe.writeReg_marks (t : Troupe) (r : Nat) (m : Mask) (g : Tag) (v : Nat → Word) : (t.writeReg r m g v).marks = t.marks := rfl
@[simp] theorem Troupe.writeReg_deferred (t : Troupe) (r : Nat) (m : Mask) (g : Tag) (v : Nat → Word) : (t.writeReg r m g v).deferred = t.deferred := rfl
@[simp] theorem Troupe.writeReg_skip (t : Troupe) (r : Nat) (m : Mask) (g : Tag) (v : Nat → Word) : (t.writeReg r m g v).skip = t.skip := rfl
@[simp] theorem Troupe.writeReg_placedAt (t : Troupe) (r : Nat) (m : Mask) (g : Tag) (v : Nat → Word) : (t.writeReg r m g v).placedAt = t.placedAt := rfl
@[simp] theorem Troupe.writeReg_away (t : Troupe) (r : Nat) (m : Mask) (g : Tag) (v : Nat → Word) : (t.writeReg r m g v).away = t.away := rfl
@[simp] theorem Troupe.writeReg_watched (t : Troupe) (r : Nat) (m : Mask) (g : Tag) (v : Nat → Word) : (t.writeReg r m g v).watched = t.watched := rfl
@[simp] theorem Troupe.writeReg_role (t : Troupe) (r : Nat) (m : Mask) (g : Tag) (v : Nat → Word) : (t.writeReg r m g v).role = t.role := rfl
@[simp] theorem Troupe.writeReg_retry (t : Troupe) (r : Nat) (m : Mask) (g : Tag) (v : Nat → Word) : (t.writeReg r m g v).retry = t.retry := rfl

/-! ### `Troupe.setK` -/

@[simp] theorem Troupe.setK_blk (t : Troupe) (n : Nat) (v : DWord) : (t.setK n v).blk = t.blk := rfl
@[simp] theorem Troupe.setK_idx (t : Troupe) (n : Nat) (v : DWord) : (t.setK n v).idx = t.idx := rfl
@[simp] theorem Troupe.setK_slot (t : Troupe) (n : Nat) (v : DWord) : (t.setK n v).slot = t.slot := rfl
@[simp] theorem Troupe.setK_frameSpilled (t : Troupe) (n : Nat) (v : DWord) : (t.setK n v).frameSpilled = t.frameSpilled := rfl
@[simp] theorem Troupe.setK_frameAt (t : Troupe) (n : Nat) (v : DWord) : (t.setK n v).frameAt = t.frameAt := rfl
@[simp] theorem Troupe.setK_frameWritten (t : Troupe) (n : Nat) (v : DWord) : (t.setK n v).frameWritten = t.frameWritten := rfl
@[simp] theorem Troupe.setK_regs (t : Troupe) (n : Nat) (v : DWord) : (t.setK n v).regs = t.regs := rfl
@[simp] theorem Troupe.setK_lanes (t : Troupe) (n : Nat) (v : DWord) : (t.setK n v).lanes = t.lanes := rfl
@[simp] theorem Troupe.setK_c (t : Troupe) (n : Nat) (v : DWord) : (t.setK n v).c = t.c := rfl
@[simp] theorem Troupe.setK_bounds (t : Troupe) (n : Nat) (v : DWord) : (t.setK n v).bounds = t.bounds := rfl
@[simp] theorem Troupe.setK_tiles (t : Troupe) (n : Nat) (v : DWord) : (t.setK n v).tiles = t.tiles := rfl
@[simp] theorem Troupe.setK_fmode (t : Troupe) (n : Nat) (v : DWord) : (t.setK n v).fmode = t.fmode := rfl
@[simp] theorem Troupe.setK_fstat (t : Troupe) (n : Nat) (v : DWord) : (t.setK n v).fstat = t.fstat := rfl
@[simp] theorem Troupe.setK_satt (t : Troupe) (n : Nat) (v : DWord) : (t.setK n v).satt = t.satt := rfl
@[simp] theorem Troupe.setK_step (t : Troupe) (n : Nat) (v : DWord) : (t.setK n v).step = t.step := rfl
@[simp] theorem Troupe.setK_recCount (t : Troupe) (n : Nat) (v : DWord) : (t.setK n v).recCount = t.recCount := rfl
@[simp] theorem Troupe.setK_live (t : Troupe) (n : Nat) (v : DWord) : (t.setK n v).live = t.live := rfl
@[simp] theorem Troupe.setK_liveSet (t : Troupe) (n : Nat) (v : DWord) : (t.setK n v).liveSet = t.liveSet := rfl
@[simp] theorem Troupe.setK_prio (t : Troupe) (n : Nat) (v : DWord) : (t.setK n v).prio = t.prio := rfl
@[simp] theorem Troupe.setK_sib (t : Troupe) (n : Nat) (v : DWord) : (t.setK n v).sib = t.sib := rfl
@[simp] theorem Troupe.setK_marks (t : Troupe) (n : Nat) (v : DWord) : (t.setK n v).marks = t.marks := rfl
@[simp] theorem Troupe.setK_deferred (t : Troupe) (n : Nat) (v : DWord) : (t.setK n v).deferred = t.deferred := rfl
@[simp] theorem Troupe.setK_skip (t : Troupe) (n : Nat) (v : DWord) : (t.setK n v).skip = t.skip := rfl
@[simp] theorem Troupe.setK_placedAt (t : Troupe) (n : Nat) (v : DWord) : (t.setK n v).placedAt = t.placedAt := rfl
@[simp] theorem Troupe.setK_away (t : Troupe) (n : Nat) (v : DWord) : (t.setK n v).away = t.away := rfl
@[simp] theorem Troupe.setK_watched (t : Troupe) (n : Nat) (v : DWord) : (t.setK n v).watched = t.watched := rfl
@[simp] theorem Troupe.setK_role (t : Troupe) (n : Nat) (v : DWord) : (t.setK n v).role = t.role := rfl
@[simp] theorem Troupe.setK_retry (t : Troupe) (n : Nat) (v : DWord) : (t.setK n v).retry = t.retry := rfl

/-! ### `Troupe.setC` -/

@[simp] theorem Troupe.setC_blk (t : Troupe) (n : Nat) (v : Bool) : (t.setC n v).blk = t.blk := rfl
@[simp] theorem Troupe.setC_idx (t : Troupe) (n : Nat) (v : Bool) : (t.setC n v).idx = t.idx := rfl
@[simp] theorem Troupe.setC_slot (t : Troupe) (n : Nat) (v : Bool) : (t.setC n v).slot = t.slot := rfl
@[simp] theorem Troupe.setC_frameSpilled (t : Troupe) (n : Nat) (v : Bool) : (t.setC n v).frameSpilled = t.frameSpilled := rfl
@[simp] theorem Troupe.setC_frameAt (t : Troupe) (n : Nat) (v : Bool) : (t.setC n v).frameAt = t.frameAt := rfl
@[simp] theorem Troupe.setC_frameWritten (t : Troupe) (n : Nat) (v : Bool) : (t.setC n v).frameWritten = t.frameWritten := rfl
@[simp] theorem Troupe.setC_regs (t : Troupe) (n : Nat) (v : Bool) : (t.setC n v).regs = t.regs := rfl
@[simp] theorem Troupe.setC_lanes (t : Troupe) (n : Nat) (v : Bool) : (t.setC n v).lanes = t.lanes := rfl
@[simp] theorem Troupe.setC_k (t : Troupe) (n : Nat) (v : Bool) : (t.setC n v).k = t.k := rfl
@[simp] theorem Troupe.setC_bounds (t : Troupe) (n : Nat) (v : Bool) : (t.setC n v).bounds = t.bounds := rfl
@[simp] theorem Troupe.setC_tiles (t : Troupe) (n : Nat) (v : Bool) : (t.setC n v).tiles = t.tiles := rfl
@[simp] theorem Troupe.setC_fmode (t : Troupe) (n : Nat) (v : Bool) : (t.setC n v).fmode = t.fmode := rfl
@[simp] theorem Troupe.setC_fstat (t : Troupe) (n : Nat) (v : Bool) : (t.setC n v).fstat = t.fstat := rfl
@[simp] theorem Troupe.setC_satt (t : Troupe) (n : Nat) (v : Bool) : (t.setC n v).satt = t.satt := rfl
@[simp] theorem Troupe.setC_step (t : Troupe) (n : Nat) (v : Bool) : (t.setC n v).step = t.step := rfl
@[simp] theorem Troupe.setC_recCount (t : Troupe) (n : Nat) (v : Bool) : (t.setC n v).recCount = t.recCount := rfl
@[simp] theorem Troupe.setC_live (t : Troupe) (n : Nat) (v : Bool) : (t.setC n v).live = t.live := rfl
@[simp] theorem Troupe.setC_liveSet (t : Troupe) (n : Nat) (v : Bool) : (t.setC n v).liveSet = t.liveSet := rfl
@[simp] theorem Troupe.setC_prio (t : Troupe) (n : Nat) (v : Bool) : (t.setC n v).prio = t.prio := rfl
@[simp] theorem Troupe.setC_sib (t : Troupe) (n : Nat) (v : Bool) : (t.setC n v).sib = t.sib := rfl
@[simp] theorem Troupe.setC_marks (t : Troupe) (n : Nat) (v : Bool) : (t.setC n v).marks = t.marks := rfl
@[simp] theorem Troupe.setC_deferred (t : Troupe) (n : Nat) (v : Bool) : (t.setC n v).deferred = t.deferred := rfl
@[simp] theorem Troupe.setC_skip (t : Troupe) (n : Nat) (v : Bool) : (t.setC n v).skip = t.skip := rfl
@[simp] theorem Troupe.setC_placedAt (t : Troupe) (n : Nat) (v : Bool) : (t.setC n v).placedAt = t.placedAt := rfl
@[simp] theorem Troupe.setC_away (t : Troupe) (n : Nat) (v : Bool) : (t.setC n v).away = t.away := rfl
@[simp] theorem Troupe.setC_watched (t : Troupe) (n : Nat) (v : Bool) : (t.setC n v).watched = t.watched := rfl
@[simp] theorem Troupe.setC_role (t : Troupe) (n : Nat) (v : Bool) : (t.setC n v).role = t.role := rfl
@[simp] theorem Troupe.setC_retry (t : Troupe) (n : Nat) (v : Bool) : (t.setC n v).retry = t.retry := rfl

/-! ### `Troupe.orFstat` -/

@[simp] theorem Troupe.orFstat_blk (t : Troupe) (f : Flags) : (t.orFstat f).blk = t.blk := rfl
@[simp] theorem Troupe.orFstat_idx (t : Troupe) (f : Flags) : (t.orFstat f).idx = t.idx := rfl
@[simp] theorem Troupe.orFstat_slot (t : Troupe) (f : Flags) : (t.orFstat f).slot = t.slot := rfl
@[simp] theorem Troupe.orFstat_frameSpilled (t : Troupe) (f : Flags) : (t.orFstat f).frameSpilled = t.frameSpilled := rfl
@[simp] theorem Troupe.orFstat_frameAt (t : Troupe) (f : Flags) : (t.orFstat f).frameAt = t.frameAt := rfl
@[simp] theorem Troupe.orFstat_frameWritten (t : Troupe) (f : Flags) : (t.orFstat f).frameWritten = t.frameWritten := rfl
@[simp] theorem Troupe.orFstat_regs (t : Troupe) (f : Flags) : (t.orFstat f).regs = t.regs := rfl
@[simp] theorem Troupe.orFstat_lanes (t : Troupe) (f : Flags) : (t.orFstat f).lanes = t.lanes := rfl
@[simp] theorem Troupe.orFstat_k (t : Troupe) (f : Flags) : (t.orFstat f).k = t.k := rfl
@[simp] theorem Troupe.orFstat_c (t : Troupe) (f : Flags) : (t.orFstat f).c = t.c := rfl
@[simp] theorem Troupe.orFstat_bounds (t : Troupe) (f : Flags) : (t.orFstat f).bounds = t.bounds := rfl
@[simp] theorem Troupe.orFstat_tiles (t : Troupe) (f : Flags) : (t.orFstat f).tiles = t.tiles := rfl
@[simp] theorem Troupe.orFstat_fmode (t : Troupe) (f : Flags) : (t.orFstat f).fmode = t.fmode := rfl
@[simp] theorem Troupe.orFstat_satt (t : Troupe) (f : Flags) : (t.orFstat f).satt = t.satt := rfl
@[simp] theorem Troupe.orFstat_step (t : Troupe) (f : Flags) : (t.orFstat f).step = t.step := rfl
@[simp] theorem Troupe.orFstat_recCount (t : Troupe) (f : Flags) : (t.orFstat f).recCount = t.recCount := rfl
@[simp] theorem Troupe.orFstat_live (t : Troupe) (f : Flags) : (t.orFstat f).live = t.live := rfl
@[simp] theorem Troupe.orFstat_liveSet (t : Troupe) (f : Flags) : (t.orFstat f).liveSet = t.liveSet := rfl
@[simp] theorem Troupe.orFstat_prio (t : Troupe) (f : Flags) : (t.orFstat f).prio = t.prio := rfl
@[simp] theorem Troupe.orFstat_sib (t : Troupe) (f : Flags) : (t.orFstat f).sib = t.sib := rfl
@[simp] theorem Troupe.orFstat_marks (t : Troupe) (f : Flags) : (t.orFstat f).marks = t.marks := rfl
@[simp] theorem Troupe.orFstat_deferred (t : Troupe) (f : Flags) : (t.orFstat f).deferred = t.deferred := rfl
@[simp] theorem Troupe.orFstat_skip (t : Troupe) (f : Flags) : (t.orFstat f).skip = t.skip := rfl
@[simp] theorem Troupe.orFstat_placedAt (t : Troupe) (f : Flags) : (t.orFstat f).placedAt = t.placedAt := rfl
@[simp] theorem Troupe.orFstat_away (t : Troupe) (f : Flags) : (t.orFstat f).away = t.away := rfl
@[simp] theorem Troupe.orFstat_watched (t : Troupe) (f : Flags) : (t.orFstat f).watched = t.watched := rfl
@[simp] theorem Troupe.orFstat_role (t : Troupe) (f : Flags) : (t.orFstat f).role = t.role := rfl
@[simp] theorem Troupe.orFstat_retry (t : Troupe) (f : Flags) : (t.orFstat f).retry = t.retry := rfl

end Sys2Proof.Machine
end

