-- ==== Sys2Proof/Laws/Frame.lean ====
section
/-!
SUPPORT. What the frame of a thread instruction does, and what the ends of its body deliver: the lemmas that
every claim about an instruction's result cites in place of the frame's definition.
-/
namespace Sys2Proof.Machine

/-! ### Masks -/

/-- The sum that builds a mask has the bits of the test. -/
theorem ofTest_fold (t : Nat → Bool) (n : Nat) :
    ((List.range n).foldl (fun a l => if t l then a + 2 ^ l else a) 0) < 2 ^ n ∧
    ∀ l, ((List.range n).foldl (fun a l => if t l then a + 2 ^ l else a) 0).testBit l = (decide (l < n) && t l) := by
  induction n with
  | zero => simp
  | succ n ih =>
    obtain ⟨hlt, hb⟩ := ih
    rw [List.range_succ, List.foldl_append]
    simp only [List.foldl_cons, List.foldl_nil]
    generalize ((List.range n).foldl (fun a l => if t l then a + 2 ^ l else a) 0) = x at hlt hb
    refine ⟨?_, fun l => ?_⟩
    · split <;> simp only [Nat.pow_succ] <;> omega
    · have hx : ∀ l, n ≤ l → x.testBit l = false := fun l hl => by rw [hb l]; simp; omega
      by_cases ht : t n = true
      · rw [if_pos ht, Nat.add_comm, ← Nat.mul_one (2 ^ n), Nat.testBit_two_pow_mul_add 1 hlt l]
        by_cases hl : l < n
        · rw [if_pos hl, hb l]; simp [hl, Nat.lt_succ_of_lt hl]
        · rw [if_neg hl]
          by_cases he : l = n
          · subst he; simp [ht]
          · obtain ⟨k, hk⟩ : ∃ k, l - n = k + 1 := ⟨l - n - 1, by omega⟩
            have h2 : ¬(l < n + 1) := by omega
            simp [hk, h2, Nat.testBit_succ]
      · rw [if_neg ht, hb l]
        by_cases he : l = n
        · subst he; simp [ht]
        · have : (l < n + 1) = (l < n) := by rw [eq_iff_iff]; omega
          simp [this]

/-- A lane belongs to the mask of a test when the test holds of it. -/
@[simp] theorem Mask.has_ofTest (t : Nat → Bool) (l : Nat) : (Mask.ofTest t).has l = (decide (l < 64) && t l) := by
  have h := ofTest_fold t 64
  unfold Mask.ofTest Mask.has laneNumbers
  rw [BitVec.getLsbD_ofNat, h.2 l]
  by_cases hl : l < 64 <;> simp [hl]

/-- No lane from 64 on belongs to a mask. -/
theorem Mask.has_ge (m : Mask) (l : Nat) (h : 64 ≤ l) : m.has l = false := BitVec.getLsbD_of_ge m l h

/-- Masks with the same lanes are equal. -/
theorem Mask.ext_has (a b : Mask) (h : ∀ l, l < 64 → a.has l = b.has l) : a = b := BitVec.eq_of_getLsbD_eq h

/-- The lanes of a mask. -/
@[simp] theorem Mask.mem_lanes (m : Mask) (l : Nat) : l ∈ m.lanes ↔ m.has l = true := by
  unfold Mask.lanes laneNumbers
  rw [List.mem_filter, List.mem_range]
  constructor
  · exact fun h => h.2
  · intro h
    refine ⟨?_, h⟩
    rcases Nat.lt_or_ge l 64 with hl | hl
    · exact hl
    · rw [Mask.has_ge m l hl] at h; exact absurd h (by decide)

/-! ### Beginning and completing (R33, R59, R176) -/

/-- The active lanes of a path that begins. -/
theorem Begins.lanes {i : Instr} {h : Head} {len : Nat} {s : State} {p : Path} {s1 s2 : State}
    (b : Begins i h len s p s1 s2) : activeLanes (s1.troupe p) h p.at_.lanes = p.active := by
  apply Mask.ext_has
  intro l hl
  unfold activeLanes
  rw [Mask.has_ofTest]
  have := b.guard l hl
  rw [Bool.eq_iff_iff, this]
  simp [hl]

/-- The frame of a path that begins: what its body answers is what the step answers. -/
theorem runThread_begins {i : Instr} {h : Head} {len : Nat} {s : State} {p : Path} {s1 s2 : State}
    {body : Path → State → Exe State} (b : Begins i h len s p s1 s2) :
    runThread i h len body s = match body p s2 with
      | .ok s3 => .next (s3.logUndo p.at_ s1)
      | .error e => .next (s1.stopPath p (e.decided (s1.troupe p) i p.active)) := by
  obtain ⟨t, ht, hr⟩ := b.placed
  have hl := b.lanes
  have ha := b.active
  have hm := b.moved
  have he := b.entry
  have hlen := b.length
  obtain ⟨q, act, n⟩ := p
  simp only at hlen
  subst hlen
  unfold runThread
  rw [b.chosen]
  have ht' : (s.unselect.core q.core).troupe q.blk q.troupe = some t := ht
  have hact : activeLanes (s1.troupe { at_ := q, active := 0, len := n }) h q.lanes = act := hl
  simp only [ht', hr]
  by_cases hE : h.e = true
  · rw [if_pos hE] at he
    simp only [hE, if_true, he.1, he.2, Bool.and_false, Bool.false_eq_true, if_false, hact, ← hm]
    refine (if_neg ha).trans ?_
    rfl
  · rw [if_neg hE] at he
    simp only [hE, Bool.false_eq_true, if_false, Bool.false_and, ← he, hact, ← hm]
    refine (if_neg ha).trans ?_
    rfl

/-- A body that completes on a path that begins: the whole frame. -/
theorem runThread_ok {i : Instr} {h : Head} {len : Nat} {s : State} {p : Path} {s1 s2 s3 : State}
    {body : Path → State → Exe State} (b : Begins i h len s p s1 s2) (hb : body p s2 = .ok s3) :
    runThread i h len body s = .next (s3.logUndo p.at_ s1) := by
  rw [runThread_begins b, hb]

/-- A body that stops on a path that begins. -/
theorem runThread_error {i : Instr} {h : Head} {len : Nat} {s : State} {p : Path} {s1 s2 : State} {e : Stop}
    {body : Path → State → Exe State} (b : Begins i h len s p s1 s2) (hb : body p s2 = .error e) :
    runThread i h len body s = .next (s1.stopPath p (e.decided (s1.troupe p) i p.active)) := by
  rw [runThread_begins b, hb]

/-- A fault that concerns no port stands: nothing that the ports do comes before it (R117). -/
@[simp] theorem Stop.decided_fault (code : Nat) (m : Mask) (a : DWord) (arg : Nat) (key : Key) (t : Troupe) (i : Instr)
    (act : Mask) : (Stop.fault code m a arg none key).decided t i act = .fault code m a arg none key := rfl

/-- A path without an active lane does nothing but go on, mark its last reads and pass its region entry (R33). -/
theorem runThread_idle {i : Instr} {h : Head} {len : Nat} {s s1 : State} {q : Issue} {t : Troupe}
    {body : Path → State → Exe State} (hc : s.cur = some q)
    (ht : (s.core q.core).troupe q.blk q.troupe = some t) (hr : regBoundOf i t.regs.length = none)
    (he : if h.e then s.unselect.regionEntry q = .ok s1 ∧ s1.mustStop q = false else s1 = s.unselect)
    (ha : activeLanes (s1.troupe { at_ := q, active := 0, len := len }) h q.lanes = 0) :
    runThread i h len body s = .next ((s1.advance { at_ := q, active := 0, len := len }).markReads
      { at_ := q, active := 0, len := len }
      (lastReads i (s1.troupe { at_ := q, active := 0, len := len }) 0)) := by
  unfold runThread
  rw [hc]
  have ht' : (s.unselect.core q.core).troupe q.blk q.troupe = some t := ht
  simp only [ht', hr]
  by_cases hE : h.e = true
  · rw [if_pos hE] at he
    simp only [hE, if_true, he.1, he.2, Bool.and_false, Bool.false_eq_true, if_false, ha]
  · rw [if_neg hE] at he
    simp only [hE, Bool.false_eq_true, if_false, Bool.false_and, ← he, ha, if_true]

/-- REGBOUND is raised before anything else of the instruction happens (R59). -/
theorem runThread_regBound {i : Instr} {h : Head} {len r : Nat} {s : State} {q : Issue} {t : Troupe}
    {body : Path → State → Exe State} (hc : s.cur = some q)
    (ht : (s.core q.core).troupe q.blk q.troupe = some t) (hr : regBoundOf i t.regs.length = some r) :
    runThread i h len body s = .next (s.unselect.takeFault q len codeRegBound q.lanes 0 r none .none) := by
  unfold runThread
  rw [hc]
  have ht' : (s.unselect.core q.core).troupe q.blk q.troupe = some t := ht
  simp only [ht', hr]

/-! ### Changes of one troupe -/

/-- Two changes of a core are one. -/
theorem State.modCore_modCore (s : State) (c : Nat) (f g : Core → Core) :
    (s.modCore c f).modCore c g = s.modCore c fun k => g (f k) := by
  unfold State.modCore State.setCore State.core
  simp only [List.set_set]
  congr 1
  rcases Nat.lt_or_ge c s.cores.length with hc | hc
  · have h1 : (s.cores.set c (f (s.cores.getD c Core.reset))).getD c Core.reset = f (s.cores.getD c Core.reset) := by
      simp [List.getD_eq_getElem?_getD, hc]
    rw [h1]
  · rw [List.set_eq_of_length_le hc, List.set_eq_of_length_le hc]

/-- A change that keeps a troupe's name. -/
def KeepsName (f : Troupe → Troupe) : Prop := ∀ t, (f t).blk = t.blk ∧ (f t).idx = t.idx

/-- Two changes of a troupe are one. -/
theorem Core.modTroupe_modTroupe (k : Core) (b i : Nat) (f g : Troupe → Troupe) (hf : KeepsName f) :
    (k.modTroupe b i f).modTroupe b i g = k.modTroupe b i fun t => g (f t) := by
  unfold Core.modTroupe
  simp only [List.map_map]
  congr 1
  apply List.map_congr_left
  intro t _
  by_cases h : (t.blk == b && t.idx == i) = true
  · simp only [Function.comp, h, if_true, (hf t).1, (hf t).2]
  · simp only [Function.comp, h, if_false, Bool.false_eq_true]

/-- Two changes of the path's troupe are one. -/
theorem State.mod_mod (s : State) (p : Path) (f g : Troupe → Troupe) (hf : KeepsName f) :
    (s.mod p f).mod p g = s.mod p fun t => g (f t) := by
  unfold State.mod State.modTroupe
  rw [State.modCore_modCore]
  congr 1
  funext k
  exact Core.modTroupe_modTroupe k _ _ f g hf

theorem keepsName_writeReg (r : Nat) (m : Mask) (g : Tag) (v : Nat → Word) :
    KeepsName fun t => t.writeReg r m g v := fun _ => ⟨rfl, rfl⟩

/-! ### Results (R44, R115, R203, R267) -/

/-- The push of a port that takes it. -/
theorem State.push_ok {s : State} {p : Path} {q : Nat} {g : Tag} (v : Nat → Word) (h : PortTakes s p q g) :
    ∃ t, s.push p q g v = .ok t := by
  obtain ⟨n, hs, hb, hk, hr, he⟩ := h
  unfold State.push
  have hf : ((p.active.lanes.filter fun l =>
      (((s.core p.core).ctx n).lane l).pos.toNat < ((s.core p.core).ctx n).pat.length.toNat).filter
        fun l => 16 ≤ (((s.core p.core).ctx n).lane l).held.length) = [] := by
    rw [List.filter_eq_nil_iff]
    intro l hl
    have := hr l (List.mem_filter.mp hl).1
    simp only [decide_eq_true_eq]
    omega
  simp only [hb, bind, Except.bind, hk, Bool.not_true, Bool.false_eq_true, if_false, hf, List.isEmpty_nil, he]
  exact ⟨_, rfl⟩

/-- The end of an instruction that delivers one result. -/
theorem State.finish_ok {s : State} {p : Path} {fields : List Nat} {d : Nat} {g : Tag} (v : Nat → Word)
    (fl : Nat → Flags) (hd : Deliverable s (s.popPorts p fields) p d g) :
    ∃ t, s.finish p fields d g v fl = .ok t ∧
      Delivered (s.popPorts p fields) p d g v (orFlags (p.active.lanes.map fl)) t := by
  unfold State.finish Delivered State.put
  cases hq : portOf d with
  | none =>
    refine ⟨_, ?_, rfl⟩
    simp only [hd.1, bind, Except.bind, State.orFstat]
    rw [State.mod_mod _ _ _ _ (keepsName_writeReg d p.active g v)]
    rfl
  | some q =>
    obtain ⟨t, ht⟩ := State.push_ok v (hd.2 q hq)
    refine ⟨t.mod p fun x => { x with fstat := x.fstat ||| orFlags (p.active.lanes.map fl) }, ?_, t, ht, rfl⟩
    simp only [hd.1, bind, Except.bind, ht]
    rfl

/-- Results in a register group, one after the other, are the group's results. -/
theorem takesGroup_eq (m : Mask) (d : Nat) (vs : List (Tag × (Nat → Word))) (t : Troupe) :
    (vs.mapIdx fun n v => (n, v)).foldl (fun t x => t.writeReg (d + x.1) m x.2.1 x.2.2) t = t.takesGroup m d vs := by
  induction vs generalizing d t with
  | nil => rfl
  | cons x xs ih =>
    rw [List.mapIdx_cons, List.foldl_cons, Troupe.takesGroup, ← ih (d + 1)]
    have hm : (xs.mapIdx fun i v => (i + 1, v)) = (xs.mapIdx fun n v => (n, v)).map fun y => (y.1 + 1, y.2) := by
      apply List.ext_getElem <;> simp
    rw [hm, List.foldl_map]
    have he : (fun (t : Troupe) (y : Nat × Tag × (Nat → Word)) => t.writeReg (d + (y.1 + 1)) m y.2.1 y.2.2) =
        fun t y => t.writeReg (d + 1 + y.1) m y.2.1 y.2.2 := by
      funext t y
      rw [Nat.add_assoc, Nat.add_comm 1 y.1]
    rw [he]
    rfl

theorem keepsName_takesGroup (m : Mask) (d : Nat) (vs : List (Tag × (Nat → Word))) :
    KeepsName fun t => t.takesGroup m d vs := by
  intro t
  induction vs generalizing d t with
  | nil => exact ⟨rfl, rfl⟩
  | cons x xs ih => exact ih (d + 1) (t.takes m d x.1 x.2)

theorem takesGroup_fstat (m : Mask) (d : Nat) (vs : List (Tag × (Nat → Word))) (t : Troupe) :
    (t.takesGroup m d vs).fstat = t.fstat := by
  induction vs generalizing d t with
  | nil => rfl
  | cons x xs ih => rw [Troupe.takesGroup, ih]; rfl

/-- The end of an instruction whose result is a register group that nothing holds pending (R46, R117). -/
theorem State.finishGroup_ok {s : State} {p : Path} (fields : List Nat) {d : Nat} {vs : List (Tag × (Nat → Word))}
    (fl : Nat → Flags) (hd : (s.troupe p).checkDest p (List.range' d vs.length) = .ok ()) :
    s.finishGroup p fields d vs fl =
      .ok (groupWritten (s.popPorts p fields) p d vs (orFlags (p.active.lanes.map fl))) := by
  unfold State.finishGroup State.putGroup groupWritten State.orFstat
  simp only [hd, bind, Except.bind, takesGroup_eq]
  rw [State.mod_mod _ _ _ _ (keepsName_takesGroup p.active d vs)]
  congr 2
  funext t
  unfold Troupe.orFstat
  rw [takesGroup_fstat]

/-- A predicate result. -/
theorem State.putPred_eq (s : State) (p : Path) (d : Nat) (v : Nat → Bool) : s.putPred p d v = predWritten s p d v := by
  unfold State.putPred predWritten Lane.setPred
  congr 1
  funext t
  congr 1
  funext l x
  by_cases h : d = 0 <;> simp [h]

/-! ### Cores, troupes and lanes read back -/

/-- A core that exists reads as it was set. -/
theorem State.core_setCore (s : State) (c : Nat) (k : Core) (h : c < s.cores.length) : (s.setCore c k).core c = k := by
  unfold State.core State.setCore
  simp [List.getD_eq_getElem?_getD, h]

/-- A core that exists reads as it was changed. -/
theorem State.core_modCore (s : State) (c : Nat) (f : Core → Core) (h : c < s.cores.length) : (s.modCore c f).core c = f (s.core c) := State.core_setCore s c _ h

/-- A changed troupe is found as changed. -/
theorem Core.troupe_modTroupe (k : Core) (b i : Nat) (f : Troupe → Troupe) (hf : KeepsName f) : (k.modTroupe b i f).troupe b i = (k.troupe b i).map f := by
  unfold Core.troupe Core.modTroupe
  simp only
  rw [List.find?_map]
  have : ((fun t : Troupe => t.blk == b && t.idx == i) ∘ fun t => if (t.blk == b && t.idx == i) = true then f t else t) = fun t => t.blk == b && t.idx == i := by
    funext t
    simp only [Function.comp]
    by_cases h : (t.blk == b && t.idx == i) = true
    · simp only [h, if_true, (hf t).1, (hf t).2]
    · simp only [h, if_false, Bool.false_eq_true]
  rw [this]
  cases hF : k.troupes.find? fun t => t.blk == b && t.idx == i with
  | none => rfl
  | some t =>
    have := List.find?_some hF
    simp only [Option.map_some]
    rw [if_pos this]

/-- A core that is not there is not replaced. -/
theorem State.setCore_outside (s : State) (c : Nat) (k : Core) (h : s.cores.length ≤ c) : s.setCore c k = s := by
  unfold State.setCore; rw [List.set_eq_of_length_le h]

/-- The other cores stay. -/
theorem State.core_setCore_ne (s : State) (c d : Nat) (k : Core) (h : d ≠ c) : (s.setCore c k).core d = s.core d := by
  unfold State.core State.setCore
  simp only [List.getD_eq_getElem?_getD]
  rw [List.getElem?_set_ne (Ne.symm h)]

/-- The undo log and the journal record an instruction and change no troupe. -/
theorem State.logUndo_troupe (s : State) (q : Issue) (a : State) (c b i : Nat) : ((s.logUndo q a).core c).troupe b i = (s.core c).troupe b i := by
  unfold State.logUndo
  dsimp only
  split
  · by_cases hc : c = q.core
    · subst hc
      by_cases hl : q.core < s.cores.length
      · rw [State.core_setCore _ _ _ hl]; rfl
      · rw [State.setCore_outside _ _ _ (by omega)]
    · rw [State.core_setCore_ne _ _ _ _ hc]
  · rfl

/-- They change no block. -/
theorem State.logUndo_block (s : State) (q : Issue) (a : State) (c b : Nat) : ((s.logUndo q a).core c).block b = (s.core c).block b := by
  unfold State.logUndo
  dsimp only
  split
  · by_cases hc : c = q.core
    · subst hc
      by_cases hl : q.core < s.cores.length
      · rw [State.core_setCore _ _ _ hl]; rfl
      · rw [State.setCore_outside _ _ _ (by omega)]
    · rw [State.core_setCore_ne _ _ _ _ hc]
  · rfl

/-- A lane after a change of some lanes. -/
theorem Troupe.lane_modLanes (t : Troupe) (m : Mask) (f : Nat → Lane → Lane) (l : Nat) (h : l < t.lanes.length) :
   (t.modLanes m f).lane l = if m.has l then f l (t.lane l) else t.lane l := by
  unfold Troupe.lane Troupe.modLanes
  simp [List.getD_eq_getElem?_getD, h]

/-- A change of lanes keeps their number. -/
theorem Troupe.length_modLanes (t : Troupe) (m : Mask) (f : Nat → Lane → Lane) : (t.modLanes m f).lanes.length = t.lanes.length := by
  unfold Troupe.modLanes; simp

/-- A test of some lane of a troupe. -/
theorem Troupe.any_lanes (t : Troupe) (q : Lane → Bool) : t.lanes.any q = true ↔ ∃ l, l < t.lanes.length ∧ q (t.lane l) = true := by
  rw [List.any_eq_true]
  constructor
  · rintro ⟨x, hx, hq⟩
    obtain ⟨l, hl, rfl⟩ := List.getElem_of_mem hx
    refine ⟨l, hl, ?_⟩
    unfold Troupe.lane
    simpa [List.getD_eq_getElem?_getD, hl] using hq
  · rintro ⟨l, hl, hq⟩
    refine ⟨t.lanes[l], List.getElem_mem hl, ?_⟩
    unfold Troupe.lane at hq
    simpa [List.getD_eq_getElem?_getD, hl] using hq

end Sys2Proof.Machine
end

