-- ==== Sys2Proof/Laws/Cue.lean ====
section
/-!
SUPPORT. What the cue store's room check does (R125, R126): it marks records and frames as spilled and changes
nothing else of the core.
-/
namespace Sys2Proof.Machine

/-- A record, and a troupe, but for where its bytes lie. -/
def CueRec.unspilled (r : CueRec) : CueRec := { r with spilled := false, wingsAt := 0, written := false }
def Troupe.unspilled (t : Troupe) : Troupe := { t with frameSpilled := false, frameAt := 0, frameWritten := false }

/-- Two cores differ at most in which records and frames are spilled. -/
def SameButSpilled (k k' : Core) : Prop :=
  k'.cue.map CueRec.unspilled = k.cue.map CueRec.unspilled ∧
  k'.troupes.map Troupe.unspilled = k.troupes.map Troupe.unspilled ∧
  { k' with cue := [], troupes := [] } = { k with cue := [], troupes := [] }

theorem SameButSpilled.refl (k : Core) : SameButSpilled k k := ⟨rfl, rfl, rfl⟩

theorem SameButSpilled.trans {a b c : Core} (h : SameButSpilled a b) (g : SameButSpilled b c) : SameButSpilled a c :=
  ⟨g.1.trans h.1, g.2.1.trans h.2.1, g.2.2.trans h.2.2⟩

theorem Core.spillAt_same (k : Core) (r : CueRec) (n : Nat) : SameButSpilled k (k.spillAt r n) := by
  refine ⟨?_, rfl, rfl⟩
  unfold Core.spillAt
  rw [List.map_map]
  apply List.map_congr_left
  intro x _
  by_cases h : (x.rid == r.rid) = true <;> simp only [Function.comp, h] <;> rfl

theorem Core.spillFrameAt_same (k : Core) (t : Troupe) (n : Nat) : SameButSpilled k (k.spillFrameAt t n) := by
  refine ⟨rfl, ?_, rfl⟩
  unfold Core.spillFrameAt Core.modTroupe
  rw [List.map_map]
  apply List.map_congr_left
  intro x _
  by_cases h : (x.blk == t.blk && x.idx == t.idx) = true <;> simp only [Function.comp, h] <;> rfl

/-- Making room only spills. -/
theorem Core.makeRoom_same (allowed : CueRec → Bool) (need n : Nat) :
    ∀ k k', Core.makeRoom n k allowed need = some k' → SameButSpilled k k' := by
  induction n with
  | zero =>
    intro k k' h
    unfold Core.makeRoom at h
    split at h
    · cases h; exact SameButSpilled.refl k
    · cases h
  | succ n ih =>
    intro k k' h
    unfold Core.makeRoom at h
    split at h
    · cases h; exact SameButSpilled.refl k
    · split at h
      · split at h
        · exact (Core.spillAt_same k _ _).trans (ih _ _ h)
        · cases h
      · split at h
        · split at h
          · exact (Core.spillFrameAt_same k _ _).trans (ih _ _ h)
          · cases h
        · cases h

/-- The room check only spills. -/
theorem Core.fitCue_same {k k' : Core} (h : k.fitCue = some k') : SameButSpilled k k' := Core.makeRoom_same _ _ _ k k' h

/-- A troupe found in the one core is found, but for its frame's place, in the other. -/
theorem SameButSpilled.troupe {k k' : Core} (h : SameButSpilled k k') (b i : Nat) :
    (k'.troupe b i).map Troupe.unspilled = (k.troupe b i).map Troupe.unspilled := by
  have key (l : List Troupe) : (l.find? fun t => t.blk == b && t.idx == i).map Troupe.unspilled =
      (l.map Troupe.unspilled).find? fun t => t.blk == b && t.idx == i := by
    rw [List.find?_map]
    rfl
  unfold Core.troupe
  rw [key, key, h.2.1]

/-- The blocks, memory and other parts of the core stay as they are. -/
theorem SameButSpilled.blocks {k k' : Core} (h : SameButSpilled k k') : k'.blocks = k.blocks :=
  by
  have := congrArg (fun k : Core => k.blocks) h.2.2
  exact this
theorem SameButSpilled.mem {k k' : Core} (h : SameButSpilled k k') : k'.mem = k.mem := by
  have := congrArg (fun k : Core => k.mem) h.2.2
  exact this
theorem SameButSpilled.undo {k k' : Core} (h : SameButSpilled k k') : k'.undo = k.undo := by
  have := congrArg (fun k : Core => k.undo) h.2.2
  exact this

/-- A record written for lanes of a troupe: it joins the store, and the lanes leave residency (R120). -/
theorem State.writeRecord_core {s : State} {c b i : Nat} {t : Troupe} (m : Mask) (mk : Troupe → Nat → CueRec)
    (hc : c < s.cores.length) (ht : (s.core c).troupe b i = some t) :
    (s.writeRecord c b i m mk).core c =
      { ((s.core c).modTroupe b i fun t => t.leave m) with
        cue := (s.core c).cue ++ [{ mk t s.nextId with since := s.clock.toNat }] } := by
  unfold State.writeRecord
  simp only [ht]
  exact State.core_modCore s c (fun k => { (k.modTroupe b i fun t => t.leave m) with
    cue := k.cue ++ [{ mk t s.nextId with since := s.clock.toNat }] }) hc

theorem State.writeRecord_cores {s : State} {c b i : Nat} (m : Mask) (mk : Troupe → Nat → CueRec) :
    (s.writeRecord c b i m mk).cores.length = s.cores.length := by
  unfold State.writeRecord
  split
  · rfl
  · exact List.length_set

/-- A departure: what the core holds after it (R120, R125, R126). -/
theorem State.depart_core {s t : State} {p : Path} {key : Key} {resume : DWord} {kind : Nat} {fill : CueRec → CueRec}
    {u : Troupe} (hc : p.core < s.cores.length) (hu : (s.core p.core).troupe p.blk p.at_.troupe = some u)
    (hd : s.depart p key resume kind fill = .ok t) :
    SameButSpilled { ((s.core p.core).modTroupe p.blk p.at_.troupe fun t => t.leave p.at_.lanes) with
      cue := (s.core p.core).cue ++
        [{ fill (u.toRecord s.nextId p.at_.lanes key resume kind 0) with since := s.clock.toNat }] } (t.core p.core) := by
  unfold State.depart State.settleCue at hd
  dsimp only at hd
  rw [State.writeRecord_core _ _ hc hu] at hd
  generalize hk : ({ ((s.core p.core).modTroupe p.blk p.at_.troupe fun t => t.leave p.at_.lanes) with
      cue := (s.core p.core).cue ++
        [{ fill (u.toRecord s.nextId p.at_.lanes key resume kind 0) with since := s.clock.toNat }] } : Core) = k at hd
  cases hf : k.fitCue with
  | none => rw [hf] at hd; simp at hd
  | some k' =>
    rw [hf] at hd
    have hd' := (Except.ok.inj hd).symm
    rw [hd', State.core_setCore _ _ _ (by rw [State.writeRecord_cores]; exact hc)]
    exact Core.fitCue_same hf

end Sys2Proof.Machine
end

