-- ==== Sys2Proof/Laws/Dispatch.lean ====
section
/-!
SUPPORT. What exec does with each instruction: its own meaning. One lemma for each constructor, so that no proof
unfolds the dispatch.
-/
namespace Sys2Proof.Machine

theorem exec_nop (h : Head) (f : NopForm) (s : State) :
    exec (.nop h f) s = execNop h f s := rfl
theorem exec_bra (h : Head) (f : CForm) (s : State) :
    exec (.bra h f) s = execBra h f s := rfl
theorem exec_bru (h : Head) (f : CForm) (s : State) :
    exec (.bru h f) s = execBru h f s := rfl
theorem exec_brx (h : Head) (f : RForm) (s : State) :
    exec (.brx h f) s = execBrx h f s := rfl
theorem exec_call (h : Head) (f : CForm) (s : State) :
    exec (.call h f) s = execCall h f s := rfl
theorem exec_callx (h : Head) (f : RForm) (s : State) :
    exec (.callx h f) s = execCallx h f s := rfl
theorem exec_ret (h : Head) (f : CForm) (s : State) :
    exec (.ret h f) s = execRet h f s := rfl
theorem exec_exit (h : Head) (f : CForm) (s : State) :
    exec (.exit h f) s = execExit h f s := rfl
theorem exec_depart (h : Head) (f : CForm) (s : State) :
    exec (.depart h f) s = execDepart h f s := rfl
theorem exec_sleep (h : Head) (f : CForm) (s : State) :
    exec (.sleep h f) s = execSleep h f s := rfl
theorem exec_trap (h : Head) (f : CForm) (s : State) :
    exec (.trap h f) s = execTrap h f s := rfl
theorem exec_bkpt (h : Head) (f : CForm) (s : State) :
    exec (.bkpt h f) s = execBkpt h f s := rfl
theorem exec_step (h : Head) (f : CForm) (s : State) :
    exec (.step h f) s = execStep h f s := rfl
theorem exec_loop (h : Head) (f : CForm) (s : State) :
    exec (.loop h f) s = execLoop h f s := rfl
theorem exec_iadd (h : Head) (f : RForm) (s : State) :
    exec (.iadd h f) s = execIadd h f s := rfl
theorem exec_isub (h : Head) (f : RForm) (s : State) :
    exec (.isub h f) s = execIsub h f s := rfl
theorem exec_imul (h : Head) (f : RForm) (s : State) :
    exec (.imul h f) s = execImul h f s := rfl
theorem exec_imulh (h : Head) (f : RForm) (s : State) :
    exec (.imulh h f) s = execImulh h f s := rfl
theorem exec_imad (h : Head) (f : RForm) (s : State) :
    exec (.imad h f) s = execImad h f s := rfl
theorem exec_imin (h : Head) (f : RForm) (s : State) :
    exec (.imin h f) s = execImin h f s := rfl
theorem exec_imax (h : Head) (f : RForm) (s : State) :
    exec (.imax h f) s = execImax h f s := rfl
theorem exec_iabs (h : Head) (f : RForm) (s : State) :
    exec (.iabs h f) s = execIabs h f s := rfl
theorem exec_and (h : Head) (f : RForm) (s : State) :
    exec (.and h f) s = execAnd h f s := rfl
theorem exec_or (h : Head) (f : RForm) (s : State) :
    exec (.or h f) s = execOr h f s := rfl
theorem exec_xor (h : Head) (f : RForm) (s : State) :
    exec (.xor h f) s = execXor h f s := rfl
theorem exec_andn (h : Head) (f : RForm) (s : State) :
    exec (.andn h f) s = execAndn h f s := rfl
theorem exec_shl (h : Head) (f : RForm) (s : State) :
    exec (.shl h f) s = execShl h f s := rfl
theorem exec_shr (h : Head) (f : RForm) (s : State) :
    exec (.shr h f) s = execShr h f s := rfl
theorem exec_sar (h : Head) (f : RForm) (s : State) :
    exec (.sar h f) s = execSar h f s := rfl
theorem exec_rot (h : Head) (f : RForm) (s : State) :
    exec (.rot h f) s = execRot h f s := rfl
theorem exec_popc (h : Head) (f : RForm) (s : State) :
    exec (.popc h f) s = execPopc h f s := rfl
theorem exec_clz (h : Head) (f : RForm) (s : State) :
    exec (.clz h f) s = execClz h f s := rfl
theorem exec_brev (h : Head) (f : RForm) (s : State) :
    exec (.brev h f) s = execBrev h f s := rfl
theorem exec_bfx (h : Head) (f : RForm) (s : State) :
    exec (.bfx h f) s = execBfx h f s := rfl
theorem exec_bfi (h : Head) (f : RForm) (s : State) :
    exec (.bfi h f) s = execBfi h f s := rfl
theorem exec_sel (h : Head) (f : RForm) (s : State) :
    exec (.sel h f) s = execSel h f s := rfl
theorem exec_icmp (h : Head) (f : RForm) (s : State) :
    exec (.icmp h f) s = execIcmp h f s := rfl
theorem exec_iadd64 (h : Head) (f : RForm) (s : State) :
    exec (.iadd64 h f) s = execIadd64 h f s := rfl
theorem exec_isub64 (h : Head) (f : RForm) (s : State) :
    exec (.isub64 h f) s = execIsub64 h f s := rfl
theorem exec_imulw (h : Head) (f : RForm) (s : State) :
    exec (.imulw h f) s = execImulw h f s := rfl
theorem exec_idiv (h : Head) (f : RForm) (s : State) :
    exec (.idiv h f) s = execIdiv h f s := rfl
theorem exec_irem (h : Head) (f : RForm) (s : State) :
    exec (.irem h f) s = execIrem h f s := rfl
theorem exec_lea (h : Head) (f : RForm) (s : State) :
    exec (.lea h f) s = execLea h f s := rfl
theorem exec_shfl (h : Head) (f : RForm) (s : State) :
    exec (.shfl h f) s = execShfl h f s := rfl
theorem exec_mov (h : Head) (f : RForm) (s : State) :
    exec (.mov h f) s = execMov h f s := rfl
theorem exec_movk (h : Head) (f : RForm) (s : State) :
    exec (.movk h f) s = execMovk h f s := rfl
theorem exec_iaddi (h : Head) (f : IForm) (s : State) :
    exec (.iaddi h f) s = execIaddi h f s := rfl
theorem exec_imuli (h : Head) (f : IForm) (s : State) :
    exec (.imuli h f) s = execImuli h f s := rfl
theorem exec_andi (h : Head) (f : IForm) (s : State) :
    exec (.andi h f) s = execAndi h f s := rfl
theorem exec_ori (h : Head) (f : IForm) (s : State) :
    exec (.ori h f) s = execOri h f s := rfl
theorem exec_xori (h : Head) (f : IForm) (s : State) :
    exec (.xori h f) s = execXori h f s := rfl
theorem exec_shli (h : Head) (f : IForm) (s : State) :
    exec (.shli h f) s = execShli h f s := rfl
theorem exec_shri (h : Head) (f : IForm) (s : State) :
    exec (.shri h f) s = execShri h f s := rfl
theorem exec_sari (h : Head) (f : IForm) (s : State) :
    exec (.sari h f) s = execSari h f s := rfl
theorem exec_icmpi (h : Head) (f : IForm) (s : State) :
    exec (.icmpi h f) s = execIcmpi h f s := rfl
theorem exec_movi (h : Head) (f : IForm) (s : State) :
    exec (.movi h f) s = execMovi h f s := rfl
theorem exec_kmov (h : Head) (f : KForm) (s : State) :
    exec (.kmov h f) s = execKmov h f s := rfl
theorem exec_kadd (h : Head) (f : KForm) (s : State) :
    exec (.kadd h f) s = execKadd h f s := rfl
theorem exec_ksub (h : Head) (f : KForm) (s : State) :
    exec (.ksub h f) s = execKsub h f s := rfl
theorem exec_kmul (h : Head) (f : KForm) (s : State) :
    exec (.kmul h f) s = execKmul h f s := rfl
theorem exec_kand (h : Head) (f : KForm) (s : State) :
    exec (.kand h f) s = execKand h f s := rfl
theorem exec_kor (h : Head) (f : KForm) (s : State) :
    exec (.kor h f) s = execKor h f s := rfl
theorem exec_kxor (h : Head) (f : KForm) (s : State) :
    exec (.kxor h f) s = execKxor h f s := rfl
theorem exec_kshl (h : Head) (f : KForm) (s : State) :
    exec (.kshl h f) s = execKshl h f s := rfl
theorem exec_kshr (h : Head) (f : KForm) (s : State) :
    exec (.kshr h f) s = execKshr h f s := rfl
theorem exec_ksar (h : Head) (f : KForm) (s : State) :
    exec (.ksar h f) s = execKsar h f s := rfl
theorem exec_kcmp (h : Head) (f : KForm) (s : State) :
    exec (.kcmp h f) s = execKcmp h f s := rfl
theorem exec_ksel (h : Head) (f : KForm) (s : State) :
    exec (.ksel h f) s = execKsel h f s := rfl
theorem exec_kldi (h : Head) (f : KForm) (s : State) :
    exec (.kldi h f) s = execKldi h f s := rfl
theorem exec_kldi128 (h : Head) (f : LForm) (s : State) :
    exec (.kldi128 h f) s = execKldi128 h f s := rfl
theorem exec_kmin (h : Head) (f : KForm) (s : State) :
    exec (.kmin h f) s = execKmin h f s := rfl
theorem exec_kmax (h : Head) (f : KForm) (s : State) :
    exec (.kmax h f) s = execKmax h f s := rfl
theorem exec_kred (h : Head) (f : KForm) (s : State) :
    exec (.kred h f) s = execKred h f s := rfl
theorem exec_pand (h : Head) (f : RForm) (s : State) :
    exec (.pand h f) s = execPand h f s := rfl
theorem exec_por (h : Head) (f : RForm) (s : State) :
    exec (.por h f) s = execPor h f s := rfl
theorem exec_pxor (h : Head) (f : RForm) (s : State) :
    exec (.pxor h f) s = execPxor h f s := rfl
theorem exec_pnot (h : Head) (f : RForm) (s : State) :
    exec (.pnot h f) s = execPnot h f s := rfl
theorem exec_pset (h : Head) (f : RForm) (s : State) :
    exec (.pset h f) s = execPset h f s := rfl
theorem exec_pbal (h : Head) (f : RForm) (s : State) :
    exec (.pbal h f) s = execPbal h f s := rfl
theorem exec_pany (h : Head) (f : RForm) (s : State) :
    exec (.pany h f) s = execPany h f s := rfl
theorem exec_pall (h : Head) (f : RForm) (s : State) :
    exec (.pall h f) s = execPall h f s := rfl
theorem exec_pelect (h : Head) (f : RForm) (s : State) :
    exec (.pelect h f) s = execPelect h f s := rfl
theorem exec_pmov (h : Head) (f : RForm) (s : State) :
    exec (.pmov h f) s = execPmov h f s := rfl
theorem exec_movx (h : Head) (f : IForm) (s : State) :
    exec (.movx h f) s = execMovx h f s := rfl
theorem exec_movc (h : Head) (f : KForm) (s : State) :
    exec (.movc h f) s = execMovc h f s := rfl
theorem exec_idxset (h : Head) (f : IForm) (s : State) :
    exec (.idxset h f) s = execIdxset h f s := rfl
theorem exec_idxadd (h : Head) (f : IForm) (s : State) :
    exec (.idxadd h f) s = execIdxadd h f s := rfl
theorem exec_reint (h : Head) (f : RForm) (s : State) :
    exec (.reint h f) s = execReint h f s := rfl
theorem exec_fadd (h : Head) (f : RForm) (s : State) :
    exec (.fadd h f) s = execFadd h f s := rfl
theorem exec_fsub (h : Head) (f : RForm) (s : State) :
    exec (.fsub h f) s = execFsub h f s := rfl
theorem exec_fmul (h : Head) (f : RForm) (s : State) :
    exec (.fmul h f) s = execFmul h f s := rfl
theorem exec_ffma (h : Head) (f : RForm) (s : State) :
    exec (.ffma h f) s = execFfma h f s := rfl
theorem exec_fmin (h : Head) (f : RForm) (s : State) :
    exec (.fmin h f) s = execFmin h f s := rfl
theorem exec_fmax (h : Head) (f : RForm) (s : State) :
    exec (.fmax h f) s = execFmax h f s := rfl
theorem exec_fcmp (h : Head) (f : RForm) (s : State) :
    exec (.fcmp h f) s = execFcmp h f s := rfl
theorem exec_fclass (h : Head) (f : RForm) (s : State) :
    exec (.fclass h f) s = execFclass h f s := rfl
theorem exec_frcp (h : Head) (f : RForm) (s : State) :
    exec (.frcp h f) s = execFrcp h f s := rfl
theorem exec_fsqrt (h : Head) (f : RForm) (s : State) :
    exec (.fsqrt h f) s = execFsqrt h f s := rfl
theorem exec_frsq (h : Head) (f : RForm) (s : State) :
    exec (.frsq h f) s = execFrsq h f s := rfl
theorem exec_fexp2 (h : Head) (f : RForm) (s : State) :
    exec (.fexp2 h f) s = execFexp2 h f s := rfl
theorem exec_flog2 (h : Head) (f : RForm) (s : State) :
    exec (.flog2 h f) s = execFlog2 h f s := rfl
theorem exec_fsinp (h : Head) (f : RForm) (s : State) :
    exec (.fsinp h f) s = execFsinp h f s := rfl
theorem exec_fcosp (h : Head) (f : RForm) (s : State) :
    exec (.fcosp h f) s = execFcosp h f s := rfl
theorem exec_ftanh (h : Head) (f : RForm) (s : State) :
    exec (.ftanh h f) s = execFtanh h f s := rfl
theorem exec_fdiv (h : Head) (f : RForm) (s : State) :
    exec (.fdiv h f) s = execFdiv h f s := rfl
theorem exec_frnd (h : Head) (f : RForm) (s : State) :
    exec (.frnd h f) s = execFrnd h f s := rfl
theorem exec_fscale (h : Head) (f : RForm) (s : State) :
    exec (.fscale h f) s = execFscale h f s := rfl
theorem exec_fcpys (h : Head) (f : RForm) (s : State) :
    exec (.fcpys h f) s = execFcpys h f s := rfl
theorem exec_dwadd (h : Head) (f : RForm) (s : State) :
    exec (.dwadd h f) s = execDwadd h f s := rfl
theorem exec_dwadds (h : Head) (f : RForm) (s : State) :
    exec (.dwadds h f) s = execDwadds h f s := rfl
theorem exec_dwmul (h : Head) (f : RForm) (s : State) :
    exec (.dwmul h f) s = execDwmul h f s := rfl
theorem exec_dwmuls (h : Head) (f : RForm) (s : State) :
    exec (.dwmuls h f) s = execDwmuls h f s := rfl
theorem exec_dwnorm (h : Head) (f : RForm) (s : State) :
    exec (.dwnorm h f) s = execDwnorm h f s := rfl
theorem exec_vrsum (h : Head) (f : RForm) (s : State) :
    exec (.vrsum h f) s = execVrsum h f s := rfl
theorem exec_vrsumc (h : Head) (f : RForm) (s : State) :
    exec (.vrsumc h f) s = execVrsumc h f s := rfl
theorem exec_vrmax (h : Head) (f : RForm) (s : State) :
    exec (.vrmax h f) s = execVrmax h f s := rfl
theorem exec_vrmin (h : Head) (f : RForm) (s : State) :
    exec (.vrmin h f) s = execVrmin h f s := rfl
theorem exec_vrdotc (h : Head) (f : RForm) (s : State) :
    exec (.vrdotc h f) s = execVrdotc h f s := rfl
theorem exec_cvt (h : Head) (f : RForm) (s : State) :
    exec (.cvt h f) s = execCvt h f s := rfl
theorem exec_cvtbx (h : Head) (f : RForm) (s : State) :
    exec (.cvtbx h f) s = execCvtbx h f s := rfl
theorem exec_cvtxb (h : Head) (f : RForm) (s : State) :
    exec (.cvtxb h f) s = execCvtxb h f s := rfl
theorem exec_pack2 (h : Head) (f : RForm) (s : State) :
    exec (.pack2 h f) s = execPack2 h f s := rfl
theorem exec_unpk2 (h : Head) (f : RForm) (s : State) :
    exec (.unpk2 h f) s = execUnpk2 h f s := rfl
theorem exec_cvti (h : Head) (f : RForm) (s : State) :
    exec (.cvti h f) s = execCvti h f s := rfl
theorem exec_ld (h : Head) (f : MForm) (s : State) :
    exec (.ld h f) s = execLd h f s := rfl
theorem exec_st (h : Head) (f : MForm) (s : State) :
    exec (.st h f) s = execSt h f s := rfl
theorem exec_ldl (h : Head) (f : MForm) (s : State) :
    exec (.ldl h f) s = execLdl h f s := rfl
theorem exec_stl (h : Head) (f : MForm) (s : State) :
    exec (.stl h f) s = execStl h f s := rfl
theorem exec_ldk (h : Head) (f : MForm) (s : State) :
    exec (.ldk h f) s = execLdk h f s := rfl
theorem exec_atom (h : Head) (f : MForm) (s : State) :
    exec (.atom h f) s = execAtom h f s := rfl
theorem exec_red (h : Head) (f : MForm) (s : State) :
    exec (.red h f) s = execRed h f s := rfl
theorem exec_atoml (h : Head) (f : MForm) (s : State) :
    exec (.atoml h f) s = execAtoml h f s := rfl
theorem exec_pref (h : Head) (f : MForm) (s : State) :
    exec (.pref h f) s = execPref h f s := rfl
theorem exec_fence (h : Head) (f : MForm) (s : State) :
    exec (.fence h f) s = execFence h f s := rfl
theorem exec_cclean (h : Head) (f : MForm) (s : State) :
    exec (.cclean h f) s = execCclean h f s := rfl
theorem exec_scfg (h : Head) (f : XForm) (s : State) :
    exec (.scfg h f) s = execScfg h f s := rfl
theorem exec_sdrain (h : Head) (f : RForm) (s : State) :
    exec (.sdrain h f) s = execSdrain h f s := rfl
theorem exec_sclose (h : Head) (f : RForm) (s : State) :
    exec (.sclose h f) s = execSclose h f s := rfl
theorem exec_spos (h : Head) (f : RForm) (s : State) :
    exec (.spos h f) s = execSpos h f s := rfl
theorem exec_seos (h : Head) (f : RForm) (s : State) :
    exec (.seos h f) s = execSeos h f s := rfl
theorem exec_sseek (h : Head) (f : XForm) (s : State) :
    exec (.sseek h f) s = execSseek h f s := rfl
theorem exec_binit (h : Head) (f : XForm) (s : State) :
    exec (.binit h f) s = execBinit h f s := rfl
theorem exec_expect (h : Head) (f : XForm) (s : State) :
    exec (.expect h f) s = execExpect h f s := rfl
theorem exec_arrive (h : Head) (f : XForm) (s : State) :
    exec (.arrive h f) s = execArrive h f s := rfl
theorem exec_await (h : Head) (f : XForm) (s : State) :
    exec (.await h f) s = execAwait h f s := rfl
theorem exec_rinit (h : Head) (f : XForm) (s : State) :
    exec (.rinit h f) s = execRinit h f s := rfl
theorem exec_awaitf (h : Head) (f : XForm) (s : State) :
    exec (.awaitf h f) s = execAwaitf h f s := rfl
theorem exec_relslot (h : Head) (f : XForm) (s : State) :
    exec (.relslot h f) s = execRelslot h f s := rfl
theorem exec_cstep (h : Head) (f : XForm) (s : State) :
    exec (.cstep h f) s = execCstep h f s := rfl
theorem exec_csched (h : Head) (f : XForm) (s : State) :
    exec (.csched h f) s = execCsched h f s := rfl
theorem exec_rcfence (h : Head) (f : XForm) (s : State) :
    exec (.rcfence h f) s = execRcfence h f s := rfl
theorem exec_rcfenceAll (h : Head) (f : XForm) (s : State) :
    exec (.rcfenceAll h f) s = execRcfenceAll h f s := rfl
theorem exec_cstat (h : Head) (f : XForm) (s : State) :
    exec (.cstat h f) s = execCstat h f s := rfl
theorem exec_rcseal (h : Head) (f : XForm) (s : State) :
    exec (.rcseal h f) s = execRcseal h f s := rfl
theorem exec_mma (h : Head) (f : XForm) (s : State) :
    exec (.mma h f) s = execMma h f s := rfl
theorem exec_mmas (h : Head) (f : XForm) (s : State) :
    exec (.mmas h f) s = execMmas h f s := rfl
theorem exec_mzero (h : Head) (f : XForm) (s : State) :
    exec (.mzero h f) s = execMzero h f s := rfl
theorem exec_accld (h : Head) (f : XForm) (s : State) :
    exec (.accld h f) s = execAccld h f s := rfl
theorem exec_accst (h : Head) (f : XForm) (s : State) :
    exec (.accst h f) s = execAccst h f s := rfl
theorem exec_accrd (h : Head) (f : XForm) (s : State) :
    exec (.accrd h f) s = execAccrd h f s := rfl
theorem exec_accwr (h : Head) (f : XForm) (s : State) :
    exec (.accwr h f) s = execAccwr h f s := rfl
theorem exec_mlive (h : Head) (f : XForm) (s : State) :
    exec (.mlive h f) s = execMlive h f s := rfl
theorem exec_mpert (h : Head) (f : XForm) (s : State) :
    exec (.mpert h f) s = execMpert h f s := rfl
theorem exec_mstat (h : Head) (f : XForm) (s : State) :
    exec (.mstat h f) s = execMstat h f s := rfl
theorem exec_fetchw (h : Head) (f : XForm) (s : State) :
    exec (.fetchw h f) s = execFetchw h f s := rfl
theorem exec_spawn (h : Head) (f : XForm) (s : State) :
    exec (.spawn h f) s = execSpawn h f s := rfl
theorem exec_enq (h : Head) (f : KForm) (s : State) :
    exec (.enq h f) s = execEnq h f s := rfl
theorem exec_jobstQuery (h : Head) (f : KForm) (s : State) :
    exec (.jobstQuery h f) s = execJobstQuery h f s := rfl
theorem exec_jobstCancel (h : Head) (f : KForm) (s : State) :
    exec (.jobstCancel h f) s = execJobstCancel h f s := rfl
theorem exec_sigchk (h : Head) (f : RForm) (s : State) :
    exec (.sigchk h f) s = execSigchk h f s := rfl
theorem exec_modeQuery (h : Head) (f : KForm) (s : State) :
    exec (.modeQuery h f) s = execModeQuery h f s := rfl
theorem exec_modeReq (h : Head) (f : KForm) (s : State) :
    exec (.modeReq h f) s = execModeReq h f s := rfl
theorem exec_loadDataReturn (core rid : Nat) (s : State) :
    exec (.loadDataReturn core rid) s = execLoadDataReturn core rid s := rfl
theorem exec_tlbFillComplete (core : Nat) (va : DWord) (evict : Nat) (s : State) :
    exec (.tlbFillComplete core va evict) s = execTlbFillComplete core va evict s := rfl
theorem exec_wakeTime (core rid : Nat) (s : State) :
    exec (.wakeTime core rid) s = execWakeTime core rid s := rfl
theorem exec_streamFetchComplete (core ctx lane : Nat) (s : State) :
    exec (.streamFetchComplete core ctx lane) s = execStreamFetchComplete core ctx lane s := rfl
theorem exec_readBack (core : Nat) (good : Bool) (s : State) :
    exec (.readBack core good) s = execReadBack core good s := rfl
theorem exec_relaunch (core : Nat) (s : State) :
    exec (.relaunch core) s = execRelaunch core s := rfl
theorem exec_pushTranslationRestored (core ctx lane : Nat) (ok : Bool) (s : State) :
    exec (.pushTranslationRestored core ctx lane ok) s = execPushTranslationRestored core ctx lane ok s := rfl
theorem exec_faultRecordConsumed (n : Nat) (s : State) :
    exec (.faultRecordConsumed n) s = execFaultRecordConsumed n s := rfl
theorem exec_faultAnswerResume (seq : Nat) (s : State) :
    exec (.faultAnswerResume seq) s = execFaultAnswerResume seq s := rfl
theorem exec_faultAnswerSkip (seq : Nat) (s : State) :
    exec (.faultAnswerSkip seq) s = execFaultAnswerSkip seq s := rfl
theorem exec_faultAnswerSave (seq : Nat) (s : State) :
    exec (.faultAnswerSave seq) s = execFaultAnswerSave seq s := rfl
theorem exec_faultAnswerKill (seq : Nat) (s : State) :
    exec (.faultAnswerKill seq) s = execFaultAnswerKill seq s := rfl
theorem exec_faultAnswerStepback (seq n : Nat) (s : State) :
    exec (.faultAnswerStepback seq n) s = execFaultAnswerStepback seq n s := rfl
theorem exec_blockDone (core slot : Nat) (s : State) :
    exec (.blockDone core slot) s = execBlockDone core slot s := rfl
theorem exec_preemptRequest (cores : List Nat) (s : State) :
    exec (.preemptRequest cores) s = execPreemptRequest cores s := rfl
theorem exec_preemptAck (core : Nat) (engine : Engine) (s : State) :
    exec (.preemptAck core engine) s = execPreemptAck core engine s := rfl
theorem exec_premaxExpiry (core slot : Nat) (s : State) :
    exec (.premaxExpiry core slot) s = execPremaxExpiry core slot s := rfl
theorem exec_saveRoomAvailable (core : Nat) (s : State) :
    exec (.saveRoomAvailable core) s = execSaveRoomAvailable core s := rfl
theorem exec_contextRestore (core : Nat) (s : State) :
    exec (.contextRestore core) s = execContextRestore core s := rfl
theorem exec_scriptReadComplete (core slot : Nat) (s : State) :
    exec (.scriptReadComplete core slot) s = execScriptReadComplete core slot s := rfl
theorem exec_copyStart (core slot : Nat) (s : State) :
    exec (.copyStart core slot) s = execCopyStart core slot s := rfl
theorem exec_recordObtained (core copy : Nat) (s : State) :
    exec (.recordObtained core copy) s = execRecordObtained core copy s := rfl
theorem exec_copyComplete (core copy : Nat) (s : State) :
    exec (.copyComplete core copy) s = execCopyComplete core copy s := rfl
theorem exec_matrixStart (pair : Nat) (s : State) :
    exec (.matrixStart pair) s = execMatrixStart pair s := rfl
theorem exec_matrixLastRead (pair : Nat) (s : State) :
    exec (.matrixLastRead pair) s = execMatrixLastRead pair s := rfl
theorem exec_matrixRetire (pair : Nat) (s : State) :
    exec (.matrixRetire pair) s = execMatrixRetire pair s := rfl
theorem exec_dmwrSubmit (vf queue off : Nat) (data : List Byte) (s : State) :
    exec (.dmwrSubmit vf queue off data) s = execDmwrSubmit vf queue off data s := rfl
theorem exec_windowPostedWrite (vf queue : Nat) (s : State) :
    exec (.windowPostedWrite vf queue) s = execWindowPostedWrite vf queue s := rfl
theorem exec_queueHeadPass (queue : Nat) (s : State) :
    exec (.queueHeadPass queue) s = execQueueHeadPass queue s := rfl
theorem exec_cancelRegisterWrite (vf : Nat) (value : Word) (s : State) :
    exec (.cancelRegisterWrite vf value) s = execCancelRegisterWrite vf value s := rfl
theorem exec_cancel (s : State) :
    exec .cancel s = execCancel s := rfl
theorem exec_bind (queue : Nat) (rec : BitVec 128) (s : State) :
    exec (.bind queue rec) s = execBind queue rec s := rfl
theorem exec_drain (queue : Nat) (rec : BitVec 128) (addr : DWord) (s : State) :
    exec (.drain queue rec addr) s = execDrain queue rec addr s := rfl
theorem exec_reprioritise (queue : Nat) (rec : BitVec 128) (s : State) :
    exec (.reprioritise queue rec) s = execReprioritise queue rec s := rfl
theorem exec_coreRowBind (core slot : Nat) (rec : BitVec 128) (s : State) :
    exec (.coreRowBind core slot rec) s = execCoreRowBind core slot rec s := rfl
theorem exec_drainPositionWrite (launch : Nat) (s : State) :
    exec (.drainPositionWrite launch) s = execDrainPositionWrite launch s := rfl
theorem exec_consistentCut (launch : Nat) (s : State) :
    exec (.consistentCut launch) s = execConsistentCut launch s := rfl
theorem exec_cutComplete (launch : Nat) (addr : DWord) (s : State) :
    exec (.cutComplete launch addr) s = execCutComplete launch addr s := rfl
theorem exec_workRequest (core : Nat) (s : State) :
    exec (.workRequest core) s = execWorkRequest core s := rfl
theorem exec_blockPlace (core : Nat) (s : State) :
    exec (.blockPlace core) s = execBlockPlace core s := rfl
theorem exec_fetchwService (core rid : Nat) (s : State) :
    exec (.fetchwService core rid) s = execFetchwService core rid s := rfl
theorem exec_finalUpdate (launch : Nat) (s : State) :
    exec (.finalUpdate launch) s = execFinalUpdate launch s := rfl
theorem exec_secondUpdate (launch : Nat) (s : State) :
    exec (.secondUpdate launch) s = execSecondUpdate launch s := rfl
theorem exec_watchdog (core slot troupe : Nat) (s : State) :
    exec (.watchdog core slot troupe) s = execWatchdog core slot troupe s := rfl
theorem exec_quenchRotate (s : State) :
    exec .quenchRotate s = execQuenchRotate s := rfl
theorem exec_rotgapExpiry (s : State) :
    exec .rotgapExpiry s = execRotgapExpiry s := rfl
theorem exec_quenchDrainDone (core : Nat) (s : State) :
    exec (.quenchDrainDone core) s = execQuenchDrainDone core s := rfl
theorem exec_quenchDrainTimeout (core : Nat) (s : State) :
    exec (.quenchDrainTimeout core) s = execQuenchDrainTimeout core s := rfl
theorem exec_scanPass (core : Nat) (s : State) :
    exec (.scanPass core) s = execScanPass core s := rfl
theorem exec_scanFail (core : Nat) (laneFaults : List Nat) (laneOnly secondPass : Bool) (s : State) :
    exec (.scanFail core laneFaults laneOnly secondPass) s = execScanFail core laneFaults laneOnly secondPass s := rfl
theorem exec_restoreComplete (core : Nat) (s : State) :
    exec (.restoreComplete core) s = execRestoreComplete core s := rfl
theorem exec_siripqWrite (value : DWord) (s : State) :
    exec (.siripqWrite value) s = execSiripqWrite value s := rfl
theorem exec_siripRequest (s : State) :
    exec .siripRequest s = execSiripRequest s := rfl
theorem exec_pairDrainDone (pair : Nat) (s : State) :
    exec (.pairDrainDone pair) s = execPairDrainDone pair s := rfl
theorem exec_matchWindowExpiry (core slot troupe : Nat) (s : State) :
    exec (.matchWindowExpiry core slot troupe) s = execMatchWindowExpiry core slot troupe s := rfl
theorem exec_blockRetryPlace (core : Nat) (s : State) :
    exec (.blockRetryPlace core) s = execBlockRetryPlace core s := rfl
theorem exec_lastingScanComplete (pair : Nat) (leaderFails understudyFails : Bool) (s : State) :
    exec (.lastingScanComplete pair leaderFails understudyFails) s = execLastingScanComplete pair leaderFails understudyFails s := rfl
theorem exec_correctedError (core row : Nat) (s : State) :
    exec (.correctedError core row) s = execCorrectedError core row s := rfl
theorem exec_uncorrectableError (site : ErrorSite) (s : State) :
    exec (.uncorrectableError site) s = execUncorrectableError site s := rfl
theorem exec_channelFailing (channel : Nat) (s : State) :
    exec (.channelFailing channel) s = execChannelFailing channel s := rfl
theorem exec_channelFreeAck (s : State) :
    exec .channelFreeAck s = execChannelFreeAck s := rfl
theorem exec_channelMigrationDone (s : State) :
    exec .channelMigrationDone s = execChannelMigrationDone s := rfl
theorem exec_agemonSample (cluster monitor : Nat) (value : Word) (s : State) :
    exec (.agemonSample cluster monitor value) s = execAgemonSample cluster monitor value s := rfl
theorem exec_cinjWrite (value : DWord) (s : State) :
    exec (.cinjWrite value) s = execCinjWrite value s := rfl
theorem exec_injectArm (core : Nat) (s : State) :
    exec (.injectArm core) s = execInjectArm core s := rfl
theorem exec_siripackWrite (value : Word) (s : State) :
    exec (.siripackWrite value) s = execSiripackWrite value s := rfl
theorem exec_siripLockstepError (s : State) :
    exec .siripLockstepError s = execSiripLockstepError s := rfl
theorem exec_timeSlotWrite (slot : Nat) (value : Byte) (s : State) :
    exec (.timeSlotWrite slot value) s = execTimeSlotWrite slot value s := rfl
theorem exec_frameBoundary (s : State) :
    exec .frameBoundary s = execFrameBoundary s := rfl
theorem exec_partitionRegWrite (part off : Nat) (value : DWord) (s : State) :
    exec (.partitionRegWrite part off value) s = execPartitionRegWrite part off value s := rfl
theorem exec_merge (a b : Nat) (s : State) :
    exec (.merge a b) s = execMerge a b s := rfl
theorem exec_split (a b firstCluster : Nat) (colour : DWord) (slots : DWord) (s : State) :
    exec (.split a b firstCluster colour slots) s = execSplit a b firstCluster colour slots s := rfl
theorem exec_keyset (vf core slot : Nat) (pasid : BitVec 20) (key : BitVec 256) (salt : Word) (ctr : DWord) (s : State) :
    exec (.keyset vf core slot pasid key salt ctr) s = execKeyset vf core slot pasid key salt ctr s := rfl
theorem exec_atsInvalidation (vf pasid : Nat) (va size : Nat) (s : State) :
    exec (.atsInvalidation vf pasid va size) s = execAtsInvalidation vf pasid va size s := rfl
theorem exec_prgResponseSuccess (index : Nat) (answer : AtsAnswer) (s : State) :
    exec (.prgResponseSuccess index answer) s = execPrgResponseSuccess index answer s := rfl
theorem exec_prgResponseInvalid (index : Nat) (s : State) :
    exec (.prgResponseInvalid index) s = execPrgResponseInvalid index s := rfl
theorem exec_prgResponseFailure (s : State) :
    exec .prgResponseFailure s = execPrgResponseFailure s := rfl
theorem exec_priReenable (s : State) :
    exec .priReenable s = execPriReenable s := rfl
theorem exec_atomicopCompletion (core rid : Nat) (ok : Bool) (s : State) :
    exec (.atomicopCompletion core rid ok) s = execAtomicopCompletion core rid ok s := rfl
theorem exec_receivedAtomicop (vf : Nat) (s : State) :
    exec (.receivedAtomicop vf) s = execReceivedAtomicop vf s := rfl
theorem exec_hostMemoryRequest (vf : Nat) (addr : DWord) (write : Bool) (data : List Byte) (s : State) :
    exec (.hostMemoryRequest vf addr write data) s = execHostMemoryRequest vf addr write data s := rfl
theorem exec_unstreamedRequest (vf : Nat) (s : State) :
    exec (.unstreamedRequest vf) s = execUnstreamedRequest vf s := rfl
theorem exec_ideIntegrityFailure (vf : Nat) (s : State) :
    exec (.ideIntegrityFailure vf) s = execIdeIntegrityFailure vf s := rfl
theorem exec_kSetGo (vf : Nat) (s : State) :
    exec (.kSetGo vf) s = execKSetGo vf s := rfl
theorem exec_tdiLock (vf : Nat) (s : State) :
    exec (.tdiLock vf) s = execTdiLock vf s := rfl
theorem exec_tdiStart (vf : Nat) (s : State) :
    exec (.tdiStart vf) s = execTdiStart vf s := rfl
theorem exec_stopInterface (vf : Nat) (s : State) :
    exec (.stopInterface vf) s = execStopInterface vf s := rfl
theorem exec_spdmCert (s : State) :
    exec .spdmCert s = execSpdmCert s := rfl
theorem exec_spdmChal (s : State) :
    exec .spdmChal s = execSpdmChal s := rfl
theorem exec_spdmMeas (index : Nat) (s : State) :
    exec (.spdmMeas index) s = execSpdmMeas index s := rfl
theorem exec_spdmKeyEx (s : State) :
    exec .spdmKeyEx s = execSpdmKeyEx s := rfl
theorem exec_firmwareImageWrite (verifies : Bool) (s : State) :
    exec (.firmwareImageWrite verifies) s = execFirmwareImageWrite verifies s := rfl
theorem exec_pendingWrite (value : BitVec 2) (s : State) :
    exec (.pendingWrite value) s = execPendingWrite value s := rfl
theorem exec_rollbackClear (s : State) :
    exec .rollbackClear s = execRollbackClear s := rfl
theorem exec_mgmtCoreRestart (s : State) :
    exec .mgmtCoreRestart s = execMgmtCoreRestart s := rfl
theorem exec_heartbeat (s : State) :
    exec .heartbeat s = execHeartbeat s := rfl
theorem exec_heartbeatTimeout (s : State) :
    exec .heartbeatTimeout s = execHeartbeatTimeout s := rfl
theorem exec_linkEnable (s : State) :
    exec .linkEnable s = execLinkEnable s := rfl
theorem exec_linkDisable (s : State) :
    exec .linkDisable s = execLinkDisable s := rfl
theorem exec_linkUp (width : Nat) (s : State) :
    exec (.linkUp width) s = execLinkUp width s := rfl
theorem exec_linkTrainingTimeout (s : State) :
    exec .linkTrainingTimeout s = execLinkTrainingTimeout s := rfl
theorem exec_linkRecovery (flits : Nat) (s : State) :
    exec (.linkRecovery flits) s = execLinkRecovery flits s := rfl
theorem exec_linkRecoveryTimeout (s : State) :
    exec .linkRecoveryTimeout s = execLinkRecoveryTimeout s := rfl
theorem exec_peerRequest (addr : DWord) (write : Bool) (data : List Byte) (s : State) :
    exec (.peerRequest addr write data) s = execPeerRequest addr write data s := rfl
theorem exec_perst (s : State) :
    exec .perst s = execPerst s := rfl
theorem exec_powerLoss (s : State) :
    exec .powerLoss s = execPowerLoss s := rfl
theorem exec_dramClearComplete (s : State) :
    exec .dramClearComplete s = execDramClearComplete s := rfl
theorem exec_thermalStepDown (s : State) :
    exec .thermalStepDown s = execThermalStepDown s := rfl
theorem exec_thermalTrip (s : State) :
    exec .thermalTrip s = execThermalTrip s := rfl
theorem exec_registerWrite (function offset : Nat) (value : DWord) (s : State) :
    exec (.registerWrite function offset value) s = execRegisterWrite function offset value s := rfl
theorem exec_registerImage (addr size : DWord) (s : State) :
    exec (.registerImage addr size) s = execRegisterImage addr size s := rfl
theorem exec_ideKmKeyProg (vf : Nat) (keys : BitVec 256) (s : State) :
    exec (.ideKmKeyProg vf keys) s = execIdeKmKeyProg vf keys s := rfl
theorem exec_linkRecoveryComplete (s : State) :
    exec .linkRecoveryComplete s = execLinkRecoveryComplete s := rfl
theorem exec_prompterKill (core slot : Nat) (s : State) :
    exec (.prompterKill core slot) s = execPrompterKill core slot s := rfl

end Sys2Proof.Machine
end

