-- ==== Sys2Proof/Laws/Encoding.lean ====
section
/-!
SUPPORT. Each format's fields read back from the word that the encoder makes of them (R32 to R43), and bytes read
back as the number they were written from.
-/
namespace Sys2Proof

/-! ### Bytes -/

theorem natToBytes_length (n v : Nat) : (natToBytes n v).length = n := by simp [natToBytes]

theorem natToBytes_succ (n v : Nat) : natToBytes (n + 1) v = BitVec.ofNat 8 v :: natToBytes n (v / 256) := by
  unfold natToBytes
  rw [List.range_succ_eq_map, List.map_cons, List.map_map]
  congr 1
  apply List.map_congr_left
  intro k _
  simp only [Function.comp]
  congr 1
  rw [Nat.shiftRight_eq_div_pow, Nat.shiftRight_eq_div_pow, Nat.div_div_eq_div_mul]
  congr 1
  rw [Nat.mul_succ, Nat.pow_add, Nat.mul_comm]

/-- The number that `n` bytes of a value make. -/
theorem bytesToNat_natToBytes (n v : Nat) : bytesToNat (natToBytes n v) = v % 256 ^ n := by
  induction n generalizing v with
  | zero => simp [natToBytes, bytesToNat, Nat.mod_one]
  | succ n ih =>
    rw [natToBytes_succ]
    have : bytesToNat (BitVec.ofNat 8 v :: natToBytes n (v / 256)) = v % 256 + 256 * bytesToNat (natToBytes n (v / 256)) := by
      simp [bytesToNat]
    rw [this, ih, Nat.pow_succ, Nat.mul_comm (256 ^ n), Nat.mod_mul]

theorem bytesToNat_lt (bs : List Byte) : bytesToNat bs < 256 ^ bs.length := by
  induction bs with
  | nil => simp [bytesToNat]
  | cons b t ih =>
    have : bytesToNat (b :: t) = b.toNat + 256 * bytesToNat t := rfl
    rw [this, List.length_cons, Nat.pow_succ]
    have := b.isLt
    omega

/-- The bytes of the number that some bytes make. -/
theorem natToBytes_bytesToNat (bs : List Byte) : natToBytes bs.length (bytesToNat bs) = bs := by
  induction bs with
  | nil => rfl
  | cons b t ih =>
    have e : bytesToNat (b :: t) = b.toNat + 256 * bytesToNat t := rfl
    rw [List.length_cons, natToBytes_succ, e]
    have hb := b.isLt
    have h1 : (b.toNat + 256 * bytesToNat t) / 256 = bytesToNat t := by omega
    rw [h1, ih]
    congr 1
    apply BitVec.eq_of_toNat_eq
    rw [BitVec.toNat_ofNat]
    omega

/-! ### Fields -/

theorem fieldAt_eq {k : Nat} (w lo : Nat) (v : BitVec k) (h : w / 2 ^ lo % 2 ^ k = v.toNat) : fieldAt w lo k = v := by
  unfold fieldAt
  apply BitVec.eq_of_toNat_eq
  rw [BitVec.toNat_ofNat, Nat.shiftRight_eq_div_pow, h]

theorem bitAt_eq (w n : Nat) (b : Bool) (h : w / 2 ^ n % 2 = b.toNat) : bitAt w n = b := by
  unfold bitAt
  rw [Nat.testBit_eq_decide_div_mod_eq, h]
  cases b <;> rfl

theorem fieldAt_toNat (w lo k : Nat) : (fieldAt w lo k).toNat = w / 2 ^ lo % 2 ^ k := by
  unfold fieldAt
  rw [BitVec.toNat_ofNat, Nat.shiftRight_eq_div_pow]

theorem bitAt_toNat (w n : Nat) : (bitAt w n).toNat = w / 2 ^ n % 2 := by
  unfold bitAt
  rw [Nat.testBit_eq_decide_div_mod_eq]
  rcases Nat.mod_two_eq_zero_or_one (w / 2 ^ n) with h | h <;> rw [h] <;> rfl

theorem bitsOf_eq (w hi lo : Nat) : bitsOf w hi lo = w / 2 ^ lo % 2 ^ (hi + 1 - lo) := by
  unfold bitsOf
  rw [Nat.shiftRight_eq_div_pow]

/-- The head and the length code stay below bit 16. -/
theorem Head.bits_lt (h : Head) (op : Nat) (l : Len) (ho : op < 256) : h.bits op l < 2 ^ 16 := by
  have h1 := h.g.isLt; have h2 := Bool.toNat_le h.gn; have h3 := Bool.toNat_le h.e
  unfold Head.bits
  simp only [Nat.shiftLeft_eq]
  cases l <;> simp only [Len.code] <;> omega

/-- The length code, the opcode and the head read back from any word whose low bits are theirs. -/
theorem Head.bits_fields (h : Head) (op : Nat) (l : Len) (ho : op < 256) (w : Nat) (hw : w % 2 ^ 16 = h.bits op l) :
    w % 4 = l.code ∧ bitsOf w 9 2 = op ∧ headAt w = h := by
  have h1 := h.g.isLt; have h2 := Bool.toNat_le h.gn; have h3 := Bool.toNat_le h.e
  have h4 : l.code < 4 := by cases l <;> decide
  unfold Head.bits at hw
  simp only [Nat.shiftLeft_eq] at hw
  refine ⟨by omega, by rw [bitsOf_eq]; omega, ?_⟩
  unfold headAt
  rw [bitAt_eq w 15 h.e (by omega), bitAt_eq w 14 h.gn (by omega), fieldAt_eq w 10 h.g (by omega)]

/-- Formats V, W and P read back (R35, R37, R39). -/
theorem rFormAt_bits (f : RForm) (hf : f.fits = true) (base : Nat) (hb : base < 2 ^ 16) (w : Nat)
    (hw : base + (Form.r f).bits = w) :
    rFormAt f.len w = some f ∧ w % 2 ^ 16 = base ∧
      w < 2 ^ (8 * f.len.bytes) := by
  have h1 := f.d.isLt; have h2 := f.a.isLt; have h3 := f.b.isLt; have h4 := f.c.isLt; have h5 := f.sub.isLt
  have h6 := f.mod.isLt; have h7 := f.pa.isLt; have h8 := f.pb.isLt; have h9 := f.pc.isLt
  have g1 := Bool.toNat_le f.la; have g2 := Bool.toNat_le f.lb; have g3 := Bool.toNat_le f.lc
  unfold Form.bits at hw
  simp only [Nat.shiftLeft_eq] at hw
  have e1 := fieldAt_eq w 16 f.d (by omega); have e2 := fieldAt_eq w 27 f.a (by omega)
  have e3 := fieldAt_eq w 38 f.b (by omega); have e4 := fieldAt_eq w 64 f.c (by omega)
  have e5 := fieldAt_eq w 49 f.sub (by omega); have e6 := bitAt_eq w 56 f.la (by omega)
  have e7 := bitAt_eq w 57 f.lb (by omega); have e8 := bitAt_eq w 75 f.lc (by omega)
  have e9 := fieldAt_eq w 58 f.mod (by omega); have e10 := fieldAt_eq w 96 f.pa (by omega)
  have e11 := fieldAt_eq w 105 f.pb (by omega); have e12 := fieldAt_eq w 114 f.pc (by omega)
  have z1 : bitsOf w 95 76 = 0 := by rw [bitsOf_eq]; omega
  have z2 : bitsOf w 127 123 = 0 := by rw [bitsOf_eq]; omega
  refine ⟨by unfold rFormAt; simp only [e1, e2, e3, e4, e5, e6, e7, e8, e9, e10, e11, e12, z1, z2]; rfl, by omega, ?_⟩
  unfold RForm.fits at hf
  cases hl : f.len <;> rw [hl] at hf <;> simp only [Bool.and_eq_true, beq_iff_eq, Bool.not_eq_true'] at hf <;>
    simp only [Len.bytes]
  · obtain ⟨⟨⟨⟨x1, x2⟩, x3⟩, x4⟩, x5⟩ := hf
    rw [x1, x2, x3, x4, x5] at hw
    simp at hw
    omega
  · obtain ⟨⟨x3, x4⟩, x5⟩ := hf
    rw [x3, x4, x5] at hw
    simp at hw
    omega
  · omega

/-- Formats VI and WI read back (R36, R38). -/
theorem iFormAt_bits (f : IForm) (hl : f.len ≠ .l128)
    (hf : f.len = .l64 → f.sub.toNat < 16 ∧ f.mod = 0 ∧ f.imm = (f.imm.setWidth 20).signExtend 32)
    (base : Nat) (hb : base < 2 ^ 16) (w : Nat)
    (hw : base + (Form.i f).bits = w) :
    iFormAt f.len w = some f ∧ w % 2 ^ 16 = base ∧
      w < 2 ^ (8 * f.len.bytes) := by
  have h1 := f.d.isLt; have h2 := f.a.isLt; have h5 := f.sub.isLt; have h6 := f.mod.isLt; have h7 := f.imm.isLt
  have g1 := Bool.toNat_le f.la
  have h8 := (f.imm.setWidth 20).isLt
  cases h : f.len with
  | l64 =>
    obtain ⟨x1, x2, x3⟩ := hf h
    unfold Form.bits at hw
    simp only [h, Nat.shiftLeft_eq] at hw
    have e1 := fieldAt_eq w 16 f.d (by omega); have e2 := fieldAt_eq w 27 f.a (by omega)
    have e3 := fieldAt_eq w 38 (f.imm.setWidth 20) (by omega)
    have e4 : (fieldAt w 58 4).setWidth 7 = f.sub := by
      apply BitVec.eq_of_toNat_eq
      rw [BitVec.toNat_setWidth, fieldAt_toNat]
      omega
    have e5 := bitAt_eq w 62 f.la (by omega); have e6 := bitAt_eq w 63 false (by simp; omega)
    refine ⟨?_, by omega, by simp only [Len.bytes]; omega⟩
    unfold iFormAt
    simp only [e1, e2, e3, e4, e5, e6, ← x3]
    cases f
    simp only at h x2
    subst h; subst x2
    rfl
  | l96 =>
    unfold Form.bits at hw
    simp only [h, Nat.shiftLeft_eq] at hw
    have e1 := fieldAt_eq w 16 f.d (by omega); have e2 := fieldAt_eq w 27 f.a (by omega)
    have e3 := fieldAt_eq w 64 f.imm (by omega); have e4 := fieldAt_eq w 49 f.sub (by omega)
    have e5 := bitAt_eq w 56 f.la (by omega); have e6 := bitAt_eq w 57 false (by simp; omega)
    have e7 := fieldAt_eq w 58 f.mod (by omega)
    have z1 : bitsOf w 48 38 = 0 := by rw [bitsOf_eq]; omega
    refine ⟨?_, by omega, by simp only [Len.bytes]; omega⟩
    unfold iFormAt
    simp only [e1, e2, e3, e4, e5, e6, e7, z1]
    cases f
    simp only at h
    subst h
    rfl
  | l128 => exact absurd h hl

/-- Format C reads back (R41). -/
theorem cFormAt_bits (f : CForm) (base : Nat) (hb : base < 2 ^ 16) (w : Nat)
    (hw : base + (Form.c f).bits = w) :
    cFormAt w = f ∧ w % 2 ^ 16 = base ∧ w < 2 ^ 64 := by
  have h1 := f.off.isLt; have h2 := f.ka.isLt; have h3 := f.cp.isLt; have h4 := f.sub.isLt; have h5 := f.imm.isLt
  have g1 := Bool.toNat_le f.cn
  unfold Form.bits at hw
  simp only [Nat.shiftLeft_eq] at hw
  refine ⟨?_, by omega, by omega⟩
  unfold cFormAt
  rw [fieldAt_eq w 16 f.off (by omega), fieldAt_eq w 42 f.ka (by omega), fieldAt_eq w 48 f.cp (by omega),
    bitAt_eq w 51 f.cn (by omega), fieldAt_eq w 52 f.sub (by omega), fieldAt_eq w 56 f.imm (by omega)]

/-- Format K reads back (R40). -/
theorem kFormAt_bits (f : KForm) (base : Nat) (hb : base < 2 ^ 16) (w : Nat)
    (hw : base + (Form.k f).bits = w) :
    kFormAt w = f ∧ w % 2 ^ 16 = base ∧ w < 2 ^ 64 := by
  have h1 := f.kd.isLt; have h2 := f.ka.isLt; have h3 := f.kb.isLt; have h4 := f.sub.isLt; have h5 := f.imm.isLt
  unfold Form.bits at hw
  simp only [Nat.shiftLeft_eq] at hw
  refine ⟨?_, by omega, by omega⟩
  unfold kFormAt
  rw [fieldAt_eq w 16 f.kd (by omega), fieldAt_eq w 22 f.ka (by omega), fieldAt_eq w 28 f.kb (by omega),
    fieldAt_eq w 34 f.sub (by omega), fieldAt_eq w 40 f.imm (by omega)]

/-- KLDI at 128 bits reads back (R40, R165). -/
theorem lFormAt_bits (f : LForm) (base : Nat) (hb : base < 2 ^ 16) (w : Nat)
    (hw : base + (Form.l f).bits = w) :
    lFormAt w = some f ∧ w % 2 ^ 16 = base ∧
      w < 2 ^ 128 := by
  have h1 := f.kd.isLt; have h5 := f.imm.isLt
  unfold Form.bits at hw
  simp only [Nat.shiftLeft_eq] at hw
  have z1 : bitsOf w 63 22 = 0 := by rw [bitsOf_eq]; omega
  refine ⟨?_, by omega, by omega⟩
  unfold lFormAt
  rw [fieldAt_eq w 16 f.kd (by omega), fieldAt_eq w 64 f.imm (by omega), z1]
  rfl

/-- Format M reads back (R42). -/
theorem mFormAt_bits (f : MForm) (base : Nat) (hb : base < 2 ^ 16) (w : Nat)
    (hw : base + (Form.m f).bits = w) :
    mFormAt w = some f ∧ w % 2 ^ 16 = base ∧
      w < 2 ^ 96 := by
  have h1 := f.d.isLt; have h2 := f.a.isLt; have h3 := f.kb.isLt; have h4 := f.sub.isLt; have h5 := f.ord.isLt
  have h6 := f.ch.isLt; have h7 := f.off.isLt
  have g1 := Bool.toNat_le f.def_; have g2 := Bool.toNat_le f.la
  unfold Form.bits at hw
  simp only [Nat.shiftLeft_eq] at hw
  have z1 : bitsOf w 63 58 = 0 := by rw [bitsOf_eq]; omega
  refine ⟨?_, by omega, by omega⟩
  unfold mFormAt
  rw [fieldAt_eq w 16 f.d (by omega), fieldAt_eq w 27 f.a (by omega), fieldAt_eq w 38 f.kb (by omega),
    fieldAt_eq w 44 f.sub (by omega), fieldAt_eq w 51 f.ord (by omega), bitAt_eq w 54 f.def_ (by omega),
    bitAt_eq w 55 f.la (by omega), fieldAt_eq w 56 f.ch (by omega), fieldAt_eq w 64 f.off (by omega), z1]
  rfl

/-- Format X reads back (R43). -/
theorem xFormAt_bits (f : XForm) (base : Nat) (hb : base < 2 ^ 16) (w : Nat)
    (hw : base + (Form.x f).bits = w) :
    xFormAt w = some f ∧ w % 2 ^ 16 = base ∧
      w < 2 ^ 128 := by
  have h1 := f.d.isLt; have h2 := f.a.isLt; have h3 := f.ka.isLt; have h4 := f.kb.isLt; have h5 := f.kc.isLt
  have h6 := f.sub.isLt; have h7 := f.imm.isLt; have h8 := f.immB.isLt
  unfold Form.bits at hw
  simp only [Nat.shiftLeft_eq] at hw
  refine ⟨?_, by omega, by omega⟩
  unfold xFormAt
  rw [fieldAt_eq w 16 f.d (by omega), fieldAt_eq w 27 f.a (by omega), fieldAt_eq w 38 f.ka (by omega),
    fieldAt_eq w 44 f.kb (by omega), fieldAt_eq w 50 f.kc (by omega), fieldAt_eq w 56 f.sub (by omega),
    fieldAt_eq w 64 f.imm (by omega), fieldAt_eq w 96 f.immB (by omega), bitAt_eq w 63 false (by simp; omega)]
  rfl

end Sys2Proof
end

