-- ==== Sys2Proof/Laws/Memory.lean ====
section
/-!
SUPPORT. The laws of memories and cell stores: a read after a write, the other addresses, and that every
operation keeps the canonical form.
-/
namespace Sys2Proof.Machine

/-! ### One byte -/

@[simp] theorem Memory.read_nil (a : Nat) : Memory.read [] a = 0 := rfl

/-- A byte below every listed address reads as zero. -/
theorem Memory.read_below (m : Memory) (lo a : Nat) (h : m.wfFrom lo = true) (ha : a < lo) : m.read a = 0 := by
  induction m generalizing lo with
  | nil => rfl
  | cons c t ih =>
    obtain ⟨k, x⟩ := c
    simp only [Memory.wfFrom, Bool.and_eq_true, decide_eq_true_eq] at h
    have hk : k ≠ a := by omega
    simp only [Memory.read, if_neg hk]
    exact ih (k + 1) h.2 (by omega)

/-- The canonical form from an address on is the canonical form from any lower one. -/
theorem Memory.wfFrom_mono (m : Memory) (lo lo' : Nat) (h : m.wfFrom lo = true) (hl : lo' ≤ lo) :
    m.wfFrom lo' = true := by
  cases m with
  | nil => rfl
  | cons c t =>
    obtain ⟨k, x⟩ := c
    simp only [Memory.wfFrom, Bool.and_eq_true, decide_eq_true_eq] at h ⊢
    exact ⟨⟨by omega, h.1.2⟩, h.2⟩

/-- A write keeps the canonical form. -/
theorem Memory.write_wfFrom (m : Memory) (lo a : Nat) (b : Byte) (h : m.wfFrom lo = true) (ha : lo ≤ a) :
    (m.write a b).wfFrom lo = true := by
  induction m generalizing lo with
  | nil =>
    simp only [Memory.write]
    split
    · rfl
    · rename_i hb
      simp only [Memory.wfFrom, Bool.and_eq_true, decide_eq_true_eq]
      exact ⟨⟨ha, hb⟩, trivial⟩
  | cons c t ih =>
    obtain ⟨k, x⟩ := c
    simp only [Memory.wfFrom, Bool.and_eq_true, decide_eq_true_eq] at h
    obtain ⟨⟨hk, hx⟩, ht⟩ := h
    simp only [Memory.write]
    split
    · split
      · simp only [Memory.wfFrom, Bool.and_eq_true, decide_eq_true_eq]
        exact ⟨⟨hk, hx⟩, ht⟩
      · rename_i hlt hb
        simp only [Memory.wfFrom, Bool.and_eq_true, decide_eq_true_eq]
        exact ⟨⟨ha, hb⟩, ⟨by omega, hx⟩, ht⟩
    · split
      · split
        · exact Memory.wfFrom_mono t (k + 1) lo ht (by omega)
        · rename_i he hb
          subst he
          simp only [Memory.wfFrom, Bool.and_eq_true, decide_eq_true_eq]
          exact ⟨⟨ha, hb⟩, ht⟩
      · simp only [Memory.wfFrom, Bool.and_eq_true, decide_eq_true_eq]
        exact ⟨⟨hk, hx⟩, ih (k + 1) ht (by omega)⟩

/-- A write keeps the canonical form. -/
theorem Memory.write_wf (m : Memory) (a : Nat) (b : Byte) (h : m.wf = true) : (m.write a b).wf = true :=
  Memory.write_wfFrom m 0 a b h (Nat.zero_le a)

/-- A read after a write: the byte written at its address, and every other byte as before. -/
theorem Memory.read_write (m : Memory) (lo a x : Nat) (b : Byte) (h : m.wfFrom lo = true) :
    (m.write a b).read x = if x = a then b else m.read x := by
  induction m generalizing lo with
  | nil =>
    have hax : (a = x) = (x = a) := propext ⟨Eq.symm, Eq.symm⟩
    simp only [Memory.write]
    split
    · rename_i hb
      subst hb
      simp only [Memory.read, ite_self]
    · simp only [Memory.read, hax]
  | cons c t ih =>
    obtain ⟨k, y⟩ := c
    simp only [Memory.wfFrom, Bool.and_eq_true, decide_eq_true_eq] at h
    obtain ⟨⟨hk, hy⟩, ht⟩ := h
    simp only [Memory.write]
    split
    · rename_i hlt
      have hz : Memory.read ((k, y) :: t) a = 0 := by
        have hka : k ≠ a := by omega
        simp only [Memory.read, if_neg hka]
        exact Memory.read_below t (k + 1) a ht (by omega)
      split
      · rename_i hb
        by_cases hx : x = a
        · subst hx; simp [hz, hb]
        · simp [hx]
      · by_cases hx : x = a
        · subst hx; simp [Memory.read]
        · have hax : a ≠ x := fun e => hx e.symm
          simp [Memory.read, hx, hax]
    · split
      · rename_i hlt he
        subst he
        split
        · rename_i hb
          by_cases hx : x = a
          · subst hx; simp [hb, Memory.read_below t (x + 1) x ht (by omega)]
          · have hax : a ≠ x := fun e => hx e.symm
            simp [Memory.read, hx, hax]
        · by_cases hx : x = a
          · subst hx; simp [Memory.read]
          · have hax : a ≠ x := fun e => hx e.symm
            simp [Memory.read, hx, hax]
      · rename_i hlt he
        simp only [Memory.read]
        by_cases hkx : k = x
        · subst hkx
          have : k ≠ a := fun e => he e.symm
          simp [this]
        · simp only [if_neg hkx]
          exact ih (k + 1) ht

/-- A read after a write to the same place. -/
theorem Memory.read_write_same (m : Memory) (a : Nat) (b : Byte) (h : m.wf = true) : (m.write a b).read a = b := by
  rw [Memory.read_write m 0 a a b h]; simp

/-- A write leaves every other place alone. -/
theorem Memory.read_write_other (m : Memory) (a x : Nat) (b : Byte) (h : m.wf = true) (hx : x ≠ a) :
    (m.write a b).read x = m.read x := by
  rw [Memory.read_write m 0 a x b h, if_neg hx]

/-! ### Several bytes -/

/-- Writing bytes keeps the canonical form. -/
theorem Memory.writeBytes_wf (m : Memory) (a : Nat) (bs : List Byte) (h : m.wf = true) :
    (m.writeBytes a bs).wf = true := by
  induction bs generalizing m a with
  | nil => exact h
  | cons b t ih => exact ih (m.write a b) (a + 1) (Memory.write_wf m a b h)

/-- Bytes outside those written are as before. -/
theorem Memory.read_writeBytes_other (m : Memory) (a x : Nat) (bs : List Byte) (h : m.wf = true)
    (hx : x < a ∨ a + bs.length ≤ x) : (m.writeBytes a bs).read x = m.read x := by
  induction bs generalizing m a with
  | nil => rfl
  | cons b t ih =>
    simp only [List.length_cons] at hx
    rw [Memory.writeBytes, ih (m.write a b) (a + 1) (Memory.write_wf m a b h) (by omega)]
    exact Memory.read_write_other m a x b h (by omega)

/-- Byte `i` of those written is read back. -/
theorem Memory.read_writeBytes_same (m : Memory) (a i : Nat) (bs : List Byte) (h : m.wf = true)
    (hi : i < bs.length) : (m.writeBytes a bs).read (a + i) = bs.getD i 0 := by
  induction bs generalizing m a i with
  | nil => simp at hi
  | cons b t ih =>
    cases i with
    | zero =>
      simp only [Nat.add_zero]
      rw [Memory.writeBytes,
        Memory.read_writeBytes_other (m.write a b) (a + 1) a t (Memory.write_wf m a b h) (by omega)]
      simpa using Memory.read_write_same m a b h
    | succ j =>
      simp only [List.length_cons] at hi
      have := ih (m.write a b) (a + 1) j (Memory.write_wf m a b h) (by omega)
      rw [Memory.writeBytes, show a + (j + 1) = a + 1 + j by omega, this]
      simp

/-- Writing a value keeps the canonical form. -/
theorem Memory.writeNat_wf (m : Memory) (a n v : Nat) (h : m.wf = true) : (m.writeNat a n v).wf = true :=
  Memory.writeBytes_wf m a _ h

/-- Writing single bytes keeps the canonical form. -/
theorem Memory.writeCells_wf (m : Memory) (cs : List Host.Cell) (h : m.wf = true) : (m.writeCells cs).wf = true := by
  unfold Memory.writeCells
  induction cs generalizing m with
  | nil => exact h
  | cons c t ih => exact ih (m.write c.1 c.2) (Memory.write_wf m c.1 c.2 h)

/-- Keeping some of the listed bytes keeps the canonical form. -/
theorem Memory.filter_wfFrom (m : Memory) (lo : Nat) (p : Host.Cell → Bool) (h : m.wfFrom lo = true) :
    Memory.wfFrom lo (m.filter p) = true := by
  induction m generalizing lo with
  | nil => rfl
  | cons c t ih =>
    obtain ⟨k, x⟩ := c
    simp only [Memory.wfFrom, Bool.and_eq_true, decide_eq_true_eq] at h
    obtain ⟨⟨hk, hx⟩, ht⟩ := h
    simp only [List.filter_cons]
    split
    · simp only [Memory.wfFrom, Bool.and_eq_true, decide_eq_true_eq]
      exact ⟨⟨hk, hx⟩, ih (k + 1) ht⟩
    · exact ih lo (Memory.wfFrom_mono t (k + 1) lo ht (by omega))

/-- Clearing a span keeps the canonical form. -/
theorem Memory.clear_wf (m : Memory) (lo hi : Nat) (h : m.wf = true) : (m.clear lo hi).wf = true :=
  Memory.filter_wfFrom m 0 _ h

/-- The bytes of a span are in canonical form. -/
theorem Memory.within_wf (m : Memory) (lo hi : Nat) (h : m.wf = true) : (m.within lo hi).wf = true :=
  Memory.filter_wfFrom m 0 _ h

/-! ### Accumulator cells -/

/-- The canonical form from a key on is the canonical form from any lower one. -/
theorem CellStore.wfFrom_mono (m : CellStore) (lo lo' : Nat) (h : m.wfFrom lo = true) (hl : lo' ≤ lo) :
    m.wfFrom lo' = true := by
  cases m with
  | nil => rfl
  | cons c t =>
    obtain ⟨k, x⟩ := c
    simp only [CellStore.wfFrom, Bool.and_eq_true, decide_eq_true_eq] at h ⊢
    exact ⟨⟨by omega, h.1.2⟩, h.2⟩

/-- A write of a cell keeps the canonical form. -/
theorem CellStore.write_wfFrom (m : CellStore) (lo a : Nat) (w : Word) (h : m.wfFrom lo = true) (ha : lo ≤ a) :
    (m.write a w).wfFrom lo = true := by
  induction m generalizing lo with
  | nil =>
    simp only [CellStore.write]
    split
    · rfl
    · rename_i hb
      simp only [CellStore.wfFrom, Bool.and_eq_true, decide_eq_true_eq]
      exact ⟨⟨ha, hb⟩, trivial⟩
  | cons c t ih =>
    obtain ⟨k, x⟩ := c
    simp only [CellStore.wfFrom, Bool.and_eq_true, decide_eq_true_eq] at h
    obtain ⟨⟨hk, hx⟩, ht⟩ := h
    simp only [CellStore.write]
    split
    · split
      · simp only [CellStore.wfFrom, Bool.and_eq_true, decide_eq_true_eq]
        exact ⟨⟨hk, hx⟩, ht⟩
      · rename_i hlt hb
        simp only [CellStore.wfFrom, Bool.and_eq_true, decide_eq_true_eq]
        exact ⟨⟨ha, hb⟩, ⟨by omega, hx⟩, ht⟩
    · split
      · split
        · exact CellStore.wfFrom_mono t (k + 1) lo ht (by omega)
        · rename_i he hb
          subst he
          simp only [CellStore.wfFrom, Bool.and_eq_true, decide_eq_true_eq]
          exact ⟨⟨ha, hb⟩, ht⟩
      · simp only [CellStore.wfFrom, Bool.and_eq_true, decide_eq_true_eq]
        exact ⟨⟨hk, hx⟩, ih (k + 1) ht (by omega)⟩

/-- A write of a cell keeps the canonical form. -/
theorem CellStore.write_wf (m : CellStore) (a : Nat) (w : Word) (h : m.wf = true) : (m.write a w).wf = true :=
  CellStore.write_wfFrom m 0 a w h (Nat.zero_le a)

/-- A cell below every listed key is +0. -/
theorem CellStore.read_below (m : CellStore) (lo a : Nat) (h : m.wfFrom lo = true) (ha : a < lo) : m.read a = 0 := by
  induction m generalizing lo with
  | nil => rfl
  | cons c t ih =>
    obtain ⟨k, x⟩ := c
    simp only [CellStore.wfFrom, Bool.and_eq_true, decide_eq_true_eq] at h
    have hk : k ≠ a := by omega
    simp only [CellStore.read, if_neg hk]
    exact ih (k + 1) h.2 (by omega)

/-- A read after a write: the value written in its cell, and every other cell as before. -/
theorem CellStore.read_write (m : CellStore) (lo a x : Nat) (b : Word) (h : m.wfFrom lo = true) :
    (m.write a b).read x = if x = a then b else m.read x := by
  induction m generalizing lo with
  | nil =>
    have hax : (a = x) = (x = a) := propext ⟨Eq.symm, Eq.symm⟩
    simp only [CellStore.write]
    split
    · rename_i hb
      subst hb
      simp only [CellStore.read, ite_self]
    · simp only [CellStore.read, hax]
  | cons c t ih =>
    obtain ⟨k, y⟩ := c
    simp only [CellStore.wfFrom, Bool.and_eq_true, decide_eq_true_eq] at h
    obtain ⟨⟨hk, hy⟩, ht⟩ := h
    simp only [CellStore.write]
    split
    · rename_i hlt
      have hz : CellStore.read ((k, y) :: t) a = 0 := by
        have hka : k ≠ a := by omega
        simp only [CellStore.read, if_neg hka]
        exact CellStore.read_below t (k + 1) a ht (by omega)
      split
      · rename_i hb
        by_cases hx : x = a
        · subst hx; simp [hz, hb]
        · simp [hx]
      · by_cases hx : x = a
        · subst hx; simp [CellStore.read]
        · have hax : a ≠ x := fun e => hx e.symm
          simp [CellStore.read, hx, hax]
    · split
      · rename_i hlt he
        subst he
        split
        · rename_i hb
          by_cases hx : x = a
          · subst hx; simp [hb, CellStore.read_below t (x + 1) x ht (by omega)]
          · have hax : a ≠ x := fun e => hx e.symm
            simp [CellStore.read, hx, hax]
        · by_cases hx : x = a
          · subst hx; simp [CellStore.read]
          · have hax : a ≠ x := fun e => hx e.symm
            simp [CellStore.read, hx, hax]
      · rename_i hlt he
        simp only [CellStore.read]
        by_cases hkx : k = x
        · subst hkx
          have : k ≠ a := fun e => he e.symm
          simp [this]
        · simp only [if_neg hkx]
          exact ih (k + 1) ht

end Sys2Proof.Machine
end

