-- ==== Sys2Proof/Laws/Shapes.lean ====
section
/-!
SUPPORT. What the shared shapes of register instructions do on a path that begins: one source, two, three, a
source and an immediate.
-/
namespace Sys2Proof.Machine

theorem unary_ok {i : Instr} {h : Head} {f : RForm} {acc : Tag → Bool} {tag : Tag → Tag}
    {go : State → Path → Word → Word × Flags} {s : State} {p : Path} {s1 s2 : State} {x : Operand}
    (b : Begins i h f.len.bytes s p s1 s2) (hr : s2.read1 p f.a.toNat f.pa.toNat acc = .ok x)
    (hd : Deliverable s2 (s2.popPorts p [f.a.toNat]) p f.d.toNat (tag x.tag)) :
    ∃ t, unary i h f acc tag go s = .next (t.logUndo p.at_ s1) ∧
      Delivered (s2.popPorts p [f.a.toNat]) p f.d.toNat (tag x.tag) (fun l => (go s2 p (x.at l)).1)
        (orFlags (p.active.lanes.map fun l => (go s2 p (x.at l)).2)) t := by
  obtain ⟨t, h1, h2⟩ := State.finish_ok (fun l => (go s2 p (x.at l)).1) (fun l => (go s2 p (x.at l)).2) hd
  refine ⟨t, runThread_ok b ?_, h2⟩
  simp only [hr, bind, Except.bind, h1]

theorem binary_ok {i : Instr} {h : Head} {f : RForm} {accA accB : Tag → Bool} {tag : Tag → Tag → Tag}
    {go : State → Path → Word → Word → Word × Flags} {s : State} {p : Path} {s1 s2 : State} {x y : Operand}
    (b : Begins i h f.len.bytes s p s1 s2)
    (hr : s2.read2 p f.a.toNat f.pa.toNat accA f.b.toNat f.pb.toNat accB = .ok (x, y))
    (hd : Deliverable s2 (s2.popPorts p [f.a.toNat, f.b.toNat]) p f.d.toNat (tag x.tag y.tag)) :
    ∃ t, binary i h f accA accB tag go s = .next (t.logUndo p.at_ s1) ∧
      Delivered (s2.popPorts p [f.a.toNat, f.b.toNat]) p f.d.toNat (tag x.tag y.tag)
        (fun l => (go s2 p (x.at l) (y.at l)).1)
        (orFlags (p.active.lanes.map fun l => (go s2 p (x.at l) (y.at l)).2)) t := by
  obtain ⟨t, h1, h2⟩ := State.finish_ok (fun l => (go s2 p (x.at l) (y.at l)).1)
    (fun l => (go s2 p (x.at l) (y.at l)).2) hd
  refine ⟨t, runThread_ok b ?_, h2⟩
  simp only [hr, bind, Except.bind, h1]

theorem ternary_ok {i : Instr} {h : Head} {f : RForm} {acc accB : Tag → Bool} {tag : Tag}
    {go : State → Path → Word → Word → Word → Word × Flags} {s : State} {p : Path} {s1 s2 : State}
    {x y z : Operand} (b : Begins i h f.len.bytes s p s1 s2)
    (hr : s2.read3 p f.a.toNat f.pa.toNat f.b.toNat f.pb.toNat f.c.toNat f.pc.toNat acc accB = .ok (x, y, z))
    (hd : Deliverable s2 (s2.popPorts p [f.a.toNat, f.b.toNat, f.c.toNat]) p f.d.toNat tag) :
    ∃ t, ternary i h f acc accB tag go s = .next (t.logUndo p.at_ s1) ∧
      Delivered (s2.popPorts p [f.a.toNat, f.b.toNat, f.c.toNat]) p f.d.toNat tag
        (fun l => (go s2 p (x.at l) (y.at l) (z.at l)).1)
        (orFlags (p.active.lanes.map fun l => (go s2 p (x.at l) (y.at l) (z.at l)).2)) t := by
  obtain ⟨t, h1, h2⟩ := State.finish_ok (fun l => (go s2 p (x.at l) (y.at l) (z.at l)).1)
    (fun l => (go s2 p (x.at l) (y.at l) (z.at l)).2) hd
  refine ⟨t, runThread_ok b ?_, h2⟩
  simp only [hr, bind, Except.bind, h1]

theorem immediate_ok {i : Instr} {h : Head} {f : IForm} {acc : Tag → Bool} {tag : Tag → Tag}
    {go : Word → Word → Word × Flags} {s : State} {p : Path} {s1 s2 : State} {x : Operand}
    (b : Begins i h f.len.bytes s p s1 s2) (hr : s2.read1 p f.a.toNat 0 acc = .ok x)
    (hd : Deliverable s2 (s2.popPorts p [f.a.toNat]) p f.d.toNat (tag x.tag)) :
    ∃ t, immediate i h f acc tag go s = .next (t.logUndo p.at_ s1) ∧
      Delivered (s2.popPorts p [f.a.toNat]) p f.d.toNat (tag x.tag) (fun l => (go (x.at l) f.imm).1)
        (orFlags (p.active.lanes.map fun l => (go (x.at l) f.imm).2)) t := by
  obtain ⟨t, h1, h2⟩ := State.finish_ok (fun l => (go (x.at l) f.imm).1) (fun l => (go (x.at l) f.imm).2) hd
  refine ⟨t, runThread_ok b ?_, h2⟩
  simp only [hr, bind, Except.bind, h1]

/-! ### Elements (R136, R137) -/

/-- A sum of digits below a base reads back each digit. -/
theorem digits_sum (b : Nat) (hb : 0 < b) (f : Nat → Nat) (hf : ∀ i, f i < b) (n : Nat) :
    ((List.range n).map fun i => f i * b ^ i).foldl (· + ·) 0 < b ^ n ∧
    ∀ i, i < n → ((List.range n).map fun i => f i * b ^ i).foldl (· + ·) 0 / b ^ i % b = f i := by
  induction n with
  | zero => simp
  | succ n ih =>
    obtain ⟨hlt, hd⟩ := ih
    rw [List.range_succ, List.map_append, List.foldl_append]
    simp only [List.map_cons, List.map_nil, List.foldl_cons, List.foldl_nil]
    generalize ((List.range n).map fun i => f i * b ^ i).foldl (· + ·) 0 = x at hlt hd
    have hp : 0 < b ^ n := Nat.pow_pos hb
    refine ⟨?_, fun i hi => ?_⟩
    · have h1 : (f n + 1) * b ^ n ≤ b * b ^ n := Nat.mul_le_mul_right _ (hf n)
      rw [Nat.add_mul, Nat.one_mul] at h1
      rw [Nat.pow_succ, Nat.mul_comm (b ^ n) b]
      omega
    · rcases Nat.lt_or_ge i n with h | h
      · have hi' : b ^ n = b ^ i * (b * b ^ (n - i - 1)) := by
          rw [← Nat.pow_succ', ← Nat.pow_add]
          congr 1
          omega
        rw [hi', Nat.mul_left_comm, Nat.add_mul_div_left _ _ (Nat.pow_pos hb), Nat.mul_left_comm, Nat.add_mul_mod_self_left]
        exact hd i h
      · have : i = n := by omega
        subst this
        rw [Nat.add_mul_div_right _ _ hp, Nat.div_eq_of_lt hlt, Nat.zero_add, Nat.mod_eq_of_lt (hf i)]

/-- The width of a type divides a lane into whole elements. -/
def ElemType.fits (t : ElemType) : Prop := 0 < t.width ∧ 32 / t.width * t.width = 32

theorem elemType_fits (n : Nat) : (elemType n).fits := by
  unfold elemType ElemType.fits
  split <;> decide

theorem narrow_lt (sg sat : Bool) (w : Nat) (r : Int) : (narrow sg sat w r).1 < 2 ^ w := by
  have h (r : Int) : toBits w r < 2 ^ w := by
    unfold toBits
    have hp : (0 : Int) < 2 ^ w := Int.pow_pos (by decide)
    have := Int.emod_lt_of_pos r hp
    have := Int.emod_nonneg r (Int.ne_of_gt hp)
    have hc : ((2 ^ w : Nat) : Int) = 2 ^ w := by push_cast; rfl
    omega
  unfold narrow
  dsimp only
  split
  · exact h _
  · split <;> exact h _

/-- Each element of an element-wise result is its own exact result, wrapped or clamped, and the result is clamped
when one of its elements is. -/
theorem ElemType.lane_spec (t : ElemType) (ht : t.fits) (sat : Bool) (f : Nat → Int) :
    (∀ i, i < 32 / t.width → (t.lane sat f).1.toNat / 2 ^ (t.width * i) % 2 ^ t.width = (narrow t.signed sat t.width (f i)).1) ∧
    ((t.lane sat f).2 = true ↔ ∃ i, i < 32 / t.width ∧ (narrow t.signed sat t.width (f i)).2 = true) := by
  obtain ⟨hw, hd⟩ := ht
  have hs := digits_sum (2 ^ t.width) (Nat.pow_pos (by decide)) (fun i => (narrow t.signed sat t.width (f i)).1)
    (fun i => narrow_lt _ _ _ _) (32 / t.width)
  have hw' : (2 ^ t.width) ^ (32 / t.width) = 2 ^ 32 := by
    rw [← Nat.pow_mul, Nat.mul_comm, hd]
  rw [hw'] at hs
  have he : (t.lane sat f).1.toNat =
      ((List.range (32 / t.width)).map fun i => (narrow t.signed sat t.width (f i)).1 * (2 ^ t.width) ^ i).foldl (· + ·) 0 := by
    unfold ElemType.lane
    simp only [List.map_map, BitVec.toNat_ofNat, Function.comp_def, Nat.pow_mul]
    exact Nat.mod_eq_of_lt hs.1
  refine ⟨fun i hi => ?_, ?_⟩
  · rw [he, Nat.pow_mul]
    exact hs.2 i hi
  · unfold ElemType.lane
    simp

end Sys2Proof.Machine
end

