-- ==== Sys2Proof/Laws/Rounding.lean ====
section
/-!
SUPPORT. The arithmetic of Numbers.lean delivers what R199 to R203 and R219 ask of real numbers: rounding to a
multiple, a rounded magnitude, a delivered value, sums, products, fused sums, and the elements of a lane.
-/
namespace Sys2Proof.Machine


/-- A format whose fields make sense. -/
def FloatFmt.Sane (f : FloatFmt) : Prop := 2 ≤ f.p ∧ 2 ≤ f.ebits

theorem f32_sane : f32.Sane := ⟨by decide, by decide⟩
theorem f16_sane : f16.Sane := ⟨by decide, by decide⟩
theorem bf16_sane : bf16.Sane := ⟨by decide, by decide⟩

/-- What `chosen` chooses is one value. -/
theorem chosen_unique {mode : Nat} {q v r r' : Real} (h : chosen mode q v r) (h' : chosen mode q v r') (hv : v ≠ 0) : r = r' := by
  obtain ⟨a1, a2⟩ := h
  obtain ⟨b1, b2⟩ := h'
  by_cases he : v = q * ⌊v / q⌋
  · rw [a1 he, b1 he]
  · have a2 := a2 he
    have b2 := b2 he
    rcases lt_or_gt_of_ne hv with hs | hs
    all_goals
      split at a2
      · rcases lt_trichotomy (v - q * ⌊v / q⌋) (q * ⌊v / q⌋ + q - v) with h | h | h
        · rw [a2.1 h, b2.1 h]
        · rw [a2.2.2 h, b2.2.2 h]
        · rw [a2.2.1 h, b2.2.1 h]
      · first
        | rw [a2.1 hs, b2.1 hs]
        | rw [a2.2 hs, b2.2 hs]
      · rw [a2, b2]
      · rw [a2, b2]
      · rename_i h1 h2 h3 h4
        split at b2
        · exact absurd rfl h1
        · exact absurd rfl h2
        · exact absurd rfl h3
        · exact absurd rfl h4
        rcases lt_trichotomy (v - q * ⌊v / q⌋) (q * ⌊v / q⌋ + q - v) with h | h | h
        · rw [a2.1 h, b2.1 h]
        · first
          | rw [(a2.2.2 h).1 hs, (b2.2.2 h).1 hs]
          | rw [(a2.2.2 h).2 hs, (b2.2.2 h).2 hs]
        · rw [a2.2.1 h, b2.2.1 h]

/-- The real magnitude that an approximation stands for. -/
def Approx.Means (a : Approx) (u : Real) : Prop :=
  0 < a.n ∧ (a.sticky = false → u = a.n * 2 ^ a.e) ∧ (a.sticky = true → (a.n : Real) * 2 ^ a.e < u ∧ u < (a.n + 1) * 2 ^ a.e)

theorem Approx.Means.pos {a : Approx} {u : Real} (h : a.Means u) : 0 < u := by
  obtain ⟨h1, h2, h3⟩ := h
  have : (0 : Real) < a.n * 2 ^ a.e := by positivity
  cases hs : a.sticky
  · rw [h2 hs]; exact this
  · exact this.trans (h3 hs).1

theorem Approx.Means.bounds {a : Approx} {u : Real} (h : a.Means u) : (a.n : Real) * 2 ^ a.e ≤ u ∧ u < (a.n + 1) * 2 ^ a.e := by
  obtain ⟨h1, h2, h3⟩ := h
  cases hs : a.sticky
  · rw [h2 hs]
    refine ⟨le_refl _, ?_⟩
    have : (0 : Real) < 2 ^ a.e := by positivity
    nlinarith
  · exact ⟨(h3 hs).1.le, (h3 hs).2⟩

theorem Approx.log_eq {a : Approx} {u : Real} (h : a.Means u) : Int.log 2 u = a.log := by
  obtain ⟨b1, b2⟩ := h.bounds
  have hu := h.pos
  have h0 : a.n ≠ 0 := by have := h.1; omega
  have l1 : 2 ^ a.n.log2 ≤ a.n := Nat.log2_self_le h0
  have l2 : a.n + 1 ≤ 2 ^ (a.n.log2 + 1) := Nat.lt_log2_self
  have hp : (0 : Real) < 2 ^ a.e := by positivity
  have e1 : (2 : Real) ^ a.log ≤ u := by
    unfold Approx.log
    rw [zpow_add₀ (by norm_num), zpow_natCast]
    have : (2 : Real) ^ a.n.log2 ≤ a.n := by exact_mod_cast l1
    nlinarith
  have e2 : u < (2 : Real) ^ (a.log + 1) := by
    have : (a.n : Real) + 1 ≤ 2 ^ (a.n.log2 + 1) := by exact_mod_cast l2
    unfold Approx.log
    rw [show ((a.n.log2 : Int) + a.e + 1) = ((a.n.log2 + 1 : Nat) : Int) + a.e by push_cast; ring, zpow_add₀ (by norm_num), zpow_natCast]
    nlinarith
  have i1 : a.log ≤ Int.log 2 u := (Int.zpow_le_iff_le_log (b := 2) (by norm_num) hu).mp (by exact_mod_cast e1)
  have i2 : Int.log 2 u < a.log + 1 := (Int.lt_zpow_iff_log_lt (b := 2) (by norm_num) hu).mp (by exact_mod_cast e2)
  omega

/-- Where a number lies between multiples. -/
theorem floor_of {t : Real} {q : Nat} (h1 : (q : Real) ≤ t) (h2 : t < q + 1) : ⌊t⌋ = (q : Int) := by
  rw [Int.floor_eq_iff]; exact ⟨by exact_mod_cast h1, by exact_mod_cast h2⟩

/-- `chosen` for a positive number, and for a negative one, in terms of the magnitude. -/
theorem chosen_pos {mode : Nat} {Q u : Real} (hQ : 0 < Q) {q m : Nat} (h1 : (q : Real) * Q ≤ u) (h2 : u < (q + 1) * Q)
    (hx : u = q * Q → m = q)
    (hm : u ≠ q * Q → match mode with
      | 1 => (u - q * Q < (q + 1) * Q - u → m = q) ∧ ((q + 1) * Q - u < u - q * Q → m = q + 1) ∧ (u - q * Q = (q + 1) * Q - u → m = if q % 2 = 0 then q else q + 1)
      | 2 => m = q
      | 3 => m = q + 1
      | 4 => m = q
      | _ => (u - q * Q < (q + 1) * Q - u → m = q) ∧ ((q + 1) * Q - u < u - q * Q → m = q + 1) ∧ (u - q * Q = (q + 1) * Q - u → m = q + 1))
    (hu : 0 < u) : chosen mode Q u (m * Q) := by
  have hf : ⌊u / Q⌋ = (q : Int) := floor_of (by rw [le_div_iff₀ hQ]; exact h1) (by rw [div_lt_iff₀ hQ]; exact h2)
  unfold chosen
  rw [hf]
  have e1 : Q * ((q : Int) : Real) = q * Q := by push_cast; ring
  have e2 : Q * ((q : Int) : Real) + Q = (q + 1) * Q := by push_cast; ring
  dsimp only
  rw [e2, e1]
  refine ⟨fun he => by rw [hx he, he], fun he => ?_⟩
  have hm := hm he
  have hc : ∀ n : Nat, m = n → (m : Real) * Q = n * Q := fun n h => by rw [h]
  have hc1 : m = q + 1 → (m : Real) * Q = (q + 1) * Q := fun h => by rw [h]; push_cast; ring
  split at hm
  · refine ⟨fun h => hc _ (hm.1 h), fun h => hc1 (hm.2.1 h), fun h => ?_⟩
    have := hm.2.2 h
    by_cases hq : q % 2 = 0
    · rw [if_pos hq] at this; rw [if_pos (by omega), this]
    · rw [if_neg hq] at this; rw [if_neg (by omega)]; exact hc1 this
  · exact ⟨fun h => absurd h (not_lt.mpr hu.le), fun _ => hc _ hm⟩
  · exact hc1 hm
  · exact hc _ hm
  · rename_i n1 n2 n3 n4
    have done : (u - q * Q < (q + 1) * Q - u → (m : Real) * Q = q * Q) ∧ ((q + 1) * Q - u < u - q * Q → (m : Real) * Q = (q + 1) * Q) ∧
        (u - q * Q = (q + 1) * Q - u → (u < 0 → (m : Real) * Q = q * Q) ∧ (0 < u → (m : Real) * Q = (q + 1) * Q)) :=
      ⟨fun h => hc _ (hm.1 h), fun h => hc1 (hm.2.1 h), fun h => ⟨fun h' => absurd h' (not_lt.mpr hu.le), fun _ => hc1 (hm.2.2 h)⟩⟩
    first
    | exact done
    | split
      · exact absurd rfl n1
      · exact absurd rfl n2
      · exact absurd rfl n3
      · exact absurd rfl n4
      · exact done

theorem chosen_neg {mode : Nat} {Q u : Real} (hQ : 0 < Q) {q m : Nat} (h1 : (q : Real) * Q ≤ u) (h2 : u < (q + 1) * Q)
    (hx : u = q * Q → m = q)
    (hm : u ≠ q * Q → match mode with
      | 1 => (u - q * Q < (q + 1) * Q - u → m = q) ∧ ((q + 1) * Q - u < u - q * Q → m = q + 1) ∧ (u - q * Q = (q + 1) * Q - u → m = if q % 2 = 0 then q else q + 1)
      | 2 => m = q
      | 3 => m = q
      | 4 => m = q + 1
      | _ => (u - q * Q < (q + 1) * Q - u → m = q) ∧ ((q + 1) * Q - u < u - q * Q → m = q + 1) ∧ (u - q * Q = (q + 1) * Q - u → m = q + 1))
    (hu : 0 < u) : chosen mode Q (-u) (-(m * Q)) := by
  by_cases he : u = q * Q
  · have hf : ⌊-u / Q⌋ = -(q : Int) := by
      rw [he, show -(q * Q) / Q = ((-(q : Int) : Int) : Real) by push_cast; field_simp, Int.floor_intCast]
    unfold chosen
    rw [hf]
    have e1 : Q * ((-(q : Int) : Int) : Real) = -(q * Q) := by push_cast; ring
    dsimp only
    rw [e1]
    refine ⟨fun _ => by rw [hx he, he], fun h => absurd (by rw [he]) h⟩
  · have hlt : (q : Real) * Q < u := lt_of_le_of_ne h1 (Ne.symm he)
    have hf : ⌊-u / Q⌋ = -(q : Int) - 1 := by
      rw [Int.floor_eq_iff]
      push_cast
      constructor
      · rw [le_div_iff₀ hQ]; nlinarith
      · rw [div_lt_iff₀ hQ]; nlinarith
    unfold chosen
    rw [hf]
    have e1 : Q * ((-(q : Int) - 1 : Int) : Real) = -((q + 1) * Q) := by push_cast; ring
    have e2 : Q * ((-(q : Int) - 1 : Int) : Real) + Q = -(q * Q) := by push_cast; ring
    dsimp only
    rw [e2, e1]
    have hne : -u ≠ -((q + 1) * Q) := by intro h; have := neg_injective h; linarith
    refine ⟨fun h => absurd h hne, fun _ => ?_⟩
    have hm := hm he
    have hc : m = q → -((m : Real) * Q) = -(q * Q) := fun h => by rw [h]
    have hc1 : m = q + 1 → -((m : Real) * Q) = -((q + 1) * Q) := fun h => by rw [h]; push_cast; ring
    have d1 : -u - -((q + 1) * Q) = (q + 1) * Q - u := by ring
    have d2 : -(q * Q) - -u = u - q * Q := by ring
    rw [d1, d2]
    split at hm
    · refine ⟨fun h => hc1 (hm.2.1 h), fun h => hc (hm.1 h), fun h => ?_⟩
      have := hm.2.2 h.symm
      by_cases hq : q % 2 = 0
      · rw [if_pos hq] at this; rw [if_neg (by omega)]; exact hc this
      · rw [if_neg hq] at this; rw [if_pos (by omega)]; exact hc1 this
    · exact ⟨fun _ => hc hm, fun h => absurd h (not_lt.mpr (by linarith))⟩
    · exact hc hm
    · exact hc1 hm
    · rename_i n1 n2 n3 n4
      have done : ((q + 1) * Q - u < u - q * Q → -((m : Real) * Q) = -((q + 1) * Q)) ∧ (u - q * Q < (q + 1) * Q - u → -((m : Real) * Q) = -(q * Q)) ∧
          ((q + 1) * Q - u = u - q * Q → (-u < 0 → -((m : Real) * Q) = -((q + 1) * Q)) ∧ (0 < -u → -((m : Real) * Q) = -(q * Q))) :=
        ⟨fun h => hc1 (hm.2.1 h), fun h => hc (hm.1 h), fun h => ⟨fun _ => hc1 (hm.2.2 h.symm), fun h' => absurd h' (not_lt.mpr (by linarith))⟩⟩
      first
      | exact done
      | split
        · exact absurd rfl n1
        · exact absurd rfl n2
        · exact absurd rfl n3
        · exact absurd rfl n4
        · exact done

/-- A signed real. -/
def withSign (neg : Bool) (u : Real) : Real := if neg then -u else u

theorem toMultiple_spec {a : Approx} {u : Real} (h : a.Means u) (mode : Nat) (neg : Bool) (k : Int) (hk : a.sticky = true → a.e < k) :
    chosen mode (2 ^ k) (withSign neg u) (withSign neg ((a.toMultiple mode neg k).1 * 2 ^ k)) ∧
    ((a.toMultiple mode neg k).2 = true ↔ ((a.toMultiple mode neg k).1 : Real) * 2 ^ k ≠ u) ∧
    ∃ q : Nat, (q : Real) * 2 ^ k ≤ u ∧ u < (q + 1) * 2 ^ k ∧ q ≤ (a.toMultiple mode neg k).1 ∧ (a.toMultiple mode neg k).1 ≤ q + 1 ∧
      (u = q * 2 ^ k → (a.toMultiple mode neg k).1 = q) := by
  have hu := h.pos
  have hQ : (0 : Real) < 2 ^ k := by positivity
  unfold Approx.toMultiple
  by_cases hsh : k - a.e ≤ 0
  · dsimp only
    rw [if_pos hsh]
    have hst : a.sticky = false := by
      cases hs : a.sticky
      · rfl
      · have := hk hs; omega
    have hv := h.2.1 hst
    have hm : ((a.n <<< (-(k - a.e)).toNat : Nat) : Real) * 2 ^ k = u := by
      rw [Nat.shiftLeft_eq, hv]
      push_cast
      rw [mul_assoc, ← zpow_natCast, ← zpow_add₀ (by norm_num)]
      congr 2; omega
    generalize a.n <<< (-(k - a.e)).toNat = m at hm ⊢
    have h2 : u < (m + 1) * 2 ^ k := by rw [← hm]; nlinarith
    refine ⟨?_, by rw [hst]; simp [hm], m, hm.le, h2, le_refl _, by simp, fun _ => rfl⟩
    cases neg
    · exact chosen_pos hQ hm.le h2 (fun _ => rfl) (fun hne => absurd hm.symm hne) hu
    · exact chosen_neg hQ hm.le h2 (fun _ => rfl) (fun hne => absurd hm.symm hne) hu
  · dsimp only
    rw [if_neg hsh]
    obtain ⟨s, hs⟩ : ∃ s : Nat, k - a.e = s + 1 := ⟨(k - a.e - 1).toNat, by omega⟩
    have hst : (k - a.e).toNat = s + 1 := by omega
    rw [hst, Nat.shiftRight_eq_div_pow]
    have hdm := Nat.div_add_mod a.n (2 ^ (s + 1))
    have hr := Nat.mod_lt a.n (show 0 < 2 ^ (s + 1) by positivity)
    generalize hqd : a.n / 2 ^ (s + 1) = q at *
    generalize hrd : a.n % 2 ^ (s + 1) = r at *
    rw [show s + 1 - 1 = s by omega]
    -- u in units of 2^e
    have hE : (0 : Real) < 2 ^ a.e := by positivity
    have hQE : (2 : Real) ^ k = 2 ^ (s + 1) * 2 ^ a.e := by
      rw [← zpow_natCast, ← zpow_add₀ (by norm_num)]; congr 1; push_cast; omega
    have hn : (a.n : Real) = q * 2 ^ (s + 1) + r := by rw [← hdm]; push_cast; ring
    have hhalf : (2 : Nat) ^ (s + 1) = 2 * 2 ^ s := by rw [pow_succ]; ring
    have hhalfR : (2 : Real) ^ (s + 1) = 2 * 2 ^ s := by rw [pow_succ]; ring
    have hrR : (r : Real) + 1 ≤ 2 ^ (s + 1) := by exact_mod_cast hr
    obtain ⟨b1, b2⟩ := h.bounds
    have l1 : (q : Real) * 2 ^ k ≤ u := by
      refine le_trans ?_ b1
      rw [hQE, hn]
      have : (0 : Real) ≤ r * 2 ^ a.e := by positivity
      nlinarith
    have l2 : u < (q + 1) * 2 ^ k := by
      refine lt_of_lt_of_le b2 ?_
      rw [hQE, hn]
      nlinarith
    -- the three tests
    have hex : (r == 0 && !a.sticky) = true ↔ u = q * 2 ^ k := by
      simp only [Bool.and_eq_true, beq_iff_eq, Bool.not_eq_true']
      constructor
      · rintro ⟨h0, hns⟩
        rw [h.2.1 hns, hn, h0, hQE]; push_cast; ring
      · intro he
        cases hs2 : a.sticky
        · refine ⟨?_, rfl⟩
          have := h.2.1 hs2
          rw [hn, he, hQE] at this
          have h3 : (r : Real) * 2 ^ a.e = 0 := by nlinarith
          rcases mul_eq_zero.mp h3 with h4 | h4
          · exact_mod_cast h4
          · exact absurd h4 hE.ne'
        · exfalso
          have := (h.2.2 hs2).1
          rw [he, hQE, hn] at this
          have : (0 : Real) ≤ r * 2 ^ a.e := by positivity
          nlinarith
    -- compare u with the middle
    have key : ∀ c : Real, (c * 2 ^ a.e : Real) = c * 2 ^ a.e := fun _ => rfl
    have hmid : (q + 1) * (2 : Real) ^ k - u < u - q * 2 ^ k ↔ ((q : Real) * 2 ^ (s + 1) + 2 ^ s) * 2 ^ a.e < u := by
      rw [hQE, hhalfR]; constructor <;> intro h' <;> nlinarith
    have hmid2 : u - q * (2 : Real) ^ k = (q + 1) * 2 ^ k - u ↔ ((q : Real) * 2 ^ (s + 1) + 2 ^ s) * 2 ^ a.e = u := by
      rw [hQE, hhalfR]; constructor <;> intro h' <;> nlinarith
    have hab : (decide (r > 2 ^ s) || (r == 2 ^ s && a.sticky)) = true ↔ (q + 1) * 2 ^ k - u < u - q * 2 ^ k := by
      rw [hmid]
      simp only [Bool.or_eq_true, decide_eq_true_eq, Bool.and_eq_true, beq_iff_eq]
      constructor
      · rintro (h' | ⟨h', hs2⟩)
        · refine lt_of_lt_of_le ?_ b1
          rw [hn]
          have : (2 : Real) ^ s < r := by exact_mod_cast h'
          exact mul_lt_mul_of_pos_right (by linarith) hE
        · refine lt_of_eq_of_lt ?_ (h.2.2 hs2).1
          rw [hn, h']; push_cast; ring
      · intro h'
        by_contra hc
        push Not at hc
        obtain ⟨c1, c2⟩ := hc
        rcases Nat.lt_or_eq_of_le c1 with c3 | c3
        · have h4 : (r : Real) + 1 ≤ 2 ^ s := by exact_mod_cast c3
          have : u < ((q : Real) * 2 ^ (s + 1) + 2 ^ s) * 2 ^ a.e := by
            refine lt_of_lt_of_le b2 ?_
            rw [hn]
            exact mul_le_mul_of_nonneg_right (by linarith) hE.le
          linarith
        · have hs2 : a.sticky = false := by simpa using c2 c3
          have := h.2.1 hs2
          rw [hn, c3] at this
          push_cast at this
          linarith
    have hti : (r == 2 ^ s && !a.sticky) = true ↔ u - q * 2 ^ k = (q + 1) * 2 ^ k - u := by
      rw [hmid2]
      simp only [Bool.and_eq_true, beq_iff_eq, Bool.not_eq_true']
      constructor
      · rintro ⟨h1, h2⟩
        rw [h.2.1 h2, hn, h1]; push_cast; ring
      · intro h'
        cases hs2 : a.sticky
        · refine ⟨?_, rfl⟩
          have h5 := h.2.1 hs2
          rw [hn, ← h'] at h5
          have h6 := mul_right_cancel₀ hE.ne' h5
          have : (r : Real) = 2 ^ s := by linarith
          exact_mod_cast this
        · exfalso
          obtain ⟨g1, g2⟩ := h.2.2 hs2
          rw [← h'] at g1 g2
          have g1 := lt_of_mul_lt_mul_right g1 hE.le
          have g2 := lt_of_mul_lt_mul_right g2 hE.le
          rw [hn] at g1 g2
          have g3 : (r : Real) < 2 ^ s := by linarith
          have g4 : (2 : Real) ^ s < r + 1 := by linarith
          have g3 : r < 2 ^ s := by exact_mod_cast g3
          have g4 : 2 ^ s < r + 1 := by exact_mod_cast g4
          omega
    generalize (r == 0 && !a.sticky) = ex at hex ⊢
    generalize (decide (r > 2 ^ s) || (r == 2 ^ s && a.sticky)) = ab at hab ⊢
    generalize (r == 2 ^ s && !a.sticky) = ti at hti ⊢
    have hQq : (q : Real) * 2 ^ k < (q + 1) * 2 ^ k := by nlinarith
    -- facts as Booleans
    have gex : ex = true → ab = false ∧ ti = false := by
      intro h'
      have h1 := hex.mp h'
      constructor
      · cases hb : ab
        · rfl
        · have := hab.mp hb; rw [h1] at this; linarith
      · cases hb : ti
        · rfl
        · have := hti.mp hb; rw [h1] at this; linarith
    have gab : ab = true → ti = false := by
      intro h'
      cases hb : ti
      · rfl
      · have := hti.mp hb; have := hab.mp h'; linarith
    have nex : u ≠ q * 2 ^ k → ex = false := fun h' => by
      cases hb : ex
      · rfl
      · exact absurd (hex.mp hb) h'
    have nab : u - q * (2 : Real) ^ k < (q + 1) * 2 ^ k - u → ab = false ∧ ti = false := fun h' => by
      constructor
      · cases hb : ab
        · rfl
        · have := hab.mp hb; linarith
      · cases hb : ti
        · rfl
        · have := hti.mp hb; linarith
    have pti : u - q * (2 : Real) ^ k = (q + 1) * 2 ^ k - u → ab = false ∧ ti = true := fun h' => by
      refine ⟨?_, hti.mpr h'⟩
      cases hb : ab
      · rfl
      · have := hab.mp hb; linarith
    have hpar : q % 2 = 0 ∨ q % 2 = 1 := by omega
    suffices hh : ∀ m : Nat, m = (if (match mode with
      | 1 => ab || ti && q % 2 == 1
      | 2 => false
      | 3 => !ex && !neg
      | 4 => !ex && neg
      | _ => ab || ti) = true then q + 1 else q) →
      chosen mode (2 ^ k) (withSign neg u) (withSign neg ((m : Real) * 2 ^ k)) ∧
      ((!ex) = true ↔ (m : Real) * 2 ^ k ≠ u) ∧
      ∃ q : Nat, (q : Real) * 2 ^ k ≤ u ∧ u < (q + 1) * 2 ^ k ∧ q ≤ m ∧ m ≤ q + 1 ∧ (u = q * 2 ^ k → m = q) from hh _ rfl
    intro m hmdef
    have hx : u = q * 2 ^ k → m = q := fun h' => by
      have h1 := hex.mpr h'
      obtain ⟨h2, h3⟩ := gex h1
      rw [hmdef, h1, h2, h3]
      split <;> simp
    have hrange : q ≤ m ∧ m ≤ q + 1 := by
      rw [hmdef]
      exact (show ∀ b : Bool, q ≤ (if b = true then q + 1 else q) ∧ (if b = true then q + 1 else q) ≤ q + 1 by intro b; cases b <;> simp) _
    refine ⟨?_, ?_, q, l1, l2, hrange.1, hrange.2, hx⟩
    · cases neg
      · show chosen mode _ u (m * 2 ^ k)
        refine chosen_pos hQ l1 l2 hx (fun hne => ?_) hu
        have h1 := nex hne
        rw [hmdef, h1]
        split
        · refine ⟨fun h' => ?_, fun h' => ?_, fun h' => ?_⟩
          · rw [(nab h').1, (nab h').2]; simp
          · rw [hab.mpr h']; simp
          · rw [(pti h').1, (pti h').2]; rcases hpar with hp | hp <;> simp [hp]
        · simp
        · simp
        · simp
        · refine ⟨fun h' => ?_, fun h' => ?_, fun h' => ?_⟩
          · rw [(nab h').1, (nab h').2]; simp
          · rw [hab.mpr h']; simp
          · rw [(pti h').1, (pti h').2]; simp
      · show chosen mode _ (-u) (-(m * 2 ^ k))
        refine chosen_neg hQ l1 l2 hx (fun hne => ?_) hu
        have h1 := nex hne
        rw [hmdef, h1]
        split
        · refine ⟨fun h' => ?_, fun h' => ?_, fun h' => ?_⟩
          · rw [(nab h').1, (nab h').2]; simp
          · rw [hab.mpr h']; simp
          · rw [(pti h').1, (pti h').2]; rcases hpar with hp | hp <;> simp [hp]
        · simp
        · simp
        · simp
        · refine ⟨fun h' => ?_, fun h' => ?_, fun h' => ?_⟩
          · rw [(nab h').1, (nab h').2]; simp
          · rw [hab.mpr h']; simp
          · rw [(pti h').1, (pti h').2]; simp
    · constructor
      · intro h'
        have h1 : ex = false := by simpa using h'
        have h2 : u ≠ q * 2 ^ k := fun he => by rw [hex.mpr he] at h1; cases h1
        rcases Nat.lt_or_eq_of_le hrange.1 with h3 | h3
        · have h4 : m = q + 1 := by omega
          rw [h4]; push_cast; exact l2.ne'
        · rw [← h3]; exact fun he => h2 he.symm
      · intro h'
        cases hb : ex
        · rfl
        · have h1 := hex.mp hb
          exact absurd (by rw [hx h1, h1]) h'



theorem two_zpow_pos (k : Int) : (0 : Rat) < 2 ^ k := by positivity

/-- What the encoding `d * 2^(p-1) + m` holds. -/
theorem FloatFmt.magnitude_of (f : FloatFmt) {d m : Nat} (hm : m ≤ 2 * 2 ^ (f.p - 1)) (hd : d = 0 ∨ 2 ^ (f.p - 1) ≤ m) :
    f.magnitude (d * 2 ^ (f.p - 1) + m) = m * 2 ^ (f.low + d) := by
  unfold FloatFmt.magnitude
  have hP : 0 < 2 ^ (f.p - 1) := by positivity
  generalize 2 ^ (f.p - 1) = P at *
  dsimp only
  rcases Nat.lt_or_ge m P with h1 | h1
  · have h0 : d = 0 := by omega
    subst h0
    rw [show 0 * P + m = m by omega, Nat.div_eq_of_lt h1, Nat.mod_eq_of_lt h1, if_pos rfl]
    simp
  · rcases Nat.lt_or_ge m (2 * P) with h2 | h2
    · obtain ⟨r, rfl⟩ : ∃ r, m = P + r := ⟨m - P, by omega⟩
      have hr : r < P := by omega
      have e1 : (d * P + (P + r)) / P = d + 1 := by
        rw [show d * P + (P + r) = r + P * (d + 1) by ring, Nat.add_mul_div_left _ _ hP, Nat.div_eq_of_lt hr]; omega
      have e2 : (d * P + (P + r)) % P = r := by
        rw [show d * P + (P + r) = r + P * (d + 1) by ring, Nat.add_mul_mod_self_left, Nat.mod_eq_of_lt hr]
      rw [e1, e2, if_neg (by omega)]
      congr 2; push_cast; ring
    · have h3 : m = 2 * P := by omega
      subst h3
      have e1 : (d * P + 2 * P) / P = d + 2 := by
        rw [← add_mul, Nat.mul_div_cancel _ hP]
      have e2 : (d * P + 2 * P) % P = 0 := by rw [← add_mul, Nat.mul_mod_left]
      rw [e1, e2, if_neg (by omega)]
      rw [show f.low + ((d + 2 : Nat) : Int) - 1 = (f.low + d) + 1 by push_cast; ring, zpow_add₀ (by norm_num)]
      push_cast; ring

theorem FloatFmt.magnitude_strictMono (f : FloatFmt) : StrictMono f.magnitude := by
  refine strictMono_nat_of_lt_succ fun x => ?_
  have hP : 0 < 2 ^ (f.p - 1) := by positivity
  have hx := Nat.div_add_mod x (2 ^ (f.p - 1))
  have hr := Nat.mod_lt x hP
  have hq := two_zpow_pos f.low
  -- both as multiples of one power
  obtain ⟨d, m, hxe, hm, hd⟩ : ∃ d m, x = d * 2 ^ (f.p - 1) + m ∧ m + 1 ≤ 2 * 2 ^ (f.p - 1) ∧ (d = 0 ∨ 2 ^ (f.p - 1) ≤ m) := by
    generalize 2 ^ (f.p - 1) = P at *
    rcases Nat.eq_zero_or_pos (x / P) with h | h
    · exact ⟨0, x, by omega, by rw [h] at hx; omega, Or.inl rfl⟩
    · obtain ⟨e, he⟩ : ∃ e, x / P = e + 1 := ⟨x / P - 1, by omega⟩
      refine ⟨e, P + x % P, ?_, by omega, Or.inr (by omega)⟩
      conv_lhs => rw [← hx, he]
      ring
  have e1 := f.magnitude_of (d := d) (m := m) (by omega) hd
  have e2 := f.magnitude_of (d := d) (m := m + 1) hm (by omega)
  rw [hxe, e1, show d * 2 ^ (f.p - 1) + m + 1 = d * 2 ^ (f.p - 1) + (m + 1) by omega, e2]
  have := two_zpow_pos (f.low + d)
  push_cast
  nlinarith

theorem FloatFmt.infBits_lt (f : FloatFmt) : f.infBits < f.signBit := by
  unfold FloatFmt.infBits FloatFmt.signBit
  rw [pow_add, mul_comm (2 ^ (f.p - 1))]
  exact Nat.mul_lt_mul_of_pos_right (by have : 0 < 2 ^ f.ebits := by positivity
                                        omega) (by positivity)

theorem FloatFmt.infBits_pos {f : FloatFmt} (h : f.Sane) : 0 < f.infBits := by
  unfold FloatFmt.infBits
  have : 2 ^ 2 ≤ 2 ^ f.ebits := Nat.pow_le_pow_right (by norm_num) h.2
  exact Nat.mul_pos (by omega) (by positivity)

theorem FloatFmt.signed_mod (f : FloatFmt) {neg : Bool} {mag : Nat} (h : mag < f.signBit) : f.signed neg mag % f.signBit = mag := by
  unfold FloatFmt.signed
  cases neg
  · rw [if_neg (by simp), Nat.mod_eq_of_lt h]
  · rw [if_pos rfl, Nat.add_mod_left, Nat.mod_eq_of_lt h]

theorem FloatFmt.signed_neg (f : FloatFmt) {neg : Bool} {mag : Nat} (h : mag < f.signBit) : f.neg (f.signed neg mag) = neg := by
  unfold FloatFmt.signed FloatFmt.neg
  cases neg
  · rw [if_neg (by simp), Nat.div_eq_of_lt h]; rfl
  · rw [if_pos rfl, Nat.add_div_left _ (by omega), Nat.div_eq_of_lt h]; rfl

theorem withSign_abs (neg : Bool) {u : Real} (h : 0 ≤ u) : |withSign neg u| = u := by
  unfold withSign; cases neg <;> simp [abs_of_nonneg h]

theorem withSign_neg (neg : Bool) {u : Real} (h : 0 < u) : withSign neg u < 0 ↔ neg = true := by
  unfold withSign; cases neg <;> simp [h, h.le]

theorem withSign_inj (neg : Bool) {u w : Real} : withSign neg u = withSign neg w ↔ u = w := by
  unfold withSign; cases neg <;> simp

theorem FloatFmt.overflow_spec (f : FloatFmt) (mode : Nat) (neg sat : Bool) : f.Overflows mode sat neg (f.overflow mode neg sat) := by
  unfold FloatFmt.Overflows FloatFmt.overflow
  cases sat
  · refine ⟨by simp, fun _ => ?_⟩
    dsimp only
    rw [if_neg (by simp)]
    refine ⟨rfl, ?_, ?_⟩
    · rintro ⟨h1, h2, h3⟩
      split <;> simp_all
    · intro h
      split <;> simp_all
  · exact ⟨fun _ => ⟨rfl, rfl⟩, by simp⟩

theorem FloatFmt.round_spec {f : FloatFmt} (hf : f.Sane) {a : Approx} {u : Real} (h : a.Means u) (hs : a.sticky = true → 2 ^ f.p ≤ a.n)
    (mode : Nat) (sat neg : Bool) : f.RoundsTo mode sat (withSign neg u) (f.round mode sat neg a) := by
  have hu := h.pos
  have hlog := Approx.log_eq h
  have h0 : a.n ≠ 0 := by have := h.1; omega
  have hp := hf.1
  have hst : a.sticky = true → a.e < a.log - f.p + 1 := by
    intro h'
    have h1 := (Nat.le_log2 h0).mpr (hs h')
    unfold Approx.log; omega
  have hlo : (2 : Real) ^ a.log ≤ u := by
    rw [← hlog]; exact_mod_cast Int.zpow_log_le_self (b := 2) (by norm_num) hu
  have hhi : u < (2 : Real) ^ (a.log + 1) := by
    rw [← hlog]; exact_mod_cast Int.lt_zpow_succ_log_self (b := 2) (by norm_num) u
  -- a multiple of 2^k: bounds
  have bound : ∀ k : Int, a.log - f.p + 1 ≤ k → ∀ q m : Nat, (q : Real) * 2 ^ k ≤ u → u < (q + 1) * 2 ^ k → q ≤ m → m ≤ q + 1 →
      m ≤ 2 * 2 ^ (f.p - 1) ∧ (k = a.log - f.p + 1 → 2 ^ (f.p - 1) ≤ m) := by
    intro k hk q m h1 h2 h3 h4
    have hQ : (0 : Real) < 2 ^ k := by positivity
    constructor
    · have : (q : Real) * 2 ^ k < 2 ^ (f.p) * 2 ^ k := by
        refine lt_of_le_of_lt h1 (lt_of_lt_of_le hhi ?_)
        rw [← zpow_natCast, ← zpow_add₀ (by norm_num)]
        exact zpow_le_zpow_right₀ (by norm_num) (by omega)
      have h5 := lt_of_mul_lt_mul_right this hQ.le
      have h6 : q < 2 ^ f.p := by exact_mod_cast h5
      have h7 : 2 ^ f.p = 2 * 2 ^ (f.p - 1) := by
        conv_lhs => rw [show f.p = (f.p - 1) + 1 by omega, pow_succ]
        ring
      omega
    · intro hke
      have : (2 : Real) ^ (f.p - 1) * 2 ^ k < (q + 1) * 2 ^ k := by
        refine lt_of_le_of_lt ?_ h2
        refine le_trans ?_ hlo
        rw [← zpow_natCast, ← zpow_add₀ (by norm_num)]
        exact zpow_le_zpow_right₀ (by norm_num) (by omega)
      have h5 := lt_of_mul_lt_mul_right this hQ.le
      have h6 : 2 ^ (f.p - 1) < q + 1 := by exact_mod_cast h5
      omega
  have hlow : f.low = f.emin - f.p + 1 := rfl
  unfold FloatFmt.round
  rw [if_neg (by simp [h0])]
  dsimp only
  set k : Int := max a.log f.emin - f.p + 1 with hkdef
  have hkl : a.log - f.p + 1 ≤ k := by rw [hkdef]; have := le_max_left a.log f.emin; omega
  have hkm : f.low ≤ k := by rw [hkdef, hlow]; have := le_max_right a.log f.emin; omega
  obtain ⟨c1, c2, q, c3, c4, c5, c6, c7⟩ := toMultiple_spec h mode neg k (fun h' => lt_of_lt_of_le (hst h') hkl)
  obtain ⟨t1, t2, q', t3, t4, t5, t6, t7⟩ := toMultiple_spec h mode neg (a.log - f.p + 1) hst
  have hb := bound k hkl q _ c3 c4 c5 c6
  have hb' := bound _ (le_refl _) q' _ t3 t4 t5 t6
  generalize hM : a.toMultiple mode neg k = M at *
  obtain ⟨m, inexact⟩ := M
  generalize hM' : a.toMultiple mode neg (a.log - f.p + 1) = M' at *
  obtain ⟨m', inexact'⟩ := M'
  dsimp only at *
  set d := (k - f.low).toNat with hd
  have hdk : k = f.low + d := by omega
  have hmag := f.magnitude_of (d := d) (m := m) hb.1 (by
    rcases Nat.eq_zero_or_pos d with h' | h'
    · exact Or.inl h'
    · refine Or.inr (hb.2 ?_)
      rw [hkdef, max_eq_left]
      by_contra hc
      have : max a.log f.emin = f.emin := max_eq_right (by omega)
      rw [hkdef, this] at hd
      omega)
  have hmagR : ((f.magnitude (d * 2 ^ (f.p - 1) + m) : Rat) : Real) = m * 2 ^ k := by
    rw [hmag, hdk]; push_cast; rfl
  have hz0 : (0 : Real) ≤ m * 2 ^ k := by positivity
  have hdk' : d = (k - f.low).toNat := rfl
  generalize hmg : d * 2 ^ (f.p - 1) + m = mag at *
  have hinf := f.infBits_lt
  have hinfp := FloatFmt.infBits_pos hf
  have hcmp : (m : Real) * 2 ^ k ≤ f.largest ↔ mag < f.infBits := by
    rw [← hmagR]
    unfold FloatFmt.largest
    rw [Rat.cast_le, f.magnitude_strictMono.le_iff_le]; omega
  -- tininess
  have htiny : (decide (a.log < f.emin) && decide (m' < 2 ^ (f.emin - (a.log - f.p + 1)).toNat)) = true ↔ f.Tiny mode (withSign neg u) := by
    have ht : f.Tiny mode (withSign neg u) ↔ (m' : Real) * 2 ^ (a.log - f.p + 1) < 2 ^ f.emin := by
      unfold FloatFmt.Tiny
      rw [withSign_abs neg hu.le, hlog]
      have ha : |withSign neg ((m' : Real) * 2 ^ (a.log - f.p + 1))| = m' * 2 ^ (a.log - f.p + 1) := withSign_abs neg (by positivity)
      constructor
      · rintro ⟨y, y1, y2⟩
        have := chosen_unique y1 t1 (by unfold withSign; cases neg <;> simp [hu.ne'])
        rw [this, ha] at y2; exact y2
      · intro h'
        exact ⟨_, t1, by rw [ha]; exact h'⟩
    rw [ht]
    simp only [Bool.and_eq_true, decide_eq_true_eq]
    have hQ : (0 : Real) < 2 ^ (a.log - f.p + 1) := by positivity
    constructor
    · rintro ⟨h1, h2⟩
      have h3 : (m' : Real) < 2 ^ (f.emin - (a.log - f.p + 1)).toNat := by exact_mod_cast h2
      have h4 : (2 : Real) ^ f.emin = 2 ^ (f.emin - (a.log - f.p + 1)).toNat * 2 ^ (a.log - f.p + 1) := by
        rw [← zpow_natCast, ← zpow_add₀ (by norm_num)]; congr 1; omega
      rw [h4]; exact mul_lt_mul_of_pos_right h3 hQ
    · intro h1
      have h2 : a.log < f.emin := by
        by_contra hc
        have h3 : (2 : Real) ^ f.emin ≤ 2 ^ a.log := zpow_le_zpow_right₀ (by norm_num) (by omega)
        have h4 : (2 : Real) ^ a.log ≤ m' * 2 ^ (a.log - f.p + 1) := by
          have : (2 : Real) ^ a.log = 2 ^ (f.p - 1) * 2 ^ (a.log - f.p + 1) := by
            rw [← zpow_natCast, ← zpow_add₀ (by norm_num)]; congr 1; omega
          rw [this]
          exact mul_le_mul_of_nonneg_right (by exact_mod_cast hb'.2 rfl) hQ.le
        linarith
      refine ⟨h2, ?_⟩
      have h4 : (2 : Real) ^ f.emin = 2 ^ (f.emin - (a.log - f.p + 1)).toNat * 2 ^ (a.log - f.p + 1) := by
        rw [← zpow_natCast, ← zpow_add₀ (by norm_num)]; congr 1; omega
      rw [h4] at h1
      exact_mod_cast lt_of_mul_lt_mul_right h1 hQ.le
  generalize (decide (a.log < f.emin) && decide (m' < 2 ^ (f.emin - (a.log - f.p + 1)).toNat)) = tiny at htiny ⊢
  unfold FloatFmt.RoundsTo
  rw [withSign_abs neg hu.le, hlog]
  refine ⟨withSign neg (m * 2 ^ k), c1, ?_, ?_⟩
  · intro hle
    rw [withSign_abs neg hz0, hcmp] at hle
    rw [if_neg (by omega)]
    dsimp only
    have hsb : mag < f.signBit := by omega
    refine ⟨?_, ?_, ?_, ?_, ?_⟩
    · unfold FloatFmt.Finite; rw [f.signed_mod hsb]; exact hle
    · unfold FloatFmt.rat
      rw [f.signed_mod hsb, f.signed_neg hsb]
      unfold withSign
      cases neg
      · rw [if_neg (by simp), if_neg (by simp), hmagR]
      · rw [if_pos rfl, if_pos rfl, Rat.cast_neg, hmagR]
    · rw [f.signed_neg hsb, withSign_neg neg hu]
    · intro h'
      have : inexact = false := by
        cases hi : inexact
        · rfl
        · exact absurd ((withSign_inj neg).mp h') (c2.mp hi)
      rw [this]; cases tiny <;> rfl
    · intro h'
      have hi : inexact = true := c2.mpr (fun he => h' ((withSign_inj neg).mpr he))
      rw [hi]
      constructor
      · intro ht; rw [htiny.mpr ht]; rfl
      · intro ht
        have : tiny = false := by
          cases hb : tiny
          · rfl
          · exact absurd (htiny.mp hb) ht
        rw [this]; rfl
  · intro hgt
    rw [withSign_abs neg hz0] at hgt
    have : ¬ mag < f.infBits := fun hc => absurd (hcmp.mpr hc) (not_le.mpr hgt)
    rw [if_pos (by omega)]
    have hn : decide (withSign neg u < 0) = neg := by
      have := withSign_neg neg hu
      cases hb : neg
      · rw [hb] at this; simpa using this
      · rw [hb] at this; simpa using this
    rw [hn]
    exact f.overflow_spec mode neg sat



/-- What a number of the machine's arithmetic is. -/
def Num.quantity : Num → Quantity
  | .nan s => .nan s
  | .inf n => .infinite n
  | .fin n m e => .exact n ((if n then -(m : Rat) else m) * 2 ^ e)

theorem FloatFmt.quantity_value (f : FloatFmt) (x : Nat) : f.quantity x = (f.value x).quantity := by
  unfold FloatFmt.quantity FloatFmt.value
  dsimp only
  have hb : ∀ t : Bool, (if t = true then true else false) = t := by intro t; cases t <;> rfl
  by_cases h1 : x % f.signBit < f.infBits
  · rw [if_pos h1, if_neg (show ¬ x % f.signBit > f.infBits by omega), if_neg (show ¬ x % f.signBit = f.infBits by omega)]
    unfold FloatFmt.rat FloatFmt.magnitude
    dsimp only
    by_cases h2 : x % f.signBit / 2 ^ (f.p - 1) = 0
    · rw [if_pos h2, if_pos h2]
      unfold Num.quantity FloatFmt.neg
      congr 1
      cases x / f.signBit % 2 == 1
      · rw [if_neg (by simp), if_neg (by simp)]
      · rw [if_pos rfl, if_pos rfl]; ring
    · rw [if_neg h2, if_neg h2]
      unfold Num.quantity FloatFmt.neg
      congr 1
      have e : f.low + ((x % f.signBit / 2 ^ (f.p - 1) : Nat) : Int) - 1 = f.low + (((x % f.signBit / 2 ^ (f.p - 1) : Nat) : Int) - 1) := by ring
      cases x / f.signBit % 2 == 1
      · rw [if_neg (by simp), if_neg (by simp), e]; push_cast; ring
      · rw [if_pos rfl, if_pos rfl, e]; push_cast; ring
  · rw [if_neg h1]
    by_cases h2 : x % f.signBit = f.infBits
    · rw [if_pos h2, if_neg (by omega), if_pos h2]; rfl
    · rw [if_neg h2, if_pos (by omega)]
      unfold Num.quantity
      rw [Nat.mod_mod_of_dvd x (show 2 ^ (f.p - 1) ∣ f.signBit from by unfold FloatFmt.signBit; rw [pow_add]; exact Dvd.intro _ rfl)]

theorem FloatFmt.deliver_spec {f : FloatFmt} (hf : f.Sane) (mode : Nat) (sat : Bool) (x : Num) :
    f.Delivers mode sat x.quantity (f.deliver mode sat x) := by
  cases x with
  | nan s => exact ⟨rfl, rfl⟩
  | inf n => exact ⟨rfl, rfl⟩
  | fin n m e =>
    show (_ → _) ∧ (_ → _)
    unfold FloatFmt.deliver
    have hp : (0 : Rat) < 2 ^ e := by positivity
    by_cases h0 : m = 0
    · subst h0
      refine ⟨fun _ => ?_, fun h => absurd (by simp) h⟩
      unfold FloatFmt.round; simp
    · have hm : (0 : Rat) < m := by exact_mod_cast Nat.pos_of_ne_zero h0
      have hv : (if n = true then -(m : Rat) else m) * 2 ^ e ≠ 0 := by
        refine mul_ne_zero ?_ hp.ne'
        cases n
        · rw [if_neg (by simp)]; exact hm.ne'
        · rw [if_pos rfl]; exact neg_ne_zero.mpr hm.ne'
      refine ⟨fun h => absurd h hv, fun _ => ?_⟩
      have hmeans : Approx.Means { n := m, e := e, sticky := false } ((m : Real) * 2 ^ e) :=
        ⟨Nat.pos_of_ne_zero h0, fun _ => rfl, fun h => by cases h⟩
      have := FloatFmt.round_spec hf hmeans (fun h => by cases h) mode sat n
      have e1 : (((if n = true then -(m : Rat) else m) * 2 ^ e : Rat) : Real) = withSign n ((m : Real) * 2 ^ e) := by
        unfold withSign
        cases n
        · rw [if_neg (by simp), if_neg (by simp)]; push_cast; rfl
        · rw [if_pos rfl, if_pos rfl]; push_cast; ring
      rw [e1]; exact this

/-- The exact number that a dyad is. -/
def Dyad.rat (d : Dyad) : Rat := d.m * 2 ^ d.e

theorem Dyad.add_rat (a b : Dyad) : (a.add b).rat = a.rat + b.rat := by
  unfold Dyad.add Dyad.rat
  dsimp only
  have h (x : Int) (hx : min a.e b.e ≤ x) : (2 : Rat) ^ x = 2 ^ (x - min a.e b.e).toNat * 2 ^ min a.e b.e := by
    rw [← zpow_natCast, ← zpow_add₀ (by norm_num)]; congr 1; omega
  rw [h a.e (min_le_left _ _), h b.e (min_le_right _ _)]
  push_cast; ring

theorem Dyad.mul_rat (a b : Dyad) : (a.mul b).rat = a.rat * b.rat := by
  unfold Dyad.mul Dyad.rat
  dsimp only
  rw [zpow_add₀ (by norm_num)]; push_cast; ring

theorem Dyad.neg_rat (a : Dyad) : a.neg.rat = -a.rat := by
  unfold Dyad.neg Dyad.rat; push_cast; ring

theorem Dyad.sub_rat (a b : Dyad) : (a.sub b).rat = a.rat - b.rat := by
  unfold Dyad.sub; rw [Dyad.add_rat, Dyad.neg_rat]; ring

theorem Dyad.rat_eq_zero (a : Dyad) : a.rat = 0 ↔ a.m = 0 := by
  unfold Dyad.rat
  have : (2 : Rat) ^ a.e ≠ 0 := (two_zpow_pos _).ne'
  simp [this]

theorem Dyad.num_quantity (a : Dyad) (neg0 : Bool) :
    ∃ n, (a.num neg0).quantity = .exact n a.rat ∧ (a.rat = 0 → n = neg0) := by
  unfold Dyad.num
  by_cases h : a.m = 0
  · rw [if_pos h]
    refine ⟨neg0, ?_, fun _ => rfl⟩
    unfold Num.quantity
    rw [(Dyad.rat_eq_zero a).mpr h]; simp
  · rw [if_neg h]
    refine ⟨decide (a.m < 0), ?_, fun h' => absurd ((Dyad.rat_eq_zero a).mp h') h⟩
    show Quantity.exact _ ((if decide (a.m < 0) = true then -(a.m.natAbs : Rat) else (a.m.natAbs : Rat)) * 2 ^ a.e) = Quantity.exact _ (a.m * 2 ^ a.e)
    congr 2
    have hc : ((a.m.natAbs : Nat) : Rat) = ((|a.m| : Int) : Rat) := Nat.cast_natAbs a.m
    by_cases h2 : a.m < 0
    · rw [if_pos (by simpa using h2), hc, abs_of_neg h2]; push_cast; ring
    · rw [if_neg (by simpa using h2), hc, abs_of_nonneg (not_lt.mp h2)]

/-- Delivering takes no account of the sign given with a number that is not zero. -/
theorem FloatFmt.Delivers.congr {f : FloatFmt} {mode : Nat} {sat : Bool} {n m : Bool} {v : Rat} {r : Rounded}
    (h : f.Delivers mode sat (.exact n v) r) (hn : v = 0 → n = m) : f.Delivers mode sat (.exact m v) r :=
  ⟨fun h0 => by rw [← hn h0]; exact h.1 h0, h.2⟩

theorem Num.dyad_rat (n : Bool) (m : Nat) (e : Int) : (Num.fin n m e).dyad.rat = (if n then -(m : Rat) else m) * 2 ^ e := by
  unfold Num.dyad Dyad.rat
  cases n <;> simp

theorem Num.isZero_iff (n : Bool) (m : Nat) (e : Int) : (Num.fin n m e).isZero = true ↔ (if n then -(m : Rat) else m) * 2 ^ e = 0 := by
  unfold Num.isZero
  have : (2 : Rat) ^ e ≠ 0 := (two_zpow_pos _).ne'
  cases n <;> simp [this]

theorem FloatFmt.addNum_spec {f : FloatFmt} (hf : f.Sane) (mode : Nat) (sat : Bool) (x y : Num) :
    f.Delivers mode sat (x.quantity.sum mode y.quantity) (f.addNum mode sat x y) := by
  unfold FloatFmt.addNum
  cases x with
  | nan s => cases y <;> exact ⟨rfl, by simp [Num.isNan, FloatFmt.nanOf, Num.isSnan]⟩
  | inf a =>
    cases y with
    | nan t => exact ⟨rfl, by simp [Num.isNan, FloatFmt.nanOf, Num.isSnan]⟩
    | inf b =>
      by_cases h : a = b
      · subst h
        simp only [Num.quantity, Quantity.sum, if_true, Num.isNan, Bool.or_self, Bool.false_eq_true, if_false, Num.plus, beq_self_eq_true]
        exact ⟨rfl, rfl⟩
      · simp only [Num.quantity, Quantity.sum, h, if_false, Num.isNan, Bool.or_self, Bool.false_eq_true, Num.plus, beq_iff_eq]
        exact ⟨rfl, rfl⟩
    | fin n m e => exact ⟨rfl, rfl⟩
  | fin n m e =>
    cases y with
    | nan t => exact ⟨rfl, by simp [Num.isNan, FloatFmt.nanOf, Num.isSnan]⟩
    | inf b => exact ⟨rfl, rfl⟩
    | fin n' m' e' =>
      simp only [Num.isNan, Bool.or_self, Bool.false_eq_true, if_false, Num.plus]
      set d := (Num.fin n m e).dyad.add (Num.fin n' m' e').dyad with hd
      have hr : d.rat = (if n then -(m : Rat) else m) * 2 ^ e + (if n' then -(m' : Rat) else m') * 2 ^ e' := by
        rw [hd, Dyad.add_rat, Num.dyad_rat, Num.dyad_rat]
      set neg0 := (if ((Num.fin n m e).isZero && (Num.fin n' m' e').isZero && (Num.fin n m e).sign == (Num.fin n' m' e').sign) = true then
        (Num.fin n m e).sign else mode == 4) with hn0
      obtain ⟨k, hk, hk0⟩ := Dyad.num_quantity d neg0
      have hs := FloatFmt.deliver_spec hf mode sat (d.num neg0)
      rw [hk] at hs
      unfold Num.quantity Quantity.sum
      dsimp only
      rw [← hr]
      refine hs.congr fun h0 => ?_
      rw [hk0 h0, hn0]
      have i1 := Num.isZero_iff n m e
      have i2 := Num.isZero_iff n' m' e'
      have hc : ((Num.fin n m e).isZero && (Num.fin n' m' e').isZero && (Num.fin n m e).sign == (Num.fin n' m' e').sign) = true ↔
         ((if n = true then -(m : Rat) else m) * 2 ^ e = 0 ∧ (if n' = true then -(m' : Rat) else m') * 2 ^ e' = 0 ∧ n = n') := by
        rw [← i1, ← i2]; simp [Num.sign, and_assoc]
      by_cases hh : ((Num.fin n m e).isZero && (Num.fin n' m' e').isZero && (Num.fin n m e).sign == (Num.fin n' m' e').sign) = true
      · rw [if_pos hh, if_pos (hc.mp hh)]; rfl
      · rw [if_neg hh, if_neg (fun hx => hh (hc.mpr hx))]

theorem Num.negate_quantity (x : Num) : x.negate.quantity = x.quantity.opposite := by
  cases x with
  | nan s => rfl
  | inf n => rfl
  | fin n m e => cases n <;> simp [Num.negate, Num.quantity, Quantity.opposite]

/-- The product of two numbers that are no NaN, and where there is none. -/
theorem Num.times_quantity (x y : Num) (hx : x.isNan = false) (hy : y.isNan = false) :
    (match x.times y with
     | some q => q.quantity = x.quantity.product y.quantity ∧ q.isNan = false
     | none => x.quantity.product y.quantity = .nan true) := by
  cases x with
  | nan s => cases hx
  | inf a =>
    cases y with
    | nan t => cases hy
    | inf b => simp [Num.times, Num.isZero, Num.quantity, Quantity.product, Num.sign, Num.isNan]
    | fin n m e =>
      have := Num.isZero_iff n m e
      by_cases h : (if n then -(m : Rat) else m) * 2 ^ e = 0
      · have h2 := this.mpr h
        simp only [Num.times, h2, Bool.or_true, if_true, Num.quantity, Quantity.product, h]
      · have h2 : (Num.fin n m e).isZero = false := by cases hz : (Num.fin n m e).isZero; rfl; exact absurd (this.mp hz) h
        have h3 : (m == 0) = false := h2
        have h4 : ¬(if n = true then -((m : Rat) * 2 ^ e) else (m : Rat) * 2 ^ e) = 0 := by cases n <;> simpa using h
        simp [Num.times, Num.isZero, h3, Num.quantity, Quantity.product, h4, Num.sign, Num.isNan]
  | fin n m e =>
    cases y with
    | nan t => cases hy
    | inf b =>
      have := Num.isZero_iff n m e
      by_cases h : (if n then -(m : Rat) else m) * 2 ^ e = 0
      · have h2 := this.mpr h
        simp only [Num.times, h2, Bool.true_or, if_true, Num.quantity, Quantity.product, h]
      · have h2 : (Num.fin n m e).isZero = false := by cases hz : (Num.fin n m e).isZero; rfl; exact absurd (this.mp hz) h
        have h3 : (m == 0) = false := h2
        have h4 : ¬(if n = true then -((m : Rat) * 2 ^ e) else (m : Rat) * 2 ^ e) = 0 := by cases n <;> simpa using h
        simp [Num.times, Num.isZero, h3, Num.quantity, Quantity.product, h4, Num.sign, Num.isNan]
    | fin n' m' e' =>
      refine ⟨?_, rfl⟩
      simp only [Num.quantity, Quantity.product, Num.sign]
      congr 1
      rw [zpow_add₀ (by norm_num)]
      cases n <;> cases n' <;> simp <;> ring

theorem FloatFmt.mulNum_spec {f : FloatFmt} (hf : f.Sane) (mode : Nat) (sat : Bool) (x y : Num) :
    f.Delivers mode sat (x.quantity.product y.quantity) (f.mulNum mode sat x y) := by
  unfold FloatFmt.mulNum
  by_cases hx : x.isNan = true
  · cases x <;> simp_all only [Num.isNan, Bool.false_eq_true]
    cases y <;> exact ⟨rfl, by simp [Num.isNan, FloatFmt.nanOf, Num.isSnan]⟩
  · by_cases hy : y.isNan = true
    · cases y <;> simp_all only [Num.isNan, Bool.false_eq_true]
      cases x <;> exact ⟨rfl, by simp_all [Num.isNan, FloatFmt.nanOf, Num.isSnan]⟩
    · rw [if_neg (by simp [hx, hy])]
      have := Num.times_quantity x y (by simpa using hx) (by simpa using hy)
      cases ht : x.times y with
      | none => rw [ht] at this; rw [this]; exact ⟨rfl, rfl⟩
      | some q => rw [ht] at this; rw [← this.1]; exact FloatFmt.deliver_spec hf mode sat q

theorem FloatFmt.fmaNum_spec {f : FloatFmt} (hf : f.Sane) (mode : Nat) (sat : Bool) (x y z : Num) :
    f.Delivers mode sat ((x.quantity.product y.quantity).sum mode z.quantity) (f.fmaNum mode sat x y z) := by
  unfold FloatFmt.fmaNum
  dsimp only
  by_cases hx : x.isNan = true
  · cases x <;> simp_all only [Num.isNan, Bool.false_eq_true]
    cases y <;> cases z <;> exact ⟨rfl, by simp [Num.isNan, FloatFmt.nanOf, Num.isSnan, Bool.or_assoc]⟩
  · by_cases hy : y.isNan = true
    · cases y <;> simp_all only [Num.isNan, Bool.false_eq_true]
      cases x <;> cases z <;> exact ⟨rfl, by simp_all [Num.isNan, FloatFmt.nanOf, Num.isSnan, Bool.or_assoc]⟩
    · have := Num.times_quantity x y (by simpa using hx) (by simpa using hy)
      have hx' : x.isNan = false := by simpa using hx
      have hy' : y.isNan = false := by simpa using hy
      cases ht : x.times y with
      | none =>
        rw [ht] at this
        rw [this, hx', hy', if_pos (by simp)]
        cases z <;> exact ⟨rfl, rfl⟩
      | some q =>
        rw [ht] at this
        rw [hx', hy', if_neg (by simp)]
        dsimp only
        rw [← this.1]
        have hq := this.2
        have hadd := FloatFmt.addNum_spec hf mode sat q z
        unfold FloatFmt.addNum at hadd
        rw [hq] at hadd
        have hsn : ∀ (w : Num), w.isNan = false → w.isSnan = false := fun w hw => by cases w <;> first | rfl | cases hw
        cases hz : z.isNan
        · rw [hz, if_neg (by simp)] at hadd
          rw [if_neg (by simp)]
          exact hadd
        · rw [hz, if_pos (by simp)] at hadd
          rw [if_pos (by simp)]
          have : f.nanOf [x, y, z] = f.nanOf [q, z] := by
            unfold FloatFmt.nanOf
            simp [hsn x hx', hsn y hy', hsn q hq]
          rw [this]
          exact hadd

theorem mapIdx_range {α β : Type} (n : Nat) (r : Nat → α) (g : Nat → α → β) :
    ((List.range n).map r).mapIdx g = (List.range n).map fun i => g i (r i) := by
  apply List.ext_getElem
  · simp
  · intro i h1 h2
    simp

theorem joinElems_elem {w : Nat} (hw : 0 < w) (hd : 32 / w * w = 32) (r : Nat → Nat) {i : Nat} (hi : i < 32 / w) :
    elemAt w (joinElems w ((List.range (32 / w)).map r)) i = r i % 2 ^ w := by
  have hs := digits_sum (2 ^ w) (Nat.pow_pos (by decide)) (fun i => r i % 2 ^ w) (fun i => Nat.mod_lt _ (Nat.pow_pos (by decide))) (32 / w)
  have hw' : (2 ^ w) ^ (32 / w) = 2 ^ 32 := by
    rw [← Nat.pow_mul, Nat.mul_comm, hd]
  rw [hw'] at hs
  unfold elemAt joinElems
  rw [mapIdx_range]
  simp only [Nat.pow_mul, BitVec.toNat_ofNat]
  rw [Nat.mod_eq_of_lt hs.1]
  exact hs.2 i hi

theorem vfmt_fits (n : Nat) : 0 < (vfmt n).width ∧ 32 / (vfmt n).width * (vfmt n).width = 32 ∧ (vfmt n).fmt.Sane := by
  unfold vfmt
  split
  · exact ⟨by decide, by decide, f32_sane⟩
  · exact ⟨by decide, by decide, f16_sane⟩
  · exact ⟨by decide, by decide, bf16_sane⟩

end Sys2Proof.Machine
end

