-- ==== Sys2Proof/Laws/Numbers.lean ====
section
/-!
SUPPORT. What the arithmetic of Machine/Numbers.lean delivers, said over rational and real
numbers: the class and the value of an encoding, the exact sum, difference and product with its
residual, the order of encodings, scaling by a power of two, the quotient, the square root and
the reciprocal square root.
-/

namespace Sys2Proof.Machine


theorem FloatFmt.value_special (f : FloatFmt) (x : Nat) : (f.value x).special = false ↔ f.Finite x := by
  unfold FloatFmt.value FloatFmt.Finite
  dsimp only
  split
  · simp [Num.special]; omega
  split
  · simp [Num.special]; omega
  split <;> simp [Num.special] <;> omega

theorem FloatFmt.quantity_finite {f : FloatFmt} {x : Nat} (h : f.Finite x) : f.quantity x = .exact (f.neg x) (f.rat x) := by
  unfold FloatFmt.quantity; exact if_pos h

theorem FloatFmt.value_fin {f : FloatFmt} {x : Nat} (h : f.Finite x) :
    ∃ m e, f.value x = .fin (f.neg x) m e ∧ f.rat x = (if f.neg x then -(m : Rat) else m) * 2 ^ e := by
  have h1 := f.quantity_value x
  rw [FloatFmt.quantity_finite h] at h1
  have h2 := (f.value_special x).2 h
  cases hv : f.value x with
  | nan s => rw [hv] at h2; cases h2
  | inf n => rw [hv] at h2; cases h2
  | fin n m e =>
    rw [hv] at h1
    unfold Num.quantity at h1
    injection h1 with h3 h4
    subst h3
    exact ⟨m, e, rfl, h4⟩

theorem FloatFmt.value_dyad {f : FloatFmt} {x : Nat} (h : f.Finite x) : (f.value x).dyad.rat = f.rat x := by
  obtain ⟨m, e, h1, h2⟩ := FloatFmt.value_fin h
  rw [h1, h2, Num.dyad_rat]

/-- The pair of an exact value and its rounding (R205). -/
theorem FloatFmt.pairOf_spec {f : FloatFmt} (hf : f.Sane) {mode : Nat} {a b : Nat} {s : Dyad} {r : Rounded} {q : Quantity}
    (hr : f.Delivers mode false q r) (hs : f.Finite a → f.Finite b → ∃ n, q = .exact n s.rat) :
    f.DeliversPair mode (f.Finite a ∧ f.Finite b) q (f.pairOf (f.value a) (f.value b) s r) := by
  refine ⟨r, hr, ?_, ?_⟩
  · unfold FloatFmt.pairOf FloatFmt.residual; split <;> rfl
  have key : (f.value a).special || (f.value b).special || (f.value r.bits).special || r.flags &&& flagOE != 0 ↔
      ¬((f.Finite a ∧ f.Finite b) ∧ f.Finite r.bits ∧ r.flags &&& flagOE = 0) := by
    rw [← f.value_special a, ← f.value_special b, ← f.value_special r.bits]
    simp only [Bool.or_eq_true, bne_iff_ne]
    cases (f.value a).special <;> cases (f.value b).special <;> cases (f.value r.bits).special <;> simp
  unfold FloatFmt.pairOf
  by_cases hk : (f.value a).special || (f.value b).special || (f.value r.bits).special || r.flags &&& flagOE != 0
  · rw [if_pos hk]
    cases q with
    | nan t => exact ⟨rfl, rfl⟩
    | infinite t => exact ⟨rfl, rfl⟩
    | exact n v => exact ⟨fun h => absurd (by tauto) (key.1 hk), fun _ => ⟨rfl, rfl⟩⟩
  · rw [if_neg hk]
    have hk' := not_not.1 (mt key.2 hk)
    obtain ⟨n, hn⟩ := hs hk'.1.1 hk'.1.2
    subst hn
    refine ⟨fun _ => ?_, fun h => absurd (by tauto) h⟩
    obtain ⟨n', h1, h2⟩ := Dyad.num_quantity (s.sub (f.value r.bits).dyad) false
    have h3 := FloatFmt.deliver_spec hf 1 false ((s.sub (f.value r.bits).dyad).num false)
    rw [h1] at h3
    rw [Dyad.sub_rat, FloatFmt.value_dyad hk'.2.1] at h3 h2
    refine ⟨_, fun h0 => ?_, h3.2, ?_, rfl⟩
    · rw [(h3.1 h0).1, (h3.1 h0).2, h2 h0]; exact ⟨rfl, rfl⟩
    · unfold FloatFmt.residual
      simp

theorem FloatFmt.addX_spec {f : FloatFmt} (hf : f.Sane) (mode a b : Nat) :
    f.DeliversPair mode (f.Finite a ∧ f.Finite b) ((f.quantity a).sum mode (f.quantity b)) (f.addX mode a b) := by
  refine FloatFmt.pairOf_spec hf ?_ ?_
  · rw [f.quantity_value, f.quantity_value]; exact FloatFmt.addNum_spec hf ..
  · intro h1 h2
    rw [FloatFmt.quantity_finite h1, FloatFmt.quantity_finite h2, Dyad.add_rat, FloatFmt.value_dyad h1, FloatFmt.value_dyad h2]
    exact ⟨_, rfl⟩

theorem FloatFmt.subX_spec {f : FloatFmt} (hf : f.Sane) (mode a b : Nat) :
    f.DeliversPair mode (f.Finite a ∧ f.Finite b) ((f.quantity a).sum mode (f.quantity b).opposite) (f.subX mode a b) := by
  refine FloatFmt.pairOf_spec hf ?_ ?_
  · rw [f.quantity_value, f.quantity_value, ← Num.negate_quantity]; exact FloatFmt.addNum_spec hf ..
  · intro h1 h2
    rw [FloatFmt.quantity_finite h1, FloatFmt.quantity_finite h2, Dyad.sub_rat, FloatFmt.value_dyad h1, FloatFmt.value_dyad h2, sub_eq_add_neg]
    exact ⟨_, rfl⟩

theorem FloatFmt.mulX_spec {f : FloatFmt} (hf : f.Sane) (mode a b : Nat) :
    f.DeliversPair mode (f.Finite a ∧ f.Finite b) ((f.quantity a).product (f.quantity b)) (f.mulX mode a b) := by
  refine FloatFmt.pairOf_spec hf ?_ ?_
  · rw [f.quantity_value, f.quantity_value]; exact FloatFmt.mulNum_spec hf ..
  · intro h1 h2
    rw [FloatFmt.quantity_finite h1, FloatFmt.quantity_finite h2, Dyad.mul_rat, FloatFmt.value_dyad h1, FloatFmt.value_dyad h2]
    exact ⟨_, rfl⟩


theorem FloatFmt.value_isNan (f : FloatFmt) (x : Nat) : (f.value x).isNan = true ↔ f.NaN x := by
  unfold FloatFmt.value FloatFmt.NaN
  dsimp only
  split
  · simp [Num.isNan]; omega
  split
  · simp [Num.isNan]; omega
  split <;> simp [Num.isNan] <;> omega

theorem FloatFmt.value_nan {f : FloatFmt} {x : Nat} (h : f.NaN x) : f.value x = .nan (decide (x % 2 ^ (f.p - 1) < 2 ^ (f.p - 2))) := by
  have h1 := f.quantity_value x
  unfold FloatFmt.NaN at h
  unfold FloatFmt.quantity at h1
  rw [if_neg (by omega), if_neg (by omega)] at h1
  have h2 := (f.value_isNan x).2 h
  cases hv : f.value x with
  | nan s => rw [hv] at h1; injection h1 with h3; rw [h3]
  | inf n => rw [hv] at h2; cases h2
  | fin n m e => rw [hv] at h2; cases h2

theorem FloatFmt.value_isSnan (f : FloatFmt) (x : Nat) : (f.value x).isSnan = true ↔ f.Signalling x := by
  by_cases h : f.NaN x
  · rw [FloatFmt.value_nan h]; unfold FloatFmt.Signalling Num.isSnan; simp [h]
  · have := mt (f.value_isNan x).1 h
    unfold FloatFmt.Signalling
    cases hv : f.value x with
    | nan s => rw [hv] at this; simp [Num.isNan] at this
    | inf n => simp [Num.isSnan, h]
    | fin n m e => simp [Num.isSnan, h]

theorem FloatFmt.value_inf {f : FloatFmt} {x : Nat} (h : f.Infinite x) : f.value x = .inf (f.neg x) := by
  unfold FloatFmt.Infinite at h
  unfold FloatFmt.value
  dsimp only
  rw [if_neg (by omega), if_pos h]; rfl

/-- The three kinds of an encoding. -/
theorem FloatFmt.kinds (f : FloatFmt) (x : Nat) : f.NaN x ∨ f.Infinite x ∨ f.Finite x := by
  unfold FloatFmt.NaN FloatFmt.Infinite FloatFmt.Finite; omega

theorem FloatFmt.Finite.notNaN {f : FloatFmt} {x : Nat} (h : f.Finite x) : ¬f.NaN x := by
  unfold FloatFmt.NaN FloatFmt.Finite at *; omega
theorem FloatFmt.Infinite.notNaN {f : FloatFmt} {x : Nat} (h : f.Infinite x) : ¬f.NaN x := by
  unfold FloatFmt.NaN FloatFmt.Infinite at *; omega
theorem FloatFmt.Finite.notInfinite {f : FloatFmt} {x : Nat} (h : f.Finite x) : ¬f.Infinite x := by
  unfold FloatFmt.Infinite FloatFmt.Finite at *; omega

theorem FloatFmt.magnitude_zero (f : FloatFmt) : f.magnitude 0 = 0 := by
  unfold FloatFmt.magnitude; simp

theorem FloatFmt.magnitude_nonneg (f : FloatFmt) (x : Nat) : 0 ≤ f.magnitude x := by
  rw [← f.magnitude_zero]; exact f.magnitude_strictMono.monotone (Nat.zero_le x)

theorem FloatFmt.rat_eq_zero (f : FloatFmt) (x : Nat) : f.rat x = 0 ↔ f.Zero x := by
  unfold FloatFmt.rat FloatFmt.Zero
  have : f.magnitude (x % f.signBit) = 0 ↔ x % f.signBit = 0 := by
    rw [← f.magnitude_zero]; exact f.magnitude_strictMono.injective.eq_iff
  cases f.neg x <;> simp [this]

theorem FloatFmt.value_isZero {f : FloatFmt} (hf : f.Sane) (x : Nat) : (f.value x).isZero = true ↔ f.Zero x := by
  rcases f.kinds x with h | h | h
  · rw [FloatFmt.value_nan h]
    unfold FloatFmt.NaN at h; unfold FloatFmt.Zero; simp [Num.isZero]; omega
  · rw [FloatFmt.value_inf h]
    have := FloatFmt.infBits_pos hf
    unfold FloatFmt.Infinite at h; unfold FloatFmt.Zero; simp [Num.isZero]; omega
  · obtain ⟨m, e, h1, h2⟩ := FloatFmt.value_fin h
    rw [h1, Num.isZero_iff, ← h2, f.rat_eq_zero]

theorem FloatFmt.value_sign {f : FloatFmt} {x : Nat} (h : ¬f.NaN x) : (f.value x).sign = f.neg x := by
  rcases f.kinds x with h' | h' | h'
  · exact absurd h' h
  · rw [FloatFmt.value_inf h']; rfl
  · obtain ⟨m, e, h1, h2⟩ := FloatFmt.value_fin h'; rw [h1]; rfl

theorem Dyad.rat_neg_iff (a : Dyad) : a.rat < 0 ↔ a.m < 0 := by
  unfold Dyad.rat
  have := two_zpow_pos a.e
  constructor
  · intro h
    by_contra h'
    have : (0 : Rat) ≤ a.m := by exact_mod_cast not_lt.1 h'
    have := mul_nonneg this (two_zpow_pos a.e).le
    linarith
  · intro h
    have : (a.m : Rat) < 0 := by exact_mod_cast h
    exact mul_neg_of_neg_of_pos this (two_zpow_pos a.e)

/-- The order of encodings is that of the numbers, with −0 below +0. -/
theorem FloatFmt.below_order {f : FloatFmt} (hf : f.Sane) {x y : Nat} (hx : ¬f.NaN x) (hy : ¬f.NaN y) :
    (f.value x).below (f.value y) = true ↔ f.order x < f.order y := by
  have hmx := f.magnitude_strictMono.lt_iff_lt (a := x % f.signBit) (b := y % f.signBit)
  have hmy := f.magnitude_strictMono.lt_iff_lt (a := y % f.signBit) (b := x % f.signBit)
  have hm0 := f.magnitude_strictMono.lt_iff_lt (a := 0) (b := x % f.signBit)
  have hm1 := f.magnitude_strictMono.lt_iff_lt (a := 0) (b := y % f.signBit)
  rw [f.magnitude_zero] at hm0 hm1
  have hn0 := f.magnitude_nonneg (x % f.signBit)
  have hn1 := f.magnitude_nonneg (y % f.signBit)
  rcases f.kinds x with h | h | h
  · exact absurd h hx
  · rw [FloatFmt.value_inf h]
    rcases f.kinds y with h' | h' | h'
    · exact absurd h' hy
    · rw [FloatFmt.value_inf h']
      unfold FloatFmt.Infinite at h h'
      unfold Num.below FloatFmt.order
      cases f.neg x <;> cases f.neg y <;> simp <;> omega
    · obtain ⟨m, e, h1, h2⟩ := FloatFmt.value_fin h'
      rw [h1]
      unfold FloatFmt.Infinite at h; unfold FloatFmt.Finite at h'
      unfold Num.below FloatFmt.order
      cases f.neg x <;> cases f.neg y <;> simp <;> omega
  · rcases f.kinds y with h' | h' | h'
    · exact absurd h' hy
    · obtain ⟨m, e, h1, h2⟩ := FloatFmt.value_fin h
      rw [FloatFmt.value_inf h', h1]
      unfold FloatFmt.Infinite at h'; unfold FloatFmt.Finite at h
      unfold Num.below FloatFmt.order
      cases f.neg x <;> cases f.neg y <;> simp <;> omega
    · have zx := FloatFmt.value_isZero hf x
      have zy := FloatFmt.value_isZero hf y
      have hd : ((f.value x).dyad.sub (f.value y).dyad).m < 0 ↔ f.rat x < f.rat y := by
        rw [← Dyad.rat_neg_iff, Dyad.sub_rat, FloatFmt.value_dyad h, FloatFmt.value_dyad h', sub_neg]
      have e1 : (f.value x).below (f.value y) = (if (f.value x).isZero && (f.value y).isZero then (f.value x).sign && !(f.value y).sign else decide (((f.value x).dyad.sub (f.value y).dyad).m < 0)) := by
        obtain ⟨m, e, h1, h2⟩ := FloatFmt.value_fin h
        obtain ⟨m', e', h1', h2'⟩ := FloatFmt.value_fin h'
        rw [h1, h1']; rfl
      rw [e1, FloatFmt.value_sign hx, FloatFmt.value_sign hy]
      by_cases hz : ((f.value x).isZero && (f.value y).isZero) = true
      · rw [if_pos hz]
        rw [Bool.and_eq_true, zx, zy] at hz
        unfold FloatFmt.Zero at hz
        unfold FloatFmt.order
        cases f.neg x <;> cases f.neg y <;> simp <;> omega
      · rw [if_neg hz, decide_eq_true_iff, hd]
        rw [Bool.and_eq_true, zx, zy] at hz
        unfold FloatFmt.Zero at hz
        unfold FloatFmt.order FloatFmt.rat
        cases f.neg x <;> cases f.neg y
        · simp only [Bool.false_eq_true, if_false]; rw [hmx]; omega
        · simp only [Bool.false_eq_true, if_false, if_true]
          constructor
          · intro hh; linarith
          · intro hh; omega
        · simp only [Bool.false_eq_true, if_false, if_true]
          constructor
          · intro; omega
          · intro
            rcases Nat.eq_zero_or_pos (x % f.signBit) with h0 | h0
            · have := hm1.2 (by omega); linarith
            · have := hm0.2 h0; linarith
        · simp only [if_true]; rw [neg_lt_neg_iff, hmy]; omega

theorem FloatFmt.order_inj {f : FloatFmt} {x y : Nat} (hz : ¬(f.Zero x ∧ f.Zero y)) (h : f.order x = f.order y) :
    f.neg x = f.neg y ∧ x % f.signBit = y % f.signBit := by
  unfold FloatFmt.Zero at hz
  unfold FloatFmt.order at h
  cases hx : f.neg x <;> cases hy : f.neg y <;> simp [hx, hy] at h ⊢ <;> omega


/-- Every operand fits: a significand of p bits and an exponent in a range. -/
theorem FloatFmt.value_fits {f : FloatFmt} (hf : f.Sane) {x : Nat} {n : Bool} {m : Nat} {e : Int} (h : f.value x = .fin n m e) :
    m < 2 ^ f.p ∧ f.low ≤ e ∧ e ≤ f.low + 2 ^ f.ebits := by
  have hp := hf.1
  have e1 : 2 ^ f.p = 2 * 2 ^ (f.p - 1) := by rw [← pow_succ']; congr 1; omega
  have hP : 0 < 2 ^ (f.p - 1) := by positivity
  unfold FloatFmt.value at h
  dsimp only at h
  split at h
  · cases h
  split at h
  · cases h
  rename_i h1 h2
  have hr := Nat.mod_lt (x % f.signBit) hP
  have hd : x % f.signBit / 2 ^ (f.p - 1) < 2 ^ f.ebits := by
    rw [Nat.div_lt_iff_lt_mul hP]
    have hi : f.infBits ≤ 2 ^ f.ebits * 2 ^ (f.p - 1) := Nat.mul_le_mul_right _ (Nat.sub_le _ _)
    generalize 2 ^ f.ebits * 2 ^ (f.p - 1) = C at hi
    omega
  have hc : ((2 ^ f.ebits : Nat) : Int) = 2 ^ f.ebits := by push_cast; rfl
  rw [← hc, e1]
  generalize 2 ^ f.ebits = C at hd
  generalize 2 ^ (f.p - 1) = P at *
  split at h
  · rw [Num.fin.injEq] at h
    obtain ⟨-, a2, a3⟩ := h
    omega
  · rw [Num.fin.injEq] at h
    obtain ⟨-, a2, a3⟩ := h
    generalize x % f.signBit / P = D at *; omega

/-- An exact number that fits is a multiple of its own quantum. -/
theorem FloatFmt.multiple_of_fits {f : FloatFmt} {m : Nat} {e : Int} (h0 : 0 < m) (hm : m < 2 ^ f.p) (he : f.low ≤ e) (neg : Bool) :
    ∃ n : Int, withSign neg ((m : Real) * 2 ^ e) = 2 ^ (max (Int.log 2 |withSign neg ((m : Real) * 2 ^ e)|) f.emin - f.p + 1) * n := by
  have hu : (0 : Real) < (m : Real) * 2 ^ e := by positivity
  rw [withSign_abs neg hu.le]
  have hl := Approx.log_eq (a := { n := m, e := e, sticky := false }) (u := (m : Real) * 2 ^ e) ⟨h0, fun _ => rfl, fun h => by cases h⟩
  rw [hl]
  have hlog : m.log2 < f.p := (Nat.log2_lt (by omega)).2 hm
  unfold Approx.log
  dsimp only
  have hK : max ((m.log2 : Int) + e) f.emin - f.p + 1 ≤ e := by
    unfold FloatFmt.low at he
    omega
  generalize max ((m.log2 : Int) + e) f.emin - f.p + 1 = K at hK
  have e2 : (2 : Real) ^ e = 2 ^ K * 2 ^ (e - K).toNat := by
    rw [← zpow_natCast, ← zpow_add₀ (by norm_num)]; congr 1; omega
  rw [e2]
  unfold withSign
  cases neg
  · exact ⟨m * 2 ^ (e - K).toNat, by rw [if_neg (by simp)]; push_cast; ring⟩
  · exact ⟨-(m * 2 ^ (e - K).toNat), by rw [if_pos rfl]; push_cast; ring⟩

theorem chosen_multiple {mode : Nat} {q v r : Real} (hq : q ≠ 0) {n : Int} (hv : v = q * n) (h : chosen mode q v r) : r = v := by
  refine h.1 ?_
  rw [hv, mul_div_cancel_left₀ _ hq, Int.floor_intCast]

/-- What fits is delivered exactly. -/
theorem FloatFmt.deliver_exact {f : FloatFmt} (hf : f.Sane) {mode : Nat} {sat : Bool} {neg : Bool} {m q : Nat} {e d : Int}
    (h0 : 0 < m) (hm : m < 2 ^ f.p) (he : f.low ≤ e) (hl : (m : Rat) * 2 ^ e ≤ f.largest) (hq : (q : Rat) * 2 ^ d = m * 2 ^ e) :
    let r := f.deliver mode sat (.fin neg q d)
    f.Finite r.bits ∧ f.rat r.bits = (if neg then -((m : Rat) * 2 ^ e) else (m : Rat) * 2 ^ e) ∧ f.neg r.bits = neg ∧ r.flags = 0 := by
  have hp : (0 : Rat) < (m : Rat) * 2 ^ e := by positivity
  have h1 := FloatFmt.deliver_spec hf mode sat (.fin neg q d)
  have e0 : (if neg then -(q : Rat) else q) * 2 ^ d = if neg then -((m : Rat) * 2 ^ e) else (m : Rat) * 2 ^ e := by
    rw [← hq]; cases neg
    · simp
    · rw [if_pos rfl, if_pos rfl]; ring
  have hv : (if neg then -(q : Rat) else q) * 2 ^ d ≠ 0 := by
    rw [e0]
    cases neg
    · simpa using hp.ne'
    · rw [if_pos rfl]; exact neg_ne_zero.2 hp.ne'
  have hr := h1.2 hv
  rw [e0] at hr
  have e1 : ((if neg = true then -((m : Rat) * 2 ^ e) else (m : Rat) * 2 ^ e : Rat) : Real) = withSign neg ((m : Real) * 2 ^ e) := by
    unfold withSign
    cases neg
    · rw [if_neg (by simp), if_neg (by simp)]; push_cast; rfl
    · rw [if_pos rfl, if_pos rfl]; push_cast; ring
  rw [e1] at hr
  obtain ⟨z, hz, hfin, -⟩ := hr
  obtain ⟨n, hn⟩ := FloatFmt.multiple_of_fits (f := f) h0 hm he neg
  have hzv := chosen_multiple (by positivity) hn hz
  have hu : (0 : Real) < (m : Real) * 2 ^ e := by positivity
  obtain ⟨a1, a2, a3, a4, -⟩ := hfin (by
    rw [hzv, withSign_abs neg hu.le]
    have : (((m : Rat) * 2 ^ e : Rat) : Real) ≤ (f.largest : Rat) := by exact_mod_cast hl
    push_cast at this; exact this)
  dsimp only
  refine ⟨a1, ?_, ?_, a4 hzv⟩
  · rw [hzv, ← e1] at a2; exact_mod_cast a2
  · have := withSign_neg neg hu
    rw [Bool.eq_iff_iff, a3, this]

/-- A format in which integers of p bits lie in the range. -/
structure FloatFmt.Wide (f : FloatFmt) : Prop where
  sane : f.Sane
  whole : (2 : Rat) ^ f.p ≤ f.largest
  low : f.low ≤ 0
  tinyMultiple : -200 ≤ f.low
  bits : f.p ≤ 24
  exps : f.ebits ≤ 8

theorem f32_wide : f32.Wide := by
  refine ⟨f32_sane, ?_, by decide, by decide, by decide, by decide⟩
  norm_num [FloatFmt.largest, FloatFmt.magnitude, FloatFmt.infBits, f32, FloatFmt.low]
theorem f16_wide : f16.Wide := by
  refine ⟨f16_sane, ?_, by decide, by decide, by decide, by decide⟩
  norm_num [FloatFmt.largest, FloatFmt.magnitude, FloatFmt.infBits, f16, FloatFmt.low]
theorem bf16_wide : bf16.Wide := by
  refine ⟨bf16_sane, ?_, by decide, by decide, by decide, by decide⟩
  norm_num [FloatFmt.largest, FloatFmt.magnitude, FloatFmt.infBits, bf16, FloatFmt.low]

theorem vfmt_wide (n : Nat) : (vfmt n).fmt.Wide := by
  unfold vfmt
  split
  · exact f32_wide
  · exact f16_wide
  · exact bf16_wide

/-- A finite encoding lies within the range. -/
theorem FloatFmt.abs_rat_le {f : FloatFmt} {x : Nat} (h : f.Finite x) : |f.rat x| ≤ f.largest := by
  unfold FloatFmt.Finite at h
  have h1 : f.magnitude (x % f.signBit) ≤ f.largest := f.magnitude_strictMono.monotone (by omega)
  have h2 := f.magnitude_nonneg (x % f.signBit)
  unfold FloatFmt.rat
  cases f.neg x
  · rw [if_neg (by simp), abs_of_nonneg h2]; exact h1
  · rw [if_pos rfl, abs_neg, abs_of_nonneg h2]; exact h1

/-- Rounding to a multiple that lies at or below the number's own exponent changes nothing. -/
theorem Approx.toMultiple_below {m : Nat} {e : Int} {mode : Nat} {neg : Bool} {k : Int} (h : k ≤ e) :
    Approx.toMultiple { n := m, e := e, sticky := false } mode neg k = (m <<< (e - k).toNat, false) := by
  unfold Approx.toMultiple
  dsimp only
  rw [if_pos (by omega), neg_sub]

/-- Far above the range a result overflows. -/
theorem FloatFmt.round_huge {f : FloatFmt} (hf : f.Sane) {mode : Nat} {sat neg : Bool} {m : Nat} {e : Int} (h0 : 0 < m)
    (hm : m < 2 ^ f.p) (he : f.low + 2 ^ f.ebits + f.p ≤ e) : f.round mode sat neg { n := m, e := e, sticky := false } = f.overflow mode neg sat := by
  have hlog : m.log2 < f.p := (Nat.log2_lt (by omega)).2 hm
  have h2 : (2 : Int) ^ f.ebits > 0 := by positivity
  unfold FloatFmt.round
  have hn : m ≠ 0 := by omega
  simp only [hn, decide_false, Bool.false_and, Bool.false_eq_true, if_false]
  unfold Approx.log
  dsimp only
  have hp := hf.1
  have hge : f.emin ≤ (m.log2 : Int) + e := by unfold FloatFmt.low at he; omega
  rw [max_eq_left hge, Approx.toMultiple_below (by omega)]
  dsimp only
  refine if_pos ?_
  have h3 : 2 ^ f.ebits ≤ ((m.log2 : Int) + e - f.p + 1 - f.low).toNat := by
    have hc : ((2 ^ f.ebits : Nat) : Int) = 2 ^ f.ebits := by push_cast; rfl
    omega
  unfold FloatFmt.infBits
  have := Nat.mul_le_mul_right (2 ^ (f.p - 1)) (show 2 ^ f.ebits - 1 ≤ ((m.log2 : Int) + e - f.p + 1 - f.low).toNat from le_trans (Nat.sub_le _ _) h3)
  exact le_trans this (Nat.le_add_right _ _)

/-- The magnitude that a number far below the range rounds to. -/
def tinyMultiple (mode : Nat) (neg : Bool) : Nat := if mode = 3 ∧ neg = false ∨ mode = 4 ∧ neg = true then 1 else 0

theorem Approx.toMultiple_tiny {m : Nat} {e : Int} {sticky : Bool} {mode : Nat} {neg : Bool} {k : Int} {s : Nat} (h0 : 0 < m)
    (hs : k - e = s) (h : 2 * m < 2 ^ s) : Approx.toMultiple { n := m, e := e, sticky := sticky } mode neg k = (tinyMultiple mode neg, true) := by
  have hs1 : 1 ≤ s := by
    rcases Nat.eq_zero_or_pos s with h' | h'
    · rw [h'] at h; omega
    · exact h'
  have h2 : 2 ^ s = 2 * 2 ^ (s - 1) := by rw [← pow_succ']; congr 1; omega
  unfold Approx.toMultiple
  dsimp only
  rw [if_neg (by omega), hs, Int.toNat_natCast]
  have q0 : m >>> s = 0 := by rw [Nat.shiftRight_eq_div_pow]; exact Nat.div_eq_of_lt (by omega)
  have r0 : m % 2 ^ s = m := Nat.mod_eq_of_lt (by omega)
  rw [q0, r0]
  have a1 : (m == 0) = false := by simp; omega
  have a2 : decide (m > 2 ^ (s - 1)) = false := by simp; omega
  have a3 : (m == 2 ^ (s - 1)) = false := by simp; omega
  rw [a1, a2, a3]
  unfold tinyMultiple
  cases neg <;> split <;> simp_all

/-- Far below the range a result is the least magnitude or zero. -/
theorem FloatFmt.round_tiny {f : FloatFmt} (hf : f.Sane) {mode : Nat} {sat neg : Bool} {m : Nat} {e : Int} (h0 : 0 < m)
    (hm : m < 2 ^ f.p) (he : e + f.p + 1 ≤ f.low) :
    f.round mode sat neg { n := m, e := e, sticky := false } = { bits := f.signed neg (tinyMultiple mode neg), flags := flagXE ||| flagUE } := by
  have hlog : m.log2 < f.p := (Nat.log2_lt (by omega)).2 hm
  have hp := hf.1
  unfold FloatFmt.round
  have hn : m ≠ 0 := by omega
  simp only [hn, decide_false, Bool.false_and, Bool.false_eq_true, if_false]
  unfold Approx.log
  dsimp only
  have hlt : (m.log2 : Int) + e < f.emin := by unfold FloatFmt.low at he; omega
  have hk : max ((m.log2 : Int) + e) f.emin - f.p + 1 = f.low := by rw [max_eq_right hlt.le]; rfl
  rw [hk, Approx.toMultiple_tiny (s := (f.low - e).toNat) h0 (by omega) (by
    have : 2 ^ (f.p + 1) ≤ 2 ^ (f.low - e).toNat := Nat.pow_le_pow_right (by norm_num) (by omega)
    rw [pow_succ] at this; omega)]
  rw [Approx.toMultiple_below (by omega)]
  dsimp only
  have hl1 : tinyMultiple mode neg ≤ 1 := by unfold tinyMultiple; split <;> omega
  have hi : 2 ≤ f.infBits := by
    unfold FloatFmt.infBits
    have h4 : 2 ^ 2 ≤ 2 ^ f.ebits := Nat.pow_le_pow_right (by norm_num) hf.2
    have : 3 * 1 ≤ (2 ^ f.ebits - 1) * 2 ^ (f.p - 1) := Nat.mul_le_mul (by omega) (Nat.one_le_two_pow)
    omega
  have hz : (f.low - f.low).toNat * 2 ^ (f.p - 1) + tinyMultiple mode neg = tinyMultiple mode neg := by simp
  rw [hz, if_neg (by omega)]
  have ht : m <<< (e - ((m.log2 : Int) + e - f.p + 1)).toNat < 2 ^ (f.emin - ((m.log2 : Int) + e - f.p + 1)).toNat := by
    rw [Nat.shiftLeft_eq]
    calc m * 2 ^ (e - ((m.log2 : Int) + e - f.p + 1)).toNat < 2 ^ f.p * 2 ^ (e - ((m.log2 : Int) + e - f.p + 1)).toNat := Nat.mul_lt_mul_of_pos_right hm (by positivity)
      _ = 2 ^ (f.p + (e - ((m.log2 : Int) + e - f.p + 1)).toNat) := by rw [pow_add]
      _ ≤ _ := Nat.pow_le_pow_right (by norm_num) (by unfold FloatFmt.low at he; omega)
  simp [ht, hlt, flagIf]

theorem FloatFmt.scale_spec {f : FloatFmt} (hw : f.Wide) (mode : Nat) (sat : Bool) (x : Nat) (n : Int) :
    f.scale mode sat x n = (match f.value x with
      | .nan s => f.nanOf [.nan s]
      | .inf _ => { bits := x, flags := 0 }
      | .fin s m e => if m = 0 then { bits := x, flags := 0 } else f.deliver mode sat (.fin s m (e + n))) := by
  unfold FloatFmt.scale
  cases hv : f.value x with
  | nan s => rfl
  | inf s => rfl
  | fin s m e =>
    dsimp only
    by_cases h0 : m = 0
    · rw [if_pos h0, if_pos h0]
    rw [if_neg h0, if_neg h0]
    obtain ⟨h1, h2, h3⟩ := FloatFmt.value_fits hw.sane hv
    have hb : (2 : Int) ^ f.ebits ≤ 256 := by
      calc (2 : Int) ^ f.ebits ≤ 2 ^ 8 := pow_le_pow_right₀ (by norm_num) hw.exps
        _ = 256 := by norm_num
    have := hw.low; have := hw.tinyMultiple; have := hw.bits
    unfold FloatFmt.deliver
    dsimp only
    rcases lt_or_ge n (-1000) with hn | hn
    · rw [min_eq_right (by omega), max_eq_left (by omega)]
      rw [FloatFmt.round_tiny hw.sane (by omega) h1 (by omega), FloatFmt.round_tiny hw.sane (by omega) h1 (by omega)]
    · rcases lt_or_ge 1000 n with hn' | hn'
      · rw [min_eq_left (by omega), max_eq_right (by omega)]
        rw [FloatFmt.round_huge hw.sane (by omega) h1 (by omega), FloatFmt.round_huge hw.sane (by omega) h1 (by omega)]
      · rw [min_eq_right (by omega), max_eq_right (by omega)]


theorem quotient_spec {m n : Nat} {e : Int} (hm : 0 < m) (hn : 0 < n) :
    Approx.Means (quotient m n e) ((m : Real) / n * 2 ^ e) ∧ 2 ^ 24 ≤ (quotient m n e).n := by
  unfold quotient
  dsimp only
  have hl : n < 2 ^ (n.log2 + 1) := Nat.lt_log2_self
  rw [Nat.shiftLeft_eq]
  have hk : 2 ^ 79 * n ≤ m * 2 ^ (80 + n.log2) := by
    have : 2 ^ (80 + n.log2) = 2 ^ 79 * 2 ^ (n.log2 + 1) := by rw [← pow_add]; congr 1; omega
    rw [this]
    calc 2 ^ 79 * n ≤ 2 ^ 79 * 2 ^ (n.log2 + 1) := Nat.mul_le_mul_left _ hl.le
      _ = 1 * (2 ^ 79 * 2 ^ (n.log2 + 1)) := by ring
      _ ≤ _ := Nat.mul_le_mul_right _ hm
  have hq : 2 ^ 79 ≤ m * 2 ^ (80 + n.log2) / n := (Nat.le_div_iff_mul_le hn).2 hk
  generalize hK : 80 + n.log2 = K at *
  have hv : (m : Real) / n * 2 ^ e = ((m * 2 ^ K : Nat) : Real) / n * 2 ^ (e - K) := by
    rw [zpow_sub₀ (by norm_num), zpow_natCast]; push_cast; field_simp
  have hnr : (0 : Real) < n := by exact_mod_cast hn
  have hz : (0 : Real) < 2 ^ (e - K) := by positivity
  rw [hv]
  generalize m * 2 ^ K = A at *
  have hdm := Nat.div_add_mod A n
  have hr := Nat.mod_lt A hn
  have hA : (A : Real) = n * (A / n : Nat) + (A % n : Nat) := by exact_mod_cast hdm.symm
  refine ⟨⟨by show 0 < A / n; omega, fun h => ?_, fun h => ⟨?_, ?_⟩⟩, by show 2 ^ 24 ≤ A / n; omega⟩
  · have h0 : A % n = 0 := by simpa using h
    dsimp only
    congr 1
    rw [div_eq_iff hnr.ne', hA, h0]; push_cast; ring
  · have h0 : 0 < A % n := by
      have : A % n ≠ 0 := by simpa using h
      omega
    have h0 : (0 : Real) < (A % n : Nat) := by exact_mod_cast h0
    dsimp only
    refine mul_lt_mul_of_pos_right ?_ hz
    rw [lt_div_iff₀ hnr, hA]; linarith
  · have h0 : ((A % n : Nat) : Real) < n := by exact_mod_cast hr
    dsimp only
    refine mul_lt_mul_of_pos_right ?_ hz
    rw [div_lt_iff₀ hnr, hA]; linarith

theorem isqrtFrom_spec (b n r : Nat) (h1 : r * r ≤ n) (h2 : n < (r + 2 ^ (b + 1)) * (r + 2 ^ (b + 1))) :
    isqrtFrom b n r * isqrtFrom b n r ≤ n ∧ n < (isqrtFrom b n r + 1) * (isqrtFrom b n r + 1) := by
  induction b generalizing r with
  | zero =>
    unfold isqrtFrom
    split
    · rename_i h
      refine ⟨h, ?_⟩
      simpa using h2
    · rename_i h
      exact ⟨h1, by omega⟩
  | succ b ih =>
    unfold isqrtFrom
    dsimp only
    apply ih
    · split
      · assumption
      · exact h1
    · split
      · have : r + 2 ^ (b + 1 + 1) = r + 2 ^ (b + 1) + 2 ^ (b + 1) := by rw [pow_succ 2 (b + 1)]; ring
        rwa [this] at h2
      · omega

theorem isqrt_spec (n : Nat) : isqrt n * isqrt n ≤ n ∧ n < (isqrt n + 1) * (isqrt n + 1) := by
  refine isqrtFrom_spec _ n 0 (by omega) ?_
  rw [Nat.zero_add, ← pow_add]
  calc n < 2 ^ (n.log2 + 1) := Nat.lt_log2_self
    _ ≤ _ := Nat.pow_le_pow_right (by norm_num) (by omega)

theorem sqrt_between {A r : Nat} (h1 : r * r ≤ A) (h2 : A < (r + 1) * (r + 1)) :
    (r : Real) ≤ Real.sqrt A ∧ Real.sqrt A < r + 1 ∧ (r * r = A → Real.sqrt A = r) ∧ (r * r ≠ A → (r : Real) < Real.sqrt A) := by
  have h1' : (r : Real) * r ≤ A := by exact_mod_cast h1
  have h2' : (A : Real) < (r + 1) * (r + 1) := by exact_mod_cast h2
  refine ⟨Real.le_sqrt_of_sq_le (by nlinarith), (Real.sqrt_lt' (by positivity)).2 (by nlinarith), fun h => ?_, fun h => ?_⟩
  · rw [← h]; push_cast; exact Real.sqrt_mul_self (by positivity)
  · refine (Real.lt_sqrt (by positivity)).2 ?_
    have : r * r < A := by omega
    have : (r : Real) * r < A := by exact_mod_cast this
    nlinarith

theorem sqrt_zpow_even (z : Int) : Real.sqrt ((2 : Real) ^ (2 * z)) = 2 ^ z := by
  have : (2 : Real) ^ (2 * z) = (2 ^ z) ^ 2 := by rw [← zpow_natCast, ← zpow_mul]; congr 1; push_cast; ring
  rw [this, Real.sqrt_sq (by positivity)]

/-- An exponent made even. -/
theorem even_exponent (m : Nat) (e : Int) : ∃ z : Int, (if (e % 2 != 0) = true then e - 1 else e) = 2 * z ∧
    (m : Real) * 2 ^ e = ((if (e % 2 != 0) = true then 2 * m else m : Nat) : Real) * 2 ^ (2 * z) := by
  by_cases h : e % 2 = 0
  · refine ⟨e / 2, by simp [h]; omega, ?_⟩
    have : 2 * (e / 2) = e := by omega
    simp [h, this]
  · refine ⟨(e - 1) / 2, by simp [h]; omega, ?_⟩
    have : 2 * ((e - 1) / 2) = e - 1 := by omega
    rw [this]
    simp only [bne_iff_ne, ne_eq, h, not_false_eq_true, if_true]
    rw [zpow_sub₀ (by norm_num)]; push_cast; ring

theorem rootOf_spec {m : Nat} {e : Int} (hm : 0 < m) :
    Approx.Means (rootOf m e) (Real.sqrt (m * 2 ^ e)) ∧ 2 ^ 24 ≤ (rootOf m e).n := by
  obtain ⟨z, hz, hv⟩ := even_exponent m e
  unfold rootOf
  dsimp only
  rw [hz, Nat.shiftLeft_eq]
  have hmm : 0 < (if (e % 2 != 0) = true then 2 * m else m) := by split <;> omega
  generalize (if (e % 2 != 0) = true then 2 * m else m) = mm at *
  have he : (2 * z - 160) / 2 = z - 80 := by omega
  rw [he]
  have hA : 2 ^ 160 ≤ mm * 2 ^ 160 := Nat.le_mul_of_pos_left _ hmm
  have hsq : Real.sqrt (m * 2 ^ e) = Real.sqrt ((mm * 2 ^ 160 : Nat) : Real) * 2 ^ (z - 80) := by
    rw [hv, ← sqrt_zpow_even (z - 80), ← Real.sqrt_mul (by positivity)]
    congr 1
    rw [Nat.cast_mul, mul_assoc, Nat.cast_pow, Nat.cast_ofNat, ← zpow_natCast (2 : Real) 160, ← zpow_add₀ (by norm_num)]
    congr 2; push_cast; ring
  rw [hsq]
  generalize mm * 2 ^ 160 = A at *
  obtain ⟨h1, h2⟩ := isqrt_spec A
  obtain ⟨s1, s2, s3, s4⟩ := sqrt_between h1 h2
  have hr : 2 ^ 80 ≤ isqrt A := by
    by_contra hc
    have : isqrt A + 1 ≤ 2 ^ 80 := by omega
    have := Nat.mul_le_mul this this
    have e80 : 2 ^ 80 * 2 ^ 80 = 2 ^ 160 := by norm_num
    omega
  have hp : (0 : Real) < 2 ^ (z - 80) := by positivity
  refine ⟨⟨by show 0 < isqrt A; omega, fun h => ?_, fun h => ⟨?_, ?_⟩⟩, by show 2 ^ 24 ≤ isqrt A; omega⟩
  · dsimp only; rw [s3 (by simpa using h)]
  · dsimp only; exact mul_lt_mul_of_pos_right (s4 (by simpa using h)) hp
  · dsimp only; exact mul_lt_mul_of_pos_right s2 hp

theorem recipRoot_spec {m : Nat} {e : Int} (hm : 0 < m) :
    Approx.Means (recipRoot m e) (1 / Real.sqrt (m * 2 ^ e)) ∧ 2 ^ 24 ≤ (recipRoot m e).n := by
  obtain ⟨z, hz, hv⟩ := even_exponent m e
  unfold recipRoot
  dsimp only
  rw [hz]
  have hmm : 0 < (if (e % 2 != 0) = true then 2 * m else m) := by split <;> omega
  generalize (if (e % 2 != 0) = true then 2 * m else m) = mm at *
  have he : -(2 * z / 2) - 2 * (90 + (mm.log2 : Int)) / 2 = -z - (90 + mm.log2 : Nat) := by push_cast; omega
  have hl : mm < 2 ^ (mm.log2 + 1) := Nat.lt_log2_self
  have hc : ((2 * (90 + mm.log2) : Nat) : Int) = 2 * (90 + (mm.log2 : Int)) := by push_cast; ring
  rw [hc, he]
  have hbig : 2 ^ 178 ≤ 2 ^ (2 * (90 + mm.log2)) / mm := by
    rw [Nat.le_div_iff_mul_le hmm]
    calc 2 ^ 178 * mm ≤ 2 ^ 178 * 2 ^ (mm.log2 + 1) := Nat.mul_le_mul_left _ hl.le
      _ = 2 ^ (178 + (mm.log2 + 1)) := (pow_add 2 178 _).symm
      _ ≤ _ := Nat.pow_le_pow_right (by norm_num) (by omega)
  generalize 90 + mm.log2 = K at *
  obtain ⟨h1, h2⟩ := isqrt_spec (2 ^ (2 * K) / mm)
  generalize hr : isqrt (2 ^ (2 * K) / mm) = r at *
  have h1 : r * r * mm ≤ 2 ^ (2 * K) := (Nat.le_div_iff_mul_le hmm).1 h1
  have h2 : 2 ^ (2 * K) < (r + 1) * (r + 1) * mm := (Nat.div_lt_iff_lt_mul hmm).1 h2
  have hr0 : 2 ^ 80 ≤ r := by
    by_contra hcc
    have h3 : r + 1 ≤ 2 ^ 80 := by omega
    have h4 := Nat.mul_le_mul h3 h3
    have e80 : 2 ^ 80 * 2 ^ 80 = 2 ^ 160 := by norm_num
    have h5 := (Nat.le_div_iff_mul_le hmm).1 hbig
    have h6 : (r + 1) * (r + 1) * mm ≤ 2 ^ 178 * mm := Nat.mul_le_mul_right _ (by
      have : 2 ^ 160 ≤ 2 ^ 178 := Nat.pow_le_pow_right (by norm_num) (by norm_num)
      omega)
    omega
  have hmr : (0 : Real) < mm := by exact_mod_cast hmm
  -- the value
  have hval : 1 / Real.sqrt (m * 2 ^ e) = Real.sqrt ((2 : Real) ^ (2 * K) / mm) * 2 ^ (-z - (K : Int)) := by
    rw [hv, Real.sqrt_mul hmr.le, sqrt_zpow_even, Real.sqrt_div (by positivity), sub_eq_add_neg, zpow_add₀ (by norm_num), zpow_neg, zpow_neg, zpow_natCast]
    have : Real.sqrt ((2 : Real) ^ (2 * K)) = 2 ^ K := by rw [mul_comm, pow_mul, Real.sqrt_sq (by positivity)]
    rw [this]
    have : Real.sqrt (mm : Real) ≠ 0 := (Real.sqrt_pos.2 hmr).ne'
    have : (2 : Real) ^ z ≠ 0 := by positivity
    field_simp
  rw [hval]
  have hp : (0 : Real) < 2 ^ (-z - (K : Int)) := by positivity
  have h1r : (r : Real) * r * mm ≤ 2 ^ (2 * K) := by exact_mod_cast h1
  have h2r : (2 : Real) ^ (2 * K) < (r + 1) * (r + 1) * mm := by exact_mod_cast h2
  refine ⟨⟨by show 0 < r; omega, fun h => ?_, fun h => ⟨?_, ?_⟩⟩, by show 2 ^ 24 ≤ r; omega⟩
  · have h0 : r * r * mm = 2 ^ (2 * K) := by simpa using h
    have h0r : (r : Real) * r * mm = 2 ^ (2 * K) := by exact_mod_cast h0
    dsimp only
    rw [← h0r, mul_div_cancel_right₀ _ hmr.ne', Real.sqrt_mul_self (by positivity)]
  · have h0 : r * r * mm ≠ 2 ^ (2 * K) := by simpa using h
    have h0r : (r : Real) * r * mm < 2 ^ (2 * K) := by
      have : r * r * mm < 2 ^ (2 * K) := by omega
      exact_mod_cast this
    dsimp only
    refine mul_lt_mul_of_pos_right ((Real.lt_sqrt (by positivity)).2 ?_) hp
    rw [lt_div_iff₀ hmr]; nlinarith
  · dsimp only
    refine mul_lt_mul_of_pos_right ((Real.sqrt_lt' (by positivity)).2 ?_) hp
    rw [div_lt_iff₀ hmr]; nlinarith

end Sys2Proof.Machine
end

