-- ==== Sys2Proof/Tests/Slice0.lean ====
section
/-!
SUPPORT. Tests: ill-formed instructions that the checks refuse; words written out from the encoding tables of
the spec; a witness for the hypotheses of every obligation; and single steps with results taken from the spec.
-/
namespace Sys2Proof.Tests
open Sys2Proof Sys2Proof.Machine Sys2Proof.Claims
set_option Elab.async false

/-! ### The bench: one placed troupe with typed registers -/

/-- Tags of the bench's registers: 0 to 15 by code, then F32, block pairs, and 64-bit and DF32 pairs. -/
def benchTag (n : Nat) : Tag :=
  if n < 16 then tagOf n else if n < 40 then .f32 else if n = 40 then .bx8x4 else if n = 42 then .bx4x8
  else if n < 44 then .n32 else if n % 4 = 0 then .i64l else if n % 4 = 1 then .i64h else if n % 4 = 2 then .dfh else .dfl

/-- An issue of the placed troupe at address 0. -/
def issueOf (m : Mask) : Issue := { core := 0, blk := 0, troupe := 0, lanes := m, pc := 0 }

/-- A path all of whose lanes are active. -/
def path (m : Mask) (len : Nat) : Path := { at_ := issueOf m, active := m, len := len }

/-- The placed troupe with typed registers, about to issue: register n holds 4n in every lane. -/
def bench (m : Mask) (f : Troupe → Troupe) : State :=
  { (State.reset.seeded []).modTroupe 0 0 0 fun t => f { t with
      regs := (List.range 64).map fun n =>
        { tag := benchTag n, dead := false, lanes := List.replicate 64 (BitVec.ofNat 32 (4 * n)) } } with
    cur := some (issueOf m) }

/-- Lanes 0 and 1 of the bench. -/
def plain : State := bench 3 id

/-- Whether a path begins an instruction without E. -/
def canBegin (i : Instr) (h : Head) (s : State) (p : Path) : Bool :=
  !h.e && s.cur == some p.at_ && p.active != 0 &&
  (match (s.core p.core).troupe p.blk p.at_.troupe with
   | some t => (regBoundOf i t.regs.length).isNone
   | none => false) &&
  (List.range 64).all fun l => p.active.has l == (p.at_.lanes.has l && ((s.unselect.troupe p).lane l).pred h.g.toNat != h.gn)

/-- The state behind the instruction. -/
def behind (i : Instr) (s : State) (p : Path) : State := 
  (s.unselect.advance p).markReads p (lastReads i (s.unselect.troupe p) p.active)

theorem begins_of {i : Instr} {h : Head} {s : State} {p : Path} (hc : canBegin i h s p = true) :
    Begins i h p.len s p s.unselect (behind i s p) := by
  unfold canBegin at hc
  simp only [Bool.and_eq_true, Bool.not_eq_true', beq_iff_eq, bne_iff_ne, List.all_eq_true, List.mem_range] at hc
  obtain ⟨⟨⟨⟨he, hq⟩, ha⟩, hp⟩, hg⟩ := hc
  refine ⟨hq, ?_, by simp [he], rfl, fun l hl => ?_, ha, rfl⟩
  · split at hp
    · exact ⟨_, by assumption, by simpa using hp⟩
    · cases hp
  · rw [hg l hl]; simp

def isOk {ε α : Type} (x : Except ε α) : Bool := match x with | .ok _ => true | .error _ => false

theorem ok_of {ε α : Type} {x : Except ε α} (h : isOk x = true) : ∃ a, x = .ok a := by
  cases x with
  | ok a => exact ⟨a, rfl⟩
  | error => cases h

theorem bind_ok {ε α β : Type} {x : Except ε α} {g : α → Except ε β} {b : β} (h : (x >>= g) = .ok b) :
    ∃ a, x = .ok a ∧ g a = .ok b := by
  cases x with
  | ok a => exact ⟨a, rfl, h⟩
  | error => cases h

/-- What holds of lanes 0 and 1 holds of the active lanes. -/
theorem lanes_two {P : Nat → Prop} {n : Nat} (h0 : P 0) (h1 : P 1) : ∀ l, (path 3 n).active.has l = true → P l := by
  intro l hl
  change (3 : Mask).has l = true at hl
  have hk : l < 64 := by
    by_contra hc
    rw [Mask.has_ge _ _ (by omega)] at hl; cases hl
  have : l = 0 ∨ l = 1 := by
    revert hl; revert l
    decide
  rcases this with rfl | rfl <;> assumption

theorem mask_two {P : Nat → Prop} {n : Nat} (h0 : P 0) (h1 : P 1) :
    ∀ l, (3 : Mask).has l = true ↔ (path 3 n).active.has l = true ∧ P l :=
  fun l => ⟨fun h => ⟨h, lanes_two (n := n) h0 h1 l h⟩, And.left⟩

/-- A register form. -/
def rf (d a b c sub mod : Nat) : RForm :=
  { len := .l96, d := BitVec.ofNat 11 d, a := BitVec.ofNat 11 a, b := BitVec.ofNat 11 b, c := BitVec.ofNat 11 c
    sub := BitVec.ofNat 7 sub, la := false, lb := false, lc := false, mod := BitVec.ofNat 6 mod, pa := 0, pb := 0, pc := 0 }
def if_ (d a sub : Nat) (imm : Word) : IForm :=
  { len := .l96, d := BitVec.ofNat 11 d, a := BitVec.ofNat 11 a, la := false, sub := BitVec.ofNat 7 sub, mod := 0, imm := imm }
def cf (sub : Nat) : CForm := { off := 64, ka := 0, cp := 0, cn := false, sub := BitVec.ofNat 4 sub, imm := 5 }
def kf (sub imm : Nat) : KForm := { kd := 1, ka := 2, kb := 3, sub := BitVec.ofNat 6 sub, imm := BitVec.ofNat 24 imm }
def mf (d a sub : Nat) (off : Word) : MForm :=
  { d := BitVec.ofNat 11 d, a := BitVec.ofNat 11 a, kb := 0, sub := BitVec.ofNat 7 sub, ord := 0, def_ := false, la := false, ch := 0, off := off }
def xf (d a sub : Nat) (imm immB : Word) : XForm :=
  { d := BitVec.ofNat 11 d, a := BitVec.ofNat 11 a, ka := 0, kb := 0, kc := 0, sub := BitVec.ofNat 7 sub, imm := imm, immB := immB }

/-! ### Witnesses of the shapes of statements: states and operands that meet their hypotheses -/

def canDeliver (s : State) (p : Path) (d : Nat) : Bool := isOk (s.checkDst p d) && (portOf d).isNone

theorem deliverable_of {s s' : State} {p : Path} {d : Nat} {g : Tag} (h : canDeliver s p d = true) : Deliverable s s' p d g := by
  unfold canDeliver at h
  rw [Bool.and_eq_true, Option.isNone_iff_eq_none] at h
  obtain ⟨u, hu⟩ := ok_of h.1
  exact ⟨hu, by rw [h.2]; intro q hq; cases hq⟩

def MeetsOne (mk : Head → RForm → Instr) (acc : RForm → Tag → Bool) (tag : RForm → Tag → Tag) : Prop :=
  ∃ (h : Head) (f : RForm) (s : State) (p : Path) (s1 s2 : State) (x : Operand), Begins (mk h f) h f.len.bytes s p s1 s2 ∧
    s2.read1 p f.a.toNat f.pa.toNat (acc f) = .ok x ∧
    Deliverable s2 (s2.popPorts p [f.a.toNat]) p f.d.toNat (tag f x.tag)

theorem meets_one {mk : Head → RForm → Instr} {acc : RForm → Tag → Bool} {tag : RForm → Tag → Tag} (f : RForm) (s : State)
    (h : (let p := path 3 f.len.bytes
      let s2 := behind (mk noGuard f) s p
      canBegin (mk noGuard f) noGuard s p && isOk (s2.read1 p f.a.toNat f.pa.toNat (acc f)) && canDeliver s2 p f.d.toNat) = true) :
    MeetsOne mk acc tag := by
  simp only [Bool.and_eq_true] at h
  obtain ⟨⟨h1, h2⟩, h3⟩ := h
  obtain ⟨x, hx⟩ := ok_of h2
  exact ⟨noGuard, f, s, path 3 f.len.bytes, _, _, x, begins_of h1, hx, deliverable_of h3⟩

def MeetsTwo (mk : Head → RForm → Instr) (accA accB : RForm → Tag → Bool) (tag : RForm → Tag → Tag → Tag) : Prop :=
  ∃ (h : Head) (f : RForm) (s : State) (p : Path) (s1 s2 : State) (x y : Operand), Begins (mk h f) h f.len.bytes s p s1 s2 ∧
    s2.read2 p f.a.toNat f.pa.toNat (accA f) f.b.toNat f.pb.toNat (accB f) = .ok (x, y) ∧
    Deliverable s2 (s2.popPorts p [f.a.toNat, f.b.toNat]) p f.d.toNat (tag f x.tag y.tag)

theorem meets_two {mk : Head → RForm → Instr} {accA accB : RForm → Tag → Bool} {tag : RForm → Tag → Tag → Tag} (f : RForm) (s : State)
    (h : (let p := path 3 f.len.bytes
      let s2 := behind (mk noGuard f) s p
      canBegin (mk noGuard f) noGuard s p && isOk (s2.read2 p f.a.toNat f.pa.toNat (accA f) f.b.toNat f.pb.toNat (accB f)) &&
      canDeliver s2 p f.d.toNat) = true) : MeetsTwo mk accA accB tag := by
  simp only [Bool.and_eq_true] at h
  obtain ⟨⟨h1, h2⟩, h3⟩ := h
  obtain ⟨x, hx⟩ := ok_of h2
  exact ⟨noGuard, f, s, path 3 f.len.bytes, _, _, x.1, x.2, begins_of h1, hx, deliverable_of h3⟩

def MeetsThree (mk : Head → RForm → Instr) (acc accB : RForm → Tag → Bool) (tag : RForm → Tag) : Prop :=
  ∃ (h : Head) (f : RForm) (s : State) (p : Path) (s1 s2 : State) (x y z : Operand), Begins (mk h f) h f.len.bytes s p s1 s2 ∧
    s2.read3 p f.a.toNat f.pa.toNat f.b.toNat f.pb.toNat f.c.toNat f.pc.toNat (acc f) (accB f) = .ok (x, y, z) ∧
    Deliverable s2 (s2.popPorts p [f.a.toNat, f.b.toNat, f.c.toNat]) p f.d.toNat (tag f)

theorem meets_three {mk : Head → RForm → Instr} {acc accB : RForm → Tag → Bool} {tag : RForm → Tag} (f : RForm) (s : State)
    (h : (let p := path 3 f.len.bytes
      let s2 := behind (mk noGuard f) s p
      canBegin (mk noGuard f) noGuard s p &&
      isOk (s2.read3 p f.a.toNat f.pa.toNat f.b.toNat f.pb.toNat f.c.toNat f.pc.toNat (acc f) (accB f)) &&
      canDeliver s2 p f.d.toNat) = true) : MeetsThree mk acc accB tag := by
  simp only [Bool.and_eq_true] at h
  obtain ⟨⟨h1, h2⟩, h3⟩ := h
  obtain ⟨x, hx⟩ := ok_of h2
  exact ⟨noGuard, f, s, path 3 f.len.bytes, _, _, x.1, x.2.1, x.2.2, begins_of h1, hx, deliverable_of h3⟩

def MeetsImmediate (mk : Head → IForm → Instr) (acc : IForm → Tag → Bool) (tag : IForm → Tag → Tag) : Prop :=
  ∃ (h : Head) (f : IForm) (s : State) (p : Path) (s1 s2 : State) (x : Operand), Begins (mk h f) h f.len.bytes s p s1 s2 ∧
    s2.read1 p f.a.toNat 0 (acc f) = .ok x ∧ Deliverable s2 (s2.popPorts p [f.a.toNat]) p f.d.toNat (tag f x.tag)

theorem meets_immediate {mk : Head → IForm → Instr} {acc : IForm → Tag → Bool} {tag : IForm → Tag → Tag} (f : IForm) (s : State)
    (h : (let p := path 3 f.len.bytes
      let s2 := behind (mk noGuard f) s p
      canBegin (mk noGuard f) noGuard s p && isOk (s2.read1 p f.a.toNat 0 (acc f)) && canDeliver s2 p f.d.toNat) = true) :
    MeetsImmediate mk acc tag := by
  simp only [Bool.and_eq_true] at h
  obtain ⟨⟨h1, h2⟩, h3⟩ := h
  obtain ⟨x, hx⟩ := ok_of h2
  exact ⟨noGuard, f, s, path 3 f.len.bytes, _, _, x, begins_of h1, hx, deliverable_of h3⟩

def MeetsNone {F : Type} (mk : Head → F → Instr) (len : F → Nat) (d : F → Nat) (ok : F → Prop) (tag : F → Tag) : Prop :=
  ∃ (h : Head) (f : F) (s : State) (p : Path) (s1 s2 : State), Begins (mk h f) h (len f) s p s1 s2 ∧ ok f ∧
    Deliverable s2 s2 p (d f) (tag f)

theorem meets_none {F : Type} {mk : Head → F → Instr} {len : F → Nat} {d : F → Nat} {ok : F → Prop} {tag : F → Tag} (f : F) (s : State)
    (ho : ok f) (h : (let p := path 3 (len f)
      canBegin (mk noGuard f) noGuard s p && canDeliver (behind (mk noGuard f) s p) p (d f)) = true) : MeetsNone mk len d ok tag := by
  simp only [Bool.and_eq_true] at h
  exact ⟨noGuard, f, s, path 3 (len f), _, _, begins_of h.1, ho, deliverable_of h.2⟩

/-- The path of lanes 0 and 1 begins an instruction, which leaves the given state behind. -/
def Starts (i : Instr) (s : State) (p : Path) (s2 : State) : Prop := Begins i noGuard p.len s p s.unselect s2

theorem starts {i : Instr} {s : State} {p : Path} (h : canBegin i noGuard s p = true) : Starts i s p (behind i s p) := begins_of h

/-- Two source pairs and a free result pair. -/
def MeetsPairs (mk : Head → RForm → Instr) (lo hi : Tag) : Prop :=
  ∃ (h : Head) (f : RForm) (s : State) (p : Path) (s1 s2 : State) (x y : Operand × Operand), Begins (mk h f) h f.len.bytes s p s1 s2 ∧
    s2.readPair p 0 f.a.toNat f.pa.toNat lo hi = .ok x ∧ s2.readPair p 1 f.b.toNat f.pb.toNat lo hi = .ok y ∧
    (s2.troupe p).checkDest p [f.d.toNat, f.d.toNat + 1] = .ok ()

theorem meets_pairs {mk : Head → RForm → Instr} {lo hi : Tag} (f : RForm) (s : State)
    (h : (let p := path 3 f.len.bytes
      let s2 := behind (mk noGuard f) s p
      canBegin (mk noGuard f) noGuard s p && isOk (s2.readPair p 0 f.a.toNat f.pa.toNat lo hi) &&
      isOk (s2.readPair p 1 f.b.toNat f.pb.toNat lo hi) && isOk ((s2.troupe p).checkDest p [f.d.toNat, f.d.toNat + 1])) = true) :
    MeetsPairs mk lo hi := by
  simp only [Bool.and_eq_true] at h
  obtain ⟨⟨⟨h1, h2⟩, h3⟩, h4⟩ := h
  obtain ⟨x, hx⟩ := ok_of h2
  obtain ⟨y, hy⟩ := ok_of h3
  obtain ⟨_, hz⟩ := ok_of h4
  exact ⟨noGuard, f, s, path 3 f.len.bytes, _, _, x, y, begins_of h1, hx, hy, hz⟩

/-- A source pair, a single source and a free result pair. -/
def MeetsPairSingle (mk : Head → RForm → Instr) (lo hi : Tag) (acc : RForm → Tag → Bool) : Prop :=
  ∃ (h : Head) (f : RForm) (s : State) (p : Path) (s1 s2 : State) (x : Operand × Operand) (y : Operand),
    Begins (mk h f) h f.len.bytes s p s1 s2 ∧ s2.portsReady p [f.a.toNat, f.b.toNat] = .ok () ∧
    s2.readPair p 0 f.a.toNat f.pa.toNat lo hi = .ok x ∧ s2.operand p [f.a.toNat, f.b.toNat] 1 f.pb.toNat (acc f) = .ok y ∧
    (s2.troupe p).checkDest p [f.d.toNat, f.d.toNat + 1] = .ok ()

theorem meets_pair_single {mk : Head → RForm → Instr} {lo hi : Tag} {acc : RForm → Tag → Bool} (f : RForm) (s : State)
    (h : (let p := path 3 f.len.bytes
      let s2 := behind (mk noGuard f) s p
      canBegin (mk noGuard f) noGuard s p && isOk (s2.portsReady p [f.a.toNat, f.b.toNat]) &&
      isOk (s2.readPair p 0 f.a.toNat f.pa.toNat lo hi) && isOk (s2.operand p [f.a.toNat, f.b.toNat] 1 f.pb.toNat (acc f)) &&
      isOk ((s2.troupe p).checkDest p [f.d.toNat, f.d.toNat + 1])) = true) : MeetsPairSingle mk lo hi acc := by
  simp only [Bool.and_eq_true] at h
  obtain ⟨⟨⟨⟨h1, h0⟩, h2⟩, h3⟩, h4⟩ := h
  obtain ⟨_, hw⟩ := ok_of h0
  obtain ⟨x, hx⟩ := ok_of h2
  obtain ⟨y, hy⟩ := ok_of h3
  obtain ⟨_, hz⟩ := ok_of h4
  exact ⟨noGuard, f, s, path 3 f.len.bytes, _, _, x, y, begins_of h1, hw, hx, hy, hz⟩

/-- One or two sources and a free result pair. -/
def MeetsOneToPair (mk : Head → RForm → Instr) (ok : RForm → Prop) (acc : RForm → Tag → Bool) : Prop :=
  ∃ (h : Head) (f : RForm) (s : State) (p : Path) (s1 s2 : State) (x : Operand), Begins (mk h f) h f.len.bytes s p s1 s2 ∧ ok f ∧
    s2.read1 p f.a.toNat f.pa.toNat (acc f) = .ok x ∧ (s2.troupe p).checkDest p [f.d.toNat, f.d.toNat + 1] = .ok ()

theorem meets_one_to_pair {mk : Head → RForm → Instr} {ok : RForm → Prop} {acc : RForm → Tag → Bool} (f : RForm) (s : State) (ho : ok f)
    (h : (let p := path 3 f.len.bytes
      let s2 := behind (mk noGuard f) s p
      canBegin (mk noGuard f) noGuard s p && isOk (s2.read1 p f.a.toNat f.pa.toNat (acc f)) &&
      isOk ((s2.troupe p).checkDest p [f.d.toNat, f.d.toNat + 1])) = true) : MeetsOneToPair mk ok acc := by
  simp only [Bool.and_eq_true] at h
  obtain ⟨⟨h1, h2⟩, h3⟩ := h
  obtain ⟨x, hx⟩ := ok_of h2
  obtain ⟨_, hz⟩ := ok_of h3
  exact ⟨noGuard, f, s, path 3 f.len.bytes, _, _, x, begins_of h1, ho, hx, hz⟩

def MeetsTwoToPair (mk : Head → RForm → Instr) (ok : RForm → Prop) (acc : RForm → Tag → Bool) : Prop :=
  ∃ (h : Head) (f : RForm) (s : State) (p : Path) (s1 s2 : State) (x y : Operand), Begins (mk h f) h f.len.bytes s p s1 s2 ∧ ok f ∧
    s2.read2 p f.a.toNat f.pa.toNat (acc f) f.b.toNat f.pb.toNat (acc f) = .ok (x, y) ∧
    (s2.troupe p).checkDest p [f.d.toNat, f.d.toNat + 1] = .ok ()

theorem meets_two_to_pair {mk : Head → RForm → Instr} {ok : RForm → Prop} {acc : RForm → Tag → Bool} (f : RForm) (s : State) (ho : ok f)
    (h : (let p := path 3 f.len.bytes
      let s2 := behind (mk noGuard f) s p
      canBegin (mk noGuard f) noGuard s p && isOk (s2.read2 p f.a.toNat f.pa.toNat (acc f) f.b.toNat f.pb.toNat (acc f)) &&
      isOk ((s2.troupe p).checkDest p [f.d.toNat, f.d.toNat + 1])) = true) : MeetsTwoToPair mk ok acc := by
  simp only [Bool.and_eq_true] at h
  obtain ⟨⟨h1, h2⟩, h3⟩ := h
  obtain ⟨x, hx⟩ := ok_of h2
  obtain ⟨_, hz⟩ := ok_of h3
  exact ⟨noGuard, f, s, path 3 f.len.bytes, _, _, x.1, x.2, begins_of h1, ho, hx, hz⟩

/-! ### Witnesses: integers, bits and moves -/

theorem witness_IntegerOperations :
    MeetsTwo .iadd typed typed (fun f _ _ => (typeOf f).tag) ∧ MeetsTwo .isub typed typed (fun f _ _ => (typeOf f).tag) ∧
    MeetsTwo .imul typed typed (fun f _ _ => (typeOf f).tag) ∧ MeetsTwo .imin typed typed (fun f _ _ => (typeOf f).tag) ∧
    MeetsTwo .imax typed typed (fun f _ _ => (typeOf f).tag) ∧ MeetsThree .imad typed typed (fun f => (typeOf f).tag) ∧
    MeetsOne .iabs typed (fun f _ => (typeOf f).tag) ∧
    MeetsTwo .imulh typed typed (fun f _ _ => (typeOf f).tag) ∧ MeetsTwo .idiv typed typed (fun f _ _ => (typeOf f).tag) ∧
    MeetsTwo .irem typed typed (fun f _ _ => (typeOf f).tag) :=
  ⟨meets_two (rf 60 1 1 0 0 8) plain (by decide +kernel), meets_two (rf 60 2 2 0 1 0) plain (by decide +kernel),
   meets_two (rf 60 7 7 0 3 0) plain (by decide +kernel), meets_two (rf 60 6 6 0 2 0) plain (by decide +kernel),
   meets_two (rf 60 8 8 0 4 0) plain (by decide +kernel), meets_three (rf 1 1 1 1 0 0) plain (by decide +kernel),
   meets_one (rf 63 1 0 0 0 0) plain (by decide +kernel), meets_two (rf 0 1 1 0 0 0) plain (by decide +kernel),
   meets_two (rf 60 1 1 0 0 0) plain (by decide +kernel), meets_two (rf 60 2 2 0 1 0) plain (by decide +kernel)⟩

theorem witness_BitwiseAndShifts :
    MeetsTwo .and anyTag anyTag (fun _ => sameOrRaw) ∧ MeetsTwo .or anyTag anyTag (fun _ => sameOrRaw) ∧
    MeetsTwo .xor anyTag anyTag (fun _ => sameOrRaw) ∧ MeetsTwo .andn anyTag anyTag (fun _ => sameOrRaw) ∧
    MeetsTwo .shl typed word32 (fun f _ _ => (typeOf f).tag) ∧ MeetsTwo .shr typed word32 (fun f _ _ => (typeOf f).tag) ∧
    MeetsTwo .rot typed word32 (fun f _ _ => (typeOf f).tag) ∧ MeetsTwo .sar typed word32 (fun f _ _ => (typeOf f).tag) :=
  ⟨meets_two (rf 60 1 2 0 0 0) plain (by decide +kernel), meets_two (rf 60 15 15 0 0 0) plain (by decide +kernel),
   meets_two (rf 60 3 44 0 0 0) plain (by decide +kernel), meets_two (rf 60 9 10 0 0 0) plain (by decide +kernel),
   meets_two (rf 60 1 2 0 0 0) plain (by decide +kernel), meets_two (rf 60 2 2 0 1 0) plain (by decide +kernel),
   meets_two (rf 60 8 1 0 4 0) plain (by decide +kernel), meets_two (rf 60 7 1 0 3 0) plain (by decide +kernel)⟩

theorem witness_BitFields :
    MeetsOne .popc typed (fun _ _ => .n32) ∧ MeetsOne .clz typed (fun _ _ => .n32) ∧ MeetsOne .brev typed (fun _ g => g) ∧
    MeetsTwo .bfx typed word32 (fun f _ _ => (typeOf f).tag) ∧ MeetsThree .bfi typed word32 (fun f => (typeOf f).tag) :=
  ⟨meets_one (rf 60 2 0 0 1 0) plain (by decide +kernel), meets_one (rf 60 2 0 0 1 0) plain (by decide +kernel),
   meets_one (rf 60 1 0 0 0 0) plain (by decide +kernel), meets_two (rf 60 1 2 0 0 0) plain (by decide +kernel),
   meets_three (rf 60 1 2 1 0 0) plain (by decide +kernel)⟩

theorem witness_SelectsByPredicate : MeetsTwo .sel anyTag anyTag (fun _ => sameOrRaw) :=
  meets_two (rf 60 1 3 0 64 0) plain (by decide +kernel)

theorem witness_IntegerCompares :
    (Starts (.icmp noGuard (rf 3 1 1 0 40 0)) plain (path 3 12) (behind (.icmp noGuard (rf 3 1 1 0 40 0)) plain (path 3 12)) ∧
      isOk ((behind (.icmp noGuard (rf 3 1 1 0 40 0)) plain (path 3 12)).read2 (path 3 12) 1 0 (typed (rf 3 1 1 0 40 0))
        1 0 (typed (rf 3 1 1 0 40 0))) = true) ∧
    MeetsImmediate .icmpi (fun f g => g == (immType f).tag) (fun _ g => g) :=
  ⟨⟨starts (by decide +kernel), by decide +kernel⟩, meets_immediate (if_ 3 1 10 7) plain (by decide +kernel)⟩

theorem witness_PairResults :
    MeetsPairs .iadd64 .i64l .i64h ∧ MeetsPairs .isub64 .i64l .i64h ∧ MeetsTwoToPair .imulw (fun _ => True) typed ∧
    MeetsPairSingle .lea .i64l .i64h typed :=
  ⟨meets_pairs (rf 62 44 48 0 0 8) plain (by decide +kernel), meets_pairs (rf 62 44 48 0 1 0) plain (by decide +kernel),
   meets_two_to_pair (rf 62 1 1 0 0 0) plain trivial (by decide +kernel),
   meets_pair_single (rf 62 44 1 0 56 0) plain (by decide +kernel)⟩

theorem witness_ImmediateOperations :
    let ofType (f : IForm) (g : Tag) : Bool := g == (immType f).tag
    let some_ (_ : IForm) (g : Tag) : Bool := g != .undef
    MeetsImmediate .iaddi ofType (fun f _ => (immType f).tag) ∧ MeetsImmediate .imuli ofType (fun f _ => (immType f).tag) ∧
    MeetsImmediate .andi some_ (fun _ g => g) ∧ MeetsImmediate .ori some_ (fun _ g => g) ∧ MeetsImmediate .xori some_ (fun _ g => g) ∧
    MeetsImmediate .shli ofType (fun f _ => (immType f).tag) ∧ MeetsImmediate .shri ofType (fun f _ => (immType f).tag) ∧
    MeetsImmediate .sari ofType (fun f _ => (immType f).tag) ∧
    MeetsNone .movi (fun f => f.len.bytes) (fun f => f.d.toNat) (fun _ => True) (fun f => tagOf f.sub.toNat) :=
  ⟨meets_immediate (if_ 60 1 0 0xFFFFFFFF) plain (by decide +kernel), meets_immediate (if_ 60 2 1 3) plain (by decide +kernel),
   meets_immediate (if_ 60 3 0 1) plain (by decide +kernel), meets_immediate (if_ 60 15 0 1) plain (by decide +kernel),
   meets_immediate (if_ 60 44 0 1) plain (by decide +kernel), meets_immediate (if_ 60 1 0 31) plain (by decide +kernel),
   meets_immediate (if_ 60 2 1 32) plain (by decide +kernel), meets_immediate (if_ 60 1 0 31) plain (by decide +kernel),
   meets_none (if_ 60 0 3 0x3F800000) plain trivial (by decide +kernel)⟩

theorem witness_LaneShuffle : MeetsTwo .shfl anyTag word32 (fun _ g _ => g) := meets_two (rf 60 3 2 0 0 0) plain (by decide +kernel)

theorem witness_MovesAndTags :
    MeetsOne .mov anyTag (fun _ g => g) ∧
    MeetsNone .movk (fun f => f.len.bytes) (fun f => f.d.toNat) (fun f => f.sub.toNat % 16 ≠ 0xB) (fun f => tagOf (f.sub.toNat % 16)) ∧
    MeetsOneToPair .movk (fun f => f.sub.toNat % 16 = 0xB) anyTag ∧
    MeetsOne .reint anyTag (fun f _ => tagOf f.sub.toNat) ∧
    (∀ f, f = rf 62 44 0 0 0xD 0 → let i := Instr.reint noGuard f
      let s2 := behind i plain (path 3 12)
      Starts i plain (path 3 12) s2 ∧
      (s2.troupe (path 3 12)).checkSource (path 3 12) 0 [(f.a.toNat, anyTag f), (f.a.toNat + 1, anyTag f)] = .ok () ∧
      (s2.troupe (path 3 12)).checkDest (path 3 12) [f.d.toNat, f.d.toNat + 1] = .ok ()) :=
  ⟨meets_one (rf 60 1 0 0 0 0) plain (by decide +kernel), meets_none (rf 60 1 0 0 0x11 0) plain (by decide) (by decide +kernel),
   meets_one_to_pair (rf 62 1 0 0 0xB 0) plain (by decide) (by decide +kernel),
   meets_one (rf 60 1 0 0 2 0) plain (by decide +kernel),
   fun f hf => by subst hf; exact ⟨starts (by decide +kernel), by decide +kernel, by decide +kernel⟩⟩

/-- The bench with index register 1 naming registers 16 and 17. -/
def indexed : State := bench 3 fun t => { t with
  bounds := t.bounds.set 1 (16, 63)
  lanes := t.lanes.mapIdx fun l x => { x with idx := x.idx.set 1 (if l = 0 then 16 else 62) } }

theorem witness_IndexedMoves :
    (let i := Instr.mov noGuard (rf 60 9 0 0 16 0)
     let t := (behind i indexed (path 3 12)).troupe (path 3 12)
     let name (v l : Nat) : Nat := ((t.lane l).idx.getD (v % 8) 0).toNat + v / 8
     Starts i indexed (path 3 12) (behind i indexed (path 3 12)) ∧
     (∀ l, (path 3 12).active.has l = true → 16 ≤ name 9 l ∧ name 9 l ≤ 63) ∧
     (∀ l, (path 3 12).active.has l = true →
      (t.reg (name 9 l)).dead = false ∧ t.pending (name 9 l) = false ∧ (t.reg (name 9 l)).tag ≠ .undef) ∧
     (t.reg (name 9 0)).tag ≠ (t.reg (name 9 1)).tag) ∧
    (let i := Instr.mov noGuard (rf 9 3 0 0 8 0)
     let s2 := behind i indexed (path 3 12)
     let t := s2.troupe (path 3 12)
     let name (v l : Nat) : Nat := ((t.lane l).idx.getD (v % 8) 0).toNat + v / 8
     Starts i indexed (path 3 12) s2 ∧ isOk (s2.read1 (path 3 12) 3 0 (anyTag (rf 9 3 0 0 8 0))) = true ∧
     ∀ l, (path 3 12).active.has l = true → 16 ≤ name 9 l ∧ name 9 l ≤ 63 ∧ t.pending (name 9 l) = false) :=
  ⟨⟨starts (by decide +kernel), lanes_two (by decide +kernel) (by decide +kernel), lanes_two (by decide +kernel) (by decide +kernel),
    by decide +kernel⟩, starts (by decide +kernel), by decide +kernel,
   lanes_two (by decide +kernel) (by decide +kernel)⟩

/-! ### Witnesses: uniform registers, predicates, system registers and control -/

/-- Instructions that begin on lanes 0 and 1 of a state. -/
def allBegin (s : State) (is : List (Instr × Nat)) : Prop := ∀ x ∈ is, Starts x.1 s (path 3 x.2) (behind x.1 s (path 3 x.2))

theorem all_begin {s : State} {is : List (Instr × Nat)} (h : (is.all fun x => canBegin x.1 noGuard s (path 3 x.2)) = true) :
    allBegin s is := fun x hx => starts (List.all_eq_true.1 h x hx)

theorem witness_UniformOperations :
    allBegin plain [(.kmov noGuard (kf 0 0), 8), (.kadd noGuard (kf 0 0), 8), (.ksub noGuard (kf 1 0xFFFFFF), 8), (.kmul noGuard (kf 0 0), 8),
      (.kand noGuard (kf 0 0), 8), (.kor noGuard (kf 0 0), 8), (.kxor noGuard (kf 1 5), 8), (.kshl noGuard (kf 1 63), 8),
      (.kshr noGuard (kf 1 64), 8), (.ksar noGuard (kf 1 63), 8), (.kmin noGuard (kf 2 0), 8), (.kmax noGuard (kf 2 0), 8),
      (.ksel noGuard (kf 16 0), 8), (.kldi noGuard (kf 0 0x800000), 8), (.kldi128 noGuard { kd := 63, imm := 5 }, 16),
      (.kred noGuard (kf 7 0), 8), (.kcmp noGuard (kf 22 0), 8)] ∧
    (kf 22 0).sub.toNat / 4 % 8 < 6 :=
  ⟨all_begin (by decide +kernel), by decide⟩

theorem witness_Predicates :
    allBegin plain [(.pand noGuard (rf 1 2 3 0 3 0), 8), (.por noGuard (rf 15 2 3 0 0 0), 8), (.pxor noGuard (rf 0 2 3 0 0 0), 8),
      (.pnot noGuard (rf 1 2 0 0 0 0), 8), (.pset noGuard (rf 1 7 0 0 3 0), 8), (.pmov noGuard (rf 1 2 0 0 0 0), 8),
      (.pmov noGuard (rf 1 2 0 0 1 0), 8), (.pmov noGuard (rf 60 2 0 0 2 0), 8), (.pbal noGuard (rf 63 2 0 0 1 0), 8),
      (.pany noGuard (rf 7 2 0 0 0 0), 8), (.pall noGuard (rf 7 2 0 0 0 0), 8), (.pelect noGuard (rf 1 2 0 0 1 0), 8)] ∧
    isOk ((behind (.pmov noGuard (rf 1 2 0 0 1 0)) plain (path 3 8)).read1 (path 3 8) 2 0 (anyTag (rf 1 2 0 0 1 0))) = true ∧
    MeetsNone .pmov (fun _ => 8) (fun f => f.d.toNat) (fun f => f.sub = 2) (fun _ => .n32) :=
  ⟨all_begin (by decide +kernel), by decide +kernel, meets_none (rf 60 2 0 0 2 0) plain (by decide) (by decide +kernel)⟩

theorem witness_IndexRegisters :
    MeetsImmediate .idxset (fun _ g => g == .i32 || g == .n32) (fun _ g => g) ∧
    allBegin plain [(.idxset noGuard (if_ 7 0 1 0x003F0000), 12), (.idxadd noGuard (if_ 7 3 0 0xFFFFFFFF), 12)] :=
  ⟨meets_immediate (if_ 7 2 0 0x003F0000) plain (by decide +kernel), all_begin (by decide +kernel)⟩

theorem witness_SystemRegisters :
    allBegin plain [(.movx noGuard (if_ 63 0 0 0x00F), 12), (.movc noGuard { kf 0 0x020 with ka := 9 }, 8), (.movc noGuard (kf 1 0x17F), 8),
      (.movc noGuard (kf 2 0x021), 8), (.movc noGuard (kf 0 0x030), 8), (.movc noGuard (kf 0 0x020), 8)] ∧
    MeetsNone .movx (fun f => f.len.bytes) (fun f => f.d.toNat) (fun f => f.sub = 1) (fun _ => .n32) ∧
    (let i := Instr.movx noGuard (if_ 62 0 2 0)
     Starts i plain (path 3 12) (behind i plain (path 3 12)) ∧
     ((behind i plain (path 3 12)).troupe (path 3 12)).checkDest (path 3 12) [62, 63] = .ok ()) ∧
    (∀ n ∈ [0x020, 0x021, 0x022, 0x030, 0x031, 0x17F], ∃ v, SystemValue plain (path 3 8) n 0 v) := by
  refine ⟨all_begin (by decide +kernel), meets_none (if_ 60 0 1 0x010) plain (by decide) (by decide +kernel),
    ⟨starts (by decide +kernel), by decide +kernel⟩, fun n hn => ?_⟩
  simp only [List.mem_cons, List.not_mem_nil, or_false] at hn
  rcases hn with rfl | rfl | rfl | rfl | rfl | rfl
  · exact ⟨(plain.troupe (path 3 8)).fmode.setWidth 64, by simp [SystemValue]⟩
  · exact ⟨(plain.troupe (path 3 8)).fstat.setWidth 64, by simp [SystemValue]⟩
  · exact ⟨if (plain.troupe (path 3 8)).satt then 0x20 else 0, by simp [SystemValue]⟩
  · exact ⟨0, by simp [SystemValue]; decide +kernel⟩
  · exact ⟨if (plain.core 0).inject then 1 else 0, by simp [SystemValue]; rfl⟩
  · exact ⟨((plain.troupe (path 3 8)).tileField 15 7).setWidth 64, by simp [SystemValue]; rfl⟩

/-- The bench with uniform predicate 0 set, uniform registers 2 and 5 at 1 and 64, a call on the stacks of lanes 0 and 1,
and a misaligned target in register pair 44 of lane 1. -/
def calling (depth : Nat) : State := bench 3 fun t => { t with
  c := 1
  k := (t.k.set 2 1).set 5 64
  regs := t.regs.set 44 { tag := .i64l, dead := false, lanes := [8, 6] }
  lanes := t.lanes.mapIdx fun l x => if l < 2 then { x with depth := depth, ret := List.replicate (min depth 8) 8 } else x }

theorem witness_Branches :
    allBegin (calling 0) [(.bra noGuard (cf 1), 8), (.bra noGuard { cf 1 with cn := true }, 8), (.bru noGuard (cf 0), 8),
      (.bru noGuard { cf 1 with cn := true }, 8), (.loop noGuard { cf 0 with ka := 2 }, 8), (.loop noGuard { cf 0 with ka := 5 }, 8)] ∧
    condOf (cf 1) (calling 0) (path 3 8) ∧ ¬condOf { cf 1 with cn := true } (calling 0) (path 3 8) ∧ condOf (cf 0) (calling 0) (path 3 8) ∧
    ((calling 0).troupe (path 3 8)).kreg 2 - 1 = 0 ∧ ((calling 0).troupe (path 3 8)).kreg 5 - 1 ≠ 0 :=
  ⟨all_begin (by decide +kernel), .inr (by decide +kernel), fun h => by
    rcases h with h | h
    · exact absurd h (by decide)
    · exact absurd h (by decide +kernel), .inl (by decide), by decide +kernel, by decide +kernel⟩

theorem witness_NopFenceStep :
    allBegin plain [(.nop noGuard { len := .l128 }, 16), (.fence noGuard (mf 0 0 0 0), 12), (.step noGuard (cf 0), 8)] := all_begin (by decide +kernel)

/-- The target pairs of an indirect branch: lane 0 aligned, lane 1 not. -/
theorem witness_IndirectBranch :
    (∃ x, Starts (.brx noGuard (rf 0 48 0 0 0 0)) plain (path 3 8) (behind (.brx noGuard (rf 0 48 0 0 0 0)) plain (path 3 8)) ∧
      (behind (.brx noGuard (rf 0 48 0 0 0 0)) plain (path 3 8)).readPair (path 3 8) 0 48 0 .i64l .i64h = .ok x ∧
      ∀ l, (path 3 8).active.has l = true → (pairValue x l).toNat % 4 = 0) ∧
    ∃ x, Starts (.brx noGuard (rf 0 44 0 0 0 0)) (calling 0) (path 3 8) (behind (.brx noGuard (rf 0 44 0 0 0 0)) (calling 0) (path 3 8)) ∧
      (behind (.brx noGuard (rf 0 44 0 0 0 0)) (calling 0) (path 3 8)).readPair (path 3 8) 0 44 0 .i64l .i64h = .ok x ∧
      (pairValue x 0).toNat % 4 = 0 ∧ (pairValue x 1).toNat % 4 ≠ 0 :=
  ⟨⟨({ tag := .i64l, lanes := List.replicate 64 192 }, { tag := .i64h, lanes := List.replicate 64 196 }), starts (by decide +kernel),
    by decide +kernel, lanes_two (by decide +kernel) (by decide +kernel)⟩,
   ({ tag := .i64l, lanes := [8, 6] ++ List.replicate 62 0 }, { tag := .i64h, lanes := List.replicate 64 180 }), starts (by decide +kernel),
    by decide +kernel, by decide +kernel, by decide +kernel⟩

/-- A state whose core 0 translates 2 MiB of partition 0 from address 0, and from its private area, to writable device memory. -/
def mapped (s : State) : State :=
  let x (va pa : Nat) : Xlate :=
    { va := va, size := 2097152, pa := pa, host := false, peer := false, writable := true, scope := 2, conf := false, repl := false }
  s.modCore 0 fun k => { k with tlb := [{ part := 0, pasid := 0, x := x 0 4194304 }, { part := 0, pasid := 0, x := x (privArea 0 0).1 8388608 }] }

/-- Calls at depth 0, 7 (the last hardware entry), 8 (the first that spills), 263 and 264. -/
theorem witness_CallsAndReturns :
    (∀ n ∈ [0, 7, 8, 263, 264], allBegin (calling n) [(.call noGuard (cf 1), 8), (.call noGuard { cf 1 with cn := true }, 8),
      (.callx noGuard (rf 0 48 0 0 0 0), 8), (.ret noGuard (cf 0), 8), (.ret noGuard { cf 1 with cn := true }, 8)]) ∧
    (∀ l, (path 3 8).active.has l = true → (((calling 7).troupe (path 3 8)).lane l).depth < 8) ∧
    (∀ l, (path 3 8).active.has l = true → (((calling 264).troupe (path 3 8)).lane l).depth = 264) ∧
    (∀ l, (path 3 8).active.has l = true → (((calling 0).troupe (path 3 8)).lane l).depth = 0) ∧
    (let s := calling 263
     let s := mapped s
     isOk (do
       let hs ← s.accessIn (path 3 8) .priv 4 true false ((s.block (path 3 8)).priv + 2048) (spills s (path 3 8))
       (s.touchHits (path 3 8) hs).storeHits (path 3 8) hs (fun l => (((s.troupe (path 3 8)).lane l).ret.getD 7 0).toNat)) = true ∧
     isOk (s.accessIn (path 3 8) .priv 4 false false ((s.block (path 3 8)).priv + 2048) (refills s (path 3 8))) = true) :=
  ⟨fun n hn => by
    simp only [List.mem_cons, List.not_mem_nil, or_false] at hn
    rcases hn with rfl | rfl | rfl | rfl | rfl <;> exact all_begin (by decide +kernel),
   lanes_two (by decide +kernel) (by decide +kernel), lanes_two (by decide +kernel) (by decide +kernel),
   lanes_two (by decide +kernel) (by decide +kernel), by decide +kernel⟩

/-! ### Witnesses: departures, faults and memory -/

/-- The bench with a deferred access of lane 0, returned or not. -/
def deferring (returned : Bool) : State := bench 3 fun t => { t with
  deferred := [{ rid := 5, lanes := 1, fresh := 1, data := [], pieces := [], kind := 4, returned := returned, poison := none, kept := [], peer := false }] }

theorem witness_DepartAndSleep :
    (∀ b, allBegin (deferring b) [(.depart noGuard (cf 0), 8)] ∧
      isOk (let s2 := behind (.depart noGuard (cf 0)) (deferring b) (path 3 8)
        s2.depart (path 3 8) .deferred ((path 3 8).at_.pc + 8) 0 fun r => { r with peer := (s2.troupe (path 3 8)).deferred.any fun d =>
          d.lanes &&& (path 3 8).at_.lanes != 0 && d.peer && !d.returned }) = true) ∧
    (∃ d ∈ ((deferring false).troupe (path 3 8)).deferred, (d.lanes &&& (path 3 8).at_.lanes != 0) = true ∧ d.poison = none ∧ d.returned = false) ∧
    (∀ d ∈ ((deferring true).troupe (path 3 8)).deferred, d.returned = true) ∧
    allBegin (calling 0) [(.sleep noGuard (cf 0), 8), (.sleep noGuard { cf 2 with ka := 0 }, 8), (.sleep noGuard { cf 2 with ka := 2 }, 8)] ∧
    isOk ((behind (.sleep noGuard (cf 0)) (calling 0) (path 3 8)).depart (path 3 8) (.time 320) ((path 3 8).at_.pc + 8) 0 id) = true :=
  ⟨fun b => by cases b <;> exact ⟨all_begin (by decide +kernel), by decide +kernel⟩, by decide +kernel, by decide +kernel,
    all_begin (by decide +kernel), by decide +kernel⟩

theorem witness_DepartureRecord :
    (path 3 8).core < plain.cores.length ∧ (∃ u, (plain.core 0).troupe 0 0 = some u ∧ u.lanes.length = 64) ∧
    (isOk (plain.depart (path 3 8) .data 8 0 id) && isOk (plain.depart (path (BitVec.allOnes 64) 8) .data 8 0 id)) = true := by
  refine ⟨by decide +kernel, ?_, by decide +kernel⟩
  have h : (((plain.core 0).troupe 0 0).map fun u => u.lanes.length) = some 64 := by decide +kernel
  rw [Option.map_eq_some_iff] at h
  exact h

/-- A state whose launch is changed. -/
def launching (s : State) (f : Launch → Launch) : State :=
  { s with sched := { s.sched with launches := s.sched.launches.map f } }

theorem witness_TrapsAndBreakpoints :
    allBegin plain [(.trap noGuard (cf 0), 8), (.bkpt noGuard (cf 0), 8)] ∧
    allBegin (launching plain fun l => { l with debug := true }) [(.bkpt noGuard (cf 0), 8)] ∧
    ((plain.launchOf 0 0).map (·.debug)) = some false ∧
    (((launching plain fun l => { l with debug := true }).launchOf 0 0).map (·.debug)) = some true :=
  ⟨all_begin (by decide +kernel), all_begin (by decide +kernel), by decide +kernel, by decide +kernel⟩

/-- Two lanes of 64 exit, and the last two exit. -/
theorem witness_LanesExit :
    let last := bench 3 fun t => { t with lanes := t.lanes.mapIdx fun l x => if l < 2 then x else { x with place := .ended } }
    allBegin plain [(.exit noGuard (cf 0), 8)] ∧ allBegin last [(.exit noGuard (cf 0), 8), (.exit noGuard (cf 1), 8)] ∧
    condOf (cf 0) last (path 3 8) ∧ ¬condOf (cf 1) last (path 3 8) ∧
    isOk (plain.performPushes 0 0 0 3) = true ∧ isOk (last.performPushes 0 0 0 3) = true ∧
    ((plain.troupe (path 3 8)).lane 2).place ≠ .ended ∧ (∀ l, l < 64 → (path 3 8).active.has l = false → ((last.troupe (path 3 8)).lane l).place = .ended) :=
  ⟨all_begin (by decide +kernel), all_begin (by decide +kernel), .inl (by decide), fun h => by
    rcases h with h | h
    · exact absurd h (by decide)
    · exact absurd h (by decide +kernel), by decide +kernel, by decide +kernel, by decide +kernel, by decide +kernel⟩

/-- What LDL and STL ask of their operand, at the end of the window. -/
theorem local_fits (f : MForm) (s : State) (x : Operand) (hx : s.memIndex (path 3 12) f (f.sub.toNat / 16) = .ok x)
    (h : ([0, 1].all fun l =>
      let o := (addressOf f (accessSize f) (s.kAt (path 3 12) f.kb.toNat) x l).toNat
      decide (o % accessSize f = 0 ∧ o + accessSize f ≤ (s.block (path 3 12)).size ∧
        s.lockers 0 true (s.ownerOf 0 0) { lo := (s.block (path 3 12)).base + o, hi := (s.block (path 3 12)).base + o + accessSize f } = [])) = true) :
    LocalFits s (path 3 12) f x := by
  rw [List.all_eq_true] at h
  exact ⟨hx, lanes_two (of_decide_eq_true (h 0 (by simp))) (of_decide_eq_true (h 1 (by simp)))⟩

theorem witness_LocalLoadsAndStores :
    (∃ x, Starts (.ldl noGuard (mf 60 2 0x56 0xFFF4)) plain (path 3 12) (behind (.ldl noGuard (mf 60 2 0x56 0xFFF4)) plain (path 3 12)) ∧
      LocalFits (behind (.ldl noGuard (mf 60 2 0x56 0xFFF4)) plain (path 3 12)) (path 3 12) (mf 60 2 0x56 0xFFF4) x) ∧
    (∃ x, Starts (.stl noGuard (mf 44 2 0x5D 0xFFF0)) plain (path 3 12) (behind (.stl noGuard (mf 44 2 0x5D 0xFFF0)) plain (path 3 12)) ∧
      LocalFits (behind (.stl noGuard (mf 44 2 0x5D 0xFFF0)) plain (path 3 12)) (path 3 12) (mf 44 2 0x5D 0xFFF0) x) ∧
    ((behind (.stl noGuard (mf 44 2 0x5D 0xFFF0)) plain (path 3 12)).troupe (path 3 12)).checkData (path 3 12) 13 44 = .ok () ∧
    ((behind (.ldl noGuard (mf 60 2 0x56 0xFFF4)) plain (path 3 12)).troupe (path 3 12)).checkDest (path 3 12) [60] = .ok () ∧
    (plain.core 0).mem.wf = true :=
  ⟨⟨{ tag := .n32, lanes := List.replicate 64 8 }, starts (by decide +kernel), local_fits _ _ _ (by decide +kernel) (by decide +kernel)⟩,
   ⟨{ tag := .n32, lanes := List.replicate 64 8 }, starts (by decide +kernel), local_fits _ _ _ (by decide +kernel) (by decide +kernel)⟩,
   by decide +kernel, by decide +kernel, by decide +kernel⟩

/-- The bench with translated memory. -/
def device : State := mapped plain

/-- Memories in canonical form, and nothing that a comparison could fail for. -/
theorem quiet_of {s : State} (h : (s.memoriesWf && s.localsWf && !s.sirip.cinj.getLsbD 0) = true) (hu : s.expected = none) : Quiet s := by
  simp only [Bool.and_eq_true, Bool.not_eq_true'] at h
  exact ⟨h.1.1, h.1.2, h.2, hu⟩

theorem device_quiet : Quiet device := quiet_of (by decide +kernel) rfl

/-- Loads and stores of two lanes that pass their checks: KIND 6, offset mode 2 with the base at 0. -/
theorem witness_GlobalLoads :
    allBegin device [(.ld noGuard (mf 60 2 0x56 0x100), 12), (.ld noGuard { mf 60 2 0x56 0x100 with def_ := true }, 12), (.ldk noGuard (mf 60 0 0 0x1FFFF8), 12),
      (.pref noGuard (mf 0 2 0x50 0), 12), (.cclean noGuard (mf 0 2 0x50 0), 12), (.ld noGuard (mf 60 2 0x16 0x100), 12)] ∧
    (∀ f ∈ [mf 60 2 0x56 0x100, mf 60 2 0x16 0x100, { mf 60 2 0x56 0x100 with def_ := true }],
      isOk (let s2 := behind (.ld noGuard f) device (path 3 12)
        do let x ← s2.memIndex (path 3 12) f (f.sub.toNat / 16)
           (s2.troupe (path 3 12)).checkDest (path 3 12) ((kindRegs 6 f.d.toNat).map (·.1))
           let hs ← s2.access (path 3 12) (spaceOf f) 4 false false (s2.wants (path 3 12) f (f.sub.toNat / 16) 4 x)
           s2.checkPoison hs
           s2.depart (path 3 12) .data 12 0 fun r => { r with peer := anyPeer hs }) = true) ∧
    isOk (device.access (path 3 12) .global 8 false false [{ lane := 0, addr := 0x1FFFF8 }]) = true ∧
    isOk (do let x ← device.memIndex (path 3 12) (mf 0 2 0x50 0) 5
             device.access (path 3 12) .priv 1 false false (device.wants (path 3 12) (mf 0 2 0x50 0) 5 1 x)) = true ∧
    device.portsReady (path 3 12) (indexFields (mf 0 2 0x50 0)) = .ok () ∧ Unjudged device :=
  ⟨all_begin (by decide +kernel), by decide +kernel, by decide +kernel, by decide +kernel, by decide +kernel, rfl⟩

theorem witness_GlobalStores :
    allBegin device [(.st noGuard (mf 3 2 0x56 0x100), 12), (.st noGuard (mf 44 2 0x1D 0x100), 12)] ∧
    (∀ f ∈ [mf 3 2 0x56 0x100, mf 44 2 0x1D 0x100],
      isOk (let s2 := behind (.st noGuard f) device (path 3 12)
        do let x ← s2.memIndex (path 3 12) f (f.sub.toNat / 16)
           (s2.troupe (path 3 12)).checkData (path 3 12) (f.sub.toNat % 16) f.d.toNat
           s2.access (path 3 12) (spaceOf f) (accessSize f) true false (s2.wants (path 3 12) f (f.sub.toNat / 16) (accessSize f) x)) = true) ∧
    Quiet device :=
  ⟨all_begin (by decide +kernel), by decide +kernel, device_quiet⟩

/-- What an atomic asks of its operands: the index and the data have been read, and the accesses of lanes 0 and 1 pass. -/
theorem atomic_ready {mk : Head → MForm → Instr} (f : MForm) (s : State) (space : Space) (hq : Quiet (behind (mk noGuard f) s (path 3 12)))
    (h : (let p := path 3 12
      let s2 := behind (mk noGuard f) s p
      canBegin (mk noGuard f) noGuard s p && isOk (do
        let x ← s2.read1 p f.a.toNat 0 (fun g => g == .i32 || g == .n32)
        (s2.troupe p).checkSource p 0 (MForm.dataRegs f)
        let op := f.sub.toNat % 16
        let hs ← s2.access p space (MForm.width f / 8) true (op ≠ 0 && op ≠ 8 && op ≠ 9) (s2.wants p f 1 0 x)
        s2.checkPoison hs)) = true) :
    ∃ hs, Starts (mk noGuard f) s (path 3 12) (behind (mk noGuard f) s (path 3 12)) ∧
      AtomicReady (behind (mk noGuard f) s (path 3 12)) (path 3 12) f space hs := by
  rw [Bool.and_eq_true] at h
  obtain ⟨u, hu⟩ := ok_of h.2
  obtain ⟨x, hx, hu⟩ := bind_ok hu
  obtain ⟨_, hd, hu⟩ := bind_ok hu
  obtain ⟨hs, ha, hp⟩ := bind_ok hu
  exact ⟨hs, starts h.1, x, hx, hd, ha, hp, hq⟩

/-- The device with all its pages in host memory. -/
def hosted : State := device.modCore 0 fun k =>
  { k with tlb := k.tlb.map fun (e : TlbEntry) => { e with x := { e.x with host := true, scope := 3 } } }

/-- Atomics on the window, on device memory and on host memory; the returning form has room for its departure. -/
theorem witness_AtomicUpdates :
    (let f := mf 1 2 1 0x100
     ∃ hs, Starts (.atoml noGuard f) device (path 3 12) (behind (.atoml noGuard f) device (path 3 12)) ∧
      AtomicReady (behind (.atoml noGuard f) device (path 3 12)) (path 3 12) f .loc hs) ∧
    (∀ s ∈ [device, hosted], ∀ f ∈ [mf 1 2 0 0x100, mf 1 2 0x20 0x100, { mf 1 2 0x20 0x100 with def_ := true }],
      let s2 := behind (.atom noGuard f) s (path 3 12)
      (∃ hs, Starts (.atom noGuard f) s (path 3 12) s2 ∧ AtomicReady s2 (path 3 12) f .global hs) ∧
      isOk (s2.depart (path 3 12) .data ((path 3 12).at_.pc + 12) 0 fun r => { r with data := oldData s2 (path 3 12) f [] }) = true) ∧
    (∀ s ∈ [device, hosted], ∃ hs, Starts (.red noGuard (mf 1 2 0 0x100)) s (path 3 12) (behind (.red noGuard (mf 1 2 0 0x100)) s (path 3 12)) ∧
      AtomicReady (behind (.red noGuard (mf 1 2 0 0x100)) s (path 3 12)) (path 3 12) (mf 1 2 0 0x100) .global hs) := by
  refine ⟨atomic_ready _ _ _ (quiet_of (by decide +kernel) rfl) (by decide +kernel), fun s hs f hf => ?_, fun s hs => ?_⟩
  · simp only [List.mem_cons, List.not_mem_nil, or_false] at hs hf
    rcases hs with rfl | rfl <;> rcases hf with rfl | rfl | rfl <;>
      exact ⟨atomic_ready _ _ _ (quiet_of (by decide +kernel) rfl) (by decide +kernel), by decide +kernel⟩
  · simp only [List.mem_cons, List.not_mem_nil, or_false] at hs
    rcases hs with rfl | rfl <;> exact atomic_ready _ _ _ (quiet_of (by decide +kernel) rfl) (by decide +kernel)

/-- The failures of MemoryBounds for two lanes: a misaligned address, one past the window, past the private area,
and not canonical. -/
theorem witness_MemoryBounds :
    allBegin plain [(.ld noGuard (mf 60 2 0x56 1), 12), (.ldl noGuard (mf 60 2 0x56 0xFFF8), 12), (.st noGuard (mf 3 2 0x56 0x1000), 12),
      (.stl noGuard (mf 3 2 0x56 2), 12)] ∧
    (∀ f ∈ [mf 60 2 0x56 1, mf 60 2 0x56 0xFFF8, mf 3 2 0x56 0x1000, mf 3 2 0x56 2],
      isOk (plain.memIndex (path 3 12) f (f.sub.toNat / 16)) = true ∧
      ((plain.troupe (path 3 12)).checkDest (path 3 12) ((kindRegs 6 60).map (·.1)) = .ok ()) ∧
      ((plain.troupe (path 3 12)).checkData (path 3 12) 6 3 = .ok ())) ∧
    (let x : Operand := { tag := .n32, lanes := List.replicate 64 8 }
     (∀ l, (3 : Mask).has l = true ↔ (path 3 12).active.has l = true ∧ (addressOf (mf 60 2 0x56 1) 4 0 x l).toNat % 4 ≠ 0) ∧
     (∀ l, (3 : Mask).has l = true ↔ (path 3 12).active.has l = true ∧ (addressOf (mf 60 2 0x56 0xFFF8) 4 0 x l).toNat + 4 > 65536) ∧
     (∀ l, (3 : Mask).has l = true ↔ (path 3 12).active.has l = true ∧ (addressOf (mf 3 2 0x56 0x1000) 4 0 x l).toNat + 4 > 4096)) :=
  ⟨all_begin (by decide +kernel), by decide +kernel, mask_two (by decide) (by decide), mask_two (by decide) (by decide),
    mask_two (by decide) (by decide)⟩

/-! ### Witnesses: streams, barriers, rings, copies, the matrix array and tasks -/

/-- Local memory of core 0 with fields (address, bytes, value). -/
def fields (s : State) (xs : List (Nat × Nat × Nat)) : State :=
  s.modCore 0 fun k => { k with mem := xs.foldl (fun m x => m.writeNat x.1 x.2.1 x.2.2) k.mem }

/-- Port 0 bound to context 0, for writing or reading the window as F32; a pattern at window offset 64; and context 1 bound to port 1. -/
def streaming (write : Bool) : State :=
  let pat : Pattern := { base := 4096, lstride := 4, fmt := 6, priv := false, isLocal := true, ndim := 1, ext := [4, 0, 0, 0], str := [256, 0, 0, 0], length := 4 }
  let lane (l : Nat) : CtxLane := { CtxLane.reset with ahead := if write then [] else [.value (BitVec.ofNat 32 l) 0, .value 5 0] }
  let ctx (q : Nat) : Ctx := { owner := some (0, q), bound := true, write := write, port := q, troupe := 0, kbase := 0, pat := pat, lanes := (List.range 64).map lane, closing := false }
  (fields plain [(64, 8, 4096), (72, 4, 4), (76, 1, 6), (77, 1, 2), (78, 1, 1), (80, 4, 4), (96, 4, 256), (112, 4, 4)]).modCore 0 fun k =>
    { k with ctxs := (k.ctxs.set 0 (ctx 0)).set 1 (ctx 1) }

/-- FADD with two pops of a read port, and with a write port as its destination. -/
theorem witness_ports :
    (∃ x y, Starts (.fadd noGuard (rf 60 2040 2040 0 0 0)) (streaming false) (path 3 12) (behind (.fadd noGuard (rf 60 2040 2040 0 0 0)) (streaming false) (path 3 12)) ∧
      (behind (.fadd noGuard (rf 60 2040 2040 0 0 0)) (streaming false) (path 3 12)).read2 (path 3 12) 2040 0 (carries (rf 60 2040 2040 0 0 0))
        2040 0 (carries (rf 60 2040 2040 0 0 0)) = .ok (x, y) ∧ x.at 1 = 1 ∧ y.at 1 = 5) ∧
    Starts (.fadd noGuard (rf 2040 3 3 0 0 0)) (streaming true) (path 3 12) (behind (.fadd noGuard (rf 2040 3 3 0 0 0)) (streaming true) (path 3 12)) ∧
    (let s2 := behind (.fadd noGuard (rf 2040 3 3 0 0 0)) (streaming true) (path 3 12)
     Deliverable s2 s2 (path 3 12) 2040 .f32) :=
  ⟨⟨{ tag := .f32, lanes := [0, 1] ++ (List.range' 2 62).map fun l => BitVec.ofNat 32 l }, { tag := .f32, lanes := List.replicate 64 5 },
    starts (by decide +kernel), by decide +kernel, by decide, by decide⟩, starts (by decide +kernel), by decide +kernel, fun q hq => by
      have : q = 0 := by
        have h : portOf 2040 = some 0 := by decide
        rw [h] at hq; injection hq with hq; exact hq.symm
      subst this
      exact ⟨0, [{ lane := 0, va := 4096, size := 4, x := none }, { lane := 1, va := 4100, size := 4, x := none }], by decide +kernel⟩⟩

theorem witness_Streams :
    allBegin (streaming true) [(.scfg noGuard (xf 2040 0 1 64 3), 16), (.scfg noGuard (xf 2040 0 1 65 3), 16), (.scfg noGuard (xf 2040 0 1 65536 3), 16),
      (.scfg noGuard (xf 2040 0 1 64 0), 16), (.scfg noGuard (xf 2041 0 1 64 0), 16), (.scfg noGuard (xf 2040 0 1 128 3), 16), (.scfg noGuard (xf 2040 0 1 64 8), 16),
      (.sdrain noGuard (rf 0 2040 0 0 0 0), 8), (.sclose noGuard (rf 0 2040 0 0 0 0), 8), (.spos noGuard (rf 60 2040 0 0 1 0), 8),
      (.seos noGuard (rf 1 2040 0 0 0 0), 8), (.sseek noGuard (xf 2040 0 3 2 0), 16), (.sseek noGuard (xf 2040 2 0 0 0), 16)] ∧
    (let k := (streaming true).core 0
     let pat := Pattern.read k.mem 64
     GoodPattern pat 0 ∧ patternReserved k.mem 64 = false ∧ (Pattern.read k.mem 128).ndim = 0 ∧
     k.ownedCtx 0 3 = some 3 ∧ k.ownedCtx 0 0 = some 0 ∧ k.ownedCtx 0 8 = none ∧ k.ctxOf 0 0 0 = some 0 ∧ k.ctxOf 0 0 1 = some 1 ∧
     (k.ctx 0).bound = true ∧ (k.ctx 3).bound = false ∧ (k.ctx 0).write = true) ∧
    isOk ((streaming true).checkDst (path 3 8) 60) = true ∧
    isOk ((streaming true).read1 (path 3 16) 2 0 (fun g => g == .i32 || g == .n32)) = true := by
  refine ⟨all_begin (by decide +kernel), ?_, by decide +kernel, by decide +kernel⟩
  refine ⟨?_, by decide +kernel⟩
  have h : Pattern.read ((streaming true).core 0).mem 64 = { base := 4096, lstride := 4, fmt := 6, priv := false, isLocal := true, ndim := 1
                                                             ext := [4, 0, 0, 0], str := [256, 0, 0, 0], length := 4 } := by decide +kernel
  rw [h]
  simp [GoodPattern, kindSize]

/-- Object 0 armed and one arrival from its target, object 1 armed with SAT, object 2 not armed, object 63 in phase 1; and ring 0 with two slots of 64 bytes, the
first full and the second empty. -/
def synchronising (satt : Bool) : State :=
  fields (bench 3 fun t => { t with satt := satt }) [(4, 4, 1 + 65536 * 0), (8, 4, 2), (16, 4, 100), (24, 4, 6), (36, 4, 1), (1016, 4, 3),
    (1024, 1, 2), (1028, 4, 64), (1032, 4, 2048), (1036, 4, 4096), (4104, 4, 3), (4120, 4, 2), (4116, 4, 2), (4136, 4, 2), (4152, 4, 2)]

theorem counter_apart (s : State) (p : Path) (off : Nat) (hb : (s.block p).base = 0) (hn : (s.block p).barriers = 64) (hr : (s.block p).rings = 6)
    (ho : off + 16 ≤ 1024 ∨ 1216 ≤ off) : ∀ x, Counter s p x → x < (s.block p).base + off ∨ (s.block p).base + off + 16 ≤ x := by
  rintro x ⟨j, hj, h1, h2⟩
  rw [hb, hn] at h1 h2
  rw [hr] at hj
  rw [hb]; omega

theorem witness_objects : ∀ off ∈ [0, 16, 32, 1008, 4096, 4112, 4128, 4144], Object (synchronising false) (path 3 16) off := by
  intro off ho
  have hb : ((synchronising false).core 0).block 0 = some ((synchronising false).block (path 3 16)) := by decide +kernel
  refine ⟨⟨_, hb⟩, by decide +kernel, by decide +kernel, ?_, counter_apart _ _ _ (by decide +kernel) (by decide +kernel) (by decide +kernel) ?_⟩
  · have : ((synchronising false).block (path 3 16)).size = 65536 := by decide +kernel
    rw [this]; revert off; decide
  · revert off; decide

theorem witness_Barriers :
    (∀ b, allBegin (synchronising b) [(.binit noGuard (xf 0 0 0 0x00020000 0x1000), 16), (.binit noGuard (xf 0 0 0 63 0), 16), (.expect noGuard (xf 0 0 0 1 64), 16),
      (.expect noGuard (xf 0 0 0 2 64), 16), (.expect noGuard (xf 0 0 1 0 0), 16), (.arrive noGuard (xf 0 0 0 0 1), 16), (.arrive noGuard (xf 0 0 0 2 1), 16),
      (.arrive noGuard (xf 0 0 0 1 1), 16), (.await noGuard (xf 0 0 0 63 1), 16), (.await noGuard (xf 0 0 0 63 0), 16), (.await noGuard (xf 0 0 0 1 0), 16)]) ∧
    (let o (off : Nat) := objectAt (synchronising true) (path 3 16) off
     armed (o 0) = true ∧ flips (o 0) (o 0).bytes 1 = true ∧ armed (o 32) = false ∧ sat (o 16) = true ∧ phase (o 1008) = true) ∧
    trapsSat (synchronising true) (path 3 16) 16 ∧ ¬trapsSat (synchronising false) (path 3 16) 16 ∧ ¬trapsSat (synchronising true) (path 3 16) 0 ∧
    (let few := (synchronising false).modBlock 0 0 fun b => { b with barriers := 2 }
     allBegin few [(.binit noGuard (xf 0 0 0 2 0), 16)] ∧ (few.block (path 3 16)).barriers ≤ 2) ∧
    isOk ((synchronising false).depart (path 3 16) (.barrier 1008) 16 0 id) = true := by
  refine ⟨fun b => by cases b <;> exact all_begin (by decide +kernel), by decide +kernel, ?_, ?_, ?_, ⟨all_begin (by decide +kernel), by decide +kernel⟩,
    by decide +kernel⟩ <;> unfold trapsSat <;> decide +kernel

theorem witness_Rings :
    allBegin (synchronising false) [(.rinit noGuard (xf 0 0 0 0x00030000 0x100), 16), (.rinit noGuard (xf 0 0 0 0x00000000 0x100), 16), (.relslot noGuard (xf 0 0 0 0 0), 16),
      (.relslot noGuard (xf 0 0 0 0x100 0), 16), (.awaitf noGuard (xf 0 0 0 0 0), 16), (.awaitf noGuard (xf 0 0 0 0x100 0), 16)] ∧
    (let s := synchronising false
     let r := ringOf s (path 3 16) 0
     r.nslotByte = 2 ∧ r.slotSize = 64 ∧ r.slotOff = 2048 ∧ r.barOff = 4096 ∧ RingSlot s (path 3 16) 0 0 ∧ RingSlot s (path 3 16) 0 1 ∧
     full s (path 3 16) r 0 = true ∧ full s (path 3 16) r 1 = false ∧ armed (objectAt s (path 3 16) 4112) = true) ∧
    (let s := fields (synchronising false) [(1028, 4, 0x10000)]
     let r := ringOf s (path 3 16) 0
     allBegin s [(.rinit noGuard (xf 0 0 0 0x00030000 0x100), 16)] ∧ ¬(r.slotOff + r.nslotByte * r.slotSize ≤ (s.block (path 3 16)).size)) ∧
    (let s := fields (synchronising false) [(1028, 4, 32)]
     let r := ringOf s (path 3 16) 0
     allBegin s [(.rinit noGuard (xf 0 0 0 0x00030000 0x100), 16)] ∧ r.slotOff + r.nslotByte * r.slotSize ≤ (s.block (path 3 16)).size ∧ r.slotSize % 64 ≠ 0) ∧
    isOk ((synchronising false).depart (path 3 16) (.ring 0 1) 16 0 id) = true := by
  refine ⟨all_begin (by decide +kernel), ?_, ⟨all_begin (by decide +kernel), by decide +kernel⟩, ⟨all_begin (by decide +kernel), by decide +kernel⟩, by decide +kernel⟩
  refine ⟨by decide +kernel, by decide +kernel, by decide +kernel, by decide +kernel, ?_, ?_, by decide +kernel, by decide +kernel, by decide +kernel⟩ <;>
    unfold RingSlot <;> decide +kernel

theorem witness_CopyInstructions :
    allBegin (mapped (calling 0)) [(.cstep noGuard (xf 0 0 0 3 0), 16), (.cstep noGuard { xf 0 0 1 0 0 with ka := 2 }, 16), (.csched noGuard { xf 0 0 0 3 0 with ka := 5 }, 16),
      (.csched noGuard { xf 0 0 0 3 0 with ka := 2 }, 16), (.rcfence noGuard (xf 0 0 0 1 0), 16), (.rcfence noGuard (xf 0 0 0 64 0), 16),
      (.rcfenceAll noGuard (xf 0 0 0 0 0), 16), (.cstat noGuard (xf 60 0 3 63 0), 16), (.cstat noGuard (xf 60 0 4 7 0), 16), (.cstat noGuard (xf 60 0 2 0 0), 16),
      (.rcseal noGuard (xf 0 0 0 64 0), 16), (.rcseal noGuard (xf 0 0 0 4 0), 16)] ∧
    ((calling 0).kAt (path 3 16) 5).toNat % 32 = 0 ∧ ((calling 0).kAt (path 3 16) 2).toNat % 32 ≠ 0 ∧
    isOk ((calling 0).checkDst (path 3 16) 60) = true ∧
    (let few := (calling 0).modBlock 0 0 fun b => { b with barriers := 63, rings := 7 }
     allBegin few [(.cstat noGuard (xf 60 0 3 63 0), 16), (.cstat noGuard (xf 60 0 4 7 0), 16), (.cstat noGuard (xf 60 0 5 7 0), 16)] ∧
     (few.block (path 3 16)).barriers ≤ 63 ∧ (few.block (path 3 16)).rings ≤ 7) ∧
    (let s := mapped (calling 0)
     (∃ hs, s.access (path 3 16) .global 64 true false ((path 3 16).active.lanes.map fun l => { lane := l, addr := 64 }) = .ok hs ∧ s.checkPoison hs = .ok ()) ∧
     (∃ x, (s.core 0).lookup (mine s (path 3 16)) 64 = some x ∧ 2 ≤ x.scope.toNat) ∧ Quiet s) := by
  refine ⟨all_begin (by decide +kernel), by decide +kernel, by decide +kernel, by decide +kernel, ⟨all_begin (by decide +kernel), by decide +kernel, by decide +kernel⟩,
    ?_, ?_, quiet_of (by decide +kernel) rfl⟩
  · have h : isOk ((mapped (calling 0)).access (path 3 16) .global 64 true false ((path 3 16).active.lanes.map fun l => { lane := l, addr := 64 }) >>=
        fun hs => (mapped (calling 0)).checkPoison hs) = true := by decide +kernel
    revert h
    cases (mapped (calling 0)).access (path 3 16) .global 64 true false ((path 3 16).active.lanes.map fun l => { lane := l, addr := 64 }) with
    | error => intro h; cases h
    | ok hs => intro h; obtain ⟨u, hu⟩ := ok_of h; exact ⟨hs, rfl, hu⟩
  · have h : (((mapped (calling 0)).core 0).lookup (mine (mapped (calling 0)) (path 3 16)) 64).any (fun x => decide (2 ≤ x.scope.toNat)) = true := by
      decide +kernel
    rw [Option.any_eq_true] at h
    obtain ⟨x, hf, hx⟩ := h
    exact ⟨x, hf, of_decide_eq_true hx⟩

/-- A block whose script's entry 0 is a release at stage 1, or the checks refuse it. -/
def scripted (kind : Byte) : State := plain.modBlock 0 0 fun b => { b with
  script := 4096, scripted := true, stage := 1, ahead := [(0, .bytes ([0, 16, 0, 0, 0, 0, 0, 0] ++ [1, 0, 0, 0] ++ [0, 0, 0, 0] ++ [kind, 0, 0, 3] ++ List.replicate 12 0))] }

theorem witness_ScriptRelease :
    ∀ kind ∈ [0, 5], ∃ b bs, ((scripted kind).core 0).block 0 = some b ∧ b.scripted = true ∧ b.ahead.lookup b.pos = some (.bytes bs) ∧
      (bs.getD 16 0).toNat % 8 ≠ 7 ∧ wordIn bs 8 ≤ b.stage ∧
      ((ScriptEntry.read bs).check b ((scripted kind).core 0).mem = if kind = 0 then none else some codeIllegal) := by
  intro kind hk
  have h : (((scripted kind).core 0).block 0).any (fun b => decide (b.scripted = true) && match b.ahead.lookup b.pos with
      | some (.bytes bs) => decide ((bs.getD 16 0).toNat % 8 ≠ 7 ∧ wordIn bs 8 ≤ b.stage ∧
        ((ScriptEntry.read bs).check b ((scripted kind).core 0).mem = if kind = 0 then none else some codeIllegal))
      | _ => false) = true := by
    simp only [List.mem_cons, List.not_mem_nil, or_false] at hk
    rcases hk with rfl | rfl <;> decide +kernel
  rw [Option.any_eq_true] at h
  obtain ⟨b, hb, h⟩ := h
  rw [Bool.and_eq_true, decide_eq_true_iff] at h
  obtain ⟨h1, h2⟩ := h
  split at h2
  · rename_i bs hl
    exact ⟨b, bs, hb, h1, hl, of_decide_eq_true h2⟩
  · cases h2

/-- One active lane of the bench, with tile 0 an A of one row of 64 bytes, tile 1 a B, tile 2 a sparse A with tile 3 its B,
and injection armed. -/
def tiled : State :=
  let row (base rowbytes nkeep meta_ : Word) : List Word := [base, 1, rowbytes, 64, 2, 0, meta_, nkeep]
  (bench 1 fun t => { t with tiles := (((t.tiles.set 0 (row 4096 64 0 0)).set 1 (row 8192 64 0 0)).set 2 (row 4096 64 32 12288)).set 3 (row 8192 256 0 0) }).modCore 0
    fun k => { k with inject := true }

theorem witness_MatrixInstructions :
    (∀ x ∈ [(Instr.mma noGuard (xf 0 0 0 0x10 0), 16), (.mmas noGuard (xf 0 0 0 0x32 0), 16), (.mma noGuard (xf 0 0 4 0x10 63), 16)],
      Starts x.1 tiled (path 1 x.2) (behind x.1 tiled (path 1 x.2))) ∧
    allBegin plain [(.mma noGuard (xf 0 0 0 0x10 0), 16), (.mmas noGuard (xf 0 0 0 0x10 0), 16), (.mzero noGuard (xf 0 0 0 0x7F00FF00 0), 16),
      (.mzero noGuard (xf 0 0 0 0x7F01FF00 0), 16), (.accld noGuard (xf 0 0 0 0x0000FF00 0), 16), (.accst noGuard (xf 0 0 1 0 0), 16), (.accrd noGuard (xf 60 0 0 0x1FF 0), 16),
      (.accwr noGuard (xf 0 3 0 0x1FF 0), 16), (.mlive noGuard (xf 0 0 0 0xFFFF 0), 16), (.mpert noGuard (xf 0 0 0 1 0), 16), (.mstat noGuard (xf 60 0 1 0 0), 16)] ∧
    Leads tiled (path 1 16) ∧ Sited tiled (path 1 16) ∧ (path 1 16).active.count = 1 ∧ 1 < (path 3 16).active.count ∧
    (let t := tiled.troupe (path 1 16)
     let role (n : Nat) (r : TileRole) : Option Nat := (t.tile n).fails r (t.tileReserved n) false (tiled.block (path 1 16)).size
     role 0 .a = none ∧ role 1 .b = none ∧ role 2 .sparse = none ∧ role 3 .b = none ∧ role 0 .cells = none ∧
     (t.tile 3).rowbytes = (t.tile 2).rowbytes * 128 / (t.tile 2).nkeep ∧ (t.tile 3).k % 128 = 0 ∧ (t.tile 0).rowbytes = (t.tile 1).rowbytes) ∧
    (tiled.core 0).inject = true ∧ (plain.core 0).inject = false ∧
    (tiled.troupe (path 1 16)).checkSource (path 1 16) 0 [(3, fun g => g == .f32)] = .ok () ∧ isOk (tiled.checkDst (path 1 16) 60) = true ∧
    (let alone := plain.modCore 1 fun k => { k with retired := true }
     allBegin alone [(.mma noGuard (xf 0 0 0 0x10 0), 16), (.mmas noGuard (xf 0 0 0 0x10 0), 16), (.mzero noGuard (xf 0 0 0 0 0), 16), (.accld noGuard (xf 0 0 0 0 0), 16),
       (.accst noGuard (xf 0 0 1 0 0), 16), (.mpert noGuard (xf 0 0 0 0 0), 16)] ∧ ¬Leads alone (path 3 16)) := by
  refine ⟨fun x hx => starts ?_, all_begin (by decide +kernel), ⟨by decide, by decide +kernel⟩, ⟨by decide +kernel, by decide +kernel⟩,
    ?_, ?_, ?_, ?_, ?_, ?_, ?_, all_begin (by decide +kernel), fun h => absurd h.2 (by decide +kernel)⟩
  · simp only [List.mem_cons, List.not_mem_nil, or_false] at hx
    rcases hx with rfl | rfl | rfl <;> decide +kernel
  all_goals decide +kernel

/-- A kernel descriptor in device memory that SPAWN accepts: 64 registers, one troupe, one block. -/
def spawning : State :=
  let s := bench 3 fun t => { t with k := ((t.k.set 2 8192).set 3 1).set 4 16384 }
  { s with dram := ((s.dram.writeNat 8192 8 0x1000).writeNat 8204 2 64).writeNat 8206 1 1 }

theorem witness_TaskMajors :
    allBegin (calling 0) [(.fetchw noGuard (xf 0 0 0 4 0), 16), (.fetchw noGuard (xf 0 0 0 0xFFF0 0), 16), (.fetchw noGuard (xf 0 0 0 0x10000 0), 16),
      (.spawn noGuard (xf 1 0 0 0 0), 16), (.spawn noGuard { xf 1 0 0 0 0 with ka := 2 }, 16), (.enq noGuard (kf 0 7), 8), (.jobstQuery noGuard (kf 0 0), 8),
      (.jobstCancel noGuard (kf 0 0), 8), (.sigchk noGuard (rf 0 1 0 0 0 0), 8), (.sigchk noGuard (rf 0 48 0 0 1 0), 8), (.modeQuery noGuard (kf 0 0), 8), (.modeReq noGuard (kf 0 0), 8)] ∧
    (calling 0).launchOf 0 0 = some Launch.seed ∧ Launch.seed.cancelled = false ∧ ((calling 0).kAt (path 3 16) 2).toNat % 64 ≠ 0 ∧
    (calling 0).queueOpen 7 = true ∧ ((calling 0).modQueue 7 fun q => { q with recs := List.replicate 64 { bytes := [], seq := 0, qcfg := 0, desc := none, args := [], passed := false } }).queueOpen 7 = false ∧
    ((launching plain fun l => { l with cancelled := true }).launchOf 0 0).map (·.cancelled) = some true ∧
    isOk ((calling 0).depart (path 3 16) (.mailbox 0xFFF0) 16 0 id) = true ∧ isOk ((calling 0).read1 (path 3 8) 1 0 (fun g => g != .undef)) = true ∧
    ((calling 0).troupe (path 3 8)).checkSource (path 3 8) 0 [(48, fun g => g == .i64l), (49, fun g => g == .i64h)] = .ok () ∧
    requestReserved ((calling 0).kAt (path 3 8) 2) = false ∧ (calling 0).partOf 2 = some 0 ∧ (calling 0).partOf 3 = some 0 ∧ (calling 0).checkedCore 0 = false ∧
    (calling 0).sirip.requests.length < 16 ∧
    allBegin spawning [(.spawn noGuard { xf 1 0 0 0 0 with ka := 2, kb := 3, kc := 4 }, 16)] ∧ spawning.spawnRefused Launch.seed 8192 1 16384 = false ∧
    (spawning.jobsOf 0).length < 2048 ∧ (spawning.part 0).quiesced = false ∧ spawning.stopped Launch.seed = false := by
  refine ⟨all_begin (by decide +kernel), ?_⟩
  and_intros
  any_goals exact all_begin (by decide +kernel)
  all_goals decide +kernel

/-! ### Witnesses: floating point -/

theorem witness_FloatArithmetic :
    MeetsTwo .fadd carries carries (fun f _ _ => formatTag f) ∧ MeetsTwo .fsub carries carries (fun f _ _ => formatTag f) ∧
    MeetsTwo .fmul carries carries (fun f _ _ => formatTag f) ∧ MeetsThree .ffma carries (carries) formatTag ∧ modX (rf 60 3 3 0 0 0).mod = false :=
  ⟨meets_two (rf 60 3 3 0 0 0) plain (by decide +kernel), meets_two (rf 60 4 4 0 1 0) plain (by decide +kernel), meets_two (rf 60 5 5 0 2 0) plain (by decide +kernel),
   meets_three (rf 60 3 16 17 0 0) plain (by decide +kernel), by decide⟩

theorem witness_ExactPairs :
    MeetsTwoToPair .fadd (fun f => modX f.mod = true) carries ∧ MeetsTwoToPair .fsub (fun f => modX f.mod = true) carries ∧
    MeetsTwoToPair .fmul (fun f => modX f.mod = true) carries :=
  ⟨meets_two_to_pair (rf 62 3 16 0 0 16) plain (by decide) (by decide +kernel), meets_two_to_pair (rf 62 4 4 0 1 16) plain (by decide) (by decide +kernel),
   meets_two_to_pair (rf 62 5 5 0 2 16) plain (by decide) (by decide +kernel)⟩

theorem witness_FloatSelection :
    MeetsTwo .fmin carries carries (fun f _ _ => formatTag f) ∧ MeetsTwo .fmax carries carries (fun f _ _ => formatTag f) ∧
    MeetsTwo .fcpys carries carries (fun f _ _ => formatTag f) ∧ MeetsOne .fclass carries (fun _ _ => .n32) ∧ MeetsOne .frnd carries (fun f _ => formatTag f) ∧
    MeetsTwo .fscale carries (fun _ g => g == .i32) (fun f _ _ => formatTag f) ∧ MeetsTwo .fcmp carries carries (fun f _ _ => formatTag f) :=
  ⟨meets_two (rf 60 3 16 0 0 0) plain (by decide +kernel), meets_two (rf 60 4 4 0 1 0) plain (by decide +kernel), meets_two (rf 60 3 16 0 0 0) plain (by decide +kernel),
   meets_one (rf 60 4 0 0 1 0) plain (by decide +kernel), meets_one (rf 60 3 0 0 0 0) plain (by decide +kernel), meets_two (rf 60 3 1 0 0 0) plain (by decide +kernel),
   meets_two (rf 7 4 4 0 57 0) plain (by decide +kernel)⟩

theorem witness_DivisionAndFunctions :
    MeetsTwo .fdiv carries carries (fun f _ _ => formatTag f) ∧ MeetsOne .frcp carries (fun f _ => formatTag f) ∧ MeetsOne .fsqrt carries (fun f _ => formatTag f) ∧
    MeetsOne .frsq carries (fun f _ => formatTag f) ∧ MeetsOne .fexp2 carries (fun f _ => formatTag f) ∧ MeetsOne .flog2 carries (fun f _ => formatTag f) ∧
    MeetsOne .fsinp carries (fun f _ => formatTag f) ∧ MeetsOne .fcosp carries (fun f _ => formatTag f) ∧ MeetsOne .ftanh carries (fun f _ => formatTag f) :=
  ⟨meets_two (rf 60 3 16 0 0 0) plain (by decide +kernel), meets_one (rf 60 3 0 0 0 0) plain (by decide +kernel), meets_one (rf 60 4 0 0 1 0) plain (by decide +kernel),
   meets_one (rf 60 5 0 0 2 0) plain (by decide +kernel), meets_one (rf 60 3 0 0 0 0) plain (by decide +kernel), meets_one (rf 60 3 0 0 0 0) plain (by decide +kernel),
   meets_one (rf 60 3 0 0 0 0) plain (by decide +kernel), meets_one (rf 60 3 0 0 0 0) plain (by decide +kernel), meets_one (rf 60 3 0 0 0 0) plain (by decide +kernel)⟩

/-- Boundary values of the special results: zeros, infinities, a signalling and a quiet NaN, and the finite neighbours of both. -/
theorem witness_float_clauses :
    f32.Zero 0 ∧ f32.Zero 0x80000000 ∧ f32.Infinite 0x7F800000 ∧ f32.neg 0xFF800000 = true ∧ f32.Signalling 0x7F800001 ∧ f32.NaN 0x7FC00000 ∧ ¬f32.Signalling 0x7FC00000 ∧
    f32.Finite 0x7F7FFFFF ∧ f32.Finite 1 ∧ ¬f32.Zero 1 ∧ f16.Infinite 0x7C00 ∧ bf16.Infinite 0x7F80 := by
  simp only [FloatFmt.Zero, FloatFmt.Infinite, FloatFmt.Signalling, FloatFmt.NaN, FloatFmt.Finite]
  decide

theorem witness_DoubleWords :
    MeetsPairs .dwadd .dfh .dfl ∧ MeetsPairSingle .dwadds .dfh .dfl (fun _ g => g == .f32) ∧ MeetsPairs .dwmul .dfh .dfl ∧
    MeetsPairSingle .dwmuls .dfh .dfl (fun _ g => g == .f32) ∧ MeetsPairs .dwnorm .dfh .dfl :=
  ⟨meets_pairs (rf 62 46 50 0 0 0) plain (by decide +kernel), meets_pair_single (rf 62 46 3 0 0 0) plain (by decide +kernel),
   meets_pairs (rf 46 46 46 0 0 0) plain (by decide +kernel), meets_pair_single (rf 62 46 3 0 0 0) plain (by decide +kernel),
   meets_pairs (rf 62 46 46 0 0 0) plain (by decide +kernel)⟩

theorem witness_LaneReductions :
    MeetsOne .vrsum (fun _ g => g == .f32) (fun _ _ => .f32) ∧ MeetsOne .vrmax (fun _ g => g == .f32) (fun _ _ => .f32) ∧
    MeetsOne .vrmin (fun _ g => g == .f32) (fun _ _ => .f32) ∧ MeetsOneToPair .vrsumc (fun f => f.sub.getLsbD 0 = false) (fun _ g => g == .f32) ∧
    MeetsPairs .vrsumc .dfh .dfl ∧ MeetsTwoToPair .vrdotc (fun _ => True) (fun _ g => g == .f32) :=
  ⟨meets_one (rf 60 3 0 0 0 0) plain (by decide +kernel), meets_one (rf 60 3 0 0 0 0) plain (by decide +kernel), meets_one (rf 60 3 0 0 0 0) plain (by decide +kernel),
   meets_one_to_pair (rf 62 3 0 0 0 0) plain (by decide) (by decide +kernel), meets_pairs (rf 62 46 46 0 1 0) plain (by decide +kernel),
   meets_two_to_pair (rf 62 3 16 0 0 0) plain trivial (by decide +kernel)⟩

theorem witness_Conversions :
    MeetsOne .cvt (fun f g => g == cvtFrom f) (fun f _ => (cvtTo f).tag) ∧ MeetsOne .cvti carries (fun f _ => (elemType (f.sub.toNat / 4 % 8)).tag) ∧
    MeetsTwo .pack2 (fun _ g => g == .f32) (fun _ g => g == .f32) (fun f _ _ => (vfmt f.sub.toNat).tag) ∧
    MeetsTwo .pack2 (fun _ g => g == .i32) (fun _ g => g == .i32) (fun _ _ _ => .i16x2) ∧
    MeetsOneToPair .unpk2 (fun f => f.sub.toNat = 1 ∨ f.sub.toNat = 2) (fun f g => g == (vfmt f.sub.toNat).tag) ∧
    MeetsOneToPair .unpk2 (fun f => f.sub.toNat = 3) (fun _ g => g == .i16x2) :=
  ⟨meets_one (rf 60 8 0 0 103 0) plain (by decide +kernel), meets_one (rf 60 4 0 0 113 0) plain (by decide +kernel), meets_two (rf 60 3 16 0 2 0) plain (by decide +kernel),
   meets_two (rf 60 1 1 0 6 0) plain (by decide +kernel), meets_one_to_pair (rf 62 4 0 0 1 0) plain (.inl (by decide)) (by decide +kernel),
   meets_one_to_pair (rf 62 6 0 0 3 0) plain (by decide) (by decide +kernel)⟩

theorem witness_BlockConversions :
    (∀ four : Bool, let f := rf 62 16 0 0 (if four then 7 else 0) 0
      let i := Instr.cvtbx noGuard f
      let s2 := behind i plain (path 3 12)
      Starts i plain (path 3 12) s2 ∧ isOk (s2.operandGroup (path 3 12) 0 f.a.toNat 0 (List.replicate (if four then 8 else 4) .f32)) = true ∧
      (s2.troupe (path 3 12)).checkDest (path 3 12) [62, 63] = .ok ()) ∧
    (∀ four : Bool, let f := rf 48 (if four then 42 else 40) 0 0 (if four then 1 else 0) 0
      let i := Instr.cvtxb noGuard f
      let s2 := behind i plain (path 3 12)
      Starts i plain (path 3 12) s2 ∧ isOk (s2.readPair (path 3 12) 0 f.a.toNat f.pa.toNat (if four then .bx4x8 else .bx8x4) .n32) = true ∧
      (s2.troupe (path 3 12)).checkDest (path 3 12) ((List.range (if four then 8 else 4)).map fun i => f.d.toNat + i) = .ok ()) := by
  constructor <;> intro four <;> cases four <;> exact ⟨starts (by decide +kernel), by decide +kernel, by decide +kernel⟩

/-! ### Witnesses: the steps of the other agents -/

/-- A record of lanes 0 and 1 of the placed troupe. -/
def record (key : Key) (ready : Bool) : CueRec :=
  { rid := 7, blk := 0, troupe := 0, key := key, resume := 8, mask := 3, prio := 0, kind := 0, cancel := false, ready := ready, spilled := false
    sibseq := 0, recCount := 0, fault := 0, regs := [], lanes := List.replicate 64 { Lane.reset with place := .departed }, uresult := none, data := []
    since := 0, halted := none, held := false, sat := false, readySeq := 0, rewind := false, peer := false, wingsAt := 0, written := false
    faultMask := 0, faultAddr := 0, faultPort := none, faultExt := [] }

/-- The bench with records in core 0's queue. -/
def queued (rs : List CueRec) : State := plain.modCore 0 fun k => { k with cue := rs }

/-- An operation of the host for record 7. -/
def hostOp : HostOp := { core := 0, blk := 0, troupe := 0, rid := 7, lane := 0, addr := 64, va := 64, op := 1, w64 := false, value := 1, compare := 0 }

/-- A held push that waits, of lane 0 of context 0. -/
def waitingPush : Push := { addr := 4096, data := 5, seq := 0, waiting := true }
def pushing : State :=
  (streaming true).modCore 0 fun k => k.modCtx 0 fun x => x.modLanes 1 fun _ y => { y with held := [waitingPush] }

/-- A core exists where there are any. -/
theorem has_of {s : State} {c : Nat} (h : Nat.blt c s.cores.length = true) : Has s c := Nat.le_of_ble_eq_true h

theorem witness_CueSteps :
    (let s := queued [record .data false]
     Has s 0 ∧ s.opsPending 0 7 = false ∧ (s.core 0).overLink 7 = false ∧ record .data false ∈ (s.core 0).cue) ∧
    (Has (deferring false) 0 ∧ (deferring false).opsPending 0 5 = false ∧ ((deferring false).core 0).cue = []) ∧
    ({ queued [record .data false] with hostOps := [hostOp] } : State).opsPending 0 7 = true ∧
    ((queued [{ record .data false with peer := true }]).core 0).overLink 7 = true ∧ (queued []).link.state ≠ 2 ∧
    ((queued [record (.time 640) false]).core 0).cue.find? (fun r => r.rid == 7 && !r.ready) = some (record (.time 640) false) ∧
    (∀ b, let r := { record .data true with spilled := true, written := b }
      let k := (queued [r]).core 0
      k.firstQueued (fun r => r.spilled) = some r ∧ k.cueUsed + k.sizeOf r / 64 ≤ Config.cueGranules ∧
      (queued [r]).wingsHold 0 r.wingsAt (k.sizeOf r) r.written = !b) ∧
    (∀ b, let r := { record .data true with cancel := b }
      let s := queued [r]
      s.relaunches 0 = true ∧ (s.core 0).queueHead = some r ∧ (((s.core 0).troupe 0 0).bind (·.slot)) = some 0 ∧ r.spilled = false ∧
      r.rewind = false ∧ ∀ x ∈ (s.core 0).cue, r.mergesWith x = false) ∧
    (∀ b, let s := (queued [record .data true]).modTroupe 0 0 0 fun t => { t with
        lanes := (record .data true).lanes, slot := none, frameSpilled := true, frameAt := 4096, frameWritten := b }
      s.relaunches 0 = true ∧ (((s.core 0).troupe 0 0).map fun t => (t.framed, t.frameWritten)) = some (true, b) ∧
      ((s.core 0).freeSlot 64).isSome = true ∧ s.wingsHold 0 4096 1152 b = !b) ∧
    (let s := streaming false
     let x := (s.core 0).ctx 0
     let y := x.lane 63
     let a := x.pat.offset x.kbase 63 (y.pos.toNat + y.ahead.length)
     x.owner = some (0, 0) ∧ (s.core 0).fetchesStop 0 = false ∧ x.bound = true ∧ x.write = false ∧ y.ahead.length < 8 ∧
     y.pos.toNat + y.ahead.length < x.pat.length.toNat ∧ (y.ahead.getLast?.any fun f => match f with | .value _ _ => true | _ => false) = true ∧
     (match s.elementPieces 0 0 0 63 a with
      | .ok hs => let r := s.fillElement 0 0 0 hs
                  (r.2.fetchElement 0 0 0 63 r.1 hs).isSome
      | .error _ => false) = true ∧
     isOk (s.elementPieces 0 0 0 63 65536) = false) ∧
    (let s := pushing
     let r := (s.fill 0 (s.ownerOf 0 0) waitingPush.addr.toNat oldestEntry).2
     ((s.core 0).ctx 0).owner = some (0, 0) ∧ (((s.core 0).ctx 0).lane 0).waitingPush = some waitingPush ∧
     ((r.core 0).heldOf 0 0 0).filter (fun h => h.2.waiting) = [(0, waitingPush)] ∧
     (r.performPush 0 0 0 0 0 waitingPush).2 = (false, none)) := by
  and_intros
  any_goals exact has_of (by decide +kernel)
  all_goals decide +kernel

/-- A delivered fault of lanes 0 and 1. -/
def halt (code : Nat) : Halt := { seq := 9, core := 0, blk := 0, troupe := 0, mask := 3, code := code, next := 8, engine := false }

/-- A pre-emption of core 0, waiting for room or not. -/
def preempting (waiting : Bool) (s : State) : State :=
  s.modCore 0 fun k => { k with
    preempt := some { cores := [0], thread := false, stream := false, copy := false, matrix := false, waitingRoom := waiting, held := [] } }

/-- Faults of every kind of answer, with and without room for SAVE, a pre-emption that waits and one that does not, a block that
ends, a core to restore, and a cut. -/
theorem witness_FaultAnswersAndPreemption :
    plain.faultWait = [] ∧ plain.poison = [] ∧
    (∀ c ∈ [codeTagFault, codeTrapInsn, codeBkpt, codeMismatch], ({ plain with halts := [halt c] } : State).haltOf 9 = some (halt c)) ∧
    (isDecodeCode codeTagFault = false ∧ codeTagFault ≠ codeMismatch ∧ codeTagFault ≠ codeTrapInsn ∧ codeTagFault ≠ codeBkpt ∧ isDecodeCode codeIllegal = true) ∧
    (let room (n : Nat) : Bool := let k := (queued [record .data false]).core 0
      (({ k with wingsSize := n }).spillBlocks fun b => b == 0).spilledAll fun b => b == 0
     room 16777216 = true ∧ room 0 = false) ∧
    ((launching plain fun l => { l with debug := true }).launchOf 0 0).map (·.debug) = some true ∧
    Has plain 0 ∧ plain.engineQuiet 0 .copy = true ∧ plain.engineQuiet 0 .thread = false ∧
    (((preempting false plain).core 0).preempt.isSome = true ∧ ((preempting false plain).core 0).pathsStopped 0 = false ∧
      (((preempting false plain).core 0).block 0).map (fun x => (x.ending, x.saved, x.cancelling)) = some (false, false, false) ∧
      ((preempting false plain).core 0).runningPaths 0 0 ≠ []) ∧
    (((preempting true plain).core 0).preempt.any (·.waitingRoom)) = true ∧
    (let s := launching (queued [record .data false]) fun l => { l with cut := some 1 }
     s.cutting 0 0 = true ∧ s.shortPaths 0 0 ≠ []) ∧
    (let s := (State.reset.seeded []).modCore 0 fun k => { k with troupes := [], blocks := k.blocks.set 0 (some { Block.seed with ending := true }) }
     s.blockIdle 0 0 = true ∧ (s.core 0).preempt = none) ∧
    (let s := (State.reset.seeded []).modCore 0 fun k => { k with troupes := [], blocks := k.blocks.set 0 (some { Block.seed with saved := true }) }
     s.canRestore 0 = true ∧ (s.core 0).service = .inService ∧ (s.core 0).savedSlots ≠ []) ∧
    (let s := launching ((State.reset.seeded []).modCore 0 fun k => { k with troupes := [], blocks := List.replicate 8 none }) fun l => { l with cut := some 1 }
     (s.launch 0).map (·.cut) = some (some 1) ∧ s.cutReached 0 1 = true ∧ (s.saveFamily 0).isSome = true) := by
  and_intros
  any_goals exact has_of (by decide +kernel)
  all_goals decide +kernel

/-- A copy of entry kind `op` into window offset 4096 whose record, 64 bytes of rank 1 and one element, has been obtained or not. -/
def copyOf (op : Byte) (record : Option (List Byte)) (flag : Option Nat) : Copy :=
  { blk := 0, entry := { recAddr := 8192, stage := 0, localOff := 4096, kind := op, cvt := 0, key := 0, sync := 0, rsv := false }
    fmode := 1, record := record, known := none, waits := [], locks := [], globals := [], iv := none, flag := flag, order := 0, orphan := false
    troupe := 0, fresh := 0 }

/-- The first bytes of a shape record, the rest zero: rank 1, format 0 of one byte, base 0x3000, EXT0 as given. -/
def shapeOf (ext : Byte) : List Byte := [0, 0, 1, 4, 0, 0, 0, 0, 0, 0x30, 0, 0, 0, 0, 0, 0, ext] ++ List.replicate 47 0
def shapeBytes : List Byte := shapeOf 64

/-- Core 0 with a copy in flight and its pages translated. -/
def copying (x : Copy) : State := (mapped (State.reset.seeded [])).modCore 0 fun k =>
  { k with copies := k.copies.set 0 (some x), board := [{ owner := .copy 0, slot := none, reads := [], writes := [] }] }

/-- The translation of core 0's first 2 MiB. -/
def device0 : Xlate :=
  { va := 0, size := 2097152, pa := 4194304, host := false, peer := false, writable := true, scope := 2, conf := false, repl := false }

/-- A released entry, read or not. -/
def releasedEntry (read : Bool) : Released :=
  { pos := 0, addr := 4096, fmode := 1, pc := 0, entry := if read then some (copyOf 0 none none).entry else none, failed := false, time := 0, troupe := 0, fresh := 0 }

/-- A block with a script at 4096, nothing read or released of it, or with released entries and no script. -/
def scripting (on : Bool) (rs : List Released) : State :=
  (mapped (State.reset.seeded [])).modBlock 0 0 fun b => { b with script := 4096, scripted := on, relq := rs }

theorem witness_ScriptReads :
    (let s := scripting true []
     Has s 0 ∧ (((s.core 0).block 0).map fun k => (k.scripted, k.relq, k.ahead.lookup k.pos, k.entryAddr k.pos)) = some (true, [], none, 4096) ∧
     Mapped s 0 (s.ownerOf 0 0) 4096 device0 ∧ s.poisonAt device0 4096 32 = none) ∧
    (let s := scripting false [releasedEntry false]
     ((s.core 0).block 0).map (fun k => (k.scripted, k.relq)) = some (false, [releasedEntry false]) ∧
     (releasedEntry false).entry = none ∧ (releasedEntry false).failed = false ∧
     Mapped s 0 (s.ownerOf 0 0) 4096 device0 ∧ s.poisonAt device0 4096 32 = none ∧
     ((s.core 0).block 0).any (fun k => ((ScriptEntry.read (s.readThrough device0 4096 32)).check k (s.core 0).mem).isNone) = true) ∧
    (((State.reset.seeded []).core 0).block 0).map (fun k => (k.scripted, k.relq)) = some (false, []) ∧
    ((State.reset.seeded []).core 0).block 1 = none := by
  and_intros
  any_goals exact has_of (by decide +kernel)
  all_goals decide +kernel

theorem witness_CopyStarts :
    (let s := scripting false [releasedEntry true]
     Has s 0 ∧ s.nextStart 0 = some 0 ∧ (((s.core 0).block 0).bind fun k => k.relq.head?) = some (releasedEntry true) ∧
     (s.core 0).copies.findIdx? (fun o => o.isNone) = some 0 ∧ s.cachedRecord 0 (s.ownerOf 0 0).1 8192 = none) ∧
    (State.reset.seeded []).nextStart 0 ≠ some 0 := by
  and_intros
  any_goals exact has_of (by decide +kernel)
  all_goals decide +kernel

/-- A RAW record of 64 bytes at 0x3000, with its CHECK. -/
def rawRecord : List Byte :=
  let bs : List Byte := [0, 0, 1, 0, 0, 0, 0, 0, 0, 0x30, 0, 0, 0, 0, 0, 0, 64] ++ List.replicate 39 0 ++ [3] ++ List.replicate 7 0
  bs.take 4 ++ natToBytes 4 (recordCheck bs) ++ bs.drop 8

/-- A record that memory holds and its check refuses, one of the cache that passes, and a key slot that refuses and one that does not. -/
theorem witness_RecordObtained :
    (let x := copyOf 0 none none
     let s := copying x
     Has s 0 ∧ (s.core 0).copy 0 = some x ∧ (s.core 0).block 0 = some Block.seed ∧ x.record = none ∧ x.flag = none ∧ x.known = none ∧
     (s.core 0).decHeld x = false ∧ s.cachedRecord 0 (s.ownerOf 0 0).1 8192 = none ∧ Mapped s 0 (s.ownerOf 0 0) 8192 device0 ∧
     s.poisonAt device0 8192 64 = none ∧ (x.entry.recordFlag Block.seed (s.core 0).mem (s.readThrough device0 8192 64)).isSome = true) ∧
    (∀ v, let x := copyOf 4 none none
      let s := ((copying x).modCore 0 fun k => { k with keys := k.keys.set 0 { v := v, part := 0, pasid := 0, key := 1, salt := 2, ctr := 3 } }).cacheRecord
        0 0 8192 rawRecord
      x.entry.op = 4 ∧ (s.core 0).copy 0 = some x ∧ (s.core 0).decHeld x = false ∧ s.cachedRecord 0 (s.ownerOf 0 0).1 8192 = some rawRecord ∧
      x.entry.recordFlag Block.seed (s.core 0).mem rawRecord = none ∧ ((s.core 0).keyOf x.entry).refuses (s.ownerOf 0 0) = !v) := by
  and_intros
  any_goals exact has_of (by decide +kernel)
  all_goals decide +kernel

/-- A copy that ended with a flag, one without an element, and a plain one, held by an older command or not. -/
theorem witness_CopyCompletes :
    (let x := copyOf 0 none (some flagXlate)
     let s := copying x
     HasObject s 0 0 0 Block.seed ∧ (s.core 0).copy 0 = some x ∧ x.record = none ∧ x.orphan = false ∧ x.entry.sync.getLsbD 7 = false ∧ flagXlate < 32) ∧
    (let x := copyOf 0 (some (shapeOf 0)) none
     HasObject (copying x) 0 0 0 Block.seed ∧ ((copying x).core 0).copy 0 = some x ∧ (Shape.read (shapeOf 0)).count = 0) ∧
    (let x := copyOf 0 (some shapeBytes) none
     let s := copying x
     let m : Move := { core := 0, x := x, sh := Shape.read shapeBytes, b := Block.seed, lo := x.entry.start Block.seed (s.core 0).mem }
     let r := s.engineViews 0 (s.ownerOf 0 0) false (pagesOf m.remotes)
     HasObject s 0 0 0 Block.seed ∧ (s.core 0).copy 0 = some x ∧ (Shape.read shapeBytes).count ≠ 0 ∧ x.entry.op = 0 ∧
     (s.core 0).boardHeld (.copy 0) = false ∧ (s.core 0).globalHeld x = false ∧ (r.1.all fun v => decide (v.2 ≠ .refused ∧ v.2 ≠ .wait)) = true ∧
     (m.remotes.all fun a => (r.2.remoteByte r.1 a).isSome) = true ∧
     ∀ a ∈ m.remotes, Mapped s 0 (s.ownerOf 0 0) (a / 4096 * 4096) device0 ∧ s.poisonAt device0 a 1 = none) ∧
    (let whole : List Span := [{ lo := 0, hi := 65536 }]
     let s := (copying (copyOf 0 (some shapeBytes) none)).modCore 0 fun k =>
       { k with board := [{ owner := .matrix 9, slot := none, reads := [], writes := whole }, { owner := .copy 0, slot := none, reads := [], writes := whole }] }
     (s.core 0).boardHeld (.copy 0) = true) := by
  and_intros
  any_goals exact has_of (by decide +kernel)
  any_goals decide +kernel
  intro a ha
  have h : ((({ core := 0, x := copyOf 0 (some shapeBytes) none, sh := Shape.read shapeBytes, b := Block.seed
                lo := (copyOf 0 (some shapeBytes) none).entry.start Block.seed ((copying (copyOf 0 (some shapeBytes) none)).core 0).mem } : Move).remotes).all
      fun a => decide ((((copying (copyOf 0 (some shapeBytes) none)).core 0).lookup ((copying (copyOf 0 (some shapeBytes) none)).ownerOf 0 0) (a / 4096 * 4096) = some device0 ∧
        (copying (copyOf 0 (some shapeBytes) none)).viewOf ((copying (copyOf 0 (some shapeBytes) none)).ownerOf 0 0) false (a / 4096 * 4096) (.ok device0) = .ok device0) ∧
        (copying (copyOf 0 (some shapeBytes) none)).poisonAt device0 a 1 = none)) = true := by decide +kernel
  have h' := of_decide_eq_true (List.all_eq_true.1 h a ha)
  exact h'

/-- Pair 0 with one matrix command, that has still to scrub the cells or not. -/
def commanded (op : MatOp) (started lastRead : Bool) (rel : Option (Nat × Nat)) (arr : Option Nat) : State :=
  let x : MatCmd := { id := 4, core := 0, blk := 0, troupe := 0, fresh := 0, op := op, window := 0, arr := arr, rel := rel, pert := none, started := started
                      lastRead := lastRead, cells := [(5, 7)], bytes := [], status := 0, orphan := false, own := (0, 0), scrub := !started, muted := false
                      raced := [], dropped := [] }
  let s := (State.reset.seeded []).modCore 0 fun k => { k with board := [{ owner := .matrix 4, slot := some 0, reads := [], writes := [] }] }
  { s with pairs := s.pairs.set 0 { s.pair 0 with queue := [x], owner := some (0, 0) } }

def default_ : Tile := { base := 4096, rows := 1, rowbytes := 64, stride := 64, fmt := 1, swz := false, scale := 0, meta_ := 0, nkeep := 0 }

theorem witness_MatrixSteps :
    (let s := commanded (.zero 0 1 0 1) false false none none
     ((s.pair 0).queue.find? (fun x => !x.started)).any (fun x => s.matrixReady 0 x && x.scrub) = true) ∧
    ((State.reset.pair 0).queue.find? (fun x => !x.started)) = none ∧
    (let s := commanded (.store default_ 0 0 1 4) true false none none
     ((s.pair 0).queue.find? (fun x => x.started && !x.lastRead)).any (fun x => !x.op.freesAtRead && x.rel.isNone && x.raced.isEmpty) = true) ∧
    (let s := commanded (.load default_ 0 0) true false (some (0, 1)) none
     ((s.pair 0).queue.find? (fun x => x.started && !x.lastRead)).any (fun x => x.op.freesAtRead && x.rel == some (0, 1) && !x.orphan) = true ∧
     (s.core 0).mem.wf = true) ∧
    (let s := commanded (.zero 0 1 0 1) true true none (some 0)
     decide (0 < s.pairs.length) = true ∧ Has s 0 ∧ ((s.pair 0).queue.map fun x => (x.lastRead, x.arr)) = [(true, some 0)] ∧
     HasObject s 0 0 0 Block.seed) := by
  and_intros
  any_goals exact has_of (by decide +kernel)
  all_goals decide +kernel


/-- A launch record of job 7, after job 5, with KDESC 8192 and its CHECK byte right or wrong; KDESC 8200 is refused with reason 6. -/
def launchBytes (kdesc : Nat) (good : Bool) : List Byte :=
  let bs := natToBytes 8 kdesc ++ natToBytes 4 1 ++ List.replicate 28 0 ++ natToBytes 4 7 ++ natToBytes 4 5 ++ List.replicate 16 0
  bs.set 60 (BitVec.ofNat 8 (launchCheck bs + if good then 0 else 1))

/-- Queue 0 with one record at its head. -/
def queuing (kdesc : Nat) (good passed : Bool) : State :=
  let r : QRec := { bytes := launchBytes kdesc good, seq := 3, qcfg := 0, desc := some Desc.seed, args := List.replicate 8 0, passed := passed }
  (State.reset.seeded []).modQueue 0 fun q => { q with recs := [r] }

theorem witness_FrontEnd :
    (let s := State.reset
     (s.part 0).en = true ∧ (s.part 0).quiesced = false ∧ (s.sched.queue 7).recs.length < 64 ∧ (s.part 1).en = false) ∧
    (∀ good, ((queuing 8192 good false).sched.queue 0).recs.map (fun r => (r.passed, decide (recField r 60 1 = launchCheck r.bytes), recField r 44 4)) = [(false, good, 5)]) ∧
    (∀ j ∈ (queuing 8192 true false).jobsOf 0, j.job ≠ 5) ∧ ((queuing 8192 true false).jobsOf 0).length < 2048 ∧
    ((queuing 8192 true false).sched.queue 0).recs.map (fun r => ((queuing 8192 true false).refuse 0 r, r.desc)) = [(none, some Desc.seed)] ∧
    ((queuing 8200 true false).sched.queue 0).recs.map (fun r => (queuing 8200 true false).refuse 0 r) = [some 6] ∧
    (let s := { queuing 8192 true false with sched := { (queuing 8192 true false).sched with jobs := [{ part := 0, job := 5, cgroup := 0, launch := 9 }] } }
     ∃ j ∈ s.jobsOf 0, j.job = 5) ∧
    (0x10007 : Word).getLsbD 16 = true ∧
    (let s := { State.reset.seeded [] with sched := { (State.reset.seeded []).sched with presented := [(0, 7)] } }
     s.sched.presented = [(0, 7)]) ∧
    (∀ il, let s := launching (State.reset.seeded []) fun l => { l with il := il, blocks := 1, ended := 1, final := false }
      s.launch 0 = some { Launch.seed with il := il, blocks := 1, ended := 1, final := false } ∧ ∀ k ∈ s.kin 0, k.ranges = [] ∧ k.blocks ≤ k.ended) ∧
    (let s := launching (State.reset.seeded []) fun l => { l with il := 1, final := true, unscanned := [] }
     (s.launch 0).map (fun l => (l.final, l.il, l.unscanned)) = some (true, 1, [])) := by
  refine ⟨?_, ?_, ?_, ?_, ?_, ?_, ?_, ?_, ?_, fun il => ⟨rfl, ?_⟩, ?_⟩ <;> first | decide +kernel | skip
  intro k hk
  have : k = { Launch.seed with il := il, blocks := 1, ended := 1, final := false } := by
    have h : (launching (State.reset.seeded []) fun l => { l with il := il, blocks := 1, ended := 1, final := false }).kin 0 =
        [{ Launch.seed with il := il, blocks := 1, ended := 1, final := false }] := rfl
    rw [h] at hk
    exact List.mem_singleton.1 hk
  subst this
  exact ⟨rfl, Nat.le_refl 1⟩

/-- Two partitions side by side, idle: partition 0 with clusters 0 to 7 and half the colours, partition 1 with the rest. -/
def halves : State :=
  let p0 := { Partition.reset 0 with cllimit := 7, colour := 0x00000000FFFFFFFF, fbnd := 0x00FF }
  let p1 := { Partition.reset 0 with clbase := 8, cllimit := 15, colour := 0xFFFFFFFF00000000, fbnd := 0xFF00 }
  { State.reset with parts := (State.reset.parts.set 0 p0).set 1 p1 }

/-- The reset state with partition 0 changed. -/
def parted (f : Partition → Partition) : State := { State.reset with parts := State.reset.parts.set 0 (f (State.reset.part 0)) }

/-- A bind record of queue 0 for the launch with number `seq`, on core 0 of cluster 0. -/
def bindWord (op prio seq clmask : Nat) : BitVec 128 := BitVec.ofNat 128 (op * 64 + prio * 256 + seq * 2 ^ 32 + clmask * 2 ^ 64 + 2 ^ 80)

/-- The placed launch's queue with a passed record, its launch not bound yet and none of its blocks placed. -/
def waiting : State :=
  (launching (queuing 8192 true true) fun l => { l with seq := 3, bound := false }).modCore 0 fun k => { k with troupes := [], blocks := List.replicate 8 none }

/-- A launch bound to core 0 with blocks left, owned or not, and nothing placed. -/
def bound (owner : Option Nat) (f : Launch → Launch) : State :=
  launching ((State.reset.seeded []).modCore 0 fun k => { k with troupes := [], blocks := List.replicate 8 none, ctxs := List.replicate 32 Ctx.reset })
    fun l => f { l with blocks := 4, ranges := [{ lo := 0, hi := 4, owner := owner }] }

/-- The reset state with checked pair 0 changed. -/
def pairing (f : CheckedPair → CheckedPair) (s : State) : State :=
  { s with sirip := { s.sirip with pairs := s.sirip.pairs.set 0 (f (s.checkedPair 0)) } }

theorem witness_Binds :
    (let r := BindRec.read (bindWord 0 23 3 1)
     (waiting.waitingLaunch 0 r.seq).any (fun l => waiting.bindOk r 0 0 l && decide (l.il < 2)) = true ∧ waiting.namesUnderstudy r.clmask r.coremask = false ∧
     waiting.isHead 0 r.seq = true ∧ waiting.family 0 = [0] ∧ waiting.blocksOf [0] = []) ∧
    (waiting.waitingLaunch 0 (BindRec.read (bindWord 0 0 99 1)).seq = none ∧ waiting.boundLaunch 0 (BindRec.read (bindWord 0 0 99 1)).seq = none) ∧
    (let s := State.reset.seeded []
     let r (op prio : Nat) := BindRec.read (bindWord op prio 0 1)
     (s.boundLaunch 0 (r 1 0).seq).any (s.bindOk (r 1 0) 1 0) = true ∧ (s.boundLaunch 0 (r 2 23).seq).any (s.bindOk (r 2 23) 2 0) = true ∧
     (s.boundLaunch 0 (r 0 0).seq).any (fun l => s.setOk (r 0 0) (r 0 0).queue l && s.rowCore 127 l && decide (l.part = 0)) = true ∧
     s.partOf (127 / 8) = some 0 ∧ ((halves.part 1).en = true ∧ halves.partOf (127 / 8) = some 1)) ∧
    (let s := pairing (fun p => { p with checked := true }) (State.reset.seeded [])
     8 / 8 % 2 = 1 ∧ (s.checkedPair (8 / 16)).checked = true ∧ ((s.boundLaunch 0 (BindRec.read (bindWord 0 0 0 1)).seq).isSome) = true) := by
  decide +kernel

theorem witness_Placing :
    (let s := bound none fun l => { l with draining := some 65536 }
     (s.launch 0).map (fun l => (l.draining, l.cut)) = some (some 65536, none) ∧ s.anyPlaced 0 = false) ∧
    ((launching (State.reset.seeded []) fun l => { l with cutAllowed := true }).launch 0).map (fun l => (l.cutAllowed, l.bound, l.final, l.parent, l.cut)) =
      some (true, true, false, none, none) ∧
    ((bound none id).nextAsker = some 0 ∧ (bound none id).asks 0 = true) ∧
    (bestOffer (((bound none id).candidatesFor 0).filter fun l => (l.owned 0).isNone && ((bound none id).fits 0 l).isSome && !(bound none id).stopped l) 0).isSome = true ∧
    (((bound (some 0) id).core 0).hasReady = false ∧ (bound (some 0) id).nextRetry 0 = none ∧ ((bound (some 0) id).placing 0).isSome = true) ∧
    (let s := (bound (some 0) id).modCore 0 fun k => { k with retryPlace := [(0, 2)] }
     (s.launch 0).any (fun l => (s.fits 0 l).isSome && s.inSet l 0 && !s.stopped l) = true) ∧
    (let s := launching plain fun l => { l with deadline := 1 }
     (s.launchOf 0 0).map (·.deadline) = some 1 ∧ ((s.core 0).block 0).map (·.ending) = some false ∧ ((s.core 0).troupe 0 0).map (·.watched) = some false ∧
     s.ageStands 0 Block.seed Troupe.seed = false) := by
  decide +kernel

/-- A path that waits for its mailbox: its launch cancelled, with no block left, with a block of the core's, and with blocks of another core. -/
theorem witness_Mailbox :
    (let s := queued [record (.mailbox 65520) false]
     (s.core 0).cue.find? (fun r => r.rid == 7 && !r.ready) = some (record (.mailbox 65520) false) ∧ ((s.core 0).block 0).isSome = true ∧
     (s.launchOf 0 0).map (fun l => (l.cancelled, s.stopped l, l.ranges)) = some (false, false, [])) ∧
    (let s := launching (queued [record (.mailbox 65520) false]) fun l => { l with ranges := [{ lo := 1, hi := 4, owner := some 0 }] }
     ((s.launchOf 0 0).bind fun l => l.owned 0) = some { lo := 1, hi := 4, owner := some 0 } ∧
     (s.launchOf 0 0).any (fun l => (s.fetchAnswer 0 l).isSome) = true) ∧
    (let s := launching (queued [record (.mailbox 65520) false]) fun l => { l with ranges := [{ lo := 1, hi := 2, owner := some 5 }] }
     (s.launchOf 0 0).any (fun l => (s.fetchAnswer 0 l).isNone) = true) ∧
    (let s := launching (queued [record (.mailbox 65520) false]) fun l => { l with cancelled := true }
     (s.launchOf 0 0).map (·.cancelled) = some true) := by
  decide +kernel

/-- Core 0, or two together, in a rotation state. -/
def serving (v : Service) : State := State.reset.modCore 0 fun k => { k with service := v }

theorem witness_SiripSteps :
    State.reset.nextQuench = some 0 ∧ State.reset.noQuench = true ∧
    (let s := { State.reset with sched := { State.reset.sched with rotation := some 127 } }
     s.noQuench = true ∧ s.nextQuench = none) ∧
    (let s := serving .drain
     s.inState (s.together 0) .drain = true ∧ (∀ k ∈ s.together 0, (s.core k).unplaced = true ∧ s.engineQuiet k .matrix = true) ∧ (s.core ((s.together 0).headD 0)).preempt = none) ∧
    (let s := serving .scan
     s.inState (s.together 0) .scan = true ∧ (∀ k ∈ s.together 0, s.mustFail k = false) ∧ s.sirip.lockstepLost = false ∧
     ((s.useFailing (s.together 0)).markScanFail (s.together 0) |>.core 0).lanesRetired + (([3, 63, 64].filter fun l => decide (l < 64)).eraseDups).length ≤ 2 ∧
     2 < ((s.useFailing (s.together 0)).markScanFail (s.together 0) |>.core 0).lanesRetired + (([0, 1, 2].filter fun l => decide (l < 64)).eraseDups).length) ∧
    (serving .restore).inState ((serving .restore).together 0) .restore = true ∧
    State.reset.siripFree 0x00000000 = true ∧ State.reset.refusesRequest 0x00000000 = true ∧
    State.reset.siripFree 0x00000100 = true ∧ State.reset.refusesRequest 0x00000100 = false ∧
    (let s := { State.reset with sirip := { State.reset.sirip with pairs := State.reset.sirip.pairs.set 7 { CheckedPair.reset with changing := some true, named := some (0, 3) } } }
     (s.checkedPair 7).changing = some true ∧ s.pairDrained 7 = true ∧ s.sirip.lockstepLost = false ∧
     ∀ c ∈ pairCores 7, ((s.pairClear 7).core c).allSpilled = true) ∧
    ((plain.core 0).troupe 0 0).isSome = true ∧ plain.checkedCore 0 = false ∧
    (let s := { plain with sirip := { plain.sirip with pairs := plain.sirip.pairs.set 0 { CheckedPair.reset with checked := true } } }
     s.checkedCore 0 = true) ∧
    (let s := { State.reset with sirip := { State.reset.sirip with pairs := State.reset.sirip.pairs.set 7 { CheckedPair.reset with lasting := true } } }
     7 < s.sirip.pairs.length ∧ (s.checkedPair 7).lasting = true ∧ s.pairDrained 7 = true ∧ s.sirip.lockstepLost = false) ∧
    State.reset.checkedCore ((State.reset.together 0).headD 0) = false ∧ State.reset.sirip.failingChannel = none ∧ 31 ∉ State.reset.sirip.retiredChannels ∧
    (let s := { State.reset with sirip := { State.reset.sirip with failingChannel := some 31, migration := some 7 }, slotTab := State.reset.slotTab.set 63 8 }
     s.sirip.failingChannel = some 31 ∧ s.sirip.migration = some 7 ∧ s.idleSlot = true) ∧
    (∀ v ∈ [450, 549, 550], let s := { State.reset with clusters := State.reset.clusters.set 15 { Cluster.reset with supply := v } }
     15 < s.clusters.length ∧ (s.cluster 15).supply = v) ∧
    (let s := { State.reset with sirip := { State.reset.sirip with faultN := true, faultSeq := 5 } }
     s.sirip.faultN = true ∧ (4 : Word).toNat < s.sirip.faultSeq ∧ ¬(5 : Word).toNat < s.sirip.faultSeq) := by
  decide +kernel

/-- A linked and signed image at 0x10000 of empty .code and .kdesc sections, with one kernel, but for the public key of its .sign section. -/
def unsigned : State :=
  { State.reset with
    dramReady := true
    dram := [(0x10000, 4, 0x01464F4A), (0x10004, 2, 1), (0x10006, 2, 3), (0x10008, 2, 3), (0x1000C, 4, 64), (0x10010, 8, 0x20000), (0x10018, 4, 1),
      (0x10040, 2, 1), (0x10048, 8, 512), (0x10060, 2, 4), (0x10068, 8, 512), (0x10080, 2, 10), (0x10088, 8, 512), (0x10090, 8, 1836),
      (0x10202, 2, 1), (0x10200 + 68, 4, 0x04000000), (0x10200 + 64 + 1128, 4, 0x08000000)].foldl (fun m x => Memory.writeNat m x.1 x.2.1 x.2.2) [] }

theorem foldl_shaRound_length (xs : List (Word × Word)) (h : List Word) (hh : h.length = 8) : (xs.foldl shaRound h).length = 8 := by
  induction xs generalizing h with
  | nil => exact hh
  | cons x t ih => exact ih _ rfl

theorem sha256_length (msg : List Byte) : (sha256 msg).length = 32 := by
  have hb : ∀ (bs : List (List Byte)) (h : List Word), h.length = 8 → (bs.foldl shaBlock h).length = 8 := by
    intro bs
    induction bs with
    | nil => exact fun _ h => h
    | cons b t ih => exact fun h hh => ih _ (by simp [shaBlock, hh, foldl_shaRound_length])
  have hs : ∀ ws : List Word, ((ws.map fun w => bigBytes 4 w.toNat).flatten).length = 4 * ws.length := by
    intro ws
    induction ws with
    | nil => rfl
    | cons w t ih => simp only [List.map_cons, List.flatten_cons, List.length_append, List.length_cons, ih]; simp [bigBytes, natToBytes_length]; omega
  unfold sha256
  rw [hs, hb _ _ (by decide +kernel)]

/-- The root that a signature of a message leads to. -/
def rootOf (ident sig msg : List Byte) : List Byte :=
  let q := bigNat (sig.take 4)
  lmsClimb ident (2 ^ 20 + q) ((List.range 20).map fun i => (sig.drop (1132 + 32 * i)).take 32)
    (sha256 (ident ++ bigBytes 4 (2 ^ 20 + q) ++ bigBytes 2 0x8282 ++ otsCandidate ident q msg ((sig.drop 4).take 1124)))

theorem rootOf_length (ident sig msg : List Byte) : (rootOf ident sig msg).length = 32 := by
  have h : ∀ (n : Nat) (ps : List (List Byte)) (t : List Byte), t.length = 32 → (lmsClimb ident n ps t).length = 32 := by
    intro n ps
    induction ps generalizing n with
    | nil => exact fun _ h => h
    | cons p rest ih => exact fun t _ => ih _ _ (sha256_length _)
  exact h _ _ _ (sha256_length _)

/-- A signature verifies under the key whose root it leads to. -/
theorem verifies_of {pk sig msg : List Byte} (hp : pk.length = 56) (hs : sig.length = 1772) (hq : bigNat (sig.take 4) < 2 ^ 20)
    (ht : (pk.take 4 == bigBytes 4 8 && (pk.drop 4).take 4 == bigBytes 4 4 && ((sig.drop 4).take 1124).take 4 == bigBytes 4 4 &&
      (sig.drop 1128).take 4 == bigBytes 4 8) = true)
    (hr : (pk.drop 24).take 32 = rootOf ((pk.drop 8).take 16) sig msg) : lmsVerify pk sig msg = true := by
  unfold lmsVerify
  simp only [hr, hp, hs, hq, ht, rootOf, decide_true, beq_self_eq_true, Bool.and_self]

/-- The image with a public key, which Sirip's table holds; the signed-kernel table is empty or full. -/
def withKey (pk : List Byte) (full : Bool) : State :=
  { unsigned with
    dram := unsigned.dram.writeBytes 0x10208 pk
    sirip := { unsigned.sirip with keyTable := unsigned.sirip.keyTable.set 7 pk
                                   signed := if full then List.replicate 64 { kdesc := 0, codeAddr := 0, codeSize := 0, codeHash := 0, descAddr := 0, descSize := 0, descHash := 0 } else [] } }

theorem readBytes_length (m : Memory) (a n : Nat) : (m.readBytes a n).length = n := by simp [Memory.readBytes]

/-- Bytes outside the key read as before, and the key's as the key. -/
theorem withKey_read {pk : List Byte} (hp : pk.length = 56) (b : Bool) (a n : Nat) (h : a + n ≤ 0x10208 ∨ 0x10240 ≤ a) :
    (withKey pk b).dram.readBytes a n = unsigned.dram.readBytes a n := by
  refine List.map_congr_left fun i hi => ?_
  rw [List.mem_range] at hi
  show (unsigned.dram.writeBytes 0x10208 pk).read (a + i) = unsigned.dram.read (a + i)
  exact Memory.read_writeBytes_other _ _ _ _ (by decide +kernel) (by rw [hp]; omega)

theorem withKey_key {pk : List Byte} (hp : pk.length = 56) (b : Bool) : (withKey pk b).dram.readBytes 0x10208 56 = pk := by
  refine List.ext_getElem (by rw [readBytes_length, hp]) fun i h1 h2 => ?_
  simp only [Memory.readBytes, List.getElem_map, List.getElem_range]
  show (unsigned.dram.writeBytes 0x10208 pk).read (0x10208 + i) = _
  rw [Memory.read_writeBytes_same _ _ _ _ (by decide +kernel) h2, List.getD_eq_getElem _ _ h2]

/-- The sections of the image: .code, .kdesc and .sign. -/
theorem unsigned_sections : unsigned.sections 0x10000 =
    [{ type := 1, offset := 512, size := 0, addr := 0 }, { type := 4, offset := 512, size := 0, addr := 0 }, { type := 10, offset := 512, size := 1836, addr := 0 }] := by
  decide +kernel

theorem withKey_file {pk : List Byte} (hp : pk.length = 56) (b : Bool) (off n : Nat) (h : off + n ≤ 512) :
    (withKey pk b).fileNat 0x10000 off n = unsigned.fileNat 0x10000 off n := by
  unfold State.fileNat State.dramNat Memory.readNat
  rw [withKey_read hp b _ _ (.inl (by omega))]

theorem withKey_sections {pk : List Byte} (hp : pk.length = 56) (b : Bool) : (withKey pk b).sections 0x10000 = unsigned.sections 0x10000 := by
  have h8 : unsigned.fileNat 0x10000 8 2 = 3 := by decide +kernel
  have h12 : unsigned.fileNat 0x10000 12 4 = 64 := by decide +kernel
  unfold State.sections
  rw [withKey_file hp b 8 2 (by omega), withKey_file hp b 12 4 (by omega), h8, h12]
  refine List.map_congr_left fun i hi => ?_
  rw [List.mem_range] at hi
  simp only
  rw [withKey_file hp b _ 2 (by omega), withKey_file hp b _ 8 (by omega), withKey_file hp b _ 8 (by omega), withKey_file hp b _ 8 (by omega)]

/-- There is a key under which the image's signature verifies. -/
theorem key_exists : ∃ pk, pk.length = 56 ∧ ∀ b, (withKey pk b).signatureOk 0x10000 ((withKey pk b).sections 0x10000)
    { type := 10, offset := 512, size := 1836, addr := 0 } = true := by
  obtain ⟨sig, hsig⟩ : ∃ x, x = unsigned.dram.readBytes 0x10240 1772 := ⟨_, rfl⟩
  have hlen : sig.length = 1772 := by rw [hsig, readBytes_length]
  have hq : bigNat (sig.take 4) < 2 ^ 20 := by rw [hsig]; decide +kernel
  have ht : (((sig.drop 4).take 1124).take 4 == bigBytes 4 4 && (sig.drop 1128).take 4 == bigBytes 4 8) = true := by rw [hsig]; decide +kernel
  obtain ⟨msg, hmsg⟩ : ∃ x, x = ((unsigned.sections 0x10000).filter fun x => x.type != 10).flatMap (unsigned.sectionRecord 0x10000) := ⟨_, rfl⟩
  obtain ⟨root, hroot⟩ : ∃ r, r = rootOf (List.replicate 16 0) sig msg := ⟨_, rfl⟩
  have hrl : root.length = 32 := by rw [hroot, rootOf_length]
  obtain ⟨pk, hpk⟩ : ∃ r : List Byte, r = ([0, 0, 0, 8, 0, 0, 0, 4] ++ List.replicate 16 0) ++ root := ⟨_, rfl⟩
  have hp : pk.length = 56 := by rw [hpk, List.length_append, hrl]; rfl
  have hdrop : (pk.drop 24).take 32 = root := by rw [hpk, List.drop_left' (by rfl), List.take_of_length_le (by omega)]
  have hv : lmsVerify pk sig msg = true := by
    refine verifies_of hp hlen hq ?_ ?_
    · rw [Bool.and_assoc, Bool.and_eq_true, ht, hpk]; exact ⟨rfl, rfl⟩
    · rw [hdrop, hroot, hpk]; rfl
  refine ⟨pk, hp, fun b => ?_⟩
  have hm : ((withKey pk b).sections 0x10000 |>.filter fun x => x.type != 10).flatMap ((withKey pk b).sectionRecord 0x10000) = msg := by
    rw [hmsg, withKey_sections hp b, unsigned_sections]
    simp [State.sectionRecord, State.digest, Memory.readBytes]
  unfold State.signatureOk
  simp only [hm]
  have h1 : (withKey pk b).dramNat (0x10000 + 512 + 2) 2 = 1 := by
    unfold State.dramNat Memory.readNat
    rw [withKey_read hp b _ _ (.inl (by omega))]
    decide +kernel
  have h2 : (withKey pk b).dram.readBytes (0x10000 + 512 + 8) 56 = pk := withKey_key hp b
  have h3 : (withKey pk b).dram.readBytes (0x10000 + 512 + 64) 1772 = sig := by
    rw [hsig, show 0x10000 + 512 + 64 = 0x10240 from rfl, withKey_read hp b 0x10240 1772 (.inr (Nat.le_refl _))]
  have hk : (withKey pk b).sirip.keyTable.contains pk = true := by
    rw [List.contains_iff_mem]
    exact List.mem_set (by decide +kernel) pk
  rw [h1, h2, h3, hk, hv]
  decide

/-- An image that REGISTER_IMAGE accepts: linked and signed, under a key of the table, with the loaded sections as in the file; and the same with the table full. -/
theorem witness_RegisterImage : ∃ pk, ∀ b, let s := withKey pk b
    s.linkedImage 0x10000 0x10000 = true ∧ bitsOf (s.fileNat 0x10000 6 2) 1 1 = 1 ∧
    sectionOf (s.sections 0x10000) 1 = some { type := 1, offset := 512, size := 0, addr := 0 } ∧
    sectionOf (s.sections 0x10000) 4 = some { type := 4, offset := 512, size := 0, addr := 0 } ∧
    sectionOf (s.sections 0x10000) 10 = some { type := 10, offset := 512, size := 1836, addr := 0 } ∧
    s.signatureOk 0x10000 (s.sections 0x10000) { type := 10, offset := 512, size := 1836, addr := 0 } = true ∧
    (∀ t, s.loadedSame 0x10000 (s.fileNat 0x10000 16 8) { type := t, offset := 512, size := 0, addr := 0 } = true) ∧
    s.sirip.signed.length = (if b then 64 else 0) ∧
    (s.imageEntries 0x10000 { type := 1, offset := 512, size := 0, addr := 0 } { type := 4, offset := 512, size := 0, addr := 0 }).length = 1 := by
  obtain ⟨pk, hp, hs⟩ := key_exists
  refine ⟨pk, fun b => ?_⟩
  have hd (a n : Nat) : (withKey pk b).devReadable a n = unsigned.devReadable a n := by
    have h1 : (withKey pk b).dramReady = unsigned.dramReady := rfl
    have h2 : (withKey pk b).poison = unsigned.poison := rfl
    have h : (withKey pk b).sirip.retiredChannels = unsigned.sirip.retiredChannels := rfl
    have h3 : (withKey pk b).capacity = unsigned.capacity := by simp only [State.capacity, Sirip.survivors, h]
    simp only [State.devReadable, h1, h2, h3]
  refine ⟨?_, ?_, ?_, ?_, ?_, hs b, ?_, ?_, ?_⟩
  · unfold State.linkedImage
    rw [withKey_sections hp b, withKey_file hp b 0 4 (by omega), withKey_file hp b 4 2 (by omega), withKey_file hp b 6 2 (by omega), withKey_file hp b 12 4 (by omega),
      withKey_file hp b 8 2 (by omega), hd]
    decide +kernel
  · rw [withKey_file hp b 6 2 (by omega)]; decide +kernel
  · rw [withKey_sections hp b, unsigned_sections]; rfl
  · rw [withKey_sections hp b, unsigned_sections]; rfl
  · rw [withKey_sections hp b, unsigned_sections]; rfl
  · intro t
    unfold State.loadedSame State.digest
    simp only [Memory.readBytes, List.range_zero, List.map_nil, beq_self_eq_true, Bool.and_true]
    rw [withKey_file hp b 16 8 (by omega), hd]
    decide +kernel
  · cases b <;> rfl
  · unfold State.imageEntries
    rw [List.length_map, List.length_range, withKey_file hp b 24 4 (by omega)]
    decide +kernel

theorem witness_HostSteps :
    (State.reset.slotNext 63 = 0 ∧ State.reset.quiet 0 = false ∧ (parted fun p => { p with quiesced := true }).quiet 0 = true) ∧
    (State.reset.reopening = [] ∧ State.reset.slotTab.length = 64 ∧ 0 < State.reset.parts.length) ∧
    ((((State.reset.part 0).write 0 3).isSome && ((parted fun p => { p with quiesced := true }).part 0).quiesced) = true) ∧
    (partsSound State.reset.parts = true ∧ (State.reset.part 0).tdi = .unlocked) ∧
    (halves.parts.length = 8 ∧ (halves.part 0).cllimit.toNat + 1 = (halves.part 1).clbase.toNat ∧
      bankCount (colourCount ((halves.part 0).colour ||| (halves.part 1).colour)) = true ∧ (halves.part 0).en = true ∧ (halves.part 1).en = true ∧
      halves.busy 0 = false ∧ halves.busy 1 = false ∧ (halves.part 0).tdi = .unlocked ∧ (halves.part 1).tdi = .unlocked ∧ (State.reset.part 1).en = false) ∧
    ((State.reset.part 0).clbase.toNat < 1 ∧ 15 ≤ (State.reset.part 0).cllimit.toNat ∧ (0x00000000FFFFFFFF : DWord) &&& ~~~(State.reset.part 0).colour = 0 ∧
      bankCount (colourCount 0x00000000FFFFFFFF) = true ∧ bankCount (colourCount ((State.reset.part 0).colour &&& ~~~0x00000000FFFFFFFF)) = true ∧
      State.reset.slotsOf 0 = List.range 64 ∧ State.reset.busy 0 = false) ∧
    (let s := { parted fun p => { p with tdi := .run } with spdmSession := true }
     s.spdmSession = true ∧ (s.part 0).tdi = .run ∧ 127 ∈ s.coresOf 0 ∧ (s.cores.all fun k => k.keys.all fun x => !x.v) = true) ∧
    (let q : PageRequest := { index := 3, part := 0, pasid := 0, va := 4096, sent := true }
     ({ State.reset with pri := [q] } : State).requestOf 3 = some q ∧ State.reset.requestOf 3 = none) ∧
    (({ State.reset with hostOps := [hostOp] } : State).hostOps.find? fun o => o.core == 0 && o.rid == 7) = some hostOp ∧
    (State.reset.dramReady = false ∧ plain.dramReady = true ∧ plain.tripped = false ∧ 4096 + 64 ≤ plain.capacity) ∧
    (State.reset.invals.length < 32 ∧ State.reset.sirip.requests.length < 16) ∧
    ((parted fun p => { p with tdi := .locked }).part 0).tdi = .locked ∧ ((parted fun p => { p with tdi := .error }).part 0).tdi = .error := by
  decide +kernel

theorem witness_SecuritySteps :
    (∀ t, ((parted fun p => { p with tdi := t }).part (1 - 1)).tdi = t) ∧ ((parted fun p => { p with ideNext := some 5 }).part 0).ideNext = some 5 ∧
    ({ State.reset with spdmSession := true } : State).spdmSession = true ∧ State.reset.spdmSession = false ∧
    ({ State.reset with spdmLeaf := 2 ^ 20 - 1 } : State).spdmLeaf < 2 ^ 20 ∧ 2 ^ 20 ≤ ({ State.reset with spdmLeaf := 2 ^ 20 } : State).spdmLeaf ∧
    State.reset.fw.active = 1 ∧ ({ State.reset with fw := { State.reset.fw with active := 2 } } : State).fw.active = 2 ∧
    State.reset.fw.verifies State.reset.fw.active = true ∧ State.reset.fw.verifies 2 = false ∧ State.reset.fw.hb = false ∧
    ({ State.reset with fw := { State.reset.fw with hb := true } } : State).fw.hb = true ∧
    (plain.dramReady = true ∧ plain.dram.wf = true ∧ State.reset.dramReady = false) ∧
    (∀ check, let s := { plain with
        fw := { plain.fw with handed := true }
        dram := (plain.dram.writeNat plain.fw.handover 4 1).writeNat (plain.fw.handover + 48) 4 check }
      s.fw.hb = false ∧ s.fw.handed = true ∧ (check = 0xFFFFFFFE → s.handoverHolds = true) ∧ (check = 0 → s.handoverHolds = false)) := by
  refine ⟨fun t => rfl, ?_⟩
  and_intros
  any_goals decide +kernel
  intro check
  exact ⟨rfl, rfl, fun h => by subst h; decide +kernel, fun h => by subst h; decide +kernel⟩

/-- The reset state with the link in a state. -/
def linked (en : Bool) (st : Nat) : State := { State.reset with link := { State.reset.link with en := en, state := st } }

theorem witness_LinkAndReset :
    (linked false 0).link.en = false ∧ ((linked true 2).link.en = true ∧ (linked true 2).link.state ≠ 3) ∧ ((linked true 3).link.en = true ∧ (linked true 3).link.state = 3) ∧
    ((linked true 1).link.state = 1 ∧ (linked true 1).link.en = true) ∧
    (let s := { plain with link := (linked true 2).link }
     s.link.state = 2 ∧ s.dramReady = true ∧ s.tripped = false ∧ 4096 + 64 ≤ s.capacity) ∧ State.reset.dramReady = false := by
  decide +kernel

/-- A path to issue with an empty agenda, a second group, a named core, an event, and nothing to issue. -/
theorem witness_StepRunsDecoded :
    (let s := State.reset.withFetchWord 64 1
     s.agenda = [] ∧ s.issuing = some { core := 0, blk := 0, troupe := 0, lanes := BitVec.allOnes 64, pc := 0 } ∧ s.fetched 0 0 = .ok (.nop noGuard { len := .l64 })) ∧
    (let s := State.reset.withFetchWord 64 0
     s.issuing.isSome = true ∧ s.fetched 0 0 = .error .illegal) ∧
    (let s := { State.reset.withFetchWord 64 1 with agenda := [.issue 0] }
     s.pick 0 = some { core := 0, blk := 0, troupe := 0, lanes := BitVec.allOnes 64, pc := 0 }) ∧
    (let q : Issue := { core := 0, blk := 0, troupe := 0, lanes := 3, pc := 0 }
     let s := { State.reset.withFetchWord 64 1 with agenda := [.second q] }
     s.remaining q = some q) ∧
    (Instr.heartbeat.parts = none ∧ State.reset.barred .heartbeat = false ∧
      ({ State.reset with tripped := true } : State).barred (.hostMemoryRequest 0 0 true []) = true) ∧
    (State.reset.agenda = [] ∧ State.reset.issuing = none ∧ State.reset.checkedPairs = [] ∧ ∀ k ∈ State.reset.cores, k.preempt = none) ∧
    (0 < State.reset.cores.length ∧ State.reset.dram.wf = true ∧ decodeTableWord 64 1 = some (.nop noGuard { len := .l64 })) := by
  decide +kernel

/-- A checked pair of a placed troupe, whose understudy holds what the leader holds. -/
def checkedNop : State :=
  let s := State.reset.withFetchWord 64 1
  pairing (fun p => { p with checked := true, twin := s.cores.take 8, twinPairs := s.pairs.take 4 }) s

theorem witness_PairStep :
    checkedNop.checkedPairs ≠ [] ∧
    (match turn checkedNop.mirrored with
     | .next m => match turn { checkedNop with events := [], expected := some m.events, struck := none } with
       | .next t => decide (t.struck = none ∧ m.struck = none ∧ t.expected = some [] ∧ checkedNop.leaders.flatMap (checkedNop.hashStruck m t) = [])
       | _ => false
     | _ => false) = true := by
  decide +kernel

/-- A well-formed instruction of 8 bytes fits at the end of a 32-byte line, and its bytes decode there. -/
theorem witness_RoundTrip : (Instr.nop noGuard { len := .l64 }).WellFormed ∧ 24 % 32 + 8 ≤ 32 ∧
    decode 24 ([1, 0, 0, 0, 0, 0, 0, 0] ++ List.replicate 8 0) = .ok (.nop noGuard { len := .l64 }) :=
  ⟨⟨by decide +kernel, by decide +kernel⟩, by decide +kernel⟩

theorem witness_SoundKept : State.reset.sound = true ∧ (match step State.reset with | .next _ => true | _ => false) = true := by
  decide +kernel

/-- With E: a path that begins a region, one that must stop there, and one with no active lane; and a register outside a small allocation. -/
theorem witness_InstructionFrame :
    (let s := plain
     s.cur = some (issueOf 3) ∧ ((s.core 0).troupe 0 0).isSome = true ∧ isOk (s.unselect.regionEntry (issueOf 3)) = true ∧
     isOk (s.performPushes 0 0 0 3) = true) ∧
    (match plain.unselect.regionEntry (issueOf 3) with | .ok s1 => !s1.mustStop (issueOf 3) | .error _ => false) = true ∧
    (match (preempting false plain).unselect.regionEntry (issueOf 3) with | .ok s1 => s1.mustStop (issueOf 3) | .error _ => false) = true ∧
    ((List.range 64).all fun l => ((plain.unselect.troupe (path 3 12)).lane l).pred 0 == true) = true ∧
    regBoundOf (.fadd noGuard (rf 60 64 3 0 0 0)) 64 = some 64 ∧ regBoundOf (.fadd noGuard (rf 63 63 63 0 0 0)) 64 = none ∧
    (let s := plain.modTroupe 0 0 0 fun t => { t with marks := [{ reg := 3, hold := 3 }] }
     ((s.core 0).troupe 0 0).map (·.marks) = some [{ reg := 3, hold := 3 }] ∧ isOk (s.regionEntry (issueOf 3)) = true) := by
  decide +kernel

/-- The bench with register 1 dead, or awaited by a deferred access, or of another tag. -/
def unready (dead pending : Bool) : State := bench 3 fun t => { t with
  regs := t.regs.set 1 { tag := .i32, dead := dead, lanes := List.replicate 64 0 },
  deferred := if pending then [{ rid := 5, lanes := 1, fresh := 1, data := [{ reg := 1, tag := .i32, lanes := [] }], pieces := [], kind := 4, returned := false, poison := none, kept := [], peer := false }] else [] }

theorem witness_OperandChecks :
    allBegin (unready true false) [(.iadd noGuard (rf 60 1 1 0 0 0), 12)] ∧ allBegin (unready false true) [(.iadd noGuard (rf 60 1 1 0 0 0), 12), (.iadd noGuard (rf 1 32 32 0 0 0), 12)] ∧
    allBegin plain [(.iadd noGuard (rf 60 2 1 0 0 0), 12), (.iadd noGuard (rf 60 1 2 0 0 0), 12), (.iadd noGuard { rf 60 1 1 0 0 0 with pa := 13, pb := 2 }, 12)] ∧
    sourceFault ((unready true false).troupe (path 3 12)) 0 1 (typed (rf 60 1 1 0 0 0)) = some (codeDeadRead, 1) ∧
    sourceFault ((unready false true).troupe (path 3 12)) 0 1 (typed (rf 60 1 1 0 0 0)) = some (codePendRead, 1) ∧
    sourceFault (plain.troupe (path 3 12)) 0 2 (typed (rf 60 2 1 0 0 0)) = some (codeTagFault, 2) ∧
    sourceFault (plain.troupe (path 3 12)) 1 2 (typed (rf 60 1 2 0 0 0)) = some (codeTagFault, 18) ∧
    sourceFault (plain.troupe (path 3 12)) 0 1 (typed (rf 60 1 2 0 0 0)) = none ∧
    isPort 2039 = false ∧ isPort 2040 = true :=
  ⟨all_begin (by decide +kernel), all_begin (by decide +kernel), all_begin (by decide +kernel), by decide +kernel⟩

theorem witness_FaultTaken :
    0 < plain.cores.length ∧ ((plain.core 0).troupe 0 0).isSome = true ∧ (plain.launchOf 0 0).isSome = true ∧ ((plain.core 0).block 0).isSome = true ∧
    plain.faultRoom false = true ∧ dispositionOf Launch.seed codeTagFault = 0 ∧
    dispositionOf { Launch.seed with disp := (List.replicate 26 0).set codeTagFault 2 } codeTagFault = 2 ∧ codeTagFault ≠ codeCancelled ∧
    (plain.launch (plain.topLaunch 0)).isSome = true := by
  decide +kernel

/-! ### Every constructor's decoding, by a word written out from the tables of R32 to R43 and R56 -/

/-- Every listed word decodes to the instruction beside it. -/
def decodes (n : Nat) (xs : List (Nat × Instr)) : Bool := xs.all fun x => decodeTableWord n x.1 == some x.2

theorem test_decode_nop :
    decodes 64 [(0x00000000_00000001, .nop noGuard { len := .l64 }),
      (0x00000000_0000D401, .nop { e := true, gn := true, g := 5 } { len := .l64 })] = true ∧
    decodes 96 [(0x2, .nop noGuard { len := .l96 })] = true ∧ decodes 128 [(0x3, .nop noGuard { len := .l128 })] = true := by
  decide +kernel

theorem test_decode_register_forms_1 : (
    -- D, A, B with last reads at 64 bits (R35, R149, R150, R152, R153, R219, R221, R222, R226, R227).
    (let h : Head := { e := true, gn := true, g := 5 }
     let f : RForm := { len := .l64, d := 10, a := 600, b := 1027, c := 0, sub := 1, la := true, lb := false, lc := false, mod := 0, pa := 0, pb := 0, pc := 0 }
     decodes 64 (
     [(0x010300D2_C00AD441, .iadd h f), (0x010300D2_C00AD445, .isub h f), (0x010300D2_C00AD449, .imul h f),
      (0x010300D2_C00AD44D, .imulh h f), (0x010300D2_C00AD455, .imin h f), (0x010300D2_C00AD459, .imax h f),
      (0x010300D2_C00AD471, .shl h f), (0x010300D2_C00AD475, .shr h f), (0x010300D2_C00AD47D, .rot h f),
      (0x010300D2_C00AD4A9, .idiv h f), (0x010300D2_C00AD4AD, .irem h f), (0x010300D2_C00AD48D, .bfx h f),
      (0x010300D2_C00AD581, .fadd h f), (0x010300D2_C00AD585, .fsub h f), (0x010300D2_C00AD589, .fmul h f),
      (0x010300D2_C00AD591, .fmin h f), (0x010300D2_C00AD595, .fmax h f), (0x010300D2_C00AD5C1, .fdiv h f),
      (0x010300D2_C00AD5C9, .fscale h f), (0x010300D2_C00AD5CD, .fcpys h f)])) &&
    -- The bitwise majors, SHFL and SEL by p0, at 64 bits (R35, R151, R154, R157).
    (let h : Head := { e := false, gn := false, g := 15 }
     let f : RForm := { len := .l64, d := 2039, a := 4, b := 2041, c := 0, sub := 0, la := true, lb := false, lc := false, mod := 0, pa := 0, pb := 0, pc := 0 }
     decodes 64 (
     [(0x0101FE40_27F73C61, .and h f), (0x0101FE40_27F73C65, .or h f), (0x0101FE40_27F73C69, .xor h f),
      (0x0101FE40_27F73C6D, .andn h f), (0x0101FE40_27F73CB5, .shfl h f), (0x0101FE40_27F73C95, .sel h f)])) &&
    -- D and A at 64 bits (R35, R153, R224, R225, R227).
    (let h : Head := { e := true, gn := true, g := 5 }
     let f : RForm := { len := .l64, d := 10, a := 600, b := 0, c := 0, sub := 1, la := true, lb := false, lc := false, mod := 0, pa := 0, pb := 0, pc := 0 }
     decodes 64 (
     [(0x01020012_C00AD481, .popc h f), (0x01020012_C00AD485, .clz h f), (0x01020012_C00AD489, .brev h f),
      (0x01020012_C00AD59D, .fclass h f), (0x01020012_C00AD5A1, .frcp h f), (0x01020012_C00AD5A5, .fsqrt h f),
      (0x01020012_C00AD5A9, .frsq h f), (0x01020012_C00AD5AD, .fexp2 h f), (0x01020012_C00AD5B1, .flog2 h f),
      (0x01020012_C00AD5B5, .fsinp h f), (0x01020012_C00AD5B9, .fcosp h f), (0x01020012_C00AD5BD, .ftanh h f),
      (0x01020012_C00AD5C5, .frnd h f)])) &&
    -- SAR and IABS name signed types (R35, R152).
    (let h : Head := { e := true, gn := true, g := 5 }
     let f : RForm := { len := .l64, d := 10, a := 11, b := 12, c := 0, sub := 2, la := false, lb := true, lc := false, mod := 0, pa := 0, pb := 0, pc := 0 }
     decodes 64 (
     [(0x02040300_580AD479, .sar h f)])) &&
    -- IABS (R35, R149).
    (let h : Head := { e := true, gn := true, g := 5 }
     let f : RForm := { len := .l64, d := 10, a := 11, b := 0, c := 0, sub := 2, la := false, lb := false, lc := false, mod := 8, pa := 0, pb := 0, pc := 0 }
     decodes 64 (
     [(0x20040000_580AD45D, .iabs h f)])) &&
    -- D, A, B and C at 96 bits (R37, R149, R153, R219).
    (let h : Head := { e := true, gn := true, g := 5 }
     let f : RForm := { len := .l96, d := 10, a := 600, b := 1027, c := 77, sub := 1, la := false, lb := false, lc := true, mod := 0, pa := 0, pb := 0, pc := 0 }
     decodes 96 (
     [(0x0000084D_000300D2_C00AD452, .imad h f), (0x0000084D_000300D2_C00AD492, .bfi h f),
      (0x0000084D_000300D2_C00AD58E, .ffma h f)])) &&
    -- The permutations of a 128-bit word (R39, R149, R219).
    (let h : Head := { e := false, gn := false, g := 0 }
     let f : RForm := { len := .l128, d := 1, a := 2, b := 3, c := 0, sub := 0, la := false, lb := false, lc := false, mod := 8, pa := 365, pb := 52, pc := 0 }
     decodes 128 (
     [(0x0000696D_00000000_200000C0_10010043, .iadd h f), (0x0000696D_00000000_200000C0_10010183, .fadd h f)])) &&
    -- Register pairs (R35, R156, R229).
    (let h : Head := { e := true, gn := true, g := 5 }
     let f : RForm := { len := .l64, d := 10, a := 12, b := 14, c := 0, sub := 0, la := false, lb := false, lc := false, mod := 0, pa := 0, pb := 0, pc := 0 }
     decodes 64 (
     [(0x00000380_600AD49D, .iadd64 h f), (0x00000380_600AD4A1, .isub64 h f), (0x00000380_600AD5D1, .dwadd h f),
      (0x00000380_600AD5D9, .dwmul h f)])) &&
    -- IMULW and VRDOTC write a pair (R35, R156, R231).
    (let h : Head := { e := true, gn := true, g := 5 }
     let f : RForm := { len := .l64, d := 10, a := 11, b := 13, c := 0, sub := 0, la := false, lb := false, lc := false, mod := 0, pa := 0, pb := 0, pc := 0 }
     decodes 64 (
     [(0x00000340_580AD4A5, .imulw h f), (0x00000340_580AD5F5, .vrdotc h f)]))) = true := by
  decide +kernel

theorem test_decode_register_forms_2 : (
    -- LEA with shift 3 (R35, R156).
    (let h : Head := { e := true, gn := true, g := 5 }
     let f : RForm := { len := .l64, d := 10, a := 12, b := 13, c := 0, sub := 25, la := false, lb := false, lc := false, mod := 0, pa := 0, pb := 0, pc := 0 }
     decodes 64 (
     [(0x00320340_600AD4B1, .lea h f)])) &&
    -- DWADDS and DWMULS (R35, R229).
    (let h : Head := { e := true, gn := true, g := 5 }
     let f : RForm := { len := .l64, d := 10, a := 12, b := 13, c := 0, sub := 0, la := false, lb := false, lc := false, mod := 0, pa := 0, pb := 0, pc := 0 }
     decodes 64 (
     [(0x00000340_600AD5D5, .dwadds h f), (0x00000340_600AD5DD, .dwmuls h f)])) &&
    -- DWNORM (R35, R229).
    (let h : Head := { e := true, gn := true, g := 5 }
     let f : RForm := { len := .l64, d := 10, a := 12, b := 0, c := 0, sub := 0, la := false, lb := false, lc := false, mod := 0, pa := 0, pb := 0, pc := 0 }
     decodes 64 (
     [(0x00000000_600AD5E1, .dwnorm h f)])) &&
    -- FADD.X, FSUB.X and FMUL.X write pairs (R35, R219).
    (let h : Head := { e := false, gn := false, g := 0 }
     let f : RForm := { len := .l64, d := 20, a := 5, b := 6, c := 0, sub := 0, la := false, lb := false, lc := false, mod := 16, pa := 0, pb := 0, pc := 0 }
     decodes 64 (
     [(0x40000180_28140181, .fadd h f), (0x40000180_28140185, .fsub h f), (0x40000180_28140189, .fmul h f)])) &&
    -- The lane reductions (R35, R231).
    (let h : Head := { e := false, gn := false, g := 0 }
     let f : RForm := { len := .l64, d := 6, a := 5, b := 0, c := 0, sub := 0, la := false, lb := false, lc := false, mod := 0, pa := 0, pb := 0, pc := 0 }
     decodes 64 (
     [(0x00000000_280601E5, .vrsum h f), (0x00000000_280601ED, .vrmax h f), (0x00000000_280601F1, .vrmin h f),
      (0x00000000_280601E9, .vrsumc h f)])) &&
    -- ICMP (R35, R155).
    (let h : Head := { e := true, gn := true, g := 5 }
     let f : RForm := { len := .l64, d := 15, a := 5, b := 6, c := 0, sub := 41, la := false, lb := false, lc := false, mod := 0, pa := 0, pb := 0, pc := 0 }
     decodes 64 (
     [(0x00520180_280FD499, .icmp h f)])) &&
    -- FCMP (R35, R223).
    (let h : Head := { e := true, gn := true, g := 5 }
     let f : RForm := { len := .l64, d := 15, a := 5, b := 6, c := 0, sub := 17, la := false, lb := false, lc := false, mod := 0, pa := 0, pb := 0, pc := 0 }
     decodes 64 (
     [(0x00220180_280FD599, .fcmp h f)])) &&
    -- MOV with an indexed source (R35, R158).
    (let h : Head := { e := true, gn := true, g := 5 }
     let f : RForm := { len := .l64, d := 5, a := 1026, b := 0, c := 0, sub := 16, la := false, lb := false, lc := false, mod := 0, pa := 0, pb := 0, pc := 0 }
     decodes 64 (
     [(0x00200020_1005D4B9, .mov h f)])) &&
    -- MOVK of a uniform register to a pair (R35, R159).
    (let h : Head := { e := true, gn := true, g := 5 }
     let f : RForm := { len := .l64, d := 6, a := 63, b := 0, c := 0, sub := 11, la := false, lb := false, lc := false, mod := 0, pa := 0, pb := 0, pc := 0 }
     decodes 64 (
     [(0x00160001_F806D4BD, .movk h f)]))) = true := by
  decide +kernel

theorem test_decode_register_forms_3 : (
    -- REINT to F32 (R35, R175).
    (let h : Head := { e := true, gn := true, g := 5 }
     let f : RForm := { len := .l64, d := 6, a := 7, b := 0, c := 0, sub := 1, la := true, lb := false, lc := false, mod := 0, pa := 0, pb := 0, pc := 0 }
     decodes 64 (
     [(0x01020000_3806D579, .reint h f)])) &&
    -- Predicate operations (R35, R167).
    (let h : Head := { e := true, gn := true, g := 5 }
     let f : RForm := { len := .l64, d := 15, a := 14, b := 13, c := 0, sub := 2, la := false, lb := false, lc := false, mod := 0, pa := 0, pb := 0, pc := 0 }
     decodes 64 (
     [(0x00040340_700FD541, .pand h f), (0x00040340_700FD545, .por h f), (0x00040340_700FD549, .pxor h f)])) &&
    -- PNOT, PELECT and PMOV (R35, R167, R168, R169).
    (let h : Head := { e := true, gn := true, g := 5 }
     let f : RForm := { len := .l64, d := 15, a := 14, b := 0, c := 0, sub := 0, la := false, lb := false, lc := false, mod := 0, pa := 0, pb := 0, pc := 0 }
     decodes 64 (
     [(0x00000000_700FD54D, .pnot h f), (0x00000000_700FD561, .pelect h f), (0x00000000_700FD565, .pmov h f)])) &&
    -- PSET from a uniform register (R35, R167).
    (let h : Head := { e := true, gn := true, g := 5 }
     let f : RForm := { len := .l64, d := 15, a := 62, b := 0, c := 0, sub := 2, la := false, lb := false, lc := false, mod := 0, pa := 0, pb := 0, pc := 0 }
     decodes 64 (
     [(0x00040001_F00FD551, .pset h f)])) &&
    -- PBAL (R35, R168).
    (let h : Head := { e := true, gn := true, g := 5 }
     let f : RForm := { len := .l64, d := 62, a := 14, b := 0, c := 0, sub := 1, la := false, lb := false, lc := false, mod := 0, pa := 0, pb := 0, pc := 0 }
     decodes 64 (
     [(0x00020000_703ED555, .pbal h f)])) &&
    -- PANY and PALL (R35, R168).
    (let h : Head := { e := true, gn := true, g := 5 }
     let f : RForm := { len := .l64, d := 7, a := 14, b := 0, c := 0, sub := 0, la := false, lb := false, lc := false, mod := 0, pa := 0, pb := 0, pc := 0 }
     decodes 64 (
     [(0x00000000_7007D559, .pany h f), (0x00000000_7007D55D, .pall h f)])) &&
    -- BRX and CALLX name a register pair (R35, R141, R142).
    (let h : Head := { e := true, gn := true, g := 5 }
     let f : RForm := { len := .l64, d := 0, a := 12, b := 0, c := 0, sub := 0, la := true, lb := false, lc := false, mod := 0, pa := 0, pb := 0, pc := 0 }
     decodes 64 (
     [(0x01000000_6000D40D, .brx h f), (0x01000000_6000D415, .callx h f)])) &&
    -- CVT from F32 (R35, R233).
    (let h : Head := { e := true, gn := true, g := 5 }
     let f : RForm := { len := .l64, d := 6, a := 7, b := 0, c := 0, sub := 8, la := false, lb := false, lc := false, mod := 3, pa := 0, pb := 0, pc := 0 }
     decodes 64 (
     [(0x0C100000_3806D601, .cvt h f)])) &&
    -- CVTI (R35, R234).
    (let h : Head := { e := true, gn := true, g := 5 }
     let f : RForm := { len := .l64, d := 6, a := 7, b := 0, c := 0, sub := 4, la := false, lb := false, lc := false, mod := 1, pa := 0, pb := 0, pc := 0 }
     decodes 64 (
     [(0x04080000_3806D615, .cvti h f)]))) = true := by
  decide +kernel

theorem test_decode_register_forms_4 : (
    -- CVTBX (R35, R236).
    (let h : Head := { e := true, gn := true, g := 5 }
     let f : RForm := { len := .l64, d := 6, a := 8, b := 0, c := 0, sub := 1, la := false, lb := false, lc := false, mod := 0, pa := 0, pb := 0, pc := 0 }
     decodes 64 (
     [(0x00020000_4006D605, .cvtbx h f)])) &&
    -- CVTXB (R35, R237).
    (let h : Head := { e := true, gn := true, g := 5 }
     let f : RForm := { len := .l64, d := 8, a := 6, b := 0, c := 0, sub := 1, la := false, lb := false, lc := false, mod := 0, pa := 0, pb := 0, pc := 0 }
     decodes 64 (
     [(0x00020000_3008D609, .cvtxb h f)])) &&
    -- PACK2 (R35, R235).
    (let h : Head := { e := true, gn := true, g := 5 }
     let f : RForm := { len := .l64, d := 9, a := 6, b := 7, c := 0, sub := 6, la := false, lb := false, lc := false, mod := 0, pa := 0, pb := 0, pc := 0 }
     decodes 64 (
     [(0x000C01C0_3009D60D, .pack2 h f)])) &&
    -- UNPK2 (R35, R235).
    (let h : Head := { e := true, gn := true, g := 5 }
     let f : RForm := { len := .l64, d := 8, a := 6, b := 0, c := 0, sub := 2, la := false, lb := false, lc := false, mod := 0, pa := 0, pb := 0, pc := 0 }
     decodes 64 (
     [(0x00040000_3008D611, .unpk2 h f)])) &&
    -- SDRAIN and SCLOSE name a port (R35, R274, R275).
    (let h : Head := { e := true, gn := true, g := 5 }
     let f : RForm := { len := .l64, d := 0, a := 2047, b := 0, c := 0, sub := 0, la := false, lb := false, lc := false, mod := 0, pa := 0, pb := 0, pc := 0 }
     decodes 64 (
     [(0x0000003F_F800D685, .sdrain h f), (0x0000003F_F800D689, .sclose h f)])) &&
    -- SPOS and SEOS (R35, R276).
    (let h : Head := { e := true, gn := true, g := 5 }
     let f : RForm := { len := .l64, d := 12, a := 2040, b := 0, c := 0, sub := 0, la := false, lb := false, lc := false, mod := 0, pa := 0, pb := 0, pc := 0 }
     decodes 64 (
     [(0x0000003F_C00CD68D, .spos h f), (0x0000003F_C00CD691, .seos h f)])) &&
    -- SIGCHK of a pair (R35, R407).
    (let h : Head := { e := true, gn := true, g := 5 }
     let f : RForm := { len := .l64, d := 0, a := 12, b := 0, c := 0, sub := 1, la := true, lb := false, lc := false, mod := 0, pa := 0, pb := 0, pc := 0 }
     decodes 64 (
     [(0x01020000_6000D761, .sigchk h f)]))) = true := by
  decide +kernel

theorem test_decode_immediate_forms_1 : (
    -- IMM20, sign-extended (R36, R161).
    (let h : Head := { e := true, gn := true, g := 5 }
     let f : IForm := { len := .l64, d := 10, a := 600, la := true, sub := 0, mod := 0, imm := 0xfffffffd }
     decodes 64 (
     [(0x43FFFF52_C00AD4C1, .iaddi h f), (0x43FFFF52_C00AD4C5, .imuli h f), (0x43FFFF52_C00AD4C9, .andi h f),
      (0x43FFFF52_C00AD4CD, .ori h f), (0x43FFFF52_C00AD4D1, .xori h f), (0x43FFFF52_C00AD4D5, .shli h f),
      (0x43FFFF52_C00AD4D9, .shri h f), (0x43FFFF52_C00AD4DD, .sari h f), (0x43FFFF52_C00AD4E1, .icmpi h f)])) &&
    -- IMM32 (R38, R161).
    (let h : Head := { e := true, gn := true, g := 5 }
     let f : IForm := { len := .l96, d := 10, a := 600, la := true, sub := 0, mod := 0, imm := 0x87654321 }
     decodes 96 (
     [(0x87654321_01000012_C00AD4C2, .iaddi h f), (0x87654321_01000012_C00AD4C6, .imuli h f),
      (0x87654321_01000012_C00AD4CA, .andi h f), (0x87654321_01000012_C00AD4CE, .ori h f),
      (0x87654321_01000012_C00AD4D2, .xori h f), (0x87654321_01000012_C00AD4D6, .shli h f),
      (0x87654321_01000012_C00AD4DA, .shri h f), (0x87654321_01000012_C00AD4DE, .sari h f),
      (0x87654321_01000012_C00AD4E2, .icmpi h f)])) &&
    -- MOVI of an I32 (R38, R162).
    (let h : Head := { e := true, gn := true, g := 5 }
     let f : IForm := { len := .l96, d := 10, a := 0, la := false, sub := 1, mod := 0, imm := 0x3f800000 }
     decodes 96 (
     [(0x3F800000_00020000_000AD4E6, .movi h f)])) &&
    -- MOVX reads a system register (R36, R171).
    (let h : Head := { e := true, gn := true, g := 5 }
     let f : IForm := { len := .l64, d := 10, a := 0, la := false, sub := 0, mod := 0, imm := 261 }
     decodes 64 (
     [(0x00004140_000AD569, .movx h f)])) &&
    -- IDXSET from an immediate (R38, R173).
    (let h : Head := { e := true, gn := true, g := 5 }
     let f : IForm := { len := .l96, d := 7, a := 0, la := false, sub := 1, mod := 0, imm := 0x10007ff }
     decodes 96 (
     [(0x010007FF_00020000_0007D572, .idxset h f)])) &&
    -- IDXADD (R36, R174).
    (let h : Head := { e := true, gn := true, g := 5 }
     let f : IForm := { len := .l64, d := 7, a := 6, la := false, sub := 0, mod := 0, imm := 0xffffffff }
     decodes 64 (
     [(0x03FFFFC0_3007D575, .idxadd h f)]))) = true := by
  decide +kernel

theorem test_decode_control_forms_1 : (
    -- OFF26 and the uniform condition (R41, R140, R142).
    (let h : Head := { e := true, gn := true, g := 5 }
     let f : CForm := { off := 0x2abcdef, ka := 0, cp := 5, cn := true, sub := 1, imm := 0 }
     decodes 64 (
     [(0x001D02AB_CDEFD405, .bra h f), (0x001D02AB_CDEFD409, .bru h f), (0x001D02AB_CDEFD411, .call h f)])) &&
    -- RET and EXIT (R41, R142, R143).
    (let h : Head := { e := true, gn := true, g := 5 }
     let f : CForm := { off := 0, ka := 0, cp := 5, cn := true, sub := 1, imm := 0 }
     decodes 64 (
     [(0x001D0000_0000D419, .ret h f), (0x001D0000_0000D41D, .exit h f)])) &&
    -- DEPART and STEP (R41, R144, R147).
    (let h : Head := { e := true, gn := true, g := 5 }
     let f : CForm := { off := 0, ka := 0, cp := 0, cn := false, sub := 0, imm := 0 }
     decodes 64 (
     [(0x00000000_0000D421, .depart h f), (0x00000000_0000D431, .step h f)])) &&
    -- SLEEP of an immediate; TRAP and BKPT (R41, R145, R146).
    (let h : Head := { e := true, gn := true, g := 5 }
     let f : CForm := { off := 0, ka := 0, cp := 0, cn := false, sub := 0, imm := 165 }
     decodes 64 (
     [(0xA5000000_0000D425, .sleep h f), (0xA5000000_0000D429, .trap h f), (0xA5000000_0000D42D, .bkpt h f)])) &&
    -- SLEEP of a uniform register (R41, R145).
    (let h : Head := { e := false, gn := false, g := 0 }
     let f : CForm := { off := 0, ka := 41, cp := 0, cn := false, sub := 2, imm := 0 }
     decodes 64 (
     [(0x0020A400_00000025, .sleep h f)])) &&
    -- LOOP (R41, R140).
    (let h : Head := { e := false, gn := false, g := 0 }
     let f : CForm := { off := 0x3fffff8, ka := 8, cp := 0, cn := false, sub := 0, imm := 0 }
     decodes 64 (
     [(0x000023FF_FFF80035, .loop h f)]))) = true := by
  decide +kernel

theorem test_decode_uniform_forms_1 : (
    -- KA and KB (R40, R164).
    (let h : Head := { e := true, gn := true, g := 5 }
     let f : KForm := { kd := 33, ka := 21, kb := 62, sub := 0, imm := 0 }
     decodes 64 (
     [(0x00000003_E561D505, .kadd h f), (0x00000003_E561D509, .ksub h f), (0x00000003_E561D50D, .kmul h f),
      (0x00000003_E561D511, .kand h f), (0x00000003_E561D515, .kor h f), (0x00000003_E561D519, .kxor h f),
      (0x00000003_E561D51D, .kshl h f), (0x00000003_E561D521, .kshr h f), (0x00000003_E561D525, .ksar h f),
      (0x00000003_E561D535, .kmin h f), (0x00000003_E561D539, .kmax h f)])) &&
    -- KA and IMM24 (R40, R164).
    (let h : Head := { e := true, gn := true, g := 5 }
     let f : KForm := { kd := 33, ka := 21, kb := 0, sub := 1, imm := 0x876543 }
     decodes 64 (
     [(0x87654304_0561D505, .kadd h f), (0x87654304_0561D509, .ksub h f), (0x87654304_0561D50D, .kmul h f),
      (0x87654304_0561D511, .kand h f), (0x87654304_0561D515, .kor h f), (0x87654304_0561D519, .kxor h f),
      (0x87654304_0561D51D, .kshl h f), (0x87654304_0561D521, .kshr h f), (0x87654304_0561D525, .ksar h f),
      (0x87654304_0561D535, .kmin h f), (0x87654304_0561D539, .kmax h f)])) &&
    -- KMOV (R40, R164).
    (let h : Head := { e := true, gn := true, g := 5 }
     let f : KForm := { kd := 33, ka := 21, kb := 0, sub := 0, imm := 0 }
     decodes 64 (
     [(0x00000000_0561D501, .kmov h f)])) &&
    -- KCMP (R40, R164).
    (let h : Head := { e := true, gn := true, g := 5 }
     let f : KForm := { kd := 7, ka := 21, kb := 62, sub := 22, imm := 0 }
     decodes 64 (
     [(0x0000005B_E547D529, .kcmp h f)])) &&
    -- KSEL (R40, R164).
    (let h : Head := { e := true, gn := true, g := 5 }
     let f : KForm := { kd := 33, ka := 21, kb := 62, sub := 10, imm := 0 }
     decodes 64 (
     [(0x0000002B_E561D52D, .ksel h f)])) &&
    -- KRED over k3 to k9 (R40, R166).
    (let h : Head := { e := true, gn := true, g := 5 }
     let f : KForm := { kd := 33, ka := 3, kb := 9, sub := 7, imm := 0 }
     decodes 64 (
     [(0x0000001C_90E1D53D, .kred h f)])) &&
    -- KLDI of 24 bits (R40, R165).
    (let h : Head := { e := true, gn := true, g := 5 }
     let f : KForm := { kd := 33, ka := 0, kb := 0, sub := 1, imm := 0x800001 }
     decodes 64 (
     [(0x80000104_0021D531, .kldi h f)])) &&
    -- KLDI of 64 bits (R40, R165).
    (let h : Head := { e := true, gn := true, g := 5 }
     let f : LForm := { kd := 33, imm := 0x8000000000000001 }
     decodes 128 (
     [(0x80000000_00000001_00000000_0021D533, .kldi128 h f)])) &&
    -- MOVC to a system register (R40, R172).
    (let h : Head := { e := true, gn := true, g := 5 }
     let f : KForm := { kd := 0, ka := 21, kb := 0, sub := 0, imm := 258 }
     decodes 64 (
     [(0x00010200_0540D56D, .movc h f)]))) = true := by
  decide +kernel

theorem test_decode_uniform_forms_2 : (
    -- ENQ to queue slot 3 (R40, R375).
    (let h : Head := { e := false, gn := false, g := 0 }
     let f : KForm := { kd := 20, ka := 0, kb := 0, sub := 0, imm := 3 }
     decodes 64 (
     [(0x00000300_00140349, .enq h f)])) &&
    -- JOBST.QUERY (R40).
    (let h : Head := { e := false, gn := false, g := 0 }
     let f : KForm := { kd := 21, ka := 8, kb := 0, sub := 0, imm := 0 }
     decodes 64 (
     [(0x00000000_0215034D, .jobstQuery h f)])) &&
    -- JOBST.CANCEL (R40).
    (let h : Head := { e := false, gn := false, g := 0 }
     let f : KForm := { kd := 21, ka := 8, kb := 0, sub := 1, imm := 0 }
     decodes 64 (
     [(0x00000004_0215034D, .jobstCancel h f)])) &&
    -- MODE.QUERY (R40).
    (let h : Head := { e := false, gn := false, g := 0 }
     let f : KForm := { kd := 20, ka := 0, kb := 0, sub := 0, imm := 0 }
     decodes 64 (
     [(0x00000000_00140365, .modeQuery h f)])) &&
    -- MODE.REQ (R40).
    (let h : Head := { e := false, gn := false, g := 0 }
     let f : KForm := { kd := 20, ka := 21, kb := 0, sub := 1, imm := 0 }
     decodes 64 (
     [(0x00000004_05540365, .modeReq h f)]))) = true := by
  decide +kernel

theorem test_decode_memory_forms_1 : (
    -- Global access through a pair, with a negative offset (R42, R250).
    (let h : Head := { e := true, gn := true, g := 5 }
     let f : MForm := { d := 10, a := 11, kb := 33, sub := 13, ord := 0, def_ := false, la := true, ch := 2, off := 0xfffffff8 }
     decodes 96 (
     [(0xFFFFFFF8_0280D840_580AD642, .ld h f), (0xFFFFFFF8_0280D840_580AD646, .st h f)])) &&
    -- Local accesses (R42, R250).
    (let h : Head := { e := true, gn := true, g := 5 }
     let f : MForm := { d := 10, a := 11, kb := 33, sub := 1, ord := 0, def_ := false, la := false, ch := 0, off := 0x87654321 }
     decodes 96 (
     [(0x87654321_00001840_580AD64A, .ldl h f), (0x87654321_00001840_580AD64E, .stl h f)])) &&
    -- An acquiring LD and a deferred one (R42, R250).
    (let h : Head := { e := true, gn := true, g := 5 }
     let f : MForm := { d := 10, a := 11, kb := 33, sub := 1, ord := 1, def_ := false, la := false, ch := 0, off := 0 }
     decodes 96 (
     [(0x00000000_00081840_580AD642, .ld h f)])) &&
    -- LD.defer (R42, R250).
    (let h : Head := { e := true, gn := true, g := 5 }
     let f : MForm := { d := 10, a := 11, kb := 33, sub := 1, ord := 0, def_ := true, la := false, ch := 0, off := 0 }
     decodes 96 (
     [(0x00000000_00401840_580AD642, .ld h f)])) &&
    -- ST.rel and RED.rel (R42, R250, R255).
    (let h : Head := { e := true, gn := true, g := 5 }
     let f : MForm := { d := 10, a := 11, kb := 33, sub := 1, ord := 2, def_ := false, la := false, ch := 0, off := 0 }
     decodes 96 (
     [(0x00000000_00101840_580AD646, .st h f), (0x00000000_00101840_580AD65A, .red h f)])) &&
    -- ATOM and ATOML that return the old value (R42, R254, R257).
    (let h : Head := { e := true, gn := true, g := 5 }
     let f : MForm := { d := 10, a := 11, kb := 33, sub := 32, ord := 3, def_ := false, la := false, ch := 0, off := 64 }
     decodes 96 (
     [(0x00000040_001A0840_580AD656, .atom h f), (0x00000040_001A0840_580AD65E, .atoml h f)])) &&
    -- LDK (R42, R252).
    (let h : Head := { e := true, gn := true, g := 5 }
     let f : MForm := { d := 63, a := 0, kb := 33, sub := 2, ord := 1, def_ := false, la := false, ch := 0, off := 64 }
     decodes 96 (
     [(0x00000040_00082840_003FD652, .ldk h f)])) &&
    -- PREF and CCLEAN (R42, R258, R260).
    (let h : Head := { e := true, gn := true, g := 5 }
     let f : MForm := { d := 0, a := 11, kb := 33, sub := 1, ord := 0, def_ := false, la := true, ch := 0, off := 64 }
     decodes 96 (
     [(0x00000040_00801840_5800D662, .pref h f), (0x00000040_00801840_5800D66A, .cclean h f)])) &&
    -- FENCE.sc (R42, R259).
    (let h : Head := { e := true, gn := true, g := 5 }
     let f : MForm := { d := 0, a := 0, kb := 0, sub := 0, ord := 4, def_ := false, la := false, ch := 0, off := 0 }
     decodes 96 (
     [(0x00000000_00200000_0000D666, .fence h f)]))) = true := by
  decide +kernel

theorem test_decode_engine_forms_1 : (
    -- SCFG (R43, R273).
    (let h : Head := { e := true, gn := true, g := 5 }
     let f : XForm := { d := 2041, a := 0, ka := 4, kb := 5, kc := 0, sub := 1, imm := 0xffffff00, immB := 3 }
     decodes 128 (
     [(0x00000003_FFFFFF00_01005100_07F9D683, .scfg h f)])) &&
    -- SSEEK to an immediate (R43, R277).
    (let h : Head := { e := false, gn := false, g := 0 }
     let f : XForm := { d := 2040, a := 0, ka := 0, kb := 0, kc := 0, sub := 1, imm := 0x12345678, immB := 0 }
     decodes 128 (
     [(0x00000000_12345678_01000000_07F80297, .sseek h f)])) &&
    -- BINIT (R43, R311).
    (let h : Head := { e := false, gn := false, g := 0 }
     let f : XForm := { d := 0, a := 0, ka := 0, kb := 0, kc := 0, sub := 0, imm := 0x20003, immB := 0x100200 }
     decodes 128 (
     [(0x00100200_00020003_00000000_000002C3, .binit h f)])) &&
    -- EXPECT by a uniform register (R43, R312).
    (let h : Head := { e := true, gn := true, g := 5 }
     let f : XForm := { d := 0, a := 0, ka := 9, kb := 0, kc := 0, sub := 1, imm := 5, immB := 0 }
     decodes 128 (
     [(0x00000000_00000005_01000240_0000D6C7, .expect h f)])) &&
    -- ARRIVE (R43, R312).
    (let h : Head := { e := true, gn := true, g := 5 }
     let f : XForm := { d := 0, a := 0, ka := 0, kb := 0, kc := 0, sub := 0, imm := 5, immB := 7 }
     decodes 128 (
     [(0x00000007_00000005_00000000_0000D6CB, .arrive h f)])) &&
    -- AWAIT (R43, R313).
    (let h : Head := { e := false, gn := false, g := 0 }
     let f : XForm := { d := 0, a := 0, ka := 0, kb := 0, kc := 0, sub := 0, imm := 3, immB := 1 }
     decodes 128 (
     [(0x00000001_00000003_00000000_000002CF, .await h f)])) &&
    -- RINIT (R43, R314).
    (let h : Head := { e := false, gn := false, g := 0 }
     let f : XForm := { d := 0, a := 0, ka := 0, kb := 0, kc := 0, sub := 0, imm := 0x30005, immB := 7 }
     decodes 128 (
     [(0x00000007_00030005_00000000_000002D3, .rinit h f)])) &&
    -- AWAITF and RELSLOT (R43, R315).
    (let h : Head := { e := true, gn := true, g := 5 }
     let f : XForm := { d := 0, a := 0, ka := 0, kb := 0, kc := 0, sub := 0, imm := 517, immB := 0 }
     decodes 128 (
     [(0x00000000_00000205_00000000_0000D6D7, .awaitf h f), (0x00000000_00000205_00000000_0000D6DB, .relslot h f)])) &&
    -- CSTEP (R43, R316).
    (let h : Head := { e := true, gn := true, g := 5 }
     let f : XForm := { d := 0, a := 0, ka := 0, kb := 0, kc := 0, sub := 0, imm := 0x12345678, immB := 0 }
     decodes 128 (
     [(0x00000000_12345678_00000000_0000D6DF, .cstep h f)]))) = true := by
  decide +kernel

theorem test_decode_engine_forms_2 : (
    -- CSCHED (R43, R317).
    (let h : Head := { e := true, gn := true, g := 5 }
     let f : XForm := { d := 0, a := 0, ka := 9, kb := 8, kc := 0, sub := 1, imm := 0, immB := 0 }
     decodes 128 (
     [(0x00000000_00000000_01008240_0000D6E3, .csched h f)])) &&
    -- RCFENCE (R43, R318).
    (let h : Head := { e := true, gn := true, g := 5 }
     let f : XForm := { d := 0, a := 0, ka := 9, kb := 0, kc := 0, sub := 0, imm := 64, immB := 0 }
     decodes 128 (
     [(0x00000000_00000040_00000240_0000D6E7, .rcfence h f)])) &&
    -- RCFENCE.ALL (R43, R318).
    (let h : Head := { e := true, gn := true, g := 5 }
     let f : XForm := { d := 0, a := 0, ka := 0, kb := 0, kc := 0, sub := 1, imm := 0, immB := 0 }
     decodes 128 (
     [(0x00000000_00000000_01000000_0000D6E7, .rcfenceAll h f)])) &&
    -- CSTAT (R43, R320).
    (let h : Head := { e := true, gn := true, g := 5 }
     let f : XForm := { d := 9, a := 0, ka := 0, kb := 0, kc := 0, sub := 3, imm := 63, immB := 0 }
     decodes 128 (
     [(0x00000000_0000003F_03000000_0009D6EB, .cstat h f)])) &&
    -- RCSEAL (R43, R319).
    (let h : Head := { e := true, gn := true, g := 5 }
     let f : XForm := { d := 0, a := 0, ka := 9, kb := 0, kc := 0, sub := 0, imm := 64, immB := 0 }
     decodes 128 (
     [(0x00000000_00000040_00000240_0000D6EF, .rcseal h f)])) &&
    -- MMA and MMAS (R43, R330).
    (let h : Head := { e := false, gn := false, g := 0 }
     let f : XForm := { d := 0, a := 0, ka := 0, kb := 0, kc := 0, sub := 4, imm := 16, immB := 0 }
     decodes 128 (
     [(0x00000000_00000010_04000000_00000303, .mma h f), (0x00000000_00000010_04000000_00000307, .mmas h f)])) &&
    -- MZERO (R43, R331).
    (let h : Head := { e := false, gn := false, g := 0 }
     let f : XForm := { d := 0, a := 0, ka := 0, kb := 0, kc := 0, sub := 0, imm := 3, immB := 0 }
     decodes 128 (
     [(0x00000000_00000003_00000000_0000030B, .mzero h f)])) &&
    -- ACCLD and ACCST (R43, R332).
    (let h : Head := { e := false, gn := false, g := 0 }
     let f : XForm := { d := 0, a := 0, ka := 0, kb := 0, kc := 0, sub := 0, imm := 3, immB := 0 }
     decodes 128 (
     [(0x00000000_00000003_00000000_0000030F, .accld h f), (0x00000000_00000003_00000000_00000313, .accst h f)])) &&
    -- ACCRD (R43, R333).
    (let h : Head := { e := false, gn := false, g := 0 }
     let f : XForm := { d := 9, a := 0, ka := 0, kb := 0, kc := 0, sub := 0, imm := 511, immB := 0 }
     decodes 128 (
     [(0x00000000_000001FF_00000000_00090317, .accrd h f)]))) = true := by
  decide +kernel

theorem test_decode_engine_forms_3 : (
    -- ACCWR (R43, R333).
    (let h : Head := { e := false, gn := false, g := 0 }
     let f : XForm := { d := 0, a := 9, ka := 0, kb := 0, kc := 0, sub := 0, imm := 511, immB := 0 }
     decodes 128 (
     [(0x00000000_000001FF_00000000_4800031B, .accwr h f)])) &&
    -- MLIVE and MPERT (R43, R337, R339).
    (let h : Head := { e := false, gn := false, g := 0 }
     let f : XForm := { d := 0, a := 0, ka := 0, kb := 0, kc := 0, sub := 0, imm := 513, immB := 0 }
     decodes 128 (
     [(0x00000000_00000201_00000000_0000031F, .mlive h f), (0x00000000_00000201_00000000_00000323, .mpert h f)])) &&
    -- MSTAT (R43, R340).
    (let h : Head := { e := false, gn := false, g := 0 }
     let f : XForm := { d := 9, a := 0, ka := 0, kb := 0, kc := 0, sub := 1, imm := 0, immB := 0 }
     decodes 128 (
     [(0x00000000_00000000_01000000_00090327, .mstat h f)])) &&
    -- FETCHW (R43, R373).
    (let h : Head := { e := false, gn := false, g := 0 }
     let f : XForm := { d := 0, a := 0, ka := 4, kb := 0, kc := 0, sub := 0, imm := 0x40000000, immB := 0 }
     decodes 128 (
     [(0x00000000_40000000_00000100_00000343, .fetchw h f)])) &&
    -- SPAWN (R43, R374).
    (let h : Head := { e := false, gn := false, g := 0 }
     let f : XForm := { d := 20, a := 0, ka := 5, kb := 6, kc := 7, sub := 0, imm := 0, immB := 0 }
     decodes 128 (
     [(0x00000000_00000000_001C6140_00140347, .spawn h f)]))) = true := by
  decide +kernel

/-! ### Instructions that the checks refuse, one for each check (R59) -/

theorem refused_of {i : Instr} {f : DecodeFault} (h : i.decodeFault = some f) : ¬ i.WellFormed := fun w => by rw [w.2] at h; cases h

/-- An ill-formed instruction for each check, with the fault it raises. -/
def illFormed : List (Instr × DecodeFault) :=
  [-- unused field
   (.popc noGuard (rf 1 2 3 0 0 0), .illegal),
   -- source is a port
   (.accwr noGuard (xf 0 2040 0 0 0), .illegal),
   -- last read of a port
   (.iadd noGuard { rf 1 2040 3 0 0 0 with la := true }, .illegal),
   -- permutation
   (.iadd noGuard { rf 1 2 3 0 0 0 with len := .l128, pa := 6 }, .illegal),
   -- rotation amount
   (.iadd noGuard { rf 1 2 3 0 0 0 with len := .l128, pb := 7 * 8 + 4 }, .illegal),
   -- group of ports
   (.iadd64 noGuard (rf 2 2039 4 0 0 0), .illegal),
   -- pair alignment
   (.iadd64 noGuard (rf 2 5 4 0 0 0), .pairAlign 5),
   -- destination alignment
   (.imulw noGuard (rf 3 5 4 0 0 0), .pairAlign 3),
   -- illegal before alignment
   (.imulw noGuard (rf 3 5 4 1 0 0), .illegal),
   -- load to a port
   (.ld noGuard (mf 2040 2 1 0), .illegal),
   -- predicate number
   (.pand noGuard { rf 16 1 1 0 0 0 with len := .l64 }, .illegal),
   -- not a port
   (.sdrain noGuard { rf 0 2039 0 0 0 0 with len := .l64 }, .illegal),
   -- indexed last read
   (.mov noGuard { rf 1 2 0 0 16 0 with la := true }, .illegal),
   -- length
   (.imad noGuard { rf 1 2 3 0 0 0 with len := .l64 }, .illegal),
   -- absent field
   (.iadd noGuard { rf 1 2 3 0 0 0 with pb := 1 }, .illegal),
   -- third source
   (.ffma noGuard { rf 1 2 3 4 0 0 with len := .l64 }, .illegal),
   -- type
   (.iadd noGuard (rf 1 2 3 0 5 0), .illegal),
   -- saturation
   (.and noGuard (rf 1 2 3 0 0 8), .illegal),
   -- rounding
   (.fadd noGuard (rf 1 2 3 0 0 6), .illegal),
   -- exact pair of bf16
   (.fadd noGuard (rf 2 2 4 0 2 16), .illegal),
   -- compared element
   (.fcmp noGuard (rf 1 2 3 0 32 0), .illegal),
   -- condition
   (.icmp noGuard (rf 1 2 3 0 48 0), .illegal),
   -- conversion
   (.cvt noGuard (rf 1 2 0 0 0 0), .illegal),
   -- to integer
   (.cvti noGuard (rf 1 2 0 0 3 0), .illegal),
   -- tag
   (.movi noGuard (if_ 1 0 9 0), .illegal),
   -- immediate length
   (.idxset noGuard { if_ 1 0 1 0 with len := .l64 }, .illegal),
   -- immediate size
   (.iaddi noGuard { if_ 1 2 0 0x80000 with len := .l64 }, .illegal),
   -- system register
   (.movx noGuard { if_ 1 0 0 0x011 with len := .l64 }, .illegal),
   -- lane to uniform
   (.movx noGuard { if_ 1 0 0 0x010 with len := .l64 }, .illegal),
   -- written register
   (.movc noGuard { kf 0 0x010 with kd := 0, kb := 0 }, .illegal),
   -- control immediate
   (.bra noGuard (cf 0), .illegal),
   -- condition without uc
   (.bra noGuard { cf 0 with imm := 0, cn := true }, .illegal),
   -- control sub
   (.loop noGuard { cf 1 with imm := 0 }, .illegal),
   -- second operand
   (.kadd noGuard (kf 0 1), .illegal),
   -- uniform predicate
   (.kcmp noGuard { kf 0 0 with kd := 8 }, .illegal),
   -- reduction range
   (.kred noGuard { kf 0 0 with ka := 4 }, .illegal),
   -- wide immediate
   (.kldi noGuard (kf 0 1), .illegal),
   -- order
   (.ld noGuard { mf 1 2 1 0 with ord := 2 }, .illegal),
   -- deferred acquire
   (.ld noGuard { mf 1 2 1 0 with ord := 1, def_ := true }, .illegal),
   -- hint
   (.ld noGuard { mf 1 2 1 0 with ch := 3 }, .illegal),
   -- hint of an atomic
   (.atom noGuard { mf 1 2 0 0 with ch := 1 }, .illegal),
   -- unused base
   (.ld noGuard { mf 1 2 0x31 0 with kb := 1 }, .illegal),
   -- unused index
   (.ld noGuard (mf 1 2 0x21 0), .illegal),
   -- atomic
   (.atom noGuard (mf 1 2 12 0), .illegal),
   -- engine operand
   (.cstep noGuard { xf 0 0 0 1 0 with kb := 1 }, .illegal),
   -- engine sub
   (.await noGuard (xf 0 0 2 0 0), .illegal),
   -- engine immediate
   (.binit noGuard (xf 0 0 0 64 0), .illegal),
   -- shared major
   (.jobstQuery noGuard { kf 1 0 with kb := 0 }, .illegal)]

theorem test_illformed_refused : ∀ x ∈ illFormed, ¬ x.1.WellFormed ∧ x.1.decodeFault = some x.2 := by
  have h : illFormed.all (fun x => x.1.decodeFault == some x.2) = true := by decide +kernel
  intro x hx
  have := List.all_eq_true.mp h x hx
  simp only [beq_iff_eq] at this
  exact ⟨refused_of this, this⟩

/-- Words the decoder refuses (R28, R31, R35, R42, R43, R56, R57): length code 0, a reserved major, a major without the
length, reserved bits, and a word that crosses a 32-byte line. -/
theorem test_decode_refused :
    (decodeTableWord 64 0x1FC = none ∧ decodeTableWord 64 0x39 = none ∧ decodeTableWord 96 0x06 = none ∧ decodeTableWord 64 0x51 = none) ∧
    (decodeTableWord 64 0x10001 = none ∧ decodeTableWord 96 (2 ^ 76 + 0x42) = none ∧ decodeTableWord 96 (2 ^ 58 + 0x242) = none ∧
      decodeTableWord 128 (2 ^ 63 + 0x2DF) = none ∧ decodeTableWord 64 0x4000_0000_0000_0041 = none) ∧
    decode 28 (natToBytes 16 1) = .error .boundary ∧ decode 24 (natToBytes 16 1) = .ok (.nop noGuard { len := .l64 }) ∧
    decode 20 (natToBytes 16 2) = .ok (.nop noGuard { len := .l96 }) ∧ decode 20 (natToBytes 16 3) = .error .boundary := by
  decide +kernel

/-! ### Single steps, with results from the spec -/

/-- The bench after an instruction, its registers set first. -/
def ran (i : Instr) (xs : List (Nat × Tag × Word)) : State :=
  match exec i (bench 3 fun t => { t with
      regs := xs.foldl (fun r x => r.set x.1 { tag := x.2.1, dead := false, lanes := List.replicate 64 x.2.2 }) t.regs }) with
  | .next t => t
  | _ => State.reset

/-- The troupe of the bench after an instruction. -/
def after (i : Instr) (xs : List (Nat × Tag × Word)) : Troupe := (ran i xs).troupe (path 3 0)

/-- Register `n` of lane 0 after an instruction, with its tag. -/
def result (i : Instr) (xs : List (Nat × Tag × Word)) (n : Nat) : Tag × Word :=
  (((after i xs).reg n).tag, ((after i xs).reg n).at 0)

/-- Two I32 sources in v1 and v2. -/
def ints (x y : Word) : List (Nat × Tag × Word) := [(1, .i32, x), (2, .i32, y)]
def nats (x y : Word) : List (Nat × Tag × Word) := [(1, .n32, x), (2, .n32, y)]
def floats (x y : Word) : List (Nat × Tag × Word) := [(1, .f32, x), (2, .f32, y)]

/-- The table of R150. -/
theorem test_integer_results :
    result (.idiv noGuard (rf 60 1 2 0 0 0)) (ints 7 (-2)) 60 = (.i32, -3) ∧
    result (.irem noGuard (rf 60 1 2 0 0 0)) (ints 7 (-2)) 60 = (.i32, 1) ∧
    result (.irem noGuard (rf 60 1 2 0 0 0)) (ints (-7) 2) 60 = (.i32, -1) ∧
    result (.idiv noGuard (rf 60 1 2 0 0 0)) (ints 0x80000000 (-1)) 60 = (.i32, 0x80000000) ∧
    result (.idiv noGuard (rf 60 1 2 0 1 0)) (nats 5 0) 60 = (.n32, 0xFFFFFFFF) ∧
    result (.irem noGuard (rf 60 1 2 0 0 0)) (ints (-5) 0) 60 = (.i32, -5) ∧
    result (.imulh noGuard (rf 60 1 2 0 0 0)) (ints 0x80000000 0x80000000) 60 = (.i32, 0x40000000) := by
  decide +kernel

theorem test_saturating_results :
    result (.imul noGuard (rf 60 1 2 0 0 8)) (ints 0x10000 0x10000) 60 = (.i32, 0x7FFFFFFF) ∧
    (after (.imul noGuard (rf 60 1 2 0 0 8)) (ints 0x10000 0x10000)).fstat = flagSAT ∧
    result (.iabs noGuard (rf 60 1 0 0 0 8)) (ints 0x80000000 0) 60 = (.i32, 0x7FFFFFFF) ∧
    result (.iadd noGuard (rf 60 1 2 0 3 8)) [(1, .i8x4, 0x7F0180FF), (2, .i8x4, 0x0101FFFF)] 60 = (.i8x4, 0x7F0280FE) ∧
    result (.shl noGuard (rf 60 1 2 0 0 0)) (ints 1 33) 60 = (.i32, 2) ∧
    result (.sar noGuard (rf 60 1 2 0 0 0)) (ints 0x80000000 31) 60 = (.i32, 0xFFFFFFFF) ∧
    result (.clz noGuard (rf 60 1 0 0 1 0)) (nats 0 0) 60 = (.n32, 32) := by
  decide +kernel

/-- R149 without SAT wraps; the destination may be a source; R161's example. -/
theorem test_add_wraps :
    result (.iadd noGuard (rf 1 1 2 0 0 0)) (ints 0x7FFFFFFF 1) 1 = (.i32, 0x80000000) ∧
    result (.isub noGuard (rf 2 1 2 0 1 0)) (nats 0 1) 2 = (.n32, 0xFFFFFFFF) ∧
    result (.iaddi noGuard { if_ 2 2 1 0xFFFFFFFD with mod := 8 }) (nats 0 3) 2 = (.n32, 0xFFFFFFFF) := by
  decide +kernel

/-- Bits 11 to 4 of a word as a signed field, and their replacement (R153). -/
theorem test_bit_fields :
    result (.bfx noGuard (rf 60 1 2 0 0 0)) (ints 0x00000F80 0x00000804) 60 = (.i32, 0xFFFFFFF8) ∧
    result (.bfi noGuard (rf 60 1 2 3 1 0)) [(1, .n32, 0xFFFFFFFF), (2, .i32, 0x00000804), (3, .n32, 0x12)] 60 = (.n32, 0xFFFFF12F) ∧
    result (.bfx noGuard (rf 60 1 2 0 1 0)) [(1, .n32, 0xF0000000), (2, .i32, 0x0000201C)] 60 = (.n32, 0xF) := by
  decide +kernel

/-- The example of R156: v22:23 + (v6 << 2). -/
theorem test_lea :
    let i := Instr.lea noGuard (rf 20 22 6 0 16 0)
    let xs : List (Nat × Tag × Word) := [(22, .i64l, 1), (23, .i64h, 5), (6, .i32, -1)]
    result i xs 20 = (.i64l, 0xFFFFFFFD) ∧ result i xs 21 = (.i64h, 4) := by
  decide +kernel

/-- 1 + 2^−24 ties to even under RNE and goes up under RUP, with XE; the exact pair of R205. -/
theorem test_float_results :
    result (.fadd noGuard (rf 60 1 2 0 0 1)) (floats 0x3F800000 0x33800000) 60 = (.f32, 0x3F800000) ∧
    result (.fadd noGuard (rf 60 1 2 0 0 3)) (floats 0x3F800000 0x33800000) 60 = (.f32, 0x3F800001) ∧
    (after (.fadd noGuard (rf 60 1 2 0 0 1)) (floats 0x3F800000 0x33800000)).fstat = flagXE ∧
    result (.fmul noGuard (rf 58 1 2 0 0 17)) (floats 0x3F800800 0x3F800800) 58 = (.f32, 0x3F801000) ∧
    result (.fmul noGuard (rf 58 1 2 0 0 17)) (floats 0x3F800800 0x3F800800) 59 = (.f32, 0x33800000) ∧
    result (.fmul noGuard (rf 58 1 2 0 0 19)) (floats 0x3F800800 0x3F800800) 59 = (.f32, 0xB3800000) := by
  decide +kernel

/-- R224, R227 and R204: the class of −0, 1/0, tanh of a large number under RTZ, and −1.5 to an integer under RNE. -/
theorem test_float_functions :
    result (.fclass noGuard (rf 60 1 0 0 0 0)) (floats 0x80000000 0) 60 = (.n32, 8) ∧
    result (.frcp noGuard (rf 60 1 0 0 0 1)) (floats 0x80000000 0) 60 = (.f32, 0xFF800000) ∧
    (after (.frcp noGuard (rf 60 1 0 0 0 1)) (floats 0x80000000 0)).fstat = flagDZ ∧
    result (.ftanh noGuard (rf 60 1 0 0 0 2)) (floats 0x42C80000 0) 60 = (.f32, 0x3F7FFFFF) ∧
    result (.cvti noGuard (rf 60 1 0 0 0 1)) (floats 0xBFC00000 0) 60 = (.i32, -2) := by
  decide +kernel

/-- A compare writes the predicate of the active lanes alone (R155). -/
theorem test_compare_writes_active_lanes :
    let t := after (.icmp noGuard (rf 5 1 2 0 16 0)) (ints (-1) 0)
    (t.lane 0).pred 5 = true ∧ (t.lane 1).pred 5 = true ∧ (t.lane 2).pred 5 = false ∧ (t.lane 0).pc = 12 ∧ (t.lane 2).pc = 0 := by
  decide +kernel

/-- A call pushes the address behind it and goes to a + 4 × OFF26 (R41, R142). -/
theorem test_call :
    let l := (after (.call noGuard { cf 0 with imm := 0 }) []).lane 1
    l.pc = 256 ∧ l.depth = 1 ∧ l.ret.head? = some 8 := by
  decide +kernel

/-- A uniform counter of 0 wraps and the loop goes on (R140); KSHL by 64 + 3 shifts by 3 (R164). -/
theorem test_uniform :
    (let t := after (.loop noGuard { cf 0 with imm := 0, ka := 8, off := 0x3FFFFF8 }) []
     t.k.getD 8 0 = 0xFFFFFFFFFFFFFFFF ∧ (t.lane 0).pc = 0xFFFFFFFFFFFFFFE0) ∧
    (after (.kshl noGuard { kf 1 67 with kb := 0, ka := 1 }) []).k.getD 1 0 = 0 ∧
    (after (.kldi noGuard { kd := 1, ka := 0, kb := 0, sub := 0, imm := 0xFFFFFF }) []).k.getD 1 0 = 0xFFFFFFFFFFFFFFFF := by
  decide +kernel

end Sys2Proof.Tests
end

section
/-!
The invariant behind O57: the memories and cell stores of a state are in canonical form. A body of an instruction that
keeps it is described by `Yields Sound`, a check that changes nothing by `Checks`, and a whole step by `Lands`. The
model's functions follow file by file, each with one lemma: `Sound.f` where `State.f` answers a state, `f_checks` where
it only reads and checks, `exec…_lands` for an instruction or event, `f_mem` and `f_wf` for functions of a core.
-/
namespace Sys2Proof.Machine

/-! ### The invariant -/

/-- The memories and cell stores of a state, each in canonical form. -/
structure Stored (dram host peer : Memory) (cores : List Core) (pairs : List Pair) : Prop where
  dram : dram.wf = true
  host : host.wf = true
  peer : peer.wf = true
  cores : ∀ k ∈ cores, k.mem.wf = true
  pairs : ∀ q ∈ pairs, q.cells.wf = true

/-- A state whose memories and cell stores are in canonical form. -/
def Sound (s : State) : Prop := Stored s.dram s.hostMem s.peerMem s.cores s.pairs

/-- The model's test of a sound state says just this. -/
theorem sound_iff (s : State) : s.sound = true ↔ Sound s := by
  simp only [State.sound, State.memoriesWf, State.localsWf, State.cellsWf, Core.wf, Bool.and_eq_true, List.all_eq_true]
  constructor
  · exact fun ⟨⟨⟨⟨hd, hh⟩, hp⟩, hc⟩, hq⟩ => ⟨hd, hh, hp, hc, hq⟩
  · exact fun ⟨hd, hh, hp, hc, hq⟩ => ⟨⟨⟨⟨hd, hh⟩, hp⟩, hc⟩, hq⟩

/-- A step lands in a sound state, where it lands in one at all. -/
def Lands : Host.Outcome State Fault Refusal → Prop
  | .next t => Sound t
  | _ => True

/-- A stop that brings a state brings a sound one. -/
def Stop.Tame : Stop → Prop
  | .mismatch _ s => Sound s
  | _ => True

/-- A body's answer satisfies `P`, and where it stops, it stops with a sound state. -/
def Yields {α : Type} (P : α → Prop) : Exe α → Prop
  | .ok a => P a
  | .error e => e.Tame

/-- A check, or a read, that passes whatever it likes and stops with a sound state. -/
abbrev Checks {α : Type} (x : Exe α) : Prop := Yields (fun _ => True) x

/-! ### Composition -/

section
variable {α β : Type} {P : α → Prop} {Q : β → Prop} {x y : Exe α} {a : α} {l : List α} {c : Prop} [Decidable c]

theorem Yields.bind {f : α → Exe β} (hx : Yields P x) (hf : ∀ a, P a → Yields Q (f a)) : Yields Q (x >>= f) := by
  cases x with
  | ok a => exact hf a hx
  | error e => exact hx

theorem Checks.bind {f : α → Exe β} (hx : Checks x) (hf : ∀ a, Yields Q (f a)) : Yields Q (x >>= f) :=
  Yields.bind hx fun a _ => hf a

theorem Yields.map {f : α → β} (hx : Yields P x) (hf : ∀ a, P a → Q (f a)) : Yields Q (x.map f) := by
  cases x with
  | ok a => exact hf a hx
  | error e => exact hx

theorem Checks.map {f : α → β} (hx : Checks x) : Checks (x.map f) := Yields.map hx fun _ _ => trivial

theorem Yields.ite (hx : Yields P x) (hy : Yields P y) : Yields P (if c then x else y) := by
  split
  · exact hx
  · exact hy

/-- A check that is made only where `c` holds. -/
theorem Yields.guard {z : Exe β} (hx : Checks x) (hz : Yields Q z) : Yields Q (if c then x >>= fun _ => z else z) :=
  Yields.ite (hx.bind fun _ => hz) hz

theorem Yields.ok (hx : Yields P x) (e : x = .ok a) : P a := by
  subst e; exact hx

theorem Yields.tame {z : Stop} (hx : Yields P x) (e : x = .error z) : z.Tame := by
  subst e; exact hx

theorem Yields.foldlM {f : β → α → Exe β} {b : β} (hb : Q b) (hf : ∀ b a, Q b → Yields Q (f b a)) :
    Yields Q (l.foldlM f b) := by
  induction l generalizing b with
  | nil => exact hb
  | cons a l ih => exact Yields.bind (hf b a hb) fun _ => ih

theorem Checks.forM {f : α → Exe PUnit} (hf : ∀ a, Checks (f a)) : Checks (l.forM f) := by
  induction l with
  | nil => trivial
  | cons a l ih => exact (hf a).bind fun _ => ih

theorem Checks.mapM {f : α → Exe β} (hf : ∀ a, Checks (f a)) : Checks (l.mapM f) := by
  induction l with
  | nil => trivial
  | cons a l ih =>
    rw [List.mapM_cons]
    exact (hf a).bind fun _ => ih.bind fun _ => trivial

end

section
variable {α : Type} {c : Prop} [Decidable c] {s t : State} {l : List α} {k : Core}

theorem Lands.ite {x y : Host.Outcome State Fault Refusal} (hx : Lands x) (hy : Lands y) :
    Lands (if c then x else y) := by
  split
  · exact hx
  · exact hy

theorem Sound.ite (hs : Sound s) (ht : Sound t) : Sound (if c then s else t) := by
  split
  · exact hs
  · exact ht

theorem Sound.foldl {f : State → α → State} (hs : Sound s) (hf : ∀ t a, Sound t → Sound (f t a)) :
    Sound (l.foldl f s) := by
  induction l generalizing s with
  | nil => exact hs
  | cons a l ih => exact ih (hf s a hs)

/-- The second part of a pair that a function has answered. -/
theorem Sound.snd {x : α × State} {a : α} (hs : Sound x.2) (e : x = (a, t)) : Sound t := by
  subst e; exact hs

/-- The first part of a pair that a function has answered. -/
theorem Sound.fst {x : State × α} {a : α} (hs : Sound x.1) (e : x = (t, a)) : Sound t := by
  subst e; exact hs

@[simp] theorem Core.foldl_mem {f : Core → α → Core} (hf : ∀ k a, (f k a).mem = k.mem) :
    (l.foldl f k).mem = k.mem := by
  induction l generalizing k with
  | nil => rfl
  | cons a l ih => exact ih.trans (hf k a)

theorem Core.foldl_wf {f : Core → α → Core} (hk : k.mem.wf = true)
    (hf : ∀ k a, k.mem.wf = true → (f k a).mem.wf = true) : (l.foldl f k).mem.wf = true := by
  induction l generalizing k with
  | nil => exact hk
  | cons a l ih => exact ih (hf k a hk)

/-- Changes of stream contexts leave local memory alone. -/
@[simp] theorem Core.foldl_modCtx_mem {n : Core → α → Nat} {f : Core → α → Ctx → Ctx} :
    (l.foldl (fun k a => k.modCtx (n k a) (f k a)) k).mem = k.mem := Core.foldl_mem fun _ _ => rfl

end

/-! ### Changes elsewhere -/

section
variable {clock : DWord} {dramReady : Bool} {poison : List Nat} {iommu : List AtsAnswer} {dtc : List TlbEntry}
  {invals : List Inval} {invalAcks : List Nat} {hostOps : List HostOp} {releases : List ReleaseMark}
  {replay : List ReplayEntry} {pri : List PageRequest} {nextPri : Nat} {priStopped : Bool} {clusters : List Cluster}
  {sched : Sched} {faultQ : List FaultRec} {faultWait : List FaultWait} {faultSeq : Nat} {halts : List Halt}
  {sirip : Sirip} {parts : List Partition} {slotTab : List Byte} {slotPending : List (Nat × Byte)} {fw : Firmware}
  {link : Link} {spdmStored spdmLeaf : Nat} {spdmSession : Bool} {spdmReply : SpdmReply}
  {pfIdeActive pfIdeNext : Option (BitVec 256)} {mgmt : MgmtStatus} {reopening : List Nat}
  {msix pend : List (Nat × Nat)} {aer : Nat} {reply : Reply} {mgmtReports : Nat} {late : List Issue} {clockMhz : Nat}
  {tripped : Bool} {bar : Memory} {agenda : List Act} {cur : Option Issue} {nextId fetchSeq : Nat} {events : List (Nat × CmpEvent)}
  {expected : Option (List (Nat × CmpEvent))} {struck : Option Struck}

/-- What stands in none of the memories and cell stores may be anything. -/
theorem Sound.elsewhere {s : State} (hs : Sound s) : Sound
    { s with
      clock := clock, dramReady := dramReady, poison := poison, iommu := iommu, dtc := dtc, invals := invals,
      invalAcks := invalAcks, hostOps := hostOps, releases := releases, replay := replay, pri := pri,
      nextPri := nextPri, priStopped := priStopped, clusters := clusters, sched := sched, faultQ := faultQ,
      faultWait := faultWait, faultSeq := faultSeq, halts := halts, sirip := sirip, parts := parts,
      slotTab := slotTab, slotPending := slotPending, fw := fw, link := link, spdmStored := spdmStored,
      spdmLeaf := spdmLeaf, spdmSession := spdmSession, spdmReply := spdmReply, pfIdeActive := pfIdeActive,
      pfIdeNext := pfIdeNext, mgmt := mgmt, reopening := reopening, msix := msix, pend := pend, aer := aer,
      reply := reply, mgmtReports := mgmtReports, late := late, clockMhz := clockMhz, tripped := tripped,
      bar := bar, agenda := agenda, cur := cur, nextId := nextId, fetchSeq := fetchSeq, events := events,
      expected := expected, struck := struck } := hs
end

/-! ### Cores and core pairs -/

section
variable {s : State} {c n : Nat}

/-- A core's local memory, and that of a core that is not there, is in canonical form. -/
theorem Sound.core (hs : Sound s) : (s.core c).mem.wf = true := by
  unfold State.core
  rw [List.getD_eq_getElem?_getD]
  cases hc : s.cores[c]? with
  | none => rfl
  | some k => exact hs.cores k (List.mem_of_getElem? hc)

/-- A core pair's cells, and those of a pair that is not there, are in canonical form. -/
theorem Sound.pair (hs : Sound s) : (s.pair n).cells.wf = true := by
  unfold State.pair
  rw [List.getD_eq_getElem?_getD]
  cases hn : s.pairs[n]? with
  | none => rfl
  | some q => exact hs.pairs q (List.mem_of_getElem? hn)

theorem Sound.setCore {k : Core} (hs : Sound s) (hk : k.mem.wf = true) : Sound (s.setCore c k) :=
  ⟨hs.dram, hs.host, hs.peer, fun x hx => (List.mem_or_eq_of_mem_set hx).elim (hs.cores x) fun e => e ▸ hk, hs.pairs⟩

theorem Sound.modCore {f : Core → Core} (hs : Sound s) (hf : ∀ k, k.mem.wf = true → (f k).mem.wf = true) :
    Sound (s.modCore c f) := hs.setCore (hf _ hs.core)

theorem Sound.modPair {f : Pair → Pair} (hs : Sound s) (hf : ∀ q, q.cells.wf = true → (f q).cells.wf = true) :
    Sound (s.modPair n f) :=
  ⟨hs.dram, hs.host, hs.peer, hs.cores,
    fun x hx => (List.mem_or_eq_of_mem_set hx).elim (hs.pairs x) fun e => e ▸ hf _ hs.pair⟩

/-- Every core changed by its place. -/
theorem Sound.mapIdx_cores {f : Nat → Core → Core} (hs : Sound s) (hf : ∀ c k, (f c k).mem = k.mem) :
    Stored s.dram s.hostMem s.peerMem (s.cores.mapIdx f) s.pairs := by
  refine ⟨hs.dram, hs.host, hs.peer, fun x hx => ?_, hs.pairs⟩
  obtain ⟨i, hi, rfl⟩ := List.mem_mapIdx.mp hx
  rw [hf]
  exact hs.cores _ (List.getElem_mem hi)

/-- Every core changed alike. -/
theorem Sound.map_cores {f : Core → Core} (hs : Sound s) (hf : ∀ k, (f k).mem = k.mem) :
    Stored s.dram s.hostMem s.peerMem (s.cores.map f) s.pairs := by
  refine ⟨hs.dram, hs.host, hs.peer, fun x hx => ?_, hs.pairs⟩
  obtain ⟨k, hk, rfl⟩ := List.mem_map.mp hx
  rw [hf]
  exact hs.cores k hk

end

end Sys2Proof.Machine
end

section
/-!
Accessors of the state: only the address spaces themselves write a memory, and they write one in canonical form.
-/
namespace Sys2Proof.Machine

variable {s : State} {b : Nat}

theorem Sound.modCluster {n : Nat} {f : Cluster → Cluster} (hs : Sound s) : Sound (s.modCluster n f) := hs

theorem Sound.modPart {p : Nat} {f : Partition → Partition} (hs : Sound s) : Sound (s.modPart p f) := hs

theorem Sound.modSched {f : Sched → Sched} (hs : Sound s) : Sound (s.modSched f) := hs

theorem Sound.modSirip {f : Sirip → Sirip} (hs : Sound s) : Sound (s.modSirip f) := hs

theorem Sound.modChecked {k : Nat} {f : CheckedPair → CheckedPair} (hs : Sound s) : Sound (s.modChecked k f) :=
  hs.modSirip

theorem Sound.modBlock {c : Nat} {f : Block → Block} (hs : Sound s) : Sound (s.modBlock c b f) :=
  hs.modCore fun _ hk => hk

theorem Sound.modTroupe {c i : Nat} {f : Troupe → Troupe} (hs : Sound s) : Sound (s.modTroupe c b i f) :=
  hs.modCore fun _ hk => hk

theorem Sound.modLaunch {id : Nat} {f : Launch → Launch} (hs : Sound s) : Sound (s.modLaunch id f) := hs.modSched

@[simp] theorem Core.giveCtxs_mem (k : Core) (n : Nat) : (k.giveCtxs b n).mem = k.mem :=
  Core.foldl_mem fun _ _ => rfl

/-- An address space may be replaced by one in canonical form. -/
theorem Sound.setSpace {x : Xlate} {m : Memory} (hs : Sound s) (hm : m.wf = true) : Sound (s.setSpace x m) := by
  unfold State.setSpace
  split
  · exact ⟨hs.dram, hm, hs.peer, hs.cores, hs.pairs⟩
  · split
    · exact ⟨hs.dram, hs.host, hm, hs.cores, hs.pairs⟩
    · exact ⟨hm, hs.host, hs.peer, hs.cores, hs.pairs⟩

theorem Sound.space {x : Xlate} (hs : Sound s) : (s.space x).wf = true := by
  unfold State.space
  split
  · exact hs.host
  · split
    · exact hs.peer
    · exact hs.dram

theorem Sound.report (hs : Sound s) : Sound s.report := hs

theorem Sound.signal {function vector : Nat} (hs : Sound s) : Sound (s.signal function vector) :=
  Sound.ite (Sound.ite hs hs) hs

theorem Sound.logEvent {kind tier core unit : Nat} {addr : DWord} {job : Nat} (hs : Sound s) :
    Sound (s.logEvent kind tier core unit addr job) := Sound.signal hs

theorem Sound.assertFaultN {seq : Nat} (hs : Sound s) : Sound (s.assertFaultN seq) := Sound.signal hs

end Sys2Proof.Machine
end

section
/-!
Global memory: writes, their comparison with the understudy's, and the translations they need.
-/
namespace Sys2Proof.Machine

variable {s : State} {c sec : Nat} {k : Core} {ws : List GWrite}

@[simp] theorem Core.markReady_mem (rid : Nat) : (k.markReady rid).mem = k.mem := by
  unfold Core.markReady
  split <;> rfl

@[simp] theorem Core.markReadyWhere_mem (test : CueRec → Bool) : (k.markReadyWhere test).mem = k.mem := by
  simp [Core.markReadyWhere]

theorem Sound.readyNow {test : CueRec → Bool} (hs : Sound s) : Sound (s.readyNow c test) :=
  hs.modCore fun _ hk => by simpa using hk

theorem Sound.fillOutcome {own : Nat × Nat} {va : Nat} (hs : Sound s) : Sound (s.fillOutcome own va).2 := by
  unfold State.fillOutcome
  split
  · exact hs
  · split
    · exact hs
    · exact hs

theorem Sound.fill {own : Nat × Nat} {va evict : Nat} (hs : Sound s) : Sound (s.fill c own va evict).2 := by
  unfold State.fill
  split
  · exact hs
  · split
    · exact Sound.modCore (Sound.snd hs.fillOutcome ‹_›) fun _ hk => hk
    · exact hs.fillOutcome

theorem Sound.drawn (hs : Sound s) : Sound (s.drawn c) := Sound.ite hs hs

theorem Sound.noteRace {a n : Nat} (hs : Sound s) : Sound (s.noteRace c a n) :=
  Sound.ite hs (hs.modPair fun _ hq => hq)

@[simp] theorem Core.deliverDeferred_mem (b i : Nat) : (k.deliverDeferred b i).mem = k.mem := by
  unfold Core.deliverDeferred
  split <;> rfl

@[simp] theorem Core.wakeDeferred_mem : k.wakeDeferred.mem = k.mem := by
  simp [Core.wakeDeferred]

@[simp] theorem State.replayCore_mem : (s.replayCore c sec k).mem = k.mem := rfl

@[simp] theorem Core.wakeFor_mem : (k.wakeFor sec).mem = k.mem := by
  unfold Core.wakeFor
  split <;> simp

theorem Sound.wakeSector (hs : Sound s) : Sound (s.wakeSector sec) := hs.mapIdx_cores fun c k => by simp

theorem Sound.clearPoison {addrs : List Nat} (hs : Sound s) : Sound (s.clearPoison addrs) :=
  Sound.ite hs (hs.foldl fun _ _ ht => ht.wakeSector)

theorem Sound.putWrite {w : GWrite} (hs : Sound s) : Sound (s.putWrite w) := by
  unfold State.putWrite
  split
  · exact hs
  · exact hs.setSpace (Memory.writeBytes_wf _ _ _ hs.space)

theorem Sound.compareOne {ev : List GWrite} (hs : Sound s) : Sound (s.compareOne c ev).1 := by
  unfold State.compareOne
  dsimp only
  split
  · split
    · exact hs.modSirip
    · exact hs.modSirip
  · exact hs

theorem Sound.noteEvent {e : CmpEvent} (hs : Sound s) : Sound (s.noteEvent c e).1 := by
  unfold State.noteEvent
  split
  · dsimp only
    split
    · exact hs
    · exact hs
    · exact hs
  · exact hs

/-- The comparator counts and logs what it meets. -/
theorem Sound.matchEvents {evs : List (List GWrite)} (hs : Sound s) : Sound (s.matchEvents c evs).1 := by
  induction evs generalizing s with
  | nil => exact hs
  | cons ev rest ih =>
    have hy : Sound ((s.noteEvent c (writeEvent ev)).1.compareOne c ev).1 := hs.noteEvent.compareOne
    unfold State.matchEvents
    dsimp only
    split
    · exact hy
    · split
      · next e => exact (ih hy).fst e
      · next e => exact (ih hy).fst e

theorem Sound.dropReleases {addrs : List Nat} (hs : Sound s) : Sound (s.dropReleases addrs) := Sound.ite hs hs

/-- Writes to global memory go through `putWrite`; the rest of them changes poison and release marks. -/
theorem Sound.performWrites (hs : Sound s) : Sound (s.performWrites ws) :=
  Sound.dropReleases (Sound.clearPoison (hs.foldl fun _ _ ht => ht.putWrite))

theorem Sound.writeAll (hs : Sound s) : Sound (s.writeAll c ws).1 := by
  unfold State.writeAll
  dsimp only
  split
  · exact Sound.performWrites (Sound.fst hs.matchEvents ‹_›)
  · exact Sound.performWrites (Sound.fst hs.matchEvents ‹_›)

theorem Sound.updateAll (hs : Sound s) : Sound (s.updateAll c ws).1 := by
  unfold State.updateAll
  split
  · exact Sound.performWrites (Sound.fst hs.matchEvents ‹_›)
  · exact Sound.fst hs.matchEvents ‹_›

end Sys2Proof.Machine
end

section
/-!
The frame of a thread instruction: departures, faults, held pushes, region entry and retry, mismatches.
-/
namespace Sys2Proof.Machine

variable {s : State} {arg b c code i l n seq : Nat} {k : Core} {p : Path} {m : Mask} {addr : DWord} {key : Key}
  {w : FaultWait} {t : Troupe}

theorem Sound.mod {f : Troupe → Troupe} (hs : Sound s) : Sound (s.mod p f) := hs.modTroupe

theorem Sound.modPathBlock {f : Block → Block} (hs : Sound s) : Sound (s.modPathBlock p f) := hs.modBlock

theorem Core.fitCue_mem {l : Core} (h : k.fitCue = some l) : l.mem = k.mem := (Core.fitCue_same h).mem

theorem Sound.writeRecord {mk : Troupe → Nat → CueRec} (hs : Sound s) : Sound (s.writeRecord c b i m mk) := by
  unfold State.writeRecord
  split
  · exact hs
  · exact Sound.elsewhere (hs.modCore fun _ hk => hk)

theorem Sound.recordsToEntry {fault : Nat} (hs : Sound s) : Sound (s.recordsToEntry c b i m key fault) := by
  unfold State.recordsToEntry
  split
  · exact hs
  · exact hs.foldl fun _ _ ht' => ht'.writeRecord

theorem Sound.settleCue {t : State} (hs : Sound s) (h : s.settleCue c = some t) : Sound t := by
  obtain ⟨k, hk, rfl⟩ := Option.map_eq_some_iff.mp h
  exact hs.setCore (by rw [Core.fitCue_mem hk]; exact hs.core)

/-- The cue store settled where it fits, and left as it is where it does not. -/
theorem Sound.settleCue_getD (hs : Sound s) : Sound ((s.settleCue c).getD s) := by
  cases h : s.settleCue c with
  | none => exact hs
  | some t => exact hs.settleCue h

theorem Sound.departEach {kind : Nat} {resume : Nat → DWord} {fill : CueRec → CueRec} (hs : Sound s) :
    Yields Sound (s.departEach p key kind resume fill) := by
  unfold State.departEach
  dsimp only
  split
  · exact Sound.settleCue (hs.foldl fun _ _ ht => ht.writeRecord) ‹_›
  · trivial

theorem Sound.depart {resume : DWord} {kind : Nat} {fill : CueRec → CueRec} (hs : Sound s) :
    Yields Sound (s.depart p key resume kind fill) := by
  unfold State.depart
  dsimp only
  split
  · exact hs.writeRecord.settleCue ‹_›
  · trivial

@[simp] theorem Core.rewindPorts_mem : (k.rewindPorts b i m).mem = k.mem :=
  Core.foldl_mem fun _ _ => rfl

theorem Sound.rewindLanes (hs : Sound s) : Sound (s.rewindLanes c b i m) := hs.modCore fun _ hk => by simpa using hk

theorem Sound.sweepTroupe (hs : Sound s) : Sound (s.sweepTroupe c b i) := by
  unfold State.sweepTroupe
  split
  · exact hs
  · split
    · dsimp only
      split
      · exact hs.modCore fun _ hk => hk
      · refine Sound.modPair (Sound.modCore ?_ fun _ hk => hk) fun _ hq => hq
        exact hs.modCore fun _ hk => hk
    · exact hs

theorem Sound.killBlock (hs : Sound s) : Sound (s.killBlock c b) := by
  unfold State.killBlock
  split
  · exact hs
  · refine Sound.elsewhere (Sound.modCore (Sound.modPair ?_ fun _ hq => hq) fun _ hk => hk)
    exact hs.modCore fun _ hk => hk

theorem Sound.noteRemoved (hs : Sound s) : Sound (s.noteRemoved c b) := by
  unfold State.noteRemoved
  split
  · exact hs.modLaunch
  · exact hs

theorem Sound.countFault (hs : Sound s) : Sound (s.countFault c b) := by
  unfold State.countFault
  split
  · exact hs
  · exact hs.modLaunch

theorem Sound.requestPage {part pasid va : Nat} (hs : Sound s) : Sound (s.requestPage part pasid va) :=
  Sound.ite hs hs

theorem Sound.haltLanes (hs : Sound s) : Sound (s.haltLanes c b i m) := hs.modTroupe

theorem Sound.postRecord {r : FaultRec} {part : Nat} (hs : Sound s) : Sound (s.postRecord r part) := Sound.signal hs

theorem Sound.failRecord {r : CueRec} (hs : Sound s) : Sound (s.failRecord c r) := by
  unfold State.failRecord
  split
  · dsimp only
    split
    · exact Sound.elsewhere (Sound.modBlock (Sound.postRecord (hs.modCore fun _ hk => hk)))
    · exact Sound.elsewhere (hs.modCore fun _ hk => hk)
  · exact hs

theorem Sound.failRecords {test : CueRec → Bool} (hs : Sound s) : Sound (s.failRecords c test) :=
  hs.foldl fun _ _ ht => ht.failRecord

theorem Sound.deliver (hs : Sound s) : Sound (s.deliver w seq) := hs.haltLanes.modBlock.elsewhere

theorem Sound.departFault {t : State} (hs : Sound s) (h : s.departFault w = some t) : Sound t := by
  unfold State.departFault at h
  refine Sound.settleCue (Sound.modCore hs.recordsToEntry ?_) h
  exact fun _ hk => hk

theorem Sound.applyDisposition (hs : Sound s) : Sound (s.applyDisposition w seq) := by
  unfold State.applyDisposition
  extract_lets c b own s'
  split
  · exact Sound.killBlock (Sound.ite hs.noteRemoved hs.countFault)
  · have hs' : Sound s' := by
      unfold s'
      split
      · exact hs.foldl fun _ _ ht => ht.requestPage
      · exact hs
    split
    · next h => exact Sound.ite (hs'.departFault h).failRecords (hs'.departFault h)
    · exact hs'.deliver
  · exact hs.deliver

theorem Sound.raiseFault (hs : Sound s) : Sound (s.raiseFault w) :=
  Sound.ite hs.postRecord.applyDisposition hs.haltLanes.elsewhere

@[simp] theorem Core.useOutcome_mem (p : Issue) : (k.useOutcome p code).mem = k.mem := by
  unfold Core.useOutcome
  split <;> rfl

theorem Sound.takeFault {p : Issue} {len : Nat} {mask : Mask} {port : Option Nat} (hs : Sound s) :
    Sound (s.takeFault p len code mask addr arg port key) := by
  unfold State.takeFault
  dsimp only
  split
  · exact Sound.raiseFault (hs.modCore fun _ hk => by simpa using hk)
  · exact hs

theorem Sound.blockFaultOf {edit : FaultRec → FaultRec} {disp : Nat} {resfail : Bool} {pc : DWord} (hs : Sound s) :
    Sound (State.blockFaultOf edit s c b code disp resfail pc addr arg) := by
  unfold State.blockFaultOf
  split
  · exact hs.raiseFault
  · exact hs

theorem Sound.blockFault {disp : Nat} {resfail : Bool} {pc : DWord} (hs : Sound s) :
    Sound (s.blockFault c b code disp resfail pc addr arg) := hs.blockFaultOf

theorem Sound.killCancelled (hs : Sound s) : Sound (s.killCancelled c b) := by
  unfold State.killCancelled
  split
  · exact Sound.ite hs.blockFault hs
  · exact hs

theorem Sound.unhaltBlock (hs : Sound s) : Sound (s.unhaltBlock c b) :=
  Sound.ite hs (hs.modBlock.modCore fun _ hk => hk)

theorem Sound.returnFromFault {h : Halt} {skip : Bool} (hs : Sound s) : Sound (s.returnFromFault h skip) := by
  unfold State.returnFromFault
  extract_lets s1 s2 s3 s4 s5
  have h2 : Sound s2 := Sound.modCore hs fun _ hk => hk
  have h4 : Sound s4 := h2.readyNow.ite h2.readyNow.rewindLanes
  exact h4.modTroupe.unhaltBlock

theorem Sound.touch {scope : BitVec 2} (hs : Sound s) : Sound (s.touch c b i m scope) := Sound.ite hs hs.modTroupe

theorem Sound.performPush {q : Push} (hs : Sound s) : Sound (s.performPush c b i l n q).1 := by
  unfold State.performPush
  dsimp only
  split
  · split
    · exact hs
    · exact hs.modCore fun _ hk => Memory.writeBytes_wf _ _ _ hk
  · split
    · split
      · exact hs
      · exact Sound.writeAll (hs.touch.modCore fun _ hk => hk)
    · exact hs

@[simp] theorem Core.settlePush_mem (q : Push) (waits : Bool) : (k.settlePush n l q waits).mem = k.mem := rfl

theorem Sound.performHeld {qs : List (Nat × Push)} {behind : Bool} (hs : Sound s) :
    Yields Sound (s.performHeld c b i l qs behind) := by
  induction qs generalizing s behind with
  | nil => exact hs
  | cons x t ih =>
    have hx : Sound (if behind then (s, true, none) else s.performPush c b i l x.1 x.2).1 := by
      split
      · exact hs
      · exact hs.performPush
    unfold State.performHeld
    split
    · next e => exact hx.fst e
    · next e => exact ih ((hx.fst e).modCore fun _ hk => hk)

@[simp] theorem Core.finishClose_mem : (k.finishClose n).mem = k.mem := by
  unfold Core.finishClose
  dsimp only
  split
  · rfl
  · rfl

@[simp] theorem Core.passCtx_mem : (k.passCtx m n).mem = k.mem := by
  simp [Core.passCtx]

theorem Sound.performPushes (hs : Sound s) : Yields Sound (s.performPushes c b i m) :=
  Yields.bind (Yields.foldlM hs fun _ _ hb' => hb'.performHeld) fun _ ha => ha.modCore fun _ hk => by simpa using hk

@[simp] theorem Core.passIssued_mem (p : Issue) : (k.passIssued p).mem = k.mem := by
  unfold Core.passIssued
  split <;> rfl

theorem Sound.enterRegion {p : Issue} (hs : Sound s) : Sound (s.enterRegion p) := by
  unfold State.enterRegion
  extract_lets dbg s'
  have hs' : Sound s' := hs.modPair fun _ hq => hq
  exact hs'.modCore fun k hk => by simpa using hk

theorem Sound.regionEntry {p : Issue} (hs : Sound s) : Yields Sound (s.regionEntry p) :=
  Yields.bind hs.performPushes fun _ ha => ha.enterRegion

theorem Sound.logUndo {p : Issue} {before : State} (hs : Sound s) : Sound (s.logUndo p before) := by
  unfold State.logUndo
  dsimp only
  split
  · exact hs.setCore hs.core
  · exact hs

/-- The old bytes of a log entry go back by writes. -/
theorem Core.undoEntry_wf {retry : Bool} {e : Undo} (hk : k.mem.wf = true) :
    (k.undoEntry b i retry e).mem.wf = true := by
  unfold Core.undoEntry
  split
  · exact hk
  · rw [Core.foldl_modCtx_mem]
    exact Memory.writeCells_wf _ _ hk

theorem Core.undoJournal_wf (hk : k.mem.wf = true) : (k.undoJournal t).mem.wf = true := by
  unfold Core.undoJournal
  split
  · exact hk
  · exact Core.foldl_wf hk fun _ _ hk => Core.undoEntry_wf hk

@[simp] theorem Core.rewindTroupe_mem : (k.rewindTroupe t).mem = k.mem := by
  simp [Core.rewindTroupe]

theorem Sound.unwindCore (hs : Sound s) : Sound (s.unwindCore c) := by
  unfold State.unwindCore
  refine Sound.modCore (Sound.modPair (hs.modCore fun k hk => ?_) fun _ hq => hq) fun _ hk => hk
  exact Core.foldl_wf (Core.foldl_wf hk fun _ _ hk => Core.undoJournal_wf hk) fun _ _ hk => by simpa using hk

theorem Sound.regionRetry {k : Nat} (hs : Sound s) : Sound (s.regionRetry k) := hs.foldl fun _ _ ht => ht.unwindCore

theorem Sound.freeChildren {ids : List Nat} (hs : Sound s) : Sound (s.freeChildren ids) := hs.modSched

theorem Sound.discardRanges {ids : List Nat} (hs : Sound s) : Sound (s.discardRanges ids) := hs.modSched.freeChildren

theorem Sound.kernelFailure {path : Option Issue} (hs : Sound s) : Sound (s.kernelFailure c b path addr seq) := by
  unfold State.kernelFailure
  split
  · exact hs
  · dsimp only
    split
    · exact Sound.takeFault (hs.assertFaultN.discardRanges.modLaunch.foldl fun _ _ ht => ht.killBlock)
    · exact Sound.blockFault (hs.assertFaultN.discardRanges.modLaunch.foldl fun _ _ ht => ht.killBlock)

theorem Sound.countMismatch {k : Nat} (hs : Sound s) : Sound (s.countMismatch k) :=
  Sound.ite hs.modChecked.logEvent hs.modChecked

/-- A mismatch retries the region, places the block again or ends its launch. -/
theorem Sound.mismatch {path : Option Issue} (hs : Sound s) : Sound (s.mismatch c b path addr) := by
  unfold State.mismatch
  extract_lets k job again ovf blk retried synced seq s'
  have hs' : Sound s' := hs
  split
  · split
    · exact hs'.logEvent.countMismatch.regionRetry.modBlock.modTroupe
    · exact hs'.logEvent.countMismatch.regionRetry.modBlock
  · split
    · exact Sound.regionRetry (hs'.logEvent.countMismatch.killBlock.modBlock.modCore fun _ hk => hk)
    · exact hs'.logEvent.countMismatch.regionRetry.kernelFailure

theorem Sound.retryHeld (hs : Sound s) : Sound (s.retryHeld c b i l) := by
  unfold State.retryHeld
  extract_lets qs
  split
  · next h => exact Sound.modCore (hs.performHeld.ok h) fun _ hk => by simpa using hk
  · next h =>
    have ht : Stop.Tame _ := hs.performHeld.tame h
    exact Sound.mismatch ht
  · exact hs

theorem Sound.advance (hs : Sound s) : Sound (s.advance p) := hs.mod

theorem Sound.markReads {rs : List Nat} (hs : Sound s) : Sound (s.markReads p rs) := Sound.ite hs hs.mod

/-- A path that stops leaves a record or a fault. -/
theorem Sound.stopPath {e : Stop} (hs : Sound s) (he : e.Tame) : Sound (s.stopPath p e) := by
  cases e with
  | fault => exact hs.takeFault
  | mismatch => exact Sound.mismatch he
  | emptyPort waits active =>
    dsimp only [State.stopPath]
    split
    · next e => exact Yields.ok hs.depart e
    · exact hs.takeFault
  | fills vas =>
    dsimp only [State.stopPath]
    split
    · next e => exact hs.recordsToEntry.settleCue e
    · exact hs.takeFault

theorem Stop.Tame.decided {e : Stop} {i : Instr} {active : Mask} (he : e.Tame) : (e.decided t i active).Tame := by
  have hf : (match t.pendingFirst i with
      | some r => Stop.fault codePendRead active 0 r none .none
      | none => e).Tame := by
    split
    · trivial
    · exact he
  unfold Stop.decided
  extract_lets first
  split
  · exact hf
  · exact hf
  · exact he

theorem Sound.passEvent {e : CmpEvent} (hs : Sound s) : Yields Sound (s.passEvent p e) :=
  Yields.ite hs.noteEvent hs.noteEvent

theorem Sound.unselect (hs : Sound s) : Sound s.unselect := hs

/-- The frame of a thread instruction: what its body keeps, it keeps. -/
theorem Sound.runThread {i : Instr} {h : Head} {len : Nat} {body : Path → State → Exe State} (hs : Sound s)
    (hb : ∀ p t, Sound t → Yields Sound (body p t)) : Lands (runThread i h len body s) := by
  unfold Machine.runThread
  split
  · trivial
  · next q _ =>
    extract_lets s0 p0
    have hs0 : Sound s0 := hs
    split
    · trivial
    · split
      · exact hs0.takeFault
      · have hr : Yields Sound (if h.e then s0.regionEntry q else .ok s0) := Yields.ite hs0.regionEntry hs0
        split
        · next e => exact Sound.stopPath hs0 (hr.tame e)
        · next s1 e =>
          have hs1 : Sound s1 := hr.ok e
          extract_lets p s2
          have hs2 : Sound s2 := hs1.advance.markReads
          split
          · exact Sound.killCancelled (Sound.haltLanes hs1)
          · split
            · exact hs2
            · split
              · next e => exact Sound.logUndo ((hb p s2 hs2).ok e)
              · next e => exact Sound.stopPath hs1 (Stop.Tame.decided ((hb p s2 hs2).tame e))

theorem Sound.decodeStop {q : Issue} {f : DecodeFault} (hs : Sound s) : Sound (s.decodeStop q f) := by
  unfold State.decodeStop
  dsimp only
  split
  · exact hs.unselect.takeFault
  · exact hs.unselect.takeFault
  · exact hs.unselect.takeFault

end Sys2Proof.Machine
end

section
/-!
Memory checks, which change nothing, and the hits that pass them.
-/
namespace Sys2Proof.Machine

variable {s : State} {p : Path} {hs : List Hit} {hostRefused write : Bool}

theorem raiseFirst_checks {port : Option Nat} {fs : List (Nat × Option Fail)} : Checks (raiseFirst port fs) := by
  unfold raiseFirst
  split
  · trivial
  · trivial

theorem State.translateHits_checks {port : Option Nat} {per : List (Nat × List Hit)} :
    Checks (s.translateHits p port write hostRefused per) :=
  Yields.ite trivial (Checks.bind raiseFirst_checks fun _ => trivial)

theorem State.accessIn_checks {space : Space} {size : Nat} {privBound : Nat} {ws : List Want} :
    Checks (s.accessIn p space size write hostRefused privBound ws) :=
  Checks.bind raiseFirst_checks fun _ => by
    dsimp only
    split
    · exact Checks.bind trivial fun _ => Checks.bind raiseFirst_checks fun _ => trivial
    · exact Checks.bind State.translateHits_checks fun _ => Checks.bind raiseFirst_checks fun _ => trivial

theorem State.access_checks {space : Space} {size : Nat} {ws : List Want} :
    Checks (s.access p space size write hostRefused ws) := State.accessIn_checks

theorem State.checkPoison_checks : Checks (s.checkPoison hs) := raiseFirst_checks

theorem Sound.touchHits (h : Sound s) : Sound (s.touchHits p hs) :=
  h.foldl fun _ _ ht => by
    split
    · exact ht.touch
    · exact ht

theorem Sound.keepDeferred {ws : List Hit} (hs : Sound s) : Sound (s.keepDeferred p ws) := Sound.ite hs.mod hs

theorem Sound.noteStores (h : Sound s) : Sound (s.noteStores p hs) := h.modCore fun _ hk => hk

theorem Sound.storeHits {v : Nat → Nat} {ord : Nat} (h : Sound s) : Yields Sound (s.storeHits p hs v ord) := by
  unfold State.storeHits
  extract_lets s1 bs s2 ws
  have h1 : Sound s1 := h.keepDeferred.noteStores
  have h2 : Sound s2 := h1.foldl fun t x ht => by
    split
    · exact ht
    · exact ht.noteRace.modCore fun _ hk => Memory.writeBytes_wf _ _ _ hk
  split
  · next e => exact h2.writeAll.fst e
  · next e => exact h2.writeAll.fst e

end Sys2Proof.Machine
end

section
/-!
Operands are read without a change of the state; results go to registers, ports and predicates.
-/
namespace Sys2Proof.Machine

variable {p : Path} {s : State} {a d i pa perm q v : Nat} {fields : List Nat} {t : Troupe} {tag : Tag}

theorem regFault_checks {code arg : Nat} : Checks (regFault p code arg) := by
  unfold regFault
  trivial

theorem Troupe.checkSource_checks {k : Nat} {rs : List (Nat × (Tag → Bool))} : Checks (t.checkSource p k rs) := by
  unfold Troupe.checkSource
  split
  · exact regFault_checks
  · split
    · exact regFault_checks
    · split
      · exact regFault_checks
      · trivial

theorem Troupe.checkDest_checks {rs : List Nat} : Checks (t.checkDest p rs) := by
  unfold Troupe.checkDest
  split
  · exact regFault_checks
  · trivial

theorem streamFault_checks : Checks (streamFault p q) := by
  unfold streamFault
  trivial

theorem State.boundCtx_checks {write : Bool} : Checks (s.boundCtx p q write) := by
  unfold State.boundCtx
  split
  · exact Yields.ite trivial streamFault_checks
  · exact streamFault_checks

theorem State.portsReady_checks : Checks (s.portsReady p fields) :=
  Checks.bind (Checks.mapM fun _ => Checks.bind State.boundCtx_checks fun _ => trivial) fun _ =>
    Yields.ite trivial (Checks.forM fun _ => raiseFirst_checks)

theorem Sound.popPorts (hs : Sound s) : Sound (s.popPorts p fields) :=
  hs.foldl fun _ _ ht => by
    split
    · exact ht
    · exact Sound.modCore (ht.foldl fun _ _ ht' => ht'.touch) fun _ hk => hk

theorem State.operand_checks {accept : Tag → Bool} : Checks (s.operand p fields i perm accept) := by
  unfold State.operand
  dsimp only
  split
  · exact Checks.bind State.boundCtx_checks fun _ => Yields.ite trivial trivial
  · exact Checks.bind Troupe.checkSource_checks fun _ => trivial

theorem State.operandGroup_checks {tags : List Tag} : Checks (s.operandGroup p i v perm tags) :=
  Checks.bind Troupe.checkSource_checks fun _ => trivial

theorem State.checkOperand_checks {accept : Tag → Bool} : Checks (s.checkOperand p i v accept) := by
  unfold State.checkOperand
  split
  · split
    · exact Yields.ite trivial trivial
    · trivial
  · exact Troupe.checkSource_checks

theorem State.checkOperands_checks {fs : List (Nat × (Tag → Bool))} : Checks (s.checkOperands p i fs) := by
  induction fs generalizing i with
  | nil => trivial
  | cons f t ih => exact Checks.bind State.checkOperand_checks fun _ => ih

theorem State.sources_checks {fs : List (Nat × (Tag → Bool))} : Checks (s.sources p fs) :=
  Checks.bind State.checkOperands_checks fun _ => State.portsReady_checks

theorem State.read1_checks {acc : Tag → Bool} : Checks (s.read1 p a pa acc) :=
  Checks.bind State.sources_checks fun _ => State.operand_checks

theorem State.read2_checks {accA : Tag → Bool} {b pb : Nat} {accB : Tag → Bool} :
    Checks (s.read2 p a pa accA b pb accB) :=
  Checks.bind State.sources_checks fun _ => Checks.bind State.operand_checks fun _ =>
    Checks.bind State.operand_checks fun _ => trivial

theorem State.read3_checks {b pb c pc : Nat} {acc accB : Tag → Bool} : Checks (s.read3 p a pa b pb c pc acc accB) :=
  Checks.bind State.sources_checks fun _ => Checks.bind State.operand_checks fun _ =>
    Checks.bind State.operand_checks fun _ => Checks.bind State.operand_checks fun _ => trivial

theorem State.readPair_checks {lo hi : Tag} : Checks (s.readPair p i v perm lo hi) :=
  Checks.bind Troupe.checkSource_checks fun _ => trivial

theorem State.elementHits_checks {n : Nat} {write : Bool} {ls : List Nat} : Checks (s.elementHits p q n write ls) :=
  Checks.bind raiseFirst_checks fun _ =>
    Yields.ite (Checks.bind trivial fun _ => trivial) (Checks.bind State.translateHits_checks fun _ => trivial)

theorem Sound.push {v : Nat → Word} (hs : Sound s) : Yields Sound (s.push p q tag v) :=
  Checks.bind State.boundCtx_checks fun _ => by
    dsimp only
    split
    · exact Checks.bind streamFault_checks fun _ => hs
    · exact Yields.ite trivial (Checks.bind State.elementHits_checks fun _ => hs.modCore fun _ hk => hk)

theorem State.checkDst_checks : Checks (s.checkDst p d) := by
  unfold State.checkDst
  split
  · exact Checks.map State.boundCtx_checks
  · exact Troupe.checkDest_checks

theorem Sound.put {v : Nat → Word} (hs : Sound s) : Yields Sound (s.put p d tag v) := by
  unfold State.put
  split
  · exact hs.push
  · exact hs.mod

theorem Sound.putGroup {vs : List (Tag × (Nat → Word))} (hs : Sound s) : Sound (s.putGroup p d vs) := hs.mod

theorem Sound.orFstat {f : Flags} (hs : Sound s) : Sound (s.orFstat p f) := hs.mod

theorem Sound.finish {v : Nat → Word} {fl : Nat → Flags} (hs : Sound s) :
    Yields Sound (s.finish p fields d tag v fl) :=
  Checks.bind State.checkDst_checks fun _ => Yields.bind hs.popPorts.put fun _ hu => hu.orFstat

theorem Sound.finishGroup {vs : List (Tag × (Nat → Word))} {fl : Nat → Flags} (hs : Sound s) :
    Yields Sound (s.finishGroup p fields d vs fl) :=
  Checks.bind Troupe.checkDest_checks fun _ => hs.popPorts.putGroup.orFstat

theorem Sound.putPred {v : Nat → Bool} (hs : Sound s) : Sound (s.putPred p d v) := hs.mod

theorem activeFault_yields {code arg : Nat} : Yields Sound (activeFault p code arg) := by
  unfold activeFault
  trivial

theorem Sound.noteSync {yes : Bool} (hs : Sound s) : Sound (s.noteSync p yes) := Sound.ite hs.modPathBlock hs

theorem Sound.sealRegion {yes : Bool} (hs : Sound s) : Sound (s.sealRegion p yes) :=
  Sound.ite (hs.modCore fun _ hk => hk) hs

theorem Troupe.checkIndexed_checks : Checks (t.checkIndexed p v) := raiseFirst_checks

end Sys2Proof.Machine
end

section
/-!
Barrier objects and rings stand in local memory, and are written there.
-/
namespace Sys2Proof.Machine

variable {s : State} {blk c off : Nat} {h : Head} {f : XForm} {p : Path} {k : Core} {b : Block}

@[simp] theorem Core.wakeFlip_mem : (k.wakeFlip blk b off).mem = k.mem := by
  simp [Core.wakeFlip]

/-- A flipped barrier is counted in the rings of its block, which stand in local memory. -/
theorem Core.countFlip_wf (hk : k.mem.wf = true) : (k.countFlip b off).mem.wf = true := by
  refine Core.foldl_wf hk fun k j hk => ?_
  extract_lets r o x
  split
  · exact Memory.writeNat_wf _ _ _ _ hk
  · exact hk

theorem Core.flipped_wf (hk : k.mem.wf = true) : (k.flipped blk b off).mem.wf = true := by
  unfold Core.flipped
  rw [Core.wakeFlip_mem]
  exact Core.countFlip_wf hk

/-- The four words of an object are written one after the other. -/
theorem BarObj.write_wf {o : BarObj} {m : Memory} {a : Nat} (hm : m.wf = true) : (o.write m a).wf = true := by
  unfold BarObj.write
  iterate 4 refine Memory.writeNat_wf _ _ _ _ ?_
  exact hm

theorem Sound.putBarrier {f : BarObj → BarObj × Bool} (hs : Sound s) : Sound (s.putBarrier c blk off f) := by
  unfold State.putBarrier
  split
  · exact hs
  · split
    · exact hs
    · refine hs.modCore fun k hk => ?_
      dsimp only
      split
      · refine Core.flipped_wf ?_
        dsimp only
        exact BarObj.write_wf hk
      · dsimp only
        exact BarObj.write_wf hk

theorem Sound.barrierUpdate {u : BarUpdate} (hs : Sound s) : Sound (s.barrierUpdate c blk off u) := hs.putBarrier

theorem Sound.barrierInit {bytes atarget : Nat} {test : Bool} (hs : Sound s) :
    Sound (s.barrierInit c blk off bytes atarget test) := hs.putBarrier

theorem Sound.releaseSlot {j slot : Nat} (hs : Sound s) : Sound (s.releaseSlot c blk j slot) := by
  unfold State.releaseSlot
  split
  · exact hs
  · exact Sound.ite hs.barrierUpdate hs.putBarrier

theorem Sound.signalCopy {sync : Byte} {u : BarUpdate} (hs : Sound s) : Sound (s.signalCopy c blk sync u) := by
  unfold State.signalCopy
  split
  · exact hs
  · exact hs.barrierUpdate

theorem pathFault_checks {code : Nat} {addr : DWord} : Checks (pathFault p code addr) := by
  unfold pathFault
  trivial

theorem State.barrierOff_checks {n : Nat} : Checks (s.barrierOff p n) := Yields.guard pathFault_checks trivial

theorem State.ringSlot_checks {j slot : Nat} : Checks (s.ringSlot p j slot) :=
  Yields.guard pathFault_checks (Yields.guard pathFault_checks trivial)

theorem State.satTrap_checks : Checks (s.satTrap p off) := Yields.ite pathFault_checks trivial

theorem execBinit_lands (hs : Sound s) : Lands (execBinit h f s) :=
  hs.runThread fun _ _ ht => Checks.bind State.barrierOff_checks fun _ => ht.barrierInit

theorem execExpect_lands (hs : Sound s) : Lands (execExpect h f s) :=
  hs.runThread fun _ _ ht => Checks.bind State.barrierOff_checks fun _ => ht.barrierUpdate

theorem execArrive_lands (hs : Sound s) : Lands (execArrive h f s) :=
  hs.runThread fun _ _ ht => Checks.bind State.barrierOff_checks fun _ =>
    Yields.guard pathFault_checks (Checks.bind State.satTrap_checks fun _ => ht.barrierUpdate)

theorem Sound.departOn {key : Key} {now : Bool} (hs : Sound s) : Yields Sound (s.departOn p key off now) :=
  Yields.bind hs.depart fun _ ha => Sound.ite ha.readyNow ha

theorem execAwait_lands (hs : Sound s) : Lands (execAwait h f s) :=
  hs.runThread fun _ _ ht => Checks.bind State.barrierOff_checks fun _ => Checks.bind State.satTrap_checks fun _ =>
    ht.departOn

theorem execRinit_lands (hs : Sound s) : Lands (execRinit h f s) :=
  hs.runThread fun _ _ ht =>
    Yields.guard pathFault_checks (Yields.guard pathFault_checks
      (Yields.guard pathFault_checks (Sound.foldl (ht.modCore fun _ hk =>
        Memory.writeNat_wf _ _ _ _ (Memory.writeNat_wf _ _ _ _ hk)) fun _ _ ht' => ht'.barrierInit.barrierInit)))

theorem execAwaitf_lands (hs : Sound s) : Lands (execAwaitf h f s) :=
  hs.runThread fun _ _ ht => Checks.bind State.ringSlot_checks fun _ => ht.departOn

theorem execRelslot_lands (hs : Sound s) : Lands (execRelslot h f s) :=
  hs.runThread fun _ _ ht => Checks.bind State.ringSlot_checks fun _ => ht.releaseSlot

end Sys2Proof.Machine
end

section
/-!
Branches, calls and departures.
-/
namespace Sys2Proof.Machine

variable {s : State} {h : Head} {f : CForm} {p : Path} {target : Nat → DWord} {m : Mask}

theorem Sound.passTransfer (hs : Sound s) : Yields Sound (s.passTransfer p m target) := hs.passEvent

theorem Sound.jump (hs : Sound s) : Sound (s.jump p m target) := hs.mod

theorem Sound.takeTransfer (hs : Sound s) : Yields Sound (s.takeTransfer p m target) :=
  Yields.bind hs.passTransfer fun _ ha => ha.jump

theorem execNop_lands {f : NopForm} (hs : Sound s) : Lands (execNop h f s) := hs.runThread fun _ _ ht => ht

theorem execBra_lands (hs : Sound s) : Lands (execBra h f s) :=
  hs.runThread fun _ _ ht => Yields.ite ht.takeTransfer ht

theorem execBru_lands (hs : Sound s) : Lands (execBru h f s) :=
  hs.runThread fun _ _ ht => Yields.ite ht.takeTransfer ht

theorem execLoop_lands (hs : Sound s) : Lands (execLoop h f s) :=
  hs.runThread fun _ _ ht => Yields.ite ht.mod (ht.takeTransfer.map fun _ ha => ha.mod)

theorem execBrx_lands {f : RForm} (hs : Sound s) : Lands (execBrx h f s) :=
  hs.runThread fun _ _ ht => Checks.bind State.readPair_checks fun _ => Checks.bind raiseFirst_checks fun _ =>
    ht.takeTransfer

theorem Sound.callTo (hs : Sound s) : Yields Sound (s.callTo p target) :=
  Checks.bind State.accessIn_checks fun _ => Yields.bind hs.touchHits.passTransfer fun _ hu =>
    Yields.bind hu.storeHits fun _ hu => hu.mod

theorem execCall_lands (hs : Sound s) : Lands (execCall h f s) :=
  hs.runThread fun _ _ ht => Yields.ite (Checks.bind raiseFirst_checks fun _ => ht.callTo) ht

theorem execCallx_lands {f : RForm} (hs : Sound s) : Lands (execCallx h f s) :=
  hs.runThread fun _ _ ht => Checks.bind State.readPair_checks fun _ => Checks.bind raiseFirst_checks fun _ =>
    ht.callTo

theorem execRet_lands (hs : Sound s) : Lands (execRet h f s) :=
  hs.runThread fun _ _ ht => by
    dsimp only
    split
    · exact Checks.bind raiseFirst_checks fun _ => Checks.bind State.accessIn_checks fun _ =>
        Checks.bind State.checkPoison_checks fun _ => Yields.bind ht.touchHits.passTransfer fun _ hu =>
          Yields.ite hu.mod.departEach hu.mod
    · exact ht

theorem execExit_lands (hs : Sound s) : Lands (execExit h f s) := by
  refine hs.runThread fun p t ht => Yields.ite (Yields.bind ht.performPushes fun u hu => ?_) ht
  exact (hu.mod (f := fun t => t.endLanes p.active)).sweepTroupe.settleCue_getD

theorem execDepart_lands (hs : Sound s) : Lands (execDepart h f s) :=
  hs.runThread fun _ _ ht => Checks.bind raiseFirst_checks fun _ => Yields.bind ht.depart fun _ hu => by
    split
    · exact Sound.readyNow (hu.modCore fun _ hk => by simpa using hk)
    · exact hu.modCore fun _ hk => by simpa using hk

theorem execSleep_lands (hs : Sound s) : Lands (execSleep h f s) :=
  hs.runThread fun _ _ ht => Yields.bind ht.depart fun _ ha => Sound.ite ha.readyNow ha

theorem execTrap_lands (hs : Sound s) : Lands (execTrap h f s) := hs.runThread fun _ _ _ => activeFault_yields

theorem execBkpt_lands (hs : Sound s) : Lands (execBkpt h f s) :=
  hs.runThread fun _ _ ht => Yields.ite activeFault_yields ht

theorem execStep_lands (hs : Sound s) : Lands (execStep h f s) := hs.runThread fun _ _ ht => ht.mod

end Sys2Proof.Machine
end

section
/-!
Integer majors: each is one of the shapes `unary`, `binary`, `ternary` and `immediate`.
-/
namespace Sys2Proof.Machine

variable {s : State} {h : Head} {f : RForm} {i : Instr} {p : Path} {acc : Tag → Bool} {op : Int → Int → Int}

theorem unary_lands {tag : Tag → Tag} {go : State → Path → Word → Word × Flags} (hs : Sound s) :
    Lands (unary i h f acc tag go s) := hs.runThread fun _ _ ht => Checks.bind State.read1_checks fun _ => ht.finish

theorem binary_lands {accA accB : Tag → Bool} {tag : Tag → Tag → Tag} {go : State → Path → Word → Word → Word × Flags}
    (hs : Sound s) : Lands (binary i h f accA accB tag go s) :=
  hs.runThread fun _ _ ht => Checks.bind State.read2_checks fun ⟨_, _⟩ => ht.finish

theorem ternary_lands {accB : Tag → Bool} {tag : Tag} {go : State → Path → Word → Word → Word → Word × Flags}
    (hs : Sound s) : Lands (ternary i h f acc accB tag go s) :=
  hs.runThread fun _ _ ht => Checks.bind State.read3_checks fun ⟨_, _, _⟩ => ht.finish

theorem immediate_lands {f : IForm} {tag : Tag → Tag} {go : Word → Word → Word × Flags} (hs : Sound s) :
    Lands (immediate i h f acc tag go s) :=
  hs.runThread fun _ _ ht => Checks.bind State.read1_checks fun _ => ht.finish

theorem intBinary_lands (hs : Sound s) : Lands (intBinary i h f op s) := by
  unfold intBinary
  exact binary_lands hs

theorem execIadd_lands (hs : Sound s) : Lands (execIadd h f s) := intBinary_lands hs

theorem execIsub_lands (hs : Sound s) : Lands (execIsub h f s) := intBinary_lands hs

theorem execImul_lands (hs : Sound s) : Lands (execImul h f s) := intBinary_lands hs

theorem execImin_lands (hs : Sound s) : Lands (execImin h f s) := intBinary_lands hs

theorem execImax_lands (hs : Sound s) : Lands (execImax h f s) := intBinary_lands hs

theorem execImulh_lands (hs : Sound s) : Lands (execImulh h f s) := intBinary_lands hs

theorem execIdiv_lands (hs : Sound s) : Lands (execIdiv h f s) := intBinary_lands hs

theorem execIrem_lands (hs : Sound s) : Lands (execIrem h f s) := intBinary_lands hs

theorem execImad_lands (hs : Sound s) : Lands (execImad h f s) := by
  unfold execImad
  exact ternary_lands hs

theorem execIabs_lands (hs : Sound s) : Lands (execIabs h f s) := by
  unfold execIabs
  exact unary_lands hs

theorem bitwise_lands {op : Word → Word → Word} (hs : Sound s) : Lands (bitwise i h f op s) := binary_lands hs

theorem execAnd_lands (hs : Sound s) : Lands (execAnd h f s) := bitwise_lands hs

theorem execOr_lands (hs : Sound s) : Lands (execOr h f s) := bitwise_lands hs

theorem execXor_lands (hs : Sound s) : Lands (execXor h f s) := bitwise_lands hs

theorem execAndn_lands (hs : Sound s) : Lands (execAndn h f s) := bitwise_lands hs

theorem shift_lands {op : Nat → Int → Nat → Int} (hs : Sound s) : Lands (shift i h f op s) := by
  unfold shift
  exact binary_lands hs

theorem execShl_lands (hs : Sound s) : Lands (execShl h f s) := shift_lands hs

theorem execShr_lands (hs : Sound s) : Lands (execShr h f s) := shift_lands hs

theorem execSar_lands (hs : Sound s) : Lands (execSar h f s) := shift_lands hs

theorem execRot_lands (hs : Sound s) : Lands (execRot h f s) := shift_lands hs

theorem execPopc_lands (hs : Sound s) : Lands (execPopc h f s) := unary_lands hs

theorem execClz_lands (hs : Sound s) : Lands (execClz h f s) := unary_lands hs

theorem execBrev_lands (hs : Sound s) : Lands (execBrev h f s) := unary_lands hs

theorem execBfx_lands (hs : Sound s) : Lands (execBfx h f s) := by
  unfold execBfx
  exact binary_lands hs

theorem execBfi_lands (hs : Sound s) : Lands (execBfi h f s) := by
  unfold execBfi
  exact ternary_lands hs

theorem execSel_lands (hs : Sound s) : Lands (execSel h f s) :=
  hs.runThread fun _ _ ht => Checks.bind State.read2_checks fun ⟨_, _⟩ => ht.finish

theorem execIcmp_lands (hs : Sound s) : Lands (execIcmp h f s) :=
  hs.runThread fun _ _ ht => Checks.bind State.read2_checks fun ⟨_, _⟩ => ht.popPorts.putPred

theorem pairArith_lands (hs : Sound s) : Lands (pairArith i h f op s) :=
  hs.runThread fun _ _ ht => Checks.bind State.readPair_checks fun _ => Checks.bind State.readPair_checks fun _ =>
    ht.finishGroup

theorem execIadd64_lands (hs : Sound s) : Lands (execIadd64 h f s) := pairArith_lands hs

theorem execIsub64_lands (hs : Sound s) : Lands (execIsub64 h f s) := pairArith_lands hs

theorem execImulw_lands (hs : Sound s) : Lands (execImulw h f s) :=
  hs.runThread fun _ _ ht => Checks.bind State.read2_checks fun ⟨_, _⟩ => ht.finishGroup

theorem execLea_lands (hs : Sound s) : Lands (execLea h f s) :=
  hs.runThread fun _ _ ht => Checks.bind State.readPair_checks fun _ => Checks.bind State.checkOperand_checks fun _ =>
    Checks.bind State.portsReady_checks fun _ => Checks.bind State.operand_checks fun _ => ht.finishGroup

theorem execShfl_lands (hs : Sound s) : Lands (execShfl h f s) :=
  hs.runThread fun _ _ ht => Checks.bind State.read2_checks fun ⟨_, _⟩ => Yields.bind ht.finish fun _ ha => ha

theorem State.checkMovSource_checks : Checks (s.checkMovSource p f) := by
  unfold State.checkMovSource
  split
  · exact Checks.bind Troupe.checkIndexed_checks fun _ => Checks.bind raiseFirst_checks fun _ =>
      Checks.bind raiseFirst_checks fun _ => raiseFirst_checks
  · exact State.checkOperand_checks

theorem State.movSource_checks : Checks (s.movSource p f) := Yields.ite trivial State.read1_checks

theorem Sound.putIndexed {v : Nat} {tag : Tag} {x : Nat → Word} (hs : Sound s) : Sound (s.putIndexed p v tag x) :=
  hs.mod

theorem State.checkIndexedDst_checks {v : Nat} : Checks (s.checkIndexedDst p v) :=
  Checks.bind Troupe.checkIndexed_checks fun _ => raiseFirst_checks

theorem execMov_lands (hs : Sound s) : Lands (execMov h f s) :=
  hs.runThread fun _ _ ht => Checks.bind State.checkMovSource_checks fun _ =>
    Yields.guard State.checkIndexedDst_checks (Checks.bind State.movSource_checks fun _ =>
      Yields.ite ht.popPorts.putIndexed ht.finish)

theorem execMovk_lands (hs : Sound s) : Lands (execMovk h f s) :=
  hs.runThread fun _ _ ht => Yields.ite ht.finishGroup ht.finish

theorem immArith_lands {f : IForm} (hs : Sound s) : Lands (immArith i h f op s) := immediate_lands hs

theorem execIaddi_lands {f : IForm} (hs : Sound s) : Lands (execIaddi h f s) := immArith_lands hs

theorem execImuli_lands {f : IForm} (hs : Sound s) : Lands (execImuli h f s) := immArith_lands hs

theorem execAndi_lands {f : IForm} (hs : Sound s) : Lands (execAndi h f s) := immediate_lands hs

theorem execOri_lands {f : IForm} (hs : Sound s) : Lands (execOri h f s) := immediate_lands hs

theorem execXori_lands {f : IForm} (hs : Sound s) : Lands (execXori h f s) := immediate_lands hs

theorem immShift_lands {f : IForm} {op : Nat → Int → Nat → Int} (hs : Sound s) : Lands (immShift i h f op s) :=
  immediate_lands hs

theorem execShli_lands {f : IForm} (hs : Sound s) : Lands (execShli h f s) := immShift_lands hs

theorem execShri_lands {f : IForm} (hs : Sound s) : Lands (execShri h f s) := immShift_lands hs

theorem execSari_lands {f : IForm} (hs : Sound s) : Lands (execSari h f s) := immShift_lands hs

theorem execIcmpi_lands {f : IForm} (hs : Sound s) : Lands (execIcmpi h f s) :=
  hs.runThread fun _ _ ht => Checks.bind State.read1_checks fun _ => ht.popPorts.putPred

theorem execMovi_lands {f : IForm} (hs : Sound s) : Lands (execMovi h f s) := hs.runThread fun _ _ ht => ht.finish

end Sys2Proof.Machine
end

section
/-!
Loads, stores and atomic updates.
-/
namespace Sys2Proof.Machine

variable {s : State} {f : MForm} {p : Path} {h : Head} {kind : Nat} {hs : List Hit}

theorem State.memIndex_checks {am : Nat} : Checks (s.memIndex p f am) := Yields.ite State.read1_checks trivial

theorem State.memChecks_checks {am : Nat} : Checks (s.memChecks p f am) :=
  Yields.ite State.checkOperand_checks trivial

theorem Sound.addReplay {sector core slot lane : Nat} (hs : Sound s) :
    Sound (s.addReplay sector core slot lane kind) := Sound.ite hs hs

theorem Sound.logOps (h : Sound s) : Sound (s.logOps p kind hs) := by
  unfold State.logOps
  split
  · exact h.foldl fun _ _ ht => by
      split
      · exact ht.addReplay
      · exact ht
  · exact h

theorem Sound.markReleases {rel : Bool} (h : Sound s) : Sound (s.markReleases p rel hs) := Sound.ite h h

theorem Sound.logPair {h : Hit} (hs : Sound s) : Sound (s.logPair p h) := by
  unfold State.logPair
  split
  · exact hs
  · split
    · exact hs
    · exact Sound.logOps (Sound.ite hs hs.addReplay.elsewhere)

theorem Sound.logAcquires {acq : Bool} (h : Sound s) : Sound (s.logAcquires p acq hs) :=
  Sound.ite (h.foldl fun _ _ ht => ht.logPair) h

theorem Sound.defer {d : List RegData} {poison : Option (Nat × DWord)} (h : Sound s) :
    Sound (s.defer p d hs kind poison) := h.mod.elsewhere

theorem execLd_lands (hs : Sound s) : Lands (execLd h f s) :=
  hs.runThread fun _ _ ht => Checks.bind State.memIndex_checks fun _ => Checks.bind Troupe.checkDest_checks fun _ =>
    Checks.bind State.access_checks fun _ => Yields.guard State.checkPoison_checks (by
        dsimp only
        split
        · exact ht.popPorts.touchHits.logAcquires.sealRegion.defer
        · exact ht.popPorts.touchHits.logAcquires.sealRegion.depart)

theorem execLdl_lands (hs : Sound s) : Lands (execLdl h f s) :=
  hs.runThread fun _ _ ht => Checks.bind State.memIndex_checks fun _ => Checks.bind Troupe.checkDest_checks fun _ =>
    Checks.bind State.access_checks fun _ => ht.popPorts.drawn.putGroup

theorem execLdk_lands (hs : Sound s) : Lands (execLdk h f s) :=
  hs.runThread fun _ _ ht => Checks.bind State.access_checks fun _ => Checks.bind State.checkPoison_checks fun _ =>
    ht.touchHits.logAcquires.sealRegion.depart

theorem Troupe.checkData_checks {t : Troupe} {d : Nat} : Checks (t.checkData p kind d) := Troupe.checkSource_checks

theorem storeTo_lands {i : Instr} {space : Nat → Space} (hs : Sound s) : Lands (storeTo i h f space s) :=
  hs.runThread fun _ _ ht => Checks.bind State.memChecks_checks fun _ => Checks.bind Troupe.checkData_checks fun _ =>
    Checks.bind State.memIndex_checks fun _ => Checks.bind State.access_checks fun _ =>
      Yields.bind ht.popPorts.touchHits.storeHits fun _ hu => hu.markReleases.noteSync.sealRegion

theorem execSt_lands (hs : Sound s) : Lands (execSt h f s) := storeTo_lands hs

theorem execStl_lands (hs : Sound s) : Lands (execStl h f s) := storeTo_lands hs

/-- One lane's update writes its own location. -/
theorem Updated.apply_work {rid : Nat} {u : Updated} {x : Update} (hu : Sound u.work) :
    Sound (u.apply p f rid x).work := by
  unfold Updated.apply
  extract_lets op size
  split
  · split
    · exact hu
    · exact hu.putWrite
  · exact hu.noteRace.modCore fun _ hk => Memory.writeNat_wf _ _ _ _ hk

theorem Sound.noteGlobal (hs : Sound s) : Sound (s.noteGlobal p) := hs.modCore fun _ hk => hk

/-- The updates of an instruction in lane order, whether the comparator lets them pass or not. -/
theorem Sound.update {rid : Nat} {xs : List Update} (hs : Sound s) :
    Yields (fun x => Sound x.1) (s.update p f rid xs) := by
  have hfold (u : Updated) (hu : Sound u.work) : Sound (xs.foldl (Updated.apply p f rid) u).work := by
    induction xs generalizing u with
    | nil => exact hu
    | cons x xs ih => exact ih _ (Updated.apply_work hu)
  unfold State.update
  extract_lets u
  have hw : Sound ((s.noteGlobal p).updateAll p.core u.writes).1 := hs.noteGlobal.updateAll
  split
  · exact hfold _ hs
  · split
    · next e => exact Sound.elsewhere (hw.fst e)
    · next e => exact hw.fst e

theorem State.atomAccess_checks {space : Space} : Checks (s.atomAccess p f space) :=
  Checks.bind State.checkOperand_checks fun _ => Checks.bind Troupe.checkSource_checks fun _ =>
    Checks.bind State.read1_checks fun _ => Checks.bind State.access_checks fun _ =>
      Checks.bind State.checkPoison_checks fun _ => trivial

theorem execAtom_lands (hs : Sound s) : Lands (execAtom h f s) :=
  hs.runThread fun _ _ ht => Checks.bind State.atomAccess_checks fun ⟨_, _⟩ =>
    Yields.bind ht.update fun ⟨_, _⟩ ht' => by
      dsimp only
      split
      · exact ht'.touchHits.logOps.noteSync.sealRegion.elsewhere
      · split
        · exact ht'.touchHits.logOps.noteSync.sealRegion.defer
        · exact ht'.touchHits.logOps.noteSync.sealRegion.depart

theorem execRed_lands (hs : Sound s) : Lands (execRed h f s) :=
  hs.runThread fun _ _ ht => Checks.bind State.atomAccess_checks fun ⟨_, _⟩ => Yields.bind ht.update fun ⟨_, _⟩ ht' =>
    ht'.touchHits.logOps.noteSync.sealRegion.elsewhere

theorem execAtoml_lands (hs : Sound s) : Lands (execAtoml h f s) :=
  hs.runThread fun _ _ ht => Checks.bind State.atomAccess_checks fun ⟨_, _⟩ => Yields.bind ht.update fun ⟨_, _⟩ ht' =>
    Sound.ite ht'.noteSync.sealRegion.putGroup ht'.noteSync.sealRegion

theorem execPref_lands (hs : Sound s) : Lands (execPref h f s) :=
  hs.runThread fun _ _ ht => Checks.bind State.portsReady_checks fun _ => ht.popPorts

theorem execFence_lands (hs : Sound s) : Lands (execFence h f s) := hs.runThread fun _ _ ht => ht.mod.sealRegion

theorem execCclean_lands (hs : Sound s) : Lands (execCclean h f s) :=
  hs.runThread fun _ _ ht => Checks.bind State.memIndex_checks fun _ => Checks.bind State.access_checks fun _ =>
    Yields.ite ht.popPorts.touchHits.passEvent ht.popPorts.touchHits

end Sys2Proof.Machine
end

section
/-!
Scripts and the copy engine.
-/
namespace Sys2Proof.Machine

variable {s : State} {blk c core n : Nat} {f : XForm} {h : Head} {own : Nat × Nat} {k : Core} {bs : List Byte}
  {m : Move}

theorem Sound.engineFill {va : Nat} (hs : Sound s) : Sound (s.engineFill c own va).2 := hs.fill

theorem Sound.engineViews {write : Bool} {pages : List Nat} (hs : Sound s) :
    Sound (s.engineViews c own write pages).2 := by
  have hfold (a : List (Nat × View) × State) (ha : Sound a.2) : Sound (pages.foldl (fun a va =>
      let r := a.2.engineFill c own va
      (a.1 ++ [(va, r.2.viewOf own write va r.1)], r.2)) a).2 := by
    induction pages generalizing a with
    | nil => exact ha
    | cons p pages ih => exact ih _ ha.engineFill
  exact hfold _ hs

/-- The engine's read of a script entry fills translations. -/
theorem Sound.readEntry {a : DWord} (hs : Sound s) : Sound (s.readEntry c blk a).2 := by
  unfold State.readEntry
  dsimp only
  split
  · exact hs.engineFill
  · exact hs.engineFill

theorem Sound.dueEntry {b : Block} (hs : Sound s) : Sound (s.dueEntry c blk b).2 := by
  unfold State.dueEntry
  split
  · exact hs
  · exact hs.readEntry

theorem Sound.scriptFault {code : Nat} {pc addr : DWord} {pos : Nat} (hs : Sound s) :
    Sound (s.scriptFault c blk code pc addr pos) := hs.blockFault

theorem Sound.releaseLoop {w : Releaser} (hs : Sound s) : Sound (s.releaseLoop n c blk w).1 := by
  induction n generalizing s with
  | zero => exact hs
  | succ n ih =>
    unfold State.releaseLoop
    split
    · exact hs
    · next b _ =>
      split
      · exact hs
      · have hd : Sound (s.dueEntry c blk b).2 := hs.dueEntry
        dsimp only
        split
        · next e => exact (hd.snd e).modBlock
        · next e =>
          have ht := hd.snd e
          split
          · exact ht
          · split
            · exact ht
            · split
              · exact ih ht.modBlock
              · split
                · exact ht.modBlock
                · exact ih ht.modBlock

theorem Sound.stopScript {pc : DWord} {x : Option ScriptStop} (hs : Sound s) : Sound (s.stopScript c blk pc x) := by
  cases x with
  | none => exact hs
  | some x => exact hs.scriptFault

theorem Sound.releaseDue {fmode : BitVec 3} (hs : Sound s) : Sound (s.releaseDue c blk fmode) :=
  hs.releaseLoop.stopScript

theorem Sound.cacheRecord {part addr : Nat} (hs : Sound s) : Sound (s.cacheRecord c part addr bs) := hs.modCluster

theorem Sound.fenceRecords {addr : Option Nat} (hs : Sound s) : Sound (s.fenceRecords c addr) := hs.modCluster

theorem Sound.readRecord {a : Nat} (hs : Sound s) : Sound (s.readRecord c own a).2 := by
  unfold State.readRecord
  split
  · exact hs.cacheRecord
  · dsimp only
    split
    · split
      · exact hs.engineFill
      · exact Sound.ite hs.engineFill.cacheRecord hs.engineFill
    · exact hs.engineFill
    · exact hs.engineFill

theorem Sound.readAheadLoop {pos : Nat} (hs : Sound s) : Sound (s.readAheadLoop n c blk pos) := by
  induction n generalizing s pos with
  | zero => exact hs
  | succ n ih =>
    unfold State.readAheadLoop
    split
    · exact hs
    · next b _ =>
      extract_lets r t
      have hr : Sound r.2 := by
        unfold r
        split
        · exact hs
        · exact hs.readEntry
      have ht : Sound t := hr.modBlock
      split
      · exact ih ht
      · extract_lets e u
        split
        · exact ht
        · exact ih (Sound.ite ht.readRecord ht)

theorem Sound.readAhead (hs : Sound s) : Sound (s.readAhead c blk) := by
  unfold State.readAhead
  split
  · exact Sound.ite hs.readAheadLoop hs
  · exact hs

theorem Sound.placeScript (hs : Sound s) : Sound (s.placeScript c blk) := hs.readAhead.releaseDue

theorem Sound.wakeUnlocked (hs : Sound s) : Sound (s.wakeUnlocked c) := hs.modCore fun _ hk => by simpa using hk

@[simp] theorem Core.modCopy_mem (f : Copy → Copy) : (k.modCopy n f).mem = k.mem := rfl

@[simp] theorem Core.register_mem (r : Regions) : (k.register n r).mem = k.mem := rfl

theorem Sound.flagCopy {f : Nat} (hs : Sound s) : Sound (s.flagCopy c n f) :=
  Sound.wakeUnlocked (hs.modCore fun _ hk => hk)

theorem Sound.narrow (hs : Sound s) : Sound (s.narrow c n bs) := by
  unfold State.narrow
  dsimp only
  split
  · exact hs
  · split
    · exact hs
    · split
      · exact hs.flagCopy
      · exact hs.modCore fun _ hk => hk

@[simp] theorem Core.takeCounter_mem (e : ScriptEntry) : (k.takeCounter n e).mem = k.mem := rfl

theorem Sound.giveRecord (hs : Sound s) : Sound (s.giveRecord c n bs) := by
  unfold State.giveRecord
  extract_lets k
  split
  · exact hs
  · split
    · exact hs
    · split
      · exact hs.flagCopy
      · split
        · exact hs.flagCopy
        · refine Sound.wakeUnlocked (hs.modCore fun k hk => ?_)
          dsimp only
          split
          · simpa using hk
          · simpa using hk

theorem Sound.startCopy (hs : Sound s) : Sound (s.startCopy c blk) := by
  unfold State.startCopy
  dsimp only
  split
  · split
    · exact hs
    · split
      · split
        · exact Sound.narrow (Sound.cacheRecord (hs.setCore hs.core))
        · exact Sound.giveRecord (Sound.cacheRecord (hs.setCore hs.core))
      · exact hs.setCore hs.core
  · exact hs

theorem Sound.startAll (hs : Sound s) : Sound (s.startAll n c) := by
  induction n generalizing s with
  | zero => exact hs
  | succ n ih =>
    unfold State.startAll
    split
    · exact ih hs.startCopy
    · exact hs

theorem Sound.readReleased (hs : Sound s) : Sound (s.readReleased c blk) := by
  unfold State.readReleased
  split
  · exact hs
  · refine hs.foldl fun t r ht => ?_
    split
    · exact ht
    · extract_lets put
      have hput {u : State} {e : Option ScriptEntry} {failed : Bool} (hu : Sound u) : Sound (put u e failed) :=
        hu.modBlock
      split
      · next e => exact (hput (ht.readEntry.snd e)).scriptFault
      · next e =>
        have hu := ht.readEntry.snd e
        dsimp only
        split
        · exact (hput hu).scriptFault
        · exact hput hu.readRecord

theorem execScriptReadComplete_lands {slot : Nat} (hs : Sound s) : Lands (execScriptReadComplete core slot s) :=
  hs.readReleased.readAhead

theorem execCopyStart_lands {slot : Nat} (hs : Sound s) : Lands (execCopyStart core slot s) :=
  Sound.ite hs.startCopy hs

theorem Sound.copyWaits {vas : List Nat} (hs : Sound s) : Sound (s.copyWaits c n own vas) :=
  Sound.modCore (hs.foldl fun _ _ ht => ht.requestPage) fun _ hk => hk

theorem execRecordObtained_lands {copy : Nat} (hs : Sound s) : Lands (execRecordObtained core copy s) := by
  unfold execRecordObtained
  split
  · exact hs
  · split
    · exact hs
    · dsimp only
      split
      · exact hs.giveRecord
      · split
        · exact Sound.giveRecord (Sound.snd hs.readRecord ‹_›)
        · exact Sound.copyWaits (Sound.snd hs.readRecord ‹_›)
        · exact Sound.flagCopy (Sound.snd hs.readRecord ‹_›)

@[simp] theorem Core.noteCopy_mem (b : Nat) : (k.noteCopy b).mem = k.mem := rfl

theorem Sound.putCopy {vs : List (Nat × View)} {bytes : List (Nat × Byte)} (hs : Sound s) :
    Sound (s.putCopy m vs bytes).1 := by
  unfold State.putCopy
  split
  · exact Sound.writeAll (hs.modCore fun _ hk => hk)
  · split
    · exact hs
    · exact hs.modCore fun _ hk => Memory.writeCells_wf _ _ hk

theorem Sound.finishCopy {x : Copy} {u : BarUpdate} (hs : Sound s) : Sound (s.finishCopy c n x u) := by
  unfold State.finishCopy
  dsimp only
  split
  · exact Sound.wakeUnlocked (hs.modCore fun _ hk => hk)
  · exact Sound.signalCopy (Sound.wakeUnlocked (hs.modCore fun _ hk => hk))

theorem Sound.endPartly {f : Nat} {vs : List (Nat × View)} {d : Delivery} (hs : Sound s) :
    Sound (s.endPartly m n f vs d) := by
  unfold State.endPartly
  dsimp only
  split
  · exact Sound.finishCopy (Sound.putCopy hs)
  · exact Sound.mismatch (Sound.putCopy hs)

/-- A copy writes what its moves bring, as far as they were delivered. -/
theorem Sound.performCopy (hs : Sound s) : Sound (s.performCopy m n) := by
  unfold State.performCopy
  extract_lets op own pages r vs t src d bytes
  have ht : Sound t := hs.engineViews
  split
  · exact ht.endPartly
  · split
    · exact ht.copyWaits
    · split
      · exact ht.endPartly
      · split
        · next e => exact (ht.putCopy.fst e).mismatch
        · next e => exact (ht.putCopy.fst e).finishCopy

theorem execCopyComplete_lands {copy : Nat} (hs : Sound s) : Lands (execCopyComplete core copy s) := by
  unfold execCopyComplete
  dsimp only
  split
  · exact hs
  · split
    · exact hs.finishCopy
    · exact Lands.ite hs.finishCopy (Lands.ite hs hs.performCopy)
    · exact hs

theorem Sound.runRelease {p : Path} {fresh : Mask} (hs : Sound s) : Sound (s.runRelease p fresh) :=
  Sound.ite hs.modPathBlock hs.releaseLoop.startAll.stopScript

theorem execCstep_lands (hs : Sound s) : Lands (execCstep h f s) :=
  hs.runThread fun _ _ ht => ht.modPathBlock.runRelease.sealRegion

theorem execCsched_lands (hs : Sound s) : Lands (execCsched h f s) :=
  hs.runThread fun _ _ ht => Yields.guard pathFault_checks ht.modPathBlock.runRelease

theorem State.recordAddr_checks {p : Path} : Checks (s.recordAddr p f) := Yields.guard pathFault_checks trivial

theorem execRcfence_lands (hs : Sound s) : Lands (execRcfence h f s) :=
  hs.runThread fun _ _ ht => Checks.bind State.recordAddr_checks fun _ => ht.fenceRecords

theorem execRcfenceAll_lands (hs : Sound s) : Lands (execRcfenceAll h f s) :=
  hs.runThread fun _ _ ht => ht.fenceRecords

theorem execCstat_lands (hs : Sound s) : Lands (execCstat h f s) :=
  hs.runThread fun _ _ ht => by
    dsimp only
    split
    · exact Checks.bind trivial fun _ => ht.finish
    · exact Checks.bind trivial fun _ => ht.finish
    · exact Checks.bind trivial fun _ => ht.finish
    · exact Checks.bind State.barrierOff_checks fun _ => Checks.bind trivial fun _ => ht.finish
    · exact Checks.bind (Yields.guard pathFault_checks (Yields.guard pathFault_checks trivial)) fun _ => ht.finish
    · exact Checks.bind (Yields.guard pathFault_checks (Yields.guard pathFault_checks trivial)) fun _ => ht.finish

theorem execRcseal_lands (hs : Sound s) : Lands (execRcseal h f s) :=
  hs.runThread fun _ _ ht => Checks.bind State.recordAddr_checks fun _ => Checks.bind raiseFirst_checks fun _ =>
    Checks.bind State.translateHits_checks fun _ => by
      dsimp only
      split
      · exact ht
      · exact Yields.guard raiseFirst_checks (Checks.bind raiseFirst_checks fun _ =>
          Checks.bind raiseFirst_checks fun _ => by
              split
              · exact Sound.fst ht.touch.logOps.noteSync.noteGlobal.updateAll ‹_›
              · exact Sound.fst ht.touch.logOps.noteSync.noteGlobal.updateAll ‹_›)

end Sys2Proof.Machine
end

section
/-!
Queues, launches and completions.
-/
namespace Sys2Proof.Machine

variable {s : State} {c n : Nat} {bs : List Byte}

theorem Sound.devWrite {a : Nat} (hs : Sound s) : Sound (s.devWrite a bs) := by
  have hw : Sound { s with dram := s.dram.writeBytes a bs } := { hs with dram := Memory.writeBytes_wf _ _ _ hs.dram }
  exact hw.clearPoison.dropReleases

theorem Sound.complete {addr : Nat} (hs : Sound s) : Sound (s.complete addr bs) := Sound.ite hs hs.devWrite

theorem Sound.completeUnrun {r : QRec} {status reason : Nat} (hs : Sound s) :
    Sound (s.completeUnrun r status reason) := hs.complete

theorem Sound.modQueue {f : Queue → Queue} (hs : Sound s) : Sound (s.modQueue n f) := hs.modSched

theorem Sound.accept (hs : Sound s) : Sound (s.accept n bs) := hs.modQueue

theorem execDmwrSubmit_lands {vf queue off : Nat} {data : List Byte} (hs : Sound s) :
    Lands (execDmwrSubmit vf queue off data s) := Sound.elsewhere (Sound.ite hs.accept hs)

theorem execWindowPostedWrite_lands {_vf _queue : Nat} (hs : Sound s) : Lands (execWindowPostedWrite _vf _queue s) :=
  hs

theorem Sound.addLaunch {l : Launch} (hs : Sound s) : Sound (s.addLaunch l) := hs.modSched

theorem Sound.popQueue (hs : Sound s) : Sound (s.popQueue n) := hs.modQueue

theorem execQueueHeadPass_lands {queue : Nat} (hs : Sound s) : Lands (execQueueHeadPass queue s) := by
  unfold execQueueHeadPass
  split
  · exact hs
  · dsimp only
    split
    · exact hs
    · split
      · exact hs.popQueue.elsewhere
      · split
        · exact hs
        · split
          · exact hs.modQueue.addLaunch
          · exact hs.popQueue.completeUnrun.signal
          · exact hs

theorem execCancelRegisterWrite_lands {vf : Nat} {value : Word} (hs : Sound s) :
    Lands (execCancelRegisterWrite vf value s) := Sound.ite hs.modSched hs

theorem Sound.dropLaunch {id : Nat} (hs : Sound s) : Sound (s.dropLaunch id) := hs.modSched

theorem Sound.cancelQueued {r : QRec} (hs : Sound s) : Sound (s.cancelQueued n r) := by
  unfold State.cancelQueued
  extract_lets s1 s2
  have h1 : Sound s1 := by
    unfold s1
    split
    · exact hs.dropLaunch.ite hs
    · exact hs
  have h2 : Sound s2 := h1.completeUnrun
  exact h2.signal.ite h2

theorem Sound.cancelQueues {part group : Nat} (hs : Sound s) : Sound (s.cancelQueues part group) :=
  hs.foldl fun _ _ ht => Sound.modQueue (ht.foldl fun _ _ ht' => ht'.cancelQueued)

theorem Sound.dropReleased {b : Nat} {x : Block} {r : Released} (hs : Sound s) : Sound (s.dropReleased c b x r) := by
  unfold State.dropReleased
  split
  · exact hs
  · split
    · exact hs.signalCopy
    · split
      · exact Sound.ite (Sound.snd hs.readEntry ‹_›) (Sound.signalCopy (Sound.snd hs.readEntry ‹_›))
      · exact Sound.snd hs.readEntry ‹_›

theorem Sound.cancelBlock {b : Nat} (hs : Sound s) : Sound (s.cancelBlock c b) := by
  unfold State.cancelBlock
  split
  · exact hs
  · refine Sound.killCancelled (Sound.modBlock (Sound.foldl ?_ fun _ _ ht => ht.dropReleased))
    exact hs.modCore fun _ hk => hk

theorem Sound.dropRetry {x : Nat × Nat} (hs : Sound s) : Sound (s.dropRetry c x) := by
  unfold State.dropRetry
  dsimp only
  split
  · exact Sound.modBlock (Sound.modLaunch (hs.modCore fun _ hk => hk))
  · exact Sound.freeChildren (Sound.modLaunch (Sound.modLaunch (hs.modCore fun _ hk => hk)))

theorem Sound.dropRetries {ids : List Nat} (hs : Sound s) : Sound (s.dropRetries ids) :=
  hs.foldl fun _ _ ht => ht.foldl fun _ _ ht' => ht'.dropRetry

theorem Sound.cancelLaunches {ids : List Nat} (hs : Sound s) : Sound (s.cancelLaunches ids) :=
  hs.modSched.discardRanges.dropRetries.foldl fun _ _ ht => ht.cancelBlock

theorem execCancel_lands (hs : Sound s) : Lands (execCancel s) := by
  unfold execCancel
  split
  · exact hs
  · exact hs.modSched.cancelQueues.cancelLaunches

theorem Sound.clearRows {l : Launch} (hs : Sound s) : Sound (s.clearRows l) := hs.modSched

theorem Sound.forget {id : Nat} (hs : Sound s) : Sound (s.forget id) := hs.modSched

theorem execFinalUpdate_lands {launch : Nat} (hs : Sound s) : Lands (execFinalUpdate launch s) := by
  unfold execFinalUpdate
  split
  · exact hs
  · next l _ =>
    extract_lets s1 s2 s3 s4
    split
    · exact hs
    · have h1 : Sound s1 := hs.complete
      have h2 : Sound s2 := Sound.ite h1.signal h1
      have h4 : Sound s4 := Sound.modSched (Sound.clearRows h2.modLaunch)
      exact Sound.ite h4 h4.forget

theorem execSecondUpdate_lands {launch : Nat} (hs : Sound s) : Lands (execSecondUpdate launch s) := by
  unfold execSecondUpdate
  split
  · exact hs
  · exact Lands.ite hs.complete.forget hs

end Sys2Proof.Machine
end

section
/-!
Binding, grants and the placement of blocks, which clears what the new owner may not see.
-/
namespace Sys2Proof.Machine

variable {s : State} {c core queue : Nat} {rec : BitVec 128}

theorem Sound.setRow {r : BitVec 128} (hs : Sound s) : Sound (s.setRow queue r) := hs.modSched

theorem Sound.setPrio {ids : List Nat} {prio : Nat} (hs : Sound s) : Sound (s.setPrio ids prio) :=
  hs.modSched.foldl fun _ _ ht => ht.modCore fun _ hk => hk

theorem Sound.clearCode {clmask : BitVec 16} {coremask : BitVec 8} (hs : Sound s) :
    Sound (s.clearCode clmask coremask) :=
  hs.mapIdx_cores fun c k => by split <;> rfl

theorem Sound.bindFamily {l : Launch} {b : BindRec} (hs : Sound s) : Sound (s.bindFamily l b queue rec) :=
  hs.modSched.setPrio.setRow.clearCode

theorem execBind_lands (hs : Sound s) : Lands (execBind queue rec s) := by
  unfold execBind
  dsimp only
  split
  · exact Sound.ite hs.popQueue.bindFamily hs.report
  · exact Sound.ite hs.bindFamily hs.report
  · exact hs.report

theorem execDrain_lands {addr : DWord} (hs : Sound s) : Lands (execDrain queue rec addr s) := by
  unfold execDrain
  dsimp only
  split
  · exact Sound.ite hs.modLaunch.setRow hs.report
  · exact hs.report

theorem execReprioritise_lands (hs : Sound s) : Lands (execReprioritise queue rec s) := by
  unfold execReprioritise
  dsimp only
  split
  · exact Sound.ite hs.setPrio.setRow hs.report
  · exact hs.report

theorem execCoreRowBind_lands {slot : Nat} (hs : Sound s) : Lands (execCoreRowBind core slot rec s) := by
  unfold execCoreRowBind
  dsimp only
  split
  · exact Sound.ite hs.modSched hs.report
  · exact hs.report

theorem Sound.grant {ls : List Launch} (hs : Sound s) : Sound (s.grant ls c) := by
  unfold State.grant
  split
  · exact hs.modLaunch
  · exact hs

theorem execWorkRequest_lands (hs : Sound s) : Lands (execWorkRequest core s) := Lands.ite hs.grant.modSched hs

/-- Regions of another owner are cleared as they are claimed. -/
theorem Core.claimRegions_wf {k : Core} {base size : Nat} {own : Nat × Nat} {all : Bool} (hk : k.mem.wf = true) :
    (k.claimRegions base size own all).mem.wf = true := by
  unfold Core.claimRegions
  split
  · exact hk
  · refine Core.foldl_wf ?_ fun k r hk => ?_
    · split
      · exact Memory.clear_wf _ _ _ hk
      · exact hk
    · dsimp only
      split
      · exact hk
      · exact Memory.clear_wf _ _ _ hk

theorem Sound.countCore {id : Nat} (hs : Sound s) : Sound (s.countCore id c) := hs.modLaunch

theorem Sound.place {l : Launch} {index b base : Nat} {again : Bool} (hs : Sound s) :
    Sound (s.place c l index b base again) := by
  unfold State.place
  refine Sound.placeScript (Sound.countCore (hs.modCore fun k hk => ?_))
  simpa using Core.claimRegions_wf hk

theorem execBlockPlace_lands (hs : Sound s) : Lands (execBlockPlace core s) := by
  unfold execBlockPlace
  dsimp only
  split
  · exact hs
  · split
    · exact hs.modLaunch.place
    · exact hs

theorem execBlockRetryPlace_lands (hs : Sound s) : Lands (execBlockRetryPlace core s) := by
  unfold execBlockRetryPlace
  split
  · exact Sound.place (hs.modCore fun _ hk => hk)
  · exact hs

theorem execDrainPositionWrite_lands {launch : Nat} (hs : Sound s) : Lands (execDrainPositionWrite launch s) := by
  unfold execDrainPositionWrite
  split
  · split
    · exact Sound.ite hs hs.devWrite
    · exact hs
  · exact hs

theorem execConsistentCut_lands {launch : Nat} (hs : Sound s) : Lands (execConsistentCut launch s) := by
  unfold execConsistentCut
  split
  · exact Lands.ite hs.modSched hs
  · exact hs

end Sys2Proof.Machine
end

section
/-!
Floating-point majors: the integer shapes with other operations.
-/
namespace Sys2Proof.Machine

variable {s : State} {h : Head} {f : RForm} {i : Instr}

theorem vunary_lands {op : FloatFmt → Nat → Bool → Nat → Rounded} (hs : Sound s) : Lands (vunary i h f op s) := by
  unfold vunary
  exact unary_lands hs

theorem vbinary_lands {op : FloatFmt → Nat → Bool → Nat → Nat → Rounded} (hs : Sound s) :
    Lands (vbinary i h f op s) := by
  unfold vbinary
  exact binary_lands hs

theorem farith_lands {op : FloatFmt → Nat → Bool → Nat → Nat → Rounded}
    {opX : FloatFmt → Nat → Nat → Nat → PairResult} (hs : Sound s) : Lands (farith i h f op opX s) := by
  unfold farith
  split
  · exact hs.runThread fun _ _ ht => Checks.bind State.read2_checks fun ⟨_, _⟩ => ht.finishGroup
  · exact vbinary_lands hs

theorem execFadd_lands (hs : Sound s) : Lands (execFadd h f s) := farith_lands hs

theorem execFsub_lands (hs : Sound s) : Lands (execFsub h f s) := farith_lands hs

theorem execFmul_lands (hs : Sound s) : Lands (execFmul h f s) := farith_lands hs

theorem execFfma_lands (hs : Sound s) : Lands (execFfma h f s) := by
  unfold execFfma
  exact ternary_lands hs

theorem execFmin_lands (hs : Sound s) : Lands (execFmin h f s) := vbinary_lands hs

theorem execFmax_lands (hs : Sound s) : Lands (execFmax h f s) := vbinary_lands hs

theorem execFcpys_lands (hs : Sound s) : Lands (execFcpys h f s) := vbinary_lands hs

theorem execFcmp_lands (hs : Sound s) : Lands (execFcmp h f s) :=
  hs.runThread fun _ _ ht => Checks.bind State.read2_checks fun ⟨_, _⟩ => ht.popPorts.putPred.orFstat

theorem execFclass_lands (hs : Sound s) : Lands (execFclass h f s) := by
  unfold execFclass
  exact unary_lands hs

theorem execFrnd_lands (hs : Sound s) : Lands (execFrnd h f s) := vunary_lands hs

theorem execFscale_lands (hs : Sound s) : Lands (execFscale h f s) := by
  unfold execFscale
  exact binary_lands hs

theorem execFrcp_lands (hs : Sound s) : Lands (execFrcp h f s) := vunary_lands hs

theorem execFsqrt_lands (hs : Sound s) : Lands (execFsqrt h f s) := vunary_lands hs

theorem execFrsq_lands (hs : Sound s) : Lands (execFrsq h f s) := vunary_lands hs

theorem execFexp2_lands (hs : Sound s) : Lands (execFexp2 h f s) := vunary_lands hs

theorem execFlog2_lands (hs : Sound s) : Lands (execFlog2 h f s) := vunary_lands hs

theorem execFsinp_lands (hs : Sound s) : Lands (execFsinp h f s) := vunary_lands hs

theorem execFcosp_lands (hs : Sound s) : Lands (execFcosp h f s) := vunary_lands hs

theorem execFtanh_lands (hs : Sound s) : Lands (execFtanh h f s) := vunary_lands hs

theorem execFdiv_lands (hs : Sound s) : Lands (execFdiv h f s) := vbinary_lands hs

theorem Sound.finishDw {p : Path} {fields : List Nat} {d : Nat} {r : Nat → PairResult} (hs : Sound s) :
    Yields Sound (s.finishDw p fields d r) := hs.finishGroup

theorem dwPairs_lands {op : Nat → Nat → Nat → Nat → PairResult} (hs : Sound s) : Lands (dwPairs i h f op s) :=
  hs.runThread fun _ _ ht => Checks.bind State.readPair_checks fun _ => Checks.bind State.readPair_checks fun _ =>
    ht.finishDw

theorem dwSingle_lands {op : Nat → Nat → Nat → PairResult} (hs : Sound s) : Lands (dwSingle i h f op s) :=
  hs.runThread fun _ _ ht => Checks.bind State.readPair_checks fun _ => Checks.bind State.checkOperand_checks fun _ =>
    Checks.bind State.portsReady_checks fun _ => Checks.bind State.operand_checks fun _ => ht.finishDw

theorem execDwadd_lands (hs : Sound s) : Lands (execDwadd h f s) := dwPairs_lands hs

theorem execDwadds_lands (hs : Sound s) : Lands (execDwadds h f s) := dwSingle_lands hs

theorem execDwmul_lands (hs : Sound s) : Lands (execDwmul h f s) := dwPairs_lands hs

theorem execDwmuls_lands (hs : Sound s) : Lands (execDwmuls h f s) := dwSingle_lands hs

theorem execDwnorm_lands (hs : Sound s) : Lands (execDwnorm h f s) :=
  hs.runThread fun _ _ ht => Checks.bind State.readPair_checks fun _ => ht.finishDw

theorem reduceOne_lands {op : Nat → Bool → List (Option Nat) → Rounded} (hs : Sound s) :
    Lands (reduceOne i h f op s) := hs.runThread fun _ _ ht => Checks.bind State.read1_checks fun _ => ht.finish

theorem execVrsum_lands (hs : Sound s) : Lands (execVrsum h f s) := reduceOne_lands hs

theorem execVrmax_lands (hs : Sound s) : Lands (execVrmax h f s) := reduceOne_lands hs

theorem execVrmin_lands (hs : Sound s) : Lands (execVrmin h f s) := reduceOne_lands hs

theorem execVrsumc_lands (hs : Sound s) : Lands (execVrsumc h f s) :=
  hs.runThread fun _ _ ht => by
    split
    · exact Checks.bind State.readPair_checks fun _ => ht.finishDw
    · exact Checks.bind State.read1_checks fun _ => ht.finishDw

theorem execVrdotc_lands (hs : Sound s) : Lands (execVrdotc h f s) :=
  hs.runThread fun _ _ ht => Checks.bind State.read2_checks fun ⟨_, _⟩ => ht.finishDw

theorem execCvt_lands (hs : Sound s) : Lands (execCvt h f s) := by
  unfold execCvt
  exact unary_lands hs

theorem execCvti_lands (hs : Sound s) : Lands (execCvti h f s) := by
  unfold execCvti
  exact unary_lands hs

theorem execPack2_lands (hs : Sound s) : Lands (execPack2 h f s) := Lands.ite (binary_lands hs) (binary_lands hs)

theorem execUnpk2_lands (hs : Sound s) : Lands (execUnpk2 h f s) :=
  hs.runThread fun _ _ ht => Checks.bind State.read1_checks fun _ => ht.finishGroup

theorem execCvtbx_lands (hs : Sound s) : Lands (execCvtbx h f s) :=
  hs.runThread fun _ _ ht => Checks.bind State.operandGroup_checks fun _ => ht.finishGroup

theorem execCvtxb_lands (hs : Sound s) : Lands (execCvtxb h f s) :=
  hs.runThread fun _ _ ht => Checks.bind State.readPair_checks fun _ => ht.finishGroup

end Sys2Proof.Machine
end

section
/-!
Work fetching, spawning and queueing.
-/
namespace Sys2Proof.Machine

variable {s : State} {h : Head} {c : Nat} {l : Launch} {f : KForm}

theorem execFetchw_lands {f : XForm} (hs : Sound s) : Lands (execFetchw h f s) :=
  hs.runThread fun _ _ ht =>
    Yields.guard pathFault_checks (Yields.guard pathFault_checks (Sound.depart (ht.modCore fun _ hk =>
      Memory.writeNat_wf _ _ _ _ hk)))

theorem Sound.withdraw {x : (Nat ⊕ Nat) × State} (hs : Sound s) (h : s.withdraw c l = some x) : Sound x.2 := by
  obtain ⟨r, _, rfl⟩ := Option.map_eq_some_iff.mp h
  exact hs.modLaunch

/-- An answer to FETCHW withdraws an index from a launch, or has the core granted to one first. -/
theorem Sound.fetchAnswer {x : (Nat ⊕ Nat) × State} (hs : Sound s) (h : s.fetchAnswer c l = some x) : Sound x.2 := by
  unfold State.fetchAnswer at h
  split at h
  · cases h; exact hs
  · split at h
    · cases h; exact hs
    · split at h
      · exact hs.withdraw h
      · split at h
        · exact hs.grant.modSched.withdraw h
        · cases h

theorem Sound.writeMailbox {blk rid off : Nat} {b : Block} {answer : Nat ⊕ Nat} (hs : Sound s) :
    Sound (s.writeMailbox c blk rid off b answer) := by
  unfold State.writeMailbox
  extract_lets a s1 s2
  have h1 : Sound s1 := hs.modCore fun k hk => by
    dsimp only
    split
    · exact Memory.writeNat_wf _ _ _ _ (Memory.writeNat_wf _ _ _ _ hk)
    · exact Memory.writeNat_wf _ _ _ _ hk
  have h2 : Sound s2 := by
    unfold s2
    split
    · exact h1.modBlock
    · exact h1
  exact h2.modCore fun _ hk => by simpa using hk

theorem execFetchwService_lands {core rid : Nat} (hs : Sound s) : Lands (execFetchwService core rid s) := by
  unfold execFetchwService
  split
  · exact hs
  · split
    · split
      · next h => exact (hs.fetchAnswer h).writeMailbox
      · exact hs
    · exact hs

theorem Sound.spawn {kdesc : DWord} {n : Nat} {argptr : DWord} (hs : Sound s) :
    Sound (s.spawn l kdesc n argptr).2 := by
  unfold State.spawn
  split
  · exact hs
  · split
    · exact hs
    · split
      · exact hs
      · split
        · exact hs
        · exact hs.addLaunch.clearCode

theorem execSpawn_lands {f : XForm} (hs : Sound s) : Lands (execSpawn h f s) := by
  refine hs.runThread fun p t ht => ?_
  split
  · exact ht
  · exact ht.passEvent.map fun _ ha => ha.spawn.noteSync.mod

theorem execEnq_lands (hs : Sound s) : Lands (execEnq h f s) := by
  refine hs.runThread fun p t ht => ?_
  extract_lets q n
  split
  · exact ht
  · refine ht.passEvent.map fun u hu => Sound.mod (Sound.noteSync ?_)
    split
    · exact hu
    · split
      · exact hu
      · exact hu.accept

theorem execJobstQuery_lands (hs : Sound s) : Lands (execJobstQuery h f s) := hs.runThread fun _ _ ht => ht.mod

theorem execJobstCancel_lands (hs : Sound s) : Lands (execJobstCancel h f s) :=
  hs.runThread fun _ _ ht => Yields.ite activeFault_yields ht.modSched.mod

end Sys2Proof.Machine
end

section
/-!
Returns of records that wait.
-/
namespace Sys2Proof.Machine

variable {s : State} {c core rid : Nat} {k : Core} {r : CueRec}

@[simp] theorem Core.returnDeferred_mem : (k.returnDeferred rid).mem = k.mem := by
  simp [Core.returnDeferred]

theorem execLoadDataReturn_lands (hs : Sound s) : Lands (execLoadDataReturn core rid s) := by
  unfold execLoadDataReturn
  dsimp only
  split
  · exact hs
  · exact Lands.ite (hs.modCore fun _ hk => by simpa using hk) (hs.modCore fun _ hk => by simpa using hk)

@[simp] theorem Core.pageDone_mem (page : Nat) (test : CueRec → Bool) : (k.pageDone page test).mem = k.mem := by
  simp [Core.pageDone]

@[simp] theorem Core.keepOutcome_mem (f : Fill) (mine : CueRec → Bool) : (k.keepOutcome f mine).mem = k.mem := by
  unfold Core.keepOutcome
  split <;> rfl

theorem execTlbFillComplete_lands {va : DWord} {evict : Nat} (hs : Sound s) :
    Lands (execTlbFillComplete core va evict s) :=
  hs.foldl fun _ _ ht => ht.fill.modCore fun _ hk => by simpa using hk

theorem execWakeTime_lands (hs : Sound s) : Lands (execWakeTime core rid s) := by
  unfold execWakeTime
  split
  · split
    · exact Sound.modCore hs fun _ hk => by simpa using hk
    · exact hs
  · exact hs

theorem Core.readBackRoom_mem {l : Core} (h : k.readBackRoom r = some l) : l.mem = k.mem := by
  unfold Core.readBackRoom at h
  dsimp only at h
  split at h
  · cases h; rfl
  · split at h
    · split at h
      · exact (Core.makeRoom_same _ _ _ _ _ h).mem
      · cases h
    · cases h

theorem Sound.wingsFail {b : Nat} (hs : Sound s) : Sound (s.wingsFail c b) := hs.report.blockFault

theorem execReadBack_lands {good : Bool} (hs : Sound s) : Lands (execReadBack core good s) := by
  unfold execReadBack
  extract_lets k
  split
  · exact hs
  · split
    · exact hs
    · next k' hk' =>
      split
      · refine hs.setCore ?_
        have hm : k'.mem = k.mem := Core.readBackRoom_mem hk'
        rw [show (k'.unspill _).mem = k'.mem from rfl, hm]
        exact hs.core
      · exact hs.wingsFail

theorem Sound.discardRecord (hs : Sound s) : Sound (s.discardRecord c r) := hs.noteRemoved.modTroupe.sweepTroupe

theorem Sound.relaunchAll {slot : Nat} {t : Troupe} {sibs : List CueRec} (hs : Sound s) :
    Sound (s.relaunchAll c slot t r sibs) := by
  unfold State.relaunchAll
  extract_lets all ids one bare s1 s2
  have h1 : Sound s1 := hs.modCore fun _ hk => hk
  have h2 : Sound s2 := h1.foldl fun _ _ ht => ht.rewindLanes.ite ht
  exact h1.discardRecord.ite (h2.modCore fun _ hk => hk)

theorem execRelaunch_lands (hs : Sound s) : Lands (execRelaunch core s) := by
  unfold execRelaunch
  dsimp only
  split
  · exact hs
  · split
    · exact hs
    · split
      · exact hs
      · split
        · exact Sound.ite hs.wingsFail hs.relaunchAll
        · exact hs

end Sys2Proof.Machine
end

section
/-!
Matrix commands write cells and local bytes as they retire; an owner's claim scrubs the cells.
-/
namespace Sys2Proof.Machine

variable {s : State} {f : XForm} {h : Head} {p : Path} {q : Pair} {pair : Nat}

/-- Cells written one after the other, each at its own key. -/
theorem CellStore.foldl_write_wf {key : Nat × Word → Nat} {l : List (Nat × Word)} {m : CellStore} (hm : m.wf = true) :
    CellStore.wf (l.foldl (fun m c => m.write (key c) c.2) m) = true := by
  induction l generalizing m with
  | nil => exact hm
  | cons c l ih => exact ih (m.write_wf (key c) c.2 hm)

theorem Pair.scrubFor_wf {x : MatCmd} (hq : q.cells.wf = true) : (q.scrubFor x).cells.wf = true := by
  unfold Pair.scrubFor
  split
  · rfl
  · exact hq

theorem execMatrixStart_lands (hs : Sound s) : Lands (execMatrixStart pair s) := by
  unfold execMatrixStart
  split
  · exact hs
  · exact Sound.ite (hs.modPair fun _ hq => Pair.scrubFor_wf hq) hs

theorem execMatrixLastRead_lands (hs : Sound s) : Lands (execMatrixLastRead pair s) := by
  unfold execMatrixLastRead
  split
  · exact hs
  · extract_lets r s1 s2
    have h1 : Sound s1 := Sound.modPair hs fun _ hq => hq
    have h2 : Sound s2 := by
      unfold s2
      split
      · exact h1.ite h1.releaseSlot
      · exact h1
    exact Sound.ite (h2.modCore fun _ hk => hk) h2

theorem Sound.matrixArrive {x : MatCmd} {b : Nat} (hs : Sound s) : Sound (s.matrixArrive x b) := hs.putBarrier

theorem execMatrixRetire_lands (hs : Sound s) : Lands (execMatrixRetire pair s) := by
  unfold execMatrixRetire
  split
  · exact hs
  · split
    · exact hs
    · extract_lets s1 s2 s3
      have h1 : Sound s1 := hs.modPair fun q hq => CellStore.foldl_write_wf hq
      have h2 : Sound s2 := h1.modCore fun k hk => by
        dsimp only
        split
        · exact hk
        · exact Memory.writeCells_wf _ _ hk
      have h3 : Sound s3 := by
        unfold s3
        split
        · exact h2.ite h2.matrixArrive
        · exact h2
      exact h3.modCore fun _ hk => hk

theorem State.checkRole_checks : Checks (s.checkRole p) := Yields.ite pathFault_checks trivial

theorem Pair.claim_wf {own : Nat × Nat} (hq : q.cells.wf = true) : (q.claim own).cells.wf = true := by
  unfold Pair.claim
  split
  · exact hq
  · rfl

theorem Sound.claimCells (hs : Sound s) : Sound (s.claimCells p) :=
  hs.modPair fun _ => Pair.claim_wf

theorem State.takeTile_checks {n : Nat} {r : TileRole} {shape : Tile → Bool} : Checks (s.takeTile p n r shape) := by
  unfold State.takeTile
  dsimp only
  split
  · exact Checks.bind pathFault_checks fun _ => trivial
  · exact Checks.bind trivial fun _ => trivial

theorem State.takeArr_checks {on : Bool} : Checks (s.takeArr p f on) := by
  unfold State.takeArr
  split
  · exact Checks.bind State.barrierOff_checks fun _ => trivial
  · trivial

theorem State.takeRel_checks {on : Bool} : Checks (s.takeRel p f on) :=
  Yields.ite (Yields.guard pathFault_checks trivial) trivial

theorem Sound.enterBoard {op : MatOp} {arr : Option Nat} {rel : Option (Nat × Nat)} {reads writes : List Span}
    (hs : Sound s) : Sound (s.enterBoard p op arr rel reads writes) :=
  Sound.modCore (hs.modPair fun _ hq => hq) fun _ hk => hk

theorem mmaIssue_lands {i : Instr} {sparse : Bool} (hs : Sound s) : Lands (mmaIssue i h f sparse s) :=
  hs.runThread fun _ _ ht => Checks.bind State.checkRole_checks fun _ =>
    Yields.guard activeFault_yields (Checks.bind State.takeTile_checks fun _ =>
      Checks.bind State.takeTile_checks fun _ => Checks.bind State.takeArr_checks fun _ =>
        Checks.bind State.takeRel_checks fun _ => ht.enterBoard)

theorem execMma_lands (hs : Sound s) : Lands (execMma h f s) := mmaIssue_lands hs

theorem execMmas_lands (hs : Sound s) : Lands (execMmas h f s) := mmaIssue_lands hs

theorem execMzero_lands (hs : Sound s) : Lands (execMzero h f s) :=
  hs.runThread fun _ _ ht => Checks.bind State.checkRole_checks fun _ => Yields.guard pathFault_checks ht.enterBoard

theorem cellsRange_checks {t : Tile} {row0 col0 : Nat} : Checks (cellsRange p t row0 col0) :=
  Yields.ite pathFault_checks trivial

theorem execAccld_lands (hs : Sound s) : Lands (execAccld h f s) :=
  hs.runThread fun _ _ ht => Checks.bind State.checkRole_checks fun _ => Checks.bind State.takeTile_checks fun _ =>
    Checks.bind State.takeArr_checks fun _ => Checks.bind cellsRange_checks fun _ => ht.enterBoard

theorem execAccst_lands (hs : Sound s) : Lands (execAccst h f s) :=
  hs.runThread fun _ _ ht => Checks.bind State.checkRole_checks fun _ => Checks.bind State.takeTile_checks fun _ =>
    Checks.bind State.takeArr_checks fun _ => Checks.bind cellsRange_checks fun _ => ht.enterBoard

theorem execAccrd_lands (hs : Sound s) : Lands (execAccrd h f s) :=
  hs.runThread fun _ _ ht => Checks.bind State.checkDst_checks fun _ => Checks.bind State.checkRole_checks fun _ =>
    ht.claimCells.elsewhere.finish

theorem Pair.writeCell_wf {key : Nat} {after : Bool} {v : Word} (hq : q.cells.wf = true) :
    (q.writeCell key after v).cells.wf = true :=
  q.cells.write_wf key v hq

theorem Pair.foldl_wf {α : Type} {f : Pair → α → Pair} {l : List α} (hq : q.cells.wf = true)
    (hf : ∀ q a, q.cells.wf = true → (f q a).cells.wf = true) : (l.foldl f q).cells.wf = true := by
  induction l generalizing q with
  | nil => exact hq
  | cons a l ih => exact ih (hf q a hq)

theorem execAccwr_lands (hs : Sound s) : Lands (execAccwr h f s) :=
  hs.runThread fun _ _ ht => Checks.bind Troupe.checkSource_checks fun _ =>
    Checks.bind State.checkRole_checks fun _ =>
    Sound.modPair ht.claimCells fun _ hq => Pair.foldl_wf hq fun _ _ => Pair.writeCell_wf

theorem execMlive_lands (hs : Sound s) : Lands (execMlive h f s) := hs.runThread fun _ _ ht => ht.mod

theorem execMpert_lands (hs : Sound s) : Lands (execMpert h f s) :=
  hs.runThread fun _ _ ht => Checks.bind State.checkRole_checks fun _ =>
    Yields.guard pathFault_checks (ht.modPair fun _ hq => hq)

theorem execMstat_lands (hs : Sound s) : Lands (execMstat h f s) :=
  hs.runThread fun _ _ ht => Yields.bind ht.finish fun _ ha => Sound.ite (ha.modPair fun _ hq => hq) ha

end Sys2Proof.Machine
end

section
/-!
Stream majors and element fetches.
-/
namespace Sys2Proof.Machine

variable {s : State} {h : Head} {f : RForm} {k : Core} {n : Nat}

@[simp] theorem Core.wakePorts_mem : k.wakePorts.mem = k.mem := by
  simp [Core.wakePorts]

@[simp] theorem Core.unbind_mem : (k.unbind n).mem = k.mem := rfl

@[simp] theorem Core.bindCtx_mem (blk troupe port : Nat) (slot : Option Nat) (write : Bool) (kbase : DWord)
    (pat : Pattern) (region : List Span) : (k.bindCtx n blk troupe port slot write kbase pat region).mem = k.mem := by
  unfold Core.bindCtx
  split <;> rfl

theorem execScfg_lands {f : XForm} (hs : Sound s) : Lands (execScfg h f s) :=
  hs.runThread fun _ _ ht => Yields.guard trivial (Yields.guard trivial (by
      dsimp only
      split
      · trivial
      · exact Yields.ite trivial (ht.modCore fun _ hk => by
          split
          · simpa using hk
          · simpa using hk)))

theorem State.named_checks {p : Path} {q : Nat} : Checks (s.named p q) := by
  unfold State.named
  split
  · trivial
  · exact streamFault_checks

theorem execSdrain_lands (hs : Sound s) : Lands (execSdrain h f s) :=
  hs.runThread fun _ _ ht => Checks.bind State.boundCtx_checks fun _ => ht

theorem execSclose_lands (hs : Sound s) : Lands (execSclose h f s) :=
  hs.runThread fun _ _ ht => Checks.bind State.named_checks fun _ => ht.modCore fun _ hk => hk

theorem execSpos_lands (hs : Sound s) : Lands (execSpos h f s) :=
  hs.runThread fun _ _ ht => Checks.bind State.named_checks fun _ => ht.finish

theorem execSeos_lands (hs : Sound s) : Lands (execSeos h f s) :=
  hs.runThread fun _ _ ht => Checks.bind State.named_checks fun _ => ht.putPred

theorem execSseek_lands {f : XForm} (hs : Sound s) : Lands (execSseek h f s) :=
  hs.runThread fun _ _ ht => by
    dsimp only
    split
    · exact Checks.bind trivial fun _ => Checks.bind State.named_checks fun _ => ht.popPorts.modCore fun _ hk =>
        by simpa using hk
    · exact Checks.bind State.read1_checks fun _ => Checks.bind State.named_checks fun _ =>
        ht.popPorts.modCore fun _ hk => by simpa using hk

theorem Sound.fillElement {c b : Nat} {hits : List Hit} (hs : Sound s) : Sound (s.fillElement c b n hits).2 := by
  unfold State.fillElement
  split
  · exact hs
  · suffices ∀ (l : List Hit) (r : List (Nat × Fill) × State), Sound r.2 → Sound (l.foldl (fun r h =>
        let f := r.2.fill c (s.ownerOf c b) h.va oldestEntry
        (r.1 ++ [(h.va, f.1)], f.2)) r).2 from this hits ([], s) hs
    intro l
    induction l with
    | nil => exact fun _ h => h
    | cons a l ih => exact fun r hr => ih _ hr.fill

theorem execStreamFetchComplete_lands {core ctx lane : Nat} (hs : Sound s) :
    Lands (execStreamFetchComplete core ctx lane s) := by
  unfold execStreamFetchComplete
  extract_lets x y n stopped put
  have hput {t : State} {e : Fetched} (ht : Sound t) : Sound (put t e) := ht.modCore fun _ hk => by simpa using hk
  split
  · refine Lands.ite hs ?_
    split
    · exact hput hs
    · extract_lets r
      split
      · exact hput hs.fillElement
      · exact hs.fillElement
  · exact hs

theorem execPushTranslationRestored_lands {core ctx lane : Nat} {ok : Bool} (hs : Sound s) :
    Lands (execPushTranslationRestored core ctx lane ok s) := by
  unfold execPushTranslationRestored
  dsimp only
  split
  · exact Lands.ite hs.fill.retryHeld (Sound.blockFaultOf (hs.modCore fun _ hk => by simpa using hk))
  · exact hs

end Sys2Proof.Machine
end

section
/-!
What the choice of an instruction leaves behind.
-/
namespace Sys2Proof.Machine

variable {s : State}

theorem Sound.cacheCode {c : Nat} {pc : DWord} (hs : Sound s) : Sound (s.cacheCode c pc) :=
  Sound.modCore hs fun _ hk => hk

theorem Sound.noteHeld (hs : Sound s) : Sound s.noteHeld := by
  unfold State.noteHeld
  split
  · exact hs
  · refine hs.mapIdx_cores fun c k => ?_
    split
    · rfl
    · rfl

theorem Sound.noteChoice {q : Issue} (hs : Sound s) : Sound (s.noteChoice q) := hs.modCore fun _ hk => hk

end Sys2Proof.Machine
end

section
/-!
Saving writes device DRAM; restoring writes local memory and cells.
-/
namespace Sys2Proof.Machine

variable {s : State} {b c slot : Nat} {slots : List Nat}

theorem Sound.devReplace {lo hi : Nat} {cells : List Host.Cell} (hs : Sound s) :
    Sound (s.devReplace lo hi cells) := by
  unfold State.devReplace
  refine Sound.foldl ?_ fun _ _ ht => ht.wakeSector
  exact ⟨Memory.writeCells_wf _ _ (Memory.clear_wf _ _ _ hs.dram), hs.host, hs.peer, hs.cores, hs.pairs⟩

theorem Sound.devWrites {a : Nat} {ws : List (Nat × List Byte)} (hs : Sound s) : Sound (s.devWrites a ws) :=
  hs.foldl fun _ _ ht => ht.devWrite

theorem Sound.saveAccumulators (hs : Sound s) : Sound (s.saveAccumulators c) := hs.devReplace

theorem Sound.saveWindow (hs : Sound s) : Sound (s.saveWindow c slot) := by
  unfold State.saveWindow
  split
  · exact hs
  · exact hs.devReplace.foldl fun _ _ ht => ht.devWrite

theorem Sound.saveCtxs (hs : Sound s) : Sound (s.saveCtxs c slot) := hs.foldl fun _ _ ht => ht.devReplace.devWrites

theorem Sound.saveScript (hs : Sound s) : Sound (s.saveScript c slot) := by
  unfold State.saveScript
  split
  · exact hs.devWrite
  · exact hs

theorem Sound.saveHeader (hs : Sound s) : Sound (s.saveHeader c slots) := hs.devReplace

theorem Sound.saveParts (hs : Sound s) : Sound (s.saveParts c slot) := hs.saveWindow.saveCtxs.saveScript

theorem Sound.recordHalted {i : Nat} {m : Mask} {code mark : Nat} (hs : Sound s) :
    Sound (s.recordHalted c b i m code mark) := by
  unfold State.recordHalted
  split
  · exact hs
  · exact hs.recordsToEntry.modCore fun _ hk => hk

theorem Sound.recordBlock (hs : Sound s) : Sound (s.recordBlock c b) := by
  unfold State.recordBlock
  extract_lets s1 s2
  have h1 : Sound s1 := hs.foldl fun _ _ ht => ht.recordHalted
  have h2 : Sound s2 := h1.foldl fun _ _ ht => ht.recordHalted
  exact h2.foldl fun _ _ ht => ht.recordsToEntry

theorem Sound.holdBlock (hs : Sound s) : Sound (s.holdBlock c b) := hs.modCore fun _ hk => by simpa using hk

theorem Sound.saveBlocks {t : State} (hs : Sound s) (e : s.saveBlocks c slots = some t) : Sound t := by
  unfold State.saveBlocks at e
  obtain ⟨u, hu, rfl⟩ := Option.map_eq_some_iff.mp e
  have hparts : Sound (slots.foldl (fun s b => s.saveParts c b) (s.saveAccumulators c)) :=
    hs.saveAccumulators.foldl fun _ _ ht => ht.saveParts
  have hu : Sound u := (hparts.foldl fun _ _ ht => ht.recordBlock).settleCue hu
  exact Sound.saveHeader (hu.foldl fun _ _ ht => ht.holdBlock)

/-- Cells taken from a store leave it in order. -/
theorem CellStore.filter_wfFrom {m : CellStore} {test : Nat × Word → Bool} {lo : Nat} (hm : m.wfFrom lo = true) :
    CellStore.wfFrom lo (m.filter test) = true := by
  induction m generalizing lo with
  | nil => rfl
  | cons x m ih =>
    obtain ⟨k, w⟩ := x
    simp only [CellStore.wfFrom, Bool.and_eq_true, decide_eq_true_eq] at hm
    obtain ⟨⟨hk, hw⟩, hm⟩ := hm
    rw [List.filter_cons]
    split
    · simp only [CellStore.wfFrom, Bool.and_eq_true, decide_eq_true_eq]
      exact ⟨⟨hk, hw⟩, ih hm⟩
    · exact CellStore.wfFrom_mono _ _ _ (ih hm) (by omega)

/-- What stays of the owner's cells, and those of the save area over them. -/
theorem Sound.restoreCells (hs : Sound s) : Sound (s.restoreCells c) := by
  unfold State.restoreCells
  refine hs.modPair fun q hq => CellStore.foldl_write_wf ?_
  split
  · exact CellStore.filter_wfFrom hq
  · rfl

theorem Sound.restoreWindow (hs : Sound s) : Sound (s.restoreWindow c slot) := by
  unfold State.restoreWindow
  split
  · exact hs
  · exact hs.modCore fun k hk => Memory.writeCells_wf _ _ (Memory.clear_wf _ _ _ hk)

theorem Sound.restoreCtxs (hs : Sound s) : Sound (s.restoreCtxs c slot) :=
  hs.foldl fun _ _ ht => ht.modCore fun _ hk => hk

theorem Sound.restoreScript (hs : Sound s) : Sound (s.restoreScript c slot) := hs.modBlock

@[simp] theorem Core.releaseHeld_mem (k : Core) : (k.releaseHeld slots).mem = k.mem := by
  simp [Core.releaseHeld]

theorem Sound.resumeBlock (hs : Sound s) : Sound (s.resumeBlock c slot) := by
  unfold State.resumeBlock
  split
  · exact hs
  · exact hs.modCore fun _ hk => hk

theorem Sound.resumeScript (hs : Sound s) : Sound (s.resumeScript c slot) := by
  unfold State.resumeScript
  split
  · exact hs
  · exact hs.readAhead.releaseDue.modBlock

theorem Sound.restoreCore (hs : Sound s) : Sound (s.restoreCore c) := by
  unfold State.restoreCore
  extract_lets slots s1 s2 s3 s4 s5
  have h1 : Sound s1 := hs.foldl fun _ _ ht => ht.restoreWindow
  have h2 : Sound s2 := h1.restoreCells
  have h3 : Sound s3 := h2.foldl fun _ _ ht => ht.restoreCtxs.restoreScript
  have h4 : Sound s4 := h3.foldl fun _ _ ht => ht.resumeBlock
  have h5 : Sound s5 := h4.foldl fun _ _ ht => ht.resumeScript
  exact hs.ite (h5.modCore fun _ hk => by simpa using hk)

theorem execContextRestore_lands {core : Nat} (hs : Sound s) : Lands (execContextRestore core s) :=
  Sound.ite hs.restoreCore hs

end Sys2Proof.Machine
end

section
/-!
Faults answered, pre-emption and cuts.
-/
namespace Sys2Proof.Machine

variable {s : State} {b c core n seq slot : Nat} {k : Core}

theorem Sound.disposeSaved {w : FaultWait} (hs : Sound s) : Sound (s.disposeSaved w seq) := by
  unfold State.disposeSaved
  extract_lets c own put s1 ids s2 s3
  have hput {t : State} {f : CueRec → CueRec} (ht : Sound t) : Sound (put f t) := ht.modCore fun _ hk => hk
  split
  · exact hs.applyDisposition
  · have h1 : Sound s1 := by
      unfold s1
      split
      · exact hs.foldl fun _ _ ht => ht.requestPage
      · exact hs
    have h2 : Sound s2 := hput h1
    exact h2.failRecords.ite h2
  · exact (hput hs).modBlock.elsewhere

theorem Sound.writeWaiting {w : FaultWait} (hs : Sound s) : Sound (s.writeWaiting w) :=
  Sound.ite (Sound.disposeSaved (Sound.postRecord hs)) (Sound.applyDisposition (Sound.postRecord hs))

theorem Sound.drainWaiting (hs : Sound s) : Sound (s.drainWaiting n) := by
  induction n generalizing s with
  | zero => exact hs
  | succ n ih =>
    unfold State.drainWaiting
    split
    · exact Sound.ite (ih hs.writeWaiting) hs
    · exact hs

theorem execFaultRecordConsumed_lands (hs : Sound s) : Lands (execFaultRecordConsumed n s) := Sound.drainWaiting hs

theorem Sound.answerKill {h : Halt} (hs : Sound s) : Sound (s.answerKill h) := hs.countFault.killBlock

theorem Sound.releaseKept (hs : Sound s) : Sound (s.releaseKept c b) := by
  unfold State.releaseKept
  split
  · split
    · exact Sound.ite hs hs.releaseDue.modBlock
    · exact hs
  · exact hs

theorem Sound.answerReturn {h : Halt} {skip : Bool} (hs : Sound s) : Sound (s.answerReturn h skip) :=
  hs.returnFromFault.releaseKept

theorem execFaultAnswerResume_lands (hs : Sound s) : Lands (execFaultAnswerResume seq s) := by
  unfold execFaultAnswerResume
  split
  · exact hs
  · exact Sound.ite hs.answerKill hs.answerReturn

theorem execFaultAnswerSkip_lands (hs : Sound s) : Lands (execFaultAnswerSkip seq s) := by
  unfold execFaultAnswerSkip
  split
  · exact hs
  · exact Sound.ite hs.answerReturn hs.answerKill

@[simp] theorem Core.spillRecord_mem (rid : Nat) : (k.spillRecord rid).mem = k.mem := by
  unfold Core.spillRecord
  split
  · split
    · rfl
    · rfl
  · rfl

@[simp] theorem Core.spillFrame_mem (i : Nat) : (k.spillFrame b i).mem = k.mem := by
  unfold Core.spillFrame
  split
  · split
    · split
      · rfl
      · rfl
    · rfl
  · rfl

@[simp] theorem Core.spillBlocks_mem (test : Nat → Bool) : (k.spillBlocks test).mem = k.mem := by
  simp [Core.spillBlocks]

theorem execFaultAnswerSave_lands (hs : Sound s) : Lands (execFaultAnswerSave seq s) := by
  unfold execFaultAnswerSave
  split
  · exact hs
  · dsimp only
    split
    · exact hs.report
    · split
      · exact hs.setCore (by simpa using hs.core)
      · exact Sound.saveHeader (Sound.saveParts (Sound.saveAccumulators (hs.setCore (by simpa using hs.core))))

theorem execFaultAnswerKill_lands (hs : Sound s) : Lands (execFaultAnswerKill seq s) := by
  unfold execFaultAnswerKill
  split
  · exact hs
  · exact hs.answerKill

theorem Sound.undoSaved {cells : List Host.Cell} (hs : Sound s) : Sound (s.undoSaved c cells) :=
  hs.foldl fun _ _ ht => ht.devWrite

theorem Sound.stepBack {i : Nat} (hs : Sound s) : Sound (s.stepBack c b i n) := by
  unfold State.stepBack
  split
  · exact hs
  · extract_lets r t
    have ht : Sound t := hs.modCore fun k hk => Core.foldl_wf hk fun _ _ => Core.undoEntry_wf
    exact Sound.ite (Sound.saveCtxs (ht.foldl fun _ _ hu => hu.undoSaved)) ht

theorem execFaultAnswerStepback_lands (hs : Sound s) : Lands (execFaultAnswerStepback seq n s) := by
  unfold execFaultAnswerStepback
  split
  · exact hs
  · exact Sound.ite hs.answerKill (Sound.ite hs.stepBack hs)

theorem Sound.releaseBlock {x : Block} (hs : Sound s) : Sound (s.releaseBlock c b x) :=
  Sound.freeChildren (Sound.modLaunch (Sound.elsewhere (hs.modCore fun _ hk => hk)))

theorem Sound.enterScan (hs : Sound s) : Sound (s.enterScan c) := hs.foldl fun _ _ ht => ht.modCore fun _ hk => hk

theorem execPreemptRequest_lands {cores : List Nat} (hs : Sound s) : Lands (execPreemptRequest cores s) := by
  refine hs.mapIdx_cores fun c k => ?_
  split
  · rfl
  · rfl

theorem Sound.savePreempted (hs : Sound s) : Sound (s.savePreempted c) := by
  unfold State.savePreempted
  split
  · exact hs
  · split
    · next e =>
      have ht := (hs.saveBlocks e).modCore (c := c) (f := fun k => { k with preempt := none }) fun _ hk => hk
      exact Sound.ite ht.enterScan ht
    · exact hs.ite (Sound.report (hs.modCore fun _ hk => hk))

theorem Sound.collect (hs : Sound s) : Sound (s.collect c) := by
  unfold State.collect
  split
  · exact hs
  · exact Sound.ite (hs.foldl fun _ _ ht => ht.savePreempted) hs

theorem execPreemptAck_lands {engine : Engine} (hs : Sound s) : Lands (execPreemptAck core engine s) :=
  Lands.ite (Sound.collect (hs.modCore fun _ hk => hk)) hs

theorem Sound.retrySave (hs : Sound s) : Sound (s.retrySave c) := by
  unfold State.retrySave
  split
  · exact Sound.ite hs.savePreempted hs.collect
  · exact hs

theorem execBlockDone_lands (hs : Sound s) : Lands (execBlockDone core slot s) := by
  unfold execBlockDone
  dsimp only
  split
  · split
    · exact Sound.retrySave (Sound.ite hs.killCancelled.releaseBlock hs.killCancelled)
    · exact hs.killCancelled
  · exact hs.killCancelled

theorem Sound.reportPaths {paths : List Issue} (hs : Sound s) : Sound (s.reportPaths paths) :=
  Sound.ite hs hs.report.elsewhere

theorem execPremaxExpiry_lands (hs : Sound s) : Lands (execPremaxExpiry core slot s) := by
  unfold execPremaxExpiry
  split
  · exact hs
  · dsimp only
    split
    · exact Sound.ite hs (Sound.killCancelled (hs.modCore fun _ hk => hk))
    · exact Lands.ite hs.reportPaths (Lands.ite hs.reportPaths hs)

theorem execSaveRoomAvailable_lands (hs : Sound s) : Lands (execSaveRoomAvailable core s) :=
  Sound.retrySave (hs.modCore fun _ hk => hk)

theorem execPrompterKill_lands (hs : Sound s) : Lands (execPrompterKill core slot s) := by
  unfold execPrompterKill
  split
  · exact Sound.ite hs.killBlock.retrySave hs
  · exact hs

/-- Cores are saved one after the other, as long as each finds room. -/
theorem Sound.saveFamily {t : State} {id : Nat} (hs : Sound s) (e : s.saveFamily id = some t) : Sound t := by
  unfold State.saveFamily at e
  suffices ∀ (l : List Nat) (f : State → Nat → List Nat) (o : Option State), (∀ u ∈ o, Sound u) →
      ∀ u ∈ l.foldl (fun (o : Option State) c => o.bind fun s => s.saveBlocks c (f s c)) o, Sound u from
    this _ _ _ (fun u hu => Option.some.inj hu ▸ hs) t e
  intro l f
  induction l with
  | nil => exact fun _ ho => ho
  | cons c l ih =>
    refine fun o ho => ih _ fun u hu => ?_
    obtain ⟨v, hv, e⟩ := Option.bind_eq_some_iff.mp hu
    exact (ho v hv).saveBlocks e

theorem execCutComplete_lands {launch : Nat} {addr : DWord} (hs : Sound s) :
    Lands (execCutComplete launch addr s) := by
  unfold execCutComplete
  split
  · exact hs
  · split
    · split
      · next e => exact (hs.saveFamily e).modSched.devWrite
      · exact hs.report
    · exact hs

end Sys2Proof.Machine
end

section
/-!
Slots, partitions, page requests and requests over the host link.
-/
namespace Sys2Proof.Machine

variable {s : State} {index p : Nat}

theorem execTimeSlotWrite_lands {slot : Nat} {value : Byte} (hs : Sound s) : Lands (execTimeSlotWrite slot value s) :=
  Sound.ite hs hs.report

theorem Sound.applySlots (hs : Sound s) : Sound s.applySlots := hs

theorem Sound.mgmtDone {v : MgmtStatus} (hs : Sound s) : Sound (s.mgmtDone v) := Sound.signal hs

theorem execFrameBoundary_lands (hs : Sound s) : Lands (execFrameBoundary s) :=
  hs.applySlots.ite (Sound.mgmtDone (Sound.elsewhere (hs.applySlots.foldl fun _ _ ht => ht.modPart)))

theorem execPartitionRegWrite_lands {part off : Nat} {value : DWord} (hs : Sound s) :
    Lands (execPartitionRegWrite part off value s) := by
  unfold execPartitionRegWrite
  dsimp only
  split
  · exact hs
  · exact Sound.ite hs.modPart hs.report

theorem Sound.disown {cs : List Nat} (hs : Sound s) : Sound (s.disown cs) :=
  hs.foldl fun _ _ ht => Sound.modPair (ht.modCore fun _ hk => hk) fun _ hq => hq

theorem Sound.shootPartitions {ps : List Nat} (hs : Sound s) : Sound (s.shootPartitions ps) :=
  hs.map_cores fun _ => rfl

theorem Sound.dropKeys (hs : Sound s) : Sound (s.dropKeys p) := hs.map_cores fun _ => rfl

theorem Sound.clearKeys (hs : Sound s) : Sound (s.clearKeys p) := hs.map_cores fun _ => rfl

theorem Sound.clearPartition (hs : Sound s) : Sound (s.clearPartition p) :=
  Sound.modSched (hs.clearKeys.foldl fun _ _ ht => ht.modQueue)

theorem Sound.giveSlots {is : List Nat} (hs : Sound s) : Sound (s.giveSlots is p) := hs

theorem execMerge_lands {a b : Nat} (hs : Sound s) : Lands (execMerge a b s) := by
  unfold execMerge
  dsimp only
  split
  · exact hs.disown.giveSlots.shootPartitions.clearPartition.modPart.modPart.elsewhere
  · exact hs.mgmtDone

theorem execSplit_lands {a b first : Nat} {colour slots : DWord} (hs : Sound s) :
    Lands (execSplit a b first colour slots s) := by
  unfold execSplit
  dsimp only
  split
  · exact hs.disown.giveSlots.shootPartitions.clearPartition.modPart.modPart.elsewhere
  · exact hs.mgmtDone

theorem execKeyset_lands {vf core slot : Nat} {pasid : BitVec 20} {key : BitVec 256} {salt : Word} {ctr : DWord}
    (hs : Sound s) : Lands (execKeyset vf core slot pasid key salt ctr s) :=
  Lands.ite (Sound.mgmtDone (hs.modCore fun _ hk => hk)) hs.mgmtDone

theorem execAtsInvalidation_lands {vf pasid va size : Nat} (hs : Sound s) :
    Lands (execAtsInvalidation vf pasid va size s) := by
  unfold execAtsInvalidation
  refine Sound.ite hs ?_
  exact hs.map_cores fun _ => rfl

theorem Sound.completeInvals (hs : Sound s) : Sound s.completeInvals := Sound.ite hs hs

theorem Sound.sendWaiting (hs : Sound s) : Sound s.sendWaiting :=
  hs.foldl fun _ _ ht => by
    split
    · exact Sound.ite ht ht
    · exact ht

theorem Sound.dropRequest (hs : Sound s) : Sound (s.dropRequest index) := Sound.sendWaiting hs

theorem Sound.forgetPage {r : PageRequest} (hs : Sound s) : Sound (s.forgetPage r) :=
  hs.map_cores fun _ => rfl

@[simp] theorem Core.copiesGo_mem (k : Core) (va : Nat) (mine : Copy → Bool) : (k.copiesGo va mine).mem = k.mem := by
  unfold Core.copiesGo
  split <;> rfl

theorem execPrgResponseSuccess_lands {answer : AtsAnswer} (hs : Sound s) :
    Lands (execPrgResponseSuccess index answer s) := by
  unfold execPrgResponseSuccess
  split
  · exact hs
  · exact hs.dropRequest.forgetPage.elsewhere.foldl fun _ _ ht => by
      dsimp only
      split
      · exact ht.modCore fun _ hk => by simpa using hk
      · exact Sound.modCore (ht.modCore fun _ hk => by simpa using hk) fun _ hk => by simpa using hk

theorem Sound.pageFinal {q : PageRequest} (hs : Sound s) : Sound (s.pageFinal q) :=
  hs.foldl fun _ _ ht =>
    Sound.ite (Sound.ite ht ht.failRecords) (Sound.modCore (Sound.ite ht ht.failRecords) fun _ hk => hk)

theorem execPrgResponseInvalid_lands (hs : Sound s) : Lands (execPrgResponseInvalid index s) := by
  unfold execPrgResponseInvalid
  split
  · exact hs
  · exact hs.dropRequest.pageFinal

theorem execPrgResponseFailure_lands (hs : Sound s) : Lands (execPrgResponseFailure s) :=
  Sound.signal (Sound.foldl hs fun _ _ ht => ht.pageFinal)

theorem execPriReenable_lands (hs : Sound s) : Lands (execPriReenable s) := Sound.sendWaiting hs

@[simp] theorem Core.giveOld_mem (k : Core) (rid lane old : Nat) : (k.giveOld rid lane old).mem = k.mem := rfl

theorem Sound.performOp {o : HostOp} (hs : Sound s) : Sound (s.performOp o) := by
  unfold State.performOp
  extract_lets size old
  refine Sound.modCore ?_ fun k hk => by simpa using hk
  exact ⟨hs.dram, Memory.writeNat_wf _ _ _ _ hs.host, hs.peer, hs.cores, hs.pairs⟩

theorem Sound.failAccess {c : Nat} {r : CueRec} {code : Nat} {mask : Mask} {addr : DWord} (hs : Sound s) :
    Sound (s.failAccess c r code mask addr) :=
  Sound.failRecords (Sound.settleCue_getD (Sound.elsewhere (hs.modCore fun _ hk => hk)))

theorem Sound.failOp {o : HostOp} (hs : Sound s) : Sound (s.failOp o) := by
  unfold State.failOp
  dsimp only
  split
  · exact Sound.failAccess hs
  · exact Sound.blockFault hs

theorem execAtomicopCompletion_lands {core rid : Nat} {ok : Bool} (hs : Sound s) :
    Lands (execAtomicopCompletion core rid ok s) := by
  unfold execAtomicopCompletion
  split
  · exact hs
  · exact Sound.ite (Sound.performOp hs) hs.failOp

theorem execReceivedAtomicop_lands {_vf : Nat} (hs : Sound s) : Lands (execReceivedAtomicop _vf s) := hs

theorem execHostMemoryRequest_lands {_vf : Nat} {addr : DWord} {write : Bool} {data : List Byte} (hs : Sound s) :
    Lands (execHostMemoryRequest _vf addr write data s) := Sound.ite hs (Sound.ite (Sound.ite hs.devWrite hs) hs)

end Sys2Proof.Machine
end

section
/-!
The watchdog, the rotation and retirement.
-/
namespace Sys2Proof.Machine

variable {s : State} {c core : Nat} {cs : List Nat}

theorem Sound.creditLink {t : State} (ht : Sound t) : Sound (t.creditLink s) := by
  unfold State.creditLink
  split
  · exact ht
  · exact ht.mapIdx_cores fun _ _ => rfl

theorem execWatchdog_lands {slot troupe : Nat} (hs : Sound s) : Lands (execWatchdog core slot troupe s) := by
  unfold execWatchdog
  split
  · exact Lands.ite hs (Sound.blockFault (Sound.modTroupe hs))
  · exact hs

theorem Sound.retireCore {code : Nat} (hs : Sound s) : Sound (s.retireCore c code) := by
  unfold State.retireCore
  extract_lets live s1 s2
  have h1 : Sound s1 := hs.foldl fun _ _ ht => ht.blockFault
  have h2 : Sound s2 := h1.foldl fun _ _ ht => ht.modLaunch.freeChildren
  exact h2.modCore fun _ hk => hk

theorem Sound.retireTogether (hs : Sound s) : Sound (s.retireTogether c) :=
  hs.foldl fun _ _ ht => ht.retireCore.logEvent

@[simp] theorem Core.remap_mem (k : Core) (lanes : List Nat) : (k.remap lanes).mem = k.mem := by
  simp [Core.remap]

theorem Sound.settleRow {row : Nat} (hs : Sound s) : Sound (s.settleRow c row) := by
  unfold State.settleRow
  dsimp only
  split
  · exact hs.modSirip
  · split
    · exact hs
    · split
      · exact Sound.ite (Sound.logEvent (hs.modCore fun _ hk => hk)) hs.retireTogether
      · exact hs.retireTogether

theorem Sound.settleRows (hs : Sound s) : Sound (s.settleRows cs) := hs.modSirip.foldl fun _ _ ht => ht.settleRow

theorem Sound.setService {v : Service} (hs : Sound s) : Sound (s.setService cs v) :=
  hs.foldl fun _ _ ht => ht.modCore fun _ hk => hk

theorem execQuenchRotate_lands (hs : Sound s) : Lands (execQuenchRotate s) := by
  unfold execQuenchRotate
  split
  · exact Sound.ite hs.setService.modSched hs
  · exact hs

theorem execRotgapExpiry_lands (hs : Sound s) : Lands (execRotgapExpiry s) := Sound.ite hs.modSched hs

theorem execQuenchDrainDone_lands (hs : Sound s) : Lands (execQuenchDrainDone core s) := Sound.ite hs.enterScan hs

theorem execQuenchDrainTimeout_lands (hs : Sound s) : Lands (execQuenchDrainTimeout core s) :=
  Sound.ite (hs.setService.modCore fun _ hk => hk) hs

theorem Sound.passScan (hs : Sound s) : Sound (s.passScan cs) :=
  Sound.setService (hs.foldl fun _ _ ht => ht.modSched.modCore fun _ hk => hk)

theorem execScanPass_lands (hs : Sound s) : Lands (execScanPass core s) := Sound.ite hs.settleRows.passScan hs

theorem Sound.markScanFail (hs : Sound s) : Sound (s.markScanFail cs) := hs.modSched

theorem Sound.useFailing (hs : Sound s) : Sound (s.useFailing cs) := hs.foldl fun _ _ ht => ht.modCluster

theorem execScanFail_lands {laneFaults : List Nat} {laneOnly secondPass : Bool} (hs : Sound s) :
    Lands (execScanFail core laneFaults laneOnly secondPass s) := by
  unfold execScanFail
  dsimp only
  split
  · exact hs
  · split
    · exact Sound.passScan (Sound.settleRows (hs.useFailing.markScanFail.modCore fun _ hk => by simpa using hk))
    · exact hs.useFailing.markScanFail.retireTogether

theorem execRestoreComplete_lands (hs : Sound s) : Lands (execRestoreComplete core s) :=
  Sound.ite (Sound.setService (hs.foldl fun _ _ ht => Sound.ite ht.restoreCore ht)) hs

end Sys2Proof.Machine
end

section
/-!
SIGCHK and MODE.
-/
namespace Sys2Proof.Machine

variable {h : Head} {s : State}

theorem execSigchk_lands {f : RForm} (hs : Sound s) : Lands (execSigchk h f s) :=
  hs.runThread fun _ _ ht => by
    dsimp only
    split
    · exact Checks.bind Troupe.checkSource_checks fun _ => ht.passEvent
    · exact Checks.bind State.read1_checks fun _ => ht.popPorts.passEvent

theorem execModeQuery_lands {f : KForm} (hs : Sound s) : Lands (execModeQuery h f s) :=
  hs.runThread fun _ _ ht => ht.mod

theorem execModeReq_lands {f : KForm} (hs : Sound s) : Lands (execModeReq h f s) := by
  refine hs.runThread fun p t ht => ht.passEvent.map fun u hu => Sound.mod ?_
  split
  · exact hu
  · split
    · exact hu
    · exact hu

end Sys2Proof.Machine
end

section
/-!
Sirip's events; a changing pair starts with local memories and cells cleared.
-/
namespace Sys2Proof.Machine

variable {s : State} {core : Nat}

theorem execRegisterImage_lands {addr size : DWord} (hs : Sound s) : Lands (execRegisterImage addr size s) := by
  unfold execRegisterImage
  dsimp only
  split
  · exact hs
  · split
    · exact Sound.ite hs.modSirip hs
    · exact hs

theorem execSiripqWrite_lands {value : DWord} (hs : Sound s) : Lands (execSiripqWrite value s) :=
  Sound.ite hs.modSirip hs.modSirip

theorem Sound.requestOutcome {asker : Asker} {v : BitVec 2} (hs : Sound s) : Sound (s.requestOutcome asker v) := by
  unfold State.requestOutcome
  split
  · exact hs
  · exact hs.modSirip
  · exact Sound.ite hs.modSirip hs

theorem Sound.refuseChanged {w : DWord} (hs : Sound s) : Sound (s.refuseChanged w) := by
  unfold State.refuseChanged
  split
  · split
    · exact Sound.ite hs.popQueue.dropLaunch.completeUnrun.signal hs
    · exact hs
  · exact hs

theorem execSiripRequest_lands (hs : Sound s) : Lands (execSiripRequest s) := by
  unfold execSiripRequest
  split
  · exact hs
  · exact Lands.ite hs (Lands.ite hs.modSirip.refuseChanged.requestOutcome.logEvent hs.modSirip.modChecked)

/-- The cores of a changing pair start empty. -/
theorem Core.pairClear_wf {k : Core} : k.pairClear.mem.wf = true := rfl

@[simp] theorem Core.follow_mem (k l : Core) : (k.follow l).mem = k.mem := rfl

theorem Sound.pairClear {k : Nat} (hs : Sound s) : Sound (s.pairClear k) := by
  unfold State.pairClear
  extract_lets s1 s2
  have h1 : Sound s1 := hs.foldl fun _ _ ht => ht.modCore fun _ _ => Core.pairClear_wf
  have h2 : Sound s2 := h1.foldl fun t c ht => ht.modCore fun k hk => by simpa using hk
  exact h2.foldl fun _ _ ht => ht.modPair fun _ _ => rfl

theorem execPairDrainDone_lands {pair : Nat} (hs : Sound s) : Lands (execPairDrainDone pair s) := by
  unfold execPairDrainDone
  have hp : Sound (s.pairClear pair) := hs.pairClear
  generalize s.pairClear pair = t at hp
  dsimp only
  split
  · exact hs
  · refine Lands.ite hs (Lands.ite ?_ hs.report)
    exact hp.modChecked.requestOutcome

theorem execMatchWindowExpiry_lands {slot troupe : Nat} (hs : Sound s) :
    Lands (execMatchWindowExpiry core slot troupe s) := by
  unfold execMatchWindowExpiry
  split
  · exact hs
  · exact Lands.ite hs.mismatch hs

theorem Sound.retireCluster {c : Nat} (hs : Sound s) : Sound (s.retireCluster c) :=
  Sound.logEvent (Sound.modCluster (hs.foldl fun _ _ ht => ht.retireCore))

theorem execLastingScanComplete_lands {pair : Nat} {leaderFails understudyFails : Bool} (hs : Sound s) :
    Lands (execLastingScanComplete pair leaderFails understudyFails s) := by
  unfold execLastingScanComplete
  extract_lets p s1 s2 failed s3
  have h1 : Sound s1 := hs.retireCluster.ite hs
  have h2 : Sound s2 := h1.retireCluster.ite h1
  have h3 : Sound s3 := h2.assertFaultN.ite h2.logEvent
  exact Lands.ite hs h3.modChecked

theorem execCorrectedError_lands {row : Nat} (hs : Sound s) : Lands (execCorrectedError core row s) :=
  Lands.ite hs.logEvent.modSirip.modSirip.logEvent hs.logEvent.modSirip

theorem execUncorrectableError_lands {site : ErrorSite} (hs : Sound s) : Lands (execUncorrectableError site s) := by
  unfold execUncorrectableError
  split
  · exact Sound.ite hs.logEvent hs.logEvent.elsewhere
  · exact Sound.ite hs.logEvent.mismatch hs.logEvent.blockFault

theorem execChannelFailing_lands {channel : Nat} (hs : Sound s) : Lands (execChannelFailing channel s) :=
  Sound.ite hs.modSirip.logEvent.report hs

theorem execChannelFreeAck_lands (hs : Sound s) : Lands (execChannelFreeAck s) := Sound.ite hs.modSirip hs

theorem Sound.migrate (hs : Sound s) : Sound s.migrate := by
  unfold State.migrate
  split
  · exact Sound.ite hs.modSirip hs
  · exact hs

theorem execChannelMigrationDone_lands (hs : Sound s) : Lands (execChannelMigrationDone s) := by
  unfold execChannelMigrationDone
  split
  · exact Sound.ite hs.modSirip.logEvent hs
  · exact hs

theorem execAgemonSample_lands {cluster monitor : Nat} {value : Word} (hs : Sound s) :
    Lands (execAgemonSample cluster monitor value s) :=
  Sound.ite hs.modCluster.modCluster.elsewhere.logEvent hs.modCluster

theorem execCinjWrite_lands {value : DWord} (hs : Sound s) : Lands (execCinjWrite value s) := hs.modSirip

theorem execInjectArm_lands (hs : Sound s) : Lands (execInjectArm core s) := hs.modCore fun _ hk => hk

theorem execSiripackWrite_lands {value : Word} (hs : Sound s) : Lands (execSiripackWrite value s) := hs.modSirip

theorem execSiripLockstepError_lands (hs : Sound s) : Lands (execSiripLockstepError s) := hs.modSirip.signal

end Sys2Proof.Machine
end

section
/-!
Links, firmware, reset and power.
-/
namespace Sys2Proof.Machine

variable {s : State} {off vf : Nat} {v : DWord}

theorem Sound.tdiError {p : Nat} (hs : Sound s) : Sound (s.tdiError p) :=
  Sound.modPart (Sound.disown (Sound.dropKeys (hs.foldl fun _ _ ht => ht.blockFault)))

theorem execUnstreamedRequest_lands (hs : Sound s) : Lands (execUnstreamedRequest vf s) :=
  Sound.ite hs.tdiError.elsewhere hs

theorem execIdeIntegrityFailure_lands (hs : Sound s) : Lands (execIdeIntegrityFailure vf s) :=
  Sound.ite (Sound.tdiError hs) hs

theorem execIdeKmKeyProg_lands {keys : BitVec 256} (hs : Sound s) : Lands (execIdeKmKeyProg vf keys s) :=
  Sound.ite hs (Sound.ite hs (Sound.ite hs.modPart hs))

theorem execKSetGo_lands (hs : Sound s) : Lands (execKSetGo vf s) :=
  Sound.ite (Sound.ite hs hs) (Sound.ite hs.modPart hs)

theorem execTdiLock_lands (hs : Sound s) : Lands (execTdiLock vf s) := Sound.ite hs.modPart hs

theorem execTdiStart_lands (hs : Sound s) : Lands (execTdiStart vf s) := Sound.ite hs.modPart hs

theorem execStopInterface_lands (hs : Sound s) : Lands (execStopInterface vf s) := Sound.ite hs.disown.modPart hs

theorem Sound.nextLeaf {reply : Nat → SpdmReply} (hs : Sound s) : Sound (s.nextLeaf reply) := Sound.ite hs hs

theorem execSpdmCert_lands (hs : Sound s) : Lands (execSpdmCert s) := hs

theorem execSpdmChal_lands (hs : Sound s) : Lands (execSpdmChal s) := hs.nextLeaf

theorem execSpdmKeyEx_lands (hs : Sound s) : Lands (execSpdmKeyEx s) := Sound.ite hs.nextLeaf hs.nextLeaf.elsewhere

theorem execSpdmMeas_lands {index : Nat} (hs : Sound s) : Lands (execSpdmMeas index s) := hs

theorem Sound.startFirmware {rollback : Bool} (hs : Sound s) : Sound (s.startFirmware rollback) :=
  Sound.ite (Sound.signal hs) hs

theorem execFirmwareImageWrite_lands {verifies : Bool} (hs : Sound s) : Lands (execFirmwareImageWrite verifies s) :=
  Sound.mgmtDone hs

theorem Sound.handOver (hs : Sound s) : Sound s.handOver := hs.devWrites.elsewhere

theorem Sound.takeOver (hs : Sound s) : Sound s.takeOver := hs.mapIdx_cores fun _ _ => rfl

theorem execPendingWrite_lands {value : BitVec 2} (hs : Sound s) : Lands (execPendingWrite value s) :=
  Sound.ite hs (Sound.ite (Sound.handOver hs) hs)

theorem execRollbackClear_lands (hs : Sound s) : Lands (execRollbackClear s) := hs

theorem execMgmtCoreRestart_lands (hs : Sound s) : Lands (execMgmtCoreRestart s) := hs.startFirmware

theorem execHeartbeat_lands (hs : Sound s) : Lands (execHeartbeat s) :=
  Sound.ite hs (Sound.signal (Sound.elsewhere (Sound.ite hs.takeOver hs)))

theorem execHeartbeatTimeout_lands (hs : Sound s) : Lands (execHeartbeatTimeout s) := Sound.ite hs hs.startFirmware

theorem Sound.setLink {f : Link → Link} (hs : Sound s) : Sound (s.setLink f) := Sound.signal hs

theorem execLinkEnable_lands (hs : Sound s) : Lands (execLinkEnable s) := Sound.ite hs hs.setLink

theorem execLinkDisable_lands (hs : Sound s) : Lands (execLinkDisable s) := Sound.ite hs hs.setLink

theorem execLinkUp_lands {width : Nat} (hs : Sound s) : Lands (execLinkUp width s) := Sound.ite hs.setLink hs

theorem execLinkTrainingTimeout_lands (hs : Sound s) : Lands (execLinkTrainingTimeout s) := Sound.ite hs.setLink hs

theorem execLinkRecovery_lands {flits : Nat} (hs : Sound s) : Lands (execLinkRecovery flits s) :=
  Sound.ite hs.setLink hs

theorem execLinkRecoveryComplete_lands (hs : Sound s) : Lands (execLinkRecoveryComplete s) := Sound.ite hs.setLink hs

theorem Sound.failReads {c : Nat} (hs : Sound s) : Sound (s.failReads c) :=
  Sound.foldl (hs.modCore fun _ hk => hk) fun _ _ ht => ht.failAccess

theorem execLinkRecoveryTimeout_lands (hs : Sound s) : Lands (execLinkRecoveryTimeout s) := by
  unfold execLinkRecoveryTimeout
  split
  · exact hs.setLink.foldl fun _ _ ht => Sound.ite ht ht.failReads
  · exact hs

theorem execPeerRequest_lands {addr : DWord} {write : Bool} {data : List Byte} (hs : Sound s) :
    Lands (execPeerRequest addr write data s) := Sound.ite (Sound.ite hs.devWrite hs) hs

/-- Only the memories outside the device survive a reset, and every other one is empty. -/
theorem Sound.afterReset (hs : Sound s) : Sound s.afterReset := by
  refine ⟨rfl, hs.host, hs.peer, fun k hk => ?_, fun q hq => ?_⟩
  · obtain ⟨c, -, rfl⟩ := List.mem_map.mp hk
    rfl
  · obtain ⟨-, rfl⟩ := List.mem_replicate.mp hq
    rfl

theorem execPerst_lands (hs : Sound s) : Lands (execPerst s) := hs.afterReset

theorem execPowerLoss_lands (hs : Sound s) : Lands (execPowerLoss s) := hs.afterReset

theorem execDramClearComplete_lands (hs : Sound s) : Lands (execDramClearComplete s) := by
  refine Sound.ite hs ?_
  exact ⟨rfl, hs.host, hs.peer, hs.cores, hs.pairs⟩

theorem execThermalStepDown_lands (hs : Sound s) : Lands (execThermalStepDown s) := hs.elsewhere

theorem execThermalTrip_lands (hs : Sound s) : Lands (execThermalTrip s) := hs.assertFaultN.elsewhere

theorem Sound.sendPending (hs : Sound s) : Sound s.sendPending := hs

theorem Sound.setBar {f : Nat} (hs : Sound s) : Sound (s.setBar f off v) := Sound.sendPending hs

theorem Sound.siripRefuses (hs : Sound s) : Sound (s.siripRefuses off) := hs.logEvent

theorem Sound.writePf (hs : Sound s) : Sound (s.writePf off v) := Sound.ite hs.setBar (Sound.ite hs.siripRefuses hs)

theorem Sound.writeVf (hs : Sound s) : Sound (s.writeVf vf off v) :=
  Sound.ite (Sound.ite hs.modQueue hs) (Sound.ite hs.setBar hs)

theorem Sound.writeMgmt (hs : Sound s) : Sound (s.writeMgmt off v) :=
  Sound.ite (Sound.ite hs hs.modSirip) (Sound.ite hs.siripRefuses hs.writePf)

theorem execRegisterWrite_lands {function offset : Nat} {value : DWord} (hs : Sound s) :
    Lands (execRegisterWrite function offset value s) :=
  Sound.ite hs.writePf (Sound.ite hs.writeMgmt (Sound.ite hs.writeVf hs))

end Sys2Proof.Machine
end

section
/-!
Uniform, predicate and system majors.
-/
namespace Sys2Proof.Machine

variable {h : Head} {s : State} {f : KForm}

theorem uniform_lands {i : Instr} {op : DWord → DWord → DWord} (hs : Sound s) : Lands (uniform i h f op s) :=
  hs.runThread fun _ _ ht => ht.mod

theorem execKmov_lands (hs : Sound s) : Lands (execKmov h f s) := uniform_lands hs

theorem execKadd_lands (hs : Sound s) : Lands (execKadd h f s) := uniform_lands hs

theorem execKsub_lands (hs : Sound s) : Lands (execKsub h f s) := uniform_lands hs

theorem execKmul_lands (hs : Sound s) : Lands (execKmul h f s) := uniform_lands hs

theorem execKand_lands (hs : Sound s) : Lands (execKand h f s) := uniform_lands hs

theorem execKor_lands (hs : Sound s) : Lands (execKor h f s) := uniform_lands hs

theorem execKxor_lands (hs : Sound s) : Lands (execKxor h f s) := uniform_lands hs

theorem execKshl_lands (hs : Sound s) : Lands (execKshl h f s) := uniform_lands hs

theorem execKshr_lands (hs : Sound s) : Lands (execKshr h f s) := uniform_lands hs

theorem execKsar_lands (hs : Sound s) : Lands (execKsar h f s) := uniform_lands hs

theorem execKmin_lands (hs : Sound s) : Lands (execKmin h f s) := uniform_lands hs

theorem execKmax_lands (hs : Sound s) : Lands (execKmax h f s) := uniform_lands hs

theorem execKcmp_lands (hs : Sound s) : Lands (execKcmp h f s) := hs.runThread fun _ _ ht => ht.mod

theorem execKsel_lands (hs : Sound s) : Lands (execKsel h f s) := hs.runThread fun _ _ ht => ht.mod

theorem execKldi_lands (hs : Sound s) : Lands (execKldi h f s) := hs.runThread fun _ _ ht => ht.mod

theorem execKldi128_lands {f : LForm} (hs : Sound s) : Lands (execKldi128 h f s) := hs.runThread fun _ _ ht => ht.mod

theorem execKred_lands (hs : Sound s) : Lands (execKred h f s) := hs.runThread fun _ _ ht => ht.mod

theorem predBinary_lands {i : Instr} {f : RForm} {op : Bool → Bool → Bool} (hs : Sound s) :
    Lands (predBinary i h f op s) := hs.runThread fun _ _ ht => ht.putPred

theorem execPand_lands {f : RForm} (hs : Sound s) : Lands (execPand h f s) := predBinary_lands hs

theorem execPor_lands {f : RForm} (hs : Sound s) : Lands (execPor h f s) := predBinary_lands hs

theorem execPxor_lands {f : RForm} (hs : Sound s) : Lands (execPxor h f s) := predBinary_lands hs

theorem execPnot_lands {f : RForm} (hs : Sound s) : Lands (execPnot h f s) := hs.runThread fun _ _ ht => ht.putPred

theorem execPset_lands {f : RForm} (hs : Sound s) : Lands (execPset h f s) := hs.runThread fun _ _ ht => ht.putPred

theorem execPbal_lands {f : RForm} (hs : Sound s) : Lands (execPbal h f s) := hs.runThread fun _ _ ht => ht.mod

theorem execPany_lands {f : RForm} (hs : Sound s) : Lands (execPany h f s) := hs.runThread fun _ _ ht => ht.mod

theorem execPall_lands {f : RForm} (hs : Sound s) : Lands (execPall h f s) := hs.runThread fun _ _ ht => ht.mod

theorem execPelect_lands {f : RForm} (hs : Sound s) : Lands (execPelect h f s) :=
  hs.runThread fun _ _ ht => ht.putPred

theorem execPmov_lands {f : RForm} (hs : Sound s) : Lands (execPmov h f s) :=
  hs.runThread fun _ _ ht => by
    split
    · exact ht.putPred
    · exact Checks.bind State.read1_checks fun _ => ht.popPorts.putPred
    · exact ht.finish

theorem execMovx_lands {f : IForm} (hs : Sound s) : Lands (execMovx h f s) :=
  hs.runThread fun _ _ ht => by
    dsimp only
    split
    · exact ht.mod
    · exact ht.finish
    · exact ht.finishGroup

theorem execMovc_lands (hs : Sound s) : Lands (execMovc h f s) :=
  hs.runThread fun _ _ ht => Yields.ite activeFault_yields (Yields.ite activeFault_yields ht.mod)

theorem execIdxset_lands {f : IForm} (hs : Sound s) : Lands (execIdxset h f s) :=
  hs.runThread fun _ _ ht => by
    dsimp only
    split
    · exact Checks.bind State.read1_checks fun _ => ht.popPorts.mod
    · exact ht.mod

theorem execIdxadd_lands {f : IForm} (hs : Sound s) : Lands (execIdxadd h f s) := hs.runThread fun _ _ ht => ht.mod

theorem execReint_lands {f : RForm} (hs : Sound s) : Lands (execReint h f s) :=
  hs.runThread fun _ _ ht => by
    dsimp only
    split
    · exact Checks.bind Troupe.checkSource_checks fun _ => ht.finishGroup
    · exact Checks.bind State.read1_checks fun _ => ht.finish

end Sys2Proof.Machine
end

section
/-!
What the device lays out in its DRAM.
-/
namespace Sys2Proof.Machine

variable {before s : State}

theorem Sound.writeWings {c : Nat} (hs : Sound s) : Sound (s.writeWings c) := hs.devWrites.modCore fun _ hk => hk

theorem Sound.writeSpilled (hs : Sound s) : Sound s.writeSpilled := hs.foldl fun _ _ ht => ht.writeWings

theorem Sound.writeLog {c : Nat} {u : UndoLog} (hs : Sound s) : Sound (s.writeLog before c u) :=
  Sound.ite hs hs.devWrites

theorem Sound.writeLogs (hs : Sound s) : Sound (s.writeLogs before) :=
  hs.foldl fun _ _ ht => ht.foldl fun _ _ ht' => ht'.writeLog

theorem Sound.writeReplay {e : ReplayEntry} (hs : Sound s) : Sound (s.writeReplay e) := hs.devWrites

theorem Sound.writeReplays (hs : Sound s) : Sound (s.writeReplays before) := hs.foldl fun _ _ ht => ht.writeReplay

end Sys2Proof.Machine
end

section
/-!
Every instruction and event.
-/
namespace Sys2Proof.Machine

/-- Every instruction and event lands in a sound state. -/
theorem exec_lands {i : Instr} {s : State} (hs : Sound s) : Lands (exec i s) := by
  cases i with
  | nop => exact execNop_lands hs
  | bra => exact execBra_lands hs
  | bru => exact execBru_lands hs
  | brx => exact execBrx_lands hs
  | call => exact execCall_lands hs
  | callx => exact execCallx_lands hs
  | ret => exact execRet_lands hs
  | exit => exact execExit_lands hs
  | depart => exact execDepart_lands hs
  | sleep => exact execSleep_lands hs
  | trap => exact execTrap_lands hs
  | bkpt => exact execBkpt_lands hs
  | step => exact execStep_lands hs
  | loop => exact execLoop_lands hs
  | iadd => exact execIadd_lands hs
  | isub => exact execIsub_lands hs
  | imul => exact execImul_lands hs
  | imulh => exact execImulh_lands hs
  | imad => exact execImad_lands hs
  | imin => exact execImin_lands hs
  | imax => exact execImax_lands hs
  | iabs => exact execIabs_lands hs
  | and => exact execAnd_lands hs
  | or => exact execOr_lands hs
  | xor => exact execXor_lands hs
  | andn => exact execAndn_lands hs
  | shl => exact execShl_lands hs
  | shr => exact execShr_lands hs
  | sar => exact execSar_lands hs
  | rot => exact execRot_lands hs
  | popc => exact execPopc_lands hs
  | clz => exact execClz_lands hs
  | brev => exact execBrev_lands hs
  | bfx => exact execBfx_lands hs
  | bfi => exact execBfi_lands hs
  | sel => exact execSel_lands hs
  | icmp => exact execIcmp_lands hs
  | iadd64 => exact execIadd64_lands hs
  | isub64 => exact execIsub64_lands hs
  | imulw => exact execImulw_lands hs
  | idiv => exact execIdiv_lands hs
  | irem => exact execIrem_lands hs
  | lea => exact execLea_lands hs
  | shfl => exact execShfl_lands hs
  | mov => exact execMov_lands hs
  | movk => exact execMovk_lands hs
  | iaddi => exact execIaddi_lands hs
  | imuli => exact execImuli_lands hs
  | andi => exact execAndi_lands hs
  | ori => exact execOri_lands hs
  | xori => exact execXori_lands hs
  | shli => exact execShli_lands hs
  | shri => exact execShri_lands hs
  | sari => exact execSari_lands hs
  | icmpi => exact execIcmpi_lands hs
  | movi => exact execMovi_lands hs
  | kmov => exact execKmov_lands hs
  | kadd => exact execKadd_lands hs
  | ksub => exact execKsub_lands hs
  | kmul => exact execKmul_lands hs
  | kand => exact execKand_lands hs
  | kor => exact execKor_lands hs
  | kxor => exact execKxor_lands hs
  | kshl => exact execKshl_lands hs
  | kshr => exact execKshr_lands hs
  | ksar => exact execKsar_lands hs
  | kcmp => exact execKcmp_lands hs
  | ksel => exact execKsel_lands hs
  | kldi => exact execKldi_lands hs
  | kldi128 => exact execKldi128_lands hs
  | kmin => exact execKmin_lands hs
  | kmax => exact execKmax_lands hs
  | kred => exact execKred_lands hs
  | pand => exact execPand_lands hs
  | por => exact execPor_lands hs
  | pxor => exact execPxor_lands hs
  | pnot => exact execPnot_lands hs
  | pset => exact execPset_lands hs
  | pbal => exact execPbal_lands hs
  | pany => exact execPany_lands hs
  | pall => exact execPall_lands hs
  | pelect => exact execPelect_lands hs
  | pmov => exact execPmov_lands hs
  | movx => exact execMovx_lands hs
  | movc => exact execMovc_lands hs
  | idxset => exact execIdxset_lands hs
  | idxadd => exact execIdxadd_lands hs
  | reint => exact execReint_lands hs
  | fadd => exact execFadd_lands hs
  | fsub => exact execFsub_lands hs
  | fmul => exact execFmul_lands hs
  | ffma => exact execFfma_lands hs
  | fmin => exact execFmin_lands hs
  | fmax => exact execFmax_lands hs
  | fcmp => exact execFcmp_lands hs
  | fclass => exact execFclass_lands hs
  | frcp => exact execFrcp_lands hs
  | fsqrt => exact execFsqrt_lands hs
  | frsq => exact execFrsq_lands hs
  | fexp2 => exact execFexp2_lands hs
  | flog2 => exact execFlog2_lands hs
  | fsinp => exact execFsinp_lands hs
  | fcosp => exact execFcosp_lands hs
  | ftanh => exact execFtanh_lands hs
  | fdiv => exact execFdiv_lands hs
  | frnd => exact execFrnd_lands hs
  | fscale => exact execFscale_lands hs
  | fcpys => exact execFcpys_lands hs
  | dwadd => exact execDwadd_lands hs
  | dwadds => exact execDwadds_lands hs
  | dwmul => exact execDwmul_lands hs
  | dwmuls => exact execDwmuls_lands hs
  | dwnorm => exact execDwnorm_lands hs
  | vrsum => exact execVrsum_lands hs
  | vrsumc => exact execVrsumc_lands hs
  | vrmax => exact execVrmax_lands hs
  | vrmin => exact execVrmin_lands hs
  | vrdotc => exact execVrdotc_lands hs
  | cvt => exact execCvt_lands hs
  | cvtbx => exact execCvtbx_lands hs
  | cvtxb => exact execCvtxb_lands hs
  | pack2 => exact execPack2_lands hs
  | unpk2 => exact execUnpk2_lands hs
  | cvti => exact execCvti_lands hs
  | ld => exact execLd_lands hs
  | st => exact execSt_lands hs
  | ldl => exact execLdl_lands hs
  | stl => exact execStl_lands hs
  | ldk => exact execLdk_lands hs
  | atom => exact execAtom_lands hs
  | red => exact execRed_lands hs
  | atoml => exact execAtoml_lands hs
  | pref => exact execPref_lands hs
  | fence => exact execFence_lands hs
  | cclean => exact execCclean_lands hs
  | scfg => exact execScfg_lands hs
  | sdrain => exact execSdrain_lands hs
  | sclose => exact execSclose_lands hs
  | spos => exact execSpos_lands hs
  | seos => exact execSeos_lands hs
  | sseek => exact execSseek_lands hs
  | binit => exact execBinit_lands hs
  | expect => exact execExpect_lands hs
  | arrive => exact execArrive_lands hs
  | await => exact execAwait_lands hs
  | rinit => exact execRinit_lands hs
  | awaitf => exact execAwaitf_lands hs
  | relslot => exact execRelslot_lands hs
  | cstep => exact execCstep_lands hs
  | csched => exact execCsched_lands hs
  | rcfence => exact execRcfence_lands hs
  | rcfenceAll => exact execRcfenceAll_lands hs
  | cstat => exact execCstat_lands hs
  | rcseal => exact execRcseal_lands hs
  | mma => exact execMma_lands hs
  | mmas => exact execMmas_lands hs
  | mzero => exact execMzero_lands hs
  | accld => exact execAccld_lands hs
  | accst => exact execAccst_lands hs
  | accrd => exact execAccrd_lands hs
  | accwr => exact execAccwr_lands hs
  | mlive => exact execMlive_lands hs
  | mpert => exact execMpert_lands hs
  | mstat => exact execMstat_lands hs
  | fetchw => exact execFetchw_lands hs
  | spawn => exact execSpawn_lands hs
  | enq => exact execEnq_lands hs
  | jobstQuery => exact execJobstQuery_lands hs
  | jobstCancel => exact execJobstCancel_lands hs
  | sigchk => exact execSigchk_lands hs
  | modeQuery => exact execModeQuery_lands hs
  | modeReq => exact execModeReq_lands hs
  | loadDataReturn => exact execLoadDataReturn_lands hs
  | tlbFillComplete => exact execTlbFillComplete_lands hs
  | wakeTime => exact execWakeTime_lands hs
  | streamFetchComplete => exact execStreamFetchComplete_lands hs
  | readBack => exact execReadBack_lands hs
  | relaunch => exact execRelaunch_lands hs
  | pushTranslationRestored => exact execPushTranslationRestored_lands hs
  | faultRecordConsumed => exact execFaultRecordConsumed_lands hs
  | faultAnswerResume => exact execFaultAnswerResume_lands hs
  | faultAnswerSkip => exact execFaultAnswerSkip_lands hs
  | faultAnswerSave => exact execFaultAnswerSave_lands hs
  | faultAnswerKill => exact execFaultAnswerKill_lands hs
  | faultAnswerStepback => exact execFaultAnswerStepback_lands hs
  | blockDone => exact execBlockDone_lands hs
  | preemptRequest => exact execPreemptRequest_lands hs
  | preemptAck => exact execPreemptAck_lands hs
  | premaxExpiry => exact execPremaxExpiry_lands hs
  | saveRoomAvailable => exact execSaveRoomAvailable_lands hs
  | contextRestore => exact execContextRestore_lands hs
  | scriptReadComplete => exact execScriptReadComplete_lands hs
  | copyStart => exact execCopyStart_lands hs
  | recordObtained => exact execRecordObtained_lands hs
  | copyComplete => exact execCopyComplete_lands hs
  | matrixStart => exact execMatrixStart_lands hs
  | matrixLastRead => exact execMatrixLastRead_lands hs
  | matrixRetire => exact execMatrixRetire_lands hs
  | dmwrSubmit => exact execDmwrSubmit_lands hs
  | windowPostedWrite vf queue => exact execWindowPostedWrite_lands (_vf := vf) (_queue := queue) hs
  | queueHeadPass => exact execQueueHeadPass_lands hs
  | cancelRegisterWrite => exact execCancelRegisterWrite_lands hs
  | cancel => exact execCancel_lands hs
  | bind => exact execBind_lands hs
  | drain => exact execDrain_lands hs
  | reprioritise => exact execReprioritise_lands hs
  | coreRowBind => exact execCoreRowBind_lands hs
  | drainPositionWrite => exact execDrainPositionWrite_lands hs
  | consistentCut => exact execConsistentCut_lands hs
  | cutComplete => exact execCutComplete_lands hs
  | workRequest => exact execWorkRequest_lands hs
  | blockPlace => exact execBlockPlace_lands hs
  | fetchwService => exact execFetchwService_lands hs
  | finalUpdate => exact execFinalUpdate_lands hs
  | secondUpdate => exact execSecondUpdate_lands hs
  | watchdog => exact execWatchdog_lands hs
  | quenchRotate => exact execQuenchRotate_lands hs
  | rotgapExpiry => exact execRotgapExpiry_lands hs
  | quenchDrainDone => exact execQuenchDrainDone_lands hs
  | quenchDrainTimeout => exact execQuenchDrainTimeout_lands hs
  | scanPass => exact execScanPass_lands hs
  | scanFail => exact execScanFail_lands hs
  | restoreComplete => exact execRestoreComplete_lands hs
  | siripqWrite => exact execSiripqWrite_lands hs
  | siripRequest => exact execSiripRequest_lands hs
  | pairDrainDone => exact execPairDrainDone_lands hs
  | matchWindowExpiry => exact execMatchWindowExpiry_lands hs
  | blockRetryPlace => exact execBlockRetryPlace_lands hs
  | lastingScanComplete => exact execLastingScanComplete_lands hs
  | correctedError => exact execCorrectedError_lands hs
  | uncorrectableError => exact execUncorrectableError_lands hs
  | channelFailing => exact execChannelFailing_lands hs
  | channelFreeAck => exact execChannelFreeAck_lands hs
  | channelMigrationDone => exact execChannelMigrationDone_lands hs
  | agemonSample => exact execAgemonSample_lands hs
  | cinjWrite => exact execCinjWrite_lands hs
  | injectArm => exact execInjectArm_lands hs
  | siripackWrite => exact execSiripackWrite_lands hs
  | siripLockstepError => exact execSiripLockstepError_lands hs
  | timeSlotWrite => exact execTimeSlotWrite_lands hs
  | frameBoundary => exact execFrameBoundary_lands hs
  | partitionRegWrite => exact execPartitionRegWrite_lands hs
  | merge => exact execMerge_lands hs
  | split => exact execSplit_lands hs
  | keyset => exact execKeyset_lands hs
  | atsInvalidation => exact execAtsInvalidation_lands hs
  | prgResponseSuccess => exact execPrgResponseSuccess_lands hs
  | prgResponseInvalid => exact execPrgResponseInvalid_lands hs
  | prgResponseFailure => exact execPrgResponseFailure_lands hs
  | priReenable => exact execPriReenable_lands hs
  | atomicopCompletion => exact execAtomicopCompletion_lands hs
  | receivedAtomicop vf => exact execReceivedAtomicop_lands (_vf := vf) hs
  | hostMemoryRequest vf => exact execHostMemoryRequest_lands (_vf := vf) hs
  | unstreamedRequest => exact execUnstreamedRequest_lands hs
  | ideIntegrityFailure => exact execIdeIntegrityFailure_lands hs
  | kSetGo => exact execKSetGo_lands hs
  | tdiLock => exact execTdiLock_lands hs
  | tdiStart => exact execTdiStart_lands hs
  | stopInterface => exact execStopInterface_lands hs
  | spdmCert => exact execSpdmCert_lands hs
  | spdmChal => exact execSpdmChal_lands hs
  | spdmMeas => exact execSpdmMeas_lands hs
  | spdmKeyEx => exact execSpdmKeyEx_lands hs
  | firmwareImageWrite => exact execFirmwareImageWrite_lands hs
  | pendingWrite => exact execPendingWrite_lands hs
  | rollbackClear => exact execRollbackClear_lands hs
  | mgmtCoreRestart => exact execMgmtCoreRestart_lands hs
  | heartbeat => exact execHeartbeat_lands hs
  | heartbeatTimeout => exact execHeartbeatTimeout_lands hs
  | linkEnable => exact execLinkEnable_lands hs
  | linkDisable => exact execLinkDisable_lands hs
  | linkUp => exact execLinkUp_lands hs
  | linkTrainingTimeout => exact execLinkTrainingTimeout_lands hs
  | linkRecovery => exact execLinkRecovery_lands hs
  | linkRecoveryTimeout => exact execLinkRecoveryTimeout_lands hs
  | peerRequest => exact execPeerRequest_lands hs
  | perst => exact execPerst_lands hs
  | powerLoss => exact execPowerLoss_lands hs
  | dramClearComplete => exact execDramClearComplete_lands hs
  | thermalStepDown => exact execThermalStepDown_lands hs
  | thermalTrip => exact execThermalTrip_lands hs
  | registerWrite => exact execRegisterWrite_lands hs
  | registerImage => exact execRegisterImage_lands hs
  | ideKmKeyProg => exact execIdeKmKeyProg_lands hs
  | linkRecoveryComplete => exact execLinkRecoveryComplete_lands hs
  | prompterKill => exact execPrompterKill_lands hs

end Sys2Proof.Machine
end

section
/-!
A turn of the device, and the comparison with the understudies.
-/
namespace Sys2Proof.Machine

variable {s t : State}

/-- An instruction that cannot be decoded stops its path. -/
theorem runPath_lands {q : Issue} (hs : Sound s) : Lands (runPath q s) := by
  unfold runPath
  dsimp only
  split
  · exact exec_lands hs.cacheCode.elsewhere
  · exact hs.cacheCode.decodeStop

theorem eventStep_lands {i : Instr} (hs : Sound s) : Lands (eventStep i s) := by
  unfold eventStep
  split
  · exact hs
  · exact Lands.ite hs (exec_lands hs.elsewhere)

theorem issueStep_lands {q : Issue} (hs : Sound s) : Lands (issueStep q s) := runPath_lands hs.noteChoice.elsewhere

theorem act_lands (hs : Sound s) : Lands (act s) := by
  unfold act
  split
  · exact eventStep_lands hs
  · split
    · exact issueStep_lands hs
    · exact hs
  · split
    · exact runPath_lands hs
    · exact hs
  · split
    · exact issueStep_lands hs
    · exact hs

theorem Sound.retryPushes (hs : Sound s) : Sound s.retryPushes :=
  hs.foldl fun _ _ ht => ht.foldl fun _ _ ht' => ht'.retryHeld

theorem Sound.settled (ht : Sound t) : Sound (t.settled s) :=
  ht.retryPushes.writeSpilled.writeLogs.writeReplays.completeInvals.migrate

theorem Sound.ticked (ht : Sound t) : Sound (t.ticked s) := Sound.creditLink ht

theorem Sound.adopt {m : State} (ht : Sound t) : Sound (t.adopt m s) :=
  Sound.foldl ht fun _ _ ht' => Sound.ite ht'.modChecked ht'

theorem Sound.strike {x : Struck} (hs : Sound s) : Sound (s.strike x) := hs.mismatch

/-- The state that a step lands in is sound. -/
theorem Lands.sound {x : Host.Outcome State Fault Refusal} (hx : Lands x) (e : x = .next t) : Sound t := by
  subst e; exact hx

theorem turn_lands (hs : Sound s) : Lands (turn s) := by
  unfold turn
  split
  · next e => exact ((act_lands hs.noteHeld).sound e).settled.ticked
  · trivial
  · trivial

/-- The verdict charges mismatches to the leaders' state, and takes the understudies' only into the pairs' twins. -/
theorem Sound.judged {m : State} (ht : Sound t) : Sound (s.judged m t) := by
  unfold State.judged
  split
  · exact ht.adopt
  · exact ht.strike.adopt
  · exact ht.strike.adopt
  · exact Sound.adopt (ht.foldl fun _ _ hu => hu.strike)

/-- Only the leaders' turn counts: it starts from the state itself, but for what the comparator expects. -/
theorem compared_lands (hs : Sound s) : Lands (compared s) := by
  unfold compared
  split
  · split
    · next e => exact Sound.judged ((turn_lands hs.elsewhere).sound e)
    · trivial
    · trivial
  · trivial
  · trivial

end Sys2Proof.Machine
end

section
/-!
A step, and the obligation.
-/
namespace Sys2Proof.Machine

theorem step_lands {s : State} (hs : Sound s) : Lands (step s) := Lands.ite (turn_lands hs) (compared_lands hs)

/-- Settles O57: every instruction and event leaves the memories and cell stores in canonical form, and so does what a
turn brings after it. -/
theorem soundKept : Obligations.SoundKept := by
  unfold Obligations.SoundKept
  intro s t hs e
  exact (sound_iff t).mpr ((step_lands ((sound_iff s).mp hs)).sound e)

end Sys2Proof.Machine
end

section
/-!
The reset state, part by part, for O52: each core, core pair and partition of it is the reset one of its number.
-/
namespace Sys2Proof.Machine

theorem core_reset {c : Nat} (hc : c < 128) : State.reset.core c = Core.resetAt c := by
  simp [State.core, State.reset, hc]

theorem pair_reset {n : Nat} (hn : n < 64) : State.reset.pair n = Pair.reset := List.getD_replicate Pair.reset hn

theorem part_reset {p : Nat} (hp : p < 8) : State.reset.part p = Partition.reset p := by
  simp [State.part, State.reset, hp]

/-- A core without troupes has no path to issue. -/
theorem State.pick_of_no_troupes {s : State} {c : Nat} (h : (s.core c).troupes = []) : s.pick c = none := by
  have he : s.eligible c = [] := by simp [State.eligible, h]
  rw [State.pick, he]

theorem issuing_reset : State.reset.issuing = none := by
  rw [State.issuing, List.findSome?_eq_none_iff]
  intro c hc
  have hc' : c < 128 := List.mem_range.mp hc
  exact State.pick_of_no_troupes (by rw [core_reset hc']; rfl)

/-- Every memory and every accumulator store is empty at reset. -/
theorem sound_reset : Sound State.reset := by
  refine ⟨rfl, rfl, rfl, fun k hk => ?_, fun q hq => ?_⟩
  · obtain ⟨c, -, rfl⟩ := List.mem_map.mp hk
    rfl
  · obtain ⟨-, rfl⟩ := List.mem_replicate.mp hq
    rfl

/-- No partition but 0 is enabled at reset, and none but 0 has a colour. -/
theorem Partition.reset_pos {p : Nat} (hp : 1 ≤ p) : (Partition.reset p).en = false ∧ (Partition.reset p).colour = 0 := by
  rw [Partition.reset, if_neg (by omega)]
  exact ⟨rfl, rfl⟩

/-- Settles O52, from the reset state of each core, core pair and partition. -/
theorem resetValues : Obligations.ResetValues := by
  unfold Obligations.ResetValues
  have h0 : State.reset.part 0 = Partition.reset 0 := part_reset (by decide)
  refine ⟨rfl, rfl, rfl, issuing_reset, fun _ => rfl, rfl, rfl, fun c hc => ?_, fun n hn => ?_, ?_, ?_, ?_, ?_,
    fun p h1 h8 => ?_, rfl, rfl, (sound_iff _).mpr sound_reset⟩
  · rw [core_reset hc]
    exact ⟨rfl, rfl, rfl, rfl⟩
  · rw [pair_reset hn]
    exact ⟨rfl, fun _ => rfl⟩
  · rw [h0]; rfl
  · rw [h0]; rfl
  · rw [h0]; rfl
  · rw [h0]; rfl
  · rw [part_reset h8]
    exact Partition.reset_pos h1

end Sys2Proof.Machine
end

section
/-!
The time-slot table and the partition registers, for O49: what a frame boundary makes of the accepted writes, and when
a write is accepted.
-/
namespace Sys2Proof.Machine
open Sys2Proof.Claims

variable {s : State} {a p q : Nat} {f : Partition → Partition}

/-! ### Partitions read back -/

theorem State.part_modPart (h : p < s.parts.length) : (s.modPart p f).part p = f (s.part p) := by
  simp [State.part, State.modPart, List.getD_eq_getElem?_getD, h]

theorem State.part_modPart_ne (h : q ≠ p) : (s.modPart p f).part q = s.part q := by
  simp [State.part, State.modPart, List.getD_eq_getElem?_getD, List.getElem?_set_ne (Ne.symm h)]

@[simp] theorem State.modPart_parts_length : (s.modPart p f).parts.length = s.parts.length := List.length_set

/-- A partition depends on the list of partitions alone. -/
theorem State.part_congr {t : State} (h : t.parts = s.parts) (p : Nat) : t.part p = s.part p := by
  rw [State.part, State.part, h]

theorem Partition.frozen_iff {x : Partition} : x.frozen = true ↔ x.tdi = .locked ∨ x.tdi = .run := by
  simp [Partition.frozen]

theorem Partition.frozen_eq_false {x : Partition} (h : x.tdi = .unlocked ∨ x.tdi = .error) : x.frozen = false := by
  obtain h | h := h
  · rw [Partition.frozen, h]; rfl
  · rw [Partition.frozen, h]; rfl

/-! ### The time-slot table (R22) -/

/-- TIME_SLOT_WRITE checks just the owners of a slot that changes hands. -/
theorem ownersQuiet_iff {i : Nat} {v : Byte} : ownersQuiet s i v ↔
    (if slotOwner (s.slotNext i) = slotOwner (v &&& 0x0F) then []
      else (slotOwner (s.slotNext i)).toList ++ (slotOwner (v &&& 0x0F)).toList).all s.quiet = true := by
  unfold ownersQuiet
  split
  · next h => simp [h]
  · next h =>
    rw [or_iff_right h]
    simp [or_imp, forall_and]

theorem exec_timeSlotWrite_accepted {i : Nat} {v : Byte} (hi : i < 64) (h : ownersQuiet s i v) :
    exec (.timeSlotWrite i v) s = .next { s with slotPending := s.slotPending ++ [(i, v &&& 0x0F)] } := by
  rw [exec_timeSlotWrite, execTimeSlotWrite, if_pos]
  simpa only [hi, decide_true, Bool.true_and] using ownersQuiet_iff.mp h

theorem exec_timeSlotWrite_reported {i : Nat} {v : Byte} (h : ¬ownersQuiet s i v) :
    exec (.timeSlotWrite i v) s = .next s.report := by
  rw [exec_timeSlotWrite, execTimeSlotWrite, if_neg]
  intro hc
  exact h (ownersQuiet_iff.mpr (Bool.and_eq_true_iff.mp hc).2)

/-- An entry after some writes of the table: the last write of it stands. -/
theorem getD_foldl_set (ws : List (Nat × Byte)) (t : List Byte) (i : Nat) (hi : i < t.length) :
    (ws.foldl (fun t x => t.set x.1 x.2) t).getD i 0 = ws.foldl (fun b x => if x.1 == i then x.2 else b) (t.getD i 0) := by
  induction ws generalizing t with
  | nil => rfl
  | cons w ws ih =>
    have hw : (t.set w.1 w.2).getD i 0 = if w.1 == i then w.2 else t.getD i 0 := by
      rw [List.getD_eq_getElem?_getD, List.getD_eq_getElem?_getD, List.getElem?_set]
      by_cases h : w.1 = i
      · simp [h, hi]
      · simp [h]
    rw [List.foldl_cons, List.foldl_cons, ih _ (by rwa [List.length_set]), hw]

theorem exec_frameBoundary_none (h : s.reopening = []) : exec .frameBoundary s = .next s.applySlots := by
  have hr : s.applySlots.reopening = [] := h
  rw [exec_frameBoundary, execFrameBoundary]
  dsimp only
  rw [hr]
  rfl

/-- A partition whose front end is open again. -/
def Partition.reopened (q : Partition) : Partition := { q with quiesced := false }

/-- What a frame boundary makes of a front end that waits to be reopened. -/
theorem exec_frameBoundary_one (h : s.reopening = [a]) : exec .frameBoundary s =
    .next ({ (s.applySlots.modPart a Partition.reopened) with reopening := [] }.mgmtDone .done) := by
  have hr : s.applySlots.reopening = [a] := h
  rw [exec_frameBoundary, execFrameBoundary]
  dsimp only
  rw [hr]
  rfl

@[simp] theorem State.mgmtDone_parts (v : MgmtStatus) : (s.mgmtDone v).parts = s.parts := State.signal_parts _ _ _
@[simp] theorem State.mgmtDone_mgmt (v : MgmtStatus) : (s.mgmtDone v).mgmt = v := State.signal_mgmt _ _ _
@[simp] theorem State.mgmtDone_reopening (v : MgmtStatus) : (s.mgmtDone v).reopening = s.reopening :=
  State.signal_reopening _ _ _

theorem frameBoundary_slots (h : s.reopening = []) : ∃ t, exec .frameBoundary s = .next t ∧
    t = { s with slotPending := [], slotTab := t.slotTab } ∧
    (s.slotTab.length = 64 → ∀ i, i < 64 → t.slotTab.getD i 0 = s.slotNext i) :=
  ⟨s.applySlots, exec_frameBoundary_none h, rfl, fun hl i hi => getD_foldl_set _ _ i (by omega)⟩

theorem frameBoundary_reopens (h : s.reopening = [a]) (ha : a < s.parts.length) :
    ∃ t, exec .frameBoundary s = .next t ∧ t.reopening = [] ∧ t.mgmt = .done ∧ (t.part a).quiesced = false ∧
      ∀ p, p ≠ a → t.part p = s.part p := by
  have hparts : ({ (s.applySlots.modPart a Partition.reopened) with reopening := [] }.mgmtDone .done).parts =
      (s.applySlots.modPart a Partition.reopened).parts := State.mgmtDone_parts _
  refine ⟨_, exec_frameBoundary_one h, State.mgmtDone_reopening _, State.mgmtDone_mgmt _, ?_, fun p hp => ?_⟩
  · rw [State.part_congr hparts, State.part_modPart (s := s.applySlots) ha]
    rfl
  · rw [State.part_congr hparts, State.part_modPart_ne hp]
    rfl

/-! ### Partition registers (R419, R425) -/

theorem exec_partitionRegWrite_accepted {off : Nat} {v : DWord} {q : Partition} (hw : (s.part p).write off v = some q)
    (hp : p < 8) (hc : (s.part p).en = false ∨ (s.part p).quiesced = true)
    (ht : (s.part p).tdi = .unlocked ∨ (s.part p).tdi = .error) (hs : partsSound (s.parts.set p q) = true) :
    exec (.partitionRegWrite p off v) s = .next (withPart s p fun _ => q) := by
  have hopen : ((s.part p).en && !(s.part p).quiesced) = false := by
    obtain h | h := hc
    · simp [h]
    · simp [h]
  simp only [exec_partitionRegWrite, execPartitionRegWrite, hw]
  rw [if_pos (by simp [hp, hopen, Partition.frozen_eq_false ht, hs])]
  rfl

theorem exec_partitionRegWrite_reported {off : Nat} {v : DWord} {q : Partition} (hw : (s.part p).write off v = some q)
    (h : (s.part p).en = true ∧ (s.part p).quiesced = false ∨ (s.part p).tdi = .locked ∨ (s.part p).tdi = .run ∨
      partsSound (s.parts.set p q) = false) : exec (.partitionRegWrite p off v) s = .next s.report := by
  have hbad : (s.part p).en = true ∧ (s.part p).quiesced = false ∨ (s.part p).frozen = true ∨
      partsSound (s.parts.set p q) = false := by rwa [Partition.frozen_iff, or_assoc]
  simp only [exec_partitionRegWrite, execPartitionRegWrite, hw]
  rw [if_neg]
  obtain ⟨he, hq⟩ | hf | hs := hbad
  · simp [he, hq]
  · simp [hf]
  · simp [hs]

end Sys2Proof.Machine
end

section
/-!
MERGE and SPLIT, for O49: both take the slots, owners, translations and front end of what changes hands away from its
partition, and then redraw two partitions.
-/
namespace Sys2Proof.Machine
open Sys2Proof.Claims

variable {s : State} {a b owner p : Nat} {cs is ps r : List Nat} {f : Partition → Partition} {x : Partition}

/-! ### What a sequence of changes keeps -/

theorem foldl_keeps {σ α β : Type} {l : List α} {g : σ → β} {f : σ → α → σ} (hf : ∀ t a, g (f t a) = g t) (s : σ) :
    g (l.foldl f s) = g s :=
  List.foldlRecOn (motive := fun t => g t = g s) l f rfl fun t h a _ => (hf t a).trans h

@[simp] theorem State.disown_parts : (s.disown cs).parts = s.parts := foldl_keeps (g := State.parts) (by intros; rfl) s
@[simp] theorem State.disown_dram : (s.disown cs).dram = s.dram := foldl_keeps (g := State.dram) (by intros; rfl) s

/-- Clearing a partition's front end changes the scheduler and the key slots alone. -/
theorem State.clearPartition_keeps {β : Type} {g : State → β} (hg : ∀ t f, g (State.modSched t f) = g t) :
    g (s.clearPartition p) = g (s.clearKeys p) := by
  rw [State.clearPartition, hg]
  exact foldl_keeps (fun t _ => hg t _) _

@[simp] theorem State.clearPartition_parts : (s.clearPartition p).parts = s.parts :=
  State.clearPartition_keeps State.modSched_parts
@[simp] theorem State.clearPartition_dram : (s.clearPartition p).dram = s.dram :=
  State.clearPartition_keeps State.modSched_dram
@[simp] theorem State.clearPartition_dtc : (s.clearPartition p).dtc = s.dtc :=
  State.clearPartition_keeps State.modSched_dtc

/-- A cleared partition has no job. -/
theorem State.clearPartition_jobs {j : JobEntry} (h : j ∈ (s.clearPartition p).sched.jobs) : j.part ≠ p := by
  have := (List.mem_filter.mp h).2
  simpa using this

/-- No translation of the partitions is left in the device translation cache. -/
theorem State.shootPartitions_dtc {e : TlbEntry} (h : e ∈ (s.shootPartitions ps).dtc) : e.part ∉ ps := by
  have := (List.mem_filter.mp h).2
  simpa using this

/-! ### What changes hands -/

/-- The device once the cores `cs` have no owner, the slots `is` go to `owner`, the translations of `ps` are gone and the
front end of `p` is cleared (steps 3, 4 and 6 of R421). -/
def State.vacated (s : State) (cs is : List Nat) (owner : Nat) (ps : List Nat) (p : Nat) : State :=
  (((s.disown cs).giveSlots is owner).shootPartitions ps).clearPartition p

@[simp] theorem State.vacated_parts : (s.vacated cs is owner ps p).parts = s.parts :=
  State.clearPartition_parts.trans State.disown_parts
@[simp] theorem State.vacated_dram : (s.vacated cs is owner ps p).dram = s.dram :=
  State.clearPartition_dram.trans State.disown_dram

theorem State.vacated_dtc {e : TlbEntry} (h : e ∈ (s.vacated cs is owner ps p).dtc) : e.part ∉ ps :=
  State.shootPartitions_dtc (State.clearPartition_dtc ▸ h)

theorem State.vacated_jobs {j : JobEntry} (h : j ∈ (s.vacated cs is owner ps p).sched.jobs) : j.part ≠ p :=
  State.clearPartition_jobs h

/-- Two partitions with new registers, and the front ends that wait for the frame boundary (steps 5 and 7 of R421). -/
def State.redrawn (s : State) (a : Nat) (x : Partition) (b : Nat) (f : Partition → Partition) (r : List Nat) : State :=
  { ((s.modPart a fun _ => x).modPart b f) with reopening := r }

@[simp] theorem State.redrawn_dtc : (s.redrawn a x b f r).dtc = s.dtc := rfl
@[simp] theorem State.redrawn_sched : (s.redrawn a x b f r).sched = s.sched := rfl
@[simp] theorem State.redrawn_dram : (s.redrawn a x b f r).dram = s.dram := rfl
@[simp] theorem State.redrawn_reopening : (s.redrawn a x b f r).reopening = r := rfl

theorem State.redrawn_fst (hab : a ≠ b) (ha : a < s.parts.length) : (s.redrawn a x b f r).part a = x :=
  (State.part_modPart_ne hab).trans (State.part_modPart ha)

theorem State.redrawn_snd (hab : a ≠ b) (hb : b < s.parts.length) : (s.redrawn a x b f r).part b = f (s.part b) :=
  (State.part_modPart (by simpa using hb)).trans (congrArg f (State.part_modPart_ne hab.symm))

theorem State.redrawn_other (ha : p ≠ a) (hb : p ≠ b) : (s.redrawn a x b f r).part p = s.part p :=
  (State.part_modPart_ne hb).trans (State.part_modPart_ne ha)

theorem State.mergeable_iff : s.mergeable p = true ↔ ready s p := by
  simp [State.mergeable, ready, and_assoc]

/-! ### MERGE -/

theorem exec_merge_accepted (hab : a < b) (hb : b < 8) (hadj : (s.part a).cllimit.toNat + 1 = (s.part b).clbase.toNat)
    (hbank : bankCount (colourCount ((s.part a).colour ||| (s.part b).colour)) = true) (ha : ready s a) (hr : ready s b) :
    ∃ cs is r, exec (.merge a b) s = .next
      ((s.vacated cs is a [a, b] b).redrawn a ((s.part a).join (s.part b)) b Partition.merged (r ++ [a])) := by
  rw [exec_merge, execMerge]
  refine ⟨s.coresOf a ++ s.coresOf b, (s.disown (s.coresOf a ++ s.coresOf b)).slotsOf b, _, if_pos ?_⟩
  simp [hab, hb, State.mergeable_iff.mpr ha, State.mergeable_iff.mpr hr, hadj, Partition.join, hbank]

theorem exec_merge_refused (h : ¬(ready s a ∧ ready s b)) : exec (.merge a b) s = .next (answered s .refused) := by
  rw [exec_merge, execMerge]
  refine if_neg fun hc => h ?_
  simp only [Bool.and_eq_true, State.mergeable_iff] at hc
  obtain ⟨⟨⟨⟨-, ha⟩, hb⟩, -⟩, -⟩ := hc
  exact ⟨ha, hb⟩

theorem exec_merge_ready (hab : a < b) (hb : b < 8) (hlen : s.parts.length = 8)
    (hadj : (s.part a).cllimit.toNat + 1 = (s.part b).clbase.toNat)
    (hbank : bankCount (colourCount ((s.part a).colour ||| (s.part b).colour)) = true) (ha : ready s a) (hr : ready s b) :
    ∃ t, exec (.merge a b) s = .next t ∧ t.part a = (s.part a).join (s.part b) ∧ t.part b = (s.part b).merged ∧
      (∀ p, p ≠ a → p ≠ b → t.part p = s.part p) ∧ (∀ e ∈ t.dtc, e.part ≠ a ∧ e.part ≠ b) ∧
      (∀ j ∈ t.sched.jobs, j.part ≠ b) ∧ t.dram = s.dram ∧ a ∈ t.reopening := by
  obtain ⟨cs, is, r, h⟩ := exec_merge_accepted hab hb hadj hbank ha hr
  have hparts : (s.vacated cs is a [a, b] b).parts = s.parts := State.vacated_parts
  refine ⟨_, h, State.redrawn_fst (by omega) (by rw [hparts]; omega), ?_, fun p hpa hpb => ?_, ?_, ?_, ?_, ?_⟩
  · rw [State.redrawn_snd (by omega) (by rw [hparts]; omega), State.part_congr hparts]
  · rw [State.redrawn_other hpa hpb, State.part_congr hparts]
  · intro e he
    have := State.vacated_dtc (State.redrawn_dtc ▸ he)
    simpa using this
  · intro j hj
    exact State.vacated_jobs (State.redrawn_sched ▸ hj)
  · rw [State.redrawn_dram, State.vacated_dram]
  · rw [State.redrawn_reopening]
    exact List.mem_append_right _ (List.mem_singleton_self a)

/-! ### SPLIT -/

theorem exec_split_accepted {first : Nat} {colour slots : DWord} (ha : a < 8) (hb : b < 8) (hab : a ≠ b)
    (hlo : (s.part a).clbase.toNat < first) (hhi : first ≤ (s.part a).cllimit.toNat)
    (hcol : colour &&& ~~~(s.part a).colour = 0) (hbank : bankCount (colourCount colour) = true)
    (hrest : bankCount (colourCount ((s.part a).colour &&& ~~~colour)) = true)
    (hslots : ∀ i, i < 64 → slots.getLsbD i = true → i ∈ s.slotsOf a) (hr : ready s a) (he : (s.part b).en = false) :
    ∃ cs is r, exec (.split a b first colour slots) s = .next ((s.vacated cs is b [a] b).redrawn a
      ((s.part a).lower first colour) b (fun _ => (s.part b).upper (s.part a) first colour) (r ++ [a, b])) := by
  have hgiven : (((List.range 64).filter fun i => slots.getLsbD i).all fun i => (s.slotsOf a).contains i) = true := by
    rw [List.all_eq_true]
    intro i hi
    obtain ⟨h64, hb⟩ := List.mem_filter.mp hi
    exact List.contains_iff_mem.mpr (hslots i (List.mem_range.mp h64) hb)
  rw [exec_split, execSplit]
  refine ⟨s.coresOf a, (List.range 64).filter fun i => slots.getLsbD i, _, if_pos ?_⟩
  rw [hgiven, Bool.and_true]
  simp [ha, hb, hab, State.mergeable_iff.mpr hr, he, hlo, hhi, hcol, hbank, Partition.lower, hrest]

theorem exec_split_refused {first : Nat} {colour slots : DWord} (h : ¬ready s a) :
    exec (.split a b first colour slots) s = .next (answered s .refused) := by
  have hm : s.mergeable a = false := Bool.eq_false_iff.mpr fun hc => h (State.mergeable_iff.mp hc)
  rw [exec_split, execSplit]
  refine if_neg ?_
  simp [hm]

theorem exec_split_ready {first : Nat} {colour slots : DWord} (ha : a < 8) (hb : b < 8) (hab : a ≠ b)
    (hlen : s.parts.length = 8)
    (hlo : (s.part a).clbase.toNat < first) (hhi : first ≤ (s.part a).cllimit.toNat)
    (hcol : colour &&& ~~~(s.part a).colour = 0) (hbank : bankCount (colourCount colour) = true)
    (hrest : bankCount (colourCount ((s.part a).colour &&& ~~~colour)) = true)
    (hslots : ∀ i, i < 64 → slots.getLsbD i = true → i ∈ s.slotsOf a) (hr : ready s a) (he : (s.part b).en = false) :
    ∃ t, exec (.split a b first colour slots) s = .next t ∧ t.part a = (s.part a).lower first colour ∧
      t.part b = (s.part b).upper (s.part a) first colour ∧ (∀ p, p ≠ a → p ≠ b → t.part p = s.part p) ∧
      (∀ e ∈ t.dtc, e.part ≠ a) ∧ a ∈ t.reopening ∧ b ∈ t.reopening := by
  obtain ⟨cs, is, r, h⟩ := exec_split_accepted ha hb hab hlo hhi hcol hbank hrest hslots hr he
  have hparts : (s.vacated cs is b [a] b).parts = s.parts := State.vacated_parts
  refine ⟨_, h, State.redrawn_fst hab (by rw [hparts]; omega), State.redrawn_snd hab (by rw [hparts]; omega),
    fun p hpa hpb => ?_, ?_, ?_, ?_⟩
  · rw [State.redrawn_other hpa hpb, State.part_congr hparts]
  · intro e he
    have := State.vacated_dtc (State.redrawn_dtc ▸ he)
    simpa using this
  · rw [State.redrawn_reopening]
    exact List.mem_append_right _ List.mem_cons_self
  · rw [State.redrawn_reopening]
    exact List.mem_append_right _ (List.mem_cons_of_mem _ (List.mem_singleton_self b))

/-- The halves of a split partition meet at the named cluster. -/
theorem Partition.lower_cllimit {first : Nat} {colour : DWord} (h0 : 0 < first) (h16 : first < 16) :
    (x.lower first colour).cllimit.toNat + 1 = first := by
  have h : (x.lower first colour).cllimit.toNat = first - 1 := Nat.mod_eq_of_lt (by omega)
  omega

theorem Partition.upper_clbase {y : Partition} {first : Nat} {colour : DWord} (h16 : first < 16) :
    (y.upper x first colour).clbase.toNat = first := Nat.mod_eq_of_lt (by omega)

end Sys2Proof.Machine
end

section
/-!
Translations and page requests, for O49: what a shoot-down takes from the caches, and what an answer of the host
changes besides.
-/
namespace Sys2Proof.Machine
open Sys2Proof.Claims

variable {s t u : State} {c index : Nat} {k : Core} {q : PageRequest}

/-! ### Cached translations -/

/-- The two states cache the same translations, and agree in memory, scheduler, page requests and host translations. -/
structure TlbsKept (s t : State) : Prop where
  dtc : t.dtc = s.dtc
  tlbs : t.cores.map (·.tlb) = s.cores.map (·.tlb)
  dram : t.dram = s.dram
  sched : t.sched = s.sched
  pri : t.pri = s.pri
  iommu : t.iommu = s.iommu

theorem TlbsKept.refl (s : State) : TlbsKept s s := ⟨rfl, rfl, rfl, rfl, rfl, rfl⟩

theorem TlbsKept.trans (h : TlbsKept s t) (g : TlbsKept t u) : TlbsKept s u :=
  ⟨g.dtc.trans h.dtc, g.tlbs.trans h.tlbs, g.dram.trans h.dram, g.sched.trans h.sched, g.pri.trans h.pri,
    g.iommu.trans h.iommu⟩

theorem TlbsKept.foldl {α : Type} {f : State → α → State} (hf : ∀ t a, TlbsKept t (f t a)) (l : List α) (s : State) :
    TlbsKept s (l.foldl f s) :=
  List.foldlRecOn (motive := TlbsKept s) l f (TlbsKept.refl s) fun t h a _ => h.trans (hf t a)

/-- A change of a core that leaves its TLB alone. -/
theorem State.modCore_tlbsKept {f : Core → Core} (hf : ∀ k, (f k).tlb = k.tlb) : TlbsKept s (s.modCore c f) := by
  refine ⟨rfl, ?_, rfl, rfl, rfl, rfl⟩
  apply List.ext_getElem?
  intro i
  simp only [State.modCore, State.setCore, List.map_set, hf]
  rw [List.getElem?_set]
  split
  · next h =>
    subst h
    split
    · next hc =>
      have hc' : c < s.cores.length := by simpa using hc
      simp [State.core, List.getD_eq_getElem?_getD, hc']
    · next hc => exact (List.getElem?_eq_none (by omega)).symm
  · rfl

/-- A core's TLB stood in the state before. -/
theorem TlbsKept.mem_cores (h : TlbsKept s t) (hk : k ∈ t.cores) : ∃ l ∈ s.cores, l.tlb = k.tlb := by
  have hmem : k.tlb ∈ t.cores.map (·.tlb) := List.mem_map_of_mem hk
  rw [h.tlbs] at hmem
  exact List.mem_map.mp hmem

/-- What no cache holds depends on the device translation cache and the TLBs alone. -/
theorem TlbsKept.shotDown (h : TlbsKept s t) {p pasid va size : Nat} (hs : shotDown s p pasid va size) :
    shotDown t p pasid va size := by
  obtain ⟨hdtc, hcores⟩ := hs
  refine ⟨by rwa [h.dtc], fun k hk e he => ?_⟩
  obtain ⟨l, hl, hle⟩ := h.mem_cores hk
  exact hcores l hl e (hle ▸ he)

/-- Filtering the range out of every cache shoots it down. -/
theorem shotDown_of_filtered {p pasid va size : Nat}
    (hdtc : t.dtc = s.dtc.filter fun e => !e.touches p pasid va size)
    (hcores : t.cores = s.cores.map fun (k : Core) => { k with tlb := k.tlb.filter fun e => !e.touches p pasid va size }) :
    shotDown t p pasid va size := by
  have hkept : ∀ (e : TlbEntry) (l : List TlbEntry), e ∈ l.filter (fun e => !e.touches p pasid va size) →
      covers e p pasid va size = false := fun e l he => by
    simpa [covers] using (List.mem_filter.mp he).2
  refine ⟨fun e he => hkept e s.dtc (hdtc ▸ he), fun k hk e he => ?_⟩
  obtain ⟨k', -, rfl⟩ := List.mem_map.mp (hcores ▸ hk)
  exact hkept e k'.tlb he

theorem exec_atsInvalidation_performed {vf pasid va size : Nat} (h1 : 1 ≤ vf) (h8 : vf ≤ 8) (hroom : s.invals.length < 32) :
    ∃ t, exec (.atsInvalidation vf pasid va size) s = .next t ∧
      t.invals = s.invals ++ [{ vf := vf, pasid := pasid, va := va, size := size }] ∧
      shotDown t (vf - 1) pasid va size ∧ t.dram = s.dram ∧ t.sched = s.sched ∧ t.hostMem = s.hostMem ∧
      ∀ e ∈ s.dtc, covers e (vf - 1) pasid va size = false → e ∈ t.dtc := by
  have hc : (!isVf vf || decide (invalEntries ≤ s.invals.length)) = false := by
    have hfull : ¬invalEntries ≤ s.invals.length := Nat.not_le.mpr hroom
    rw [decide_eq_false hfull]
    simp [isVf, h1, h8]
  rw [exec_atsInvalidation, execAtsInvalidation, hc]
  refine ⟨_, rfl, rfl, shotDown_of_filtered rfl rfl, rfl, rfl, rfl, fun e he hne => ?_⟩
  exact List.mem_filter.mpr ⟨he, by simpa [covers] using hne⟩

/-! ### Page requests (R416, R417) -/

/-- Some waiting requests have been sent, and nothing else differs. -/
def SentMore (s t : State) : Prop := t = { s with pri := t.pri } ∧
  t.pri.map (·.index) = s.pri.map (·.index) ∧ ∀ r ∈ s.pri, r.sent = true → r ∈ t.pri

theorem SentMore.refl (s : State) : SentMore s s := ⟨rfl, rfl, fun _ hr _ => hr⟩

theorem SentMore.trans (h : SentMore s t) (g : SentMore t u) : SentMore s u := by
  obtain ⟨hst, hsi, hs⟩ := h
  obtain ⟨htu, hti, ht⟩ := g
  refine ⟨?_, hti.trans hsi, fun r hr hsent => ht r (hs r hr hsent) hsent⟩
  rw [htu, hst]

theorem SentMore.foldl {α : Type} {f : State → α → State} (hf : ∀ t a, SentMore t (f t a)) (l : List α) (s : State) :
    SentMore s (l.foldl f s) :=
  List.foldlRecOn (motive := SentMore s) l f (SentMore.refl s) fun t h a _ => h.trans (hf t a)

/-- The requests of one index are sent. -/
theorem sentMore_mark (i : Nat) :
    SentMore s { s with pri := s.pri.map fun (x : PageRequest) => if x.index == i then { x with sent := true } else x } := by
  refine ⟨rfl, ?_, fun r hr hsent => List.mem_map.mpr ⟨r, hr, ?_⟩⟩
  · rw [List.map_map]
    refine List.map_congr_left fun x _ => ?_
    simp only [Function.comp]
    split <;> rfl
  · split
    · cases r
      exact congrArg _ hsent.symm
    · rfl

theorem State.sendWaiting_sentMore : SentMore s s.sendWaiting := by
  refine SentMore.foldl (fun t i => ?_) _ s
  split
  · split
    · exact sentMore_mark i
    · exact SentMore.refl t
  · exact SentMore.refl t

/-- The answered request is gone; others may have been sent in its place. -/
theorem State.dropRequest_sentMore :
    SentMore { s with pri := s.pri.filter fun r => r.index != index } (s.dropRequest index) := State.sendWaiting_sentMore

theorem State.dropRequest_dram : (s.dropRequest index).dram = s.dram :=
  (congrArg State.dram (State.dropRequest_sentMore (s := s) (index := index)).1).trans rfl
theorem State.dropRequest_sched : (s.dropRequest index).sched = s.sched :=
  (congrArg State.sched (State.dropRequest_sentMore (s := s) (index := index)).1).trans rfl
theorem State.dropRequest_iommu : (s.dropRequest index).iommu = s.iommu :=
  (congrArg State.iommu (State.dropRequest_sentMore (s := s) (index := index)).1).trans rfl

theorem State.dropRequest_index {r : PageRequest} (h : r ∈ (s.dropRequest index).pri) : r.index ≠ index := by
  obtain ⟨-, hi, -⟩ := State.dropRequest_sentMore (s := s) (index := index)
  have hmem : r.index ∈ (s.dropRequest index).pri.map (·.index) := List.mem_map_of_mem h
  rw [hi] at hmem
  obtain ⟨r', hr', he⟩ := List.mem_map.mp hmem
  rw [← he]
  simpa using (List.mem_filter.mp hr').2

theorem exec_priReenable_sentMore : ∃ t, exec .priReenable s = .next t ∧ t = { s with priStopped := false, pri := t.pri } ∧
    t.pri.map (·.index) = s.pri.map (·.index) ∧ ∀ r ∈ s.pri, r.sent = true → r ∈ t.pri :=
  ⟨_, rfl, State.sendWaiting_sentMore (s := { s with priStopped := false })⟩

theorem exec_prgResponse_unknown {x : AtsAnswer} (h : s.requestOf index = none) :
    exec (.prgResponseSuccess index x) s = .next s ∧ exec (.prgResponseInvalid index) s = .next s := by
  rw [exec_prgResponseSuccess, exec_prgResponseInvalid, execPrgResponseSuccess, execPrgResponseInvalid, h]
  exact ⟨rfl, rfl⟩

theorem exec_prgResponseInvalid_found (h : s.requestOf index = some q) :
    exec (.prgResponseInvalid index) s = .next ((s.dropRequest index).pageFinal q) := by
  rw [exec_prgResponseInvalid, execPrgResponseInvalid, h]

@[simp] theorem Core.markReady_tlb (rid : Nat) : (k.markReady rid).tlb = k.tlb := by
  unfold Core.markReady
  split <;> rfl

@[simp] theorem Core.pageDone_tlb (page : Nat) (test : CueRec → Bool) : (k.pageDone page test).tlb = k.tlb :=
  foldl_keeps (g := Core.tlb) (fun _ _ => Core.markReady_tlb _) _

@[simp] theorem Core.copiesGo_tlb (va : Nat) (mine : Copy → Bool) : (k.copiesGo va mine).tlb = k.tlb := by
  unfold Core.copiesGo
  split <;> rfl

/-- The device with the answered request dropped, its page forgotten and the host's translation of it known. -/
def State.pageAnswered (s : State) (index : Nat) (q : PageRequest) (x : AtsAnswer) : State :=
  { ((s.dropRequest index).forgetPage q) with
    iommu := { x with part := q.part, pasid := q.pasid } :: ((s.dropRequest index).forgetPage q).iommu }

theorem State.pageAnswered_shotDown {x : AtsAnswer} : shotDown (s.pageAnswered index q x) q.part q.pasid q.va 4096 :=
  shotDown_of_filtered (s := s.dropRequest index) rfl rfl

/-- After PRG_RESPONSE_SUCCESS the waiting records and copies go on, which touches no translation. -/
theorem exec_prgResponseSuccess_found {x : AtsAnswer} (h : s.requestOf index = some q) :
    ∃ t, exec (.prgResponseSuccess index x) s = .next t ∧ TlbsKept (s.pageAnswered index q x) t := by
  rw [exec_prgResponseSuccess, execPrgResponseSuccess, h]
  refine ⟨_, rfl, TlbsKept.foldl (fun t c => ?_) _ _⟩
  dsimp only
  split
  · exact State.modCore_tlbsKept fun k => Core.copiesGo_tlb _ _
  · exact (State.modCore_tlbsKept fun k => Core.copiesGo_tlb _ _).trans
      (State.modCore_tlbsKept fun k => Core.pageDone_tlb _ _)

theorem exec_prgResponseSuccess_effect {x : AtsAnswer} (h : s.requestOf index = some q) :
    ∃ t, exec (.prgResponseSuccess index x) s = .next t ∧ shotDown t q.part q.pasid q.va 4096 ∧ s.dram = t.dram ∧
      s.sched = t.sched ∧ (∀ r ∈ t.pri, r.index ≠ index) ∧ t.iommu = { x with part := q.part, pasid := q.pasid } :: s.iommu := by
  obtain ⟨t, ht, hkept⟩ := exec_prgResponseSuccess_found (x := x) h
  refine ⟨t, ht, hkept.shotDown State.pageAnswered_shotDown, (hkept.dram.trans State.dropRequest_dram).symm,
    (hkept.sched.trans State.dropRequest_sched).symm, fun r hr => State.dropRequest_index (hkept.pri ▸ hr), ?_⟩
  exact hkept.iommu.trans (congrArg (List.cons _) State.dropRequest_iommu)

end Sys2Proof.Machine
end

section
/-!
Key slots, requests across the host link and register writes, for O49; and the obligation itself.
-/
namespace Sys2Proof.Machine
open Sys2Proof.Claims

variable {s : State} {vf f off : Nat} {v : DWord}

/-! ### Key slots (R426) -/

theorem State.keyInUse_iff {key : BitVec 256} {salt : Word} : s.keyInUse key salt = true ↔
    ∃ k ∈ s.cores, ∃ x ∈ k.keys, x.v = true ∧ x.key = key ∧ x.salt = salt := by
  simp [State.keyInUse, List.any_eq_true, and_assoc]

theorem exec_keyset_done {c slot : Nat} {pasid : BitVec 20} {key : BitVec 256} {salt : Word} {ctr : DWord} (h1 : 1 ≤ vf)
    (h8 : vf ≤ 8) (hslot : slot < 64) (hsess : s.spdmSession = true) (hrun : (s.part (vf - 1)).tdi = .run)
    (hc : c ∈ s.coresOf (vf - 1)) (hnew : ∀ k ∈ s.cores, ∀ x ∈ k.keys, x.v = true → ¬(x.key = key ∧ x.salt = salt)) :
    exec (.keyset vf c slot pasid key salt ctr) s = .next (answered (withCore s c fun k =>
      { k with keys := k.keys.set slot ⟨true, BitVec.ofNat 3 (vf - 1), pasid, key, salt, ctr⟩ }) .done) := by
  have hfree : s.keyInUse key salt = false := Bool.eq_false_iff.mpr fun hu => by
    obtain ⟨k, hk, x, hx, hv, hkey⟩ := State.keyInUse_iff.mp hu
    exact hnew k hk x hx hv hkey
  rw [exec_keyset, execKeyset]
  refine if_pos ?_
  simp [h1, h8, hslot, hsess, hrun, hc, hfree]

theorem exec_keyset_error {c slot : Nat} {pasid : BitVec 20} {key : BitVec 256} {salt : Word} {ctr : DWord}
    (h : (s.part (vf - 1)).tdi ≠ .run ∨ c ∉ s.coresOf (vf - 1) ∨
      ∃ k ∈ s.cores, ∃ x ∈ k.keys, x.v = true ∧ x.key = key ∧ x.salt = salt) :
    exec (.keyset vf c slot pasid key salt ctr) s = .next (answered s .error) := by
  rw [← State.keyInUse_iff] at h
  rw [exec_keyset, execKeyset]
  refine if_neg ?_
  obtain h | h | h := h
  · simp [h]
  · simp [h]
  · simp [h]

/-! ### AtomicOps and memory requests (R256, R412, R433) -/

/-- The first AtomicOp of an access completes: the host's memory takes its result and the core its old value, or it
fails. -/
theorem exec_atomicopCompletion_found {c rid : Nat} {o : HostOp}
    (h : (s.hostOps.find? fun o => o.core == c && o.rid == rid) = some o) (ok : Bool) :
    exec (.atomicopCompletion c rid ok) s =
      .next (if ok then { s with hostOps := s.hostOps.erase o }.performOp o else s.failOp o) := by
  rw [exec_atomicopCompletion, execAtomicopCompletion, h]

theorem State.performOp_found {c rid : Nat} {o : HostOp}
    (h : (s.hostOps.find? fun o => o.core == c && o.rid == rid) = some o) :
    let size := if o.w64 then 8 else 4
    let old := s.hostMem.readNat o.addr size
    { s with hostOps := s.hostOps.erase o }.performOp o = withCore
      { s with
        hostOps := s.hostOps.erase o
        hostMem := s.hostMem.writeNat o.addr size (atomNew o.op (8 * size) old o.value o.compare) }
      c fun k => k.giveOld rid o.lane old := by
  have hnames : o.core = c ∧ o.rid = rid := by simpa using List.find?_some h
  obtain ⟨rfl, rfl⟩ := hnames
  rfl

theorem State.admits_of {a n : Nat} (hr : s.dramReady = true) (ht : s.tripped = false) (hc : a + n ≤ s.capacity) :
    s.admits a n = true := by
  simp [State.admits, hr, ht, hc]

theorem exec_hostMemoryRequest_waits {a : DWord} {bs : List Byte} (h : s.dramReady = false) (w : Bool) :
    exec (.hostMemoryRequest vf a w bs) s = .next s := by
  rw [exec_hostMemoryRequest, execHostMemoryRequest]
  simp [h]

theorem exec_hostMemoryRequest_write {a : DWord} {bs : List Byte} (hr : s.dramReady = true)
    (ha : s.admits a.toNat bs.length = true) :
    exec (.hostMemoryRequest vf a true bs) s = .next (s.devWrite a.toNat bs) := by
  rw [exec_hostMemoryRequest, execHostMemoryRequest]
  simp [hr, ha]

theorem exec_hostMemoryRequest_read {a : DWord} {bs : List Byte} (hr : s.dramReady = true)
    (ha : s.admits a.toNat bs.length = true) : exec (.hostMemoryRequest vf a false bs) s =
      .next { s with reply := .success (s.dram.readBytes a.toNat bs.length) } := by
  rw [exec_hostMemoryRequest, execHostMemoryRequest]
  simp [hr, ha]

/-! ### Register writes (R3, R9, R413) -/

theorem inRegion_iff {base size : Nat} : inRegion off base size = true ↔ base ≤ off ∧ off < base + size := by
  simp [inRegion]

theorem exec_registerWrite_pf : exec (.registerWrite 0 off v) s = .next (s.writePf off v) := rfl

theorem exec_registerWrite_mgmt : exec (.registerWrite 9 off v) s = .next (s.writeMgmt off v) := rfl

theorem exec_registerWrite_vf (h1 : 1 ≤ f) (h8 : f ≤ 8) : exec (.registerWrite f off v) s = .next (s.writeVf f off v) := by
  have hvf : isVf f = true := by simp [isVf, h1, h8]
  rw [exec_registerWrite, execRegisterWrite, if_neg (by omega), if_neg (by unfold mgmtCore; omega), if_pos hvf]

theorem State.writePf_plain (h1 : 0x8000 ≤ off) (h2 : off < 0x9000) : s.writePf off v = s.setBar 0 off v := by
  have h : inRegion off 0x8000 4096 = true := inRegion_iff.mpr ⟨h1, h2⟩
  rw [State.writePf, h, Bool.true_or, if_pos rfl]

theorem State.writePf_ident (h : off < 64) : s.writePf off v = s.siripRefuses off := by
  have hplain : ¬(inRegion off 0x8000 4096 || inMsix 0 off) = true := by
    have htable : msixTable 0 = 0xA0000 := rfl
    rw [inMsix, htable, Bool.or_eq_true, inRegion_iff, inRegion_iff]
    omega
  rw [State.writePf, if_neg hplain, if_pos (by simp [h])]

/-- A write to the QCFG of queue `q` of a virtual function. -/
theorem State.writeVf_qcfg {q : Nat} (hq : q < 8) : s.writeVf f (0x8100 + 8 * q) v =
    if (s.part (f - 1)).frozen then s else withQueue s (8 * (f - 1) + q) fun x => { x with qcfg := v &&& 0x800FFFFF } := by
  have hin : inRegion (0x8100 + 8 * q) 0x8100 64 = true := inRegion_iff.mpr ⟨by omega, by omega⟩
  have hqueue : queueOf f ((0x8100 + 8 * q - 0x8100) / 8) = 8 * (f - 1) + q := by
    unfold queueOf
    omega
  have hquad : (0x8100 + 8 * q) % 8 = 0 := by omega
  rw [State.writeVf, if_pos hin, hqueue]
  cases hf : (s.part (f - 1)).frozen with
  | true => simp
  | false =>
    rw [if_pos (by simp [hquad])]
    rfl

theorem State.writeMgmt_request (h : s.sirip.requests.length < 16) :
    s.writeMgmt 0x3000 v = withSirip s fun q => { q with requests := q.requests ++ [(v, .mgmt)] } := by
  have hroom : ¬requestEntries ≤ s.sirip.requests.length := Nat.not_le.mpr h
  rw [State.writeMgmt, if_pos rfl, if_neg hroom]
  rfl

theorem State.writeMgmt_beyond (h : barSize ≤ off) : s.writeMgmt off v = s.siripRefuses off := by
  have hqueue : off ≠ 0x3000 := by
    unfold barSize at h
    omega
  rw [State.writeMgmt, if_neg hqueue, if_pos h]

/-! ### The obligation -/

/-- Settles O49: one lemma above for each case of each of the host's steps. -/
theorem hostSteps : Obligations.HostSteps := by
  unfold Obligations.HostSteps
  refine ⟨fun s i v hi => ⟨exec_timeSlotWrite_accepted hi, exec_timeSlotWrite_reported⟩,
    fun s h => frameBoundary_slots h, fun s a h ha => frameBoundary_reopens h ha,
    fun s p off v q hw => ⟨exec_partitionRegWrite_accepted hw, exec_partitionRegWrite_reported hw⟩,
    ?merge, ?split,
    fun s vf c slot pasid key salt ctr => ⟨exec_keyset_done, exec_keyset_error⟩,
    fun s vf pasid va size h1 h8 hroom => exec_atsInvalidation_performed h1 h8 hroom,
    fun s i x h => exec_prgResponse_unknown h, fun s i x q h => exec_prgResponseSuccess_effect h,
    fun s i q h => ⟨_, exec_prgResponseInvalid_found h, rfl⟩, fun s => ⟨_, exec_prgResponseFailure s, rfl⟩,
    fun s => exec_priReenable_sentMore, ?atomicop, fun s vf => exec_receivedAtomicop vf s, ?memory, ?registers⟩
  case merge =>
    intro s a b hab hb hlen hadj hbank
    refine ⟨fun ha hr => ?_, exec_merge_refused⟩
    obtain ⟨t, ht, hpa, hpb, hother, hdtc, hjobs, hdram, hopen⟩ := exec_merge_ready hab hb hlen hadj hbank ha hr
    refine ⟨t, ht, ?_⟩
    rw [hpa, hpb]
    exact ⟨rfl, rfl, rfl, rfl, rfl, rfl, rfl, rfl, rfl, rfl, rfl, hother, hdtc, hjobs, hdram, hopen⟩
  case split =>
    intro s a b first colour slots ha hb hab hlen hfirst hlo hhi hcol hbank hrest hslots
    refine ⟨fun hr he => ?_, exec_split_refused⟩
    obtain ⟨t, ht, hpa, hpb, hother, hdtc, hopena, hopenb⟩ :=
      exec_split_ready ha hb hab hlen hlo hhi hcol hbank hrest hslots hr he
    refine ⟨t, ht, ?_⟩
    rw [hpa, hpb]
    exact ⟨Partition.lower_cllimit (by omega) hfirst, rfl, rfl, rfl, Partition.upper_clbase hfirst, rfl, rfl, hother, hdtc,
      hopena, hopenb⟩
  case atomicop =>
    intro s c rid o h
    refine ⟨?_, exec_atomicopCompletion_found h false⟩
    rw [exec_atomicopCompletion_found h true, if_pos rfl, State.performOp_found h]
  case memory =>
    intro s vf a bs
    refine ⟨fun w h => exec_hostMemoryRequest_waits h w, fun hr ht hc => ?_⟩
    have hadmits := State.admits_of hr ht hc
    exact ⟨exec_hostMemoryRequest_write hr hadmits, exec_hostMemoryRequest_read hr hadmits⟩
  case registers =>
    intro s f off v
    refine ⟨?_, ?_, ?_, ?_, ?_, ?_⟩
    · rintro rfl h1 h2
      rw [exec_registerWrite_pf, State.writePf_plain h1 h2]
    · rintro rfl h
      rw [exec_registerWrite_pf, State.writePf_ident h, State.siripRefuses]
    · rintro q h1 h8 hq rfl ht
      rw [exec_registerWrite_vf h1 h8, State.writeVf_qcfg hq, Partition.frozen_eq_false ht]
      rfl
    · rintro q h1 h8 hq rfl ht
      rw [exec_registerWrite_vf h1 h8, State.writeVf_qcfg hq, Partition.frozen_iff.mpr ht, if_pos rfl]
    · rintro rfl rfl h
      rw [exec_registerWrite_mgmt, State.writeMgmt_request h]
    · rintro rfl h
      rw [exec_registerWrite_mgmt, State.writeMgmt_beyond h, State.siripRefuses]

end Sys2Proof.Machine
end

section
/-!
What the checks of R240 deliver where they pass: the pieces of every access, one for each lane in the window and in global
memory, and with a translation wherever the space is not the window's.
-/
namespace Sys2Proof.Machine

variable {s : State} {p : Path} {size : Nat} {write refused : Bool} {ws : List Want} {hs : List Hit}

/-- Where two parts of a body pass, each has passed. -/
theorem Exe.of_bind_ok {α β : Type} {x : Exe α} {f : α → Exe β} {b : β} (h : x >>= f = .ok b) :
    ∃ a, x = .ok a ∧ f a = .ok b := by
  cases x with
  | ok a => exact ⟨a, rfl, h⟩
  | error e => cases h

theorem Exe.bind_of_ok {α β : Type} {x : Exe α} {f : α → Exe β} {a : α} (h : x = .ok a) : x >>= f = f a := by
  subst h; rfl

/-- A fault is raised just where a lane fails (R183). -/
theorem raiseFirst_eq_ok {port : Option Nat} {fs : List (Nat × Option Fail)} :
    raiseFirst port fs = .ok () ↔ ∀ x ∈ fs, x.2 = none := by
  have hnil : fs.filterMap (fun x => x.2.map fun f => (x.1, f)) = [] ↔ ∀ x ∈ fs, x.2 = none := by
    simp [List.filterMap_eq_nil_iff]
  rw [← hnil]
  unfold raiseFirst
  split
  · next e => exact iff_of_true rfl e
  · next e => exact iff_of_false (by simp) (by simp [e])

/-! ### Local pieces -/

/-- Where local accesses lie in the core's memory, one piece each (R238). -/
def localPieces (base size : Nat) (ws : List Want) : List Hit :=
  ws.map fun w => { lane := w.lane, va := base + w.addr.toNat, size := size, x := none }

theorem flatMap_pieces_loc (base priv : Nat) :
    (ws.map fun w => (w.lane, pieces .loc size base priv w)).flatMap (·.2) = localPieces base size ws := by
  rw [List.flatMap_map]
  exact (List.map_eq_flatMap ..).symm

/-- A passed access of the window has a local piece for each lane. -/
theorem State.access_loc_eq (h : s.access p .loc size write refused ws = .ok hs) :
    hs = localPieces (s.block p).base size ws := by
  obtain ⟨_, _, h⟩ := Exe.of_bind_ok h
  obtain ⟨_, hp, h⟩ := Exe.of_bind_ok h
  cases hp
  obtain ⟨_, _, h⟩ := Exe.of_bind_ok h
  exact (Except.ok.inj h).symm.trans (flatMap_pieces_loc _ _)

/-- A passed access of the window ends inside it. -/
theorem State.access_loc_inside (h : s.access p .loc size write refused ws = .ok hs) :
    ∀ w ∈ ws, w.addr.toNat + size ≤ (s.block p).size := by
  obtain ⟨_, hb, -⟩ := Exe.of_bind_ok h
  intro w hw
  have := raiseFirst_eq_ok.mp hb _ (List.mem_map_of_mem hw)
  unfold boundsFail at this
  split at this
  · cases this
  · simpa using this

/-- Accesses of the window pass that are aligned, inside it and in no sector that a copy holds (R16, R238, R240). -/
theorem State.access_loc_ok (ha : ∀ w ∈ ws, w.addr.toNat % size = 0 ∧ w.addr.toNat + size ≤ (s.block p).size)
    (hl : ∀ h ∈ localPieces (s.block p).base size ws,
      s.lockers p.core true (s.ownerOf p.core p.blk) { lo := h.va, hi := h.va + h.size } = []) :
    s.access p .loc size write refused ws = .ok (localPieces (s.block p).base size ws) := by
  unfold State.access State.accessIn
  rw [Exe.bind_of_ok (raiseFirst_eq_ok.mpr ?_), if_pos rfl, Exe.bind_of_ok rfl]
  beta_reduce
  rw [Exe.bind_of_ok (raiseFirst_eq_ok.mpr ?_), flatMap_pieces_loc]
  · intro x hx
    obtain ⟨y, hy, rfl⟩ := List.mem_map.mp hx
    obtain ⟨w, hw, rfl⟩ := List.mem_map.mp hy
    have hn := hl _ (List.mem_map_of_mem hw)
    simp only [laneFail, pieces, List.findSome?_cons, State.lockFail, beq_self_eq_true, hn, List.findSome?_nil]
  · intro x hx
    obtain ⟨w, hw, rfl⟩ := List.mem_map.mp hx
    obtain ⟨h1, h2⟩ := ha w hw
    simp [boundsFail, h1, h2]

/-! ### Translated pieces -/

/-- A piece with the translation that the path has for it. -/
def State.translated (s : State) (p : Path) (h : Hit) : Hit :=
  match s.lookFor p h with
  | some (.ok t) => { h with x := some t }
  | _ => h

theorem State.translated_keeps (h : Hit) :
    (s.translated p h).lane = h.lane ∧ (s.translated p h).va = h.va ∧ (s.translated p h).size = h.size := by
  unfold State.translated
  split <;> exact ⟨rfl, rfl, rfl⟩

/-- A piece whose look-up is known and no failure of R240's step 3 has a translation. -/
theorem State.translated_isSome {h : Hit} {run up barred : Bool} (hk : (s.lookFor p h).isSome = true)
    (hp : pageFail write h (s.lookFor p h) = none)
    (ha : accessFail run up refused barred h (s.lookFor p h) = none) : (s.translated p h).x.isSome = true := by
  unfold State.translated
  cases hf : s.lookFor p h with
  | none => simp [hf] at hk
  | some f =>
    cases f with
    | ok t => rfl
    | pageFault va => simp [hf, pageFail] at hp
    | access va => simp [hf, accessFail] at ha

/-- Passed translations give every piece its own. -/
theorem State.translateHits_ok {port : Option Nat} {per per' : List (Nat × List Hit)}
    (h : s.translateHits p port write refused per = .ok per') :
    per' = per.map (fun x => (x.1, x.2.map (s.translated p))) ∧
    ∀ x ∈ per, ∀ g ∈ x.2, (s.translated p g).x.isSome = true := by
  unfold State.translateHits at h
  dsimp only at h
  split at h
  · cases h
  · next hm =>
    obtain ⟨_, hr, h⟩ := Exe.of_bind_ok h
    refine ⟨(Except.ok.inj h).symm, fun x hx g hg => ?_⟩
    have hnone := raiseFirst_eq_ok.mp hr _ (List.mem_map_of_mem hx)
    simp only [laneFail, Option.orElse_eq_none, List.findSome?_eq_none_iff] at hnone
    have hk : (s.lookFor p g).isSome = true := by
      have hnil := List.isEmpty_iff.mp (by simpa only [Bool.not_eq_true, Bool.not_eq_false'] using hm)
      have hn := List.filter_eq_nil_iff.mp hnil g (List.mem_flatMap.mpr ⟨x, hx, hg⟩)
      simpa [Option.isSome_iff_ne_none] using hn
    exact State.translated_isSome hk (hnone.1 g hg) (hnone.2 g hg)

/-- The pieces of a passed access outside the window are those of its lanes, each with a translation. -/
theorem State.access_translated {space : Space} (hsp : space ≠ .loc) (h : s.access p space size write refused ws = .ok hs) :
    hs = (ws.flatMap (pieces space size (s.block p).base ((s.block p).privOf p.at_.troupe))).map (s.translated p) ∧
    ∀ g ∈ hs, g.x.isSome = true := by
  obtain ⟨_, _, h⟩ := Exe.of_bind_ok h
  rw [if_neg hsp] at h
  obtain ⟨per, ht, h⟩ := Exe.of_bind_ok h
  obtain ⟨_, _, h⟩ := Exe.of_bind_ok h
  obtain ⟨rfl, hx⟩ := State.translateHits_ok ht
  have hhs := (Except.ok.inj h).symm
  have e : hs = (ws.flatMap (pieces space size (s.block p).base ((s.block p).privOf p.at_.troupe))).map (s.translated p) := by
    rw [hhs, List.map_flatMap, List.map_map, List.flatMap_map]
    rfl
  refine ⟨e, fun g hg => ?_⟩
  rw [e] at hg
  obtain ⟨g, hm, rfl⟩ := List.mem_map.mp hg
  obtain ⟨w, hw, hg⟩ := List.mem_flatMap.mp hm
  exact hx _ (List.mem_map_of_mem hw) g hg

/-- A passed access of global memory has one translated piece of its size for each lane. -/
theorem State.access_global (h : s.access p .global size write refused ws = .ok hs) :
    ∀ g ∈ hs, g.x.isSome = true ∧ g.size = size := by
  obtain ⟨e, hx⟩ := State.access_translated (by decide) h
  refine fun g hg => ⟨hx g hg, ?_⟩
  rw [e] at hg
  obtain ⟨g, hm, rfl⟩ := List.mem_map.mp hg
  obtain ⟨w, -, hg⟩ := List.mem_flatMap.mp hm
  rw [(State.translated_keeps g).2.2, List.mem_singleton.mp hg]

end Sys2Proof.Machine
end

section
/-!
Bytes stored at a piece: what the piece then holds, and that every piece apart from it keeps its bytes.
-/
namespace Sys2Proof.Machine
open Sys2Proof.Claims

/-! ### Runs of bytes -/

section
variable {m : Memory} {a b n : Nat} {bs : List Byte}

theorem Memory.readBytes_length : (m.readBytes a n).length = n := by simp [Memory.readBytes]

/-- Written bytes are read back. -/
theorem Memory.readBytes_writeBytes_same (hm : m.wf = true) : (m.writeBytes a bs).readBytes a bs.length = bs := by
  refine List.ext_getElem Memory.readBytes_length fun i h1 h2 => ?_
  simp only [Memory.readBytes, List.getElem_map, List.getElem_range, Memory.read_writeBytes_same m a i bs hm h2]
  simp [h2]

/-- Bytes apart from those written are as before. -/
theorem Memory.readBytes_writeBytes_other (hm : m.wf = true) (h : b + n ≤ a ∨ a + bs.length ≤ b) :
    (m.writeBytes a bs).readBytes b n = m.readBytes b n := by
  refine List.map_congr_left fun i hi => ?_
  rw [List.mem_range] at hi
  exact Memory.read_writeBytes_other m a (b + i) bs hm (by omega)

end

/-! ### Address spaces -/

section
variable {s : State} {x y : Xlate} {m : Memory}

theorem State.space_setSpace_same (h : sameSpace y x) : (s.setSpace x m).space y = m := by
  unfold State.space State.setSpace
  obtain ⟨h1, h2⟩ := h
  cases hx : x.host <;> cases hp : x.peer <;> simp_all

theorem State.space_setSpace_other (h : ¬sameSpace y x) : (s.setSpace x m).space y = s.space y := by
  unfold State.space State.setSpace
  unfold sameSpace at h
  cases hx : x.host <;> cases hy : y.host <;> cases hp : x.peer <;> cases hq : y.peer <;> simp_all

@[simp] theorem State.setSpace_core (c : Nat) : (s.setSpace x m).core c = s.core c := by
  unfold State.setSpace
  split
  · rfl
  · split <;> rfl

end

/-! ### Bytes at a piece -/

/-- The memories that pieces of a core lie in are in canonical form, as reads after writes need them. -/
structure Canonical (s : State) (c : Nat) : Prop where
  global : ∀ x, (s.space x).wf = true
  mine : (s.core c).mem.wf = true

/-- A local piece lies in a core that is there. -/
def Placed (s : State) (c : Nat) (h : Hit) : Prop := h.x = none → c < s.cores.length

/-- The state with bytes stored at a piece. -/
def State.storeAt (s : State) (c : Nat) (h : Hit) (bs : List Byte) : State :=
  match h.x with
  | some x => s.setSpace x ((s.space x).writeBytes (x.addr h.va) bs)
  | none => s.modCore c fun k => { k with mem := k.mem.writeBytes h.va bs }

section
variable {s t : State} {c : Nat} {h g : Hit} {bs : List Byte}

theorem Canonical.setSpace {x : Xlate} {m : Memory} (hs : Canonical s c) (hm : m.wf = true) : Canonical (s.setSpace x m) c where
  global y := by
    by_cases hy : sameSpace y x
    · rw [State.space_setSpace_same hy]; exact hm
    · rw [State.space_setSpace_other hy]; exact hs.global y
  mine := by rw [State.setSpace_core]; exact hs.mine

theorem Canonical.storeAt (hs : Canonical s c) (hp : Placed s c h) : Canonical (s.storeAt c h bs) c := by
  unfold State.storeAt
  split
  · exact hs.setSpace (Memory.writeBytes_wf _ _ _ (hs.global _))
  · next hx =>
    refine ⟨hs.global, ?_⟩
    rw [State.core_modCore _ _ _ (hp hx)]
    exact Memory.writeBytes_wf _ _ _ hs.mine

@[simp] theorem State.setSpace_cores (x : Xlate) (m : Memory) : (s.setSpace x m).cores = s.cores := by
  unfold State.setSpace
  split
  · rfl
  · split <;> rfl

theorem Placed.storeAt (hp : Placed s c g) : Placed (s.storeAt c h bs) c g := by
  unfold State.storeAt
  split
  · simpa [Placed] using hp
  · simpa [Placed, State.modCore, State.setCore] using hp

/-- A piece holds what is stored at it. -/
theorem State.hitBytes_storeAt_same (hs : Canonical s c) (hp : Placed s c h) (hn : bs.length = h.size) :
    (s.storeAt c h bs).hitBytes c h = bs := by
  unfold State.storeAt State.hitBytes State.readThrough
  cases hx : h.x with
  | some x =>
    simp only
    rw [State.space_setSpace_same ⟨rfl, .inr rfl⟩, ← hn]
    exact Memory.readBytes_writeBytes_same (hs.global x)
  | none =>
    simp only
    rw [State.core_modCore _ _ _ (hp hx), ← hn]
    exact Memory.readBytes_writeBytes_same hs.mine

/-- A piece apart from it keeps its bytes. -/
theorem State.hitBytes_storeAt_apart (hs : Canonical s c) (hp : Placed s c h) (hn : bs.length = h.size) (hg : apart g h) :
    (s.storeAt c h bs).hitBytes c g = s.hitBytes c g := by
  unfold State.storeAt State.hitBytes State.readThrough
  unfold apart at hg
  cases hx : h.x <;> cases hy : g.x <;> simp only [hx, hy] at hg ⊢
  case none.none =>
    rw [State.core_modCore _ _ _ (hp hx)]
    exact Memory.readBytes_writeBytes_other hs.mine (hn ▸ hg)
  case none.some y => rfl
  case some.none x => rw [State.setSpace_core]
  case some.some x y =>
    by_cases hxy : sameSpace y x
    · rw [State.space_setSpace_same hxy, Memory.readBytes_writeBytes_other (hs.global x) (hn ▸ hg hxy)]
      unfold State.space
      obtain ⟨h1, h2⟩ := hxy
      cases hh : x.host <;> simp_all
    · rw [State.space_setSpace_other hxy]

end

end Sys2Proof.Machine
end

section
/-!
What a store or an atomic leaves alone. `State.contents` is what the memories hold, with the AtomicOps on their way;
`State.paths` is what a path is judged by: its troupes but for the touched scopes of their lanes (R98) and their deferred
accesses, what bounds the room of the cue store (R125), and what the comparator compares with.
-/
namespace Sys2Proof.Machine
open Sys2Proof.Claims

/-! ### Two views of a state -/

def Lane.unscoped (l : Lane) : Lane := { l with scope := 0 }

/-- A troupe but for the touched scopes of its lanes and its deferred accesses. -/
def Troupe.bare (t : Troupe) : Troupe := { t with deferred := [], lanes := t.lanes.map Lane.unscoped }

/-- The troupes of a core, each bare. -/
def Core.bare (k : Core) : List Troupe := k.troupes.map Troupe.bare

/-- What the cue store of a core holds, and what its records and the wings area take (R122 to R126). -/
structure Room where
  cue : List CueRec
  wingsSize : Nat
  regs : List (Option Nat)

def Core.room (k : Core) : Room := { cue := k.cue, wingsSize := k.wingsSize, regs := k.blocks.map (Option.map (·.regs)) }

structure Memories where
  dram : Memory
  hostMem : Memory
  peerMem : Memory
  locals : List Memory

structure Contents where
  memories : Memories
  hostOps : List HostOp

structure Paths where
  troupes : List (List Troupe)
  rooms : List Room
  expected : Option (List (Nat × CmpEvent))
  sirip : Sirip
  poison : List Nat
  nextId : Nat
  clock : DWord

def State.memories (s : State) : Memories :=
  { dram := s.dram, hostMem := s.hostMem, peerMem := s.peerMem, locals := s.cores.map (·.mem) }

def State.contents (s : State) : Contents := { memories := s.memories, hostOps := s.hostOps }

def State.paths (s : State) : Paths :=
  { troupes := s.cores.map Core.bare, rooms := s.cores.map Core.room, expected := s.expected, sirip := s.sirip
    poison := s.poison, nextId := s.nextId, clock := s.clock }

/-- Both views: what the bookkeeping of an access leaves alone. -/
def State.aside (s : State) : Contents × Paths := (s.contents, s.paths)

section
variable {s t : State} {c b i n : Nat} {p : Path} {hs : List Hit}

theorem contents_of_aside (h : t.aside = s.aside) : t.contents = s.contents := congrArg Prod.fst h
theorem memories_of_aside (h : t.aside = s.aside) : t.memories = s.memories := congrArg (·.1.memories) h
theorem paths_of_aside (h : t.aside = s.aside) : t.paths = s.paths := congrArg Prod.snd h

/-! ### What the views determine -/

theorem State.core_view {α : Type} (g : Core → α) (h : t.cores.map g = s.cores.map g) (c : Nat) : g (t.core c) = g (s.core c) := by
  have e : ∀ u : State, g (u.core c) = (u.cores.map g).getD c (g Core.reset) := fun u => by
    simp [State.core, List.getD_eq_getElem?_getD, List.getElem?_map, Option.getD_map]
  rw [e, e, h]

theorem length_of_memories (h : t.memories = s.memories) : t.cores.length = s.cores.length := by
  have := congrArg (·.locals.length) h
  simpa [State.memories] using this

theorem space_of_memories (h : t.memories = s.memories) (x : Xlate) : t.space x = s.space x := by
  have hd : t.dram = s.dram := congrArg Memories.dram h
  have hh : t.hostMem = s.hostMem := congrArg Memories.hostMem h
  have hp : t.peerMem = s.peerMem := congrArg Memories.peerMem h
  unfold State.space
  rw [hd, hh, hp]

theorem mem_of_memories (h : t.memories = s.memories) : (t.core c).mem = (s.core c).mem :=
  State.core_view (·.mem) (congrArg Memories.locals h) c

/-- What a piece holds depends on the memories alone. -/
theorem hitBytes_of_memories (h : t.memories = s.memories) (g : Hit) : t.hitBytes c g = s.hitBytes c g := by
  unfold State.hitBytes State.readThrough
  rw [mem_of_memories h]
  cases g.x <;> simp only [space_of_memories h]

theorem Canonical.of_memories (h : t.memories = s.memories) (hs : Canonical s c) : Canonical t c where
  global x := space_of_memories h x ▸ hs.global x
  mine := mem_of_memories h ▸ hs.mine

theorem Placed.of_memories {g : Hit} (h : t.memories = s.memories) (hp : Placed s c g) : Placed t c g :=
  fun hg => length_of_memories h ▸ hp hg

/-- The memories of a quiet state are canonical. -/
theorem Canonical.of_quiet (hq : Quiet s) : Canonical s c := by
  obtain ⟨hm, hl, -, -⟩ := hq
  simp only [State.memoriesWf, Bool.and_eq_true] at hm
  obtain ⟨⟨hd, hh⟩, hp⟩ := hm
  constructor
  · intro x
    unfold State.space
    split
    · exact hh
    · split
      · exact hp
      · exact hd
  · unfold State.core
    rw [List.getD_eq_getElem?_getD]
    cases hk : s.cores[c]? with
    | none => rfl
    | some k => exact List.all_eq_true.mp hl k (List.mem_of_getElem? hk)

theorem Core.troupe_bare (k : Core) : (k.troupe b i).map Troupe.bare = k.bare.find? fun t => t.blk == b && t.idx == i := by
  unfold Core.troupe Core.bare
  rw [List.find?_map]
  rfl

/-- A troupe is found as a bare one where it is found at all. -/
theorem troupe_of_paths (h : t.paths.troupes = s.paths.troupes) {u : Troupe} (hu : (s.core c).troupe b i = some u) :
    ∃ v, (t.core c).troupe b i = some v ∧ v.bare = u.bare := by
  have e : ((t.core c).troupe b i).map Troupe.bare = some u.bare := by
    rw [Core.troupe_bare, State.core_view Core.bare h, ← Core.troupe_bare, hu]
    rfl
  exact Option.map_eq_some_iff.mp e

/-- What a bare troupe shows. -/
theorem eq_of_bare {α : Type} {u v : Troupe} (g : Troupe → α) (hg : ∀ t, g t.bare = g t) (h : v.bare = u.bare) : g v = g u :=
  (hg v).symm.trans ((congrArg g h).trans (hg u))

/-- A lane of a troupe that is bare the same differs in its touched scope alone. -/
theorem lane_of_bare {u v : Troupe} (h : v.bare = u.bare) (l : Nat) : v.lane l = { u.lane l with scope := (v.lane l).scope } := by
  have e : ∀ t : Troupe, (t.lane l).unscoped = t.bare.lane l := fun t => by
    simp only [Troupe.lane, Troupe.bare, List.getD_eq_getElem?_getD, List.getElem?_map]
    cases t.lanes[l]? <;> rfl
  have hl : (v.lane l).unscoped = (u.lane l).unscoped := by rw [e, e, h]
  generalize v.lane l = x at hl
  generalize u.lane l = y at hl
  cases x
  cases y
  simpa [Lane.unscoped] using hl

/-- The path's troupe keeps all that Untouched names. -/
theorem untouched_of_paths (h : t.paths.troupes = s.paths.troupes) : Untouched s t p := by
  intro u hu
  obtain ⟨v, hv, e⟩ := troupe_of_paths h hu
  have keeps {α : Type} (g : Troupe → α) (hg : ∀ t, g t.bare = g t) : g v = g u := eq_of_bare g hg e
  exact ⟨v, hv, keeps Troupe.regs fun _ => rfl, keeps Troupe.k fun _ => rfl, keeps Troupe.c fun _ => rfl,
    keeps Troupe.tiles fun _ => rfl, keeps Troupe.bounds fun _ => rfl, keeps Troupe.fmode fun _ => rfl,
    keeps Troupe.fstat fun _ => rfl, keeps Troupe.satt fun _ => rfl, keeps Troupe.step fun _ => rfl,
    keeps Troupe.recCount fun _ => rfl, lane_of_bare e⟩

/-! ### Changes beside the views -/

/-- A change of a core that a view of it does not see. -/
theorem State.map_modCore {α : Type} (g : Core → α) {f : Core → Core} (hf : ∀ k, g (f k) = g k) :
    (s.modCore c f).cores.map g = s.cores.map g := by
  unfold State.modCore State.setCore State.core
  refine List.ext_getElem? fun n => ?_
  simp only [List.getElem?_map, List.getElem?_set, List.getD_eq_getElem?_getD]
  split
  · next h =>
    subst h
    by_cases hc : c < s.cores.length <;> simp [hc, hf]
  · rfl

theorem State.modCore_paths {f : Core → Core} (hb : ∀ k, (f k).bare = k.bare) (hr : ∀ k, (f k).room = k.room) :
    (s.modCore c f).paths = s.paths := by
  have e1 := State.map_modCore (s := s) (c := c) Core.bare hb
  have e2 := State.map_modCore (s := s) (c := c) Core.room hr
  simp only [State.paths, e1, e2]
  rfl

theorem State.modCore_aside {f : Core → Core} (hm : ∀ k, (f k).mem = k.mem) (hb : ∀ k, (f k).bare = k.bare)
    (hr : ∀ k, (f k).room = k.room) : (s.modCore c f).aside = s.aside := by
  have e := State.map_modCore (s := s) (c := c) (·.mem) hm
  simp only [State.aside, State.contents, State.memories, State.modCore_paths hb hr, e]
  rfl

theorem State.mod_aside {f : Troupe → Troupe} (hf : ∀ t, (f t).bare = t.bare) : (s.mod p f).aside = s.aside := by
  refine State.modCore_aside (fun _ => rfl) (fun k => ?_) fun _ => rfl
  unfold Core.bare Core.modTroupe
  rw [List.map_map]
  refine List.map_congr_left fun t _ => ?_
  simp only [Function.comp]
  split
  · exact hf t
  · rfl

@[simp] theorem State.touch_aside (m : Mask) (scope : BitVec 2) : (s.touch c b i m scope).aside = s.aside := by
  unfold State.touch
  split
  · rfl
  · refine State.mod_aside (p := { at_ := { core := c, blk := b, troupe := i, pc := 0, lanes := 0 }, active := 0, len := 0 }) fun t => ?_
    simp only [Troupe.bare, Troupe.modLanes]
    congr 1
    refine List.ext_getElem (by simp) fun l h1 h2 => ?_
    simp only [List.getElem_mapIdx, List.getElem_map]
    split <;> rfl

@[simp] theorem State.touchHits_aside : (s.touchHits p hs).aside = s.aside :=
  foldl_keeps (g := State.aside) (fun t h => by cases h.x <;> simp) s

@[simp] theorem State.popPorts_aside (fields : List Nat) : (s.popPorts p fields).aside = s.aside := by
  refine foldl_keeps (g := State.aside) (fun t q => ?_) s
  dsimp only
  split
  · rfl
  · refine Eq.trans (State.modCore_aside ?_ ?_ ?_) (foldl_keeps (g := State.aside) (fun _ _ => State.touch_aside _ _) t)
    all_goals exact fun _ => rfl

@[simp] theorem State.keepDeferred_aside (ws : List Hit) : (s.keepDeferred p ws).aside = s.aside := by
  unfold State.keepDeferred
  split
  · exact State.mod_aside fun _ => rfl
  · rfl

@[simp] theorem State.noteStores_aside : (s.noteStores p hs).aside = s.aside :=
  State.modCore_aside (fun _ => rfl) (fun _ => rfl) fun _ => rfl

@[simp] theorem State.noteGlobal_aside : (s.noteGlobal p).aside = s.aside :=
  State.modCore_aside (fun _ => rfl) (fun _ => rfl) fun _ => rfl

@[simp] theorem State.noteRace_aside (a n : Nat) : (s.noteRace c a n).aside = s.aside := by
  unfold State.noteRace
  dsimp only
  split <;> rfl

@[simp] theorem State.sealRegion_aside (yes : Bool) : (s.sealRegion p yes).aside = s.aside := by
  unfold State.sealRegion
  split
  · exact State.modCore_aside (fun _ => rfl) (fun _ => rfl) fun _ => rfl
  · rfl

theorem Core.modBlock_room (k : Core) (f : Block → Block) (hf : ∀ x, (f x).regs = x.regs) : (k.modBlock b f).room = k.room := by
  unfold Core.modBlock Core.room Core.block
  congr 1
  refine List.ext_getElem? fun n => ?_
  simp only [List.getElem?_map, List.getElem?_set, List.getD_eq_getElem?_getD]
  split
  · next h =>
    subst h
    by_cases hb : b < k.blocks.length
    · cases hx : k.blocks[b] <;> simp [hb, hx, hf]
    · simp [hb]
  · rfl

@[simp] theorem State.noteSync_aside (yes : Bool) : (s.noteSync p yes).aside = s.aside := by
  unfold State.noteSync
  split
  · exact State.modCore_aside (fun _ => rfl) (fun _ => rfl) fun k => Core.modBlock_room k _ fun _ => rfl
  · rfl

@[simp] theorem State.markReleases_aside (rel : Bool) : (s.markReleases p rel hs).aside = s.aside := by
  unfold State.markReleases
  split <;> rfl

@[simp] theorem State.addReplay_aside (sector core slot lane kind : Nat) :
    (s.addReplay sector core slot lane kind).aside = s.aside := by
  unfold State.addReplay
  dsimp only
  split <;> rfl

@[simp] theorem State.logOps_aside (kind : Nat) : (s.logOps p kind hs).aside = s.aside := by
  unfold State.logOps
  split
  · exact foldl_keeps (g := State.aside) (fun t h => by cases h.dramAddr <;> simp) s
  · rfl

end

end Sys2Proof.Machine
end

section
/-!
Global writes where no comparison can fail: every one of them performs, and nothing else changes but the poison of sectors
that they write whole (R90, R385, R400).
-/
namespace Sys2Proof.Machine
open Sys2Proof.Claims

variable {s t : State} {c b i : Nat} {k : Core} {ws : List GWrite} {w : GWrite}

/-! ### The comparator passes (R385, R401) -/

/-- No comparison can fail: CINJ is not armed, and no second run is being compared. -/
def Uncontested (s : State) : Prop := s.sirip.cinj.getLsbD 0 = false ∧ Unjudged s

theorem Uncontested.of_paths (h : t.paths = s.paths) (hs : Uncontested s) : Uncontested t := by
  have he : t.expected = s.expected := congrArg Paths.expected h
  have hr : t.sirip = s.sirip := congrArg Paths.sirip h
  exact ⟨hr ▸ hs.1, he.trans hs.2⟩

theorem State.noteEvent_passes (hs : Uncontested s) (e : CmpEvent) :
    (s.noteEvent c e).2 = true ∧ (s.noteEvent c e).1.aside = s.aside := by
  have he : s.expected = none := hs.2
  unfold State.noteEvent
  split
  · dsimp only
    split
    · exact ⟨rfl, rfl⟩
    · next h => exact absurd (he.symm.trans h) (by simp)
    · next h => exact absurd (he.symm.trans h) (by simp)
  · exact ⟨rfl, rfl⟩

theorem State.compareOne_unarmed (hs : Uncontested s) (ev : List GWrite) : s.compareOne c ev = (s, false) := by
  have h0 : (bitsOf s.sirip.cinj.toNat 0 0 == 1) = false := by
    have := hs.1
    rw [BitVec.getLsbD, Nat.testBit_zero] at this
    simpa [bitsOf] using this
  unfold State.compareOne
  simp [h0]

theorem State.matchEvents_passes (evs : List (List GWrite)) (hs : Uncontested s) :
    (s.matchEvents c evs).2 = none ∧ (s.matchEvents c evs).1.aside = s.aside := by
  induction evs generalizing s with
  | nil => exact ⟨rfl, rfl⟩
  | cons ev rest ih =>
    obtain ⟨h1, h2⟩ := State.noteEvent_passes (c := c) hs (writeEvent ev)
    have hu := Uncontested.of_paths (paths_of_aside h2) hs
    obtain ⟨h3, h4⟩ := ih hu
    unfold State.matchEvents
    simp only [State.compareOne_unarmed hu, h1, Bool.not_true, Bool.or_self, Bool.false_eq_true, if_false]
    generalize hm : (s.noteEvent c (writeEvent ev)).1.matchEvents c rest = r at h3 h4
    obtain ⟨u, x⟩ := r
    simp only at h3
    subst h3
    exact ⟨rfl, h4.trans h2⟩

/-! ### Performing (R90) -/

theorem State.putWrite_paths : (s.putWrite w).paths = s.paths := by
  unfold State.putWrite State.setSpace
  split
  · rfl
  · split
    · rfl
    · split <;> rfl

theorem State.putWrites_paths : (ws.foldl State.putWrite s).paths = s.paths :=
  foldl_keeps (g := State.paths) (fun _ _ => State.putWrite_paths) s

/-- What a write leaves in the memories depends on the memories alone. -/
theorem State.putWrite_memories (h : t.memories = s.memories) : (t.putWrite w).memories = (s.putWrite w).memories := by
  have hd : t.dram = s.dram := congrArg Memories.dram h
  have hh : t.hostMem = s.hostMem := congrArg Memories.hostMem h
  have hp : t.peerMem = s.peerMem := congrArg Memories.peerMem h
  have hl : t.cores.map (·.mem) = s.cores.map (·.mem) := congrArg Memories.locals h
  unfold State.putWrite State.setSpace
  rw [space_of_memories h]
  split
  · exact h
  · split
    · simp only [State.memories, hd, hp, hl]
    · split <;> simp only [State.memories, hd, hh, hp, hl]

theorem State.putWrites_memories (h : t.memories = s.memories) :
    (ws.foldl State.putWrite t).memories = (ws.foldl State.putWrite s).memories := by
  induction ws generalizing s t with
  | nil => exact h
  | cons w ws ih => exact ih (State.putWrite_memories h)

theorem State.putWrite_hostOps : (s.putWrite w).hostOps = s.hostOps ++ w.send.toList := by
  unfold State.putWrite State.setSpace
  split
  · next op h => rw [h]; rfl
  · next h =>
    rw [h]
    split
    · exact (List.append_nil _).symm
    · split <;> exact (List.append_nil _).symm

/-- Writes send the AtomicOps they bring, in their order. -/
theorem State.putWrites_hostOps : (ws.foldl State.putWrite s).hostOps = s.hostOps ++ ws.filterMap (·.send) := by
  induction ws generalizing s with
  | nil => exact (List.append_nil _).symm
  | cons w ws ih =>
    rw [List.foldl_cons, ih, State.putWrite_hostOps, List.append_assoc]
    cases hw : w.send <;> simp [hw]

theorem State.putWrites_contents (h : t.contents = s.contents) :
    (ws.foldl State.putWrite t).contents = (ws.foldl State.putWrite s).contents := by
  have hm : t.memories = s.memories := congrArg Contents.memories h
  have ho : t.hostOps = s.hostOps := congrArg Contents.hostOps h
  unfold State.contents
  rw [State.putWrites_memories hm, State.putWrites_hostOps, State.putWrites_hostOps, ho]

/-! ### Poison (R400) -/

@[simp] theorem Core.markReady_bare (rid : Nat) : (k.markReady rid).bare = k.bare := by
  unfold Core.markReady
  split <;> rfl

@[simp] theorem Core.markReadyWhere_bare (test : CueRec → Bool) : (k.markReadyWhere test).bare = k.bare :=
  foldl_keeps (g := Core.bare) (fun _ _ => Core.markReady_bare _) k

theorem Core.modTroupe_bare {f : Troupe → Troupe} (hf : ∀ t, (f t).bare = t.bare) : (k.modTroupe b i f).bare = k.bare := by
  unfold Core.bare Core.modTroupe
  rw [List.map_map]
  refine List.map_congr_left fun t _ => ?_
  simp only [Function.comp]
  split
  · exact hf t
  · rfl

@[simp] theorem Core.deliverDeferred_bare : (k.deliverDeferred b i).bare = k.bare := by
  unfold Core.deliverDeferred
  split
  · rfl
  · exact Core.modTroupe_bare fun _ => rfl

@[simp] theorem Core.wakeFor_bare (sec : Nat) : (k.wakeFor sec).bare = k.bare := by
  unfold Core.wakeFor Core.wakeDeferred
  split
  · rfl
  · rw [Core.markReadyWhere_bare, foldl_keeps (g := Core.bare) (fun _ _ => Core.deliverDeferred_bare), Core.markReadyWhere_bare]

@[simp] theorem State.replayCore_bare (sec : Nat) : (s.replayCore c sec k).bare = k.bare := by
  unfold State.replayCore Core.bare
  rw [List.map_map]
  rfl

theorem State.map_mapIdx_cores {α : Type} (g : Core → α) {f : Nat → Core → Core} (hf : ∀ n k, g (f n k) = g k) :
    (s.cores.mapIdx f).map g = s.cores.map g :=
  List.ext_getElem (by simp) fun n h1 h2 => by simp [hf]

/-- Waking a sector replays deferred accesses and wakes records: no memory changes, and no troupe but for what is deferred. -/
theorem State.wakeSector_keeps (sec : Nat) :
    ((s.wakeSector sec).contents, (s.wakeSector sec).paths.troupes) = (s.contents, s.paths.troupes) := by
  simp only [State.wakeSector, State.contents, State.memories, State.paths, Prod.mk.injEq, Contents.mk.injEq, Memories.mk.injEq,
    true_and, and_true]
  exact ⟨State.map_mapIdx_cores _ fun n k => by simp, State.map_mapIdx_cores _ fun n k => by simp⟩

theorem State.clearPoison_keeps (as : List Nat) :
    ((s.clearPoison as).contents, (s.clearPoison as).paths.troupes) = (s.contents, s.paths.troupes) := by
  unfold State.clearPoison
  split
  · rfl
  · exact foldl_keeps (g := fun s => (State.contents s, (State.paths s).troupes)) (fun _ _ => State.wakeSector_keeps _) s

/-- Addresses outside the poisoned sectors clear no poison. -/
theorem State.clearPoison_clean {as : List Nat} (h : ∀ a ∈ as, sectorOf a ∉ s.poison) : s.clearPoison as = s := by
  unfold State.clearPoison
  split
  · rfl
  · rw [List.filter_eq_nil_iff.mpr]
    · rfl
    · intro sec hsec
      obtain ⟨a, ha, rfl⟩ := List.mem_map.mp (List.mem_eraseDups.mp hsec)
      simp [h a ha]

@[simp] theorem State.dropReleases_aside (as : List Nat) : (s.dropReleases as).aside = s.aside := by
  unfold State.dropReleases
  split <;> rfl

/-! ### Stores and updates -/

/-- Performed writes: what they leave in the memories, and the troupes as they were. -/
theorem State.performWrites_keeps :
    (s.performWrites ws).contents = (ws.foldl State.putWrite s).contents ∧ (s.performWrites ws).paths.troupes = s.paths.troupes := by
  have h := (State.clearPoison_keeps (s := ws.foldl State.putWrite s) (dramAddrs ws))
  rw [Prod.mk.injEq] at h
  have hd := State.dropReleases_aside (s := (ws.foldl State.putWrite s).clearPoison (dramAddrs ws)) (dramAddrs ws)
  exact ⟨(contents_of_aside hd).trans h.1,
    (congrArg Paths.troupes (paths_of_aside hd)).trans (h.2.trans (congrArg Paths.troupes State.putWrites_paths))⟩

/-- Writes outside the poisoned sectors leave the paths alone. -/
theorem State.performWrites_clean (h : ∀ a ∈ dramAddrs ws, sectorOf a ∉ s.poison) : (s.performWrites ws).paths = s.paths := by
  unfold State.performWrites
  have hp : (ws.foldl State.putWrite s).poison = s.poison := congrArg Paths.poison State.putWrites_paths
  rw [State.clearPoison_clean (hp ▸ h), paths_of_aside (State.dropReleases_aside _), State.putWrites_paths]

/-- The stores of an instruction perform. -/
theorem State.writeAll_uncontested (hs : Uncontested s) :
    ∃ t, s.writeAll c ws = (t, none) ∧ t.contents = (ws.foldl State.putWrite s).contents ∧ t.paths.troupes = s.paths.troupes := by
  obtain ⟨h1, h2⟩ := State.matchEvents_passes (c := c) (bySector ws) hs
  unfold State.writeAll
  dsimp only
  generalize s.matchEvents c (bySector ws) = r at h1 h2
  obtain ⟨u, x⟩ := r
  simp only at h1 h2
  subst h1
  obtain ⟨h3, h4⟩ := State.performWrites_keeps (s := u) (ws := ws)
  exact ⟨_, rfl, h3.trans (State.putWrites_contents (contents_of_aside h2)),
    h4.trans (congrArg Paths.troupes (paths_of_aside h2))⟩

/-- The updates of an instruction perform. -/
theorem State.updateAll_uncontested (hs : Uncontested s) (hp : ∀ a ∈ dramAddrs ws, sectorOf a ∉ s.poison) :
    ∃ t, s.updateAll c ws = (t, none) ∧ t.contents = (ws.foldl State.putWrite s).contents ∧ t.paths = s.paths := by
  obtain ⟨h1, h2⟩ := State.matchEvents_passes (c := c) (bySector ws) hs
  unfold State.updateAll
  generalize s.matchEvents c (bySector ws) = r at h1 h2
  obtain ⟨u, x⟩ := r
  simp only at h1 h2
  subst h1
  have hu : u.poison = s.poison := congrArg Paths.poison (paths_of_aside h2)
  exact ⟨_, rfl, State.performWrites_keeps.1.trans (State.putWrites_contents (contents_of_aside h2)),
    (State.performWrites_clean (hu ▸ hp)).trans (paths_of_aside h2)⟩

end Sys2Proof.Machine
end

section
/-!
Room for a departure (R120, R125, R126): whether it fits depends on the sizes and places of the records and frames alone,
so that an access which leaves the paths alone leaves room as it found it.
-/
namespace Sys2Proof.Machine
open Sys2Proof.Claims

/-! ### What the room check sees -/

structure RecordView where
  rid : Nat
  prio : Nat
  size : Nat
  spilled : Bool
  wingsAt : Nat

structure FrameView where
  blk : Nat
  idx : Nat
  framed : Bool
  spilled : Bool
  wingsAt : Nat

structure StoreView where
  records : List RecordView
  frames : List FrameView
  wingsSize : Nat

def Core.viewRecord (k : Core) (r : CueRec) : RecordView :=
  { rid := r.rid, prio := r.prio, size := k.sizeOf r, spilled := r.spilled, wingsAt := r.wingsAt }

def Troupe.view (t : Troupe) : FrameView :=
  { blk := t.blk, idx := t.idx, framed := t.framed, spilled := t.frameSpilled, wingsAt := t.frameAt }

/-- Sizes and places of the records and frames of a core. -/
def Core.view (k : Core) : StoreView :=
  { records := k.cue.map k.viewRecord, frames := k.troupes.map Troupe.view, wingsSize := k.wingsSize }

section
variable {k l : Core} {n need a : Nat}

/-- A list's part that a view of its members picks. -/
theorem map_filter_view {α β γ : Type} (v : α → β) (q : β → Bool) (g : β → γ) (xs : List α) :
    (xs.filter fun x => q (v x)).map (fun x => g (v x)) = ((xs.map v).filter q).map g := by
  rw [List.filter_map, List.map_map]
  rfl

theorem Core.cueUsed_view : k.cueUsed =
    ((k.view.records.filter fun r => !r.spilled).map fun r => r.size / 64).foldl (· + ·) 0 +
      (k.view.frames.filter fun t => t.framed && !t.spilled).length * (frameSize / 64) := by
  have h := map_filter_view Troupe.view (fun t => t.framed && !t.spilled) id k.troupes
  have hl := congrArg List.length h
  simp only [List.length_map] at hl
  unfold Core.cueUsed
  rw [show k.view.frames = k.troupes.map Troupe.view from rfl, ← hl,
    show k.view.records = k.cue.map k.viewRecord from rfl, ← map_filter_view]
  rfl

theorem Core.wingsSpans_view : k.wingsSpans =
    ((k.view.records.filter fun r => r.spilled).map fun r => ({ lo := r.wingsAt, hi := r.wingsAt + r.size } : Span)) ++
      (k.view.frames.filter fun t => t.framed && t.spilled).map fun t => { lo := t.wingsAt, hi := t.wingsAt + frameSize } := by
  unfold Core.wingsSpans
  rw [show k.view.frames = k.troupes.map Troupe.view from rfl, show k.view.records = k.cue.map k.viewRecord from rfl,
    ← map_filter_view, ← map_filter_view]
  rfl

theorem Core.cueUsed_congr (h : l.view = k.view) : l.cueUsed = k.cueUsed := by
  rw [Core.cueUsed_view, Core.cueUsed_view, h]

theorem Core.wingsGap_congr (h : l.view = k.view) : l.wingsGap n = k.wingsGap n := by
  have hw : l.wingsSize = k.wingsSize := congrArg StoreView.wingsSize h
  unfold Core.wingsGap
  rw [Core.wingsSpans_view, Core.wingsSpans_view, h, hw]

/-- The record to spill next is found by its view. -/
def RecordView.better (best : Option RecordView) (r : RecordView) : Option RecordView :=
  match best with
  | none => some r
  | some b => if b.prio < r.prio || (r.prio == b.prio && b.rid < r.rid) then some r else some b

theorem Core.spillCandidate_view : (k.spillCandidate fun _ => true).map k.viewRecord =
    (k.view.records.filter fun r => !r.spilled).foldl RecordView.better none := by
  unfold Core.spillCandidate
  rw [show k.view.records = k.cue.map k.viewRecord from rfl, List.filter_map, List.foldl_map]
  have hf : (k.cue.filter fun r => !r.spilled && true) = k.cue.filter ((fun r : RecordView => !r.spilled) ∘ k.viewRecord) := by
    refine List.filter_congr fun r _ => ?_
    simp [Core.viewRecord]
  rw [hf]
  refine (List.foldl_hom (Option.map k.viewRecord) fun best r => ?_).symm
  cases best with
  | none => rfl
  | some b => exact (apply_ite (Option.map k.viewRecord) (spillBefore r b = true) (some r) (some b)).symm

/-! ### Spilling -/

/-- A record, and a frame, of a view goes to an offset of the wings area. -/
def StoreView.spillAt (v : StoreView) (rid a : Nat) : StoreView :=
  { v with records := v.records.map fun x => if x.rid == rid then { x with spilled := true, wingsAt := a } else x }

def StoreView.spillFrameAt (v : StoreView) (blk idx a : Nat) : StoreView :=
  { v with frames := v.frames.map fun x => if x.blk == blk && x.idx == idx then { x with spilled := true, wingsAt := a } else x }

theorem Core.view_spillAt (r : CueRec) : (k.spillAt r a).view = k.view.spillAt r.rid a := by
  unfold Core.view StoreView.spillAt Core.spillAt
  simp only [List.map_map, StoreView.mk.injEq, and_true]
  exact List.map_congr_left fun x _ => apply_ite k.viewRecord _ _ _

theorem Core.view_spillFrameAt (t : Troupe) : (k.spillFrameAt t a).view = k.view.spillFrameAt t.blk t.idx a := by
  unfold Core.view StoreView.spillFrameAt Core.spillFrameAt Core.modTroupe
  simp only [List.map_map, StoreView.mk.injEq, and_true]
  exact ⟨rfl, List.map_congr_left fun x _ => apply_ite Troupe.view _ _ _⟩

theorem Core.spillCandidate_congr (h : l.view = k.view) :
    (l.spillCandidate fun _ => true).map l.viewRecord = (k.spillCandidate fun _ => true).map k.viewRecord := by
  rw [Core.spillCandidate_view, Core.spillCandidate_view, h]

theorem Core.nextFrame_congr (h : l.view = k.view) :
    (l.troupes.find? fun t => t.framed && !t.frameSpilled).map Troupe.view =
      (k.troupes.find? fun t => t.framed && !t.frameSpilled).map Troupe.view := by
  have e : ∀ k : Core, (k.troupes.find? fun t => t.framed && !t.frameSpilled).map Troupe.view =
      k.view.frames.find? fun t => t.framed && !t.spilled := fun k => by
    rw [show k.view.frames = k.troupes.map Troupe.view from rfl, List.find?_map]
    rfl
  rw [e, e, h]

/-- Whether room can be made depends on the view alone. -/
theorem Core.makeRoom_congr (h : l.view = k.view) :
    (Core.makeRoom n l (fun _ => true) need).isSome = (Core.makeRoom n k (fun _ => true) need).isSome := by
  induction n generalizing k l with
  | zero =>
    unfold Core.makeRoom
    rw [Core.cueUsed_congr h]
    split <;> rfl
  | succ n ih =>
    unfold Core.makeRoom
    rw [Core.cueUsed_congr h]
    split
    · rfl
    · have hc := Core.spillCandidate_congr h
      cases hr : l.spillCandidate fun _ => true <;> cases hq : k.spillCandidate fun _ => true <;>
        simp only [hr, hq, Option.map_none, Option.map_some, reduceCtorEq, Option.some.injEq] at hc ⊢
      case none.none =>
        have hf := Core.nextFrame_congr h
        cases ht : l.troupes.find? fun t => t.framed && !t.frameSpilled <;>
          cases hu : k.troupes.find? fun t => t.framed && !t.frameSpilled <;>
          simp only [ht, hu, Option.map_none, Option.map_some, reduceCtorEq, Option.some.injEq] at hf ⊢
        case some.some t u =>
          rw [Core.wingsGap_congr h]
          split
          · refine ih ?_
            rw [Core.view_spillFrameAt, Core.view_spillFrameAt, h, show t.blk = u.blk from congrArg FrameView.blk hf,
              show t.idx = u.idx from congrArg FrameView.idx hf]
          · rfl
      case some.some r q =>
        rw [Core.wingsGap_congr h, show l.sizeOf r = k.sizeOf q from congrArg RecordView.size hc]
        split
        · refine ih ?_
          rw [Core.view_spillAt, Core.view_spillAt, h, show r.rid = q.rid from congrArg RecordView.rid hc]
        · rfl

theorem Core.fitCue_congr (h : l.view = k.view) : l.fitCue.isSome = k.fitCue.isSome := by
  have hr : l.cue.length = k.cue.length := by simpa [Core.view] using congrArg (·.records.length) h
  have ht : l.troupes.length = k.troupes.length := by simpa [Core.view] using congrArg (·.frames.length) h
  unfold Core.fitCue
  rw [hr, ht]
  exact Core.makeRoom_congr h

end

end Sys2Proof.Machine
end

section
/-!
A departure after an access: it fits where it would have fitted before the access, whatever values its record takes.
-/
namespace Sys2Proof.Machine
open Sys2Proof.Claims

/-! ### Sizes of records -/

/-- Names with one more, unless it is there. -/
def withName (ns : List Nat) (n : Nat) : List Nat := if n ∈ ns then ns else ns ++ [n]

theorem putRegs_names (rs : List RegData) (m : Mask) (d : RegData) :
    (putRegs rs m d).map (·.reg) = withName (rs.map (·.reg)) d.reg := by
  unfold putRegs withName
  have hmem : d.reg ∈ rs.map (·.reg) ↔ (rs.find? fun x => x.reg == d.reg).isSome = true := by
    simp [List.find?_isSome]
  cases hf : rs.find? fun x => x.reg == d.reg with
  | none => rw [if_neg (by simp [hmem, hf]), List.map_append]; rfl
  | some x =>
    rw [if_pos (by simp [hmem, hf]), List.map_map]
    refine List.map_congr_left fun y _ => ?_
    simp only [Function.comp]
    split <;> rfl

/-- The registers of a record with its data among them: by name. -/
theorem CueRec.absorb_names (r : CueRec) :
    r.absorb.regs.map (·.reg) = (r.data.map (·.reg)).foldl withName (r.regs.map (·.reg)) := by
  rw [List.foldl_map]
  exact (List.foldl_hom (List.map (·.reg)) (g₁ := fun rs d => putRegs rs r.mask d) (g₂ := fun ns d => withName ns d.reg)
    fun rs d => (putRegs_names rs r.mask d).symm).symm

/-- A record but for the values that its size does not depend on. -/
def CueRec.outline (r : CueRec) : CueRec × List Nat × List Nat :=
  ({ r with regs := [], data := [], lanes := [], peer := false, since := 0 }, r.regs.map (·.reg), r.data.map (·.reg))

theorem CueRec.outline_keeps {α : Type} (g : CueRec → α) (hg : ∀ r, g r.outline.1 = g r) {r q : CueRec}
    (h : q.outline = r.outline) : g q = g r :=
  (hg q).symm.trans ((congrArg (fun x => g x.1) h).trans (hg r))

theorem Core.viewRecord_congr {k l : Core} {r q : CueRec} (hk : l.room = k.room) (h : q.outline = r.outline) :
    l.viewRecord q = k.viewRecord r := by
  have keeps {α : Type} (g : CueRec → α) (hg : ∀ r, g r.outline.1 = g r) : g q = g r := CueRec.outline_keeps g hg h
  have hn : q.absorb.regs.length = r.absorb.regs.length := by
    have := congrArg List.length ((CueRec.absorb_names q).trans
      (((congrArg (fun x => x.2.2.foldl withName x.2.1) h)).trans (CueRec.absorb_names r).symm))
    simpa using this
  have hb : (l.block q.blk).map (·.regs) = (k.block r.blk).map (·.regs) := by
    rw [keeps (·.blk) fun _ => rfl]
    have e : ∀ k : Core, (k.block r.blk).map (·.regs) = k.room.regs.getD r.blk none := fun k => by
      simp only [Core.block, Core.room, List.getD_eq_getElem?_getD, List.getElem?_map]
      cases k.blocks[r.blk]? <;> rfl
    rw [e, e, hk]
  unfold Core.viewRecord Core.sizeOf
  rw [hb, hn, keeps (·.rid) fun _ => rfl, keeps (·.prio) fun _ => rfl, keeps (·.mask) fun _ => rfl,
    keeps (·.uresult) fun _ => rfl, keeps (·.spilled) fun _ => rfl, keeps (·.wingsAt) fun _ => rfl]

/-! ### The core that a departure leaves -/

theorem Troupe.view_bare (t : Troupe) : t.bare.view = t.view := by
  unfold Troupe.view Troupe.framed Troupe.bare
  simp only [List.any_map]
  rfl

/-- Lanes with those of a mask out of residency. -/
def departedLanes (m : Mask) (ls : List Lane) : List Lane :=
  ls.mapIdx fun l x => if m.has l then { x with place := .departed, stopped := false } else x

def anyResident (ls : List Lane) : Bool := ls.any fun l => l.place == .resident

theorem departedLanes_unscoped (m : Mask) (ls : List Lane) :
    (departedLanes m (ls.map Lane.unscoped)).map Lane.unscoped = (departedLanes m ls).map Lane.unscoped := by
  unfold departedLanes
  refine List.ext_getElem (by simp) fun l h1 h2 => ?_
  simp only [List.getElem_map, List.getElem_mapIdx]
  split <;> rfl

theorem anyResident_unscoped (ls : List Lane) : anyResident (ls.map Lane.unscoped) = anyResident ls := by
  unfold anyResident
  rw [List.any_map]
  rfl

theorem Troupe.leave_bare (t : Troupe) (m : Mask) : (t.bare.leave m).bare = (t.leave m).bare := by
  have e : ∀ t : Troupe, (t.leave m).bare =
      { t with deferred := [], lanes := (departedLanes m t.lanes).map Lane.unscoped, sib := t.sib + 1
               slot := if anyResident (departedLanes m t.lanes) then t.slot else none } := fun _ => rfl
  have hl : t.bare.lanes = t.lanes.map Lane.unscoped := rfl
  have ha : anyResident (departedLanes m t.bare.lanes) = anyResident (departedLanes m t.lanes) := by
    rw [← anyResident_unscoped, hl, departedLanes_unscoped, anyResident_unscoped]
  rw [e, e, ha, hl, departedLanes_unscoped]
  rfl

theorem Core.leave_bare {k l : Core} {b i : Nat} {m : Mask} (h : l.bare = k.bare) :
    (l.modTroupe b i fun t => t.leave m).bare = (k.modTroupe b i fun t => t.leave m).bare := by
  have e : ∀ k : Core, (k.modTroupe b i fun t => t.leave m).bare =
      k.bare.map fun t => if t.blk == b && t.idx == i then (t.leave m).bare else t := fun k => by
    unfold Core.modTroupe Core.bare
    rw [List.map_map, List.map_map]
    refine List.map_congr_left fun t _ => ?_
    refine (apply_ite Troupe.bare _ _ _).trans ?_
    simp only [Function.comp, Troupe.leave_bare]
    rfl
  rw [e, e, h]

/-- The core with a record added and its lanes gone. -/
def Core.departed (k : Core) (b i : Nat) (m : Mask) (r : CueRec) : Core :=
  { (k.modTroupe b i fun t => t.leave m) with cue := k.cue ++ [r] }

/-- The sizes and places of records and frames, from the room and the bare troupes. -/
theorem Core.view_congr {k l : Core} (hr : l.room = k.room) (hb : l.bare = k.bare) : l.view = k.view := by
  have hw : l.wingsSize = k.wingsSize := congrArg Room.wingsSize hr
  have hq : l.cue = k.cue := congrArg Room.cue hr
  have hrecs : l.cue.map l.viewRecord = k.cue.map k.viewRecord :=
    hq ▸ List.map_congr_left fun x _ => Core.viewRecord_congr hr rfl
  have e : ∀ k : Core, k.troupes.map Troupe.view = k.bare.map Troupe.view := fun k => by
    unfold Core.bare
    rw [List.map_map]
    exact List.map_congr_left fun t _ => (Troupe.view_bare t).symm
  unfold Core.view
  rw [hrecs, e, e, hb, hw]

theorem Core.departed_view {k l : Core} {b i : Nat} {m : Mask} {r q : CueRec} (hr : l.room = k.room) (hb : l.bare = k.bare)
    (h : q.outline = r.outline) : (l.departed b i m q).view = (k.departed b i m r).view := by
  have hrecs := congrArg StoreView.records (Core.view_congr hr hb)
  have hframes := congrArg StoreView.frames (Core.view_congr (k := k.modTroupe b i fun t => t.leave m)
    (l := l.modTroupe b i fun t => t.leave m) hr (Core.leave_bare hb))
  have hw : l.wingsSize = k.wingsSize := congrArg Room.wingsSize hr
  have e : (l.cue ++ [q]).map l.viewRecord = (k.cue ++ [r]).map k.viewRecord := by
    rw [List.map_append, List.map_append, show l.cue.map l.viewRecord = k.cue.map k.viewRecord from hrecs,
      List.map_singleton, List.map_singleton, Core.viewRecord_congr hr h]
  calc (l.departed b i m q).view
      = ⟨(l.cue ++ [q]).map l.viewRecord, (l.modTroupe b i fun t => t.leave m).view.frames, l.wingsSize⟩ := rfl
    _ = ⟨(k.cue ++ [r]).map k.viewRecord, (k.modTroupe b i fun t => t.leave m).view.frames, k.wingsSize⟩ := by rw [e, hframes, hw]

section
variable {s t : State} {p : Path} {key : Key} {resume : DWord} {kind : Nat} {fill fill' : CueRec → CueRec} {u : Troupe}

/-- A troupe that is found stands in a core that is there. -/
theorem State.inRange_of_troupe {c b i : Nat} (hu : (s.core c).troupe b i = some u) : c < s.cores.length := by
  by_contra hc
  have : s.core c = Core.reset := by
    simp [State.core, List.getD_eq_getElem?_getD, List.getElem?_eq_none (Nat.le_of_not_lt hc)]
  rw [this] at hu
  cases hu

/-- A departure passes just where the cue store fits after its record has been written. -/
theorem State.depart_isOk : (∃ v, s.depart p key resume kind fill = .ok v) ↔
    ((s.writeRecord p.core p.blk p.at_.troupe p.at_.lanes fun t rid =>
      fill (t.toRecord rid p.at_.lanes key resume kind 0)).core p.core).fitCue.isSome = true := by
  unfold State.depart State.settleCue
  dsimp only
  cases Core.fitCue _ <;> simp

/-- The record that a departure writes has the same outline in a troupe that is bare the same. -/
theorem Troupe.toRecord_outline {v : Troupe} (hb : v.bare = u.bare) (rid : Nat) (m : Mask) :
    (v.toRecord rid m key resume kind 0).outline = (u.toRecord rid m key resume kind 0).outline :=
  eq_of_bare (fun t => ({ t.toRecord rid m key resume kind 0 with lanes := [] } : CueRec).outline) (fun _ => rfl) hb

/-- A departure fits in a state with the same paths, whatever else its record takes. -/
theorem State.depart_of_paths (h : t.paths = s.paths)
    (hf : ∀ r q : CueRec, q.outline = r.outline → (fill' q).outline = (fill r).outline)
    (hd : ∃ v, s.depart p key resume kind fill = .ok v) : ∃ v, t.depart p key resume kind fill' = .ok v := by
  have hroom := State.core_view Core.room (congrArg Paths.rooms h) p.core
  have hbare := State.core_view Core.bare (congrArg Paths.troupes h) p.core
  rw [State.depart_isOk] at hd ⊢
  rw [← hd]
  refine Core.fitCue_congr ?_
  cases hu : (s.core p.core).troupe p.blk p.at_.troupe with
  | some u =>
    obtain ⟨v, hv, hb⟩ := troupe_of_paths (congrArg Paths.troupes h) hu
    rw [State.writeRecord_core _ _ (State.inRange_of_troupe hu) hu, State.writeRecord_core _ _ (State.inRange_of_troupe hv) hv,
      show t.nextId = s.nextId from congrArg Paths.nextId h]
    exact Core.departed_view hroom hbare (hf _ _ (Troupe.toRecord_outline hb _ _))
  | none =>
    have hv : (t.core p.core).troupe p.blk p.at_.troupe = none := by
      cases hv : (t.core p.core).troupe p.blk p.at_.troupe with
      | none => rfl
      | some v =>
        obtain ⟨u, hu', -⟩ := troupe_of_paths (congrArg Paths.troupes h).symm hv
        cases hu.symm.trans hu'
    simp only [State.writeRecord, hu, hv]
    exact Core.view_congr hroom hbare

end

end Sys2Proof.Machine
end

section
/-!
ST (R250): its accesses have translations, so that each piece is one global write, and the pieces' bytes are what changes.
-/
namespace Sys2Proof.Machine
open Sys2Proof.Claims

/-! ### Operands of loads and stores -/

section
variable {s : State} {p : Path} {f : MForm} {x : Operand} {am : Nat}

/-- A source that has been read has passed its checks (R117). -/
theorem State.checkOperand_of_read1 {a pa : Nat} {acc : Tag → Bool} (h : s.read1 p a pa acc = .ok x) :
    s.checkOperand p 0 a acc = .ok () := by
  obtain ⟨_, h, -⟩ := Exe.of_bind_ok h
  obtain ⟨_, h, -⟩ := Exe.of_bind_ok h
  obtain ⟨_, h, -⟩ := Exe.of_bind_ok h
  exact h

theorem State.memChecks_of_memIndex (h : s.memIndex p f am = .ok x) : s.memChecks p f am = .ok () := by
  unfold State.memIndex at h
  unfold State.memChecks
  split at h
  · next hi => rw [if_pos hi]; exact State.checkOperand_of_read1 h
  · next hi => rw [if_neg hi]

theorem Troupe.storeValue_pair (t : Troupe) (a b : Nat × Tag) (l : Nat) :
    t.storeValue [a, b] l = ((t.reg a.1).at l).toNat + ((t.reg b.1).at l).toNat * 2 ^ 32 := by
  unfold Troupe.storeValue
  rw [List.mapIdx_cons, List.mapIdx_cons, List.mapIdx_nil, List.foldl_cons, List.foldl_cons, List.foldl_nil, Nat.mul_zero,
    Nat.pow_zero, Nat.mul_one, Nat.zero_add]

theorem Troupe.storeValue_single (t : Troupe) (a : Nat × Tag) (l : Nat) : t.storeValue [a] l = ((t.reg a.1).at l).toNat := by
  unfold Troupe.storeValue
  rw [List.mapIdx_cons, List.mapIdx_nil, List.foldl_cons, List.foldl_nil, Nat.mul_zero, Nat.pow_zero, Nat.mul_one, Nat.zero_add]

/-- The value of a lane's data registers: a pair for the 8-byte kinds, one register else (R241). -/
theorem State.storeValue_eq (l : Nat) :
    (s.troupe p).storeValue (kindRegs (MForm.kind f) f.d.toNat) l = storedValue s p f l := by
  unfold storedValue kindRegs MForm.kind
  dsimp only
  by_cases h : f.sub.toNat % 16 = 13 ∨ f.sub.toNat % 16 = 14
  · have hb : (decide (f.sub.toNat % 16 = 13) || decide (f.sub.toNat % 16 = 14)) = true := by simpa using h
    rw [if_pos hb, if_pos h, Troupe.storeValue_pair]
  · have hb : ¬(decide (f.sub.toNat % 16 = 13) || decide (f.sub.toNat % 16 = 14)) = true := by simpa using h
    rw [if_neg hb, if_neg h, Troupe.storeValue_single, Nat.add_zero]

end

/-! ### Stores of translated pieces -/

section
variable {s : State} {p : Path} {c : Nat} {hs : List Hit} {v : Nat → Nat} {ord : Nat} {ps : List (Hit × List Byte)}

/-- Bytes stored at pieces, one after the other. -/
def State.storeAll (s : State) (c : Nat) (ps : List (Hit × List Byte)) : State :=
  ps.foldl (fun s x => s.storeAt c x.1 x.2) s

/-- The global writes of pieces with translations. -/
def writesOf (ps : List (Hit × List Byte)) (ord : Nat) : List GWrite :=
  ps.filterMap fun x => x.1.x.map fun t => { x := t, va := x.1.va, bytes := x.2, ord := ord }

/-- Writes of translated pieces store the pieces' bytes. -/
theorem putWrites_writesOf (hx : ∀ x ∈ ps, x.1.x.isSome = true) : (writesOf ps ord).foldl State.putWrite s = s.storeAll c ps := by
  unfold writesOf State.storeAll
  rw [List.foldl_filterMap]
  refine List.foldl_ext _ _ _ fun s x hm => ?_
  obtain ⟨t, ht⟩ := Option.isSome_iff_exists.mp (hx x hm)
  simp only [ht, Option.map_some, State.putWrite, State.storeAt]

theorem pieceBytes_mem {k : Hit} {bs : List Byte} (h : (k, bs) ∈ pieceBytes hs v) : k ∈ hs ∧ bs.length = k.size := by
  obtain ⟨g, hg, e⟩ := List.mem_map.mp h
  obtain ⟨rfl, rfl⟩ := Prod.mk.inj e
  exact ⟨hg, natToBytes_length _ _⟩

/-- The bytes of a piece are the same wherever it stands. -/
theorem pieceBytes_unique {k : Hit} {bs bs' : List Byte} (h : (k, bs) ∈ pieceBytes hs v) (h' : (k, bs') ∈ pieceBytes hs v) :
    bs = bs' := by
  obtain ⟨g, -, e⟩ := List.mem_map.mp h
  obtain ⟨g', -, e'⟩ := List.mem_map.mp h'
  obtain ⟨rfl, rfl⟩ := Prod.mk.inj e
  obtain ⟨rfl, rfl⟩ := Prod.mk.inj e'
  rfl

/-- A piece apart from all that is stored keeps its bytes. -/
theorem State.hitBytes_storeAll_apart {g : Hit} (hs : Canonical s c) (hp : ∀ x ∈ ps, Placed s c x.1)
    (hn : ∀ x ∈ ps, x.2.length = x.1.size) (hg : ∀ x ∈ ps, apart g x.1) : (s.storeAll c ps).hitBytes c g = s.hitBytes c g := by
  induction ps generalizing s with
  | nil => rfl
  | cons x ps ih =>
    obtain ⟨hx, hp⟩ := List.forall_mem_cons.mp hp
    obtain ⟨hl, hn⟩ := List.forall_mem_cons.mp hn
    obtain ⟨ha, hg⟩ := List.forall_mem_cons.mp hg
    exact (ih (hs.storeAt hx) (fun y hy => (hp y hy).storeAt) hn hg).trans (State.hitBytes_storeAt_apart hs hx hl ha)

/-- A piece that holds its bytes, or is to be stored, holds them in the end, where every other piece is apart from it. -/
theorem State.hitBytes_storeAll_same {k : Hit} {bs : List Byte} (hs : Canonical s c) (hp : ∀ x ∈ ps, Placed s c x.1)
    (hn : ∀ x ∈ ps, x.2.length = x.1.size) (hk : ∀ x ∈ ps, x = (k, bs) ∨ apart k x.1)
    (h : s.hitBytes c k = bs ∨ (k, bs) ∈ ps) : (s.storeAll c ps).hitBytes c k = bs := by
  induction ps generalizing s with
  | nil => exact h.resolve_right List.not_mem_nil
  | cons x ps ih =>
    obtain ⟨hx, hp⟩ := List.forall_mem_cons.mp hp
    obtain ⟨hl, hn⟩ := List.forall_mem_cons.mp hn
    obtain ⟨hkx, hk⟩ := List.forall_mem_cons.mp hk
    refine ih (hs.storeAt hx) (fun y hy => (hp y hy).storeAt) hn hk ?_
    rcases hkx with rfl | ha
    · exact .inl (State.hitBytes_storeAt_same hs hx hl)
    · rcases h with h | h
      · exact .inl ((State.hitBytes_storeAt_apart hs hx hl ha).trans h)
      · rcases List.mem_cons.mp h with rfl | h
        · exact .inl (State.hitBytes_storeAt_same hs hx hl)
        · exact .inr h

/-- What the comparator's outcome makes of an instruction (R391). -/
def matched : State × Option Nat → Exe State
  | (s, none) => .ok s
  | (s, some va) => .error (.mismatch (BitVec.ofNat 64 va) s)

/-- A piece's bytes go to the window at once; those of a translated piece are a global write of their own. -/
def State.storeLocal (c : Nat) (s : State) (x : Hit × List Byte) : State :=
  match x.1.x with
  | some _ => s
  | none => (s.noteRace c x.1.va x.2.length).modCore c fun k => { k with mem := k.mem.writeBytes x.1.va x.2 }

theorem State.storeHits_eq : s.storeHits p hs v ord =
    matched (((pieceBytes hs v).foldl (State.storeLocal p.core) ((s.keepDeferred p hs).noteStores p hs)).writeAll p.core
      (writesOf (pieceBytes hs v) ord)) := by
  unfold State.storeHits matched
  rfl

theorem State.storeLocal_translated (hx : ∀ x ∈ ps, x.1.x.isSome = true) : ps.foldl (State.storeLocal c) s = s := by
  refine List.foldlRecOn (motive := fun t => t = s) _ _ rfl fun t ht x hm => ?_
  obtain ⟨y, hy⟩ := Option.isSome_iff_exists.mp (hx x hm)
  simp only [State.storeLocal, hy, ht]

/-- A store whose pieces have translations performs them all, and leaves the troupes but for what they defer. -/
theorem State.storeHits_translated {r : State} (hx : ∀ h ∈ hs, h.x.isSome = true) (hu : Uncontested s)
    (hr : s.memories = r.memories) :
    ∃ t, s.storeHits p hs v ord = .ok t ∧ t.memories = (r.storeAll p.core (pieceBytes hs v)).memories ∧
      t.paths.troupes = s.paths.troupes := by
  have hb : ∀ x ∈ pieceBytes hs v, x.1.x.isSome = true := fun x hm => hx _ (pieceBytes_mem (k := x.1) (bs := x.2) hm).1
  have ha : ((s.keepDeferred p hs).noteStores p hs).aside = s.aside := by simp
  obtain ⟨t, hw, hc, ht⟩ := State.writeAll_uncontested (c := p.core) (ws := writesOf (pieceBytes hs v) ord)
    (Uncontested.of_paths (paths_of_aside ha) hu)
  refine ⟨t, ?_, ?_, ht.trans (congrArg Paths.troupes (paths_of_aside ha))⟩
  · rw [State.storeHits_eq, State.storeLocal_translated hb, hw]
    rfl
  · exact (congrArg Contents.memories hc).trans
      ((State.putWrites_memories ((memories_of_aside ha).trans hr)).trans (congrArg State.memories (putWrites_writesOf hb)))

end

/-! ### The obligation -/

section
variable {s s1 s2 : State} {h : Head} {f : MForm} {p : Path} {x : Operand} {hs : List Hit}

/-- ST and STL are their stores, with the ports popped and the scopes touched before, and releases marked after (R250). -/
theorem storeTo_begins {i : Instr} {space : Nat → Space} {t : State} (b : Begins i h 12 s p s1 s2)
    (hi : s2.memIndex p f (MForm.mode f) = .ok x) (hd : (s2.troupe p).checkData p (MForm.kind f) f.d.toNat = .ok ())
    (ha : s2.access p (space (MForm.mode f)) (kindSize (MForm.kind f)) true false
      (s2.wants p f (MForm.mode f) (kindSize (MForm.kind f)) x) = .ok hs)
    (ht : ((s2.popPorts p (MForm.fields f (MForm.mode f))).touchHits p hs).storeHits p hs (storedValue s2 p f) f.ord.toNat = .ok t) :
    storeTo i h f space s = .next (((((t.markReleases p (isRel f.ord) hs).noteSync p (isRel f.ord)).sealRegion p
      (isRel f.ord))).logUndo p.at_ s1) := by
  have hv : (fun l => (s2.troupe p).storeValue (kindRegs (MForm.kind f) f.d.toNat) l) = storedValue s2 p f :=
    funext State.storeValue_eq
  refine runThread_ok b ?_
  simp only [State.memChecks_of_memIndex hi, hd, hi, ha, bind, Except.bind, hv, ht]

/-- Settles O25: the pieces of ST are global writes, which no comparison stops and which perform one after the other. -/
theorem globalStores : Obligations.GlobalStores := by
  unfold Obligations.GlobalStores
  intro h f s p s1 s2 x hs b am hi hd ha hq
  have hsp : spaceOf f = modeSpace (MForm.mode f) := by
    unfold spaceOf modeSpace MForm.mode
    congr 1
    simp
  have hne : spaceOf f ≠ .loc := by
    unfold spaceOf
    split <;> decide
  obtain ⟨-, hx⟩ := State.access_translated hne ha
  have ha' : ((s2.popPorts p (MForm.fields f (MForm.mode f))).touchHits p hs).aside = s2.aside := by simp
  obtain ⟨t, hst, hm, ht⟩ := State.storeHits_translated (p := p) (v := storedValue s2 p f) (ord := f.ord.toNat) hx
    (Uncontested.of_paths (paths_of_aside ha') hq.2.2) (memories_of_aside ha')
  have he : (((t.markReleases p (isRel f.ord) hs).noteSync p (isRel f.ord)).sealRegion p (isRel f.ord)).aside = t.aside := by simp
  have hm' := (memories_of_aside he).trans hm
  have hc : Canonical s2 p.core := Canonical.of_quiet hq
  have hp : ∀ y ∈ pieceBytes hs (storedValue s2 p f), Placed s2 p.core y.1 := fun y hy hn => by
    have := hx y.1 (pieceBytes_mem (bs := y.2) hy).1
    simp [hn] at this
  have hn : ∀ y ∈ pieceBytes hs (storedValue s2 p f), y.2.length = y.1.size := fun y hy => (pieceBytes_mem (k := y.1) hy).2
  refine ⟨_, storeTo_begins (space := modeSpace) b hi hd (hsp ▸ ha) hst, untouched_of_paths ?_, fun g hg => ?_, fun k bs hk hg => ?_⟩
  · exact (congrArg Paths.troupes (paths_of_aside he)).trans (ht.trans (congrArg Paths.troupes (paths_of_aside ha')))
  · rw [hitBytes_of_memories hm']
    exact State.hitBytes_storeAll_apart hc hp hn fun y hy => hg _ (pieceBytes_mem (bs := y.2) hy).1
  · rw [hitBytes_of_memories hm']
    refine State.hitBytes_storeAll_same hc hp hn (fun y hy => ?_) (.inr hk)
    refine (hg y.1 (pieceBytes_mem (bs := y.2) hy).1).imp (fun e => ?_) id
    exact Prod.ext e (pieceBytes_unique (k := k) (e ▸ hy) hk)

end

end Sys2Proof.Machine
end

section
/-!
Updates of an atomic (R91, R254, R256): each finds what its place holds and leaves there what its operation makes of it, one
after the other; those of host memory are sent.
-/
namespace Sys2Proof.Machine
open Sys2Proof.Claims

/-! ### Values fit their width (R254) -/

section
variable {op width old v cmp : Nat}

/-- The largest encoding that a result can have: an infinity with its sign. -/
def FloatFmt.top (f : FloatFmt) : Nat := f.signBit + f.infBits

section
variable {f : FloatFmt} {mode : Nat} {sat neg : Bool}

theorem FloatFmt.signed_le {mag : Nat} (h : mag ≤ f.infBits) : f.signed neg mag ≤ f.top := by
  unfold FloatFmt.signed FloatFmt.top
  split <;> omega

theorem FloatFmt.nan_le : f.nan ≤ f.top := by
  have : 2 ^ (f.p - 2) ≤ f.signBit := Nat.pow_le_pow_right (by decide) (by omega)
  unfold FloatFmt.nan FloatFmt.top
  omega

theorem FloatFmt.overflow_le : (f.overflow mode neg sat).bits ≤ f.top := by
  have h : ∀ inf : Bool, (if inf then f.infBits else f.infBits - 1) ≤ f.infBits := fun inf => by
    split
    · exact Nat.le_refl _
    · exact Nat.sub_le _ _
  unfold FloatFmt.overflow
  extract_lets inf
  split
  · exact FloatFmt.signed_le (Nat.sub_le _ _)
  · exact FloatFmt.signed_le (h _)

theorem FloatFmt.round_le {a : Approx} : (f.round mode sat neg a).bits ≤ f.top := by
  unfold FloatFmt.round
  split
  · exact FloatFmt.signed_le (Nat.zero_le _)
  · dsimp only
    split
    · exact FloatFmt.overflow_le
    · next h => exact FloatFmt.signed_le (Nat.le_of_lt (Nat.lt_of_not_le h))

/-- A sum is delivered as a NaN, an infinity or a rounded value (R201, R202). -/
theorem FloatFmt.add_le (x y : Nat) : (f.add mode sat x y).bits ≤ f.top := by
  unfold FloatFmt.add FloatFmt.addNum
  split
  · exact FloatFmt.nan_le
  · split
    · exact FloatFmt.nan_le
    · unfold FloatFmt.deliver
      split
      · exact FloatFmt.nan_le
      · exact FloatFmt.signed_le (Nat.le_refl _)
      · exact FloatFmt.round_le

end

theorem f32_add_lt (mode : Nat) (sat : Bool) (x y : Nat) : (f32.add mode sat x y).bits < 2 ^ 32 :=
  Nat.lt_of_le_of_lt (FloatFmt.add_le x y) (by decide)

/-- What an operation makes of values of a width is a value of that width. -/
theorem atomNew_lt (hw : 32 ≤ width) (ho : old < 2 ^ width) (hv : v < 2 ^ width) : atomNew op width old v cmp < 2 ^ width := by
  have hpos : 0 < 2 ^ width := Nat.two_pow_pos _
  unfold atomNew
  dsimp only
  split
  · exact Nat.mod_lt _ hpos
  · split <;> assumption
  · split <;> assumption
  · exact Nat.lt_of_le_of_lt (Nat.min_le_left _ _) ho
  · exact Nat.max_lt.mpr ⟨ho, hv⟩
  · exact Nat.and_lt_two_pow _ hv
  · exact Nat.or_lt_two_pow ho hv
  · exact Nat.xor_lt_two_pow ho hv
  · exact hv
  · split <;> assumption
  · exact Nat.lt_of_lt_of_le (f32_add_lt _ _ _ _) (Nat.pow_le_pow_right (by decide) hw)
  · split
    · exact hpos
    · exact Nat.mod_lt _ hpos

theorem foldRed_lt (hw : 32 ≤ width) {vs : List Nat} (hv : ∀ v ∈ vs, v < 2 ^ width) : foldRed op width vs < 2 ^ width := by
  cases vs with
  | nil => exact Nat.two_pow_pos _
  | cons v vs =>
    obtain ⟨hv, hvs⟩ := List.forall_mem_cons.mp hv
    exact List.foldlRecOn (motive := fun a => a < 2 ^ width) vs _ hv fun a ha b hb => atomNew_lt hw ha (hvs b hb)

end

section
variable {f : MForm}

theorem MForm.width_ge (f : MForm) : 32 ≤ MForm.width f := by
  unfold MForm.width
  split <;> decide

theorem MForm.width_bytes (f : MForm) : 256 ^ (MForm.width f / 8) = 2 ^ MForm.width f := by
  unfold MForm.width
  split <;> decide

/-- The value of a lane's data registers is one of the atomic's width (R254). -/
theorem Troupe.atomData_lt (t : Troupe) (f : MForm) (l : Nat) : (t.atomData f l).1 < 2 ^ MForm.width f := by
  have hone : ∀ n, (((t.reg n).at l).toNat) < 2 ^ 32 := fun n => BitVec.isLt _
  unfold Troupe.atomData MForm.width
  cases hw : MForm.w64 f
  · simp only [Bool.false_eq_true, if_false]
    split
    · exact hone _
    · exact hone _
  · simp only [if_true]
    split
    · have h1 := hone (f.d.toNat + 2 * 1)
      have h2 := hone (f.d.toNat + 2 * 1 + 1)
      omega
    · have h1 := hone (f.d.toNat + 2 * 0)
      have h2 := hone (f.d.toNat + 2 * 0 + 1)
      omega

end

/-! ### One update -/

/-- An update of a piece of the atomic's width, with a value of that width. -/
structure Update.Fits (f : MForm) (x : Update) : Prop where
  size : x.hit.size = MForm.width f / 8
  value : x.value < 2 ^ MForm.width f

/-- The bytes that an update leaves at its place. -/
def Update.result (f : MForm) (x : Update) (old : Nat) : List Byte :=
  natToBytes (MForm.width f / 8) (atomNew (MForm.op f) (MForm.width f) old x.value x.compare)

/-- The write that stands for an update with a translation: sent to the host, or made at the bank. -/
structure Writes (s : State) (p : Path) (f : MForm) (x : Update) (w : GWrite) : Prop where
  space : x.hit.x = some w.x
  at_ : w.va = x.hit.va
  bytes : w.bytes.length = x.hit.size
  send : w.send = if toHost x then some (sent s p f x) else none

section
variable {s t : State} {c : Nat} {p : Path} {f : MForm} {x : Update} {u : Updated}

theorem State.laneValue_single (h : Hit) : s.laneValue c [h] h.lane = held s c h := by
  unfold State.laneValue held
  simp

theorem held_of_memories (h : t.memories = s.memories) (g : Hit) : held t c g = held s c g := by
  unfold held
  rw [hitBytes_of_memories h]

theorem hitBytes_length (g : Hit) : (s.hitBytes c g).length = g.size := by
  unfold State.hitBytes State.readThrough
  split <;> exact Memory.readBytes_length

theorem Update.result_length (hx : x.Fits f) (old : Nat) : (x.result f old).length = x.hit.size :=
  (natToBytes_length _ _).trans hx.size.symm

/-- An update's place holds what its operation has made of it. -/
theorem held_storeAt (hs : Canonical s c) (hp : Placed s c x.hit) (hx : x.Fits f) :
    held (s.storeAt c x.hit (x.result f (held s c x.hit))) c x.hit =
      atomNew (MForm.op f) (MForm.width f) (held s c x.hit) x.value x.compare := by
  have ho : held s c x.hit < 2 ^ MForm.width f := by
    rw [← MForm.width_bytes, ← hx.size, ← hitBytes_length (s := s) (c := c)]
    exact bytesToNat_lt _
  unfold held at ho ⊢
  rw [State.hitBytes_storeAt_same hs hp (Update.result_length hx _)]
  unfold Update.result
  rw [bytesToNat_natToBytes, MForm.width_bytes, Nat.mod_eq_of_lt (atomNew_lt (MForm.width_ge f) ho hx.value)]

/-! ### Sequences of updates -/

/-- What follows an update that has stored its result. -/
theorem performs_cons {xs : List Update} {rest : List (Nat × Nat)} (hs : Canonical s c) (hp : Placed s c x.hit) (hx : x.Fits f)
    {m : State} (hm : m.memories = (s.storeAt c x.hit (x.result f (held s c x.hit))).memories)
    (h : Performs f c m xs rest t) : Performs f c s (x :: xs) ((x.hit.lane, held s c x.hit) :: rest) t :=
  ⟨m, rest, rfl, (held_of_memories hm _).trans (held_storeAt hs hp hx), fun g hg =>
    (hitBytes_of_memories hm g).trans (State.hitBytes_storeAt_apart hs hp (Update.result_length hx _) hg), h⟩

/-- Only what pieces hold in the end counts. -/
theorem performs_of_memories {xs : List Update} {olds : List (Nat × Nat)} {t' : State} (ht : t'.memories = t.memories)
    (h : Performs f c s xs olds t) : Performs f c s xs olds t' := by
  induction xs generalizing s olds with
  | nil => exact ⟨h.1, fun g => (hitBytes_of_memories ht g).trans (h.2 g)⟩
  | cons x xs ih =>
    obtain ⟨u, rest, ho, hv, ha, hr⟩ := h
    exact ⟨u, rest, ho, hv, ha, ih hr⟩

theorem updates_of_contents {xs : List Update} {olds : List (Nat × Nat)} {t' : State} (ht : t'.contents = t.contents)
    (h : Updates f s p xs t olds) : Updates f s p xs t' olds :=
  ⟨performs_of_memories (congrArg Contents.memories ht) h.1, (congrArg Contents.hostOps ht).trans h.2⟩

/-! ### Updates of global memory -/

/-- An update of host memory sends its AtomicOp. -/
theorem Updated.apply_host (hx : x.Fits f) (hh : toHost x = true) : ∃ w, Writes s p f x w ∧
    Updated.apply p f s.nextId u x = { u with writes := u.writes ++ [w] } := by
  obtain ⟨hit, v, cmp⟩ := x
  obtain ⟨l, va, n, _ | y⟩ := hit
  · cases hh
  · have hy : y.host = true := hh
    refine ⟨_, ⟨rfl, rfl, (natToBytes_length _ _).trans hx.size.symm, ?_⟩, if_pos hy⟩
    simp [toHost, hy, sent, MForm.op, MForm.w64]

/-- Another update with a translation performs at the bank, and its write follows the others. -/
theorem Updated.apply_device {y : Xlate} (hx : x.Fits f) (hy : x.hit.x = some y) (hh : toHost x = false) :
    ∃ w, Writes s p f x w ∧ (∀ r : State, r.putWrite w = r.storeAt p.core x.hit (x.result f (held u.work p.core x.hit))) ∧
      Updated.apply p f s.nextId u x =
        { work := u.work.putWrite w, writes := u.writes ++ [w], olds := u.olds ++ [(x.hit.lane, held u.work p.core x.hit)] } := by
  obtain ⟨hit, v, cmp⟩ := x
  obtain ⟨l, va, n, z⟩ := hit
  simp only at hy
  subst hy
  have hy : y.host = false := hh
  rw [← State.laneValue_single]
  refine ⟨_, ⟨rfl, rfl, (natToBytes_length _ _).trans hx.size.symm, ?_⟩, fun r => rfl, if_neg (by simp [hy])⟩
  simp [toHost, hy]

/-- Updates with translations, from a state of their own (`u.work`) and from one with the same memories on which their
writes perform (`r`). -/
theorem performs_of_writes {xs : List Update} {r : State} (hx : ∀ x ∈ xs, x.Fits f ∧ x.hit.x.isSome = true)
    (hc : Canonical u.work p.core) (hr : r.memories = u.work.memories) :
    ∃ ws olds, (xs.foldl (Updated.apply p f s.nextId) u).writes = u.writes ++ ws ∧
      (xs.foldl (Updated.apply p f s.nextId) u).olds = u.olds ++ olds ∧ List.Forall₂ (Writes s p f) xs ws ∧
      Performs f p.core u.work (xs.filter fun x => !toHost x) olds (ws.foldl State.putWrite r) := by
  induction xs generalizing u r with
  | nil => exact ⟨[], [], (List.append_nil _).symm, (List.append_nil _).symm, .nil, rfl, hitBytes_of_memories hr⟩
  | cons x xs ih =>
    obtain ⟨⟨hf, hs⟩, hxs⟩ := List.forall_mem_cons.mp hx
    obtain ⟨y, hy⟩ := Option.isSome_iff_exists.mp hs
    rw [List.foldl_cons]
    cases hh : toHost x with
    | true =>
      obtain ⟨w, hw, e⟩ := Updated.apply_host (s := s) (p := p) (u := u) hf hh
      have hput : (r.putWrite w).memories = r.memories := by
        simp only [State.putWrite, hw.send, hh, if_true]
        rfl
      rw [e]
      obtain ⟨ws, olds, h1, h2, h3, h4⟩ := ih (u := { u with writes := u.writes ++ [w] }) (r := r.putWrite w) hxs hc (hput.trans hr)
      refine ⟨w :: ws, olds, h1.trans (List.append_assoc ..), h2, .cons hw h3, ?_⟩
      rw [List.filter_cons_of_neg (by simp [hh])]
      exact h4
    | false =>
      obtain ⟨w, hw, hput, e⟩ := Updated.apply_device (s := s) (p := p) (u := u) hf hy hh
      have hp : Placed u.work p.core x.hit := fun hn => by simp [hy] at hn
      rw [e]
      obtain ⟨ws, olds, h1, h2, h3, h4⟩ := ih
        (u := ⟨u.work.putWrite w, u.writes ++ [w], u.olds ++ [(x.hit.lane, held u.work p.core x.hit)]⟩)
        (r := r.putWrite w) hxs (hput u.work ▸ hc.storeAt hp) (State.putWrite_memories hr)
      refine ⟨w :: ws, (x.hit.lane, held u.work p.core x.hit) :: olds, h1.trans (List.append_assoc ..),
        h2.trans (List.append_assoc ..), .cons hw h3, ?_⟩
      rw [List.filter_cons_of_pos (by simp [hh])]
      exact performs_cons hc hp hf (congrArg State.memories (hput u.work)) h4

theorem sent_of_writes {xs : List Update} {ws : List GWrite} (h : List.Forall₂ (Writes s p f) xs ws) :
    ws.filterMap (·.send) = (xs.filter toHost).map (sent s p f) := by
  induction h with
  | nil => rfl
  | @cons x w xs ws hw _ ih =>
    cases hh : toHost x <;> simp [hw.send, hh, ih]

theorem update_of_write {xs : List Update} {ws : List GWrite} {w : GWrite} (h : List.Forall₂ (Writes s p f) xs ws) (hw : w ∈ ws) :
    ∃ x ∈ xs, Writes s p f x w := by
  induction h with
  | nil => cases hw
  | @cons x v xs ws hv _ ih =>
    rcases List.mem_cons.mp hw with rfl | hw
    · exact ⟨x, List.mem_cons_self, hv⟩
    · obtain ⟨x, hx, h⟩ := ih hw
      exact ⟨x, List.mem_cons_of_mem _ hx, h⟩

/-- The addresses of device memory that the updates write lie in their pieces. -/
theorem dramAddrs_of_writes {xs : List Update} {ws : List GWrite} (h : List.Forall₂ (Writes s p f) xs ws) {a : Nat}
    (ha : a ∈ dramAddrs ws) : ∃ x ∈ xs, ∃ y, x.hit.x = some y ∧ y.host = false ∧ y.peer = false ∧ y.addr x.hit.va ≤ a ∧
      a < y.addr x.hit.va + x.hit.size := by
  obtain ⟨w, hw, ha⟩ := List.mem_flatMap.mp ha
  obtain ⟨x, hx, hxw⟩ := update_of_write h hw
  split at ha
  · cases ha
  · next hn =>
    simp only [Bool.or_eq_true, not_or, Bool.not_eq_true] at hn
    rw [List.mem_range'_1, hxw.bytes, hxw.at_] at ha
    exact ⟨x, hx, w.x, hxw.space, hn.1, hn.2, ha.1, ha.2⟩

/-- A piece that meets no poisoned sector (R400). -/
def Clean (s : State) (h : Hit) : Prop := s.poisonFail h = none

theorem Clean.sector {h : Hit} (hc : Clean s h) {y : Xlate} (hy : h.x = some y) (hh : y.host = false) (hp : y.peer = false)
    {a : Nat} (h1 : y.addr h.va ≤ a) (h2 : a < y.addr h.va + h.size) : sectorOf a ∉ s.poison := by
  intro hm
  unfold Clean State.poisonFail State.poisonAt at hc
  simp only [hy, hh, hp, Bool.or_self, Bool.false_eq_true, if_false, Option.map_eq_none_iff, List.find?_eq_none,
    Bool.and_eq_true, decide_eq_true_eq] at hc
  exact hc _ hm ⟨Nat.div_le_div_right h1, Nat.div_le_div_right (by omega)⟩

/-- Updates with translations in no poisoned sector perform, or go to the host, and leave the paths alone. -/
theorem State.update_translated {xs : List Update} (hx : ∀ x ∈ xs, x.Fits f ∧ x.hit.x.isSome = true ∧ Clean s x.hit)
    (hc : Canonical s p.core) (hu : Uncontested s) :
    ∃ t olds, s.update p f s.nextId xs = .ok (t, olds) ∧ t.paths = s.paths ∧ Updates f s p xs t olds := by
  have hg : (s.noteGlobal p).aside = s.aside := State.noteGlobal_aside
  obtain ⟨ws, olds, h1, h2, h3, h4⟩ := performs_of_writes (s := s) (u := { work := s, writes := [], olds := [] })
    (r := s.noteGlobal p) (fun x hm => ⟨(hx x hm).1, (hx x hm).2.1⟩) hc (memories_of_aside hg)
  unfold State.update
  dsimp only
  rw [h1, h2, List.nil_append, List.nil_append]
  split
  · next hw =>
    rw [List.isEmpty_iff.mp hw] at h3
    cases h3
    exact ⟨_, _, rfl, rfl, ⟨⟨by simpa [Performs] using h4.1, fun _ => rfl⟩, (List.append_nil _).symm⟩⟩
  · have hclean : ∀ a ∈ dramAddrs ws, sectorOf a ∉ (s.noteGlobal p).poison := fun a ha => by
      obtain ⟨x, hm, y, hy, hh, hp, ha1, ha2⟩ := dramAddrs_of_writes h3 ha
      exact (hx x hm).2.2.sector hy hh hp ha1 ha2
    obtain ⟨t, ht, hcont, hpaths⟩ := State.updateAll_uncontested (c := p.core) (ws := ws)
      (Uncontested.of_paths (paths_of_aside hg) hu) hclean
    rw [ht]
    refine ⟨_, _, rfl, hpaths.trans (paths_of_aside hg), performs_of_memories (congrArg Contents.memories hcont) h4, ?_⟩
    refine (congrArg Contents.hostOps hcont).trans (State.putWrites_hostOps.trans ?_)
    rw [sent_of_writes h3]
    rfl

/-! ### Updates of the window (R257) -/

/-- What is stored at a piece depends on the memories alone. -/
theorem State.storeAt_memories {h : Hit} {bs : List Byte} (hm : t.memories = s.memories) :
    (t.storeAt c h bs).memories = (s.storeAt c h bs).memories := by
  cases hx : h.x with
  | some y =>
    have e : ∀ s : State, s.storeAt c h bs = s.putWrite { x := y, va := h.va, bytes := bs } := fun s => by
      simp only [State.storeAt, hx, State.putWrite]
    rw [e, e]
    exact State.putWrite_memories hm
  | none =>
    have hd : t.dram = s.dram := congrArg Memories.dram hm
    have hh : t.hostMem = s.hostMem := congrArg Memories.hostMem hm
    have hp : t.peerMem = s.peerMem := congrArg Memories.peerMem hm
    have hl : t.cores.map (·.mem) = s.cores.map (·.mem) := congrArg Memories.locals hm
    simp only [State.storeAt, hx, State.memories, State.modCore, State.setCore, List.map_set, hd, hh, hp, hl, mem_of_memories hm]

theorem State.storeAt_paths {h : Hit} {bs : List Byte} : (s.storeAt c h bs).paths = s.paths := by
  unfold State.storeAt
  split
  · unfold State.setSpace
    split
    · rfl
    · split <;> rfl
  · exact State.modCore_paths (fun _ => rfl) fun _ => rfl

theorem State.storeAt_hostOps {h : Hit} {bs : List Byte} : (s.storeAt c h bs).hostOps = s.hostOps := by
  unfold State.storeAt State.setSpace
  split
  · split
    · rfl
    · split <;> rfl
  · rfl

/-- The core's work after an update of the window, which commands that read the place note as a race (R17). -/
def Updated.localWork (p : Path) (f : MForm) (u : Updated) (x : Update) : State :=
  (u.work.noteRace p.core x.hit.va (MForm.width f / 8)).storeAt p.core x.hit (x.result f (held u.work p.core x.hit))

theorem Updated.apply_local (hx : x.hit.x = none) (rid : Nat) : Updated.apply p f rid u x =
    { u with work := u.localWork p f x, olds := u.olds ++ [(x.hit.lane, held u.work p.core x.hit)] } := by
  obtain ⟨⟨l, va, n, z⟩, v, cmp⟩ := x
  simp only at hx
  subst hx
  unfold Updated.localWork
  rw [← State.laneValue_single]
  rfl

theorem Updated.localWork_memories (u : Updated) :
    (u.localWork p f x).memories = (u.work.storeAt p.core x.hit (x.result f (held u.work p.core x.hit))).memories :=
  State.storeAt_memories (memories_of_aside (State.noteRace_aside _ _))

theorem Updated.localWork_paths (u : Updated) : (u.localWork p f x).paths = u.work.paths :=
  State.storeAt_paths.trans (paths_of_aside (State.noteRace_aside _ _))

theorem Updated.localWork_hostOps (u : Updated) : (u.localWork p f x).hostOps = u.work.hostOps :=
  State.storeAt_hostOps.trans (congrArg Contents.hostOps (contents_of_aside (State.noteRace_aside _ _)))

/-- Updates of the window perform one after the other, and write no global memory. -/
theorem performs_of_locals {xs : List Update} {rid : Nat}
    (hx : ∀ x ∈ xs, x.Fits f ∧ x.hit.x = none ∧ Placed u.work p.core x.hit) (hc : Canonical u.work p.core) :
    ∃ olds t, xs.foldl (Updated.apply p f rid) u = { work := t, writes := u.writes, olds := u.olds ++ olds } ∧
      t.paths = u.work.paths ∧ t.hostOps = u.work.hostOps ∧ Performs f p.core u.work xs olds t := by
  induction xs generalizing u with
  | nil => exact ⟨[], u.work, by rw [List.append_nil]; rfl, rfl, rfl, rfl, fun _ => rfl⟩
  | cons x xs ih =>
    obtain ⟨⟨hf, hn, hp⟩, hxs⟩ := List.forall_mem_cons.mp hx
    have hm := Updated.localWork_memories (p := p) (f := f) (x := x) u
    rw [List.foldl_cons, Updated.apply_local hn]
    obtain ⟨olds, t, h1, h2, h3, h4⟩ := ih
      (u := ⟨u.localWork p f x, u.writes, u.olds ++ [(x.hit.lane, held u.work p.core x.hit)]⟩)
      (fun y hy => ⟨(hxs y hy).1, (hxs y hy).2.1, Placed.of_memories hm (hxs y hy).2.2.storeAt⟩)
      (Canonical.of_memories hm (hc.storeAt hp))
    exact ⟨(x.hit.lane, held u.work p.core x.hit) :: olds, t, h1.trans (by rw [List.append_assoc]; rfl),
      h2.trans u.localWork_paths, h3.trans u.localWork_hostOps, performs_cons hc hp hf hm h4⟩

theorem State.update_local {xs : List Update} {rid : Nat}
    (hx : ∀ x ∈ xs, x.Fits f ∧ x.hit.x = none ∧ Placed s p.core x.hit) (hc : Canonical s p.core) :
    ∃ t olds, s.update p f rid xs = .ok (t, olds) ∧ t.paths = s.paths ∧ Updates f s p xs t olds := by
  obtain ⟨olds, t, h1, h2, h3, h4⟩ := performs_of_locals (u := { work := s, writes := [], olds := [] }) (rid := rid) hx hc
  have hh : ∀ x ∈ xs, toHost x = false := fun x hm => by simp [toHost, (hx x hm).2.1]
  refine ⟨t, olds, ?_, h2, ?_, ?_⟩
  · unfold State.update
    simp only [h1, List.isEmpty_nil, if_true, List.nil_append]
  · rw [List.filter_eq_self.mpr fun x hm => by simp [hh x hm]]
    exact h4
  · rw [List.filter_eq_nil_iff.mpr fun x hm => by simp [hh x hm]]
    exact h3.trans (List.append_nil _).symm

end

end Sys2Proof.Machine
end

section
/-!
ATOM, RED and ATOML (R254 to R257): their checks give the updates of their lanes, which perform, and what follows leaves both
the memories and the paths alone.
-/
namespace Sys2Proof.Machine
open Sys2Proof.Claims

section
variable {s s1 s2 t : State} {p : Path} {h : Head} {f : MForm} {hs : List Hit} {space : Space}

/-! ### Checks (R240, R253, R254) -/

/-- The checks of an atomic give its pieces and the updates of its lanes. -/
theorem State.atomAccess_ready (hr : AtomicReady s p f space hs) : s.atomAccess p f space = .ok (hs, updatesOf s p f hs) := by
  obtain ⟨x, hx, hd, ha, hp, -⟩ := hr
  have hop : (!(decide (MForm.op f = 0) || decide (MForm.op f = 8) || decide (MForm.op f = 9))) =
      (decide (f.sub.toNat % 16 ≠ 0) && decide (f.sub.toNat % 16 ≠ 8) && decide (f.sub.toNat % 16 ≠ 9)) := by
    simp only [MForm.op, Bool.not_or, decide_not, Bool.and_assoc]
    congr
  have hc : s.checkOperand p 0 f.a.toNat isInt32 = .ok () := State.checkOperand_of_read1 hx
  have hx : s.read1 p f.a.toNat 0 isInt32 = .ok x := hx
  have ha : s.access p space (MForm.width f / 8) true _ (s.atomWants p f x) = .ok hs := ha
  unfold State.atomAccess
  dsimp only
  rw [Exe.bind_of_ok hc, Exe.bind_of_ok hd, Exe.bind_of_ok hx, hop, Exe.bind_of_ok ha, Exe.bind_of_ok hp]
  rfl

theorem updatesOf_hit {x : Update} (hx : x ∈ updatesOf s p f hs) : x.hit ∈ hs := by
  obtain ⟨g, hg, rfl⟩ := List.mem_map.mp hx
  exact hg

theorem updatesOf_value {x : Update} (hx : x ∈ updatesOf s p f hs) : x.value < 2 ^ MForm.width f := by
  obtain ⟨g, -, rfl⟩ := List.mem_map.mp hx
  exact Troupe.atomData_lt _ _ _

/-- What the updates of a global atomic need to perform. -/
theorem updatesOf_fit_global (hr : AtomicReady s p f .global hs) :
    ∀ x ∈ updatesOf s p f hs, x.Fits f ∧ x.hit.x.isSome = true ∧ Clean s x.hit := by
  obtain ⟨x, -, -, ha, hp, -⟩ := hr
  intro u hu
  obtain ⟨hx, hsz⟩ := State.access_global ha _ (updatesOf_hit hu)
  exact ⟨⟨hsz, updatesOf_value hu⟩, hx, raiseFirst_eq_ok.mp hp _ (List.mem_map_of_mem (updatesOf_hit hu))⟩

/-- A window that is not empty stands in a core that is there. -/
theorem State.inRange_of_window (hb : 0 < (s.block p).size) : p.core < s.cores.length := by
  by_contra hc
  have hk : s.core p.core = Core.reset := by
    simp [State.core, List.getD_eq_getElem?_getD, List.getElem?_eq_none (Nat.le_of_not_lt hc)]
  have hn : Core.reset.block p.blk = none := by
    simp only [Core.block, Core.reset]
    rw [List.getD_eq_getElem?_getD, List.getElem?_replicate]
    split <;> rfl
  unfold State.block at hb
  rw [hk, hn] at hb
  exact absurd hb (by decide)

/-- What the updates of an atomic of the window need to perform. -/
theorem updatesOf_fit_local (hr : AtomicReady s p f .loc hs) :
    ∀ x ∈ updatesOf s p f hs, x.Fits f ∧ x.hit.x = none ∧ Placed s p.core x.hit := by
  obtain ⟨x, -, -, ha, -, -⟩ := hr
  intro u hu
  have hm := updatesOf_hit hu
  have hin := State.access_loc_inside ha
  rw [State.access_loc_eq ha] at hm
  obtain ⟨w, hw, e⟩ := List.mem_map.mp hm
  have hsize : u.hit.size = MForm.width f / 8 := by rw [← e]
  have hnone : u.hit.x = none := by rw [← e]
  refine ⟨⟨hsize, updatesOf_value hu⟩, hnone, fun _ => State.inRange_of_window ?_⟩
  have := hin w hw
  have := MForm.width_ge f
  omega

/-- RED folds values of the atomic's width, and its pieces are those of its lanes (R255). -/
theorem combineRed_mem {xs : List Update} {op width : Nat} (hw : 32 ≤ width) (hv : ∀ x ∈ xs, x.value < 2 ^ width) :
    ∀ y ∈ combineRed op width xs, y.value < 2 ^ width ∧ ∃ x ∈ xs, y.hit = x.hit := by
  intro y hy
  unfold combineRed at hy
  obtain ⟨a, -, hy⟩ := List.mem_flatMap.mp hy
  dsimp only at hy
  split at hy
  · have hm := (List.mem_filter.mp hy).1
    exact ⟨hv y hm, y, hm, rfl⟩
  · obtain ⟨x, hx, rfl⟩ := List.mem_map.mp hy
    have hm := List.mem_of_mem_head? (Option.mem_toList.mp hx)
    refine ⟨foldRed_lt hw fun v hmv => ?_, x, (List.mem_filter.mp hm).1, rfl⟩
    obtain ⟨z, hz, rfl⟩ := List.mem_map.mp hmv
    exact hv z (List.mem_filter.mp hz).1

/-! ### What follows the updates -/

/-- A register group that takes a result without exceptions (R45). -/
theorem State.putGroup_eq (d : Nat) (vs : List (Tag × (Nat → Word))) : s.putGroup p d vs = groupWritten s p d vs 0 := by
  unfold State.putGroup groupWritten
  congr 1
  funext u
  rw [takesGroup_eq]
  have h : u.fstat ||| 0 = (u.takesGroup p.active d vs).fstat := (BitVec.or_zero).trans (takesGroup_fstat ..).symm
  rw [h]

/-- Old values as a result for the destination registers of an atomic, which keep the tags of the data (R254). -/
theorem Troupe.mapIdx_atomDest (u : Troupe) (v : Nat → Nat → Word) : (u.atomDest f).mapIdx (fun j r => (r.2, v j)) =
    (List.range (MForm.width f / 32)).map fun j => ((u.reg (f.d.toNat + j)).tag, v j) := by
  unfold Troupe.atomDest
  apply List.ext_getElem <;> simp


/-- The state after an atomic's bookkeeping: scopes touched, its accesses logged, its region sealed (R98, R195, R404). -/
def State.atomicEnd (s : State) (p : Path) (hs : List Hit) (yes : Bool) : State :=
  (((s.touchHits p hs).logOps p 0 hs).noteSync p true).sealRegion p yes

@[simp] theorem State.atomicEnd_aside (yes : Bool) : (s.atomicEnd p hs yes).aside = s.aside := by
  simp [State.atomicEnd]

/-- ATOM: its old values go nowhere, into a deferred access, or into the record of its departure (R254). -/
theorem execAtom_begins {olds : List (Nat × Nat)} (b : Begins (.atom h f) h 12 s p s1 s2) (hr : AtomicReady s2 p f .global hs)
    (hu : s2.update p f s2.nextId (updatesOf s2 p f hs) = .ok (t, olds)) :
    let e := t.atomicEnd p hs true
    (MForm.ret f = false → exec (.atom h f) s = .next ({ e with nextId := s2.nextId + 1 }.logUndo p.at_ s1)) ∧
    (MForm.ret f = true → f.def_ = true →
      exec (.atom h f) s = .next ((e.defer p (oldData e p f olds) hs 4 none).logUndo p.at_ s1)) ∧
    ∀ u, MForm.ret f = true → f.def_ = false →
      e.depart p .data (p.at_.pc + 12) 0 (fun r => { r with data := oldData e p f olds, peer := anyPeer hs }) = .ok u →
      exec (.atom h f) s = .next (u.logUndo p.at_ s1) := by
  have hnext : p.next = p.at_.pc + 12 := by
    unfold Path.next
    rw [b.length]
    rfl
  have ha := State.atomAccess_ready hr
  rw [exec_atom]
  refine ⟨fun h1 => ?_, fun h1 h2 => ?_, fun u h1 h2 hd => ?_⟩
  · refine runThread_ok b ?_
    simp only [ha, hu, bind, Except.bind, h1]
    rfl
  · refine runThread_ok b ?_
    simp only [ha, hu, bind, Except.bind, h1, h2]
    rfl
  · refine runThread_ok b ?_
    simp only [ha, hu, bind, Except.bind, h1, h2, hnext]
    exact hd

theorem execRed_begins {olds : List (Nat × Nat)} (b : Begins (.red h f) h 12 s p s1 s2) (hr : AtomicReady s2 p f .global hs)
    (hu : s2.update p f s2.nextId (combineRed (MForm.op f) (MForm.width f) (updatesOf s2 p f hs)) = .ok (t, olds)) :
    exec (.red h f) s = .next ({ t.atomicEnd p hs (isRel f.ord) with nextId := s2.nextId + 1 }.logUndo p.at_ s1) := by
  rw [exec_red]
  refine runThread_ok b ?_
  simp only [State.atomAccess_ready hr, hu, bind, Except.bind]
  rfl

theorem execAtoml_begins {olds : List (Nat × Nat)} (b : Begins (.atoml h f) h 12 s p s1 s2) (hr : AtomicReady s2 p f .loc hs)
    (hu : s2.update p f s2.nextId (updatesOf s2 p f hs) = .ok (t, olds)) :
    let e := (t.noteSync p true).sealRegion p (isRel f.ord)
    (MForm.ret f = false → exec (.atoml h f) s = .next (e.logUndo p.at_ s1)) ∧
    (MForm.ret f = true → exec (.atoml h f) s = .next ((groupWritten e p f.d.toNat
        ((List.range (MForm.width f / 32)).map fun j => (((s2.troupe p).reg (f.d.toNat + j)).tag,
          fun l => BitVec.ofNat 32 (oldOf olds l / 2 ^ (32 * j)))) 0).logUndo p.at_ s1)) := by
  have ha := State.atomAccess_ready hr
  rw [exec_atoml]
  refine ⟨fun h1 => ?_, fun h1 => ?_⟩
  · refine runThread_ok b ?_
    simp only [ha, hu, bind, Except.bind, h1]
    rfl
  · refine runThread_ok b ?_
    simp only [ha, hu, bind, Except.bind, h1, if_true, State.putGroup_eq, Troupe.mapIdx_atomDest]

end

/-! ### The obligation -/

section
variable {s s1 s2 t0 t : State} {p : Path} {h : Head} {f : MForm} {hs : List Hit} {olds : List (Nat × Nat)}

theorem oldData_regs (s : State) (olds : List (Nat × Nat)) :
    (oldData s p f olds).map (·.reg) = (List.range (MForm.width f / 32)).map (f.d.toNat + ·) := by
  unfold oldData gathered
  apply List.ext_getElem <;> simp

/-- The records of an atomic's departure differ in their old values and their peer alone. -/
theorem oldData_outline (yes : Bool) (olds' : List (Nat × Nat)) {r q : CueRec} (e : q.outline = r.outline) :
    { q with data := oldData t p f olds, peer := yes }.outline = { r with data := oldData s p f olds' }.outline := by
  obtain ⟨hrec, hnames⟩ := Prod.mk.inj e
  exact Prod.ext hrec (Prod.ext (Prod.mk.inj hnames).1 ((oldData_regs t olds).trans (oldData_regs s olds').symm))

theorem quiet_of_ready {space : Space} (hr : AtomicReady s p f space hs) : Quiet s := by
  obtain ⟨-, -, -, -, -, hq⟩ := hr
  exact hq

/-- What RED makes of the updates of its lanes fits as they do (R255). -/
theorem combineRed_fit {op : Nat} (hr : AtomicReady s p f .global hs) :
    ∀ x ∈ combineRed op (MForm.width f) (updatesOf s p f hs), x.Fits f ∧ x.hit.x.isSome = true ∧ Clean s x.hit := by
  intro x hx
  obtain ⟨hv, y, hy, hh⟩ := combineRed_mem (MForm.width_ge f) (fun y hy => (updatesOf_fit_global hr y hy).1.value) x hx
  obtain ⟨hfit, hsome, hclean⟩ := updatesOf_fit_global hr y hy
  rw [hh]
  exact ⟨⟨hh ▸ hfit.size, hv⟩, hsome, hclean⟩

/-- Settles O26: an atomic's updates perform or are sent one after the other, and what follows leaves both the memories and
the paths alone, so that a departure that fits before them fits after them. -/
theorem atomicUpdates : Obligations.AtomicUpdates := by
  unfold Obligations.AtomicUpdates
  refine ⟨fun h f s p s1 s2 hs b hr => ?_, fun h f s p s1 s2 hs b hr => ?_, fun h f s p s1 s2 hs b hr => ?_⟩
  case refine_1 =>
    have hq := quiet_of_ready hr
    obtain ⟨t, olds, hu, hp, hup⟩ := State.update_translated (updatesOf_fit_global hr) (Canonical.of_quiet hq) hq.2.2
    have ha := State.atomicEnd_aside (s := t) (p := p) (hs := hs) true
    have hpe := (paths_of_aside ha).trans hp
    obtain ⟨h1, h2, h3⟩ := execAtom_begins b hr hu
    refine ⟨t.atomicEnd p hs true, olds, untouched_of_paths (congrArg Paths.troupes hpe),
      updates_of_contents (contents_of_aside ha) hup, h1, h2, fun hret hdef hd => ?_⟩
    obtain ⟨u, hu⟩ := State.depart_of_paths hpe (fun _ _ => oldData_outline (anyPeer hs) []) hd
    exact ⟨u, hu, h3 u hret hdef hu⟩
  case refine_2 =>
    have hq := quiet_of_ready hr
    obtain ⟨t, olds, hu, hp, hup⟩ := State.update_translated (combineRed_fit hr) (Canonical.of_quiet hq) hq.2.2
    have ha := State.atomicEnd_aside (s := t) (p := p) (hs := hs) (isRel f.ord)
    have htr := congrArg Paths.troupes ((paths_of_aside ha).trans hp)
    have hc := contents_of_aside ha
    exact ⟨_, olds, execRed_begins b hr hu, untouched_of_paths htr, updates_of_contents hc hup⟩
  case refine_3 =>
    have hq := quiet_of_ready hr
    obtain ⟨t, olds, hu, hp, hup⟩ := State.update_local (updatesOf_fit_local hr) (Canonical.of_quiet hq)
    have ha : ((t.noteSync p true).sealRegion p (isRel f.ord)).aside = t.aside := by simp
    obtain ⟨h1, h2⟩ := execAtoml_begins b hr hu
    exact ⟨_, olds, untouched_of_paths (congrArg Paths.troupes ((paths_of_aside ha).trans hp)),
      updates_of_contents (contents_of_aside ha) hup, h1, h2⟩

end

end Sys2Proof.Machine
end

section
/-!
LDL (R241, R250): its accesses pass, each lane's piece lies at its place in the window, and a word that a matrix command is
writing is old or new.
-/
namespace Sys2Proof.Machine
open Sys2Proof.Claims

/-! ### Cells written one by one -/

section
variable {m n : Memory} {cs : List Host.Cell} {a : Nat}

/-- A place that no cell names keeps its byte. -/
theorem Memory.read_writeCells_other (hm : m.wf = true) (h : ∀ x ∈ cs, x.1 ≠ a) : (m.writeCells cs).read a = m.read a := by
  induction cs generalizing m with
  | nil => rfl
  | cons x cs ih =>
    obtain ⟨hx, hcs⟩ := List.forall_mem_cons.mp h
    exact (ih (Memory.write_wf m x.1 x.2 hm) hcs).trans (Memory.read_write_other m x.1 a x.2 hm hx.symm)

/-- What a place holds in the end depends on the cells that name it alone. -/
theorem Memory.read_writeCells_filter (hm : m.wf = true) (hn : n.wf = true) (hr : m.read a = n.read a) {q : Host.Cell → Bool}
    (hq : ∀ x : Host.Cell, x.1 = a → q x = true) : (m.writeCells (cs.filter q)).read a = (n.writeCells cs).read a := by
  induction cs generalizing m n with
  | nil => exact hr
  | cons x cs ih =>
    have hn' := Memory.write_wf n x.1 x.2 hn
    cases hx : q x with
    | true =>
      rw [List.filter_cons_of_pos hx]
      refine ih (Memory.write_wf m x.1 x.2 hm) hn' ?_
      by_cases ha : a = x.1
      · subst ha
        exact (Memory.read_write_same m x.1 x.2 hm).trans (Memory.read_write_same n x.1 x.2 hn).symm
      · rw [Memory.read_write_other m x.1 a x.2 hm ha, Memory.read_write_other n x.1 a x.2 hn ha, hr]
    | false =>
      rw [List.filter_cons_of_neg (by simp [hx])]
      have ha : a ≠ x.1 := fun e => by simp [hq x e.symm] at hx
      exact ih hm hn' (hr.trans (Memory.read_write_other n x.1 a x.2 hn ha).symm)

/-- Where whole words are chosen, each word is as before or as all the cells leave it. -/
theorem Memory.word_writeCells_filter (hm : m.wf = true) (q : Nat → Bool) (w : Nat) :
    (∀ i, i < 4 → (m.writeCells (cs.filter fun x => q (x.1 / 4))).read (4 * w + i) = m.read (4 * w + i)) ∨
      ∀ i, i < 4 → (m.writeCells (cs.filter fun x => q (x.1 / 4))).read (4 * w + i) = (m.writeCells cs).read (4 * w + i) := by
  have hw : ∀ i, i < 4 → (4 * w + i) / 4 = w := fun i hi => by omega
  cases hq : q w with
  | true =>
    refine .inr fun i hi => Memory.read_writeCells_filter hm hm rfl fun x hx => ?_
    rw [hx, hw i hi, hq]
  | false =>
    refine .inl fun i hi => Memory.read_writeCells_other hm fun x hx e => ?_
    have := (List.mem_filter.mp hx).2
    rw [e, hw i hi, hq] at this
    cases this

end

/-! ### Accesses of the window (R239, R240) -/

section
variable {s : State} {p : Path} {f : MForm} {x : Operand} {l : Nat}

/-- The address of a lane in the terms of R239. -/
theorem State.laneAddr_eq (h : s.memIndex p f (MForm.mode f) = .ok x) (l : Nat) :
    s.laneAddr p f (MForm.mode f) (accessSize f) x l = addressOf f (accessSize f) (s.kAt p f.kb.toNat) x l := by
  have hidx : indexAt x l = if MForm.mode f = 2 ∨ MForm.mode f = 6 then 0
      else if x.tag = .i32 then (x.at l).signExtend 64 else (x.at l).setWidth 64 := by
    unfold indexAt
    simp only [beq_iff_eq]
    by_cases hm : MForm.mode f = 2 ∨ MForm.mode f = 6
    · have hi : amIndexed (MForm.mode f) = false := by simpa [amIndexed, or_iff_not_imp_left] using hm
      unfold State.memIndex at h
      rw [hi] at h
      cases h
      rw [if_pos hm]
      rfl
    · rw [if_neg hm]
  have hk : MForm.mode f ≤ 2 ↔ MForm.mode f = 0 ∨ MForm.mode f = 1 ∨ MForm.mode f = 2 := by omega
  unfold State.laneAddr addressOf
  simp only [Bool.or_eq_true, decide_eq_true_eq, or_assoc, hidx, hk]
  rfl

/-- The pieces of the window that a load or store of the active lanes has. -/
def windowHits (s : State) (p : Path) (f : MForm) (x : Operand) : List Hit :=
  p.active.lanes.map fun l => { lane := l, va := localAt s p f x l, size := accessSize f, x := none }

theorem State.localPieces_wants (h : s.memIndex p f (MForm.mode f) = .ok x) :
    localPieces (s.block p).base (accessSize f) (s.wants p f (MForm.mode f) (accessSize f) x) = windowHits s p f x := by
  unfold localPieces State.wants windowHits localAt
  rw [List.map_map]
  refine List.map_congr_left fun l _ => ?_
  simp only [Function.comp, State.laneAddr_eq h]

/-- A load or store that fits passes its checks, with a piece for each active lane. -/
theorem State.access_window (h : LocalFits s p f x) (write : Bool) :
    s.access p .loc (accessSize f) write false (s.wants p f (MForm.mode f) (accessSize f) x) = .ok (windowHits s p f x) := by
  obtain ⟨hi, hl⟩ := h
  have hi : s.memIndex p f (MForm.mode f) = .ok x := hi
  rw [← State.localPieces_wants hi]
  refine State.access_loc_ok (fun w hw => ?_) fun g hg => ?_
  · obtain ⟨l, hm, rfl⟩ := List.mem_map.mp hw
    obtain ⟨h1, h2, -⟩ := hl l ((Mask.mem_lanes _ _).mp hm)
    rw [State.laneAddr_eq hi]
    exact ⟨h1, h2⟩
  · rw [State.localPieces_wants hi] at hg
    obtain ⟨l, hm, rfl⟩ := List.mem_map.mp hg
    exact (hl l ((Mask.mem_lanes _ _).mp hm)).2.2

theorem Mask.nodup_lanes (m : Mask) : m.lanes.Nodup := List.nodup_range.filter _

/-- An active lane has one piece, at its place. -/
theorem windowHits_lane (h : p.active.has l = true) : (windowHits s p f x).filter (fun g => g.lane == l) =
    [{ lane := l, va := localAt s p f x l, size := accessSize f, x := none }] := by
  have hl : p.active.lanes.filter (· == l) = [l] := by
    rw [List.filter_beq, List.count_eq_one_of_mem (Mask.nodup_lanes _) ((Mask.mem_lanes _ _).mpr h)]
    rfl
  unfold windowHits
  rw [List.filter_map, show ((fun g : Hit => g.lane == l) ∘ fun l => _) = (· == l) from rfl, hl]
  rfl

/-- What an active lane finds is the value at its place in local memory. -/
theorem State.laneValue_window (t : State) (h : p.active.has l = true) : t.laneValue p.core (windowHits s p f x) l =
    (t.core p.core).mem.readNat (localAt s p f x l) (accessSize f) := by
  unfold State.laneValue
  rw [windowHits_lane h]
  simp only [State.hitBytes, List.flatMap_cons, List.flatMap_nil, List.append_nil]
  rfl

end

/-! ### Loads -/

section
variable {s : State} {p : Path} {m : Mask} {d c l : Nat}

/-- Popping ports leaves the core pairs alone. -/
@[simp] theorem State.popPorts_pairs (fields : List Nat) : (s.popPorts p fields).pairs = s.pairs := by
  refine foldl_keeps (g := State.pairs) (fun t q => ?_) s
  dsimp only
  split
  · rfl
  · refine foldl_keeps (g := State.pairs) (fun t l => ?_) t
    unfold State.touch
    split <;> rfl

/-- What a lane's load sees of local memory. -/
def State.seen (s : State) (c l : Nat) : Memory := ((s.loadView c l).core c).mem

/-- A load of the window sees old local memory, or the words that its draws choose of what commands are writing (R17). -/
theorem State.seen_cases (s : State) (c l : Nat) : s.seen c l = (s.core c).mem ∨ s.seen c l = (s.core c).mem.writeCells
    ((s.storing c).filter fun x => freeDraw 1 (64 * s.nextId + l) (x.1 / 4) % 2 == 1) := by
  unfold State.seen State.loadView
  split
  · exact .inl rfl
  · next hs =>
    by_cases hc : c < s.cores.length
    · right
      simp [State.modCore, State.setCore, State.core, List.getD_eq_getElem?_getD, hc]
    · left
      simp [State.modCore, State.setCore, State.core, List.getD_eq_getElem?_getD, hc]

theorem State.seen_of_idle (h : s.storing c = []) : s.seen c l = (s.core c).mem := by
  unfold State.seen State.loadView
  rw [h]

/-- What an active lane's load finds is the value at its place in the memory that it sees. -/
theorem State.laneValue_seen {f : MForm} {x : Operand} {r : State} (h : p.active.has l = true) :
    (s.loadView p.core l).laneValue p.core (windowHits r p f x) l = (s.seen p.core l).readNat (localAt r p f x l) (accessSize f) :=
  State.laneValue_window _ h

/-- Each word that a load sees is old or new (R17). -/
theorem State.seen_word (hm : (s.core c).mem.wf = true) (w : Nat) :
    (∀ i, i < 4 → (s.seen c l).read (4 * w + i) = (s.core c).mem.read (4 * w + i)) ∨
      ∀ i, i < 4 → (s.seen c l).read (4 * w + i) = ((s.core c).mem.writeCells (s.storing c)).read (4 * w + i) := by
  rcases State.seen_cases s c l with e | e
  · exact .inl fun i _ => by rw [e]
  · rw [e]
    exact Memory.word_writeCells_filter hm (fun a => freeDraw 1 (64 * s.nextId + l) a % 2 == 1) w

theorem State.drawn_eq : s.drawn c = if s.storing c = [] then s else { s with nextId := s.nextId + 1 } := by
  unfold State.drawn
  simp only [List.isEmpty_iff]

theorem Troupe.takes_congr {t : Troupe} {g : Tag} {v w : Nat → Word} (h : ∀ l, m.has l = true → v l = w l) :
    t.takes m d g v = t.takes m d g w := by
  have e : (List.range 64).map (fun l => if m.has l then v l else if (t.reg d).dead then 0 else (t.reg d).at l) =
      (List.range 64).map fun l => if m.has l then w l else if (t.reg d).dead then 0 else (t.reg d).at l := by
    refine List.map_congr_left fun l _ => ?_
    split
    · next hl => exact h l hl
    · rfl
  unfold Troupe.takes
  rw [e]

/-- A register group takes the values of the mask's lanes alone. -/
theorem Troupe.takesGroup_congr {t : Troupe} {vs ws : List (Tag × (Nat → Word))}
    (h : List.Forall₂ (fun a b => a.1 = b.1 ∧ ∀ l, m.has l = true → a.2 l = b.2 l) vs ws) :
    t.takesGroup m d vs = t.takesGroup m d ws := by
  induction h generalizing t d with
  | nil => rfl
  | @cons a b vs ws hab _ ih =>
    obtain ⟨g, v⟩ := a
    obtain ⟨g', w⟩ := b
    obtain ⟨rfl, hv⟩ := hab
    unfold Troupe.takesGroup
    rw [Troupe.takes_congr hv, ih]

theorem groupWritten_congr {vs ws : List (Tag × (Nat → Word))} {fl : Flags}
    (h : List.Forall₂ (fun a b => a.1 = b.1 ∧ ∀ l, p.active.has l = true → a.2 l = b.2 l) vs ws) :
    groupWritten s p d vs fl = groupWritten s p d ws fl := by
  unfold groupWritten
  congr 1
  funext t
  rw [Troupe.takesGroup_congr h]

theorem kindWord_eq (k j n : Nat) : kindWord k j n = loadedWord k j n := by
  unfold kindWord loadedWord kindWiden
  simp only [Bool.or_eq_true, decide_eq_true_eq]
  split
  · rfl
  · split
    · rfl
    · rfl
    · next h0 h2 => rw [if_neg h0, if_neg h2]

/-- LDL: the loaded words of the active lanes, from what each lane's load sees of local memory. -/
theorem execLdl_begins {h : Head} {f : MForm} {x : Operand} {s1 s2 : State} (b : Begins (.ldl h f) h 12 s p s1 s2)
    (hf : LocalFits s2 p f x) (hd : (s2.troupe p).checkDest p ((kindRegs (MForm.kind f) f.d.toNat).map (·.1)) = .ok ()) :
    exec (.ldl h f) s = .next ((groupWritten ((s2.popPorts p (indexFields f)).drawn p.core) p f.d.toNat
      ((kindRegs (MForm.kind f) f.d.toNat).mapIdx fun j r => (r.2, fun l => loadedWord (MForm.kind f) j
        ((s2.seen p.core l).readNat (localAt s2 p f x l) (accessSize f)))) 0).logUndo p.at_ s1) := by
  have hi : s2.memIndex p f (MForm.mode f) = .ok x := hf.1
  have ha : s2.access p .loc (kindSize (MForm.kind f)) false false (s2.wants p f (MForm.mode f) (kindSize (MForm.kind f)) x) =
    .ok (windowHits s2 p f x) := State.access_window hf false
  rw [exec_ldl]
  refine runThread_ok b ?_
  simp only [hi, hd, ha, bind, Except.bind, State.putGroup_eq]
  refine congrArg Except.ok (groupWritten_congr ?_)
  rw [List.forall₂_iff_get]
  refine ⟨by simp, fun i h1 h2 => ?_⟩
  simp only [List.get_eq_getElem, List.getElem_mapIdx]
  exact ⟨trivial, fun l hl => by rw [kindWord_eq, State.laneValue_seen hl]⟩

/-- Popping ports does not change what commands are writing, nor whether a load has used its draws. -/
theorem State.popPorts_drawn (fields : List Nat) : (s.popPorts p fields).drawn c =
    if s.storing c = [] then s.popPorts p fields else { s.popPorts p fields with nextId := (s.popPorts p fields).nextId + 1 } := by
  have h : (s.popPorts p fields).storing c = s.storing c := by
    unfold State.storing State.pair
    rw [State.popPorts_pairs]
  rw [State.drawn_eq, h]

end

end Sys2Proof.Machine
end

section
/-!
STL (R90, R250): the lanes store one after the other, so that a byte keeps what the highest of the lanes that cover it
stores; besides local memory only logs, deferred accesses and the old bytes that queued commands keep change.
-/
namespace Sys2Proof.Machine
open Sys2Proof.Claims

/-! ### Bytes that lanes store one after the other -/

section
variable {m : Memory} {at_ : Nat → Nat} {v : Nat → Nat} {n a i l : Nat} {ls : List Nat}

/-- Local memory after each lane has stored the low `n` bytes of its value. -/
def storeLanes (m : Memory) (at_ : Nat → Nat) (n : Nat) (v : Nat → Nat) (ls : List Nat) : Memory :=
  ls.foldl (fun m l => m.writeNat (at_ l) n (v l)) m

theorem storeLanes_wf (hm : m.wf = true) : (storeLanes m at_ n v ls).wf = true :=
  List.foldlRecOn (motive := fun m => Memory.wf m = true) ls _ hm fun _ h _ _ => Memory.writeBytes_wf _ _ _ h

theorem Memory.read_writeNat_other (hm : m.wf = true) {b x : Nat} (h : a < b ∨ b + n ≤ a) :
    (m.writeNat b n x).read a = m.read a :=
  Memory.read_writeBytes_other m b a _ hm (by rwa [natToBytes_length])

theorem Memory.read_writeNat_same (hm : m.wf = true) {b x : Nat} (h : i < n) :
    (m.writeNat b n x).read (b + i) = BitVec.ofNat 8 (x / 256 ^ i) := by
  have hl : i < (natToBytes n x).length := by rwa [natToBytes_length]
  unfold Memory.writeNat
  rw [Memory.read_writeBytes_same m b i _ hm hl, List.getD_eq_getElem _ _ hl]
  simp only [natToBytes, List.getElem_map, List.getElem_range, Nat.shiftRight_eq_div_pow, Nat.pow_mul]

/-- A byte that no lane covers is as before. -/
theorem read_storeLanes_other (hm : m.wf = true) (h : ∀ l ∈ ls, a < at_ l ∨ at_ l + n ≤ a) :
    (storeLanes m at_ n v ls).read a = m.read a := by
  induction ls generalizing m with
  | nil => rfl
  | cons x xs ih =>
    obtain ⟨hx, hxs⟩ := List.forall_mem_cons.mp h
    exact (ih (Memory.writeBytes_wf _ _ _ hm) hxs).trans (Memory.read_writeNat_other hm hx)

/-- A byte is that of the highest lane that covers it (R90). -/
theorem read_storeLanes_highest (hm : m.wf = true) (hs : ls.Pairwise (· < ·)) (hl : l ∈ ls) (hi : i < n)
    (h : ∀ k ∈ ls, l < k → at_ l + i < at_ k ∨ at_ k + n ≤ at_ l + i) :
    (storeLanes m at_ n v ls).read (at_ l + i) = BitVec.ofNat 8 (v l / 256 ^ i) := by
  induction ls generalizing m with
  | nil => cases hl
  | cons x xs ih =>
    obtain ⟨hx, hxs⟩ := List.pairwise_cons.mp hs
    have hm' : (m.writeNat (at_ x) n (v x)).wf = true := Memory.writeBytes_wf _ _ _ hm
    have h' := (List.forall_mem_cons.mp h).2
    rcases List.mem_cons.mp hl with rfl | hl
    · exact (read_storeLanes_other hm' fun k hk => h' k hk (hx k hk)).trans (Memory.read_writeNat_same hm hi)
    · exact ih hm' hxs hl h'

end

theorem Mask.pairwise_lanes (m : Mask) : m.lanes.Pairwise (· < ·) := List.pairwise_lt_range.filter _

/-! ### Pieces of the window -/

section
variable {s : State} {p : Path} {f : MForm} {x : Operand} {v : Nat → Nat}

/-- The piece of a lane takes the low bytes of its value. -/
theorem pieceBytes_window : pieceBytes (windowHits s p f x) v = p.active.lanes.map fun l =>
    ({ lane := l, va := localAt s p f x l, size := accessSize f, x := none }, natToBytes (accessSize f) (v l)) := by
  have h : ∀ g ∈ windowHits s p f x, (windowHits s p f x).filter (fun k => k.lane == g.lane) = [g] := fun g hg => by
    obtain ⟨l, hl, rfl⟩ := List.mem_map.mp hg
    exact windowHits_lane ((Mask.mem_lanes _ _).mp hl)
  have e : pieceBytes (windowHits s p f x) v = (windowHits s p f x).map fun g => (g, natToBytes g.size (v g.lane)) := by
    refine List.map_congr_left fun g hg => ?_
    simp [h g hg]
  rw [e, windowHits, List.map_map]
  rfl

theorem windowHits_local {g : Hit} (h : g ∈ windowHits s p f x) : g.x = none := by
  obtain ⟨l, -, rfl⟩ := List.mem_map.mp h
  rfl

end

/-! ### Stores of local pieces -/

section
variable {s : State} {p : Path} {c : Nat} {hs : List Hit} {v : Nat → Nat} {ps : List (Hit × List Byte)}

/-- The state in which queued commands keep other old bytes (R17). -/
def State.racing (s : State) (rs : Nat → MatCmd → List (List Host.Cell)) : State :=
  { s with pairs := s.pairs.mapIdx fun n (q : Pair) =>
      { q with queue := q.queue.map fun (x : MatCmd) => { x with raced := rs n x } } }

theorem State.racing_raced (s : State) : s.racing (fun _ x => x.raced) = s := by
  have h : s.pairs.mapIdx (fun _ (q : Pair) => { q with queue := q.queue.map fun (x : MatCmd) => { x with raced := x.raced } }) =
      s.pairs := List.ext_getElem (by simp) fun n _ _ => by simp
  unfold State.racing
  rw [h]

theorem State.racing_racing (s : State) (rs rs' : Nat → MatCmd → List (List Host.Cell)) :
    (s.racing rs).racing rs' = s.racing fun n x => rs' n { x with raced := rs n x } := by
  unfold State.racing
  simp [List.mapIdx_mapIdx, Function.comp_def]

theorem State.modCore_racing (f : Core → Core) (rs : Nat → MatCmd → List (List Host.Cell)) :
    (s.modCore c f).racing rs = (s.racing rs).modCore c f := rfl

/-- A store's race changes the old bytes that commands keep, and nothing else. -/
theorem State.noteRace_racing (a n : Nat) : ∃ rs, s.noteRace c a n = s.racing rs := by
  unfold State.noteRace
  extract_lets ids old
  split
  · exact ⟨fun _ x => x.raced, s.racing_raced.symm⟩
  · refine ⟨fun n x => if n = c / 2 ∧ ids.contains x.id = true then x.raced ++ [old] else x.raced, ?_⟩
    unfold State.modPair State.racing
    congr 1
    refine List.ext_getElem (by simp) fun n h1 h2 => ?_
    rw [List.getElem_mapIdx, List.getElem_set]
    split
    · next h =>
      subst h
      rw [List.length_set] at h1
      simp only [State.pair, List.getD_eq_getElem _ _ h1, true_and]
      congr 2
      funext x
      split <;> rfl
    · next h => simp [Ne.symm h]

/-- A change that is none. -/
theorem State.modCore_self : s.modCore c (fun k => k) = s := by
  unfold State.modCore State.setCore State.core
  rw [List.getD_eq_getElem?_getD]
  by_cases hc : c < s.cores.length
  · simp [hc]
  · simp [List.set_eq_of_length_le (Nat.le_of_not_lt hc)]

/-- A memory after pieces of it have taken their bytes. -/
def storePieces (ps : List (Hit × List Byte)) (m : Memory) : Memory := ps.foldl (fun m x => m.writeBytes x.1.va x.2) m

/-- Local pieces store their bytes in local memory, beside the races that they note. -/
theorem State.storeLocals (hx : ∀ x ∈ ps, x.1.x = none) : ∃ rs, ps.foldl (State.storeLocal c) s =
    (s.racing rs).modCore c fun k => { k with mem := storePieces ps k.mem } := by
  induction ps generalizing s with
  | nil => exact ⟨fun _ x => x.raced, by rw [State.racing_raced]; exact State.modCore_self.symm⟩
  | cons x ps ih =>
    obtain ⟨hn, hps⟩ := List.forall_mem_cons.mp hx
    obtain ⟨rs, hr⟩ := State.noteRace_racing (s := s) (c := c) x.1.va x.2.length
    have hone : State.storeLocal c s x = (s.racing rs).modCore c fun k => { k with mem := k.mem.writeBytes x.1.va x.2 } := by
      simp only [State.storeLocal, hn, hr]
    obtain ⟨rs', h⟩ := ih (s := State.storeLocal c s x) hps
    refine ⟨fun n x => rs' n { x with raced := rs n x }, ?_⟩
    rw [List.foldl_cons, h, hone, State.modCore_racing, State.racing_racing, State.modCore_modCore]
    rfl

/-! ### What else a store of the window changes -/

/-- A core with other local memory and another undo log, as the old ones give them. -/
def Core.stores (M : Memory → Memory) (U : Memory → List UndoLog → List UndoLog) (k : Core) : Core :=
  { k with mem := M k.mem, undo := U k.mem k.undo }

theorem State.modCore_stores_stores (M M' : Memory → Memory) (U U' : Memory → List UndoLog → List UndoLog) :
    (s.modCore c (Core.stores M U)).modCore c (Core.stores M' U') =
      s.modCore c (Core.stores (M' ∘ M) fun m us => U' (M m) (U m us)) :=
  State.modCore_modCore ..

/-- The state in which the path's troupe has other deferred accesses. -/
def State.deferring (s : State) (p : Path) (ds : List Deferred → List Deferred) : State :=
  s.mod p fun t => { t with deferred := ds t.deferred }

theorem State.keepDeferred_deferring (hs : List Hit) : ∃ ds, s.keepDeferred p hs = s.deferring p ds := by
  unfold State.keepDeferred
  split
  · exact ⟨_, rfl⟩
  · refine ⟨id, ?_⟩
    have h : (fun k : Core => k.modTroupe p.blk p.at_.troupe fun t => { t with deferred := id t.deferred }) = fun k => k := by
      funext k
      simp [Core.modTroupe]
    unfold State.deferring State.mod State.modTroupe
    rw [h, State.modCore_self]

theorem State.noteStores_stores (hs : List Hit) : ∃ U, s.noteStores p hs = s.modCore p.core (Core.stores id U) :=
  ⟨fun m us => (({ Core.reset with mem := m, undo := us } : Core).noteWrites p.blk p.at_.troupe
    ((hs.filter (·.x.isNone)).flatMap fun h => (List.range h.size).map fun i => (h.va + i, m.read (h.va + i)))
    (hs.any (·.x.isSome))).undo, rfl⟩

theorem State.sealRegion_stores (yes : Bool) : ∃ U, s.sealRegion p yes = s.modCore p.core (Core.stores id U) := by
  cases yes with
  | false => exact ⟨fun _ us => us, State.modCore_self.symm⟩
  | true =>
    exact ⟨fun _ us => (({ Core.reset with undo := us } : Core).modLog p.blk p.at_.troupe
      fun u => { u with sealed := u.sealed ||| p.at_.lanes }).undo, rfl⟩

/-- Marking the block does not meet what a store changes in its core. -/
theorem State.noteSync_stores (M : Memory → Memory) (U : Memory → List UndoLog → List UndoLog) (yes : Bool) :
    (s.modCore p.core (Core.stores M U)).noteSync p yes = (s.noteSync p yes).modCore p.core (Core.stores M U) := by
  have h : (s.modCore p.core (Core.stores M U)).checkedCore p.core = s.checkedCore p.core := rfl
  unfold State.noteSync
  rw [h]
  split
  · unfold State.modPathBlock State.modBlock
    rw [State.modCore_modCore, State.modCore_modCore]
    rfl
  · rfl

theorem State.touchHits_local (hl : ∀ h ∈ hs, h.x = none) : s.touchHits p hs = s :=
  List.foldlRecOn (motive := fun t => t = s) _ _ rfl fun t ht h hm => by simp only [hl h hm, ht]

theorem State.markReleases_local (hl : ∀ h ∈ hs, h.x = none) (rel : Bool) : s.markReleases p rel hs = s := by
  have hd : ∀ h ∈ hs, h.dramAddr = none := fun h hm => by simp [Hit.dramAddr, hl h hm]
  unfold State.markReleases
  split
  · rw [List.filterMap_eq_nil_iff.mpr fun h hm => by rw [hd h hm]; rfl, List.append_nil]
  · rfl

/-- No writes: nothing performs. -/
theorem State.writeAll_nil : s.writeAll c [] = (s, none) := by
  have hr : s.dropReleases [] = s := by
    unfold State.dropReleases
    simp
  have hp : s.performWrites [] = s := by
    unfold State.performWrites
    rw [List.foldl_nil, State.clearPoison_clean (by simp [dramAddrs])]
    exact hr
  show (s.performWrites [], none) = _
  rw [hp]

/-- A store of local pieces: its bytes in order, the undo log, and what races and deferred accesses keep. -/
theorem State.storeHits_local (hl : ∀ h ∈ hs, h.x = none) (ord : Nat) : ∃ ds rs U, s.storeHits p hs v ord =
    .ok (((s.deferring p ds).racing rs).modCore p.core (Core.stores (storePieces (pieceBytes hs v)) U)) := by
  have hb : ∀ x ∈ pieceBytes hs v, x.1.x = none := fun x hm => hl _ (pieceBytes_mem (k := x.1) (bs := x.2) hm).1
  have hw : writesOf (pieceBytes hs v) ord = [] := List.filterMap_eq_nil_iff.mpr fun x hm => by rw [hb x hm]; rfl
  obtain ⟨ds, hd⟩ := State.keepDeferred_deferring (s := s) (p := p) hs
  obtain ⟨U, hU⟩ := State.noteStores_stores (s := s.deferring p ds) (p := p) hs
  obtain ⟨rs, hr⟩ := State.storeLocals (c := p.core) (s := (s.deferring p ds).modCore p.core (Core.stores id U)) hb
  refine ⟨ds, rs, U, ?_⟩
  rw [State.storeHits_eq, hw, hd, hU, hr, State.writeAll_nil, State.modCore_racing]
  exact congrArg Except.ok (State.modCore_modCore ..)

/-- What follows a store of local pieces marks the block and changes the undo log. -/
theorem State.endStores (hl : ∀ h ∈ hs, h.x = none) (M : Memory → Memory) (U : Memory → List UndoLog → List UndoLog) (yes : Bool) :
    ∃ us, (((s.modCore p.core (Core.stores M U)).markReleases p yes hs).noteSync p yes).sealRegion p yes =
      (s.noteSync p yes).modCore p.core fun k => { k with mem := M (s.core p.core).mem, undo := us } := by
  obtain ⟨U', h⟩ := State.sealRegion_stores (s := (s.noteSync p yes).modCore p.core (Core.stores M U)) (p := p) yes
  have hm : ((s.noteSync p yes).core p.core).mem = (s.core p.core).mem :=
    mem_of_memories (memories_of_aside (State.noteSync_aside yes))
  rw [State.markReleases_local hl, State.noteSync_stores, h, State.modCore_stores_stores, ← hm]
  exact ⟨_, rfl⟩

/-! ### The obligation -/

variable {s1 s2 : State} {h : Head} {f : MForm} {x : Operand}

theorem State.mem_popPorts (fields : List Nat) : ((s.popPorts p fields).core c).mem = (s.core c).mem :=
  mem_of_memories (memories_of_aside (State.popPorts_aside fields))

theorem State.mem_deferring (ds : List Deferred → List Deferred) : ((s.deferring p ds).core c).mem = (s.core c).mem :=
  mem_of_memories (memories_of_aside (State.mod_aside fun _ => rfl))

theorem State.mem_racing (rs : Nat → MatCmd → List (List Host.Cell)) : ((s.racing rs).core c).mem = (s.core c).mem := rfl

theorem State.popPorts_racing (fields : List Nat) (rs : Nat → MatCmd → List (List Host.Cell)) : (s.popPorts p fields).racing rs =
    { s.popPorts p fields with pairs := s.pairs.mapIdx fun n (q : Pair) =>
        { q with queue := q.queue.map fun (x : MatCmd) => { x with raced := rs n x } } } := by
  unfold State.racing
  rw [State.popPorts_pairs]

/-- The bytes of the window that the active lanes store, in ascending lane order. -/
theorem storePieces_window (m : Memory) : storePieces (pieceBytes (windowHits s p f x) v) m =
    storeLanes m (localAt s p f x) (accessSize f) v p.active.lanes := by
  unfold storePieces
  rw [pieceBytes_window, List.foldl_map]
  rfl

/-- STL: local memory after its lanes' stores, and what its logs, deferred accesses and queued commands keep. -/
theorem execStl_begins (b : Begins (.stl h f) h 12 s p s1 s2) (hf : LocalFits s2 p f x)
    (hd : (s2.troupe p).checkData p (MForm.kind f) f.d.toNat = .ok ()) :
    ∃ ds rs us, exec (.stl h f) s = .next
      (((((s2.popPorts p (indexFields f)).racing rs).deferring p ds).noteSync p (isRel f.ord)).modCore p.core (fun k =>
        { k with
          mem := storeLanes (s2.core p.core).mem (localAt s2 p f x) (accessSize f) (storedValue s2 p f) p.active.lanes
          undo := us }) |>.logUndo p.at_ s1) := by
  have hl : ∀ g ∈ windowHits s2 p f x, g.x = none := fun _ => windowHits_local
  obtain ⟨ds, rs, U, ht⟩ := State.storeHits_local (s := s2.popPorts p (indexFields f)) (p := p) (v := storedValue s2 p f) hl
    f.ord.toNat
  obtain ⟨us, hend⟩ := State.endStores (s := ((s2.popPorts p (indexFields f)).racing rs).deferring p ds) (p := p) hl
    (storePieces (pieceBytes (windowHits s2 p f x) (storedValue s2 p f))) U (isRel f.ord)
  refine ⟨ds, rs, us, ?_⟩
  rw [exec_stl, ← storePieces_window, ← State.mem_popPorts (p := p) (indexFields f), ← State.mem_racing rs,
    ← State.mem_deferring (p := p) ds, ← hend]
  exact storeTo_begins (space := fun _ => .loc) b hf.1 hd (State.access_window hf true) ((State.touchHits_local hl).symm ▸ ht)

/-- Settles O23: a load sees words that are old or new; a store leaves in each byte what the highest lane stores there, for
the lanes store one after the other. -/
theorem localLoadsAndStores : Obligations.LocalLoadsAndStores := by
  unfold Obligations.LocalLoadsAndStores
  refine ⟨fun h f s p s1 s2 x b hf => ?_, fun h f s p s1 s2 x b hf hd => ?_⟩
  case refine_1 =>
    intro kind regs hd old late s3
    refine ⟨s2.seen p.core, ?_, fun hidle l => State.seen_of_idle hidle, fun hm l w => State.seen_word hm w⟩
    exact State.popPorts_drawn (s := s2) (c := p.core) (indexFields f) ▸ execLdl_begins b hf hd
  case refine_2 =>
    intro old
    obtain ⟨ds, rs, us, he⟩ := execStl_begins b hf hd
    rw [State.popPorts_racing] at he
    refine ⟨_, us, ds, rs, he, fun hm => ⟨storeLanes_wf hm, fun a ha => ?_, fun l i hl hi ha => ?_⟩⟩
    · exact read_storeLanes_other hm fun l hl => ha l ((Mask.mem_lanes _ _).mp hl)
    · exact read_storeLanes_highest hm (Mask.pairwise_lanes _) ((Mask.mem_lanes _ _).mpr hl) hi
        fun n hn hln => ha n ((Mask.mem_lanes _ _).mp hn) hln

end

end Sys2Proof.Machine
end

section
/-!
What a departure leaves behind, for O20: the record that has joined the cue store, and the troupe whose lanes have left.
Both may have been spilled since (R125), which changes only where their bytes lie.
-/
namespace Sys2Proof.Machine

/-! ### Lanes that leave residency (R120, R124) -/

theorem keepsName_leave (m : Mask) : KeepsName fun t => t.leave m := fun _ => ⟨rfl, rfl⟩

/-- A lane that leaves is departed and not stopped; the others stay. -/
theorem Troupe.lane_leave {t : Troupe} {m : Mask} {l : Nat} (h : l < t.lanes.length) :
    (t.leave m).lane l = if m.has l then { t.lane l with place := .departed, stopped := false } else t.lane l :=
  Troupe.lane_modLanes t m (fun _ l => { l with place := .departed, stopped := false }) l h

/-- The slot is free once no lane stays resident. -/
theorem Troupe.slot_leave {t : Troupe} {m : Mask}
    (h : ∀ l, l < t.lanes.length → (t.lane l).place = .resident → m.has l = true) : (t.leave m).slot = none := by
  unfold Troupe.leave
  refine if_neg fun hany => ?_
  obtain ⟨l, hl, hres⟩ := (Troupe.any_lanes _ _).mp hany
  rw [Troupe.length_modLanes] at hl
  rw [Troupe.lane_modLanes _ _ _ _ hl] at hres
  split at hres
  · exact absurd hres (by simp)
  · next hm => exact hm (h l hl (by simpa using hres))

/-! ### What spilling keeps (R125) -/

/-- A record is found, but for its bytes' place, in a core that differs only in what is spilled. -/
theorem SameButSpilled.exists_record {k k' : Core} {r : CueRec} (h : SameButSpilled k k') (hr : r ∈ k.cue) :
    ∃ r' ∈ k'.cue, r'.unspilled = r.unspilled := by
  have hm : r.unspilled ∈ k'.cue.map CueRec.unspilled := h.1 ▸ List.mem_map_of_mem hr
  exact List.mem_map.mp hm

/-- So is a troupe. -/
theorem SameButSpilled.exists_troupe {k k' : Core} {b i : Nat} {t : Troupe} (h : SameButSpilled k k')
    (ht : k.troupe b i = some t) : ∃ t', k'.troupe b i = some t' ∧ t'.unspilled = t.unspilled := by
  have hm := h.troupe b i
  rw [ht] at hm
  exact Option.map_eq_some_iff.mp hm

/-! ### The obligation -/

/-- Settles O20: the record and the troupe right after the lanes have left, found again after the room check. -/
theorem departureRecord : Obligations.DepartureRecord := by
  unfold Obligations.DepartureRecord
  intro s t p key resume kind u hc hu hd
  have hsame := State.depart_core hc hu hd
  obtain ⟨r, hr, hrec⟩ := hsame.exists_record (List.mem_append_right _ (List.mem_singleton.mpr rfl))
  have hleft := Core.troupe_modTroupe (s.core p.core) p.blk p.at_.troupe _ (keepsName_leave p.at_.lanes)
  rw [hu] at hleft
  obtain ⟨v, hv, htr⟩ := hsame.exists_troupe hleft
  have hlane (l : Nat) : v.lane l = (u.leave p.at_.lanes).lane l := congrArg (·.lane l) htr
  simp only [CueRec.unspilled, CueRec.mk.injEq] at hrec
  refine ⟨⟨r, hr, ?_⟩, v, hv, congrArg (·.regs) htr, congrArg (·.k) htr, fun l hl => ?_, fun hall => ?_⟩
  · simp [hrec, Troupe.toRecord]
  · exact (hlane l).trans (Troupe.lane_leave hl)
  · exact (congrArg (·.slot) htr).trans (Troupe.slot_leave hall)

end Sys2Proof.Machine
end

section
/-!
Transfers and the return stack, for O18: the comparator passes where no second run is judged, lanes whose stack is full
or empty raise STACKOVF together, and a call or return of lanes within the hardware entries makes no access.
-/
namespace Sys2Proof.Machine
open Sys2Proof.Claims

variable {s s1 s2 : State} {p : Path} {h : Head} {i : Instr} {m : Mask} {target : Nat → DWord} {hs : List Hit}

/-! ### Conditions and targets (R138, R139, R141) -/

theorem CForm.cond_iff {f : CForm} : CForm.cond f (s.troupe p) = true ↔ condOf f s p := by
  unfold CForm.cond condOf Troupe.cpred
  rw [Bool.or_eq_true, Bool.not_eq_true', Bool.bne_eq_xor]

theorem CForm.target_eq (f : CForm) : CForm.target f p.at_.pc = targetOf f p := by
  unfold CForm.target targetOf
  rw [BitVec.mul_comm]

theorem targetFail_eq_none {a : DWord} (ha : a.toNat % 4 = 0) : targetFail a = none := by
  have : bitsOf a.toNat 1 0 = a.toNat % 4 := by simp [bitsOf_eq]
  exact if_pos (this.trans ha)

/-! ### The comparator (R385) -/

theorem State.passEvent_unjudged (hu : Unjudged s) (e : CmpEvent) : s.passEvent p e = .ok (passed s p e) := by
  have he : s.expected = none := hu
  unfold State.passEvent State.noteEvent passed
  by_cases hc : s.checkedCore p.core = true <;> simp [hc, he]

theorem State.passTransfer_unjudged (hu : Unjudged s) :
    s.passTransfer p m target = .ok (passed s p (transferred m target)) :=
  State.passEvent_unjudged hu _

theorem unjudged_touchHits (hu : Unjudged s) : Unjudged (s.touchHits p hs) :=
  (congrArg Paths.expected (paths_of_aside State.touchHits_aside)).trans hu

/-! ### Faults that several lanes share (R183) -/

/-- Lanes that fail in one way raise one fault, for all of them. -/
theorem raiseFirst_shared {ls : List Nat} {g : Nat → Option Fail} {f : Fail} (hp : f.pages = []) (hm : m ≠ 0)
    (hg : ∀ l ∈ ls, g l = none ∨ g l = some f) (hmask : ∀ l, m.has l = true ↔ l ∈ ls ∧ g l = some f) :
    raiseFirst none (ls.map fun l => (l, g l)) = .error (.fault f.code m f.addr f.arg none f.key) := by
  have hfails : ∀ x ∈ (ls.map fun l => (l, g l)).filterMap (fun x => x.2.map fun e => (x.1, e)), x.2 = f := by
    intro x hx
    obtain ⟨y, hy, hxy⟩ := List.mem_filterMap.mp hx
    obtain ⟨l, hl, rfl⟩ := List.mem_map.mp hy
    rcases hg l hl with h | h <;> simp only [h, Option.map_none, Option.map_some, Option.some.injEq, reduceCtorEq] at hxy
    exact hxy ▸ rfl
  have hlanes (l : Nat) :
      m.has l = true ↔ ∃ x ∈ (ls.map fun l => (l, g l)).filterMap (fun x => x.2.map fun e => (x.1, e)), x.1 = l := by
    rw [hmask]
    constructor
    · rintro ⟨hl, h⟩
      exact ⟨(l, f), List.mem_filterMap.mpr ⟨(l, g l), List.mem_map_of_mem hl, by simp [h]⟩, rfl⟩
    · rintro ⟨x, hx, rfl⟩
      obtain ⟨y, hy, hxy⟩ := List.mem_filterMap.mp hx
      obtain ⟨l, hl, rfl⟩ := List.mem_map.mp hy
      rcases hg l hl with h | h <;> simp only [h, Option.map_none, Option.map_some, Option.some.injEq, reduceCtorEq] at hxy
      exact hxy ▸ ⟨hl, h⟩
  unfold raiseFirst
  split
  · next hnil =>
    exact absurd (Mask.ext_has m 0 fun l _ => by
      have := (hlanes l).not.mpr (by simp [hnil])
      simpa [Mask.has] using this) hm
  · next l e rest hcons =>
    rw [hcons] at hfails hlanes
    have he : e = f := hfails (l, e) List.mem_cons_self
    subst he
    have hsame : ((l, e) :: rest).filter (fun x => x.2.code == e.code) = (l, e) :: rest :=
      List.filter_eq_self.mpr fun x hx => by simp [hfails x hx]
    have hpages : ((l, e) :: rest).flatMap (fun x => x.2.pages) = [] :=
      List.flatMap_eq_nil_iff.mpr fun x hx => by rw [hfails x hx, hp]
    have hof : Mask.ofTest (fun n => ((l, e) :: rest).any fun x => x.1 == n) = m := Mask.ext_has _ _ fun n hn => by
      rw [Mask.has_ofTest, Bool.eq_iff_iff, hlanes n]
      simp [hn]
    simp only [hsame, hpages, hof, List.isEmpty_nil, if_true]

/-- No lane is at the depth at which it fails. -/
theorem raiseFirst_depth_ok {g : Nat → Lane} {d : Nat} (hd : ∀ l, m.has l = true → (g l).depth ≠ d) :
    raiseFirst none (m.lanes.map fun l => (l, depthFail (fun n => n == d) (g l))) = .ok () := by
  refine raiseFirst_eq_ok.mpr fun x hx => ?_
  obtain ⟨l, hl, rfl⟩ := List.mem_map.mp hx
  simp [depthFail, hd l ((Mask.mem_lanes m l).mp hl)]

/-- The active lanes at that depth raise STACKOVF, with the depth (R142). -/
theorem raiseFirst_depth_fault {a : Mask} {g : Nat → Lane} {d : Nat} (hm : m ≠ 0)
    (hmask : ∀ l, m.has l = true ↔ a.has l = true ∧ (g l).depth = d) :
    raiseFirst none (a.lanes.map fun l => (l, depthFail (fun n => n == d) (g l))) =
      .error (.fault codeStackOvf m 0 d none .none) := by
  have hfail (l : Nat) : depthFail (fun n => n == d) (g l) =
      if (g l).depth = d then some { code := codeStackOvf, addr := 0, arg := d, pages := [], key := .none } else none := by
    unfold depthFail
    by_cases h : (g l).depth = d <;> simp [h]
  refine raiseFirst_shared (f := { code := codeStackOvf, addr := 0, arg := d, pages := [], key := .none }) rfl hm
    (fun l _ => ?_) fun l => ?_
  · by_cases h : (g l).depth = d <;> simp [hfail, h]
  · rw [hmask, Mask.mem_lanes]
    by_cases h : (g l).depth = d <;> simp [hfail, h]

theorem faults_of_body {len code arg : Nat} {addr : DWord} {body : Path → State → Exe State}
    (he : exec i s = runThread i h len body s)
    (b : Begins i h len s p s1 s2) (hb : body p s2 = .error (.fault code m addr arg none .none)) :
    Faults i s p s1 code m addr arg :=
  he.trans (runThread_error b hb)

/-! ### No access -/

theorem State.accessIn_nil (space : Space) (size : Nat) (write refused : Bool) (bound : Nat) :
    s.accessIn p space size write refused bound [] = .ok [] := by
  cases space <;> rfl

theorem State.keepDeferred_nil : s.keepDeferred p [] = s := by
  have hmap (c : Nat) (t : Troupe) : { t with deferred := t.deferred.map fun d => s.keepFor c d [] } = t := by
    have : (fun d => s.keepFor c d []) = id := by
      funext d
      unfold State.keepFor
      split <;> rfl
    rw [this, List.map_id]
  have hself : (fun k : Core => k.modTroupe p.blk p.at_.troupe fun t => t) = fun k => k := by
    funext k
    simp [Core.modTroupe]
  unfold State.keepDeferred State.mod State.modTroupe
  simp only [hmap, hself, State.modCore_self, ite_self]

theorem State.noteStores_nil : s.noteStores p [] = s := by
  have hself : (fun k : Core => k.noteWrites p.blk p.at_.troupe [] false) = fun k => k := by
    funext k
    simp [Core.noteWrites]
  unfold State.noteStores
  simp only [List.filter_nil, List.flatMap_nil, List.any_nil, hself, State.modCore_self]

/-- A store of no pieces changes nothing. -/
theorem State.storeHits_nil (v : Nat → Nat) (ord : Nat) : s.storeHits p [] v ord = .ok s := by
  rw [State.storeHits_eq]
  simp only [State.keepDeferred_nil, State.noteStores_nil, pieceBytes, writesOf, List.map_nil, List.foldl_nil,
    List.filterMap_nil, State.writeAll_nil]
  rfl

/-- No lane beyond the hardware entries spills. -/
theorem spills_eq_nil (hd : ∀ l, p.active.has l = true → ((s.troupe p).lane l).depth < 8) : spills s p = [] := by
  have hnone : p.active.lanes.filter (fun l => 8 ≤ ((s.troupe p).lane l).depth) = [] :=
    List.filter_eq_nil_iff.mpr fun l hl => by have := hd l ((Mask.mem_lanes _ _).mp hl); simpa using this
  unfold spills
  rw [hnone, List.flatMap_nil]

/-- No lane within them refills. -/
theorem refills_eq_nil (hd : ∀ l, p.active.has l = true → ((s.troupe p).lane l).depth ≤ 8) : refills s p = [] := by
  have hnone : p.active.lanes.filter (fun l => 8 < ((s.troupe p).lane l).depth) = [] :=
    List.filter_eq_nil_iff.mpr fun l hl => by have := hd l ((Mask.mem_lanes _ _).mp hl); simpa using this
  unfold refills
  rw [hnone, List.flatMap_nil]

/-! ### Calls (R133, R142) -/

/-- A call whose spills pass their checks and are stored. -/
theorem State.callTo_ok {s3 : State} (hlen : p.len = 8) (hu : Unjudged s)
    (ha : s.accessIn p .priv 4 true false ((s.block p).priv + 2048) (spills s p) = .ok hs)
    (hst : (passed (s.touchHits p hs) p (transferred p.active target)).storeHits p hs
      (fun l => (((s.troupe p).lane l).ret.getD 7 0).toNat) = .ok s3) :
    s.callTo p target = .ok (called s3 p target) := by
  have hnext : p.next = p.at_.pc + 8 := by simp [Path.next, hlen]
  unfold State.callTo called
  rw [← hnext]
  exact (Exe.bind_of_ok ha).trans ((Exe.bind_of_ok (State.passTransfer_unjudged (unjudged_touchHits hu))).trans
    (Exe.bind_of_ok hst))

/-- What a call does where its checks pass. -/
theorem calls_of_body {body : Path → State → Exe State} (he : exec i s = runThread i h 8 body s)
    (b : Begins i h 8 s p s1 s2) (hu : Unjudged s2) (hb : body p s2 = s2.callTo p target) : Calls i s p s1 s2 target := by
  refine ⟨fun hs s3 ha hst => ?_, fun hd => ?_⟩
  · exact he.trans (runThread_ok b (hb.trans (State.callTo_ok b.length hu ha hst)))
  · refine he.trans (runThread_ok b (hb.trans (State.callTo_ok (hs := []) b.length hu ?_ (State.storeHits_nil _ _))))
    rw [spills_eq_nil hd]
    exact State.accessIn_nil ..

theorem callsPush : CallsPush := by
  refine ⟨fun h f s p s1 s2 b => ⟨fun hc hu hd => ?_, fun hc => ?_, fun hc m hm hm0 => ?_⟩,
    fun h f s p s1 s2 x b hu hr hok => ?_⟩
  · refine calls_of_body (exec_call h f s) b hu ?_
    simp only [CForm.cond_iff.mpr hc, if_true, CForm.target_eq]
    exact Exe.bind_of_ok (raiseFirst_depth_ok hd)
  · refine (exec_call h f s).trans (runThread_ok b ?_)
    simp only [Bool.eq_false_iff.mpr (CForm.cond_iff.not.mpr hc), Bool.false_eq_true, if_false]
  · refine faults_of_body (exec_call h f s) b ?_
    simp only [CForm.cond_iff.mpr hc, if_true]
    exact congrArg (· >>= _) (raiseFirst_depth_fault hm0 hm)
  · refine calls_of_body (exec_callx h f s) b hu ((Exe.bind_of_ok hr).trans
      (Exe.bind_of_ok (raiseFirst_eq_ok.mpr fun y hy => ?_)))
    obtain ⟨l, hl, rfl⟩ := List.mem_map.mp hy
    obtain ⟨halign, hdepth⟩ := hok l ((Mask.mem_lanes _ _).mp hl)
    have ht : targetFail (pairAt x l) = none := targetFail_eq_none halign
    simp [ht, depthFail, maxDepth, hdepth]

/-! ### Returns (R133, R142) -/

/-- The active lanes after a return: each pops, and takes `refill` where its spill area holds an entry. -/
def returned (s : State) (p : Path) (refill : Nat → DWord) : State :=
  s.mod p fun t => t.modLanes p.active fun l x => x.popRet (refill l)

/-- A return whose refills pass their checks: it departs for them where they miss L1. -/
theorem execRet_ok {f : CForm} {s3 : State} (b : Begins (.ret h f) h 8 s p s1 s2) (hc : condOf f s2 p) (hu : Unjudged s2)
    (hd : ∀ l, p.active.has l = true → ((s2.troupe p).lane l).depth ≠ 0)
    (ha : s2.accessIn p .priv 4 false false ((s2.block p).priv + 2048) (refills s2 p) = .ok hs)
    (hp : s2.checkPoison hs = .ok ())
    (h3 : s3 = passed (s2.touchHits p hs) p (transferred p.active fun l => ((s2.troupe p).lane l).ret.headD 0)) :
    let s4 := returned s3 p fun l => BitVec.ofNat 64 (s3.laneValue p.core hs l)
    ∀ s5, (if !hs.isEmpty && Config.refillMisses s4.nextId then
        s4.departEach p .data 0 (fun l => ((s4.troupe p).lane l).pc) id
      else .ok s4) = .ok s5 → exec (.ret h f) s = .next (s5.logUndo p.at_ s1) := by
  intro s4 s5 h5
  subst h3
  refine (exec_ret h f s).trans (runThread_ok b ?_)
  simp only [CForm.cond_iff.mpr hc, if_true]
  exact (Exe.bind_of_ok (raiseFirst_depth_ok hd)).trans ((Exe.bind_of_ok ha).trans ((Exe.bind_of_ok hp).trans
    ((Exe.bind_of_ok (State.passTransfer_unjudged (unjudged_touchHits hu))).trans h5)))

theorem returnsPop : ReturnsPop := by
  intro h f s p s1 s2 b newest popped
  refine ⟨fun hc => ?_, fun hc m hm hm0 => ?_, fun hc hu hd => ⟨fun hshallow => ?_, fun hs ha hp => ?_⟩⟩
  · refine (exec_ret h f s).trans (runThread_ok b ?_)
    simp only [Bool.eq_false_iff.mpr (CForm.cond_iff.not.mpr hc), Bool.false_eq_true, if_false]
  · refine faults_of_body (exec_ret h f s) b ?_
    simp only [CForm.cond_iff.mpr hc, if_true]
    exact congrArg (· >>= _) (raiseFirst_depth_fault hm0 hm)
  · have ha : s2.accessIn p .priv 4 false false ((s2.block p).priv + 2048) (refills s2 p) = .ok [] := by
      rw [refills_eq_nil hshallow]
      exact State.accessIn_nil ..
    exact ⟨_, execRet_ok b hc hu hd ha rfl rfl _ rfl⟩
  · have hret := execRet_ok b hc hu hd ha hp rfl
    refine ⟨fun hstay => hret _ (if_neg fun hgo => ?_), fun hne hmiss s5 h5 => hret s5 ((if_pos ?_).trans h5)⟩
    · obtain ⟨hsome, hmiss⟩ := Bool.and_eq_true_iff.mp hgo
      rcases hstay with rfl | hhit
      · cases hsome
      · exact Bool.false_ne_true (hhit.symm.trans hmiss)
    · exact Bool.and_eq_true_iff.mpr ⟨by simpa using hne, hmiss⟩

/-- Settles O18: a call pushes and a return pops in each active lane, once their checks pass. -/
theorem callsAndReturns : Obligations.CallsAndReturns := ⟨callsPush, returnsPop⟩

end Sys2Proof.Machine
end

section
/-!
Records that become ready, for O43: what marking a record ready changes, what the return of deferred accesses leaves of
a core in which no record awaits them, and which records still await a page once its fill has completed.
-/
namespace Sys2Proof.Machine
open Sys2Proof.Claims

variable {s : State} {k : Core} {c rid page : Nat} {r : CueRec} {test : CueRec → Bool}

/-! ### Marking records ready (R121, R128) -/

/-- An unready record becomes ready, the last of the queue. -/
theorem Core.markReady_eq (hr : r ∈ k.cue) (hid : r.rid = rid) (hready : r.ready = false) :
    k.markReady rid = withReady k rid := by
  have hany : (k.cue.any fun x => x.rid == rid && !x.ready) = true := List.any_eq_true.mpr ⟨r, hr, by simp [hid, hready]⟩
  unfold Core.markReady withReady
  simp only [hany, if_true, beq_iff_eq]

/-- Marking makes no record unready. -/
theorem Core.mem_of_markReady (hr : r ∈ (k.markReady rid).cue) (hready : r.ready = false) : r ∈ k.cue := by
  unfold Core.markReady at hr
  split at hr
  · obtain ⟨x, hx, rfl⟩ := List.mem_map.mp hr
    split at hready
    · cases hready
    · next h => rwa [if_neg h]
  · exact hr

theorem Core.mem_of_markReadyWhere (hr : r ∈ (k.markReadyWhere test).cue) (hready : r.ready = false) : r ∈ k.cue :=
  List.foldlRecOn (motive := fun x : Core => r ∈ x.cue → r ∈ k.cue) _ Core.markReady id
    (fun _ h _ _ hm => h (Core.mem_of_markReady hm hready)) hr

theorem Core.markReadyWhere_none (h : ∀ r ∈ k.cue, test r = false) : k.markReadyWhere test = k := by
  have hnil : k.cue.filter (fun r => !r.ready && r.halted.isNone && test r) = [] :=
    List.filter_eq_nil_iff.mpr fun r hr => by simp [h r hr]
  unfold Core.markReadyWhere
  rw [hnil, List.map_nil, List.foldl_nil]

/-! ### Deferred accesses that return (R144) -/

/-- A troupe without the deferred accesses that no lane awaits any more. -/
def Troupe.settled (t : Troupe) : Troupe := { t with deferred := t.deferred.filter fun d => decide (d.lanes ≠ 0) }

theorem Troupe.settled_settled (t : Troupe) : t.settled.settled = t.settled := by
  simp [Troupe.settled, List.filter_filter]

/-- Where no record awaits deferred accesses, delivering them only removes those of no lane. -/
theorem Core.deliverDeferred_eq {b i : Nat} (h : ∀ r ∈ k.cue, r.key ≠ .deferred) :
    k.deliverDeferred b i = k.modTroupe b i Troupe.settled := by
  have hnone (r : CueRec) (hr : r ∈ k.cue) : (r.blk == b && r.troupe == i && r.key == .deferred) = false := by
    simp [h r hr]
  have hawait : k.cue.filter (fun r => r.blk == b && r.troupe == i && r.key == .deferred) = [] :=
    List.filter_eq_nil_iff.mpr fun r hr => by simp [hnone r hr]
  have hcue (back : List Deferred) : (k.cue.map fun r =>
      if (r.blk == b && r.troupe == i && r.key == .deferred) = true then back.foldl CueRec.take r else r) = k.cue :=
    (List.map_congr_left fun r hr => by rw [hnone r hr]; rfl).trans (List.map_id _)
  have hlanes (d : Deferred) : (if d.returned = true then { d with lanes := d.lanes &&& ~~~(0 : Mask) } else d) = d := by
    have hl : d.lanes &&& ~~~(0 : Mask) = d.lanes := BitVec.and_allOnes
    rw [hl, ite_self]
  have hset (t : Troupe) : { t with deferred := (t.deferred.map fun d => d).filter fun d => d.lanes != 0 } = t.settled := by
    have hne (d : Deferred) : (d.lanes != 0) = decide (d.lanes ≠ 0) := by rw [Bool.eq_iff_iff]; simp
    simp only [List.map_id', hne]
    rfl
  unfold Core.deliverDeferred
  split
  · next hm =>
    have hno : ∀ t ∈ k.troupes, (t.blk == b && t.idx == i) = false := by simpa [Core.troupe] using hm
    unfold Core.modTroupe
    rw [List.map_congr_left (g := id) fun t ht => by rw [hno t ht]; rfl, List.map_id]
  · simp only [hawait, hcue, List.foldl_nil, hlanes, hset]
    rfl

/-- Delivering to some troupes one after the other settles each of them. -/
theorem Core.foldl_deliverDeferred (h : ∀ r ∈ k.cue, r.key ≠ .deferred) (ts : List Troupe) :
    ts.foldl (fun k t => k.deliverDeferred t.blk t.idx) k =
      { k with troupes := k.troupes.map fun t =>
          if ts.any (fun x => x.blk == t.blk && x.idx == t.idx) then t.settled else t } := by
  induction ts generalizing k with
  | nil => simp
  | cons x xs ih =>
    rw [List.foldl_cons, Core.deliverDeferred_eq h, ih (k := k.modTroupe x.blk x.idx Troupe.settled) h]
    unfold Core.modTroupe
    congr 1
    rw [List.map_map]
    refine List.map_congr_left fun t _ => ?_
    have hsym : (x.blk == t.blk && x.idx == t.idx) = (t.blk == x.blk && t.idx == x.idx) := by
      rw [BEq.comm (a := x.blk), BEq.comm (a := x.idx)]
    simp only [Function.comp, List.any_cons, hsym]
    by_cases hx : (t.blk == x.blk && t.idx == x.idx) = true
    · simp only [hx, if_true, Bool.true_or]
      split
      · exact t.settled_settled
      · rfl
    · simp [hx]

theorem Core.wakeDeferred_eq (h : ∀ r ∈ k.cue, r.key ≠ .deferred) :
    k.wakeDeferred = { k with troupes := k.troupes.map Troupe.settled } := by
  have hall : (k.troupes.map fun t => if k.troupes.any (fun x => x.blk == t.blk && x.idx == t.idx) then t.settled else t) =
      k.troupes.map Troupe.settled :=
    List.map_congr_left fun t ht => if_pos (List.any_eq_true.mpr ⟨t, ht, by simp⟩)
  unfold Core.wakeDeferred
  rw [Core.foldl_deliverDeferred h, hall]
  exact Core.markReadyWhere_none fun r hr => by simp [h r hr]

/-- A troupe whose access `rid` has returned, unless its sector is poisoned (R251). -/
def Troupe.returning (t : Troupe) (rid : Nat) : Troupe :=
  { t with deferred := t.deferred.map fun d => if d.rid == rid && d.poison.isNone then { d with returned := true } else d }

theorem Core.returnDeferred_eq (h : ∀ r ∈ k.cue, r.key ≠ .deferred) :
    k.returnDeferred rid = { k with troupes := k.troupes.map fun t => (t.returning rid).settled } := by
  have hwake := Core.wakeDeferred_eq (k := { k with troupes := k.troupes.map fun t => t.returning rid }) h
  rw [List.map_map] at hwake
  exact hwake

/-! ### Fills that complete (R242, R243) -/

/-- What the owners of blocks depend on. -/
def State.homes (s : State) : List Launch × List (List (Option Block)) := (s.sched.launches, s.cores.map (·.blocks))

theorem ownerOf_of_homes {t : State} (h : t.homes = s.homes) (b : Nat) : t.ownerOf c b = s.ownerOf c b := by
  have hb : (t.core c).blocks = (s.core c).blocks := State.core_view Core.blocks (congrArg Prod.snd h) c
  have hl : t.sched.launches = s.sched.launches := congrArg Prod.fst h
  unfold State.ownerOf State.launchOf Core.block State.launch
  rw [hb, hl]

theorem State.modCore_homes {f : Core → Core} (hf : ∀ k, (f k).blocks = k.blocks) : (s.modCore c f).homes = s.homes := by
  have := State.map_modCore (s := s) (c := c) Core.blocks hf
  simp only [State.homes, this]
  rfl

/-- A fill changes translations alone. -/
theorem State.fill_keeps {β : Type} {g : State → β} (hcache : ∀ (t : State) d, g { t with dtc := d } = g t)
    (hinstall : ∀ (t : State) own x evict, g (t.modCore c fun k => k.install own x evict) = g t) (own : Nat × Nat)
    (va evict : Nat) : g (s.fill c own va evict).2 = g s := by
  have hout : g (s.fillOutcome own va).2 = g s := by
    unfold State.fillOutcome
    split
    · rfl
    · split
      · exact hcache _ _
      · rfl
  unfold State.fill
  split
  · rfl
  · split
    · next x t ht =>
      rw [ht] at hout
      exact (hinstall _ _ _ _).trans hout
    · exact hout

theorem State.fill_dram (own : Nat × Nat) (va evict : Nat) : (s.fill c own va evict).2.dram = s.dram :=
  State.fill_keeps (g := State.dram) (fun _ _ => rfl) (fun _ _ _ _ => rfl) own va evict

theorem State.fill_homes (own : Nat × Nat) (va evict : Nat) : (s.fill c own va evict).2.homes = s.homes :=
  State.fill_keeps (g := State.homes) (fun _ _ => rfl) (fun _ _ _ _ => State.modCore_homes fun _ => rfl) own va evict

theorem State.fill_cue (own : Nat × Nat) (va evict : Nat) : ((s.fill c own va evict).2.core c).cue = (s.core c).cue :=
  State.core_view Core.cue (State.fill_keeps (g := fun t => t.cores.map Core.cue) (fun _ _ => rfl)
    (fun _ _ _ _ => State.map_modCore Core.cue fun _ => rfl) own va evict) c

theorem State.fill_has (hc : Has s c) (own : Nat × Nat) (va evict : Nat) : Has (s.fill c own va evict).2 c :=
  hc.trans_eq (State.fill_keeps (g := fun t => t.cores.length) (fun _ _ => rfl) (fun _ _ _ _ => List.length_set)
    own va evict).symm

/-- A page that is done is awaited no more. -/
theorem Key.not_mem_without {key : Key} {vas : List Nat} (h : key.without page = some (.fills vas)) : page ∉ vas := by
  cases key
  case fills vs =>
    by_cases hp : page ∈ vs
    · have : vs.filter (fun a => a != page) = vas := by simpa [Key.without, hp] using h
      simp [← this]
    · simp [Key.without, hp] at h
  case pages vs => by_cases hp : page ∈ vs <;> simp [Key.without, hp] at h
  all_goals simp [Key.without] at h

/-- A record that is unready after a page is done was unready before, and awaits that page no more if it is of those
tested. -/
theorem Core.awaits_of_pageDone (hr : r ∈ (k.pageDone page test).cue) (hready : r.ready = false) (hhalt : r.halted = none)
    (hawaits : awaitsPage r page) : r ∈ k.cue ∧ test r = false := by
  obtain ⟨vas, hkey, hpage⟩ := hawaits
  obtain ⟨x, hx, hxr⟩ := List.mem_map.mp (Core.mem_of_markReadyWhere hr hready)
  dsimp only at hxr
  split at hxr
  · next hhit =>
    subst hxr
    obtain ⟨-, hsome⟩ := Bool.and_eq_true_iff.mp hhit
    obtain ⟨key, hwithout⟩ := Option.isSome_iff_exists.mp hsome
    have hk : key = .fills vas := by simpa [hwithout] using hkey
    exact absurd hpage (Key.not_mem_without (hk ▸ hwithout))
  · next hno =>
    subst hxr
    refine ⟨hx, ?_⟩
    simpa [hready, hhalt, hkey, Key.without, hpage] using hno

theorem CueRec.awaitsFill_eq (hready : r.ready = false) (h : awaitsPage r page) : r.awaitsFill page = true := by
  obtain ⟨vas, hkey, hpage⟩ := h
  simp [CueRec.awaitsFill, hkey, hready, hpage]

@[simp] theorem Core.keepOutcome_cue (f : Fill) (mine : CueRec → Bool) : (k.keepOutcome f mine).cue = k.cue := by
  cases f <;> rfl

@[simp] theorem Core.keepOutcome_blocks (f : Fill) (mine : CueRec → Bool) : (k.keepOutcome f mine).blocks = k.blocks := by
  cases f <;> rfl

@[simp] theorem Core.markReady_blocks : (k.markReady rid).blocks = k.blocks := by
  unfold Core.markReady
  split <;> rfl

@[simp] theorem Core.pageDone_blocks : (k.pageDone page test).blocks = k.blocks :=
  foldl_keeps (g := Core.blocks) (fun _ _ => Core.markReady_blocks) _

/-- The fill of a page for one owner (R243). -/
def State.fillPage (c page evict : Nat) (s : State) (own : Nat × Nat) : State :=
  let mine (r : CueRec) : Bool := r.awaitsFill page && s.ownerOf c r.blk == own
  let f := s.fill c own page evict
  f.2.modCore c fun k => (k.keepOutcome f.1 mine).pageDone page mine

/-- No unready record of one of these owners, but for halted ones, awaits the page. -/
def NoneAwaits (s : State) (c page : Nat) (own : Nat × Nat → Prop) : Prop :=
  ∀ r ∈ (s.core c).cue, r.ready = false → r.halted = none → own (s.ownerOf c r.blk) → ¬awaitsPage r page

/-- After the fill for one owner no record of that owner awaits the page; and an owner that had none has none. -/
theorem fillPage_noneAwaits {evict : Nat} {own : Nat × Nat} {done : Nat × Nat → Prop} (hc : Has s c)
    (h : NoneAwaits s c page done) :
    Has (s.fillPage c page evict own) c ∧ (s.fillPage c page evict own).dram = s.dram ∧
      NoneAwaits (s.fillPage c page evict own) c page fun o => o = own ∨ done o := by
  have hhas := State.fill_has hc own page evict
  have hhomes : (s.fillPage c page evict own).homes = s.homes :=
    (State.modCore_homes fun _ => by simp).trans (State.fill_homes own page evict)
  refine ⟨hhas.trans_eq List.length_set.symm, State.fill_dram own page evict, fun r hr hready hhalt hown hawaits => ?_⟩
  rw [ownerOf_of_homes hhomes] at hown
  unfold State.fillPage at hr
  dsimp only at hr
  rw [State.core_modCore _ _ _ hhas] at hr
  obtain ⟨hr, hother⟩ := Core.awaits_of_pageDone hr hready hhalt hawaits
  rw [Core.keepOutcome_cue, State.fill_cue] at hr
  rcases hown with hown | hdone
  · simp [CueRec.awaitsFill_eq hready hawaits, hown] at hother
  · exact h r hr hready hhalt hdone hawaits

/-- So it is with the fills of several owners. -/
theorem fillPages_noneAwaits {evict : Nat} (owns : List (Nat × Nat)) {done : Nat × Nat → Prop} (hc : Has s c)
    (h : NoneAwaits s c page done) :
    (owns.foldl (State.fillPage c page evict) s).dram = s.dram ∧
      NoneAwaits (owns.foldl (State.fillPage c page evict) s) c page fun o => o ∈ owns ∨ done o := by
  induction owns generalizing s done with
  | nil => exact ⟨rfl, fun r hr hready hhalt hown => h r hr hready hhalt (hown.resolve_left List.not_mem_nil)⟩
  | cons own owns ih =>
    obtain ⟨hc', hdram, h'⟩ := fillPage_noneAwaits (evict := evict) (own := own) hc h
    obtain ⟨hdrams, hall⟩ := ih hc' h'
    refine ⟨hdrams.trans hdram, fun r hr hready hhalt hown => hall r hr hready hhalt ?_⟩
    rcases hown with hown | hdone
    · exact (List.mem_cons.mp hown).elim (fun e => .inr (.inl e)) .inl
    · exact .inr (.inr hdone)

/-- The owners whose records await a page. -/
def State.awaiting (s : State) (c page : Nat) : List (Nat × Nat) :=
  (((s.core c).cue.filter fun r => r.awaitsFill page).map fun r => s.ownerOf c r.blk).eraseDups

/-- TLB_FILL_COMPLETE: nothing is left that awaits the page (R242). -/
theorem exec_tlbFillComplete_done {va : DWord} {evict : Nat} (hc : Has s c) :
    ∃ t, exec (.tlbFillComplete c va evict) s = .next t ∧ t.dram = s.dram ∧
      ∀ r ∈ (t.core c).cue, r.ready = false → r.halted = none → ¬awaitsPage r (va.toNat / 4096 * 4096) := by
  have hstart : NoneAwaits s c (va.toNat / 4096 * 4096) (· ∉ s.awaiting c (va.toNat / 4096 * 4096)) :=
    fun r hr hready _ hown hawaits =>
    hown (List.mem_eraseDups.mpr (List.mem_map_of_mem (List.mem_filter.mpr ⟨hr, CueRec.awaitsFill_eq hready hawaits⟩)))
  obtain ⟨hdram, hnone⟩ := fillPages_noneAwaits (evict := evict) (s.awaiting c (va.toNat / 4096 * 4096)) hc hstart
  exact ⟨_, rfl, hdram, fun r hr hready hhalt => hnone r hr hready hhalt (Classical.em _)⟩

end Sys2Proof.Machine
end

section
/-!
The steps of the cue store and of the stream engine, for O43, one lemma for each case of each step; and the obligation
itself.
-/
namespace Sys2Proof.Machine
open Sys2Proof.Claims

variable {s : State} {c rid n : Nat} {r : CueRec}

/-! ### Data returns and wake times (R120, R144, R145) -/

theorem exec_loadDataReturn_waits (h : s.opsPending c rid = true ∨ (s.core c).overLink rid = true ∧ s.link.state ≠ 2) :
    exec (.loadDataReturn c rid) s = .next s := by
  rw [exec_loadDataReturn]
  exact if_pos (by simpa using h)

section
variable (hops : s.opsPending c rid = false) (hlink : (s.core c).overLink rid = true → s.link.state = 2)
include hops hlink

theorem loadDataReturn_goes : (s.opsPending c rid || ((s.core c).overLink rid && s.link.state != 2)) = false := by
  rw [hops, Bool.false_or, Bool.and_eq_false_imp]
  exact fun h => by simpa using hlink h

/-- The data of a record makes it ready. -/
theorem exec_loadDataReturn_record (hr : r ∈ (s.core c).cue) (hid : r.rid = rid) (hkey : r.key = .data)
    (hready : r.ready = false) :
    exec (.loadDataReturn c rid) s = .next (s.setCore c (withReady (s.core c) rid)) := by
  have hany : ((s.core c).cue.any fun r => r.rid == rid && r.key == .data) = true :=
    List.any_eq_true.mpr ⟨r, hr, by simp [hid, hkey]⟩
  rw [exec_loadDataReturn]
  unfold execLoadDataReturn
  simp only [loadDataReturn_goes hops hlink, hany, Bool.false_eq_true, if_false, if_true]
  rw [State.modCore, Core.markReady_eq hr hid hready]

/-- That of a deferred access makes the access returned. -/
theorem exec_loadDataReturn_deferred
    (hkeys : ∀ r ∈ (s.core c).cue, (r.rid = rid → r.key ≠ .data) ∧ r.key ≠ .deferred) :
    exec (.loadDataReturn c rid) s =
      .next (s.setCore c { s.core c with troupes := (s.core c).troupes.map fun t => (t.returning rid).settled }) := by
  have hany : ((s.core c).cue.any fun r => r.rid == rid && r.key == .data) = false :=
    List.any_eq_false.mpr fun r hr => by simpa using (hkeys r hr).1
  rw [exec_loadDataReturn]
  unfold execLoadDataReturn
  simp only [loadDataReturn_goes hops hlink, hany, Bool.false_eq_true, if_false]
  rw [State.modCore, Core.returnDeferred_eq fun r hr => (hkeys r hr).2]

end

theorem Troupe.returning_settled (t : Troupe) (rid : Nat) : (t.returning rid).settled = { t with
    deferred := (t.deferred.map fun d => if d.rid = rid ∧ d.poison = none then { d with returned := true } else d).filter
      fun d => decide (d.lanes ≠ 0) } := by
  simp only [Troupe.returning, Troupe.settled, Bool.and_eq_true, beq_iff_eq, Option.isNone_iff_eq_none]

theorem exec_wakeTime_record (hfind : (s.core c).cue.find? (fun r => r.rid == rid && !r.ready) = some r)
    (hkey : r.key = .time n) :
    exec (.wakeTime c rid) s =
      .next ({ s with clock := BitVec.ofNat 64 (max s.clock.toNat n) }.setCore c (withReady (s.core c) rid)) := by
  have hr := List.find?_some hfind
  simp only [Bool.and_eq_true, beq_iff_eq, Bool.not_eq_true'] at hr
  have hmark := Core.markReady_eq (List.mem_of_find?_eq_some hfind) hr.1 hr.2
  rw [exec_wakeTime]
  unfold execWakeTime
  simp only [hfind, hkey]
  exact congrArg (fun k => Host.Outcome.next ({ s with clock := BitVec.ofNat 64 (max s.clock.toNat n) }.setCore c k)) hmark

/-! ### Read-back and relaunch (R125 to R131) -/

theorem exec_readBack_room {good : Bool} (hfirst : (s.core c).firstQueued (fun r => r.spilled) = some r)
    (hroom : (s.core c).cueUsed + (s.core c).sizeOf r / 64 ≤ Config.cueGranules) :
    exec (.readBack c good) s =
      .next (if good = true ∧ s.wingsHold c r.wingsAt ((s.core c).sizeOf r) r.written = true then
        s.setCore c (withUnspilled (s.core c) r.rid)
      else s.report.blockFault c r.blk codePoison 2 false 0 0 0) := by
  have hfits : (s.core c).readBackRoom r = some (s.core c) := if_pos hroom
  have hback : (s.core c).unspill r.rid = withUnspilled (s.core c) r.rid := by
    simp only [Core.unspill, withUnspilled, beq_iff_eq]
  rw [exec_readBack]
  unfold execReadBack
  simp only [hfirst, hfits, hback, Bool.and_eq_true]
  split <;> rfl

section
variable {t : Troupe}

theorem unlisted_alone (r : CueRec) : (fun x : CueRec => ! [r.rid].contains x.rid) = fun x => x.rid != r.rid := by
  funext x
  rw [Bool.eq_iff_iff]
  simp

/-- A record that relaunches alone. -/
theorem State.relaunchAll_alone (hrewind : r.rewind = false) (hc : Has s c) : s.relaunchAll c n t r [] =
    let gone := s.setCore c (withoutRecord (s.core c) r.rid)
    if r.cancel = true then gone.discardRecord c r.absorb
    else gone.modCore c fun k => (k.modTroupe r.blk r.troupe fun u => u.rejoin r.absorb n).modLog r.blk r.troupe fun u =>
      u.relaunch (s.debugs c r.blk) r.mask (t.rejoin r.bare n) (t.rejoin r.absorb n) := by
  have hdebugs : (s.setCore c (withoutRecord (s.core c) r.rid)).debugs c r.blk = s.debugs c r.blk := by
    unfold State.debugs State.launchOf
    rw [State.core_setCore _ _ _ hc]
    rfl
  rw [← hdebugs]
  unfold State.relaunchAll
  simp only [List.map_cons, List.map_nil, List.foldl_cons, List.foldl_nil, unlisted_alone, hrewind,
    Bool.false_eq_true, if_false]
  rfl

theorem State.relaunchAll_cancelled (hcancel : r.cancel = true) :
    s.relaunchAll c n t r [] = (s.setCore c (withoutRecord (s.core c) r.rid)).discardRecord c r.absorb := by
  unfold State.relaunchAll
  simp only [List.map_cons, List.map_nil, List.foldl_nil, unlisted_alone]
  exact if_pos hcancel

/-- RELAUNCH of a record without siblings, when its troupe's frame is at hand or can be read back (R126, R128). -/
theorem exec_relaunch_alone (hgo : s.relaunches c = true) (hhead : (s.core c).queueHead = some r)
    (ht : (s.core c).troupe r.blk r.troupe = some t) (hspilled : r.spilled = false)
    (hslot : (t.slot <|> (s.core c).freeSlot t.regs.length) = some n)
    (hsibs : ∀ x ∈ (s.core c).cue, r.mergesWith x = false) :
    exec (.relaunch c) s =
      .next (if t.framed && t.frameSpilled && !s.wingsHold c t.frameAt frameSize t.frameWritten then s.wingsFail c r.blk
        else s.relaunchAll c n t r []) := by
  have hnone : (s.core c).cue.filter (fun x => r.mergesWith x) = [] :=
    List.filter_eq_nil_iff.mpr fun x hx => by simp [hsibs x hx]
  rw [exec_relaunch]
  unfold execRelaunch
  simp only [hhead, ht, hspilled, hgo, hslot, hnone, Bool.not_true, Bool.or_self, Bool.false_eq_true, if_false]

theorem frame_lost_iff : (t.framed && t.frameSpilled && !s.wingsHold c t.frameAt frameSize t.frameWritten) = true ↔
    ¬(t.framed = true → t.frameSpilled = true → s.wingsHold c t.frameAt 1152 t.frameWritten = true) := by
  have : frameSize = 1152 := rfl
  simp [this, and_assoc]

end

/-! ### Fetches and pushes of streams (R264, R269) -/

/-- An element or its fault has been fetched ahead for a lane. -/
def State.fetchedAhead (s : State) (c n lane : Nat) (e : Fetched) : State := s.modCore c fun k =>
  (k.modCtx n fun x => x.modLanes (Mask.one lane) fun _ y => { y with ahead := y.ahead ++ [e] }).wakePorts

/-- The fetch of the element at an address. -/
def State.fetchNext (s : State) (c b n lane : Nat) (a : DWord) : State :=
  match s.elementPieces c b n lane a with
  | .error e => s.fetchedAhead c n lane (.fault e.code e.addr 0)
  | .ok hs =>
    let r := s.fillElement c b n hs
    match r.2.fetchElement c b n lane r.1 hs with
    | some e => r.2.fetchedAhead c n lane e
    | none => r.2

section
variable {b lane : Nat} {a : DWord} {hs : List Hit}

theorem State.fetchNext_refused {e : Fail} (h : s.elementPieces c b n lane a = .error e) :
    s.fetchNext c b n lane a = s.fetchedAhead c n lane (.fault e.code e.addr 0) := by
  simp only [State.fetchNext, h]

theorem State.fetchNext_found {e : Fetched} (h : s.elementPieces c b n lane a = .ok hs)
    (hf : (s.fillElement c b n hs).2.fetchElement c b n lane (s.fillElement c b n hs).1 hs = some e) :
    s.fetchNext c b n lane a = (s.fillElement c b n hs).2.fetchedAhead c n lane e := by
  simp only [State.fetchNext, h, hf]

/-- An element that a lock or an older command holds is fetched later (R13, R264). -/
theorem State.fetchNext_held (h : s.elementPieces c b n lane a = .ok hs)
    (hf : (s.fillElement c b n hs).2.fetchElement c b n lane (s.fillElement c b n hs).1 hs = none) :
    s.fetchNext c b n lane a = (s.fillElement c b n hs).2 := by
  simp only [State.fetchNext, h, hf]

end

/-- STREAM_FETCH_COMPLETE of a lane of a read port that has room and elements left. -/
theorem exec_streamFetchComplete_next {lane b i : Nat} :
    let x := (s.core c).ctx n
    let y := x.lane lane
    x.owner = some (b, i) → (s.core c).fetchesStop b = false → x.bound = true → x.write = false → lane < 64 →
    y.ahead.length < 8 → y.pos.toNat + y.ahead.length < x.pat.length.toNat →
    (∀ f, y.ahead.getLast? = some f → ∃ v scope, f = .value v scope) →
    exec (.streamFetchComplete c n lane) s =
      .next (s.fetchNext c b n lane (x.pat.offset x.kbase lane (y.pos.toNat + y.ahead.length))) := by
  intro x y howner hgo hbound hread hlane hroom hleft hlast
  have hstopped : ¬(match y.ahead.getLast? with
      | some (.fault _ _ _) => true
      | _ => false) = true := by
    cases hf : y.ahead.getLast? with
    | none => exact Bool.false_ne_true
    | some f =>
      obtain ⟨v, scope, rfl⟩ := hlast f hf
      exact Bool.false_ne_true
  rw [exec_streamFetchComplete]
  unfold execStreamFetchComplete
  dsimp only
  rw [show ((s.core c).ctx n).owner = some (b, i) from howner]
  refine (if_neg ?_).trans ?_
  case refine_2 =>
    unfold State.fetchNext
    cases s.elementPieces c b n lane (x.pat.offset x.kbase lane (y.pos.toNat + y.ahead.length)) with
    | error e => rfl
    | ok hs =>
      cases hf : (s.fillElement c b n hs).2.fetchElement c b n lane (s.fillElement c b n hs).1 hs with
      | none => simp only [hf]
      | some e => simp only [hf, State.fetchedAhead]
  simp only [Bool.or_eq_true, decide_eq_true_eq, not_or, Bool.not_eq_true', Bool.not_eq_false, Bool.not_eq_true]
  refine ⟨⟨⟨⟨⟨⟨hgo, hbound⟩, hread⟩, Nat.not_le.mpr hlane⟩, Nat.not_le.mpr hroom⟩, Nat.not_le.mpr hleft⟩,
    Bool.eq_false_iff.mpr hstopped⟩

/-- PUSH_TRANSLATION_RESTORED, where one push waits and performs. -/
theorem exec_pushTranslationRestored_performs {lane b i : Nat} {q : Push} {s' : State}
    (howner : ((s.core c).ctx n).owner = some (b, i)) (hwaits : (((s.core c).ctx n).lane lane).waitingPush = some q)
    (hheld : ((((s.fill c (s.ownerOf c b) q.addr.toNat oldestEntry).2.core c).heldOf b ((s.core c).ctx n).troupe lane).filter
      fun h => h.2.waiting) = [(n, q)])
    (hperform : (s.fill c (s.ownerOf c b) q.addr.toNat oldestEntry).2.performPush c b ((s.core c).ctx n).troupe lane n q =
      (s', false, none)) :
    exec (.pushTranslationRestored c n lane true) s =
      .next ((s'.modCore c fun k => k.settlePush n lane q false).modCore c fun k => k.finishClose n) := by
  rw [exec_pushTranslationRestored]
  unfold execPushTranslationRestored
  simp only [howner, hwaits, if_true]
  unfold State.retryHeld
  simp only [hheld, State.performHeld, Bool.false_eq_true, if_false, hperform]
  rfl

theorem exec_pushTranslationRestored_lost {lane b i : Nat} {q : Push} (howner : ((s.core c).ctx n).owner = some (b, i))
    (hwaits : (((s.core c).ctx n).lane lane).waitingPush = some q) :
    exec (.pushTranslationRestored c n lane false) s =
      .next ((s.modCore c fun k => (k.settlePush n lane q false).finishClose n).blockFaultOf (s.elementRecord c b n lane)
        c b codePageFault 0 true 0 q.addr 0) := by
  rw [exec_pushTranslationRestored]
  unfold execPushTranslationRestored
  simp only [howner, hwaits, Bool.false_eq_true, if_false]

/-! ### The obligation -/

/-- Settles O43, from one lemma for each case of each step. -/
theorem cueSteps : Obligations.CueSteps := by
  unfold Obligations.CueSteps
  refine ⟨fun s c rid r hc hops hlink => ⟨fun hr hid hkey hready => ?_, fun hkeys => ?_⟩, fun s c rid h => ?_,
    fun s c rid n r hc hfind hkey => ?_, fun s c va evict hc => ?_, fun s c good r hfirst hroom => ?_,
    fun s c n r t hc hgo hhead ht hspilled hslot hsibs => ?_, fun s c n lane b i => ?_, fun s c n lane b i q => ?_⟩
  · exact exec_loadDataReturn_record hops hlink hr hid hkey hready
  · exact ⟨_, exec_loadDataReturn_deferred hops hlink hkeys, rfl,
      List.map_congr_left fun t _ => t.returning_settled rid⟩
  · exact exec_loadDataReturn_waits h
  · exact exec_wakeTime_record hfind hkey
  · exact exec_tlbFillComplete_done hc
  · exact exec_readBack_room hfirst hroom
  · intro held gone
    have hstep := exec_relaunch_alone hgo hhead ht hspilled hslot hsibs
    refine ⟨fun hheld hcancel hrewind => ?_, fun hheld hcancel => ?_, fun hlost => ?_⟩
    · rw [hstep, if_neg (frame_lost_iff.not.mpr (not_not_intro hheld)), State.relaunchAll_alone hrewind hc, hcancel]
      rfl
    · rw [hstep, if_neg (frame_lost_iff.not.mpr (not_not_intro hheld)), State.relaunchAll_cancelled hcancel]
    · rw [hstep, if_pos (frame_lost_iff.mpr hlost)]
      rfl
  · intro x y a put howner hgo hbound hread hlane hroom hleft hlast
    have hstep := exec_streamFetchComplete_next howner hgo hbound hread hlane hroom hleft hlast
    exact ⟨fun e he => hstep.trans (congrArg _ (State.fetchNext_refused he)), fun hs hhs =>
      ⟨fun e he => hstep.trans (congrArg _ (State.fetchNext_found hhs he)),
        fun he => hstep.trans (congrArg _ (State.fetchNext_held hhs he))⟩⟩
  · intro x filled howner hwaits
    exact ⟨fun s' hheld hperform => exec_pushTranslationRestored_performs howner hwaits hheld hperform,
      exec_pushTranslationRestored_lost howner hwaits⟩

end Sys2Proof.Machine
end

section
/-!
Bind records and the launches they name, for O47: what binding a launch that stands alone changes, and which core rows are
refused.
-/
namespace Sys2Proof.Machine
open Sys2Proof.Claims

variable {s : State} {c b n id : Nat} {rec : BitVec 128} {l : Launch}

/-! ### Launches (R359, R374) -/

theorem State.modLaunch_eq (id : Nat) (f : Launch → Launch) : s.modLaunch id f = withLaunch s id f := by
  simp only [State.modLaunch, State.modSched, withLaunch, beq_iff_eq]

/-- A launch is found by its own number. -/
theorem State.launch_id (h : s.launch id = some l) : l.id = id := by
  simpa using List.find?_some h

theorem State.launch_of_launchOf (h : s.launchOf c b = some l) : s.launch l.id = some l := by
  obtain ⟨k, -, hl⟩ := Option.bind_eq_some_iff.mp h
  rwa [State.launch_id hl]

/-! ### Bind records (R361, R362) -/

theorem State.clearCode_eq (clmask : BitVec 16) (coremask : BitVec 8) :
    s.clearCode clmask coremask = uncached clmask coremask s := by
  simp only [State.clearCode, uncached, Bool.and_eq_true]

theorem Launch.freshRanges_eq (l : Launch) : l.freshRanges = unowned l := rfl

/-- Where a launch has no block placed, its priority is that of its entry in the scheduler alone. -/
theorem State.setPrio_unplaced {prio : Nat} (h : s.blocksOf [id] = []) :
    s.setPrio [id] prio = withLaunch s id fun x => { x with prio := prio } := by
  have hmap : (s.modSched fun q => { q with
      launches := q.launches.map fun x => if [id].contains x.id then { x with prio := prio } else x }) =
      withLaunch s id fun x => { x with prio := prio } := by
    simp only [State.modSched, withLaunch, List.contains_cons, List.contains_nil, Bool.or_false, beq_iff_eq]
  unfold State.setPrio
  rw [hmap]
  exact congrArg (fun xs => List.foldl _ _ xs) h

theorem withLaunch_withLaunch (f g : Launch → Launch) (hf : ∀ x, (f x).id = x.id) :
    withLaunch (withLaunch s id f) id g = withLaunch s id fun x => g (f x) := by
  unfold withLaunch
  simp only [List.map_map]
  congr 2
  refine List.map_congr_left fun x _ => ?_
  by_cases hx : x.id = id <;> simp [hx, hf]

/-- A launch that has no children and no block placed is bound alone. -/
theorem State.bindFamily_alone {r : BindRec} (hfam : s.family l.id = [l.id]) (hblocks : s.blocksOf [l.id] = []) :
    s.bindFamily l r n rec = uncached r.clmask r.coremask (withRow (withLaunch s l.id fun x =>
      { x with
        ranges := unowned x, bound := true, draining := none, prio := r.prio, clmask := r.clmask, coremask := r.coremask })
      n rec) := by
  have hbind : (s.modSched fun q => { q with
      launches := q.launches.map fun x => if [l.id].contains x.id then x.bindTo r else x }) =
      withLaunch s l.id fun x => x.bindTo r := by
    simp only [State.modSched, withLaunch, List.contains_cons, List.contains_nil, Bool.or_false, beq_iff_eq]
  have hprio := State.setPrio_unplaced (s := withLaunch s l.id fun x => x.bindTo r) (prio := r.prio) hblocks
  unfold State.bindFamily
  simp only [hfam, hbind]
  rw [hprio, withLaunch_withLaunch (fun x => x.bindTo r) _ fun _ => rfl, State.clearCode_eq]
  rfl

/-- BIND of the queue's head launch (R361). -/
theorem exec_bind_waiting (hw : s.waitingLaunch n (BindRec.read rec).seq = some l)
    (hset : s.setOk (BindRec.read rec) n l = true)
    (hhead : s.isHead n (BindRec.read rec).seq = true) :
    exec (.bind n rec) s = .next ((s.popQueue n).bindFamily l (BindRec.read rec) n rec) := by
  rw [exec_bind]
  unfold execBind
  simp only [hw, hset, hhead, Bool.and_self, if_true]

/-- A record that names no launch is reported. -/
theorem exec_unnamed (hw : s.waitingLaunch n (BindRec.read rec).seq = none)
    (hb : s.boundLaunch n (BindRec.read rec).seq = none) :
    exec (.bind n rec) s = .next s.report ∧ exec (.reprioritise n rec) s = .next s.report ∧
      ∀ a, exec (.drain n rec a) s = .next s.report := by
  refine ⟨?_, ?_, fun a => ?_⟩
  · rw [exec_bind]
    simp only [execBind, hw, hb]
  · rw [exec_reprioritise]
    simp only [execReprioritise, hb]
  · rw [exec_drain]
    simp only [execDrain, hb]

theorem exec_drain_bound {addr : DWord} (hb : s.boundLaunch n (BindRec.read rec).seq = some l)
    (hok : s.bindOk (BindRec.read rec) 1 n l = true) :
    exec (.drain n rec addr) s = .next (withRow (withLaunch s l.id fun x => { x with draining := some addr }) n rec) := by
  rw [exec_drain]
  simp only [execDrain, hb, hok, if_true, State.modLaunch_eq]
  rfl

theorem exec_reprioritise_bound (hb : s.boundLaunch n (BindRec.read rec).seq = some l)
    (hok : s.bindOk (BindRec.read rec) 2 n l = true) :
    exec (.reprioritise n rec) s = .next (withRow (s.setPrio (s.family l.id) (BindRec.read rec).prio) n rec) := by
  rw [exec_reprioritise]
  simp only [execReprioritise, hb, hok, if_true]
  rfl

/-! ### Core rows (R362, R380, R384) -/

/-- The set that a core row names holds the core's cluster. -/
theorem clusterSet_has (h : c < 128) : (BitVec.ofNat 16 (2 ^ (c / 8))).getLsbD (c / 8) = true := by
  have : c / 8 < 16 := by omega
  rw [BitVec.getLsbD_ofNat, Nat.testBit_two_pow_self, decide_eq_true this]
  rfl

theorem State.rowCore_foreign (h : s.partOf (c / 8) ≠ some l.part) : s.rowCore c l = false := by
  simp [State.rowCore, h]

/-- A core of an understudy cluster takes no row. -/
theorem State.rowCore_understudy (hc : c < 128) (hodd : c / 8 % 2 = 1) (hchecked : (s.checkedPair (c / 16)).checked = true) :
    s.rowCore c l = false := by
  have hnames : s.namesUnderstudy (BitVec.ofNat 16 (2 ^ (c / 8))) 1 = true := by
    refine Bool.and_eq_true_iff.mpr ⟨rfl, List.any_eq_true.mpr ⟨c / 16, List.mem_range.mpr (by omega), ?_⟩⟩
    have hcl : 2 * (c / 16) + 1 = c / 8 := by omega
    rw [hchecked, hcl, clusterSet_has hc]
    rfl
  unfold State.rowCore
  simp only [hnames, Bool.not_true, Bool.and_false, Bool.false_and]

/-- For IL2 and IL3, a core of an unchecked pair takes none. -/
theorem State.rowCore_unchecked (hc : c < 128) (hil : 2 ≤ l.il) (hchecked : (s.checkedPair (c / 16)).checked = false) :
    s.rowCore c l = false := by
  have hver : s.verifiedFor l (BitVec.ofNat 16 (2 ^ (c / 8))) = false := by
    refine List.all_eq_false.mpr ⟨c / 8, List.mem_range.mpr (by omega), ?_⟩
    have hpair : c / 8 / 2 = c / 16 := by omega
    rw [clusterSet_has hc, hpair, hchecked]
    simp
  have hil' : ¬l.il < 2 := by omega
  unfold State.rowCore
  simp only [hver, decide_eq_false hil', Bool.or_self, Bool.and_false]

theorem exec_coreRowBind_taken (hb : s.boundLaunch (BindRec.read rec).queue (BindRec.read rec).seq = some l)
    (hset : s.setOk (BindRec.read rec) (BindRec.read rec).queue l = true) (hc : c < 128) (hslot : b < 8)
    (hrow : s.rowCore c l = true) :
    exec (.coreRowBind c b rec) s = .next { s with sched := { s.sched with
      coreRows := (s.sched.coreRows.filter fun x => !(x.1 == c && x.2.1 == b)) ++ [(c, b, rec)] } } := by
  rw [exec_coreRowBind]
  simp only [execCoreRowBind, hb]
  exact congrArg _ (if_pos (by simp [hset, hrow, Config.numCores, Config.blockSlots, hc, hslot]))

theorem exec_coreRowBind_refused (hb : s.boundLaunch (BindRec.read rec).queue (BindRec.read rec).seq = some l)
    (hno : 128 ≤ c ∨ 8 ≤ b ∨ s.rowCore c l = false) : exec (.coreRowBind c b rec) s = .next s.report := by
  rw [exec_coreRowBind]
  simp only [execCoreRowBind, hb]
  refine congrArg _ (if_neg fun hgo => ?_)
  simp only [Bool.and_eq_true, decide_eq_true_eq] at hgo
  obtain ⟨⟨⟨-, hc⟩, hslot⟩, hrow⟩ := hgo
  rcases hno with h | h | h
  · exact Nat.not_lt.mpr h hc
  · exact Nat.not_lt.mpr h hslot
  · exact Bool.false_ne_true (h.symm.trans hrow)

end Sys2Proof.Machine
end

section
/-!
Blocks that are given out and placed, the service of FETCHW and the watchdog, for O47; and the obligation itself.
-/
namespace Sys2Proof.Machine
open Sys2Proof.Claims

variable {s : State} {c b n id : Nat} {l : Launch}

/-! ### Drains and cuts (R365, R366) -/

theorem exec_drainPositionWrite_drained {a : DWord} (hl : s.launch id = some l) (ha : l.draining = some a)
    (hplaced : s.anyPlaced id = false) (hcut : l.cut = none) :
    exec (.drainPositionWrite id) s = .next (s.devWrite a.toNat (s.positionBytes id)) := by
  rw [exec_drainPositionWrite]
  simp only [execDrainPositionWrite, hl, ha, hplaced, hcut, Option.isSome_none, Bool.or_self, Bool.false_eq_true, if_false]

theorem le_foldl_max {x m : Nat} {xs : List Nat} (h : x ∈ xs ∨ x ≤ m) : x ≤ xs.foldl max m := by
  induction xs generalizing m with
  | nil => simpa using h
  | cons y ys ih =>
    refine ih ?_
    rcases h with h | h
    · rcases List.mem_cons.mp h with rfl | h
      · exact .inr (Nat.le_max_right _ _)
      · exact .inl h
    · exact .inr (Nat.le_trans h (Nat.le_max_left _ _))

/-- CONSISTENT_CUT: the target lies past every %step. -/
theorem exec_consistentCut_target (hl : s.launch id = some l) (hallowed : l.cutAllowed = true) (hbound : l.bound = true)
    (hfinal : l.final = false) (hparent : l.parent = none) (hcut : l.cut = none) :
    ∃ t n, exec (.consistentCut id) s = .next t ∧ (∀ u ∈ s.troupesOf id, u.step.toNat < n) ∧
      t = withFamily s id fun x => { x with cut := some n } := by
  refine ⟨_, ((s.troupesOf id).map fun t => t.step.toNat).foldl max 0 + 1, ?_,
    fun u hu => Nat.lt_succ_of_le (le_foldl_max (.inl (List.mem_map_of_mem hu))), rfl⟩
  rw [exec_consistentCut]
  simp only [execConsistentCut, hl, hallowed, hbound, hfinal, hparent, hcut, Option.isNone_none,
    Bool.not_false, Bool.and_self, if_true, State.modSched, withFamily, List.contains_iff_mem]

/-! ### Work requests (R363, R364) -/

/-- The launches whose ranges the distributor may give to a core. -/
def State.offering (s : State) (c : Nat) : List Launch :=
  (s.candidatesFor c).filter fun l => (l.owned c).isNone && (s.fits c l).isSome && !s.stopped l

theorem exec_workRequest_served (hnext : s.nextAsker = some c) (hasks : s.asks c = true) :
    exec (.workRequest c) s = .next ((s.grant (s.offering c) c).modSched fun q => { q with lastServed := c }) := by
  rw [exec_workRequest]
  unfold execWorkRequest
  exact if_pos (by simp [hnext, hasks])

theorem State.grant_cores (ls : List Launch) (c : Nat) : (s.grant ls c).cores = s.cores := by
  unfold State.grant
  split <;> rfl

theorem State.grant_dram (ls : List Launch) (c : Nat) : (s.grant ls c).dram = s.dram := by
  unfold State.grant
  split <;> rfl

theorem State.grant_best {ls : List Launch} {r : BlockRange} (h : bestOffer ls c = some (l, r)) :
    s.grant ls c = withLaunch s l.id fun x => { x with ranges := splitRange x.ranges r c } := by
  unfold State.grant
  simp only [h, State.modLaunch_eq]

/-! ### Placement (R108, R392) -/

theorem exec_blockPlace_placing {base : Nat} {r : BlockRange} (hready : (s.core c).hasReady = false)
    (hretry : s.nextRetry c = none) (hplacing : s.placing c = some (l, r, b, base)) :
    exec (.blockPlace c) s =
      .next ((withLaunch s l.id fun x => { x with ranges := takeLow x.ranges r }).place c l r.lo b base false) := by
  rw [exec_blockPlace]
  simp only [execBlockPlace, hready, hretry, hplacing, Option.isSome_none, Bool.or_self, Bool.false_eq_true, if_false,
    State.modLaunch_eq]

/-- The block that waits first to be placed again has its place. -/
theorem State.retryFits_first {index base : Nat} {rest : List (Nat × Nat)}
    (hwaits : (s.core c).retryPlace = (id, index) :: rest) (hl : s.launch id = some l)
    (hgo : s.stopped l = false) (hfits : s.fits c l = some (b, base)) (hset : s.inSet l c = true) :
    s.retryFits c = some (l, index, b, base) := by
  have hnext : s.nextRetry c = some (id, index) := by
    unfold State.nextRetry
    rw [hwaits, List.find?_cons_of_pos]
    simp [hl, hgo]
  simp [State.retryFits, hnext, hl, hset, hfits]

theorem exec_blockRetryPlace_first {index base : Nat} {rest : List (Nat × Nat)}
    (hwaits : (s.core c).retryPlace = (id, index) :: rest) (hl : s.launch id = some l)
    (hgo : s.stopped l = false) (hfits : s.fits c l = some (b, base)) (hset : s.inSet l c = true) :
    exec (.blockRetryPlace c) s =
      .next ((s.setCore c { s.core c with retryPlace := rest }).place c l index b base true) := by
  rw [exec_blockRetryPlace]
  simp only [execBlockRetryPlace, State.retryFits_first hwaits hl hgo hfits hset, State.modCore, hwaits,
    State.launch_id hl, List.erase_cons_head]

/-! ### FETCHW (R373) -/

section
variable {rid off : Nat} {r : CueRec} {k : Block} {a : Nat ⊕ Nat} {t : State}

section
variable (hr : (s.core c).cue.find? (fun r => r.rid == rid && !r.ready) = some r) (hkey : r.key = .mailbox off)
  (hk : (s.core c).block r.blk = some k) (hl : s.launchOf c r.blk = some l)
include hr hkey hk hl

/-- A request of FETCHW is served once the distributor answers it, and waits until then. -/
theorem exec_fetchwService_answered (h : s.fetchAnswer c l = some (a, t)) :
    exec (.fetchwService c rid) s = .next (t.writeMailbox c r.blk rid off k a) := by
  rw [exec_fetchwService]
  simp only [execFetchwService, hr, hkey, hk, hl, h]

theorem exec_fetchwService_unanswered (h : s.fetchAnswer c l = none) : exec (.fetchwService c rid) s = .next s := by
  rw [exec_fetchwService]
  simp only [execFetchwService, hr, hkey, hk, hl, h]

end

theorem State.fetchAnswer_cancelled (h : l.cancelled = true) : s.fetchAnswer c l = some (.inr 4, s) := if_pos h

theorem State.fetchAnswer_over (hcancel : l.cancelled = false) (h : s.stopped l = true ∨ l.ranges = []) :
    s.fetchAnswer c l = some (.inr 2, s) := by
  have hover : (s.stopped l || l.ranges.isEmpty) = true := by simpa using h
  unfold State.fetchAnswer
  simp only [hcancel, hover, Bool.false_eq_true, if_false, if_true]

/-- The lowest block of the core's own range is withdrawn. -/
theorem State.fetchAnswer_owned {g : BlockRange} (hl : s.launch l.id = some l) (hcancel : l.cancelled = false)
    (hgo : s.stopped l = false) (hg : l.owned c = some g) :
    s.fetchAnswer c l = some (.inl g.lo, withLaunch s l.id fun x => { x with ranges := takeLow x.ranges g }) := by
  have hranges : l.ranges.isEmpty = false := by
    rw [List.isEmpty_eq_false_iff]
    exact List.ne_nil_of_mem (List.mem_of_find?_eq_some hg)
  unfold State.fetchAnswer
  simp only [hcancel, hgo, hranges, hg, Bool.or_self, Bool.false_eq_true, if_false, Option.isSome_some, if_true]
  simp [State.withdraw, hl, hg, State.modLaunch_eq]

end

/-! ### The watchdog (R371) -/

theorem exec_watchdog_raises {i : Nat} {x : Block} {t : Troupe} (hx : (s.core c).block b = some x)
    (ht : (s.core c).troupe b i = some t) (hl : s.launchOf c b = some l) (hdl : l.deadline ≠ 0) (hend : x.ending = false)
    (hw : t.watched = false) (hage : s.ageStands c x t = false) :
    exec (.watchdog c b i) s =
      .next (({ s with clock := BitVec.ofNat 64 (max s.clock.toNat (t.placedAt + t.away + 3200 * l.deadline + 1)) }.modTroupe
        c b i fun t => { t with watched := true }).blockFault c b codeWatchdog (dispositionOf l codeWatchdog) false 0 0 0) := by
  rw [exec_watchdog]
  simp only [execWatchdog, hx, ht, hl]
  exact if_neg (by simp [hdl, hend, hw, hage])

/-! ### The obligation -/

/-- Settles O47, from one lemma for each case of each step. -/
theorem placementSteps : Obligations.PlacementSteps := by
  unfold Obligations.PlacementSteps
  refine ⟨fun s n rec l => ?_, fun s n rec hw hb => exec_unnamed hw hb,
    fun s n rec addr l hb => ⟨exec_drain_bound hb, exec_reprioritise_bound hb⟩, fun s c b rec l => ?_,
    fun s id l a => exec_drainPositionWrite_drained, fun s id l => exec_consistentCut_target,
    fun s c hnext hasks => ?_,
    fun s c b base l r => exec_blockPlace_placing, fun s c id index b base rest l => exec_blockRetryPlace_first,
    fun s c rid off r k l hr hkey hk hl => ?_, fun s c b i x t l => exec_watchdog_raises⟩
  · intro r hw hok hnames hver hhead hfam hblocks
    have hset : s.setOk r n l = true := by simpa [State.setOk, hok, hnames] using hver
    exact (exec_bind_waiting hw hset hhead).trans (congrArg _ (State.bindFamily_alone (s := s.popQueue n) hfam hblocks))
  · intro r hb
    refine ⟨exec_coreRowBind_taken hb, fun hno => exec_coreRowBind_refused hb ?_⟩
    by_cases hc : c < 128
    · rcases hno with hforeign | ⟨hodd, hchecked⟩ | h | hslot | ⟨hil, hunchecked⟩
      · exact .inr (.inr (State.rowCore_foreign hforeign))
      · exact .inr (.inr (State.rowCore_understudy hc hodd hchecked))
      · exact .inl h
      · exact .inr (.inl hslot)
      · exact .inr (.inr (State.rowCore_unchecked hc hil hunchecked))
    · exact .inl (Nat.le_of_not_lt hc)
  · refine ⟨_, exec_workRequest_served hnext hasks, rfl, State.grant_cores _ _, State.grant_dram _ _, fun l r hbest => ?_⟩
    exact congrArg (·.sched.launches) (State.grant_best hbest)
  · intro serves
    have hserve {a t} (h : s.fetchAnswer c l = some (a, t)) : serves t a := exec_fetchwService_answered hr hkey hk hl h
    exact ⟨fun hcancel => hserve (State.fetchAnswer_cancelled hcancel),
      fun hcancel h => hserve (State.fetchAnswer_over hcancel h),
      fun hcancel hgo g hg => hserve (State.fetchAnswer_owned (State.launch_of_launchOf hl) hcancel hgo hg),
      fun a t h => hserve h, exec_fetchwService_unanswered hr hkey hk hl⟩

end Sys2Proof.Machine
end

section
/-!
Transfers and traps, for O15, O17 and O21: a transfer passes the comparator and moves its lanes, unless an indirect one
has a target that is not aligned.
-/
namespace Sys2Proof.Machine
open Sys2Proof.Claims

variable {s s1 s2 : State} {p : Path} {h : Head} {i : Instr} {m : Mask} {target : Nat → DWord}

/-! ### Transfers (R139, R140) -/

theorem State.takeTransfer_unjudged (hu : Unjudged s) : s.takeTransfer p m target = .ok (taken s p m target) :=
  Exe.bind_of_ok (State.passTransfer_unjudged hu)

/-- A transfer under the condition of R138: the lanes go where its body sends them, and it does nothing else. -/
theorem transfer_of_cond {f : CForm} {body : Path → State → Exe State} (he : exec i s = runThread i h 8 body s)
    (b : Begins i h 8 s p s1 s2) (hu : Unjudged s2)
    (hb : body p s2 = if CForm.cond f (s2.troupe p) then s2.takeTransfer p m fun _ => CForm.target f p.at_.pc else .ok s2) :
    (condOf f s2 p → exec i s = .next ((taken s2 p m fun _ => targetOf f p).logUndo p.at_ s1)) ∧
    (¬condOf f s2 p → exec i s = .next (s2.logUndo p.at_ s1)) := by
  refine ⟨fun hc => he.trans (runThread_ok b (hb.trans ?_)), fun hc => he.trans (runThread_ok b (hb.trans ?_))⟩
  · rw [if_pos (CForm.cond_iff.mpr hc), CForm.target_eq, State.takeTransfer_unjudged hu]
  · rw [if_neg (CForm.cond_iff.not.mpr hc)]

/-- LOOP counts down, and transfers unless its register has reached zero. -/
theorem exec_loop_counted {f : CForm} (b : Begins (.loop h f) h 8 s p s1 s2) (hu : Unjudged s2) :
    let n := (s2.troupe p).kreg f.ka.toNat - 1
    exec (.loop h f) s = .next (((if n ≠ 0 then taken s2 p p.active fun _ => targetOf f p else s2).mod p
      fun t => t.setK f.ka.toNat n).logUndo p.at_ s1) := by
  intro n
  refine (exec_loop h f s).trans (runThread_ok b ?_)
  by_cases hn : n = 0
  · rw [if_neg (not_not.mpr hn)]
    exact if_pos hn
  · rw [if_pos hn]
    refine (if_neg hn).trans ?_
    rw [CForm.target_eq, State.takeTransfer_unjudged hu]
    rfl

/-- Settles O15: BRA and BRU transfer under one condition, LOOP on its count. -/
theorem branches : Obligations.Branches := by
  unfold Obligations.Branches
  exact ⟨fun h f s p s1 s2 b hu => transfer_of_cond (exec_bra h f s) b hu rfl,
    fun h f s p s1 s2 b hu => transfer_of_cond (exec_bru h f s) b hu rfl,
    fun h f s p s1 s2 b hu => exec_loop_counted b hu⟩

/-! ### Indirect transfers (R141) -/

theorem targetFail_eq_some {a : DWord} (ha : a.toNat % 4 ≠ 0) : targetFail a = some (.plain codeAlign a) := by
  have : bitsOf a.toNat 1 0 = a.toNat % 4 := by simp [bitsOf_eq]
  exact if_neg (this ▸ ha)

/-- The lowest lane of a mask is the first of its lanes. -/
theorem Mask.lanes_eq_cons (hm : m ≠ 0) : ∃ t, m.lanes = m.lowest :: t := by
  unfold Mask.lowest
  cases hl : m.lanes with
  | cons l t => exact ⟨t, rfl⟩
  | nil =>
    refine absurd (Mask.ext_has m 0 fun l _ => ?_) hm
    have : ¬m.has l = true := fun h => by simpa [hl] using (Mask.mem_lanes m l).mpr h
    simpa [Mask.has] using this

/-- The lanes of a mask that fail with one code, each at an address of its own, raise one fault at the lowest one's. -/
theorem raiseFirst_of_fails {fs : List (Nat × Option Fail)} {code : Nat} {addr : Nat → DWord} (hm : m ≠ 0)
    (hfs : (fs.filterMap fun x => x.2.map fun f => (x.1, f)) = m.lanes.map fun l => (l, .plain code (addr l))) :
    raiseFirst none fs = .error (.fault code m (addr m.lowest) 0 none .none) := by
  obtain ⟨t, ht⟩ := Mask.lanes_eq_cons hm
  have hmask : (Mask.ofTest fun n => (m.lowest :: t).any fun l => l == n) = m := Mask.ext_has _ _ fun n hn => by
    rw [Mask.has_ofTest, Bool.eq_iff_iff, ← Mask.mem_lanes, ht, decide_eq_true hn, Bool.true_and, List.any_beq']
    simp
  have hpages : (t.flatMap fun _ => ([] : List Nat)) = [] := List.flatMap_eq_nil_iff.mpr fun _ _ => rfl
  unfold raiseFirst
  rw [hfs, ht]
  simpa [Fail.plain, List.filter_map, List.flatMap_map, Function.comp_def, hpages] using hmask

/-- So do the failing ones among the active lanes (R183). -/
theorem raiseFirst_plain {a : Mask} {g : Nat → Option Fail} {code : Nat} {addr : Nat → DWord} (hm : m ≠ 0)
    (hmask : ∀ l, m.has l = true → a.has l = true)
    (hg : ∀ l, a.has l = true → g l = if m.has l then some (.plain code (addr l)) else none) :
    raiseFirst none (a.lanes.map fun l => (l, g l)) = .error (.fault code m (addr m.lowest) 0 none .none) := by
  have hsub : m.lanes = a.lanes.filter fun l => m.has l := by
    unfold Mask.lanes
    rw [List.filter_filter]
    refine List.filter_congr fun l _ => ?_
    cases h : m.has l
    · rfl
    · simp [hmask l h]
  refine raiseFirst_of_fails hm ?_
  rw [hsub, List.filterMap_map, ← List.filterMap_eq_map, List.filterMap_filter]
  refine List.filterMap_congr fun l hl => ?_
  simp only [Function.comp, hg l ((Mask.mem_lanes a l).mp hl)]
  split <;> rfl

/-- Settles O17: aligned targets are taken, and the lanes with others raise ALIGN together. -/
theorem indirectBranch : Obligations.IndirectBranch := by
  unfold Obligations.IndirectBranch
  refine fun h f s p s1 s2 x b hr => ⟨fun hu hok => ?_, fun m hm hm0 => ?_⟩
  · refine (exec_brx h f s).trans (runThread_ok b ((Exe.bind_of_ok hr).trans ((Exe.bind_of_ok (a := ()) ?_).trans
      (State.takeTransfer_unjudged hu))))
    refine raiseFirst_eq_ok.mpr fun y hy => ?_
    obtain ⟨l, hl, rfl⟩ := List.mem_map.mp hy
    exact targetFail_eq_none (hok l ((Mask.mem_lanes _ _).mp hl))
  · refine faults_of_body (exec_brx h f s) b ((Exe.bind_of_ok hr).trans (congrArg (· >>= _)
      (raiseFirst_plain hm0 (fun l hl => ((hm l).mp hl).1) fun l hl => ?_)))
    split
    · next h => exact targetFail_eq_some ((hm l).mp h).2
    · next h => exact targetFail_eq_none (not_not.mp fun hne => h ((hm l).mpr ⟨hl, hne⟩))

/-! ### Traps (R146) -/

theorem State.debugOf_iff : s.debugOf p = true ↔ ∃ g, s.launchOf p.core p.blk = some g ∧ g.debug = true := by
  unfold State.debugOf
  cases s.launchOf p.core p.blk <;> simp

/-- Settles O21: TRAP always faults, BKPT just in debug mode. -/
theorem trapsAndBreakpoints : Obligations.TrapsAndBreakpoints := by
  unfold Obligations.TrapsAndBreakpoints
  refine ⟨fun h f s p s1 s2 b => faults_of_body (exec_trap h f s) b rfl,
    fun h f s p s1 s2 b => ⟨fun hg => ?_, fun hg => ?_⟩⟩
  · exact faults_of_body (exec_bkpt h f s) b (if_pos (State.debugOf_iff.mpr hg))
  · refine (exec_bkpt h f s).trans (runThread_ok b (if_neg fun hd => ?_))
    obtain ⟨g, hsome, hdebug⟩ := State.debugOf_iff.mp hd
    exact Bool.false_ne_true ((hg g hsome).symm.trans hdebug)

end Sys2Proof.Machine
end

section
/-!
DEPART, SLEEP and EXIT, for O19 and O22: what each hands to a departure, and what ending lanes leaves of their troupe,
their block and the lanes beside them.
-/
namespace Sys2Proof.Machine
open Sys2Proof.Claims

variable {s s1 s2 : State} {p : Path} {h : Head} {m : Mask} {k : Core} {b i : Nat}

/-! ### Departures (R144, R145) -/

theorem Path.next_of_len (hlen : p.len = 8) : p.next = p.at_.pc + 8 := by simp [Path.next, hlen]

/-- A deferred access of a lane of the path is one of the path's. -/
theorem Mask.and_ne_zero {a b : Mask} {l : Nat} (ha : a.has l = true) (hb : b.has l = true) : (a &&& b != 0) = true := by
  rw [bne_iff_ne]
  intro h0
  have : (a &&& b).getLsbD l = true := by rw [BitVec.getLsbD_and]; exact Bool.and_eq_true_iff.mpr ⟨ha, hb⟩
  simp [h0] at this

/-- No lane fails whose deferred accesses have met no poison. -/
theorem State.deferredFail_none {t : Troupe} {l : Nat} (hl : m.has l = true)
    (hd : ∀ d ∈ t.deferred, (d.lanes &&& m != 0) = true → d.poison = none) : s.deferredFail t l = none := by
  unfold State.deferredFail
  refine List.findSome?_eq_none_iff.mpr fun d hdm => ?_
  split
  · next hdl => rw [hd d hdm (Mask.and_ne_zero hdl hl)]
  · rfl

theorem Troupe.allReturned_iff {t : Troupe} :
    t.allReturned m = true ↔ ∀ d ∈ t.deferred, (d.lanes &&& m != 0) = true → d.returned = true := by
  unfold Troupe.allReturned
  simp only [List.all_eq_true, Bool.or_eq_true, beq_iff_eq, bne_iff_ne]
  exact forall₂_congr fun d _ => or_iff_not_imp_left

/-- DEPART completes with its departure, the returned data and, if every access has returned, readiness. -/
theorem exec_depart_ok {f : CForm} {t : State} (b : Begins (.depart h f) h 8 s p s1 s2)
    (hp : ∀ d ∈ (s2.troupe p).deferred, (d.lanes &&& p.at_.lanes != 0) = true → d.poison = none)
    (hd : s2.depart p .deferred (p.at_.pc + 8) 0 (fun r => { r with
      peer := (s2.troupe p).deferred.any fun d => d.lanes &&& p.at_.lanes != 0 && d.peer && !d.returned }) = .ok t) :
    exec (.depart h f) s = .next ((if (s2.troupe p).allReturned p.at_.lanes then
        (t.modCore p.core fun k => k.deliverDeferred p.blk p.at_.troupe).readyNow p.core fun r => r.rid == s2.nextId
      else t.modCore p.core fun k => k.deliverDeferred p.blk p.at_.troupe).logUndo p.at_ s1) := by
  rw [← Path.next_of_len b.length] at hd
  refine (exec_depart h f s).trans (runThread_ok b ((Exe.bind_of_ok (a := ()) (raiseFirst_eq_ok.mpr fun x hx => ?_)).trans
    (Exe.bind_of_ok hd)))
  obtain ⟨l, hl, rfl⟩ := List.mem_map.mp hx
  exact State.deferredFail_none ((Mask.mem_lanes _ _).mp hl) hp

/-- SLEEP completes with its departure, and at once ready if there is no time to wait for. -/
theorem exec_sleep_ok {f : CForm} {t : State} (b : Begins (.sleep h f) h 8 s p s1 s2) :
    let d := if f.sub.getLsbD 1 then ((s2.troupe p).kreg f.ka.toNat).toNat else 64 * f.imm.toNat
    s2.depart p (.time (s2.clock.toNat + d)) (p.at_.pc + 8) 0 id = .ok t →
    exec (.sleep h f) s =
      .next ((if d = 0 then t.readyNow p.core fun r => r.rid == s2.nextId else t).logUndo p.at_ s1) := by
  intro d hd
  rw [← Path.next_of_len b.length] at hd
  exact (exec_sleep h f s).trans (runThread_ok b (Exe.bind_of_ok hd))

/-- Settles O19: whether the path is ready at once is whether its accesses have returned, or its time is zero. -/
theorem departAndSleep : Obligations.DepartAndSleep := by
  unfold Obligations.DepartAndSleep
  constructor
  · intro h f s p s1 s2 t b mine hp hd back
    have hex := exec_depart_ok b hp hd
    refine ⟨fun hall => hex.trans ?_, fun ⟨d, hdm, hmine, hret⟩ => hex.trans ?_⟩
    · rw [if_pos (Troupe.allReturned_iff.mpr hall)]
    · rw [if_neg fun hall => Bool.false_ne_true (hret.symm.trans (Troupe.allReturned_iff.mp hall d hdm hmine))]
  · intro h f s p s1 s2 t b d hd
    have hex := exec_sleep_ok b hd
    exact ⟨fun h0 => hex.trans (by rw [if_pos h0]), fun h0 => hex.trans (by rw [if_neg h0])⟩

/-! ### Lanes that end (R118, R143) -/

theorem keepsName_endLanes (m : Mask) : KeepsName fun t => t.endLanes m := fun _ => ⟨rfl, rfl⟩

theorem Troupe.length_endLanes (t : Troupe) (m : Mask) : (t.endLanes m).lanes.length = t.lanes.length :=
  Troupe.length_modLanes (t.releaseMarks m) m fun _ _ => Lane.reset

theorem Troupe.lane_endLanes {t : Troupe} {l : Nat} (hl : l < t.lanes.length) :
    (t.endLanes m).lane l = if m.has l then Lane.reset else t.lane l :=
  Troupe.lane_modLanes (t.releaseMarks m) m (fun _ _ => Lane.reset) l hl

/-- Every lane has ended once the others had. -/
theorem Troupe.all_endLanes {t : Troupe} : ((t.endLanes m).lanes.all fun x => x.place == .ended) = true ↔
    ∀ l, l < t.lanes.length → m.has l = false → (t.lane l).place = .ended := by
  rw [List.all_eq_not_any_not, Bool.not_eq_true', Bool.eq_false_iff, ne_eq, Troupe.any_lanes, Troupe.length_endLanes]
  push Not
  refine forall₂_congr fun l hl => ?_
  rw [Troupe.lane_endLanes hl]
  cases m.has l <;> simp [Lane.reset]

/-! ### Troupes that end (R143) -/

/-- A core without a troupe and the undo log of its lanes. -/
def Core.without (k : Core) (b i : Nat) : Core :=
  { k with
    troupes := k.troupes.filter fun x => !(x.blk == b && x.idx == i)
    undo := k.undo.filter fun u => !(u.blk == b && u.troupe == i) }

theorem Core.troupe_without : (k.without b i).troupe b i = none := by
  refine List.find?_eq_none.mpr fun x hx hname => ?_
  have := (List.mem_filter.mp hx).2
  simp [hname] at this

/-- Nothing of a block is left where its only troupe has gone. -/
theorem Core.any_without {f : Troupe → Troupe} (hf : KeepsName f) (honly : ∀ x ∈ k.troupes, x.blk = b → x.idx = i) :
    (((k.modTroupe b i f).without b i).troupes.any fun x => x.blk == b) = false := by
  refine List.any_eq_false.mpr fun x hx hblk => ?_
  obtain ⟨hmem, hkept⟩ := List.mem_filter.mp hx
  obtain ⟨y, hy, rfl⟩ := List.mem_map.mp hmem
  have hname {z : Troupe} (hz : z.blk = y.blk ∧ z.idx = y.idx) (hb : (z.blk == b) = true) :
      ¬(!(z.blk == b && z.idx == i)) = true := by
    rw [hz.1, beq_iff_eq] at hb
    simp [hz, hb, honly y hy hb]
  refine hname ?_ hblk hkept
  split
  · exact hf y
  · exact ⟨rfl, rfl⟩

theorem State.length_modCore {c : Nat} {f : Core → Core} : (s.modCore c f).cores.length = s.cores.length :=
  List.length_set

theorem State.length_sweepTroupe {c : Nat} : (s.sweepTroupe c b i).cores.length = s.cores.length := by
  unfold State.sweepTroupe
  split
  · rfl
  · split
    · dsimp only
      split
      · exact State.length_modCore
      · rw [State.modPair_cores]
        exact State.length_modCore.trans State.length_modCore
    · rfl

theorem State.sweepTroupe_going {c : Nat} {t : Troupe} (ht : (s.core c).troupe b i = some t)
    (hall : ¬(t.lanes.all fun l => l.place == .ended) = true) : s.sweepTroupe c b i = s := by
  unfold State.sweepTroupe
  rw [ht]
  exact if_neg hall

/-- A troupe whose lanes have all ended is gone, and with the last one of it its block ends. -/
theorem State.core_sweepTroupe {c : Nat} {t : Troupe} (hc : c < s.cores.length) (ht : (s.core c).troupe b i = some t)
    (hall : (t.lanes.all fun l => l.place == .ended) = true) :
    (s.sweepTroupe c b i).core c = if ((s.core c).without b i).troupes.any fun x => x.blk == b then (s.core c).without b i
      else ((s.core c).without b i).endBlock b := by
  have hcore : (s.modCore c fun k => k.without b i).core c = (s.core c).without b i := State.core_modCore s c _ hc
  have hlen : c < (s.modCore c fun k => k.without b i).cores.length := State.length_modCore.symm ▸ hc
  unfold State.sweepTroupe
  rw [ht]
  refine (congrArg (State.core · c) (if_pos hall)).trans ?_
  rw [← hcore]
  refine (apply_ite (State.core · c) _ _ _).trans (if_congr Iff.rfl rfl ?_)
  exact State.core_modCore _ c (fun k => k.endBlock b) hlen

theorem Core.block_modBlock {f : Block → Block} {x : Block} (hx : k.block b = some x) :
    (k.modBlock b f).block b = some (f x) := by
  have hb : b < k.blocks.length := by
    by_contra hb
    simp [Core.block, List.getD_eq_getElem?_getD, List.getElem?_eq_none (Nat.le_of_not_lt hb)] at hx
  rw [Core.modBlock, hx, Core.block]
  simp [List.getD_eq_getElem?_getD, hb]

theorem Core.block_endBlock {x : Block} (hx : k.block b = some x) :
    ∃ y, (k.endBlock b).block b = some y ∧ y.ending = true :=
  ⟨_, Core.block_modBlock (f := fun x => { x with ending := true, halted := false, cancelling := false }) hx, rfl⟩

/-! ### EXIT (R143) -/

/-- The lanes of a path have ended, and what ends with them. -/
def State.exited (s : State) (p : Path) : State :=
  (s.mod p fun t => t.endLanes p.active).sweepTroupe p.core p.blk p.at_.troupe

theorem exec_exit_skipped {f : CForm} (b : Begins (.exit h f) h 8 s p s1 s2) (hc : ¬condOf f s2 p) :
    exec (.exit h f) s = .next (s2.logUndo p.at_ s1) :=
  (exec_exit h f s).trans (runThread_ok b (if_neg (CForm.cond_iff.not.mpr hc)))

theorem exec_exit_taken {f : CForm} {s3 : State} (b : Begins (.exit h f) h 8 s p s1 s2) (hc : condOf f s2 p)
    (hp : s2.performPushes p.core p.blk p.at_.troupe p.active = .ok s3) :
    exec (.exit h f) s = .next ((((s3.exited p).settleCue p.core).getD (s3.exited p)).logUndo p.at_ s1) :=
  (exec_exit h f s).trans (runThread_ok b ((if_pos (CForm.cond_iff.mpr hc)).trans (Exe.bind_of_ok hp)))

/-- The room check, where it passes, only spills. -/
theorem State.settled_same {c : Nat} (hc : c < s.cores.length) :
    SameButSpilled (s.core c) (((s.settleCue c).getD s).core c) := by
  unfold State.settleCue
  cases hf : (s.core c).fitCue with
  | none => exact SameButSpilled.refl _
  | some k =>
    simp only [Option.map_some, Option.getD_some, State.core_setCore _ _ _ hc]
    exact Core.fitCue_same hf

section
variable {u : Troupe} (hc : p.core < s.cores.length) (hu : (s.core p.core).troupe p.blk p.at_.troupe = some u)
include hc hu

/-- The path's troupe right after its active lanes have ended. -/
theorem State.troupe_ended : ((s.mod p fun t => t.endLanes p.active).core p.core).troupe p.blk p.at_.troupe =
    some (u.endLanes p.active) := by
  refine (congrArg (Core.troupe · p.blk p.at_.troupe) (State.core_modCore s p.core _ hc)).trans ?_
  rw [Core.troupe_modTroupe _ _ _ _ (keepsName_endLanes p.active), hu]
  rfl

/-- While a lane of the troupe goes on, no other lane has changed. -/
theorem State.exited_going (hgo : ∃ l, l < u.lanes.length ∧ p.active.has l = false ∧ (u.lane l).place ≠ .ended) :
    ((s.exited p).core p.core).troupe p.blk p.at_.troupe = some (u.endLanes p.active) := by
  obtain ⟨l, hl, hidle, hplace⟩ := hgo
  have := State.sweepTroupe_going (State.troupe_ended hc hu) fun hall => hplace (Troupe.all_endLanes.mp hall l hl hidle)
  exact (congrArg (fun t : State => (t.core p.core).troupe p.blk p.at_.troupe) this).trans (State.troupe_ended hc hu)

/-- With its last lane the troupe is gone, and with the last troupe its block is ending. -/
theorem State.exited_over (hover : ∀ l, l < u.lanes.length → p.active.has l = false → (u.lane l).place = .ended) :
    ((s.exited p).core p.core).troupe p.blk p.at_.troupe = none ∧
    ((∀ x ∈ (s.core p.core).troupes, x.blk = p.blk → x.idx = p.at_.troupe) →
      ∀ b, (s.core p.core).block p.blk = some b →
        ∃ b', ((s.exited p).core p.core).block p.blk = some b' ∧ b'.ending = true) := by
  have hlen : p.core < (s.mod p fun t => t.endLanes p.active).cores.length := State.length_modCore.symm ▸ hc
  have hcore : (s.mod p fun t => t.endLanes p.active).core p.core =
      (s.core p.core).modTroupe p.blk p.at_.troupe fun t => t.endLanes p.active := State.core_modCore s p.core _ hc
  have hswept := State.core_sweepTroupe hlen (State.troupe_ended hc hu) (Troupe.all_endLanes.mpr hover)
  rw [hcore] at hswept
  have hexit : (s.exited p).core p.core = _ := hswept
  rw [hexit]
  refine ⟨?_, fun honly b hb => ?_⟩
  · split
    · exact Core.troupe_without
    · exact Core.troupe_without
  · rw [Core.any_without (keepsName_endLanes p.active) honly]
    exact Core.block_endBlock hb

end

/-- Settles O22: what the end of the lanes leaves, found again after the room check, which only spills. -/
theorem lanesExit : Obligations.LanesExit := by
  unfold Obligations.LanesExit
  refine fun h f s p s1 s2 b => ⟨exec_exit_skipped b, fun hc s3 u hp hlen hu => ⟨_, exec_exit_taken b hc hp, ?_⟩⟩
  rw [State.logUndo_troupe, State.logUndo_block]
  have hsame := State.settled_same (s := s3.exited p) (c := p.core)
    ((State.length_sweepTroupe.trans State.length_modCore).symm ▸ hlen)
  refine ⟨fun hgo => ?_, fun hover => ?_⟩
  · obtain ⟨v, hv, htr⟩ := hsame.exists_troupe (State.exited_going hlen hu hgo)
    refine ⟨v, hv, fun l hl => ?_⟩
    exact (congrArg (Troupe.lane · l) htr).trans (Troupe.lane_endLanes hl)
  · obtain ⟨hgone, hblock⟩ := State.exited_over hlen hu hover
    refine ⟨?_, fun honly x hx => ?_⟩
    · have := hsame.troupe p.blk p.at_.troupe
      rw [hgone] at this
      simpa using this
    · rw [Core.block, hsame.blocks]
      exact hblock honly x hx

end Sys2Proof.Machine
end

section
/-!
Integer elements (R136, R137): a lane's elements as bit vectors of their width, and the exact result of each element,
wrapped or clamped; then the integer majors, for O1.
-/
namespace Sys2Proof.Machine
open Sys2Proof.Claims

/-! ### Bits and integers (R136) -/

/-- The integer that an element's bits hold. -/
def bitsValue (signed : Bool) {w : Nat} (x : BitVec w) : Int := if signed then x.toInt else x.toNat

theorem ofBits_toNat {signed : Bool} {w : Nat} (hw : 0 < w) (x : BitVec w) :
    ofBits signed w x.toNat = bitsValue signed x := by
  have hp : 2 ^ w = 2 * 2 ^ (w - 1) := by rw [← Nat.pow_succ', Nat.succ_eq_add_one, Nat.sub_add_cancel hw]
  unfold ofBits bitsValue
  cases signed with
  | false => rfl
  | true =>
    have hcond : 2 ^ (w - 1) ≤ x.toNat ↔ ¬2 * x.toNat < 2 ^ w := by omega
    simp only [Bool.true_and, decide_eq_true_eq, if_true, hcond, ite_not, BitVec.toInt_eq_toNat_cond, Nat.cast_pow,
      Nat.cast_ofNat]

theorem toBits_eq (w : Nat) (r : Int) : toBits w r = (BitVec.ofInt w r).toNat := by
  simp [toBits, BitVec.toNat_ofInt]

theorem toBits_bitsValue {signed : Bool} {w : Nat} (x : BitVec w) : toBits w (bitsValue signed x) = x.toNat := by
  rw [toBits_eq]
  cases signed with
  | false => simp [bitsValue]
  | true => simp [bitsValue]

/-- An element of a lane is the integer that its bits hold. -/
theorem ElemType.elem_eq {t : ElemType} (ht : t.fits) (x : Word) (i : Nat) :
    t.elem x i = bitsValue t.signed (x.extractLsb' (t.width * i) t.width) := by
  rw [← ofBits_toNat ht.1, BitVec.extractLsb'_toNat, Nat.shiftRight_eq_div_pow]
  rfl

/-! ### Wrapping and clamping (R137) -/

theorem dvd_bitsValue_ofInt (signed : Bool) (w : Nat) (r : Int) :
    (2 ^ w : Int) ∣ bitsValue signed (BitVec.ofInt w r) - r := by
  have hc : ((2 ^ w : Nat) : Int) = 2 ^ w := by push_cast; rfl
  rw [← hc]
  cases signed with
  | true =>
    simp only [bitsValue, if_true, BitVec.toInt_ofInt]
    exact Int.dvd_bmod_sub_self
  | false =>
    have hnn : 0 ≤ r % (2 ^ w : Nat) := Int.emod_nonneg _ (by simp)
    simp only [bitsValue, Bool.false_eq_true, if_false, BitVec.toNat_ofInt, Int.toNat_of_nonneg hnn]
    exact Int.dvd_emod_sub_self

theorem bitsValue_ofInt {t : ElemType} (ht : t.fits) {r : Int} (hlo : least t ≤ r) (hhi : r ≤ greatest t) :
    bitsValue t.signed (BitVec.ofInt t.width r) = r := by
  have hp : (2 : Int) ^ t.width = 2 * 2 ^ (t.width - 1) := by rw [← Int.pow_succ', Nat.sub_add_cancel ht.1]
  have hc : ((2 ^ t.width : Nat) : Int) = 2 ^ t.width := by push_cast; rfl
  unfold least at hlo
  unfold greatest at hhi
  unfold bitsValue
  cases hs : t.signed <;> simp only [hs, if_true, if_false, Bool.false_eq_true] at hlo hhi ⊢
  · rw [BitVec.toNat_ofInt, hc, Int.emod_eq_of_lt hlo (by omega), Int.toNat_of_nonneg hlo]
  · rw [BitVec.toInt_ofInt, Int.bmod_eq_of_le_mul_two (by omega) (by omega)]

theorem least_le_greatest {t : ElemType} : least t ≤ greatest t := by
  have h (n : Nat) : (0 : Int) < 2 ^ n := Int.pow_pos (by decide)
  have := h (t.width - 1)
  have := h t.width
  unfold least greatest
  split <;> omega

/-- An exact result below the range of its type, above it, or in it or wrapped. -/
theorem narrow_cases (t : ElemType) (sat : Bool) (r : Int) :
    narrow t.signed sat t.width r =
      if sat = true ∧ r < least t then (toBits t.width (least t), true)
      else if sat = true ∧ greatest t < r then (toBits t.width (greatest t), true)
      else (toBits t.width r, false) := by
  have hrange : intRange t.signed t.width = (least t, greatest t) := by
    unfold intRange least greatest
    split <;> rfl
  unfold narrow
  simp only [hrange, Bool.and_eq_true, decide_eq_true_eq]

/-- The bits of an element of an element-wise result. -/
theorem ElemType.extract_lane {t : ElemType} (ht : t.fits) {sat : Bool} {f : Nat → Int} {e : Nat} (he : e < 32 / t.width) :
    ((t.lane sat f).1.extractLsb' (t.width * e) t.width).toNat = (narrow t.signed sat t.width (f e)).1 := by
  rw [BitVec.extractLsb'_toNat, Nat.shiftRight_eq_div_pow]
  exact (t.lane_spec ht sat f).1 e he

/-- Whether an element of an exact result lies out of range (R137). -/
def clamps (t : ElemType) (sat : Bool) (r : Int) : Prop := sat = true ∧ (r < least t ∨ greatest t < r)

theorem narrow_clamped {t : ElemType} {sat : Bool} {r : Int} :
    (narrow t.signed sat t.width r).2 = true ↔ clamps t sat r := by
  rw [narrow_cases]
  unfold clamps
  split
  · next h => simp [h]
  · split
    · next h => simp [h]
    · next h h' => simp_all

/-- What an element-wise operation gives a lane: the exact results, wrapped or clamped (R137). -/
theorem elements_lane {t : ElemType} (ht : t.fits) (sat : Bool) (f : Nat → Int) :
    Elements t sat f (clamped (t.lane sat f)).1 (clamped (t.lane sat f)).2 := by
  have hclamp := (t.lane_spec ht sat f).2
  simp only [narrow_clamped] at hclamp
  refine ⟨fun e he => ?_, fun hsome => ?_, fun hnone => ?_⟩
  · have helem : t.elem (clamped (t.lane sat f)).1 e = ofBits t.signed t.width (narrow t.signed sat t.width (f e)).1 := by
      rw [ElemType.elem_eq ht, ← ofBits_toNat ht.1]
      exact congrArg _ (ElemType.extract_lane ht he)
    rw [helem, narrow_cases]
    split
    · rw [toBits_eq, ofBits_toNat ht.1, bitsValue_ofInt ht le_rfl least_le_greatest]
    · split
      · rw [toBits_eq, ofBits_toNat ht.1, bitsValue_ofInt ht least_le_greatest le_rfl]
      · rw [toBits_eq, ofBits_toNat ht.1]
        exact dvd_bitsValue_ofInt ..
  · exact if_pos (hclamp.mpr hsome)
  · exact if_neg fun h => (hclamp.mp h).elim fun e he => hnone e he.1 he.2

/-! ### The shared shapes as statements -/

section
variable {mk : Head → RForm → Instr} {R : RForm → Word → Word → Flags → Prop}

/-- A major of one source whose result depends on that source alone. -/
theorem oneSource_of_unary {acc : RForm → Tag → Bool} {tag : RForm → Tag → Tag}
    (go : RForm → Word → Word × Flags)
    (he : ∀ h f s, exec (mk h f) s = unary (mk h f) h f (acc f) (tag f) (fun _ _ => go f) s)
    (hR : ∀ f x, R f x (go f x).1 (go f x).2) : OneSource mk acc tag R := by
  intro h f s p s1 s2 x b hr hd
  obtain ⟨t, hex, ht⟩ := unary_ok (go := fun _ _ => go f) b hr hd
  exact ⟨_, _, t, (he h f s).trans hex, ht, fun l _ => hR f (x.at l)⟩

/-- One of two sources. -/
theorem twoSources_of_binary {accA accB : RForm → Tag → Bool} {tag : RForm → Tag → Tag → Tag}
    {R : RForm → Word → Word → Word → Flags → Prop} (go : RForm → Word → Word → Word × Flags)
    (he : ∀ h f s, exec (mk h f) s = binary (mk h f) h f (accA f) (accB f) (tag f) (fun _ _ => go f) s)
    (hR : ∀ f x y, R f x y (go f x y).1 (go f x y).2) : TwoSources mk accA accB tag R := by
  intro h f s p s1 s2 x y b hr hd
  obtain ⟨t, hex, ht⟩ := binary_ok (go := fun _ _ => go f) b hr hd
  exact ⟨_, _, t, (he h f s).trans hex, ht, fun l _ => hR f (x.at l) (y.at l)⟩

/-- One of three sources. -/
theorem threeSources_of_ternary {acc accB : RForm → Tag → Bool} {tag : RForm → Tag}
    {R : RForm → Word → Word → Word → Word → Flags → Prop} (go : RForm → Word → Word → Word → Word × Flags)
    (he : ∀ h f s, exec (mk h f) s = ternary (mk h f) h f (acc f) (accB f) (tag f) (fun _ _ => go f) s)
    (hR : ∀ f x y z, R f x y z (go f x y z).1 (go f x y z).2) : ThreeSources mk acc accB tag R := by
  intro h f s p s1 s2 x y z b hr hd
  obtain ⟨t, hex, ht⟩ := ternary_ok (go := fun _ _ => go f) b hr hd
  exact ⟨_, _, t, (he h f s).trans hex, ht, fun l _ => hR f (x.at l) (y.at l) (z.at l)⟩

/-- One of a source and an immediate. -/
theorem withImmediate_of_immediate {mk : Head → IForm → Instr} {acc : IForm → Tag → Bool} {tag : IForm → Tag → Tag}
    {R : IForm → Word → Word → Flags → Prop} (go : IForm → Word → Word → Word × Flags)
    (he : ∀ h f s, exec (mk h f) s = immediate (mk h f) h f (acc f) (tag f) (go f) s)
    (hR : ∀ f x, R f x (go f x f.imm).1 (go f x f.imm).2) : WithImmediate mk acc tag R := by
  intro h f s p s1 s2 x b hr hd
  obtain ⟨t, hex, ht⟩ := immediate_ok b hr hd
  exact ⟨_, _, t, (he h f s).trans hex, ht, fun l _ => hR f (x.at l)⟩

end

/-! ### Integer majors (R149, R150) -/

/-- An element-wise major of two sources, and the exact operation it computes. -/
theorem binary_of_intBinary {mk : Head → RForm → Instr} {op op' : Int → Int → Int}
    (he : ∀ h f s, exec (mk h f) s = intBinary (mk h f) h f op s) (hop : op = op') : Binary mk satOf op' := by
  subst hop
  exact twoSources_of_binary (fun f => arith2 (typeOf f) (satOf f) op) he
    fun f x y => elements_lane (elemType_fits _) (satOf f) _

theorem integerSums : IntegerSums := by
  refine ⟨binary_of_intBinary exec_iadd rfl, binary_of_intBinary exec_isub rfl, binary_of_intBinary exec_imul rfl,
    binary_of_intBinary exec_imin rfl, binary_of_intBinary exec_imax rfl, ?_, ?_⟩
  · exact threeSources_of_ternary (fun f x y z => clamped ((typeOf f).lane (satOf f) fun e =>
      (typeOf f).elem x e * (typeOf f).elem y e + (typeOf f).elem z e)) exec_imad
      fun f x y z => elements_lane (elemType_fits _) (satOf f) _
  · refine oneSource_of_unary (fun f x => clamped ((typeOf f).lane (satOf f) fun e => ((typeOf f).elem x e).natAbs))
      exec_iabs fun f x => ?_
    have habs (a : Int) : (if a < 0 then -a else a) = a.natAbs := by split <;> omega
    simp only [habs]
    exact elements_lane (elemType_fits _) (satOf f) _

/-- R150's remainder is what the quotient leaves, also of a zero divisor. -/
theorem remInt_eq : remInt = fun x y => x - y * wholeQuotient x y := by
  funext x y
  unfold remInt wholeQuotient
  split
  · next h => simp [h]
  · exact Int.tmod_def x y

/-- Settles O1: every integer major computes its elements exactly, and wraps or clamps them alike. -/
theorem integerOperations : Obligations.IntegerOperations :=
  ⟨integerSums, binary_of_intBinary exec_imulh rfl, binary_of_intBinary exec_idiv rfl,
    binary_of_intBinary exec_irem remInt_eq⟩

end Sys2Proof.Machine
end

section
/-!
Bitwise majors, shifts, bit fields, selects and compares, for O2 to O5: the bits of their results, and the ends that
raise no exception.
-/
namespace Sys2Proof.Machine
open Sys2Proof.Claims

variable {s s1 s2 : State} {p : Path}

/-! ### Bitwise majors (R116, R151) -/

theorem commonTag_eq : commonTag = sameOrRaw := by
  funext a b
  unfold commonTag sameOrRaw
  by_cases h : a = b <;> simp [h]

theorem bitwiseOperations : BitwiseOperations := by
  have hbit {mk : Head → RForm → Instr} {op : Word → Word → Word}
      (he : ∀ h f s, exec (mk h f) s = bitwise (mk h f) h f op s) :
      TwoSources mk anyTag anyTag (fun _ => sameOrRaw) fun _ x y w fl => w = op x y ∧ fl = 0 :=
    twoSources_of_binary (fun _ x y => plainly (op x y)) (commonTag_eq ▸ he) fun _ _ _ => ⟨rfl, rfl⟩
  exact ⟨hbit exec_and, hbit exec_or, hbit exec_xor, hbit exec_andn⟩

/-! ### Shifts (R152) -/

/-- The shift of an element's integer is that of its bits, for counts below the width. -/
def ShiftsAs (signed : Bool) (opInt : Nat → Int → Nat → Int) (op : (w : Nat) → BitVec w → Nat → BitVec w) : Prop :=
  ∀ (w : Nat) (x : BitVec w) (c : Nat), c < w → toBits w (opInt w (bitsValue signed x) c) = (op w x c).toNat

theorem toBits_natCast (w n : Nat) : toBits w (n : Int) = n % 2 ^ w := by
  rw [toBits_eq, BitVec.ofInt_natCast, BitVec.toNat_ofNat]

theorem toNat_ushiftRight_lt {w : Nat} (x : BitVec w) (c : Nat) : x.toNat >>> c < 2 ^ w :=
  Nat.lt_of_le_of_lt (Nat.shiftRight_le ..) x.isLt

theorem shiftsAs_shl (signed : Bool) : ShiftsAs signed shlElem shl := by
  intro w x c _
  rw [shlElem, toBits_bitsValue, toBits_natCast]
  exact (BitVec.toNat_shiftLeft ..).symm

theorem shiftsAs_shr (signed : Bool) : ShiftsAs signed shrElem shr := by
  intro w x c _
  rw [shrElem, toBits_bitsValue, toBits_natCast, Nat.mod_eq_of_lt (toNat_ushiftRight_lt x c)]
  exact (BitVec.toNat_ushiftRight ..).symm

theorem shiftsAs_sar : ShiftsAs true sarElem sar := by
  intro w x c _
  have h : sarElem w (bitsValue true x) c = (x.sshiftRight c).toInt := by
    rw [BitVec.toInt_sshiftRight, Int.shiftRight_eq_div_pow]
    simp [sarElem, bitsValue]
  rw [h, toBits_eq, BitVec.ofInt_toInt]
  rfl

theorem shiftsAs_rot (signed : Bool) : ShiftsAs signed rotElem rot := by
  intro w x c hc
  rw [rotElem, toBits_bitsValue, toBits_natCast, Nat.or_mod_two_pow, Nat.mod_eq_of_lt (toNat_ushiftRight_lt x _)]
  exact (BitVec.toNat_rotateLeft.trans (by rw [Nat.mod_eq_of_lt hc])).symm

/-- A lane shifted element by element. -/
theorem shifted_shiftLane {t : ElemType} (ht : t.fits) {opInt : Nat → Int → Nat → Int}
    {op : (w : Nat) → BitVec w → Nat → BitVec w} (hop : ShiftsAs t.signed opInt op) (x : Word) (count : Nat) :
    Shifted t op x (shiftLane t opInt x count) count := by
  intro e he
  refine BitVec.eq_of_toNat_eq ((ElemType.extract_lane ht he).trans ?_)
  rw [← hop _ _ _ (Nat.mod_lt _ ht.1), ← ElemType.elem_eq ht]
  simp [narrow]

theorem shifts : Shifts := by
  have hshift {mk : Head → RForm → Instr} {opInt : Nat → Int → Nat → Int}
      {op : (w : Nat) → BitVec w → Nat → BitVec w} (he : ∀ h f s, exec (mk h f) s = shift (mk h f) h f opInt s)
      (hop : ∀ signed, ShiftsAs signed opInt op) :
      TwoSources mk typed word32 (fun f _ _ => (typeOf f).tag) fun f x y w fl =>
        Shifted (typeOf f) op x w y.toNat ∧ fl = 0 :=
    twoSources_of_binary (fun f x y => plainly (shiftLane (typeOf f) opInt x y.toNat)) he
      fun f x y => ⟨shifted_shiftLane (elemType_fits _) (hop _) x y.toNat, rfl⟩
  refine ⟨hshift exec_shl shiftsAs_shl, hshift exec_shr shiftsAs_shr, hshift exec_rot shiftsAs_rot, ?_⟩
  exact twoSources_of_binary (fun f x y => plainly (shiftLane (typeOf f) sarElem x y.toNat)) exec_sar
    fun f x y hs => ⟨shifted_shiftLane (elemType_fits _) (hs ▸ shiftsAs_sar) x y.toNat, rfl⟩

/-- Settles O2: bitwise majors act on the whole lane, shifts on the bits of each element. -/
theorem bitwiseAndShifts : Obligations.BitwiseAndShifts := ⟨bitwiseOperations, shifts⟩

/-! ### Counting and reversing bits (R153) -/

theorem popCount_toNat (x : Word) : (BitVec.ofNat 32 (popCount x)).toNat = (List.range 32).countP x.getLsbD := by
  have hle : (List.range 32).countP x.getLsbD ≤ 32 := List.countP_le_length.trans (by simp)
  rw [BitVec.toNat_ofNat, popCount, ← List.countP_eq_length_filter]
  exact Nat.mod_eq_of_lt (by omega)

theorem leadingZeros_le (x : Word) : leadingZeros x ≤ 32 := by
  unfold leadingZeros
  split <;> omega

theorem leadingZeros_toNat (x : Word) : (BitVec.ofNat 32 (leadingZeros x)).toNat = leadingZeros x :=
  Nat.mod_eq_of_lt (Nat.lt_of_le_of_lt (leadingZeros_le x) (by decide))

/-- The bits that it counts are zero. -/
theorem getLsbD_leading {x : Word} {i : Nat} (hi : i < 32) (hlead : 32 - leadingZeros x ≤ i) : x.getLsbD i = false := by
  unfold leadingZeros at hlead
  split at hlead
  · next h => simp [h]
  · refine Nat.testBit_lt_two_pow (Nat.lt_of_lt_of_le Nat.lt_log2_self (Nat.pow_le_pow_right (by decide) ?_))
    omega

/-- The next bit is one. -/
theorem getLsbD_leadingOne {x : Word} (hlt : leadingZeros x < 32) : x.getLsbD (31 - leadingZeros x) = true := by
  have hne : x ≠ 0 := by
    rintro rfl
    exact absurd hlt (by decide)
  have hpos : x.toNat ≠ 0 := fun h => hne (BitVec.eq_of_toNat_eq h)
  have hlog : x.toNat.log2 < 32 := (Nat.log2_lt hpos).mpr x.isLt
  have hidx : 31 - leadingZeros x = x.toNat.log2 := by
    rw [leadingZeros, if_neg hne]
    omega
  rw [hidx]
  exact Nat.testBit_log2 hpos

/-- The mirrored bits, as the sum that `ofTest_fold` reads back. -/
theorem mirrored_eq (x : Word) : ((List.range 32).filter fun i => x.getLsbD i).foldl (fun a i => a + 2 ^ (31 - i)) 0 =
    (List.range 32).foldl (fun a l => if x.getLsbD (31 - l) then a + 2 ^ l else a) 0 := by
  have hrev : (List.range 32).reverse = (List.range 32).map fun l => 31 - l := by decide
  have hcomm (c : Nat → Bool) (g : Nat → Nat) (a l l' : Nat) :
      (if c l' then (if c l then a + g l else a) + g l' else if c l then a + g l else a) =
        if c l then (if c l' then a + g l' else a) + g l else if c l' then a + g l' else a := by
    split <;> split <;> omega
  rw [List.foldl_filter, ← (List.reverse_perm (List.range 32)).foldl_eq' fun l _ l' _ a =>
    hcomm _ (fun i => 2 ^ (31 - i)) a l l', hrev, List.foldl_map]
  refine List.foldl_ext _ _ _ fun a l hl => ?_
  rw [Nat.sub_sub_self (Nat.le_of_lt_succ (List.mem_range.mp hl))]

theorem getLsbD_reverseBits (x : Word) {i : Nat} (hi : i < 32) : (reverseBits x).getLsbD i = x.getLsbD (31 - i) := by
  rw [reverseBits, mirrored_eq, BitVec.getLsbD_ofNat, (ofTest_fold _ 32).2]
  simp [hi]

/-! ### Bit fields (R153) -/

/-- Position and width of the field that B specifies. -/
theorem fieldSpec_eq (b : Word) : fieldSpec b = (b.toNat % 32, min (b.toNat / 256 % 64) (32 - b.toNat % 32)) := by
  simp [fieldSpec, bitsOf_eq]

theorem getLsbD_extractField (signed : Bool) (x b : Word) {i : Nat} (hi : i < 32) :
    let pos := b.toNat % 32
    let width := min (b.toNat / 256 % 64) (32 - pos)
    (extractField signed x b).getLsbD i = if i < width then x.getLsbD (pos + i)
      else signed && decide (0 < width) && x.getLsbD (pos + width - 1) := by
  intro pos width
  unfold extractField
  rw [fieldSpec_eq]
  change (if width = 0 then 0 else BitVec.ofInt 32 (ofBits signed width (x.toNat / 2 ^ pos % 2 ^ width))).getLsbD i = _
  rcases Nat.eq_zero_or_pos width with h0 | hpos
  · simp [h0]
  · have hfield : x.toNat / 2 ^ pos % 2 ^ width = (x.extractLsb' pos width).toNat := by
      rw [BitVec.extractLsb'_toNat, Nat.shiftRight_eq_div_pow]
    rw [if_neg (Nat.ne_of_gt hpos), hfield, ofBits_toNat hpos]
    cases signed with
    | false =>
      have h : BitVec.ofInt 32 (bitsValue false (x.extractLsb' pos width)) = (x.extractLsb' pos width).setWidth 32 :=
        (BitVec.ofInt_natCast ..).trans (BitVec.ofNat_toNat ..)
      rw [h, BitVec.getLsbD_setWidth, BitVec.getLsbD_extractLsb']
      by_cases hin : i < width <;> simp [hi, hin]
    | true =>
      have h : BitVec.ofInt 32 (bitsValue true (x.extractLsb' pos width)) = (x.extractLsb' pos width).signExtend 32 := rfl
      have hlast : pos + (width - 1) = pos + width - 1 := by omega
      rw [h, BitVec.getLsbD_signExtend, BitVec.msb_eq_getLsbD_last, BitVec.getLsbD_extractLsb',
        BitVec.getLsbD_extractLsb', hlast]
      by_cases hin : i < width <;> simp [hi, hin, hpos]

theorem getLsbD_insertField (x b z : Word) {i : Nat} (hi : i < 32) :
    let pos := b.toNat % 32
    let width := min (b.toNat / 256 % 64) (32 - pos)
    (insertField x b z).getLsbD i = if pos ≤ i ∧ i < pos + width then z.getLsbD (i - pos) else x.getLsbD i := by
  intro pos width
  unfold insertField
  rw [fieldSpec_eq]
  change ((x &&& ~~~(BitVec.ofNat 32 ((2 ^ width - 1) * 2 ^ pos))) |||
    (BitVec.ofNat 32 (z.toNat * 2 ^ pos) &&& BitVec.ofNat 32 ((2 ^ width - 1) * 2 ^ pos))).getLsbD i = _
  simp only [BitVec.getLsbD_or, BitVec.getLsbD_and, BitVec.getLsbD_not, BitVec.getLsbD_ofNat, ← Nat.shiftLeft_eq,
    Nat.testBit_shiftLeft, Nat.testBit_two_pow_sub_one, hi, decide_true, Bool.true_and]
  by_cases hlow : pos ≤ i
  · by_cases hhigh : i < pos + width
    · have : i - pos < width := by omega
      simp [hlow, hhigh, this, BitVec.testBit_toNat]
    · have : ¬i - pos < width := by omega
      simp [hlow, hhigh, this]
  · simp [hlow]

/-- Settles O3: each of the five, from what its result's bits are. -/
theorem bitFields : Obligations.BitFields := by
  unfold Obligations.BitFields
  refine ⟨?_, ?_, ?_, ?_, ?_⟩
  · exact oneSource_of_unary (fun _ x => plainly (BitVec.ofNat 32 (popCount x))) exec_popc
      fun f x => ⟨popCount_toNat x, rfl⟩
  · refine oneSource_of_unary (fun _ x => plainly (BitVec.ofNat 32 (leadingZeros x))) exec_clz fun f x => ?_
    simp only [plainly, leadingZeros_toNat]
    exact ⟨leadingZeros_le x, fun i => getLsbD_leading, getLsbD_leadingOne, trivial⟩
  · exact oneSource_of_unary (fun _ x => plainly (reverseBits x)) exec_brev
      fun f x => ⟨fun i => getLsbD_reverseBits x, rfl⟩
  · exact twoSources_of_binary (fun f x y => plainly (extractField (typeOf f).signed x y)) exec_bfx
      fun f x y => ⟨fun i => getLsbD_extractField _ x y, rfl⟩
  · exact threeSources_of_ternary (fun _ x y z => plainly (insertField x y z)) exec_bfi
      fun f x y z => ⟨fun i => getLsbD_insertField x y z, rfl⟩

/-! ### Selects (R154) -/

theorem orFlags_none (ls : List Nat) : orFlags (ls.map noFlags) = 0 := by
  unfold orFlags
  rw [List.foldl_map]
  exact List.foldl_fixed' (fun _ => by simp [noFlags]) ls

/-- The end of an instruction with one result and no exceptions. -/
theorem State.finish_plain {fields : List Nat} {d : Nat} {g : Tag} (v : Nat → Word)
    (hd : Deliverable s (s.popPorts p fields) p d g) :
    ∃ t, s.finish p fields d g v noFlags = .ok t ∧ Delivered (s.popPorts p fields) p d g v 0 t := by
  simpa only [orFlags_none] using State.finish_ok v noFlags hd

/-- Settles O4: the predicate chooses in each lane, and the tags of both operands give the result's. -/
theorem selectsByPredicate : Obligations.SelectsByPredicate := by
  unfold Obligations.SelectsByPredicate
  intro h f s p s1 s2 x y b hr hd
  obtain ⟨t, hfin, ht⟩ := State.finish_plain
    (fun l => if s2.predAt p (f.sub.toNat / 8 % 16) l then x.at l else y.at l) hd
  rw [← commonTag_eq] at hfin
  exact ⟨_, t, (exec_sel h f s).trans (runThread_ok b ((Exe.bind_of_ok hr).trans hfin)), ht, fun _ _ => rfl⟩

/-! ### Compares (R155) -/

theorem holds_iff {code : Nat} (hcode : code < 6) {x y : Int} : holds code x y = true ↔ condition code x y := by
  unfold condition
  match code, hcode with
  | 0, _ | 1, _ | 2, _ | 3, _ | 4, _ | 5, _ => simp [holds]

/-- Settles O5: a compare writes its condition to a predicate and ends there. -/
theorem integerCompares : Obligations.IntegerCompares := by
  unfold Obligations.IntegerCompares
  refine ⟨fun h f s p s1 s2 x y b hcode hr => ⟨_, ?_, fun l _ => holds_iff hcode⟩,
    fun h f s p s1 s2 x b hcode hr => ⟨_, ?_, fun l _ => holds_iff hcode⟩⟩
  · refine (exec_icmp h f s).trans (runThread_ok b ((Exe.bind_of_ok hr).trans ?_))
    exact congrArg Except.ok (State.putPred_eq ..)
  · refine (exec_icmpi h f s).trans (runThread_ok b ((Exe.bind_of_ok hr).trans ?_))
    exact congrArg Except.ok (State.putPred_eq ..)

end Sys2Proof.Machine
end

section
/-!
Pair results, for O6: what a register group takes where no exception is raised, and the exact 64-bit results.
-/
namespace Sys2Proof.Machine
open Sys2Proof.Claims

variable {s s1 s2 : State} {p : Path} {h : Head} {i : Instr}

/-- The end of an instruction whose result is a register group, without exceptions. -/
theorem State.finishGroup_plain (fields : List Nat) {d : Nat} {vs : List (Tag × (Nat → Word))}
    (hd : (s.troupe p).checkDest p (List.range' d vs.length) = .ok ()) :
    s.finishGroup p fields d vs noFlags = .ok (groupWritten (s.popPorts p fields) p d vs 0) := by
  simpa only [orFlags_none] using State.finishGroup_ok fields noFlags hd

/-! ### Sums and differences of pairs (R156) -/

/-- The element type that a pair arithmetic major treats its operands as. -/
def pairType (f : RForm) : ElemType := { tag := .i64l, width := 64, signed := f.sub.toNat % 8 == 0 }

theorem ofNat_toBits (w : Nat) (r : Int) : BitVec.ofNat w (toBits w r) = BitVec.ofInt w r := by
  rw [toBits_eq, BitVec.ofNat_toNat, BitVec.setWidth_eq]

/-- The exact result of a pair, wrapped or clamped. -/
theorem ofNat_narrow_cases (t : ElemType) (sat : Bool) (r : Int) :
    let v := BitVec.ofNat t.width (narrow t.signed sat t.width r).1
    let fl := flagIf (narrow t.signed sat t.width r).2 flagSAT
    if sat = true ∧ r < least t then v = BitVec.ofInt t.width (least t) ∧ fl = flagSAT
    else if sat = true ∧ greatest t < r then v = BitVec.ofInt t.width (greatest t) ∧ fl = flagSAT
    else v = BitVec.ofInt t.width r ∧ fl = 0 := by
  rw [narrow_cases]
  by_cases hlo : sat = true ∧ r < least t
  · simp only [if_pos hlo, ofNat_toBits]
    exact ⟨trivial, rfl⟩
  · by_cases hhi : sat = true ∧ greatest t < r
    · simp only [if_neg hlo, if_pos hhi, ofNat_toBits]
      exact ⟨trivial, rfl⟩
    · simp only [if_neg hlo, if_neg hhi, ofNat_toBits]
      exact ⟨trivial, rfl⟩

/-- The result of a pair arithmetic major in a lane, and whether it was clamped. -/
def pairResult (f : RForm) (op : Int → Int → Int) (x y : Operand × Operand) (l : Nat) : Nat × Bool :=
  let sg := f.sub.toNat % 8 == 0
  narrow sg (modSat f.mod) 64 (op (ofBits sg 64 (pairAt x l).toNat) (ofBits sg 64 (pairAt y l).toNat))

theorem exec_pairArith {op : Int → Int → Int} {f : RForm} {x y : Operand × Operand}
    (he : exec i s = pairArith i h f op s) (b : Begins i h f.len.bytes s p s1 s2)
    (hx : s2.readPair p 0 f.a.toNat f.pa.toNat .i64l .i64h = .ok x)
    (hy : s2.readPair p 1 f.b.toNat f.pb.toNat .i64l .i64h = .ok y)
    (hd : (s2.troupe p).checkDest p [f.d.toNat, f.d.toNat + 1] = .ok ()) :
    exec i s = .next ((groupWritten s2 p f.d.toNat (pairOf fun l => BitVec.ofNat 64 (pairResult f op x y l).1)
      (orFlags (p.active.lanes.map fun l => flagIf (pairResult f op x y l).2 flagSAT))).logUndo p.at_ s1) := by
  refine he.trans (runThread_ok b ((Exe.bind_of_ok hx).trans ((Exe.bind_of_ok hy).trans ?_)))
  exact State.finishGroup_ok (vs := asPair .i64l .i64h fun l => BitVec.ofNat 64 (pairResult f op x y l).1) []
    (fun l => flagIf (pairResult f op x y l).2 flagSAT) hd

theorem least_pairType (f : RForm) : least (pairType f) = if f.sub.toNat % 8 ≠ 0 then 0 else -(2 ^ 63) := by
  by_cases h : f.sub.toNat % 8 = 0 <;> simp [least, pairType, h]

theorem greatest_pairType (f : RForm) :
    greatest (pairType f) = if f.sub.toNat % 8 ≠ 0 then 2 ^ 64 - 1 else 2 ^ 63 - 1 := by
  by_cases h : f.sub.toNat % 8 = 0 <;> simp [greatest, pairType, h]

theorem ofBits_pairType (f : RForm) (z : DWord) :
    ofBits (f.sub.toNat % 8 == 0) 64 z.toNat = if f.sub.toNat % 8 ≠ 0 then (z.toNat : Int) else z.toInt := by
  rw [ofBits_toNat (by decide)]
  by_cases h : f.sub.toNat % 8 = 0 <;> simp [bitsValue, h]

theorem pairArithmetic_of_pairArith {mk : Head → RForm → Instr} {op : Int → Int → Int}
    (he : ∀ h f s, exec (mk h f) s = pairArith (mk h f) h f op s) : PairArithmetic mk op := by
  intro h f s p s1 s2 x y b hx hy hd
  refine ⟨_, _, exec_pairArith (he h f s) b hx hy hd, fun l _ => ?_⟩
  intro unsigned num lo hi r
  have hlane := ofNat_narrow_cases (pairType f) (modSat f.mod) r
  rw [least_pairType, greatest_pairType] at hlane
  have hres : pairResult f op x y l = narrow (pairType f).signed (modSat f.mod) (pairType f).width r := by
    unfold pairResult
    dsimp only
    rw [ofBits_pairType, ofBits_pairType]
    rfl
  rw [hres]
  exact hlane

/-! ### Products and addresses (R156) -/

theorem elemType_word {n : Nat} (hn : n < 2) : (elemType n).width = 32 := by
  match n, hn with
  | 0, _ | 1, _ => rfl

/-- The one element of a 32-bit type is the whole lane. -/
theorem ElemType.elem_word {t : ElemType} (ht : t.width = 32) (x : Word) : t.elem x 0 = bitsValue t.signed x := by
  have hx : x.toNat / 2 ^ (32 * 0) % 2 ^ 32 = x.toNat := by rw [Nat.pow_zero, Nat.div_one, Nat.mod_eq_of_lt x.isLt]
  rw [ElemType.elem, ht, hx, ofBits_toNat (by decide)]

/-- A scaled index, extended as its type says. -/
theorem ofInt_scaled (signed : Bool) (x : Word) (n : Nat) :
    BitVec.ofInt 64 (bitsValue signed x * 2 ^ n) = (if signed then x.signExtend 64 else x.setWidth 64) <<< n := by
  have hext : BitVec.ofInt 64 (bitsValue signed x) = if signed then x.signExtend 64 else x.setWidth 64 := by
    cases signed with
    | false => exact (BitVec.ofInt_natCast ..).trans (BitVec.ofNat_toNat ..)
    | true => rfl
  have hcast : (2 : Int) ^ n = (2 ^ n : Nat) := by push_cast; rfl
  have hpow : BitVec.ofInt 64 (2 ^ n) = BitVec.twoPow 64 n := by
    rw [hcast, BitVec.ofInt_natCast]
    exact BitVec.eq_of_toNat_eq (by simp)
  rw [BitVec.ofInt_mul, hext, hpow, BitVec.shiftLeft_eq_mul_twoPow]

/-- An operand that has been read has passed its checks (R116, R117). -/
theorem State.checkOperand_of_operand {fields : List Nat} {j v perm : Nat} {acc : Tag → Bool} {x : Operand}
    (hv : fields.getD j 0 = v) (hr : s.operand p fields j perm acc = .ok x) : s.checkOperand p j v acc = .ok () := by
  unfold State.operand at hr
  unfold State.checkOperand
  rw [hv] at hr
  cases hq : portOf v with
  | none =>
    simp only [hq] at hr ⊢
    obtain ⟨_, hcheck, -⟩ := Exe.of_bind_ok hr
    exact hcheck
  | some q =>
    simp only [hq] at hr ⊢
    obtain ⟨n, hbound, hrest⟩ := Exe.of_bind_ok hr
    unfold State.boundCtx at hbound
    split at hbound
    · next m hctx =>
      have hn : m = n := by
        split at hbound
        · exact Except.ok.inj hbound
        · cases hbound
      subst hn
      refine if_pos ?_
      by_contra hacc
      rw [if_neg fun h => hacc (Bool.or_eq_true_iff.mpr (.inr h))] at hrest
      cases hrest
    · cases hbound

theorem exec_imulw_ok {f : RForm} {x y : Operand} (b : Begins (.imulw h f) h f.len.bytes s p s1 s2)
    (hr : s2.read2 p f.a.toNat f.pa.toNat (typed f) f.b.toNat f.pb.toNat (typed f) = .ok (x, y))
    (hd : (s2.troupe p).checkDest p [f.d.toNat, f.d.toNat + 1] = .ok ()) :
    exec (.imulw h f) s = .next ((groupWritten (s2.popPorts p [f.a.toNat, f.b.toNat]) p f.d.toNat
      (pairOf fun l => BitVec.ofInt 64 ((typeOf f).elem (x.at l) 0 * (typeOf f).elem (y.at l) 0)) 0).logUndo p.at_ s1) :=
  (exec_imulw h f s).trans (runThread_ok b ((Exe.bind_of_ok hr).trans
    (State.finishGroup_plain (vs := asPair _ _ _) _ hd)))

theorem exec_lea_ok {f : RForm} {x : Operand × Operand} {y : Operand} (b : Begins (.lea h f) h f.len.bytes s p s1 s2)
    (hports : s2.portsReady p [f.a.toNat, f.b.toNat] = .ok ())
    (hx : s2.readPair p 0 f.a.toNat f.pa.toNat .i64l .i64h = .ok x)
    (hy : s2.operand p [f.a.toNat, f.b.toNat] 1 f.pb.toNat (typed f) = .ok y)
    (hd : (s2.troupe p).checkDest p [f.d.toNat, f.d.toNat + 1] = .ok ()) :
    exec (.lea h f) s = .next ((groupWritten (s2.popPorts p [f.a.toNat, f.b.toNat]) p f.d.toNat
      (pairOf fun l => pairAt x l + BitVec.ofInt 64 ((typeOf f).elem (y.at l) 0 * 2 ^ (f.sub.toNat / 8 % 8)))
      0).logUndo p.at_ s1) :=
  (exec_lea h f s).trans (runThread_ok b ((Exe.bind_of_ok hx).trans
    ((Exe.bind_of_ok (a := ()) (State.checkOperand_of_operand rfl hy)).trans ((Exe.bind_of_ok hports).trans
      ((Exe.bind_of_ok hy).trans (State.finishGroup_plain (vs := asPair _ _ _) _ hd))))))

/-- Settles O6: the results as 64-bit values, written to a register pair. -/
theorem pairResults : Obligations.PairResults := by
  unfold Obligations.PairResults
  refine ⟨pairArithmetic_of_pairArith exec_iadd64, pairArithmetic_of_pairArith exec_isub64,
    fun h f s p s1 s2 x y b hr hd => ⟨_, exec_imulw_ok b hr hd, fun l _ => rfl⟩,
    fun h f s p s1 s2 x y b htype hports hx hy hd => ⟨_, exec_lea_ok b hports hx hy hd, fun l _ => ?_⟩⟩
  rw [← ofInt_scaled, ← ElemType.elem_word (t := typeOf f) (elemType_word htype)]
  rfl

end Sys2Proof.Machine
end

section
/-!
Immediate majors, the shuffle, moves and changes of tags, for O7 to O9: their results go through the same ends as those of
the other register instructions.
-/
namespace Sys2Proof.Machine
open Sys2Proof.Claims

variable {s s1 s2 : State} {p : Path} {h : Head}

/-! ### Immediates (R160 to R162) -/

/-- A shift of the one element of a 32-bit type is the shift of the lane. -/
theorem shiftLane_word {t : ElemType} (ht : t.width = 32) {opInt : Nat → Int → Nat → Int}
    {op : (w : Nat) → BitVec w → Nat → BitVec w} (hop : ShiftsAs t.signed opInt op) (x : Word) (count : Nat) :
    shiftLane t opInt x count = op 32 x (count % 32) := by
  obtain ⟨tag, width, signed⟩ := t
  cases ht
  have h := shifted_shiftLane (t := ⟨tag, 32, signed⟩) (by simp [ElemType.fits]) hop x count 0 (by simp)
  simpa only [Nat.mul_zero, BitVec.extractLsb'_eq_self] using h

theorem immType_word (f : IForm) : (immType f).width = 32 := elemType_word (Nat.mod_lt _ (by decide))

/-- An instruction of no source that ends by delivering its result. -/
theorem noSource_of_finish {F : Type} {mk : Head → F → Instr} {len d : F → Nat} {ok : F → Prop} {tag : F → Tag}
    {R : F → State → Path → Nat → Word → Prop} {body : F → Path → State → Exe State} (v : F → State → Path → Nat → Word)
    (he : ∀ h f s, exec (mk h f) s = runThread (mk h f) h (len f) (body f) s)
    (hb : ∀ f s p, ok f → body f p s = s.finish p [] (d f) (tag f) (v f s p) noFlags)
    (hR : ∀ f s p l, ok f → R f s p l (v f s p l)) : NoSource mk len d ok tag R := by
  intro h f s p s1 s2 b hok hd
  obtain ⟨t, hfin, ht⟩ := State.finish_plain (fields := []) (v f s2 p) hd
  exact ⟨_, t, (he h f s).trans (runThread_ok b ((hb f s2 p hok).trans hfin)), ht, fun l _ => hR f s2 p l hok⟩

/-- Settles O7: the immediate as the second operand of the shared shapes, and MOVI without a source. -/
theorem immediateOperations : Obligations.ImmediateOperations := by
  unfold Obligations.ImmediateOperations
  intro ofType arith bits shift
  have harith {mk : Head → IForm → Instr} {op : Int → Int → Int}
      (he : ∀ h f s, exec (mk h f) s = immArith (mk h f) h f op s) : arith mk op :=
    withImmediate_of_immediate (fun f => arith2 (immType f) (modSat f.mod) op) he
      fun f x => elements_lane (elemType_fits _) (modSat f.mod) _
  have hbits {mk : Head → IForm → Instr} {op : Word → Word → Word}
      (he : ∀ h f s, exec (mk h f) s = immediate (mk h f) h f isDefined id (fun x y => plainly (op x y)) s) : bits mk op :=
    withImmediate_of_immediate (fun _ x y => plainly (op x y)) he fun _ _ => ⟨rfl, rfl⟩
  have hshift {mk : Head → IForm → Instr} {opInt : Nat → Int → Nat → Int} {op : (w : Nat) → BitVec w → Nat → BitVec w}
      (he : ∀ h f s, exec (mk h f) s = immShift (mk h f) h f opInt s) (hop : ∀ signed, ShiftsAs signed opInt op) :
      shift mk (op 32) :=
    withImmediate_of_immediate (fun f x y => plainly (shiftLane (immType f) opInt x y.toNat)) he
      fun f x => ⟨shiftLane_word (immType_word f) (hop _) x f.imm.toNat, rfl⟩
  refine ⟨harith exec_iaddi, harith exec_imuli, hbits exec_andi, hbits exec_ori, hbits exec_xori,
    hshift exec_shli shiftsAs_shl, hshift exec_shri shiftsAs_shr, ?_, ?_⟩
  · exact withImmediate_of_immediate (fun f x y => plainly (shiftLane (immType f) sarElem x y.toNat)) exec_sari
      fun f x hs => ⟨shiftLane_word (immType_word f) (hs ▸ shiftsAs_sar) x f.imm.toNat, rfl⟩
  · exact noSource_of_finish (fun f _ _ _ => f.imm) exec_movi (fun _ _ _ _ => rfl) fun _ _ _ _ _ => rfl

/-! ### The shuffle (R157) -/

/-- What SHFL gives a lane: the value of A in the lane that B names, where that lane is present and has one. -/
def shuffled (s : State) (p : Path) (f : RForm) (x y : Operand) (l : Nat) : Word :=
  let n := (y.at l).toNat % 64
  if !(s.troupe p).present n then 0
  else if isPort f.a.toNat && !p.active.has n then (Config.freeValue (64 * s.nextId + n)).setWidth 32
  else x.at n

/-- Settles O8: where the named lane is present and A has a value there, `shuffled` is that value. -/
theorem laneShuffle : Obligations.LaneShuffle := by
  unfold Obligations.LaneShuffle
  intro h f s p s1 s2 x y b hr hd
  obtain ⟨t, hfin, ht⟩ := State.finish_plain (shuffled s2 p f x y) hd
  refine ⟨_, t, (exec_shfl h f s).trans (runThread_ok b ((Exe.bind_of_ok hr).trans (Exe.bind_of_ok hfin))), ht,
    fun l _ => ?_⟩
  intro n
  split
  · next habsent => exact if_pos (by simpa [Troupe.present] using habsent)
  · next hhere =>
    intro hval
    refine (if_neg (by simpa [Troupe.present] using hhere)).trans (if_neg fun hfree => ?_)
    obtain ⟨hport, hidle⟩ := Bool.and_eq_true_iff.mp hfree
    rcases hval with h | h
    · exact Bool.false_ne_true (h.symm.trans hport)
    · simp [n, h] at hidle

/-! ### Moves and tags (R158, R159, R175) -/

theorem exec_mov_plain {f : RForm} {x : Operand} {t : State} (b : Begins (.mov h f) h f.len.bytes s p s1 s2)
    (hf : f.sub = 0) (hr : s2.read1 p f.a.toNat f.pa.toNat (anyTag f) = .ok x)
    (hfin : s2.finish p [f.a.toNat] f.d.toNat x.tag x.at noFlags = .ok t) :
    exec (.mov h f) s = .next (t.logUndo p.at_ s1) := by
  have hcheck : s2.checkMovSource p f = .ok () := (if_neg (by simp [hf])).trans (State.checkOperand_of_read1 hr)
  have hsource : s2.movSource p f = .ok x := (if_neg (by simp [hf])).trans hr
  refine (exec_mov h f s).trans (runThread_ok b ((Exe.bind_of_ok hcheck).trans ?_))
  simp only [hf]
  exact (Exe.bind_of_ok hsource).trans hfin

/-- Settles O9: each of the moves ends by delivering its source, and REINT by delivering the old bits under new tags. -/
theorem movesAndTags : Obligations.MovesAndTags := by
  unfold Obligations.MovesAndTags
  refine ⟨?_, ?_, ?_, ?_, ?_⟩
  · intro h f s p s1 s2 x b hf hr hd
    obtain ⟨t, hfin, ht⟩ := State.finish_plain x.at hd
    exact ⟨t, exec_mov_plain b hf hr hfin, ht⟩
  · exact noSource_of_finish (fun f s p _ =>
      if f.sub.getLsbD 4 then hiWord (s.kAt p (f.a.toNat % 64)) else loWord (s.kAt p (f.a.toNat % 64))) exec_movk
      (fun f s p hcode => if_neg hcode) fun f s p l _ => rfl
  · intro h f s p s1 s2 b hcode hd
    refine (exec_movk h f s).trans (runThread_ok b ((if_pos hcode).trans ?_))
    exact State.finishGroup_plain (vs := asPair _ _ _) [] hd
  · intro h f s p s1 s2 x b hB hD hr hd
    obtain ⟨t, hfin, ht⟩ := State.finish_plain x.at hd
    refine ⟨t, (exec_reint h f s).trans (runThread_ok b ((if_neg ?_).trans ((Exe.bind_of_ok hr).trans hfin))), ht⟩
    simp [hB, hD]
  · intro h f s p s1 s2 b hcode hs hd
    refine (exec_reint h f s).trans (runThread_ok b ((if_pos ?_).trans ((Exe.bind_of_ok hs).trans ?_)))
    · simpa using hcode
    · by_cases hB : f.sub.toNat = 0xB
      · simp only [if_pos hB]
        exact State.finishGroup_plain (vs := [(.i64l, _), (.i64h, _)]) [] hd
      · simp only [if_neg hB]
        exact State.finishGroup_plain (vs := [(.dfh, _), (.dfl, _)]) [] hd

end Sys2Proof.Machine
end

section
/-!
Uniform registers, predicates and index registers, for O11 to O13: instructions that change their path's troupe alone.
-/
namespace Sys2Proof.Machine
open Sys2Proof.Claims

variable {s s1 s2 : State} {p : Path} {h : Head}

/-- An instruction whose body changes the path's troupe. -/
theorem troupeOnly_of_body {F : Type} {mk : Head → F → Instr} {len : F → Nat} {ok : F → State → Path → Prop}
    {g : F → State → Path → Troupe → Troupe} {body : F → Path → State → Exe State}
    (he : ∀ h f s, exec (mk h f) s = runThread (mk h f) h (len f) (body f) s)
    (hb : ∀ f s p, ok f s p → body f p s = .ok (s.mod p (g f s p))) : TroupeOnly mk len ok g :=
  fun h f s p _ s2 b hok => (he h f s).trans (runThread_ok b (hb f s2 p hok))

/-! ### Uniform majors (R163 to R166) -/

/-- A major of the shared uniform shape. -/
theorem uniform_of_exec {mk : Head → KForm → Instr} {op : KForm → DWord → DWord → DWord}
    {v : KForm → Troupe → DWord → DWord → DWord} (he : ∀ h f s, exec (mk h f) s = uniform (mk h f) h f (op f) s)
    (hv : ∀ f t x y, op f x y = v f t x y) : Uniform mk v := by
  refine troupeOnly_of_body he fun f s p _ => congrArg (fun g => Except.ok (s.mod p g)) (funext fun t => ?_)
  exact congrArg (t.setK f.kd.toNat) (hv f t _ _)

theorem asInt_eq : asInt = asNumber := rfl

theorem pickInt_smaller (u : Bool) : pickInt u false = smaller u := by
  funext x y
  unfold pickInt smaller
  rw [asInt_eq]
  by_cases hle : asNumber u x ≤ asNumber u y <;> simp [hle]

theorem pickInt_larger (u : Bool) : pickInt u true = larger u := by
  funext x y
  unfold pickInt larger
  rw [asInt_eq]
  by_cases hle : asNumber u x ≤ asNumber u y <;> simp [hle]

theorem redOp_eq (n : Nat) : redOp n = fold n := by
  funext x y
  unfold redOp fold
  split <;> simp only [pickInt_smaller, pickInt_larger]

/-- Settles O11: each uniform major changes the troupe in one place, with a value that its own register file gives. -/
theorem uniformOperations : Obligations.UniformOperations := by
  unfold Obligations.UniformOperations
  have hu {mk : Head → KForm → Instr} {op : DWord → DWord → DWord}
      (he : ∀ h f s, exec (mk h f) s = uniform (mk h f) h f op s) : Uniform mk fun _ _ x y => op x y :=
    uniform_of_exec (op := fun _ => op) he fun _ _ _ _ => rfl
  refine ⟨hu exec_kmov, hu exec_kadd, hu exec_ksub, hu exec_kmul, hu exec_kand, hu exec_kor, hu exec_kxor, hu exec_kshl,
    hu exec_kshr, hu exec_ksar, ?_, ?_, ?_, ?_, ?_, ?_, ?_⟩
  · exact uniform_of_exec exec_kmin fun f _ x y => congrFun₂ (pickInt_smaller _) x y
  · exact uniform_of_exec exec_kmax fun f _ x y => congrFun₂ (pickInt_larger _) x y
  · refine troupeOnly_of_body exec_ksel fun f s p _ => ?_
    simp only [bne_iff_ne]
    rfl
  · exact troupeOnly_of_body exec_kldi fun _ _ _ _ => rfl
  · exact troupeOnly_of_body exec_kldi128 fun _ _ _ _ => rfl
  · refine troupeOnly_of_body exec_kred fun f s p _ => ?_
    simp only [redOp_eq]
  · intro h f s p s1 s2 b hcode
    exact ⟨_, (exec_kcmp h f s).trans (runThread_ok b rfl), fun t => holds_iff hcode⟩

/-! ### Predicates (R167 to R169) -/

/-- An instruction that ends by writing a predicate. -/
theorem predicate_of_putPred {mk : Head → RForm → Instr} {ok : RForm → Prop}
    {R : RForm → State → Path → Nat → Bool → Prop} {body : RForm → Path → State → Exe State}
    (v : RForm → State → Path → Nat → Bool) (he : ∀ h f s, exec (mk h f) s = runThread (mk h f) h 8 (body f) s)
    (hb : ∀ f s p, ok f → body f p s = .ok (s.putPred p f.d.toNat (v f s p)))
    (hR : ∀ f s p l, ok f → p.active.has l = true → R f s p l (v f s p l)) : Predicate mk ok R := by
  intro h f s p s1 s2 b hok
  refine ⟨v f s2 p, (he h f s).trans (runThread_ok b ((hb f s2 p hok).trans ?_)), fun l hl => hR f s2 p l hok hl⟩
  rw [State.putPred_eq]

/-- What PSET gives a lane (R167). -/
def psetValue (f : RForm) (s : State) (p : Path) (l : Nat) : Bool :=
  match f.sub.toNat with
  | 0 => false
  | 1 => true
  | 2 => ((s.troupe p).kreg f.a.toNat).getLsbD l
  | _ => (s.troupe p).c.getLsbD f.a.toNat

theorem predicateOperations : PredicateOperations := by
  have htwo {mk : Head → RForm → Instr} {op op' : Bool → Bool → Bool} (hop : op = op')
      (he : ∀ h f s, exec (mk h f) s = predBinary (mk h f) h f op s) :
      Predicate mk (fun _ => True) fun f s p l b =>
        b = op' (predicate s p f.a.toNat l ^^ f.sub.getLsbD 0) (predicate s p f.b.toNat l ^^ f.sub.getLsbD 1) := by
    subst hop
    exact predicate_of_putPred (fun f s p l =>
      op (predicate s p f.a.toNat l ^^ f.sub.getLsbD 0) (predicate s p f.b.toNat l ^^ f.sub.getLsbD 1)) he
      (fun f s p _ => by simp only [Bool.bne_eq_xor]; rfl) fun _ _ _ _ _ _ => rfl
  refine ⟨htwo rfl exec_pand, htwo rfl exec_por, htwo Bool.bne_eq_xor exec_pxor, ?_, ?_, ?_, ?_, ?_⟩
  · exact predicate_of_putPred (fun f s p l => !predicate s p f.a.toNat l) exec_pnot (fun _ _ _ _ => rfl)
      fun _ _ _ _ _ _ => rfl
  · refine predicate_of_putPred psetValue exec_pset (fun _ _ _ _ => rfl) fun f s p l _ _ => ⟨?_, ?_, ?_, ?_⟩
    all_goals intro hf; rw [psetValue, hf]; rfl
  · exact predicate_of_putPred (fun f s p l => predicate s p f.a.toNat l) exec_pmov
      (fun f s p hf => by rw [hf]; rfl) fun _ _ _ _ _ _ => rfl
  · intro h f s p s1 s2 x b hf hr
    refine ⟨fun l => x.at l != 0, (exec_pmov h f s).trans (runThread_ok b ?_), fun l _ => bne_iff_ne⟩
    rw [hf, ← State.putPred_eq]
    exact Exe.bind_of_ok hr
  · exact noSource_of_finish (fun f s p l => if predicate s p f.a.toNat l then 1 else 0) exec_pmov
      (fun f s p hf => by rw [hf]; rfl) fun _ _ _ _ _ => rfl

/-! ### Reductions over the active lanes (R168) -/

theorem State.has_ballot {n l : Nat} :
    (s.ballot p n).has l = true ↔ p.active.has l = true ∧ predicate s p n l = true := by
  rw [State.ballot, Mask.has_ofTest]
  by_cases hl : l < 64
  · simp only [hl, decide_true, Bool.true_and, Bool.and_eq_true]
    exact Iff.rfl
  · simp [hl, Mask.has_ge p.active l (Nat.le_of_not_lt hl)]

theorem Mask.ne_zero_iff {m : Mask} : (m != 0) = true ↔ ∃ l, m.has l = true := by
  rw [bne_iff_ne]
  constructor
  · intro hm
    obtain ⟨t, ht⟩ := Mask.lanes_eq_cons hm
    exact ⟨m.lowest, (Mask.mem_lanes m _).mp (ht ▸ List.mem_cons_self)⟩
  · rintro ⟨l, hl⟩ rfl
    simp [Mask.has] at hl

theorem State.ballot_eq_active {n : Nat} :
    (s.ballot p n == p.active) = true ↔ ∀ l, p.active.has l = true → predicate s p n l = true := by
  rw [beq_iff_eq]
  constructor
  · intro he l hl
    exact (State.has_ballot.mp (he ▸ hl)).2
  · intro hall
    refine Mask.ext_has _ _ fun l _ => Bool.eq_iff_iff.mpr ?_
    rw [State.has_ballot]
    exact ⟨fun h => h.1, fun h => ⟨h, hall l h⟩⟩

theorem Mask.count_eq (m : Mask) : m.count = (List.range 64).countP m.has := by
  rw [Mask.count, Mask.lanes, List.countP_eq_length_filter]
  rfl

/-- The head of an ordered list is the member that none precedes. -/
theorem head?_eq_some_iff_of_pairwise {α : Type} {r : α → α → Prop} (hr : ∀ x y, r x y → ¬r y x) {ls : List α}
    (hp : ls.Pairwise r) {l : α} : ls.head? = some l ↔ l ∈ ls ∧ ∀ n ∈ ls, n = l ∨ r l n := by
  cases ls with
  | nil => simp
  | cons a t =>
    have hhead := (List.pairwise_cons.mp hp).1
    rw [List.head?_cons, Option.some.injEq]
    constructor
    · rintro rfl
      exact ⟨List.mem_cons_self, fun n hn => (List.mem_cons.mp hn).imp_right (hhead n)⟩
    · rintro ⟨hl, hall⟩
      rcases List.mem_cons.mp hl with rfl | hl
      · rfl
      · exact (hall a List.mem_cons_self).resolve_right (hr _ _ (hhead l hl))

/-- The first lane of a mask is the lowest. -/
theorem Mask.head?_lanes {m : Mask} {l : Nat} :
    m.lanes.head? = some l ↔ m.has l = true ∧ ∀ n, m.has n = true → l ≤ n := by
  rw [head?_eq_some_iff_of_pairwise (fun _ _ => Nat.lt_asymm) (Mask.pairwise_lanes m)]
  simp only [Mask.mem_lanes, eq_comm (b := l), ← le_iff_eq_or_lt]

/-- The last one is the highest. -/
theorem Mask.getLast?_lanes {m : Mask} {l : Nat} :
    m.lanes.getLast? = some l ↔ m.has l = true ∧ ∀ n, m.has n = true → n ≤ l := by
  rw [List.getLast?_eq_head?_reverse, head?_eq_some_iff_of_pairwise (r := fun x y => y < x) (fun _ _ => Nat.lt_asymm)
    (List.pairwise_reverse.mpr (Mask.pairwise_lanes m))]
  simp only [List.mem_reverse, Mask.mem_lanes, ← le_iff_eq_or_lt]

theorem predicateReductions : PredicateReductions := by
  unfold PredicateReductions
  intro vote
  refine ⟨fun h f s p s1 s2 b => ⟨s2.ballot p f.a.toNat, fun l => State.has_ballot, ?_⟩,
    fun h f s p s1 s2 b => ⟨s2.ballot p f.a.toNat != 0, ?_, (exec_pany h f s).trans (runThread_ok b rfl)⟩,
    fun h f s p s1 s2 b => ⟨s2.ballot p f.a.toNat == p.active, State.ballot_eq_active,
      (exec_pall h f s).trans (runThread_ok b rfl)⟩, ?_⟩
  · rw [← Mask.count_eq]
    exact (exec_pbal h f s).trans (runThread_ok b rfl)
  · exact Mask.ne_zero_iff.trans (exists_congr fun l => State.has_ballot)
  · refine predicate_of_putPred (fun f s p l => (if f.sub.getLsbD 0 then (s.ballot p f.a.toNat).lanes.getLast?
      else (s.ballot p f.a.toNat).lanes.head?) == some l) exec_pelect (fun _ _ _ _ => rfl) fun f s p l _ _ => ?_
    rw [beq_iff_eq]
    split
    · rw [Mask.getLast?_lanes]
      simp only [State.has_ballot]
      rfl
    · rw [Mask.head?_lanes]
      simp only [State.has_ballot]
      rfl

/-- Settles O12: operations lane by lane, reductions through the mask of the lanes that vote. -/
theorem predicates : Obligations.Predicates := ⟨predicateOperations, predicateReductions⟩

/-! ### Index registers (R173, R174) -/

/-- A field of a word as a vector of its own width. -/
theorem ofNat_bitsOf (x : Word) (lo : Nat) {n : Nat} (hn : 0 < n) :
    BitVec.ofNat n (bitsOf x.toNat (lo + n - 1) lo) = x.extractLsb' lo n := by
  have hwidth : lo + n - 1 + 1 - lo = n := by omega
  refine BitVec.eq_of_toNat_eq ?_
  rw [BitVec.toNat_ofNat, BitVec.extractLsb'_toNat, bitsOf, hwidth, Nat.mod_mod]

theorem indexBounds : IndexBounds := by
  unfold IndexBounds
  intro lower upper set
  have hlower (f : IForm) : BitVec.ofNat 11 (bitsOf f.imm.toNat 10 0) = lower f := ofNat_bitsOf f.imm 0 (by decide)
  have hupper (f : IForm) : BitVec.ofNat 11 (bitsOf f.imm.toNat 26 16) = upper f := ofNat_bitsOf f.imm 16 (by decide)
  constructor
  · intro h f s p s1 s2 x b hf hr
    refine (exec_idxset h f s).trans (runThread_ok b ?_)
    simp only [hlower, hupper]
    exact (if_pos hf).trans (Exe.bind_of_ok hr)
  · refine troupeOnly_of_body exec_idxset fun f s p hf => ?_
    simp only [hlower, hupper]
    exact if_neg hf

/-- Settles O13: IDXSET and IDXADD change the path's troupe alone. -/
theorem indexRegisters : Obligations.IndexRegisters :=
  ⟨indexBounds, troupeOnly_of_body exec_idxadd fun _ _ _ _ => rfl⟩

end Sys2Proof.Machine
end

section
/-!
Taking a fault, for O60: the record that the queue receives, and what the dispositions deliver and kill do with the block.
-/
namespace Sys2Proof.Machine
open Sys2Proof.Claims

variable {s : State} {c b id : Nat} {q : Issue} {code : Nat} {w : FaultWait} {t : Troupe} {l : Launch} {x : Block} {k : Core}

/-! ### Launches (R184) -/

theorem State.launch_modLaunch {f : Launch → Launch} (hf : ∀ g, (f g).id = g.id) :
    (s.modLaunch id f).launch id = (s.launch id).map f := by
  rw [State.modLaunch_eq]
  unfold State.launch withLaunch
  have hname : ((fun g : Launch => g.id == id) ∘ fun g => if g.id = id then f g else g) = fun g => g.id == id := by
    funext g
    simp only [Function.comp]
    split
    · rw [hf]
    · rfl
  rw [List.find?_map, hname]
  cases hg : s.sched.launches.find? fun g => g.id == id with
  | none => rfl
  | some g =>
    have hid : g.id = id := State.launch_id hg
    simp only [Option.map_some, hid, if_true]

/-- A fault counts for the top launch of its block's launch, up to 2³² − 1. -/
theorem State.launch_countFault {g : Launch} (hl : s.launchOf c b = some l) (hg : s.launch (s.topLaunch l.id) = some g) :
    (s.countFault c b).launch (s.topLaunch l.id) = some { g with faults := min (g.faults + 1) 0xFFFFFFFF } := by
  unfold State.countFault
  rw [hl]
  refine (State.launch_modLaunch (f := fun x => { x with faults := min (x.faults + 1) 0xFFFFFFFF }) fun _ => rfl).trans ?_
  rw [hg]
  rfl

theorem State.countFault_keeps {β : Type} {g : State → β} (hg : ∀ t f, g (State.modSched t f) = g t) :
    g (s.countFault c b) = g s := by
  unfold State.countFault
  split
  · rfl
  · exact hg _ _

theorem State.noteRemoved_keeps {β : Type} {g : State → β} (hg : ∀ t f, g (State.modSched t f) = g t) :
    g (s.noteRemoved c b) = g s := by
  unfold State.noteRemoved
  split
  · exact hg _ _
  · rfl

/-! ### Killing a block (R303) -/

theorem State.modCore_has {f : Core → Core} (hc : Has s c) : Has (s.modCore c f) c := by
  unfold Has
  rw [State.length_modCore]
  exact hc

/-- A core without what goes at once with a killed block. -/
def Core.killed (k : Core) (b : Nat) : Core :=
  ((({ k with
      troupes := k.troupes.filter fun x => x.blk != b
      undo := k.undo.filter fun u => u.blk != b }).endBlock b).dropPushes b).modBlock b
    fun x => { x with killed := true, relq := [], saved := false }

theorem Core.block_killed (hx : k.block b = some x) : ∃ y, (k.killed b).block b = some y ∧ y.killed = true := by
  obtain ⟨y, hy, -⟩ := Core.block_endBlock (k := { k with
    troupes := k.troupes.filter fun x => x.blk != b
    undo := k.undo.filter fun u => u.blk != b }) hx
  exact ⟨_, Core.block_modBlock hy, rfl⟩

/-- What killing a block changes: its core, its core pair, and the faults of the block that were halted or waiting. -/
theorem State.killBlock_eq (hx : (s.core c).block b = some x) :
    ∃ (f : Core → List SbEntry) (hs : List Halt) (ws : List FaultWait), s.killBlock c b =
      { (((s.modCore c fun k => k.killed b).modPair (c / 2) fun q => q.endBlock c b true).modCore c
        fun k => { k with board := f k }) with halts := hs, faultWait := ws } := by
  unfold State.killBlock
  rw [hx]
  exact ⟨_, _, _, rfl⟩

theorem State.core_killBlock (hc : Has s c) (hx : (s.core c).block b = some x) :
    ∃ es, (s.killBlock c b).core c = { (s.core c).killed b with board := es } := by
  obtain ⟨f, hs, ws, hkill⟩ := State.killBlock_eq hx
  have hcore : ((s.modCore c fun k => k.killed b).modPair (c / 2) fun q => q.endBlock c b true).core c = (s.core c).killed b :=
    State.core_modCore s c (fun k => k.killed b) hc
  rw [hkill]
  refine ⟨f ((s.core c).killed b), ?_⟩
  exact (State.core_modCore ((s.modCore c fun k => k.killed b).modPair (c / 2) fun q => q.endBlock c b true) c
    (fun k => { k with board := f k }) (State.modCore_has (f := fun k => k.killed b) hc)).trans
    (congrArg (fun k : Core => { k with board := f k }) hcore)

theorem State.killBlock_keeps {β : Type} {g : State → β}
    (hg : ∀ (t : State) cs ps hs ws, g { t with cores := cs, pairs := ps, halts := hs, faultWait := ws } = g t) :
    g (s.killBlock c b) = g s := by
  cases hx : (s.core c).block b with
  | none =>
    unfold State.killBlock
    rw [hx]
  | some x =>
    obtain ⟨f, hs, ws, hkill⟩ := State.killBlock_eq hx
    rw [hkill]
    exact hg s _ _ hs ws

/-! ### Delivering (R184) -/

/-- A troupe of which some lanes stop where they are. -/
def Troupe.stopLanes (t : Troupe) (m : Mask) : Troupe := t.modLanes m fun _ y => { y with stopped := true }

theorem State.core_deliver {seq : Nat} (hc : Has s w.record.core) :
    (s.deliver w seq).core w.record.core =
      ((s.core w.record.core).modTroupe w.blk w.record.troupe fun t => t.stopLanes w.lanes).modBlock w.blk
        fun y => { y with halted := true } :=
  (State.core_modCore (s.haltLanes w.record.core w.blk w.record.troupe w.lanes) _
    (fun k => k.modBlock w.blk fun y => { y with halted := true }) (State.modCore_has hc)).trans
    (congrArg (fun k : Core => k.modBlock w.blk fun y => { y with halted := true })
      (State.core_modCore s _ (fun k => k.modTroupe w.blk w.record.troupe fun t => t.stopLanes w.lanes) hc))

/-- Delivered, the faulting lanes of the troupe stop and nothing else of it changes. -/
theorem State.troupe_deliver {seq : Nat} (hc : Has s w.record.core)
    (ht : (s.core w.record.core).troupe w.blk w.record.troupe = some t) :
    ((s.deliver w seq).core w.record.core).troupe w.blk w.record.troupe = some (t.stopLanes w.lanes) := by
  rw [State.core_deliver hc]
  refine (Core.troupe_modTroupe _ _ _ (fun t => t.stopLanes w.lanes) fun _ => ⟨rfl, rfl⟩).trans ?_
  rw [ht]
  rfl

theorem State.block_deliver {seq : Nat} (hc : Has s w.record.core) (hx : (s.core w.record.core).block w.blk = some x) :
    ((s.deliver w seq).core w.record.core).block w.blk = some { x with halted := true } := by
  rw [State.core_deliver hc]
  exact Core.block_modBlock (f := fun y => { y with halted := true }) hx

/-! ### The record (R181, R182) -/

theorem dispositionOf_le (l : Launch) (code : Nat) : dispositionOf l code ≤ 2 := by
  unfold dispositionOf
  split
  · exact le_rfl
  · split
    · decide
    · split
      · decide
      · decide
  · decide

/-- A fault that has room and does not depart writes its record, and its disposition acts. -/
theorem State.raiseFault_room (hdisp : w.record.disp ≠ 1) (hroom : s.faultRoom w.record.ext = true) :
    s.raiseFault w =
      (s.postRecord w.record (s.ownerOf w.record.core w.blk).1).applyDisposition w s.faultSeq := by
  have hfit : s.fitted w = w := if_neg (by simp [hdisp])
  unfold State.raiseFault
  simp only [hfit, hroom, if_true]

/-- The record of a path's fault that concerns no port, before the arbiter numbers it. -/
def pathRecord (q : Issue) (t : Troupe) (l : Launch) (k : Block) (code : Nat) (mask : Mask)
    (addr : DWord) (arg : Nat) : FaultRec :=
  { code := code, ext := false, multi := false, checked := t.role != 0, resfail := false, disp := dispositionOf l code
    core := q.core, troupe := q.troupe, slot := t.slot.getD 0, recCount := t.recCount, entry := (t.lane mask.lowest).rea
    pc := q.pc, mask := mask, addr := addr, block := k.index, job := l.job, lane := mask.lowest, port := none, arg := arg
    seq := 0, check := 0, extWords := [] }

/-- A path's fault that awaits nothing. -/
def pathWait (q : Issue) (len : Nat) (r : FaultRec) : FaultWait :=
  { record := r, blk := q.blk, lanes := q.lanes, next := q.pc + BitVec.ofNat 64 len, key := .none, engine := false, wid := 0
    final := false }

/-- The state in which a path's fault has been recorded and its disposition has not acted yet. -/
def State.recorded (s : State) (q : Issue) (code : Nat) (r : FaultRec) : State :=
  let u := s.modCore q.core fun k => k.useOutcome q code
  u.postRecord r (u.ownerOf q.core q.blk).1

theorem State.takeFault_recorded {len arg : Nat} {mask : Mask} {addr : DWord}
    (ht : (s.core q.core).troupe q.blk q.troupe = some t) (hl : s.launchOf q.core q.blk = some l)
    (hx : (s.core q.core).block q.blk = some x) (hroom : s.faultRoom false = true) (hdisp : dispositionOf l code ≠ 1) :
    s.takeFault q len code mask addr arg none .none =
      (s.recorded q code (pathRecord q t l x code mask addr arg)).applyDisposition
        (pathWait q len (pathRecord q t l x code mask addr arg)) s.faultSeq := by
  have hext : (if code = codeStream then (none : Option Nat) else none).bind ((s.core q.core).ctxOf q.blk q.troupe) = none := by
    split <;> rfl
  unfold State.takeFault
  simp only [ht, hl, hx, hext, List.isEmpty_nil, Bool.not_true, beq_eq_false_iff_ne.mpr hdisp, Bool.false_and]
  exact State.raiseFault_room (w := pathWait q len (pathRecord q t l x code mask addr arg)) hdisp hroom

theorem Core.useOutcome_eq (k : Core) (q : Issue) (code : Nat) : ∃ os, k.useOutcome q code = { k with outcomes := os } := by
  unfold Core.useOutcome
  split
  · exact ⟨_, rfl⟩
  · exact ⟨_, rfl⟩

section
variable {r : FaultRec}

theorem State.recorded_faultQ : (s.recorded q code r).faultQ = s.faultQ ++ [r.numbered s.faultSeq] := State.signal_faultQ _ _ _
theorem State.recorded_faultSeq : (s.recorded q code r).faultSeq = (s.faultSeq + 1) % 2 ^ 32 := State.signal_faultSeq _ _ _
theorem State.recorded_sched : (s.recorded q code r).sched = s.sched := State.signal_sched _ _ _
theorem State.recorded_launch : (s.recorded q code r).launch id = s.launch id :=
  congrArg (fun z : Sched => z.launches.find? fun g : Launch => g.id == id) State.recorded_sched
theorem State.recorded_topLaunch : (s.recorded q code r).topLaunch id = s.topLaunch id := by
  unfold State.topLaunch
  rw [State.recorded_launch]

theorem State.recorded_cores : (s.recorded q code r).cores = (s.modCore q.core fun k => k.useOutcome q code).cores :=
  State.signal_cores _ _ _

theorem State.recorded_has (hc : Has s q.core) : Has (s.recorded q code r) q.core := by
  unfold Has
  rw [State.recorded_cores]
  exact State.modCore_has hc

/-- Recording a fault changes no troupe, record or block of its core. -/
theorem State.core_recorded (hc : Has s q.core) :
    ∃ os, (s.recorded q code r).core q.core = { s.core q.core with outcomes := os } := by
  obtain ⟨os, hos⟩ := (s.core q.core).useOutcome_eq q code
  refine ⟨os, Eq.trans ?_ hos⟩
  exact (congrArg (fun ks : List Core => ks.getD q.core Core.reset) State.recorded_cores).trans (State.core_modCore s _ _ hc)

theorem State.recorded_launchOf (hc : Has s q.core) :
    (s.recorded q code r).launchOf q.core q.blk = s.launchOf q.core q.blk := by
  obtain ⟨os, hos⟩ := State.core_recorded (code := code) (r := r) hc
  unfold State.launchOf
  rw [hos]
  exact congrArg _ (funext fun k => State.recorded_launch)

end

/-! ### The dispositions (R184) -/

theorem State.applyDisposition_deliver {seq : Nat} (h : w.record.disp = 0) : s.applyDisposition w seq = s.deliver w seq := by
  unfold State.applyDisposition
  simp only [h]

theorem State.applyDisposition_kill {seq : Nat} (h : w.record.disp = 2) :
    s.applyDisposition w seq = (if w.record.code = codeCancelled then s.noteRemoved w.record.core w.blk
      else s.countFault w.record.core w.blk).killBlock w.record.core w.blk := by
  unfold State.applyDisposition
  simp only [h, beq_iff_eq]

/-- Delivering and killing leave the queue of records as it is. -/
theorem State.applyDisposition_queue {seq : Nat} (h : w.record.disp = 0 ∨ w.record.disp = 2) :
    ((s.applyDisposition w seq).faultQ, (s.applyDisposition w seq).faultSeq) = (s.faultQ, s.faultSeq) := by
  rcases h with h | h
  · rw [State.applyDisposition_deliver h]
    rfl
  · rw [State.applyDisposition_kill h]
    refine (State.killBlock_keeps (g := fun t => (t.faultQ, t.faultSeq)) fun _ _ _ _ _ => rfl).trans ?_
    split
    · exact State.noteRemoved_keeps (g := fun t => (t.faultQ, t.faultSeq)) fun _ _ => rfl
    · exact State.countFault_keeps (g := fun t => (t.faultQ, t.faultSeq)) fun _ _ => rfl

section
variable {seq : Nat} (hkill : w.record.disp = 2)
include hkill

/-- Under kill the block's core is that of a killed block. -/
theorem State.core_applyDisposition_kill (hc : Has s w.record.core) (hx : (s.core w.record.core).block w.blk = some x) :
    ∃ es, (s.applyDisposition w seq).core w.record.core = { (s.core w.record.core).killed w.blk with board := es } := by
  rw [State.applyDisposition_kill hkill]
  generalize hu : (if w.record.code = codeCancelled then s.noteRemoved w.record.core w.blk
    else s.countFault w.record.core w.blk) = u
  have hcores : u.cores = s.cores := by
    rw [← hu]
    split
    · exact State.noteRemoved_keeps fun _ _ => rfl
    · exact State.countFault_keeps fun _ _ => rfl
  have hcore : u.core w.record.core = s.core w.record.core :=
    congrArg (fun ks : List Core => ks.getD w.record.core Core.reset) hcores
  have := State.core_killBlock (s := u) (hcores.symm ▸ hc : w.record.core < u.cores.length) (hcore ▸ hx)
  rwa [hcore] at this

/-- No troupe and no record of the block is left. -/
theorem State.applyDisposition_kill_gone (hc : Has s w.record.core) (hx : (s.core w.record.core).block w.blk = some x) :
    (∀ y ∈ ((s.applyDisposition w seq).core w.record.core).troupes, y.blk ≠ w.blk) ∧
    (∀ r ∈ ((s.applyDisposition w seq).core w.record.core).cue, r.blk ≠ w.blk) ∧
    ∃ y, ((s.applyDisposition w seq).core w.record.core).block w.blk = some y ∧ y.killed = true := by
  obtain ⟨es, hcore⟩ := State.core_applyDisposition_kill (seq := seq) hkill hc hx
  have htroupes : ((s.applyDisposition w seq).core w.record.core).troupes =
      (s.core w.record.core).troupes.filter fun y => y.blk != w.blk := congrArg Core.troupes hcore
  have hcue : ((s.applyDisposition w seq).core w.record.core).cue =
      (s.core w.record.core).cue.filter fun r => r.blk != w.blk := congrArg Core.cue hcore
  obtain ⟨y, hy, hkilled⟩ := Core.block_killed hx
  rw [htroupes, hcue]
  exact ⟨fun y hy => bne_iff_ne.mp (List.mem_filter.mp hy).2, fun r hr => bne_iff_ne.mp (List.mem_filter.mp hr).2,
    y, (congrArg (Core.block · w.blk) hcore).trans hy, hkilled⟩

theorem State.launch_applyDisposition_kill {g : Launch} (hcode : w.record.code ≠ codeCancelled)
    (hl : s.launchOf w.record.core w.blk = some l) (hg : s.launch (s.topLaunch l.id) = some g) :
    (s.applyDisposition w seq).launch (s.topLaunch l.id) = some { g with faults := min (g.faults + 1) 0xFFFFFFFF } := by
  rw [State.applyDisposition_kill hkill, if_neg hcode]
  exact (State.killBlock_keeps (g := fun t => t.launch (s.topLaunch l.id)) fun _ _ _ _ _ => rfl).trans
    (State.launch_countFault hl hg)

end

/-! ### The obligation -/

section
variable {len arg : Nat} {mask : Mask} {addr : DWord} (hc : Has s q.core)
  (ht : (s.core q.core).troupe q.blk q.troupe = some t) (hl : s.launchOf q.core q.blk = some l)
  (hx : (s.core q.core).block q.blk = some x) (hroom : s.faultRoom false = true)

include ht hl hx hroom in
/-- One record, with the fault's values and the arbiter's number. -/
theorem State.takeFault_queue (hdisp : dispositionOf l code ≠ 1) :
    (s.takeFault q len code mask addr arg none .none).faultQ =
      s.faultQ ++ [(pathRecord q t l x code mask addr arg).numbered s.faultSeq] ∧
    (s.takeFault q len code mask addr arg none .none).faultSeq = (s.faultSeq + 1) % 2 ^ 32 := by
  have hcases : dispositionOf l code = 0 ∨ dispositionOf l code = 2 := by
    have := dispositionOf_le l code
    omega
  have hqueue := State.applyDisposition_queue (s := s.recorded q code (pathRecord q t l x code mask addr arg))
    (w := pathWait q len (pathRecord q t l x code mask addr arg)) (seq := s.faultSeq) hcases
  rw [State.takeFault_recorded ht hl hx hroom hdisp]
  rwa [Prod.mk.injEq, State.recorded_faultQ, State.recorded_faultSeq] at hqueue

include hc ht hl hx hroom in
theorem State.takeFault_delivers (hdeliver : dispositionOf l code = 0) :
    let u := s.takeFault q len code mask addr arg none .none
    (u.core q.core).block q.blk = some { x with halted := true } ∧
    (u.core q.core).troupe q.blk q.troupe = some (t.stopLanes q.lanes) ∧
    { seq := s.faultSeq, core := q.core, blk := q.blk, troupe := q.troupe, mask := q.lanes, code := code
      next := q.pc + BitVec.ofNat 64 len, engine := false } ∈ u.halts := by
  intro u
  obtain ⟨os, hcore⟩ := State.core_recorded (code := code) (r := pathRecord q t l x code mask addr arg) hc
  have hhas := State.recorded_has (code := code) (r := pathRecord q t l x code mask addr arg) hc
  have hu : u = _ := (State.takeFault_recorded ht hl hx hroom (by simp [hdeliver])).trans
    (State.applyDisposition_deliver hdeliver)
  rw [hu]
  exact ⟨State.block_deliver hhas ((congrArg (Core.block · q.blk) hcore).trans hx),
    State.troupe_deliver hhas ((congrArg (Core.troupe · q.blk q.troupe) hcore).trans ht),
    List.mem_append_right _ (List.mem_singleton_self _)⟩

include hc ht hl hx hroom in
theorem State.takeFault_kills (hkill : dispositionOf l code = 2) :
    (∀ y ∈ ((s.takeFault q len code mask addr arg none .none).core q.core).troupes, y.blk ≠ q.blk) ∧
    (∀ r ∈ ((s.takeFault q len code mask addr arg none .none).core q.core).cue, r.blk ≠ q.blk) ∧
    ∃ y, ((s.takeFault q len code mask addr arg none .none).core q.core).block q.blk = some y ∧ y.killed = true := by
  obtain ⟨os, hcore⟩ := State.core_recorded (code := code) (r := pathRecord q t l x code mask addr arg) hc
  rw [State.takeFault_recorded ht hl hx hroom (by rw [hkill]; decide)]
  exact State.applyDisposition_kill_gone (w := pathWait q len (pathRecord q t l x code mask addr arg)) hkill
    (State.recorded_has hc) ((congrArg (Core.block · q.blk) hcore).trans hx)

include hc ht hl hx hroom in
theorem State.takeFault_counts {g : Launch} (hkill : dispositionOf l code = 2) (hcode : code ≠ codeCancelled)
    (hg : s.launch (s.topLaunch l.id) = some g) :
    (s.takeFault q len code mask addr arg none .none).launch (s.topLaunch l.id) =
      some { g with faults := min (g.faults + 1) 0xFFFFFFFF } := by
  have htop : (s.recorded q code (pathRecord q t l x code mask addr arg)).topLaunch l.id = s.topLaunch l.id :=
    State.recorded_topLaunch
  rw [State.takeFault_recorded ht hl hx hroom (by rw [hkill]; decide), ← htop]
  refine State.launch_applyDisposition_kill (w := pathWait q len (pathRecord q t l x code mask addr arg)) hkill hcode
    ((State.recorded_launchOf hc).trans hl) ?_
  rw [htop]
  exact State.recorded_launch.trans hg

end

/-- Settles O60: the fault is recorded, and then its disposition delivers it or kills its block. -/
theorem faultTaken : Obligations.FaultTaken := by
  unfold Obligations.FaultTaken
  intro s q len code arg mask addr t l k hc ht hl hk hroom hdisp u
  obtain ⟨hqueue, hseq⟩ := State.takeFault_queue (len := len) (arg := arg) (mask := mask) (addr := addr) ht hl hk hroom hdisp
  refine ⟨⟨(pathRecord q t l k code mask addr arg).numbered s.faultSeq, hqueue, ?_⟩, hseq,
    fun hdeliver => ?_, fun hkill => ?_⟩
  · and_intros <;> rfl
  · obtain ⟨hblock, htroupe, hhalt⟩ := State.takeFault_delivers (len := len) (arg := arg) (mask := mask) (addr := addr)
      hc ht hl hk hroom hdeliver
    exact ⟨⟨_, hblock, rfl⟩, ⟨_, hhalt, rfl, rfl, rfl, rfl, rfl, rfl⟩, _, htroupe, rfl,
      fun n hn => Troupe.lane_modLanes _ _ _ _ hn⟩
  · obtain ⟨htroupes, hcue, hblock⟩ := State.takeFault_kills (len := len) (arg := arg) (mask := mask) (addr := addr)
      hc ht hl hk hroom hkill
    exact ⟨htroupes, hcue, hblock, fun hcode g hg => ⟨_, State.takeFault_counts hc ht hl hk hroom hkill hcode hg, rfl⟩⟩

end Sys2Proof.Machine
end

section
/-!
What saving changes where no sector is poisoned, for O44: spilling marks records as spilled, and the other parts of a save
write device DRAM and nothing else.
-/
namespace Sys2Proof.Machine
open Sys2Proof.Claims

variable {s t : State} {k k' : Core} {c b a : Nat}

/-! ### Spilling (R125, R186) -/

/-- A record is as it was, or has been spilled. -/
def CueRec.SpilledFrom (x r : CueRec) : Prop := r = x ∨ ∃ a, r = { x with spilled := true, wingsAt := a, written := false }

theorem CueRec.SpilledFrom.trans {x y z : CueRec} (hxy : x.SpilledFrom y) (hyz : y.SpilledFrom z) : x.SpilledFrom z := by
  rcases hyz with rfl | ⟨a, rfl⟩
  · exact hxy
  · rcases hxy with rfl | ⟨_, rfl⟩
    · exact .inr ⟨a, rfl⟩
    · exact .inr ⟨a, rfl⟩

/-- Every record of `k'` is one of `k`, at most spilled since. -/
def OnlySpills (k k' : Core) : Prop := ∀ r ∈ k'.cue, ∃ x ∈ k.cue, x.SpilledFrom r

theorem OnlySpills.of_cue (h : k'.cue = k.cue) : OnlySpills k k' := fun r hr => ⟨r, h ▸ hr, .inl rfl⟩

theorem OnlySpills.trans {k'' : Core} (h : OnlySpills k k') (h' : OnlySpills k' k'') : OnlySpills k k'' := by
  intro r hr
  obtain ⟨y, hy, hyr⟩ := h' r hr
  obtain ⟨x, hx, hxy⟩ := h y hy
  exact ⟨x, hx, hxy.trans hyr⟩

theorem OnlySpills.foldl {α : Type} {f : Core → α → Core} (hf : ∀ k x, OnlySpills k (f k x)) (l : List α) (k : Core) :
    OnlySpills k (l.foldl f k) :=
  List.foldlRecOn (motive := OnlySpills k) l f (.of_cue rfl) fun k' h x _ => h.trans (hf k' x)

theorem Core.spillAt_onlySpills (k : Core) (r : CueRec) (a : Nat) : OnlySpills k (k.spillAt r a) := by
  intro y hy
  obtain ⟨x, hx, rfl⟩ := List.mem_map.mp hy
  refine ⟨x, hx, ?_⟩
  split
  · exact .inr ⟨a, rfl⟩
  · exact .inl rfl

theorem Core.spillRecord_onlySpills (k : Core) (rid : Nat) : OnlySpills k (k.spillRecord rid) := by
  unfold Core.spillRecord
  split
  · split
    · exact k.spillAt_onlySpills _ _
    · exact .of_cue rfl
  · exact .of_cue rfl

theorem Core.spillFrame_cue (k : Core) (b i : Nat) : (k.spillFrame b i).cue = k.cue := by
  unfold Core.spillFrame
  split
  · split
    · split
      · rfl
      · rfl
    · rfl
  · rfl

theorem Core.spillBlocks_onlySpills (k : Core) (test : Nat → Bool) : OnlySpills k (k.spillBlocks test) :=
  (OnlySpills.foldl Core.spillRecord_onlySpills _ k).trans (OnlySpills.foldl (fun k _ => .of_cue (k.spillFrame_cue _ _)) _ _)

theorem Core.spilled_of_spilledAll {test : Nat → Bool} {r : CueRec} (h : k.spilledAll test = true) (hr : r ∈ k.cue)
    (hb : test r.blk = true) : r.spilled = true := by
  have := List.all_eq_true.mp (Bool.and_eq_true_iff.mp h).1 r hr
  simpa [hb] using this

/-! ### Writes of device DRAM by units of the device -/

/-- `t` has the cores and halts of `s`, and no sector of it is poisoned. -/
def OnlyDram (s t : State) : Prop := t.cores = s.cores ∧ t.halts = s.halts ∧ t.poison = []

theorem OnlyDram.foldl {α : Type} {f : State → α → State} (hf : ∀ t x, OnlyDram s t → OnlyDram s (f t x)) (l : List α)
    (h : OnlyDram s t) : OnlyDram s (l.foldl f t) :=
  List.foldlRecOn (motive := OnlyDram s) l f h fun t ht x _ => hf t x ht

/-- With no sector poisoned, none is woken. -/
theorem OnlyDram.devReplace {lo hi : Nat} {cells : List Host.Cell} (h : OnlyDram s t) :
    OnlyDram s (t.devReplace lo hi cells) := by
  obtain ⟨hcores, hhalts, hpoison⟩ := h
  unfold State.devReplace
  simp only [hpoison, List.filter_nil, List.foldl_nil]
  exact ⟨hcores, hhalts, rfl⟩

theorem State.devWrite_clean {bs : List Byte} (h : s.poison = []) :
    s.devWrite a bs = ({ s with dram := s.dram.writeBytes a bs } : State).dropReleases (List.range' a bs.length) :=
  congrArg (State.dropReleases · _) (State.clearPoison_clean (by simp [h]))

theorem OnlyDram.dropReleases {as : List Nat} (h : OnlyDram s t) : OnlyDram s (t.dropReleases as) := by
  unfold State.dropReleases
  split
  · exact h
  · exact h

theorem OnlyDram.devWrite {bs : List Byte} (h : OnlyDram s t) : OnlyDram s (t.devWrite a bs) := by
  rw [State.devWrite_clean h.2.2]
  exact OnlyDram.dropReleases h

theorem OnlyDram.devWrites {ws : List (Nat × List Byte)} (h : OnlyDram s t) : OnlyDram s (t.devWrites a ws) :=
  h.foldl (fun _ _ ht => ht.devWrite) ws

theorem OnlyDram.saveAccumulators (h : OnlyDram s t) : OnlyDram s (t.saveAccumulators c) := h.devReplace

theorem OnlyDram.saveWindow (h : OnlyDram s t) : OnlyDram s (t.saveWindow c b) := by
  unfold State.saveWindow
  split
  · exact h
  · exact h.devReplace.foldl (fun _ _ ht => ht.devWrite) _

theorem OnlyDram.saveCtxs (h : OnlyDram s t) : OnlyDram s (t.saveCtxs c b) :=
  h.foldl (fun _ _ ht => ht.devReplace.devWrites) _

theorem OnlyDram.saveScript (h : OnlyDram s t) : OnlyDram s (t.saveScript c b) := by
  unfold State.saveScript
  split
  · exact h.devWrite
  · exact h

theorem OnlyDram.saveParts (h : OnlyDram s t) : OnlyDram s (t.saveParts c b) := h.saveWindow.saveCtxs.saveScript

theorem OnlyDram.saveHeader {slots : List Nat} (h : OnlyDram s t) : OnlyDram s (t.saveHeader c slots) := h.devReplace

/-! ### Writes of device DRAM, poisoned or not -/

theorem State.devWrite_dram (s : State) (a : Nat) (bs : List Byte) : (s.devWrite a bs).dram = s.dram.writeBytes a bs := by
  have hdrop := memories_of_aside (State.dropReleases_aside (s := ({ s with dram := s.dram.writeBytes a bs } : State).clearPoison
    (List.range' a bs.length)) (List.range' a bs.length))
  have hclear := congrArg Prod.fst (State.clearPoison_keeps (s := { s with dram := s.dram.writeBytes a bs })
    (List.range' a bs.length))
  exact congrArg Memories.dram (hdrop.trans (congrArg Contents.memories hclear))

theorem State.clearPoison_sched (s : State) (as : List Nat) : (s.clearPoison as).sched = s.sched := by
  unfold State.clearPoison
  split
  · rfl
  · exact foldl_keeps (g := State.sched) (f := State.wakeSector) (fun _ _ => rfl) s

theorem State.dropReleases_sched (s : State) (as : List Nat) : (s.dropReleases as).sched = s.sched := by
  unfold State.dropReleases
  split
  · rfl
  · rfl

theorem State.devWrite_sched (s : State) (a : Nat) (bs : List Byte) : (s.devWrite a bs).sched = s.sched :=
  (State.dropReleases_sched _ _).trans (State.clearPoison_sched { s with dram := s.dram.writeBytes a bs } _)

end Sys2Proof.Machine
end

section
/-!
Answers to faults, pre-emption and the end of blocks, for O44: one lemma for each step.
-/
namespace Sys2Proof.Machine
open Sys2Proof.Claims

variable {s : State} {c b n seq : Nat} {h : Halt}

/-! ### Answers to faults (R184, R186, R194) -/

theorem exec_faultRecordConsumed_noneWaits (hw : s.faultWait = []) :
    exec (.faultRecordConsumed n) s = .next { s with faultQ := s.faultQ.drop n } := by
  rw [exec_faultRecordConsumed]
  unfold execFaultRecordConsumed
  simp only [hw, List.length_nil]
  rfl

theorem Halt.onlyKill_iff : h.onlyKill = true ↔ isDecodeCode h.code = true ∨ h.code = codeMismatch := by
  simp [Halt.onlyKill]

section
variable (hh : s.haltOf seq = some h)
include hh

theorem exec_faultAnswerResume_returns (hcode : isDecodeCode h.code = false) (hmis : h.code ≠ codeMismatch) :
    exec (.faultAnswerResume seq) s = .next (s.answerReturn h false) := by
  rw [exec_faultAnswerResume]
  unfold execFaultAnswerResume
  rw [hh]
  exact congrArg _ (if_neg (Halt.onlyKill_iff.not.mpr (by simp [hcode, hmis])))

theorem exec_faultAnswerResume_kills (hcode : isDecodeCode h.code = true ∨ h.code = codeMismatch) :
    exec (.faultAnswerResume seq) s = .next (s.answerKill h) := by
  rw [exec_faultAnswerResume]
  unfold execFaultAnswerResume
  rw [hh]
  exact congrArg _ (if_pos (Halt.onlyKill_iff.mpr hcode))

theorem exec_faultAnswerSkip_returns (hcode : h.code = codeTrapInsn ∨ h.code = codeBkpt) :
    exec (.faultAnswerSkip seq) s = .next (s.answerReturn h true) := by
  rw [exec_faultAnswerSkip]
  unfold execFaultAnswerSkip
  rw [hh]
  exact congrArg _ (if_pos (by simpa using hcode))

theorem exec_faultAnswerSkip_kills (htrap : h.code ≠ codeTrapInsn) (hbkpt : h.code ≠ codeBkpt) :
    exec (.faultAnswerSkip seq) s = .next (s.answerKill h) := by
  rw [exec_faultAnswerSkip]
  unfold execFaultAnswerSkip
  rw [hh]
  exact congrArg _ (if_neg (by simp [htrap, hbkpt]))

theorem exec_faultAnswerKill_kills : exec (.faultAnswerKill seq) s = .next (s.answerKill h) := by
  rw [exec_faultAnswerKill]
  unfold execFaultAnswerKill
  rw [hh]

theorem exec_faultAnswerSave_reports
    (hroom : ((s.core h.core).spillBlocks fun b => b == h.blk).spilledAll (fun b => b == h.blk) = false) :
    exec (.faultAnswerSave seq) s = .next s.report := by
  rw [exec_faultAnswerSave]
  unfold execFaultAnswerSave
  rw [hh]
  exact if_pos (by simp [hroom])

/-- SAVE with room, where no sector is poisoned: the block's records and frames are spilled, and the rest goes to DRAM. -/
theorem exec_faultAnswerSave_saves
    (hroom : ((s.core h.core).spillBlocks fun b => b == h.blk).spilledAll (fun b => b == h.blk) = true)
    (hpoison : s.poison = []) :
    ∃ t, exec (.faultAnswerSave seq) s = .next t ∧
      OnlyDram (s.setCore h.core ((s.core h.core).spillBlocks fun b => b == h.blk)) t := by
  have hspilled : OnlyDram (s.setCore h.core ((s.core h.core).spillBlocks fun b => b == h.blk))
      (s.setCore h.core ((s.core h.core).spillBlocks fun b => b == h.blk)) := ⟨rfl, rfl, hpoison⟩
  rw [exec_faultAnswerSave]
  unfold execFaultAnswerSave
  simp only [hh, hroom, Bool.not_true, Bool.false_eq_true, if_false]
  split
  · exact ⟨_, rfl, hspilled⟩
  · exact ⟨_, rfl, hspilled.saveAccumulators.saveParts.saveHeader⟩

theorem exec_faultAnswerStepback_steps {l : Launch} (hl : s.launchOf h.core h.blk = some l) (hdebug : l.debug = true)
    (hengine : h.engine = false) (hcode : isDecodeCode h.code = false) (hmis : h.code ≠ codeMismatch) :
    exec (.faultAnswerStepback seq n) s = .next (s.stepBack h.core h.blk h.troupe n) := by
  have hdebugs : s.debugs h.core h.blk = true := by
    unfold State.debugs
    rw [hl]
    exact hdebug
  rw [exec_faultAnswerStepback]
  unfold execFaultAnswerStepback
  rw [hh]
  refine congrArg _ ((if_neg (Halt.onlyKill_iff.not.mpr (by simp [hcode, hmis]))).trans (if_pos ?_))
  simp [hdebugs, hengine]

end

/-- The records of a core right after its block's were spilled; a core that is not there has none. -/
theorem spilled_of_onlyDram {t : State} {test : Nat → Bool} {r : CueRec}
    (hroom : ((s.core c).spillBlocks test).spilledAll test = true)
    (ht : OnlyDram (s.setCore c ((s.core c).spillBlocks test)) t) (hr : r ∈ (t.core c).cue) :
    (test r.blk = true → r.spilled = true) ∧ ∃ x ∈ (s.core c).cue, x.SpilledFrom r := by
  have hcore : t.core c = (s.setCore c ((s.core c).spillBlocks test)).core c :=
    congrArg (fun ks : List Core => ks.getD c Core.reset) ht.1
  rw [hcore] at hr
  rcases Nat.lt_or_ge c s.cores.length with hc | hc
  · rw [State.core_setCore _ _ _ hc] at hr
    exact ⟨Core.spilled_of_spilledAll hroom hr, Core.spillBlocks_onlySpills _ _ r hr⟩
  · have hnone : s.core c = Core.reset := by simp [State.core, List.getD_eq_getElem?_getD, hc]
    rw [State.setCore_outside _ _ _ hc, hnone] at hr
    exact absurd hr List.not_mem_nil

theorem faultAnswers : FaultAnswers := by
  unfold FaultAnswers
  refine ⟨fun s n hw => exec_faultRecordConsumed_noneWaits hw, fun s seq h hh => ⟨exec_faultAnswerResume_returns hh,
    exec_faultAnswerResume_kills hh, exec_faultAnswerSkip_returns hh, exec_faultAnswerSkip_kills hh,
    exec_faultAnswerKill_kills hh, ⟨exec_faultAnswerSave_reports hh, fun hroom hpoison => ?_⟩,
    fun n l hl hdebug hengine hcode hmis => exec_faultAnswerStepback_steps hh hl hdebug hengine hcode hmis⟩⟩
  obtain ⟨t, ht, honly⟩ := exec_faultAnswerSave_saves hh hroom hpoison
  refine ⟨t, ht, honly.2.1, fun r hr => ?_⟩
  obtain ⟨hspilled, hfrom⟩ := spilled_of_onlyDram hroom honly hr
  exact ⟨fun hb => hspilled (beq_iff_eq.mpr hb), hfrom⟩

/-! ### Pre-emption (R187, R188, R190) -/

theorem exec_preemptRequest_marks (cs : List Nat) : ∃ t, exec (.preemptRequest cs) s = .next t ∧
    t = { s with cores := t.cores } ∧ ∀ c, Has s c →
      t.core c = if c ∈ cs ∧ (s.core c).preempt = none ∧ (s.core c).retired = false then
        { s.core c with preempt := some { cores := cs, thread := false, stream := false, copy := false, matrix := false
                                          waitingRoom := false, held := [] } }
      else s.core c := by
  refine ⟨_, exec_preemptRequest cs s, rfl, fun c hc => ?_⟩
  have hc : c < s.cores.length := hc
  simp only [State.core, List.getD_eq_getElem?_getD, List.getElem?_mapIdx, List.getElem?_eq_getElem hc, Option.map_some,
    Option.getD_some, Bool.and_eq_true, List.contains_iff_mem, Option.isNone_iff_eq_none, Bool.not_eq_true', and_assoc]

theorem exec_preemptAck_quiet {e : Engine} (hq : s.engineQuiet c e = true) :
    exec (.preemptAck c e) s =
      .next ((s.setCore c { s.core c with preempt := (s.core c).preempt.map fun p => p.ack e }).collect c) :=
  (exec_preemptAck c e s).trans (if_pos hq)

theorem exec_preemptAck_busy {e : Engine} (hq : s.engineQuiet c e = false) : exec (.preemptAck c e) s = .next s :=
  (exec_preemptAck c e s).trans (if_neg (Bool.eq_false_iff.mp hq))

theorem State.reportPaths_eq (s : State) (late : List Issue) :
    s.reportPaths late = if late = [] then s else { s.report with late := s.late ++ late } := by
  unfold State.reportPaths
  exact if_congr List.isEmpty_iff rfl rfl

theorem exec_premaxExpiry_reports {x : Block} (hx : (s.core c).block b = some x) (hcancel : x.cancelling = false)
    (hstop : (s.core c).preempt.isSome = true ∨ s.cutting c b = true) :
    exec (.premaxExpiry c b) s = .next (s.reportPaths
      ((s.core c).runningPaths c b ++ if s.cutting c b then s.shortPaths c b else [])) := by
  rw [exec_premaxExpiry]
  unfold execPremaxExpiry
  simp only [hx, hcancel, Bool.false_eq_true, if_false]
  split
  · rfl
  · next hcut =>
    rw [if_pos (hstop.resolve_right hcut), List.append_nil]

theorem exec_prompterKill_kills {p : Preempt} {x : Block} (hp : (s.core c).preempt = some p) (hx : (s.core c).block b = some x)
    (hend : x.ending = false) (hsaved : x.saved = false) (hlate : p.waitingRoom = true ∨ (s.core c).pathsStopped b = false) :
    exec (.prompterKill c b) s = .next ((s.killBlock c b).retrySave c) := by
  rw [exec_prompterKill]
  unfold execPrompterKill
  simp only [hp, hx]
  exact congrArg _ (if_pos (by simpa [hend, hsaved] using hlate))

/-! ### The end of a block (R302, R359) -/

theorem State.killCancelled_other {x : Block} (hx : (s.core c).block b = some x) (hcancel : x.cancelling = false) :
    s.killCancelled c b = s := by
  unfold State.killCancelled
  simp only [hx, hcancel, Bool.false_and, Bool.false_eq_true, if_false]

theorem State.retrySave_none (hp : (s.core c).preempt = none) : s.retrySave c = s := by
  unfold State.retrySave
  rw [hp]

theorem State.releaseBlock_sched (s : State) (c b : Nat) (x : Block) :
    (s.releaseBlock c b x).sched.launches = s.sched.launches.map fun l =>
      if l.id = x.launch then
        { l with ended := l.ended + (x.withdrawn + if x.retrying then 0 else 1)
                 done := l.done + if x.killed then 0 else x.withdrawn + if x.retrying then 0 else 1 }
      else l := by
  simp only [State.releaseBlock, State.freeChildren, State.modLaunch, State.modSched, State.modCore_sched, beq_iff_eq]

/-- The core of a released block: the block, its contexts and its streams' entries of the board are gone. -/
theorem State.core_releaseBlock (hc : Has s c) (x : Block) :
    (s.releaseBlock c b x).core c = { ((s.core c).freeCtxs b).sweepStreams with blocks := (s.core c).blocks.set b none } :=
  State.core_modCore s c (fun k => { (k.freeCtxs b).sweepStreams with blocks := k.blocks.set b none }) hc

theorem exec_blockDone_released {x : Block} (hc : Has s c) (hx : (s.core c).block b = some x) (hend : x.ending = true)
    (hcancel : x.cancelling = false) (hidle : s.blockIdle c b = true) (hp : (s.core c).preempt = none) :
    exec (.blockDone c b) s = .next (s.releaseBlock c b x) := by
  have hnone : ((s.releaseBlock c b x).core c).preempt = none := by
    rw [State.core_releaseBlock hc]
    exact hp
  rw [exec_blockDone]
  unfold execBlockDone
  simp only [State.killCancelled_other hx hcancel, hx, hend, hidle, if_true]
  rw [State.retrySave_none hnone]

theorem State.block_releaseBlock (hc : Has s c) (x : Block) : ((s.releaseBlock c b x).core c).block b = none := by
  rw [State.core_releaseBlock hc]
  unfold Core.block
  rw [List.getD_eq_getElem?_getD]
  rcases Nat.lt_or_ge b (s.core c).blocks.length with hb | hb
  · simp [hb]
  · simp [hb]

/-! ### The end of a cut (R366) -/

/-- A launch that is there belongs to its own family. -/
theorem State.mem_family {id : Nat} {l : Launch} (hl : l ∈ s.sched.launches) (hid : l.id = id) : id ∈ s.family id := by
  obtain ⟨g, hg⟩ : ∃ g, s.launch id = some g := by
    refine Option.isSome_iff_exists.mp (List.find?_isSome.mpr ⟨l, hl, ?_⟩)
    simpa using hid
  have hmem : g ∈ s.sched.launches := List.mem_of_find?_eq_some hg
  refine List.mem_map.mpr ⟨g, List.mem_filter.mpr ⟨hmem, ?_⟩, State.launch_id hg⟩
  have htop : s.topLaunch id = g.parent.getD id := by
    unfold State.topLaunch
    rw [hg]
  rw [htop]
  cases hparent : g.parent with
  | none => simp [State.launch_id hg]
  | some p => simp

/-- The launches after a cut: those of the family are no longer being cut, and the cut launch drains to its position. -/
def State.cutEnded (s : State) (id : Nat) (addr : DWord) : State :=
  s.modSched fun q => { q with
    launches := q.launches.map fun l =>
      if (s.family id).contains l.id then { l with cut := none, draining := if l.id == id then some addr else l.draining }
      else l }

theorem State.cutEnded_launches {id : Nat} {addr : DWord} {x : Launch} (hx : x ∈ (s.cutEnded id addr).sched.launches)
    (hid : x.id = id) : x.cut = none ∧ x.draining = some addr := by
  obtain ⟨l, hl, rfl⟩ := List.mem_map.mp hx
  have hlid : l.id = id := by
    split at hid
    · exact hid
    · exact hid
  have hin : (s.family id).contains l.id = true := by
    rw [hlid]
    exact List.contains_iff_mem.mpr (State.mem_family hl hlid)
  rw [if_pos hin]
  exact ⟨rfl, if_pos (beq_iff_eq.mpr hlid)⟩

theorem exec_cutComplete_saved {s' : State} {id n : Nat} {l : Launch} {addr : DWord} (hl : s.launch id = some l)
    (hcut : l.cut = some n) (hreached : s.cutReached id n = true) (hsave : s.saveFamily id = some s') :
    exec (.cutComplete id addr) s = .next ((s'.cutEnded id addr).devWrite addr.toNat (s'.positionBytes id)) := by
  rw [exec_cutComplete]
  unfold execCutComplete
  simp only [hl, Option.bind_some, hcut, hreached, if_true, hsave]
  rfl

/-- Every step of a pre-emption, of the end of a block and of a cut, from one lemma for each. -/
theorem preemptionSteps : PreemptionSteps := by
  unfold PreemptionSteps
  refine ⟨fun s cs => exec_preemptRequest_marks cs, fun s c e hq => exec_preemptAck_quiet hq,
    fun s c e hq => exec_preemptAck_busy hq, fun s c b x hx hcancel hstop => ?_, fun s c => exec_saveRoomAvailable c s,
    fun s c b p x => exec_prompterKill_kills, fun s c b x hc hx hend hcancel hidle hp => ?_,
    fun s c hrestore hservice hslots => ?_,
    fun s s' id n l addr hl hcut hreached hsave => ?_⟩
  · exact (exec_premaxExpiry_reports hx hcancel hstop).trans (congrArg _ (s.reportPaths_eq _))
  · exact ⟨_, exec_blockDone_released hc hx hend hcancel hidle hp, State.block_releaseBlock hc x, s.releaseBlock_sched c b x⟩
  · exact (exec_contextRestore c s).trans (congrArg _ (if_pos (by simp [hrestore, hservice])))
  · exact ⟨_, exec_cutComplete_saved hl hcut hreached hsave,
      fun x hx hid => State.cutEnded_launches (s := s') (State.devWrite_sched _ _ _ ▸ hx) hid, State.devWrite_dram _ _ _⟩

/-- Settles O44: one lemma above for each answer to a fault and for each step of a pre-emption. -/
theorem faultAnswersAndPreemption : Obligations.FaultAnswersAndPreemption := ⟨faultAnswers, preemptionSteps⟩

end Sys2Proof.Machine
end

section
/-!
Shapes of floating instructions (R199, R217): the elements of a lane that `joinRounded` puts together, and the shared shapes
as statements; then sums, products and fused sums, for O35, and exact pairs, for O36.
-/
namespace Sys2Proof.Machine
open Sys2Proof.Claims

/-! ### Elements of a lane -/

/-- Elements of `w` bits fill a lane. -/
def FillsLane (w : Nat) : Prop := 0 < w ∧ 32 / w * w = 32

theorem formatOf_fills (f : RForm) : FillsLane (formatOf f).width :=
  ⟨(vfmt_fits _).1, (vfmt_fits _).2.1⟩

theorem encodingOf_sane (f : RForm) : (encodingOf f).Sane := (vfmt_fits _).2.2

theorem joinRounded_elem {w : Nat} (hw : FillsLane w) (op : Nat → Rounded) {e : Nat} (he : e < 32 / w) :
    elemAt w (joinRounded w ((List.range (32 / w)).map op)).1 e = (op e).bits % 2 ^ w := by
  simp only [joinRounded, List.map_map]
  exact joinElems_elem hw.1 hw.2 _ he

theorem joinRounded_flags {w : Nat} (op : Nat → Rounded) :
    (joinRounded w ((List.range (32 / w)).map op)).2 = orFlags ((List.range (32 / w)).map fun e => (op e).flags) := by
  simp only [joinRounded, List.map_map]
  rfl

/-- Rounded results put together are the elements of the lane. -/
theorem floatElements_joinRounded {w : Nat} (hw : FillsLane w) {R : Nat → Rounded → Prop} {op : Nat → Rounded}
    (hR : ∀ e, e < 32 / w → R e (op e)) :
    FloatElements w R (joinRounded w ((List.range (32 / w)).map op)).1 (joinRounded w ((List.range (32 / w)).map op)).2 :=
  ⟨op, fun e he => ⟨hR e he, joinRounded_elem hw op he⟩, joinRounded_flags op⟩

/-- An operation on every element of a lane of an instruction's format. -/
theorem floatElements_each (f : RForm) {R : Nat → Rounded → Prop} {op : Nat → Rounded} (hR : ∀ e, R e (op e)) :
    FloatElements (formatOf f).width R ((formatOf f).each op).1 ((formatOf f).each op).2 :=
  floatElements_joinRounded (formatOf_fills f) fun e _ => hR e

/-! ### The shared shapes as statements -/

section
variable {mk : Head → RForm → Instr} {tag : RForm → Tag}

theorem oneFloat_of_unary {acc : RForm → Tag → Bool} {R : RForm → Nat → Word → Word → Flags → Prop}
    (go : RForm → Nat → Word → Word × Flags)
    (he : ∀ h f s, exec (mk h f) s =
      unary (mk h f) h f (acc f) (fun _ => tag f) (fun s p => go f (s.rounding p f.mod)) s)
    (hR : ∀ f m x, R f m x (go f m x).1 (go f m x).2) : OneFloat mk acc tag R := by
  intro h f s p s1 s2 x b hr hd
  obtain ⟨t, hex, ht⟩ := unary_ok (tag := fun _ => tag f) (go := fun s p => go f (s.rounding p f.mod)) b hr hd
  exact ⟨_, _, t, (he h f s).trans hex, ht, fun l _ => hR f _ (x.at l)⟩

theorem twoFloats_of_binary {ok : RForm → Prop} {accA accB : RForm → Tag → Bool}
    {R : RForm → Nat → Word → Word → Word → Flags → Prop} (go : RForm → Nat → Word → Word → Word × Flags)
    (he : ∀ h f s, ok f → exec (mk h f) s =
      binary (mk h f) h f (accA f) (accB f) (fun _ _ => tag f) (fun s p => go f (s.rounding p f.mod)) s)
    (hR : ∀ f m x y, ok f → R f m x y (go f m x y).1 (go f m x y).2) : TwoFloats mk ok accA accB tag R := by
  intro h f s p s1 s2 x y b hok hr hd
  obtain ⟨t, hex, ht⟩ := binary_ok (tag := fun _ _ => tag f) (go := fun s p => go f (s.rounding p f.mod)) b hr hd
  exact ⟨_, _, t, (he h f s hok).trans hex, ht, fun l _ => hR f _ (x.at l) (y.at l) hok⟩

theorem threeFloats_of_ternary {acc : RForm → Tag → Bool} {R : RForm → Nat → Word → Word → Word → Word → Flags → Prop}
    (go : RForm → Nat → Word → Word → Word → Word × Flags)
    (he : ∀ h f s, exec (mk h f) s =
      ternary (mk h f) h f (acc f) (acc f) (tag f) (fun s p => go f (s.rounding p f.mod)) s)
    (hR : ∀ f m x y z, R f m x y z (go f m x y z).1 (go f m x y z).2) : ThreeFloats mk acc tag R := by
  intro h f s p s1 s2 x y z b hr hd
  obtain ⟨t, hex, ht⟩ := ternary_ok (go := fun s p => go f (s.rounding p f.mod)) b hr hd
  exact ⟨_, _, t, (he h f s).trans hex, ht, fun l _ => hR f _ (x.at l) (y.at l) (z.at l)⟩

/-- An element-wise major of one source of its format. -/
theorem oneFloat_of_vunary {op : FloatFmt → Nat → Bool → Nat → Rounded} {R : RForm → Nat → Nat → Rounded → Prop}
    (he : ∀ h f s, exec (mk h f) s = vunary (mk h f) h f op s)
    (hR : ∀ f m a, R f m a (op (encodingOf f) m (modSat f.mod) a)) :
    OneFloat mk carries formatTag fun f m x w fl =>
      FloatElements (formatOf f).width (fun e r => R f m (elemAt (formatOf f).width x e) r) w fl :=
  oneFloat_of_unary
    (fun f m x => (formatOf f).each fun e => op (encodingOf f) m (modSat f.mod) (elemAt (formatOf f).width x e)) he
    fun f m _ => floatElements_each f fun _ => hR f m _

/-- An element-wise major of two sources of its format. -/
theorem twoFloats_of_vbinary {ok : RForm → Prop} {op : FloatFmt → Nat → Bool → Nat → Nat → Rounded}
    {R : RForm → Nat → Nat → Nat → Rounded → Prop}
    (he : ∀ h f s, ok f → exec (mk h f) s = vbinary (mk h f) h f op s)
    (hR : ∀ f m a b, R f m a b (op (encodingOf f) m (modSat f.mod) a b)) :
    TwoFloats mk ok carries carries formatTag fun f m x y w fl => FloatElements (formatOf f).width
      (fun e r => R f m (elemAt (formatOf f).width x e) (elemAt (formatOf f).width y e) r) w fl :=
  twoFloats_of_binary
    (fun f m x y => (formatOf f).each fun e =>
      op (encodingOf f) m (modSat f.mod) (elemAt (formatOf f).width x e) (elemAt (formatOf f).width y e)) he
    fun f m _ _ _ => floatElements_each f fun _ => hR f m _ _

end

/-! ### Sums, products and fused sums (R202, R219) -/

section
variable {f : FloatFmt} (hf : f.Sane)
include hf

theorem FloatFmt.add_delivers (mode : Nat) (sat : Bool) (x y : Nat) :
    f.Delivers mode sat ((f.quantity x).sum mode (f.quantity y)) (f.add mode sat x y) := by
  rw [f.quantity_value, f.quantity_value]
  exact FloatFmt.addNum_spec hf ..

theorem FloatFmt.sub_delivers (mode : Nat) (sat : Bool) (x y : Nat) :
    f.Delivers mode sat ((f.quantity x).sum mode (f.quantity y).opposite) (f.sub mode sat x y) := by
  rw [f.quantity_value, f.quantity_value, ← Num.negate_quantity]
  exact FloatFmt.addNum_spec hf ..

theorem FloatFmt.mul_delivers (mode : Nat) (sat : Bool) (x y : Nat) :
    f.Delivers mode sat ((f.quantity x).product (f.quantity y)) (f.mul mode sat x y) := by
  rw [f.quantity_value, f.quantity_value]
  exact FloatFmt.mulNum_spec hf ..

theorem FloatFmt.fma_delivers (mode : Nat) (sat : Bool) (x y z : Nat) :
    f.Delivers mode sat (((f.quantity x).product (f.quantity y)).sum mode (f.quantity z)) (f.fma mode sat x y z) := by
  rw [f.quantity_value, f.quantity_value, f.quantity_value]
  exact FloatFmt.fmaNum_spec hf ..

end

/-- Without X, FADD, FSUB and FMUL are element-wise. -/
theorem farith_plain {i : Instr} {h : Head} {f : RForm} {op : FloatFmt → Nat → Bool → Nat → Nat → Rounded}
    {opX : FloatFmt → Nat → Nat → Nat → PairResult} {s : State} (hf : modX f.mod = false) :
    farith i h f op opX s = vbinary i h f op s := if_neg (Bool.eq_false_iff.mp hf)

/-- Settles O35: each of the four delivers its exact result in every element. -/
theorem floatArithmetic : Obligations.FloatArithmetic := by
  unfold Obligations.FloatArithmetic
  refine ⟨?_, ?_, ?_, ?_⟩
  · exact twoFloats_of_vbinary (fun h f s hf => (exec_fadd h f s).trans (farith_plain hf))
      fun f m a b => FloatFmt.add_delivers (encodingOf_sane f) ..
  · exact twoFloats_of_vbinary (fun h f s hf => (exec_fsub h f s).trans (farith_plain hf))
      fun f m a b => FloatFmt.sub_delivers (encodingOf_sane f) ..
  · exact twoFloats_of_vbinary (fun h f s hf => (exec_fmul h f s).trans (farith_plain hf))
      fun f m a b => FloatFmt.mul_delivers (encodingOf_sane f) ..
  · exact threeFloats_of_ternary (fun f m x y z => (formatOf f).each fun e => (encodingOf f).fma m (modSat f.mod)
      (elemAt (formatOf f).width x e) (elemAt (formatOf f).width y e) (elemAt (formatOf f).width z e)) exec_ffma
      fun f m x y z => floatElements_each f fun e => FloatFmt.fma_delivers (encodingOf_sane f) ..

/-! ### Exact pairs (R205, R220) -/

/-- With X, FADD, FSUB and FMUL end by writing the pairs of their elements. -/
theorem farith_pairs {i : Instr} {h : Head} {f : RForm} {op : FloatFmt → Nat → Bool → Nat → Nat → Rounded}
    {opX : FloatFmt → Nat → Nat → Nat → PairResult} {s s1 s2 : State} {p : Path} {x y : Operand}
    (b : Begins i h f.len.bytes s p s1 s2) (hX : modX f.mod = true)
    (hr : s2.read2 p f.a.toNat f.pa.toNat (carries f) f.b.toNat f.pb.toNat (carries f) = .ok (x, y))
    (hd : (s2.troupe p).checkDest p [f.d.toNat, f.d.toNat + 1] = .ok ()) :
    let r (l : Nat) := (formatOf f).eachPair fun e => opX (encodingOf f) (s2.rounding p f.mod)
      (elemAt (formatOf f).width (x.at l) e) (elemAt (formatOf f).width (y.at l) e)
    farith i h f op opX s = .next ((groupWritten (s2.popPorts p [f.a.toNat, f.b.toNat]) p f.d.toNat
      [(formatTag f, fun l => (r l).1), (formatTag f, fun l => (r l).2.1)]
      (orFlags (p.active.lanes.map fun l => (r l).2.2))).logUndo p.at_ s1) := by
  intro r
  refine (if_pos hX).trans (runThread_ok b ((Exe.bind_of_ok hr).trans ?_))
  exact State.finishGroup_ok (vs := [(formatTag f, fun l => (r l).1), (formatTag f, fun l => (r l).2.1)])
    [f.a.toNat, f.b.toNat] (fun l => (r l).2.2) hd

theorem exactPair_of_farith {mk : Head → RForm → Instr} {op : FloatFmt → Nat → Bool → Nat → Nat → Rounded}
    {opX : FloatFmt → Nat → Nat → Nat → PairResult} {q : Nat → Quantity → Quantity → Quantity}
    (he : ∀ h f s, exec (mk h f) s = farith (mk h f) h f op opX s)
    (hq : ∀ {f : FloatFmt}, f.Sane → ∀ mode a b,
      f.DeliversPair mode (f.Finite a ∧ f.Finite b) (q mode (f.quantity a) (f.quantity b)) (opX f mode a b)) :
    ExactPair mk q := by
  intro h f s p s1 s2 x y b hX hr hd
  refine ⟨_, _, _, (he h f s).trans (farith_pairs b hX hr hd), fun l _ => ⟨_, fun e hlt => ⟨hq (encodingOf_sane f) _ _ _, ?_, ?_⟩, ?_⟩⟩
  · simp only [VFmt.eachPair, List.map_map]
    exact joinElems_elem (formatOf_fills f).1 (formatOf_fills f).2 _ hlt
  · simp only [VFmt.eachPair, List.map_map]
    exact joinElems_elem (formatOf_fills f).1 (formatOf_fills f).2 _ hlt
  · simp only [VFmt.eachPair, List.map_map]
    rfl

/-- Settles O36: the pair of each of the three is what R205 asks. -/
theorem exactPairs : Obligations.ExactPairs :=
  ⟨exactPair_of_farith exec_fadd FloatFmt.addX_spec, exactPair_of_farith exec_fsub FloatFmt.subX_spec,
    exactPair_of_farith exec_fmul FloatFmt.mulX_spec⟩

end Sys2Proof.Machine
end

section
/-!
Quotients and square roots (R227): the approximations of Machine/Numbers.lean, rounded, and the special results beside them.
-/
namespace Sys2Proof.Machine
open Sys2Proof.Claims

theorem encodingOf_wide (f : RForm) : (encodingOf f).Wide := vfmt_wide _

/-! ### Finite operands as signed magnitudes -/

/-- A rational with a sign. -/
def signedRat (neg : Bool) (u : Rat) : Rat := if neg then -u else u

theorem Num.quantity_fin (n : Bool) (m : Nat) (e : Int) : (Num.fin n m e).quantity = .exact n (signedRat n (m * 2 ^ e)) := by
  cases n <;> simp [Num.quantity, signedRat]

theorem signedRat_cast (neg : Bool) (u : Rat) : ((signedRat neg u : Rat) : Real) = withSign neg u := by
  cases neg <;> simp [signedRat, withSign]

theorem signedRat_eq_zero {neg : Bool} {u : Rat} : signedRat neg u = 0 ↔ u = 0 := by
  cases neg <;> simp [signedRat]

theorem signedRat_div (n k : Bool) (u v : Rat) : signedRat n u / signedRat k v = signedRat (n != k) (u / v) := by
  cases n <;> cases k <;> simp [signedRat, neg_div, div_neg]

theorem scaled_eq_zero {m : Nat} {e : Int} : (m : Rat) * 2 ^ e = 0 ↔ m = 0 := by
  simp [(two_zpow_pos e).ne']

/-- A finite encoding as the sign and the magnitude that the machine computes with. -/
theorem FloatFmt.value_of_finite {f : FloatFmt} {x : Nat} (h : f.Finite x) :
    ∃ m e, f.value x = .fin (f.neg x) m e ∧ f.rat x = signedRat (f.neg x) (m * 2 ^ e) := by
  obtain ⟨m, e, hv, hr⟩ := FloatFmt.value_fin h
  refine ⟨m, e, hv, hr.trans ?_⟩
  cases f.neg x <;> simp [signedRat]

theorem FloatFmt.sign_of_value {f : FloatFmt} {x : Nat} {v : Num} (h : f.value x = v) (hv : v.isNan = false) :
    f.neg x = v.sign := by
  rw [← h, FloatFmt.value_sign fun hn => ?_]
  rw [← f.value_isNan, h, hv] at hn
  exact Bool.false_ne_true hn

/-! ### Rounded approximations -/

theorem FloatFmt.round_approx {f : FloatFmt} (hw : f.Wide) {a : Approx} {u : Real} (h : a.Means u ∧ 2 ^ 24 ≤ a.n)
    (mode : Nat) (sat neg : Bool) : f.RoundsTo mode sat (withSign neg u) (f.round mode sat neg a) :=
  FloatFmt.round_spec hw.sane h.1 (fun _ => le_trans (Nat.pow_le_pow_right (by decide) hw.bits) h.2) mode sat neg

/-- The quotient of two magnitudes is correctly rounded. -/
theorem FloatFmt.round_quotient {f : FloatFmt} (hw : f.Wide) {m n : Nat} {e : Int} (hm : 0 < m) (hn : 0 < n) {neg : Bool}
    {v : Rat} (hv : v = signedRat neg (m / n * 2 ^ e)) (mode : Nat) (sat : Bool) :
    f.Delivers mode sat (.exact neg v) (f.round mode sat neg (quotient m n e)) := by
  have hne : (m : Rat) / n * 2 ^ e ≠ 0 := by positivity
  refine ⟨fun h0 => absurd (signedRat_eq_zero.mp (hv.symm.trans h0)) hne, fun _ => ?_⟩
  have hr := FloatFmt.round_approx hw (quotient_spec (e := e) hm hn) mode sat neg
  rw [hv, signedRat_cast]
  push_cast
  exact hr

theorem scaled_div (m n : Nat) (e d : Int) : (m : Rat) * 2 ^ e / (n * 2 ^ d) = m / n * 2 ^ (e - d) := by
  rw [zpow_sub₀ (by norm_num)]
  field_simp

/-! ### Quotients (R227) -/

theorem FloatFmt.div_spec {f : FloatFmt} (hw : f.Wide) (mode : Nat) (sat : Bool) (x y : Nat) :
    DeliversQuotient f mode sat (f.neg x != f.neg y) ((f.quantity x).quotient (f.quantity y)) (f.div mode sat x y) := by
  rw [f.quantity_value, f.quantity_value]
  unfold FloatFmt.div
  cases hx : f.value x with
  | nan s => cases f.value y <;> exact ⟨rfl, by simp [Num.isNan, FloatFmt.nanOf, Num.isSnan]⟩
  | inf a =>
    cases hy : f.value y with
    | nan t => exact ⟨rfl, by simp [Num.isNan, FloatFmt.nanOf, Num.isSnan]⟩
    | inf b => exact ⟨rfl, rfl⟩
    | fin n m e => exact ⟨rfl, rfl⟩
  | fin n m e =>
    cases hy : f.value y with
    | nan t => exact ⟨rfl, by simp [Num.isNan, FloatFmt.nanOf, Num.isSnan]⟩
    | inf b => exact ⟨fun _ => ⟨rfl, rfl⟩, fun h => absurd rfl h⟩
    | fin k q d =>
      have hsx : f.neg x = n := FloatFmt.sign_of_value hx rfl
      have hsy : f.neg y = k := FloatFmt.sign_of_value hy rfl
      simp only [Num.quantity_fin, Quantity.quotient, signedRat_eq_zero, scaled_eq_zero, hsx, hsy, Num.sign, Num.isNan,
        Bool.or_self, Bool.false_eq_true, if_false]
      by_cases hq : q = 0
      · by_cases hm : m = 0
        · simp only [if_pos hq, if_pos hm]
          exact ⟨rfl, rfl⟩
        · simp only [if_pos hq, if_neg hm]
          exact ⟨rfl, rfl⟩
      · by_cases hm : m = 0
        · simp only [if_neg hq, if_pos hm]
          refine ⟨fun _ => ⟨rfl, rfl⟩, fun h => absurd ?_ h⟩
          simp [hm, signedRat]
        · simp only [if_neg hq, if_neg hm]
          exact FloatFmt.round_quotient hw (Nat.pos_of_ne_zero hm) (Nat.pos_of_ne_zero hq)
            (by rw [signedRat_div, scaled_div]) mode sat

theorem FloatFmt.recip_spec {f : FloatFmt} (hw : f.Wide) (mode : Nat) (sat : Bool) (x : Nat) :
    DeliversQuotient f mode sat (f.neg x) ((Quantity.exact false 1).quotient (f.quantity x)) (f.recip mode sat x) := by
  rw [f.quantity_value]
  unfold FloatFmt.recip
  cases hx : f.value x with
  | nan s => exact ⟨rfl, by simp [FloatFmt.nanOf, Num.isSnan]⟩
  | inf n =>
    cases n <;> exact ⟨fun _ => ⟨rfl, rfl⟩, fun h => absurd rfl h⟩
  | fin n m e =>
    have hs : f.neg x = n := FloatFmt.sign_of_value hx rfl
    simp only [Num.quantity_fin, Quantity.quotient, signedRat_eq_zero, scaled_eq_zero, hs]
    by_cases hm : m = 0
    · simp only [if_pos hm, one_ne_zero, if_false]
      exact ⟨rfl, rfl⟩
    · simp only [if_neg hm, Bool.false_bne]
      refine FloatFmt.round_quotient (v := 1 / signedRat n (m * 2 ^ e)) hw one_pos (Nat.pos_of_ne_zero hm) ?_ mode sat
      have := signedRat_div false n ((1 : Nat) * 2 ^ (0 : Int)) (m * 2 ^ e)
      rw [scaled_div, zero_sub, Bool.false_bne] at this
      simpa [signedRat] using this

/-! ### NaN operands (R201) -/

/-- A function that answers a NaN by the canonical one. -/
theorem propagates_of_nanOf {f : FloatFmt} {x : Nat} {r : Rounded} (h : ∀ s, f.value x = .nan s → r = f.nanOf [.nan s]) :
    Propagates f x r := by
  intro hn
  have hv := FloatFmt.value_nan hn
  have hs := f.value_isSnan x
  rw [hv] at hs
  rw [h _ hv]
  refine ⟨rfl, fun hsig => ?_, fun hsig => ?_⟩
  · have : decide (x % 2 ^ (f.p - 1) < 2 ^ (f.p - 2)) = true := hs.mpr hsig
    simp [FloatFmt.nanOf, Num.isSnan, this, flagIf]
  · have : ¬decide (x % 2 ^ (f.p - 1) < 2 ^ (f.p - 2)) = true := fun h => hsig (hs.mp h)
    simp [FloatFmt.nanOf, Num.isSnan, this, flagIf]

theorem FloatFmt.Zero.finite {f : FloatFmt} (hf : f.Sane) {x : Nat} (h : f.Zero x) : f.Finite x := by
  have := FloatFmt.infBits_pos hf
  unfold FloatFmt.Zero at h
  unfold FloatFmt.Finite
  omega

theorem FloatFmt.value_of_zero {f : FloatFmt} (hf : f.Sane) {x : Nat} (h : f.Zero x) :
    ∃ e, f.value x = .fin (f.neg x) 0 e := by
  obtain ⟨m, e, hv, hr⟩ := FloatFmt.value_of_finite (h.finite hf)
  have hm : m = 0 := scaled_eq_zero.mp (signedRat_eq_zero.mp (hr.symm.trans ((f.rat_eq_zero x).mpr h)))
  exact ⟨e, hm ▸ hv⟩

theorem FloatFmt.value_of_nonzero {f : FloatFmt} {x : Nat} (h : f.Finite x) (h0 : ¬f.Zero x) :
    ∃ m e, 0 < m ∧ f.value x = .fin (f.neg x) m e ∧ f.rat x = signedRat (f.neg x) (m * 2 ^ e) := by
  obtain ⟨m, e, hv, hr⟩ := FloatFmt.value_of_finite h
  refine ⟨m, e, Nat.pos_of_ne_zero fun hm => h0 ((f.rat_eq_zero x).mp ?_), hv, hr⟩
  rw [hr, hm]
  simp [signedRat]

/-- An encoding that is no NaN and no zero is an infinity or a finite number with a magnitude. -/
theorem FloatFmt.nonzero_kinds {f : FloatFmt} {x : Nat} (hn : ¬f.NaN x) (h0 : ¬f.Zero x) :
    f.value x = .inf (f.neg x) ∨ ∃ m e, 0 < m ∧ f.value x = .fin (f.neg x) m e := by
  rcases f.kinds x with h | h | h
  · exact absurd h hn
  · exact Or.inl (FloatFmt.value_inf h)
  · obtain ⟨m, e, hm, hv, _⟩ := FloatFmt.value_of_nonzero h h0
    exact Or.inr ⟨m, e, hm, hv⟩

/-! ### Square roots (R227) -/

theorem FloatFmt.sqrt_spec {f : FloatFmt} (hw : f.Wide) (mode x : Nat) : Root f false mode x (f.sqrt mode x) := by
  unfold FloatFmt.sqrt
  refine ⟨propagates_of_nanOf fun s hv => by rw [hv], fun h => ?_, fun h hs => ?_, fun hn h0 hs => ?_, fun h h0 hs => ?_⟩
  · obtain ⟨e, hv⟩ := FloatFmt.value_of_zero hw.sane h
    simp [hv]
  · simp [FloatFmt.value_inf h, hs]
  · rcases FloatFmt.nonzero_kinds hn h0 with hv | ⟨m, e, hm, hv⟩
    · simp [hv, hs, FloatFmt.invalid]
    · simp [hv, hs, hm.ne', FloatFmt.invalid]
  · obtain ⟨m, e, hm, hv, hr⟩ := FloatFmt.value_of_nonzero h h0
    have hround := FloatFmt.round_approx hw (rootOf_spec (e := e) hm) mode false false
    simp only [hv, hr, hs, if_neg hm.ne', Bool.false_eq_true, if_false, signedRat]
    push_cast
    exact hround

theorem FloatFmt.rsqrt_spec {f : FloatFmt} (hw : f.Wide) (mode x : Nat) : Root f true mode x (f.rsqrt mode x) := by
  unfold FloatFmt.rsqrt
  refine ⟨propagates_of_nanOf fun s hv => by rw [hv], fun h => ?_, fun h hs => ?_, fun hn h0 hs => ?_, fun h h0 hs => ?_⟩
  · obtain ⟨e, hv⟩ := FloatFmt.value_of_zero hw.sane h
    simp [hv]
  · simp [FloatFmt.value_inf h, hs]
  · rcases FloatFmt.nonzero_kinds hn h0 with hv | ⟨m, e, hm, hv⟩
    · simp [hv, hs, FloatFmt.invalid]
    · simp [hv, hs, hm.ne', FloatFmt.invalid]
  · obtain ⟨m, e, hm, hv, hr⟩ := FloatFmt.value_of_nonzero h h0
    have hround := FloatFmt.round_approx hw (recipRoot_spec (e := e) hm) mode false false
    simp only [hv, hr, hs, if_neg hm.ne', Bool.false_eq_true, if_false, if_true, signedRat]
    push_cast
    exact hround

end Sys2Proof.Machine
end

section
/-!
FEXP2, FLOG2, FSINP, FCOSP and FTANH at the arguments whose results are exact (R227), and O38.
-/
namespace Sys2Proof.Machine
open Sys2Proof.Claims

/-! ### Exact arguments in fixed point -/

theorem toFixed_cast {w m : Nat} {e : Int} (h : 0 ≤ e + w) : (toFixed w m e : Rat) = m * 2 ^ e * 2 ^ w := by
  unfold toFixed
  dsimp only
  rw [if_pos h, Nat.shiftLeft_eq]
  push_cast
  rw [mul_assoc, ← zpow_natCast, ← zpow_natCast, ← zpow_add₀ (by norm_num), Int.toNat_of_nonneg h]

/-- A whole magnitude in fixed point. -/
theorem toFixed_whole {w m k : Nat} {e : Int} (h : 0 ≤ e + w) (hk : (m : Rat) * 2 ^ e = k) : toFixed w m e = k * 2 ^ w := by
  have := toFixed_cast (m := m) h
  rw [hk] at this
  exact_mod_cast this

/-- A whole magnitude and a half in fixed point. -/
theorem toFixed_half {w m k : Nat} {e : Int} (h : 0 ≤ e + (w + 1 : Nat)) (hk : (m : Rat) * 2 ^ e = k + 1 / 2) :
    toFixed (w + 1) m e = (2 * k + 1) * 2 ^ w := by
  have := toFixed_cast (m := m) h
  rw [hk, pow_succ] at this
  have hq : (toFixed (w + 1) m e : Rat) = (2 * k + 1) * 2 ^ w := by rw [this]; ring
  exact_mod_cast hq

/-- A number with a whole value has a whole magnitude. -/
theorem whole_magnitude {neg : Bool} {u : Rat} {n : Int} (h : signedRat neg u = n) (hu : 0 ≤ u) :
    ∃ k : Nat, u = k ∧ n = if neg then -(k : Int) else k := by
  cases neg with
  | false =>
    have hn : 0 ≤ n := by
      have : (0 : Rat) ≤ n := h ▸ hu
      exact_mod_cast this
    refine ⟨n.toNat, ?_, (Int.toNat_of_nonneg hn).symm⟩
    rw [show u = n from h]
    exact_mod_cast (Int.toNat_of_nonneg hn).symm
  | true =>
    have hv : u = (-n : Int) := by push_cast; linarith [show -u = n from h]
    have hn : 0 ≤ -n := by
      have : (0 : Rat) ≤ (-n : Int) := hv ▸ hu
      exact_mod_cast this
    refine ⟨(-n).toNat, ?_, by rw [Int.toNat_of_nonneg hn]; simp⟩
    rw [hv]
    exact_mod_cast (Int.toNat_of_nonneg hn).symm

/-- A number half a unit above a whole one has a magnitude half a unit above a whole one. -/
theorem half_magnitude {neg : Bool} {u : Rat} {n : Int} (h : signedRat neg u = n + 1 / 2) (hu : 0 ≤ u) :
    ∃ k : Nat, u = k + 1 / 2 ∧ n = if neg then -(k : Int) - 1 else k := by
  cases neg with
  | false =>
    have hv : u = n + 1 / 2 := h
    have hn : 0 ≤ n := by
      have : (-1 : Rat) < n := by linarith
      have : (-1 : Int) < n := by exact_mod_cast this
      omega
    refine ⟨n.toNat, ?_, (Int.toNat_of_nonneg hn).symm⟩
    rw [hv]
    congr 1
    exact_mod_cast (Int.toNat_of_nonneg hn).symm
  | true =>
    have hv : u = -n - 1 + 1 / 2 := by linarith [show -u = n + 1 / 2 from h]
    have hn : 0 ≤ -n - 1 := by
      have : (-1 : Rat) < (-n - 1 : Int) := by push_cast; linarith
      have : (-1 : Int) < -n - 1 := by exact_mod_cast this
      omega
    refine ⟨(-n - 1).toNat, ?_, by rw [Int.toNat_of_nonneg hn]; simp⟩
    rw [hv]
    congr 1
    exact_mod_cast (Int.toNat_of_nonneg hn).symm

theorem scaled_nonneg (m : Nat) (e : Int) : (0 : Rat) ≤ m * 2 ^ e := by positivity

/-- Every operand is exact with 256 fraction bits. -/
theorem FloatFmt.value_fixed {f : FloatFmt} (hw : f.Wide) {x : Nat} {n : Bool} {m : Nat} {e : Int}
    (h : f.value x = .fin n m e) : 0 ≤ e + (256 : Nat) := by
  obtain ⟨_, he, _⟩ := FloatFmt.value_fits hw.sane h
  have := hw.tinyMultiple
  omega

/-! ### Powers of two far from the range -/

theorem Approx.toMultiple_le {a : Approx} {mode : Nat} {neg : Bool} {k : Int} {s : Nat} (hs : k - a.e = s + 1) :
    (a.toMultiple mode neg k).1 ≤ a.n / 2 ^ (s + 1) + 1 := by
  unfold Approx.toMultiple
  dsimp only
  rw [if_neg (by omega), show (k - a.e).toNat = s + 1 by omega, Nat.shiftRight_eq_div_pow]
  have hbump (b : Bool) (q : Nat) : (if b then q + 1 else q) ≤ q + 1 := by split <;> omega
  exact hbump _ _

/-- What stands for a huge power of two in FEXP2 overflows. -/
theorem FloatFmt.round_above {f : FloatFmt} (hw : f.Wide) (mode : Nat) (sat neg : Bool) :
    f.round mode sat neg { n := 2 ^ 80, e := 5000, sticky := true } = f.overflow mode neg sat := by
  have hb : (2 : Int) ^ f.ebits ≤ 2 ^ 8 := pow_le_pow_right₀ (by norm_num) hw.exps
  have hc : ((2 ^ f.ebits : Nat) : Int) = 2 ^ f.ebits := by push_cast; rfl
  have hlow := hw.low
  have hp := hw.bits
  have hlog : Approx.log { n := 2 ^ 80, e := 5000, sticky := true } = 5080 := by
    show ((2 ^ 80 : Nat).log2 : Int) + 5000 = 5080
    rw [Nat.log2_two_pow]
    rfl
  have hemin : f.emin ≤ 5080 := by
    unfold FloatFmt.low at hlow
    omega
  unfold FloatFmt.round
  rw [if_neg (by simp)]
  simp only [hlog, max_eq_left hemin]
  refine if_pos (le_trans ?_ (Nat.le_add_right _ _))
  exact Nat.mul_le_mul_right _ (by omega)

/-- What stands for a tiny power of two in FEXP2 rounds as one. -/
theorem FloatFmt.round_below {f : FloatFmt} (hw : f.Wide) (mode : Nat) (sat neg : Bool) :
    f.round mode sat neg { n := 2 ^ 80, e := -5000, sticky := true } =
      { bits := f.signed neg (tinyMultiple mode neg), flags := flagXE ||| flagUE } := by
  have hlow := hw.tinyMultiple
  have hlow' := hw.low
  have hp := hw.bits
  have hp' := hw.sane.1
  have hlog : Approx.log { n := 2 ^ 80, e := -5000, sticky := true } = -4920 := by
    show ((2 ^ 80 : Nat).log2 : Int) + -5000 = -4920
    rw [Nat.log2_two_pow]
    rfl
  have hemin : -4920 < f.emin := by
    unfold FloatFmt.low at hlow
    omega
  have hk : f.emin - f.p + 1 = f.low := rfl
  obtain ⟨s, hs⟩ : ∃ s : Nat, -4920 - (f.p : Int) + 1 - -5000 = s + 1 := ⟨80 - f.p, by omega⟩
  have hle := Approx.toMultiple_le (a := { n := 2 ^ 80, e := -5000, sticky := true }) (mode := mode) (neg := neg) hs
  have hq : 2 ^ 80 / 2 ^ (s + 1) + 1 < 2 ^ (f.emin - (-4920 - f.p + 1)).toNat := by
    calc 2 ^ 80 / 2 ^ (s + 1) + 1 ≤ 2 ^ 80 + 1 := Nat.add_le_add_right (Nat.div_le_self _ _) 1
      _ < 2 ^ 81 := by norm_num
      _ ≤ _ := Nat.pow_le_pow_right (by norm_num) (by unfold FloatFmt.low at hlow; omega)
  have hmult : Approx.toMultiple { n := 2 ^ 80, e := -5000, sticky := true } mode neg f.low = (tinyMultiple mode neg, true) :=
    Approx.toMultiple_tiny (s := (f.low + 5000).toNat) (by positivity) (by omega)
      (lt_of_lt_of_le (by norm_num : 2 * 2 ^ 80 < 2 ^ 82) (Nat.pow_le_pow_right (by norm_num) (by omega)))
  have hone : tinyMultiple mode neg < f.infBits := by
    have hi : 3 * 1 ≤ f.infBits := Nat.mul_le_mul
      (Nat.le_sub_one_of_lt (lt_of_lt_of_le (by norm_num : 3 < 2 ^ 2) (Nat.pow_le_pow_right (by norm_num) hw.sane.2)))
      Nat.one_le_two_pow
    have hle1 : tinyMultiple mode neg ≤ 1 := by unfold tinyMultiple; split <;> omega
    omega
  unfold FloatFmt.round
  rw [if_neg (by simp)]
  simp only [hlog, max_eq_right hemin.le, hk, hmult, sub_self, Int.toNat_zero, Nat.zero_mul, Nat.zero_add, hemin,
    lt_of_le_of_lt hle hq, if_neg (not_le.mpr hone), decide_true, Bool.and_self, flagIf, if_true]

/-- FEXP2 at a whole number delivers that power of two. -/
theorem FloatFmt.exp2_whole {f : FloatFmt} (hw : f.Wide) (mode : Nat) (sat : Bool) {x : Nat} {n : Int} (h : f.Finite x)
    (hn : f.rat x = n) : f.exp2 mode sat x = f.deliver mode sat (.fin false 1 n) := by
  obtain ⟨m, e, hv, hr⟩ := FloatFmt.value_of_finite h
  obtain ⟨k, hk, hnk⟩ := whole_magnitude (hr.symm.trans hn) (scaled_nonneg m e)
  have hb : (2 : Int) ^ f.ebits ≤ 2 ^ 8 := pow_le_pow_right₀ (by norm_num) hw.exps
  have hlow := hw.low
  have hlow' := hw.tinyMultiple
  have hp := hw.bits
  have hone : 1 < 2 ^ f.p := Nat.one_lt_two_pow (by have := hw.sane.1; omega)
  unfold FloatFmt.exp2
  rw [hv]
  dsimp only
  by_cases hm : m = 0
  · have hk0 : k = 0 := by
      rw [hm] at hk
      have : (k : Rat) = 0 := by rw [← hk]; simp
      exact_mod_cast this
    rw [if_pos hm, hnk, hk0]
    cases f.neg x <;> rfl
  rw [if_neg hm]
  by_cases hbig : (m.log2 : Int) + e ≥ 15
  · have hk15 : 2 ^ 15 ≤ k := by
      have h1 : (2 : Rat) ^ (15 : Int) ≤ 2 ^ ((m.log2 : Int) + e) := zpow_le_zpow_right₀ (by norm_num) hbig
      have h2 : (2 : Rat) ^ m.log2 ≤ m := by exact_mod_cast Nat.log2_self_le hm
      have h3 : (2 : Rat) ^ (15 : Int) ≤ k := by
        rw [← hk]
        refine h1.trans ?_
        rw [zpow_add₀ (by norm_num), zpow_natCast]
        exact mul_le_mul_of_nonneg_right h2 (two_zpow_pos e).le
      exact_mod_cast h3
    rw [if_pos hbig]
    unfold FloatFmt.deliver
    dsimp only
    cases hs : f.neg x with
    | false =>
      rw [hs, if_neg (by simp)] at hnk
      rw [if_neg (by simp), FloatFmt.round_above hw, FloatFmt.round_huge hw.sane one_pos hone (by omega)]
    | true =>
      rw [hs, if_pos rfl] at hnk
      rw [if_pos rfl, FloatFmt.round_below hw, FloatFmt.round_tiny hw.sane one_pos hone (by omega)]
  · rw [if_neg hbig, toFixed_whole (FloatFmt.value_fixed hw hv) hk, if_pos (Nat.mul_mod_left _ _), hnk]
    congr 2
    push_cast
    rw [Int.mul_ediv_cancel _ (by positivity)]

theorem signedRat_natAbs (n : Int) : signedRat (decide (n < 0)) (n.natAbs : Rat) = n := by
  have habs : ((n.natAbs : Nat) : Rat) = ((|n| : Int) : Rat) := Nat.cast_natAbs n
  by_cases hneg : n < 0
  · simp [signedRat, hneg, habs, abs_of_neg hneg]
  · simp [signedRat, hneg, habs, abs_of_nonneg (not_lt.mp hneg)]

/-- FLOG2 at a power of two delivers its exponent. -/
theorem FloatFmt.log2_power {f : FloatFmt} (mode : Nat) {x : Nat} {n : Int} (h : f.Finite x) (hs : f.neg x = false)
    (hn : f.rat x = 2 ^ n) : f.log2 mode x = f.deliver mode false (.fin (decide (n < 0)) n.natAbs 0) := by
  obtain ⟨m, e, hv, hr⟩ := FloatFmt.value_of_finite h
  rw [hs] at hv hr
  have hme : (m : Rat) * 2 ^ e = 2 ^ n := hr.symm.trans hn
  have hm : m ≠ 0 := by
    rintro rfl
    exact (two_zpow_pos n).ne (by simpa using hme)
  have hz : (m : Rat) = 2 ^ (n - e) := by
    rw [zpow_sub₀ (by norm_num), eq_div_iff (two_zpow_pos e).ne', hme]
  have hge : e ≤ n := by
    by_contra hlt
    have h1 : (m : Rat) < 1 := hz ▸ zpow_lt_one_of_neg₀ (by norm_num) (by omega)
    have h2 : m < 1 := by exact_mod_cast h1
    omega
  have hpow : m = 2 ^ (n - e).toNat := by
    rw [← Int.toNat_of_nonneg (show 0 ≤ n - e by omega), zpow_natCast] at hz
    exact_mod_cast hz
  have hlog : m.log2 = (n - e).toNat := by rw [hpow, Nat.log2_two_pow]
  have hexp : (((n - e).toNat : Nat) : Int) + e = n := by omega
  unfold FloatFmt.log2
  simp only [hv, hm, hlog, hexp, if_false, Bool.false_eq_true, if_pos hpow]

/-! ### Sines and cosines (R227) -/

/-- The sign of a number `k` units and a half, or `k` units, past zero. -/
theorem half_parity {neg : Bool} {n : Int} {k : Nat} (h : n = if neg then -(k : Int) - 1 else k) :
    decide (n % 2 = 1) = (neg != decide (k % 2 = 1)) := by
  cases neg <;> simp at h ⊢ <;> by_cases hk : k % 2 = 1 <;> simp [hk] <;> omega

theorem whole_parity {neg : Bool} {n : Int} {k : Nat} (h : n = if neg then -(k : Int) else k) :
    decide (n % 2 = 1) = decide (k % 2 = 1) := by
  cases neg <;> simp at h ⊢ <;> omega

/-- Half a turn in fixed point, and the operand in units of a quarter of a turn, less whole turns. -/
theorem quarter_turns (q half : Nat) : q * half % (2 * (2 * half)) = q % 4 * half := by
  rw [show 2 * (2 * half) = 4 * half by ring, Nat.mul_mod_mul_right]

section
variable {f : FloatFmt} (hw : f.Wide) (mode : Nat) {x : Nat} {n : Int} (h : f.Finite x)
include hw h

/-- An operand with a whole value, in fixed point. -/
theorem FloatFmt.fixed_whole (hn : f.rat x = n) : ∃ (m : Nat) (e : Int) (k : Nat), f.value x = .fin (f.neg x) m e ∧
    (m = 0 → f.Zero x ∧ k = 0) ∧ n = (if f.neg x then -(k : Int) else k) ∧ toFixed 256 m e = 2 * k * 2 ^ 255 := by
  obtain ⟨m, e, hv, hr⟩ := FloatFmt.value_of_finite h
  obtain ⟨k, hk, hnk⟩ := whole_magnitude (hr.symm.trans hn) (scaled_nonneg m e)
  refine ⟨m, e, k, hv, fun hm => ⟨(f.rat_eq_zero x).mp ?_, ?_⟩, hnk, ?_⟩
  · rw [hr, hm]
    simp [signedRat]
  · rw [hm] at hk
    have : (k : Rat) = 0 := by rw [← hk]; simp
    exact_mod_cast this
  · rw [toFixed_whole (FloatFmt.value_fixed hw hv) hk]
    ring

/-- An operand half a unit above a whole value, in fixed point. -/
theorem FloatFmt.fixed_half (hn : f.rat x = n + 1 / 2) : ∃ (m : Nat) (e : Int) (k : Nat), f.value x = .fin (f.neg x) m e ∧
    m ≠ 0 ∧ n = (if f.neg x then -(k : Int) - 1 else k) ∧ toFixed 256 m e = (2 * k + 1) * 2 ^ 255 := by
  obtain ⟨m, e, hv, hr⟩ := FloatFmt.value_of_finite h
  obtain ⟨k, hk, hnk⟩ := half_magnitude (hr.symm.trans hn) (scaled_nonneg m e)
  refine ⟨m, e, k, hv, ?_, hnk, toFixed_half (w := 255) (FloatFmt.value_fixed hw hv) hk⟩
  rintro rfl
  have : (0 : Rat) < k + 1 / 2 := by positivity
  exact this.ne (by simpa using hk)

/-- The sine of a multiple of two right angles is a zero with the operand's sign. -/
theorem FloatFmt.sine_whole (h0 : ¬f.Zero x) (hn : f.rat x = n) :
    f.trig mode false x = { bits := f.signed (f.neg x) 0, flags := 0 } := by
  obtain ⟨m, e, k, hv, hm, -, hfix⟩ := FloatFmt.fixed_whole hw h hn
  have hm : m ≠ 0 := fun h => h0 (hm h).1
  have hhalf : 0 < 2 ^ 255 := by positivity
  unfold FloatFmt.trig
  simp only [hv, hm, if_false, hfix, Bool.false_eq_true, show 2 ^ 256 = 2 * 2 ^ 255 from rfl]
  generalize 2 ^ 255 = half at *
  rw [quarter_turns]
  have hcases : 2 * k % 4 = 0 ∨ 2 * k % 4 = 2 := by omega
  rcases hcases with hc | hc <;> rw [hc] <;> refine if_pos ?_ <;> simp

/-- The sine of an odd multiple of a right angle is ±1. -/
theorem FloatFmt.sine_half (hn : f.rat x = n + 1 / 2) :
    f.trig mode false x = f.deliver mode false (.fin (decide (n % 2 = 1)) 1 0) := by
  obtain ⟨m, e, k, hv, hm, hnk, hfix⟩ := FloatFmt.fixed_half hw h hn
  have hhalf : 0 < 2 ^ 255 := by positivity
  unfold FloatFmt.trig
  simp only [hv, hm, if_false, Bool.false_eq_true, half_parity hnk, hfix, show 2 ^ 256 = 2 * 2 ^ 255 from rfl]
  generalize 2 ^ 255 = half at *
  rw [quarter_turns]
  rcases Nat.mod_two_eq_zero_or_one k with hk | hk
  · have hq : (2 * k + 1) % 4 = 1 := by omega
    have hlt : ¬2 * half ≤ half := by omega
    simp [hq, hlt, hhalf.ne', hk]
  · have hq : (2 * k + 1) % 4 = 3 := by omega
    have hge : 3 * half ≥ 2 * half := by omega
    have hsub : 3 * half - 2 * half = half := by omega
    simp [hq, hge, hsub, hhalf.ne', hk]

/-- The cosine of an odd multiple of a right angle is zero. -/
theorem FloatFmt.cosine_half (hn : f.rat x = n + 1 / 2) : f.trig mode true x = { bits := 0, flags := 0 } := by
  obtain ⟨m, e, k, hv, hm, -, hfix⟩ := FloatFmt.fixed_half hw h hn
  have hhalf : 0 < 2 ^ 255 := by positivity
  unfold FloatFmt.trig
  simp only [hv, hm, if_false, hfix, if_true, show 2 ^ 256 = 2 * 2 ^ 255 from rfl]
  generalize 2 ^ 255 = half at *
  rw [quarter_turns]
  rcases Nat.mod_two_eq_zero_or_one k with hk | hk
  · have hq : (2 * k + 1) % 4 = 1 := by omega
    have hlt : ¬1 * half > 2 * half := by omega
    rw [hq, if_neg hlt, one_mul]
    exact if_pos rfl
  · have hq : (2 * k + 1) % 4 = 3 := by omega
    have hge : 3 * half > 2 * half := by omega
    have hsub : 2 * (2 * half) - 3 * half = half := by omega
    rw [hq, if_pos hge, hsub]
    exact if_pos rfl

/-- The cosine of a multiple of two right angles is ±1. -/
theorem FloatFmt.cosine_whole (hn : f.rat x = n) :
    f.trig mode true x = f.deliver mode false (.fin (decide (n % 2 = 1)) 1 0) := by
  obtain ⟨m, e, k, hv, hm, hnk, hfix⟩ := FloatFmt.fixed_whole hw h hn
  have hhalf : 0 < 2 ^ 255 := by positivity
  rw [whole_parity hnk]
  unfold FloatFmt.trig
  by_cases hz : m = 0
  · simp only [hv, hz, if_true, (hm hz).2]
    rfl
  simp only [hv, hz, if_false, hfix, if_true, show 2 ^ 256 = 2 * 2 ^ 255 from rfl]
  generalize 2 ^ 255 = half at *
  rw [quarter_turns]
  rcases Nat.mod_two_eq_zero_or_one k with hk | hk
  · have hq : 2 * k % 4 = 0 := by omega
    simp [hq, hk, hhalf.ne']
  · have hq : 2 * k % 4 = 2 := by omega
    have hne : 2 * (2 * half) ≠ 2 * half := by omega
    simp [hq, hk, hne, hhalf.ne']

end

/-! ### The obligation -/

/-- A number of the machine that stands for the integer `n`, delivered. -/
theorem gives_of_deliver {f : FloatFmt} (hf : f.Sane) {mode : Nat} {neg : Bool} {m : Nat} {v : Rat}
    (hv : signedRat neg m = v) : Gives f mode false neg v (f.deliver mode false (.fin neg m 0)) := by
  have hd := FloatFmt.deliver_spec hf mode false (.fin neg m 0)
  rw [Num.quantity_fin, zpow_zero, mul_one, hv] at hd
  exact hd

theorem gives_one {f : FloatFmt} (hf : f.Sane) {mode : Nat} (n : Int) :
    Gives f mode false (decide (n % 2 = 1)) (if n % 2 = 1 then -1 else 1)
      (f.deliver mode false (.fin (decide (n % 2 = 1)) 1 0)) :=
  gives_of_deliver hf (by by_cases h : n % 2 = 1 <;> simp [signedRat, h])

/-- What the result of FEXP2 is where R227 names it or the operand shows it. -/
def ExpResults (f : FloatFmt) (mode : Nat) (sat : Bool) (x : Nat) (r : Rounded) : Prop :=
  Propagates f x r ∧
  (f.Infinite x → r.bits = (if f.neg x then 0 else f.infBits) ∧ r.flags = 0) ∧
  ∀ n : Int, f.Finite x → f.rat x = n → f.RoundsTo mode sat (2 ^ n) r

theorem FloatFmt.exp2_spec {f : FloatFmt} (hw : f.Wide) (mode : Nat) (sat : Bool) (x : Nat) :
    ExpResults f mode sat x (f.exp2 mode sat x) := by
  refine ⟨propagates_of_nanOf fun s hv => ?_, fun h => ?_, fun n h hn => ?_⟩
  · unfold FloatFmt.exp2
    rw [hv]
  · unfold FloatFmt.exp2
    rw [FloatFmt.value_inf h]
    exact ⟨rfl, rfl⟩
  · rw [FloatFmt.exp2_whole hw mode sat h hn]
    have hd := FloatFmt.deliver_spec hw.sane mode sat (.fin false 1 n)
    rw [Num.quantity_fin] at hd
    simpa [signedRat] using hd.2 (by simpa [signedRat] using (two_zpow_pos n).ne')

/-- What the result of FLOG2 is where R227 names it or the operand shows it. -/
def LogResults (f : FloatFmt) (mode x : Nat) (r : Rounded) : Prop :=
  Propagates f x r ∧
  (f.Zero x → r.bits = f.signed true f.infBits ∧ r.flags = flagDZ) ∧
  (¬f.NaN x → ¬f.Zero x → f.neg x = true → r.bits = f.nan ∧ r.flags = flagIE) ∧
  (f.Infinite x → f.neg x = false → r.bits = f.infBits ∧ r.flags = 0) ∧
  ∀ n : Int, f.Finite x → f.neg x = false → f.rat x = 2 ^ n → Gives f mode false (decide (n < 0)) n r

theorem FloatFmt.log2_spec {f : FloatFmt} (hw : f.Wide) (mode x : Nat) : LogResults f mode x (f.log2 mode x) := by
  refine ⟨propagates_of_nanOf fun s hv => ?_, fun h => ?_, fun hn h0 hs => ?_, fun h hs => ?_, fun n h hs hn => ?_⟩
  · unfold FloatFmt.log2
    rw [hv]
  · obtain ⟨e, hv⟩ := FloatFmt.value_of_zero hw.sane h
    simp [FloatFmt.log2, hv]
  · rcases FloatFmt.nonzero_kinds hn h0 with hv | ⟨m, e, hm, hv⟩
    · simp [FloatFmt.log2, hv, hs, FloatFmt.invalid]
    · simp [FloatFmt.log2, hv, hs, hm.ne', FloatFmt.invalid]
  · simp [FloatFmt.log2, FloatFmt.value_inf h, hs]
  · rw [FloatFmt.log2_power mode h hs hn]
    exact gives_of_deliver hw.sane (signedRat_natAbs n)

/-- What the result of FSINP is where R227 names it or the operand shows it. -/
def SineResults (f : FloatFmt) (mode x : Nat) (r : Rounded) : Prop :=
  Propagates f x r ∧
  (f.Infinite x → r.bits = f.nan ∧ r.flags = flagIE) ∧
  (f.Zero x → r.bits = x ∧ r.flags = 0) ∧
  (∀ n : Int, f.Finite x → ¬f.Zero x → f.rat x = n →
    r.bits = f.signed (f.neg x) 0 ∧ r.flags = 0) ∧
  ∀ n : Int, f.Finite x → f.rat x = n + 1 / 2 →
    Gives f mode false (decide (n % 2 = 1)) (if n % 2 = 1 then -1 else 1) r

theorem FloatFmt.sine_spec {f : FloatFmt} (hw : f.Wide) (mode x : Nat) : SineResults f mode x (f.trig mode false x) := by
  refine ⟨propagates_of_nanOf fun s hv => ?_, fun h => ?_, fun h => ?_, fun n h h0 hn => ?_, fun n h hn => ?_⟩
  · unfold FloatFmt.trig
    rw [hv]
  · unfold FloatFmt.trig
    rw [FloatFmt.value_inf h]
    exact ⟨rfl, rfl⟩
  · obtain ⟨e, hv⟩ := FloatFmt.value_of_zero hw.sane h
    simp [FloatFmt.trig, hv]
  · rw [FloatFmt.sine_whole hw mode h h0 hn]
    exact ⟨rfl, rfl⟩
  · rw [FloatFmt.sine_half hw mode h hn]
    exact gives_one hw.sane n

/-- What the result of FCOSP is where R227 names it or the operand shows it. -/
def CosineResults (f : FloatFmt) (mode x : Nat) (r : Rounded) : Prop :=
  Propagates f x r ∧
  (f.Infinite x → r.bits = f.nan ∧ r.flags = flagIE) ∧
  (∀ n : Int, f.Finite x → f.rat x = n + 1 / 2 → r.bits = 0 ∧ r.flags = 0) ∧
  ∀ n : Int, f.Finite x → f.rat x = n →
    Gives f mode false (decide (n % 2 = 1)) (if n % 2 = 1 then -1 else 1) r

theorem FloatFmt.cosine_spec {f : FloatFmt} (hw : f.Wide) (mode x : Nat) : CosineResults f mode x (f.trig mode true x) := by
  refine ⟨propagates_of_nanOf fun s hv => ?_, fun h => ?_, fun n h hn => ?_, fun n h hn => ?_⟩
  · unfold FloatFmt.trig
    rw [hv]
  · unfold FloatFmt.trig
    rw [FloatFmt.value_inf h]
    exact ⟨rfl, rfl⟩
  · rw [FloatFmt.cosine_half hw mode h hn]
    exact ⟨rfl, rfl⟩
  · rw [FloatFmt.cosine_whole hw mode h hn]
    exact gives_one hw.sane n

/-- What the result of FTANH is where R227 names it or the operand shows it. -/
def TanhResults (f : FloatFmt) (mode x : Nat) (r : Rounded) : Prop :=
  Propagates f x r ∧
  (f.Zero x → r.bits = x ∧ r.flags = 0) ∧
  (f.Infinite x → Gives f mode false (f.neg x) (if f.neg x then -1 else 1) r)

theorem FloatFmt.tanh_spec {f : FloatFmt} (hw : f.Wide) (mode x : Nat) : TanhResults f mode x (f.tanh mode x) := by
  refine ⟨propagates_of_nanOf fun s hv => ?_, fun h => ?_, fun h => ?_⟩
  · unfold FloatFmt.tanh
    rw [hv]
  · obtain ⟨e, hv⟩ := FloatFmt.value_of_zero hw.sane h
    simp [FloatFmt.tanh, hv]
  · unfold FloatFmt.tanh
    rw [FloatFmt.value_inf h]
    exact gives_of_deliver hw.sane (by simp [signedRat])

/-- Settles O38: each major is element-wise, and an element's result is what one lemma above says of its function. -/
theorem divisionAndFunctions : Obligations.DivisionAndFunctions := by
  unfold Obligations.DivisionAndFunctions
  refine ⟨?_, ?_, ?_, ?_, ?_, ?_, ?_, ?_, ?_⟩
  · exact twoFloats_of_vbinary (fun h f s _ => exec_fdiv h f s) fun f m a b =>
      FloatFmt.div_spec (encodingOf_wide f) m (modSat f.mod) a b
  · exact oneFloat_of_vunary exec_frcp fun f m a => FloatFmt.recip_spec (encodingOf_wide f) m (modSat f.mod) a
  · exact oneFloat_of_vunary exec_fsqrt fun f m a => FloatFmt.sqrt_spec (encodingOf_wide f) m a
  · exact oneFloat_of_vunary exec_frsq fun f m a => FloatFmt.rsqrt_spec (encodingOf_wide f) m a
  · exact oneFloat_of_vunary (R := fun f m a r => ExpResults (encodingOf f) m (modSat f.mod) a r) exec_fexp2 fun f m a =>
      FloatFmt.exp2_spec (encodingOf_wide f) m (modSat f.mod) a
  · exact oneFloat_of_vunary (R := fun f m a r => LogResults (encodingOf f) m a r) exec_flog2 fun f m a =>
      FloatFmt.log2_spec (encodingOf_wide f) m a
  · exact oneFloat_of_vunary (R := fun f m a r => SineResults (encodingOf f) m a r) exec_fsinp fun f m a =>
      FloatFmt.sine_spec (encodingOf_wide f) m a
  · exact oneFloat_of_vunary (R := fun f m a r => CosineResults (encodingOf f) m a r) exec_fcosp fun f m a =>
      FloatFmt.cosine_spec (encodingOf_wide f) m a
  · exact oneFloat_of_vunary (R := fun f m a r => TanhResults (encodingOf f) m a r) exec_ftanh fun f m a =>
      FloatFmt.tanh_spec (encodingOf_wide f) m a

end Sys2Proof.Machine
end

section
/-!
The tree of R211: `treeFold` over the 64 lanes as one function of the leaves, what relates its nodes and what holds of all of
them; then reductions into one register (R231).
-/
namespace Sys2Proof.Machine
open Sys2Proof.Claims

/-! ### The tree (R211) -/

section
variable {α : Type} (combine : α → α → α)

/-- The node over two nodes, either of which may be absent. -/
def joinNodes : Option α → Option α → Option α
  | some x, some y => some (combine x y)
  | some x, none => some x
  | none, y => y

/-- The node over the 2^k lanes from 2^k × i on. -/
def treeNode (leaf : Nat → Option α) : Nat → Nat → Option α
  | 0, i => leaf i
  | k + 1, i => joinNodes combine (treeNode leaf k (2 * i)) (treeNode leaf k (2 * i + 1))

theorem treeLevel_cons (a b : Option α) (t : List (Option α)) :
    treeLevel combine (a :: b :: t) = joinNodes combine a b :: treeLevel combine t := by
  cases a <;> cases b <;> rfl

/-- One level of the tree pairs its nodes. -/
theorem treeLevel_range (n : Nat) (g : Nat → Option α) : treeLevel combine ((List.range (2 * n)).map g) =
    (List.range n).map fun i => joinNodes combine (g (2 * i)) (g (2 * i + 1)) := by
  induction n generalizing g with
  | zero => rfl
  | succ n ih =>
    have hrange : (List.range (2 * (n + 1))).map g = g 0 :: g 1 :: (List.range (2 * n)).map fun i => g (i + 2) := by
      rw [show 2 * (n + 1) = 2 * n + 1 + 1 by ring]
      simp only [List.range_succ_eq_map, List.map_cons, List.map_map]
      rfl
    rw [hrange, treeLevel_cons, ih, List.range_succ_eq_map, List.map_cons, List.map_map]
    congr 1

theorem treeLevels_range (leaf : Nat → Option α) (k n : Nat) :
    (List.range k).foldl (fun l _ => treeLevel combine l) ((List.range (2 ^ k * n)).map leaf) =
      (List.range n).map (treeNode combine leaf k) := by
  induction k generalizing n with
  | zero => rw [pow_zero, one_mul]; rfl
  | succ k ih =>
    rw [List.range_succ, List.foldl_append, show 2 ^ (k + 1) * n = 2 ^ k * (2 * n) by ring, ih]
    exact treeLevel_range combine n _

/-- The tree over 64 lanes is its top node. -/
theorem treeFold_eq (leaf : Nat → Option α) : treeFold combine ((List.range 64).map leaf) = treeNode combine leaf 6 0 := by
  have h := treeLevels_range combine leaf 6 1
  unfold treeFold
  rw [show 64 = 2 ^ 6 * 1 from rfl, h]
  rfl

variable {combine} {leaf : Nat → Option α}

/-- A relation that every combination satisfies relates the tree's nodes. -/
theorem reduces_treeNode {node : α → α → α → Prop} (hnode : ∀ x y, node x y (combine x y)) (k i : Nat) :
    Reduces node leaf k i (treeNode combine leaf k i) := by
  induction k generalizing i with
  | zero => rfl
  | succ k ih =>
    refine ⟨_, _, ih (2 * i), ih (2 * i + 1), ?_⟩
    rw [treeNode]
    cases treeNode combine leaf k (2 * i) with
    | none => rfl
    | some x =>
      cases treeNode combine leaf k (2 * i + 1) with
      | none => rfl
      | some y => exact ⟨_, hnode x y, rfl⟩

/-- What the leaves have and combining keeps, every node has. -/
theorem treeNode_all {P : α → Prop} (hleaf : ∀ l x, leaf l = some x → P x) (hcomb : ∀ x y, P x → P y → P (combine x y))
    (k i : Nat) : ∀ x, treeNode combine leaf k i = some x → P x := by
  induction k generalizing i with
  | zero => exact hleaf i
  | succ k ih =>
    intro z hz
    rw [treeNode] at hz
    cases ha : treeNode combine leaf k (2 * i) with
    | none =>
      rw [ha] at hz
      exact ih (2 * i + 1) z hz
    | some x =>
      cases hb : treeNode combine leaf k (2 * i + 1) with
      | none =>
        rw [ha, hb] at hz
        exact ih (2 * i) z (ha.trans hz)
      | some y =>
        rw [ha, hb] at hz
        exact Option.some.inj hz ▸ hcomb x y (ih _ x ha) (ih _ y hb)

/-- A node over a lane that gives a leaf is there. -/
theorem treeNode_isSome {k i l : Nat} (hlo : 2 ^ k * i ≤ l) (hhi : l < 2 ^ k * (i + 1)) (hl : (leaf l).isSome = true) :
    (treeNode combine leaf k i).isSome = true := by
  induction k generalizing i with
  | zero =>
    have : i = l := by omega
    exact this ▸ hl
  | succ k ih =>
    rw [pow_succ, mul_assoc] at hlo hhi
    rw [treeNode]
    rcases Nat.lt_or_ge l (2 ^ k * (2 * i + 1)) with hlt | hge
    · obtain ⟨x, hx⟩ := Option.isSome_iff_exists.mp (ih hlo hlt)
      rw [hx]
      cases treeNode combine leaf k (2 * i + 1) <;> rfl
    · obtain ⟨y, hy⟩ := Option.isSome_iff_exists.mp (ih (i := 2 * i + 1) hge (by
        rw [show 2 * i + 1 + 1 = 2 * (i + 1) by ring]
        exact hhi))
      rw [hy]
      cases treeNode combine leaf k (2 * i) <;> rfl

/-- The tree over lanes of which one gives a leaf has a top, related to its leaves by what relates its nodes. -/
theorem treeFold_reduces {node : α → α → α → Prop} (hnode : ∀ x y, node x y (combine x y)) (d : α)
    (hsome : ∃ l, l < 64 ∧ (leaf l).isSome = true) :
    treeNode combine leaf 6 0 = some ((treeFold combine ((List.range 64).map leaf)).getD d) ∧
      Reduces node leaf 6 0 (some ((treeFold combine ((List.range 64).map leaf)).getD d)) := by
  obtain ⟨l, hlt, hl⟩ := hsome
  obtain ⟨x, hx⟩ := Option.isSome_iff_exists.mp (treeNode_isSome (combine := combine) (k := 6) (i := 0) (by omega) (by omega) hl)
  have hr := reduces_treeNode (leaf := leaf) hnode 6 0
  rw [treeFold_eq, hx, Option.getD_some]
  exact ⟨rfl, hx ▸ hr⟩

end

/-! ### Leaves of the active lanes -/

theorem path_leaves_eq {α : Type} (p : Path) (v : Nat → α) : p.leaves v = (List.range 64).map (leaves p v) := rfl

theorem leaves_map {α β : Type} (p : Path) (v : Nat → α) (g : α → β) (l : Nat) :
    (leaves p v l).map g = leaves p (fun l => g (v l)) l := by
  unfold leaves
  split <;> rfl

theorem exists_leaf {α : Type} {p : Path} (hp : p.active ≠ 0) (v : Nat → α) :
    ∃ l, l < 64 ∧ (leaves p v l).isSome = true := by
  obtain ⟨l, hl⟩ := Mask.ne_zero_iff.mp (bne_iff_ne.mpr hp)
  refine ⟨l, ?_, by simp [leaves, hl]⟩
  by_contra hge
  rw [Mask.has_ge _ _ (by omega)] at hl
  exact Bool.false_ne_true hl

theorem foldl_or_same (fl : Flags) : ∀ (ls : List Nat), ls.foldl (fun a _ => a ||| fl) fl = fl
  | [] => rfl
  | _ :: ls => by rw [List.foldl_cons, BitVec.or_self, foldl_or_same fl ls]

/-- The same exceptions in every active lane. -/
theorem orFlags_same {p : Path} (hp : p.active ≠ 0) (fl : Flags) : orFlags (p.active.lanes.map fun _ => fl) = fl := by
  obtain ⟨t, ht⟩ := Mask.lanes_eq_cons hp
  rw [ht, orFlags, List.map_cons, List.foldl_cons, show (0 : Flags) ||| fl = fl from BitVec.zero_or, List.foldl_map]
  exact foldl_or_same fl t

/-! ### Reductions into one register (R231) -/

theorem leafOf_eq : leafOf = asLeaf := by
  funext x
  unfold leafOf asLeaf
  cases f32.value x <;> rfl

/-- A node of a reduction into one register. -/
def combineOne (op : Nat → Nat → Rounded) (a b : Rounded) : Rounded :=
  { op a.bits b.bits with flags := (op a.bits b.bits).flags ||| a.flags ||| b.flags }

theorem oneNode_combineOne {R : Nat → Nat → Rounded → Prop} {op : Nat → Nat → Rounded} (h : ∀ a b, R a b (op a b))
    (a b : Rounded) : oneNode R a b (combineOne op a b) := ⟨_, h a.bits b.bits, rfl, rfl⟩

section
variable {leaf : Nat → Option Nat} (hsome : ∃ l, l < 64 ∧ (leaf l).isSome = true)
include hsome

/-- A tree of `combineOne` over operands as leaves. -/
theorem foldOne_reduces {R : Nat → Nat → Rounded → Prop} {op : Nat → Nat → Rounded} (h : ∀ a b, R a b (op a b))
    (d : Rounded) : Reduces (oneNode R) (fun l => (leaf l).map asLeaf) 6 0
      (some ((treeFold (combineOne op) (((List.range 64).map leaf).map fun o => o.map leafOf)).getD d)) := by
  obtain ⟨l, hlt, hl⟩ := hsome
  rw [List.map_map, leafOf_eq]
  exact (treeFold_reduces (leaf := fun l => (leaf l).map asLeaf) (oneNode_combineOne h) d ⟨l, hlt, by simpa using hl⟩).2

theorem vrsum_reduces (mode : Nat) (sat : Bool) :
    Reduces (oneNode fun a b r => f32.Delivers mode sat ((f32.quantity a).sum mode (f32.quantity b)) r)
      (fun l => (leaf l).map asLeaf) 6 0 (some (vrsum mode sat ((List.range 64).map leaf))) :=
  foldOne_reduces hsome (FloatFmt.add_delivers f32_sane mode sat) _

end

/-- FMIN and FMAX select an operand (R221). -/
theorem FloatFmt.minMax_selects {f : FloatFmt} (hf : f.Sane) (larger : Bool) (x y : Nat) :
    Selects f larger x y (f.minMax larger x y) := by
  have hnx := f.value_isNan x
  have hny := f.value_isNan y
  have hflags : (f.minMax larger x y).flags = flagIf ((f.value x).isSnan || (f.value y).isSnan) flagIE := by
    unfold FloatFmt.minMax
    dsimp only
    split_ifs <;> rfl
  have hsig : ((f.value x).isSnan || (f.value y).isSnan) = true ↔ f.Signalling x ∨ f.Signalling y := by
    rw [Bool.or_eq_true, f.value_isSnan, f.value_isSnan]
  refine ⟨fun hx hy => ?_, fun hx hy => ?_, fun hx hy => ?_, fun hx hy => ?_, fun h => ?_, fun h => ?_⟩
  · simp [FloatFmt.minMax, hnx.mpr hx, hny.mpr hy]
  · simp [FloatFmt.minMax, hnx.mpr hx, Bool.eq_false_iff.mpr (mt hny.mp hy)]
  · simp [FloatFmt.minMax, hny.mpr hy, Bool.eq_false_iff.mpr (mt hnx.mp hx)]
  · have hbits : (f.minMax larger x y).bits = if (f.value x).below (f.value y) != larger then x else y := by
      simp [FloatFmt.minMax, Bool.eq_false_iff.mpr (mt hnx.mp hx), Bool.eq_false_iff.mpr (mt hny.mp hy)]
    have hbelow := FloatFmt.below_order hf hx hy
    rw [hbits]
    by_cases hlt : (f.value x).below (f.value y) = true
    · have hord := hbelow.mp hlt
      cases larger
      · simp [hlt, min_eq_left hord.le]
      · simp [hlt, max_eq_right hord.le]
    · have hord := not_lt.mp (mt hbelow.mpr hlt)
      cases larger
      · simp [hlt, min_eq_right hord]
      · simp [hlt, max_eq_left hord]
  · rw [hflags, hsig.mpr h]
    rfl
  · rw [hflags, Bool.eq_false_iff.mpr (mt hsig.mp h)]
    rfl

/-- VRSUM, VRMAX and VRMIN end by delivering the top of their tree. -/
theorem reducesOne_of_reduceOne {mk : Head → RForm → Instr} {R : Nat → Bool → Nat → Nat → Rounded → Prop}
    {op : Nat → Bool → List (Option Nat) → Rounded} (he : ∀ h f s, exec (mk h f) s = reduceOne (mk h f) h f op s)
    (hop : ∀ mode sat {leaf : Nat → Option Nat}, (∃ l, l < 64 ∧ (leaf l).isSome = true) →
      Reduces (oneNode (R mode sat)) (fun l => (leaf l).map asLeaf) 6 0 (some (op mode sat ((List.range 64).map leaf)))) :
    ReducesOne mk R := by
  intro h f s p s1 s2 x b hr hd
  let r := op (s2.rounding p f.mod) (modSat f.mod) (p.leaves fun l => (x.at l).toNat)
  obtain ⟨t, hfin, ht⟩ := State.finish_ok (fun _ => BitVec.ofNat 32 r.bits) (fun _ => r.flags) hd
  rw [orFlags_same b.active] at ht
  refine ⟨r, t, (he h f s).trans (runThread_ok b ((Exe.bind_of_ok hr).trans hfin)), ?_, ht⟩
  have hred := hop (s2.rounding p f.mod) (modSat f.mod) (exists_leaf b.active fun l => (x.at l).toNat)
  simp only [leaves_map] at hred
  exact hred

end Sys2Proof.Machine
end

section
/-!
Pairs of a sum and its residual stay finite until a sum overflows (R205, R212): what follows from `Delivers` and `DeliversPair`
alone for F32.
-/
namespace Sys2Proof.Machine
open Sys2Proof.Claims

/-- What `chosen` chooses lies within one unit. -/
theorem chosen_near {mode : Nat} {q v z : Real} (hq : 0 < q) (h : chosen mode q v z) : |z - v| ≤ q := by
  obtain ⟨hexact, hother⟩ := h
  have hlo : q * ⌊v / q⌋ ≤ v := by
    have := Int.floor_le (v / q)
    rw [le_div_iff₀ hq] at this
    linarith
  have hhi : v < q * ⌊v / q⌋ + q := by
    have := Int.lt_floor_add_one (v / q)
    rw [div_lt_iff₀ hq] at this
    linarith
  have hends : z = v ∨ z = q * ⌊v / q⌋ ∨ z = q * ⌊v / q⌋ + q := by
    by_cases he : v = q * ⌊v / q⌋
    · exact Or.inl (hexact he)
    · have hne : v ≠ 0 := fun h0 => he (by simp [h0])
      have hside := lt_or_gt_of_ne hne
      have hmid := lt_trichotomy (v - q * ⌊v / q⌋) (q * ⌊v / q⌋ + q - v)
      have hz := hother he
      split at hz
      · obtain ⟨h1, h2, h3⟩ := hz
        rcases hmid with h | h | h
        · exact Or.inr (Or.inl (h1 h))
        · refine Or.inr ?_
          rw [h3 h]
          split
          · exact Or.inl rfl
          · exact Or.inr rfl
        · exact Or.inr (Or.inr (h2 h))
      · rcases hside with h | h
        · exact Or.inr (Or.inr (hz.1 h))
        · exact Or.inr (Or.inl (hz.2 h))
      · exact Or.inr (Or.inr hz)
      · exact Or.inr (Or.inl hz)
      · obtain ⟨h1, h2, h3⟩ := hz
        rcases hmid with h | h | h
        · exact Or.inr (Or.inl (h1 h))
        · rcases hside with h' | h'
          · exact Or.inr (Or.inl ((h3 h).1 h'))
          · exact Or.inr (Or.inr ((h3 h).2 h'))
        · exact Or.inr (Or.inr (h2 h))
  rw [abs_le]
  rcases hends with h | h | h <;> constructor <;> linarith

/-! ### Exceptions -/

/-- Overflow is raised or not. -/
theorem and_flagOE (x : Flags) : x &&& flagOE = 0 ∨ x &&& flagOE = flagOE := by
  have : ∀ y : Flags, y &&& flagOE = 0 ∨ y &&& flagOE = flagOE := by decide
  exact this x

theorem flagIf_and (c : Bool) (x y : Flags) : flagIf c x &&& y = flagIf c (x &&& y) := by
  cases c
  · exact BitVec.zero_and
  · rfl

theorem flagIf_zero (c : Bool) : flagIf c 0 = 0 := by cases c <;> rfl

/-- A result that overflows says so. -/
theorem FloatFmt.Overflows.flags {f : FloatFmt} {mode : Nat} {neg : Bool} {r : Rounded} (h : f.Overflows mode false neg r) :
    r.flags &&& flagOE = flagOE := by
  rw [(h.2 rfl).1]
  rfl

/-! ### Finite results -/

theorem f32_largest_lt : ((f32.largest : Rat) : Real) < 2 ^ (128 : Int) := by
  norm_num [FloatFmt.largest, FloatFmt.magnitude, FloatFmt.infBits, f32, FloatFmt.low]

theorem le_f32_largest : (2 : Real) ^ (127 : Int) ≤ (f32.largest : Rat) := by
  norm_num [FloatFmt.largest, FloatFmt.magnitude, FloatFmt.infBits, f32, FloatFmt.low]

/-- The unit of a number below 2^129. -/
theorem f32_unit_le {v : Real} {n : Int} (hn : -126 ≤ n) (hv : v ≠ 0) (h : |v| < 2 ^ (n + 1)) :
    (2 : Real) ^ (max (Int.log 2 |v|) f32.emin - f32.p + 1) ≤ 2 ^ (n - 23) := by
  refine zpow_le_zpow_right₀ (by norm_num) ?_
  have hlog : Int.log 2 |v| < n + 1 := (Int.lt_zpow_iff_log_lt (by norm_num) (abs_pos.mpr hv)).mp (by exact_mod_cast h)
  simp only [f32]
  omega

/-- What is rounded without overflow is finite, and within one unit of the exact value. -/
theorem finite_of_roundsTo {v : Real} {mode : Nat} {r : Rounded} (h : f32.RoundsTo mode false v r)
    (hoe : r.flags &&& flagOE = 0) :
    f32.Finite r.bits ∧ |(f32.rat r.bits : Real) - v| ≤ 2 ^ (max (Int.log 2 |v|) f32.emin - f32.p + 1) := by
  obtain ⟨z, hz, hin, hout⟩ := h
  rcases le_or_gt |z| f32.largest with hle | hgt
  · obtain ⟨hfin, hrat, -⟩ := hin hle
    rw [hrat]
    exact ⟨hfin, chosen_near (by positivity) hz⟩
  · rw [(hout hgt).flags] at hoe
    exact absurd hoe (by decide)

/-- A small number is rounded to a finite one. -/
theorem finite_of_small {v : Real} {mode : Nat} {sat : Bool} {r : Rounded} (hv : v ≠ 0) (hsmall : |v| ≤ 2 ^ (106 : Int))
    (h : f32.RoundsTo mode sat v r) : f32.Finite r.bits := by
  obtain ⟨z, hz, hin, -⟩ := h
  refine (hin ?_).1
  have hnear := chosen_near (by positivity) hz
  have hunit := f32_unit_le (n := 106) (by norm_num) hv (lt_of_le_of_lt hsmall (by norm_num))
  have htri : |z| ≤ |z - v| + |v| := by
    have := abs_add_le (z - v) v
    rwa [sub_add_cancel] at this
  refine le_trans ?_ le_f32_largest
  refine htri.trans ((add_le_add (hnear.trans hunit) hsmall).trans ?_)
  norm_num

theorem FloatFmt.signed_zero (f : FloatFmt) (n : Bool) : f.Zero (f.signed n 0) :=
  f.signed_mod (Nat.two_pow_pos _)

theorem f32_finite_zero : f32.Finite 0 := FloatFmt.Zero.finite f32_sane (Nat.zero_mod _)

/-- A delivered number that did not overflow is finite and near the exact one. -/
theorem finite_of_delivers {mode : Nat} {n : Bool} {v : Rat} {r : Rounded} (h : f32.Delivers mode false (.exact n v) r)
    (hv : |(v : Real)| < 2 ^ (129 : Int)) (hoe : r.flags &&& flagOE = 0) :
    f32.Finite r.bits ∧ |(v - f32.rat r.bits : Real)| ≤ 2 ^ (106 : Int) := by
  by_cases h0 : v = 0
  · obtain ⟨hbits, -⟩ := h.1 h0
    have hzero : f32.rat r.bits = 0 := by
      rw [f32.rat_eq_zero, hbits]
      exact f32.signed_zero n
    rw [hbits]
    refine ⟨(f32.signed_zero n).finite f32_sane, ?_⟩
    rw [← hbits, hzero, h0]
    norm_num
  · obtain ⟨hfin, hnear⟩ := finite_of_roundsTo (h.2 h0) hoe
    have hne : (v : Real) ≠ 0 := by exact_mod_cast h0
    refine ⟨hfin, ?_⟩
    rw [abs_sub_comm]
    exact hnear.trans (f32_unit_le (n := 128) (by norm_num) hne hv) |>.trans (by norm_num)

/-- A pair whose sum did not overflow has finite halves. -/
theorem finite_of_deliversPair {mode : Nat} {finite : Prop} {n : Bool} {v : Rat} {r : PairResult}
    (h : f32.DeliversPair mode finite (.exact n v) r) (hfinite : finite) (hv : |(v : Real)| < 2 ^ (129 : Int))
    (hoe : r.flags &&& flagOE = 0) : f32.Finite r.hi ∧ f32.Finite r.lo := by
  obtain ⟨hi, hhi, hbits, hgood, hbad⟩ := h
  have hoe' : hi.flags &&& flagOE = 0 := by
    by_contra hne
    exact hne ((hbad fun hc => hne hc.2.2).2 ▸ hoe)
  obtain ⟨hfin, hnear⟩ := finite_of_delivers hhi hv hoe'
  obtain ⟨lo, hzero, hround, hlo, -⟩ := hgood ⟨hfinite, hfin, hoe'⟩
  refine ⟨hbits ▸ hfin, ?_⟩
  rw [hlo]
  split
  · exact f32_finite_zero
  · by_cases h0 : v - f32.rat hi.bits = 0
    · rw [(hzero h0).1]
      exact f32_finite_zero
    · refine finite_of_small (by exact_mod_cast h0) ?_ (hround h0)
      push_cast
      exact hnear

/-- The sum of two finite numbers lies below 2^129. -/
theorem abs_sum_lt {a b : Nat} (ha : f32.Finite a) (hb : f32.Finite b) :
    |((f32.rat a + f32.rat b : Rat) : Real)| < 2 ^ (129 : Int) := by
  have h (x : Nat) (hx : f32.Finite x) : |(f32.rat x : Real)| < 2 ^ (128 : Int) :=
    lt_of_le_of_lt (by exact_mod_cast FloatFmt.abs_rat_le hx) f32_largest_lt
  push_cast
  calc |(f32.rat a : Real) + f32.rat b| ≤ |(f32.rat a : Real)| + |(f32.rat b : Real)| := abs_add_le _ _
    _ < 2 ^ (128 : Int) + 2 ^ (128 : Int) := add_lt_add (h a ha) (h b hb)
    _ = 2 ^ (129 : Int) := by norm_num

theorem sum_of_finite {f : FloatFmt} {mode a b : Nat} (ha : f.Finite a) (hb : f.Finite b) :
    ∃ n, (f.quantity a).sum mode (f.quantity b) = .exact n (f.rat a + f.rat b) := by
  rw [FloatFmt.quantity_finite ha, FloatFmt.quantity_finite hb]
  exact ⟨_, rfl⟩

theorem finite_of_nearestSum {a b : Nat} {r : Rounded} (h : nearestSum a b r) (ha : f32.Finite a) (hb : f32.Finite b)
    (hoe : r.flags &&& flagOE = 0) : f32.Finite r.bits := by
  obtain ⟨n, hn⟩ := sum_of_finite (mode := 1) ha hb
  unfold nearestSum at h
  rw [hn] at h
  exact (finite_of_delivers h (abs_sum_lt ha hb) hoe).1

/-! ### two_sum (R229) -/

theorem pairOf_hi (f : FloatFmt) (x y : Num) (s : Dyad) (r : Rounded) : (f.pairOf x y s r).hi = r.bits := by
  unfold FloatFmt.pairOf
  split <;> rfl

theorem pairOf_flags (f : FloatFmt) (x y : Num) (s : Dyad) (r : Rounded) :
    (f.pairOf x y s r).flags &&& flagOE = r.flags &&& flagOE := by
  unfold FloatFmt.pairOf
  split
  · rfl
  · simp only [FloatFmt.residual, BitVec.and_or_distrib_right, flagIf_and]
    rw [show flagXINEX &&& flagOE = 0 from rfl, flagIf_zero]
    exact BitVec.or_zero

/-- The sum and its residual as the machine computes them. -/
theorem twoSum_addX (a b : Nat) : twoSum a b (f32.add 1 false a b) (f32.addX 1 a b).lo := by
  refine ⟨FloatFmt.add_delivers f32_sane 1 false a b, (f32.addX 1 a b).flags, ?_⟩
  have h := FloatFmt.addX_spec f32_sane 1 a b
  have hhi : (f32.addX 1 a b).hi = (f32.add 1 false a b).bits := pairOf_hi ..
  rw [← hhi]
  exact h

theorem addX_hi (a b : Nat) : (f32.addX 1 a b).hi = (f32.add 1 false a b).bits := pairOf_hi ..

theorem addX_flags (a b : Nat) : (f32.addX 1 a b).flags &&& flagOE = (f32.add 1 false a b).flags &&& flagOE :=
  pairOf_flags ..

/-- A sum of finite numbers that did not overflow, and its residual, are finite. -/
theorem addX_finite {a b : Nat} (ha : f32.Finite a) (hb : f32.Finite b) (hoe : (f32.addX 1 a b).flags &&& flagOE = 0) :
    f32.Finite (f32.addX 1 a b).hi ∧ f32.Finite (f32.addX 1 a b).lo := by
  have h := FloatFmt.addX_spec f32_sane 1 a b
  obtain ⟨n, hn⟩ := sum_of_finite (mode := 1) ha hb
  rw [hn] at h
  exact finite_of_deliversPair h ⟨ha, hb⟩ (abs_sum_lt ha hb) hoe

end Sys2Proof.Machine
end

section
/-!
The pair reductions of VRSUMC and VRDOTC (R212, R231): the tree of pairs, its end, and O40.
-/
namespace Sys2Proof.Machine
open Sys2Proof.Claims

/-! ### Nodes (R212) -/

theorem or_and_ne_zero (x y m : Flags) : ((x ||| y) &&& m != 0) = (x &&& m != 0 || y &&& m != 0) := by
  rw [BitVec.and_or_distrib_right, Bool.eq_iff_iff]
  simp only [bne_iff_ne, Bool.or_eq_true, ne_eq]
  rw [show (x &&& m ||| y &&& m = 0) ↔ (x &&& m = 0 ∧ y &&& m = 0) from BitVec.or_eq_zero_iff]
  tauto

/-- A combination of two nodes is the node over them. -/
theorem pairNode_combinePair (a b : PairNode) : pairNode a b (combinePair a b) := by
  refine ⟨_, _, _, _, twoSum_addX a.h b.h, FloatFmt.add_delivers f32_sane 1 false a.e b.e,
    FloatFmt.add_delivers f32_sane 1 false _ _, addX_hi a.h b.h, rfl, ?_⟩
  simp only [combinePair, or_and_ne_zero, addX_flags, Bool.or_assoc]

/-- A node whose sums did not overflow is a pair of finite numbers. -/
def PairNode.Sound (z : PairNode) : Prop := z.ovf = false → f32.Finite z.h ∧ f32.Finite z.e

theorem combinePair_sound {a b : PairNode} (ha : a.Sound) (hb : b.Sound) : (combinePair a b).Sound := by
  intro hovf
  simp only [combinePair, or_and_ne_zero, Bool.or_eq_false_iff, bne_eq_false_iff_eq] at hovf
  obtain ⟨⟨hao, hbo⟩, ⟨hs, he1⟩, he2⟩ := hovf
  obtain ⟨hah, hae⟩ := ha hao
  obtain ⟨hbh, hbe⟩ := hb hbo
  obtain ⟨hhi, hlo⟩ := addX_finite hah hbh hs
  have h1 := finite_of_nearestSum (FloatFmt.add_delivers f32_sane 1 false a.e b.e) hae hbe he1
  exact ⟨hhi, finite_of_nearestSum (FloatFmt.add_delivers f32_sane 1 false _ _) h1 hlo he2⟩

/-! ### The reduction (R231) -/

section
variable (leaf : Nat → Option (Nat × Nat))

/-- The top of the tree of pairs, its last sum, and whether a sum overflowed. -/
def pairTop : PairNode := (treeFold combinePair (((List.range 64).map leaf).map fun o =>
  o.map fun x => { h := x.1, e := x.2, ovf := false })).getD { h := 0, e := 0, ovf := false }
def pairLast : PairResult := f32.addX 1 (pairTop leaf).h (pairTop leaf).e
def pairOvf : Bool := (pairTop leaf).ovf || (pairLast leaf).flags &&& flagOE != 0

/-- The sum of the high halves. -/
def highSum : Rounded := vrsum 1 false ((List.range 64).map fun l => (leaf l).map (·.1))

variable {leaf} (hsome : ∃ l, l < 64 ∧ (leaf l).isSome = true)

/-- A test of some leaf, where no leaf fails it. -/
theorem any_leaf (hout : ∀ l x, leaf l = some x → l < 64) {t : Option (Nat × Nat) → Bool} (hnone : t none = false) :
    ((List.range 64).map leaf).any t = true ↔ ∃ l x, leaf l = some x ∧ t (some x) = true := by
  simp only [List.any_map, List.any_eq_true, List.mem_range, Function.comp_apply]
  constructor
  · rintro ⟨l, -, ht⟩
    cases hx : leaf l with
    | none => exact absurd (hnone.symm.trans (hx ▸ ht)) Bool.false_ne_true
    | some x => exact ⟨l, x, hx, hx ▸ ht⟩
  · rintro ⟨l, x, hx, ht⟩
    exact ⟨l, hout l x hx, hx.symm ▸ ht⟩

include hsome in
theorem pairTop_reduces : Reduces pairNode (fun l => (leaf l).map fun x => { h := x.1, e := x.2, ovf := false }) 6 0
      (some (pairTop leaf)) ∧
    ((∀ l x, leaf l = some x → f32.Finite x.1 ∧ f32.Finite x.2) → (pairTop leaf).Sound) := by
  obtain ⟨l, hlt, hl⟩ := hsome
  have htree := treeFold_reduces (leaf := fun l => (leaf l).map fun x => ({ h := x.1, e := x.2, ovf := false } : PairNode))
    pairNode_combinePair { h := 0, e := 0, ovf := false } ⟨l, hlt, by simpa using hl⟩
  unfold pairTop
  rw [List.map_map]
  obtain ⟨htop, hred⟩ := htree
  refine ⟨hred, fun hfin => treeNode_all (P := PairNode.Sound) (fun l z hz => ?_) (fun a b => combinePair_sound) 6 0 _ htop⟩
  obtain ⟨x, hx, rfl⟩ := Option.map_eq_some_iff.mp hz
  exact fun _ => hfin l x hx

include hsome in
theorem highSum_reduces :
    Reduces (oneNode nearestSum) (fun l => (leaf l).map fun x => asLeaf x.1) 6 0 (some (highSum leaf)) := by
  obtain ⟨l, hlt, hl⟩ := hsome
  have h := vrsum_reduces (leaf := fun l => (leaf l).map (·.1)) ⟨l, hlt, by simpa using hl⟩ 1 false
  simp only [Option.map_map] at h
  exact h

variable {exact : List Dyad} {infinite : Bool} {extra : Flags}

/-- Where a high half is not finite or a sum overflows, the result is the sum of the high halves. -/
theorem pairTree_summed (hout : ∀ l x, leaf l = some x → l < 64)
    (h : (∃ l x, leaf l = some x ∧ ¬f32.Finite x.1) ∨ pairOvf leaf = true) :
    pairTree ((List.range 64).map leaf) exact infinite extra =
      { hi := (highSum leaf).bits, lo := f32.nan
        flags := extra ||| ((highSum leaf).flags &&& (flagIE ||| flagOE)) ||| flagIf (pairOvf leaf) flagOE |||
          flagIf (!infinite && !(f32.value (highSum leaf).bits).isNan) flagXE } := by
  have hsum : ((List.range 64).map leaf).map (fun o => o.map (·.1)) = (List.range 64).map fun l => (leaf l).map (·.1) :=
    List.map_map
  unfold highSum
  rw [← hsum]
  refine if_pos ?_
  rw [Bool.or_eq_true]
  refine h.imp (fun ⟨l, x, hx, hx1⟩ => ?_) id
  refine (any_leaf hout rfl).mpr ⟨l, x, hx, ?_⟩
  rw [← f32.value_special] at hx1
  exact Bool.not_eq_false _ ▸ hx1

/-- Otherwise, over finite halves, it is the last sum of the tree of pairs. -/
theorem pairTree_paired (hout : ∀ l x, leaf l = some x → l < 64)
    (hfin : ∀ l x, leaf l = some x → f32.Finite x.1 ∧ f32.Finite x.2) (hovf : pairOvf leaf = false) :
    let xe := ((Dyad.sum exact).sub (pairValue (pairLast leaf).hi (pairLast leaf).lo)).m != 0
    pairTree ((List.range 64).map leaf) exact infinite extra =
      { hi := (pairLast leaf).hi, lo := (pairLast leaf).lo
        flags := extra ||| flagIf xe flagXE ||| flagIf (xe && f32Small (pairLast leaf).hi) flagUE } := by
  intro xe
  have hnot {t : Option (Nat × Nat) → Bool} (h0 : t none = false) (half : Nat × Nat → Nat)
      (ht : ∀ x, t (some x) = (f32.value (half x)).special) (hf : ∀ l x, leaf l = some x → f32.Finite (half x)) :
      ((List.range 64).map leaf).any t = false := by
    refine Bool.eq_false_iff.mpr fun h => ?_
    obtain ⟨l, x, hx, hs⟩ := (any_leaf hout h0).mp h
    exact Bool.false_ne_true (((f32.value_special _).mpr (hf l x hx)).symm.trans ((ht x).symm.trans hs))
  refine (if_neg ?_).trans ?_
  · rw [Bool.or_eq_true, not_or]
    exact ⟨Bool.eq_false_iff.mp (hnot rfl (·.1) (fun _ => rfl) fun l x hx => (hfin l x hx).1), Bool.eq_false_iff.mp hovf⟩
  · rw [hnot rfl (·.2) (fun _ => rfl) fun l x hx => (hfin l x hx).2]
    congr 1
    exact (congrArg _ BitVec.and_zero).trans BitVec.or_zero

/-- The exceptions of a result that is the sum of the high halves. -/
theorem summed_flags (x y : Flags) (o c : Bool) :
    let fl := x ||| (y &&& (flagIE ||| flagOE)) ||| flagIf o flagOE ||| flagIf c flagXE
    fl &&& flagXE = (x &&& flagXE) ||| flagIf c flagXE ∧ fl &&& flagIE = (x ||| y) &&& flagIE ∧
      fl &&& flagOE = (x ||| y) &&& flagOE ||| flagIf o flagOE := by
  have hOX : flagOE &&& flagXE = 0 := rfl
  have hOI : flagOE &&& flagIE = 0 := rfl
  have hXI : flagXE &&& flagIE = 0 := rfl
  have hXO : flagXE &&& flagOE = 0 := rfl
  have hX : (flagIE ||| flagOE) &&& flagXE = 0 := rfl
  have hI : (flagIE ||| flagOE) &&& flagIE = flagIE := rfl
  have hO : (flagIE ||| flagOE) &&& flagOE = flagOE := rfl
  have hz (z : Flags) : z ||| 0 = z := BitVec.or_zero
  have hz' (z : Flags) : z &&& 0 = 0 := BitVec.and_zero
  refine ⟨?_, ?_, ?_⟩ <;>
    simp only [BitVec.and_or_distrib_right, flagIf_and, BitVec.and_assoc, BitVec.and_self, hOX, hOI, hXI, hXO, hX, hI, hO,
      flagIf_zero, hz, hz']

/-- What `ReducesPairs` asks of a result that is the sum `z` of the high halves. -/
def Summed (leaf : Nat → Option (Nat × Nat)) (infinite : Bool) (extra : Flags) (r : PairResult) (z : Rounded) : Prop :=
  Reduces (oneNode nearestSum) (fun l => (leaf l).map fun x => asLeaf x.1) 6 0 (some z) ∧ r.hi = z.bits ∧ r.lo = f32.nan ∧
    r.flags &&& flagXE = (extra &&& flagXE) ||| flagIf (!infinite && !(f32.value z.bits).isNan) flagXE ∧
    r.flags &&& flagIE = (extra ||| z.flags) &&& flagIE

include hsome in
theorem pairTree_isSummed (hout : ∀ l x, leaf l = some x → l < 64)
    (h : (∃ l x, leaf l = some x ∧ ¬f32.Finite x.1) ∨ pairOvf leaf = true) :
    let r := pairTree ((List.range 64).map leaf) exact infinite extra
    Summed leaf infinite extra r (highSum leaf) ∧
      r.flags &&& flagOE = (extra ||| (highSum leaf).flags) &&& flagOE ||| flagIf (pairOvf leaf) flagOE := by
  intro r
  have hr : r = _ := pairTree_summed hout h
  obtain ⟨hX, hI, hO⟩ := summed_flags extra (highSum leaf).flags (pairOvf leaf)
    (!infinite && !(f32.value (highSum leaf).bits).isNan)
  rw [hr]
  exact ⟨⟨highSum_reduces hsome, rfl, rfl, hX, hI⟩, hO⟩

include hsome in
/-- The pair reduction of R212 and R231. -/
theorem pairTree_reduces {v : Rat} (hout : ∀ l x, leaf l = some x → l < 64)
    (hexact : (∀ l x, leaf l = some x → f32.Finite x.1 ∧ f32.Finite x.2) → (Dyad.sum exact).rat = v) :
    ReducesPairs leaf v infinite extra (pairTree ((List.range 64).map leaf) exact infinite extra) := by
  obtain ⟨hred, hsound⟩ := pairTop_reduces hsome
  have hlast := twoSum_addX (pairTop leaf).h (pairTop leaf).e
  have hflags : (pairLast leaf).flags &&& flagOE = _ := addX_flags (pairTop leaf).h (pairTop leaf).e
  have hhi : (pairLast leaf).hi = _ := addX_hi (pairTop leaf).h (pairTop leaf).e
  refine ⟨fun hspecial hlow => ⟨_, _, _, hred, hlast, fun htop hoe => ?_, fun hovf => ?_⟩, fun hspecial => ?_⟩
  · rw [← hflags] at hoe
    have hfin l x (hx : leaf l = some x) : f32.Finite x.1 ∧ f32.Finite x.2 :=
      ⟨not_not.mp fun hn => hspecial ⟨l, x, hx, hn⟩, hlow l x hx⟩
    obtain ⟨hh, he⟩ := hsound hfin htop
    obtain ⟨hhf, hlf⟩ : f32.Finite (pairLast leaf).hi ∧ f32.Finite (pairLast leaf).lo := addX_finite hh he hoe
    have hovf : pairOvf leaf = false := by
      unfold pairOvf
      rw [htop, hoe]
      rfl
    have hxe : (((Dyad.sum exact).sub (pairValue (pairLast leaf).hi (pairLast leaf).lo)).m != 0) =
        decide (pairRat (pairLast leaf).hi (pairLast leaf).lo ≠ v) := by
      rw [Bool.eq_iff_iff, bne_iff_ne, decide_eq_true_iff, ne_eq, ← Dyad.rat_eq_zero, Dyad.sub_rat, hexact hfin, pairValue,
        Dyad.add_rat, FloatFmt.value_dyad hhf, FloatFmt.value_dyad hlf, sub_eq_zero, eq_comm]
      rfl
    have hpair := pairTree_paired (exact := exact) (infinite := infinite) (extra := extra) hout hfin hovf
    rw [hxe] at hpair
    rw [hpair, ← hhi]
    exact ⟨rfl, rfl, rfl⟩
  · have hovf' : pairOvf leaf = true := by
      unfold pairOvf
      rw [hflags]
      rcases hovf with h | h
      · rw [h, Bool.true_or]
      · rw [bne_iff_ne.mpr h, Bool.or_true]
    obtain ⟨hsum, hO⟩ := pairTree_isSummed (exact := exact) (infinite := infinite) (extra := extra) hsome hout (Or.inr hovf')
    refine ⟨?_, highSum leaf, hsum⟩
    rw [hO, hovf']
    rcases and_flagOE (extra ||| (highSum leaf).flags) with h | h <;> rw [h] <;> rfl
  · obtain ⟨hsum, hO⟩ := pairTree_isSummed (exact := exact) (infinite := infinite) (extra := extra) hsome hout (Or.inl hspecial)
    refine ⟨highSum leaf, hsum, fun hne => ?_⟩
    rw [hO, (and_flagOE _).resolve_left hne]
    cases pairOvf leaf <;> rfl

end

/-! ### What the active lanes give -/

section
variable {α : Type} (p : Path) (v : Nat → α)

theorem leaves_lt {l : Nat} {x : α} (h : leaves p v l = some x) : l < 64 := by
  by_contra hge
  have hno : p.active.has l = false := Mask.has_ge _ _ (by omega)
  unfold leaves at h
  rw [hno] at h
  cases h

theorem leaves_some {l : Nat} {x : α} (h : leaves p v l = some x) : p.active.has l = true ∧ v l = x := by
  unfold leaves at h
  split at h
  · next hl => exact ⟨hl, Option.some.inj h⟩
  · cases h

/-- The leaves that are there are those of the active lanes. -/
theorem present_leaves : (p.leaves v).filterMap id = p.active.lanes.map v := by
  unfold Path.leaves Mask.lanes
  rw [List.filterMap_map]
  induction laneNumbers with
  | nil => rfl
  | cons l ls ih => by_cases hl : p.active.has l = true <;> simp [hl] at ih ⊢ <;> exact ih

end

/-- Exceptions of places of which only those of the active lanes bring any. -/
theorem orFlags_leaves {α : Type} (p : Path) (v : Nat → α) {g : Option α → Flags} (h0 : g none = 0) :
    orFlags ((p.leaves v).map g) = orFlags (p.active.lanes.map fun l => g (some (v l))) := by
  unfold orFlags Path.leaves Mask.lanes
  generalize (0 : Flags) = a
  induction laneNumbers generalizing a with
  | nil => rfl
  | cons l ls ih =>
    by_cases hl : p.active.has l = true
    · simp only [List.map_cons, hl, if_true, List.foldl_cons, List.filter_cons_of_pos]
      exact ih _
    · simp only [List.map_cons, hl, if_false, List.foldl_cons, h0, Bool.false_eq_true, List.filter_cons_of_neg,
        not_false_eq_true]
      rw [show a ||| (0 : Flags) = a from BitVec.or_zero]
      exact ih _

/-- The exact sum of the numbers that the active lanes give. -/
theorem sum_lanes_rat (ls : List Nat) {d : Nat → Dyad} {q : Nat → Rat} (h : ∀ l ∈ ls, (d l).rat = q l) :
    (Dyad.sum (ls.map d)).rat = (ls.map q).sum := by
  have hfold (a : Dyad) : ((ls.map d).foldl Dyad.add a).rat = a.rat + (ls.map q).sum := by
    induction ls generalizing a with
    | nil => simp
    | cons l ls ih =>
      rw [List.map_cons, List.foldl_cons, ih (fun l hl => h l (List.mem_cons_of_mem _ hl)), Dyad.add_rat, h l List.mem_cons_self,
        List.map_cons, List.sum_cons, add_assoc]
  rw [Dyad.sum, hfold]
  simp [Dyad.zero, Dyad.rat]

/-! ### VRSUMC and VRDOTC (R231) -/

section
variable {p : Path} (hp : p.active ≠ 0)
include hp

theorem vrsumc_reduces (x : Nat → Nat × Nat) :
    ReducesPairs (leaves p x) (laneSum p fun l => pairRat (x l).1 (x l).2) (p.active.lanes.any fun l => (f32.value (x l).1).isInf)
      (flagIf (p.active.lanes.any fun l => (f32.value (x l).1).isSnan || (f32.value (x l).2).isSnan) flagIE)
      (vrsumc (p.leaves x)) := by
  unfold vrsumc
  simp only [present_leaves, List.any_map, List.map_map]
  refine pairTree_reduces (exists_leaf hp x) (fun l y => leaves_lt p x) fun hfin => sum_lanes_rat _ fun l hl => ?_
  obtain ⟨h1, h2⟩ := hfin l (x l) (if_pos ((Mask.mem_lanes _ _).mp hl))
  exact (Dyad.add_rat _ _).trans (by rw [FloatFmt.value_dyad h1, FloatFmt.value_dyad h2]; rfl)

/-- A single operand is the pair of itself and zero. -/
theorem vrsumc_single_reduces (x : Nat → Nat) :
    ReducesPairs (leaves p fun l => (x l, 0)) (laneSum p fun l => f32.rat (x l)) (p.active.lanes.any fun l => (f32.value (x l)).isInf)
      (flagIf (p.active.lanes.any fun l => (f32.value (x l)).isSnan) flagIE) (vrsumc (p.leaves fun l => (x l, 0))) := by
  have h := vrsumc_reduces hp fun l => (x l, 0)
  have hzero : f32.rat 0 = 0 := (f32.rat_eq_zero 0).mpr (Nat.zero_mod _)
  have hsnan : (f32.value 0).isSnan = false := by decide
  simpa only [pairRat, hzero, add_zero, hsnan, Bool.or_false] using h

end

theorem finite_of_quantity {f : FloatFmt} {x : Nat} {n : Bool} {v : Rat} (h : f.quantity x = .exact n v) : f.Finite x := by
  unfold FloatFmt.quantity at h
  split at h
  · next hlt => exact hlt
  · split at h <;> cases h

/-- What is delivered as a finite number is a number. -/
theorem exact_of_finite {mode : Nat} {sat : Bool} {q : Quantity} {r : Rounded} (h : f32.Delivers mode sat q r)
    (hr : f32.Finite r.bits) : ∃ n v, q = .exact n v := by
  unfold FloatFmt.Finite at hr
  cases q with
  | nan s =>
    rw [h.1] at hr
    exact absurd hr (by decide)
  | infinite n =>
    rw [h.1, f32.signed_mod f32.infBits_lt] at hr
    exact absurd hr (lt_irrefl _)
  | exact n v => exact ⟨n, v, rfl⟩

theorem exact_of_product {x y : Quantity} {n : Bool} {v : Rat} (h : x.product y = .exact n v) :
    (∃ m w, x = .exact m w) ∧ ∃ m w, y = .exact m w := by
  cases x with
  | nan s => cases y <;> cases h
  | infinite a =>
    cases y with
    | nan s => cases h
    | infinite b => cases h
    | exact m w =>
      rw [Quantity.product] at h
      split at h <;> cases h
  | exact m w =>
    cases y with
    | nan s => cases h
    | infinite b =>
      rw [Quantity.product] at h
      split at h <;> cases h
    | exact k u => exact ⟨⟨m, w, rfl⟩, k, u, rfl⟩

/-- A product that is finite has finite operands. -/
theorem finite_of_mulX {mode a b : Nat} (h : f32.Finite (f32.mulX mode a b).hi) : f32.Finite a ∧ f32.Finite b := by
  have hhi : (f32.mulX mode a b).hi = (f32.mul mode false a b).bits := pairOf_hi ..
  obtain ⟨n, v, hq⟩ := exact_of_finite (FloatFmt.mul_delivers f32_sane mode false a b) (hhi ▸ h)
  obtain ⟨⟨_, _, ha⟩, _, _, hb⟩ := exact_of_product hq
  exact ⟨finite_of_quantity ha, finite_of_quantity hb⟩

theorem vrdotc_reduces {p : Path} (hp : p.active ≠ 0) (x y : Nat → Nat) :
    ReducesPairs (leaves p fun l => ((f32.mulX 1 (x l) (y l)).hi, (f32.mulX 1 (x l) (y l)).lo))
      (laneSum p fun l => f32.rat (x l) * f32.rat (y l))
      (p.active.lanes.any fun l => (f32.value (x l)).isInf || (f32.value (y l)).isInf)
      (orFlags (p.active.lanes.map fun l => (f32.mulX 1 (x l) (y l)).flags &&& (flagIE ||| flagOE ||| flagXINEX)))
      (vrdotc (p.leaves fun l => (x l, y l))) := by
  have hprods : (p.leaves fun l => (x l, y l)).map (fun o => o.map fun z => f32.mulX 1 z.1 z.2) =
      p.leaves fun l => f32.mulX 1 (x l) (y l) := by
    simp only [path_leaves_eq, List.map_map, Function.comp_def, leaves_map]
  have hpairs : (p.leaves fun l => f32.mulX 1 (x l) (y l)).map (fun o => o.map fun r => (r.hi, r.lo)) =
      (List.range 64).map (leaves p fun l => ((f32.mulX 1 (x l) (y l)).hi, (f32.mulX 1 (x l) (y l)).lo)) := by
    simp only [path_leaves_eq, List.map_map, Function.comp_def, leaves_map]
  unfold vrdotc
  simp only [hprods, hpairs, present_leaves, List.any_map, List.map_map]
  rw [orFlags_leaves p (fun l => f32.mulX 1 (x l) (y l)) rfl]
  refine pairTree_reduces (exists_leaf hp _) (fun l z => leaves_lt p _) fun hfin => sum_lanes_rat _ fun l hl => ?_
  obtain ⟨hx, hy⟩ := finite_of_mulX (hfin l _ (if_pos ((Mask.mem_lanes _ _).mp hl))).1
  exact (Dyad.mul_rat _ _).trans (by rw [FloatFmt.value_dyad hx, FloatFmt.value_dyad hy])

/-! ### The obligation -/

/-- The end of a reduction to a pair: the same result in every active lane. -/
theorem finishDw_same {s : State} {p : Path} (hp : p.active ≠ 0) (fields : List Nat) {d : Nat} (r : PairResult)
    (hd : (s.troupe p).checkDest p [d, d + 1] = .ok ()) :
    s.finishDw p fields d (fun _ => r) = .ok (groupWritten (s.popPorts p fields) p d (dwPair fun _ => r) r.flags) := by
  rw [← orFlags_same hp r.flags]
  exact State.finishGroup_ok (vs := dwPair fun _ => r) fields (fun _ => r.flags) hd

/-- Settles O40: the tree of R211 over single operands, and the tree of R212 over operands, pairs and products. -/
theorem laneReductions : Obligations.LaneReductions := by
  unfold Obligations.LaneReductions
  refine ⟨?_, ?_, ?_, ?_, ?_, ?_⟩
  · exact reducesOne_of_reduceOne exec_vrsum fun mode sat _ hsome => vrsum_reduces hsome mode sat
  · exact reducesOne_of_reduceOne exec_vrmax fun _ _ _ hsome =>
      foldOne_reduces hsome (FloatFmt.minMax_selects f32_sane true) _
  · exact reducesOne_of_reduceOne exec_vrmin fun _ _ _ hsome =>
      foldOne_reduces hsome (FloatFmt.minMax_selects f32_sane false) _
  · intro h f s p s1 s2 x b hsub hr hd
    refine ⟨_, (exec_vrsumc h f s).trans (runThread_ok b ((if_neg (Bool.eq_false_iff.mp hsub)).trans
      ((Exe.bind_of_ok hr).trans (finishDw_same b.active _ _ hd)))), vrsumc_single_reduces b.active _⟩
  · intro h f s p s1 s2 x b hsub hr hd
    exact ⟨_, (exec_vrsumc h f s).trans (runThread_ok b ((if_pos hsub).trans
      ((Exe.bind_of_ok hr).trans (finishDw_same b.active [] _ hd)))), vrsumc_reduces b.active _⟩
  · intro h f s p s1 s2 x y b hr hd
    refine ⟨_, (exec_vrdotc h f s).trans (runThread_ok b ((Exe.bind_of_ok hr).trans (finishDw_same b.active _ _ hd))),
      fun l => f32.mulX 1 (x.at l).toNat (y.at l).toNat, fun l _ => FloatFmt.mulX_spec f32_sane 1 _ _, ?_⟩
    exact vrdotc_reduces b.active _ _

end Sys2Proof.Machine
end

section
/-!
Conversions between formats and integers, packing and unpacking (R204, R232 to R235), for O41.
-/
namespace Sys2Proof.Machine
open Sys2Proof.Claims

/-! ### Source elements (R232) -/

theorem intNum_quantity (v : Int) : (intNum v).quantity = integer v := by
  unfold intNum integer
  rw [Num.quantity_fin, zpow_zero, mul_one, signedRat_natAbs]

theorem elemAt_extract (w : Nat) (x : Word) (i : Nat) : elemAt w x i = (x.extractLsb' (w * i) w).toNat := by
  rw [BitVec.extractLsb'_toNat, Nat.shiftRight_eq_div_pow]
  rfl

theorem elemAt_whole (x : Word) : elemAt 32 x 0 = x.toNat := by
  unfold elemAt
  rw [Nat.mul_zero, pow_zero, Nat.div_one, Nat.mod_eq_of_lt x.isLt]

/-- What the machine takes from a source is what the element holds. -/
theorem sourceNum_quantity {t : Tag} {e : Nat} (he : t = .f32 → e = 0) (x : Word) :
    (sourceNum t x e).quantity = sourceQuantity t x e := by
  have hsigned {w : Nat} (hw : 0 < w) (y : BitVec w) : ofBits true w y.toNat = y.toInt := ofBits_toNat hw y
  unfold sourceNum sourceQuantity
  cases t
  case f32 =>
    dsimp only
    rw [he rfl, elemAt_whole, f32.quantity_value]
  case f16x2 => exact (f16.quantity_value _).symm
  case bf16x2 => exact (bf16.quantity_value _).symm
  case i32 =>
    dsimp only
    rw [intNum_quantity, hsigned (by decide)]
  case n32 => exact intNum_quantity _
  case i16x2 =>
    dsimp only
    rw [intNum_quantity, elemAt_extract, hsigned (by decide)]
  case i8x4 =>
    dsimp only
    rw [intNum_quantity, elemAt_extract, hsigned (by decide)]
  all_goals
    dsimp only
    rw [intNum_quantity, elemAt_extract]

theorem perLane_eq (t : Tag) : perLane t = elementsOf t := by cases t <;> rfl

theorem sourceElem_eq (n m h i : Nat) : sourceElem n m h i = comesFrom n m h i := by
  unfold sourceElem comesFrom
  rcases lt_trichotomy n m with hlt | heq | hgt
  · have hne : n ≠ m := by omega
    have hge : ¬m < n := by omega
    simp only [hne, hlt, hge, if_false, if_true, Bool.and_eq_true, decide_eq_true_eq]
  · simp only [heq, if_true]
  · have hne : n ≠ m := by omega
    have hge : ¬n < m := by omega
    simp only [hne, hgt, hge, if_false, if_true]

/-- An F32 source has one element. -/
theorem comesFrom_single {t : Tag} {m h i e : Nat} (hi : i < m) (hc : comesFrom (elementsOf t) m h i = some e)
    (ht : t = .f32) : e = 0 := by
  subst ht
  unfold comesFrom elementsOf at hc
  dsimp only at hc
  split_ifs at hc with h1 h2 h3
  · have := Option.some.inj hc
    omega
  · omega
  · have := Option.some.inj hc
    omega

theorem cvtFrom_eq (f : RForm) : cvtSource (f.sub.toNat % 8) = cvtFrom f := by
  have hlt : f.sub.toNat % 8 < 8 := Nat.mod_lt _ (by decide)
  unfold cvtFrom
  generalize f.sub.toNat % 8 = n at *
  interval_cases n <;> rfl

/-! ### CVT (R233) -/

/-- Element `i` of the result of CVT or CVTI: what `conv` makes of the source element that it comes from. -/
def convertedElement (t : Tag) (m h : Nat) (conv : Num → Rounded) (x : Word) (i : Nat) : Rounded :=
  match sourceElem (perLane t) m h i with
  | some e => conv (sourceNum t x e)
  | none => { bits := 0, flags := 0 }

theorem convertedElement_some {t : Tag} {m h i e : Nat} {conv : Num → Rounded} {x : Word} (hi : i < m)
    (hc : comesFrom (elementsOf t) m h i = some e) :
    ∃ v, convertedElement t m h conv x i = conv v ∧ v.quantity = sourceQuantity t x e := by
  refine ⟨_, ?_, sourceNum_quantity (comesFrom_single hi hc) x⟩
  unfold convertedElement
  rw [sourceElem_eq, perLane_eq, hc]

theorem convertedElement_none {t : Tag} {m h i : Nat} {conv : Num → Rounded} {x : Word}
    (hc : comesFrom (elementsOf t) m h i = none) : convertedElement t m h conv x i = { bits := 0, flags := 0 } := by
  unfold convertedElement
  rw [sourceElem_eq, perLane_eq, hc]

theorem cvtTo_fills (f : RForm) : FillsLane (cvtTo f).width := ⟨(vfmt_fits _).1, (vfmt_fits _).2.1⟩

theorem cvtConverts : OneFloat .cvt (fun f g => g == cvtFrom f) (fun f => (cvtTo f).tag) (fun f m x w fl =>
    FloatElements (cvtTo f).width (fun i r =>
      match comesFrom (elementsOf (cvtFrom f)) (32 / (cvtTo f).width) (f.sub.toNat / 32) i with
      | some e => (cvtTo f).fmt.Delivers m true (sourceQuantity (cvtFrom f) x e) r
      | none => r.bits = 0 ∧ r.flags = 0) w fl) := by
  refine oneFloat_of_unary (fun f m x => joinRounded (cvtTo f).width ((List.range (32 / (cvtTo f).width)).map
    (convertedElement (cvtFrom f) (32 / (cvtTo f).width) (f.sub.toNat / 32) ((cvtTo f).fmt.convert m) x))) (fun h f s => ?_)
    fun f m x => floatElements_joinRounded (cvtTo_fills f) fun i hi => ?_
  · rw [← cvtFrom_eq]
    rfl
  · cases hc : comesFrom (elementsOf (cvtFrom f)) (32 / (cvtTo f).width) (f.sub.toNat / 32) i with
    | none =>
      dsimp only
      rw [convertedElement_none hc]
      exact ⟨rfl, rfl⟩
    | some e =>
      obtain ⟨v, hv, hq⟩ := convertedElement_some (conv := (cvtTo f).fmt.convert m) (x := x) hi hc
      dsimp only
      rw [hv, ← hq]
      exact FloatFmt.deliver_spec (vfmt_fits _).2.2 m true v

/-! ### Integers (R204) -/

theorem Approx.toMultiple_zero (e : Int) (mode : Nat) (neg : Bool) (k : Int) :
    Approx.toMultiple { n := 0, e := e, sticky := false } mode neg k = (0, false) := by
  unfold Approx.toMultiple
  dsimp only
  split
  · rw [Nat.zero_shiftLeft]
  · have hhalf : (0 == 2 ^ ((k - e).toNat - 1)) = false := beq_false_of_ne (Nat.two_pow_pos _).ne
    simp only [Nat.zero_shiftRight, Nat.zero_mod, hhalf, Bool.false_and, Bool.or_false, Nat.not_lt_zero, gt_iff_lt, decide_false,
      beq_self_eq_true, Bool.not_false, Bool.and_self, Bool.not_true]
    split <;> rfl

/-- A finite number rounded to a multiple of 2^k, and whether that is inexact. -/
theorem toMultiple_chosen (m : Nat) (e : Int) (mode : Nat) (neg : Bool) (k : Int) :
    let r := Approx.toMultiple { n := m, e := e, sticky := false } mode neg k
    chosen mode (2 ^ k) (withSign neg (m * 2 ^ e)) (withSign neg (r.1 * 2 ^ k)) ∧
      (r.2 = true ↔ (r.1 : Real) * 2 ^ k ≠ m * 2 ^ e) := by
  intro r
  rcases Nat.eq_zero_or_pos m with rfl | hm
  · have hr : r = (0, false) := Approx.toMultiple_zero e mode neg k
    rw [hr]
    have hzero : withSign neg 0 = 0 := by cases neg <;> simp [withSign]
    simp only [Nat.cast_zero, zero_mul, hzero]
    refine ⟨⟨fun _ => rfl, fun h => absurd (by simp) h⟩, by simp⟩
  · obtain ⟨h1, h2, -⟩ := toMultiple_spec (a := { n := m, e := e, sticky := false }) (u := m * 2 ^ e)
      ⟨hm, fun _ => rfl, fun h => by cases h⟩ mode neg k (fun h => by cases h)
    exact ⟨h1, h2⟩

/-- An integer clamped to a range, with the exceptions of R204. -/
def clampTo (lo hi z : Int) (inexact : Bool) : Int × Flags :=
  if z < lo then (lo, flagSAT ||| flagXE)
  else if z > hi then (hi, flagSAT ||| flagXE)
  else (z, flagIf inexact flagXE)

theorem toInteger_fin (mode : Nat) (lo hi : Int) (n : Bool) (m : Nat) (e : Int) :
    let r := Approx.toMultiple { n := m, e := e, sticky := false } mode n 0
    toInteger mode lo hi (.fin n m e) = clampTo lo hi (if n then -(r.1 : Int) else r.1) r.2 := rfl

theorem clampTo_spec {mode : Nat} {lo hi z : Int} {n inexact : Bool} {x : Rat} (hle : lo ≤ hi)
    (hz : chosen mode 1 (x : Real) (z : Real)) (hex : inexact = decide ((z : Rat) ≠ x)) :
    ToInteger mode lo hi (.exact n x) (clampTo lo hi z inexact).1 (clampTo lo hi z inexact).2 ∧
      lo ≤ (clampTo lo hi z inexact).1 ∧ (clampTo lo hi z inexact).1 ≤ hi := by
  unfold clampTo
  by_cases h1 : z < lo
  · rw [if_pos h1]
    refine ⟨⟨z, hz, ?_⟩, le_rfl, hle⟩
    rw [if_pos h1]
    exact ⟨rfl, rfl⟩
  · by_cases h2 : hi < z
    · rw [if_neg h1, if_pos h2]
      refine ⟨⟨z, hz, ?_⟩, hle, le_rfl⟩
      rw [if_neg h1, if_pos h2]
      exact ⟨rfl, rfl⟩
    · rw [if_neg h1, if_neg h2]
      refine ⟨⟨z, hz, ?_⟩, not_lt.mp h1, not_lt.mp h2⟩
      rw [if_neg h1, if_neg h2, hex]
      exact ⟨rfl, rfl⟩

theorem withSign_natCast (n : Bool) (q : Nat) : withSign n (q : Real) = ((if n then -(q : Int) else q : Int) : Real) := by
  cases n <;> simp [withSign]

theorem signedRat_scaled_cast (n : Bool) (m : Nat) (e : Int) :
    ((signedRat n (m * 2 ^ e) : Rat) : Real) = withSign n (m * 2 ^ e) := by
  rw [signedRat_cast]
  push_cast
  rfl

/-- A value as an integer of a range that holds zero (R204). -/
theorem toInteger_spec (mode : Nat) {lo hi : Int} (hlo : lo ≤ 0) (hhi : 0 ≤ hi) (x : Num) :
    ToInteger mode lo hi x.quantity (toInteger mode lo hi x).1 (toInteger mode lo hi x).2 ∧
      lo ≤ (toInteger mode lo hi x).1 ∧ (toInteger mode lo hi x).1 ≤ hi := by
  cases x with
  | nan s => exact ⟨⟨rfl, rfl⟩, hlo, hhi⟩
  | inf n =>
    refine ⟨⟨rfl, rfl⟩, ?_⟩
    cases n
    · exact ⟨hlo.trans hhi, le_rfl⟩
    · exact ⟨le_rfl, hlo.trans hhi⟩
  | fin n m e =>
    obtain ⟨hz, hex⟩ := toMultiple_chosen m e mode n 0
    rw [Num.quantity_fin, toInteger_fin]
    simp only [zpow_zero, mul_one, withSign_natCast, ← signedRat_scaled_cast] at hz
    refine clampTo_spec (hlo.trans hhi) hz (Bool.eq_iff_iff.mpr ?_)
    rw [hex, decide_eq_true_iff, zpow_zero, mul_one, ne_eq, ne_eq, not_iff_not, ← withSign_inj n, withSign_natCast,
      ← signedRat_scaled_cast, ← Rat.cast_inj (α := Real), Rat.cast_intCast]

theorem intRange_eq (t : ElemType) : intRange t.signed t.width = (least t, greatest t) := by
  unfold intRange least greatest
  split <;> rfl

theorem least_nonpos (t : ElemType) : least t ≤ 0 := by
  have : (0 : Int) < 2 ^ (t.width - 1) := Int.pow_pos (by decide)
  unfold least
  split <;> omega

theorem greatest_nonneg (t : ElemType) : 0 ≤ greatest t := by
  have h (n : Nat) : (0 : Int) < 2 ^ n := Int.pow_pos (by decide)
  have := h (t.width - 1)
  have := h t.width
  unfold greatest
  split <;> omega

/-- An integer in the range of a type is read back from its bits. -/
theorem ElemType.elem_of_bits {t : ElemType} (ht : t.fits) {v : Int} (hlo : least t ≤ v) (hhi : v ≤ greatest t) {w : Word}
    {i : Nat} (hw : elemAt t.width w i = toBits t.width v % 2 ^ t.width) : t.elem w i = v := by
  have helem : t.elem w i = ofBits t.signed t.width (elemAt t.width w i) := rfl
  rw [helem, hw, toBits_eq, Nat.mod_eq_of_lt (BitVec.isLt _), ofBits_toNat ht.1, bitsValue_ofInt ht hlo hhi]

/-- A value as an element of an integer type. -/
def integerOf (t : ElemType) (mode : Nat) (v : Num) : Rounded :=
  let r := toInteger mode (intRange t.signed t.width).1 (intRange t.signed t.width).2 v
  { bits := toBits t.width r.1, flags := r.2 }

theorem integerOf_spec {t : ElemType} (ht : t.fits) (mode : Nat) (v : Num) {w : Word} {i : Nat}
    (hw : elemAt t.width w i = (integerOf t mode v).bits % 2 ^ t.width) :
    ToInteger mode (least t) (greatest t) v.quantity (t.elem w i) (integerOf t mode v).flags := by
  obtain ⟨hto, hlo, hhi⟩ := toInteger_spec mode (least_nonpos t) (greatest_nonneg t) v
  unfold integerOf at hw ⊢
  rw [intRange_eq] at hw ⊢
  rw [t.elem_of_bits ht hlo hhi hw]
  exact hto

/-- CVTI's destination type, and element `i` of its result (R234). -/
def cvtiType (f : RForm) : ElemType := elemType (f.sub.toNat / 4 % 8)
def cvtiElement (f : RForm) (m : Nat) (x : Word) : Nat → Rounded :=
  convertedElement (formatTag f) (32 / (cvtiType f).width) (f.sub.toNat / 32) (integerOf (cvtiType f) m) x

theorem cvtiConverts : OneFloat .cvti carries (fun f => (elemType (f.sub.toNat / 4 % 8)).tag) (fun f m x w fl =>
    let ty := elemType (f.sub.toNat / 4 % 8)
    ∃ fs : Nat → Flags, fl = orFlags ((List.range (32 / ty.width)).map fs) ∧ ∀ i, i < 32 / ty.width →
      match comesFrom (elementsOf (formatTag f)) (32 / ty.width) (f.sub.toNat / 32) i with
      | some e => ToInteger m (least ty) (greatest ty) (sourceQuantity (formatTag f) x e) (ty.elem w i) (fs i)
      | none => ty.elem w i = 0 ∧ fs i = 0) := by
  refine oneFloat_of_unary
    (fun f m x => joinRounded (cvtiType f).width ((List.range (32 / (cvtiType f).width)).map (cvtiElement f m x))) (fun h f s => rfl)
    fun f m x => ⟨fun i => (cvtiElement f m x i).flags, joinRounded_flags _, fun i hi => ?_⟩
  have hty : (cvtiType f).fits := elemType_fits _
  have helem := joinRounded_elem (w := (cvtiType f).width) hty (cvtiElement f m x) hi
  cases hc : comesFrom (elementsOf (formatTag f)) (32 / (elemType (f.sub.toNat / 4 % 8)).width) (f.sub.toNat / 32) i with
  | none =>
    have hop : cvtiElement f m x i = { bits := 0, flags := 0 } := convertedElement_none hc
    rw [hop] at helem
    refine ⟨(cvtiType f).elem_of_bits hty (least_nonpos _) (greatest_nonneg _) (helem.trans ?_), congrArg Rounded.flags hop⟩
    simp [toBits]
  | some e =>
    obtain ⟨v, hv, hq⟩ := convertedElement_some (conv := integerOf (cvtiType f) m) (x := x) hi hc
    have hop : cvtiElement f m x i = integerOf (cvtiType f) m v := hv
    rw [hop] at helem
    dsimp only
    rw [hop, ← hq]
    exact integerOf_spec hty m v helem

/-! ### PACK2 (R235) -/

/-- Two results put together. -/
theorem joinRounded_pair (op : Word → Rounded) (x y : Word) :
    joinRounded 16 ([x, y].map op) = joinRounded 16 ((List.range (32 / 16)).map fun e => op (if e = 0 then x else y)) := rfl

theorem halves_fill : FillsLane 16 := ⟨by decide, by decide⟩

theorem packsFloats : TwoFloats .pack2 (fun f => f.sub.toNat = 1 ∨ f.sub.toNat = 2) (fun _ g => g == .f32) (fun _ g => g == .f32)
    (fun f => (vfmt f.sub.toNat).tag) (fun f m x y w fl =>
      FloatElements 16 (fun e r => (vfmt f.sub.toNat).fmt.Delivers m true
        (f32.quantity (if e = 0 then x.toNat else y.toNat)) r) w fl) := by
  refine twoFloats_of_binary (fun f m x y => joinRounded 16 ([x, y].map fun w =>
    (vfmt f.sub.toNat).fmt.convert m (f32.value w.toNat))) (fun h f s hf => ?_) fun f m x y _ => ?_
  · exact (exec_pack2 h f s).trans (if_neg (by omega))
  · rw [joinRounded_pair]
    refine floatElements_joinRounded halves_fill fun e _ => ?_
    rw [← apply_ite BitVec.toNat, f32.quantity_value]
    exact FloatFmt.deliver_spec (vfmt_fits _).2.2 m true _

/-- An integer clamped to 16 bits (R235). -/
def clamp16 (v : Int) : Int := max (-32768) (min 32767 v)

/-- One element of an integer PACK2. -/
def packedElement (v : Int) : Rounded := { bits := (narrow true true 16 v).1, flags := flagIf (narrow true true 16 v).2 flagSAT }

theorem packedElement_eq (v : Int) :
    packedElement v = { bits := toBits 16 (clamp16 v), flags := flagIf (decide (clamp16 v ≠ v)) flagSAT } := by
  have hlo : least (elemType 2) = -32768 := rfl
  have hhi : greatest (elemType 2) = 32767 := rfl
  have h := narrow_cases (elemType 2) true v
  rw [hlo, hhi] at h
  have hn : narrow true true 16 v = _ := h
  unfold packedElement
  rw [hn]
  unfold clamp16
  by_cases h1 : v < -32768
  · have hc : max (-32768) (min 32767 v) = -32768 := by omega
    have hne : (-32768 : Int) ≠ v := by omega
    simp only [h1, hc, hne, and_self, if_true, decide_true, ne_eq, not_false_eq_true]
    rfl
  · by_cases h2 : 32767 < v
    · have hc : max (-32768) (min 32767 v) = 32767 := by omega
      have hne : (32767 : Int) ≠ v := by omega
      simp only [h1, h2, hc, hne, and_self, and_false, if_true, if_false, decide_true, ne_eq, not_false_eq_true]
      rfl
    · have hc : max (-32768) (min 32767 v) = v := by omega
      simp only [h1, h2, hc, and_false, if_false, ne_eq, not_true_eq_false, decide_false]
      rfl

theorem toInt_of_elemAt {w : Word} {e : Nat} {v : Int} (h : elemAt 16 w e = toBits 16 v % 2 ^ 16) (hlo : -32768 ≤ v) (hhi : v ≤ 32767) :
    (w.extractLsb' (16 * e) 16).toInt = v := by
  have helem := (elemType 2).elem_of_bits (elemType_fits 2) hlo hhi h
  rw [ElemType.elem_eq (elemType_fits 2)] at helem
  exact helem

theorem orFlags_pair (x y : Flags) : orFlags [x, y] = x ||| y :=
  congrArg (· ||| y) BitVec.zero_or

theorem flagIf_or (a b : Bool) (x : Flags) : flagIf a x ||| flagIf b x = flagIf (a || b) x := by
  cases a
  · exact BitVec.zero_or
  · cases b
    · exact BitVec.or_zero
    · exact BitVec.or_self

theorem packsIntegers : TwoFloats .pack2 (fun f => f.sub.toNat = 6) (fun _ g => g == .i32) (fun _ g => g == .i32) (fun _ => .i16x2)
    (fun _ _ x y w fl =>
      let clamp (v : Int) : Int := max (-32768) (min 32767 v)
      (w.extractLsb' 0 16).toInt = clamp x.toInt ∧ (w.extractLsb' 16 16).toInt = clamp y.toInt ∧
      fl = flagIf (decide (clamp x.toInt ≠ x.toInt) || decide (clamp y.toInt ≠ y.toInt)) flagSAT) := by
  refine twoFloats_of_binary (fun _ _ x y => joinRounded 16 ([x, y].map fun w => packedElement w.toInt))
    (fun h f s hf => ?_) fun f m x y _ => ?_
  · exact (exec_pack2 h f s).trans (if_pos hf)
  rw [joinRounded_pair fun w => packedElement w.toInt]
  have hlo (v : Int) : -32768 ≤ clamp16 v := by unfold clamp16; omega
  have hhi (v : Int) : clamp16 v ≤ 32767 := by unfold clamp16; omega
  have helem {e : Nat} (he : e < 2) := joinRounded_elem halves_fill (fun e => packedElement (if e = 0 then x else y).toInt) he
  refine ⟨toInt_of_elemAt (e := 0) ((helem (by decide)).trans ?_) (hlo _) (hhi _),
    toInt_of_elemAt (e := 1) ((helem (by decide)).trans ?_) (hlo _) (hhi _), ?_⟩
  · rw [packedElement_eq]
    rfl
  · rw [packedElement_eq]
    rfl
  · rw [joinRounded_flags]
    refine (orFlags_pair _ _).trans ?_
    simp only [packedElement_eq]
    exact flagIf_or _ _ _

/-! ### UNPK2 (R235) -/

theorem FloatFmt.deliver_le {f : FloatFmt} {mode : Nat} {sat : Bool} (v : Num) : (f.deliver mode sat v).bits ≤ f.top := by
  cases v with
  | nan s => exact FloatFmt.nan_le
  | inf n => exact FloatFmt.signed_le le_rfl
  | fin n m e => exact FloatFmt.round_le

/-- A delivered F32 fills a lane. -/
theorem f32_deliver_toNat {mode : Nat} {sat : Bool} (v : Num) :
    (BitVec.ofNat 32 (f32.deliver mode sat v).bits).toNat = (f32.deliver mode sat v).bits := by
  rw [BitVec.toNat_ofNat]
  exact Nat.mod_eq_of_lt (lt_of_le_of_lt (FloatFmt.deliver_le v) (by decide))

/-- UNPK2 ends by writing the two elements of each lane, for a source tag that its code takes. -/
theorem unpacks_of_elements {f : RForm} {from_ into : Tag} {R : Word → Nat → Word → Flags → Prop}
    (hfrom : (if f.sub.toNat = 3 then .i16x2 else (vfmt f.sub.toNat).tag) = from_)
    (hinto : (if f.sub.toNat = 3 then Tag.i32 else Tag.f32) = into)
    (hR : ∀ x e, e < 2 → R x e (BitVec.ofNat 32 (unpackElem f.sub.toNat x e).bits) (unpackElem f.sub.toNat x e).flags) :
    Unpacks f from_ into R := by
  subst hfrom hinto
  intro h s p s1 s2 x b hr hd
  have hfin := State.finishGroup_ok (s := s2) [f.a.toNat] (d := f.d.toNat)
    (vs := [0, 1].map fun n => (if f.sub.toNat = 3 then Tag.i32 else Tag.f32,
      fun l => BitVec.ofNat 32 (unpackElem f.sub.toNat (x.at l) n).bits))
    (fun l => orFlags ([0, 1].map fun n => (unpackElem f.sub.toNat (x.at l) n).flags)) hd
  simp only [List.map_cons, List.map_nil, orFlags_pair] at hfin
  refine ⟨fun n l => BitVec.ofNat 32 (unpackElem f.sub.toNat (x.at l) n).bits,
    fun n l => (unpackElem f.sub.toNat (x.at l) n).flags, ?_, fun l e _ he => hR (x.at l) e he⟩
  refine (exec_unpk2 h f s).trans (runThread_ok b ((Exe.bind_of_ok hr).trans ?_))
  simp only [List.map_cons, List.map_nil, orFlags_pair]
  exact hfin

theorem unpacksFloats {f : RForm} (hf : f.sub.toNat = 1 ∨ f.sub.toNat = 2) :
    Unpacks f (vfmt f.sub.toNat).tag .f32 fun x e w fl =>
      f32.Delivers 1 true ((vfmt f.sub.toNat).fmt.quantity (elemAt 16 x e)) { bits := w.toNat, flags := fl } := by
  have hne : f.sub.toNat ≠ 3 := by omega
  refine unpacks_of_elements (if_neg hne) (if_neg hne) fun x e _ => ?_
  have helem : unpackElem f.sub.toNat x e = f32.deliver 1 true (sourceNum (vfmt f.sub.toNat).tag x e) := if_neg hne
  have hsource : (sourceNum (vfmt f.sub.toNat).tag x e).quantity = (vfmt f.sub.toNat).fmt.quantity (elemAt 16 x e) := by
    rcases hf with h | h <;> rw [h] <;> exact sourceNum_quantity (fun ht => by cases ht) x
  rw [helem, f32_deliver_toNat, ← hsource]
  exact FloatFmt.deliver_spec f32_sane 1 true _

theorem unpacksIntegers {f : RForm} (hf : f.sub.toNat = 3) :
    Unpacks f .i16x2 .i32 fun x e w fl => w.toInt = (x.extractLsb' (16 * e) 16).toInt ∧ fl = 0 := by
  refine unpacks_of_elements (if_pos hf) (if_pos hf) fun x e _ => ?_
  have helem : unpackElem f.sub.toNat x e = { bits := toBits 32 (ofBits true 16 (elemAt 16 x e)), flags := 0 } := if_pos hf
  have hbits : ofBits true 16 (elemAt 16 x e) = (x.extractLsb' (16 * e) 16).toInt := by
    rw [elemAt_extract]
    exact ofBits_toNat (by decide) _
  rw [helem, hbits]
  refine ⟨?_, rfl⟩
  dsimp only
  rw [toBits_eq, BitVec.ofNat_toNat, BitVec.setWidth_eq, BitVec.toInt_ofInt]
  have hlt := BitVec.toInt_lt (x := x.extractLsb' (16 * e) 16)
  have hge := BitVec.le_toInt (x := x.extractLsb' (16 * e) 16)
  exact Int.bmod_eq_of_le_mul_two (by omega) (by omega)

/-- Settles O41: every converted element delivers what its source element holds. -/
theorem conversions : Obligations.Conversions :=
  ⟨cvtConverts, cvtiConverts, packsFloats, packsIntegers, fun _ => ⟨unpacksFloats, unpacksIntegers⟩⟩

end Sys2Proof.Machine
end

section
/-!
Block formats (R207, R208): the value of an element, and the exponents and elements that a block of values converts to.
-/
namespace Sys2Proof.Machine
open Sys2Proof.Claims

/-! ### Elements of a block decoded (R207) -/

theorem blockT_eq (four : Bool) : bxT four = blockT four := rfl
theorem blockMax_eq (four : Bool) : bxMax four = blockMax four := rfl

/-- The largest element at the largest exponent is an F32. -/
theorem block_le_largest {four : Bool} {m e : Nat} (hm : m ≤ blockMax four) (he : e ≤ 254) :
    (m : Rat) * 2 ^ ((e : Int) - blockT four) ≤ f32.largest := by
  have hm' : (m : Rat) ≤ (blockMax four : Nat) := by exact_mod_cast hm
  have hp : (2 : Rat) ^ ((e : Int) - blockT four) ≤ 2 ^ (254 - blockT four) :=
    zpow_le_zpow_right₀ (by norm_num) (by omega)
  refine (mul_le_mul hm' hp (two_zpow_pos _).le (by positivity)).trans ?_
  cases four <;> norm_num [blockMax, blockT, FloatFmt.largest, FloatFmt.magnitude, FloatFmt.infBits, f32, FloatFmt.low]

/-- An element of a block is an F32, delivered exactly. -/
theorem block_exact {four neg : Bool} {m e : Nat} (h0 : 0 < m) (hm : m ≤ blockMax four) (he : e ≤ 254) :
    let r := f32.deliver 1 true (.fin neg m ((e : Int) - blockT four))
    let value : Rat := m * 2 ^ ((e : Int) - blockT four)
    f32.Finite r.bits ∧ f32.rat r.bits = if neg then -value else value := by
  have hlt : m < 2 ^ f32.p := by
    have : blockMax four ≤ 63 := by cases four <;> decide
    exact lt_of_le_of_lt (hm.trans this) (by decide)
  have hlow : f32.low ≤ (e : Int) - blockT four := by
    have hT : blockT four ≤ 132 := by cases four <;> decide
    have hf : f32.low = -149 := by decide
    omega
  obtain ⟨hfin, hrat, -⟩ := FloatFmt.deliver_exact f32_sane (mode := 1) (sat := true) (neg := neg) h0 hlt hlow
    (block_le_largest hm he) rfl
  exact ⟨hfin, hrat⟩

/-! ### Multiples (R208) -/

/-- Rounding to the nearest multiple of a unit is rounding the number of units. -/
theorem chosen_units {Q u r : Real} (hQ : 0 < Q) (h : chosen 1 Q u (r * Q)) : chosen 1 1 (u / Q) r := by
  obtain ⟨t, rfl⟩ : ∃ t, u = t * Q := ⟨u / Q, (div_mul_cancel₀ u hQ.ne').symm⟩
  obtain ⟨hexact, hother⟩ := h
  rw [mul_div_cancel_right₀ t hQ.ne'] at hexact hother ⊢
  have hlo : Q * (⌊t⌋ : Real) = ⌊t⌋ * Q := mul_comm _ _
  have hhi : (⌊t⌋ : Real) * Q + Q = (⌊t⌋ + 1) * Q := by ring
  simp only [hlo, hhi, ← sub_mul, mul_lt_mul_iff_left₀ hQ, mul_left_inj' hQ.ne'] at hexact hother
  unfold chosen
  simp only [div_one, one_mul]
  refine ⟨hexact, fun hne => ?_⟩
  obtain ⟨h1, h2, h3⟩ := hother fun h => hne (mul_right_cancel₀ hQ.ne' h)
  refine ⟨h1, h2, fun heq => ?_⟩
  have := h3 heq
  split at this
  · next he => rw [if_pos he]; exact mul_right_cancel₀ hQ.ne' this
  · next he => rw [if_neg he]; exact mul_right_cancel₀ hQ.ne' this

theorem abs_signedRat (n : Bool) {u : Rat} (hu : 0 ≤ u) : |signedRat n u| = u := by
  cases n <;> simp [signedRat, abs_of_nonneg hu]

/-- A magnitude in units of a block exponent, and whether that is inexact. -/
theorem toMultiple_units (four n : Bool) (E m : Nat) (e : Int) :
    let r := Approx.toMultiple { n := m, e := e, sticky := false } 1 n ((E : Int) - bxT four)
    inUnits four E (signedRat n (m * 2 ^ e)) r.1 ∧
      r.2 = decide ((r.1 : Rat) * 2 ^ ((E : Int) - blockT four) ≠ |signedRat n (m * 2 ^ e)|) := by
  intro r
  obtain ⟨hz, hex⟩ := toMultiple_chosen m e 1 false ((E : Int) - bxT four)
  have hr : r = Approx.toMultiple { n := m, e := e, sticky := false } 1 false ((E : Int) - bxT four) := rfl
  rw [← hr] at hz hex
  rw [abs_signedRat n (scaled_nonneg m e)]
  refine ⟨?_, Bool.eq_iff_iff.mpr ?_⟩
  · unfold inUnits
    rw [abs_signedRat n (scaled_nonneg m e)]
    push_cast
    exact chosen_units (by positivity) hz
  · rw [hex, decide_eq_true_iff, ne_eq, ne_eq, not_iff_not, ← Rat.cast_inj (α := Real)]
    push_cast
    rfl

/-! ### One element (R208) -/

theorem blockBits_lt (four s neg : Bool) {m : Nat} (hm : m ≤ blockMax four) : blockBits four s neg m < 4 * (blockMax four + 1) := by
  unfold blockBits
  split_ifs <;> omega

/-- An element from the magnitude at each of the two exponents, each with whether it is inexact. -/
def placeElement (four n : Bool) (r0 r1 : Nat × Bool) : Nat × Flags :=
  if r0.1 ≤ blockMax four then (blockBits four false n r0.1, flagIf r0.2 flagXE)
  else if r1.1 > blockMax four then (blockBits four true n (blockMax four), flagSAT ||| flagXE)
  else (blockBits four true n r1.1, flagIf r1.2 flagXE)

theorem bxElem_fin (four : Bool) (e0 e1 : Nat) (n : Bool) (m : Nat) (e : Int) :
    bxElem four e0 e1 (.fin n m e) = placeElement four n
      (Approx.toMultiple { n := m, e := e, sticky := false } 1 n ((e0 : Int) - bxT four))
      (Approx.toMultiple { n := m, e := e, sticky := false } 1 n ((e1 : Int) - bxT four)) := rfl

theorem placeElement_lt (four n : Bool) (r0 r1 : Nat × Bool) : (placeElement four n r0 r1).1 < 4 * (blockMax four + 1) := by
  unfold placeElement
  split
  · next h => exact blockBits_lt four false n h
  · split
    · exact blockBits_lt four true n le_rfl
    · next h => exact blockBits_lt four true n (not_lt.mp h)

/-- The bits and the exceptions of a number of a block (R208). -/
theorem bxElem_spec (four : Bool) (e0 e1 : Nat) {x : Num} (hx : x.isNan = false) :
    BlockElement four e0 e1 x.quantity (bxElem four e0 e1 x).1 (bxElem four e0 e1 x).2 ∧
      (bxElem four e0 e1 x).1 < 4 * (blockMax four + 1) := by
  cases x with
  | nan s => cases hx
  | inf n => exact ⟨⟨rfl, rfl⟩, blockBits_lt four true n le_rfl⟩
  | fin n m e =>
    obtain ⟨hu0, hx0⟩ := toMultiple_units four n e0 m e
    obtain ⟨hu1, hx1⟩ := toMultiple_units four n e1 m e
    rw [Num.quantity_fin, bxElem_fin]
    refine ⟨⟨_, hu0, fun hle => ?_, fun hgt => ⟨_, hu1, fun hle => ?_, fun hgt' => ?_⟩⟩, placeElement_lt _ _ _ _⟩
    · rw [← hx0, placeElement, if_pos hle]
      exact ⟨rfl, rfl⟩
    · rw [← hx1, placeElement, if_neg (not_le.mpr hgt), if_neg (not_lt.mpr hle)]
      exact ⟨rfl, rfl⟩
    · rw [placeElement, if_neg (not_le.mpr hgt), if_pos hgt']
      exact ⟨rfl, rfl⟩

/-! ### The exponent of a block (R208) -/

theorem dyadMax_cases (a b : Dyad) : a.rat ≤ (dyadMax a b).rat ∧ b.rat ≤ (dyadMax a b).rat ∧
    (dyadMax a b = a ∨ dyadMax a b = b) := by
  have h : (a.sub b).m < 0 ↔ a.rat < b.rat := by rw [← Dyad.rat_neg_iff, Dyad.sub_rat, sub_neg]
  unfold dyadMax
  by_cases hlt : (a.sub b).m < 0
  · rw [if_pos hlt]
    exact ⟨(h.mp hlt).le, le_rfl, Or.inr rfl⟩
  · rw [if_neg hlt]
    exact ⟨le_rfl, not_lt.mp (mt h.mpr hlt), Or.inl rfl⟩

/-- The largest of a list and a first number. -/
theorem foldl_dyadMax (ds : List Dyad) (a : Dyad) : a.rat ≤ (ds.foldl dyadMax a).rat ∧
    (∀ d ∈ ds, d.rat ≤ (ds.foldl dyadMax a).rat) ∧ (ds.foldl dyadMax a = a ∨ ds.foldl dyadMax a ∈ ds) := by
  induction ds generalizing a with
  | nil => exact ⟨le_rfl, fun d hd => absurd hd List.not_mem_nil, Or.inl rfl⟩
  | cons b ds ih =>
    obtain ⟨ha, hb, hab⟩ := dyadMax_cases a b
    obtain ⟨h1, h2, h3⟩ := ih (dyadMax a b)
    refine ⟨ha.trans h1, fun d hd => ?_, ?_⟩
    · rcases List.mem_cons.mp hd with rfl | hd
      · exact hb.trans h1
      · exact h2 d hd
    · rw [List.foldl_cons, List.mem_cons]
      rcases h3 with h | h
      · rw [h]
        exact hab.imp id Or.inl
      · exact Or.inr (Or.inr h)

theorem log_cast {q : Rat} (hq : 0 < q) : Int.log 2 (q : Real) = Int.log 2 q := by
  have hq' : (0 : Real) < q := by exact_mod_cast hq
  refine eq_of_forall_le_iff fun z => ?_
  rw [← Int.zpow_le_iff_le_log (by norm_num) hq', ← Int.zpow_le_iff_le_log (by norm_num) hq,
    ← Rat.cast_le (K := Real)]
  push_cast
  rfl

/-- The exponent of a positive number. -/
theorem log_of_dyad {d : Dyad} (h : 0 < d.rat) : (d.m.natAbs.log2 : Int) + d.e = Int.log 2 d.rat := by
  have hm : 0 < d.m := by
    by_contra hle
    have : (d.m : Rat) ≤ 0 := by exact_mod_cast not_lt.mp hle
    exact absurd h (not_lt.mpr (mul_nonpos_of_nonpos_of_nonneg this (two_zpow_pos d.e).le))
  have hcast : ((d.m.natAbs : Nat) : Real) = d.m := by rw [Nat.cast_natAbs, abs_of_pos hm]
  have hmeans : Approx.Means { n := d.m.natAbs, e := d.e, sticky := false } (d.rat : Rat) := by
    refine ⟨Int.natAbs_pos.mpr hm.ne', fun _ => ?_, fun h => by cases h⟩
    dsimp only
    rw [hcast]
    unfold Dyad.rat
    push_cast
    rfl
  rw [← log_cast h, Approx.log_eq hmeans]
  rfl

/-! ### A block (R208) -/

section
variable (four : Bool) (k : Nat) (x : Nat → Option Num)

/-- The numbers of a block, its largest magnitude and its larger exponent. -/
def blockPresent : List Num := ((List.range 32).map x).filterMap id
def blockTop : Dyad := ((blockPresent x).map fun v => { v.dyad with m := v.dyad.m.natAbs }).foldl dyadMax Dyad.zero
def blockExponent : Int :=
  if (blockPresent x).any Num.isInf then 254
  else if (blockTop x).m = 0 then 1
  else max 1 (min 254 (((blockTop x).m.natAbs.log2 : Int) + (blockTop x).e + 127))

/-- What a place of a block without NaNs converts to. -/
def placeIn (e0 e1 : Nat) : Option Num → Nat × Flags
  | some v => bxElem four e0 e1 v
  | none => (0, 0)
def blockElement (j : Nat) : Nat × Flags :=
  placeIn four (max (blockExponent x - k) 0).toNat (blockExponent x).toNat (x j)

theorem bxConvert_nan (h : (blockPresent x).any Num.isNan = true) :
    bxConvert four k ((List.range 32).map x) =
      { e0 := 0xFF, e1 := 0xFF, elems := (List.range 32).map fun _ => 0, flags := 0 } := by
  have hzero : ((List.range 32).map x).map (fun _ => 0) = (List.range 32).map fun _ => 0 := List.map_map
  rw [← hzero]
  exact if_pos h

theorem bxConvert_numbers (h : (blockPresent x).any Num.isNan = false) :
    bxConvert four k ((List.range 32).map x) =
      { e0 := (max (blockExponent x - k) 0).toNat, e1 := (blockExponent x).toNat
        elems := ((List.range 32).map (blockElement four k x)).map (·.1)
        flags := orFlags (((List.range 32).map (blockElement four k x)).map (·.2)) } := by
  have helems : ((List.range 32).map x).map (placeIn four (max (blockExponent x - k) 0).toNat (blockExponent x).toNat) =
      (List.range 32).map (blockElement four k x) := List.map_map
  rw [← helems]
  exact if_neg (Bool.eq_false_iff.mp h)

variable {x}

theorem mem_blockPresent {v : Num} : v ∈ blockPresent x ↔ ∃ j, j < 32 ∧ x j = some v := by
  unfold blockPresent
  simp

theorem any_blockPresent {t : Num → Bool} : (blockPresent x).any t = true ↔ ∃ j v, j < 32 ∧ x j = some v ∧ t v = true := by
  rw [List.any_eq_true]
  constructor
  · rintro ⟨v, hv, ht⟩
    obtain ⟨j, hj, hx⟩ := mem_blockPresent.mp hv
    exact ⟨j, v, hj, hx, ht⟩
  · rintro ⟨j, v, hj, hx, ht⟩
    exact ⟨v, mem_blockPresent.mpr ⟨j, hj, hx⟩, ht⟩

theorem quantity_eq_nan {v : Num} {s : Bool} : v.quantity = .nan s ↔ v = .nan s := by
  cases v <;> simp [Num.quantity]

theorem quantity_eq_infinite {v : Num} {n : Bool} : v.quantity = .infinite n ↔ v = .inf n := by
  cases v <;> simp [Num.quantity]

/-- A place that holds a NaN. -/
theorem exists_nan_iff : (∃ j s, j < 32 ∧ (x j).map Num.quantity = some (.nan s)) ↔ (blockPresent x).any Num.isNan = true := by
  simp only [any_blockPresent, Option.map_eq_some_iff, quantity_eq_nan]
  constructor
  · rintro ⟨j, s, hj, v, hx, rfl⟩
    exact ⟨j, _, hj, hx, rfl⟩
  · rintro ⟨j, v, hj, hx, hv⟩
    cases v with
    | nan s => exact ⟨j, s, hj, _, hx, rfl⟩
    | inf n => cases hv
    | fin n m e => cases hv

/-- A place that holds an infinity. -/
theorem exists_inf_iff : (∃ j n, j < 32 ∧ (x j).map Num.quantity = some (.infinite n)) ↔ (blockPresent x).any Num.isInf = true := by
  simp only [any_blockPresent, Option.map_eq_some_iff, quantity_eq_infinite]
  constructor
  · rintro ⟨j, n, hj, v, hx, rfl⟩
    exact ⟨j, _, hj, hx, rfl⟩
  · rintro ⟨j, v, hj, hx, hv⟩
    cases v with
    | inf n => exact ⟨j, n, hj, _, hx, rfl⟩
    | nan s => cases hv
    | fin n m e => cases hv

theorem abs_dyad_rat (d : Dyad) : ({ d with m := d.m.natAbs } : Dyad).rat = |d.rat| := by
  unfold Dyad.rat
  rw [abs_mul, abs_of_pos (two_zpow_pos d.e)]
  push_cast
  rfl

theorem dyad_of_quantity {v : Num} {n : Bool} {q : Rat} (h : v.quantity = .exact n q) : v.dyad.rat = q := by
  cases v with
  | nan s => cases h
  | inf m => cases h
  | fin m a e =>
    rw [Num.dyad_rat]
    exact (Quantity.exact.inj h).2

/-- What is no finite number counts as zero. -/
theorem dyad_or_quantity (v : Num) : v.dyad.rat = 0 ∨ ∃ n, v.quantity = .exact n v.dyad.rat := by
  cases v with
  | nan s => exact Or.inl (by simp [Num.dyad, Dyad.rat, Dyad.zero])
  | inf n => exact Or.inl (by simp [Num.dyad, Dyad.rat, Dyad.zero])
  | fin n m e => exact Or.inr ⟨n, by rw [Num.dyad_rat]; rfl⟩

/-- The largest magnitude is at least each of them, and is zero or one of them. -/
theorem blockTop_spec : (∀ j v, j < 32 → x j = some v → |v.dyad.rat| ≤ (blockTop x).rat) ∧
    ((blockTop x).rat = 0 ∨ ∃ j v, j < 32 ∧ x j = some v ∧ (blockTop x).rat = |v.dyad.rat|) := by
  obtain ⟨-, hge, hmem⟩ := foldl_dyadMax ((blockPresent x).map fun v => { v.dyad with m := v.dyad.m.natAbs }) Dyad.zero
  refine ⟨fun j v hj hx => ?_, hmem.imp (fun h => ?_) fun h => ?_⟩
  · rw [← abs_dyad_rat]
    exact hge _ (List.mem_map_of_mem (mem_blockPresent.mpr ⟨j, hj, hx⟩))
  · unfold blockTop
    rw [h]
    simp [Dyad.rat, Dyad.zero]
  · obtain ⟨v, hv, htop⟩ := List.mem_map.mp h
    obtain ⟨j, hj, hx⟩ := mem_blockPresent.mp hv
    refine ⟨j, v, hj, hx, ?_⟩
    rw [← abs_dyad_rat, htop]
    rfl

theorem blockExponent_range : 1 ≤ blockExponent x ∧ blockExponent x ≤ 254 := by
  unfold blockExponent
  split_ifs <;> omega

/-- The larger exponent of a block with an infinity, of a block of zeros, and of others (R208). -/
theorem blockExponent_inf (h : (blockPresent x).any Num.isInf = true) : blockExponent x = 254 := if_pos h

theorem blockExponent_zeros (h : (blockPresent x).any Num.isInf = false)
    (h0 : ∀ j v n, j < 32 → (x j).map Num.quantity = some (.exact n v) → v = 0) : blockExponent x = 1 := by
  have htop : (blockTop x).rat = 0 := by
    rcases blockTop_spec.2 with h | ⟨j, v, hj, hx, h⟩
    · exact h
    · rw [h, abs_eq_zero]
      rcases dyad_or_quantity v with hz | ⟨n, hq⟩
      · exact hz
      · exact h0 j _ n hj (by rw [hx, Option.map_some, hq])
  unfold blockExponent
  rw [if_neg (Bool.eq_false_iff.mp h), if_pos ((Dyad.rat_eq_zero _).mp htop)]

theorem blockExponent_largest {j : Nat} {n : Bool} {v : Rat} (h : (blockPresent x).any Num.isInf = false) (hj : j < 32)
    (hx : (x j).map Num.quantity = some (.exact n v)) (hv : v ≠ 0)
    (hmax : ∀ i m w, i < 32 → (x i).map Num.quantity = some (.exact m w) → |w| ≤ |v|) :
    blockExponent x = max 1 (min 254 (Int.log 2 |v| + 127)) := by
  obtain ⟨u, hu, hq⟩ := Option.map_eq_some_iff.mp hx
  have hpos : 0 < |v| := abs_pos.mpr hv
  have hle : |v| ≤ (blockTop x).rat := by
    rw [← dyad_of_quantity hq]
    exact blockTop_spec.1 j u hj hu
  have htop : (blockTop x).rat = |v| := by
    refine le_antisymm ?_ hle
    rcases blockTop_spec.2 with h | ⟨i, w, hi, hw, h⟩
    · rw [h]
      exact hpos.le
    · rw [h]
      rcases dyad_or_quantity w with hz | ⟨m, hqw⟩
      · rw [hz, abs_zero]
        exact hpos.le
      · exact hmax i m _ hi (by rw [hw, Option.map_some, hqw])
  have hm : (blockTop x).m ≠ 0 := fun h0 => by
    rw [(Dyad.rat_eq_zero _).mpr h0] at htop
    exact hpos.ne htop
  unfold blockExponent
  rw [if_neg (Bool.eq_false_iff.mp h), if_neg hm, log_of_dyad (htop ▸ hpos), htop]

theorem placeIn_spec (e0 e1 : Nat) {o : Option Num} (ho : ∀ v, o = some v → v.isNan = false) :
    (∀ q, o.map Num.quantity = some q → BlockElement four e0 e1 q (placeIn four e0 e1 o).1 (placeIn four e0 e1 o).2) ∧
      (o.map Num.quantity = none → (placeIn four e0 e1 o).2 = 0) ∧ (placeIn four e0 e1 o).1 < 4 * (blockMax four + 1) := by
  cases o with
  | none => exact ⟨fun q h => (by cases h), fun _ => rfl, Nat.mul_pos (by decide) (Nat.succ_pos _)⟩
  | some v =>
    obtain ⟨hb, hlt⟩ := bxElem_spec four e0 e1 (ho v rfl)
    exact ⟨fun q h => Option.some.inj h ▸ hb, fun h => (by cases h), hlt⟩

theorem getD_map_range {α : Type} (g : Nat → α) (d : α) {n j : Nat} (hj : j < n) : ((List.range n).map g).getD j d = g j := by
  simp [List.getD_eq_getElem?_getD, hj]

/-- A block of 32 places converts as R208 says, and its exponents and elements fit their fields. -/
theorem bxConvert_spec {r : BxBlock} (hr : bxConvert four k ((List.range 32).map x) = r) :
    BlockConverts four k (fun j => (x j).map Num.quantity) r.e0 r.e1 (fun j => r.elems.getD j 0) r.flags ∧
      r.e0 < 256 ∧ r.e1 < 256 ∧ r.elems.length = 32 ∧ ∀ j, j < 32 → r.elems.getD j 0 < 4 * (blockMax four + 1) := by
  cases hnan : (blockPresent x).any Num.isNan with
  | true =>
    rw [bxConvert_nan four k x hnan] at hr
    subst hr
    have hzero j (hj : j < 32) : ((List.range 32).map fun _ => 0).getD j 0 = 0 := getD_map_range _ 0 hj
    refine ⟨⟨fun _ => ⟨rfl, rfl, hzero, rfl⟩, fun h => absurd (exists_nan_iff.mpr hnan) h⟩, by decide, by decide, by simp, ?_⟩
    intro j hj
    dsimp only
    rw [hzero j hj]
    exact Nat.mul_pos (by decide) (Nat.succ_pos _)
  | false =>
    rw [bxConvert_numbers four k x hnan] at hr
    subst hr
    obtain ⟨hlo, hhi⟩ := blockExponent_range (x := x)
    have hno : ¬∃ j s, j < 32 ∧ (x j).map Num.quantity = some (.nan s) := fun h =>
      Bool.false_ne_true (hnan.symm.trans (exists_nan_iff.mp h))
    have hisNan j (hj : j < 32) v (hv : x j = some v) : v.isNan = false := by
      refine Bool.eq_false_iff.mpr fun h => Bool.false_ne_true (hnan.symm.trans ?_)
      exact any_blockPresent.mpr ⟨j, v, hj, hv, h⟩
    have hinf (h : ¬∃ j n, j < 32 ∧ (x j).map Num.quantity = some (.infinite n)) : (blockPresent x).any Num.isInf = false :=
      Bool.eq_false_iff.mpr fun ht => h (exists_inf_iff.mpr ht)
    have helem j (hj : j < 32) : (((List.range 32).map (blockElement four k x)).map (·.1)).getD j 0 = (blockElement four k x j).1 := by
      rw [List.map_map]
      exact getD_map_range _ 0 hj
    have hplace j (hj : j < 32) := placeIn_spec four (max (blockExponent x - k) 0).toNat (blockExponent x).toNat (hisNan j hj)
    refine ⟨⟨fun h => absurd h hno, fun _ => ⟨fun h => ?_, fun h h0 => ?_, fun j n v h hj hx hv hmax => ?_, ?_,
      fun j => (blockElement four k x j).2, fun j q hj hx => ?_, fun j hj hx => (hplace j hj).2.1 hx, ?_⟩⟩, ?_, ?_, by simp,
      fun j hj => ?_⟩
    · dsimp only
      rw [blockExponent_inf (exists_inf_iff.mp h)]
      rfl
    · dsimp only
      rw [blockExponent_zeros (hinf h) fun j v n => h0 j v n]
      rfl
    · dsimp only
      rw [Int.toNat_of_nonneg (by omega)]
      exact blockExponent_largest (hinf h) hj hx hv hmax
    · dsimp only
      omega
    · dsimp only
      rw [helem j hj]
      exact (hplace j hj).1 q hx
    · dsimp only
      rw [List.map_map]
      rfl
    · dsimp only
      omega
    · dsimp only
      omega
    · dsimp only
      rw [helem j hj]
      exact (hplace j hj).2.2

end

end Sys2Proof.Machine
end

section
/-!
CVTBX and CVTXB (R236, R237): the blocks that the lanes of a path form, and O42.
-/
namespace Sys2Proof.Machine
open Sys2Proof.Claims

/-! ### The places of a block (R236) -/

theorem operandGroup_length {s : State} {p : Path} {i v perm : Nat} {tags : List Tag} {xs : List Operand}
    (h : s.operandGroup p i v perm tags = .ok xs) : xs.length = tags.length := by
  unfold State.operandGroup at h
  dsimp only at h
  cases hc : (s.troupe p).checkSource p i ((List.range tags.length).map fun n => (v + n, fun g => g == tags.getD n .undef)) with
  | error e =>
    rw [hc] at h
    cases h
  | ok u =>
    rw [hc] at h
    cases h
    simp

/-- Lists of one length, one after the other, counted through. -/
theorem flatMap_range_map {α β : Type} (os : List α) (d : α) (F : Nat → α → β) (w : Nat) :
    ((List.range w).flatMap fun j => os.map (F j)) =
      (List.range (w * os.length)).map fun i => F (i / os.length) (os.getD (i % os.length) d) := by
  have hlist (g : α → β) : os.map g = (List.range os.length).map fun i => g (os.getD i d) := by
    apply List.ext_getElem
    · simp
    · intro i h1 h2
      have hi : i < os.length := by simpa using h1
      simp [List.getD_eq_getElem?_getD, hi]
  induction w with
  | zero => simp
  | succ w ih =>
    rw [List.range_succ, List.flatMap_append, ih, Nat.succ_mul, List.range_add, List.map_append, List.map_map]
    simp only [List.flatMap_cons, List.flatMap_nil, List.append_nil, hlist (F w)]
    congr 1
    refine List.map_congr_left fun i hi => ?_
    have hlt : i < os.length := List.mem_range.mp hi
    have hpos : 0 < os.length := by omega
    simp only [Function.comp_apply]
    rw [Nat.mul_comm w, Nat.mul_add_div hpos, Nat.div_eq_of_lt hlt, Nat.mul_add_mod, Nat.mod_eq_of_lt hlt, Nat.add_zero]

/-- What place `j` of lane `l`'s block holds (R236). -/
def blockPlace (p : Path) (os : List Operand) (l j : Nat) : Option Num :=
  let lane := l / (32 / os.length) * (32 / os.length) + j / os.length
  if p.active.has lane then
    some (f32.value ((os.getD (j % os.length) { tag := .f32, lanes := [] }).at lane).toNat)
  else none

theorem blockOf_eq (four : Bool) (k : Nat) (p : Path) {os : List Operand} (hos : FillsLane os.length) (l : Nat) :
    blockOf four k p os l = bxConvert four k ((List.range 32).map (blockPlace p os l)) := by
  unfold blockOf
  dsimp only
  congr 1
  have h := flatMap_range_map os { tag := .f32, lanes := [] } (fun j o =>
    if p.active.has (l / (32 / os.length) * (32 / os.length) + j) then
      some (f32.value (o.at (l / (32 / os.length) * (32 / os.length) + j)).toNat) else none) (32 / os.length)
  rw [hos.2] at h
  exact h

theorem blockPlace_quantity (p : Path) (os : List Operand) (l j : Nat) :
    (blockPlace p os l j).map Num.quantity =
      let lane := l / (32 / os.length) * (32 / os.length) + j / os.length
      if p.active.has lane then
        some (f32.quantity ((os.getD (j % os.length) { tag := .f32, lanes := [] }).at lane).toNat)
      else none := by
  unfold blockPlace
  dsimp only
  split
  · rw [Option.map_some, f32.quantity_value]
  · rfl

/-- A run of a list, counted through. -/
theorem take_drop_range (xs : List Nat) {a n : Nat} (h : a + n ≤ xs.length) :
    (xs.drop a).take n = (List.range n).map fun i => xs.getD (a + i) 0 := by
  apply List.ext_getElem
  · simp
    omega
  · intro i h1 h2
    have hi : i < n := by simpa using h2
    have hai : a + i < xs.length := by omega
    simp [List.getD_eq_getElem?_getD, hai]

/-- Registers per lane of a block, which fill it (R236). -/
def blockRegs (four : Bool) : Nat := if four then 8 else 4

theorem blockRegs_fills (four : Bool) : FillsLane (blockRegs four) := by
  cases four <;> exact ⟨by decide, by decide⟩

/-- A lane's elements of a block (R236). -/
theorem blockWord_elem {four : Bool} {l i : Nat} {r : BxBlock} (hlen : r.elems.length = 32)
    (hlt : ∀ j, j < 32 → r.elems.getD j 0 < 4 * (blockMax four + 1)) (hi : i < blockRegs four) :
    elemAt (32 / blockRegs four) (blockWord four (blockRegs four) l r) i =
      r.elems.getD (blockRegs four * (l % (32 / blockRegs four)) + i) 0 := by
  have hw : FillsLane (32 / blockRegs four) := by cases four <;> exact ⟨by decide, by decide⟩
  have hn : 32 / (32 / blockRegs four) = blockRegs four := by cases four <;> rfl
  have hbits : (if four then 4 else 8) = 32 / blockRegs four := by cases four <;> rfl
  have hmax : 4 * (blockMax four + 1) = 2 ^ (32 / blockRegs four) := by cases four <;> rfl
  have hlane : l % (32 / blockRegs four) + 1 ≤ 32 / blockRegs four := Nat.mod_lt _ hw.1
  have hall : blockRegs four * (l % (32 / blockRegs four)) + blockRegs four ≤ 32 := by
    rw [← Nat.mul_succ]
    exact (Nat.mul_le_mul_left _ hlane).trans (by rw [Nat.mul_comm, (blockRegs_fills four).2])
  unfold blockWord
  rw [take_drop_range r.elems (hlen ▸ hall), hbits]
  have h := joinElems_elem hw.1 hw.2 (fun i => r.elems.getD (blockRegs four * (l % (32 / blockRegs four)) + i) 0) (hn ▸ hi)
  rw [hn] at h
  rw [h, Nat.mod_eq_of_lt]
  exact hmax ▸ hlt _ (by omega)

/-! ### CVTBX (R236) -/

/-- CVTBX ends by writing each lane's elements of its block and the block's exponents. -/
theorem exec_cvtbx_block {h : Head} {f : RForm} {s s1 s2 : State} {p : Path} {os : List Operand}
    (b : Begins (.cvtbx h f) h f.len.bytes s p s1 s2)
    (hr : s2.operandGroup p 0 f.a.toNat 0 (List.replicate (blockRegs (f.sub.getLsbD 0)) .f32) = .ok os)
    (hd : (s2.troupe p).checkDest p [f.d.toNat, f.d.toNat + 1] = .ok ()) :
    let four := f.sub.getLsbD 0
    let r := blockOf four (2 * (f.sub.toNat / 2 % 4) + 2) p os
    exec (.cvtbx h f) s = .next ((groupWritten s2 p f.d.toNat
      [(if four then .bx4x8 else .bx8x4, fun l => blockWord four (blockRegs four) l (r l)),
       (.n32, fun l => BitVec.ofNat 32 ((r l).e0 + 256 * (r l).e1))]
      (orFlags (p.active.lanes.map fun l => (r l).flags))).logUndo p.at_ s1) := by
  intro four r
  refine (exec_cvtbx h f s).trans (runThread_ok b ((Exe.bind_of_ok hr).trans ?_))
  exact State.finishGroup_ok (vs := [(if four then .bx4x8 else .bx8x4, fun l => blockWord four (blockRegs four) l (r l)),
    (.n32, fun l => BitVec.ofNat 32 ((r l).e0 + 256 * (r l).e1))]) [] (fun l => (r l).flags) hd

/-- The block that a lane takes part in converts as R208 says, and the lane holds its elements of it. -/
theorem block_converts {four : Bool} {k : Nat} {p : Path} {os : List Operand} (hos : os.length = blockRegs four) (l : Nat) :
    let r := blockOf four k p os l
    BlockConverts four k (fun j => (blockPlace p os l j).map Num.quantity) r.e0 r.e1 (fun j => r.elems.getD j 0) r.flags ∧
      (BitVec.ofNat 32 (r.e0 + 256 * r.e1)).toNat = r.e0 + 256 * r.e1 ∧
      ∀ i, i < blockRegs four → elemAt (32 / blockRegs four) (blockWord four (blockRegs four) l r) i =
        r.elems.getD (blockRegs four * (l % (32 / blockRegs four)) + i) 0 := by
  intro r
  have hr : bxConvert four k ((List.range 32).map (blockPlace p os l)) = r :=
    (blockOf_eq four k p (hos ▸ blockRegs_fills four) l).symm
  obtain ⟨hconv, he0, he1, hlen, hlt⟩ := bxConvert_spec four k hr
  refine ⟨hconv, ?_, fun i hi => blockWord_elem hlen hlt hi⟩
  rw [BitVec.toNat_ofNat]
  exact Nat.mod_eq_of_lt (by omega)

/-! ### CVTXB (R237) -/

/-- Element `i` of lane `l` of a block's registers, as an F32. -/
def blockDecoded (four : Bool) (x : Operand × Operand) (i l : Nat) : Word :=
  BitVec.ofNat 32 (f32.convert 1 (bxValue four (elemAt 8 (x.2.at l) 0) (elemAt 8 (x.2.at l) 1)
    (elemAt (32 / blockRegs four) (x.1.at l) i))).bits

theorem exec_cvtxb_decoded {h : Head} {f : RForm} {s s1 s2 : State} {p : Path} {x : Operand × Operand}
    (b : Begins (.cvtxb h f) h f.len.bytes s p s1 s2)
    (hr : s2.readPair p 0 f.a.toNat f.pa.toNat (if f.sub.getLsbD 0 then .bx4x8 else .bx8x4) .n32 = .ok x)
    (hd : (s2.troupe p).checkDest p ((List.range (blockRegs (f.sub.getLsbD 0))).map fun i => f.d.toNat + i) = .ok ()) :
    exec (.cvtxb h f) s = .next ((groupWritten s2 p f.d.toNat
      ((List.range (blockRegs (f.sub.getLsbD 0))).map fun i => (.f32, blockDecoded (f.sub.getLsbD 0) x i)) 0).logUndo p.at_ s1) := by
  refine (exec_cvtxb h f s).trans (runThread_ok b ((Exe.bind_of_ok hr).trans ?_))
  refine State.finishGroup_plain (vs := (List.range (blockRegs (f.sub.getLsbD 0))).map fun i =>
    (.f32, blockDecoded (f.sub.getLsbD 0) x i)) [] ?_
  rw [List.length_map, List.length_range, List.range'_eq_map_range]
  exact hd

section
variable {four : Bool} {e0 e1 b : Nat}

/-- An element of a block with an exponent of 0xFF is a NaN. -/
theorem bxValue_nan (h : e0 = 0xFF ∨ e1 = 0xFF) : bxValue four e0 e1 b = .nan false :=
  if_pos (by simpa using h)

theorem bxValue_zero (h : ¬(e0 = 0xFF ∨ e1 = 0xFF)) (hm : b % (blockMax four + 1) = 0) :
    bxValue four e0 e1 b = .fin false 0 0 :=
  (if_neg (by simpa using h)).trans (if_pos hm)

theorem bxValue_number (h : ¬(e0 = 0xFF ∨ e1 = 0xFF)) (hm : b % (blockMax four + 1) ≠ 0) :
    bxValue four e0 e1 b = .fin (decide (b / (blockMax four + 1) % 2 = 1)) (b % (blockMax four + 1))
      (((if b / (2 * (blockMax four + 1)) % 2 = 1 then e1 else e0 : Nat) : Int) - blockT four) := by
  refine (if_neg (by simpa using h)).trans ((if_neg hm).trans ?_)
  rw [Nat.cast_ite]
  simp only [beq_iff_eq, blockMax_eq, blockT_eq]
  rfl

end

/-- A decoded element is the canonical NaN, zero, or exactly the number that the element stands for (R207). -/
theorem bxValue_decoded (four : Bool) {e0 e1 : Nat} (h0 : e0 < 256) (h1 : e1 < 256) (b : Nat) :
    let m := b % (blockMax four + 1)
    let neg := b / (blockMax four + 1) % 2 = 1
    let e := if b / (2 * (blockMax four + 1)) % 2 = 1 then e1 else e0
    let value : Rat := m * 2 ^ ((e : Int) - blockT four)
    let v := (f32.convert 1 (bxValue four e0 e1 b)).bits
    if e0 = 0xFF ∨ e1 = 0xFF then v = f32.nan
    else if m = 0 then v = 0
    else f32.Finite v ∧ f32.rat v = if neg then -value else value := by
  intro m neg e value v
  by_cases hnan : e0 = 0xFF ∨ e1 = 0xFF
  · rw [if_pos hnan]
    exact congrArg (fun u => (f32.convert 1 u).bits) (bxValue_nan hnan)
  rw [if_neg hnan]
  by_cases hm : m = 0
  · rw [if_pos hm]
    exact congrArg (fun u => (f32.convert 1 u).bits) (bxValue_zero hnan hm)
  rw [if_neg hm]
  have he : e ≤ 254 := by
    dsimp only [e]
    split_ifs <;> omega
  have hle : m ≤ blockMax four := Nat.le_of_lt_succ (Nat.mod_lt b (Nat.succ_pos _))
  have hv : v = (f32.deliver 1 true (.fin (decide neg) m ((e : Int) - blockT four))).bits :=
    congrArg (fun u => (f32.convert 1 u).bits) (bxValue_number hnan hm)
  obtain ⟨hfin, hrat⟩ := block_exact (neg := decide neg) (Nat.pos_of_ne_zero hm) hle he
  rw [← hv] at hfin hrat
  exact ⟨hfin, hrat.trans (if_congr decide_eq_true_iff rfl rfl)⟩

theorem blockDecoded_spec (four : Bool) (x : Operand × Operand) (i l : Nat) :
    let b := elemAt (32 / blockRegs four) (x.1.at l) i
    let m := b % (blockMax four + 1)
    let neg := b / (blockMax four + 1) % 2 = 1
    let e0 := elemAt 8 (x.2.at l) 0
    let e1 := elemAt 8 (x.2.at l) 1
    let e := if b / (2 * (blockMax four + 1)) % 2 = 1 then e1 else e0
    let value : Rat := m * 2 ^ ((e : Int) - blockT four)
    let w := blockDecoded four x i l
    if e0 = 0xFF ∨ e1 = 0xFF then w.toNat = f32.nan
    else if m = 0 then w = 0
    else f32.Finite w.toNat ∧ f32.rat w.toNat = if neg then -value else value := by
  intro b m neg e0 e1 e value w
  have hw : w.toNat = (f32.convert 1 (bxValue four e0 e1 b)).bits := f32_deliver_toNat _
  have hzero : w = 0 ↔ w.toNat = 0 := BitVec.toNat_inj.symm
  rw [hzero, hw]
  exact bxValue_decoded four (Nat.mod_lt _ (by decide)) (Nat.mod_lt _ (by decide)) b

/-- Settles O42: a block's conversion place by place, and an element's decoding. -/
theorem blockConversions : Obligations.BlockConversions := by
  unfold Obligations.BlockConversions
  refine ⟨?_, ?_⟩
  · intro h f s p s1 s2 xs b four n lanes hr hd
    have hxs : xs.length = blockRegs four := (operandGroup_length hr).trans List.length_replicate
    refine ⟨_, _, _, exec_cvtbx_block b hr hd, fun l _ => ?_⟩
    obtain ⟨hconv, hexp, helem⟩ := block_converts (k := 2 * (f.sub.toNat / 2 % 4) + 2) (p := p) hxs l
    simp only [blockPlace_quantity, hxs] at hconv
    exact ⟨_, _, _, hconv, hexp, helem⟩
  · intro h f s p s1 s2 x b four n hr hd
    refine ⟨_, exec_cvtxb_decoded b hr hd, fun l i _ _ => ?_⟩
    exact blockDecoded_spec four x i l

end Sys2Proof.Machine
end

section
/-!
Minima, signs, compares, classes, integral values and scales (R221 to R226): what each operation of Machine/Numbers.lean
answers for one element, and O37.
-/
namespace Sys2Proof.Machine
open Sys2Proof.Claims

/-! ### Encodings that fit an element -/

theorem vfmt_signBit (n : Nat) : 2 ^ (vfmt n).width = 2 * (vfmt n).fmt.signBit := by
  unfold vfmt
  split <;> rfl

theorem vfmt_width (n : Nat) : (vfmt n).width = 32 ∨ (vfmt n).width = 16 := by
  unfold vfmt
  split
  · exact Or.inl rfl
  · exact Or.inr rfl
  · exact Or.inr rfl

theorem elemAt_lt_signs (f : RForm) (x : Word) (e : Nat) :
    elemAt (formatOf f).width x e < 2 * (encodingOf f).signBit :=
  lt_of_lt_of_eq (Nat.mod_lt _ (Nat.two_pow_pos _)) (vfmt_signBit _)

/-- An encoding is its sign and its magnitude. -/
theorem FloatFmt.signed_of_lt {f : FloatFmt} {x : Nat} (hx : x < 2 * f.signBit) : f.signed (f.neg x) (x % f.signBit) = x := by
  have hdiv := Nat.div_add_mod x f.signBit
  have hlt : x / f.signBit < 2 := Nat.div_lt_of_lt_mul (by omega)
  unfold FloatFmt.signed FloatFmt.neg
  interval_cases hq : x / f.signBit
  · rw [if_neg (by decide)]
    omega
  · rw [if_pos (by decide)]
    omega

/-! ### Copied signs (R222) -/

theorem FloatFmt.copySign_number {f : FloatFmt} {x : Nat} (h : ¬f.NaN x) (y : Nat) :
    f.copySign x y = { bits := f.signed (f.neg y) (x % f.signBit), flags := 0 } := by
  have hnan : (f.value x).isNan = false := Bool.eq_false_iff.mpr (mt (f.value_isNan x).mp h)
  unfold FloatFmt.copySign FloatFmt.signed FloatFmt.neg
  rcases Nat.mod_two_eq_zero_or_one (y / f.signBit) with hy | hy
  · simp [hnan, hy]
  · simp [hnan, hy, Nat.add_comm]

/-- What FCPYS delivers: the canonical NaN, or the first operand with the second one's sign (R222). -/
def CopiesSign (f : FloatFmt) (x y : Nat) (r : Rounded) : Prop :=
  Propagates f x r ∧ (¬f.NaN x → r.bits % f.signBit = x % f.signBit ∧ f.neg r.bits = f.neg y ∧ r.flags = 0)

theorem FloatFmt.copySign_spec (f : FloatFmt) (x y : Nat) : CopiesSign f x y (f.copySign x y) := by
  have hmag : x % f.signBit < f.signBit := Nat.mod_lt _ (Nat.two_pow_pos _)
  refine ⟨propagates_of_nanOf fun s hv => by simp [FloatFmt.copySign, hv, Num.isNan], fun h => ?_⟩
  rw [FloatFmt.copySign_number h]
  exact ⟨f.signed_mod hmag, f.signed_neg hmag, rfl⟩

/-! ### Compares (R223) -/

/-- The first of two numbers is less; they are equal, as the two zeros are. -/
def FloatFmt.Less (f : FloatFmt) (x y : Nat) : Prop := f.order x < f.order y ∧ ¬(f.Zero x ∧ f.Zero y)
def FloatFmt.Equal (f : FloatFmt) (x y : Nat) : Prop := f.order x = f.order y ∨ f.Zero x ∧ f.Zero y

theorem FloatFmt.less_equal_greater (f : FloatFmt) (x y : Nat) :
    (f.Less x y ∧ ¬f.Equal x y ∧ ¬f.Less y x) ∨ (¬f.Less x y ∧ f.Equal x y ∧ ¬f.Less y x) ∨
      (¬f.Less x y ∧ ¬f.Equal x y ∧ f.Less y x) := by
  unfold FloatFmt.Less FloatFmt.Equal
  rw [And.comm (a := f.Zero y)]
  by_cases hz : f.Zero x ∧ f.Zero y
  · exact Or.inr (Or.inl ⟨fun h => h.2 hz, Or.inr hz, fun h => h.2 hz⟩)
  · simp only [hz, not_false_eq_true, and_true, or_false]
    omega

/-- The machine's test for less. -/
theorem FloatFmt.below_iff {f : FloatFmt} (hf : f.Sane) {x y : Nat} (hx : ¬f.NaN x) (hy : ¬f.NaN y) :
    ((f.value x).below (f.value y) && !((f.value x).isZero && (f.value y).isZero)) = true ↔ f.Less x y := by
  simp only [FloatFmt.Less, Bool.and_eq_true, Bool.not_eq_true', FloatFmt.below_order hf hx hy, Bool.eq_false_iff, ne_eq,
    FloatFmt.value_isZero hf]

/-- The conditions of FCMP between numbers. -/
theorem floatCondition_numbers {f : FloatFmt} {code x y : Nat} (h : ¬(f.NaN x ∨ f.NaN y)) : floatCondition f code x y ↔
    (code = 0 ∧ f.Equal x y) ∨ (code = 1 ∧ ¬f.Equal x y) ∨ (code = 2 ∧ f.Less x y) ∨
      (code = 3 ∧ (f.Less x y ∨ f.Equal x y)) ∨ (code = 4 ∧ ¬f.Less x y ∧ ¬f.Equal x y) ∨
      (code = 5 ∧ ¬f.Less x y) ∨ code = 7 := by
  simp only [floatCondition, h, not_false_eq_true, true_and, and_true, and_false, false_or]
  rfl

theorem FloatFmt.compare_iff {f : FloatFmt} (hf : f.Sane) {code : Nat} (hcode : code < 8) (x y : Nat) :
    (f.compare code x y).1 = true ↔ floatCondition f code x y := by
  have hun : ((f.value x).isNan || (f.value y).isNan) = true ↔ f.NaN x ∨ f.NaN y := by
    rw [Bool.or_eq_true, f.value_isNan, f.value_isNan]
  by_cases h : f.NaN x ∨ f.NaN y
  · have hu := hun.mpr h
    match code, hcode with
    | 0, _ | 1, _ | 2, _ | 3, _ | 4, _ | 5, _ | 6, _ | 7, _ => simp [FloatFmt.compare, floatCondition, hu, h]
  · have hu := Bool.eq_false_iff.mpr (mt hun.mp h)
    obtain ⟨hx, hy⟩ := not_or.mp h
    have hlt := FloatFmt.below_iff hf hx hy
    have hgt := FloatFmt.below_iff hf hy hx
    rw [Bool.and_comm (f.value y).isZero] at hgt
    rw [floatCondition_numbers h]
    simp only [FloatFmt.compare, hu, Bool.not_false, Bool.true_and, Bool.false_or]
    generalize ((f.value x).below (f.value y) && _) = lt at hlt ⊢
    generalize ((f.value y).below (f.value x) && _) = gt at hgt ⊢
    rcases f.less_equal_greater x y with ⟨hl, he, hg⟩ | ⟨hl, he, hg⟩ | ⟨hl, he, hg⟩ <;>
      simp only [hl, hg, iff_true, iff_false, Bool.not_eq_true] at hlt hgt <;>
      match code, hcode with
      | 0, _ | 1, _ | 2, _ | 3, _ | 4, _ | 5, _ | 6, _ | 7, _ => simp [hl, he, hlt, hgt]

/-- A condition under which exceptions are raised. -/
theorem flagIf_of_iff {c : Bool} {P : Prop} (h : c = true ↔ P) (x : Flags) :
    (P → flagIf c x = x) ∧ (¬P → flagIf c x = 0) := by
  refine ⟨fun hp => ?_, fun hp => ?_⟩
  · rw [h.mpr hp]
    rfl
  · rw [Bool.eq_false_iff.mpr (mt h.mp hp)]
    rfl

theorem FloatFmt.compare_flags (f : FloatFmt) (code x y : Nat) :
    let invalid := f.Signalling x ∨ f.Signalling y ∨ (f.NaN x ∨ f.NaN y) ∧ 2 ≤ code ∧ code ≤ 5
    (invalid → (f.compare code x y).2 = flagIE) ∧ (¬invalid → (f.compare code x y).2 = 0) := by
  refine flagIf_of_iff ?_ flagIE
  simp only [Bool.or_eq_true, Bool.and_eq_true, decide_eq_true_eq, f.value_isSnan, f.value_isNan, or_assoc, and_assoc]

/-! ### Classes (R224) -/

theorem classBit_le (f : FloatFmt) (x : Nat) : classBit f x ≤ 9 := by
  unfold classBit
  cases f.neg x <;> dsimp only <;> split_ifs <;> decide

theorem FloatFmt.classOf_eq {f : FloatFmt} (hf : f.Sane) (x : Nat) : f.classOf x = 2 ^ classBit f x := by
  have hinf := FloatFmt.infBits_pos hf
  unfold FloatFmt.classOf classBit
  rcases f.kinds x with h | h | h
  · rw [FloatFmt.value_nan h]
    unfold FloatFmt.NaN at h
    by_cases hs : x % 2 ^ (f.p - 1) < 2 ^ (f.p - 2) <;> simp [h, hs]
  · rw [FloatFmt.value_inf h]
    unfold FloatFmt.Infinite at h
    cases f.neg x <;> simp [h]
  · by_cases h0 : f.Zero x
    · obtain ⟨e, hv⟩ := FloatFmt.value_of_zero hf h0
      rw [hv]
      unfold FloatFmt.Zero at h0
      cases f.neg x <;> simp [h0, hinf.ne]
    · obtain ⟨m, e, hm, hv, -⟩ := FloatFmt.value_of_nonzero h h0
      rw [hv]
      unfold FloatFmt.Finite at h
      unfold FloatFmt.Zero at h0
      by_cases hn : x % f.signBit < 2 ^ (f.p - 1)
      · cases f.neg x <;> simp [h0, hm.ne', h.not_gt, h.ne, hn, hn.not_ge]
      · cases f.neg x <;> simp [h0, hm.ne', h.not_gt, h.ne, hn, not_lt.mp hn]

/-- One or two elements of 16 bits as a lane. -/
theorem joinElems_one {c : Nat} (hc : c < 2 ^ 16) : (joinElems 16 [c]).toNat = c := by
  have h : (joinElems 16 [c]).toNat = (0 + c % 2 ^ 16 * 2 ^ (16 * 0)) % 2 ^ 32 := BitVec.toNat_ofNat ..
  omega

theorem joinElems_two {c d : Nat} (hc : c < 2 ^ 16) (hd : d < 2 ^ 16) : (joinElems 16 [c, d]).toNat = c + 2 ^ 16 * d := by
  have h : (joinElems 16 [c, d]).toNat = (0 + c % 2 ^ 16 * 2 ^ (16 * 0) + d % 2 ^ 16 * 2 ^ (16 * (0 + 1))) % 2 ^ 32 :=
    BitVec.toNat_ofNat ..
  omega

/-- The classes of a lane's elements, 16 bits each (R224). -/
theorem classes_toNat (f : RForm) (x : Word) :
    (joinElems 16 ((List.range (32 / (formatOf f).width)).map fun n =>
      (encodingOf f).classOf (elemAt (formatOf f).width x n))).toNat =
      if (formatOf f).width = 32 then 2 ^ classBit (encodingOf f) x.toNat
      else 2 ^ classBit (encodingOf f) (elemAt 16 x 0) + 2 ^ 16 * 2 ^ classBit (encodingOf f) (elemAt 16 x 1) := by
  have hlt (a : Nat) : 2 ^ classBit (encodingOf f) a < 2 ^ 16 :=
    Nat.pow_lt_pow_right (by decide) (lt_of_le_of_lt (classBit_le _ a) (by decide))
  simp only [FloatFmt.classOf_eq (encodingOf_sane f)]
  rcases vfmt_width (f.sub.toNat % 4) with hw | hw
  · have hw : (formatOf f).width = 32 := hw
    rw [hw, if_pos rfl, ← elemAt_whole x]
    exact joinElems_one (hlt _)
  · have hw : (formatOf f).width = 16 := hw
    rw [hw, if_neg (by decide)]
    exact joinElems_two (hlt _) (hlt _)

/-! ### Integral values (R225) -/

/-- An operand rounded to an integer is a magnitude of the format. -/
theorem FloatFmt.whole_fits {f : FloatFmt} (hw : f.Wide) {x m : Nat} {e : Int} (hx : f.Finite x)
    (hv : f.value x = .fin (f.neg x) m e) (hr : f.rat x = signedRat (f.neg x) (m * 2 ^ e)) (mode : Nat) :
    let q := (Approx.toMultiple { n := m, e := e, sticky := false } mode (f.neg x) 0).1
    ∃ (k : Nat) (d : Int), k < 2 ^ f.p ∧ f.low ≤ d ∧ (k : Rat) * 2 ^ d ≤ f.largest ∧
      (q : Rat) * 2 ^ (0 : Int) = k * 2 ^ d := by
  intro q
  obtain ⟨hm, he, -⟩ := FloatFmt.value_fits hw.sane hv
  rcases le_or_gt 0 e with hpos | hneg
  · refine ⟨m, e, hm, he, ?_, ?_⟩
    · rw [← abs_signedRat (f.neg x) (scaled_nonneg m e), ← hr]
      exact FloatFmt.abs_rat_le hx
    · have hq : q = m <<< (e - 0).toNat := congrArg Prod.fst (Approx.toMultiple_below hpos)
      rw [hq, Nat.shiftLeft_eq, sub_zero, zpow_zero, mul_one]
      push_cast
      rw [← zpow_natCast, Int.toNat_of_nonneg hpos]
  · obtain ⟨s, hs⟩ : ∃ s : Nat, 0 - e = s + 1 := ⟨(-e - 1).toNat, by omega⟩
    have hle : q ≤ m / 2 ^ (s + 1) + 1 := Approx.toMultiple_le hs
    have hhalf : m / 2 ^ (s + 1) ≤ m / 2 := Nat.div_le_div_left (Nat.le_self_pow (by omega) 2) (by decide)
    have hp : 2 ^ 2 ≤ 2 ^ f.p := Nat.pow_le_pow_right (by decide) hw.sane.1
    have hlt : q < 2 ^ f.p := by omega
    refine ⟨q, 0, hlt, hw.low, ?_, rfl⟩
    rw [zpow_zero, mul_one]
    exact le_trans (by exact_mod_cast hlt.le) hw.whole

/-- A rounded operand is delivered exactly, with the operand's sign. -/
theorem FloatFmt.deliver_whole {f : FloatFmt} (hw : f.Wide) {n : Bool} {q k : Nat} {d : Int} (hk : k < 2 ^ f.p) (hd : f.low ≤ d)
    (hl : (k : Rat) * 2 ^ d ≤ f.largest) (hq : (q : Rat) * 2 ^ (0 : Int) = k * 2 ^ d) :
    let r := f.deliver 1 false (.fin n q 0)
    f.Finite r.bits ∧ f.rat r.bits = signedRat n q ∧ f.neg r.bits = n := by
  have hval : (k : Rat) * 2 ^ d = q := by rw [← hq, zpow_zero, mul_one]
  rcases Nat.eq_zero_or_pos q with rfl | hpos
  · refine ⟨(f.signed_zero n).finite hw.sane, ?_, f.signed_neg (Nat.two_pow_pos _)⟩
    exact ((f.rat_eq_zero _).mpr (f.signed_zero n)).trans (by simp [signedRat])
  · have h0 : 0 < k := Nat.pos_of_ne_zero fun h => hpos.ne' (by
      rw [h, Nat.cast_zero, zero_mul] at hval
      exact_mod_cast hval.symm)
    obtain ⟨hfin, hrat, hneg, -⟩ := FloatFmt.deliver_exact (mode := 1) (sat := false) (neg := n) hw.sane h0 hk hd hl hq
    rw [hval] at hrat
    exact ⟨hfin, hrat, hneg⟩

theorem FloatFmt.integral_spec {f : FloatFmt} (hw : f.Wide) (mode x : Nat) : Integral f mode x (f.integral mode x) := by
  refine ⟨propagates_of_nanOf fun s hv => ?_, fun h => ?_, fun h h0 => ?_⟩
  · unfold FloatFmt.integral
    rw [hv]
  · unfold FloatFmt.integral
    rcases h with h | h
    · rw [FloatFmt.value_inf h]
      exact ⟨rfl, rfl⟩
    · obtain ⟨e, hv⟩ := FloatFmt.value_of_zero hw.sane h
      rw [hv]
      exact ⟨rfl, rfl⟩
  · obtain ⟨m, e, hm, hv, hr⟩ := FloatFmt.value_of_nonzero h h0
    obtain ⟨k, d, hk, hd, hl, hq⟩ := FloatFmt.whole_fits hw h hv hr mode
    obtain ⟨hz, hex⟩ := toMultiple_chosen m e mode (f.neg x) 0
    have hop : f.integral mode x =
        let q := Approx.toMultiple { n := m, e := e, sticky := false } mode (f.neg x) 0
        { f.deliver 1 false (.fin (f.neg x) q.1 0) with flags := flagIf q.2 flagXE } := by
      unfold FloatFmt.integral
      rw [hv]
      exact if_neg hm.ne'
    obtain ⟨hfin, hrat, hneg⟩ := FloatFmt.deliver_whole hw (n := f.neg x) hk hd hl hq
    rw [hop]
    simp only [zpow_zero, mul_one] at hz hex
    refine ⟨hfin, hneg, ?_, ?_⟩
    · rw [hr, signedRat_scaled_cast, hrat, signedRat_cast, Rat.cast_natCast]
      exact hz
    · refine congrArg (flagIf · flagXE) (Bool.eq_iff_iff.mpr ?_)
      rw [hex, decide_eq_true_iff, ne_eq, ne_eq, not_iff_not, hrat, hr, ← Rat.cast_inj (α := Real), signedRat_cast,
        signedRat_scaled_cast, withSign_inj, Rat.cast_natCast]

/-! ### Scales (R226) -/

theorem signedRat_scale (neg : Bool) (m : Nat) (e n : Int) :
    signedRat neg (m * 2 ^ e) * 2 ^ n = signedRat neg (m * 2 ^ (e + n)) := by
  rw [zpow_add₀ (by norm_num)]
  cases neg <;> simp [signedRat, mul_assoc]

theorem FloatFmt.scale_delivers {f : FloatFmt} (hw : f.Wide) (mode : Nat) (sat : Bool) {x : Nat} (hx : x < 2 * f.signBit)
    (n : Int) : f.Delivers mode sat (scaled n (f.quantity x)) (f.scale mode sat x n) := by
  have hbits := FloatFmt.signed_of_lt hx
  rw [FloatFmt.scale_spec hw, f.quantity_value]
  rcases f.kinds x with h | h | h
  · rw [FloatFmt.value_nan h]
    exact ⟨rfl, by simp [FloatFmt.nanOf, Num.isSnan]⟩
  · rw [FloatFmt.value_inf h]
    unfold FloatFmt.Infinite at h
    rw [h] at hbits
    exact ⟨hbits.symm, rfl⟩
  · obtain ⟨m, e, hv, hr⟩ := FloatFmt.value_of_finite h
    rw [hv, Num.quantity_fin, scaled, signedRat_scale]
    by_cases h0 : m = 0
    · have hzero : f.Zero x := (f.rat_eq_zero x).mp (hr.trans (by simp [h0, signedRat]))
      unfold FloatFmt.Zero at hzero
      rw [hzero] at hbits
      simp only [if_pos h0]
      exact ⟨fun _ => ⟨hbits.symm, rfl⟩, fun hne => absurd (by simp [h0, signedRat]) hne⟩
    · simp only [if_neg h0]
      rw [← Num.quantity_fin]
      exact FloatFmt.deliver_spec hw.sane ..

/-! ### The obligation -/

/-- Settles O37: five of the majors are element-wise, FCLASS packs its elements' classes, and FCMP writes a predicate. -/
theorem floatSelection : Obligations.FloatSelection := by
  unfold Obligations.FloatSelection
  refine ⟨?_, ?_, ?_, ?_, ?_, ?_, ?_⟩
  · exact twoFloats_of_vbinary (fun h f s _ => exec_fmin h f s) fun f _ a b =>
      FloatFmt.minMax_selects (encodingOf_sane f) false a b
  · exact twoFloats_of_vbinary (fun h f s _ => exec_fmax h f s) fun f _ a b =>
      FloatFmt.minMax_selects (encodingOf_sane f) true a b
  · exact twoFloats_of_vbinary (R := fun f _ a b r => CopiesSign (encodingOf f) a b r) (fun h f s _ => exec_fcpys h f s)
      fun f _ a b => (encodingOf f).copySign_spec a b
  · exact oneFloat_of_unary (fun f _ x => plainly (joinElems 16 ((List.range (32 / (formatOf f).width)).map fun n =>
      (encodingOf f).classOf (elemAt (formatOf f).width x n)))) exec_fclass fun f _ x => ⟨classes_toNat f x, rfl⟩
  · exact oneFloat_of_vunary exec_frnd fun f m a => FloatFmt.integral_spec (encodingOf_wide f) m a
  · exact twoFloats_of_binary (fun f m x y => (formatOf f).each fun n => (encodingOf f).scale m (modSat f.mod)
      (elemAt (formatOf f).width x n) y.toInt) (fun h f s _ => exec_fscale h f s) fun f m x y _ =>
      floatElements_each f fun e => FloatFmt.scale_delivers (encodingOf_wide f) m _ (elemAt_lt_signs f x e) y.toInt
  · intro h f s p s1 s2 x y b hr
    refine ⟨_, _, (exec_fcmp h f s).trans (runThread_ok b ((Exe.bind_of_ok hr).trans ?_)), fun l _ =>
      ⟨FloatFmt.compare_iff (encodingOf_sane f) (Nat.mod_lt _ (by decide)) _ _, FloatFmt.compare_flags ..⟩⟩
    exact congrArg (fun t : State => Except.ok (t.orFstat p _)) (State.putPred_eq ..)

end Sys2Proof.Machine
end

section
/-!
Double-word arithmetic (R228 to R230): a run of roundings that `DwStep` takes down, what each algorithm of R229 computes with
finite operands, and O39.
-/
namespace Sys2Proof.Machine
open Sys2Proof.Claims

/-! ### Exact results of finite operands -/

theorem product_of_finite {f : FloatFmt} {a b : Nat} (ha : f.Finite a) (hb : f.Finite b) :
    ∃ n, (f.quantity a).product (f.quantity b) = .exact n (f.rat a * f.rat b) := by
  rw [FloatFmt.quantity_finite ha, FloatFmt.quantity_finite hb]
  exact ⟨_, rfl⟩

theorem fused_of_finite {f : FloatFmt} {mode a b c : Nat} (ha : f.Finite a) (hb : f.Finite b) (hc : f.Finite c) :
    ∃ n, ((f.quantity a).product (f.quantity b)).sum mode (f.quantity c) = .exact n (f.rat a * f.rat b + f.rat c) := by
  obtain ⟨m, hm⟩ := product_of_finite ha hb
  rw [hm, FloatFmt.quantity_finite hc]
  exact ⟨_, rfl⟩

/-- A rounding that raised no IE, and whose result is finite where it did not overflow. -/
structure Rounded.Clean (r : Rounded) : Prop where
  valid : r.flags &&& flagIE = 0
  finite : r.flags &&& flagOE = 0 → f32.Finite r.bits

/-- A rounded number is clean. -/
theorem clean_of_delivers {mode : Nat} {n : Bool} {v : Rat} {r : Rounded} (h : f32.Delivers mode false (.exact n v) r) :
    r.Clean := by
  by_cases h0 : v = 0
  · obtain ⟨hbits, hflags⟩ := h.1 h0
    refine ⟨?_, fun _ => ?_⟩
    · rw [hflags]
      rfl
    · rw [hbits]
      exact (f32.signed_zero n).finite f32_sane
  · have hr := h.2 h0
    refine ⟨?_, fun hoe => (finite_of_roundsTo hr hoe).1⟩
    obtain ⟨z, -, hin, hout⟩ := hr
    rcases le_or_gt |z| f32.largest with hle | hgt
    · obtain ⟨-, -, -, hexact, hinexact⟩ := hin hle
      by_cases hz : z = v
      · rw [hexact hz]
        rfl
      · by_cases ht : f32.Tiny mode v
        · rw [(hinexact hz).1 ht]
          rfl
        · rw [(hinexact hz).2 ht]
          rfl
    · rw [((hout hgt).2 rfl).1]
      rfl

theorem add_clean {a b : Nat} (ha : f32.Finite a) (hb : f32.Finite b) : (f32.add 1 false a b).Clean := by
  obtain ⟨n, hn⟩ := sum_of_finite (mode := 1) ha hb
  exact clean_of_delivers (hn ▸ FloatFmt.add_delivers f32_sane 1 false a b)

theorem mul_clean {a b : Nat} (ha : f32.Finite a) (hb : f32.Finite b) : (f32.mul 1 false a b).Clean := by
  obtain ⟨n, hn⟩ := product_of_finite ha hb
  exact clean_of_delivers (hn ▸ FloatFmt.mul_delivers f32_sane 1 false a b)

theorem fma_clean {a b c : Nat} (ha : f32.Finite a) (hb : f32.Finite b) (hc : f32.Finite c) : (f32.fma 1 false a b c).Clean := by
  obtain ⟨n, hn⟩ := fused_of_finite (mode := 1) ha hb hc
  exact clean_of_delivers (hn ▸ FloatFmt.fma_delivers f32_sane 1 false a b c)

/-! ### Results fit their format -/

theorem FloatFmt.mul_le {f : FloatFmt} {mode : Nat} {sat : Bool} (x y : Nat) : (f.mul mode sat x y).bits ≤ f.top := by
  unfold FloatFmt.mul FloatFmt.mulNum
  split
  · exact FloatFmt.nan_le
  · split
    · exact FloatFmt.nan_le
    · exact FloatFmt.deliver_le _

theorem FloatFmt.fma_le {f : FloatFmt} {mode : Nat} {sat : Bool} (x y z : Nat) : (f.fma mode sat x y z).bits ≤ f.top := by
  unfold FloatFmt.fma FloatFmt.fmaNum
  dsimp only
  split
  · exact FloatFmt.nan_le
  · split
    · exact FloatFmt.nan_le
    · split
      · exact FloatFmt.nan_le
      · split
        · exact FloatFmt.nan_le
        · exact FloatFmt.deliver_le _

/-- The sign of an F32. -/
theorem f32_neg_eq {x : Nat} (hx : x ≤ f32.top) : f32.neg x = decide (f32.signBit ≤ x) := by
  have hs : f32.signBit = 2 ^ 31 := rfl
  have ht : f32.top < 2 ^ 32 := by decide
  unfold FloatFmt.neg
  rw [hs, Bool.eq_iff_iff, beq_iff_eq, decide_eq_true_iff]
  omega

/-- The same F32 with the other sign, as the machine forms it for two_prod. -/
theorem f32_opposite_eq {x : Nat} (hx : x ≤ f32.top) :
    (x + f32.signBit) % 2 ^ 32 = if f32.neg x then x - 2 ^ 31 else x + 2 ^ 31 := by
  have hs : f32.signBit = 2 ^ 31 := rfl
  have ht : f32.top < 2 ^ 32 := by decide
  rw [f32_neg_eq hx, hs]
  by_cases h : 2 ^ 31 ≤ x
  · rw [decide_eq_true h, if_pos rfl]
    omega
  · rw [decide_eq_false h, if_neg Bool.false_ne_true]
    omega

theorem f32_finite_opposite {x : Nat} (hx : f32.Finite x) : f32.Finite ((x + f32.signBit) % 2 ^ 32) := by
  have hs : f32.signBit = 2 ^ 31 := rfl
  unfold FloatFmt.Finite at hx ⊢
  rw [hs] at hx ⊢
  omega

/-! ### The notes that `DwStep` takes (R230) -/

/-- What has been noted after some roundings. -/
def dwNotes (steps : List Rounded) : DwStep := steps.foldl DwStep.note DwStep.start

/-- More exceptions. -/
def DwStep.mark (d : DwStep) (x : Flags) : DwStep := { d with flags := d.flags ||| x }

/-- A step overflows; a step is inexact and its result is below the normal range. -/
def Rounded.overflows (r : Rounded) : Bool := r.flags &&& flagOE != 0
def Rounded.underflows (r : Rounded) : Bool := r.flags &&& flagXE != 0 && decide (r.bits % 2 ^ 31 < 2 ^ 23)

/-- The inexact residual of a two_prod. -/
def prodFlag (prod : Option Rounded) : Flags := flagIf (prod.any fun e => e.flags &&& flagXE != 0) flagXINEX

theorem DwStep.mark_zero (d : DwStep) : d.mark 0 = d :=
  congrArg (fun fl => ({ d with flags := fl } : DwStep)) BitVec.or_zero

theorem DwStep.note_of_overflowed {d : DwStep} (h : d.ovf.isSome = true) (r : Rounded) : d.note r = d := if_pos h

theorem DwStep.note_mark (d : DwStep) (x : Flags) (r : Rounded) : (d.mark x).note r = (d.note r).mark x := by
  unfold DwStep.note DwStep.mark
  split
  · rfl
  · simp only [BitVec.or_assoc, BitVec.or_comm x]

/-- After the first step that overflows nothing more is noted. -/
theorem notes_overflow {steps : List Rounded} {r : Rounded} (h : steps.find? Rounded.overflows = some r) {d : DwStep}
    (hd : d.ovf = none) : (steps.foldl DwStep.note d).ovf = some (decide (f32.signBit ≤ r.bits)) := by
  induction steps generalizing d with
  | nil => cases h
  | cons s ss ih =>
    rw [List.foldl_cons]
    by_cases hs : s.overflows = true
    · rw [List.find?_cons_of_pos hs] at h
      obtain rfl := Option.some.inj h
      have hnote : (d.note s).ovf = some (decide (f32.signBit ≤ s.bits)) := by
        unfold DwStep.note
        rw [if_neg (by simp [hd])]
        exact if_pos hs
      have hstay (ts : List Rounded) : ts.foldl DwStep.note (d.note s) = d.note s := by
        induction ts with
        | nil => rfl
        | cons t ts ih => rw [List.foldl_cons, DwStep.note_of_overflowed (by rw [hnote]; rfl), ih]
      rw [hstay, hnote]
    · rw [List.find?_cons_of_neg hs] at h
      refine ih h ?_
      unfold DwStep.note
      rw [if_neg (by simp [hd])]
      exact if_neg hs

/-- Steps that neither overflow nor are invalid leave UE, where one of them underflows. -/
theorem notes_clean {steps : List Rounded} (h : ∀ s ∈ steps, s.overflows = false ∧ s.flags &&& flagIE = 0) {d : DwStep}
    (hd : d.ovf = none) : steps.foldl DwStep.note d =
      { flags := d.flags ||| flagIf (steps.any Rounded.underflows) flagUE, ovf := none } := by
  induction steps generalizing d with
  | nil =>
    obtain ⟨fl, o⟩ := d
    obtain rfl : o = none := hd
    exact congrArg (fun fl => ({ flags := fl, ovf := none } : DwStep)) BitVec.or_zero.symm
  | cons s ss ih =>
    obtain ⟨hoe, hie⟩ := h s List.mem_cons_self
    have hnote : d.note s = { flags := d.flags ||| flagIf s.underflows flagUE, ovf := none } := by
      unfold DwStep.note
      rw [if_neg (by simp [hd]), hie, show d.flags ||| 0 = d.flags from BitVec.or_zero]
      congr 1
      exact if_neg (Bool.eq_false_iff.mp hoe)
    rw [List.foldl_cons, hnote, ih (fun t ht => h t (List.mem_cons_of_mem _ ht)) rfl, List.any_cons, ← flagIf_or,
      BitVec.or_assoc]

theorem dwNotes_overflow {steps : List Rounded} {r : Rounded} (h : steps.find? Rounded.overflows = some r) :
    (dwNotes steps).ovf = some (decide (f32.signBit ≤ r.bits)) := notes_overflow h rfl

theorem dwNotes_clean {steps : List Rounded} (h : ∀ s ∈ steps, s.overflows = false ∧ s.flags &&& flagIE = 0) :
    dwNotes steps = { flags := flagIf (steps.any Rounded.underflows) flagUE, ovf := none } := by
  refine (notes_clean h rfl).trans ?_
  exact congrArg (fun fl => ({ flags := fl, ovf := none } : DwStep)) BitVec.zero_or

theorem overflows_eq_false {r : Rounded} : r.overflows = false ↔ r.flags &&& flagOE = 0 := bne_eq_false_iff_eq

/-! ### The end (R230) -/

/-- The exceptions of an overflow. -/
theorem overflow_flags (x : Flags) :
    ((x &&& flagIE) ||| flagOE ||| flagXE) &&& (flagOE ||| flagXE) = flagOE ||| flagXE := by
  have h : ∀ y : Flags, ((y &&& flagIE) ||| flagOE ||| flagXE) &&& (flagOE ||| flagXE) = flagOE ||| flagXE := by decide
  exact h x

/-- Whether a pair of finite halves is not the exact value. -/
theorem pair_inexact {h l : Nat} (hh : f32.Finite h) (hl : f32.Finite l) (exact : Dyad) :
    ((exact.sub (pairValue h l)).m != 0) = decide (pairRat h l ≠ exact.rat) := by
  rw [Bool.eq_iff_iff, bne_iff_ne, decide_eq_true_iff, ne_eq, ← Dyad.rat_eq_zero, Dyad.sub_rat, pairValue, Dyad.add_rat,
    FloatFmt.value_dyad hh, FloatFmt.value_dyad hl, sub_eq_zero, eq_comm]
  rfl

theorem all_not_special {xs : List Nat} (h : ∀ x ∈ xs, f32.Finite x) : (xs.all fun x => !(f32.value x).special) = true :=
  List.all_eq_true.mpr fun x hx => by rw [(f32.value_special x).mpr (h x hx)]; rfl

/-- The result of a run of roundings of finite operands. -/
theorem dwEnds_finish {steps : List Rounded} {prod : Option Rounded} {zh : Rounded} {zl : Nat} {ins : List Nat} {exact : Dyad}
    (hz : zh ∈ steps) (hbits : ∀ s ∈ steps, s.bits ≤ f32.top) (hins : ∀ x ∈ ins, f32.Finite x)
    (hclean : (∀ s ∈ steps, s.flags &&& flagOE = 0) → (∀ s ∈ steps, s.Clean) ∧ f32.Finite zl) :
    DwEnds steps prod zh zl exact.rat (((dwNotes steps).mark (prodFlag prod)).finish zh.bits zl ins exact) := by
  have htest : (fun s : Rounded => s.flags &&& flagOE != 0) = Rounded.overflows := rfl
  unfold DwEnds
  rw [htest]
  cases hfind : steps.find? Rounded.overflows with
  | some s =>
    have hovf : ((dwNotes steps).mark (prodFlag prod)).ovf = _ := dwNotes_overflow hfind
    unfold DwStep.finish
    rw [hovf, ← f32_neg_eq (hbits s (List.mem_of_find?_eq_some hfind))]
    exact ⟨rfl, rfl, overflow_flags _⟩
  | none =>
    have hoe (s : Rounded) (hs : s ∈ steps) : s.flags &&& flagOE = 0 :=
      overflows_eq_false.mp (Bool.eq_false_iff.mpr (List.find?_eq_none.mp hfind s hs))
    obtain ⟨hsteps, hzl⟩ := hclean hoe
    have hzh : f32.Finite zh.bits := (hsteps zh hz).finite (hoe zh hz)
    have hnotes := dwNotes_clean fun s hs => ⟨overflows_eq_false.mpr (hoe s hs), (hsteps s hs).valid⟩
    have hfin := all_not_special (xs := zh.bits :: zl :: ins) (by simpa [hzh, hzl] using hins)
    unfold DwStep.finish DwStep.mark
    rw [hnotes, ← pair_inexact hzh hzl]
    dsimp only
    rw [hfin, Bool.true_and]
    refine ⟨rfl, rfl, ?_⟩
    rw [BitVec.or_comm, ← BitVec.or_assoc]
    rfl

/-- Where a high half is a NaN or an infinity, the result is the rounded one of the high halves. -/
theorem dwSpecial_spec {q : Quantity} {r : Rounded} (h : f32.Delivers 1 false q r) (hq : ∀ n v, q ≠ .exact n v) :
    DwSpecial q (dwSpecial r) := by
  refine ⟨rfl, r, h, rfl, ?_⟩
  have hflags : ∃ s, r.flags = flagIf s flagIE := by
    cases q with
    | nan s => exact ⟨s, h.2⟩
    | infinite n => exact ⟨false, h.2⟩
    | exact n v => exact absurd rfl (hq n v)
  obtain ⟨s, hs⟩ := hflags
  rw [dwSpecial, hs]
  cases s <;> rfl

theorem exact_of_sum {mode : Nat} {x y : Quantity} {n : Bool} {v : Rat} (h : x.sum mode y = .exact n v) :
    (∃ m w, x = .exact m w) ∧ ∃ m w, y = .exact m w := by
  cases x with
  | nan s => cases y <;> cases h
  | infinite a =>
    cases y with
    | nan s => cases h
    | infinite b =>
      rw [Quantity.sum] at h
      split at h <;> cases h
    | exact m w => cases h
  | exact m w =>
    cases y with
    | nan s => cases h
    | infinite b => cases h
    | exact k u => exact ⟨⟨m, w, rfl⟩, k, u, rfl⟩

section
variable {a b : Nat} (h : ¬(f32.Finite a ∧ f32.Finite b))
include h

theorem special_of_not_finite : ((f32.value a).special || (f32.value b).special) = true := by
  by_contra hs
  rw [Bool.not_eq_true, Bool.or_eq_false_iff, f32.value_special, f32.value_special] at hs
  exact h hs

theorem dwSpecial_sum : DwSpecial ((f32.quantity a).sum 1 (f32.quantity b)) (dwSpecial (f32.add 1 false a b)) := by
  refine dwSpecial_spec (FloatFmt.add_delivers f32_sane 1 false a b) fun n v hq => h ?_
  obtain ⟨⟨_, _, ha⟩, _, _, hb⟩ := exact_of_sum hq
  exact ⟨finite_of_quantity ha, finite_of_quantity hb⟩

theorem dwSpecial_product : DwSpecial ((f32.quantity a).product (f32.quantity b)) (dwSpecial (f32.mul 1 false a b)) := by
  refine dwSpecial_spec (FloatFmt.mul_delivers f32_sane 1 false a b) fun n v hq => h ?_
  obtain ⟨⟨_, _, ha⟩, _, _, hb⟩ := exact_of_product hq
  exact ⟨finite_of_quantity ha, finite_of_quantity hb⟩

end

theorem dwSpecial_of_eq {q : Quantity} {r r' : PairResult} (h : DwSpecial q r) (hr : r' = r) : DwSpecial q r' := hr ▸ h

theorem not_special_of_finite {a b : Nat} (ha : f32.Finite a) (hb : f32.Finite b) :
    ¬((f32.value a).special || (f32.value b).special) = true := by
  rw [(f32.value_special a).mpr ha, (f32.value_special b).mpr hb]
  exact Bool.false_ne_true

/-! ### The steps of the machine (R229) -/

/-- The residual of a rounded sum, and the rounded residual of a rounded product. -/
def sumRest (a b : Nat) : Nat := (f32.addX 1 a b).lo
def prodRest (a b : Nat) : Rounded := f32.fma 1 false a b (((f32.mul 1 false a b).bits + f32.signBit) % 2 ^ 32)

/-- What is noted of a rounding does not tell whether it raised XINEX. -/
theorem DwStep.note_congr {r r' : Rounded} (hb : r.bits = r'.bits)
    (hf : ∀ x, flagXINEX &&& x = 0 → r.flags &&& x = r'.flags &&& x) (d : DwStep) : d.note r = d.note r' := by
  unfold DwStep.note
  rw [hb, hf flagIE rfl, hf flagXE rfl, hf flagOE rfl]

theorem addX_flags_and (a b : Nat) (x : Flags) (hx : flagXINEX &&& x = 0) :
    (f32.addX 1 a b).flags &&& x = (f32.add 1 false a b).flags &&& x := by
  unfold FloatFmt.addX FloatFmt.pairOf
  split
  · rfl
  · simp only [FloatFmt.residual, BitVec.and_or_distrib_right, flagIf_and, hx, flagIf_zero]
    exact BitVec.or_zero

theorem dwTwoSum_eq (d : DwStep) (a b : Nat) :
    dwTwoSum d a b = ((f32.add 1 false a b).bits, sumRest a b, d.note (f32.add 1 false a b)) := by
  have hnote := DwStep.note_congr (r := { bits := (f32.addX 1 a b).hi, flags := (f32.addX 1 a b).flags })
    (r' := f32.add 1 false a b) (addX_hi a b) (addX_flags_and a b) d
  unfold dwTwoSum
  dsimp only
  rw [hnote, addX_hi]
  rfl

theorem dwTwoProd_eq (d : DwStep) (a b : Nat) :
    dwTwoProd d a b = ((f32.mul 1 false a b).bits, (prodRest a b).bits,
      ((d.note (f32.mul 1 false a b)).note (prodRest a b)).mark (prodFlag (some (prodRest a b)))) := rfl

theorem dwAdd_eq (d : DwStep) (a b : Nat) : dwAdd d a b = ((f32.add 1 false a b).bits, d.note (f32.add 1 false a b)) := rfl
theorem dwMul_eq (d : DwStep) (a b : Nat) : dwMul d a b = ((f32.mul 1 false a b).bits, d.note (f32.mul 1 false a b)) := rfl
theorem dwFma_eq (d : DwStep) (a b c : Nat) :
    dwFma d a b c = ((f32.fma 1 false a b c).bits, d.note (f32.fma 1 false a b c)) := rfl

theorem twoProd_mul (a b : Nat) : twoProd a b (f32.mul 1 false a b) (prodRest a b) := by
  refine ⟨FloatFmt.mul_delivers f32_sane 1 false a b, ?_⟩
  rw [← f32_opposite_eq (FloatFmt.mul_le ..)]
  exact FloatFmt.fma_delivers f32_sane 1 false a b _

theorem sumRest_finite {a b : Nat} (ha : f32.Finite a) (hb : f32.Finite b) (hoe : (f32.add 1 false a b).flags &&& flagOE = 0) :
    f32.Finite (sumRest a b) :=
  (addX_finite ha hb ((addX_flags a b).trans hoe)).2

theorem prodRest_clean {a b : Nat} (ha : f32.Finite a) (hb : f32.Finite b) (hoe : (f32.mul 1 false a b).flags &&& flagOE = 0) :
    (prodRest a b).Clean :=
  fma_clean ha hb (f32_finite_opposite ((mul_clean ha hb).finite hoe))

theorem prodRest_le (a b : Nat) : (prodRest a b).bits ≤ f32.top := FloatFmt.fma_le ..

theorem pairValue_rat {h l : Nat} (hh : f32.Finite h) (hl : f32.Finite l) : (pairValue h l).rat = pairRat h l := by
  rw [pairValue, Dyad.add_rat, FloatFmt.value_dyad hh, FloatFmt.value_dyad hl]
  rfl

/-! ### The algorithms (R229) -/

theorem dwadd_spec (xh xl yh yl : Nat) : DwSum xh xl yh yl (dwadd xh xl yh yl) := by
  refine ⟨fun ⟨hxh, hxl, hyh, hyl⟩ => ?_, fun h => dwSpecial_of_eq (dwSpecial_sum h) (if_pos (special_of_not_finite h))⟩
  let sh := f32.add 1 false xh yh
  let th := f32.add 1 false xl yl
  let c := f32.add 1 false (sumRest xh yh) th.bits
  let vh := f32.add 1 false sh.bits c.bits
  let w := f32.add 1 false (sumRest xl yl) (sumRest sh.bits c.bits)
  let zh := f32.add 1 false vh.bits w.bits
  have hop : dwadd xh xl yh yl = (dwNotes [sh, th, c, vh, w, zh]).finish zh.bits (sumRest vh.bits w.bits) [xh, xl, yh, yl]
      ((pairValue xh xl).add (pairValue yh yl)) := by
    unfold dwadd
    rw [if_neg (not_special_of_finite hxh hyh)]
    simp only [dwTwoSum_eq, dwAdd_eq]
    rfl
  refine ⟨sh, _, th, _, c, vh, _, w, zh, _, twoSum_addX .., twoSum_addX .., FloatFmt.add_delivers f32_sane .., twoSum_addX ..,
    FloatFmt.add_delivers f32_sane .., twoSum_addX .., ?_⟩
  rw [hop, ← pairValue_rat hxh hxl, ← pairValue_rat hyh hyl, ← Dyad.add_rat, ← DwStep.mark_zero (dwNotes _)]
  refine dwEnds_finish (prod := none) (by simp) ?_ (by simp [hxh, hxl, hyh, hyl]) ?_
  · simp [sh, th, c, vh, w, zh, FloatFmt.add_le]
  · simp only [List.forall_mem_cons]
    rintro ⟨noSh, noTh, noC, noVh, noW, noZh, -⟩
    have cleanSh := add_clean hxh hyh
    have cleanTh := add_clean hxl hyl
    have cleanC := add_clean (sumRest_finite hxh hyh noSh) (cleanTh.finite noTh)
    have cleanVh := add_clean (cleanSh.finite noSh) (cleanC.finite noC)
    have cleanW := add_clean (sumRest_finite hxl hyl noTh) (sumRest_finite (cleanSh.finite noSh) (cleanC.finite noC) noVh)
    have cleanZh := add_clean (cleanVh.finite noVh) (cleanW.finite noW)
    exact ⟨⟨cleanSh, cleanTh, cleanC, cleanVh, cleanW, cleanZh, by simp⟩,
      sumRest_finite (cleanVh.finite noVh) (cleanW.finite noW) noZh⟩

theorem dwadds_spec (xh xl y : Nat) : DwSumSingle xh xl y (dwadds xh xl y) := by
  refine ⟨fun ⟨hxh, hxl, hy⟩ => ?_, fun h => dwSpecial_of_eq (dwSpecial_sum h) (if_pos (special_of_not_finite h))⟩
  let sh := f32.add 1 false xh y
  let v := f32.add 1 false xl (sumRest xh y)
  let zh := f32.add 1 false sh.bits v.bits
  have hop : dwadds xh xl y = (dwNotes [sh, v, zh]).finish zh.bits (sumRest sh.bits v.bits) [xh, xl, y]
      ((pairValue xh xl).add (f32.value y).dyad) := by
    unfold dwadds
    rw [if_neg (not_special_of_finite hxh hy)]
    simp only [dwTwoSum_eq, dwAdd_eq]
    rfl
  refine ⟨sh, _, v, zh, _, twoSum_addX .., FloatFmt.add_delivers f32_sane .., twoSum_addX .., ?_⟩
  rw [hop, ← pairValue_rat hxh hxl, ← FloatFmt.value_dyad hy, ← Dyad.add_rat, ← DwStep.mark_zero (dwNotes _)]
  refine dwEnds_finish (prod := none) (by simp) ?_ (by simp [hxh, hxl, hy]) ?_
  · simp [sh, v, zh, FloatFmt.add_le]
  · simp only [List.forall_mem_cons]
    rintro ⟨noSh, noV, noZh, -⟩
    have cleanSh := add_clean hxh hy
    have cleanV := add_clean hxl (sumRest_finite hxh hy noSh)
    have cleanZh := add_clean (cleanSh.finite noSh) (cleanV.finite noV)
    exact ⟨⟨cleanSh, cleanV, cleanZh, by simp⟩,
      sumRest_finite (cleanSh.finite noSh) (cleanV.finite noV) noZh⟩

theorem dwmul_spec (xh xl yh yl : Nat) : DwProduct xh xl yh yl (dwmul xh xl yh yl) := by
  refine ⟨fun ⟨hxh, hxl, hyh, hyl⟩ => ?_,
    fun h => dwSpecial_of_eq (dwSpecial_product h) (if_pos (special_of_not_finite h))⟩
  let ch := f32.mul 1 false xh yh
  let ca := prodRest xh yh
  let m0 := f32.mul 1 false xl yl
  let m1 := f32.fma 1 false xh yl m0.bits
  let cb := f32.fma 1 false xl yh m1.bits
  let cc := f32.add 1 false ca.bits cb.bits
  let zh := f32.add 1 false ch.bits cc.bits
  have hop : dwmul xh xl yh yl = ((dwNotes [ch, ca, m0, m1, cb, cc, zh]).mark (prodFlag (some ca))).finish zh.bits
      (sumRest ch.bits cc.bits) [xh, xl, yh, yl] ((pairValue xh xl).mul (pairValue yh yl)) := by
    unfold dwmul
    rw [if_neg (not_special_of_finite hxh hyh)]
    simp only [dwTwoProd_eq, dwMul_eq, dwFma_eq, dwAdd_eq, dwTwoSum_eq, DwStep.note_mark]
    rfl
  refine ⟨ch, ca, m0, m1, cb, cc, zh, _, twoProd_mul .., FloatFmt.mul_delivers f32_sane .., FloatFmt.fma_delivers f32_sane ..,
    FloatFmt.fma_delivers f32_sane .., FloatFmt.add_delivers f32_sane .., twoSum_addX .., ?_⟩
  rw [hop, ← pairValue_rat hxh hxl, ← pairValue_rat hyh hyl, ← Dyad.mul_rat]
  refine dwEnds_finish (by simp) ?_ (by simp [hxh, hxl, hyh, hyl]) ?_
  · simp [ch, ca, m0, m1, cb, cc, zh, FloatFmt.add_le, FloatFmt.mul_le, FloatFmt.fma_le, prodRest_le]
  · simp only [List.forall_mem_cons]
    rintro ⟨noCh, noCa, noM0, noM1, noCb, noCc, noZh, -⟩
    have cleanCh := mul_clean hxh hyh
    have cleanCa := prodRest_clean hxh hyh noCh
    have cleanM0 := mul_clean hxl hyl
    have cleanM1 := fma_clean hxh hyl (cleanM0.finite noM0)
    have cleanCb := fma_clean hxl hyh (cleanM1.finite noM1)
    have cleanCc := add_clean (cleanCa.finite noCa) (cleanCb.finite noCb)
    have cleanZh := add_clean (cleanCh.finite noCh) (cleanCc.finite noCc)
    exact ⟨⟨cleanCh, cleanCa, cleanM0, cleanM1, cleanCb, cleanCc, cleanZh, by simp⟩,
      sumRest_finite (cleanCh.finite noCh) (cleanCc.finite noCc) noZh⟩

theorem dwmuls_spec (xh xl y : Nat) : DwProductSingle xh xl y (dwmuls xh xl y) := by
  refine ⟨fun ⟨hxh, hxl, hy⟩ => ?_, fun h => dwSpecial_of_eq (dwSpecial_product h) (if_pos (special_of_not_finite h))⟩
  let ch := f32.mul 1 false xh y
  let ca := prodRest xh y
  let cb := f32.mul 1 false xl y
  let th := f32.add 1 false ch.bits cb.bits
  let w := f32.add 1 false (sumRest ch.bits cb.bits) ca.bits
  let zh := f32.add 1 false th.bits w.bits
  have hop : dwmuls xh xl y = ((dwNotes [ch, ca, cb, th, w, zh]).mark (prodFlag (some ca))).finish zh.bits
      (sumRest th.bits w.bits) [xh, xl, y] ((pairValue xh xl).mul (f32.value y).dyad) := by
    unfold dwmuls
    rw [if_neg (not_special_of_finite hxh hy)]
    simp only [dwTwoProd_eq, dwMul_eq, dwAdd_eq, dwTwoSum_eq, DwStep.note_mark]
    rfl
  refine ⟨ch, ca, cb, th, _, w, zh, _, twoProd_mul .., FloatFmt.mul_delivers f32_sane .., twoSum_addX ..,
    FloatFmt.add_delivers f32_sane .., twoSum_addX .., ?_⟩
  rw [hop, ← pairValue_rat hxh hxl, ← FloatFmt.value_dyad hy, ← Dyad.mul_rat]
  refine dwEnds_finish (by simp) ?_ (by simp [hxh, hxl, hy]) ?_
  · simp [ch, ca, cb, th, w, zh, FloatFmt.add_le, FloatFmt.mul_le, prodRest_le]
  · simp only [List.forall_mem_cons]
    rintro ⟨noCh, noCa, noCb, noTh, noW, noZh, -⟩
    have cleanCh := mul_clean hxh hy
    have cleanCa := prodRest_clean hxh hy noCh
    have cleanCb := mul_clean hxl hy
    have cleanTh := add_clean (cleanCh.finite noCh) (cleanCb.finite noCb)
    have cleanW := add_clean (sumRest_finite (cleanCh.finite noCh) (cleanCb.finite noCb) noTh) (cleanCa.finite noCa)
    have cleanZh := add_clean (cleanTh.finite noTh) (cleanW.finite noW)
    exact ⟨⟨cleanCh, cleanCa, cleanCb, cleanTh, cleanW, cleanZh, by simp⟩,
      sumRest_finite (cleanTh.finite noTh) (cleanW.finite noW) noZh⟩

theorem dwnorm_spec (xh xl : Nat) : DwNormal xh xl (dwnorm xh xl) := by
  refine ⟨fun ⟨hxh, hxl⟩ => ?_, fun h => ?_, fun h => ?_⟩
  · let zh := f32.add 1 false xh xl
    have hop : dwnorm xh xl = (dwNotes [zh]).finish zh.bits (sumRest xh xl) [xh, xl] (pairValue xh xl) := by
      obtain ⟨m, e, hv, -⟩ := FloatFmt.value_of_finite hxh
      unfold dwnorm
      rw [hv]
      simp only [dwTwoSum_eq]
      rfl
    refine ⟨zh, _, twoSum_addX .., ?_⟩
    rw [hop, ← pairValue_rat hxh hxl, ← DwStep.mark_zero (dwNotes _)]
    refine dwEnds_finish (prod := none) (by simp) ?_ (by simp [hxh, hxl]) ?_
    · simp [zh, FloatFmt.add_le]
    · simp only [List.forall_mem_cons]
      exact fun ⟨h1, _⟩ => ⟨⟨add_clean hxh hxl, by simp⟩, sumRest_finite hxh hxl h1⟩
  · unfold dwnorm
    rw [FloatFmt.value_nan h]
    exact ⟨rfl, rfl, rfl⟩
  · unfold dwnorm
    rw [FloatFmt.value_inf h]
    exact ⟨rfl, rfl, rfl⟩

/-! ### The obligation -/

theorem State.finishDw_ok {s : State} {p : Path} (fields : List Nat) {d : Nat} (r : Nat → PairResult)
    (hd : (s.troupe p).checkDest p [d, d + 1] = .ok ()) : s.finishDw p fields d r =
      .ok (groupWritten (s.popPorts p fields) p d (dwPair r) (orFlags (p.active.lanes.map fun l => (r l).flags))) :=
  State.finishGroup_ok (vs := dwPair r) fields (fun l => (r l).flags) hd

theorem dwPairs_of_spec {mk : Head → RForm → Instr} {R : Nat → Nat → Nat → Nat → PairResult → Prop}
    {op : Nat → Nat → Nat → Nat → PairResult} (he : ∀ h f s, exec (mk h f) s = dwPairs (mk h f) h f op s)
    (hR : ∀ xh xl yh yl, R xh xl yh yl (op xh xl yh yl)) : DwPairs mk R := by
  intro h f s p s1 s2 x y b hx hy hd
  exact ⟨_, (he h f s).trans (runThread_ok b ((Exe.bind_of_ok hx).trans ((Exe.bind_of_ok hy).trans
    (State.finishDw_ok [] _ hd)))), fun l _ => hR ..⟩

theorem dwSingles_of_spec {mk : Head → RForm → Instr} {R : Nat → Nat → Nat → PairResult → Prop}
    {op : Nat → Nat → Nat → PairResult} (he : ∀ h f s, exec (mk h f) s = dwSingle (mk h f) h f op s)
    (hR : ∀ xh xl y, R xh xl y (op xh xl y)) : DwSingles mk R := by
  intro h f s p s1 s2 x y b hports hx hy hd
  exact ⟨_, (he h f s).trans (runThread_ok b ((Exe.bind_of_ok hx).trans
    ((Exe.bind_of_ok (a := ()) (State.checkOperand_of_operand rfl hy)).trans ((Exe.bind_of_ok hports).trans
      ((Exe.bind_of_ok hy).trans (State.finishDw_ok _ _ hd)))))), fun l _ => hR ..⟩

/-- Settles O39: each algorithm's roundings are those that R229 names, and `DwStep` takes down what R230 raises. -/
theorem doubleWords : Obligations.DoubleWords := by
  unfold Obligations.DoubleWords
  refine ⟨dwPairs_of_spec exec_dwadd dwadd_spec, dwSingles_of_spec exec_dwadds dwadds_spec,
    dwPairs_of_spec exec_dwmul dwmul_spec, dwSingles_of_spec exec_dwmuls dwmuls_spec, fun h f s p s1 s2 x b hx hd => ?_⟩
  exact ⟨_, (exec_dwnorm h f s).trans (runThread_ok b ((Exe.bind_of_ok hx).trans (State.finishDw_ok [] _ hd))),
    fun l _ => dwnorm_spec ..⟩

end Sys2Proof.Machine
end
